-- ==== Sys2Proof/Word.lean ====
section
/-!
DEFINITION. Words of the Hulor Wyune: the widths the manual treats as bits, and their plainest names.
-/
namespace Sys2Proof

/-- One byte of any memory. -/
abbrev Byte := BitVec 8

/-- A 32-bit accumulator word, table entry or vector lane. -/
abbrev W32 := BitVec 32

/-- An `s` register, a world address, a state register (Table 1.2). -/
abbrev W64 := BitVec 64

/-- An instruction word (R67). -/
abbrev W48 := BitVec 48

/-- A vector register or a bank row (R120). -/
abbrev Row := BitVec 1024

/-- `Sext(v, n)` of Table 0.2 as a 64-bit value. -/
abbrev sextW {n : Nat} (v : BitVec n) : W64 := v.signExtend 64

end Sys2Proof
end

