-- ==== Sys2Proof/Config.lean ====
section
/-!
DEFINITION. What the manual leaves to the implementation: free values. None has a body, so no statement can rest on one
(notes/assumptions/6.md).
-/
namespace Sys2Proof.Config

/-- A fresh unspecified byte, for the n-th use of one (R6; used only where R6's two choices leave the byte open). -/
opaque freeByte : Nat → Byte

/-- Where a firmware image keeps a world's context (Table 10.3) and its prefix record (Table 12.1) in firmware memory, in units
of 512 and of 64 bytes, by the image's body and the world: the manual gives no address (notes/assumptions/103.md). -/
opaque contextSlot : List Byte → Nat → Nat
opaque prefixSlot : List Byte → Nat → Nat

/-- Cycles that the n-th page walk takes (R240 gives none). -/
opaque walkCycles : Nat → Nat

/-- Cycles that the firmware takes to come to a mailbox command, by the cycle of its submission (R390, R391 give none). -/
opaque commandCycles : Nat → Nat

/-- A level 4 phase latency in cycles, for the n-th use of one (R369). -/
opaque podLatency : Nat → Nat

/-- PAD where a converting window lands outside a bank: the manual names no field for it (R282), by format code. -/
opaque cardPad : Nat → W32

/-- Byte k of a destination element wider than the source element whose bytes a copy moves unchanged into it (Table 2.7 gives
none), by the source element's bytes. -/
opaque movedByte : List Byte → Nat → Byte

/-- The signature that the n-th completed scan run gives (R359). -/
opaque scanSignature : Nat → W64

/-- The byte RUN leaves at an offset of a core's window (R359). -/
opaque scanByte : Nat → Nat → Byte

/-- The key of a world's key-store slot, by world and the number of keys made before it (R251, R392). -/
opaque worldKey : Nat → Nat → List Byte

/-- The attestation signature of a report body (R408): SLH-DSA-SHAKE-256s, 29,792 bytes. -/
opaque signReport : List Byte → List Byte

/-- Whether an SLH-DSA-SHAKE-256f signature verifies under the fused key (R407). -/
opaque verifyImage : List Byte → List Byte → Bool

/-- The measurement register that a firmware image extends, modulo 4 (R407 names it m), by the image's header. -/
opaque imageRegister : List Byte → Nat

/-- A world's ML-KEM-1024 encapsulation key, 1,568 bytes (R408). -/
opaque kemKey : Nat → List Byte

/-- The certificate of the attestation key (R408). -/
opaque certificate : List Byte

/-- The session key of a migration, by world and attempt (R406). -/
opaque sessionKey : Nat → Nat → List Byte

/-- A key wrapped, or a granule sealed, under a session key (R406). -/
opaque wrap : List Byte → List Byte → List Byte

/-- The minimum security number in fuses (R407). -/
opaque fusedMinimum : Nat

/-- This package's index in the pod (Table 8.1). -/
opaque packageIndex : BitVec 10

/-- The form that only the dispatcher reads of resident state other than the window image (R346). -/
opaque residentByte : Nat → Nat → Byte

end Sys2Proof.Config
end

