-- ==== Sys2Proof/Syntax.lean ====
section
/-!
DEFINITION. The instructions of the Hulor Wyune, one constructor per row of spec/opcode_table.json: first the words of
the control, vector, matrix and table columns, with the operand fields the instruction chapters give them, then the
machine's own steps (the table's event rows), whose operands say which unit the step belongs to.
-/
namespace Sys2Proof

/-- An `s` register number (R70). -/
abbrev SReg := BitVec 5
/-- A `c` register number; the values a 5-bit field has above 15 are refused by the decoder (R70). -/
abbrev CReg := BitVec 4
/-- A predicate register number. -/
abbrev KReg := BitVec 3
/-- A `v` register number, or a bank field in memory mode (R121). -/
abbrev VReg := BitVec 5
/-- A mask register number. -/
abbrev MReg := BitVec 3
/-- A ring register number. -/
abbrev RnReg := BitVec 3

/-- The comparison codes of Table 3.3. -/
inductive Cond where
  | eq | ne | lt | ge | ltu | geu | gt | le | gtu | leu
deriving DecidableEq, Repr

/-- The predicate operations of Table 4.5. -/
inductive KFun where
  | and | or | xor | andn | not | orn
deriving DecidableEq, Repr

/-- The access sizes 1, 2, 4 and 8 bytes of Table 3.2. -/
inductive Size where
  | b1 | b2 | b4 | b8
deriving DecidableEq, Repr

/-- The scope codes of SCOPE (Table 1.5, R211). -/
inductive Scope where
  | task | core | group | cluster | tenant | system
deriving DecidableEq, Repr

/-- The type codes of R82. -/
inductive VType where
  | fp32 | bf16 | fp16 | int32
deriving DecidableEq, Repr

/-- The 16-bit type field T of Table 5.2. -/
inductive HType where
  | bf16 | fp16
deriving DecidableEq, Repr

/-- The block format field F of Table 5.2. -/
inductive BlockF where
  | bx8 | bx4
deriving DecidableEq, Repr

/-- Mask granularity G: lanes or 16-bit elements (R120). -/
inductive Gran where
  | lane | elem
deriving DecidableEq, Repr

/-- The conditions of VCMP (R127). -/
inductive VCond where
  | eq | ne | lt | le
deriving DecidableEq, Repr

/-- The forms of VMOV (R131): v from v, m from v, v from m. -/
inductive VmovForm where
  | vFromV | mFromV | vFromM
deriving DecidableEq, Repr

/-- The plane counts of MCFG (R154). -/
inductive Planes where
  | p2 | p4 | p6 | p8
deriving DecidableEq, Repr

/-- The time field of the Launch and Command forms (R72). -/
inductive TimeArg where
  | rel (t : BitVec 21)
  | abs (s : SReg)
deriving DecidableEq, Repr

/-- Step and repeat of a stream word (Table 3.4). -/
structure Stp where
  step : BitVec 12
  rep  : BitVec 12
deriving DecidableEq, Repr

/-- The function columns of a core. -/
inductive Col where
  | vector | matrix | table
deriving DecidableEq, Repr

/-! ### What a bind loads: task images and timetables (R90, R201) -/

/-- A `.bank` setting. -/
structure BankSet where
  bank : Nat
  fmt  : BitVec 4
  rnd  : BitVec 3
  pad  : BitVec 32
deriving DecidableEq, Repr

/-- A `.ring` setting. -/
structure RingSet where
  ring  : Nat
  first : Nat
  last  : Nat
  slot  : Nat
deriving DecidableEq, Repr

/-- The kinds of a `.footprint` region. -/
inductive FootKind where
  | read | write | acc | ring
deriving DecidableEq, Repr

/-- A `.footprint` region: `c` is the capability number whose base R260 gives. -/
structure Foot where
  kind : FootKind
  c    : Nat
  off  : Nat
  len  : Nat
deriving DecidableEq, Repr

/-- An `.expect` region. -/
structure Expect where
  c   : Nat
  off : Nat
  len : Nat
  tag : BitVec 16
deriving DecidableEq, Repr

/-- A task image: segment 0, its tag and the launch settings of Table 3.9. -/
structure TaskImage where
  cycmax    : BitVec 32
  segTag    : BitVec 16
  words     : List (Nat × W48)
  drainBase : Nat
  banks     : List BankSet
  rings     : List RingSet
  tables    : List (Nat × W32)
  foots     : List Foot
  expects   : List Expect
deriving DecidableEq, Repr

/-- A stage of a timetable. -/
structure Stage where
  task : TaskImage
  min  : Nat
  max  : Nat
deriving DecidableEq, Repr

/-- A timetable: its shape, its cluster (true for token) and its stages. -/
structure Timetable where
  width  : Nat
  height : Nat
  token  : Bool
  stages : List Stage
deriving DecidableEq, Repr

/-! ### Operands of the machine's own steps -/

/-- A collective's key (R371). -/
structure Key where
  comm : BitVec 16
  opix : BitVec 32
deriving DecidableEq, Repr

/-- The params a board compares (R372). -/
structure CollParams where
  opcode : BitVec 8
  op     : BitVec 4
  type   : BitVec 4
  n      : BitVec 32
deriving DecidableEq, Repr

/-- What a primary board decided and its standby records (R373): a number given to a key on a member's request, a number
opened, emptied or mismatched. -/
inductive Decision where
  | number (key : Key) (n : BitVec 32) (member : Nat)
  | opened (n : BitVec 32) (p : CollParams)
  | empty (n : BitVec 32)
  | mismatch (n : BitVec 32)
deriving DecidableEq, Repr

/-- The registers the debug port names (Table 15.9): those of Table 1.2 and Table 1.5. -/
inductive RegName where
  | s (n : SReg) | c (n : CReg) | k (n : KReg) | lc (n : BitVec 2) | mb (n : BitVec 4)
  | v (n : VReg) | m (n : MReg) | q (n : BitVec 2) | wl (which : Bool) (row : BitVec 8) | sv (n : BitVec 8)
  | rn (n : RnReg) | wm (n : BitVec 4) | dq (n : BitVec 12) | st (n : BitVec 8)
deriving DecidableEq, Repr

/-- The fields of a jetton a scheduler writes (Table 8.2, Table 8.3). -/
inductive JField where
  | sealptr | link | prio | world | bwc | tth | roothi | rootcur
  | crec (q : BitVec 2) | widx (q : BitVec 2) | qen (q : BitVec 2) | qlog (q : BitVec 2) | qbase (q : BitVec 2)
deriving DecidableEq, Repr

/-- The fields of a world context (Table 10.3). -/
inductive WField where
  | ptroot | pgtbase | dirtybase | dirtyen | dbgen | conf | scopemax
  | range (k : BitVec 4) (word : BitVec 2)
deriving DecidableEq, Repr

/-- The fields of a segment directory entry the scheduler writes (Table 12.8). -/
inductive SegField where
  | peer0 | peer1 | lba | p0v | p1v
deriving DecidableEq, Repr

/-- What a firmware register write without a row of its own names. -/
inductive RegTarget where
  | jetton (j : Nat) (f : JField)
  | world (w : Nat) (f : WField)
  | coreMap (token : Bool) (idx : BitVec 10)
  | ssigx (core : Nat)
  | sctl (core : Nat)
  | segment (digest : List Byte) (f : SegField)
  | segmentPlace (digest : List Byte)
  | weightMap (world : Nat) (slot : Nat) (digest : List Byte)
  | sharedQuarter (core : Nat) (quarter : BitVec 2)
  | quota (world : Nat)
  | pcap
deriving DecidableEq, Repr

/-- A queue pair record (R402). -/
structure QPair where
  jetton : Nat
  queue  : BitVec 2
  world  : Nat
  mkey   : BitVec 32
  base   : W64
  length : W64
deriving DecidableEq, Repr

/-- The records INSTALL copies in (Table 19.6), as read at the record's address. A timetable image is given by what it
holds, since the manual gives no byte layout of `olas` output; every other record is its bytes. -/
inductive InstallRec where
  | timetable (t : Timetable) (raw : List Byte)
  | bytes (b : List Byte)
  | qpair (q : QPair)
deriving DecidableEq, Repr

/-- A partition command's resource kinds and who sends it: PCIe function 0 is the PF (R390, R391). -/
structure PCmd where
  fn    : Nat
  tag   : BitVec 16
  world : BitVec 16
  kind  : BitVec 16
  a     : W64
  b     : W64
  c     : W64
deriving DecidableEq, Repr

/-- An entry of a difference record (Table 17.9). -/
structure DiffEntry where
  off   : Nat
  bytes : List Byte
deriving DecidableEq, Repr

/-- Every step of the part: one constructor per row of spec/opcode_table.json. -/
inductive Instr where
  -- control column: arithmetic and logic (R96 to R101, R109)
  | add (d a b : SReg) | sub (d a b : SReg) | and (d a b : SReg) | or (d a b : SReg) | xor (d a b : SReg)
  | andn (d a b : SReg) | shl (d a b : SReg) | shrl (d a b : SReg) | shra (d a b : SReg) | rotl (d a b : SReg)
  | min (d a b : SReg) | max (d a b : SReg) | minu (d a b : SReg) | maxu (d a b : SReg)
  | addi (d a : SReg) (imm : BitVec 24) | andi (d a : SReg) (imm : BitVec 24) | ori (d a : SReg) (imm : BitVec 24)
  | xori (d a : SReg) (imm : BitVec 24)
  | shli (d a : SReg) (sh : BitVec 6) | shrli (d a : SReg) (sh : BitVec 6) | shrai (d a : SReg) (sh : BitVec 6)
  | movi (d : SReg) (imm : BitVec 24) | movhi (d : SReg) (imm : BitVec 24)
  | mov (d a : SReg) | clz (d a : SReg) | ctz (d a : SReg) | popc (d a : SReg)
  | sext (d a : SReg) (n1 : BitVec 6) | bfx (d a : SReg) (pos len1 : BitVec 6) | bfi (d a : SReg) (pos len1 : BitVec 6)
  | sel (d a b : SReg) (k : KReg) | mort (d a b : SReg) | umort (d a : SReg)
  | mul (d a b : SReg) | mulhs (d a b : SReg) | mulhu (d a b : SReg)
  | divs (d a b : SReg) | divu (d a b : SReg) | rems (d a b : SReg) | remu (d a b : SReg)
  | cmp (kd : KReg) (a b : SReg) (cond : Cond) | cmpi (kd : KReg) (a : SReg) (imm : BitVec 24) (cond : Cond)
  | kop (kd ka kb : KReg) (op : KFun)
  -- loads, stores and capabilities (R102 to R108)
  | ld (d : SReg) (c : CReg) (sz : Size) (off : BitVec 24) | lds (d : SReg) (c : CReg) (sz : Size) (off : BitVec 24)
  | st (d : SReg) (c : CReg) (sz : Size) (off : BitVec 24)
  | ldc (cd : CReg) (c : CReg) (off : BitVec 24) | stc (cd : CReg) (c : CReg) (off : BitVec 24)
  | loadStallComplete (core : Nat)
  | cbnd (cd ca : CReg) (b : SReg) | cperm (cd ca : CReg) (b : SReg) | cadd (cd ca : CReg) (b : SReg)
  | cset (cd ca : CReg) (b : SReg) | cget (d : SReg) (ca : CReg) (field : BitVec 3)
  | cseal (cd ca cb : CReg) | cunsl (cd ca cb : CReg) | ctst (kd : KReg) (ca : CReg) (cb : Option CReg)
  -- control flow (R109 to R112)
  | b (k : KReg) (sense : Bool) (off : BitVec 24) | j (off : BitVec 24) | jr (a : SReg)
  | jf (tag : BitVec 16) (target : BitVec 12) | call (d : SReg) (off : BitVec 24) | ret (a : SReg)
  | loop (lvl : BitVec 2) (count : BitVec 13) (off : BitVec 24) | loopr (lvl : BitVec 2) (reg : BitVec 13) (off : BitVec 24)
  -- launches and streams (R113, R26, R28)
  | vrun (addr cnt : BitVec 8) (c : CReg) (t : TimeArg) | mrun (addr cnt : BitVec 8) (c : CReg) (t : TimeArg)
  | trun (addr cnt : BitVec 8) (c : CReg) (t : TimeArg)
  | streamStart (core : Nat) (col : Col) | streamEndEvent (core : Nat) (col : Col)
  -- system group (R114 to R119)
  | trap (k : KReg) (sense : Bool) (code : BitVec 16) | svc (a : SReg) (code : BitVec 16)
  | srd (d : SReg) (num : BitVec 8) | swr (num : BitVec 8) (a : SReg) | time (d a : SReg) (tb : Bool)
  | bkpt (code : BitVec 16)
  -- atomics and home operations (R169 to R172, R209 to R221)
  | aadd (d : SReg) (c : CReg) (int32 : Bool) (off : BitVec 24) | axch (d : SReg) (c : CReg) (off : BitVec 24)
  | acas (d : SReg) (c : CReg) (off : BitVec 24) | ald (d : SReg) (c : CReg) (off : BitVec 24)
  | ast (d : SReg) (c : CReg) (off : BitVec 24)
  | homeOperationAct (id : Nat) | homeOperationReturn (id : Nat)
  | ssig (d : SReg) (c : CReg) (scope : Scope) (off : BitVec 24) | sset (d : SReg) (c : CReg) (off : BitVec 24)
  | swait (d : SReg) (c : CReg) (cond : Cond) (off : BitVec 24)
  | swaitConsume (d : SReg) (c : CReg) (unsigned : Bool) (off : BitVec 24)
  | rel (d : SReg) (c : CReg) (scope : Scope) (off : BitVec 24)
  | acq (d : SReg) (c : CReg) (cond : Cond) (scope : Scope) (off : BitVec 24)
  | homeWaitComplete (id : Nat)
  | rinit (rn : RnReg) (a : SReg) | rclm (d : SReg) (c : CReg) (rn : RnReg) (n : BitVec 12)
  | rwfl (d : SReg) (c : CReg) (rn : RnReg) (n : BitVec 12) | rwfr (d : SReg) (c : CReg) (rn : RnReg) (n : BitVec 12)
  | rpub (c : CReg) (rn : RnReg) (n : BitVec 12) | rrel (c : CReg) (rn : RnReg) (n : BitVec 12)
  | rstat (d : SReg) (c : CReg) (rn : RnReg)
  -- phases, fences, events, carry (R222 to R231)
  | parv (d : SReg) (lvl : BitVec 3) | pwait (lvl : BitVec 3) (a : SReg) | pbar (lvl : BitVec 3)
  | phaseArrival (dom : Nat) (core : Nat) (p : BitVec 32)
  | phaseCopyRegistration (dom : Nat) (id : Nat) (p : BitVec 32) | phaseCopyLanding (dom : Nat) (id : Nat) (p : BitVec 32)
  | phaseCopyWithdrawal (dom : Nat) (id : Nat) (p : BitVec 32)
  | phaseWaitComplete (core : Nat)
  | fence (scope : Scope) | wevComplete (core : Nat) | carry (d : SReg) (c : CReg) (off : BitVec 24)
  -- copies (R265 to R291)
  | cpy (a b : CReg) (len card : SReg) (t : TimeArg) | cpys (a b : CReg) (len card : SReg) (t : TimeArg)
  | cpyz (a b : CReg) (len card : SReg) (t : TimeArg) | cpyc (a b : CReg) (len card : SReg) (t : TimeArg)
  | cpyg (a b : CReg) (len card : SReg) (t : TimeArg) | cpym (a b : CReg) (len card : SReg) (t : TimeArg)
  | cpya (a b : CReg) (len card : SReg) (t : TimeArg) | cpyx (a b : CReg) (len card : SReg) (t : TimeArg)
  | cfch (b : CReg) (len card : SReg) (t : TimeArg)
  | cwm (d : SReg) (wm : BitVec 4) (clear : Bool) | ccan (d : SReg) (k : BitVec 4) | cstat (d : SReg) (k : BitVec 4)
  | copyEngineIssue (id : Nat) | copyBeatRead (id : Nat) | copyBeatLand (land : Nat)
  | copySemaphoreIncrement (addr : Nat) | copyRecordLanded (core : Nat) (k : BitVec 4) (id : Nat)
  | followOnPresent (id : Nat) | followOnStart (core : Nat)
  -- vector column (R120 to R146)
  | vadd (ty : VType) (d a b : VReg) (mem : Bool) (st : Stp) | vsub (ty : VType) (d a b : VReg) (mem : Bool) (st : Stp)
  | vmul (ty : VType) (d a b : VReg) (mem : Bool) (st : Stp) | vfma (ty : VType) (d a b : VReg) (mem : Bool) (st : Stp)
  | vfms (ty : VType) (d a b : VReg) (mem : Bool) (st : Stp) | vmax (ty : VType) (d a b : VReg) (mem : Bool) (st : Stp)
  | vmin (ty : VType) (d a b : VReg) (mem : Bool) (st : Stp)
  | vcmp (ty : VType) (md : MReg) (cond : VCond) (a b : VReg) (mem : Bool) (st : Stp)
  | vld (d : VReg) (row : BitVec 11) (st : Stp) | vst (s : VReg) (m : MReg) (g : Gran) (row : BitVec 7) (st : Stp)
  | vldb (d : VReg) (l : BitVec 5) (row : BitVec 6) (st : Stp) | vldx (d a : VReg) (row : BitVec 6) (st : Stp)
  | vstx (s a : VReg) (m : MReg) (row : BitVec 3) (st : Stp)
  | vmov (form : VmovForm) (d a : VReg) (mem : Bool) (st : Stp)
  | vabs (ty : VType) (d a : VReg) (mem : Bool) (st : Stp) | vneg (ty : VType) (d a : VReg) (mem : Bool) (st : Stp)
  | vsel (d a : VReg) (m : MReg) (g : Gran) (mem : Bool) (st : Stp)
  | vand (d a b : VReg) (mem : Bool) (st : Stp) | vor (d a b : VReg) (mem : Bool) (st : Stp)
  | vxor (d a b : VReg) (mem : Bool) (st : Stp)
  | vshl (d a : VReg) (sh : BitVec 5) (mem : Bool) (st : Stp) | vshr (d a : VReg) (sh : BitVec 5) (mem : Bool) (st : Stp)
  | vsra (d a : VReg) (sh : BitVec 5) (mem : Bool) (st : Stp)
  | vcvt (d a : VReg) (dt srcT : VType) (h : Bool) (mem : Bool) (st : Stp)
  | vrcp (ty : VType) (d a : VReg) (mem : Bool) (st : Stp) | vrsq (ty : VType) (d a : VReg) (mem : Bool) (st : Stp)
  | vexp2 (ty : VType) (d a : VReg) (mem : Bool) (st : Stp) | vlg2 (ty : VType) (d a : VReg) (mem : Bool) (st : Stp)
  | vrsum (ty : VType) (d a : VReg) (mem : Bool) (st : Stp) | vrmax (ty : VType) (d a : VReg) (mem : Bool) (st : Stp)
  | vbmax (a : VReg) (t : HType) (f : BlockF) (mem : Bool) (st : Stp) | vqsc (d : VReg) (k : BitVec 5) (st : Stp)
  | vqcvt (d a : VReg) (p : BitVec 2) (t : HType) (f : BlockF) (mem : Bool) (st : Stp)
  | vshuf (d a b : VReg) (g : Gran) (st : Stp) | viota (d : VReg) (g : Gran) (st : Stp)
  | vbcst (d a : VReg) (l : BitVec 5) (st : Stp)
  | vdfr (a : VReg) (m : MReg) (g : Gran) (mem : Bool) (st : Stp) | vdfd (d e : VReg) (m : MReg) (st : Stp)
  | vdfn (d : VReg) (clear : Bool) (st : Stp) | vnop (st : Stp)
  -- table column (R147 to R149)
  | tld (t : BitVec 6) (row : BitVec 10) (st : Stp) | tseg (ty : VType) (d a : VReg) (h : BitVec 4) (st : Stp)
  | tint (ty : VType) (d a : VReg) (h : BitVec 4) (st : Stp) | tqad (ty : VType) (d a : VReg) (h : BitVec 4) (st : Stp)
  | tclmp (ty : VType) (d a : VReg) (h : BitVec 4) (st : Stp)
  -- matrix column (R150 to R167)
  | mcfg (p : Planes) (g : VReg) (x : BitVec 5) (st : Stp) | mwld (a s : VReg) (st : Stp) | mwsw (st : Stp)
  | mma (a e : VReg) (acc : BitVec 6) (st : Stp) | mmo (a e : VReg) (acc : BitVec 6) (st : Stp)
  | mdrn (d : VReg) (aw : BitVec 11) (st : Stp) | mzro (acc : BitVec 6) (st : Stp) | mscl (a : VReg) (j : BitVec 3) (st : Stp)
  | mnop (st : Stp)
  -- prefix cache and weights (R292 to R314)
  | kvhs (a b : CReg) | kvlk (a b : CReg) (ref : Bool) | kvin (d : SReg) (a b : CReg) | kvap (b : CReg)
  | kvrl (d : SReg) (b : CReg) | kvex (d : SReg) (a b : CReg) | kvim (d : SReg) (a b : CReg) | wseg (a b : CReg)
  | wprf (a : CReg)
  | prefixCommandDepart (id : Nat) | prefixCommandStart (id : Nat) | prefixCommandAct (id : Nat)
  | prefixResultWrite (id : Nat) | prefixCompletionCount (id : Nat) | journalReply (id : Nat)
  -- fabric and collectives (R370 to R382)
  | xseq (d a b : SReg) | xbar (a b : SReg) | xcan (d a b : SReg) | xwait (d a b : SReg)
  | fabricWaitComplete (core : Nat)
  | xar (a b : CReg) (len card : SReg) (t : TimeArg) | xag (a b : CReg) (len card : SReg) (t : TimeArg)
  | xrs (a b : CReg) (len card : SReg) (t : TimeArg) | xata (a b : CReg) (len card : SReg) (t : TimeArg)
  | collectiveEngineEntry (id : Nat) | collectiveStart (comm : BitVec 16) (n : BitVec 32)
  | collectiveComplete (key : Key)
  | heartbeat (comm : BitVec 16) | heartbeatTimeout (comm : BitVec 16)
  -- dispatch, replay, pre-emption, scrub (R179 to R205, R321 to R355)
  | selection (token : Bool) | starvationBar (token : Bool)
  | taskStart (core : Nat) | taskEnd (core : Nat) | taskRestart (core : Nat)
  | completionRecordWrite (jetton : Nat) | overrun (core : Nat) | replayStart (core : Nat)
  | drainDivert (core : Nat) | sealCore (core : Nat) | sealRecordComplete (core : Nat)
  | evictionComplete (jetton : Nat)
  | coreScrubStart (core : Nat) | coreScrubEnd (core : Nat)
  -- queue processors (R398, R399)
  | queueEntryTake (queue : Nat) | queuePollTimer (queue : Nat) | queueNop (queue : Nat) | queueWait (queue : Nat)
  | queueWaitComplete (queue : Nat) | signal (queue : Nat) | queueSet (queue : Nat) | launch (queue : Nat)
  | launchEntryLanding (queue : Nat) (id : Nat) | launchSemaphoreIncrement (addr : Nat) (world : Nat)
  | copy (queue : Nat) | fill (queue : Nat) | irq (queue : Nat) | queueFence (queue : Nat) | tstamp (queue : Nat)
  | queueXlateRetry (queue : Nat)
  -- timetable planes, scan, physical (R383, R356 to R361, R413 to R420)
  | scanDrainEnd (core : Nat) | scanRunEnd (core : Nat) | scanScrubEnd (core : Nat)
  | pluginCallTimeout (fp : Nat)
  -- words without operands, and the steps that only the outside world causes: they stand last because compiled code
  -- builds at most 244 kinds of constructor with fields
  | nop | done | eret | wev | xlateService (world : Nat) (va : W64) (mapped : Bool) | coldStartFetch
  | segmentPieceLand (digest : List Byte) (piece : BitVec 5) (pds : List (List Byte)) (data : List Byte)
  | assign (sender : Nat) (epoch : Nat) (key : Key)
  | openMsg (sender : Nat) (epoch : Nat) (comm : BitVec 16) (n : BitVec 32) (params : CollParams)
  | cancel (sender : Nat) (epoch : Nat) (key : Key)
  | collectiveDoneMessage (sender : Nat) (epoch : Nat) (comm : BitVec 16) (n : BitVec 32)
  | number (epoch : Nat) (key : Key) (n : BitVec 32) | opened (epoch : Nat) (comm : BitVec 16) (n : BitVec 32)
  | empty (epoch : Nat) (comm : BitVec 16) (n : BitVec 32)
  | mismatch (epoch : Nat) (comm : BitVec 16) (n : BitVec 32) | cancelled (epoch : Nat) (key : Key) (n : BitVec 32)
  | started (epoch : Nat) (key : Key) | allopened (epoch : Nat) (comm : BitVec 16) (n : BitVec 32)
  | standbyDecision (epoch : Nat) (comm : BitVec 16) (decision : Nat) (what : Decision)
  | standbyAck (epoch : Nat) (comm : BitVec 16) (decision : Nat)
  | epochAnnounce (comm : BitVec 16) (epoch : Nat) (primary : Nat) | preemptionRequest (jetton : Nat)
  | evictionRequest (jetton : Nat) | jettonRelease (jetton : Nat) | halt (core : Nat)
  | step (core : Nat) (n : BitVec 16) | cont (core : Nat) | rreg (core : Nat) (r : RegName)
  | wreg (core : Nat) (r : RegName) (value : BitVec 1056) | flr (world : Nat)
  | registerWrite (r : RegTarget) (value : BitVec 256) | create (p : PCmd) | destroy (p : PCmd) | grant (p : PCmd)
  | revoke (p : PCmd) | resize (p : PCmd) (frames : List W64) | bwset (p : PCmd) (mask : BitVec 1024)
  | install (p : PCmd) (r : InstallRec) | inval (p : PCmd) | query (p : PCmd) | qctlReset (p : PCmd)
  | qctlEnable (p : PCmd) | root (p : PCmd) (cap : BitVec 128) | migrateAttest (p : PCmd) (ok : Bool)
  | migrateTrack (p : PCmd) | migratePass (p : PCmd) | migrateSeal (p : PCmd)
  | migratePrefix (p : PCmd) (verified : List Nat) | migrateKeys (p : PCmd) | migrateResume (p : PCmd)
  | jettonDoorbell (fn : Nat) (jetton : Nat) (q : BitVec 2) (widx : BitVec 32)
  | commandQueueDoorbell (fn : Nat) (queue : Nat) | hostRead (fn : Nat) (bar : Nat) (addr : W64) (n : Nat)
  | hostWrite (fn : Nat) (bar : Nat) (addr : W64) (data : List Byte)
  | hostFetchadd (fn : Nat) (addr : W64) (bits : Nat) (x : W64)
  | hostSwap (fn : Nat) (addr : W64) (bits : Nat) (x : W64)
  | hostCas (fn : Nat) (addr : W64) (bits : Nat) (cmp x : W64)
  | roceSend (qp : Nat) (payload : List Byte) (imm : Option (BitVec 32))
  | roceRdmaWriteWithImmediate (qp : Nat) (mkey : BitVec 32) (addr : W64) (payload : List Byte) (imm : BitVec 32)
  | udpRequestFrame (header : List Byte) (payload : List Byte)
  | timetableDifference (tth : BitVec 16) (base new : List Byte) (entries : List DiffEntry) (img : Timetable)
  | scanHold (core : Nat) | scanStart (core : Nat) | scanRelease (core : Nat) | powerCapHold (watts : Nat)
  | coreRegulatorTrip | thermalHold (die : BitVec 4) (celsius : Nat) | thermalReset
  | sensorUpdate (sensor : Nat) (value : Nat) | powerUp (pass : BitVec 2048)
  | firmwareImageLoad (hdr : List Byte) (body : List Byte) (sig : List Byte)
  | attestationRequest (nonce : List Byte) (world : BitVec 16) | certificateRequest
  | flitCrcReplay (port : BitVec 5) (seq : Nat) | portRetrain (port : BitVec 5) (up : Bool)
  | dieReset (die : BitVec 4) | collectiveDataArrival (key : Key) (rank : Nat) (off : Nat) (data : List Byte)
  | tierReadFailure (digest : List Byte)
deriving DecidableEq, Repr

end Sys2Proof
end

