-- ==== Sys2Proof/WellFormed.lean ====
section
/-!
DEFINITION. Which terms of `Instr` stand for something the manual admits: the operand values that the encoding could
write but the manual reserves, and the ranges of the indices of the machine's own steps.
-/
namespace Sys2Proof

/-- Physical cores 0 to 2,047 (R183). -/
def coreCount : Nat := 2048

/-- Control columns: the cores, then the 16 firmware processors (R403). -/
def columnCount : Nat := 2064

/-- Jettons of the package (Table 0.1). -/
def jettonCount : Nat := 16384

/-- Command queues of the package (R397). -/
def queueCount : Nat := 2048

/-- R77: a stream block ends at or below 0xFFF. -/
def launchFits (addr cnt : BitVec 8) : Bool := addr.toNat * 16 + cnt.toNat ≤ 0xFFF

/-- The bits of an element of a vector type (R120). -/
def VType.bits : VType → Nat
  | .fp32 => 32
  | .bf16 => 16
  | .fp16 => 16
  | .int32 => 32

/-- The types of the function and table instructions: type 3 is refused (R127). -/
def VType.isFloat : VType → Bool
  | .int32 => false
  | _ => true

/-- The well-formedness of an instruction. -/
def Instr.wf : Instr → Bool
  | .kop _ _ kb op => op != .not || kb == 0
  | .acas d _ _ => d != 31
  | .vrun a n _ _ => launchFits a n
  | .mrun a n _ _ => launchFits a n
  | .trun a n _ _ => launchFits a n
  | .rclm _ _ _ n => n != 0
  | .rwfl _ _ _ n => n != 0
  | .rwfr _ _ _ n => n != 0
  | .rpub _ _ n => n != 0
  | .rrel _ _ n => n != 0
  | .parv _ l => l.toNat ≤ 4
  | .pwait l _ => l.toNat ≤ 4
  | .pbar l => l.toNat ≤ 4
  | .vmov .vFromV _ _ _ _ => true
  | .vmov .mFromV d _ mem _ => !mem && d.toNat < 8
  | .vmov .vFromM _ a mem _ => !mem && a.toNat < 8
  | .vcvt _ _ dt srcT h _ _ => !h || dt.bits != srcT.bits
  | .vrcp ty _ _ _ _ => ty.isFloat
  | .vrsq ty _ _ _ _ => ty.isFloat
  | .vexp2 ty _ _ _ _ => ty.isFloat
  | .vlg2 ty _ _ _ _ => ty.isFloat
  | .vqcvt _ _ p _ f _ _ => f == .bx4 || p.toNat < 2
  | .tseg ty _ _ _ _ => ty.isFloat
  | .tint ty _ _ _ _ => ty.isFloat
  | .tqad ty _ _ _ _ => ty.isFloat
  | .tclmp ty _ _ _ _ => ty.isFloat
  | .loadStallComplete c => c < columnCount
  | .streamStart c _ => c < coreCount
  | .streamEndEvent c _ => c < coreCount
  | .phaseWaitComplete c => c < coreCount
  | .wevComplete c => c < columnCount
  | .copyRecordLanded c _ _ => c < coreCount
  | .followOnStart c => c < coreCount
  | .fabricWaitComplete c => c < columnCount
  | .taskStart c => c < coreCount
  | .taskEnd c => c < coreCount
  | .taskRestart c => c < coreCount
  | .overrun c => c < coreCount
  | .replayStart c => c < coreCount
  | .drainDivert c => c < coreCount
  | .sealCore c => c < coreCount
  | .sealRecordComplete c => c < coreCount
  | .coreScrubStart c => c < coreCount
  | .coreScrubEnd c => c < coreCount
  | .halt c => c < coreCount
  | .step c n => c < coreCount && n != 0
  | .cont c => c < coreCount
  | .rreg c _ => c < coreCount
  | .wreg c _ _ => c < coreCount
  | .completionRecordWrite x => x < jettonCount
  | .preemptionRequest x => x < jettonCount
  | .evictionRequest x => x < jettonCount
  | .evictionComplete x => x < jettonCount
  | .jettonRelease x => x < jettonCount
  | .jettonDoorbell _ x _ _ => x < jettonCount
  | .commandQueueDoorbell _ k => k < queueCount
  | .scanHold c => c < coreCount
  | .scanStart c => c < coreCount
  | .scanRelease c => c < coreCount
  | .scanDrainEnd c => c < coreCount
  | .scanRunEnd c => c < coreCount
  | .scanScrubEnd c => c < coreCount
  | .pluginCallTimeout p => p < 16
  | .powerCapHold _ => true
  | _ => true

/-- The words: instructions that an encoding of the manual writes. The machine's own steps have none. -/
def Instr.isWord : Instr → Bool
  | .loadStallComplete _ | .streamStart _ _ | .streamEndEvent _ _ => false
  | .homeOperationAct _ | .homeOperationReturn _ | .homeWaitComplete _ => false
  | .phaseArrival _ _ _ | .phaseCopyRegistration _ _ _ | .phaseCopyLanding _ _ _ | .phaseCopyWithdrawal _ _ _ => false
  | .phaseWaitComplete _ | .wevComplete _ => false
  | .copyEngineIssue _ | .copyBeatRead _ | .copyBeatLand _ | .copySemaphoreIncrement _ | .copyRecordLanded _ _ _ => false
  | .xlateService _ _ _ | .followOnPresent _ | .followOnStart _ => false
  | .prefixCommandDepart _ | .prefixCommandStart _ | .prefixCommandAct _ | .prefixResultWrite _ => false
  | .prefixCompletionCount _ | .journalReply _ | .coldStartFetch | .segmentPieceLand _ _ _ _ => false
  | .fabricWaitComplete _ | .collectiveEngineEntry _ | .collectiveStart _ _ | .collectiveComplete _ => false
  | .assign _ _ _ | .openMsg _ _ _ _ _ | .cancel _ _ _ | .collectiveDoneMessage _ _ _ _ => false
  | .number _ _ _ | .opened _ _ _ | .empty _ _ _ | .mismatch _ _ _ | .cancelled _ _ _ | .started _ _ | .allopened _ _ _ => false
  | .standbyDecision _ _ _ _ | .standbyAck _ _ _ | .heartbeat _ | .heartbeatTimeout _ | .epochAnnounce _ _ _ => false
  | .selection _ | .starvationBar _ | .taskStart _ | .taskEnd _ | .taskRestart _ | .completionRecordWrite _ => false
  | .overrun _ | .replayStart _ | .preemptionRequest _ | .drainDivert _ | .sealCore _ | .sealRecordComplete _ => false
  | .evictionRequest _ | .evictionComplete _ | .coreScrubStart _ | .coreScrubEnd _ | .jettonRelease _ => false
  | .halt _ | .step _ _ | .cont _ | .rreg _ _ | .wreg _ _ _ | .flr _ | .registerWrite _ _ => false
  | .create _ | .destroy _ | .grant _ | .revoke _ | .resize _ _ | .bwset _ _ | .install _ _ | .inval _ | .query _ => false
  | .qctlReset _ | .qctlEnable _ | .root _ _ => false
  | .migrateAttest _ _ | .migrateTrack _ | .migratePass _ | .migrateSeal _ | .migratePrefix _ _ | .migrateKeys _ => false
  | .migrateResume _ | .jettonDoorbell _ _ _ _ | .commandQueueDoorbell _ _ => false
  | .hostRead _ _ _ _ | .hostWrite _ _ _ _ | .hostFetchadd _ _ _ _ | .hostSwap _ _ _ _ | .hostCas _ _ _ _ _ => false
  | .queueEntryTake _ | .queuePollTimer _ | .queueNop _ | .queueWait _ | .queueWaitComplete _ | .signal _ => false
  | .queueSet _ | .launch _ | .launchEntryLanding _ _ | .launchSemaphoreIncrement _ _ | .copy _ | .fill _ | .irq _ => false
  | .queueFence _ | .tstamp _ | .queueXlateRetry _ | .roceSend _ _ _ | .roceRdmaWriteWithImmediate _ _ _ _ _ => false
  | .udpRequestFrame _ _ | .timetableDifference _ _ _ _ _ | .scanHold _ | .scanStart _ | .scanRelease _ => false
  | .scanDrainEnd _ | .scanRunEnd _ | .scanScrubEnd _ | .powerCapHold _ | .coreRegulatorTrip | .thermalHold _ _ => false
  | .thermalReset | .sensorUpdate _ _ | .powerUp _ | .firmwareImageLoad _ _ _ | .attestationRequest _ _ => false
  | .certificateRequest | .pluginCallTimeout _ | .flitCrcReplay _ _ | .portRetrain _ _ | .dieReset _ => false
  | .collectiveDataArrival _ _ _ _ | .tierReadFailure _ => false
  | _ => true

end Sys2Proof
end

