-- ==== Sys2Proof/Decode.lean ====
section
/-!
DEFINITION. The decoder of 48-bit words (R67 to R84 and the field tables of the instruction chapters), total and
rejecting by name, and after it the encoder written from the same tables.
-/
namespace Sys2Proof

/-- Why a word is no instruction (R70, R74, R75, R77, R82, R83, R84); every case raises ILL at issue. -/
inductive Reject where
  /-- The opcode is unassigned in Table 3.6. -/
  | unassignedOpcode
  /-- The function code is unassigned in Table 3.7. -/
  | unassignedFunction
  /-- A reserved field, or a field the description does not use, is not zero. -/
  | reservedField
  /-- A register number that its class lacks (R70). -/
  | noSuchRegister
  /-- A size, scope, condition, type, form or flags code that is reserved. -/
  | reservedCode
  /-- A launch whose block ends past 0xFFF (R77). -/
  | launchRange
deriving DecidableEq, Repr

/-! ### The forms of Table 3.1 and Table 3.4 -/

structure RForm where
  op : BitVec 8
  d : BitVec 5
  a : BitVec 5
  b : BitVec 5
  fn : BitVec 4
  ext : BitVec 21
deriving DecidableEq, Repr

structure IForm where
  op : BitVec 8
  d : BitVec 5
  a : BitVec 5
  fn : BitVec 6
  imm : BitVec 24
deriving DecidableEq, Repr

structure MForm where
  op : BitVec 8
  d : BitVec 5
  c : BitVec 4
  size : BitVec 3
  flags : BitVec 4
  off : BitVec 24
deriving DecidableEq, Repr

structure BForm where
  op : BitVec 8
  pred : BitVec 3
  sense : BitVec 1
  rsv : BitVec 12
  off : BitVec 24
deriving DecidableEq, Repr

structure FForm where
  op : BitVec 8
  tag : BitVec 16
  rsv : BitVec 12
  target : BitVec 12
deriving DecidableEq, Repr

structure LForm where
  op : BitVec 8
  lvl : BitVec 2
  isReg : BitVec 1
  count : BitVec 13
  off : BitVec 24
deriving DecidableEq, Repr

structure VForm where
  code : BitVec 6
  addr : BitVec 8
  cnt : BitVec 8
  c : BitVec 4
  isAbs : BitVec 1
  time : BitVec 21
deriving DecidableEq, Repr

structure CForm where
  op : BitVec 8
  a : BitVec 4
  b : BitVec 4
  len : BitVec 5
  card : BitVec 5
  isAbs : BitVec 1
  time : BitVec 21
deriving DecidableEq, Repr

structure SForm where
  op : BitVec 8
  opnd : BitVec 16
  step : BitVec 12
  rep : BitVec 12
deriving DecidableEq, Repr

/-- Reading the fields of a word. -/
def RForm.of (w : W48) : RForm :=
  ⟨w.extractLsb' 40 8, w.extractLsb' 35 5, w.extractLsb' 30 5, w.extractLsb' 25 5, w.extractLsb' 21 4, w.extractLsb' 0 21⟩
def IForm.of (w : W48) : IForm :=
  ⟨w.extractLsb' 40 8, w.extractLsb' 35 5, w.extractLsb' 30 5, w.extractLsb' 24 6, w.extractLsb' 0 24⟩
def MForm.of (w : W48) : MForm :=
  ⟨w.extractLsb' 40 8, w.extractLsb' 35 5, w.extractLsb' 31 4, w.extractLsb' 28 3, w.extractLsb' 24 4, w.extractLsb' 0 24⟩
def BForm.of (w : W48) : BForm :=
  ⟨w.extractLsb' 40 8, w.extractLsb' 37 3, w.extractLsb' 36 1, w.extractLsb' 24 12, w.extractLsb' 0 24⟩
def FForm.of (w : W48) : FForm :=
  ⟨w.extractLsb' 40 8, w.extractLsb' 24 16, w.extractLsb' 12 12, w.extractLsb' 0 12⟩
def LForm.of (w : W48) : LForm :=
  ⟨w.extractLsb' 40 8, w.extractLsb' 38 2, w.extractLsb' 37 1, w.extractLsb' 24 13, w.extractLsb' 0 24⟩
def VForm.of (w : W48) : VForm :=
  ⟨w.extractLsb' 42 6, w.extractLsb' 34 8, w.extractLsb' 26 8, w.extractLsb' 22 4, w.extractLsb' 21 1, w.extractLsb' 0 21⟩
def CForm.of (w : W48) : CForm :=
  ⟨w.extractLsb' 40 8, w.extractLsb' 36 4, w.extractLsb' 32 4, w.extractLsb' 27 5, w.extractLsb' 22 5, w.extractLsb' 21 1,
    w.extractLsb' 0 21⟩
def SForm.of (w : W48) : SForm :=
  ⟨w.extractLsb' 40 8, w.extractLsb' 24 16, w.extractLsb' 12 12, w.extractLsb' 0 12⟩

/-- Writing the fields of a word. -/
def RForm.word (f : RForm) : W48 := f.op ++ f.d ++ f.a ++ f.b ++ f.fn ++ f.ext
def IForm.word (f : IForm) : W48 := f.op ++ f.d ++ f.a ++ f.fn ++ f.imm
def MForm.word (f : MForm) : W48 := f.op ++ f.d ++ f.c ++ f.size ++ f.flags ++ f.off
def BForm.word (f : BForm) : W48 := f.op ++ f.pred ++ f.sense ++ f.rsv ++ f.off
def FForm.word (f : FForm) : W48 := f.op ++ f.tag ++ f.rsv ++ f.target
def LForm.word (f : LForm) : W48 := f.op ++ f.lvl ++ f.isReg ++ f.count ++ f.off
def VForm.word (f : VForm) : W48 := f.code ++ f.addr ++ f.cnt ++ f.c ++ f.isAbs ++ f.time
def CForm.word (f : CForm) : W48 := f.op ++ f.a ++ f.b ++ f.len ++ f.card ++ f.isAbs ++ f.time
def SForm.word (f : SForm) : W48 := f.op ++ f.opnd ++ f.step ++ f.rep

/-! ### Codes -/

/-- Accept when the field is zero. -/
def needZero {n : Nat} (x : BitVec n) (i : Instr) : Except Reject Instr :=
  if x = 0 then .ok i else .error .reservedField

/-- The class of 16 capability registers in a 5-bit field (R70). -/
def creg? (x : BitVec 5) : Option CReg := if x.toNat < 16 then some (x.extractLsb' 0 4) else none

/-- A class of 8 registers in a 5-bit field (R70). -/
def reg8? (x : BitVec 5) : Option (BitVec 3) := if x.toNat < 8 then some (x.extractLsb' 0 3) else none

def cond? (x : BitVec 4) : Option Cond :=
  match x with
  | 0 => some .eq | 1 => some .ne | 2 => some .lt | 3 => some .ge | 4 => some .ltu | 5 => some .geu
  | 6 => some .gt | 7 => some .le | 8 => some .gtu | 9 => some .leu
  | _ => none

def Cond.code : Cond → BitVec 4
  | .eq => 0 | .ne => 1 | .lt => 2 | .ge => 3 | .ltu => 4 | .geu => 5 | .gt => 6 | .le => 7 | .gtu => 8 | .leu => 9

def kfun? (x : BitVec 4) : Option KFun :=
  match x with
  | 0 => some .and | 1 => some .or | 2 => some .xor | 3 => some .andn | 4 => some .not | 5 => some .orn
  | _ => none

def KFun.code : KFun → BitVec 4
  | .and => 0 | .or => 1 | .xor => 2 | .andn => 3 | .not => 4 | .orn => 5

def size? (x : BitVec 3) : Option Size :=
  match x with
  | 0 => some .b1 | 1 => some .b2 | 2 => some .b4 | 3 => some .b8
  | _ => none

def Size.code : Size → BitVec 3
  | .b1 => 0 | .b2 => 1 | .b4 => 2 | .b8 => 3

/-- Bytes of an access size (Table 3.2). -/
def Size.bytes : Size → Nat
  | .b1 => 1 | .b2 => 2 | .b4 => 4 | .b8 => 8

def scope? (x : BitVec 3) : Option Scope :=
  match x with
  | 0 => some .task | 1 => some .core | 2 => some .group | 3 => some .cluster | 4 => some .tenant | 5 => some .system
  | _ => none

def Scope.code : Scope → BitVec 3
  | .task => 0 | .core => 1 | .group => 2 | .cluster => 3 | .tenant => 4 | .system => 5

def vtype (x : BitVec 2) : VType :=
  match x with
  | 0 => .fp32 | 1 => .bf16 | 2 => .fp16 | _ => .int32

def VType.code : VType → BitVec 2
  | .fp32 => 0 | .bf16 => 1 | .fp16 => 2 | .int32 => 3

def vcond (x : BitVec 2) : VCond :=
  match x with
  | 0 => .eq | 1 => .ne | 2 => .lt | _ => .le

def VCond.code : VCond → BitVec 2
  | .eq => 0 | .ne => 1 | .lt => 2 | .le => 3

def htype (x : BitVec 1) : HType := if x = 0 then .bf16 else .fp16
def HType.code : HType → BitVec 1
  | .bf16 => 0 | .fp16 => 1
def blockF (x : BitVec 1) : BlockF := if x = 0 then .bx8 else .bx4
def BlockF.code : BlockF → BitVec 1
  | .bx8 => 0 | .bx4 => 1
def gran (x : BitVec 1) : Gran := if x = 0 then .lane else .elem
def Gran.code : Gran → BitVec 1
  | .lane => 0 | .elem => 1
def flag (x : BitVec 1) : Bool := x == 1
def bit1 (x : Bool) : BitVec 1 := if x then 1 else 0

def vmovForm? (x : BitVec 2) : Option VmovForm :=
  match x with
  | 0 => some .vFromV | 1 => some .mFromV | 2 => some .vFromM | _ => none
def VmovForm.code : VmovForm → BitVec 2
  | .vFromV => 0 | .mFromV => 1 | .vFromM => 2

def planes (x : BitVec 2) : Planes :=
  match x with
  | 0 => .p2 | 1 => .p4 | 2 => .p6 | _ => .p8
def Planes.code : Planes → BitVec 2
  | .p2 => 0 | .p4 => 1 | .p6 => 2 | .p8 => 3
/-- The plane count that a code of MCFG names (R154). -/
def Planes.count : Planes → Nat
  | .p2 => 2 | .p4 => 4 | .p6 => 6 | .p8 => 8

/-- The time field of R72: with the absolute bit, [20:5] must be zero (R77). -/
def timeArg? (isAbs : BitVec 1) (t : BitVec 21) : Option TimeArg :=
  if isAbs = 0 then some (.rel t)
  else if t.extractLsb' 5 16 = 0 then some (.abs (t.extractLsb' 0 5)) else none

def TimeArg.absBit : TimeArg → BitVec 1
  | .rel _ => 0
  | .abs _ => 1

def TimeArg.field : TimeArg → BitVec 21
  | .rel t => t
  | .abs s => (0 : BitVec 16) ++ s

/-! ### The decoder, group by group -/

/-- Opcode 0x01 (Table 4.1). -/
def decodeAlu (f : RForm) : Except Reject Instr :=
  match f.fn with
  | 0x0 => needZero f.ext (.add f.d f.a f.b)
  | 0x1 => needZero f.ext (.sub f.d f.a f.b)
  | 0x2 => needZero f.ext (.and f.d f.a f.b)
  | 0x3 => needZero f.ext (.or f.d f.a f.b)
  | 0x4 => needZero f.ext (.xor f.d f.a f.b)
  | 0x5 => needZero f.ext (.andn f.d f.a f.b)
  | 0x6 => needZero f.ext (.shl f.d f.a f.b)
  | 0x7 => needZero f.ext (.shrl f.d f.a f.b)
  | 0x8 => needZero f.ext (.shra f.d f.a f.b)
  | 0x9 => needZero f.ext (.rotl f.d f.a f.b)
  | 0xA => needZero f.ext (.min f.d f.a f.b)
  | 0xB => needZero f.ext (.max f.d f.a f.b)
  | 0xC => needZero f.ext (.minu f.d f.a f.b)
  | 0xD => needZero f.ext (.maxu f.d f.a f.b)
  | _ => .error .unassignedFunction

/-- Opcode 0x02 (Table 4.3). -/
def decodeMove (f : RForm) : Except Reject Instr :=
  match f.fn with
  | 0x0 => needZero (f.b ++ f.ext) (.mov f.d f.a)
  | 0x1 => needZero (f.b ++ f.ext) (.clz f.d f.a)
  | 0x2 => needZero (f.b ++ f.ext) (.ctz f.d f.a)
  | 0x3 => needZero (f.b ++ f.ext) (.popc f.d f.a)
  | 0x4 => needZero (f.b ++ f.ext.extractLsb' 6 15) (.sext f.d f.a (f.ext.extractLsb' 0 6))
  | 0x5 => needZero (f.b ++ f.ext.extractLsb' 12 9) (.bfx f.d f.a (f.ext.extractLsb' 0 6) (f.ext.extractLsb' 6 6))
  | 0x6 => needZero (f.b ++ f.ext.extractLsb' 12 9) (.bfi f.d f.a (f.ext.extractLsb' 0 6) (f.ext.extractLsb' 6 6))
  | 0x7 => needZero (f.ext.extractLsb' 3 18) (.sel f.d f.a f.b (f.ext.extractLsb' 0 3))
  | 0x8 => needZero f.ext (.mort f.d f.a f.b)
  | 0x9 => needZero (f.b ++ f.ext) (.umort f.d f.a)
  | _ => .error .unassignedFunction

/-- Opcode 0x03 (R99). -/
def decodeMul (f : RForm) : Except Reject Instr :=
  match f.fn with
  | 0x0 => needZero f.ext (.mul f.d f.a f.b)
  | 0x1 => needZero f.ext (.mulhs f.d f.a f.b)
  | 0x2 => needZero f.ext (.mulhu f.d f.a f.b)
  | 0x3 => needZero f.ext (.divs f.d f.a f.b)
  | 0x4 => needZero f.ext (.divu f.d f.a f.b)
  | 0x5 => needZero f.ext (.rems f.d f.a f.b)
  | 0x6 => needZero f.ext (.remu f.d f.a f.b)
  | _ => .error .unassignedFunction

/-- Opcode 0x04 (R100). -/
def decodeCmp (f : RForm) : Except Reject Instr :=
  match reg8? f.d, cond? f.fn with
  | some k, some c => needZero f.ext (.cmp k f.a f.b c)
  | none, _ => .error .noSuchRegister
  | _, none => .error .reservedCode

/-- Opcode 0x05 (R101). -/
def decodeKop (f : RForm) : Except Reject Instr :=
  match reg8? f.d, reg8? f.a, reg8? f.b, kfun? f.fn with
  | some kd, some ka, some kb, some op =>
    if op = .not then needZero (f.ext ++ f.b) (.kop kd ka kb op) else needZero f.ext (.kop kd ka kb op)
  | _, _, _, none => .error .reservedCode
  | _, _, _, _ => .error .noSuchRegister

/-- Opcode 0x08 (Table 4.2). -/
def decodeImm (f : IForm) : Except Reject Instr :=
  match f.fn with
  | 0x00 => .ok (.addi f.d f.a f.imm)
  | 0x01 => .ok (.andi f.d f.a f.imm)
  | 0x02 => .ok (.ori f.d f.a f.imm)
  | 0x03 => .ok (.xori f.d f.a f.imm)
  | 0x04 => needZero (f.imm.extractLsb' 6 18) (.shli f.d f.a (f.imm.extractLsb' 0 6))
  | 0x05 => needZero (f.imm.extractLsb' 6 18) (.shrli f.d f.a (f.imm.extractLsb' 0 6))
  | 0x06 => needZero (f.imm.extractLsb' 6 18) (.shrai f.d f.a (f.imm.extractLsb' 0 6))
  | 0x07 => needZero f.a (.movi f.d f.imm)
  | 0x08 => needZero f.a (.movhi f.d f.imm)
  | _ => .error .unassignedFunction

/-- Opcode 0x09 (R100). -/
def decodeCmpi (f : IForm) : Except Reject Instr :=
  match reg8? f.d, cond? (f.fn.extractLsb' 0 4) with
  | some k, some c => needZero (f.fn.extractLsb' 4 2) (.cmpi k f.a f.imm c)
  | none, _ => .error .noSuchRegister
  | _, none => .error .reservedCode

/-- Opcodes 0x10 to 0x14 (R74, R103). -/
def decodeLoad (f : MForm) : Except Reject Instr :=
  match f.op with
  | 0x10 => match size? f.size with
    | some z => needZero f.flags (.ld f.d f.c z f.off)
    | none => .error .reservedCode
  | 0x11 => match size? f.size with
    | some z => needZero f.flags (.lds f.d f.c z f.off)
    | none => .error .reservedCode
  | 0x12 => match size? f.size with
    | some z => needZero f.flags (.st f.d f.c z f.off)
    | none => .error .reservedCode
  | 0x13 => match creg? f.d with
    | some cd => if f.size = 4 then needZero f.flags (.ldc cd f.c f.off) else .error .reservedCode
    | none => .error .noSuchRegister
  | 0x14 => match creg? f.d with
    | some cd => if f.size = 4 then needZero f.flags (.stc cd f.c f.off) else .error .reservedCode
    | none => .error .noSuchRegister
  | _ => .error .unassignedOpcode

/-- Opcode 0x18 (Table 4.8). -/
def decodeCap (f : RForm) : Except Reject Instr :=
  match f.fn with
  | 0x0 => match creg? f.d, creg? f.a with
    | some d, some a => needZero f.ext (.cbnd d a f.b)
    | _, _ => .error .noSuchRegister
  | 0x1 => match creg? f.d, creg? f.a with
    | some d, some a => needZero f.ext (.cperm d a f.b)
    | _, _ => .error .noSuchRegister
  | 0x2 => match creg? f.d, creg? f.a with
    | some d, some a => needZero f.ext (.cadd d a f.b)
    | _, _ => .error .noSuchRegister
  | 0x3 => match creg? f.d, creg? f.a with
    | some d, some a => needZero f.ext (.cset d a f.b)
    | _, _ => .error .noSuchRegister
  | 0x4 => match creg? f.a with
    | some a => needZero (f.b ++ f.ext.extractLsb' 3 18) (.cget f.d a (f.ext.extractLsb' 0 3))
    | none => .error .noSuchRegister
  | 0x5 => match creg? f.d, creg? f.a, creg? f.b with
    | some d, some a, some b => needZero f.ext (.cseal d a b)
    | _, _, _ => .error .noSuchRegister
  | 0x6 => match creg? f.d, creg? f.a, creg? f.b with
    | some d, some a, some b => needZero f.ext (.cunsl d a b)
    | _, _, _ => .error .noSuchRegister
  | 0x7 => match reg8? f.d, creg? f.a, creg? f.b with
    | some d, some a, some b =>
      if f.ext.extractLsb' 0 1 = 0 then needZero (f.b ++ f.ext) (.ctst d a none)
      else needZero (f.ext.extractLsb' 1 20) (.ctst d a (some b))
    | _, _, _ => .error .noSuchRegister
  | _ => .error .unassignedFunction

/-- Opcodes 0x20 and 0x21 (R73, R109). -/
def decodeBranch (f : BForm) : Except Reject Instr :=
  match f.op with
  | 0x20 => needZero f.rsv (.b f.pred (flag f.sense) f.off)
  | 0x21 => needZero (f.pred ++ f.sense ++ f.rsv) (.j f.off)
  | _ => .error .unassignedOpcode

/-- JR and RET: Register form, function 0, the a field only (R109). -/
def decodeJump (f : RForm) (i : Instr) : Except Reject Instr :=
  if f.fn = 0 then needZero (f.d ++ f.b ++ f.ext) i else .error .unassignedFunction

/-- CALL: Immediate form, function 0, a zero (R109). -/
def decodeCall (f : IForm) : Except Reject Instr :=
  if f.fn = 0 then needZero f.a (.call f.d f.imm) else .error .unassignedFunction

/-- Opcode 0x28 (R112). -/
def decodeLoop (f : LForm) : Except Reject Instr :=
  if f.isReg = 0 then .ok (.loop f.lvl f.count f.off) else .ok (.loopr f.lvl f.count f.off)

/-- Opcodes 0x30 to 0x3B (R76, R77). -/
def decodeLaunch (f : VForm) : Except Reject Instr :=
  match timeArg? f.isAbs f.time with
  | none => .error .reservedField
  | some t =>
    if launchFits f.addr f.cnt then
      match f.code with
      | 0b001100 => .ok (.vrun f.addr f.cnt f.c t)
      | 0b001101 => .ok (.mrun f.addr f.cnt f.c t)
      | 0b001110 => .ok (.trun f.addr f.cnt f.c t)
      | _ => .error .unassignedOpcode
    else .error .launchRange

/-- Opcode 0x3C (Table 4.11). -/
def decodeSystem (f : RForm) : Except Reject Instr :=
  match f.fn with
  | 0x0 => needZero (f.d ++ f.a ++ f.b ++ f.ext) .done
  | 0x1 => needZero (f.d ++ f.a ++ f.b ++ f.ext.extractLsb' 20 1)
      (.trap (f.ext.extractLsb' 0 3) (flag (f.ext.extractLsb' 3 1)) (f.ext.extractLsb' 4 16))
  | 0x2 => needZero (f.d ++ f.b ++ f.ext.extractLsb' 16 5) (.svc f.a (f.ext.extractLsb' 0 16))
  | 0x3 => needZero (f.d ++ f.a ++ f.b ++ f.ext) .eret
  | 0x4 => needZero (f.a ++ f.b ++ f.ext.extractLsb' 8 13) (.srd f.d (f.ext.extractLsb' 0 8))
  | 0x5 => needZero (f.d ++ f.b ++ f.ext.extractLsb' 8 13) (.swr (f.ext.extractLsb' 0 8) f.a)
  | 0x6 => needZero (f.b ++ f.ext.extractLsb' 1 20) (.time f.d f.a (flag (f.ext.extractLsb' 0 1)))
  | 0x7 => needZero (f.d ++ f.a ++ f.b ++ f.ext.extractLsb' 16 5) (.bkpt (f.ext.extractLsb' 0 16))
  | _ => .error .unassignedFunction

/-- Opcodes 0x40 to 0x44 (R169). -/
def decodeAtomic (f : MForm) : Except Reject Instr :=
  if f.size = 2 then
    match f.op with
    | 0x40 => needZero (f.flags.extractLsb' 1 3) (.aadd f.d f.c (flag (f.flags.extractLsb' 0 1)) f.off)
    | 0x41 => needZero f.flags (.axch f.d f.c f.off)
    | 0x42 => if f.d = 31 then .error .noSuchRegister else needZero f.flags (.acas f.d f.c f.off)
    | 0x43 => needZero f.flags (.ald f.d f.c f.off)
    | 0x44 => needZero f.flags (.ast f.d f.c f.off)
    | _ => .error .unassignedOpcode
  else .error .reservedCode

/-- The n of a ring instruction is not zero (R216). -/
def needCount (n : BitVec 12) (rest : BitVec 6) (i : Instr) : Except Reject Instr :=
  if n = 0 then .error .reservedCode else needZero rest i

/-- Opcode 0x48 (Table 9.3): N in ext[2:0], n in ext[14:3]. -/
def decodeRing (f : RForm) : Except Reject Instr :=
  let rn := f.ext.extractLsb' 0 3
  let n := f.ext.extractLsb' 3 12
  let rest := f.ext.extractLsb' 15 6
  match f.fn with
  | 0x0 => needZero (f.d ++ f.b ++ f.ext.extractLsb' 3 18) (.rinit rn f.a)
  | 0x1 => match creg? f.a with
    | some c => if f.b = 0 then needCount n rest (.rclm f.d c rn n) else .error .reservedField
    | none => .error .noSuchRegister
  | 0x2 => match creg? f.a with
    | some c => if f.b = 0 then needCount n rest (.rwfl f.d c rn n) else .error .reservedField
    | none => .error .noSuchRegister
  | 0x3 => match creg? f.a with
    | some c => if f.b = 0 then needCount n rest (.rwfr f.d c rn n) else .error .reservedField
    | none => .error .noSuchRegister
  | 0x4 => match creg? f.a with
    | some c => if f.d ++ f.b = (0 : BitVec 10) then needCount n rest (.rpub c rn n) else .error .reservedField
    | none => .error .noSuchRegister
  | 0x5 => match creg? f.a with
    | some c => if f.d ++ f.b = (0 : BitVec 10) then needCount n rest (.rrel c rn n) else .error .reservedField
    | none => .error .noSuchRegister
  | 0x6 => match creg? f.a with
    | some c => needZero (f.b ++ f.ext.extractLsb' 3 18) (.rstat f.d c rn)
    | none => .error .noSuchRegister
  | _ => .error .unassignedFunction

/-- Opcodes 0x49 to 0x4F but 0x4C (Table 9.2, R228). -/
def decodeSem (f : MForm) : Except Reject Instr :=
  match f.op with
  | 0x49 => match scope? f.size with
    | some s => needZero f.flags (.ssig f.d f.c s f.off)
    | none => .error .reservedCode
  | 0x4A => needZero (f.size ++ f.flags) (.sset f.d f.c f.off)
  | 0x4B => match cond? f.flags with
    | some c =>
      if f.size = 0 then .ok (.swait f.d f.c c f.off)
      else if f.size = 1 then
        match c with
        | .ge => .ok (.swaitConsume f.d f.c false f.off)
        | .geu => .ok (.swaitConsume f.d f.c true f.off)
        | _ => .error .reservedCode
      else .error .reservedCode
    | none => .error .reservedCode
  | 0x4D => match scope? f.size with
    | some s => needZero f.flags (.rel f.d f.c s f.off)
    | none => .error .reservedCode
  | 0x4E => match scope? f.size, cond? f.flags with
    | some s, some c => .ok (.acq f.d f.c c s f.off)
    | _, _ => .error .reservedCode
  | 0x4F => if f.size = 4 then needZero f.flags (.carry f.d f.c f.off) else .error .reservedCode
  | _ => .error .unassignedOpcode

/-- Opcode 0x4C (R222, R226, R231). -/
def decodePhase (f : RForm) : Except Reject Instr :=
  let l := f.ext.extractLsb' 0 3
  let rest := f.ext.extractLsb' 3 18
  match f.fn with
  | 0x0 => if l.toNat ≤ 4 then needZero (f.a ++ f.b ++ rest) (.parv f.d l) else .error .reservedCode
  | 0x1 => if l.toNat ≤ 4 then needZero (f.d ++ f.b ++ rest) (.pwait l f.a) else .error .reservedCode
  | 0x2 => if l.toNat ≤ 4 then needZero (f.d ++ f.a ++ f.b ++ rest) (.pbar l) else .error .reservedCode
  | 0x3 => match scope? l with
    | some s => needZero (f.d ++ f.a ++ f.b ++ rest) (.fence s)
    | none => .error .reservedCode
  | 0x4 => needZero (f.d ++ f.a ++ f.b ++ f.ext) .wev
  | _ => .error .unassignedFunction

/-- Opcodes 0x50 to 0x58 and 0x5C to 0x5F (R268, R376). -/
def decodeCommand (f : CForm) : Except Reject Instr :=
  match timeArg? f.isAbs f.time with
  | none => .error .reservedField
  | some t =>
    match f.op with
    | 0x50 => .ok (.cpy f.a f.b f.len f.card t)
    | 0x51 => .ok (.cpys f.a f.b f.len f.card t)
    | 0x52 => .ok (.cpyz f.a f.b f.len f.card t)
    | 0x53 => .ok (.cpyc f.a f.b f.len f.card t)
    | 0x54 => .ok (.cpyg f.a f.b f.len f.card t)
    | 0x55 => .ok (.cpym f.a f.b f.len f.card t)
    | 0x56 => .ok (.cpya f.a f.b f.len f.card t)
    | 0x57 => .ok (.cpyx f.a f.b f.len f.card t)
    | 0x58 => needZero f.a (.cfch f.b f.len f.card t)
    | 0x5C => .ok (.xar f.a f.b f.len f.card t)
    | 0x5D => .ok (.xag f.a f.b f.len f.card t)
    | 0x5E => .ok (.xrs f.a f.b f.len f.card t)
    | 0x5F => .ok (.xata f.a f.b f.len f.card t)
    | _ => .error .unassignedOpcode

/-- Opcode 0x59 (Table 11.7). -/
def decodeCopyCtl (f : RForm) : Except Reject Instr :=
  match f.fn with
  | 0x0 => needZero (f.a ++ f.b ++ f.ext.extractLsb' 5 16) (.cwm f.d (f.ext.extractLsb' 0 4) (flag (f.ext.extractLsb' 4 1)))
  | 0x1 => needZero (f.a ++ f.b ++ f.ext.extractLsb' 4 17) (.ccan f.d (f.ext.extractLsb' 0 4))
  | 0x2 => needZero (f.a ++ f.b ++ f.ext.extractLsb' 4 17) (.cstat f.d (f.ext.extractLsb' 0 4))
  | _ => .error .unassignedFunction

/-- Opcode 0x5A (Table 12.4). -/
def decodeKv (f : RForm) : Except Reject Instr :=
  match creg? f.a, creg? f.b with
  | some a, some b =>
    match f.fn with
    | 0x0 => needZero (f.d ++ f.ext) (.kvhs a b)
    | 0x1 => needZero (f.d ++ f.ext.extractLsb' 1 20) (.kvlk a b (flag (f.ext.extractLsb' 0 1)))
    | 0x2 => needZero f.ext (.kvin f.d a b)
    | 0x3 => needZero (f.d ++ f.a ++ f.ext) (.kvap b)
    | 0x4 => needZero (f.a ++ f.ext) (.kvrl f.d b)
    | 0x5 => needZero f.ext (.kvex f.d a b)
    | 0x6 => needZero f.ext (.kvim f.d a b)
    | 0x7 => needZero (f.d ++ f.ext) (.wseg a b)
    | 0x8 => needZero (f.d ++ f.b ++ f.ext) (.wprf a)
    | _ => .error .unassignedFunction
  | _, _ => .error .noSuchRegister

/-- Opcode 0x5B (Table 17.7). -/
def decodeFabric (f : RForm) : Except Reject Instr :=
  match f.fn with
  | 0x0 => needZero f.ext (.xseq f.d f.a f.b)
  | 0x1 => needZero (f.d ++ f.ext) (.xbar f.a f.b)
  | 0x2 => needZero f.ext (.xcan f.d f.a f.b)
  | 0x3 => needZero f.ext (.xwait f.d f.a f.b)
  | _ => .error .unassignedFunction

/-- The control words, opcodes 0x00 to 0x7F (Table 3.6). -/
def decodeControl (w : W48) : Except Reject Instr :=
  match w.extractLsb' 40 8 with
  | 0x00 => if w = 0 then .ok .nop else .error .reservedField
  | 0x01 => decodeAlu (.of w)
  | 0x02 => decodeMove (.of w)
  | 0x03 => decodeMul (.of w)
  | 0x04 => decodeCmp (.of w)
  | 0x05 => decodeKop (.of w)
  | 0x08 => decodeImm (.of w)
  | 0x09 => decodeCmpi (.of w)
  | 0x10 => decodeLoad (.of w)
  | 0x11 => decodeLoad (.of w)
  | 0x12 => decodeLoad (.of w)
  | 0x13 => decodeLoad (.of w)
  | 0x14 => decodeLoad (.of w)
  | 0x18 => decodeCap (.of w)
  | 0x20 => decodeBranch (.of w)
  | 0x21 => decodeBranch (.of w)
  | 0x22 => decodeJump (.of w) (.jr (RForm.of w).a)
  | 0x23 => needZero (FForm.of w).rsv (.jf (FForm.of w).tag (FForm.of w).target)
  | 0x24 => decodeCall (.of w)
  | 0x25 => decodeJump (.of w) (.ret (RForm.of w).a)
  | 0x28 => decodeLoop (.of w)
  | 0x30 => decodeLaunch (.of w)
  | 0x31 => decodeLaunch (.of w)
  | 0x32 => decodeLaunch (.of w)
  | 0x33 => decodeLaunch (.of w)
  | 0x34 => decodeLaunch (.of w)
  | 0x35 => decodeLaunch (.of w)
  | 0x36 => decodeLaunch (.of w)
  | 0x37 => decodeLaunch (.of w)
  | 0x38 => decodeLaunch (.of w)
  | 0x39 => decodeLaunch (.of w)
  | 0x3A => decodeLaunch (.of w)
  | 0x3B => decodeLaunch (.of w)
  | 0x3C => decodeSystem (.of w)
  | 0x40 => decodeAtomic (.of w)
  | 0x41 => decodeAtomic (.of w)
  | 0x42 => decodeAtomic (.of w)
  | 0x43 => decodeAtomic (.of w)
  | 0x44 => decodeAtomic (.of w)
  | 0x48 => decodeRing (.of w)
  | 0x49 => decodeSem (.of w)
  | 0x4A => decodeSem (.of w)
  | 0x4B => decodeSem (.of w)
  | 0x4C => decodePhase (.of w)
  | 0x4D => decodeSem (.of w)
  | 0x4E => decodeSem (.of w)
  | 0x4F => decodeSem (.of w)
  | 0x50 => decodeCommand (.of w)
  | 0x51 => decodeCommand (.of w)
  | 0x52 => decodeCommand (.of w)
  | 0x53 => decodeCommand (.of w)
  | 0x54 => decodeCommand (.of w)
  | 0x55 => decodeCommand (.of w)
  | 0x56 => decodeCommand (.of w)
  | 0x57 => decodeCommand (.of w)
  | 0x58 => decodeCommand (.of w)
  | 0x59 => decodeCopyCtl (.of w)
  | 0x5A => decodeKv (.of w)
  | 0x5B => decodeFabric (.of w)
  | 0x5C => decodeCommand (.of w)
  | 0x5D => decodeCommand (.of w)
  | 0x5E => decodeCommand (.of w)
  | 0x5F => decodeCommand (.of w)
  | _ => .error .unassignedOpcode

/-! The operand field of a stream word, bit p of the word being bit p − 24 of the field (Table 5.2). -/

/-- Bits [39:35], [34:30], [29:25] and [24] of a stream word. -/
def SForm.d (f : SForm) : BitVec 5 := f.opnd.extractLsb' 11 5
def SForm.a (f : SForm) : BitVec 5 := f.opnd.extractLsb' 6 5
def SForm.b (f : SForm) : BitVec 5 := f.opnd.extractLsb' 1 5
def SForm.m (f : SForm) : Bool := flag (f.opnd.extractLsb' 0 1)
def SForm.st (f : SForm) : Stp := ⟨f.step, f.rep⟩

/-- The typed arithmetic of opcodes 0x80 to 0x9F, type in opcode [41:40]. -/
def decodeTyped (f : SForm) : Except Reject Instr :=
  let ty := vtype (f.op.extractLsb' 0 2)
  match f.op.extractLsb' 2 6 with
  | 0b100000 => .ok (.vadd ty f.d f.a f.b f.m f.st)
  | 0b100001 => .ok (.vsub ty f.d f.a f.b f.m f.st)
  | 0b100010 => .ok (.vmul ty f.d f.a f.b f.m f.st)
  | 0b100011 => .ok (.vfma ty f.d f.a f.b f.m f.st)
  | 0b100100 => .ok (.vfms ty f.d f.a f.b f.m f.st)
  | 0b100101 => .ok (.vmax ty f.d f.a f.b f.m f.st)
  | 0b100110 => .ok (.vmin ty f.d f.a f.b f.m f.st)
  | 0b100111 => .ok (.vcmp ty (f.opnd.extractLsb' 13 3) (vcond (f.opnd.extractLsb' 11 2)) f.a f.b f.m f.st)
  | _ => .error .unassignedOpcode

/-- [39:35] d; [34:30] a; [29:27] 0; [26:25] type; [24] M. -/
def decodeUnary (f : SForm) (mk : VType → Instr) : Except Reject Instr :=
  needZero (f.opnd.extractLsb' 3 3) (mk (vtype (f.opnd.extractLsb' 1 2)))

/-- As `decodeUnary`, with type 3 refused (Table 5.2). -/
def decodeFunc (f : SForm) (mk : VType → Instr) : Except Reject Instr :=
  if (vtype (f.opnd.extractLsb' 1 2)).isFloat then decodeUnary f mk else .error .reservedCode

/-- VMOV and its refused forms. -/
def decodeVmov (f : SForm) : Except Reject Instr :=
  match vmovForm? (f.opnd.extractLsb' 1 2) with
  | none => .error .reservedCode
  | some fm =>
    if (Instr.vmov fm f.d f.a f.m f.st).wf then needZero (f.opnd.extractLsb' 3 3) (.vmov fm f.d f.a f.m f.st)
    else .error .reservedCode

/-- The other vector opcodes 0xA0 to 0xBF. -/
def decodeVector (f : SForm) : Except Reject Instr :=
  let o := f.opnd
  match f.op with
  | 0xA0 => .ok (.vld f.d (o.extractLsb' 0 11) f.st)
  | 0xA1 => .ok (.vst f.d (o.extractLsb' 8 3) (gran (o.extractLsb' 7 1)) (o.extractLsb' 0 7) f.st)
  | 0xA2 => .ok (.vldb f.d (o.extractLsb' 6 5) (o.extractLsb' 0 6) f.st)
  | 0xA3 => .ok (.vldx f.d f.a (o.extractLsb' 0 6) f.st)
  | 0xA4 => .ok (.vstx f.d f.a (o.extractLsb' 3 3) (o.extractLsb' 0 3) f.st)
  | 0xA5 => decodeVmov f
  | 0xA6 => decodeUnary f (fun ty => .vabs ty f.d f.a f.m f.st)
  | 0xA7 => decodeUnary f (fun ty => .vneg ty f.d f.a f.m f.st)
  | 0xA8 => needZero (o.extractLsb' 1 1) (.vsel f.d f.a (o.extractLsb' 3 3) (gran (o.extractLsb' 2 1)) f.m f.st)
  | 0xA9 => .ok (.vand f.d f.a f.b f.m f.st)
  | 0xAA => .ok (.vor f.d f.a f.b f.m f.st)
  | 0xAB => .ok (.vxor f.d f.a f.b f.m f.st)
  | 0xAC => .ok (.vshl f.d f.a f.b f.m f.st)
  | 0xAD => .ok (.vshr f.d f.a f.b f.m f.st)
  | 0xAE => .ok (.vsra f.d f.a f.b f.m f.st)
  | 0xAF =>
    let i : Instr := .vcvt f.d f.a (vtype (o.extractLsb' 4 2)) (vtype (o.extractLsb' 2 2)) (flag (o.extractLsb' 1 1)) f.m f.st
    if i.wf then .ok i else .error .reservedCode
  | 0xB0 => decodeFunc f (fun ty => .vrcp ty f.d f.a f.m f.st)
  | 0xB1 => decodeFunc f (fun ty => .vrsq ty f.d f.a f.m f.st)
  | 0xB2 => decodeFunc f (fun ty => .vexp2 ty f.d f.a f.m f.st)
  | 0xB3 => decodeFunc f (fun ty => .vlg2 ty f.d f.a f.m f.st)
  | 0xB4 => decodeUnary f (fun ty => .vrsum ty f.d f.a f.m f.st)
  | 0xB5 => decodeUnary f (fun ty => .vrmax ty f.d f.a f.m f.st)
  | 0xB6 => needZero (f.d ++ o.extractLsb' 3 3)
      (.vbmax f.a (htype (o.extractLsb' 2 1)) (blockF (o.extractLsb' 1 1)) f.m f.st)
  | 0xB7 => needZero (o.extractLsb' 0 6) (.vqsc f.d f.a f.st)
  | 0xB8 =>
    let i : Instr := .vqcvt f.d f.a (o.extractLsb' 4 2) (htype (o.extractLsb' 2 1)) (blockF (o.extractLsb' 1 1)) f.m f.st
    if i.wf then needZero (o.extractLsb' 3 1) i else .error .reservedCode
  | 0xB9 => .ok (.vshuf f.d f.a f.b (gran (o.extractLsb' 0 1)) f.st)
  | 0xBA => needZero (o.extractLsb' 1 10) (.viota f.d (gran (o.extractLsb' 0 1)) f.st)
  | 0xBB => needZero (o.extractLsb' 0 1) (.vbcst f.d f.a f.b f.st)
  | 0xBC => needZero (f.d ++ o.extractLsb' 1 1) (.vdfr f.a (o.extractLsb' 3 3) (gran (o.extractLsb' 2 1)) f.m f.st)
  | 0xBD => needZero (o.extractLsb' 0 3) (.vdfd f.d f.a (o.extractLsb' 3 3) f.st)
  | 0xBE => needZero (o.extractLsb' 1 10) (.vdfn f.d f.m f.st)
  | 0xBF => needZero o (.vnop f.st)
  | _ => .error .unassignedOpcode

/-- Opcodes 0xC0 to 0xC8 (Table 6.3). -/
def decodeMatrix (f : SForm) : Except Reject Instr :=
  let o := f.opnd
  match f.op with
  | 0xC0 => needZero (o.extractLsb' 0 4)
      (.mcfg (planes (o.extractLsb' 14 2)) (o.extractLsb' 9 5) (o.extractLsb' 4 5) f.st)
  | 0xC1 => needZero (o.extractLsb' 0 6) (.mwld f.d f.a f.st)
  | 0xC2 => needZero o (.mwsw f.st)
  | 0xC3 => .ok (.mma f.d f.a (o.extractLsb' 0 6) f.st)
  | 0xC4 => .ok (.mmo f.d f.a (o.extractLsb' 0 6) f.st)
  | 0xC5 => .ok (.mdrn f.d (o.extractLsb' 0 11) f.st)
  | 0xC6 => needZero (o.extractLsb' 6 10) (.mzro (o.extractLsb' 0 6) f.st)
  | 0xC7 => needZero (o.extractLsb' 0 8) (.mscl f.d (o.extractLsb' 8 3) f.st)
  | 0xC8 => needZero o (.mnop f.st)
  | _ => .error .unassignedOpcode

/-- TSEG, TINT, TQAD, TCLMP: [39:35] d; [34:30] a; [29:26] H; [25:24] type, 3 refused. -/
def decodeTabOp (f : SForm) (mk : VType → Instr) : Except Reject Instr :=
  let ty := vtype (f.opnd.extractLsb' 0 2)
  if ty.isFloat then .ok (mk ty) else .error .reservedCode

/-- Opcodes 0xD0 to 0xD4 (Table 5.2). -/
def decodeTable (f : SForm) : Except Reject Instr :=
  let h : BitVec 4 := f.opnd.extractLsb' 2 4
  match f.op with
  | 0xD0 => .ok (.tld (f.opnd.extractLsb' 10 6) (f.opnd.extractLsb' 0 10) f.st)
  | 0xD1 => decodeTabOp f (fun ty => .tseg ty f.d f.a h f.st)
  | 0xD2 => decodeTabOp f (fun ty => .tint ty f.d f.a h f.st)
  | 0xD3 => decodeTabOp f (fun ty => .tqad ty f.d f.a h f.st)
  | 0xD4 => decodeTabOp f (fun ty => .tclmp ty f.d f.a h f.st)
  | _ => .error .unassignedOpcode

/-- The stream words, opcodes 0x80 and above (Table 3.6). -/
def decodeStream (f : SForm) : Except Reject Instr :=
  if f.op.toNat < 0xA0 then decodeTyped f
  else if f.op.toNat < 0xC0 then decodeVector f
  else if f.op.toNat < 0xD0 then decodeMatrix f
  else decodeTable f

/-- The instruction a 48-bit word is, or the reason it is none. -/
def decode (w : W48) : Except Reject Instr :=
  if (w.extractLsb' 40 8).toNat < 0x80 then decodeControl w else decodeStream (.of w)

/-- The column an opcode belongs to: none for a control word (R78, R81). -/
def opcodeCol (w : W48) : Option Col :=
  let op := (w.extractLsb' 40 8).toNat
  if op < 0x80 then none else if op < 0xC0 then some .vector else if op < 0xD0 then some .matrix
  else some .table

/-! ### The encoder -/

/-- A Register-form word of an opcode and function. -/
def encR (op : BitVec 8) (fn : BitVec 4) (d a b : BitVec 5) (ext : BitVec 21) : Option W48 :=
  some (RForm.word ⟨op, d, a, b, fn, ext⟩)
def encI (fn : BitVec 6) (d a : BitVec 5) (imm : BitVec 24) : Option W48 := some (IForm.word ⟨0x08, d, a, fn, imm⟩)
def encM (op : BitVec 8) (d : BitVec 5) (c : BitVec 4) (size : BitVec 3) (flags : BitVec 4) (off : BitVec 24) : Option W48 :=
  some (MForm.word ⟨op, d, c, size, flags, off⟩)
def encV (code : BitVec 6) (addr cnt : BitVec 8) (c : BitVec 4) (t : TimeArg) : Option W48 :=
  some (VForm.word ⟨code, addr, cnt, c, t.absBit, t.field⟩)
def encC (op : BitVec 8) (a b : BitVec 4) (len card : BitVec 5) (t : TimeArg) : Option W48 :=
  some (CForm.word ⟨op, a, b, len, card, t.absBit, t.field⟩)
def encS (op : BitVec 8) (opnd : BitVec 16) (st : Stp) : Option W48 := some (SForm.word ⟨op, opnd, st.step, st.rep⟩)
/-- A 16-register or 8-register class in a 5-bit field. -/
def c5 (c : BitVec 4) : BitVec 5 := (0 : BitVec 1) ++ c
def k5 (k : BitVec 3) : BitVec 5 := (0 : BitVec 2) ++ k
/-- The three-field operand layout of VADD. -/
def opABC (d a b : BitVec 5) (m : Bool) : BitVec 16 := d ++ a ++ b ++ bit1 m
/-- The layout of the one-source typed operations. -/
def opU (d a : BitVec 5) (ty : VType) (m : Bool) : BitVec 16 := d ++ a ++ (0 : BitVec 3) ++ ty.code ++ bit1 m
/-- A typed opcode: six upper bits and the type code. -/
def opTy (hi : BitVec 6) (ty : VType) : BitVec 8 := hi ++ ty.code

/-- The word of an instruction; the machine's own steps have none. -/
def encode : Instr → Option W48
  | .nop => some 0
  | .add d a b => encR 0x01 0x0 d a b 0
  | .sub d a b => encR 0x01 0x1 d a b 0
  | .and d a b => encR 0x01 0x2 d a b 0
  | .or d a b => encR 0x01 0x3 d a b 0
  | .xor d a b => encR 0x01 0x4 d a b 0
  | .andn d a b => encR 0x01 0x5 d a b 0
  | .shl d a b => encR 0x01 0x6 d a b 0
  | .shrl d a b => encR 0x01 0x7 d a b 0
  | .shra d a b => encR 0x01 0x8 d a b 0
  | .rotl d a b => encR 0x01 0x9 d a b 0
  | .min d a b => encR 0x01 0xA d a b 0
  | .max d a b => encR 0x01 0xB d a b 0
  | .minu d a b => encR 0x01 0xC d a b 0
  | .maxu d a b => encR 0x01 0xD d a b 0
  | .addi d a imm => encI 0x00 d a imm
  | .andi d a imm => encI 0x01 d a imm
  | .ori d a imm => encI 0x02 d a imm
  | .xori d a imm => encI 0x03 d a imm
  | .shli d a sh => encI 0x04 d a ((0 : BitVec 18) ++ sh)
  | .shrli d a sh => encI 0x05 d a ((0 : BitVec 18) ++ sh)
  | .shrai d a sh => encI 0x06 d a ((0 : BitVec 18) ++ sh)
  | .movi d imm => encI 0x07 d 0 imm
  | .movhi d imm => encI 0x08 d 0 imm
  | .mov d a => encR 0x02 0x0 d a 0 0
  | .clz d a => encR 0x02 0x1 d a 0 0
  | .ctz d a => encR 0x02 0x2 d a 0 0
  | .popc d a => encR 0x02 0x3 d a 0 0
  | .sext d a n1 => encR 0x02 0x4 d a 0 ((0 : BitVec 15) ++ n1)
  | .bfx d a pos len1 => encR 0x02 0x5 d a 0 ((0 : BitVec 9) ++ len1 ++ pos)
  | .bfi d a pos len1 => encR 0x02 0x6 d a 0 ((0 : BitVec 9) ++ len1 ++ pos)
  | .sel d a b k => encR 0x02 0x7 d a b ((0 : BitVec 18) ++ k)
  | .mort d a b => encR 0x02 0x8 d a b 0
  | .umort d a => encR 0x02 0x9 d a 0 0
  | .mul d a b => encR 0x03 0x0 d a b 0
  | .mulhs d a b => encR 0x03 0x1 d a b 0
  | .mulhu d a b => encR 0x03 0x2 d a b 0
  | .divs d a b => encR 0x03 0x3 d a b 0
  | .divu d a b => encR 0x03 0x4 d a b 0
  | .rems d a b => encR 0x03 0x5 d a b 0
  | .remu d a b => encR 0x03 0x6 d a b 0
  | .cmp k a b c => encR 0x04 c.code (k5 k) a b 0
  | .cmpi k a imm c => some (IForm.word ⟨0x09, k5 k, a, (0 : BitVec 2) ++ c.code, imm⟩)
  | .kop kd ka kb op => encR 0x05 op.code (k5 kd) (k5 ka) (k5 kb) 0
  | .ld d c sz off => encM 0x10 d c sz.code 0 off
  | .lds d c sz off => encM 0x11 d c sz.code 0 off
  | .st d c sz off => encM 0x12 d c sz.code 0 off
  | .ldc d c off => encM 0x13 (c5 d) c 4 0 off
  | .stc d c off => encM 0x14 (c5 d) c 4 0 off
  | .cbnd d a b => encR 0x18 0x0 (c5 d) (c5 a) b 0
  | .cperm d a b => encR 0x18 0x1 (c5 d) (c5 a) b 0
  | .cadd d a b => encR 0x18 0x2 (c5 d) (c5 a) b 0
  | .cset d a b => encR 0x18 0x3 (c5 d) (c5 a) b 0
  | .cget d a fld => encR 0x18 0x4 d (c5 a) 0 ((0 : BitVec 18) ++ fld)
  | .cseal d a b => encR 0x18 0x5 (c5 d) (c5 a) (c5 b) 0
  | .cunsl d a b => encR 0x18 0x6 (c5 d) (c5 a) (c5 b) 0
  | .ctst d a none => encR 0x18 0x7 (k5 d) (c5 a) 0 0
  | .ctst d a (some b) => encR 0x18 0x7 (k5 d) (c5 a) (c5 b) 1
  | .b k sense off => some (BForm.word ⟨0x20, k, bit1 sense, 0, off⟩)
  | .j off => some (BForm.word ⟨0x21, 0, 0, 0, off⟩)
  | .jr a => encR 0x22 0 0 a 0 0
  | .jf tag target => some (FForm.word ⟨0x23, tag, 0, target⟩)
  | .call d off => some (IForm.word ⟨0x24, d, 0, 0, off⟩)
  | .ret a => encR 0x25 0 0 a 0 0
  | .loop lvl count off => some (LForm.word ⟨0x28, lvl, 0, count, off⟩)
  | .loopr lvl reg off => some (LForm.word ⟨0x28, lvl, 1, reg, off⟩)
  | .vrun a n c t => encV 0b001100 a n c t
  | .mrun a n c t => encV 0b001101 a n c t
  | .trun a n c t => encV 0b001110 a n c t
  | .done => encR 0x3C 0x0 0 0 0 0
  | .trap k sense code => encR 0x3C 0x1 0 0 0 ((0 : BitVec 1) ++ code ++ bit1 sense ++ k)
  | .svc a code => encR 0x3C 0x2 0 a 0 ((0 : BitVec 5) ++ code)
  | .eret => encR 0x3C 0x3 0 0 0 0
  | .srd d num => encR 0x3C 0x4 d 0 0 ((0 : BitVec 13) ++ num)
  | .swr num a => encR 0x3C 0x5 0 a 0 ((0 : BitVec 13) ++ num)
  | .time d a tb => encR 0x3C 0x6 d a 0 ((0 : BitVec 20) ++ bit1 tb)
  | .bkpt code => encR 0x3C 0x7 0 0 0 ((0 : BitVec 5) ++ code)
  | .aadd d c int32 off => encM 0x40 d c 2 ((0 : BitVec 3) ++ bit1 int32) off
  | .axch d c off => encM 0x41 d c 2 0 off
  | .acas d c off => encM 0x42 d c 2 0 off
  | .ald d c off => encM 0x43 d c 2 0 off
  | .ast d c off => encM 0x44 d c 2 0 off
  | .ssig d c s off => encM 0x49 d c s.code 0 off
  | .sset d c off => encM 0x4A d c 0 0 off
  | .swait d c cond off => encM 0x4B d c 0 cond.code off
  | .swaitConsume d c u off => encM 0x4B d c 1 (if u then 5 else 3) off
  | .rel d c s off => encM 0x4D d c s.code 0 off
  | .acq d c cond s off => encM 0x4E d c s.code cond.code off
  | .carry d c off => encM 0x4F d c 4 0 off
  | .rinit rn a => encR 0x48 0x0 0 a 0 ((0 : BitVec 18) ++ rn)
  | .rclm d c rn n => encR 0x48 0x1 d (c5 c) 0 ((0 : BitVec 6) ++ n ++ rn)
  | .rwfl d c rn n => encR 0x48 0x2 d (c5 c) 0 ((0 : BitVec 6) ++ n ++ rn)
  | .rwfr d c rn n => encR 0x48 0x3 d (c5 c) 0 ((0 : BitVec 6) ++ n ++ rn)
  | .rpub c rn n => encR 0x48 0x4 0 (c5 c) 0 ((0 : BitVec 6) ++ n ++ rn)
  | .rrel c rn n => encR 0x48 0x5 0 (c5 c) 0 ((0 : BitVec 6) ++ n ++ rn)
  | .rstat d c rn => encR 0x48 0x6 d (c5 c) 0 ((0 : BitVec 18) ++ rn)
  | .parv d l => encR 0x4C 0x0 d 0 0 ((0 : BitVec 18) ++ l)
  | .pwait l a => encR 0x4C 0x1 0 a 0 ((0 : BitVec 18) ++ l)
  | .pbar l => encR 0x4C 0x2 0 0 0 ((0 : BitVec 18) ++ l)
  | .fence s => encR 0x4C 0x3 0 0 0 ((0 : BitVec 18) ++ s.code)
  | .wev => encR 0x4C 0x4 0 0 0 0
  | .cpy a b l k t => encC 0x50 a b l k t
  | .cpys a b l k t => encC 0x51 a b l k t
  | .cpyz a b l k t => encC 0x52 a b l k t
  | .cpyc a b l k t => encC 0x53 a b l k t
  | .cpyg a b l k t => encC 0x54 a b l k t
  | .cpym a b l k t => encC 0x55 a b l k t
  | .cpya a b l k t => encC 0x56 a b l k t
  | .cpyx a b l k t => encC 0x57 a b l k t
  | .cfch b l k t => encC 0x58 0 b l k t
  | .cwm d wm clear => encR 0x59 0x0 d 0 0 ((0 : BitVec 16) ++ bit1 clear ++ wm)
  | .ccan d k => encR 0x59 0x1 d 0 0 ((0 : BitVec 17) ++ k)
  | .cstat d k => encR 0x59 0x2 d 0 0 ((0 : BitVec 17) ++ k)
  | .kvhs a b => encR 0x5A 0x0 0 (c5 a) (c5 b) 0
  | .kvlk a b ref => encR 0x5A 0x1 0 (c5 a) (c5 b) ((0 : BitVec 20) ++ bit1 ref)
  | .kvin d a b => encR 0x5A 0x2 d (c5 a) (c5 b) 0
  | .kvap b => encR 0x5A 0x3 0 0 (c5 b) 0
  | .kvrl d b => encR 0x5A 0x4 d 0 (c5 b) 0
  | .kvex d a b => encR 0x5A 0x5 d (c5 a) (c5 b) 0
  | .kvim d a b => encR 0x5A 0x6 d (c5 a) (c5 b) 0
  | .wseg a b => encR 0x5A 0x7 0 (c5 a) (c5 b) 0
  | .wprf a => encR 0x5A 0x8 0 (c5 a) 0 0
  | .xseq d a b => encR 0x5B 0x0 d a b 0
  | .xbar a b => encR 0x5B 0x1 0 a b 0
  | .xcan d a b => encR 0x5B 0x2 d a b 0
  | .xwait d a b => encR 0x5B 0x3 d a b 0
  | .xar a b l k t => encC 0x5C a b l k t
  | .xag a b l k t => encC 0x5D a b l k t
  | .xrs a b l k t => encC 0x5E a b l k t
  | .xata a b l k t => encC 0x5F a b l k t
  | .vadd ty d a b m st => encS (opTy 0b100000 ty) (opABC d a b m) st
  | .vsub ty d a b m st => encS (opTy 0b100001 ty) (opABC d a b m) st
  | .vmul ty d a b m st => encS (opTy 0b100010 ty) (opABC d a b m) st
  | .vfma ty d a b m st => encS (opTy 0b100011 ty) (opABC d a b m) st
  | .vfms ty d a b m st => encS (opTy 0b100100 ty) (opABC d a b m) st
  | .vmax ty d a b m st => encS (opTy 0b100101 ty) (opABC d a b m) st
  | .vmin ty d a b m st => encS (opTy 0b100110 ty) (opABC d a b m) st
  | .vcmp ty md cond a b m st => encS (opTy 0b100111 ty) (md ++ cond.code ++ a ++ b ++ bit1 m) st
  | .vld d row st => encS 0xA0 (d ++ row) st
  | .vst s m g row st => encS 0xA1 (s ++ m ++ g.code ++ row) st
  | .vldb d l row st => encS 0xA2 (d ++ l ++ row) st
  | .vldx d a row st => encS 0xA3 (d ++ a ++ row) st
  | .vstx s a m row st => encS 0xA4 (s ++ a ++ m ++ row) st
  | .vmov f d a m st => encS 0xA5 (d ++ a ++ (0 : BitVec 3) ++ f.code ++ bit1 m) st
  | .vabs ty d a m st => encS 0xA6 (opU d a ty m) st
  | .vneg ty d a m st => encS 0xA7 (opU d a ty m) st
  | .vsel d a m g mem st => encS 0xA8 (d ++ a ++ m ++ g.code ++ (0 : BitVec 1) ++ bit1 mem) st
  | .vand d a b m st => encS 0xA9 (opABC d a b m) st
  | .vor d a b m st => encS 0xAA (opABC d a b m) st
  | .vxor d a b m st => encS 0xAB (opABC d a b m) st
  | .vshl d a sh m st => encS 0xAC (opABC d a sh m) st
  | .vshr d a sh m st => encS 0xAD (opABC d a sh m) st
  | .vsra d a sh m st => encS 0xAE (opABC d a sh m) st
  | .vcvt d a dt srcT h m st => encS 0xAF (d ++ a ++ dt.code ++ srcT.code ++ bit1 h ++ bit1 m) st
  | .vrcp ty d a m st => encS 0xB0 (opU d a ty m) st
  | .vrsq ty d a m st => encS 0xB1 (opU d a ty m) st
  | .vexp2 ty d a m st => encS 0xB2 (opU d a ty m) st
  | .vlg2 ty d a m st => encS 0xB3 (opU d a ty m) st
  | .vrsum ty d a m st => encS 0xB4 (opU d a ty m) st
  | .vrmax ty d a m st => encS 0xB5 (opU d a ty m) st
  | .vbmax a t f m st => encS 0xB6 ((0 : BitVec 5) ++ a ++ (0 : BitVec 3) ++ t.code ++ f.code ++ bit1 m) st
  | .vqsc d k st => encS 0xB7 (d ++ k ++ (0 : BitVec 6)) st
  | .vqcvt d a p t f m st => encS 0xB8 (d ++ a ++ p ++ (0 : BitVec 1) ++ t.code ++ f.code ++ bit1 m) st
  | .vshuf d a b g st => encS 0xB9 (d ++ a ++ b ++ g.code) st
  | .viota d g st => encS 0xBA (d ++ (0 : BitVec 10) ++ g.code) st
  | .vbcst d a l st => encS 0xBB (d ++ a ++ l ++ (0 : BitVec 1)) st
  | .vdfr a m g mem st => encS 0xBC ((0 : BitVec 5) ++ a ++ m ++ g.code ++ (0 : BitVec 1) ++ bit1 mem) st
  | .vdfd d e m st => encS 0xBD (d ++ e ++ m ++ (0 : BitVec 3)) st
  | .vdfn d clear st => encS 0xBE (d ++ (0 : BitVec 10) ++ bit1 clear) st
  | .vnop st => encS 0xBF 0 st
  | .tld t row st => encS 0xD0 (t ++ row) st
  | .tseg ty d a h st => encS 0xD1 (d ++ a ++ h ++ ty.code) st
  | .tint ty d a h st => encS 0xD2 (d ++ a ++ h ++ ty.code) st
  | .tqad ty d a h st => encS 0xD3 (d ++ a ++ h ++ ty.code) st
  | .tclmp ty d a h st => encS 0xD4 (d ++ a ++ h ++ ty.code) st
  | .mcfg p g x st => encS 0xC0 (p.code ++ g ++ x ++ (0 : BitVec 4)) st
  | .mwld a s st => encS 0xC1 (a ++ s ++ (0 : BitVec 6)) st
  | .mwsw st => encS 0xC2 0 st
  | .mma a e acc st => encS 0xC3 (a ++ e ++ acc) st
  | .mmo a e acc st => encS 0xC4 (a ++ e ++ acc) st
  | .mdrn d aw st => encS 0xC5 (d ++ aw) st
  | .mzro acc st => encS 0xC6 ((0 : BitVec 10) ++ acc) st
  | .mscl a j st => encS 0xC7 (a ++ j ++ (0 : BitVec 8)) st
  | .mnop st => encS 0xC8 0 st
  | _ => none

/-- The host's entry: the instruction the decoder reads from a 48-bit word given as a number. -/
def decodeTableWord (_nbits w : Nat) : Option Instr :=
  match decode (BitVec.ofNat 48 w) with
  | .ok i => some i
  | .error _ => none

end Sys2Proof
end

