-- ==== Sys2Proof/Machine/Bits.lean ====
section
/-!
DEFINITION. Plain bit and byte helpers: byte order (R2), extracts, saturation of integers (Table 0.2).
-/
namespace Sys2Proof.Machine

/-- The 8 bits of `w` from bit 8k. -/
def byteOf {n : Nat} (w : BitVec n) (k : Nat) : Byte := w.extractLsb' (8 * k) 8

/-- The `n` bytes of a value, least significant first (R2). -/
def leBytes (v n : Nat) : List Byte :=
  match n with
  | 0 => []
  | n + 1 => BitVec.ofNat 8 v :: leBytes (v / 256) n

/-- The value of bytes, least significant first (R2). -/
def leNat : List Byte → Nat
  | [] => 0
  | b :: bs => b.toNat + 256 * leNat bs

/-- Bits [lo+len-1:lo] of a natural number. -/
def natBits (v lo len : Nat) : Nat := v / 2 ^ lo % 2 ^ len

/-- `v` with its bits [lo+len-1:lo] replaced by `x`. -/
def natSet (v lo len x : Nat) : Nat := v - natBits v lo len * 2 ^ lo + x % 2 ^ len * 2 ^ lo

/-- `BitVec` field replacement: bits [lo+len-1:lo] of `w` become `x`. -/
def setField {n len : Nat} (w : BitVec n) (lo : Nat) (x : BitVec len) : BitVec n :=
  BitVec.ofNat n (natSet w.toNat lo len x.toNat)

/-- `Sat(x, lo, hi)` of Table 0.2 over the integers. -/
def satInt (x lo hi : Int) : Int := if x < lo then lo else if hi < x then hi else x

/-- The two's-complement pattern of an integer. -/
def ofInt (n : Nat) (x : Int) : BitVec n := BitVec.ofInt n x

/-- Lane `i` of a row (R120). -/
def lane (r : Row) (i : Nat) : W32 := r.extractLsb' (32 * i) 32

/-- 16-bit element `i` of a row (R120). -/
def elem16 (r : Row) (i : Nat) : BitVec 16 := r.extractLsb' (16 * i) 16

/-- Byte `i` of a row. -/
def rowByte (r : Row) (i : Nat) : Byte := r.extractLsb' (8 * i) 8

/-- A row from a function of the 32-bit lane number. -/
def rowOfLanes (f : Nat → W32) : Row :=
  BitVec.ofNat 1024 ((List.range 32).foldl (fun acc i => acc + (f i).toNat * 2 ^ (32 * i)) 0)

/-- A row from a function of the 16-bit element number. -/
def rowOfElems (f : Nat → BitVec 16) : Row :=
  BitVec.ofNat 1024 ((List.range 64).foldl (fun acc i => acc + (f i).toNat * 2 ^ (16 * i)) 0)

/-- The 128 bytes of a row, little-endian (R2). -/
def rowBytes (r : Row) : List Byte := leBytes r.toNat 128

/-- A row from its bytes. -/
def rowOfBytes (bs : List Byte) : Row := BitVec.ofNat 1024 (leNat bs)

/-- `n` consecutive numbers from `a`. -/
def span (a n : Nat) : List Nat := (List.range n).map (a + ·)

end Sys2Proof.Machine
end

