-- ==== Sys2Proof/Machine/Float.lean ====
section
/-!
DEFINITION. The floating-point formats and the five rounding modes (R44 to R50), on exact dyadic values: every operation
is computed exactly and rounded once.
-/
namespace Sys2Proof.Machine

/-- The rounding modes of R48. -/
inductive Rnd where
  | rne | rna | rtz | rdn | rup
deriving DecidableEq, Repr

/-- The codes of R48; 5 to 7 are reserved. -/
def rnd? (x : BitVec 3) : Option Rnd :=
  match x with
  | 0 => some .rne | 1 => some .rna | 2 => some .rtz | 3 => some .rdn | 4 => some .rup
  | _ => none

/-- The mode a stored code names. Reserved codes are never stored (R16). -/
def rndOf (x : BitVec 3) : Rnd := (rnd? x).getD .rne

/-- A floating-point format (Table 2.1): widths of exponent and mantissa, bias, and whether the all-ones exponent is
special (in E4M3 it is not). -/
structure FFmt where
  ebits : Nat
  mbits : Nat
  bias  : Nat
  hasInf : Bool
deriving DecidableEq, Repr

def fp32 : FFmt := ⟨8, 23, 127, true⟩
def fp16 : FFmt := ⟨5, 10, 15, true⟩
def bf16 : FFmt := ⟨8, 7, 127, true⟩
def e4m3 : FFmt := ⟨4, 3, 7, false⟩
def e5m2 : FFmt := ⟨5, 2, 15, true⟩

def FFmt.width (f : FFmt) : Nat := 1 + f.ebits + f.mbits
def FFmt.signBit (f : FFmt) : Nat := 2 ^ (f.ebits + f.mbits)
/-- The magnitude pattern of +infinity, where the format has one. -/
def FFmt.infPat (f : FFmt) : Nat := (2 ^ f.ebits - 1) * 2 ^ f.mbits
/-- The magnitude pattern of the largest finite value (Table 2.1). -/
def FFmt.maxPat (f : FFmt) : Nat := if f.hasInf then f.infPat - 1 else f.signBit - 2
/-- The canonical NaN, positive (Table 2.1). -/
def FFmt.nanPat (f : FFmt) : Nat := if f.hasInf then f.infPat + 2 ^ (f.mbits - 1) else f.signBit - 1

/-- A value: `fin neg m e` is (-1)^neg × m × 2^e, zero when `m` is 0. -/
inductive FVal where
  | nan (neg : Bool)
  | inf (neg : Bool)
  | fin (neg : Bool) (m : Nat) (e : Int)
deriving DecidableEq, Repr

/-- The value of a pattern (R44, R45). -/
def FFmt.decode (f : FFmt) (p : Nat) : FVal :=
  let neg := p / f.signBit % 2 == 1
  let mag := p % f.signBit
  let ex := mag / 2 ^ f.mbits
  let fr := mag % 2 ^ f.mbits
  if f.hasInf && ex == 2 ^ f.ebits - 1 then (if fr == 0 then .inf neg else .nan neg)
  else if !f.hasInf && mag == f.signBit - 1 then .nan neg
  else if ex == 0 then .fin neg fr (1 - (f.bias : Int) - f.mbits)
  else .fin neg (2 ^ f.mbits + fr) ((ex : Int) - f.bias - f.mbits)

/-- Whether the remainder `r` of a division by 2^sh rounds the magnitude `q` up (R48). -/
def roundUp (mode : Rnd) (neg : Bool) (q r sh : Nat) : Bool :=
  if r == 0 then false
  else
    let twice := 2 * r
    let unit := 2 ^ sh
    match mode with
    | .rne => unit < twice || (twice == unit && q % 2 == 1)
    | .rna => unit ≤ twice
    | .rtz => false
    | .rdn => neg
    | .rup => !neg

/-- The overflow result (Table 2.2). -/
def FFmt.overflow (f : FFmt) (mode : Rnd) (neg : Bool) : Nat :=
  if !f.hasInf then f.maxPat
  else
    match mode with
    | .rne | .rna => f.infPat
    | .rtz => f.maxPat
    | .rdn => if neg then f.infPat else f.maxPat
    | .rup => if neg then f.maxPat else f.infPat

/-- The sign bit of a pattern. -/
def FFmt.sign (f : FFmt) (neg : Bool) : Nat := if neg then f.signBit else 0

/-- Round the exact value (-1)^neg × m × 2^e into a format (R48, R49). A zero keeps the sign given. -/
def FFmt.roundFin (f : FFmt) (mode : Rnd) (neg : Bool) (m : Nat) (e : Int) : Nat :=
  if m == 0 then f.sign neg
  else
    let top : Int := Nat.log2 m + e
    let qexp : Int := max (top - f.mbits) (1 - (f.bias : Int) - f.mbits)
    let sh := qexp - e
    let q := if sh ≤ 0 then m * 2 ^ (-sh).toNat else m / 2 ^ sh.toNat
    let r := if sh ≤ 0 then 0 else m % 2 ^ sh.toNat
    let q := if roundUp mode neg q r sh.toNat then q + 1 else q
    let mag := (qexp + f.mbits + f.bias - 1).toNat * 2 ^ f.mbits + q
    f.sign neg + (if f.maxPat < mag then f.overflow mode neg else mag)

/-- `Round(x, format, mode)` of a value: NaN to the canonical NaN of its sign (R46), infinity to infinity, and to ±448 in
E4M3 (R49). -/
def FFmt.round (f : FFmt) (mode : Rnd) (v : FVal) : Nat :=
  match v with
  | .nan neg => f.sign neg + f.nanPat
  | .inf neg => f.sign neg + (if f.hasInf then f.infPat else f.maxPat)
  | .fin neg m e => f.roundFin mode neg m e

/-- The sign a zero sum takes when its terms are not two zeros of one sign (R47). -/
def zeroSign (mode : Rnd) : Bool := mode == .rdn

/-- The exact sum of two values, with the sign R47 gives a zero in `mode`. An invalid sum is the NaN of sign 0 (R46). -/
def FVal.add (mode : Rnd) (x y : FVal) : FVal :=
  match x, y with
  | .nan _, _ => .nan false
  | _, .nan _ => .nan false
  | .inf a, .inf b => if a == b then .inf a else .nan false
  | .inf a, .fin _ _ _ => .inf a
  | .fin _ _ _, .inf b => .inf b
  | .fin na ma ea, .fin nb mb eb =>
    let e := min ea eb
    let va : Int := (ma : Int) * 2 ^ (ea - e).toNat
    let vb : Int := (mb : Int) * 2 ^ (eb - e).toNat
    let s := (if na then -va else va) + (if nb then -vb else vb)
    if s == 0 then .fin (if ma == 0 && mb == 0 && na == nb then na else zeroSign mode) 0 e
    else .fin (s < 0) s.natAbs e

/-- The exact product (R46: 0 × infinity is invalid). -/
def FVal.mul (x y : FVal) : FVal :=
  match x, y with
  | .nan _, _ => .nan false
  | _, .nan _ => .nan false
  | .inf a, .inf b => .inf (a != b)
  | .inf a, .fin b m _ => if m == 0 then .nan false else .inf (a != b)
  | .fin a m _, .inf b => if m == 0 then .nan false else .inf (a != b)
  | .fin a ma ea, .fin b mb eb => .fin (a != b) (ma * mb) (ea + eb)

def FVal.neg : FVal → FVal
  | .nan n => .nan n
  | .inf n => .inf (!n)
  | .fin n m e => .fin (!n) m e

def FVal.isNaN : FVal → Bool
  | .nan _ => true
  | _ => false

/-- NaN or infinite (R63). -/
def FVal.special : FVal → Bool
  | .fin _ _ _ => false
  | _ => true

def FVal.isZero : FVal → Bool
  | .fin _ m _ => m == 0
  | _ => false

/-- The exact sign of x - y for values that are not NaN: -0 and +0 are equal. -/
def FVal.cmp (x y : FVal) : Ordering :=
  match x, y with
  | .inf a, .inf b => if a == b then .eq else if a then .lt else .gt
  | .inf a, _ => if a then .lt else .gt
  | _, .inf b => if b then .gt else .lt
  | .fin na ma ea, .fin nb mb eb =>
    let e := min ea eb
    let va : Int := (ma : Int) * 2 ^ (ea - e).toNat
    let vb : Int := (mb : Int) * 2 ^ (eb - e).toNat
    compare (if na then -va else va) (if nb then -vb else vb)
  | _, _ => .eq

/-- Round an exact value to an integer (R50). -/
def roundInt (mode : Rnd) (neg : Bool) (m : Nat) (e : Int) : Int :=
  if 0 ≤ e then
    let v : Int := (m : Int) * 2 ^ e.toNat
    if neg then -v else v
  else
    let sh := (-e).toNat
    let q := m / 2 ^ sh
    let q := if roundUp mode neg q (m % 2 ^ sh) sh then q + 1 else q
    if neg then -(q : Int) else q

/-- An arithmetic result: a NaN is the canonical NaN with sign 0 (R46). -/
def FFmt.arith (f : FFmt) (mode : Rnd) (v : FVal) : Nat :=
  match v with
  | .nan _ => f.nanPat
  | v => f.round mode v

/-- Sum, product and fused product and sum of patterns of one format, rounded once. -/
def FFmt.addP (f : FFmt) (mode : Rnd) (a b : Nat) : Nat := f.arith mode (FVal.add mode (f.decode a) (f.decode b))
def FFmt.mulP (f : FFmt) (mode : Rnd) (a b : Nat) : Nat := f.arith mode (FVal.mul (f.decode a) (f.decode b))
def FFmt.fmaP (f : FFmt) (mode : Rnd) (a b c : Nat) : Nat :=
  f.arith mode (FVal.add mode (FVal.mul (f.decode a) (f.decode b)) (f.decode c))

/-- FP32 operations on 32-bit words, RNE (R59, R169). -/
def addF32 (a b : W32) : W32 := BitVec.ofNat 32 (fp32.addP .rne a.toNat b.toNat)
def mulF32 (a b : W32) : W32 := BitVec.ofNat 32 (fp32.mulP .rne a.toNat b.toNat)

end Sys2Proof.Machine
end

