-- ==== Sys2Proof/Machine/Block.lean ====
section
/-!
DEFINITION. Bank formats and the conversions between them: element layout (R41), QN4 (R51), block formats and their
planar forms (R54 to R57, R63), Table 2.7 and the pad elements of Table 2.8.
-/
namespace Sys2Proof.Machine

/-- The bank format codes of Table 2.9. -/
inductive Fmt where
  | raw | int8 | int16 | int32 | fp32 | bf16 | fp16 | e4m3 | e5m2 | bx8 | bx4 | bxp8 | bxp4 | qn4 | ring | cap
deriving DecidableEq, Repr

def Fmt.of (x : BitVec 4) : Fmt :=
  match x with
  | 0 => .raw | 1 => .int8 | 2 => .int16 | 3 => .int32 | 4 => .fp32 | 5 => .bf16 | 6 => .fp16 | 7 => .e4m3
  | 8 => .e5m2 | 9 => .bx8 | 10 => .bx4 | 11 => .bxp8 | 12 => .bxp4 | 13 => .qn4 | 14 => .ring | _ => .cap

def Fmt.code : Fmt → BitVec 4
  | .raw => 0 | .int8 => 1 | .int16 => 2 | .int32 => 3 | .fp32 => 4 | .bf16 => 5 | .fp16 => 6 | .e4m3 => 7
  | .e5m2 => 8 | .bx8 => 9 | .bx4 => 10 | .bxp8 => 11 | .bxp4 => 12 | .qn4 => 13 | .ring => 14 | .cap => 15

/-- The element width of Table 2.9 in half bytes. -/
def Fmt.half : Fmt → Nat
  | .raw | .int8 | .e4m3 | .e5m2 | .bx8 | .bxp8 | .ring => 2
  | .int16 | .bf16 | .fp16 => 4
  | .int32 | .fp32 => 8
  | .bx4 | .bxp4 | .qn4 => 1
  | .cap => 32

/-- Bytes that `n` elements occupy (R41). -/
def Fmt.bytesFor (f : Fmt) (n : Nat) : Nat := (n * f.half + 1) / 2

/-- The alignment unit of an element: a pair of half-byte elements counts as one byte (R66). -/
def Fmt.unit (f : Fmt) : Nat := if f.half == 1 then 1 else f.half / 2

/-- The floating-point layout of a format, where it is one. -/
def Fmt.float? : Fmt → Option FFmt
  | .fp32 => some Sys2Proof.Machine.fp32
  | .bf16 => some Sys2Proof.Machine.bf16
  | .fp16 => some Sys2Proof.Machine.fp16
  | .e4m3 => some Sys2Proof.Machine.e4m3
  | .e5m2 => some Sys2Proof.Machine.e5m2
  | _ => none

/-- Bits of an integer format. -/
def Fmt.intBits? : Fmt → Option Nat
  | .int8 => some 8
  | .int16 => some 16
  | .int32 => some 32
  | _ => none

/-- BX8, BX4 and their planar forms. -/
def Fmt.isBlock : Fmt → Bool
  | .bx8 | .bx4 | .bxp8 | .bxp4 => true
  | _ => false

def Fmt.isPlanar : Fmt → Bool
  | .bxp8 | .bxp4 => true
  | _ => false

/-- The scalar formats of Table 2.7. -/
def Fmt.isScalar (f : Fmt) : Bool := f.float?.isSome || f.intBits?.isSome

/-- Mantissa bits of a block format. -/
def Fmt.mantBits : Fmt → Nat
  | .bx4 | .bxp4 => 4
  | _ => 8

/-- f of R55 for mantissas of `bits` bits. -/
def blockFrac (bits : Nat) : Nat := if bits == 4 then 2 else 6
/-- mmax of R63. -/
def blockMax (bits : Nat) : Int := if bits == 4 then 7 else 127

/-- Bytes of one block's mantissas (R54). -/
def Fmt.blockBytes (f : Fmt) : Nat := 8 * f.mantBits

/-- The QN4 codebook, in units of 1/2048 (Table 2.5). -/
def codebook (i : Nat) : Int :=
  match i with
  | 0 => -2048 | 1 => -1428 | 2 => -1098 | 3 => -853 | 4 => -649 | 5 => -468 | 6 => -302 | 7 => -148
  | 8 => 0 | 9 => 136 | 10 => 278 | 11 => 428 | 12 => 592 | 13 => 780 | 14 => 1016 | _ => 2047

/-- An integer as an exact value. -/
def intVal (x : Int) : FVal := .fin (x < 0) x.natAbs 0

/-- The two's-complement value of an `n`-bit pattern. -/
def signedNat (n p : Nat) : Int := if p % 2 ^ n < 2 ^ (n - 1) then (p % 2 ^ n : Nat) else ((p % 2 ^ n : Nat) : Int) - 2 ^ n

/-- The value of a scalar element's pattern (R42, R44). -/
def Fmt.value (f : Fmt) (p : Nat) : FVal :=
  match f.float? with
  | some ff => ff.decode p
  | none =>
    match f.intBits? with
    | some n => intVal (signedNat n p)
    | none => .fin false 0 0

/-- Rounding a value to an integer of `n` bits: NaN gives 0, infinities the bounds, the rest saturates (Table 2.7). -/
def toIntSat (n : Nat) (mode : Rnd) (v : FVal) : Int :=
  let lo : Int := -(2 ^ (n - 1))
  let hi : Int := 2 ^ (n - 1) - 1
  match v with
  | .nan _ => 0
  | .inf neg => if neg then lo else hi
  | .fin neg m e => satInt (roundInt mode neg m e) lo hi

/-- The pattern of a scalar destination element (Table 2.7). -/
def Fmt.pattern (f : Fmt) (mode : Rnd) (v : FVal) : Nat :=
  match f.float? with
  | some ff => ff.round mode v
  | none =>
    match f.intBits? with
    | some n => (ofInt n (toIntSat n mode v)).toNat
    | none => 0

/-- The value of a block element (R55). The NaN of E = 255 has no stated sign: the model takes it positive (DESIGN CHOICE,
notes/assumptions/115.md). -/
def blockValue (bits : Nat) (e : Byte) (m : Int) : FVal :=
  if e == 255 then .nan false else .fin (m < 0) m.natAbs ((e.toNat : Int) - 127 - blockFrac bits)

/-- |RoundInt(x × 2^(127 + f - e))| ≤ mmax (R63). -/
def blockFits (bits : Nat) (mode : Rnd) (e : Nat) (v : FVal) : Bool :=
  match v with
  | .fin neg m ex => (roundInt mode neg m (ex + 127 + blockFrac bits - e)).natAbs ≤ (blockMax bits).toNat
  | _ => true

/-- An exponent below which a value's mantissa exceeds mmax before any rounding. -/
def blockFloor (bits : Nat) (v : FVal) : Nat :=
  match v with
  | .fin _ m ex => if m == 0 then 0 else ((Nat.log2 m : Int) + ex + 127 + blockFrac bits - (bits - 2 : Nat)).toNat
  | _ => 0

/-- The least e from `e` up to 254 that fits all values; 254 when there is none. -/
def blockSearch (bits : Nat) (mode : Rnd) (xs : List FVal) (fuel e : Nat) : Nat :=
  match fuel with
  | 0 => 254
  | fuel + 1 => if 254 ≤ e then 254 else if xs.all (blockFits bits mode e) then e else blockSearch bits mode xs fuel (e + 1)

/-- The block exponent E of R63. -/
def blockExp (bits : Nat) (mode : Rnd) (xs : List FVal) : Byte :=
  if xs.any FVal.special then 255
  else if xs.all FVal.isZero then 0
  else BitVec.ofNat 8 (blockSearch bits mode xs 255 (xs.foldl (fun a v => max a (blockFloor bits v)) 0))

/-- A mantissa of a block of exponent E (R63, R139): infinities saturate, a NaN gives 0. -/
def blockMant (bits : Nat) (mode : Rnd) (e : Byte) (v : FVal) : Int :=
  if e == 255 then 0
  else
    match v with
    | .nan _ => 0
    | .inf neg => if neg then -blockMax bits else blockMax bits
    | .fin neg m ex => satInt (roundInt mode neg m (ex + 127 + blockFrac bits - e.toNat)) (-blockMax bits) (blockMax bits)

/-- Mantissas of a block in element layout: two 4-bit mantissas to a byte (R41, R54). -/
def packMants (bits : Nat) (ms : List Nat) : List Byte :=
  leBytes ((ms.zipIdx).foldl (fun acc (m, i) => acc + m % 2 ^ bits * 2 ^ (bits * i)) 0) (8 * bits)

/-- The mantissa patterns of a block in element layout. -/
def unpackMants (bits : Nat) (bs : List Byte) : List Nat :=
  let v := leNat bs
  (List.range 64).map fun i => natBits v (bits * i) bits

/-- Planes from mantissa patterns (R56): bit i of plane j is bit j of mantissa i. -/
def toPlanes (bits : Nat) (ms : List Nat) : List Byte :=
  leBytes ((List.range bits).foldl (fun acc j =>
    acc + (ms.zipIdx).foldl (fun a (m, i) => a + natBits m j 1 * 2 ^ i) 0 * 2 ^ (64 * j)) 0) (8 * bits)

/-- Mantissa patterns from planes (R56). -/
def ofPlanes (bits : Nat) (bs : List Byte) : List Nat :=
  let v := leNat bs
  (List.range 64).map fun i => (List.range bits).foldl (fun a j => a + natBits v (64 * j + i) 1 * 2 ^ j) 0

/-- The mantissa patterns of a block, in the layout of its format. -/
def Fmt.mants (f : Fmt) (bs : List Byte) : List Nat :=
  if f.isPlanar then ofPlanes f.mantBits bs else unpackMants f.mantBits bs

/-- The bytes of a block of mantissa patterns, in the layout of its format. -/
def Fmt.ofMants (f : Fmt) (ms : List Nat) : List Byte :=
  if f.isPlanar then toPlanes f.mantBits ms else packMants f.mantBits ms

/-- The 64 values of a block (R55). -/
def Fmt.blockValues (f : Fmt) (bs : List Byte) (e : Byte) : List FVal :=
  (f.mants bs).map fun m => blockValue f.mantBits e (signedNat f.mantBits m)

/-- The block rule of R63: 64 values to mantissa bytes and exponent. -/
def Fmt.ofValues (f : Fmt) (mode : Rnd) (xs : List FVal) : List Byte × Byte :=
  let e := blockExp f.mantBits mode xs
  (f.ofMants (xs.map fun x => (ofInt f.mantBits (blockMant f.mantBits mode e x)).toNat), e)

/-- The elements of scalar bytes as patterns. -/
def Fmt.split (f : Fmt) (bs : List Byte) : List Nat :=
  let w := f.half / 2
  if w == 0 then [] else (List.range (bs.length / w)).map fun i => leNat ((bs.drop (i * w)).take w)

/-- Bytes of scalar patterns. -/
def Fmt.join (f : Fmt) (ps : List Nat) : List Byte := ps.flatMap fun p => leBytes p (f.half / 2)

/-- How Table 2.7 converts. -/
inductive Conv where
  /-- Bytes move unchanged; for CAP to CAP the tags may be kept (R270). -/
  | same
  /-- Bytes move unchanged, no tag is carried. -/
  | moved
  /-- Every destination tag is cleared (destination CAP). -/
  | cleared
  /-- R64. -/
  | refused
  /-- Scalar to scalar, element by element. -/
  | scalar
  /-- BX to its planar partner or back. -/
  | planar
  /-- Block to scalar. -/
  | unblock
  /-- Any element source to a block that is not its partner. -/
  | block
deriving DecidableEq, Repr

/-- Table 2.7, the first row that matches deciding. -/
def conversion (src dst : Fmt) : Conv :=
  if src == dst then .same
  else if (src == .raw || src == .ring) && dst != .cap then .moved
  else if src != .cap && (dst == .raw || dst == .ring) then .moved
  else if src == .qn4 && dst != .qn4 && dst != .raw && dst != .ring then .refused
  else if dst == .qn4 then .refused
  else if src == .cap then .moved
  else if dst == .cap then .cleared
  else if src.isScalar && dst.isScalar then .scalar
  else if (src == .bx8 && dst == .bxp8) || (src == .bxp8 && dst == .bx8) || (src == .bx4 && dst == .bxp4)
      || (src == .bxp4 && dst == .bx4) then .planar
  else if src.isBlock && dst.isScalar then .unblock
  else .block

/-- The pad element's pattern in a source format (Table 2.8); for CAP it is zero. -/
def Fmt.padPattern (f : Fmt) (pad : W32) : Nat :=
  match f with
  | .int16 | .bf16 | .fp16 => pad.toNat % 65536
  | .int32 | .fp32 => pad.toNat
  | .qn4 | .bx4 | .bxp4 => pad.toNat % 16
  | .cap => 0
  | _ => pad.toNat % 256

/-- The exponent of an all-pad block (Table 2.8). -/
def padExp (pad : W32) : Byte := pad.extractLsb' 8 8

end Sys2Proof.Machine
end

