-- ==== Sys2Proof/Machine/State.lean ====
section
/-!
DEFINITION. The state of the package as plain data: the core in focus and the other cores, all memory, the dispatcher,
the engines, the boards and queues, the firmware's records; and the state right after reset.
-/
namespace Sys2Proof.Machine

open Sys2Proof

/-! ### Faults -/

/-- Why a run stops inside the model. The machine's own faults (Table 15.3) are architectural and are next states; this
type names only an access the model has no place for. -/
inductive Fault where
  /-- Raised by no meaning; kept so that the type is inhabited. Safe. -/
  | noSuchUnit
deriving DecidableEq, Repr

/-- Why a step is refused. -/
inductive Refusal where
  /-- An instruction whose meaning is not written. Raised by Dispatch only. Safe. -/
  | notModelled (mnemonic : String)
deriving DecidableEq, Repr

/-- The causes of Table 15.3 that are raised, and the status values that are only reported. -/
inductive Cause where
  | ill | priv | capbnd | captag | capperm | timing | seqtag | slip | segmiss | dfovf | xlate | align | overrun
  | quota | tier | bkpt | svc | record | owner | ringerr | seqwin | started | ucdata
deriving DecidableEq, Repr

/-- A fault as the task keeps it (R322, R323). -/
structure FaultRec where
  cause : Cause
  fpc   : BitVec 12
  addr  : W64
  info  : W64
deriving DecidableEq, Repr

/-! ### Capabilities and memory marks -/

/-- A capability register: cursor, high half and hidden tag (R12, Table 10.7). -/
structure Cap where
  cur  : W64
  high : W64
  tag  : Bool
deriving DecidableEq, Repr

/-- How an HBM line verifies (R253): the world under whose key it was last written, or the poison value. -/
structure LineMark where
  world : Nat
  bad   : Bool
deriving DecidableEq, Repr

/-! ### A core: the control column -/

/-- A level of the loop stack (R33 to R40). -/
structure LoopLevel where
  lvl   : BitVec 2
  start : Nat
  stop  : Nat
deriving DecidableEq, Repr

/-- The registers of the control column (Table 1.2). `loops` is the stack of active levels, innermost first. -/
structure CtlRegs where
  s  : Vector W64 32
  c  : Vector Cap 16
  k  : BitVec 8
  lc : Vector W32 4
  loops : List LoopLevel
  mb : Vector W64 16
deriving DecidableEq, Repr

/-! ### A core: vector, table and matrix columns -/

/-- A deferral queue entry, with the cycle of the VDFR that appended it (R31, R143). -/
structure Deferred where
  value : W32
  index : W32
  cycle : Nat
deriving DecidableEq, Repr

/-- The registers of the vector column (Table 1.2). -/
structure VecRegs where
  v : Vector Row 32
  m : Vector W64 8
  q : Vector Byte 4
  qrd : BitVec 2
  qwr : BitVec 2
  dq : List Deferred
  /-- q as it stood before its last change, and the first cycle that reads the changed one (the bypass of R139). -/
  qOld : Vector Byte 4
  qAt : Nat
deriving DecidableEq, Repr

/-- A latch row: indices and scale codes (R150). -/
structure LatchRow where
  idx : Row
  codes : BitVec 32
deriving DecidableEq, Repr

/-- A follow-on on the loader or waiting for it (R160). -/
structure FollowOn where
  copy : Nat
  word : W48
  cap  : Cap
  pc   : BitVec 12
  issue : Nat
  engine : Nat
  presented : Nat
  row  : Nat
  running : Bool
  /-- The latch rows that it has overwritten, as indices and codes: a failure gives them back (R155). -/
  old : List Row
deriving DecidableEq, Repr

/-- The state of the matrix column (Table 6.2). `sel` is true when wl1 is the active bank. -/
structure MatRegs where
  wl0 : Vector LatchRow 256
  wl1 : Vector LatchRow 256
  sel : Bool
  sv  : Vector W32 256
  planes : Nat
  tscale : W32
  loader : List FollowOn
  /-- Latch rows with a parity error (R331). -/
  parity : List (Bool × Nat)
deriving DecidableEq, Repr

/-! ### A core: channels, rings, records -/

/-- A watermark channel (Table 1.4): its register fields, and the bound region as pieces of the destination order
(address, position, length), with the copy that binds it (R273). -/
structure Channel where
  act : Bool
  level : Nat
  size : Nat
  copy : Nat
  region : List (Nat × Nat × Nat)
deriving DecidableEq, Repr

/-- A claimed slot record (R215). -/
structure Claim where
  slot : Nat
  core : Nat
  marked : Bool
deriving DecidableEq, Repr

/-- A ring register (Table 1.3) with its claim records and void slots (R215, R220). -/
structure Ring where
  reg : W64
  claims : List Claim
  voids : List Nat
deriving DecidableEq, Repr

/-- A replay journal entry (R307): function, and words 1 to 7 once written. -/
structure JournalEntry where
  /-- The command that made the entry; function 0, which is never journalled, marks the entry of a command that ended in a fault
  and changed nothing. -/
  id : Nat
  fn : BitVec 4
  words : Option (List W32)
deriving DecidableEq, Repr

/-! ### A core: issue -/

/-- Where a load's bytes go (Table 4.6): a register, zero- or sign-extended, or a capability, with what LOADCAP said at its
issue (R104). -/
inductive LoadTo where
  | zext (d : SReg)
  | sext (d : SReg)
  | cap (d : CReg) (may : Bool)
deriving DecidableEq, Repr

/-- What the control column waits for (R22). -/
inductive WaitFor where
  | none
  /-- A load stalled by R15: address, size and destination as its issue fixed them (R94, R106). -/
  | load (a n : Nat) (dst : LoadTo)
  /-- A waiting home operation. -/
  | home (id : Nat)
  /-- PWAIT or PBAR on a phase of a domain level (R223). -/
  | phase (lvl : BitVec 3) (p : BitVec 32)
  | wev
  | done
  /-- XSEQ, XCAN or XWAIT (R382), with the destination register, what is asked, and the cycle and value of the answer. -/
  | fabric (fn : Nat) (d : SReg) (key : Key) (ready : Option (Nat × W64))
deriving DecidableEq, Repr

/-- The destinations of results in flight (R7). -/
inductive Dst where
  | s (n : SReg) (v : W64)
  | c (n : CReg) (v : Cap)
  | k (n : KReg) (v : Bool)
  | v (n : VReg) (r : Row) (bytes : BitVec 128)
  | m (n : MReg) (v : W64)
  | q (n : BitVec 2) (v : Byte)
  | sv (group : BitVec 3) (r : Row)
  | latch (which : Bool) (row : Nat) (v : LatchRow)
  | mcfg (planes : Nat) (t : W32)
  | swap
  | table (first : Nat) (words : Row)
  | reg (num : BitVec 8) (v : W64)
deriving DecidableEq, Repr

/-- A result in flight: it takes effect at the end of cycle `due`; equal dues go in issue order. -/
structure Pend where
  due : Nat
  dst : Dst
  col : Option Col
  issue : Nat
deriving DecidableEq, Repr

/-- A control-column store in flight to the end of its cycle (R94): address, bytes, and the tag STC writes. -/
structure StorePend where
  addr : Nat
  bytes : List Byte
  tag : Option Bool
deriving DecidableEq, Repr

/-- A bank row write of a function column in flight (R124): row address, bytes, byte enables, and who made it. -/
structure BankPend where
  due : Nat
  addr : Nat
  row : Row
  bytes : BitVec 128
  col : Col
  pc : BitVec 12
  issue : Nat
deriving DecidableEq, Repr

/-- A write of the matrix column into accumulator words (R157, R162, R164): MMA adds scaled blocks, MMO starts at +0.0,
MZRO clears. `terms` holds, for each output column, the block values G of R59 in order; `parity` marks a latch error. -/
structure AccPend where
  due : Nat
  row : Nat
  anew : Bool
  zero : Bool
  terms : List (List (Option W32))
  parity : Bool
  pc : BitVec 12
  issue : Nat
deriving DecidableEq, Repr

/-- A launch not started (R26). `saved` marks one restored from a seal record (R323, R344). -/
structure Launch where
  first : Nat
  count : Nat
  cap : Cap
  start : Nat
  pc : BitVec 12
  issue : Nat
  saved : Bool
deriving DecidableEq, Repr

/-- A stream in progress (R79, R80): the word it is at, words left with that one, the word once fetched with its operation
number, the cycle of its next operation, the cycle inside an occupancy and the issue cycle of its word. -/
structure Stream where
  addr : Nat
  left : Nat
  cur : Option Instr
  op : Nat
  rho : Int
  cap : Cap
  next : Nat
  cyc : Nat
  opIssue : Nat
  /-- Issue cycle of the launch. -/
  issue : Nat
  /-- First cycle in which every result so far is visible (R28). -/
  visible : Nat
  /-- Reads latched by the matrix operation in progress: exponents, then mantissas, 128 to a row (R162). -/
  latched : List Row
deriving DecidableEq, Repr

/-- A function column: armed launches, the running stream, and the cycles of stream-ends to come. -/
structure Column where
  armed : List Launch
  run : Option Stream
  ends : List Nat
  flag : Bool
deriving DecidableEq, Repr

/-- A fault to raise in a later cycle (R321). -/
structure Later where
  cycle : Nat
  f : FaultRec
deriving DecidableEq, Repr

/-- A code segment: present bit and tag (R21). -/
structure Seg where
  present : Bool
  tag : BitVec 16
deriving DecidableEq, Repr

/-- The state registers of Table 1.5 that are no view of other state. -/
structure SysRegs where
  sd : Bool
  rply : Nat
  dbg : Bool
  bkpend : Bool
  bksrc : BitVec 2
  fcause : Byte
  fpc : BitVec 12
  faddr : W64
  finfo : W64
  anchor : W64
  dmem : W64
  tcoord : W32
  gshape : W32
  world : BitVec 9
  vmode : BitVec 3
  scope : BitVec 3
  drainbase : BitVec 12
  cycmax : W32
  bpaddr : Vector (BitVec 13) 4
  evmask : BitVec 16
  bfmt : Vector W64 96
deriving DecidableEq, Repr

/-- An `.expect` or `.footprint` region resolved at a start (R260, R274). -/
structure Region where
  kind : Option FootKind
  base : W64
  len : Nat
  tag : BitVec 16
deriving DecidableEq, Repr

/-- A core's place between free and running (R188, R203, R333, R339, R343). -/
inductive Status where
  | free
  /-- Bound; its task has not started. -/
  | bound
  | running
  /-- Between two runs (R203). -/
  | between
  | retired
  /-- Draining since a pre-emption request, before the seal (R333). -/
  | draining
  | sealed
  /-- Stopped by the end of its request or a violation elsewhere. -/
  | stopped
  | frozen
deriving DecidableEq, Repr

/-- What a drain keeps (R333 to R341): Q, D once found, the resume word, whether a stub runs, a pending fault, that the run
starts over at resume and by which kind of start, that the core had retired, that it was sealed from debug state. -/
structure Drain where
  q : Nat
  d : Option Nat
  resume : Nat
  stub : Bool
  stubDone : Bool
  restart : Bool
  kind : Nat
  retired : Bool
  dbg : Bool
  fpend : Option FaultRec
deriving DecidableEq, Repr

/-- A firmware processor's level (R403). -/
inductive FwLevel where
  | monitor | scheduler | plugin
deriving DecidableEq, Repr

/-- What a firmware processor adds to a control column: level, guards (base, last), return points and the plug-in call's
start (R403). -/
structure Fw where
  level : FwLevel
  schedGuards : List (W64 × W64)
  plugGuards : List (W64 × W64)
  calls : List (FwLevel × Nat)
  entryMonitor : Nat
  entryScheduler : Nat
  callStart : Nat
  frozen : Bool
deriving DecidableEq, Repr

/-- The issue state of a core. -/
structure Issue where
  status : Status
  pc : Nat
  next : Nat
  wait : WaitFor
  waitAt : Nat
  vec : Column
  mat : Column
  tab : Column
  pend : List Pend
  stores : List StorePend
  bankPend : List BankPend
  accPend : List AccPend
  /-- The columns chosen to run in this cycle and not yet run; `none` before the choice (R321). -/
  turn : Option (List (Option Col))
  /-- Bank rows read in this cycle, by column: the ports of R20 and R156. -/
  ports : List (Col × Nat)
  /-- Bank rows that operations of this cycle write at its end. -/
  wports : List (Col × Nat)
  /-- Bank and cycle of the last LDC or STC (R105). -/
  wide : Option (Nat × Nat)
  fault : Option FaultRec
  later : List Later
  /-- Start of the run, cycles spent in debug state (R18), frozen cycles since the debug entry (R350), steps asked. -/
  runStart : Nat
  debugCyc : Nat
  frozenX : Nat
  steps : Nat
  /-- HALT enters debug state in the coming cycle; CONT leaves it at the end of this one (R348). -/
  halting : Bool
  leaving : Bool
  /-- The breakpoint word to pass once (R119). -/
  pass : Bool
  /-- Number of the run, so that what an abandoned run asked for is discarded (R327). -/
  run : Nat
  s0done : W64
  ucLast : Option W64
  drain : Option Drain
  /-- The piece of a weight segment whose failing line the replay waits to see fetched again (R314), by physical address. -/
  heldBy : Option Nat
  /-- Accesses that an earlier FENCE covers (R226). -/
  fence : List Nat
deriving DecidableEq, Repr

/-- What a bind gives a core (R182 to R184, R186, R202). -/
structure Bound where
  jetton : Nat
  logical : Nat
  stage : Nat
  task : Option TaskImage
  regions : List Region
  segs : Vector Seg 16
  /-- Next-arrival numbers of levels 0 to 4, and their values at the run's start (R223). -/
  alpha : Vector (BitVec 32) 5
  alphaStart : Vector (BitVec 32) 5
  /-- Moved to another stage, so that ring operations find nothing until the next start (R221); a first run has started. -/
  movedStage : Bool
  started : Bool
  /-- Number of the first run of the request (R291: a fault of an earlier request's copy finds nobody), and of the first run
  of the start in progress, which its replays share (R381). -/
  firstRun : Nat
  startRun : Nat
  /-- Cycle and stage of the last task end: the run lasts to the end of that cycle (R32, R204). -/
  lastEnd : Option (Nat × Nat)
deriving DecidableEq, Repr

/-- A core. -/
structure Core where
  ctl : CtlRegs
  vec : VecRegs
  mat : MatRegs
  rn : Vector Ring 8
  wm : Vector Channel 16
  copyrec : Vector W64 16
  /-- The copy that each record describes. -/
  copyOf : Vector Nat 16
  journal : List JournalEntry
  jpos : Nat
  sys : SysRegs
  iss : Issue
  bnd : Bound
  /-- World the core was last bound to, with its scrub: the cycle it ends (R355). -/
  owner : Option Nat
  scrubEnd : Option Nat
  /-- Quarters of the deep slice marked shared (R234). -/
  shared : BitVec 4
  fw : Option Fw
deriving DecidableEq, Repr

/-! ### Home operations -/

/-- Where a home operation acts (R170, R209, R243). -/
inductive HomeAt where
  | acc (core word : Nat)
  /-- A host-side word and the world whose key its line is under. -/
  | host (addr key : Nat)
  | ring (core : Nat) (rn : RnReg)
  | nowhere
deriving DecidableEq, Repr

/-- What it does there. -/
inductive HomeDo where
  | aadd (x : W32) (int : Bool) | axch (x : W32) | acas (cmp x : W32) | ald | ast (x : W32)
  | ssig (x : W32) | sset (x : W32) | swait (x : W32) (cond : Cond) (consume : Bool)
  | carry (owner : BitVec 16) (group : BitVec 16)
  | rclm (n : Nat) | rwfl (n : Nat) | rwfr (n : Nat) | rpub (n : Nat) | rrel (n : Nat) | rstat
deriving DecidableEq, Repr

/-- Who asked (R168 orders local, remote, host side). -/
inductive Asker where
  | core (i : Nat)
  | queue (k : Nat)
  | host (fn : Nat)
deriving DecidableEq, Repr

/-- A home operation or atomic in flight (R171, R209, R212). `due` is the cycle of the act, not before `notBefore` and
not while a blocker stands. After the act, `ret` holds the return cycle and value or fault. -/
structure HomeOp where
  id : Nat
  asker : Asker
  run : Nat
  pc : BitVec 12
  issue : Nat
  addr : W64
  world : Nat
  what : HomeDo
  home : HomeAt
  h : Nat
  due : Nat
  blockers : List Nat
  waits : Bool
  dst : Option SReg
  acted : Bool
  ret : Nat
  value : Option W64
  fault : Option (Cause × W64 × Nat)
  lo : W64
  hi : Nat
deriving DecidableEq, Repr

/-! ### Copies -/

/-- The parameters of each copy instruction (R279 to R287). -/
inductive CopyKind where
  | plain
  | strided (b : Nat) (ss ds : Int)
  | morton (w h logw pitch : Nat) (z : Bool)
  | conv (s1 s2 s3 : W64)
  | gather (b : Nat) (idx : List Nat)
  | fetch (seg : BitVec 4)
  | add (int : Bool)
  /-- FILL: the pattern (Table 19.8). -/
  | fill (pattern : W32)
deriving DecidableEq, Repr

/-- The states of a copy, in the codes of Table 11.6. -/
inductive CopyState where
  | queued | issued | parked | landed | cancelled | faulted
deriving DecidableEq, Repr

/-- A target of a copy: CPYX has several (R285), every other copy one. -/
structure Target where
  core : Option Nat
  dst : W64
  fmt : Fmt
  rnd : Rnd
  pad : W32
  /-- Beats landed, and the cycles by which its landings run late (R271). -/
  beats : Nat
  lag : Nat
  lastLand : Nat
  doneb : Nat
  complete : Bool
deriving DecidableEq, Repr

/-- A copy, from its command to its completion (R267 to R291). -/
structure Copy where
  id : Nat
  op : BitVec 4
  engine : Nat
  asker : Asker
  run : Nat
  pc : BitVec 12
  issue : Nat
  time : Nat
  world : Nat
  group : BitVec 16
  jetton : Nat
  n : Nat
  dst : W64
  src : W64
  dcap : Cap
  kind : CopyKind
  card : W64
  sfmt : Fmt
  keepTags : Bool
  expSrc : W64
  expDst : W64
  exps : List Byte
  ext : List W64
  follow : Option W48
  phase : Option (BitVec 3 × BitVec 32)
  state : CopyState
  /-- Cycle of the engine issue, cycle of the next beat read, number of that beat. -/
  issuedAt : Nat
  at_ : Nat
  beat : Nat
  blockers : List Nat
  notBefore : Nat
  ovr : Nat
  targets : List Target
  /-- A follow-on still to finish keeps the copy from counting as landed (R287). -/
  followBusy : Bool
  /-- Physical address of a queue command's semaphore, and its Hr. -/
  sem : Option (Nat × Nat)
  /-- Removed from its buffer by a drain (R338), with the level it has reached; `place` is the T it had there, by which the
  seal record orders its entries. -/
  saved : Bool
  place : Nat
  /-- A fault to raise at its issuer in a coming cycle (Table 11.8). -/
  doom : Option (Nat × Cause × W64)
  /-- The piece of a segment that it awaits, by physical address (R313). -/
  parkFrame : Option Nat
  /-- The last engine issue took it from its parking place (R290). -/
  reissued : Bool
deriving DecidableEq, Repr

/-- A beat in flight: where and when it lands, the pieces it writes and the places in the order (R271). -/
structure Land where
  id : Nat
  copy : Nat
  target : Nat
  cycle : Nat
  /-- Lands in accumulator words (R272). -/
  acc : Bool
  engine : Nat
  pieces : List (Nat × List Byte)
  /-- Its HBM pieces: physical address, world address, key (R253). -/
  lines : List (Nat × Nat × Nat)
  /-- Capability granules whose tag moves. -/
  tags : List Nat
  /-- Words that CPYA adds. -/
  words : List (Nat × W32)
  bytes : Nat
  expBeat : Bool
  /-- No beat: a copy of no bytes completes (R273). -/
  last : Bool
deriving DecidableEq, Repr

/-- A completion's increment on its way to a semaphore word (R274): its cycle, the word, the world that writes it, and whose
copy it completes, so that an uncorrectable word raises UCDATA there (R174). -/
structure SemInc where
  cycle : Nat
  addr : Nat
  world : Nat
  asker : Asker
  run : Nat
  jetton : Nat
  pc : BitVec 12
  issue : Nat
  engine : Nat
deriving DecidableEq, Repr

/-- An XLATE reported to the scheduler (R239): who waits for it. -/
inductive Waiter where
  | copy (id : Nat) | task (core : Nat) | queue (k : Nat) | sealOf (core : Nat) | bind (jetton : Nat) | record (jetton : Nat) (q : BitVec 2) | collective (id : Nat) | host (fn : Nat)
deriving DecidableEq, Repr

structure Xlate where
  world : Nat
  va : W64
  who : Waiter
deriving DecidableEq, Repr

/-! ### Worlds, dispatcher -/

/-- A world context (Table 10.3) with what the partition commands hold for it. `keyGen` counts the keys made so far, and `keyed`
is whether the key-store slot holds one (R353). -/
structure World where
  wid : Nat
  ranges : Vector (BitVec 192) 16
  ptroot : W64
  pgtbase : W64
  dirtybase : W64
  dirtyen : Bool
  dbgen : Bool
  conf : Bool
  scopemax : BitVec 3
  keyGen : Nat
  keyed : Bool
  /-- Admission stopped for migration, and the last migration step done (R405). -/
  stopped : Bool
  migStep : Nat
  migPass : Nat
  /-- Caps on bound prompt and token cores (R393). -/
  capPrompt : Nat
  capToken : Nat
  /-- 2 MiB HBM frames held, as physical addresses (R393, R396). -/
  frames : List Nat
  /-- Owned HBM and fabric slots of classes 0 to 3, with masks that take effect at a later cycle (R394). -/
  hbmSlots : Vector (BitVec 1024) 4
  fabricSlots : Vector (BitVec 1024) 4
  newSlots : List (Nat × Bool × BitVec 2 × BitVec 1024)
  /-- Steps of an FLR still to do, with the cycle of the next (R352). -/
  flr : Option (Nat × Nat)
  /-- Slots of an HBM frame set by RESIZE (R393). -/
  slotAmount : Nat
  /-- The DESTROY that awaits its FLR, and the MIGRATE step that awaits the world's jettons. -/
  destroy : Option PCmd
  sealing : Option PCmd
deriving DecidableEq, Repr

/-- The states of Table 8.4. -/
inductive JState where
  | free | idle | ready | binding | running | sealing | sealed | frozen | stopped
deriving DecidableEq, Repr

/-- A work queue descriptor (Table 8.3). -/
structure WorkQueue where
  crec : W64
  cidx : BitVec 32
  ridx : BitVec 32
  widx : BitVec 32
  qen : Bool
  qlog : BitVec 4
  qbase : W64
deriving DecidableEq, Repr

/-- A group: cluster, die-mesh rectangle, cores in logical order and its stage assignment (R181, R202). -/
structure Group where
  token : Bool
  w : Nat
  h : Nat
  cores : List Nat
  stages : List Stage
  /-- Stage of each logical core, cores between tasks included (R205). -/
  at_ : List Nat
deriving DecidableEq, Repr

/-- What a request that ended still waits to record (R187, R401). -/
structure Ended where
  queue : BitVec 2
  seq : BitVec 32
  status : Byte
  det : Byte
  code : BitVec 16
  value : W64
  tend : Nat
  fpc : BitVec 12
  sem : List (Nat × Nat)
  /-- The first cycle at whose end no copy or collective of the request remains. -/
  clear : Option Nat
deriving DecidableEq, Repr

/-- What eviction writes out and an unspill brings back of a core, beside its window image (R346). -/
structure Spill where
  core : Nat
  regs : Core
  captags : List Nat
  seqtags : List (Nat × BitVec 16)
  poison : List Nat
deriving DecidableEq, Repr

/-- A jetton (Table 8.2) with the request it holds. -/
structure Jetton where
  sealptr : W64
  qs : Vector WorkQueue 4
  link : BitVec 16
  gid : BitVec 16
  waitSince : Nat
  /-- The cycle at whose end an entry that an engine has placed makes an IDLE jetton READY (Table 8.6). -/
  readyAt : Option Nat
  state : JState
  prio : BitVec 3
  world : Nat
  bwc : BitVec 4
  tth : BitVec 16
  rtag : Bool
  root : Cap
  held : Bool
  lastQueue : BitVec 2
  curQueue : BitVec 2
  unended : Bool
  group : Option Group
  anchorAt : Nat
  preempt : Bool
  evicted : Bool
  evictReq : Option Nat
  /-- Cycle in which the eviction completes, once nothing holds it back (R361). -/
  evictAt : Option Nat
  records : List Nat
  spill : List Spill
  plane : Bool
  ended : List Ended
  migStop : Bool
  sems : List (BitVec 2 × BitVec 32 × Nat × Nat)
  udpSeq : Vector (BitVec 32) 4
deriving DecidableEq, Repr

/-- Two planes of a timetable handle (R383): the image and its bytes. -/
structure Handle where
  tth : BitVec 16
  a : Option (Timetable × List Byte)
  b : Option (Timetable × List Byte)
  active : Bool
  world : Nat
deriving DecidableEq, Repr

/-- A cluster's selection path (R191, R194). -/
structure Selector where
  last : Option Nat
  top : Option (Nat × Nat)
  barred : Bool
deriving DecidableEq, Repr

/-- A start that the dispatcher has scheduled (R200). -/
structure StartAt where
  cycle : Nat
  core : Nat
  kind : Nat
  batch : Bool
deriving DecidableEq, Repr

/-- A start event fixed in this cycle and not yet in the schedule: its jetton, its cores in logical order with the kinds of
their starts, its unstaggered cycle (R200). -/
structure StartWish where
  jetton : Nat
  cores : List (Nat × Nat)
  cycle : Nat
deriving DecidableEq, Repr

/-! ### Phases -/

/-- A domain's phase unit (R224): its level and members' key, P, the completions the views still show late, arrivals,
copies registered, landed, withdrawn. -/
structure Domain where
  id : Nat
  lvl : BitVec 3
  key : Nat
  p : BitVec 32
  comps : List (BitVec 32 × Nat)
  arrivals : List (Nat × BitVec 32)
  retired : List Nat
  copies : List (Nat × BitVec 32)
  broken : Bool
deriving DecidableEq, Repr

/-! ### Prefix index, weights -/

/-- A world prefix record (Table 12.1), with its slot table (Table 12.3) and prefetch table (R310). -/
structure Slot where
  age : Nat
  ref : Nat
  alloc : Bool
  idx : Bool
  dmg : Bool
  way : Nat
  bucket : Nat
deriving DecidableEq, Repr

structure Prefix where
  world : Nat
  slottab : W64
  pphys : W64
  pbase : W64
  quota : Nat
  wmap : W64
  wwbase : W64
  pfdrop : BitVec 32
  slots : List (Nat × Slot)
  prefetch : List (List Byte)
  weights : List (Nat × List Byte)
deriving DecidableEq, Repr

/-- A way of the index in use (Table 12.2). -/
structure Way where
  bucket : Nat
  way : Nat
  tag : List Byte
  world : Nat
  slot : Nat
deriving DecidableEq, Repr

/-- A prefix or weight command on its way (R298). -/
structure PCommand where
  id : Nat
  fn : BitVec 4
  ref : Bool
  core : Nat
  jetton : Nat
  run : Nat
  pc : BitVec 12
  issue : Nat
  world : Nat
  slot : W64
  block : List Byte
  operand : Nat
  result : Nat
  blockers : List Nat
  /-- Copies that read the slot and that a KVRL awaits until their last read (R298). -/
  reads : List Nat
  notBefore : Nat
  arrive : Option Nat
  act : Option Nat
  words : List (Nat × W32)
  fault : Option (Cause × W64)
  journal : Option Nat
  record : List Byte
deriving DecidableEq, Repr

/-- A segment directory entry (Table 12.8). -/
structure Segment where
  digest : List Byte
  sst : Nat
  maps : Nat
  pieces : BitVec 32
  frame : Option Nat
  peer0 : BitVec 10
  peer1 : BitVec 10
  lba : W64
  p0v : Bool
  p1v : Bool
  /-- Tier being read, 0 to 2. -/
  tier : Nat
deriving DecidableEq, Repr

/-! ### Fabric -/

/-- A communicator descriptor with its rank table (Table 17.3), its epoch (R374), the lowest number this package has not
started and the numbers above it that it found empty or mismatched (R375). -/
structure Comm where
  comm : BitVec 16
  rtab : List (BitVec 16)
  prim : Nat
  stby : Nat
  rank : Nat
  n : Nat
  world : Nat
  sbv : Bool
  epoch : Nat
  nextStart : BitVec 32
  skips : List (BitVec 32)
  /-- The 16 bytes of the descriptor as installed. -/
  raw : List Byte
deriving DecidableEq, Repr

/-- The messages between members, boards and standbys (R372 to R374), and what else one package sends another. -/
inductive Msg where
  | assign (key : Key) | openMsg (comm : BitVec 16) (n : BitVec 32) (p : CollParams) | cancel (key : Key)
  | done (comm : BitVec 16) (n : BitVec 32) | number (key : Key) (n : BitVec 32) | opened (comm : BitVec 16) (n : BitVec 32)
  | empty (comm : BitVec 16) (n : BitVec 32) | mismatch (comm : BitVec 16) (n : BitVec 32)
  | cancelled (key : Key) (n : BitVec 32)
  | started (key : Key) | allopened (comm : BitVec 16) (n : BitVec 32)
  | decision (comm : BitVec 16) (d : Nat) (what : Decision)
  | ack (comm : BitVec 16) (d : Nat) | heartbeat (comm : BitVec 16) | epoch (comm : BitVec 16) (primary : Nat)
  | data (key : Key) (rank : Nat) (bytes : List Byte)
deriving DecidableEq, Repr

/-- A message sent to a package, this one included (R368: its time is not fixed), with the epoch it carries. -/
structure NetMsg where
  to_ : Nat
  epoch : Nat
  msg : Msg
deriving DecidableEq, Repr

/-- A number's place on the board. -/
inductive NumState where
  | assigned | opened | empty | mismatch
deriving DecidableEq, Repr

/-- A number as the board holds it (R372): its key, whether the key still stands in the key table, the members that sent
ASSIGN or CANCEL, OPEN and DONE for it, and the decisions that assigned it and last changed it. -/
structure BoardNum where
  n : BitVec 32
  key : Key
  keyed : Bool
  state : NumState
  params : Option CollParams
  assigned : List Nat
  opens : List Nat
  dones : List Nat
  allOpened : Bool
  given : Nat
  decision : Nat
deriving DecidableEq, Repr

/-- The counting board of a communicator this package is primary or standby for (R372 to R374): NEXT, LOW, the numbers, the
messages held, the decisions sent and acknowledged, the replies that wait for an acknowledgement. -/
structure Board where
  comm : BitVec 16
  next : BitVec 32
  low : BitVec 32
  nums : List BoardNum
  held : List (Nat × Msg)
  decisions : Nat
  acked : Nat
  replies : List (Nat × Nat × Msg)
  lastHeartbeat : Nat
  /-- This package answers as the primary. -/
  answering : Bool
deriving DecidableEq, Repr

/-- What stands under a key at the package's collective engine, or is on its way there (R375 to R382). -/
inductive CollKind where
  /-- XAR, XAG, XRS, XATA. -/
  | data
  | barrier
  /-- A key that counts as outstanding through an XSEQ alone. -/
  | seq
  /-- XCAN and XWAIT until they reach the engine. -/
  | cancel | wait
deriving DecidableEq, Repr

/-- A collective of this package, or a fabric request on its way to the engine (R375 to R382). -/
structure Coll where
  id : Nat
  key : Key
  kind : CollKind
  core : Nat
  run : Nat
  start : Nat
  pc : BitVec 12
  issue : Nat
  /-- Cycle in which it reaches the engine; the offset to D while a seal holds it. -/
  time : Nat
  world : Nat
  group : BitVec 16
  jetton : Nat
  card : W64
  opcode : BitVec 8
  op : BitVec 4
  type : BitVec 4
  n : Nat
  dst : W64
  src : W64
  queued : Bool
  saved : Bool
  place : Nat
  number : Option (BitVec 32)
  /-- OPEN has been sent; OPENED has come; the first data flit has been sent. -/
  opened : Bool
  started : Bool
  parked : Bool
  /-- Cycle and status of the completion. -/
  done : Option (Nat × Nat)
  /-- Bytes received of each rank's contribution: rank, offset, byte. -/
  data : List (Nat × Nat × Byte)
  /-- Destination offsets written, and bytes that wait for a translation. -/
  written : List Nat
  late : List (Nat × Byte)
deriving DecidableEq, Repr


/-! ### Host -/

/-- A command queue (Table 19.7) with what its processor keeps (R398, R399). -/
structure CmdQueue where
  base : W64
  rpaddr : W64
  sembase : W64
  ridx : BitVec 32
  world : Nat
  log : BitVec 4
  state : Nat
  errc : Byte
  qen : Bool
  held : Bool
  /-- The entry taken whose command holds the queue, and whether its RIDX has been written to RPADDR. -/
  entry : Option (List Byte)
  published : Bool
  /-- The first cycle in which the next command may start; the next look at the ring, and that the last
  one found nothing. -/
  notBefore : Nat
  nextPoll : Nat
  polling : Bool
  /-- Earlier commands not completed, each with its entry. -/
  busy : List (Nat × BitVec 32)
  /-- The entry whose fault stopped the queue, while RPADDR does not show it yet. -/
  faulted : Bool
  /-- An access of the queue waits for the scheduler (XLATE). -/
  holdXlate : Bool
  /-- Interrupts held: command, vector, commands awaited, first cycle. -/
  irqs : List (Nat × Nat × List Nat × Nat)
deriving DecidableEq, Repr

/-- A LAUNCH whose entry is on its way as the copy of the same identifier (R399, R422): queue, command, jetton queue and slot. -/
structure LaunchCopy where
  id : Nat
  queue : Nat
  index : BitVec 32
  jetton : Nat
  q : BitVec 2
  seq : BitVec 32
  addr : W64
  sem : Nat
deriving DecidableEq, Repr

/-- A host request waiting its turn (R263, R395). -/
inductive HostReq where
  | write (bar : Nat) (addr : W64) (data : List Byte)
  | read (bar : Nat) (addr : W64) (n : Nat)
deriving DecidableEq, Repr

/-- A scan block (Table 16.1). -/
structure Scan where
  ssiga : W64
  ssigx : W64
  elapsed : BitVec 32
  ab : Bool
  state : BitVec 3
  aprio : BitVec 3
  apen : Bool
  cmd : BitVec 3
  /-- The commands written in this cycle, and that the abort condition holds in it: Table 16.3 acts on them at its end (R358). -/
  cmds : List (BitVec 3)
  abort : Bool
  /-- End of the RUN or SCRUB in progress. -/
  until_ : Nat
deriving DecidableEq, Repr

/-- What a PCIe function keeps (R387, R390). -/
structure Func where
  fn : Nat
  world : Nat
  response : Option (List Byte)
  /-- The request part of the command mailbox, and that its command has no response yet (R390). -/
  request : List Byte
  held : Bool
  /-- MSI-X vectors that the function has enabled. -/
  vectors : List Nat
  frozen : Bool
  /-- Cycle in which the request was submitted, until the firmware comes to it (R391). -/
  since : Option Nat
deriving DecidableEq, Repr

/-- The status of a difference record (R383). -/
inductive DiffStatus where
  | ok | base | busy | rollback
deriving DecidableEq, Repr

/-- A response the device gives a host, an Ethernet peer, the scheduler or the debug port. -/
inductive Out where
  | read (fn : Nat) (data : List Byte) (poisoned : Bool)
  | unsupported (fn : Nat)
  | aborted (fn : Nat)
  | aer (fn : Nat)
  | response (fn : Nat) (bytes : List Byte)
  | msix (world : Nat) (vector : Nat)
  | nak (qp : Nat) (invalid : Bool)
  | ack (qp : Nat)
  | debug (core : Nat) (value : BitVec 1056)
  | refused (core : Nat)
  | report (bytes : List Byte)
  | signal (jetton : Nat)
  /-- A page-table line that failed verification at a walk (R237): the world, and the address being translated. -/
  | uncorrectable (world : Nat) (va : W64)
  | absent (world : Nat) (digest : List Byte)
  | fetch (digest : List Byte) (tier : Nat) (piece : Nat)
  | status (tth : BitVec 16) (st : DiffStatus)
  /-- The status of a firmware image that was offered (R407): 0 loaded, 5 refused. -/
  | image (status : Nat)
  /-- What a migration sends: a 64 KiB granule by its address and pass, a slot, a wrapped key (R405, R406). -/
  | granule (world pa pass : Nat)
  | slot (world slot : Nat)
  | key (world : Nat) (bytes : List Byte)
  | accepted (id : Nat)
  | flrDone (world : Nat)
deriving DecidableEq, Repr

/-- Firmware measurement and power (R407, R415, R420). -/
structure Monitor where
  measure : Vector (List Byte) 4
  /-- The body and the security number of the running image. -/
  image : List Byte
  svn : Nat
  pcap : Nat
  powerHold : Bool
  thermalHold : Bool
  sensors : List (Nat × Nat)
  hot : List (BitVec 4)
  portsUp : BitVec 32
  replay : List (Nat × Nat)
  commands : Bool
  genCounter : Nat
deriving DecidableEq, Repr

/-- The place inside a cycle, in this order (notes/assumptions/7.md). -/
inductive Phase where
  /-- Fates of the faults of the cycle just over. -/
  | fate
  /-- Landings in every memory but the accumulators. -/
  | land
  /-- The end of the cycle just over: its results; then seals and completion records. -/
  | settle
  /-- The selection paths: their four steps, by number. -/
  | select (k : Nat)
  | input
  | agenda
  /-- Faults and returns that precede the columns. -/
  | raise
  | start
  | engine
  /-- The beats that read. -/
  | beat
  | stream
  | column
  /-- The accumulator port: the matrix column, landings, home operations (R168). -/
  | port | acc | home
  /-- Waits, and what takes effect at the end of the cycle. -/
  | scan | wait
deriving DecidableEq, Repr

/-- The memories of the package and their marks. -/
structure Mem where
  bytes : List Host.Cell
  lines : List (Nat × LineMark)
  captags : List Nat
  seqtags : List (Nat × BitVec 16)
  poison : List Nat
  ue : List Nat
deriving DecidableEq, Repr

/-- The dispatcher and the records of the scheduler. -/
structure Dispatch where
  jettons : List (Nat × Jetton)
  handles : List Handle
  mapPrompt : BitVec 1024
  mapToken : BitVec 1024
  selPrompt : Selector
  selToken : Selector
  starts : List StartAt
  wishes : List StartWish
  domains : List Domain
  links : List (BitVec 16 × Nat × Nat × Nat)
  xlates : List Xlate
  /-- Pages in the translation caches: world, page, master (R240). -/
  tlb : List (Nat × Nat × Nat)
  /-- Jettons signalled as having no placement (R195). -/
  signalled : List Nat
  scans : List (Nat × Scan)
deriving DecidableEq, Repr

/-- The engines outside the cores. -/
structure Engines where
  homes : List HomeOp
  copies : List Copy
  lands : List Land
  incs : List SemInc
  /-- Copies whose last byte landed, with the cycle; only those of the last such cycle are kept (R298). -/
  settled : List (Nat × Copy)
  prefixes : List Prefix
  ways : List Way
  /-- The lines of the index cache, oldest first: a bucket, or the weight-map line of a digest for a world. -/
  cached : List (Nat × Option Nat)
  pcmds : List PCommand
  indexFree : Nat
  hashFree : Nat
  segments : List Segment
  /-- Digests demanded, each with the world it is for; none where a failing piece is fetched again (R311, R314). -/
  demands : List (List Byte × Option Nat)
  /-- The segment that the cold-start engine is fetching, and the world its prefetch turn last served (R311). -/
  fetch : Option (List Byte)
  pfLast : Nat
  comms : List Comm
  boards : List Board
  colls : List Coll
  queues : List (Nat × CmdQueue)
  launches : List LaunchCopy
  /-- Lines moved in a slot (R394): cycle, stack, world, lines. -/
  slotUse : List (Nat × Nat × Nat × Nat)
deriving DecidableEq, Repr

/-- The package. -/
structure State where
  tb : Nat
  phase : Phase
  cur : Nat
  core : Core
  others : List (Nat × Core)
  mem : Mem
  worlds : List World
  disp : Dispatch
  eng : Engines
  funcs : List Func
  qpairs : List (Nat × QPair)
  commsHeld : List (BitVec 16 × Nat)
  handlesHeld : List (BitVec 16 × Nat)
  qpHeld : List (Nat × Nat)
  udpDrops : Nat
  /-- Host requests in the order received, by function. -/
  posted : List (Nat × HostReq)
  mon : Monitor
  agenda : List (Nat × Instr)
  inputs : List (Nat × Instr)
  net : List NetMsg
  out : List Out
  free : Nat
  nextId : Nat
deriving DecidableEq, Repr

/-! ### Reset -/

def Cap.null : Cap := ⟨0, 0, false⟩

def Column.reset : Column := ⟨[], none, [], false⟩

def Channel.reset : Channel := ⟨false, 0, 0, 0, []⟩

def LatchRow.reset : LatchRow := ⟨BitVec.ofNat 1024 ((2 ^ 1024 - 1) / 15 * 8), 0⟩

/-- A core that nothing has bound (notes/assumptions/2.md). -/
def Core.reset : Core where
  ctl := ⟨Vector.replicate 32 0, Vector.replicate 16 Cap.null, 1, Vector.replicate 4 0, [], Vector.replicate 16 0⟩
  vec := ⟨Vector.replicate 32 0, (Vector.replicate 8 0).set 0 (BitVec.allOnes 64), Vector.replicate 4 0, 0, 0, [], Vector.replicate 4 0, 0⟩
  mat := ⟨Vector.replicate 256 LatchRow.reset, Vector.replicate 256 LatchRow.reset, false, Vector.replicate 256 0, 8,
    0x3F800000, [], []⟩
  rn := Vector.replicate 8 ⟨0, [], []⟩
  wm := Vector.replicate 16 Channel.reset
  copyrec := Vector.replicate 16 0
  copyOf := Vector.replicate 16 0
  journal := []
  jpos := 0
  sys := { sd := false, rply := 0, dbg := false, bkpend := false, bksrc := 0, fcause := 0, fpc := 0, faddr := 0, finfo := 0,
           anchor := 0, dmem := 0, tcoord := 0, gshape := 0, world := 0, vmode := 0, scope := 5, drainbase := 0, cycmax := 0,
           bpaddr := Vector.replicate 4 0, evmask := 0, bfmt := Vector.replicate 96 0 }
  iss := { status := .free, pc := 0, next := 0, wait := .none, waitAt := 0, vec := .reset, mat := .reset, tab := .reset,
           pend := [], stores := [], bankPend := [], accPend := [], turn := none, ports := [], wports := [], wide := none, fault := none,
           later := [], runStart := 0, debugCyc := 0, frozenX := 0, steps := 0, halting := false, leaving := false, pass := false, run := 0, s0done := 0,
           ucLast := none, drain := none, heldBy := none, fence := [] }
  bnd := { jetton := 0, logical := 0, stage := 0, task := none, regions := [], segs := Vector.replicate 16 ⟨false, 0⟩,
           alpha := Vector.replicate 5 0, alphaStart := Vector.replicate 5 0, movedStage := false,
           started := false, firstRun := 0, startRun := 0, lastEnd := none }
  owner := none
  scrubEnd := none
  shared := 0
  fw := none

/-- A command queue after reset (Table 19.7). -/
def CmdQueue.reset : CmdQueue :=
  ⟨0, 0, 0, 0, 0, 4, 0, 0, false, false, none, false, 0, 0, false, [], false, false, []⟩

/-- A scan block after reset (Table 16.1). -/
def Scan.reset : Scan := ⟨0, 0, 0, false, 0, 7, false, 0, [], false, 0⟩

def WorkQueue.reset : WorkQueue := ⟨0, 0, 0, 0, false, 0, 0⟩

/-- A jetton after reset (Table 8.2). -/
def Jetton.reset : Jetton where
  sealptr := 0
  qs := Vector.replicate 4 .reset
  link := 0
  gid := 0xFFFF
  waitSince := 0
  readyAt := none
  state := .free
  prio := 0
  world := 0
  bwc := 0
  tth := 0
  rtag := false
  root := .null
  held := false
  lastQueue := 3
  curQueue := 0
  unended := false
  group := none
  anchorAt := 0
  preempt := false
  evicted := false
  evictReq := none
  evictAt := none
  records := []
  spill := []
  plane := false
  ended := []
  migStop := false
  sems := []
  udpSeq := Vector.replicate 4 0

/-- A world context after reset (Table 10.3). -/
def World.reset (w : Nat) : World where
  wid := w
  ranges := Vector.replicate 16 0
  ptroot := 0
  pgtbase := 0
  dirtybase := 0
  dirtyen := false
  dbgen := false
  conf := false
  scopemax := 5
  keyGen := 0
  keyed := false
  stopped := false
  migStep := 0
  migPass := 0
  capPrompt := 1024
  capToken := 1024
  frames := []
  hbmSlots := Vector.replicate 4 0
  fabricSlots := Vector.replicate 4 0
  newSlots := []
  flr := none
  slotAmount := 0
  destroy := none
  sealing := none

def Selector.reset : Selector := ⟨none, none, false⟩

/-- A firmware processor after reset: a control column at the monitor level (R403). -/
def Fw.reset : Fw := ⟨.monitor, [], [], [], 0, 0, 0, false⟩

/-- The package in the cycle in which the last die leaves reset (R418, R419). -/
def State.reset : State where
  tb := 0
  phase := .fate
  cur := 0
  core := .reset
  others := []
  mem := ⟨[], [], [], [], [], []⟩
  worlds := [.reset 256, .reset 257]
  disp := { jettons := [], handles := [], mapPrompt := BitVec.allOnes 1024, mapToken := BitVec.allOnes 1024,
            selPrompt := .reset, selToken := .reset, starts := [], wishes := [], domains := [], links := [], xlates := [], tlb := [],
            signalled := [], scans := [] }
  eng := { homes := [], copies := [], lands := [], incs := [], settled := [], prefixes := [], ways := [], cached := [], pcmds := [], indexFree := 0,
           hashFree := 0, segments := [], demands := [], fetch := none, pfLast := 257, comms := [], boards := [], colls := [], queues := [], launches := [], slotUse := [] }
  funcs := [⟨0, 256, none, List.replicate 64 0, false, [], false, none⟩]
  qpairs := []
  commsHeld := []
  handlesHeld := []
  qpHeld := []
  udpDrops := 0
  posted := []
  mon := { measure := Vector.replicate 4 (List.replicate 32 0), image := [], svn := 0, pcap := 4500, powerHold := false,
           thermalHold := false, sensors := [], hot := [], portsUp := BitVec.allOnes 32, replay := [], commands := false,
           genCounter := 0 }
  agenda := []
  inputs := []
  net := []
  out := []
  free := 0
  nextId := 1

end Sys2Proof.Machine
end

