-- ==== Sys2Proof/Machine/Cells.lean ====
section
/-!
DEFINITION. Where things are: keyed lists, the bytes of memory, the map of addresses (Tables 1.8 and 10.2), the marks of
granules and lines, and the cores by index.
-/
namespace Sys2Proof.Machine

open Sys2Proof

/-! ### Keyed lists -/

/-- The entry of a key, in a list sorted by key. -/
def getKey {α : Type} (l : List (Nat × α)) (k : Nat) : Option α :=
  match l with
  | [] => none
  | (j, x) :: r => if j == k then some x else if k < j then none else getKey r k

/-- The list with a key set. -/
def setKey {α : Type} (l : List (Nat × α)) (k : Nat) (x : α) : List (Nat × α) :=
  match l with
  | [] => [(k, x)]
  | (j, y) :: r => if j == k then (k, x) :: r else if k < j then (k, x) :: (j, y) :: r else (j, y) :: setKey r k x

/-- The list without a key. -/
def delKey {α : Type} (l : List (Nat × α)) (k : Nat) : List (Nat × α) :=
  match l with
  | [] => []
  | (j, y) :: r => if j == k then r else if k < j then (j, y) :: r else (j, y) :: delKey r k

/-- A sorted list of addresses as a set. -/
def insAddr (l : List Nat) (k : Nat) : List Nat :=
  match l with
  | [] => [k]
  | j :: r => if j == k then j :: r else if k < j then k :: j :: r else j :: insAddr r k

def delAddr (l : List Nat) (k : Nat) : List Nat := l.filter (· != k)

/-! ### Bytes -/

/-- What a byte that nothing lists reads as (notes/assumptions/3.md, notes/assumptions/4.md). -/
def unlisted : Byte := 0

/-- The byte at a physical address. -/
def Mem.get (m : Mem) (a : Nat) : Byte := (getKey m.bytes a).getD unlisted

/-- The memory with one byte written, in canonical form. -/
def putByte (l : List Host.Cell) (a : Nat) (b : Byte) : List Host.Cell :=
  if b == unlisted then delKey l a else setKey l a b

/-- Strictly rising addresses, none below `lo`, no entry equal to what an unlisted address reads as. -/
def cellsWf (lo : Nat) : List Host.Cell → Bool
  | [] => true
  | (a, b) :: r => decide (lo ≤ a) && b != unlisted && cellsWf (a + 1) r

/-- The canonical form of memory. -/
def Mem.wf (m : Mem) : Bool := cellsWf 0 m.bytes

def Mem.set (m : Mem) (a : Nat) (b : Byte) : Mem := { m with bytes := putByte m.bytes a b }

/-- `n` bytes from an address. -/
def Mem.read (m : Mem) (a n : Nat) : List Byte := (List.range n).map fun i => m.get (a + i)

/-- Write consecutive bytes. -/
def Mem.write (m : Mem) (a : Nat) (bs : List Byte) : Mem :=
  match bs with
  | [] => m
  | b :: r => (m.set a b).write (a + 1) r

/-- A little-endian value of `n` bytes (R2). -/
def Mem.readNat (m : Mem) (a n : Nat) : Nat := leNat (m.read a n)

/-! ### The physical map -/

/-- Base of the windows and of HBM (Table 10.2). -/
def sramBase : Nat := 0x0000010000000000
def sramTop : Nat := 0x0000010080000000
def hbmBase : Nat := 0x0000200000000000
def hbmTop : Nat := 0x0000210000000000
def windowSize : Nat := 0x100000
def coreBase (i : Nat) : Nat := sramBase + i * windowSize

def inSram (a : Nat) : Bool := sramBase ≤ a && a < sramTop
/-- The core whose window holds an address. -/
def coreAt (a : Nat) : Nat := (a - sramBase) / windowSize
def offAt (a : Nat) : Nat := (a - sramBase) % windowSize

/-- The memories of a window (Table 1.8); holes by R233. -/
inductive Part where
  | bank (n : Nat) | acc | table | deep (quarter : Nat) | code | hole
deriving DecidableEq, Repr

/-- The part of a window that holds an offset. -/
def partOf (o : Nat) : Part :=
  if o < 0x60000 then .bank (o / 0x1000)
  else if o < 0x70000 then .acc
  else if o < 0x72000 then .table
  else if o < 0x80000 then .hole
  else if o < 0xC0000 then .deep ((o - 0x80000) / 0x10000)
  else if o < 0xC8000 then .code
  else .hole

def Part.isBank : Part → Bool
  | .bank _ => true
  | _ => false
def Part.isDeep : Part → Bool
  | .deep _ => true
  | _ => false

/-- The part of the package that holds a physical address. -/
inductive Place where
  | slice (core : Nat) (part : Part)
  | hbm
  | none
deriving DecidableEq, Repr

/-- Table 10.2: the tag carve-outs are reached by no address. -/
def placeOf (a : Nat) : Place :=
  if inSram a then .slice (coreAt a) (partOf (offAt a))
  else if hbmBase ≤ a && a < hbmTop && (a - hbmBase) % 0x1000000000 < 0xF80000000 then .hbm
  else .none

/-- Bytes 6 and 7 of a code slot read as zero and are never written (R67). -/
def codePad (a : Nat) : Bool := inSram a && partOf (offAt a) == .code && 6 ≤ offAt a % 8

def bankBase (i n : Nat) : Nat := coreBase i + n * 0x1000
def accBase (i : Nat) : Nat := coreBase i + 0x60000
def tableBase (i : Nat) : Nat := coreBase i + 0x70000
def codeBase (i : Nat) : Nat := coreBase i + 0xC0000

/-- Base of the 128-byte granule, of the 16-byte capability granule, of the 256-byte HBM line. -/
def granule (a : Nat) : Nat := a / 128 * 128
def capGranule (a : Nat) : Nat := a / 16 * 16
def lineOf (a : Nat) : Nat := a / 256 * 256

/-- The unit that fails together at an address: accumulator word, code slot, HBM line, granule (R331). -/
def unitOf (a : Nat) : Nat :=
  match placeOf a with
  | .slice _ .acc => a / 4 * 4
  | .slice _ .code => a / 8 * 8
  | .hbm => lineOf a
  | _ => granule a

/-- A unit that is poisoned or holds an uncorrectable error (R331, R332). -/
def Mem.damaged (m : Mem) (a : Nat) : Bool := m.poison.contains (unitOf a) || m.ue.contains (unitOf a)

def Mem.markPoison (m : Mem) (u : Nat) : Mem := { m with poison := insAddr m.poison u, ue := delAddr m.ue u }
def Mem.clearPoison (m : Mem) (u : Nat) : Mem :=
  if m.poison.contains u || m.ue.contains u then { m with poison := delAddr m.poison u, ue := delAddr m.ue u } else m

/-- A read of an HBM line verifies when the line was last written under the key in use (R253). -/
def Mem.lineOk (m : Mem) (world a : Nat) : Bool :=
  match getKey m.lines (lineOf a) with
  | some l => l.world == world && !l.bad
  | none => false

/-- Sequence tag of a granule (R274); granules not listed hold 0. -/
def Mem.seqTag (m : Mem) (a : Nat) : BitVec 16 := (getKey m.seqtags (granule a)).getD 0
def Mem.setSeqTag (m : Mem) (a : Nat) (t : BitVec 16) : Mem :=
  { m with seqtags := if t == 0 then delKey m.seqtags (granule a) else setKey m.seqtags (granule a) t }

def Mem.capTag (m : Mem) (a : Nat) : Bool := m.captags.contains (capGranule a)
def Mem.setCapTag (m : Mem) (a : Nat) (t : Bool) : Mem :=
  if t then { m with captags := insAddr m.captags (capGranule a) }
  else if m.captags.contains (capGranule a) then { m with captags := delAddr m.captags (capGranule a) } else m

/-- Clear the capability tags of the granules a write touches (R104, R122). -/
def Mem.untag (m : Mem) (a n : Nat) : Mem :=
  if m.captags.isEmpty then m
  else { m with captags := m.captags.filter fun g => !(g < a + n && a < g + 16) }

/-- Row at a physical address, as a value. -/
def Mem.row (m : Mem) (a : Nat) : Row := rowOfBytes (m.read a 128)

/-- The word of an accumulator (R150, R170). -/
def Mem.word (m : Mem) (a : Nat) : W32 := BitVec.ofNat 32 (m.readNat a 4)
def Mem.setWord (m : Mem) (a : Nat) (w : W32) : Mem := m.write a (leBytes w.toNat 4)

/-- A table memory entry of a core (R147). -/
def Mem.entry (m : Mem) (core i : Nat) : W32 := m.word (tableBase core + 4 * (i % 2048))

/-- The word at a code address (R67). -/
def Mem.codeWord (m : Mem) (core a : Nat) : W48 := BitVec.ofNat 48 (m.readNat (codeBase core + 8 * a) 6)
def Mem.setCodeWord (m : Mem) (core a : Nat) (w : W48) : Mem := m.write (codeBase core + 8 * a) (leBytes w.toNat 6)

/-! ### The cores -/

/-- Core `i`: the one in focus, a listed one, or a core as reset left it. -/
def State.getCore (s : State) (i : Nat) : Core :=
  if s.cur == i then s.core else (getKey s.others i).getD Core.reset

/-- The state with core `i` replaced. -/
def State.setCore (s : State) (i : Nat) (c : Core) : State :=
  if s.cur == i then { s with core := c } else { s with others := setKey s.others i c }

/-- The BFMT register that governs a physical address, if it lies in a bank. -/
def State.bankReg (s : State) (pa : Nat) : Option W64 :=
  match placeOf pa with
  | .slice i (.bank n) => (s.getCore i).sys.bfmt[n]?
  | _ => none

def State.modCore (s : State) (i : Nat) (f : Core → Core) : State := s.setCore i (f (s.getCore i))

/-- Bring core `i` into focus. -/
def State.focus (s : State) (i : Nat) : State :=
  if s.cur == i then s
  else { s with others := delKey (setKey s.others s.cur s.core) i, cur := i, core := s.getCore i }

/-- Change the core in focus, its issue state, registers, system registers, binding. -/
def State.modC (s : State) (f : Core → Core) : State := { s with core := f s.core }
def State.modIss (s : State) (f : Issue → Issue) : State := { s with core := { s.core with iss := f s.core.iss } }
def State.modSys (s : State) (f : SysRegs → SysRegs) : State := { s with core := { s.core with sys := f s.core.sys } }
def State.modBnd (s : State) (f : Bound → Bound) : State := { s with core := { s.core with bnd := f s.core.bnd } }
def State.modCtl (s : State) (f : CtlRegs → CtlRegs) : State := { s with core := { s.core with ctl := f s.core.ctl } }
def State.modMem (s : State) (f : Mem → Mem) : State := { s with mem := f s.mem }
def State.modDisp (s : State) (f : Dispatch → Dispatch) : State := { s with disp := f s.disp }
def State.modEng (s : State) (f : Engines → Engines) : State := { s with eng := f s.eng }

/-- The indices of the cores that differ from reset, ascending. -/
def State.live (s : State) : List Nat := insAddr (s.others.map (·.1)) s.cur

/-- Let an event happen in a cycle (kept in the order asked). -/
def State.at_ (s : State) (cycle : Nat) (i : Instr) : State := { s with agenda := s.agenda ++ [(cycle, i)] }
def State.say (s : State) (o : Out) : State := { s with out := s.out ++ [o] }

/-- A fresh identifier. -/
def State.fresh (s : State) : Nat × State := (s.nextId, { s with nextId := s.nextId + 1 })

/-- A world's context. -/
def State.world? (s : State) (w : Nat) : Option World := s.worlds.find? (·.wid == w)
def State.modWorld (s : State) (w : Nat) (f : World → World) : State :=
  { s with worlds := s.worlds.map fun x => if x.wid == w then f x else x }

def State.jetton (s : State) (j : Nat) : Jetton := (getKey s.disp.jettons j).getD Jetton.reset
def State.setJetton (s : State) (j : Nat) (x : Jetton) : State :=
  s.modDisp fun d => { d with jettons := setKey d.jettons j x }
def State.modJetton (s : State) (j : Nat) (f : Jetton → Jetton) : State := s.setJetton j (f (s.jetton j))

/-- Whether a core is a token core (Table 0.1: dies 4 to 7). -/
def isToken (i : Nat) : Bool := 1024 ≤ i

/-- Package coordinates (R362). -/
def gx (i : Nat) : Nat :=
  let d := i / 256
  16 * (d % 2) + i % 16 + 32 * (d / 4)
def gy (i : Nat) : Nat :=
  let d := i / 256
  16 * ((d % 4) / 2) + i % 256 / 16

/-- Hops and die crossings between two cores (R362). -/
def hops (i j : Nat) : Nat := (gx i - gx j) + (gx j - gx i) + (gy i - gy j) + (gy j - gy i)
/-- Multiples of 16 strictly between two coordinates or equal to the larger. -/
def crossings1 (a b : Nat) : Nat := max a b / 16 - min a b / 16
def crossings (i j : Nat) : Nat := crossings1 (gx i) (gx j) + crossings1 (gy i) (gy j)

/-- H of R171 between two cores. -/
def pathH (i j : Nat) : Nat := if i == j then 0 else 17 + 2 * hops i j + 18 * crossings i j

/-- `SerialLT` of Table 0.2. -/
def serialLT (a b : BitVec 32) : Bool := a != b && (b - a).toNat < 2 ^ 31

/-- Morton(x, y) of Table 0.2. -/
def morton (x y : BitVec 16) : BitVec 32 :=
  BitVec.ofNat 32 ((List.range 16).foldl (fun a i =>
    a + (natBits x.toNat i 1) * 2 ^ (2 * i) + (natBits y.toNat i 1) * 2 ^ (2 * i + 1)) 0)
def unmortonX (z : BitVec 32) : BitVec 16 :=
  BitVec.ofNat 16 ((List.range 16).foldl (fun a i => a + natBits z.toNat (2 * i) 1 * 2 ^ i) 0)
def unmortonY (z : BitVec 32) : BitVec 16 :=
  BitVec.ofNat 16 ((List.range 16).foldl (fun a i => a + natBits z.toNat (2 * i + 1) 1 * 2 ^ i) 0)

/-- The value of a comparison code on two patterns (Table 3.3). -/
def Cond.holds {n : Nat} (c : Cond) (a b : BitVec n) : Bool :=
  match c with
  | .eq => a == b
  | .ne => a != b
  | .lt => a.slt b
  | .ge => !a.slt b
  | .ltu => a.ult b
  | .geu => !a.ult b
  | .gt => b.slt a
  | .le => !b.slt a
  | .gtu => b.ult a
  | .leu => !b.ult a

end Sys2Proof.Machine
end

