-- ==== Sys2Proof/Machine/Caps.lean ====
section
/-!
DEFINITION. Capabilities: the fields of the high half, bounds and their compression, the checks at use and what each
capability instruction computes (R102, R107, R108, R246 to R249).
-/
namespace Sys2Proof.Machine

open Sys2Proof

/-! ### Fields (Table 10.7) -/

def Cap.world (c : Cap) : Nat := natBits c.high.toNat 55 9
def Cap.otype (c : Cap) : Nat := natBits c.high.toNat 43 12
def Cap.perms (c : Cap) : Nat := natBits c.high.toNat 35 6
def Cap.e (c : Cap) : Nat := natBits c.high.toNat 29 6
def Cap.blk (c : Cap) : Nat := natBits c.high.toNat 28 1
def Cap.bm (c : Cap) : Nat := natBits c.high.toNat 14 14
def Cap.lm (c : Cap) : Nat := natBits c.high.toNat 0 14
def Cap.isSealed (c : Cap) : Bool := c.otype != 0

/-- Permissions, as bits of `Cap.perms`. -/
def permRead : Nat := 1
def permWrite : Nat := 2
def permLoadCap : Nat := 4
def permStoreCap : Nat := 8
def permSeal : Nat := 16
def permUnseal : Nat := 32

/-- All the permissions of `need` are held. -/
def Cap.has (c : Cap) (need : Nat) : Bool := Nat.land c.perms need == need

/-- A high half from its fields. -/
def mkHigh (world otype perms e blk bm lm : Nat) : W64 :=
  BitVec.ofNat 64 (world * 2 ^ 55 + otype * 2 ^ 43 + perms * 2 ^ 35 + e * 2 ^ 29 + blk * 2 ^ 28 + bm * 2 ^ 14 + lm)

/-! ### Bounds (R247) -/

/-- The base block: the cursor's block, or the one before it when the parities differ. -/
def Cap.block (c : Cap) : Nat :=
  let b := c.cur.toNat / 2 ^ (c.e + 14)
  if b % 2 == c.blk then b else (b + 2 ^ (50 - c.e) - 1) % 2 ^ (50 - c.e)

def Cap.base (c : Cap) : Nat := if 49 < c.e then 0 else c.block * 2 ^ (c.e + 14) + c.bm * 2 ^ c.e
def Cap.top (c : Cap) : Nat := if 49 < c.e then 0 else c.base + (c.lm + 1) * 2 ^ c.e

/-- The bytes a to a + n - 1 lie within the bounds; none lies at or above 2^64. -/
def Cap.inBounds (c : Cap) (a n : Nat) : Bool := c.base ≤ a && a + n ≤ c.top && a + n ≤ 2 ^ 64

/-- A cursor lies in the representable region (R247, R249). -/
def Cap.represents (c : Cap) (x : Nat) : Bool :=
  c.e ≤ 49 && c.block * 2 ^ (c.e + 14) ≤ x && x < (c.block + 2) * 2 ^ (c.e + 14)

/-- Move the cursor, clearing the tag outside the representable region (R249). -/
def Cap.move (c : Cap) (x : W64) : Cap := ⟨x, c.high, c.tag && c.represents x.toNat⟩

/-- The least exponent from `e` that covers [lo, hi) (R248). -/
def boundsExp (lo hi fuel e : Nat) : Option Nat :=
  match fuel with
  | 0 => none
  | fuel + 1 =>
    if ((hi + 2 ^ e - 1) / 2 ^ e) * 2 ^ e - lo / 2 ^ e * 2 ^ e ≤ 2 ^ (e + 14) then some e else boundsExp lo hi fuel (e + 1)

/-- CBND's result, or none where R248 and R108 give CAPBND. -/
def Cap.narrow (c : Cap) (len : Nat) : Option Cap :=
  let lo := c.cur.toNat
  let hi := lo + len
  if len == 0 || 2 ^ 64 < hi then none
  else
    match boundsExp lo hi 50 0 with
    | none => none
    | some e =>
      let b := lo / 2 ^ e * 2 ^ e
      let t := ((hi + 2 ^ e - 1) / 2 ^ e) * 2 ^ e
      if c.base ≤ b && t ≤ c.top then
        some ⟨c.cur, mkHigh c.world c.otype c.perms e (natBits b (e + 14) 1) (b / 2 ^ e % 2 ^ 14) ((t - b) / 2 ^ e - 1), c.tag⟩
      else none

/-- A capability over [base, base + len) with its cursor at the base (R184), as CBND would bound it. -/
def mkCap (world perms base len : Nat) : Cap :=
  let wide : Cap := ⟨BitVec.ofNat 64 base, mkHigh world 0 perms 49 0 0 (2 ^ 14 - 1), true⟩
  let lo := base
  match boundsExp lo (lo + len) 50 0 with
  | none => wide
  | some e =>
    let b := lo / 2 ^ e * 2 ^ e
    let t := ((lo + len + 2 ^ e - 1) / 2 ^ e) * 2 ^ e
    ⟨BitVec.ofNat 64 base, mkHigh world 0 perms e (natBits b (e + 14) 1) (b / 2 ^ e % 2 ^ 14) ((t - b) / 2 ^ e - 1), true⟩

/-! ### Checks at use (R102 steps 1 to 5, in order) -/

/-- Steps 1 to 4: tag, seal, world, permission. -/
def Cap.authority (c : Cap) (world need : Nat) : Option Cause :=
  if !c.tag then some .captag
  else if c.isSealed || c.world != world || !c.has need then some .capperm
  else none

/-- Steps 1 to 5. -/
def Cap.check (c : Cap) (world need a n : Nat) : Option Cause :=
  match c.authority world need with
  | some f => some f
  | none => if c.inBounds a n then none else some .capbnd

/-- A is a multiple of n, else ALIGN (step 6). -/
def Cap.checkAligned (c : Cap) (world need a n : Nat) : Option Cause :=
  match c.check world need a n with
  | some f => some f
  | none => if a % n == 0 then none else some .align

/-- The address of a memory operand (R102). -/
def memAddr (c : Cap) (off : BitVec 24) : W64 := c.cur + off.signExtend 64

/-! ### Capability instructions (R108) -/

/-- The reserved bits [42:41] are 0 in every result (Table 10.7). -/
def Cap.clean (c : Cap) : Cap := ⟨c.cur, c.high &&& ~~~(3#64 <<< 41), c.tag⟩

def capBnd (a : Cap) (b : W64) : Except Cause Cap :=
  if !a.tag then .error .captag
  else if a.isSealed then .error .capperm
  else
    match a.narrow b.toNat with
    | some c => .ok c
    | none => .error .capbnd

/-- Each permission bit is kept where the bit of `b` at its position is 1. -/
def capPerm (a : Cap) (b : W64) : Except Cause Cap :=
  if a.tag && a.isSealed then .error .capperm
  else .ok (Cap.clean ⟨a.cur, (a.high &&& ~~~(0x3F#64 <<< 35)) ||| (a.high &&& b &&& (0x3F#64 <<< 35)), a.tag⟩)

def capAdd (a : Cap) (b : W64) : Except Cause Cap :=
  if a.tag && a.isSealed then .error .capperm else .ok (a.move (a.cur + b)).clean

def capSet (a : Cap) (b : W64) : Except Cause Cap :=
  if a.tag && a.isSealed then .error .capperm else .ok (a.move b).clean

/-- The fields of Table 4.9, whatever the tag. -/
def capGet (a : Cap) (field : BitVec 3) : W64 :=
  match field with
  | 0 => a.cur
  | 1 => BitVec.ofNat 64 a.base
  | 2 => BitVec.ofNat 64 (min (a.top - a.base) (2 ^ 64 - 1))
  | 3 => a.high &&& (0x3F#64 <<< 35)
  | 4 => BitVec.ofNat 64 a.otype
  | 5 => BitVec.ofNat 64 a.world
  | 6 => if a.tag then 1 else 0
  | _ => a.high

def Cap.withOtype (a : Cap) (t : Nat) : Cap := Cap.clean ⟨a.cur, BitVec.ofNat 64 (natSet a.high.toNat 43 12 t), a.tag⟩

def capSeal (a b : Cap) : Except Cause Cap :=
  if !a.tag || !b.tag then .error .captag
  else if a.isSealed || b.isSealed || !b.has permSeal then .error .capperm
  else if !b.inBounds b.cur.toNat 1 || b.cur == 0 || 4095 < b.cur.toNat then .error .capbnd
  else .ok (a.withOtype b.cur.toNat)

def capUnseal (a b : Cap) : Except Cause Cap :=
  if !a.tag || !b.tag then .error .captag
  else if !a.isSealed || b.isSealed || !b.has permUnseal || b.cur.toNat != a.otype then .error .capperm
  else if !b.inBounds b.cur.toNat 1 then .error .capbnd
  else .ok (a.withOtype 0)

/-- The subset test of CTST. -/
def capSubset (a b : Cap) : Bool :=
  a.tag && b.tag && a.otype == b.otype && a.world == b.world && b.base ≤ a.base && a.top ≤ b.top && b.has a.perms

end Sys2Proof.Machine
end

