-- ==== Sys2Proof/Machine/Sched.lean ====
section
/-!
DEFINITION. What ends, starts and frees: cancelled copies, finished accesses, run ends, request ends and violations
(R187, R220, R291, R330), the schedule of starts (R200) and the identity of phase domains (R206).
-/
namespace Sys2Proof.Machine

open Sys2Proof

/-! ### Phase domains (R206, R224) -/

/-- The identifier of the domain at a level of a core of the group of jetton `j`. -/
def Jetton.domain (x : Jetton) (j core lvl : Nat) : Nat :=
  if lvl == 0 then 4096 * j + core
  else if lvl == 1 || x.link == 0 then lvl * 2 ^ 32 + x.gid.toNat
  else lvl * 2 ^ 32 + 2 ^ 20 + x.link.toNat * 2 + (if lvl == 2 && isToken core then 1 else 0)

/-- The identifier of a core's domain at a level. -/
def State.domainOf (s : State) (core lvl : Nat) : Nat :=
  let j := (s.getCore core).bnd.jetton
  (s.jetton j).domain j core lvl

def State.domain? (s : State) (id : Nat) : Option Domain := s.disp.domains.find? (·.id == id)
def State.modDomain (s : State) (id : Nat) (f : Domain → Domain) : State :=
  s.modDisp fun d => { d with domains := d.domains.map fun x => if x.id == id then f x else x }

/-- The phase number of a domain; it starts at 0 with the domain (R207). -/
def State.phaseNo (s : State) (id : Nat) : BitVec 32 := ((s.domain? id).map (·.p)).getD 0

/-- A group of another jetton than `j` whose first core is in a domain. -/
def State.domainHeld (s : State) (j id lvl : Nat) : Bool :=
  s.disp.jettons.any fun (k, x) => k != j && (match x.group with
    | some g => (g.cores.head?.map fun i => x.domain k i lvl == id).getD false
    | none => false)

/-- A group is bound: domains that it is the only member of start anew, at phase 0 (R207, notes/assumptions/97.md). -/
def State.renewDomains (s : State) (j : Nat) : State :=
  let x := s.jetton j
  match x.group.bind (·.cores.head?) with
  | none => s
  | some i =>
    (List.range 4).foldl (fun s l =>
      let id := x.domain j i (l + 1)
      if s.domainHeld j id (l + 1) then s else s.modDisp fun d => { d with domains := d.domains.filter (·.id != id) }) s

/-- Create a core's five domains where they do not stand yet. -/
def State.joinDomains (s : State) (core : Nat) : State :=
  (List.range 5).foldl (fun s l =>
    let id := s.domainOf core l
    if (s.domain? id).isSome then s
    else s.modDisp fun d => { d with domains := d.domains ++
      [{ id := id, lvl := BitVec.ofNat 3 l, key := id, p := 0, comps := [], arrivals := [], retired := [], copies := [],
         broken := false }] }) s

/-- A of Table 9.4; at level 4 a free value (R369). -/
def State.phaseA (s : State) (lvl : Nat) : Nat :=
  match lvl with
  | 0 => 1 | 1 => 8 | 2 => 40 | 3 => 64
  | _ => Config.podLatency s.free + 1
/-- B of Table 9.4 for a completion of cycle `c`; at level 4 a free value (R369). -/
def phaseB (lvl c : Nat) : Nat :=
  match lvl with
  | 0 => 1 | 1 => 8 | 2 => 40 | 3 => 64
  | _ => Config.podLatency c + 1

/-! ### Accesses that others await (R212, R226, R298) -/

def unblock (id l : Nat) (bs : List Nat) (nb : Nat) : List Nat × Nat :=
  if bs.contains id then (bs.filter (· != id), max nb (l + 1)) else (bs, nb)

/-- Access `id` took effect in cycle l: what awaited it acts no earlier than l + 1. -/
def State.accessDone (s : State) (id l : Nat) : State :=
  s.modEng fun e => { e with
    homes := e.homes.map fun h => let (b, n) := unblock id l h.blockers h.due; { h with blockers := b, due := n }
    copies := e.copies.map fun c => let (b, n) := unblock id l c.blockers c.notBefore; { c with blockers := b, notBefore := n }
    pcmds := e.pcmds.map fun p => let (b, n) := unblock id l p.blockers p.notBefore; { p with blockers := b, notBefore := n }
    queues := e.queues.map fun (k, q) => (k, { q with
      busy := q.busy.filter (·.1 != id)
      irqs := q.irqs.map fun (i, v, bs, n) => let (b, n) := unblock id l bs n; (i, v, b, n) }) }

/-- Access `id` will never take effect: nothing awaits it any more (R212, R289). -/
def State.accessGone (s : State) (id : Nat) : State :=
  s.modEng fun e => { e with
    homes := e.homes.map fun h => { h with blockers := h.blockers.filter (· != id) }
    copies := e.copies.map fun c => { c with blockers := c.blockers.filter (· != id) }
    pcmds := e.pcmds.map fun p => { p with blockers := p.blockers.filter (· != id) }
    queues := e.queues.map fun (k, q) => (k, { q with
      busy := q.busy.filter (·.1 != id)
      irqs := q.irqs.map fun (i, v, bs, n) => (i, v, bs.filter (· != id), n) }) }

/-! ### Copies -/

def State.copy? (s : State) (id : Nat) : Option Copy := s.eng.copies.find? (·.id == id)
def State.modCopy (s : State) (id : Nat) (f : Copy → Copy) : State :=
  s.modEng fun e => { e with copies := e.copies.map fun c => if c.id == id then f c else c }

/-- The channel number of a card, which is also the record number (Table 11.2). -/
def cardWm (card : W64) : BitVec 4 := card.extractLsb' 42 4

/-- The STATE code of a copy (Table 11.6). -/
def CopyState.code : CopyState → Nat
  | .queued => 1 | .issued => 2 | .parked => 3 | .landed => 4 | .cancelled => 5 | .faulted => 6

/-- Write a copy's record at its issuer, if the record still describes it (R288). -/
def State.record (s : State) (c : Copy) (st : CopyState) : State :=
  match c.asker with
  | .core i =>
    let k := cardWm c.card
    let core := s.getCore i
    if core.copyOf[k.toNat]'k.isLt == c.id then
      let doneb := c.targets.foldl (fun m t => min m t.doneb) (c.targets.foldl (fun m t => max m t.doneb) 0)
      let w := BitVec.ofNat 64 (st.code * 2 ^ 61 + min c.ovr (2 ^ 24 - 1) * 2 ^ 32 + doneb % 2 ^ 32)
      s.setCore i { core with copyrec := core.copyrec.set k.toNat w k.isLt }
    else s
  | _ => s

/-- A copy that still holds back DONE, CIDLE and completion records (R32, R187, R287). -/
def Copy.pending (c : Copy) : Bool :=
  match c.state with
  | .queued | .issued | .parked => true
  | .landed => c.followBusy
  | _ => false

/-- A follow-on has finished or was dropped: its copy counts as landed (R287). -/
def State.followDone (s : State) (id : Nat) : State :=
  (s.accessDone id s.tb).modEng fun e => { e with copies := e.copies.filter fun c => !(c.id == id && c.state == .landed) }

/-- The withdrawal of a counted copy from its phase (R224). -/
def State.withdraw (s : State) (c : Copy) : State :=
  match c.phase, c.asker with
  | some (l, p), .core i =>
    s.at_ (s.tb + s.phaseA l.toNat) (.phaseCopyWithdrawal ((s.jetton c.jetton).domain c.jetton i l.toNat) c.id p)
  | _, _ => s

/-- Cancel a copy that stands in a buffer (R289) or that a seal has saved. -/
def State.cancelCopy (s : State) (id : Nat) : State :=
  match s.copy? id with
  | none => s
  | some c =>
    if c.state == .queued || c.saved then
      ((((s.record c .cancelled).withdraw c).accessGone id)).modEng fun e => { e with copies := e.copies.filter (·.id != id) }
    else s

/-- The copies of a core, for the jetton it is bound to. -/
def State.copiesOf (s : State) (core : Nat) : List Copy :=
  s.eng.copies.filter fun c => c.asker == .core core && c.jetton == (s.getCore core).bnd.jetton

/-- A collective that is still to complete on this package (R380); the other fabric requests hold nothing back. -/
def Coll.pending (c : Coll) : Bool := (c.kind == .data || c.kind == .barrier) && c.done.isNone

/-- The collectives of a core, for the jetton it is bound to. -/
def State.collsOf (s : State) (core : Nat) : List Coll :=
  s.eng.colls.filter fun c => c.core == core && c.jetton == (s.getCore core).bnd.jetton

/-- A collective that waits in an engine queue as a copy waits in a time buffer (R380). -/
def Coll.inBuffer (c : Coll) : Bool := c.kind == .data && c.queued && c.done.isNone

/-- Cancel those of a core's copies in a time buffer, or saved from one, that pass, and its collectives that have not reached
the engine. -/
def State.cancelSome (s : State) (core : Nat) (ok : Copy → Bool) : State :=
  let s := ((s.copiesOf core).filter fun c => (c.state == .queued || c.saved) && ok c).foldl (fun s c => s.cancelCopy c.id) s
  ((s.collsOf core).filter (·.inBuffer)).foldl (fun (s : State) c =>
    (s.accessGone c.id).modEng fun e => { e with colls := e.colls.filter (·.id != c.id) }) s

/-- Every copy of a core that has not issued or is saved is cancelled; or every one that has not issued. -/
def State.cancelQueued (s : State) (core : Nat) : State := s.cancelSome core fun _ => true
def State.cancelUnissued (s : State) (core : Nat) : State := s.cancelSome core (·.state == .queued)

/-! ### Rings (R220) -/

/-- Slots of a ring (R13). -/
def ringSlots (r : W64) : Nat :=
  let sz := natBits r.toNat 36 12
  if sz == 0 then 0 else (natBits r.toNat 48 7 + 1 - natBits r.toNat 55 7) * 32 / sz
def ringHead (r : W64) : Nat := natBits r.toNat 24 12
def ringTail (r : W64) : Nat := natBits r.toNat 12 12
def ringClaim (r : W64) : Nat := natBits r.toNat 0 12
def ringSet (r : W64) (head tail claim : Nat) : W64 :=
  BitVec.ofNat 64 (natSet (natSet (natSet r.toNat 24 12 head) 12 12 tail) 0 12 claim)
def ringPublished (r : W64) : Nat :=
  let n := ringSlots r
  if n == 0 then 0 else (ringHead r + n - ringTail r) % n

/-- Length of the run of marked slots from a slot. -/
def markedRun (claims : List Claim) (n fuel slot : Nat) : Nat :=
  match fuel with
  | 0 => 0
  | fuel + 1 =>
    if claims.any fun c => c.slot == slot && c.marked then markedRun claims n fuel ((slot + 1) % n) + 1 else 0

/-- Publish the marked slots at HEAD (R218). -/
def Ring.publish (r : Ring) : Ring :=
  let n := ringSlots r.reg
  let h := ringHead r.reg
  let k := markedRun r.claims n (ringClaim r.reg) h
  { r with reg := ringSet r.reg ((h + k) % max n 1) (ringTail r.reg) (ringClaim r.reg - k)
           claims := r.claims.filter fun c => !((List.range k).any fun i => (h + i) % n == c.slot) }

/-- The claims that core `p` holds unmarked become void (R220). -/
def Ring.voidClaims (p : Nat) (r : Ring) : Ring :=
  if r.claims.any fun c => c.core == p && !c.marked then
    Ring.publish { r with
      voids := r.voids ++ (r.claims.filter fun c => c.core == p && !c.marked).map (·.slot)
      claims := r.claims.map fun c => if c.core == p then { c with marked := true } else c }
  else r

/-- The unmarked claims of core `p` in the rings of one home. -/
def Core.voidClaims (c : Core) (p : Nat) : Core :=
  if c.rn.toList.any fun r => r.claims.any fun c => c.core == p && !c.marked then
    { c with rn := Vector.ofFn fun k => Ring.voidClaims p c.rn[k] }
  else c

/-- A run of core `p` ends: void its unmarked claims at every home, at homes that an eviction has written out as well. -/
def State.voidClaims (s : State) (p : Nat) : State :=
  let s := s.live.foldl (fun s i => s.modCore i fun c => c.voidClaims p) s
  s.modDisp fun d => { d with jettons := d.jettons.map fun (j, x) =>
    (j, { x with spill := x.spill.map fun sp => { sp with regs := sp.regs.voidClaims p } }) }

/-! ### Run ends -/

/-- What is left of a stream that stops: an operation inside its occupancy runs to its end (R327). -/
def Stream.stopped (r : Stream) : Option Stream := if r.cyc == 0 then none else some { r with left := 1, op := 4095 }

/-- Stop every column of a core: armed launches and streams go, results in flight and an operation inside its occupancy
stay (R187, R327). -/
def Issue.halt (x : Issue) (st : Status) : Issue :=
  { x with status := st, wait := .none,
           vec := { x.vec with armed := [], run := none, ends := [] }
           mat := { x.mat with armed := [], run := x.mat.run.bind Stream.stopped, ends := [] }
           tab := { x.tab with armed := [], run := none, ends := [] }
           turn := some [], later := [], drain := none, steps := 0, halting := false, leaving := false }

/-- The run of a core stops, its claims aside. -/
def State.stopRun (s : State) (i : Nat) (st : Status) : State :=
  let s := s.modCore i fun c => { c with iss := c.iss.halt st, sys := { c.sys with dbg := false } }
  s.modEng fun e => { e with homes := e.homes.filter fun h => !(h.asker == .core i && h.waits && !h.acted) }

/-- The run of a core ends for any reason. -/
def State.endRun (s : State) (i : Nat) (st : Status) : State := (s.voidClaims i).stopRun i st

/-- A violation freezes a core (Table 15.4): no column issues and nothing it waits for comes to pass; its streams, its drain
and every register stay as they are, and results in flight are written. Armed launches are cancelled, as at any ending of a
request (R116). -/
def Issue.freeze (x : Issue) : Issue :=
  { x with status := .frozen, turn := some [], halting := false
           vec := { x.vec with armed := [] }, mat := { x.mat with armed := [] }, tab := { x.tab with armed := [] } }

def State.freezeCore (s : State) (i : Nat) : State :=
  let s := s.voidClaims i
  let s := s.modCore i fun c => { c with iss := c.iss.freeze }
  s.modEng fun e => { e with homes := e.homes.filter fun h => !(h.asker == .core i && h.waits) }

/-- A core goes back to the pool at the end of cycle `e`; the scrub of R355 starts in the next cycle. -/
def State.freeCore (s : State) (i e : Nat) : State :=
  let w := (s.getCore i).sys.world.toNat
  let s := s.modDisp fun d => { d with xlates := d.xlates.filter fun x => x.who != .task i }
  (s.modCore i fun c => { c with iss := { c.iss with status := .free }, owner := some w, scrubEnd := none }).at_ (e + 1)
    (.coreScrubStart i)

/-! ### Requests -/

/-- A queue is pending (R186). -/
def WorkQueue.pending (q : WorkQueue) : Bool := q.qen && q.widx != q.ridx

def Jetton.anyPending (j : Jetton) : Bool := j.qs.toList.any (·.pending)

/-- Where a jetton goes at the end of cycle `e` when it holds no request (Table 8.5). -/
def Jetton.rest (j : Jetton) (e : Nat) (stop : Bool) : Jetton :=
  { j with state := if stop then .stopped else if j.anyPending then .ready else .idle
           gid := 0xFFFF, waitSince := e + 1, group := none, unended := false, evicted := false, evictReq := none, evictAt := none,
           records := [], spill := [], preempt := false }

/-- The codes of Table 15.3. -/
def Cause.code : Cause → Nat
  | .ill => 0x01 | .priv => 0x02 | .capbnd => 0x03 | .captag => 0x04 | .capperm => 0x05 | .timing => 0x06 | .seqtag => 0x07
  | .slip => 0x08 | .segmiss => 0x09 | .dfovf => 0x0A | .xlate => 0x0B | .align => 0x0D | .overrun => 0x0E | .quota => 0x10
  | .tier => 0x11 | .bkpt => 0x12 | .svc => 0x13 | .record => 0x14 | .owner => 0x15 | .ringerr => 0x16 | .seqwin => 0x17
  | .started => 0x18 | .ucdata => 0x19

/-- The request that a jetton holds is over in cycle `e`: RIDX advances, its record waits to be written (R187, R401), and a
LAUNCH that made it is complete (R399). -/
def State.closeRequest (s : State) (j e status : Nat) (f : FaultRec) : State :=
  let x := s.jetton j
  let r := (x.qs[x.curQueue.toNat]'x.curQueue.isLt).ridx
  let ids := (x.sems.filter fun (k, n, _, _) => k == x.curQueue && n == r).map fun (_, _, _, id) => id
  let s := ids.foldl (fun (s : State) id => s.accessDone id e) s
  s.modJetton j fun x =>
    let q := x.curQueue
    let w := x.qs[q.toNat]'q.isLt
    let svc := status == Cause.svc.code
    let e : Ended := {
      queue := q, seq := w.ridx, status := BitVec.ofNat 8 status,
      det := if status == 0 then 0 else (f.info.extractLsb' 32 7).setWidth 8,
      code := if svc then f.info.extractLsb' 48 16 else 0, value := if status == 0 then 0 else f.addr, tend := e,
      fpc := if status == 0 then 0 else f.fpc,
      sem := (x.sems.filter fun (k, n, _, _) => k == q && n == w.ridx).map fun (_, _, a, id) => (a, id), clear := none }
    { x with qs := x.qs.set q.toNat { w with ridx := w.ridx + 1 } q.isLt, lastQueue := q, ended := x.ended ++ [e]
             sems := x.sems.filter fun (k, n, _, _) => !(k == q && n == w.ridx) }

/-- The domains of a jetton's group lose it (R207): the group's own are over, a linked one completes no further phase. -/
def State.breakDomains (s : State) (j : Nat) : State :=
  let x := s.jetton j
  match x.group.bind (·.cores.head?) with
  | none => s
  | some i =>
    (List.range 4).foldl (fun s l =>
      let id := x.domain j i (l + 1)
      if l == 0 || x.link == 0 then s.modDisp fun d => { d with domains := d.domains.filter (·.id != id) }
      else s.modDomain id fun d => { d with broken := true }) s

/-- The cores that a jetton holds: of its group, those no other request has taken since an eviction. -/
def State.heldCores (s : State) (j : Nat) : List Nat :=
  (((s.jetton j).group.map (·.cores)).getD []).filter fun i =>
    (s.getCore i).bnd.jetton == j && (s.getCore i).iss.status != .free

/-- The task of a core has retired, its core sealed since or not. -/
def Core.hasRetired (c : Core) : Bool := c.iss.status == .retired || (c.iss.drain.map (·.retired)).getD false

/-- No start of core `i` is to come. -/
def Dispatch.unstart (d : Dispatch) (i now : Nat) : Dispatch :=
  { d with starts := d.starts.filter fun st => st.core != i || st.cycle < now
           wishes := d.wishes.map fun w => { w with cores := w.cores.filter fun c => c.1 != i } }
/-- The own domain of core `i`, of the group of jetton `j`, is over. -/
def Dispatch.leave (d : Dispatch) (j i : Nat) : Dispatch := { d with domains := d.domains.filter fun x => x.id != 4096 * j + i }

/-- The cores of a jetton's group that other requests have taken since its eviction. -/
def State.lostCores (s : State) (j : Nat) : List Nat :=
  (((s.jetton j).group.map (·.cores)).getD []).filter fun i => !((s.heldCores j).contains i)

/-- A jetton in these states holds a request that can end (Table 8.5). -/
def JState.held : JState → Bool
  | .binding | .running | .sealing | .sealed => true
  | _ => false

/-- The cores of a jetton's group stop and go back to the pool at the end of cycle `e`; unissued copies are cancelled (R116,
R187). -/
def State.dropCores (s : State) (j e : Nat) : State :=
  let s := (s.lostCores j).foldl (fun (s : State) i => s.voidClaims i) s
  (s.heldCores j).foldl (fun s i =>
    ((s.cancelQueued i).endRun i .stopped).freeCore i e |>.modDisp fun d => (d.unstart i s.tb).leave j i) s

/-- The request of a jetton ends in cycle `e` (R187). A request ends once. -/
def State.endRequest (s : State) (j e status : Nat) (f : FaultRec) : State :=
  if !(s.jetton j).state.held then s
  else
    (((s.breakDomains j).dropCores j e).closeRequest j e status f).modJetton j fun x =>
      x.rest e (x.migStop || ((s.world? x.world).map (·.stopped)).getD false)

/-- A violation by the task of core `i` in cycle `e` (R330): its core freezes, with the others of the group among `bad`, which
violate in the same cycle; the remaining cores of the group stop, the jetton is FROZEN and the request ends. In the states
for which Table 8.5 has no violation row, the request ends by its other row (notes/assumptions/98.md). -/
def State.violate (s : State) (bad : List Nat) (i e : Nat) (f : FaultRec) : State :=
  let j := (s.getCore i).bnd.jetton
  let x := s.jetton j
  if x.state == .running || x.state == .sealing then
    let s := s.breakDomains j
    let s := ((x.group.map (·.cores)).getD []).foldl (fun (s : State) k =>
      (if bad.contains k then (s.cancelUnissued k).freezeCore k else (s.cancelQueued k).endRun k .stopped).modDisp (·.unstart k s.tb)) s
    (s.closeRequest j e f.cause.code f).modJetton j fun x => { x with state := .frozen, preempt := false }
  else s.endRequest j e f.cause.code f

/-! ### Starts (R200) -/

/-- Batches of 16 from b0, 32 cycles apart. -/
def batchStarts (b0 : Nat) (cores : List Nat) (k : Nat) : List (Nat × Nat) :=
  match cores with
  | [] => []
  | c :: r => (c, b0 + 32 * (k / 16)) :: batchStarts b0 r (k + 1)

/-- Fix a start event of cores of one jetton, in logical order, with the kinds of their starts and unstaggered cycle `a`. -/
def State.schedule (s : State) (cores : List (Nat × Nat)) (a : Nat) : State :=
  match cores with
  | [] => s
  | (i, _) :: _ => s.modDisp fun d => { d with wishes := d.wishes ++ [⟨(s.getCore i).bnd.jetton, cores, a⟩] }

/-- The starts of an event, given the schedule so far. -/
def stagger (now : Nat) (starts : List StartAt) (w : StartWish) : List StartAt :=
  let live := starts.filter fun x => now ≤ x.cycle + 256
  let m := (live.filter fun x => w.cycle ≤ x.cycle + 255 && x.cycle ≤ w.cycle + 255).length
  let kind (c : Nat) : Nat := ((w.cores.find? (·.1 == c)).map (·.2)).getD 0
  if w.cores.length + m ≤ 64 then live ++ w.cores.map fun (c, k) => ⟨w.cycle, c, k, false⟩
  else
    let b0 := ((live.filter (·.batch)).map (·.cycle)).foldl (fun b p => max b (p + 32)) w.cycle
    live ++ (batchStarts b0 (w.cores.map (·.1)) 0).map fun (c, t) => ⟨t, c, kind c, true⟩

/-- Insert by key, ties after. -/
def insertBy {α : Type} (key : α → Nat) (l : List α) (x : α) : List α :=
  match l with
  | [] => [x]
  | y :: r => if key y ≤ key x then y :: insertBy key r x else x :: y :: r
def sortBy {α : Type} (key : α → Nat) (l : List α) : List α := l.foldl (insertBy key) []

/-- The events fixed in a cycle enter the schedule in ascending jetton index, those of one jetton in the order in which they
were asked for. R200 orders only the jettons: the order within one is the model's choice (notes/assumptions/99.md). -/
def State.placeStarts (s : State) : State :=
  if s.disp.wishes.isEmpty then s
  else
    let ws := sortBy (fun (w : StartWish) => w.jetton) s.disp.wishes
    s.modDisp fun d => { d with starts := ws.foldl (stagger s.tb) d.starts, wishes := [] }

/-- The start scheduled for a core now, if any. -/
def State.startNow (s : State) (i : Nat) : Option StartAt := s.disp.starts.find? fun x => x.core == i && x.cycle == s.tb

end Sys2Proof.Machine
end

