-- ==== Sys2Proof/Machine/Ops.lean ====
section
/-!
DEFINITION. The operations every meaning shares: results in flight and their commit (R7, R20, R24), the loop-end step and
transfers (R36, R38), and taking a fault: one operation that raises it (R321 to R323) and one that gives it its fate at
the end of its cycle (R324 to R330, R341), with the return by replay and by ERET beside them.
-/
namespace Sys2Proof.Machine

open Sys2Proof

/-- The outcome of a step that has one. -/
abbrev Result := Host.Outcome State Fault Refusal

/-! ### Results in flight -/

/-- A result of latency `lat` issued now (R7), of the core in focus. -/
def State.put (s : State) (lat : Nat) (d : Dst) : State :=
  s.modIss fun x => { x with pend := x.pend ++ [⟨s.tb + lat - 1, d, none, s.tb⟩] }

/-- The same for a function column. -/
def State.putCol (s : State) (col : Col) (lat : Nat) (d : Dst) : State :=
  s.modIss fun x => { x with pend := x.pend ++ [⟨s.tb + lat - 1, d, some col, s.tb⟩] }

/-- Bits of a row that a byte mask selects. -/
def byteMask (m : BitVec 128) : Row :=
  if m == BitVec.allOnes 128 then BitVec.allOnes 1024
  else rowOfBytes ((List.range 128).map fun i => if m.getLsbD i then 0xFF else 0)

/-- A row with the masked bytes replaced. -/
def mergeRow (old new : Row) (m : BitVec 128) : Row := (old &&& ~~~byteMask m) ||| (new &&& byteMask m)

/-- A state register written by SWR (R16, R118). -/
def SysRegs.write (r : SysRegs) (num : Nat) (v : W64) : SysRegs :=
  if num == 0x00 then { r with sd := r.sd && !v.getLsbD 0 }
  else if num == 0x0B then { r with vmode := v.extractLsb' 0 3 }
  else if num == 0x14 then { r with evmask := v.extractLsb' 0 7 |>.setWidth 16 }
  else if h : 0x40 ≤ num ∧ num ≤ 0x9F then
    { r with bfmt := r.bfmt.set (num - 0x40) (v &&& 0xFFFFFFFF0000070F#64) (by omega) }
  else r

/-- Let a result take effect on its core. Writes of k0 and m0 are discarded (Table 1.2). -/
def Core.apply (c : Core) (d : Dst) : Core :=
  match d with
  | .s n v => { c with ctl := { c.ctl with s := c.ctl.s.set n.toNat v n.isLt } }
  | .c n v => { c with ctl := { c.ctl with c := c.ctl.c.set n.toNat v n.isLt } }
  | .k n v =>
    if n == 0 then c
    else { c with ctl := { c.ctl with k := if v then c.ctl.k ||| (1#8 <<< n.toNat) else c.ctl.k &&& ~~~(1#8 <<< n.toNat) } }
  | .v n r m => { c with vec := { c.vec with v := c.vec.v.set n.toNat (mergeRow (c.vec.v[n.toNat]'n.isLt) r m) n.isLt } }
  | .m n v => if n == 0 then c else { c with vec := { c.vec with m := c.vec.m.set n.toNat v n.isLt } }
  | .q n v => { c with vec := { c.vec with q := c.vec.q.set n.toNat v n.isLt } }
  | .sv g r =>
    { c with mat := { c.mat with sv := (List.range 32).foldl (fun (a : Vector W32 256) i =>
        a.setIfInBounds (32 * g.toNat + i) (lane r i)) c.mat.sv } }
  | .latch w i r =>
    let p := c.mat.parity.filter (· != (w, i))
    if w then { c with mat := { c.mat with wl1 := c.mat.wl1.setIfInBounds i r, parity := p } }
    else { c with mat := { c.mat with wl0 := c.mat.wl0.setIfInBounds i r, parity := p } }
  | .mcfg p t => { c with mat := { c.mat with planes := p, tscale := t } }
  | .swap => { c with mat := { c.mat with sel := !c.mat.sel } }
  | .table _ _ => c
  | .reg n v => { c with sys := c.sys.write n.toNat v }

/-- A result that reaches memory: TLD's 32 entries (R148). -/
def Mem.applyTable (m : Mem) (core : Nat) (d : Dst) : Mem :=
  match d with
  | .table first r =>
    (List.range 32).foldl (fun m i => m.write (tableBase core + 4 * ((first + i) % 2048)) (leBytes (lane r i).toNat 4)) m
  | _ => m

def Dst.isQ : Dst → Bool
  | .q _ _ => true
  | _ => false

/-- FINFO (Table 15.1). -/
def finfo (code : BitVec 16) (src : Nat) (deferred : Bool) (det dcyc : Nat) : W64 :=
  code ++ (0 : BitVec 4) ++ BitVec.ofNat 4 src ++ (if deferred then 1 else 0 : BitVec 1) ++ BitVec.ofNat 7 det
    ++ BitVec.ofNat 32 dcyc

def infoSrc (i : W64) : Nat := natBits i.toNat 40 4
def infoDet (i : W64) : Nat := natBits i.toNat 32 7

/-- The causes whose fate is a violation (Table 15.3). -/
def Cause.violation : Cause → Bool
  | .priv | .capbnd | .captag | .capperm | .owner => true
  | _ => false

/-- The causes whose fate is replay (Table 15.3). -/
def Cause.replays : Cause → Bool
  | .timing | .slip | .segmiss | .ucdata => true
  | _ => false

/-- Which of two faults of one cycle is kept (R322): a violation over any other; among equals the lower SRC. -/
def FaultRec.outranks (new old : FaultRec) : Bool :=
  if new.cause.violation == old.cause.violation then infoSrc new.info < infoSrc old.info else new.cause.violation

/-! ### Taking a fault -/

/-- A task can raise a fault: it runs, or drains towards its seal. -/
def Status.live : Status → Bool
  | .running | .draining => true
  | _ => false

/-- One fault of the cycle is kept (R322). -/
def Issue.keepFault (x : Issue) (f : FaultRec) : Issue :=
  match x.fault with
  | some g => if f.outranks g then { x with fault := some f } else x
  | none => { x with fault := some f }

/-- Raise a fault in this cycle for the core in focus; FCAUSE, FPC, FADDR and FINFO are written and the fate follows at the
end of the cycle (R323, R324). -/
def State.raise (s : State) (f : FaultRec) : State :=
  if s.core.iss.status.live then s.modIss fun x => x.keepFault f else s

/-- A core without a live run whose request still stands hears a violation of what it sent out before (R330): its bind, the
time between two runs, its retirement, its seal. -/
def Status.hearsViolation : Status → Bool
  | .bound | .between | .retired | .sealed => true
  | _ => false

/-- A precise fault of the control word at the program counter. -/
def State.ctlFault (s : State) (cause : Cause) (addr : W64) (det : Nat := 0) (code : BitVec 16 := 0) : State :=
  s.raise ⟨cause, BitVec.ofNat 12 s.core.iss.pc, addr, finfo code 0 false det 0⟩

/-- A fault of core `i` found away from the issue of its word (R321, R323). -/
def State.deferFault (s : State) (i : Nat) (cause : Cause) (addr : W64) (src det : Nat) (pc : BitVec 12) (issue : Nat) : State :=
  let f : FaultRec := ⟨cause, pc, addr, finfo 0 src true det (s.tb - issue)⟩
  let t := s.focus i
  (if cause.violation && t.core.iss.status.hearsViolation then t.modIss fun x => x.keepFault f else t.raise f).focus s.cur

/-! ### Commit at the end of a cycle -/

/-- The SRC code of a column (Table 15.2). -/
def colSrc : Col → Nat
  | .vector => 1 | .matrix => 2 | .table => 3

/-- Another function column writes the same bank at the same boundary (R20). -/
def bankClash (due : List BankPend) (b : BankPend) : Bool :=
  due.any fun x => x.col != b.col && x.addr / 0x1000 == b.addr / 0x1000

/-- A bank row write takes effect (R122, R332). -/
def Mem.bankWrite (m : Mem) (b : BankPend) : Mem :=
  let full := b.bytes == BitVec.allOnes 128
  let m := if full then m.write b.addr (rowBytes b.row)
    else (List.range 128).foldl (fun m i => if b.bytes.getLsbD i then m.set (b.addr + i) (rowByte b.row i) else m) m
  let m := if full then m.clearPoison b.addr else m
  if m.captags.isEmpty then m
  else (List.range 128).foldl (fun m i => if b.bytes.getLsbD i then m.setCapTag (b.addr + i) false else m) m

/-- Tags are held in banks of format CAP only (R104). While a bank's BFMT names another format its tags are not seen, and those
that no write has cleared are seen again when CAP comes back (notes/assumptions/104.md). -/
def State.capBank (s : State) (a : Nat) : Bool :=
  match s.bankReg a with
  | some b => b.extractLsb' 0 4 == 0xF
  | none => false

/-- A control-column store takes effect (R94, R103, R104). -/
def State.storeWrite (s : State) (w : StorePend) : State :=
  let s := s.modMem fun m => (m.write w.addr w.bytes).untag w.addr w.bytes.length
  match w.tag with
  | some true => if s.capBank w.addr then s.modMem (·.setCapTag w.addr true) else s
  | _ => s

/-- Results on their way, a new one placed by the issue of its instruction (R24). -/
def insertPend (l : List Pend) (p : Pend) : List Pend :=
  match l with
  | [] => [p]
  | q :: r => if q.issue ≤ p.issue then q :: insertPend r p else p :: q :: r

/-- The q registers before a change that is read from cycle `c` on (R139). -/
def VecRegs.keepQ (v : VecRegs) (c : Nat) : VecRegs := { v with qOld := v.q, qAt := c }

/-- A loader that has read its last row is free from the next cycle on (R160). -/
def Core.freeLoader (c : Core) (rows : Nat) : Core :=
  if c.mat.loader.isEmpty then c
  else { c with mat := { c.mat with loader := c.mat.loader.filter fun (f : FollowOn) => f.row < rows } }

/-- The end of cycle `e` for core `i`, in focus: stores, bank rows after them (R20, R24, R125), register results in issue
order. -/
def State.commit (s : State) (e : Nat) : State :=
  let i := s.cur
  let x := s.core.iss
  let s := x.stores.foldl State.storeWrite s
  let s := s.modMem fun m => (x.bankPend.filter (·.due ≤ e)).foldl Mem.bankWrite m
  let res := x.pend.filter (·.due ≤ e)
  let s := s.modMem fun m => res.foldl (fun (m : Mem) (p : Pend) => m.applyTable i p.dst) m
  let s := if res.any fun (p : Pend) => p.dst.isQ then s.modC fun c => { c with vec := c.vec.keepQ (e + 1) } else s
  let s := s.modC fun c => (res.foldl (fun (c : Core) (p : Pend) => c.apply p.dst) c).freeLoader (if isToken i then 128 else 256)
  s.modIss fun y => { y with stores := [], bankPend := y.bankPend.filter (e < ·.due), pend := y.pend.filter (e < ·.due),
                             turn := none, ports := [], wports := [] }

/-! ### The program counter and the loop stack -/

/-- The loop-end step (R36): the stack, the counters and the next fetch after the word at `pc`. -/
def loopEnd (loops : List LoopLevel) (lc : Vector W32 4) (pc : Nat) : List LoopLevel × Vector W32 4 × Nat :=
  match loops with
  | [] => ([], lc, pc + 1)
  | l :: r =>
    if l.stop == pc then
      let n := lc[l.lvl.toNat]'l.lvl.isLt - 1
      let lc := lc.set l.lvl.toNat n l.lvl.isLt
      if n != 0 then (l :: r, lc, l.start) else loopEnd r lc pc
    else (l :: r, lc, pc + 1)

/-- A stub checks no loop end (R336). -/
def Issue.inStub (x : Issue) : Bool := match x.drain with
  | some d => d.stub && !d.stubDone
  | none => false

/-- The word at the program counter has issued and the next one issues `cost` cycles later. -/
def State.advance (s : State) (cost : Nat) : State :=
  if s.core.iss.inStub then s.modIss fun x => { x with pc := x.pc + 1, next := s.tb + cost }
  else
    let (loops, lc, pc) := loopEnd s.core.ctl.loops s.core.ctl.lc s.core.iss.pc
    (s.modCtl fun r => { r with loops := loops, lc := lc }).modIss fun x => { x with pc := pc, next := s.tb + cost }

/-- Levels left after a taken transfer to `target`: those whose range holds it (R38). -/
def popLoops (loops : List LoopLevel) (target : Nat) : List LoopLevel :=
  loops.filter fun l => l.start ≤ target && target ≤ l.stop

/-- A taken transfer: the target issues two cycles later (Table 4.10). CALL and RET keep the loop stack. -/
def State.jumpTo (s : State) (target : Nat) (keep : Bool) : State :=
  let s := if keep then s else s.modCtl fun r => { r with loops := popLoops r.loops target }
  s.modIss fun x => { x with pc := target, next := s.tb + 2 }

/-- Why a flow word cannot stand here: in a stub (R336), or as the end word of an active loop (R39). -/
def State.flowBlocked (s : State) : Option Nat :=
  if s.core.iss.inStub then some 14
  else if s.core.ctl.loops.any (·.stop == s.core.iss.pc) then some 0
  else none

/-- The column waits and does not advance. -/
def State.await (s : State) (w : WaitFor) : State := s.modIss fun x => { x with wait := w, waitAt := s.tb }

/-- A wait completes in this cycle (R22): the anchor moves here and the next word issues in the next cycle. -/
def State.completeWait (s : State) : State :=
  ((s.modIss fun x => { x with wait := .none }).modSys fun r => { r with anchor := BitVec.ofNat 64 s.tb }).advance 1

/-! ### Registers of the core in focus -/

def State.sreg (s : State) (n : SReg) : W64 := s.core.ctl.s[n.toNat]'n.isLt
def State.creg (s : State) (n : CReg) : Cap := s.core.ctl.c[n.toNat]'n.isLt
def State.kreg (s : State) (n : KReg) : Bool := n == 0 || s.core.ctl.k.getLsbD n.toNat
/-- The world of the task in focus. -/
def State.myWorld (s : State) : Nat := s.core.sys.world.toNat
/-- TB as software reads it (R418). -/
def State.tbw (s : State) : W64 := BitVec.ofNat 64 s.tb

/-! ### Fates (R324 to R330, R341) -/

/-- Debug is enabled for a world (Table 10.3). -/
def State.debugOn (s : State) (w : Nat) : Bool := ((s.world? w).map (·.dbgen)).getD false

/-- A replayable fault is replayed (R326, R175). -/
def Core.mayReplay (c : Core) (f : FaultRec) : Bool :=
  f.cause.replays && c.sys.rply < 3 && !(f.cause == .ucdata && c.iss.ucLast == some f.addr)

/-- The status a fault ends its request with (R325). -/
def FaultRec.status (f : FaultRec) : Nat :=
  if f.cause == .timing && infoDet f.info == 5 then Cause.seqtag.code else f.cause.code

/-- The XLATE of a task's home operation that the scheduler has not serviced yet holds its replay back (R328); `next` keeps
the cycle of the replay meanwhile. -/
def State.awaitsXlate (s : State) (i : Nat) : Bool :=
  s.disp.xlates.any fun x => x.who == .task i

/-- A failing line of a weight segment holds the replay back until its piece has been fetched again (R314). -/
def State.awaitsPiece (s : State) (i : Nat) (rec : FaultRec) : Bool :=
  rec.cause == .ucdata && (s.getCore i).iss.heldBy.isSome

/-- The replay of core `i` waits for a service and for nothing else. -/
def State.replayHeld (s : State) (i : Nat) : Bool :=
  (s.getCore i).iss.status == .between && !(s.disp.starts.any fun x => x.core == i && s.tb ≤ x.cycle)
    && !(s.disp.wishes.any fun w => w.cores.any fun c => c.1 == i)

/-- Abandon the run of core `i` in cycle `f` and schedule replay RPLY + 1 (R327, R328). -/
def State.replay (s : State) (i f : Nat) (rec : FaultRec) : State :=
  let k := (s.getCore i).sys.rply + 1
  let s := (s.cancelQueued i).endRun i .between
  let s := s.modCore i fun c => { c with
    sys := { c.sys with rply := k }
    iss := { c.iss with ucLast := if rec.cause == .ucdata then some rec.addr else c.iss.ucLast } }
  if (infoDet rec.info == 4 && s.awaitsXlate i) || s.awaitsPiece i rec then
    s.modCore i fun c => { c with iss := { c.iss with next := f + 64 + 2048 * k } }
  else s.schedule [(i, 3)] (f + 64 + 2048 * k)

/-- An ending after which nothing else of the drain happens. -/
def State.endBy (s : State) (i f : Nat) (rec : FaultRec) : State :=
  s.endRequest (s.getCore i).bnd.jetton f rec.status rec

/-- Times of a task move on by a cycle that debug state holds (R347, R350). -/
def Column.hold (c : Column) : Column :=
  { c with
    armed := c.armed.map fun l => { l with start := l.start + 1 }
    run := c.run.map fun r => { r with next := r.next + 1, visible := r.visible + 1 }
    ends := c.ends.map (· + 1) }

def Core.hold (c : Core) : Core :=
  { c with
    sys := { c.sys with anchor := c.sys.anchor + 1 }
    vec := { c.vec with qAt := c.vec.qAt + 1 }
    iss := { c.iss with
      next := c.iss.next + 1, frozenX := c.iss.frozenX + 1
      vec := c.iss.vec.hold, mat := c.iss.mat.hold, tab := c.iss.tab.hold
      pend := c.iss.pend.map fun p => { p with due := p.due + 1 }
      bankPend := c.iss.bankPend.map fun p => { p with due := p.due + 1 }
      accPend := c.iss.accPend.map fun p => { p with due := p.due + 1 }
      later := c.iss.later.map fun l => { l with cycle := l.cycle + 1 } } }

/-- A cycle that debug state holds for core `i`: its task and its queued copies move on. -/
def State.holdCore (s : State) (i : Nat) : State :=
  let j := (s.getCore i).bnd.jetton
  let shift (k : Copy) : Copy :=
    if k.asker == .core i && k.jetton == j && k.state == .queued && !k.saved then { k with time := k.time + 1 } else k
  (s.modCore i Core.hold).modEng fun e => { e with copies := e.copies.map shift }

/-- Debug state is entered (R347): the entry cycle is already held, unless a step met the BKPT. A BKPT instruction resumes at
the next word, a hardware breakpoint at its own. -/
def State.enterDebug (s : State) (i : Nat) (hard : Bool) : State :=
  let was := (s.getCore i).sys.dbg
  let s := s.modCore i fun c =>
    let (loops, lc, pc) := loopEnd c.ctl.loops c.ctl.lc c.iss.pc
    { c with
      ctl := if hard then c.ctl else { c.ctl with loops := loops, lc := lc }
      sys := { c.sys with dbg := true }
      iss := { c.iss with pass := hard, frozenX := if was then c.iss.frozenX else 0, steps := 0
                          pc := if hard then c.iss.pc else pc } }
  if was then s else s.holdCore i

/-- The first drain table entry whose range holds an address: its stub (R334). -/
def drainStub (m : Mem) (core base addr fuel : Nat) : Option Nat :=
  match fuel with
  | 0 => none
  | fuel + 1 =>
    let w := m.codeWord core base
    let lo := (w.extractLsb' 36 12).toNat
    let hi := (w.extractLsb' 24 12).toNat
    if lo ≤ addr && addr ≤ hi then some (w.extractLsb' 12 12).toNat
    else if w.getLsbD 0 then none
    else drainStub m core ((base + 1) % 4096) addr fuel

def State.stubFor (s : State) (i addr : Nat) : Option Nat :=
  drainStub s.mem i (s.getCore i).sys.drainbase.toNat addr 4096

/-- A plug-in's call is over: the level that called it goes on after the call (R403). -/
def Fw.endPlugin (f : Fw) (frozen : Bool) : Fw × Nat :=
  let rest := if f.level == .plugin then f.calls else (f.calls.dropWhile fun (l, _) => l != .plugin).drop 1
  match rest with
  | (l, pc) :: r => ({ f with level := l, calls := r, frozen := f.frozen || frozen }, pc)
  | [] => ({ f with level := .scheduler, calls := [], frozen := f.frozen || frozen }, f.entryScheduler)

/-- The fate of a fault of a firmware processor: a plug-in is left, and frozen by a violation (R403); at the other levels the
processor stops, frozen by a violation (R330). -/
def State.fwFate (s : State) (i f : Nat) (rec : FaultRec) : State :=
  let stop : Status := if rec.cause.violation then .frozen else .stopped
  s.modCore i fun c => match c.fw with
    | some w =>
      let run := c.iss.run + 1
      if w.level == .plugin then
        let (w, pc) := w.endPlugin rec.cause.violation
        { c with fw := some w, iss := { c.iss with wait := .none, pc := pc, next := f + 1, run := run, later := [] } }
      else { c with iss := { c.iss.halt stop with run := run } }
    | none => c

/-- A replayable fault between the request to drain and the seal (R341): the core seals at once, and the run starts from its
first word at resume. -/
def State.drainReplay (s : State) (i f : Nat) (d : Drain) (rec : FaultRec) : State :=
  let s := (s.cancelQueued i).endRun i .draining
  s.modCore i fun c => { c with
    sys := { c.sys with rply := c.sys.rply + 1 }
    iss := { c.iss with
      ucLast := if rec.cause == .ucdata then some rec.addr else c.iss.ucLast
      drain := some { d with d := some f, stub := false, restart := true, kind := 3 } } }

/-- Another fault between the request to drain and the seal (R341): the core drains as though the faulting word were the
resume word, and the cause waits in the record. -/
def State.drainHold (s : State) (i f : Nat) (d : Drain) (rec : FaultRec) : State :=
  let c := s.getCore i
  if d.d.isSome then
    s.modCore i fun c => { c with iss := { c.iss with
      drain := some { d with stub := false, stubDone := true, fpend := some rec } } }
  else
    let stub := s.stubFor i c.iss.pc
    s.modCore i fun c => { c with iss := { c.iss with
      wait := .none
      pc := stub.getD c.iss.pc
      next := f + 1
      drain := some { d with d := some f, resume := c.iss.pc, stub := stub.isSome, fpend := some rec } } }

/-- The BKPT that takes a task to debug state (R119, R341): none does in a drain. -/
def State.entersDebug (s : State) (i : Nat) (rec : FaultRec) : Bool :=
  let c := s.getCore i
  rec.cause == .bkpt && c.iss.drain.isNone && s.debugOn c.sys.world.toNat

/-- The fault ends the request (R187, R324, R341). -/
def State.endsRequest (s : State) (i : Nat) (rec : FaultRec) : Bool :=
  let c := s.getCore i
  c.fw.isNone && !rec.cause.violation && !c.mayReplay rec && !s.entersDebug i rec
    && (c.iss.drain.isNone || rec.cause.replays)

/-- The fate of a fault that core `i` raised in cycle `f` (R324, R330, R341). A hardware breakpoint carries DET 0 and
CODE 0 and stops its word before it takes effect. `bad` are the cores that violate in that cycle. -/
def State.fate (s : State) (bad : List Nat) (i f : Nat) (rec : FaultRec) : State :=
  let c := s.getCore i
  if c.fw.isSome then s.fwFate i f rec
  else if rec.cause.violation then s.violate bad i f rec
  else if s.endsRequest i rec then s.endBy i f rec
  else
    match c.iss.drain with
    | some d => if c.mayReplay rec then s.drainReplay i f d rec else s.drainHold i f d rec
    | none => if s.entersDebug i rec then s.enterDebug i (c.iss.pass) else s.replay i f rec

/-- FCAUSE, FPC, FADDR and FINFO of a fault whose cycle is over (R323). -/
def Core.noteFault (c : Core) (rec : FaultRec) : Core :=
  { c with
    sys := { c.sys with fcause := BitVec.ofNat 8 rec.cause.code, fpc := rec.fpc, faddr := rec.addr, finfo := rec.info }
    iss := { c.iss with fault := none } }

/-- The return from a drain stub (R117): the core passes to the sealing hardware. -/
def State.stubReturn (s : State) : State :=
  s.modIss fun x => { x with next := s.tb + 1, drain := x.drain.map fun d => { d with stubDone := true } }

end Sys2Proof.Machine
end

