-- ==== Sys2Proof/Machine/Flags.lean ====
section
/-!
DEFINITION. Predicates, status words and the views the state registers give of other state (R16, R17, R40, R100, R101,
Tables 1.5 to 1.7, Table 9.6).
-/
namespace Sys2Proof.Machine

open Sys2Proof

/-- Table 4.5. -/
def KFun.apply (f : KFun) (a b : Bool) : Bool :=
  match f with
  | .and => a && b
  | .or => a || b
  | .xor => a != b
  | .andn => a && !b
  | .not => !a
  | .orn => a || !b

/-- Entries of the deferral queue visible in this cycle (R143). -/
def State.dqVisible (s : State) : List Deferred := s.core.vec.dq.filter fun d => d.cycle + 2 ≤ s.tb

/-- TSTAT (Table 1.6). -/
def State.tstat (s : State) : W64 :=
  let c := s.core
  BitVec.ofNat 64 (s.dqVisible.length * 2 ^ 19 + c.vec.qrd.toNat * 2 ^ 17 + c.vec.qwr.toNat * 2 ^ 15
    + c.ctl.loops.length * 2 ^ 12 + c.sys.rply * 2 ^ 10 + c.sys.dbg.toNat * 2 ^ 9 + c.sys.bkpend.toNat * 2 ^ 8 + c.sys.sd.toNat)

/-- LOOPST (Table 1.7). -/
def loopst (loops : List LoopLevel) : W64 :=
  BitVec.ofNat 64 (loops.foldl (fun a l => a + (2 ^ 15 + l.stop % 4096) * 2 ^ (16 * l.lvl.toNat)) 0)

/-- The value SRD returns for a number of Table 1.5; none where the number is unassigned. -/
def State.stateReg (s : State) (num : BitVec 8) : Option W64 :=
  let c := s.core
  let n := num.toNat
  if n == 0x00 then some s.tstat
  else if n == 0x01 then some (c.sys.fcause.setWidth 64)
  else if n == 0x02 then some (c.sys.fpc.setWidth 64)
  else if n == 0x03 then some c.sys.faddr
  else if n == 0x04 then some c.sys.finfo
  else if n == 0x05 then some c.sys.anchor
  else if n == 0x06 then some s.tbw
  else if n == 0x07 then some c.sys.dmem
  else if n == 0x08 then some (c.sys.tcoord.setWidth 64)
  else if n == 0x09 then some (c.sys.gshape.setWidth 64)
  else if n == 0x0A then some (c.sys.world.setWidth 64)
  else if n == 0x0B then some (c.sys.vmode.setWidth 64)
  else if n == 0x0C then some (c.sys.scope.setWidth 64)
  else if n == 0x0D then some (c.sys.drainbase.setWidth 64)
  else if n == 0x0E then some (c.sys.cycmax.setWidth 64)
  else if h : 0x10 ≤ n ∧ n ≤ 0x13 then some ((c.sys.bpaddr[n - 0x10]'(by omega)).setWidth 64)
  else if n == 0x14 then some (c.sys.evmask.setWidth 64)
  else if n == 0x15 then some (loopst c.ctl.loops)
  else if h : 0x18 ≤ n ∧ n ≤ 0x1B then some ((c.ctl.lc[n - 0x18]'(by omega)).setWidth 64)
  else if h : 0x20 ≤ n ∧ n ≤ 0x2F then some (c.ctl.mb[n - 0x20]'(by omega))
  else if h : 0x40 ≤ n ∧ n ≤ 0x9F then some (c.sys.bfmt[n - 0x40]'(by omega))
  else none

/-- Registers a task may write (Table 1.5). -/
def regWritable (num : BitVec 8) : Bool :=
  num == 0x00 || num == 0x0B || num == 0x14 || (0x40 ≤ num.toNat && num.toNat ≤ 0x9F)

/-- A write that puts a reserved code into VMODE or RND (R16). -/
def regReserved (num : BitVec 8) (v : W64) : Bool :=
  (num == 0x0B && 5 ≤ (v.extractLsb' 0 3).toNat)
    || (0x40 ≤ num.toNat && num.toNat ≤ 0x9F && 5 ≤ (v.extractLsb' 8 3).toNat)

/-- A column has finished (R28). -/
def Column.finished (c : Column) : Bool := c.armed.isEmpty && c.run.isNone && c.ends.isEmpty

/-- Every copy and collective the core issued has landed or been cancelled, follow-ons included (Table 9.6, R380). -/
def State.copiesIdle (s : State) (core : Nat) : Bool :=
  let r := (s.getCore core).bnd.firstRun
  !((s.copiesOf core).any fun c => r ≤ c.run && c.pending)
    && !((s.collsOf core).any fun c => r ≤ c.run && c.pending)

/-- The conditions EVMASK selects all hold (R231). -/
def State.eventsHold (s : State) : Bool :=
  let m := s.core.sys.evmask
  let x := s.core.iss
  (!m.getLsbD 0 || x.vec.flag) && (!m.getLsbD 1 || x.mat.flag) && (!m.getLsbD 2 || x.tab.flag)
    && (!m.getLsbD 3 || x.vec.finished) && (!m.getLsbD 4 || x.mat.finished) && (!m.getLsbD 5 || x.tab.finished)
    && (!m.getLsbD 6 || s.copiesIdle s.cur)

/-- WEV clears the sticky flags it selects (R231). -/
def State.clearEvents (s : State) : State :=
  let m := s.core.sys.evmask
  s.modIss fun x => { x with
    vec := { x.vec with flag := x.vec.flag && !m.getLsbD 0 }
    mat := { x.mat with flag := x.mat.flag && !m.getLsbD 1 }
    tab := { x.tab with flag := x.tab.flag && !m.getLsbD 2 } }

end Sys2Proof.Machine
end

