-- ==== Sys2Proof/Machine/Alu.lean ====
section
/-!
DEFINITION. Integer arithmetic, moves, bit fields, multiply and divide, compares and predicates of the control column
(R96 to R101).
-/
namespace Sys2Proof.Machine

open Sys2Proof

/-- A control word whose one effect is a result of latency `lat` for `d`. -/
def State.give (s : State) (lat cost : Nat) (d : Dst) : Result := .next ((s.put lat d).advance cost)

/-- An ALU result: latency 1, one cycle (R96 to R98). -/
def State.alu (s : State) (d : SReg) (v : W64) : Result := s.give 1 1 (.s d v)

/-! ### What each computes -/

def rotl64 (a b : W64) : W64 := a.rotateLeft (b.toNat % 64)
def smin (a b : W64) : W64 := if b.slt a then b else a
def smax (a b : W64) : W64 := if a.slt b then b else a
def umin (a b : W64) : W64 := if b.ult a then b else a
def umax (a b : W64) : W64 := if a.ult b then b else a
def imm64 (i : BitVec 24) : W64 := i.signExtend 64

/-- Position of the highest 1 plus one, 0 for 0. -/
def bitLen (a : W64) : Nat := if a == 0 then 0 else Nat.log2 a.toNat + 1
def clz64 (a : W64) : W64 := BitVec.ofNat 64 (64 - bitLen a)
def ctz64 (a : W64) : W64 :=
  BitVec.ofNat 64 (((List.range 64).find? fun i => a.getLsbD i).getD 64)
def popc64 (a : W64) : W64 := BitVec.ofNat 64 ((List.range 64).foldl (fun n i => n + (a.getLsbD i).toNat) 0)

/-- Sext(a[n-1:0], n) (Table 4.3). -/
def sextField (a : W64) (n : Nat) : W64 := (a <<< (64 - n)).sshiftRight (64 - n)
/-- Bits a[pos+len-1:pos], zero above bit 63. -/
def bfxField (a : W64) (pos len : Nat) : W64 := BitVec.ofNat 64 (natBits a.toNat pos len)
/-- `d` with bits [pos+len-1:pos] replaced by a[len-1:0]; bits above 63 dropped. -/
def bfiField (d a : W64) (pos len : Nat) : W64 := BitVec.ofNat 64 (natSet d.toNat pos len (a.toNat % 2 ^ len))

def mul64 (a b : W64) : W64 := a * b
def mulhs64 (a b : W64) : W64 := BitVec.ofInt 64 (a.toInt * b.toInt / 2 ^ 64)
def mulhu64 (a b : W64) : W64 := BitVec.ofNat 64 (a.toNat * b.toNat / 2 ^ 64)
/-- R99; the quotient truncates toward zero, and -2^63 ÷ -1 wraps to -2^63. -/
def divs64 (a b : W64) : W64 := if b == 0 then BitVec.allOnes 64 else BitVec.ofInt 64 (a.toInt.tdiv b.toInt)
def rems64 (a b : W64) : W64 := if b == 0 then a else BitVec.ofInt 64 (a.toInt.tmod b.toInt)
def divu64 (a b : W64) : W64 := if b == 0 then BitVec.allOnes 64 else BitVec.ofNat 64 (a.toNat / b.toNat)
def remu64 (a b : W64) : W64 := if b == 0 then a else BitVec.ofNat 64 (a.toNat % b.toNat)

/-! ### NOP and opcode 0x01 (Table 4.1) -/

def execNop (s : State) : Result := .next (s.advance 1)
def execAdd (d a b : SReg) (s : State) : Result := s.alu d (s.sreg a + s.sreg b)
def execSub (d a b : SReg) (s : State) : Result := s.alu d (s.sreg a - s.sreg b)
def execAnd (d a b : SReg) (s : State) : Result := s.alu d (s.sreg a &&& s.sreg b)
def execOr (d a b : SReg) (s : State) : Result := s.alu d (s.sreg a ||| s.sreg b)
def execXor (d a b : SReg) (s : State) : Result := s.alu d (s.sreg a ^^^ s.sreg b)
def execAndn (d a b : SReg) (s : State) : Result := s.alu d (s.sreg a &&& ~~~s.sreg b)
def execShl (d a b : SReg) (s : State) : Result := s.alu d (s.sreg a <<< ((s.sreg b).toNat % 64))
def execShrl (d a b : SReg) (s : State) : Result := s.alu d (s.sreg a >>> ((s.sreg b).toNat % 64))
def execShra (d a b : SReg) (s : State) : Result := s.alu d ((s.sreg a).sshiftRight ((s.sreg b).toNat % 64))
def execRotl (d a b : SReg) (s : State) : Result := s.alu d (rotl64 (s.sreg a) (s.sreg b))
def execMin (d a b : SReg) (s : State) : Result := s.alu d (smin (s.sreg a) (s.sreg b))
def execMax (d a b : SReg) (s : State) : Result := s.alu d (smax (s.sreg a) (s.sreg b))
def execMinu (d a b : SReg) (s : State) : Result := s.alu d (umin (s.sreg a) (s.sreg b))
def execMaxu (d a b : SReg) (s : State) : Result := s.alu d (umax (s.sreg a) (s.sreg b))

/-! ### Opcode 0x08 (Table 4.2) -/

def execAddi (d a : SReg) (imm : BitVec 24) (s : State) : Result := s.alu d (s.sreg a + imm64 imm)
def execAndi (d a : SReg) (imm : BitVec 24) (s : State) : Result := s.alu d (s.sreg a &&& imm64 imm)
def execOri (d a : SReg) (imm : BitVec 24) (s : State) : Result := s.alu d (s.sreg a ||| imm64 imm)
def execXori (d a : SReg) (imm : BitVec 24) (s : State) : Result := s.alu d (s.sreg a ^^^ imm64 imm)
def execShli (d a : SReg) (sh : BitVec 6) (s : State) : Result := s.alu d (s.sreg a <<< sh.toNat)
def execShrli (d a : SReg) (sh : BitVec 6) (s : State) : Result := s.alu d (s.sreg a >>> sh.toNat)
def execShrai (d a : SReg) (sh : BitVec 6) (s : State) : Result := s.alu d ((s.sreg a).sshiftRight sh.toNat)
def execMovi (d : SReg) (imm : BitVec 24) (s : State) : Result := s.alu d (imm64 imm)
def execMovhi (d : SReg) (imm : BitVec 24) (s : State) : Result := s.alu d ((s.sreg d <<< 24) + imm.setWidth 64)

/-! ### Opcode 0x02 (Table 4.3) -/

def execMov (d a : SReg) (s : State) : Result := s.alu d (s.sreg a)
def execClz (d a : SReg) (s : State) : Result := s.alu d (clz64 (s.sreg a))
def execCtz (d a : SReg) (s : State) : Result := s.alu d (ctz64 (s.sreg a))
def execPopc (d a : SReg) (s : State) : Result := s.alu d (popc64 (s.sreg a))
def execSext (d a : SReg) (n1 : BitVec 6) (s : State) : Result := s.alu d (sextField (s.sreg a) (n1.toNat + 1))
def execBfx (d a : SReg) (pos len1 : BitVec 6) (s : State) : Result :=
  s.alu d (bfxField (s.sreg a) pos.toNat (len1.toNat + 1))
def execBfi (d a : SReg) (pos len1 : BitVec 6) (s : State) : Result :=
  s.alu d (bfiField (s.sreg d) (s.sreg a) pos.toNat (len1.toNat + 1))
def execSel (d a b : SReg) (k : KReg) (s : State) : Result := s.alu d (if s.kreg k then s.sreg a else s.sreg b)
def execMort (d a b : SReg) (s : State) : Result :=
  s.alu d ((morton ((s.sreg a).setWidth 16) ((s.sreg b).setWidth 16)).setWidth 64)
def execUmort (d a : SReg) (s : State) : Result :=
  let z := (s.sreg a).setWidth 32
  s.alu d ((unmortonY z ++ unmortonX z).setWidth 64)

/-! ### Opcode 0x03 (R99) -/

def execMul (d a b : SReg) (s : State) : Result := s.give 3 1 (.s d (mul64 (s.sreg a) (s.sreg b)))
def execMulhs (d a b : SReg) (s : State) : Result := s.give 3 1 (.s d (mulhs64 (s.sreg a) (s.sreg b)))
def execMulhu (d a b : SReg) (s : State) : Result := s.give 3 1 (.s d (mulhu64 (s.sreg a) (s.sreg b)))
def execDivs (d a b : SReg) (s : State) : Result := s.give 20 20 (.s d (divs64 (s.sreg a) (s.sreg b)))
def execDivu (d a b : SReg) (s : State) : Result := s.give 20 20 (.s d (divu64 (s.sreg a) (s.sreg b)))
def execRems (d a b : SReg) (s : State) : Result := s.give 20 20 (.s d (rems64 (s.sreg a) (s.sreg b)))
def execRemu (d a b : SReg) (s : State) : Result := s.give 20 20 (.s d (remu64 (s.sreg a) (s.sreg b)))

/-! ### Compares and predicates (R100, R101) -/

def execCmp (kd : KReg) (a b : SReg) (cond : Cond) (s : State) : Result :=
  s.give 1 1 (.k kd (Cond.holds cond (s.sreg a) (s.sreg b)))
def execCmpi (kd : KReg) (a : SReg) (imm : BitVec 24) (cond : Cond) (s : State) : Result :=
  s.give 1 1 (.k kd (Cond.holds cond (s.sreg a) (imm64 imm)))
def execKop (kd ka kb : KReg) (op : KFun) (s : State) : Result :=
  s.give 1 1 (.k kd (KFun.apply op (s.kreg ka) (s.kreg kb)))

end Sys2Proof.Machine
end

