-- ==== Sys2Proof/Machine/Operands.lean ====
section
/-!
DEFINITION. Operand forms: the time field (R72), a loop's count (R33), what a control-column access may reach (R102,
R404), the watermark checks of R15, and the binding check of R234.
-/
namespace Sys2Proof.Machine

open Sys2Proof

/-- The start cycle or issue time a time field names (R72). -/
def State.timeOf (s : State) (t : TimeArg) : Nat :=
  match t with
  | .rel t => (s.core.sys.anchor + t.setWidth 64).toNat
  | .abs k => (s.sreg k).toNat

/-- LOOPR's count (R33): s0 to s31, then mb0 to mb15. -/
def State.loopCount (s : State) (reg : BitVec 13) : Option W32 :=
  let n := reg.toNat
  if h : n < 32 then some ((s.core.ctl.s[n]'h).setWidth 32)
  else if h : n < 48 then some ((s.core.ctl.mb[n - 32]'(by omega)).setWidth 32)
  else none

/-- The window parts the control column reads (R102 step 7). -/
def State.ownReadable (s : State) (a : Nat) : Bool :=
  match placeOf a with
  | .slice i p => i == s.cur && p != .hole && p != .acc
  | _ => false
def State.ownWritable (s : State) (a : Nat) : Bool :=
  match placeOf a with
  | .slice i p => i == s.cur && p != .hole && p != .acc && p != .code
  | _ => false

/-- A byte range touches bytes of an active channel's region at or above its LEVEL (R14, R15). -/
def Channel.above (c : Channel) (a n : Nat) : Bool :=
  c.act && c.region.any fun (ra, pos, len) =>
    let lo := max a ra
    let hi := min (a + n) (ra + len)
    lo < hi && c.level < pos + (hi - ra)

def Core.aboveMark (c : Core) (a n : Nat) : Bool := c.wm.toList.any fun ch => ch.above a n

/-- A byte range of a region that `.expect` declares holds another sequence tag (R15, R274). -/
def State.tagWrong (s : State) (a n : Nat) : Bool :=
  s.core.bnd.regions.any fun r =>
    r.kind.isNone && (granule a ≤ a) &&
      (List.range ((a + n + 127 - granule a) / 128)).any fun k =>
        let g := granule a + 128 * k
        max a (max g r.base.toNat) < min (a + n) (min (g + 128) (r.base.toNat + r.len)) && s.mem.seqTag g != r.tag

/-- The unit of the first damaged byte of a range (R331). -/
def Mem.firstDamage (m : Mem) (a n : Nat) : Option Nat :=
  if m.poison.isEmpty && m.ue.isEmpty then none
  else ((List.range n).find? fun i => m.damaged (a + i)).map fun i => unitOf (a + i)

/-- Core `i` admits an access of world `w` now (R234, R342, R357, R403). -/
def State.admits (s : State) (w i : Nat) : Bool :=
  let scanFree := match getKey s.disp.scans i with
    | some x => x.state == 0
    | none => true
  if !scanFree then false
  else if w == 257 then true
  else
    let c := s.getCore i
    let j := s.jetton c.bnd.jetton
    c.iss.status != .free && c.sys.world.toNat == w && j.world == w && (!j.evicted || j.state == .binding) &&
      (j.state == .binding || j.state == .running || j.state == .sealing || j.state == .sealed)

/-- A scan holds the core whose window a memory address lies in (R357). -/
def State.heldAway (s : State) (a : Nat) : Bool :=
  match placeOf a with
  | .slice i p => p != .hole && !s.admits 257 i
  | _ => false

/-- R234 on a physical address of the global SRAM space, for a read or a write by a copy or a home operation. -/
def State.windowOk (s : State) (w a : Nat) (write fetch : Bool) : Bool :=
  match placeOf a with
  | .slice i p =>
    p != .hole && s.admits w i &&
      (!write || (match p with
        | .code => fetch
        | .deep q => !(s.getCore i).shared.getLsbD q || w == 257
        | _ => true))
  | _ => false

end Sys2Proof.Machine
end

