-- ==== Sys2Proof/Machine/Flow.lean ====
section
/-!
DEFINITION. Branches, jumps, calls, loops and launches (R33 to R39, R109 to R113).
-/
namespace Sys2Proof.Machine

open Sys2Proof

/-- A flow word: refused in a stub and as a loop's end word (R39, R336), else what it does. -/
def State.flow (s : State) (f : State → State) : Result :=
  match s.flowBlocked with
  | some det => .next (s.ctlFault .ill 0 det)
  | none => .next (f s)

/-- `$` plus a word offset, where it lies inside the code space (R73). -/
def State.target (s : State) (off : BitVec 24) : Option Nat :=
  let t : Int := (s.core.iss.pc : Int) + off.toInt
  if 0 ≤ t && t ≤ 0xFFF then some t.toNat else none

/-- A taken transfer by offset; a target outside the code space raises ILL in the issue cycle (R73). -/
def State.branchTo (s : State) (off : BitVec 24) : State :=
  match s.target off with
  | some t => s.jumpTo t false
  | none => s.ctlFault .ill 0

def execB (k : KReg) (sense : Bool) (off : BitVec 24) (s : State) : Result :=
  s.flow fun s => if s.kreg k != sense then s.branchTo off else s.advance 1

def execJ (off : BitVec 24) (s : State) : Result := s.flow fun s => s.branchTo off

/-- R110. -/
def State.indirect (s : State) (a : W64) (keep : Bool) : State :=
  if 0xFFF < a.toNat then s.ctlFault .ill 0 else s.jumpTo a.toNat keep

def execJr (a : SReg) (s : State) : Result := s.flow fun s => s.indirect (s.sreg a) false
def execRet (a : SReg) (s : State) : Result := s.flow fun s => s.indirect (s.sreg a) true

/-- R111. -/
def execJf (tag : BitVec 16) (target : BitVec 12) (s : State) : Result :=
  s.flow fun s =>
    let g := s.core.bnd.segs[(target.extractLsb' 8 4).toNat]'(target.extractLsb' 8 4).isLt
    if !g.present then s.ctlFault .segmiss (target.setWidth 64)
    else if g.tag != tag then s.ctlFault .segmiss (target.setWidth 64) 7
    else s.jumpTo target.toNat false

def execCall (d : SReg) (off : BitVec 24) (s : State) : Result :=
  s.flow fun s =>
    match s.target off with
    | some t => (s.put 1 (.s d (BitVec.ofNat 64 (s.core.iss.pc + 1)))).jumpTo t true
    | none => s.ctlFault .ill 0

/-! ### Loops -/

/-- R33 to R37: push level `lvl` with count `n`, or treat a zero-trip loop. -/
def State.pushLoop (s : State) (lvl : BitVec 2) (n : W32) (off : BitVec 24) : State :=
  let pc := s.core.iss.pc
  let loops := s.core.ctl.loops
  let stop := (pc : Int) + off.toInt
  if loops.any (·.lvl == lvl) || off.toInt < 1 || 0xFFF < stop
      || (match loops with | l :: _ => (l.stop : Int) < stop | [] => false) then s.ctlFault .ill 0
  else if n == 0 then
    let (loops, lc, next) := loopEnd loops s.core.ctl.lc stop.toNat
    (s.modCtl fun r => { r with loops := loops, lc := lc }).modIss fun x => { x with pc := next, next := s.tb + 1 }
  else
    (s.modCtl fun r => { r with loops := ⟨lvl, pc + 1, stop.toNat⟩ :: loops, lc := r.lc.set lvl.toNat n lvl.isLt }).modIss
      fun x => { x with pc := pc + 1, next := s.tb + 1 }

def execLoop (lvl : BitVec 2) (count : BitVec 13) (off : BitVec 24) (s : State) : Result :=
  s.flow fun s => s.pushLoop lvl (count.setWidth 32) off

def execLoopr (lvl : BitVec 2) (reg : BitVec 13) (off : BitVec 24) (s : State) : Result :=
  s.flow fun s =>
    match s.loopCount reg with
    | some n => s.pushLoop lvl n off
    | none => s.ctlFault .ill 0

/-! ### Launches (R113) -/

def Core.col (c : Core) : Col → Column
  | .vector => c.iss.vec
  | .matrix => c.iss.mat
  | .table => c.iss.tab

def State.modCol (s : State) (col : Col) (f : Column → Column) : State :=
  s.modIss fun x =>
    match col with
    | .vector => { x with vec := f x.vec }
    | .matrix => { x with mat := f x.mat }
    | .table => { x with tab := f x.tab }

/-- Arm a launch (R26, R27, R113). From D on a drained core saves it instead of starting it (R337). -/
def State.launch (s : State) (col : Col) (addr cnt : BitVec 8) (c : CReg) (t : TimeArg) : State :=
  let start := s.timeOf t
  if s.core.fw.isSome || !launchFits addr cnt then s.ctlFault .ill 0
  else if start < s.tb + 2 then s.ctlFault .slip 0 9
  else if 4 ≤ (s.core.col col).armed.length then s.ctlFault .slip 0 10
  else
    (s.modCol col fun x => { x with armed := x.armed ++ [{
      first := addr.toNat * 16, count := cnt.toNat + 1, cap := s.creg c, start := start,
      pc := BitVec.ofNat 12 s.core.iss.pc, issue := s.tb, saved := false }] }).advance 1

def execVrun (addr cnt : BitVec 8) (c : CReg) (t : TimeArg) (s : State) : Result := .next (s.launch .vector addr cnt c t)
def execMrun (addr cnt : BitVec 8) (c : CReg) (t : TimeArg) (s : State) : Result := .next (s.launch .matrix addr cnt c t)
def execTrun (addr cnt : BitVec 8) (c : CReg) (t : TimeArg) (s : State) : Result := .next (s.launch .table addr cnt c t)

end Sys2Proof.Machine
end

