-- ==== Sys2Proof/Machine/Fn.lean ====
section
/-!
DEFINITION. The functions 1/x, 1/√x, 2^x and log2 x, exact to far below half a unit of any format, then rounded once
(R136). A value that is not exact is held as the odd double of its floor, so that the one rounding sees it strictly
between two units; 2^x for x that is no integer, and log2 x for x that is no power of two, are irrational. That none of them
comes within the last place they are computed to (2^-304) of a rounding boundary of a 24-bit result is UNVERIFIED
(notes/assumptions/116.md).
-/
namespace Sys2Proof.Machine

/-- ⌊√n⌋, bit by bit from bit `k - 1` of the root. -/
def isqrt (n : Nat) (k : Nat) (acc : Nat) : Nat :=
  match k with
  | 0 => acc
  | k + 1 =>
    let t := acc + 2 ^ k
    isqrt n k (if t * t ≤ n then t else acc)

/-- Bits after the binary point of the fixed-point sums below. -/
def fixBits : Nat := 320

/-- The sum of z^(2k+1)/(2k+1) over `n` terms from the odd number `j`, in fixed point, where `p` is z^j and `z2` is z². -/
def atanhSum (z2 : Nat) (n j p acc : Nat) : Nat :=
  match n with
  | 0 => acc
  | n + 1 => atanhSum z2 n (j + 2) (p * z2 / 2 ^ fixBits) (acc + p / j)

/-- ln(a/b) in fixed point for b ≤ a ≤ 2b: 2 artanh((a - b)/(a + b)). -/
def lnFix (a b : Nat) : Nat :=
  let z := (a - b) * 2 ^ fixBits / (a + b)
  2 * atanhSum (z * z / 2 ^ fixBits) 110 1 z 0

/-- ln 2 in fixed point. -/
def ln2Fix : Nat := lnFix 2 1

/-- The sum of t^k/k! over `n` terms from k = `k`, in fixed point, where `p` is t^(k-1)/(k-1)!. -/
def expSum (t : Nat) (n k p acc : Nat) : Nat :=
  match n with
  | 0 => acc
  | n + 1 =>
    let p := p * t / 2 ^ fixBits / k
    expSum t n (k + 1) p (acc + p)

/-- The odd double of a truncated fixed-point magnitude whose last 16 bits are noise. -/
def jam (fix : Nat) : Nat := 2 * (fix / 2 ^ 16) + 1
/-- The exponent of `jam`. -/
def jamExp : Int := 16 - (fixBits : Int) - 1

/-- 1/x of Table 5.4. -/
def fnRcp : FVal → FVal
  | .nan _ => .nan false
  | .inf n => .fin n 0 0
  | .fin n m e =>
    if m == 0 then .inf n
    else
      let k := Nat.log2 m + 64
      let q := 2 ^ k / m
      .fin n (2 * q + (if q * m == 2 ^ k then 0 else 1)) (-e - k - 1)

/-- 1/√x of Table 5.4. -/
def fnRsq : FVal → FVal
  | .nan _ => .nan false
  | .inf n => if n then .nan false else .fin false 0 0
  | .fin n m e =>
    if m == 0 then .inf n
    else if n then .nan false
    else
      let m' := if e % 2 == 0 then m else 2 * m
      let e' := if e % 2 == 0 then e else e - 1
      let k := Nat.log2 m' + 64
      let q := isqrt (2 ^ (2 * k) / m') (k + 1) 0
      .fin false (2 * q + (if q * q * m' == 2 ^ (2 * k) then 0 else 1)) (-(e' / 2) - k - 1)

/-- 2^x of Table 5.4. An exponent outside ±20,000 gives the same overflow or underflow in every format. -/
def fnExp2 : FVal → FVal
  | .nan _ => .nan false
  | .inf n => if n then .fin false 0 0 else .inf false
  | .fin n m e =>
    if m == 0 then .fin false 1 0
    else if 0 ≤ e || Nat.log2 m + e ≥ 20 then
      let big : Int := if Nat.log2 m + e ≥ 15 then 20000 else (m : Int) * 2 ^ e.toNat
      if big == 20000 then .fin false 1 (if n then -20000 else 20000) else .fin false 1 (if n then -big else big)
    else
      let sh := (-e).toNat
      let whole := m / 2 ^ sh
      let frac := m % 2 ^ sh
      if frac == 0 then .fin false 1 (if n then -(whole : Int) else whole)
      else
        -- x = i + f/2^sh with 0 < f/2^sh < 1
        let i : Int := if n then -(whole : Int) - 1 else whole
        let f := if n then 2 ^ sh - frac else frac
        let t := ln2Fix * f / 2 ^ sh
        .fin false (jam (expSum t 80 1 (2 ^ fixBits) (2 ^ fixBits))) (jamExp + i)

/-- log2 x of Table 5.4. -/
def fnLg2 : FVal → FVal
  | .nan _ => .nan false
  | .inf n => if n then .nan false else .inf false
  | .fin n m e =>
    if m == 0 then .inf true
    else if n then .nan false
    else
      let l := Nat.log2 m
      let ex : Int := l + e
      if m == 2 ^ l then .fin (ex < 0) ex.natAbs 0
      else
        let v : Int := ex * 2 ^ fixBits + lnFix m (2 ^ l) * 2 ^ fixBits / ln2Fix
        .fin (v < 0) (jam v.natAbs) jamExp

end Sys2Proof.Machine
end

