-- ==== Sys2Proof/Machine/Column.lean ====
section
/-!
DEFINITION. What every function-column operation shares: operand addresses (R79, R121), the checks of R124 in order with
the ports of R125 and R156, reads of rows, results, and the advance of the stream (R79, R80, R28).
-/
namespace Sys2Proof.Machine

open Sys2Proof

/-- Why an operation stops: cause, the address it reports, the detail code, the unit found uncorrectable, and the bank rows
that the operands checked before the failing one read and write in this cycle (R124). -/
structure Halt where
  cause : Cause
  addr : W64
  det : Nat
  damage : Option Nat
  reads : List (Col × Nat)
  writes : List (Col × Nat)
deriving DecidableEq, Repr

/-- A stop in a state whose ports are taken so far. -/
def State.halt (s : State) (c : Cause) (a : W64) (det : Nat) (damage : Option Nat) : Halt :=
  ⟨c, a, det, damage, s.core.iss.ports, s.core.iss.wports⟩

/-- The outcome of a part of an operation. -/
abbrev Part? (α : Type) := Except Halt α

/-! ### Types, formats and masks (R82, R120, R122) -/

def VType.fmt : VType → Fmt
  | .fp32 => .fp32 | .bf16 => .bf16 | .fp16 => .fp16 | .int32 => .int32

def HType.fmt : HType → Fmt
  | .bf16 => .bf16 | .fp16 => .fp16

def BlockF.mantBits : BlockF → Nat
  | .bx8 => 8 | .bx4 => 4

/-- Formats a typed operand admits (R122). -/
def VType.admits (t : VType) : List Fmt := [.raw, VType.fmt t]

/-- All 128 bytes of a row. -/
def fullRow : BitVec 128 := BitVec.allOnes 128

/-- The bytes [lo, lo + n) of a row. -/
def rowSpan (lo n : Nat) : BitVec 128 := BitVec.ofNat 128 ((2 ^ n - 1) * 2 ^ lo)

/-- The bytes of the lanes or elements that a mask selects (R120). -/
def selBytes (m : W64) (g : Gran) : BitVec 128 :=
  match g with
  | .lane => BitVec.ofNat 128 ((List.range 32).foldl (fun a i => if m.getLsbD i then a + 15 * 2 ^ (4 * i) else a) 0)
  | .elem => BitVec.ofNat 128 ((List.range 64).foldl (fun a i => if m.getLsbD i then a + 3 * 2 ^ (2 * i) else a) 0)

/-- The bytes of some 32-bit words of a row. -/
def wordBytes (ws : List Nat) : BitVec 128 := ws.foldl (fun (a : BitVec 128) w => a ||| rowSpan (4 * (w % 32)) 4) 0

/-! ### Registers -/

def State.vreg (s : State) (n : VReg) : Row := s.core.vec.v[n.toNat]'n.isLt
def State.mreg (s : State) (n : MReg) : W64 := s.core.vec.m[n.toNat]'n.isLt

/-! ### Addresses and formats -/

/-- The row at cursor + 128 × `row` + 128 × ρ (R79, R133). -/
def Stream.rowAt (st : Stream) (row : Nat) : W64 := st.cap.cur + BitVec.ofNat 64 (128 * row) + BitVec.ofInt 64 (128 * st.rho)
/-- The row that bank field `n` names (R121, R152). -/
def Stream.field (st : Stream) (n : Nat) : W64 := st.rowAt (32 * n)

/-- The format and rounding of the bank that holds an address of the core in focus (Table 1.9). -/
def State.bankFmt (s : State) (a : Nat) : Fmt := Fmt.of (((s.bankReg a).getD 0).extractLsb' 0 4)
def State.bankRnd (s : State) (a : Nat) : Rnd := rndOf (((s.bankReg a).getD 0).extractLsb' 8 3)

/-- A bank of the core in focus. -/
def State.ownBank (s : State) (a : Nat) : Bool :=
  match placeOf a with
  | .slice i (.bank _) => i == s.cur
  | _ => false

/-! ### The checks of R124 -/

/-- Steps 1 to 6 for the accessed bytes of a row; `fmts` are the formats admitted. -/
def State.rowStop (s : State) (st : Stream) (a : Nat) (bytes : BitVec 128) (need : Nat) (fmts : Option (List Fmt)) :
    Option (Cause × Nat) :=
  let on := (List.range 128).filter fun k => bytes.getLsbD k
  let bounds := on.all fun k => st.cap.inBounds (a + k) 1
  match st.cap.authority s.myWorld need with
  | some f => some (f, 0)
  | none =>
    if !bounds then some (.capbnd, 0)
    else if a % 128 != 0 then some (.align, 0)
    else if !on.isEmpty && !s.ownBank a then some (.capperm, 0)
    else
      match fmts with
      | some l => if s.ownBank a && !l.contains (s.bankFmt a) then some (.ill, 2) else none
      | none => none

/-- Step 7: a byte read lies above a watermark, or its sequence tag has not landed (R15). -/
def State.lateRead (s : State) (a : Nat) (bytes : BitVec 128) : Option Nat :=
  let on := (List.range 128).filter fun k => bytes.getLsbD k
  if s.core.sys.dbg then none
  else if s.core.wm.toList.any (·.act) && on.any fun k => s.core.aboveMark (a + k) 1 then some 6
  else if !s.core.bnd.regions.isEmpty && on.any fun k => s.tagWrong (a + k) 1 then some 5
  else none

/-- The core and bank of a row address. -/
def bankOf (a : Nat) : Nat := a / 0x1000

/-- A read of a row: steps 1 to 8, and its port taken (R20, R156). -/
def State.checkRead (s : State) (st : Stream) (col : Col) (a : W64) (bytes : BitVec 128) (fmts : Option (List Fmt)) :
    Part? State :=
  match s.rowStop st a.toNat bytes permRead fmts with
  | some (f, det) => .error (s.halt f a det none)
  | none =>
    match s.lateRead a.toNat bytes with
    | some det => .error (s.halt .timing a det none)
    | none =>
      if s.core.iss.ports.any fun (c, r) => c == col && bankOf r == bankOf a.toNat && r != a.toNat then
        .error (s.halt .slip a 12 none)
      else .ok (s.modIss fun x => { x with ports := x.ports ++ [(col, a.toNat)] })

/-- A write of a row at the end of cycle `due`: steps 1 to 6 and 8 (R125), and its port taken where that is this cycle. -/
def State.checkWrite (s : State) (st : Stream) (col : Col) (a : W64) (bytes : BitVec 128) (fmts : Option (List Fmt))
    (due : Nat) : Part? State :=
  match s.rowStop st a.toNat bytes permWrite fmts with
  | some (f, det) => .error (s.halt f a det none)
  | none =>
    if s.core.iss.bankPend.any fun b => b.col == col && b.due == due && bankOf b.addr == bankOf a.toNat && b.addr != a.toNat
    then .error (s.halt .slip a 12 none)
    else .ok (if due == s.tb then s.modIss fun x => { x with wports := x.wports ++ [(col, a.toNat)] } else s)

/-- The bytes of a memory read by a column, where none is uncorrectable (R331). -/
def State.fetchBytes (s : State) (a n : Nat) : Part? (List Byte) :=
  match s.mem.firstDamage a n with
  | some u => .error (s.halt .ucdata (BitVec.ofNat 64 u) 0 (some u))
  | none => .ok (s.mem.read a n)

/-- Bytes of table memory or accumulator SRAM, which a region may bind too (R15, R273, R274). -/
def State.fetchBound (s : State) (a n : Nat) : Part? (List Byte) :=
  match s.lateRead a (rowSpan 0 n) with
  | some det => .error (s.halt .timing (BitVec.ofNat 64 a) det none)
  | none => s.fetchBytes a n

/-- A row whose `bytes` are read. -/
def State.fetchRow (s : State) (a : W64) (bytes : BitVec 128) : Part? Row :=
  if bytes == 0 then .ok 0 else (s.fetchBytes a.toNat 128).map rowOfBytes

/-! ### Results -/

/-- A bank row written at the end of cycle `due`. -/
def State.putRow (s : State) (st : Stream) (col : Col) (a : W64) (row : Row) (bytes : BitVec 128) (due : Nat) : State :=
  s.modIss fun x => { x with
    bankPend := x.bankPend ++ [⟨due, a.toNat, row, bytes, col, BitVec.ofNat 12 st.addr, st.opIssue⟩] }

/-! ### The stream -/

/-- Row `i` of the shadow latch, as indices and codes. -/
def State.shadowRow (s : State) (i : Nat) : List Row :=
  let r := ((if s.core.mat.sel then s.core.mat.wl0 else s.core.mat.wl1)[i]?).getD LatchRow.reset
  [r.idx, r.codes.setWidth 1024]

/-- Give the shadow latch back the rows that a load had overwritten. -/
def State.restoreRows (s : State) (old : List Row) : State :=
  s.modC fun c => (List.range (old.length / 2)).foldl (fun (c : Core) i =>
    c.apply (.latch (!c.mat.sel) i ⟨old.getD (2 * i) 0, (old.getD (2 * i + 1) 0).setWidth 32⟩)) c

/-- An operation that stops inside its occupancy has no effect and goes no further (R155). -/
def State.undo (s : State) (col : Col) (st : Stream) : State :=
  if st.cyc == 0 then s
  else
    let s := match st.cur with
      | some (.mwld _ _ _) => s.restoreRows st.latched
      | _ => s
    s.modCol col fun c => { c with run := some { st with cyc := 0, latched := [] } }

/-- A fault of an operation: the operation has no effect. In a cycle after the first of an occupancy it is deferred (R321).
An operation that runs on after its task stopped just ends. -/
def State.colFault (s : State) (col : Col) (st : Stream) (h : Halt) : State :=
  let s := match h.damage with
    | some u => s.modMem (·.markPoison u)
    | none => s
  let s := (s.undo col st).modIss fun x => { x with ports := h.reads, wports := h.writes }
  if s.core.iss.status.live then
    s.raise ⟨h.cause, BitVec.ofNat 12 st.addr, h.addr, finfo 0 (colSrc col) (st.cyc != 0) h.det (s.tb - st.opIssue)⟩
  else s.modCol col fun c => { c with run := none }

/-- The operation's last cycle: ρ advances, and the next operation, word or nothing follows (R79, R80). `due` is the last
cycle at whose end the operation writes. -/
def Stream.done (st : Stream) (stp : Stp) (now due : Nat) : Stream :=
  let st := { st with rho := st.rho + stp.step.toInt, next := now + 1, cyc := 0, latched := []
                      visible := max st.visible (max (now + 1) (due + 1)) }
  if st.op < stp.rep.toNat then { st with op := st.op + 1 }
  else { st with op := 0, cur := none, addr := st.addr + 1, left := st.left - 1 }

/-- The stream goes on, or ends with its event in the cycle in which every result is visible (R28). -/
def State.setStream (s : State) (col : Col) (st : Stream) : State :=
  s.modCol col fun c =>
    if st.left == 0 then { c with run := none, ends := c.ends ++ [st.visible] } else { c with run := some st }

def State.opDone (s : State) (col : Col) (st : Stream) (stp : Stp) (due : Nat) : State :=
  s.setStream col (st.done stp s.tb due)

/-- An operation of a column's running stream: it faults with no effect, or has its effect and the stream advances. With no
stream running there is no operation. -/
def State.operate (s : State) (col : Col) (stp : Stp) (due : Nat) (f : Stream → Part? State) : Result :=
  match (s.core.col col).run with
  | none => .next s
  | some st =>
    match f st with
    | .error h => .next (s.colFault col st h)
    | .ok t => .next (t.opDone col st stp due)

/-! ### Starts and ends of streams (R26 to R28) -/

/-- A launch of a column whose start cycle has come. -/
def Column.startNow (c : Column) (now : Nat) : Option Launch := c.armed.find? fun l => l.start == now
/-- The stream that a launch starts. -/
def Launch.stream (l : Launch) : Stream :=
  { addr := l.first, left := l.count, cur := none, op := 0, rho := 0, cap := l.cap, next := l.start, cyc := 0, opIssue := l.start
    issue := l.issue, visible := l.start, latched := [] }
/-- The first of the armed launches of a start cycle is armed no more. -/
def dropLaunch (l : List Launch) (now : Nat) : List Launch :=
  match l with
  | [] => []
  | x :: r => if x.start == now then r else x :: dropLaunch r now

/-- STREAM_START: the launch whose start cycle this is; SLIP while the column issues an earlier stream. -/
def execStreamStart (core : Nat) (col : Col) (s : State) : Result :=
  let t := s.focus core
  .next (match (t.core.col col).startNow s.tb with
    | none => s
    | some l =>
      let t := t.modCol col fun c => { c with armed := dropLaunch c.armed s.tb }
      if (t.core.col col).run.isSome then
        t.raise (if l.saved then ⟨.slip, BitVec.ofNat 12 l.first, 0, finfo 0 (colSrc col) false 11 0⟩
          else ⟨.slip, l.pc, 0, finfo 0 (colSrc col) false 11 (s.tb - l.issue)⟩)
      else t.modCol col fun c => { c with run := some l.stream })

/-- STREAM_END_EVENT: every result of a stream is visible from this cycle on; the column's sticky flag is set (R230). -/
def execStreamEndEvent (core : Nat) (col : Col) (s : State) : Result :=
  .next ((s.focus core).modCol col fun c =>
    { c with ends := c.ends.filter (s.tb < ·), flag := c.flag || c.ends.any (· ≤ s.tb) })

end Sys2Proof.Machine
end

