-- ==== Sys2Proof/Machine/Translate.lean ====
section
/-!
DEFINITION. From world addresses to locations (R232 to R245, R396), the HBM lines and their keys (R253), dirty tracking
(R242) and the frame slots an access waits for (R394, R395).
-/
namespace Sys2Proof.Machine

open Sys2Proof

/-- The attributes of a translation (Tables 10.4 and 10.5). -/
structure Attr where
  ah : Nat
  sa : Bool
  w : Bool
  r : Bool
  g : Bool
  pgi : Nat
deriving DecidableEq, Repr

/-- What a translation ends in. -/
inductive Trans where
  /-- A location; `walked` when a page-table entry gave it (R240). -/
  | ok (pa : Nat) (at_ : Attr) (walked : Bool)
  | xlate
  | refused
  /-- A table line that fails verification (R237). -/
  | uc
deriving DecidableEq, Repr

/-- The attributes of the global SRAM space, where identity holds (R233, R243). -/
def sramAttr : Attr := ⟨1, false, true, true, false, 0⟩

/-- The range entry that an address hits first (R236). -/
def rangeHit (rs : List (BitVec 192)) (va : Nat) : Option (BitVec 192) :=
  rs.find? fun e =>
    e.getLsbD 11 && (e.extractLsb' 12 52).toNat * 4096 ≤ va && va ≤ (e.extractLsb' 76 52).toNat * 4096 + 4095

/-- The page walk (R237), from level `lvl` down: the entry found and the size of its page. -/
def walk (s : State) (world tbl va lvl : Nat) : Except Trans (BitVec 64 × Nat) :=
  let ea := tbl + 8 * natBits va (12 + 9 * lvl) 9
  if placeOf ea == .hbm && !s.mem.lineOk world ea then .error .uc
  else
    let e : BitVec 64 := BitVec.ofNat 64 (s.mem.readNat ea 8)
    let leaf := e.getLsbD 62
    if !e.getLsbD 63 || (lvl == 3 && leaf) then .error .xlate
    else
      match lvl with
      | 0 => .ok (e, if e.getLsbD 61 then 2 ^ 16 else 2 ^ 12)
      | l + 1 =>
        if leaf then .ok (e, 2 ^ (12 + 9 * lvl))
        else if natBits e.toNat 40 2 != 0 then .error .xlate
        else walk s world (hbmBase + natBits e.toNat 12 28 * 4096) va l

/-- A frame of HBM that the world holds (R396); the firmware world holds all. -/
def State.holdsFrame (s : State) (world pa : Nat) : Bool :=
  world == 257 || (match s.world? world with
    | some w => w.frames.contains (pa / 0x200000 * 0x200000)
    | none => false)

/-- What a translated location must be (R238, R396). -/
def State.located (s : State) (world pa : Nat) (a : Attr) (walked : Bool) : Trans :=
  match placeOf pa with
  | .slice i p => if p != .hole && s.admits world i then .ok pa a walked else .refused
  | .hbm => if s.holdsFrame world pa then .ok pa a walked else .xlate
  | .none => .xlate

/-- Translate a world address (R232 to R238). -/
def State.translate (s : State) (world : Nat) (va : W64) : Trans :=
  let a := va.toNat
  if 2 ^ 48 ≤ a then .refused
  else if inSram a then .ok a sramAttr false
  else
    match s.world? world with
    | none => .xlate
    | some w =>
      match rangeHit w.ranges.toList a with
      | some e =>
        let pa := (a + natBits e.toNat 140 52 * 4096) % 2 ^ 64
        s.located world pa ⟨natBits e.toNat 8 2, e.getLsbD 10, e.getLsbD 7, e.getLsbD 6, e.getLsbD 5, 0⟩ false
      | none =>
        match walk s world (w.ptroot.toNat / 4096 * 4096) a 3 with
        | .error t => t
        | .ok (e, size) =>
          let rgn := natBits e.toNat 40 2
          if 2 ≤ rgn then .xlate
          else
            let f := natBits e.toNat 12 28 * 4096
            let pa := (if rgn == 0 then hbmBase else sramBase) + (f - f % size) + a % size
            s.located world pa ⟨natBits e.toNat 59 2, e.getLsbD 58, e.getLsbD 57, e.getLsbD 56, e.getLsbD 55,
              natBits e.toNat 42 13⟩ true

/-- The translation caches of a master hold the page (R240): core `i`'s home operations are master `i`, the copies of engine
`e` master 8192 + e. -/
def State.cachedPage (s : State) (master world va : Nat) : Bool :=
  s.disp.tlb.any fun (w, p, m) => w == world && p == va / 4096 && m == master
def State.cachePage (s : State) (master world va : Nat) : State :=
  if s.cachedPage master world va then s else s.modDisp fun d => { d with tlb := d.tlb ++ [(world, va / 4096, master)] }

/-- An access by a master must walk the tables first (R240). -/
def State.walkNeeded (s : State) (master world va : Nat) : Bool :=
  match s.translate world (BitVec.ofNat 64 va) with
  | .ok _ _ true => !s.cachedPage master world va
  | _ => false

/-- The key an HBM access uses (R253). -/
def Attr.key (a : Attr) (world : Nat) : Nat := if a.g then 257 else world

/-- Checks after translation: R, W and G (R238). -/
def Attr.admits (a : Attr) (world : Nat) (write : Bool) : Bool :=
  if write then a.w && !(a.g && world < 256) else a.r

/-- The page group's owner admits a write of group `gid` (R245). -/
def State.ownerOk (s : State) (world : Nat) (gid : BitVec 16) (a : Attr) : Bool :=
  a.pgi == 0 || (match s.world? world with
    | none => false
    | some w =>
      let d := s.mem.readNat (w.pgtbase.toNat / 65536 * 65536 + 8 * a.pgi) 8
      d % 8 == 0 && s.windowOk world d true false && (match placeOf d with | .slice _ .acc => true | _ => false)
        && s.mem.readNat d 2 == gid.toNat)

/-! ### HBM lines (R253) -/

/-- The pieces of a byte range within 256-byte lines. -/
def lineSplit (a : Nat) (bs : List Byte) (fuel : Nat) : List (Nat × List Byte) :=
  match fuel with
  | 0 => []
  | fuel + 1 =>
    if bs.isEmpty then []
    else
      let k := 256 - a % 256
      (a, bs.take k) :: lineSplit (a + k) (bs.drop k) fuel

/-- A page of a world's tables, from the table at `tbl` of level `lvl` down (R237). -/
def Mem.inTables (m : Mem) (world page tbl lvl : Nat) : Bool :=
  placeOf tbl == .hbm && (tbl == page ||
    match lvl with
    | 0 => false
    | l + 1 => (List.range 512).any fun k =>
      let e := m.readNat (tbl + 8 * k) 8
      m.lineOk world (tbl + 8 * k) && natBits e 62 2 == 2 && natBits e 40 2 == 0
        && m.inTables world page (hbmBase + natBits e 12 28 * 4096) l)

/-- The key of a line for a master of key `key`: the firmware world's accesses to page-table lines go under the key of the
world whose tables they are (R237, notes/assumptions/117.md). -/
def State.lineKey (s : State) (key pa : Nat) : Nat :=
  if key != 257 then key
  else
    match s.worlds.find? fun w => s.mem.inTables w.wid (pa / 4096 * 4096) (w.ptroot.toNat / 4096 * 4096) 3 with
    | some w => w.wid
    | none => 257

/-- Write part or all of one line under a key. `false` when a part-line write meets a line that fails: the line is then
poisoned and nothing is written. -/
def Mem.lineWrite (m : Mem) (key a : Nat) (bs : List Byte) : Bool × Mem :=
  if bs.length == 256 then (true, { m.write a bs with lines := setKey m.lines (lineOf a) ⟨key, false⟩ })
  else if m.lineOk key a then (true, m.write a bs)
  else (false, { m with lines := setKey m.lines (lineOf a) ⟨key, true⟩ })

/-- The first line of a range that fails verification under a key. -/
def Mem.badLine (m : Mem) (key a n : Nat) : Option Nat :=
  ((List.range ((a % 256 + n + 255) / 256)).find? fun k => !m.lineOk key (lineOf a + 256 * k)).map fun k => lineOf a + 256 * k

/-- Set the dirty bit of an HBM address (R242). -/
def State.dirty (s : State) (world pa : Nat) : State :=
  match s.world? world with
  | some w =>
    if w.dirtyen && placeOf pa == .hbm then
      let i := (pa - hbmBase) / 65536
      let b := w.dirtybase.toNat / 0x200000 * 0x200000 + i / 8
      s.modMem fun m =>
        if m.lineOk 257 b then m.set b (m.get b ||| BitVec.ofNat 8 (2 ^ (i % 8)))
        else { m.write (lineOf b) (List.replicate 256 0xFF) with lines := setKey m.lines (lineOf b) ⟨257, false⟩ }
    else s
  | none => s

/-! ### Frame slots (R394, R395) -/

/-- The first cycle at or after `c` whose slot is in the mask. -/
def slotFrom (mask : BitVec 1024) (c fuel : Nat) : Option Nat :=
  match fuel with
  | 0 => none
  | fuel + 1 => if mask.getLsbD (c % 1024) then some c else slotFrom mask (c + 1) fuel

/-- HBM slots of no world, and the firmware's own (R394). -/
def State.firmwareSlots (s : State) : BitVec 1024 :=
  let owned := s.worlds.foldl (fun m w => w.hbmSlots.toList.foldl (· ||| ·) m) 0
  BitVec.ofNat 1024 ((List.range 1024).foldl (fun a k =>
    if k % 16 == 8 || (k % 16 != 0 && !owned.getLsbD k) then a + 2 ^ k else a) 0)

/-- The HBM slots of a world's class; classes 4 to 15 act as 0 (R395). -/
def State.hbmMask (s : State) (world cls : Nat) : BitVec 1024 :=
  if world == 257 then s.firmwareSlots
  else
    match s.world? world with
    | some w => (w.hbmSlots.toList[if cls < 4 then cls else 0]?).getD 0
    | none => 0

/-- The next HBM slot of a world at or after a cycle. -/
def State.hbmSlot (s : State) (world cls c : Nat) : Option Nat := slotFrom (s.hbmMask world cls) c 1024

/-- The bandwidth class of the jetton that a core runs for. -/
def State.classOf (s : State) (core : Nat) : Nat := (s.jetton (s.getCore core).bnd.jetton).bwc.toNat

/-! ### The prefix region (Tables 12.1 and 12.3) -/

def Slot.reset : Slot := ⟨0, 0, false, false, false, 0, 0⟩

/-- A world's prefix record after reset. -/
def Prefix.reset (w : Nat) : Prefix := ⟨w, 0, 0, 0, 0, 0, 0, 0, [], [], []⟩

def State.prefix_ (s : State) (w : Nat) : Prefix := (s.eng.prefixes.find? (·.world == w)).getD (Prefix.reset w)

/-- Replace a world's prefix record. -/
def State.setPrefix (s : State) (p : Prefix) : State :=
  let set (l : List Prefix) : List Prefix :=
    if l.any (·.world == p.world) then l.map fun q => if q.world == p.world then p else q else l ++ [p]
  s.modEng fun e => { e with prefixes := set e.prefixes }

/-- A slot's entry; one that nothing has changed since reset is not listed (R295). -/
def Prefix.slot (p : Prefix) (j : Nat) : Slot := (getKey p.slots j).getD Slot.reset
def Prefix.setSlot (p : Prefix) (j : Nat) (x : Slot) : Prefix := { p with slots := setKey p.slots j x }

/-- World address of a slot (R293), and its physical address. -/
def Prefix.slotVa (p : Prefix) (j : Nat) : Nat := p.pbase.toNat / 16384 * 16384 + 16384 * j
def Prefix.slotPa (p : Prefix) (j : Nat) : Nat := p.pphys.toNat / 16384 * 16384 + 16384 * j

/-- A slot's entry as 128 bits (Table 12.3). -/
def Slot.bits (x : Slot) : Nat :=
  x.age % 2 ^ 64 * 2 ^ 64 + x.ref * 2 ^ 48 + x.alloc.toNat * 2 ^ 47 + x.idx.toNat * 2 ^ 46 + x.dmg.toNat * 2 ^ 45
    + x.way * 2 ^ 42 + x.bucket * 2 ^ 20

/-- A prefix record as 512 bits (Table 12.1); USED and CACHED count its slots. -/
def Prefix.bits (p : Prefix) : Nat :=
  let used := (p.slots.filter fun (_, x) => x.alloc).length
  let cached := (p.slots.filter fun (_, x) => x.idx && x.ref == 0).length
  p.slottab.toNat * 2 ^ 448 + p.pphys.toNat * 2 ^ 384 + p.pbase.toNat * 2 ^ 320 + p.quota * 2 ^ 298 + used * 2 ^ 276
    + cached * 2 ^ 254 + p.wmap.toNat * 2 ^ 128 + p.wwbase.toNat * 2 ^ 64 + p.pfdrop.toNat * 2 ^ 32 + p.world

/-- The entry that a physical address lies in, with the byte of it (R295). -/
def State.slotEntry (s : State) (a : Nat) : Option (Slot × Nat) :=
  s.eng.prefixes.findSome? fun p =>
    let base := p.slottab.toNat / 4096 * 4096
    if base ≤ a && a < base + 16 * p.quota then some (p.slot ((a - base) / 16), (a - base) % 16) else none

/-- A failing line of a prefix slot clears its way (R306); one of a weight segment clears its piece's bit and the scheduler
fetches the piece again (R314); a failing unit of a slice is marked (R331). -/
def State.noteDamage (s : State) (u : Nat) (hbm : Bool) : State :=
  if !hbm then s.modMem (·.markPoison u)
  else
    match s.eng.prefixes.find? fun p => p.slotPa 0 ≤ u && u < p.slotPa p.quota with
    | some p =>
      let d := (u - p.slotPa 0) / 16384
      (s.modEng fun e => { e with ways := e.ways.filter fun w => !(w.world == p.world && w.slot == d) }).setPrefix
        (p.setSlot d { p.slot d with dmg := true, idx := false })
    | none =>
      match s.eng.segments.find? fun g => match g.frame with
        | some f => f ≤ u && u < f + 0x200000
        | none => false with
      | some g =>
        let piece := (u - g.frame.getD 0) / 65536
        s.modEng fun e => { e with
          segments := e.segments.map fun x => if x.digest == g.digest then
            { x with pieces := x.pieces &&& ~~~(1#32 <<< piece) } else x
          demands := if e.demands.contains (g.digest, none) then e.demands else e.demands ++ [(g.digest, none)] }
      | none => s

/-- A part-line write meets a line that fails: the line is poisoned and nothing is written (R253, R306). -/
def State.failLine (s : State) (key a : Nat) : State :=
  (s.modMem fun m => { m with lines := setKey m.lines (lineOf a) ⟨key, true⟩ }).noteDamage (lineOf a) true

end Sys2Proof.Machine
end

