-- ==== Sys2Proof/Machine/Order.lean ====
section
/-!
DEFINITION. The destination order of each copy instruction (R279 to R286): the runs that it splits into, whole or beat by beat,
and the memory that it reaches.
-/
namespace Sys2Proof.Machine

open Sys2Proof

/-! ### Where ranges lie -/

/-- Pages that a range touches. -/
def pagesOf (va n : Nat) : Nat := (va % 4096 + n + 4095) / 4096

/-- Where an endpoint lies, as far as its translation shows at a command's issue. -/
def State.placeVa (s : State) (world va : Nat) : Place :=
  if inSram va then placeOf va
  else if world == 257 then placeOf va
  else
    match s.translate world (BitVec.ofNat 64 va) with
    | .ok pa _ _ => placeOf pa
    | _ => .hbm

/-- The physical address of an endpoint, or its world address while it does not translate. An endpoint of translated space that
does not translate in a command's issue cycle therefore counts as no bank there, and has the card's SFMT or DFMT
(notes/assumptions/106.md). -/
def State.physOf (s : State) (world va : Nat) : Nat :=
  if inSram va || world == 257 then va
  else
    match s.translate world (BitVec.ofNat 64 va) with
    | .ok pa _ _ => pa
    | _ => va

def Place.core? : Place → Option Nat
  | .slice i _ => Option.some i
  | _ => Option.none

/-- Bytes of a list of ranges that lie in this window alone, as their pages translate now. -/
def State.allIn (s : State) (world core : Nat) (l : List (Nat × Nat)) : Bool :=
  l.all fun (va, n) =>
    let own (a : Nat) : Bool := let p := s.physOf world a; inSram p && coreAt p == core
    n == 0 || (if inSram va then own va && own (va + n - 1)
      else (List.range (pagesOf va n)).all fun k => own (if k == 0 then va else (va / 4096 + k) * 4096))

/-! ### The destination order -/

/-- A run of the destination order within a beat: destination, its length, its source (`none` for pads), source length. -/
structure Run where
  dva : Nat
  dn : Nat
  sva : Option Nat
  sn : Nat
  /-- A half-byte element (R41): its nibble in the source byte, true for the high one. Two such runs make a byte. -/
  nib : Option Bool
deriving DecidableEq, Repr

/-- An address and a signed offset, mod 2^64. -/
def addrAdd (a : Nat) (x : Int) : Nat := (((a : Int) + x) % 2 ^ 64).toNat

/-- Element width in half bytes for positions: conversions between scalars scale, everything else moves bytes. -/
def scaled (sf df : Fmt) (n : Nat) : Nat := if conversion sf df == .scalar then n * sf.half / df.half else n

/-- CPYC parameters (Table 11.5). -/
structure ConvP where
  nb : Nat
  c : Nat
  ih : Nat
  iw : Nat
  oh : Nat
  ow : Nat
  q0 : Nat
  py : Nat
  px : Nat
  dy : Nat
  dx : Nat
  sy : Nat
  sx : Nat
  kh : Nat
  kw : Nat
deriving DecidableEq, Repr

def convP (s1 s2 s3 : W64) : ConvP :=
  let f (w : W64) (lo n : Nat) : Nat := natBits w.toNat lo n
  { nb := f s1 48 16, c := f s1 32 16, ih := f s1 16 16, iw := f s1 0 16, oh := f s2 48 16, ow := f s2 32 16, q0 := f s2 0 32,
    py := f s3 40 8, px := f s3 32 8, dy := f s3 28 4 + 1, dx := f s3 24 4 + 1, sy := f s3 20 4 + 1, sx := f s3 16 4 + 1,
    kh := f s3 8 8, kw := f s3 0 8 }

/-- G of R282. -/
def ConvP.g (p : ConvP) : Nat := p.kw * p.kh * p.c

/-- The source element of destination element `e` (R282): `none` for a pad, with whether it is an overrun. -/
def ConvP.source (p : ConvP) (e : Nat) : Option Nat × Bool :=
  let j := e / p.g
  let r := e % p.g
  let ky := r / p.c / p.kw
  let kx := r / p.c % p.kw
  let c := r % p.c
  let q := p.q0 + j
  let img := q / (p.ow * p.oh)
  let oy := q / p.ow % p.oh
  let ox := q % p.ow
  let x : Int := (ox * p.sx + kx * p.dx : Nat) - (p.px : Int)
  let y : Int := (oy * p.sy + ky * p.dy : Nat) - (p.py : Int)
  if p.nb ≤ img then (none, true)
  else if x < 0 || (p.iw : Int) ≤ x || y < 0 || (p.ih : Int) ≤ y then (none, false)
  else (some (((img * p.ih + y.toNat) * p.iw + x.toNat) * p.c + c), false)

/-- Runs of [pos, pos + len) of the destination order, for formats `sf` to `df` (R279 to R286). A CPYC element whose bytes move
unchanged between formats of other widths takes the bytes of its one source element, as `assemble` fits them
(notes/assumptions/105.md). A range that `CopyKind`
cuts into blocks or rows lies within one of them. -/
def CopyKind.runs (k : CopyKind) (dst src : Nat) (sf df : Fmt) (pos len : Nat) : List Run :=
  match k with
  | .plain | .add _ | .fetch _ => [⟨addrAdd dst pos, len, some (addrAdd src (scaled sf df pos)), scaled sf df len, none⟩]
  | .fill _ => [⟨addrAdd dst pos, len, none, 0, none⟩]
  | .strided b ss ds =>
    let q := pos / b
    let o := pos % b
    [⟨addrAdd dst (q * ds + o), len, some (addrAdd src (q * ss + (scaled sf df o : Nat))), scaled sf df len, none⟩]
  | .gather b idx =>
    let q := pos / b
    let o := pos % b
    [⟨addrAdd dst pos, len, some (addrAdd src ((idx[q]?).getD 0 * b + o : Nat)), len, none⟩]
  | .morton w _ logw pitch z =>
    let sz := 2 ^ logw
    (List.range ((len + sz - 1) / sz)).map fun i =>
      let e := pos / sz + i
      if z then
        let x := e % w
        let y := e / w
        ⟨addrAdd dst ((y * pitch + x) * sz : Nat), sz,
          some (addrAdd src ((Sys2Proof.Machine.morton (BitVec.ofNat 16 x) (BitVec.ofNat 16 y)).toNat * sz : Nat)), sz, none⟩
      else
        let m := BitVec.ofNat 32 e
        ⟨addrAdd dst (e * sz : Nat), sz,
          some (addrAdd src (((unmortonY m).toNat * pitch + (unmortonX m).toNat) * sz : Nat)), sz, none⟩
  | .conv s1 s2 s3 =>
    let p := convP s1 s2 s3
    let wd := df.half / 2
    let ws := sf.half / 2
    if wd == 0 then
      (List.range (2 * len)).map fun i =>
        let e := (p.source (2 * pos + i)).1
        ⟨addrAdd dst (pos + i / 2 : Nat), 1 - i % 2, e.map fun x => addrAdd src (x / 2 : Nat), 1, some ((e.getD 0) % 2 == 1)⟩
    else (List.range (len / max wd 1)).map fun i =>
      let e := pos / max wd 1 + i
      ⟨addrAdd dst (e * wd : Nat), wd, (p.source e).1.map fun x => addrAdd src (x * sf.half / 2 : Nat), max 1 ws, none⟩

/-- Bytes of one block or row, where the order is cut into such (R271). -/
def CopyKind.block : CopyKind → Option Nat
  | .strided b _ _ => some b
  | .gather b _ => some b
  | _ => none

/-- Number of data beats (Table 11.3). -/
def CopyKind.beats (k : CopyKind) (n : Nat) : Nat :=
  match k.block with
  | some b => n / b * ((b + 255) / 256)
  | none => (n + 255) / 256

/-- Position and length of data beat `i`. -/
def CopyKind.span (k : CopyKind) (n i : Nat) : Nat × Nat :=
  match k.block with
  | some b =>
    let per := (b + 255) / 256
    let o := i % per * 256
    (i / per * b + o, min 256 (b - o))
  | none => (256 * i, min 256 (n - 256 * i))

/-- The whole destination order and source as few runs, for the checks of R270 and the region of R273: rows and blocks for
the strided orders, one run otherwise. Windows give their elements. -/
def CopyKind.whole (k : CopyKind) (dst src : Nat) (sf df : Fmt) (n : Nat) : List Run :=
  match k with
  | .strided b _ _ => (List.range (n / b)).flatMap fun q => k.runs dst src sf df (q * b) b
  | .gather b _ => (List.range (n / b)).flatMap fun q => k.runs dst src sf df (q * b) b
  | .morton w h logw pitch z =>
    let sz := 2 ^ logw
    (List.range h).map fun y =>
      if z then ⟨addrAdd dst (y * pitch * sz : Nat), w * sz, some (addrAdd src (y * w * sz : Nat)), w * sz, none⟩
      else ⟨addrAdd dst (y * w * sz : Nat), w * sz, some (addrAdd src (y * pitch * sz : Nat)), w * sz, none⟩
  | .conv _ _ _ => k.runs dst src sf df 0 n
  | _ => if n == 0 then [] else k.runs dst src sf df 0 n

/-! ### Block formats (R278) -/

/-- A block format takes part. -/
def withBlocks (sf df : Fmt) : Bool := sf.isBlock || df.isBlock

/-- Elements of `n` destination bytes. -/
def elemsOf (df : Fmt) (n : Nat) : Nat := n * 2 / df.half

/-- A source exponent array is read: the source is a block format, and its values or exponents move. RAW and RING move
bytes alone. -/
def readsExp (sf df : Fmt) : Bool := sf.isBlock && df != .raw && df != .ring && df != .cap
/-- A destination exponent array is written. -/
def writesExp (sf df : Fmt) : Bool := df.isBlock && sf != .raw && sf != .ring && sf != .cap

/-- Exponent bytes that move (R278). -/
def expBytes (sf df : Fmt) (n : Nat) : Nat := if writesExp sf df then (elemsOf df n + 63) / 64 else 0

/-! ### What a copy writes -/

/-- Runs of one side as (address, length). -/
def dstRuns (l : List Run) : List (Nat × Nat) := l.map fun r => (r.dva, r.dn)
def srcRuns (l : List Run) : List (Nat × Nat) := l.filterMap fun r => r.sva.map fun a => (a, r.sn)

/-- Data beats and all beats of a copy. -/
def Copy.dataBeats (c : Copy) : Nat := c.kind.beats c.n
def Copy.expLen (c : Copy) : Nat :=
  if c.op == 0 then
    match c.targets with
    | t :: _ => expBytes c.sfmt t.fmt c.n
    | [] => 0
  else 0
def Copy.beatCount (c : Copy) : Nat := c.dataBeats + (c.expLen + 255) / 256

/-- The destination bytes at a target, as physical (address, position, length). -/
def State.regionOf (s : State) (c : Copy) (t : Target) : List (Nat × Nat × Nat) :=
  let runs := c.kind.whole t.dst.toNat c.src.toNat c.sfmt t.fmt c.n
  (runs.foldl (fun (acc : List (Nat × Nat × Nat) × Nat) r =>
    let pieces := (List.range (pagesOf r.dva r.dn)).map fun k =>
      let a := if k == 0 then r.dva else (r.dva / 4096 + k) * 4096
      (s.physOf c.world a, acc.2 + (a - r.dva), min (r.dva + r.dn) ((a / 4096 + 1) * 4096) - a)
    (acc.1 ++ pieces, acc.2 + r.dn)) ([], 0)).1

/-- Every byte that a copy writes, at its targets and in its exponent array: physical address and length, as the pages translate
now (R212, R219). -/
def State.destination (s : State) (c : Copy) : List (Nat × Nat) :=
  (c.targets.flatMap fun t => (s.regionOf c t).map fun (a, _, n) => (a, n))
    ++ (if c.expLen == 0 then [] else [(s.physOf c.world c.expDst.toNat, c.expLen)])

/-- The cores whose windows a copy writes, `none` for memory outside them. -/
def State.reaches (s : State) (c : Copy) : List (Option Nat) :=
  (c.targets.map (·.core)) ++ (s.destination c).map fun (a, _) => (placeOf a).core?

end Sys2Proof.Machine
end

