-- ==== Sys2Proof/Machine/Firmware.lean ====
section
/-!
DEFINITION. The firmware map (Table 19.13): the records of the control-block store, the scan window and the logical core
maps as bytes, and what a write of their RW fields does (R185, R356, R403, R404).
-/
namespace Sys2Proof.Machine

open Sys2Proof

def JState.code : JState → Nat
  | .free => 0 | .idle => 1 | .ready => 2 | .binding => 3 | .running => 4 | .sealing => 5 | .sealed => 6 | .frozen => 7
  | .stopped => 8

/-- WAIT in a cycle (R192). -/
def Jetton.wait (j : Jetton) (now : Nat) : Nat :=
  if j.state == .ready || j.state == .sealed then min (now - j.waitSince) (2 ^ 32 - 1) else 0
/-- EPRIO in a cycle (R192). -/
def Jetton.eprio (j : Jetton) (now : Nat) : Nat := min 7 (j.prio.toNat + j.wait now / 2 ^ 16)

/-- A queue descriptor (Table 8.3). -/
def WorkQueue.bits (q : WorkQueue) : Nat :=
  q.crec.toNat * 2 ^ 192 + q.cidx.toNat * 2 ^ 160 + q.ridx.toNat * 2 ^ 128 + q.widx.toNat * 2 ^ 96 + q.qen.toNat * 2 ^ 72
    + q.qlog.toNat * 2 ^ 64 + q.qbase.toNat

/-- A jetton as its 2,048 bits (Table 8.2). -/
def Jetton.bits (j : Jetton) (now : Nat) : Nat :=
  j.sealptr.toNat * 2 ^ 1280 + (j.qs.toList.zipIdx).foldl (fun a (q, i) => a + q.bits * 2 ^ (256 + 256 * i)) 0
    + j.link.toNat * 2 ^ 240 + j.gid.toNat * 2 ^ 224 + j.wait now * 2 ^ 192 + j.state.code * 2 ^ 188 + j.prio.toNat * 2 ^ 185
    + j.eprio now * 2 ^ 182 + j.world * 2 ^ 173 + j.world * 2 ^ 164 + j.bwc.toNat * 2 ^ 160 + j.tth.toNat * 2 ^ 144
    + j.rtag.toNat * 2 ^ 128 + j.root.high.toNat * 2 ^ 64 + j.root.cur.toNat

/-- A scan block as its 256 bits (Table 16.1). ELAPSED counts the cycles of a RUN in progress. -/
def Scan.bits (x : Scan) (now : Nat) : Nat :=
  let el := if x.state == 3 then 170000 - min 170000 (x.until_ - now + 1) else x.elapsed.toNat
  x.ssiga.toNat * 2 ^ 192 + x.ssigx.toNat * 2 ^ 128 + el * 2 ^ 96 + x.ab.toNat * 2 ^ 67 + x.state.toNat * 2 ^ 64
    + x.aprio.toNat * 2 ^ 9 + x.apen.toNat * 2 ^ 8 + x.cmd.toNat

/-- The states in which scheduler writes of a jetton's RW fields take effect (R185). -/
def JState.writable : JState → Bool
  | .free | .idle | .sealed | .frozen | .stopped => true
  | _ => false

/-- A write of WIDX: it takes effect in every state but FREE and STOPPED while QEN = 1 (R185); a queue that becomes
pending makes an IDLE jetton READY (Table 8.5). -/
def State.writeWidx (s : State) (j : Nat) (q : BitVec 2) (v : BitVec 32) : State :=
  let x := s.jetton j
  let w := x.qs[q.toNat]'q.isLt
  if x.state == .free || x.state == .stopped || !w.qen then s
  else
    let x := { x with qs := x.qs.set q.toNat { w with widx := v } q.isLt }
    s.setJetton j (if x.state == .idle && x.anyPending then { x with state := .ready, waitSince := s.tb + 1 } else x)

/-- A scheduler write of one RW field of a jetton (R185). -/
def State.writeJetton (s : State) (j : Nat) (f : JField) (v : BitVec 256) : State :=
  let x := s.jetton j
  match f with
  | .widx q => s.writeWidx j q (v.setWidth 32)
  | _ =>
    if !x.state.writable then s
    else
      let setQ (q : BitVec 2) (g : WorkQueue → WorkQueue) : Jetton :=
        { x with qs := x.qs.set q.toNat (g (x.qs[q.toNat]'q.isLt)) q.isLt }
      let y := match f with
        | .sealptr => { x with sealptr := v.setWidth 64 }
        | .link => { x with link := v.setWidth 16 }
        | .prio => { x with prio := v.setWidth 3 }
        | .world => { x with world := (v.extractLsb' 0 9).toNat }
        | .bwc => { x with bwc := v.setWidth 4 }
        | .tth => { x with tth := v.setWidth 16 }
        | .roothi => { x with root := { x.root with high := v.setWidth 64, tag := false }, rtag := false }
        | .rootcur => { x with root := { x.root with cur := v.setWidth 64, tag := false }, rtag := false }
        | .crec q => setQ q fun w => { w with crec := v.setWidth 64 }
        | .qen q => setQ q fun w => { w with qen := v.getLsbD 0 }
        | .qlog q => setQ q fun w => { w with qlog := v.setWidth 4 }
        | .qbase q => setQ q fun w => { w with qbase := v.setWidth 64 }
        | .widx _ => x
      s.setJetton j (if y.state == .idle && y.anyPending then { y with state := .ready, waitSince := s.tb + 1 } else y)

/-! ### World contexts (R235) -/

/-- The bits of a range entry that are not reserved (Table 10.4). -/
def rangeBits : BitVec 192 := (0xFFFFFFFFFFFFF000 : BitVec 64) ++ (0xFFFFFFFFFFFFF000 : BitVec 64) ++ (0xFFFFFFFFFFFFFFE0 : BitVec 64)

/-- A field of a world context (Table 10.3). -/
def World.write (w : World) (f : WField) (v : BitVec 256) : World :=
  match f with
  | .ptroot => { w with ptroot := v.setWidth 64 }
  | .pgtbase => { w with pgtbase := v.setWidth 64 }
  | .dirtybase => { w with dirtybase := v.setWidth 64 }
  | .dirtyen => { w with dirtyen := v.getLsbD 0 }
  | .dbgen => { w with dbgen := v.getLsbD 0 }
  | .conf => { w with conf := v.getLsbD 0 }
  | .scopemax => let x : BitVec 3 := v.setWidth 3; { w with scopemax := if 5 < x.toNat then 5 else x }
  | .range k word =>
    if word == 3 then w
    else
      let e := BitVec.ofNat 192 (natSet (w.ranges[k.toNat]'k.isLt).toNat (64 * word.toNat) 64 (v.toNat % 2 ^ 64))
      { w with ranges := w.ranges.set k.toNat (e &&& rangeBits) k.isLt }

/-- A world context as 4,096 bits (Table 10.3). -/
def World.bits (w : World) : Nat :=
  (w.ranges.toList.zipIdx).foldl (fun a (e, k) => a + e.toNat * 2 ^ (512 + 192 * k)) 0
    + w.ptroot.toNat * 2 ^ 448 + w.pgtbase.toNat * 2 ^ 384 + w.dirtybase.toNat * 2 ^ 320 + w.dirtyen.toNat * 2 ^ 15
    + w.dbgen.toNat * 2 ^ 14 + w.conf.toNat * 2 ^ 13 + w.scopemax.toNat * 2 ^ 9 + w.wid

/-! ### Reads and writes by firmware processors (R404) -/

/-- A region of the firmware map. -/
inductive FwPlace where
  | memory | store (j byte : Nat) | scan (core byte : Nat) | map (byte : Nat) | physical | none
deriving DecidableEq, Repr

def fwPlace (a : Nat) : FwPlace :=
  if a < 0x400000 then .memory
  else if a < 0x800000 then .store ((a - 0x400000) / 256) (a % 256)
  else if a < 0x810000 then .scan ((a - 0x800000) / 32) (a % 32)
  else if a < 0x810100 then .map (a - 0x810000)
  else
    match placeOf a with
    | .none => .none
    | .slice _ .hole => .none
    | _ => .physical

/-- What firmware memory keeps at an address that is no plain byte: a world's context or its prefix record (R235, R293),
with the byte of it. Where they stand is the image's affair (notes/assumptions/103.md). -/
inductive FwRecord where
  | context (w : World) (byte : Nat)
  | record (p : Prefix) (byte : Nat)
deriving DecidableEq, Repr

def State.fwRecord (s : State) (a : Nat) : Option FwRecord :=
  if s.mon.image.isEmpty then none
  else
    s.worlds.findSome? fun w =>
      if Config.contextSlot s.mon.image w.wid == a / 512 then some (.context w (a % 512))
      else if Config.prefixSlot s.mon.image w.wid == a / 64 then some (.record (s.prefix_ w.wid) (a % 64))
      else none

/-- A byte of the firmware map as a firmware processor reads it. -/
def State.fwByte (s : State) (a : Nat) : Byte :=
  match fwPlace a with
  | .memory =>
    match s.fwRecord a with
    | some (.context w b) => BitVec.ofNat 8 (natBits w.bits (8 * b) 8)
    | some (.record p b) => BitVec.ofNat 8 (natBits p.bits (8 * b) 8)
    | none => s.mem.get a
  | .store j b => BitVec.ofNat 8 (natBits ((s.jetton j).bits s.tb) (8 * b) 8)
  | .scan i b => BitVec.ofNat 8 (natBits (((getKey s.disp.scans i).getD Scan.reset).bits s.tb) (8 * b) 8)
  | .map b =>
    if b < 128 then BitVec.ofNat 8 (natBits s.disp.mapPrompt.toNat (8 * b) 8)
    else BitVec.ofNat 8 (natBits s.disp.mapToken.toNat (8 * (b - 128)) 8)
  | .physical =>
    if s.heldAway a then 0
    else
      match s.slotEntry a with
      | some (x, b) => BitVec.ofNat 8 (natBits x.bits (8 * b) 8)
      | none => s.mem.get a
  | .none => 0

/-- The unit of the first byte of a firmware processor's load that is uncorrectable (R253, R331). -/
def State.fwDamage (s : State) (a n : Nat) : Option Nat :=
  if fwPlace a != .physical || s.heldAway a || (s.slotEntry a).isSome then none
  else if placeOf a == .hbm then (s.mem.badLine (s.lineKey 257 a) a n).orElse fun _ => s.mem.firstDamage a n
  else s.mem.firstDamage a n

/-- The RW fields of a jetton as (lowest bit, width, field) (Tables 8.2, 8.3). -/
def jettonFields : List (Nat × Nat × JField) :=
  [(1280, 64, .sealptr), (240, 16, .link), (185, 3, .prio), (173, 9, .world), (160, 4, .bwc), (144, 16, .tth),
   (64, 64, .roothi), (0, 64, .rootcur)] ++
  ([0, 1, 2, 3] : List (BitVec 2)).flatMap fun q =>
    let b := 256 + 256 * q.toNat
    [(b + 192, 64, .crec q), (b + 96, 32, .widx q), (b + 72, 1, .qen q), (b + 64, 4, .qlog q), (b, 64, .qbase q)]

/-- Write bytes of a jetton: each RW field that the bytes cover is written with its new value. -/
def State.fwWriteJetton (s : State) (j byte : Nat) (bs : List Byte) : State :=
  let old := (s.jetton j).bits s.tb
  let new := natSet old (8 * byte) (8 * bs.length) (leNat bs)
  jettonFields.foldl (fun s (lo, n, f) =>
    if 8 * byte < lo + n && lo < 8 * (byte + bs.length) then s.writeJetton j f (BitVec.ofNat 256 (natBits new lo n)) else s) s

/-- The RW fields of a world context as (lowest bit, width, field) (Tables 10.3, 10.4). -/
def worldFields : List (Nat × Nat × WField) :=
  [(448, 64, .ptroot), (384, 64, .pgtbase), (320, 64, .dirtybase), (15, 1, .dirtyen), (14, 1, .dbgen), (13, 1, .conf),
   (9, 3, .scopemax)] ++
  ((List.range 16).map (BitVec.ofNat 4)).flatMap fun k =>
    ([0, 1, 2] : List (BitVec 2)).map fun i => (512 + 192 * k.toNat + 64 * i.toNat, 64, .range k i)

/-- Write bytes of a world context. -/
def State.fwWriteContext (s : State) (w : World) (byte : Nat) (bs : List Byte) : State :=
  let new := natSet w.bits (8 * byte) (8 * bs.length) (leNat bs)
  worldFields.foldl (fun (s : State) (lo, n, f) =>
    if 8 * byte < lo + n && lo < 8 * (byte + bs.length) then
      s.modWorld w.wid fun x => x.write f (BitVec.ofNat 256 (natBits new lo n))
    else s) s

/-- Write bytes of a scan block (Table 16.1): CMD is acted on at the end of the cycle. -/
def Scan.writeBytes (x : Scan) (now b : Nat) (bs : List Byte) : Scan :=
  let v := natSet (x.bits now) (8 * b) (8 * bs.length) (leNat bs)
  let touch (lo hi : Nat) : Bool := b ≤ hi && lo < b + bs.length
  { x with
    ssigx := if touch 16 23 then BitVec.ofNat 64 (natBits v 128 64) else x.ssigx
    aprio := if touch 1 1 then BitVec.ofNat 3 (natBits v 9 3) else x.aprio
    apen := if touch 1 1 then natBits v 8 1 == 1 else x.apen
    cmd := if touch 0 0 then BitVec.ofNat 3 v else x.cmd
    cmds := if touch 0 0 then x.cmds ++ [BitVec.ofNat 3 v] else x.cmds }

/-- A store of a firmware processor takes effect, at the end of its cycle (R94). The fields of a record that are read-only,
and of one that only other levels write, keep their values. -/
def State.fwWrite (s : State) (plugin : Bool) (w : StorePend) : State :=
  let a := w.addr
  let bs := w.bytes
  match fwPlace a with
  | .memory =>
    match s.fwRecord a with
    | some (.context x b) => if plugin then s else s.fwWriteContext x b bs
    | some (.record _ _) => s
    | none => s.modMem fun m => m.write a bs
  | .store j b => s.fwWriteJetton j b bs
  | .scan i b => s.modDisp fun d => { d with scans := setKey d.scans i (((getKey d.scans i).getD Scan.reset).writeBytes s.tb b bs) }
  | .map b =>
    s.modDisp fun d =>
      if b < 128 then { d with mapPrompt := BitVec.ofNat 1024 (natSet d.mapPrompt.toNat (8 * b) (8 * bs.length) (leNat bs)) }
      else { d with mapToken := BitVec.ofNat 1024 (natSet d.mapToken.toNat (8 * (b - 128)) (8 * bs.length) (leNat bs)) }
  | .physical =>
    if s.heldAway a || (s.slotEntry a).isSome then s
    else if placeOf a == .hbm then (s.modMem fun m => (m.lineWrite (s.lineKey 257 a) a bs).2).dirty 257 a
    else s.storeWrite w
  | .none => s

/-- The stores of the firmware processors of this cycle, which act at its end. -/
def State.fwStores (s : State) : State :=
  s.live.foldl (fun (s : State) i =>
    let c := s.getCore i
    match c.fw with
    | none => s
    | some f =>
      if c.iss.stores.isEmpty then s
      else (c.iss.stores.foldl (fun (s : State) w => s.fwWrite (f.level == .plugin) w) s).modCore i fun c =>
        { c with iss := { c.iss with stores := [] } }) s

/-- The guards of the running level admit a range (Table 19.11); the scan window is no plug-in's (R356). -/
def Fw.guarded (f : Fw) (a : W64) (n : Nat) : Bool :=
  let within (g : List (W64 × W64)) : Bool := g.any fun (lo, hi) => lo.toNat ≤ a.toNat && a.toNat + n ≤ hi.toNat + 1
  match f.level with
  | .monitor => true
  | .scheduler => within f.schedGuards
  | .plugin => within f.plugGuards && (match fwPlace a.toNat with | .scan _ _ => false | _ => true)

end Sys2Proof.Machine
end

