-- ==== Sys2Proof/Machine/System.lean ====
section
/-!
DEFINITION. The system group: DONE, TRAP, SVC, ERET, SRD, SWR, TIME and BKPT (R114 to R119), with the calls of the
firmware levels (R403).
-/
namespace Sys2Proof.Machine

open Sys2Proof

/-- A word that a stub refuses (R336). -/
def State.notInStub (s : State) (f : State → State) : Result :=
  if s.core.iss.inStub then .next (s.ctlFault .ill 0 14) else .next (f s)

/-- DONE waits until every column and copy is idle (R32); TASK_END ends the task. -/
def execDone (s : State) : Result :=
  s.flow fun s => (s.modIss fun x => { x with s0done := s.sreg 0 }).await .done

def execTrap (k : KReg) (sense : Bool) (code : BitVec 16) (s : State) : Result :=
  s.notInStub fun s => if s.kreg k != sense then s.ctlFault .timing 0 1 code else s.advance 1

/-- A call of the next firmware level, and its return point (R403). -/
def State.fwCall (s : State) (f : Fw) : State :=
  match f.level with
  | .monitor => s.ctlFault .svc 0
  | .scheduler =>
    (s.modC fun c => { c with fw := some { f with level := .monitor, calls := (.scheduler, c.iss.pc + 1) :: f.calls } }).jumpTo
      f.entryMonitor true
  | .plugin =>
    (s.modC fun c => { c with fw := some { f with level := .scheduler, calls := (.plugin, c.iss.pc + 1) :: f.calls } }).jumpTo
      f.entryScheduler true

def execSvc (a : SReg) (code : BitVec 16) (s : State) : Result :=
  s.notInStub fun s =>
    match s.core.fw with
    | some f => s.fwCall f
    | none => s.ctlFault .svc (s.sreg a) 0 code

/-- ERET ends a stub (R117); on a firmware processor it returns to the level that made the call (R403). -/
def execEret (s : State) : Result :=
  match s.core.fw with
  | some f =>
    match f.calls with
    | (l, pc) :: r => .next ((s.modC fun c => { c with fw := some { f with level := l, calls := r } }).jumpTo pc true)
    | [] => .next (s.ctlFault .priv 0)
  | none => if s.core.iss.inStub then .next s.stubReturn else .next (s.ctlFault .priv 0)

def execSrd (d : SReg) (num : BitVec 8) (s : State) : Result :=
  match s.stateReg num with
  | some v => s.alu d v
  | none => .next (s.ctlFault .ill 0)

/-- R16, R118. -/
def execSwr (num : BitVec 8) (a : SReg) (s : State) : Result :=
  if (s.stateReg num).isNone then .next (s.ctlFault .ill 0)
  else if !regWritable num then .next (s.ctlFault .priv 0)
  else if regReserved num (s.sreg a) then .next (s.ctlFault .ill 0)
  else s.give 1 1 (.reg num (s.sreg a))

def execTime (d a : SReg) (tb : Bool) (s : State) : Result :=
  s.alu d ((if tb then s.tbw else s.core.sys.anchor) + s.sreg a)

def execBkpt (code : BitVec 16) (s : State) : Result :=
  s.notInStub fun s => s.ctlFault .bkpt 0 0 code

end Sys2Proof.Machine
end

