-- ==== Sys2Proof/Machine/Mem.lean ====
section
/-!
DEFINITION. Loads, stores and the capability instructions (R102 to R108), and the completion of a stalled load (R15, R106).
-/
namespace Sys2Proof.Machine

open Sys2Proof

/-- What stops a control-column access at address `a` of `n` bytes: the checks of R102 in order. A firmware processor's step 7
is the firmware map's (R404); its stores reach no code memory (R67) and none of its accesses accumulator words. -/
def State.accessCause (s : State) (c : Cap) (a : W64) (n need : Nat) (store : Bool) : Option Cause :=
  match c.checkAligned s.myWorld need a.toNat n with
  | some f => some f
  | none =>
    match s.core.fw with
    | some f =>
      let shut := match fwPlace a.toNat with
        | .none => true
        | .physical => (match placeOf a.toNat with
          | .slice _ .acc => true
          | .slice _ .code => store
          | _ => false)
        | _ => false
      if shut then some .capperm else if !f.guarded a n then some .priv else none
    | none =>
      if (List.range n).all fun i => if store then s.ownWritable (a.toNat + i) else s.ownReadable (a.toNat + i) then none
      else some .capperm

/-- The bank port an LDC or STC of the cycle before still holds (R105). -/
def State.wideBusy (s : State) (a : Nat) : Bool :=
  match s.core.iss.wide, placeOf a with
  | some (bank, t), .slice i (.bank n) => bank == 96 * i + n && t + 1 == s.tb
  | _, _ => false

def State.useWide (s : State) (a : Nat) : State :=
  match placeOf a with
  | .slice i (.bank n) => s.modIss fun x => { x with wide := some (96 * i + n, s.tb) }
  | _ => s

/-- The bytes a control-column load samples. Firmware processors read their own map. -/
def State.sample (s : State) (a n : Nat) : List Byte :=
  if s.core.fw.isSome then (List.range n).map fun i => s.fwByte (a + i) else s.mem.read a n

/-- A load samples and its register is written at the end of the third cycle (R94, R103). An uncorrectable byte raises
UCDATA and marks its unit (R331). `none` when nothing stops it. -/
def State.loadDamage (s : State) (a n : Nat) : Option State :=
  (if s.core.fw.isSome then s.fwDamage a n else s.mem.firstDamage a n).map fun u =>
    (if placeOf u == .hbm then s.noteDamage u true else s.modMem (·.markPoison u)).ctlFault .ucdata (BitVec.ofNat 64 u)

/-- The result of a load from its bytes: LDC takes the granule's tag where the bank is a CAP bank and LOADCAP is held (R104). -/
def State.loadDst (s : State) (a : Nat) (dst : LoadTo) (bs : List Byte) : Dst :=
  match dst with
  | .zext d => .s d (BitVec.ofNat 64 (leNat bs))
  | .sext d => .s d (BitVec.ofInt 64 (signedNat (8 * bs.length) (leNat bs)))
  | .cap d may => .c d ⟨BitVec.ofNat 64 (leNat (bs.take 8)), BitVec.ofNat 64 (leNat (bs.drop 8)), may && s.capBank a && s.mem.capTag a⟩

def State.loadInto (s : State) (a n : Nat) (dst : LoadTo) : State :=
  match s.loadDamage a n with
  | some t => t
  | none => s.put 3 (s.loadDst a dst (s.sample a n))

/-- The common path of LD, LDS and LDC: checks, port, stall, sample. -/
def State.load (s : State) (c : Cap) (a : W64) (n : Nat) (wide : Bool) (dst : LoadTo) : State :=
  match s.accessCause c a n permRead false with
  | some f => s.ctlFault f a
  | none =>
    if s.wideBusy a.toNat then s.ctlFault .slip a 12
    else if !s.core.sys.dbg && s.core.aboveMark a.toNat n then s.await (.load a.toNat n dst)
    else
      let t := s.loadInto a.toNat n dst
      if t.core.iss.fault.isSome then t else (if wide then t.useWide a.toNat else t).advance 1

def execLd (d : SReg) (c : CReg) (sz : Size) (off : BitVec 24) (s : State) : Result :=
  .next (s.load (s.creg c) (memAddr (s.creg c) off) sz.bytes false (.zext d))
def execLds (d : SReg) (c : CReg) (sz : Size) (off : BitVec 24) (s : State) : Result :=
  .next (s.load (s.creg c) (memAddr (s.creg c) off) sz.bytes false (.sext d))
def execLdc (cd c : CReg) (off : BitVec 24) (s : State) : Result :=
  .next (s.load (s.creg c) (memAddr (s.creg c) off) 16 true (.cap cd ((s.creg c).has permLoadCap)))

/-- A firmware processor's store, always of part of a line, that meets an HBM line failing verification (R253). -/
def State.storeDamage (s : State) (a : Nat) : Option State :=
  if s.core.fw.isNone || placeOf a != .hbm || (s.slotEntry a).isSome || s.mem.lineOk (s.lineKey 257 a) a then none
  else some ((s.failLine (s.lineKey 257 a) a).ctlFault .ucdata (BitVec.ofNat 64 (lineOf a)))

/-- The common path of ST and STC: the bytes and the tag take effect at the end of the cycle (R94). -/
def State.store (s : State) (c : Cap) (a : W64) (bs : List Byte) (need : Nat) (tag : Option Bool) (wide : Bool) : State :=
  match s.accessCause c a bs.length need true with
  | some f => s.ctlFault f a
  | none =>
    if s.wideBusy a.toNat then s.ctlFault .slip a 12
    else
      match s.storeDamage a.toNat with
      | some t => t
      | none =>
        let s := s.modIss fun x => { x with stores := x.stores ++ [⟨a.toNat, bs, tag⟩] }
        (if wide then s.useWide a.toNat else s).advance 1

def execSt (d : SReg) (c : CReg) (sz : Size) (off : BitVec 24) (s : State) : Result :=
  .next (s.store (s.creg c) (memAddr (s.creg c) off) (leBytes (s.sreg d).toNat sz.bytes) permWrite none false)

def execStc (cd c : CReg) (off : BitVec 24) (s : State) : Result :=
  let v := s.creg cd
  .next (s.store (s.creg c) (memAddr (s.creg c) off) (leBytes v.cur.toNat 8 ++ leBytes v.high.toNat 8)
    (if v.tag then permWrite + permStoreCap else permWrite) (some v.tag) true)

/-- A stall completes in the cycle in which the last byte it needs lands: the load samples there, at the address its issue
checked, the anchor moves there and the next word issues in the next cycle (R15, R94, R106). -/
def execLoadStallComplete (core : Nat) (s : State) : Result :=
  let t := s.focus core
  match t.core.iss.wait with
  | .load a n dst =>
    let u := t.loadInto a n dst
    .next (if u.core.iss.fault.isSome then u.modIss fun x => { x with wait := .none } else u.completeWait)
  | _ => .next s

/-! ### Capabilities -/

def State.capResult (s : State) (cd : CReg) (r : Except Cause Cap) (addr : W64) : Result :=
  match r with
  | .ok c => s.give 1 1 (.c cd c)
  | .error f => .next (s.ctlFault f addr)

def execCbnd (cd ca : CReg) (b : SReg) (s : State) : Result := s.capResult cd (capBnd (s.creg ca) (s.sreg b)) 0
def execCperm (cd ca : CReg) (b : SReg) (s : State) : Result := s.capResult cd (capPerm (s.creg ca) (s.sreg b)) 0
def execCadd (cd ca : CReg) (b : SReg) (s : State) : Result := s.capResult cd (capAdd (s.creg ca) (s.sreg b)) 0
def execCset (cd ca : CReg) (b : SReg) (s : State) : Result := s.capResult cd (capSet (s.creg ca) (s.sreg b)) 0
def execCget (d : SReg) (ca : CReg) (field : BitVec 3) (s : State) : Result := s.alu d (capGet (s.creg ca) field)
def execCseal (cd ca cb : CReg) (s : State) : Result := s.capResult cd (capSeal (s.creg ca) (s.creg cb)) 0
def execCunsl (cd ca cb : CReg) (s : State) : Result := s.capResult cd (capUnseal (s.creg ca) (s.creg cb)) 0
def execCtst (kd : KReg) (ca : CReg) (cb : Option CReg) (s : State) : Result :=
  match cb with
  | none => s.give 1 1 (.k kd (s.creg ca).tag)
  | some b => s.give 1 1 (.k kd (capSubset (s.creg ca) (s.creg b)))

end Sys2Proof.Machine
end

