-- ==== Sys2Proof/Machine/Home.lean ====
section
/-!
DEFINITION. Atomics, semaphores, CARRY and rings: what their issue checks, where their home is, what they do there and what
comes back (R168 to R174, R209 to R221, R227, R228, R239, R243 to R245).
-/
namespace Sys2Proof.Machine

open Sys2Proof

/-! ### The home of an address (R170, R243) -/

/-- Path cost from a master to a core's accumulator: R171 for a core; from an I/O die the cost R399 gives. -/
def homeCost (from_ to_ : Nat) : Nat := if 2048 ≤ from_ then 120 else pathH from_ to_

/-- A physical address in an accumulator part, as core and word. -/
def accWord (pa : Nat) : Option (Nat × Nat) :=
  match placeOf pa with
  | .slice i .acc => some (i, (offAt pa - 0x60000) / 4)
  | _ => none

/-- Why an operation never reaches a home. -/
inductive NoHome where
  /-- A fault in the issue cycle. -/
  | now (c : Cause)
  /-- A translation that gives no home (R239), with the cause that is raised in t + 5. -/
  | late (c : Cause) (report : Bool)
deriving DecidableEq, Repr

/-- The home that a translated address has, with its H. -/
def homeOfTranslated (world from_ pa : Nat) (a : Attr) : Except NoHome (HomeAt × Nat) :=
  if a.ah == 3 then .error (.late .timing true)
  else if a.ah == 1 then
    match accWord pa with
    | some (i, w) => .ok (.acc i w, homeCost from_ i)
    | none => .error (.now .capperm)
  else if a.ah == 2 && placeOf pa == .hbm then .ok (.host pa (a.key world), 230)
  else .error (.now .capperm)

/-- The checks after translation for a read, a write, or both (R238, R245). -/
def State.attrCause (s : State) (world : Nat) (gid : BitVec 16) (a : Attr) (read write : Bool) : Option Cause :=
  if (read && !a.admits world false) || (write && !a.admits world true) then some .capperm
  else if write && !s.ownerOk world gid a then some .owner
  else none

/-- The home of an operation by master `from_` (R170). The flag says that a walk is needed (R240). The firmware world reaches the
home of a core that a scan holds, without effect there (R357). -/
def State.homeOf (s : State) (world from_ : Nat) (gid : BitVec 16) (va : W64) (read write : Bool) :
    Except NoHome (HomeAt × Nat × Bool) :=
  if inSram va.toNat then
    match accWord va.toNat with
    | some (i, w) =>
      if s.admits world i || (world == 257 && s.heldAway va.toNat) then .ok (.acc i w, homeCost from_ i, false)
      else .error (.now .capperm)
    | none => .error (.now .capperm)
  else if world == 257 then .error (.now .capperm)
  else
    match s.translate world va with
    | .xlate => .error (.late .timing true)
    | .uc => .error (.late .ucdata false)
    | .refused => .error (.now .capperm)
    | .ok pa a walked =>
      match s.attrCause world gid a read write with
      | some c => .error (.now c)
      | none => (homeOfTranslated world from_ pa a).map fun (h, n) => (h, n, walked && !s.cachedPage from_ world va.toNat)

/-! ### Scopes (R211, Table 9.1) -/

def Scope.code : Scope → Nat
  | .task => 0 | .core => 1 | .group => 2 | .cluster => 3 | .tenant => 4 | .system => 5

/-- The scope that executes: SYSTEM is TENANT for a task whose SCOPE is below 5. -/
def State.effective (s : State) (x : Scope) : Scope :=
  if x == .system && s.core.sys.scope.toNat < 5 then .tenant else x

/-- R17: the demotion of a FENCE, REL or SSIG sets TSTAT.SD. -/
def State.demote (s : State) (x : Scope) : State :=
  if x == .system && s.core.sys.scope.toNat < 5 && s.core.iss.fault.isNone then s.modSys fun r => { r with sd := true } else s

/-- A core's slice or home lies within a scope of the task in focus. -/
def State.covers (s : State) (x : Scope) (i : Nat) : Bool :=
  match x with
  | .task => false
  | .core => i == s.cur
  | .group => ((s.jetton s.core.bnd.jetton).group.map (·.cores.contains i)).getD (i == s.cur)
  | .cluster => isToken i == isToken s.cur
  | .tenant | .system => true

/-- The core of a home. -/
def HomeAt.core? : HomeAt → Option Nat
  | .acc i _ => some i
  | .ring i _ => some i
  | _ => none

/-- The copies of the request that the core in focus runs for which have not landed in full; one with a follow-on counts until
that has finished (R212, R287). Those of a request that ended before are nobody's to await (R229). -/
def State.myCopies (s : State) : List Copy :=
  (s.copiesOf s.cur).filter fun c => s.core.bnd.firstRun ≤ c.run && c.pending

/-- The identifiers of the earlier accesses a release of the task in focus awaits (R212): a copy by any byte it writes. -/
def State.covered (s : State) (x : Scope) : List Nat :=
  let inX (o : Option Nat) : Bool := match o with
    | some i => s.covers x i
    | none => x == .tenant || x == .system
  ((s.myCopies.filter fun c => (s.reaches c).any inX).map (·.id))
    ++ ((s.eng.homes.filter fun h => h.asker == .core s.cur && s.core.bnd.firstRun ≤ h.run && !h.acted && inX h.home.core?).map (·.id))
    ++ (if x == .tenant || x == .system then
          ((s.collsOf s.cur).filter fun c => s.core.bnd.firstRun ≤ c.run && c.pending).map (·.id) else [])

/-- Accesses an earlier FENCE covers and that are still to take effect (R226). -/
def State.fenced (s : State) : List Nat :=
  s.core.iss.fence.filter fun id =>
    (s.eng.copies.any fun c => c.id == id && c.pending) || (s.eng.homes.any fun h => h.id == id && !h.acted)
      || (s.eng.colls.any fun c => c.id == id && c.done.isNone)

/-! ### Issue -/

/-- GID of the task in focus (Table 8.1). -/
def State.myGroup (s : State) : BitVec 16 := s.core.sys.dmem.extractLsb' 11 16

/-- The operation that leaves the core in this cycle; its act is due 2 + H cycles later (R209). -/
def State.sendHome (s : State) (va : W64) (what : HomeDo) (home : HomeAt) (h : Nat) (blockers : List Nat) (waits : Bool)
    (dst : Option SReg) (lo : W64) (hi : Nat) : State :=
  let (id, s) := s.fresh
  let op : HomeOp := {
    id := id, asker := .core s.cur, run := s.core.iss.run, pc := BitVec.ofNat 12 s.core.iss.pc, issue := s.tb,
    addr := va, world := s.myWorld, what := what, home := home, h := h, due := s.tb + 2 + h, blockers := blockers,
    waits := waits, dst := dst, acted := false, ret := 0, value := none, fault := none, lo := lo, hi := hi }
  let s := s.modEng fun e => { e with homes := e.homes ++ [op] }
  if waits then s.await (.home id) else s.advance 1

/-- A fault that the issue of this word brings in a later cycle (R321, R323). -/
def State.laterFault (s : State) (cycle : Nat) (c : Cause) (addr : W64) (src det : Nat) : State :=
  s.modIss fun x => { x with later := x.later ++
    [⟨cycle, ⟨c, BitVec.ofNat 12 x.pc, addr, finfo 0 src true det (cycle - s.tb)⟩⟩] }

/-- Report an XLATE to the scheduler (R239). -/
def State.reportXlate (s : State) (world : Nat) (va : W64) (who : Waiter) : State :=
  s.modDisp fun d => { d with xlates := d.xlates ++ [⟨world, va, who⟩] }

/-- A discarded operation: the column goes on, or waits for a fault that ends the wait (R239). -/
def State.discardHome (s : State) (va : W64) (c : Cause) (report waits : Bool) (at_ : Nat) : State :=
  let s := if report then s.reportXlate s.myWorld va (.task s.cur) else s
  let s := s.laterFault at_ c va 7 4
  if waits then s.await (.home 0) else s.advance 1

/-- The region guards of a firmware processor (R403). -/
def State.guardCause (s : State) (va : W64) (n : Nat) : Option Cause :=
  match s.core.fw with
  | some f => if f.guarded va n then none else some .priv
  | none => none

/-- The common issue of atomics, semaphores and CARRY: R102 steps 1 to 6 with `n` and `need`, then the home. -/
def State.issueHome (s : State) (c : Cap) (va : W64) (n need : Nat) (what : HomeDo) (blockers : List Nat) (waits : Bool)
    (dst : Option SReg) : State :=
  match (c.checkAligned s.myWorld need va.toNat n).orElse fun _ => s.guardCause va n with
  | some f => s.ctlFault f va
  | none =>
    match s.homeOf s.myWorld s.cur s.myGroup va (Nat.land need permRead != 0) (Nat.land need permWrite != 0) with
    | .error (.now f) => s.ctlFault f va
    | .error (.late f r) =>
      (if r then s else s.say (.uncorrectable s.myWorld va)).discardHome va f r waits (s.tb + 5)
    | .ok (home, h, walked) =>
      if walked then
        let late := 2 + h < Config.walkCycles s.free
        let s := { s.cachePage s.cur s.myWorld va.toNat with free := s.free + 1 }
        if late then s.discardHome va .timing false waits (s.tb + 5 + 2 * h)
        else s.sendHome va what home h blockers waits dst 0 0
      else s.sendHome va what home h blockers waits dst 0 0

def permRW : Nat := permRead + permWrite

/-! ### Atomics (Table 6.4) -/

def execAadd (d : SReg) (c : CReg) (int32 : Bool) (off : BitVec 24) (s : State) : Result :=
  .next (s.issueHome (s.creg c) (memAddr (s.creg c) off) 4 permRW (.aadd ((s.sreg d).setWidth 32) int32) [] false (some d))
def execAxch (d : SReg) (c : CReg) (off : BitVec 24) (s : State) : Result :=
  .next (s.issueHome (s.creg c) (memAddr (s.creg c) off) 4 permRW (.axch ((s.sreg d).setWidth 32)) [] false (some d))
/-- D = 31 raises ILL; the word never decodes (R169). -/
def execAcas (d : SReg) (c : CReg) (off : BitVec 24) (s : State) : Result :=
  if d == 31 then .next (s.ctlFault .ill 0)
  else .next (s.issueHome (s.creg c) (memAddr (s.creg c) off) 4 permRW
    (.acas ((s.sreg d).setWidth 32) ((s.sreg (d + 1)).setWidth 32)) [] false (some d))
def execAld (d : SReg) (c : CReg) (off : BitVec 24) (s : State) : Result :=
  .next (s.issueHome (s.creg c) (memAddr (s.creg c) off) 4 permRead .ald [] false (some d))
def execAst (d : SReg) (c : CReg) (off : BitVec 24) (s : State) : Result :=
  .next (s.issueHome (s.creg c) (memAddr (s.creg c) off) 4 permWrite (.ast ((s.sreg d).setWidth 32)) [] false none)

/-! ### Semaphores (Table 9.2) -/

/-- A word that waits or jumps in a stub raises ILL (R336). -/
def State.waitWord (s : State) (f : State → State) : Result :=
  if s.core.iss.inStub then .next (s.ctlFault .ill 0 14) else .next (f s)

def execSsig (d : SReg) (c : CReg) (scope : Scope) (off : BitVec 24) (s : State) : Result :=
  let x := s.effective scope
  .next ((s.issueHome (s.creg c) (memAddr (s.creg c) off) 4 permRW (.ssig ((s.sreg d).setWidth 32))
    (s.covered x ++ s.fenced) false none).demote scope)
def execSset (d : SReg) (c : CReg) (off : BitVec 24) (s : State) : Result :=
  .next (s.issueHome (s.creg c) (memAddr (s.creg c) off) 4 permWrite (.sset ((s.sreg d).setWidth 32)) s.fenced false none)
def execSwait (d : SReg) (c : CReg) (cond : Cond) (off : BitVec 24) (s : State) : Result :=
  s.waitWord fun s => s.issueHome (s.creg c) (memAddr (s.creg c) off) 4 permRead
    (.swait ((s.sreg d).setWidth 32) cond false) [] true none
def execSwaitConsume (d : SReg) (c : CReg) (unsigned : Bool) (off : BitVec 24) (s : State) : Result :=
  s.waitWord fun s => s.issueHome (s.creg c) (memAddr (s.creg c) off) 4 permRW
    (.swait ((s.sreg d).setWidth 32) (if unsigned then .geu else .ge) true) [] true none
def execRel (d : SReg) (c : CReg) (scope : Scope) (off : BitVec 24) (s : State) : Result :=
  let x := s.effective scope
  .next ((s.issueHome (s.creg c) (memAddr (s.creg c) off) 4 permWrite (.sset ((s.sreg d).setWidth 32))
    (s.covered x ++ s.fenced) false none).demote scope)
/-- The acquire's scope adds nothing, since no data is cached (R256); SD is not set (R211). -/
def execAcq (d : SReg) (c : CReg) (cond : Cond) (_scope : Scope) (off : BitVec 24) (s : State) : Result :=
  s.waitWord fun s => s.issueHome (s.creg c) (memAddr (s.creg c) off) 4 permRead
    (.swait ((s.sreg d).setWidth 32) cond false) [] true none
/-- R228. -/
def execCarry (d : SReg) (c : CReg) (off : BitVec 24) (s : State) : Result :=
  .next (s.issueHome (s.creg c) (memAddr (s.creg c) off) 8 permRW (.carry ((s.sreg d).setWidth 16) s.myGroup)
    (s.covered .tenant ++ s.fenced) false (some d))

/-! ### Rings (Table 9.3) -/

/-- R217. The new ring stands from the column's place in the cycle on, so that a ring operation which acts at the end of the same
cycle finds it: the spec orders the two nowhere (notes/assumptions/102.md). -/
def execRinit (rn : RnReg) (a : SReg) (s : State) : Result :=
  let x := (s.sreg a).toNat
  let first := natBits x 55 7
  let last := natBits x 48 7
  let sz := natBits x 36 12
  let reg := BitVec.ofNat 64 (first * 2 ^ 55 + last * 2 ^ 48 + sz * 2 ^ 36)
  if first ≤ last && last ≤ 95 && 1 ≤ sz && sz ≤ 3072 && 2 ≤ ringSlots reg then
    .next ((s.modC fun c => { c with rn := c.rn.set rn.toNat ⟨reg, [], []⟩ rn.isLt }).advance 1)
  else .next (s.ctlFault .ringerr 0)

/-- The issue of a ring home operation: steps 1 to 4 of R102, and a cursor in the banks of a window (R216). -/
def State.issueRing (s : State) (c : CReg) (rn : RnReg) (need : Nat) (what : HomeDo) (blockers : Nat → List Nat) (waits : Bool)
    (dst : Option SReg) : State :=
  let c := s.creg c
  match c.authority s.myWorld need with
  | some f => s.ctlFault f c.cur
  | none =>
    match placeOf c.cur.toNat with
    | .slice i (.bank _) =>
      s.sendHome c.cur what (.ring i rn) (homeCost s.cur i) (blockers i) waits dst (BitVec.ofNat 64 c.base) c.top
    | _ => s.ctlFault .capperm c.cur

/-- The copies an RPUB awaits: those into the ring's banks at the home (R219). -/
def State.ringCopies (s : State) (rn : RnReg) (i : Nat) : List Nat :=
  let r := ((s.getCore i).rn[rn.toNat]'rn.isLt).reg.toNat
  let lo := bankBase i (natBits r 55 7)
  let hi := bankBase i (natBits r 48 7 + 1)
  (s.myCopies.filter fun c => (s.destination c).any fun (a, n) => a < hi && lo < a + n).map (·.id)

def execRclm (d : SReg) (c : CReg) (rn : RnReg) (n : BitVec 12) (s : State) : Result :=
  .next (s.issueRing c rn permWrite (.rclm n.toNat) (fun _ => []) false (some d))
def execRwfl (d : SReg) (c : CReg) (rn : RnReg) (n : BitVec 12) (s : State) : Result :=
  s.waitWord fun s => s.issueRing c rn permRead (.rwfl n.toNat) (fun _ => []) true (some d)
def execRwfr (d : SReg) (c : CReg) (rn : RnReg) (n : BitVec 12) (s : State) : Result :=
  s.waitWord fun s => s.issueRing c rn permWrite (.rwfr n.toNat) (fun _ => []) true (some d)
def execRpub (c : CReg) (rn : RnReg) (n : BitVec 12) (s : State) : Result :=
  .next (s.issueRing c rn permWrite (.rpub n.toNat) (fun i => s.ringCopies rn i ++ s.fenced) false none)
def execRrel (c : CReg) (rn : RnReg) (n : BitVec 12) (s : State) : Result :=
  .next (s.issueRing c rn permRead (.rrel n.toNat) (fun _ => []) false none)
def execRstat (d : SReg) (c : CReg) (rn : RnReg) (s : State) : Result :=
  .next (s.issueRing c rn permRead .rstat (fun _ => []) false (some d))

/-! ### At the home -/

/-- What an operation gives at its home: the state, and the returned value, a fault, or a condition that does not hold. -/
inductive Acted where
  | done (s : State) (v : Option W64)
  | fault (s : State) (c : Cause) (addr : W64)
  | wait
deriving DecidableEq, Repr

/-- Physical address of a home word. -/
def HomeAt.addr : HomeAt → Nat
  | .acc i w => accBase i + 4 * w
  | .host a _ => a
  | _ => 0

/-- A home word without an uncorrectable error (R174, R253). -/
def State.readable (s : State) (h : HomeAt) : Bool :=
  match h with
  | .host a key => s.mem.lineOk key a && !s.mem.damaged a
  | h => !s.mem.damaged h.addr

/-- Write a home word: a write that does not read it clears an accumulator word's poison mark (R174). -/
def State.writeHome (s : State) (h : HomeAt) (world off : Nat) (w : W32) : State :=
  match h with
  | .host a _ => (s.modMem (·.setWord (a + off) w)).dirty world (a + off)
  | h => s.modMem fun m => (m.setWord (h.addr + off) w).clearPoison (unitOf (h.addr + off))

/-- An uncorrectable word: marked, and UCDATA for the asker (R174). A host-side line that fails is poisoned when the operation
would write part of it (R253), and noted (R306). -/
def State.badHome (s : State) (h : HomeAt) (va : W64) (writes : Bool) : Acted :=
  match h with
  | .host a key => .fault (if writes then s.failLine key a else s.noteDamage (lineOf a) true) .ucdata
      (va - BitVec.ofNat 64 (a % 256))
  | h => .fault (s.modMem (·.markPoison h.addr)) .ucdata (BitVec.ofNat 64 h.addr)

/-- The condition and result of a word operation (Table 6.4, Table 9.2). `none` for the new word leaves it. -/
def HomeDo.onWord (what : HomeDo) (old : W32) : Option (Option W32 × Option W64) :=
  let v : Option W64 := some (old.setWidth 64)
  match what with
  | .aadd x int => some (some (if int then old + x else addF32 old x), v)
  | .axch x => some (some x, v)
  | .acas cmp x => some (if old == cmp then some x else none, v)
  | .ald => some (none, v)
  | .ast x => some (some x, none)
  | .ssig x => some (some (old + x), none)
  | .sset x => some (some x, none)
  | .swait x cond consume => if Cond.holds cond old x then some (if consume then some (old - x) else none, v) else none
  | _ => some (none, none)

def HomeDo.plainWrite : HomeDo → Bool
  | .ast _ | .sset _ => true
  | _ => false

/-- The operation writes its word, where its condition holds. -/
def HomeDo.writes : HomeDo → Bool
  | .ald | .swait _ _ false => false
  | _ => true

/-- CARRY at its descriptor (R228). -/
def State.actCarry (s : State) (op : HomeOp) (owner group : BitVec 16) : Acted :=
  let a := op.home.addr
  let world := op.world
  let second : HomeAt := match op.home with
    | .acc i w => .acc i (w + 1)
    | h => h
  if !s.readable op.home then s.badHome op.home op.addr true
  else if !s.readable second then s.badHome second (op.addr + 4) true
  else if (s.mem.word a).setWidth 16 != group then .fault s .owner op.addr
  else
    let layer := s.mem.word (a + 4) + 1
    let s := s.writeHome op.home world 0 (owner.setWidth 32)
    .done (s.writeHome op.home world 4 layer) (some (layer.setWidth 64))

/-- A word operation at its home. -/
def State.actWord (s : State) (op : HomeOp) : Acted :=
  match op.what with
  | .carry owner group => s.actCarry op owner group
  | what =>
    let host := match op.home with | .host _ _ => true | _ => false
    if !s.readable op.home && (host || !what.plainWrite) then s.badHome op.home op.addr what.writes
    else
      match what.onWord (s.mem.word op.home.addr) with
      | none => .wait
      | some (none, v) => .done s v
      | some (some w, v) => .done (s.writeHome op.home op.world 0 w) v

/-! Rings at their home (R215, R218). -/

def Ring.free (r : Ring) : Int :=
  (ringSlots r.reg : Int) - 1 - ringPublished r.reg - ringClaim r.reg

/-- Mark the `n` oldest unmarked claims of core `p`. -/
def markClaims (p n : Nat) : List Claim → List Claim
  | [] => []
  | c :: r => if n != 0 && c.core == p && !c.marked then { c with marked := true } :: markClaims p (n - 1) r
              else c :: markClaims p n r

/-- Act on a ring for core `p`: the ring and the value, RINGERR, or a condition that does not hold. -/
def Ring.act (r : Ring) (p : Nat) (what : HomeDo) : Except Bool (Ring × Option W64) :=
  let n := ringSlots r.reg
  let head := ringHead r.reg
  let tail := ringTail r.reg
  let claim := ringClaim r.reg
  match what with
  | .rclm k =>
    if (k : Int) ≤ r.free then
      let first := (head + claim) % n
      .ok ({ r with reg := ringSet r.reg head tail (claim + k)
                    claims := r.claims ++ (List.range k).map fun i => ⟨(first + i) % n, p, false⟩ },
        some (BitVec.ofNat 64 first))
    else .ok (r, some (BitVec.allOnes 64))
  | .rwfl k => if k ≤ ringPublished r.reg then .ok (r, some (BitVec.ofNat 64 tail)) else .error false
  | .rwfr k => if (k : Int) ≤ r.free then .ok (r, some (BitVec.ofInt 64 r.free)) else .error false
  | .rpub k =>
    if (r.claims.filter fun c => c.core == p && !c.marked).length < k then .error true
    else .ok (Ring.publish { r with claims := markClaims p k r.claims }, none)
  | .rrel k =>
    if ringPublished r.reg < k then .error true
    else .ok ({ r with reg := ringSet r.reg head ((tail + k) % n) claim
                       voids := r.voids.filter fun v => !((List.range k).any fun i => (tail + i) % n == v) }, none)
  | .rstat =>
    .ok (r, some (r.reg ||| (if 1 ≤ ringPublished r.reg && r.voids.contains tail then 1#64 <<< 63 else 0)))
  | _ => .ok (r, none)

/-- A core whose rings answer: bound to a task of the world (R218), whether it runs, stands between runs or is sealed; not the
cores that a violation has left behind. -/
def State.ringHomeOk (s : State) (world i : Nat) : Bool :=
  let c := s.getCore i
  c.iss.status != .free && c.iss.status != .stopped && c.iss.status != .frozen && c.sys.world.toNat == world

def State.actRing (s : State) (op : HomeOp) (i : Nat) (rn : RnReg) (p : Nat) : Acted :=
  let c := s.getCore i
  let r := c.rn[rn.toNat]'rn.isLt
  let first := natBits r.reg.toNat 55 7
  let last := natBits r.reg.toNat 48 7
  if !s.ringHomeOk op.world i then .fault s .capperm op.addr
  else if natBits r.reg.toNat 36 12 == 0 || c.bnd.movedStage then .fault s .ringerr op.addr
  else if !(op.lo.toNat ≤ bankBase i first && bankBase i (last + 1) ≤ op.hi) then .fault s .capbnd op.addr
  else
    match r.act p op.what with
    | .error true => .fault s .ringerr op.addr
    | .error false => .wait
    | .ok (r, v) => .done (s.modCore i fun c => { c with rn := c.rn.set rn.toNat r rn.isLt }) v

/-- The act on a word of a core that a scan holds: no effect, and the word reads as zero (R357). -/
def HomeOp.actVoid (op : HomeOp) (s : State) : Acted :=
  match op.what.onWord 0 with
  | none => .wait
  | some (_, v) => .done s (if op.dst.isSome then some (v.getD 0) else v)

/-- The act of an operation at its home. -/
def State.actAt (s : State) (op : HomeOp) : Acted :=
  match op.home, op.asker with
  | .ring i rn, .core p => s.actRing op i rn p
  | .ring _ _, _ => .done s none
  | h, _ => if s.heldAway h.addr then op.actVoid s else s.actWord op

/-! ### Acting and returning -/

def State.modHome (s : State) (id : Nat) (f : HomeOp → HomeOp) : State :=
  s.modEng fun e => { e with homes := e.homes.map fun h => if h.id == id then f h else h }
def State.dropHome (s : State) (id : Nat) : State := s.modEng fun e => { e with homes := e.homes.filter (·.id != id) }

/-- ALD returns H cycles after its act, everything else 3 + H (R171, R209). -/
def HomeOp.back (op : HomeOp) : Nat :=
  match op.what with
  | .ald => op.h
  | _ => 3 + op.h

/-- The value a faulting atomic returns (R174). -/
def HomeDo.badValue : HomeDo → Option W64
  | .aadd _ _ | .axch _ | .acas _ _ | .ald => some 0x7FC0DEAD
  | _ => none

/-- A command queue stops with a fault of command `id` (`none`: of its last entry): frozen by a violation, else in error
(R399, Table 15.4). RIDX and RPADDR then name the entry after the faulting one (R397). -/
def State.queueStop (s : State) (k : Nat) (id : Option Nat) (c : Cause) (violation : Bool) : State :=
  (s.modDisp fun d => { d with xlates := d.xlates.filter fun x => x.who != .queue k }).modEng fun e => { e with queues := e.queues.map fun (j, q) =>
    if j == k && (q.state != 4 && (q.state != 3 || violation)) then
      let i := (q.busy.find? fun (b, _) => some b == id).map (·.2)
      (j, { q with
        state := if violation then 4 else 3, entry := none, holdXlate := false
        errc := BitVec.ofNat 8 c.code
        ridx := match i with
          | some i => i + 1
          | none => q.ridx
        faulted := match i with
          | some i => i + 1 != q.ridx || q.faulted
          | none => q.faulted })
    else (j, q) }

/-- HOME_OPERATION_ACT: an operation due in this cycle acts (R168, R209). A waiting operation whose condition does not hold
stays (R210). -/
def execHomeOperationAct (id : Nat) (s : State) : Result :=
  match s.eng.homes.find? (·.id == id) with
  | none => .next s
  | some op =>
    match s.actAt op with
    | .wait => .next s
    | .done s v =>
      let s := s.accessDone id s.tb
      match op.asker with
      | .core _ =>
        if op.dst.isNone && !op.waits then .next (s.dropHome id)
        else .next (s.modHome id fun h => { h with acted := true, ret := s.tb + op.back, value := v })
      | .queue _ =>
        .next (if op.waits then s.modHome id fun h => { h with acted := true, ret := s.tb + op.back } else s.dropHome id)
      | .host w => .next ((s.say (.read w (leBytes (v.getD 0).toNat 4) false)).dropHome id)
    | .fault s c a =>
      match op.asker with
      | .core _ =>
        let s := s.accessDone id s.tb
        .next (s.modHome id fun h => { h with acted := true, ret := s.tb + op.back, fault := some (c, a, 0),
                                              value := op.what.badValue })
      | .queue k => .next ((s.queueStop k (some id) c c.violation |>.accessGone id).dropHome id)
      | .host w => .next ((s.say (.aborted w)).dropHome id)

/-- Debug state holds the task in this cycle (R347, R349). -/
def Core.frozen (c : Core) : Bool := c.sys.dbg && c.iss.steps == 0

/-- The return of an acted operation to its core: a register write or a fault (R171, R209); debug state does not hold it
(R347). Returns to a run that
was abandoned are discarded (R327); a frozen task still receives its results in flight (Table 15.4). -/
def State.homeReturn (s : State) (op : HomeOp) (i : Nat) : State :=
  let live := (s.getCore i).iss.run == op.run
  let s := s.dropHome op.id
  if !live then s
  else
    let s := match op.dst, op.value with
      | some d, some v =>
        s.modCore i fun c =>
          if c.frozen then c.apply (.s d v)
          else { c with iss := { c.iss with pend := insertPend c.iss.pend ⟨s.tb, .s d v, none, op.issue⟩ } }
      | _, _ => s
    match op.fault with
    | some (c, a, det) => s.deferFault i c a 7 det op.pc op.issue
    | none => s

def execHomeOperationReturn (id : Nat) (s : State) : Result :=
  match s.eng.homes.find? (·.id == id) with
  | some op =>
    match op.asker with
    | .core i => .next (s.homeReturn op i)
    | _ => .next (s.dropHome id)
  | none => .next s

/-- HOME_WAIT_COMPLETE: the wait ends, the anchor moves, the next word issues in the next cycle (R210). -/
def execHomeWaitComplete (id : Nat) (s : State) : Result :=
  match s.eng.homes.find? (·.id == id) with
  | some op =>
    match op.asker with
    | .core i =>
      let s := s.homeReturn op i
      if op.fault.isSome then .next s
      else
        let t := s.focus i
        if t.core.iss.wait == .home id then .next t.completeWait else .next s
    | _ => .next (s.dropHome id)
  | none => .next s

end Sys2Proof.Machine
end

