-- ==== Sys2Proof/Machine/Phase.lean ====
section
/-!
DEFINITION. Domain phases, FENCE and WEV (R222 to R226, R230, R231, R369).
-/
namespace Sys2Proof.Machine

open Sys2Proof

/-! ### The phase unit (R224) -/

/-- The phase number as a core sees it: a completion of cycle C shows from C + B. -/
def State.seenPhase (s : State) (core lvl : Nat) : BitVec 32 :=
  match s.domain? (s.domainOf core lvl) with
  | some d => d.p - BitVec.ofNat 32 (d.comps.filter fun (_, c) => s.tb < c + phaseB lvl c).length
  | none => 0

/-- A core counts as arrived at a phase. -/
def Domain.arrived (d : Domain) (p : BitVec 32) (core : Nat) : Bool :=
  d.retired.contains core || d.arrivals.any fun (c, q) => c == core && q == p

/-- The groups of this package that belong to a domain, as their cores. -/
def State.groupsOf (s : State) (id lvl : Nat) : List (List Nat) :=
  s.disp.jettons.filterMap fun (j, x) =>
    match x.group with
    | some g =>
      match g.cores with
      | i :: _ => if x.domain j i lvl == id then some g.cores else none
      | [] => none
    | none => none

/-- Link number of a domain identifier; 0 for a domain that is no linked one. -/
def domainLink (id : Nat) : Nat :=
  if id % 2 ^ 32 < 2 ^ 20 then 0 else (id % 2 ^ 32 - 2 ^ 20) / 2

/-- Groups that a linked domain waits for (the link table, Table 19.6). -/
def State.linkCount (s : State) (link lvl : Nat) : Nat :=
  match s.disp.links.find? fun (l, _, _, _) => l.toNat == link with
  | some (_, a, b, c) => if lvl == 2 then a else if lvl == 3 then b else c
  | none => 0

/-- Every required member has arrived at phase `p`. Arrivals of masters numbered from 4,096 up are whole groups of other
packages (R369). -/
def State.membersIn (s : State) (d : Domain) (p : BitVec 32) : Bool :=
  let lvl := d.lvl.toNat
  if lvl == 0 then d.arrived p (d.id % 4096)
  else
    let full := (s.groupsOf d.id lvl).filter fun g => g.all (d.arrived p)
    let link := domainLink d.id
    if link == 0 then !full.isEmpty
    else
      let far := (d.arrivals.filter fun (c, q) => 4096 ≤ c && q == p).length
      s.linkCount link lvl ≤ full.length + far && 0 < full.length + far

/-- Complete phases from cycle `c` on: each takes the cycle in which the unit holds all it needs, one cycle apart. -/
def State.completePhases (s : State) (id c fuel : Nat) : State :=
  match fuel with
  | 0 => s
  | fuel + 1 =>
    match s.domain? id with
    | none => s
    | some d =>
      if !d.broken && s.membersIn d d.p && !(d.copies.any fun (_, q) => q == d.p) then
        let s := s.modDomain id fun d => { d with
          p := d.p + 1, comps := (d.comps.filter fun (_, c') => s.tb ≤ c' + phaseB d.lvl.toNat c') ++ [(d.p, c)],
          arrivals := d.arrivals.filter fun (_, q) => q != d.p }
        s.completePhases id (c + 1) fuel
      else s

/-- The unit after an event: at most two phases can be complete, since no arrival is beyond P + 1 (R223). -/
def State.phaseEvent (s : State) (id : Nat) (f : Domain → Domain) : State :=
  (s.modDomain id f).completePhases id s.tb 2

/-- PHASE_ARRIVAL: an arrival reaches the unit. That of a retirement, which is at the phase after the core's last arrival,
counts for every phase from now on. -/
def execPhaseArrival (dom core : Nat) (p : BitVec 32) (s : State) : Result :=
  let c := s.getCore core
  let gone := c.hasRetired && c.bnd.alpha.toList[dom / 2 ^ 32]? == some p
  .next (s.phaseEvent dom fun d => { d with
    arrivals := if d.arrivals.contains (core, p) then d.arrivals else d.arrivals ++ [(core, p)]
    retired := if gone && !d.retired.contains core then d.retired ++ [core] else d.retired })

/-- PHASE_COPY_REGISTRATION: the unit waits for the copy from now on. -/
def execPhaseCopyRegistration (dom id : Nat) (p : BitVec 32) (s : State) : Result :=
  .next (s.phaseEvent dom fun d => { d with copies := d.copies ++ [(id, p)] })

/-- The unit hears that it need not wait for a copy any more; of a copy whose registration is still on its way, only after
that has reached it (the latencies of level 4 are not fixed, R369). -/
def State.phaseCopyOver (s : State) (dom id : Nat) (p : BitVec 32) (i : Instr) : State :=
  match s.agenda.find? fun e => e.2 == .phaseCopyRegistration dom id p with
  | some e => s.at_ e.1 i
  | none => s.phaseEvent dom fun d => { d with copies := d.copies.filter (· != (id, p)) }

/-- PHASE_COPY_LANDING: the counted copy has landed. -/
def execPhaseCopyLanding (dom id : Nat) (p : BitVec 32) (s : State) : Result :=
  .next (s.phaseCopyOver dom id p (.phaseCopyLanding dom id p))

/-- PHASE_COPY_WITHDRAWAL: the unit stops waiting for a cancelled copy. -/
def execPhaseCopyWithdrawal (dom id : Nat) (p : BitVec 32) (s : State) : Result :=
  .next (s.phaseCopyOver dom id p (.phaseCopyWithdrawal dom id p))

/-! ### PARV, PWAIT, PBAR (R222, R223) -/

def State.alpha (s : State) (lvl : BitVec 3) : BitVec 32 := (s.core.bnd.alpha.toList[lvl.toNat]?).getD 0

/-- The arrival: a fault for α beyond P + 1, else the unit hears of it A cycles later and α moves on. -/
def State.arrive (s : State) (lvl : BitVec 3) (f : State → BitVec 32 → State) : State :=
  let l := lvl.toNat
  let a := s.alpha lvl
  if 4 < l then s.ctlFault .ill 0
  else if !serialLT a (s.seenPhase s.cur l + 2) then s.ctlFault .timing 0
  else
    let lat := s.phaseA l
    let s := s.at_ (s.tb + lat) (.phaseArrival (s.domainOf s.cur l) s.cur a)
    let s := if l == 4 then { s with free := s.free + 1 } else s
    f (s.modBnd fun b => { b with alpha := b.alpha.setIfInBounds l (a + 1) }) a

def execParv (d : SReg) (lvl : BitVec 3) (s : State) : Result :=
  .next (s.arrive lvl fun s a => (s.put 1 (.s d (a.setWidth 64))).advance 1)
def execPwait (lvl : BitVec 3) (a : SReg) (s : State) : Result :=
  s.waitWord fun s =>
    if 4 < lvl.toNat then s.ctlFault .ill 0 else s.await (.phase lvl ((s.sreg a).setWidth 32))
def execPbar (lvl : BitVec 3) (s : State) : Result :=
  s.waitWord fun s => s.arrive lvl fun s a => s.await (.phase lvl a)

/-- The condition of a phase wait: the phase shows complete in the core's view. -/
def State.phaseShown (s : State) (core : Nat) (lvl : BitVec 3) (p : BitVec 32) : Bool :=
  serialLT p (s.seenPhase core lvl.toNat)

/-- PHASE_WAIT_COMPLETE (R224). -/
def execPhaseWaitComplete (core : Nat) (s : State) : Result :=
  let t := s.focus core
  match t.core.iss.wait with
  | .phase lvl p => .next (if s.phaseShown core lvl p then t.completeWait else t)
  | _ => .next s

/-! ### FENCE and WEV -/

/-- R226: what the fence covers holds back later copies and releases until it has taken effect. -/
def execFence (scope : Scope) (s : State) : Result :=
  let ids := s.covered (s.effective scope) ++ s.fenced
  .next (((s.modIss fun x => { x with fence := ids.eraseDups }).demote scope).advance 1)

def execWev (s : State) : Result := s.waitWord fun s => s.await .wev

/-- WEV_COMPLETE: every selected condition holds; the selected sticky flags are cleared (R231). -/
def execWevComplete (core : Nat) (s : State) : Result :=
  let t := s.focus core
  if t.core.iss.wait == .wev && t.eventsHold then .next t.clearEvents.completeWait else .next s

end Sys2Proof.Machine
end

