-- ==== Sys2Proof/Machine/Beat.lean ====
section
/-!
DEFINITION. What one beat of a copy reads and writes: translation of a range, the conversion of its elements (R61 to R65, R278), path bases (Table 11.4, R422) and
frame slots (R394).
-/
namespace Sys2Proof.Machine

open Sys2Proof

/-! ### Ranges and their locations -/

/-- A contiguous physical piece of a range, with the world address of its first byte and the key of its line. A `void` piece
lies in the window of a core that a scan holds: the firmware world's access has no effect there and reads zeros (R357). -/
structure PRun where
  pa : Nat
  n : Nat
  va : Nat
  key : Nat
  void : Bool
deriving DecidableEq, Repr

/-- What stops a beat before it reads or writes (R277, R290, R291). -/
inductive Stop where
  | xlate (va : Nat)
  | refused (c : Cause) (va : Nat)
  /-- A table line that fails verification (R237). -/
  | table (va : Nat)
deriving DecidableEq, Repr

/-- One page of a range. `gid` is the writing group where R245 applies. -/
def State.resolvePage (s : State) (world : Nat) (gid : Option (BitVec 16)) (va n : Nat) (write fetch : Bool) : Except Stop PRun :=
  if inSram va then
    if s.windowOk world va write fetch then .ok ⟨va, n, va, world, false⟩
    else if world == 257 && s.heldAway va then .ok ⟨va, n, va, world, true⟩
    else .error (.refused .capperm va)
  else if world == 257 then
    if placeOf va == .hbm then .ok ⟨va, n, va, s.lineKey 257 va, false⟩ else .error (.refused .capperm va)
  else
    match s.translate world (BitVec.ofNat 64 va) with
    | .xlate => .error (.xlate va)
    | .refused => .error (.refused .capperm va)
    | .uc => .error (.table va)
    | .ok pa a _ =>
      if !a.admits world write || (inSram pa && !s.windowOk world pa write fetch) then .error (.refused .capperm va)
      else
        match gid with
        | some g => if write && !s.ownerOk world g a then .error (.refused .owner va) else .ok ⟨pa, n, va, s.lineKey (a.key world) pa, false⟩
        | none => .ok ⟨pa, n, va, s.lineKey (a.key world) pa, false⟩

/-- The pieces of [va, va + n), page by page. -/
def State.resolve (s : State) (world : Nat) (gid : Option (BitVec 16)) (va n : Nat) (write fetch : Bool) (fuel : Nat) :
    Except Stop (List PRun) :=
  match fuel with
  | 0 => .ok []
  | fuel + 1 =>
    if n == 0 then .ok []
    else
      let k := min n (4096 - va % 4096)
      match s.resolvePage world gid va k write fetch with
      | .error e => .error e
      | .ok r =>
        match s.resolve world gid (va + k) (n - k) write fetch fuel with
        | .error e => .error e
        | .ok l => .ok (r :: l)

/-! ### Path bases (Table 11.4, R422) -/

def Place.deep : Place → Bool
  | .slice _ (.deep _) => true
  | _ => false

/-- D between two places for an issuer; `io` for an I/O-die engine. No source (FILL) is the engine's own die. -/
def pathBase (io : Bool) (issuer : Nat) (src : Option Place) (dst : Place) : Nat :=
  match src.map Place.core?, dst.core? with
  | none, _ => 210
  | some none, none => 420
  | some (some i), some j =>
    let deep := (src.map Place.deep).getD false || dst.deep
    if io then 210
    else if i == issuer && j == issuer then (if deep then 12 else 8)
    else 16 + 2 * hops i j + 18 * crossings i j + (if deep then 4 else 0)
  | _, _ => 210

/-- Engines 4,096 + e are fabric engine e of Table 11.1; below that, the local engine of the core. -/
def ioEngine (e : Nat) : Bool := 4096 + 192 ≤ e

/-- The fabric engine of an issuing core (R266). -/
def fabricEngine (i : Nat) : Nat :=
  let d := i / 256
  4096 + (if d < 4 then 16 * d + i % 16 else 64 + 32 * (d - 4) + i % 32)

/-- Entries of an engine's time buffer (Table 11.1). -/
def bufferSize (e : Nat) : Nat := if e < 4096 then 64 else 512

/-! ### Block formats (R278) -/

/-- Source bytes of elements [e, e + cnt) of a copy of `total` elements: offset and length; planar blocks are read whole. -/
def srcSpan (sf : Fmt) (e cnt total : Nat) : Nat × Nat :=
  if sf.isBlock then
    let lo := e / 64 * sf.blockBytes
    let hi := if sf.isPlanar then (e + cnt + 63) / 64 * sf.blockBytes else min ((e + cnt + 63) / 64 * sf.blockBytes) ((total * sf.half + 1) / 2)
    (lo, hi - lo)
  else (e * sf.half / 2, (cnt * sf.half + 1) / 2)

/-- Zero bytes up to a length. -/
def padTo (n : Nat) (bs : List Byte) : List Byte := bs ++ List.replicate (n - bs.length) 0

/-- Cut a list into `k` pieces of `w`. -/
def chunks (w k : Nat) (bs : List Byte) : List (List Byte) :=
  match k with
  | 0 => []
  | k + 1 => bs.take w :: chunks w k (bs.drop w)

/-- Values of `cnt` source elements from their bytes and block exponents. -/
def sourceValues (sf : Fmt) (cnt : Nat) (bs exps : List Byte) : List FVal :=
  if sf.isBlock then
    let blocks := (cnt + 63) / 64
    (((chunks sf.blockBytes blocks (padTo (blocks * sf.blockBytes) bs)).zip (padTo blocks exps)).flatMap fun (b, e) =>
      sf.blockValues b e).take cnt
  else (sf.split bs).map sf.value

/-- Destination blocks of values: mantissa bytes and exponents (R63). -/
def blockOut (df : Fmt) (rnd : Rnd) (vs : List FVal) (fuel : Nat) : List Byte × List Byte :=
  match fuel with
  | 0 => ([], [])
  | fuel + 1 =>
    if vs.isEmpty then ([], [])
    else
      let v := vs.take 64
      let (b, e) := df.ofValues rnd (v ++ List.replicate (64 - v.length) (.fin false 0 0))
      let (bs, es) := blockOut df rnd (vs.drop 64) fuel
      (b ++ bs, e :: es)

/-- The destination bytes of a beat of a CPY with a block format on a side, and the exponents they set (R62, R278). -/
def blockBeat (sf df : Fmt) (rnd : Rnd) (cnt len : Nat) (bs exps : List Byte) : List Byte × List Byte :=
  match conversion sf df with
  | .planar =>
    let blocks := (cnt + 63) / 64
    ((((chunks sf.blockBytes blocks (padTo (blocks * sf.blockBytes) bs)).flatMap fun b => df.ofMants (sf.mants b))).take len, exps)
  | .unblock => (df.join ((sourceValues sf cnt bs exps).map fun v => df.pattern rnd v), [])
  | .block =>
    let (b, e) := blockOut df rnd (sourceValues sf cnt bs exps) ((cnt + 63) / 64)
    (b.take len, e)
  | _ => (bs, exps)

/-- Scalar elements converted one by one (Table 2.7). -/
def scalarBeat (sf df : Fmt) (rnd : Rnd) (bs : List Byte) : List Byte :=
  df.join ((sf.split bs).map fun p => df.pattern rnd (sf.value p))

/-- The bytes a pad element gives (R65, Table 2.8). -/
def padBytes (sf df : Fmt) (rnd : Rnd) (pad : W32) : List Byte :=
  let p := sf.padPattern pad
  if sf == .raw || sf == .ring then List.replicate (max 1 (df.half / 2)) (BitVec.ofNat 8 p)
  else if conversion sf df == .scalar then leBytes (df.pattern rnd (sf.value p)) (df.half / 2) else leBytes p (max 1 (df.half / 2))

/-! ### Slots (R394, R395) -/

def hbmStack (pa : Nat) : Nat := (pa - hbmBase) / 0x1000000000

/-- The next slot of a world's class from cycle `c` in which its controller still moves `lines` of the 12 lines. -/
def State.findSlot (s : State) (mask : BitVec 1024) (world stack lines c fuel : Nat) : Option Nat :=
  match fuel with
  | 0 => none
  | fuel + 1 =>
    let used := (s.eng.slotUse.filter fun (t, k, w, _) => t == c && k == stack && w == world).foldl (fun n (_, _, _, l) => n + l) 0
    if mask.getLsbD (c % 1024) && used + lines ≤ 12 then some c else s.findSlot mask world stack lines (c + 1) fuel

/-- Lines of 256 bytes that the HBM pieces of a list touch. -/
def linesOf (rs : List PRun) : Nat :=
  (rs.filter fun r => placeOf r.pa == .hbm).foldl (fun n r => n + (r.pa % 256 + r.n + 255) / 256) 0

/-- The slot that the HBM pieces of an access find, `c` itself when none is in HBM; taken slots are counted. With no owned
slot the access tries again a frame later. -/
def State.takeSlot (s : State) (world cls : Nat) (rs : List PRun) (c : Nat) : Bool × Nat × State :=
  match rs.find? fun r => placeOf r.pa == .hbm with
  | none => (true, c, s)
  | some r =>
    let stack := hbmStack r.pa
    match s.findSlot (s.hbmMask world cls) world stack (min 12 (linesOf rs)) c 2048 with
    | some t =>
      (true, t, s.modEng fun e => { e with
        slotUse := (e.slotUse.filter fun (u, _, _, _) => s.tb ≤ u) ++ [(t, stack, world, min 12 (linesOf rs))] })
    | none => (false, c + 1024, s)

/-! ### Reading (R271, R331, R253) -/

/-- The failing unit of a read, as physical base and FADDR, and whether the memory controller found it. -/
def State.badRead (s : State) (rs : List PRun) : Option (Nat × Nat × Bool) :=
  match rs with
  | [] => none
  | r :: l =>
    if r.void then s.badRead l
    else if placeOf r.pa == .hbm then
      match (s.mem.badLine r.key r.pa r.n).orElse fun _ => s.mem.firstDamage r.pa r.n with
      | some u => some (u, r.va + u - r.pa, true)
      | none => s.badRead l
    else
      match s.mem.firstDamage r.pa r.n with
      | some u => some (u, u, false)
      | none => s.badRead l

/-- A piece of a weight segment that has not arrived (R313). -/
def State.missingPiece (s : State) (rs : List PRun) : Option Nat :=
  rs.findSome? fun r =>
    s.eng.segments.findSome? fun g =>
      match g.frame with
      | some f => if f ≤ r.pa && r.pa < f + 0x200000 && !g.pieces.getLsbD ((r.pa - f) / 65536) then some (r.pa / 65536 * 65536) else none
      | none => none

def State.readPieces (s : State) (rs : List PRun) : List Byte :=
  rs.flatMap fun r => if r.void then List.replicate r.n 0 else s.mem.read r.pa r.n

/-- Bytes laid over pieces, in order. -/
def spread (rs : List PRun) (bs : List Byte) : List (Nat × List Byte) :=
  match rs with
  | [] => []
  | r :: l => if r.void then spread l (bs.drop r.n) else (r.pa, bs.take r.n) :: spread l (bs.drop r.n)

end Sys2Proof.Machine
end

