-- ==== Sys2Proof/Machine/Copy.lean ====
section
/-!
DEFINITION. The copy engines: what a command checks and enters (R267 to R270, R278 to R287), the engine issue, each beat's read
and landing (R271 to R274, R277, R290, R291), and the copy control group (R289).
-/
namespace Sys2Proof.Machine

open Sys2Proof

/-! ### The job card (Table 11.2) -/

def cardTag (x : W64) : BitVec 16 := x.extractLsb' 48 16
def cardTen (x : W64) : Bool := x.getLsbD 47
def cardWen (x : W64) : Bool := x.getLsbD 46
def cardPen (x : W64) : Bool := x.getLsbD 41
def cardPl (x : W64) : BitVec 3 := x.extractLsb' 38 3
def cardPlo (x : W64) : Nat := natBits x.toNat 35 3
def cardSen (x : W64) : Nat := natBits x.toNat 33 2
def cardSemw (x : W64) : Nat := natBits x.toNat 19 14
def cardSfmt (x : W64) : Fmt := Fmt.of (x.extractLsb' 15 4)
def cardDfmt (x : W64) : Fmt := Fmt.of (x.extractLsb' 11 4)
def cardDrnd (x : W64) : BitVec 3 := x.extractLsb' 8 3

/-- A reserved code or a nonzero reserved bit (R269). -/
def cardBad (x : W64) (fetch : Bool) : Bool :=
  if fetch then x &&& ~~~(0xFFFF3C07FFF80000#64) != 0 || cardSen x == 3
  else natBits x.toNat 0 8 != 0 || cardSen x == 3 || 5 ≤ (cardPl x).toNat || 5 ≤ (cardDrnd x).toNat

/-! ### Formats of an endpoint (R276) -/

/-- The format at a physical address, in a command's issue cycle (R61); where no bank and no accumulator stands there, the
card's. -/
def State.formatAt (s : State) (pa : Nat) (card : Fmt) : Fmt :=
  match s.bankReg pa with
  | some b => Fmt.of (b.extractLsb' 0 4)
  | none =>
    match placeOf pa with
    | .slice _ .acc => .fp32
    | _ => card

def State.roundAt (s : State) (pa : Nat) (card : BitVec 3) : Rnd :=
  match s.bankReg pa with
  | some b => rndOf (b.extractLsb' 8 3)
  | none => rndOf card

def State.padAt (s : State) (pa : Nat) (card : Fmt) : W32 :=
  match s.bankReg pa with
  | some b => b.extractLsb' 32 32
  | none => Config.cardPad card.code.toNat

/-- Formats an instruction admits (Table 11.3). -/
def pairing (op : Nat) (sf df : Fmt) : Bool :=
  let refused := conversion sf df == .refused || (op != 0 && withBlocks sf df && sf != df)
  if op == 2 || op == 4 || op == 8 then !refused && (sf == df || sf == .raw || sf == .ring || df == .raw || df == .ring)
  else if op == 0 || op == 6 then !refused
  else sf == df || (!refused && !withBlocks sf df && sf != .qn4 && df != .qn4)

/-! ### Commands -/

/-- The parameters of an instruction from its extension registers, or none where its limits refuse them. -/
def copyParams (op n : Nat) (card : W64) (x1 x2 x3 : W64) (sf df : Fmt) (idx : Nat → List Nat) : Option CopyKind :=
  match op with
  | 1 =>
    let b := natBits x1.toNat 0 32
    if 1 ≤ b && n % b == 0 && n / b ≤ 65536 && natBits x1.toNat 32 32 == 0
        && (conversion sf df != .scalar || b % (df.half / 2) == 0) then some (.strided b x2.toInt x3.toInt) else none
  | 2 =>
    let w := natBits x1.toNat 0 16
    let h := natBits x1.toNat 16 16
    let lw := natBits x1.toNat 32 3
    let p := natBits x1.toNat 40 24
    if w != 0 && w == 2 ^ Nat.log2 w && (h == w || w == 2 * h) && h != 0 && n == w * h * 2 ^ lw && w ≤ p && lw ≤ 4
        && natBits x1.toNat 36 4 == 0 then some (.morton w h lw p (x1.getLsbD 35)) else none
  | 3 =>
    let p := convP x1 x2 x3
    if p.nb != 0 && p.c != 0 && p.ih != 0 && p.iw != 0 && p.oh != 0 && p.ow != 0 && p.kh != 0 && p.kw != 0
        && 2 * n % (p.g * df.half) == 0 && natBits x3.toNat 48 16 == 0 then some (.conv x1 x2 x3) else none
  | 4 =>
    let b := natBits x1.toNat 0 32
    if 1 ≤ b && b ≤ 65536 && natBits x1.toNat 32 32 == 0 && n % b == 0 && n / b ≤ 1024 then some (.gather b (idx (n / b)))
    else none
  | 5 => if natBits x1.toNat 48 16 == 0 then some .plain else none
  | 6 =>
    if n % 4 == 0 && (cardDfmt card == .fp32 || cardDfmt card == .int32) then some (.add (cardDfmt card == .int32)) else none
  | 8 => if n == 2048 then some (.fetch (cardWm card)) else none
  | _ => some .plain

/-- Extension registers that are read (Table 11.3, R278). -/
def extCount (op : Nat) (sf df : Fmt) : Nat :=
  match op with
  | 0 => if withBlocks sf df then 2 else 0
  | 1 | 3 => 3
  | 2 | 5 => 1
  | 4 | 7 => 2
  | _ => 0

/-- The first byte of a run outside a capability's bounds. -/
def Cap.firstOut (c : Cap) (va n : Nat) : Option Nat :=
  if n == 0 || c.inBounds va n then none else some (if c.base ≤ va && va < c.top then min c.top (2 ^ 64) else va)

/-- Steps 1 to 5 of R102 over the runs of one side. -/
def Cap.covers (c : Cap) (world need : Nat) (runs : List (Nat × Nat)) : Option (Cause × Nat) :=
  match c.authority world need with
  | some f => some (f, c.cur.toNat)
  | none => (runs.findSome? fun (a, n) => c.firstOut a n).map fun a => (.capbnd, a)

/-- The first byte of a run that the window checks refuse: R234 and the holes of R233, page by page; and bit 48 up (R232). -/
def State.windowCause (s : State) (world : Nat) (write fetch : Bool) (va n : Nat) : Option Nat :=
  (List.range (pagesOf va n)).findSome? fun k =>
    let a := if k == 0 then va else (va / 4096 + k) * 4096
    if (inSram a && !s.windowOk world a write fetch) || 2 ^ 48 ≤ a then some a else none

/-- Cores named by a CPYX mask (R285): `none` for a named index outside the group. -/
def State.multicast (s : State) (mask l0 : W64) : Option (List Nat) :=
  let cores := ((s.jetton s.core.bnd.jetton).group.map (·.cores)).getD []
  let bits := (List.range 64).filter fun k => mask.getLsbD k
  if bits.isEmpty || natBits l0.toNat 10 54 != 0 then none
  else bits.mapM fun k => cores[natBits l0.toNat 0 10 + k]?

/-- Entries of a task that are queued or parked, and entries of an engine's buffer (R267, R338). -/
def State.waitingCopies (s : State) (i : Nat) : Nat :=
  (s.eng.copies.filter fun c => c.asker == .core i && (c.state == .queued || c.state == .parked)).length
    + ((s.collsOf i).filter fun c => c.pending && (c.queued || c.parked)).length
def State.bufferLoad (s : State) (e : Nat) : Nat := (s.eng.copies.filter fun c => c.engine == e && (c.state == .queued || c.state == .issued || c.state == .parked) && !c.saved).length

/-- The phase a card names: counted with its number, or none (R275). -/
def State.cardPhase (s : State) (card : W64) : Option (BitVec 3 × BitVec 32) :=
  if !cardPen card then none
  else
    let a := s.alpha (cardPl card)
    let d := (cardPlo card + 8 - a.toNat % 8) % 8
    if d < 4 then some (cardPl card, a + BitVec.ofNat 32 d) else none

/-- A source that overlaps nothing a gather list may hold: the list is R unsigned words in the issuing core's banks (R283). -/
def State.indexList (s : State) (va r : Nat) : List Nat := (List.range r).map fun i => s.mem.readNat (va + 4 * i) 4

/-- The source runs of a copy, blocks as whole blocks (R278). -/
def wholeSource (k : CopyKind) (dst src n : Nat) (sf df : Fmt) : List (Nat × Nat) :=
  if k == .plain && (readsExp sf df || writesExp sf df) then
    let N := elemsOf df n
    if conversion sf df == .same then [(src, n)] else [(src, (srcSpan sf 0 N N).2)]
  else srcRuns (k.whole dst src sf df n)

/-- What a command in the issue cycle comes to: a fault, or the copy that enters a buffer. -/
inductive Command where
  | fault (c : Cause) (addr : Nat) (det : Nat)
  | enter (c : Copy)
deriving DecidableEq, Repr

/-- R270 for a command of the task in focus. -/
def State.command (s : State) (op : Nat) (ca : Option CReg) (cb : CReg) (len card : SReg) (time : Nat) : Command :=
  let j := card.toNat
  let ext (k : Nat) : W64 := (s.core.ctl.s.toList[j + k]?).getD 0
  let cd := s.sreg card
  let n := (s.sreg len).toNat
  let w := s.myWorld
  let fetch := op == 8
  let b := s.creg cb
  let a := match ca with
    | some r => s.creg r
    | none => Cap.null
  let dst := if fetch then codeBase s.cur + (cardWm cd).toNat * 2048 else a.cur.toNat
  let src := b.cur.toNat
  let pd := s.physOf w dst
  let ps := s.physOf w src
  let sf := s.formatAt ps (if fetch then .raw else cardSfmt cd)
  let df := if fetch then .raw
    else if op == 6 then (if cardDfmt cd == .int32 then .int32 else .fp32) else s.formatAt pd (cardDfmt cd)
  let m := extCount op sf df
  let N := elemsOf df n
  let list := fun r => s.indexList (ext 2).toNat r
  let group := if op == 7 then s.multicast (ext 1) (ext 2) else some [s.cur]
  match copyParams op n cd (ext 1) (ext 2) (ext 3) sf df list, group with
  | some k, some members =>
    let blocks := op == 0 && (readsExp sf df || writesExp sf df)
    if s.core.fw.isSome || 31 < j + m || cardBad cd fetch || 2 ^ 32 ≤ n || (cardSen cd == 2 && !inSram dst)
        || (cardTen cd && placeOf pd == .hbm) || (blocks && 2 * n % df.half != 0) then .fault .ill 0 0
    else
      let whole := k.whole dst src sf df n
      let target (i : Nat) : Nat := if op == 7 then coreBase i + offAt dst else dst
      let fmtOf (i : Nat) : Fmt := if op == 7 then s.formatAt (target i) (cardDfmt cd) else df
      let dsts := if op == 7 then members.flatMap fun i => (dstRuns whole).map fun (x, l) => (x - dst + target i, l)
        else if fetch then [] else dstRuns whole
      let srcs := if op == 7 then members.flatMap fun i => wholeSource k dst src n sf (fmtOf i) else wholeSource k dst src n sf df
      let e1 := (ext 1).toNat
      let e2 := (ext 2).toNat
      let eb := expBytes sf df n
      let reb := if readsExp sf df then (N + 63) / 64 else 0
      let expD := if blocks && writesExp sf df then [(e2, eb)] else []
      let expS := if blocks && readsExp sf df then [(e1, reb)] else []
      let listR := if op == 4 then [(e2, 4 * (n / max 1 (natBits (ext 1).toNat 0 32)))] else []
      let needA := if op == 6 then permRead + permWrite else permWrite
      match (if fetch then none else a.covers w needA (dsts ++ expD)).orElse fun _ => b.covers w permRead (listR ++ srcs ++ expS) with
      | some (f, x) => .fault f x 0
      | none =>
        let bank (l : List (Nat × Nat)) : Option Nat := (l.find? fun (x, len) =>
          !(inSram x && coreAt x == s.cur && offAt x < 0x60000 && offAt x + len ≤ 0x60000)).map (·.1)
        let acc (l : List (Nat × Nat)) : Option Nat := (l.find? fun (x, len) =>
          !(inSram x && 0x60000 ≤ offAt x && offAt x + len ≤ 0x70000)).map (·.1)
        let win := ((dsts ++ expD).findSome? fun (x, l) => s.windowCause w true false x l).orElse fun _ =>
          (srcs ++ expS ++ listR).findSome? fun (x, l) => s.windowCause w false false x l
        let kind := if op == 5 then bank dsts else if op == 6 then acc dsts
          else if op == 7 && !inSram dst then some dst else if op == 4 then bank listR else none
        match win.orElse fun _ => kind with
        | some x => .fault .capperm x 0
        | none =>
          let targets : List Target := members.map fun i =>
            let t := target i
            let p := if op == 7 then t else pd
            { core := (placeOf p).core?, dst := BitVec.ofNat 64 t
              fmt := fmtOf i
              rnd := if op == 6 then rndOf (cardDrnd cd) else s.roundAt p (cardDrnd cd)
              pad := s.padAt p (cardDfmt cd), beats := 0, lag := 0, lastLand := 0, doneb := 0, complete := false }
          let df? := targets.any fun t => !pairing op sf t.fmt || (sf != t.fmt && 2 * n % t.fmt.half != 0)
          let accAlign (x : Nat) (p : Nat) (f : Fmt) : Bool :=
            (match placeOf p with | .slice _ .acc => x % 4 != 0 | _ => false) || x % f.unit != 0
          let mis := if fetch then none
            else if targets.any fun t => accAlign t.dst.toNat (s.physOf w t.dst.toNat) t.fmt then some dst
            else if accAlign src ps sf then some src
            else if op == 4 && e2 % 4 != 0 then some e2 else none
          if df? then .fault .ill 0 0
          else
            match mis with
            | some x => .fault .align x 0
            | none =>
              let loc := (s.allIn w s.cur (targets.map fun t => (t.dst.toNat, 1))) && s.allIn w s.cur ((src, 1) :: dsts ++ srcs ++ expD ++ expS)
              let engine := if loc then s.cur else fabricEngine s.cur
              if time < s.tb + 2 then .fault .slip 0 9
              else if bufferSize engine ≤ s.bufferLoad engine || 64 ≤ s.waitingCopies s.cur then .fault .slip 0 10
              else
                match (listR.findSome? fun (x, l) => s.mem.firstDamage x l) with
                | some u => .fault .ucdata u 0
                | none => .enter {
                    id := s.nextId, op := BitVec.ofNat 4 op, engine := engine, asker := .core s.cur, run := s.core.iss.run
                    pc := BitVec.ofNat 12 s.core.iss.pc, issue := s.tb, time := time, world := w, group := s.myGroup
                    jetton := s.core.bnd.jetton, n := n, dst := BitVec.ofNat 64 dst, src := BitVec.ofNat 64 src, dcap := a
                    kind := k, card := cd, sfmt := sf
                    keepTags := sf == .cap && (targets.all fun t => t.fmt == .cap) && b.has permLoadCap && a.has permStoreCap
                    expSrc := if readsExp sf df then ext 1 else 0, expDst := if writesExp sf df then ext 2 else 0, exps := []
                    ext := [if 1 ≤ m then ext 1 else 0, if 2 ≤ m then ext 2 else 0, if 3 ≤ m then ext 3 else 0]
                    follow := if op == 5 then some ((ext 1).setWidth 48) else none
                    phase := if fetch then none else s.cardPhase cd, state := .queued, issuedAt := 0, at_ := 0, beat := 0
                    blockers := s.fenced, notBefore := 0, ovr := 0, targets := targets, followBusy := op == 5, sem := none
                    saved := false, place := 0, doom := none, parkFrame := none, reissued := false }
  | _, _ => .fault .ill 0 0

/-- The effects of a command that passes (R270): the entry, its record, the phase registration, a CFCH's present bit. A core
that has diverted to its drain saves it instead (R338). -/
def State.enterCopy (s : State) (c : Copy) : State :=
  let c := match s.core.iss.drain.bind (·.d) with
    | some d => { c with saved := true, time := c.time - d }
    | none => c
  let k := cardWm c.card
  let s := { s with nextId := s.nextId + 1 }
  let s := s.modEng fun e => { e with copies := e.copies ++ [c] }
  let s := s.modC fun x => { x with
    copyrec := x.copyrec.set k.toNat (1#64 <<< 61) k.isLt
    copyOf := x.copyOf.set k.toNat c.id k.isLt
    bnd := if c.op == 8 then { x.bnd with segs := x.bnd.segs.set k.toNat ⟨false, (x.bnd.segs[k.toNat]'k.isLt).tag⟩ k.isLt } else x.bnd }
  match c.phase with
  | some (l, p) =>
    let a := s.phaseA l.toNat
    let s := if l == 4 then { s with free := s.free + 1 } else s
    s.at_ (s.tb + a) (.phaseCopyRegistration (s.domainOf s.cur l.toNat) c.id p)
  | none => s

/-- A copy instruction. -/
def State.copyWord (s : State) (op : Nat) (ca : Option CReg) (cb : CReg) (len card : SReg) (t : TimeArg) : State :=
  match s.command op ca cb len card (s.timeOf t) with
  | .fault .ucdata u _ => (s.modMem (·.markPoison u)).ctlFault .ucdata (BitVec.ofNat 64 u)
  | .fault c a det => s.ctlFault c (BitVec.ofNat 64 a) det
  | .enter c => (s.enterCopy c).advance 1

def execCpy (a b : CReg) (len card : SReg) (t : TimeArg) (s : State) : Result := .next (s.copyWord 0 (some a) b len card t)
def execCpys (a b : CReg) (len card : SReg) (t : TimeArg) (s : State) : Result := .next (s.copyWord 1 (some a) b len card t)
def execCpyz (a b : CReg) (len card : SReg) (t : TimeArg) (s : State) : Result := .next (s.copyWord 2 (some a) b len card t)
def execCpyc (a b : CReg) (len card : SReg) (t : TimeArg) (s : State) : Result := .next (s.copyWord 3 (some a) b len card t)
def execCpyg (a b : CReg) (len card : SReg) (t : TimeArg) (s : State) : Result := .next (s.copyWord 4 (some a) b len card t)
def execCpym (a b : CReg) (len card : SReg) (t : TimeArg) (s : State) : Result := .next (s.copyWord 5 (some a) b len card t)
def execCpya (a b : CReg) (len card : SReg) (t : TimeArg) (s : State) : Result := .next (s.copyWord 6 (some a) b len card t)
def execCpyx (a b : CReg) (len card : SReg) (t : TimeArg) (s : State) : Result := .next (s.copyWord 7 (some a) b len card t)
def execCfch (b : CReg) (len card : SReg) (t : TimeArg) (s : State) : Result := .next (s.copyWord 8 none b len card t)

/-! ### Issue (R267, R273) -/

def bindChannel (c : Core) (k : BitVec 4) (ch : Channel) : Core := { c with wm := c.wm.set k.toNat ch k.isLt }

/-- Bind the channels of a copy at each target (R273, R278). -/
def State.bindCopy (s : State) (c : Copy) : State :=
  if !cardWen c.card || c.op == 8 then s
  else c.targets.foldl (fun s t =>
    match t.core with
    | none => s
    | some i =>
      let k := cardWm c.card
      let s := s.modCore i fun x => bindChannel x k ⟨true, 0, c.n, c.id, s.regionOf c t⟩
      if c.expLen == 0 then s
      else s.modCore i fun x => bindChannel x (k + 1) ⟨true, 0, c.expLen, c.id, [(s.physOf c.world c.expDst.toNat, 0, c.expLen)]⟩) s

/-- The SRC code of an engine (Table 15.2). -/
def engineSrc (e : Nat) : Nat := if e < 4096 then 5 else 6

/-- The issuing core, when the copy was made for another unit too. -/
def Asker.core? : Asker → Nat
  | .core i => i
  | _ => 4096

/-- COPY_ENGINE_ISSUE: the engine takes the entry in this cycle. -/
def execCopyEngineIssue (id : Nat) (s : State) : Result :=
  match s.copy? id with
  | none => .next s
  | some c =>
    let first := c.state == .queued
    let c' := { c with state := .issued, issuedAt := s.tb, at_ := s.tb, reissued := !first,
                       targets := c.targets.map fun t => { t with lag := 0 } }
    let s := s.modCopy id fun _ => c'
    let s := s.record c' .issued
    let s := if first then s.bindCopy c' else s
    if c'.beatCount == 0 then
      .next (c'.targets.zipIdx.foldl (fun s (t, k) =>
        let d := pathBase (ioEngine c.engine) c.asker.core? (some (s.placeVa c.world c.src.toNat)) (s.placeVa c.world t.dst.toNat)
        let (lid, s) := s.fresh
        s.modEng fun e => { e with lands := e.lands ++ [{
          id := lid, copy := id, target := k, cycle := s.tb + d - 1
          acc := match s.placeVa c.world t.dst.toNat with | .slice _ .acc => true | _ => false
          engine := c.engine, pieces := [], lines := [], tags := [], words := [], bytes := 0, expBeat := false, last := true }] }) s)
    else .next s

/-! ### Endings -/

/-- The current run of a core belongs to the request that issued a copy (R291). -/
def State.issuerLive (s : State) (c : Copy) : Option Nat :=
  match c.asker with
  | .core i => if (s.getCore i).bnd.firstRun ≤ c.run && (s.getCore i).bnd.jetton == c.jetton then some i else none
  | _ => none

/-- The piece of a weight segment at a physical address that is not, or no longer, verified (R313, R314). -/
def State.pieceAt (s : State) (a : Nat) : Option Nat :=
  s.eng.segments.findSome? fun g =>
    match g.frame with
    | some f => if f ≤ a && a < f + 0x200000 && !g.pieces.getLsbD ((a - f) / 65536) then some (a / 65536 * 65536) else none
    | none => none

/-- A fault of a copy at its issuer (Table 11.8, R399). A failing line of a weight segment holds the replay that follows until
its piece is fetched again (R314). -/
def State.copyFault (s : State) (c : Copy) (cause : Cause) (addr : Nat) (src det : Nat) : State :=
  match c.asker with
  | .queue k => s.queueStop k (some c.id) cause cause.violation
  | _ =>
    match s.issuerLive c with
    | some i =>
      let s := if cause == .ucdata then
          match s.pieceAt (s.physOf c.world addr) with
          | some a => s.modCore i fun x => { x with iss := { x.iss with heldBy := some a } }
          | none => s
        else s
      s.deferFault i cause (BitVec.ofNat 64 addr) src det c.pc c.issue
    | none => s

/-- A copy that a fault ends: STATE 6, nothing else of R274; what it held back is free, and its engine drops it. One that a
violation of a task ends stays, frozen (Table 11.8, R330). -/
def State.endCopy (s : State) (c : Copy) : State :=
  let s := s.record c .faulted
  let s := s.accessGone c.id
  let kept := match c.doom, c.asker with
    | some (_, cause, _), .core _ => cause.violation
    | _, _ => false
  s.modEng fun e => { e with
    copies := if kept then e.copies.map fun x => if x.id == c.id then { x with state := .faulted } else x
      else e.copies.filter (·.id != c.id)
    lands := e.lands.filter (·.copy != c.id), launches := e.launches.filter (·.id != c.id) }

/-- A copy that a fault meets before a beat reads: the beats before it still land, and then it ends (R291). -/
def State.doomCopy (s : State) (c : Copy) (cause : Cause) (addr : Nat) : State :=
  if s.eng.lands.any fun l => l.copy == c.id then
    (s.record c .faulted).modCopy c.id fun x => { x with beat := x.beatCount, doom := some (0, cause, BitVec.ofNat 64 addr) }
  else s.endCopy { c with doom := some (0, cause, BitVec.ofNat 64 addr) }

/-- Hr of R274 for a target. -/
def Copy.hr (c : Copy) (t : Target) : Nat :=
  match c.asker, t.core with
  | .core i, some j => homeCost j i
  | .core _, none => 230
  | _, _ => (c.sem.map (·.2)).getD 0

/-- The semaphore word that a target's completion increments, with its cycle after l (R274, R422). -/
def Copy.semaphore (c : Copy) (t : Target) : Option (Nat × Nat) :=
  match c.asker, c.sem with
  | .core i, _ =>
    if cardSen c.card == 1 then some (accBase i + 4 * cardSemw c.card, 1 + c.hr t)
    else if cardSen c.card == 2 then t.core.map fun j => (accBase j + 4 * cardSemw c.card, 1)
    else none
  | _, some (pa, hr) => some (pa, 1 + hr)
  | _, none => none

/-- Granules of a region in core memories that hold sequence tags (R274). -/
def tagGranules (region : List (Nat × Nat × Nat)) : List Nat :=
  region.flatMap fun (a, _, n) =>
    if inSram a && n != 0 then (List.range ((a % 128 + n + 127) / 128)).map fun k => granule a + 128 * k else []

/-- A completion's increment of a semaphore word, `d` cycles on. -/
def State.sendInc (s : State) (c : Copy) (pa d : Nat) : State :=
  (s.modEng fun e => { e with incs := e.incs ++ [⟨s.tb + d, pa, c.world, c.asker, c.run, c.jetton, c.pc, c.issue, c.engine⟩] }).at_
    (s.tb + d) (.copySemaphoreIncrement pa)

/-- The completion of a target whose last beat lands in this cycle (R273, R274). The record of a CPYX shows STATE 4 once every
target's landing has come back (R285); the entry copy of a LAUNCH ends in the landing of its entry (R399). -/
def State.completeTarget (s : State) (c : Copy) (k : Nat) (t : Target) : State :=
  if c.doom.isSome then s
  else
    let l := s.tb
    let s := if cardTen c.card && c.op != 8 then
        let region := s.regionOf c t ++ (if c.expLen == 0 then [] else [(s.physOf c.world c.expDst.toNat, 0, c.expLen)])
        s.modMem fun m => (tagGranules region).foldl (fun m g => m.setSeqTag g (cardTag c.card)) m
      else s
    let s := match c.kind, c.asker with
      | .fetch seg, .core i => s.modCore i fun x => { x with bnd := { x.bnd with segs := x.bnd.segs.set seg.toNat ⟨true, cardTag c.card⟩ seg.isLt } }
      | _, _ => s
    let s := match c.semaphore t with
      | some (pa, d) => s.sendInc c pa d
      | none => s
    let c := { c with targets := c.targets.set k { t with complete := true, lastLand := l } }
    let s := (s.modCopy c.id fun _ => c).modEng fun e => { e with settled := (e.settled.filter fun x => x.1 == l) ++ [(l, c)] }
    if s.eng.launches.any fun x => x.id == c.id then
      (s.at_ l (.launchEntryLanding (match c.asker with | .queue q => q | _ => 0) c.id)).modEng fun e => { e with
        copies := e.copies.filter (·.id != c.id) }
    else if c.targets.all (·.complete) then
      let s := match c.phase, c.asker with
        | some (lv, p), .core i => s.at_ (l + s.phaseA lv.toNat) (.phaseCopyLanding ((s.jetton c.jetton).domain c.jetton i lv.toNat) c.id p)
        | _, _ => s
      let s := match c.asker with
        | .core i =>
          let shown := c.targets.foldl (fun (m : Nat) (t : Target) => max m (t.lastLand + c.hr t)) l
          s.at_ shown (.copyRecordLanded i (cardWm c.card) c.id)
        | _ => s
      if c.followBusy then (s.modCopy c.id fun x => { x with state := .landed }).at_ (l + 1) (.followOnPresent c.id)
      else (s.accessDone c.id l).modEng fun e => { e with copies := e.copies.filter (·.id != c.id) }
    else s

/-- COPY_RECORD_LANDED: the record shows STATE 4 from the end of this cycle on. -/
def execCopyRecordLanded (core : Nat) (k : BitVec 4) (id : Nat) (s : State) : Result :=
  .next (s.modCore core fun c =>
    if c.copyOf[k.toNat]'k.isLt == id then
      let w := c.copyrec[k.toNat]'k.isLt
      { c with copyrec := c.copyrec.set k.toNat ((w &&& ~~~(7#64 <<< 61)) ||| (4#64 <<< 61)) k.isLt }
    else c)

/-- The key of a semaphore word's line: a world writes no page of the shared key, but for the host world (R238, R253). -/
def State.semKey (s : State) (world addr : Nat) : Nat := if world == 256 && s.mem.lineOk 257 addr then 257 else world

/-- One more at a word, in step 2 of R168, for world `world`: none where a scan holds the core (R357). `false` when the word is
uncorrectable: it is marked, or its line poisoned, and not written (R174, R253). -/
def State.increment (s : State) (world addr : Nat) : Bool × State :=
  if s.heldAway addr then (true, s)
  else if s.mem.damaged addr then (false, s.modMem (·.markPoison (unitOf addr)))
  else if placeOf addr == .hbm && !s.mem.lineOk (s.semKey world addr) addr then (false, s.failLine (s.semKey world addr) addr)
  else (true, (s.modMem fun m => m.setWord addr (m.word addr + 1)).dirty world addr)

/-- COPY_SEMAPHORE_INCREMENT: a completion adds 1 to its word; an uncorrectable one is a fault of the copy's issuer. -/
def execCopySemaphoreIncrement (addr : Nat) (s : State) : Result :=
  .next (match s.eng.incs.find? fun x => x.addr == addr && x.cycle == s.tb with
    | none => s
    | some x =>
      let s := s.modEng fun e => { e with incs := e.incs.erase x }
      let (ok, s) := s.increment x.world addr
      if ok then s
      else
        match x.asker with
        | .core i =>
          if (s.getCore i).bnd.firstRun ≤ x.run && (s.getCore i).bnd.jetton == x.jetton then
            s.deferFault i .ucdata (BitVec.ofNat 64 addr) (engineSrc x.engine) 0 x.pc x.issue
          else s
        | .queue k => s.queueStop k none .ucdata false
        | _ => s)

/-! ### A beat's read (R271, R277) -/

/-- What the next beat moves to a target: its runs, and the exponent bytes its blocks need. -/
def Copy.plan (c : Copy) (t : Target) : List Run × Option (Nat × Nat) :=
  let src := c.src.toNat
  let dst := t.dst.toNat
  let conv := conversion c.sfmt t.fmt
  if c.beat < c.dataBeats then
    let (pos, len) := c.kind.span c.n c.beat
    if c.expLen != 0 || (c.op == 0 && readsExp c.sfmt t.fmt) then
      if conv == .same then (c.kind.runs dst src c.sfmt t.fmt pos len, none)
      else
        let e := pos * 2 / t.fmt.half
        let cnt := len * 2 / t.fmt.half
        let (so, sl) := srcSpan c.sfmt e cnt (elemsOf t.fmt c.n)
        ([⟨addrAdd dst pos, len, some (addrAdd src so), sl, none⟩],
          if conv == .planar || !readsExp c.sfmt t.fmt then none else some (addrAdd c.expSrc.toNat (e / 64 : Nat), (cnt + 63) / 64))
    else (c.kind.runs dst src c.sfmt t.fmt pos len, none)
  else
    let pos := (c.beat - c.dataBeats) * 256
    let len := min 256 (c.expLen - pos)
    ([⟨addrAdd c.expDst.toNat pos, len,
      if conv == .same || conv == .planar then some (addrAdd c.expSrc.toNat pos) else none, len, none⟩], none)

/-- An element moved unchanged into a wider one fills its low bytes, and free bytes the rest; into a narrower one, its low bytes
(notes/assumptions/105.md). Bytes of the runs in destination order, from the source bytes of each run in turn. `low` is the low nibble of a byte of
half-byte elements whose high one comes next. -/
def assemble (sf : Fmt) (t : Target) (runs : List Run) (bs : List Byte) (low : Option (Nat × Nat)) : List (Nat × List Byte) :=
  match runs with
  | [] => []
  | r :: l =>
    let mine := if r.sva.isSome then bs.take r.sn else []
    let rest := if r.sva.isSome then bs.drop r.sn else bs
    match r.nib with
    | some hi =>
      let x := if r.sva.isSome then natBits (leNat mine) (if hi then 4 else 0) 4 else t.fmt.padPattern t.pad
      match low with
      | none => assemble sf t l rest (some (r.dva, x))
      | some (a, y) => (a, [BitVec.ofNat 8 (y + 16 * x)]) :: assemble sf t l rest none
    | none =>
      let out := if r.sva.isNone then padBytes sf t.fmt t.rnd t.pad
        else if conversion sf t.fmt == .scalar then scalarBeat sf t.fmt t.rnd mine
        else mine ++ (List.range (r.dn - mine.length)).map fun k => Config.movedByte mine (mine.length + k)
      (r.dva, out.take r.dn) :: assemble sf t l rest none

/-- The destination bytes of a beat at a target, and the exponents its blocks give. -/
def Copy.output (c : Copy) (t : Target) (runs : List Run) (bs exps : List Byte) : List (Nat × List Byte) × List Byte :=
  if c.dataBeats ≤ c.beat then
    match runs with
    | [r] => if r.sva.isSome then ([(r.dva, bs)], []) else ([(r.dva, (c.exps.drop ((c.beat - c.dataBeats) * 256)).take r.dn)], [])
    | _ => ([], [])
  else
    match c.kind with
    | .fill p => (runs.map fun r => (r.dva, (List.range r.dn).map fun i => byteOf p (i % 4)), [])
    | .fetch _ =>
      (runs.flatMap fun r => (List.range (r.dn / 8)).map fun k => (r.dva + 8 * k, (bs.drop (8 * k)).take 6), [])
    | _ =>
      match runs with
      | [r] =>
        if c.op == 0 && withBlocks c.sfmt t.fmt && conversion c.sfmt t.fmt != .same && conversion c.sfmt t.fmt != .moved
            && conversion c.sfmt t.fmt != .cleared then
          let (o, e) := blockBeat c.sfmt t.fmt t.rnd (r.dn * 2 / t.fmt.half) r.dn bs exps
          ([(r.dva, o)], if conversion c.sfmt t.fmt == .block then e else [])
        else (assemble c.sfmt t runs bs none, [])
      | _ => (assemble c.sfmt t runs bs none, [])

/-- Locations of a list of ranges, or the first thing that stops the beat. -/
def State.resolveAll (s : State) (world : Nat) (gid : Option (BitVec 16)) (l : List (Nat × Nat)) (write fetch : Bool) :
    Except Stop (List PRun) :=
  match l with
  | [] => .ok []
  | (va, n) :: r =>
    match s.resolve world gid va n write fetch (pagesOf va n) with
    | .error e => .error e
    | .ok a =>
      match s.resolveAll world gid r write fetch with
      | .error e => .error e
      | .ok b => .ok (a ++ b)

/-- The beat cannot go on (R277, R290, R291). -/
def State.stopBeat (s : State) (c : Copy) (e : Stop) : State :=
  match e with
  | .xlate va =>
    let c := { c with state := .parked }
    ((s.modCopy c.id fun _ => c).record c .parked).reportXlate c.world (BitVec.ofNat 64 va) (.copy c.id)
  | .table va => ((s.say (.uncorrectable c.world (BitVec.ofNat 64 va))).copyFault c .ucdata va 10 4).doomCopy c .ucdata va
  | .refused cause va => (s.copyFault c cause va (engineSrc c.engine) 0).doomCopy c cause va

/-- A beat whose page no cache of its engine holds is delayed by the walk (R240, R277). -/
def State.walkBeat (s : State) (c : Copy) (va : Nat) : State :=
  let s := (s.cachePage (8192 + c.engine) c.world va).modCopy c.id fun x => { x with at_ := s.tb + Config.walkCycles s.free + 1 }
  { s with free := s.free + 1 }

/-- The first page of a list of ranges that an engine must walk for. -/
def State.walkOf (s : State) (c : Copy) (l : List (Nat × Nat)) : Option Nat :=
  if c.world == 257 then none
  else l.findSome? fun (va, n) => (List.range (pagesOf va n)).findSome? fun k =>
    let a := if k == 0 then va else (va / 4096 + k) * 4096
    if !inSram a && s.walkNeeded (8192 + c.engine) c.world a then some a else none

/-- The path base of a beat: the largest over its pieces (R277). -/
def beatBase (c : Copy) (src dst : List PRun) (s : State) : Nat :=
  let ps : List (Option Place) := match src.map fun r => placeOf r.pa with
    | [] => (match c.kind with | .fill _ => [none] | _ => [some (s.placeVa c.world c.src.toNat)])
    | l => l.map some
  ps.foldl (fun m p => (dst.map fun r => placeOf r.pa).foldl (fun m q => max m (pathBase (ioEngine c.engine) c.asker.core? p q)) m) 0

/-- Cycles of the landing at a target, with its slot; the target moves on. -/
def State.landAt (s : State) (c : Copy) (t : Target) (dst : List PRun) (base : Nat) (cls : Nat) : Nat × Target × State :=
  let nominal := s.tb + base + t.lag
  let (_, l, s) := s.takeSlot c.world cls dst (max nominal (t.lastLand + 1))
  (l, { t with lag := t.lag + (l - nominal), lastLand := l }, s)

/-- The words a CPYA beat adds (R284). -/
def addWords (pieces : List (Nat × List Byte)) : List (Nat × W32) :=
  pieces.flatMap fun (a, bs) => (List.range (bs.length / 4)).map fun k => (a + 4 * k, BitVec.ofNat 32 (leNat ((bs.drop (4 * k)).take 4)))

/-- Destination granules whose source granule is tagged, where both lie in CAP banks (R270, R276). -/
def State.movedTags (s : State) (c : Copy) (runs : List Run) : List Nat :=
  if !c.keepTags then []
  else runs.flatMap fun r =>
    match r.sva with
    | some a => (List.range (r.dn / 16)).filterMap fun k =>
        let from_ := s.physOf c.world (a + 16 * k)
        let to_ := s.physOf c.world (r.dva + 16 * k)
        if s.capBank from_ && s.mem.capTag from_ && s.capBank to_ then some to_ else none
    | none => []

/-- Overrun elements of the next beat (R282). -/
def Copy.overruns (c : Copy) : Nat :=
  match c.kind, c.targets with
  | .conv s1 s2 s3, t :: _ =>
    let (pos, len) := c.kind.span c.n c.beat
    let e0 := pos * 2 / t.fmt.half
    ((List.range (len * 2 / t.fmt.half)).filter fun i => ((convP s1 s2 s3).source (e0 + i)).2).length
  | _, _ => 0

/-- A piece holds words whose atomic home is the host side (Table 10.6): what lands there takes its place in R168's order. -/
def State.hostSide (s : State) (world : Nat) (r : PRun) : Bool :=
  placeOf r.pa == .hbm && world != 257 && (match s.translate world (BitVec.ofNat 64 r.va) with
    | .ok _ a _ => a.ah == 2
    | _ => false)

/-- Send the beat to one target: its landing is queued. -/
def State.sendBeat (s : State) (c : Copy) (k : Nat) (t : Target) (dst : List PRun) (runs : List Run) (src : List PRun)
    (bs exps : List Byte) (cls : Nat) : State :=
  let (out, e) := c.output t runs bs exps
  let (l, t', s) := s.landAt c t dst (beatBase c src dst s) cls
  let flat := out.flatMap (·.2)
  let pieces := match c.kind with
    | .fetch _ => out
    | _ => spread dst flat
  let acc := dst.any fun r => (match placeOf r.pa with | .slice _ .acc => true | _ => false) || s.hostSide c.world r
  let add := match c.kind with | .add _ => true | _ => false
  let (lid, s) := s.fresh
  let s := s.modEng fun eng => { eng with lands := eng.lands ++ [{
    id := lid, copy := c.id, target := k, cycle := l, acc := acc, engine := c.engine
    pieces := if add then [] else pieces
    lines := (dst.filter fun r => placeOf r.pa == .hbm).map fun r => (r.pa, r.va, r.key), tags := s.movedTags c runs, words := if add then addWords pieces else []
    bytes := runs.foldl (fun n r => n + r.dn) 0, expBeat := c.dataBeats ≤ c.beat, last := c.beat + 1 == c.beatCount }] }
  s.modCopy c.id fun x => { x with targets := x.targets.set k t', exps := if k == 0 then x.exps ++ e else x.exps }

/-- The class whose slots a copy uses (R395). -/
def State.copyClass (s : State) (c : Copy) : Nat := match c.asker with
  | .core i => s.classOf i
  | _ => 0

/-- What a beat does at one target: its runs and their sources, the exponents it reads, and where it lands. -/
structure BeatPlan where
  runs : List Run
  src : List PRun
  exps : List PRun
  dst : List PRun
deriving DecidableEq, Repr

/-- Every target's plan: the source is read as each target's format takes it (R285). -/
def State.planAll (s : State) (c : Copy) (gid : Option (BitVec 16)) : List Target → Except Stop (List BeatPlan)
  | [] => .ok []
  | t :: r =>
    let (runs, ex) := c.plan t
    match s.resolveAll c.world none (srcRuns runs) false false, s.resolveAll c.world none (ex.toList) false false,
      s.resolveAll c.world gid ((dstRuns runs).filter fun (_, n) => n != 0) true (match c.kind with | .fetch _ => true | _ => false),
      s.planAll c gid r with
    | .error e, _, _, _ => .error e
    | _, .error e, _, _ => .error e
    | _, _, .error e, _ => .error e
    | _, _, _, .error e => .error e
    | .ok src, .ok exps, .ok dst, .ok l => .ok (⟨runs, src, exps, dst⟩ :: l)

/-- World addresses that the next beat reads and writes. -/
def Copy.touches (c : Copy) : List (Nat × Nat) :=
  c.targets.flatMap fun t => let (runs, ex) := c.plan t; srcRuns runs ++ ex.toList ++ dstRuns runs

/-- The beat of a copy that reads in this cycle. -/
def State.readBeat (s : State) (c : Copy) : State :=
  match c.targets, s.walkOf c c.touches with
  | [], _ => s
  | _, some va => s.walkBeat c va
  | t0 :: _, none =>
    let gid := match c.asker with
      | .core i => if i < 2048 then some c.group else none
      | _ => none
    match s.planAll c gid c.targets with
    | .error e => s.stopBeat c e
    | .ok plans =>
      let cls := s.copyClass c
      let read := plans.flatMap fun p => p.src ++ p.exps
      let most := plans.foldl (fun (m : List PRun) p => if linesOf m < linesOf (p.src ++ p.exps) then p.src ++ p.exps else m) []
      match s.missingPiece read with
      | some f => ((s.modCopy c.id fun x => { x with state := .parked, parkFrame := some f }).record c .parked)
      | none =>
        let slot := match most.find? fun r => placeOf r.pa == .hbm with
          | none => some s.tb
          | some r => s.findSlot (s.hbmMask c.world cls) c.world (hbmStack r.pa) (min 12 (linesOf most)) s.tb 2048
        if slot != some s.tb then s.modCopy c.id fun x => { x with at_ := slot.getD (s.tb + 1024) }
        else
          let (_, _, s) := s.takeSlot c.world cls most s.tb
          match s.badRead read with
          | some (u, addr, hbm) =>
            let d := match plans with
              | p :: _ => beatBase c p.src p.dst s
              | [] => 0
            (s.noteDamage u hbm).modCopy c.id fun x => { x with
              beat := x.beatCount, doom := some (max (s.tb + d + t0.lag) (t0.lastLand + 1), .ucdata, BitVec.ofNat 64 addr) }
          | none =>
            let from_ := s
            let s := (c.targets.zip plans).zipIdx.foldl (fun s ((t, p), k) =>
              s.sendBeat c k t p.dst p.runs p.src (from_.readPieces p.src) (from_.readPieces p.exps) cls) s
            s.modCopy c.id fun x => { x with beat := x.beat + 1, at_ := s.tb + 1, ovr := x.ovr + c.overruns }

/-- COPY_BEAT_READ: the copy's next beat reads, or a fault that its reads met is raised in the cycle in which the beat was due
to land (R271, R291). -/
def execCopyBeatRead (id : Nat) (s : State) : Result :=
  match s.copy? id with
  | none => .next s
  | some c =>
    match c.doom with
    | some (t, cause, addr) =>
      let raised := if t == s.tb then
          ((s.copyFault c cause addr.toNat (if inSram addr.toNat then engineSrc c.engine else 10) 0).record c .faulted).modCopy id
            fun x => { x with doom := some (0, cause, addr) }
        else s
      if t ≤ s.tb && c.beatCount ≤ c.beat && !(s.eng.lands.any fun l => l.copy == id) then .next (raised.endCopy c)
      else if t != s.tb && c.beat < c.beatCount then .next (s.readBeat c)
      else .next raised
    | none => .next (s.readBeat c)

/-- The copy has a beat to read, a fault to raise, or an end after one, in this cycle. -/
def State.beatDue (s : State) (c : Copy) : Bool :=
  let reads := c.state == .issued && c.at_ ≤ s.tb && c.beat < c.beatCount
  match c.doom with
  | some (t, _, _) => t == s.tb || reads || (t < s.tb && c.beatCount ≤ c.beat && !(s.eng.lands.any fun l => l.copy == c.id))
  | none => reads

/-! ### A beat's landing (R272, R273) -/

/-- The bank that a VSEL writes whose operation issues in this cycle: it is the one operation that writes a bank at the end
of its own cycle. -/
def State.vselBank (s : State) (i : Nat) : Option Nat :=
  let c := s.getCore i
  let at_ (addr : Nat) (cur : W64) (rho : Int) : Option Nat :=
    match decode (s.mem.codeWord i addr) with
    | .ok (.vsel d _ _ _ true _) => some ((cur + BitVec.ofNat 64 (4096 * d.toNat) + BitVec.ofInt 64 (128 * rho)).toNat / 0x1000)
    | _ => none
  if !c.iss.status.live || (c.sys.dbg && c.iss.steps == 0) then none
  else
    match c.iss.vec.run with
    | some r => if r.next ≤ s.tb then at_ r.addr r.cap.cur r.rho else none
    | none => (c.iss.vec.armed.find? fun l => l.start == s.tb).bind fun l => at_ l.first l.cap.cur 0

/-- A function column writes the bank in this cycle: its write port is not free (R20, R271). -/
def State.bankBusy (s : State) (pieces : List (Nat × List Byte)) : Bool :=
  pieces.any fun (a, _) =>
    match placeOf a with
    | .slice i (.bank _) =>
      ((s.getCore i).iss.bankPend.any fun b => b.due == s.tb && b.addr / 0x1000 == a / 0x1000) || s.vselBank i == some (a / 0x1000)
    | _ => false

/-- Write the pieces of a beat: untagged, and clearing the marks of units it covers whole (R104, R174, R332). -/
def Mem.landPiece (m : Mem) (a : Nat) (bs : List Byte) : Mem :=
  let m := (m.write a bs).untag a bs.length
  if m.poison.isEmpty && m.ue.isEmpty then m
  else
    (List.range bs.length).foldl (fun m i =>
      let u := unitOf (a + i)
      let size := match placeOf (a + i) with | .slice _ .acc => 4 | .slice _ .code => 6 | .hbm => 256 | _ => 128
      if u == a + i && u + size ≤ a + bs.length then m.clearPoison u else m) m

/-- Write pieces in HBM, each within one line, for a world and under a key; the first part-line write that meets a failing line
stops there. -/
def State.landHbm (s : State) (world key : Nat) (pieces : List (Nat × List Byte)) : State × Option Nat :=
  match pieces with
  | [] => (s, none)
  | (a, bs) :: r =>
    if bs.length != 256 && !s.mem.lineOk key a then (s.failLine key a, some (lineOf a))
    else ((s.modMem fun m => (m.lineWrite key a bs).2).dirty world a).landHbm world key r

/-- The key and the world address of a piece of a landing. -/
def Land.lineAt (l : Land) (world a : Nat) : Nat × Nat :=
  match l.lines.find? fun (pa, _, _) => pa / 4096 == a / 4096 with
  | some (pa, va, key) => (key, va + a - pa)
  | none => (world, a)

/-- The pieces of a landing by lines. -/
def Land.split (l : Land) : List (Nat × List Byte) :=
  l.pieces.flatMap fun (a, bs) => if placeOf a == .hbm then lineSplit a bs (bs.length + 1) else [(a, bs)]

/-- The first part of an HBM line that a beat writes and whose line fails: the beat does not land at all (Table 11.8). -/
def State.badLanding (s : State) (world : Nat) (l : Land) : Option Nat :=
  (l.split.find? fun (a, bs) => placeOf a == .hbm && bs.length != 256 && !s.mem.lineOk (l.lineAt world a).1 a).map (·.1)

/-- A beat's pieces land. -/
def State.landAll (s : State) (world : Nat) (l : Land) : State :=
  l.split.foldl (fun (s : State) (a, bs) =>
    if placeOf a == .hbm then (s.landHbm world (l.lineAt world a).1 [(a, bs)]).1 else s.modMem fun m => m.landPiece a bs) s

/-- CPYA's additions (R284); the first uncorrectable word is returned. -/
def Mem.addAll (m : Mem) (int : Bool) (ws : List (Nat × W32)) : Mem × Option Nat :=
  match ws with
  | [] => (m, none)
  | (a, x) :: r =>
    if m.damaged a then
      let (m, _) := (m.markPoison (unitOf a)).addAll int r
      (m, some a)
    else (m.setWord a (if int then m.word a + x else addF32 (m.word a) x)).addAll int r

/-- Put off this beat and every later one of its target by a cycle. -/
def State.delayLands (s : State) (l : Land) (by_ : Nat) : State :=
  let s := s.modEng fun e => { e with lands := e.lands.map fun x =>
    if x.copy == l.copy && x.target == l.target && l.cycle ≤ x.cycle then { x with cycle := x.cycle + by_ } else x }
  s.modCopy l.copy fun c => { c with targets := c.targets.modify l.target fun t => { t with lag := t.lag + by_, lastLand := t.lastLand + by_ } }

/-- Raise the channel that a copy binds (R273). -/
def State.raiseLevel (s : State) (c : Copy) (t : Target) (n : Nat) (exp : Bool) : State :=
  match t.core with
  | none => s
  | some i =>
    let k := if exp then cardWm c.card + 1 else cardWm c.card
    s.modCore i fun x =>
      let ch := x.wm[k.toNat]'k.isLt
      if ch.act && ch.copy == c.id then bindChannel x k { ch with level := ch.level + n } else x

/-- COPY_BEAT_LAND: a beat lands at its destination, raises the watermark, and its last one completes the copy. -/
def execCopyBeatLand (land : Nat) (s : State) : Result :=
  match s.eng.lands.find? (·.id == land) with
  | none => .next s
  | some l =>
    match s.copy? l.copy with
    | none => .next (s.modEng fun e => { e with lands := e.lands.filter (·.id != land) })
    | some c =>
      match c.targets[l.target]? with
      | none => .next (s.modEng fun e => { e with lands := e.lands.filter (·.id != land) })
      | some t =>
        let cls := s.copyClass c
        let hbm := l.pieces.any fun (a, _) => placeOf a == .hbm
        if s.bankBusy l.pieces then .next (s.delayLands l 1)
        else if hbm && !(s.hbmMask c.world cls).getLsbD (s.tb % 1024) then
          .next (s.delayLands l (((slotFrom (s.hbmMask c.world cls) s.tb 1024).getD (s.tb + 1024)) - s.tb))
        else
          let s := s.modEng fun e => { e with lands := e.lands.filter (·.id != land) }
          match s.badLanding c.world l with
          | some a =>
            let (key, va) := l.lineAt c.world (lineOf a)
            .next (((s.failLine key a).copyFault c .ucdata va 10 0).endCopy { c with doom := none })
          | none =>
            let s := s.landAll c.world l
            let s := s.modMem fun m => l.tags.foldl (fun m g => m.setCapTag g true) m
            let int := match c.kind with | .add i => i | _ => false
            let (m, sick) := s.mem.addAll int l.words
            let s := { s with mem := m }
            let t := { t with beats := t.beats + 1, doneb := t.doneb + (if l.expBeat then 0 else l.bytes) }
            let c := { c with targets := c.targets.set l.target t
                              doom := match sick, c.doom with
                                | some a, none => some (s.tb + 1, .ucdata, BitVec.ofNat 64 a)
                                | _, d => d }
            let s := s.modCopy c.id fun _ => c
            let s := s.raiseLevel c t l.bytes l.expBeat
            let s := s.record c (if c.doom.any fun d => d.1 == 0 then .faulted else if c.state == .parked then .parked else .issued)
            if l.last then
              match c.doom with
              | some (d, _, _) => .next (if d < s.tb then s.endCopy c else s)
              | none => .next (s.completeTarget c l.target t)
            else .next s

/-! ### Copy control (R289) -/

/-- The word of a watermark register (Table 1.4). -/
def Channel.word (c : Channel) : W64 := BitVec.ofNat 64 (c.act.toNat * 2 ^ 63 + c.level % 2 ^ 48)

def execCwm (d : SReg) (wm : BitVec 4) (clear : Bool) (s : State) : Result :=
  let ch := s.core.wm[wm.toNat]'wm.isLt
  if !clear then s.alu d ch.word
  else if !ch.act || ch.level == ch.size then
    ((s.modC fun c => bindChannel c wm { ch with act := false, level := 0 })).alu d ch.word
  else s.alu d (ch.word ||| (1#64 <<< 62))

/-- The record's word as it stands in this cycle: an issue of this cycle shows from its end on (R288). -/
def State.recordWord (s : State) (k : BitVec 4) : W64 :=
  let w := s.core.copyrec[k.toNat]'k.isLt
  match s.copy? (s.core.copyOf[k.toNat]'k.isLt) with
  | some c => if c.state == .issued && c.issuedAt == s.tb then
      (w &&& ~~~(7#64 <<< 61)) ||| (if c.reissued then 3#64 <<< 61 else 1#64 <<< 61) else w
  | none => w

def execCcan (d : SReg) (k : BitVec 4) (s : State) : Result :=
  let id := s.core.copyOf[k.toNat]'k.isLt
  if (s.copy? id).any fun c => c.state == .queued then (s.cancelCopy id).alu d 0
  else
    let st := natBits (s.core.copyrec[k.toNat]'k.isLt).toNat 61 3
    s.alu d (if st == 2 || st == 3 then 1 else 2)
def execCstat (d : SReg) (k : BitVec 4) (s : State) : Result := s.alu d (s.recordWord k)

end Sys2Proof.Machine
end

