-- ==== Sys2Proof/Machine/Vector.lean ====
section
/-!
DEFINITION. The vector column (R120 to R146): arithmetic, compares, logic, moves, loads and stores, conversions, functions,
reductions, the block-quantising group and the deferral queue. Latencies are those of Table 5.1.
-/
namespace Sys2Proof.Machine

open Sys2Proof

/-! ### Operands in the two modes (R121) -/

/-- Check a destination: a register always passes. -/
def State.vDst (s : State) (st : Stream) (mem : Bool) (d : VReg) (bytes : BitVec 128) (fmts : Option (List Fmt)) (lat : Nat) :
    Part? State :=
  if mem then s.checkWrite st .vector (st.field d.toNat) bytes fmts (s.tb + lat - 1) else .ok s

/-- Check a source. -/
def State.vSrc (s : State) (st : Stream) (mem : Bool) (a : VReg) (bytes : BitVec 128) (fmts : Option (List Fmt)) : Part? State :=
  if mem then s.checkRead st .vector (st.field a.toNat) bytes fmts else .ok s

/-- The value of a source. -/
def State.vVal (s : State) (st : Stream) (mem : Bool) (a : VReg) (bytes : BitVec 128) : Part? Row :=
  if mem then s.fetchRow (st.field a.toNat) bytes else .ok (s.vreg a)

/-- The rounding mode of a result (R123). -/
def State.vMode (s : State) (st : Stream) (mem : Bool) (d : VReg) : Rnd :=
  if mem then s.bankRnd (st.field d.toNat).toNat else rndOf s.core.sys.vmode

/-- Write a result. -/
def State.vPut (s : State) (st : Stream) (mem : Bool) (d : VReg) (r : Row) (bytes : BitVec 128) (lat : Nat) : State :=
  if mem then s.putRow st .vector (st.field d.toNat) r bytes (s.tb + lat - 1) else s.putCol .vector lat (.v d r bytes)

/-- A source operand: its field and the bytes of it that the operation reads. -/
structure VArg where
  reg : VReg
  bytes : BitVec 128
  fmts : Option (List Fmt)

/-- Check sources in field order. -/
def State.vSrcs (s : State) (st : Stream) (mem : Bool) (as : List VArg) : Part? State :=
  as.foldlM (fun (s : State) a => s.vSrc st mem a.reg a.bytes a.fmts) s

/-- Read sources in field order. -/
def State.vVals (s : State) (st : Stream) (mem : Bool) (as : List VArg) : Part? (List Row) :=
  as.mapM fun a => s.vVal st mem a.reg a.bytes

/-- An operation with one row result: destination, then sources checked; then the result written to `bytes` of d. -/
def State.vecOp (s : State) (stp : Stp) (mem : Bool) (lat : Nat) (d : VReg) (dfmts : Option (List Fmt)) (bytes : BitVec 128)
    (srcs : List VArg) (f : Rnd → List Row → Row) : Result :=
  s.operate .vector stp (s.tb + lat - 1) fun st => do
    let t ← s.vDst st mem d bytes dfmts lat
    let t ← t.vSrcs st mem srcs
    let vals ← t.vVals st mem srcs
    return t.vPut st mem d (f (s.vMode st mem d) vals) bytes lat

/-- A result that is no row: only sources are checked. -/
def State.vecTo (s : State) (stp : Stp) (mem : Bool) (lat : Nat) (srcs : List VArg) (f : State → Stream → List Row → State) :
    Result :=
  s.operate .vector stp (s.tb + lat - 1) fun st => do
    let t ← s.vSrcs st mem srcs
    let vals ← t.vVals st mem srcs
    return f t st vals

/-! ### Elements (R120, R128) -/

/-- Apply a function to the corresponding elements of rows. -/
def mapElems (ty : VType) (rows : List Row) (f : List Nat → Nat) : Row :=
  if ty.bits == 32 then rowOfLanes fun i => BitVec.ofNat 32 (f (rows.map fun r => (lane r i).toNat))
  else rowOfElems fun i => BitVec.ofNat 16 (f (rows.map fun r => (elem16 r i).toNat))

/-- The elements of a row as patterns. -/
def elemsOfRow (ty : VType) (r : Row) : List Nat :=
  if ty.bits == 32 then (List.range 32).map fun i => (lane r i).toNat else (List.range 64).map fun i => (elem16 r i).toNat

/-- The operations of Table 5.3. -/
inductive Arith where
  | add | sub | mul | fma | fms | max | min
deriving DecidableEq, Repr

/-- A floating-point type's format; INT32 has none. -/
def VType.float? (t : VType) : Option FFmt := (VType.fmt t).float?

/-- The larger or smaller of two patterns (R128, R137): a NaN wins, +0 is over -0. -/
def pickFloat (f : FFmt) (larger : Bool) (a b : Nat) : Nat :=
  let x := f.decode a
  let y := f.decode b
  if x.isNaN || y.isNaN then f.nanPat
  else
    match FVal.cmp x y with
    | .eq => if (a / f.signBit % 2 == 1) == larger then b else a
    | .gt => if larger then a else b
    | .lt => if larger then b else a

/-- One element of Table 5.3, from patterns a, b and d. -/
def arithElem (op : Arith) (ty : VType) (mode : Rnd) (a b d : Nat) : Nat :=
  match VType.float? ty with
  | some f =>
    let x := f.decode a
    let y := f.decode b
    let z := f.decode d
    match op with
    | .add => f.arith mode (FVal.add mode x y)
    | .sub => f.arith mode (FVal.add mode x y.neg)
    | .mul => f.arith mode (FVal.mul x y)
    | .fma => f.arith mode (FVal.add mode (FVal.mul x y) z)
    | .fms => f.arith mode (FVal.add mode (FVal.mul x y) z.neg)
    | .max => pickFloat f true a b
    | .min => pickFloat f false a b
  | none =>
    let x : W32 := BitVec.ofNat 32 a
    let y : W32 := BitVec.ofNat 32 b
    let z : W32 := BitVec.ofNat 32 d
    match op with
    | .add => (x + y).toNat
    | .sub => (x - y).toNat
    | .mul => (x * y).toNat
    | .fma => (x * y + z).toNat
    | .fms => (x * y - z).toNat
    | .max => (if x.slt y then y else x).toNat
    | .min => (if y.slt x then y else x).toNat

/-- The typed group of two sources (R128). -/
def State.arith2 (s : State) (op : Arith) (lat : Nat) (ty : VType) (d a b : VReg) (mem : Bool) (stp : Stp) : Result :=
  let fm := some (VType.admits ty)
  s.vecOp stp mem lat d fm fullRow [⟨a, fullRow, fm⟩, ⟨b, fullRow, fm⟩] fun mode rows =>
    mapElems ty rows fun es => arithElem op ty mode (es.getD 0 0) (es.getD 1 0) 0

/-- VFMA and VFMS: d is checked as a destination and then, at the head of the sources, as a read (R124). -/
def State.arith3 (s : State) (op : Arith) (ty : VType) (d a b : VReg) (mem : Bool) (stp : Stp) : Result :=
  let fm := some (VType.admits ty)
  s.vecOp stp mem 4 d fm fullRow [⟨d, fullRow, fm⟩, ⟨a, fullRow, fm⟩, ⟨b, fullRow, fm⟩] fun mode rows =>
    mapElems ty rows fun es => arithElem op ty mode (es.getD 1 0) (es.getD 2 0) (es.getD 0 0)

def execVadd (ty : VType) (d a b : VReg) (mem : Bool) (st : Stp) (s : State) : Result := s.arith2 .add 2 ty d a b mem st
def execVsub (ty : VType) (d a b : VReg) (mem : Bool) (st : Stp) (s : State) : Result := s.arith2 .sub 2 ty d a b mem st
def execVmul (ty : VType) (d a b : VReg) (mem : Bool) (st : Stp) (s : State) : Result := s.arith2 .mul 3 ty d a b mem st
def execVfma (ty : VType) (d a b : VReg) (mem : Bool) (st : Stp) (s : State) : Result := s.arith3 .fma ty d a b mem st
def execVfms (ty : VType) (d a b : VReg) (mem : Bool) (st : Stp) (s : State) : Result := s.arith3 .fms ty d a b mem st
def execVmax (ty : VType) (d a b : VReg) (mem : Bool) (st : Stp) (s : State) : Result := s.arith2 .max 2 ty d a b mem st
def execVmin (ty : VType) (d a b : VReg) (mem : Bool) (st : Stp) (s : State) : Result := s.arith2 .min 2 ty d a b mem st

/-! ### Compare (R129) -/

def VCond.ofOrd (c : VCond) (o : Ordering) : Bool :=
  match c with
  | .eq => o == .eq
  | .ne => o != .eq
  | .lt => o == .lt
  | .le => o != .gt

def cmpElem (ty : VType) (c : VCond) (a b : Nat) : Bool :=
  match VType.float? ty with
  | some f =>
    let x := f.decode a
    let y := f.decode b
    if x.isNaN || y.isNaN then c == VCond.ne else VCond.ofOrd c (FVal.cmp x y)
  | none => VCond.ofOrd c (compare (signedNat 32 a) (signedNat 32 b))

/-- The mask a compare writes: one bit per element, zero above (R129). -/
def cmpMask (ty : VType) (c : VCond) (a b : Row) : W64 :=
  BitVec.ofNat 64 ((((elemsOfRow ty a).zip (elemsOfRow ty b)).zipIdx).foldl (fun m ((x, y), i) =>
    if cmpElem ty c x y then m + 2 ^ i else m) 0)

def execVcmp (ty : VType) (md : MReg) (cond : VCond) (a b : VReg) (mem : Bool) (st : Stp) (s : State) : Result :=
  let fm := some (VType.admits ty)
  s.vecTo st mem 2 [⟨a, fullRow, fm⟩, ⟨b, fullRow, fm⟩] fun s _ rows =>
    s.putCol .vector 2 (.m md (cmpMask ty cond (rows.getD 0 0) (rows.getD 1 0)))

/-! ### Logic, shifts, moves (R130 to R132) -/

def State.logic (s : State) (d a b : VReg) (mem : Bool) (stp : Stp) (f : Row → Row → Row) : Result :=
  s.vecOp stp mem 2 d none fullRow [⟨a, fullRow, none⟩, ⟨b, fullRow, none⟩] fun _ rows => f (rows.getD 0 0) (rows.getD 1 0)

/-- A function of each 32-bit lane, whatever the format. -/
def State.laneOp (s : State) (d a : VReg) (mem : Bool) (stp : Stp) (f : W32 → W32) : Result :=
  s.vecOp stp mem 2 d none fullRow [⟨a, fullRow, none⟩] fun _ rows => rowOfLanes fun i => f (lane (rows.getD 0 0) i)

def execVand (d a b : VReg) (mem : Bool) (st : Stp) (s : State) : Result := s.logic d a b mem st (· &&& ·)
def execVor (d a b : VReg) (mem : Bool) (st : Stp) (s : State) : Result := s.logic d a b mem st (· ||| ·)
def execVxor (d a b : VReg) (mem : Bool) (st : Stp) (s : State) : Result := s.logic d a b mem st (· ^^^ ·)
def execVshl (d a : VReg) (sh : BitVec 5) (mem : Bool) (st : Stp) (s : State) : Result :=
  s.laneOp d a mem st (· <<< sh.toNat)
def execVshr (d a : VReg) (sh : BitVec 5) (mem : Bool) (st : Stp) (s : State) : Result :=
  s.laneOp d a mem st (· >>> sh.toNat)
def execVsra (d a : VReg) (sh : BitVec 5) (mem : Bool) (st : Stp) (s : State) : Result :=
  s.laneOp d a mem st (·.sshiftRight sh.toNat)

/-- VABS and VNEG of an element (R130). -/
def absNegElem (neg : Bool) (ty : VType) (a : Nat) : Nat :=
  match VType.float? ty with
  | some f =>
    if (f.decode a).isNaN then f.nanPat
    else if a / f.signBit % 2 == 1 then a - f.signBit
    else if neg then a + f.signBit
    else a
  | none =>
    let x : W32 := BitVec.ofNat 32 a
    (if neg || x.msb then -x else x).toNat

/-- One typed source, one typed result. -/
def State.unary (s : State) (lat : Nat) (ty : VType) (d a : VReg) (mem : Bool) (stp : Stp) (f : Rnd → Nat → Nat) : Result :=
  let fm := some (VType.admits ty)
  s.vecOp stp mem lat d fm fullRow [⟨a, fullRow, fm⟩] fun mode rows => mapElems ty rows fun es => f mode (es.getD 0 0)

def execVabs (ty : VType) (d a : VReg) (mem : Bool) (st : Stp) (s : State) : Result :=
  s.unary 2 ty d a mem st fun _ x => absNegElem false ty x
def execVneg (ty : VType) (d a : VReg) (mem : Bool) (st : Stp) (s : State) : Result :=
  s.unary 2 ty d a mem st fun _ x => absNegElem true ty x

/-- Forms 1 and 2 move a mask (R131); a mask operand above 7 is refused by the decoder. -/
def execVmov (form : VmovForm) (d a : VReg) (mem : Bool) (st : Stp) (s : State) : Result :=
  match form with
  | .vFromV => s.vecOp st mem 2 d none fullRow [⟨a, fullRow, none⟩] fun _ rows => rows.getD 0 0
  | .mFromV => s.vecTo st false 2 [⟨a, fullRow, none⟩] fun s _ rows =>
      s.putCol .vector 2 (.m (d.extractLsb' 0 3) ((rows.getD 0 0).extractLsb' 0 64))
  | .vFromM => s.vecTo st false 2 [] fun s _ _ =>
      s.putCol .vector 2 (.v d ((s.mreg (a.extractLsb' 0 3)).setWidth 1024) fullRow)

/-- VSEL reads and writes the selected lanes or elements only (R132). -/
def execVsel (d a : VReg) (m : MReg) (g : Gran) (mem : Bool) (st : Stp) (s : State) : Result :=
  let sel := selBytes (s.mreg m) g
  s.vecOp st mem 1 d none sel [⟨a, sel, none⟩] fun _ rows => rows.getD 0 0

/-! ### Loads and stores (R133, R134) -/

/-- A load of `bytes` of the row at displacement `row`. -/
def State.vecLoad (s : State) (stp : Stp) (d : VReg) (row : Nat) (bytes : BitVec 128) (f : Row → Row) : Result :=
  s.operate .vector stp (s.tb + 3) fun st => do
    let t ← s.checkRead st .vector (st.rowAt row) bytes none
    let r ← t.fetchRow (st.rowAt row) bytes
    return t.putCol .vector 4 (.v d (f r) fullRow)

/-- Lane `i` of an index register: its low five bits. -/
def laneIndex (r : Row) (i : Nat) : Nat := (lane r i).toNat % 32

def execVld (d : VReg) (row : BitVec 11) (st : Stp) (s : State) : Result := s.vecLoad st d row.toNat fullRow id
def execVldb (d : VReg) (l : BitVec 5) (row : BitVec 6) (st : Stp) (s : State) : Result :=
  s.vecLoad st d row.toNat (wordBytes [l.toNat]) fun r => rowOfLanes fun _ => lane r l.toNat
def execVldx (d a : VReg) (row : BitVec 6) (st : Stp) (s : State) : Result :=
  let x := s.vreg a
  s.vecLoad st d row.toNat (wordBytes ((List.range 32).map (laneIndex x))) fun r => rowOfLanes fun i => lane r (laneIndex x i)

/-- A store of `bytes` of a row at displacement `row`. -/
def State.vecStore (s : State) (stp : Stp) (row : Nat) (v : Row) (bytes : BitVec 128) : Result :=
  s.operate .vector stp (s.tb + 1) fun st => do
    let t ← s.checkWrite st .vector (st.rowAt row) bytes none (s.tb + 1)
    return t.putRow st .vector (st.rowAt row) v bytes (s.tb + 1)

def execVst (v : VReg) (m : MReg) (g : Gran) (row : BitVec 7) (st : Stp) (s : State) : Result :=
  s.vecStore st row.toNat (s.vreg v) (selBytes (s.mreg m) g)

/-- The words VSTX writes: the highest selected lane that names a word gives its value (R134). -/
def scatter (v idx : Row) (m : W64) (w : Nat) : W32 :=
  (List.range 32).foldl (fun x i => if m.getLsbD i && laneIndex idx i == w then lane v i else x) 0

def execVstx (v a : VReg) (m : MReg) (row : BitVec 3) (st : Stp) (s : State) : Result :=
  let k := s.mreg m
  let idx := s.vreg a
  s.vecStore st row.toNat (rowOfLanes (scatter (s.vreg v) idx k))
    (wordBytes (((List.range 32).filter fun i => k.getLsbD i).map (laneIndex idx)))

/-! ### Conversion (R135) -/

/-- One element between types. -/
def cvtElem (dt srcT : VType) (mode : Rnd) (a : Nat) : Nat :=
  if dt == srcT then a else (VType.fmt dt).pattern mode ((VType.fmt srcT).value a)

/-- The half row of H. -/
def halfRow (h : Bool) : BitVec 128 := rowSpan (if h then 64 else 0) 64

def execVcvt (d a : VReg) (dt srcT : VType) (h : Bool) (mem : Bool) (st : Stp) (s : State) : Result :=
  let df := some (VType.admits dt)
  let sf := some (VType.admits srcT)
  let off := if h then 32 else 0
  if dt.bits == srcT.bits then
    s.vecOp st mem 3 d df fullRow [⟨a, fullRow, sf⟩] fun mode rows =>
      mapElems dt rows fun es => cvtElem dt srcT mode (es.getD 0 0)
  else if dt.bits == 16 then
    s.vecOp st mem 3 d df (halfRow h) [⟨a, fullRow, sf⟩] fun mode rows =>
      rowOfElems fun j => if off ≤ j && j < off + 32 then
        BitVec.ofNat 16 (cvtElem dt srcT mode (lane (rows.getD 0 0) (j - off)).toNat) else 0
  else
    s.vecOp st mem 3 d df fullRow [⟨a, halfRow h, sf⟩] fun mode rows =>
      rowOfLanes fun i => BitVec.ofNat 32 (cvtElem dt srcT mode (elem16 (rows.getD 0 0) (off + i)).toNat)

/-! ### Functions and reductions (R136, R137) -/

/-- A function of one element, exact and rounded once. -/
def fnElem (ty : VType) (g : FVal → FVal) (mode : Rnd) (a : Nat) : Nat :=
  match VType.float? ty with
  | some f => f.arith mode (g (f.decode a))
  | none => 0

def execVrcp (ty : VType) (d a : VReg) (mem : Bool) (st : Stp) (s : State) : Result := s.unary 6 ty d a mem st (fnElem ty fnRcp)
def execVrsq (ty : VType) (d a : VReg) (mem : Bool) (st : Stp) (s : State) : Result := s.unary 6 ty d a mem st (fnElem ty fnRsq)
def execVexp2 (ty : VType) (d a : VReg) (mem : Bool) (st : Stp) (s : State) : Result := s.unary 6 ty d a mem st (fnElem ty fnExp2)
def execVlg2 (ty : VType) (d a : VReg) (mem : Bool) (st : Stp) (s : State) : Result := s.unary 6 ty d a mem st (fnElem ty fnLg2)

/-- One level of the tree: neighbours combined. -/
def pairUp {α : Type} (f : α → α → α) : List α → List α
  | a :: b :: r => f a b :: pairUp f r
  | l => l

/-- The value at the root of the tree over up to 64 elements. -/
def tree {α : Type} (f : α → α → α) (xs : List α) : List α := (List.range 6).foldl (fun l _ => pairUp f l) xs

/-- The tree of R137, on patterns of the type. -/
def reduceRow (sum : Bool) (ty : VType) (mode : Rnd) (r : Row) : Nat :=
  match VType.float? ty with
  | some f =>
    let xs := (elemsOfRow ty r).map fun p => fp32.round .rne (f.decode p)
    let y := (tree (fun a b => if sum then fp32.addP .rne a b else pickFloat fp32 true a b) xs).headD 0
    f.arith mode (fp32.decode y)
  | none =>
    let xs := (elemsOfRow ty r).map (BitVec.ofNat 32)
    ((tree (fun (a b : W32) => if sum then a + b else if a.slt b then b else a) xs).headD 0).toNat

def State.reduce (s : State) (sum : Bool) (ty : VType) (d a : VReg) (mem : Bool) (stp : Stp) : Result :=
  let fm := some (VType.admits ty)
  s.vecOp stp mem 7 d fm fullRow [⟨a, fullRow, fm⟩] fun mode rows =>
    let y := reduceRow sum ty mode (rows.getD 0 0)
    mapElems ty [0] fun _ => y

def execVrsum (ty : VType) (d a : VReg) (mem : Bool) (st : Stp) (s : State) : Result := s.reduce true ty d a mem st
def execVrmax (ty : VType) (d a : VReg) (mem : Bool) (st : Stp) (s : State) : Result := s.reduce false ty d a mem st

/-! ### Quantising to block formats (R138 to R140) -/

/-- The 64 values of a row of 16-bit elements. -/
def halfValues (t : HType) (r : Row) : List FVal := (List.range 64).map fun i => (HType.fmt t).value (elem16 r i).toNat

/-- A source of a quantising operation: the type of T, or RAW. -/
def HType.arg (t : HType) (a : VReg) : VArg := ⟨a, fullRow, some [.raw, HType.fmt t]⟩

def execVbmax (a : VReg) (t : HType) (f : BlockF) (mem : Bool) (st : Stp) (s : State) : Result :=
  s.vecTo st mem 5 [HType.arg t a] fun s _ rows =>
    let w := s.core.vec.qwr
    let e := blockExp (BlockF.mantBits f) (rndOf s.core.sys.vmode) (halfValues t (rows.getD 0 0))
    (s.putCol .vector 5 (.q w e)).modC fun c => { c with vec := { c.vec with qwr := w + 1 } }

/-- q[QRD] as it stood two cycles before (R139). -/
def State.bypass (s : State) : Byte :=
  let v := s.core.vec
  (if v.qAt == s.tb then v.qOld else v.q)[v.qrd.toNat]'v.qrd.isLt

/-- Formats VQCVT's destination may hold (R139). -/
def blockFmts : BlockF → List Fmt
  | .bx8 => [.raw, .bx8, .bxp8]
  | .bx4 => [.raw, .bx4, .bxp4]

/-- The bytes of the block VQCVT writes. -/
def quantise (bits : Nat) (planar : Bool) (mode : Rnd) (e : Byte) (xs : List FVal) : List Byte :=
  let ms := xs.map fun x => (ofInt bits (blockMant bits mode e x)).toNat
  if planar then toPlanes bits ms else packMants bits ms

def execVqcvt (d a : VReg) (p : BitVec 2) (t : HType) (f : BlockF) (mem : Bool) (st : Stp) (s : State) : Result :=
  let bits := BlockF.mantBits f
  let pos := p.toNat * (8 * bits)
  let bytes := rowSpan pos (8 * bits)
  s.operate .vector st (s.tb + 3) fun r => do
    let a' := r.field d.toNat
    let u ← s.checkWrite r .vector a' bytes (some (blockFmts f)) (s.tb + 3)
    let u ← u.vSrcs r mem [HType.arg t a]
    let vals ← u.vVals r mem [HType.arg t a]
    let block := quantise bits (s.bankFmt a'.toNat).isPlanar (s.bankRnd a'.toNat) s.bypass (halfValues t (vals.getD 0 0))
    return (u.putRow r .vector a' (rowOfBytes block <<< (8 * pos)) bytes (s.tb + 3)).modC fun c =>
      { c with vec := { c.vec with qrd := c.vec.qrd + 1 } }

def execVqsc (d : VReg) (k : BitVec 5) (st : Stp) (s : State) : Result :=
  let bytes := rowSpan (4 * k.toNat) 4
  s.operate .vector st (s.tb + 1) fun r => do
    let t ← s.checkWrite r .vector (r.field d.toNat) bytes none (s.tb + 1)
    return t.putRow r .vector (r.field d.toNat) (rowOfBytes s.core.vec.q.toList <<< (32 * k.toNat)) bytes (s.tb + 1)

/-! ### Shuffle, index, broadcast (R141) -/

/-- A register result from registers, latency 2. -/
def State.regOp (s : State) (d : VReg) (stp : Stp) (f : Stream → Row) : Result :=
  s.operate .vector stp (s.tb + 1) fun st => .ok (s.putCol .vector 2 (.v d (f st) fullRow))

def execVshuf (d a b : VReg) (g : Gran) (st : Stp) (s : State) : Result :=
  let x := s.vreg a
  let y := s.vreg b
  s.regOp d st fun _ =>
    match g with
    | .lane => rowOfLanes fun i => lane x (laneIndex y i)
    | .elem => rowOfElems fun j => elem16 x ((elem16 y j).toNat % 64)

def execViota (d : VReg) (g : Gran) (st : Stp) (s : State) : Result :=
  s.regOp d st fun r =>
    match g with
    | .lane => rowOfLanes fun i => BitVec.ofInt 32 (r.rho * 32 + i)
    | .elem => rowOfElems fun j => BitVec.ofInt 16 (r.rho * 64 + j)

def execVbcst (d a : VReg) (l : BitVec 5) (st : Stp) (s : State) : Result :=
  s.regOp d st fun _ => rowOfLanes fun _ => lane (s.vreg a) l.toNat

/-! ### The deferral queue (R142 to R145) -/

/-- The entries VDFR appends, in ascending order. -/
def deferEntries (r : Row) (m : W64) (g : Gran) (rho : Int) (now : Nat) : List Deferred :=
  match g with
  | .lane => ((List.range 32).filter fun j => m.getLsbD j).map fun j => ⟨lane r j, BitVec.ofInt 32 (rho * 32 + j), now⟩
  | .elem => ((List.range 64).filter fun j => m.getLsbD j).map fun j =>
      ⟨(elem16 r j).setWidth 32, BitVec.ofInt 32 (rho * 64 + j), now⟩

/-- Append, or raise DFOVF in the next cycle (R143). -/
def State.defer (s : State) (st : Stream) (es : List Deferred) : State :=
  if 4096 < s.core.vec.dq.length + es.length then
    s.modIss fun x => { x with later := x.later ++
      [⟨s.tb + 1, ⟨.dfovf, BitVec.ofNat 12 st.addr, 0, finfo 0 1 false 0 (s.tb + 1 - st.opIssue)⟩⟩] }
  else s.modC fun c => { c with vec := { c.vec with dq := c.vec.dq ++ es } }

def execVdfr (a : VReg) (m : MReg) (g : Gran) (mem : Bool) (st : Stp) (s : State) : Result :=
  let k := s.mreg m
  s.vecTo st mem 2 [⟨a, selBytes k g, none⟩] fun s r rows => s.defer r (deferEntries (rows.getD 0 0) k g r.rho s.tb)

def execVdfd (d e : VReg) (m : MReg) (st : Stp) (s : State) : Result :=
  let n := min 32 s.dqVisible.length
  let es := s.core.vec.dq.take n
  s.operate .vector st (s.tb + 3) fun _ => .ok
    ((((s.modC fun c => { c with vec := { c.vec with dq := c.vec.dq.drop n } }).putCol .vector 4
      (.v d (rowOfLanes fun i => (es[i]?.map (·.value)).getD 0) fullRow)).putCol .vector 4
      (.v e (rowOfLanes fun i => (es[i]?.map (·.index)).getD 0) fullRow)).putCol .vector 4 (.m m (BitVec.ofNat 64 (2 ^ n - 1))))

def execVdfn (d : VReg) (clear : Bool) (st : Stp) (s : State) : Result :=
  let n : W32 := BitVec.ofNat 32 s.core.vec.dq.length
  s.operate .vector st (s.tb + 1) fun _ => .ok
    ((if clear then s.modC fun c => { c with vec := { c.vec with dq := [] } } else s).putCol .vector 2
      (.v d (rowOfLanes fun _ => n) fullRow))

def execVnop (st : Stp) (s : State) : Result := s.operate .vector st (s.tb - 1) fun _ => .ok s

end Sys2Proof.Machine
end

