-- ==== Sys2Proof/Machine/Table.lean ====
section
/-!
DEFINITION. The table column (R147 to R149): TLD, TSEG, TINT, TQAD and TCLMP.
-/
namespace Sys2Proof.Machine

open Sys2Proof

/-- Table entry `i` of the core in focus, modulo 2,048 (R147). -/
def State.tableEntry (s : State) (i : Nat) : Part? W32 :=
  (s.fetchBound (tableBase s.cur + 4 * (i % 2048)) 4).map fun bs => BitVec.ofNat 32 (leNat bs)

/-- The same as an FP32 value. -/
def State.tableValue (s : State) (i : Nat) : Part? FVal := (s.tableEntry i).map fun w => fp32.decode w.toNat

/-- TLD writes the row at the end of its issue cycle (R148). -/
def execTld (t : BitVec 6) (row : BitVec 10) (st : Stp) (s : State) : Result :=
  s.operate .table st s.tb fun r => do
    let u ← s.checkRead r .table (r.rowAt row.toNat) fullRow none
    let v ← u.fetchRow (r.rowAt row.toNat) fullRow
    return u.putCol .table 1 (.table (32 * ((t.toNat + r.rho) % 64).toNat) v)

/-- FP32 arithmetic on values, rounded to nearest even. -/
def rneAdd (x y : FVal) : FVal := fp32.decode (fp32.arith .rne (FVal.add .rne x y))
def rneMul (x y : FVal) : FVal := fp32.decode (fp32.arith .rne (FVal.mul x y))
def rneFma (x y z : FVal) : FVal := fp32.decode (fp32.arith .rne (FVal.add .rne (FVal.mul x y) z))

/-- ⌊u⌋ and u - ⌊u⌋ of a finite u that is not negative. DESIGN CHOICE (notes/assumptions/111.md): where the difference is zero
it is +0, for u = -0 too; R149 gives no sign. -/
def floorFrac (u : FVal) : Nat × FVal :=
  match u with
  | .fin _ m e => if 0 ≤ e then (m * 2 ^ e.toNat, .fin false 0 0) else (m / 2 ^ (-e).toNat, .fin false (m % 2 ^ (-e).toNat) e)
  | _ => (0, .fin false 0 0)

/-- The segment and fraction of R149; none in the NAN_CASE. -/
def segment (x x0 scale : FVal) (n : Nat) : Option (Nat × FVal) :=
  let u := rneMul (rneAdd x x0.neg) scale
  if x.isNaN || u.isNaN then none
  else if FVal.cmp u (.fin false 0 0) == .lt then some (0, .fin false 0 0)
  else if FVal.cmp u (.fin false n 0) != .lt then some (n - 1, .fin false 1 0)
  else some (floorFrac u)

/-- A table header (Table 5.5). -/
structure Header where
  x0 : FVal
  scale : FVal
  n : Nat
  lo : FVal
  hi : FVal
  d0 : Nat

/-- The header of table `h`: six entries of one granule. -/
def State.header (s : State) (h : Nat) : Part? Header := do
  let x0 ← s.tableValue (128 * h)
  let scale ← s.tableValue (128 * h + 1)
  let n ← s.tableEntry (128 * h + 2)
  let lo ← s.tableValue (128 * h + 3)
  let hi ← s.tableValue (128 * h + 4)
  let d0 ← s.tableEntry (128 * h + 5)
  return ⟨x0, scale, max 1 (n.toNat % 2048), lo, hi, d0.toNat % 2048⟩

/-- TINT's value in segment `k` (R149). -/
def State.interpolate (s : State) (d0 k : Nat) (t : FVal) : Part? FVal := do
  let y0 ← s.tableValue (d0 + k)
  let y1 ← s.tableValue (d0 + k + 1)
  return rneFma t (rneAdd y1 y0.neg) y0

/-- TQAD's value in segment `k`. -/
def State.quadratic (s : State) (d0 k : Nat) (t : FVal) : Part? FVal := do
  let c0 ← s.tableValue (d0 + 3 * k)
  let c1 ← s.tableValue (d0 + 3 * k + 1)
  let c2 ← s.tableValue (d0 + 3 * k + 2)
  return rneFma (rneFma c2 t c1) t c0

/-- TCLMP's value. -/
def clampValue (lo hi x : FVal) : FVal :=
  if x.isNaN || lo.isNaN || hi.isNaN then x
  else if FVal.cmp x lo == .lt then lo
  else if FVal.cmp hi x == .lt then hi
  else x

/-- A table operation: one result element for each source element, written to bank field d. -/
def State.tableOp (s : State) (lat : Nat) (ty : VType) (dfmt : Fmt) (d a : VReg) (h : BitVec 4) (stp : Stp)
    (f : State → Header → Rnd → FVal → Part? Nat) : Result :=
  s.operate .table stp (s.tb + lat - 1) fun st => do
    let da := st.field d.toNat
    let t ← s.checkWrite st .table da fullRow (some [.raw, dfmt]) (s.tb + lat - 1)
    let t ← t.checkRead st .table (st.field a.toNat) fullRow (some (VType.admits ty))
    let row ← t.fetchRow (st.field a.toNat) fullRow
    let hd ← t.header h.toNat
    let mode := s.bankRnd da.toNat
    let ys ← (elemsOfRow ty row).mapM fun p => f t hd mode ((VType.fmt ty).value p)
    let out := if ty.bits == 32 then rowOfLanes fun i => BitVec.ofNat 32 (ys.getD i 0)
      else rowOfElems fun i => BitVec.ofNat 16 (ys.getD i 0)
    return t.putRow st .table da out fullRow (s.tb + lat - 1)

/-- Round to the type; every NaN is the canonical one of sign 0. -/
def roundTo (ty : VType) (mode : Rnd) (y : FVal) : Nat :=
  match VType.float? ty with
  | some f => f.arith mode y
  | none => 0

def execTseg (ty : VType) (d a : VReg) (h : BitVec 4) (st : Stp) (s : State) : Result :=
  s.tableOp 4 ty (if ty.bits == 32 then .int32 else .int16) d a h st fun _ hd _ x =>
    .ok (match segment x hd.x0 hd.scale hd.n with
      | some (k, _) => k
      | none => 2 ^ ty.bits - 1)

/-- TINT and TQAD: a curve over the segment. -/
def State.curveOp (s : State) (lat : Nat) (ty : VType) (d a : VReg) (h : BitVec 4) (stp : Stp)
    (f : State → Nat → Nat → FVal → Part? FVal) : Result :=
  s.tableOp lat ty (VType.fmt ty) d a h stp fun s hd mode x =>
    match segment x hd.x0 hd.scale hd.n with
    | some (k, t) => (f s hd.d0 k t).map (roundTo ty mode)
    | none => .ok (roundTo ty mode (.nan false))

def execTint (ty : VType) (d a : VReg) (h : BitVec 4) (st : Stp) (s : State) : Result :=
  s.curveOp 6 ty d a h st fun s => s.interpolate
def execTqad (ty : VType) (d a : VReg) (h : BitVec 4) (st : Stp) (s : State) : Result :=
  s.curveOp 8 ty d a h st fun s => s.quadratic

def execTclmp (ty : VType) (d a : VReg) (h : BitVec 4) (st : Stp) (s : State) : Result :=
  s.tableOp 2 ty (VType.fmt ty) d a h st fun _ hd mode x => .ok (roundTo ty mode (clampValue hd.lo hd.hi x))

end Sys2Proof.Machine
end

