-- ==== Sys2Proof/Machine/Matrix.lean ====
section
/-!
DEFINITION. The matrix column (R150 to R167): configuration, the weight loader with its follow-ons, the scaled sum, the
drain, and the column's writes at the accumulator port (R157, R168, R174).
-/
namespace Sys2Proof.Machine

open Sys2Proof

/-! ### Geometry (Table 6.1) -/

def outColumns (i : Nat) : Nat := if isToken i then 128 else 256
def tileBlocks (i : Nat) : Nat := if isToken i then 2 else 4
def latchBytes (i : Nat) : Nat := if isToken i then 64 else 128
def accRows (i : Nat) : Nat := if isToken i then 128 else 64

/-- The accumulator row of MMA, MMO and MZRO (R153). -/
def accRow (core : Nat) (a : BitVec 6) (rho : Int) : Nat := ((a.toNat + rho) % (accRows core : Int)).toNat

/-- A matrix read of bytes of a row, whatever its fault. -/
def State.matRead (s : State) (st : Stream) (a : W64) (bytes : BitVec 128) (fmts : Option (List Fmt)) : Part? (State × Row) := do
  let t ← s.checkRead st .matrix a bytes fmts
  let r ← t.fetchRow a bytes
  return (t, r)

/-! ### Configuration (R158, R161, R163, R166) -/

def execMcfg (p : Planes) (g : VReg) (x : BitVec 5) (st : Stp) (s : State) : Result :=
  s.operate .matrix st s.tb fun r => do
    let (t, v) ← s.matRead r (r.field g.toNat) (rowSpan (4 * x.toNat) 4) none
    return t.putCol .matrix 1 (.mcfg p.count (lane v x.toNat))

def execMscl (a : VReg) (j : BitVec 3) (st : Stp) (s : State) : Result :=
  s.operate .matrix st (s.tb + 7) fun r => do
    let (t, v) ← s.matRead r (r.field a.toNat) fullRow none
    return t.putCol .matrix 8 (.sv j v)

/-- The loader runs or holds a follow-on (R160). -/
def State.loaderBusy (s : State) : Bool := !s.core.mat.loader.isEmpty

def execMwsw (st : Stp) (s : State) : Result :=
  s.operate .matrix st s.tb fun _ =>
    if s.loaderBusy then .error (s.halt .timing 0 0 none) else .ok (s.putCol .matrix 1 .swap)

def execMnop (st : Stp) (s : State) : Result := s.operate .matrix st (s.tb - 1) fun _ => .ok s

/-! ### Loading weights (R159, R160) -/

/-- Byte `off` of a region that starts at row field `n`: its row and place in the row. -/
def Stream.inRegion (st : Stream) (n off : Nat) : W64 × Nat := (st.rowAt (32 * n + off / 128), off % 128)

/-- Row `i` of a tile and its scale codes go to the shadow latch at the end of this cycle. -/
def State.loadRow (s : State) (st : Stream) (a t : VReg) (i : Nat) : Part? State := do
  let lr := latchBytes s.cur
  let w := tileBlocks s.cur
  let (ra, ro) := st.inRegion a.toNat (lr * i)
  let (u, idx) ← s.matRead st ra (rowSpan ro lr) (some [.raw, .qn4])
  let (ca, co) := st.inRegion t.toNat (w * i)
  let (u, codes) ← u.matRead st ca (rowSpan co w) none
  return u.putCol .matrix 1 (.latch (!s.core.mat.sel) i
    ⟨(idx >>> (8 * ro)) &&& BitVec.ofNat 1024 (2 ^ (8 * lr) - 1), (codes >>> (8 * co)).extractLsb' 0 (8 * w) |>.setWidth 32⟩)

/-- The operation goes on in the next cycle of its occupancy. -/
def Stream.tick (st : Stream) (now : Nat) : Stream := { st with cyc := st.cyc + 1, next := now + 1 }

/-- An operation of `n` cycles: `f` gives each cycle's part and the stream, `due` the last write. -/
def State.occupy (s : State) (stp : Stp) (n due : Nat) (f : Stream → Part? (State × Stream)) : Result :=
  match s.core.iss.mat.run with
  | none => .next s
  | some st =>
    match f st with
    | .error h => .next (s.colFault .matrix st h)
    | .ok (t, r) =>
      if st.cyc + 1 < n then .next (t.setStream .matrix (r.tick s.tb)) else .next (t.opDone .matrix r stp due)

def execMwld (a t : VReg) (st : Stp) (s : State) : Result :=
  s.occupy st (outColumns s.cur) s.tb fun r =>
    if r.cyc == 0 && s.loaderBusy then .error (s.halt .timing 0 0 none)
    else (s.loadRow r a t r.cyc).map fun u => (u, { r with latched := r.latched ++ s.shadowRow r.cyc })

/-! ### Follow-ons (R160, R287) -/

/-- The follow-on of a copy, in the order in which the loader takes them. -/
def insertFollow (l : List FollowOn) (f : FollowOn) : List FollowOn :=
  match l with
  | [] => [f]
  | g :: r =>
    if g.running || g.presented < f.presented || (g.presented == f.presented && g.engine ≤ f.engine) then g :: insertFollow r f
    else f :: g :: r

/-- The run that issued a copy has been abandoned or its request is over: its follow-on is discarded (R327). -/
def Core.abandoned (c : Core) (k : Copy) : Bool :=
  c.iss.run != k.run || k.run < c.bnd.firstRun || (match c.iss.status with
    | .running | .draining | .sealed | .bound => false
    | _ => true)

/-- FOLLOW_ON_PRESENT: a CPYM's word reaches the matrix column. -/
def execFollowOnPresent (id : Nat) (s : State) : Result :=
  match s.copy? id with
  | none => .next s
  | some c =>
    match c.asker, c.follow with
    | .core i, some w =>
      let s := s.focus i
      if s.core.abandoned c then .next (s.followDone id)
      else
        match decode w with
        | .ok (.mwld _ _ _) =>
          let f : FollowOn := ⟨id, w, c.dcap, c.pc, c.issue, c.engine, s.tb, 0, false, []⟩
          .next (s.modC fun x => { x with mat := { x.mat with loader := insertFollow x.mat.loader f } })
        | _ => .next ((s.deferFault i .ill 0 4 0 c.pc c.issue).followDone id)
    | _, _ => .next s

/-- FOLLOW_ON_START: the loader takes its first waiting follow-on. -/
def execFollowOnStart (core : Nat) (s : State) : Result :=
  .next ((s.focus core).modC fun x => { x with mat := { x.mat with loader :=
    match x.mat.loader with
    | f :: r => { f with running := true } :: r
    | [] => [] } })

/-- The view of a stream that a follow-on's operands take: the capability of the copy, ρ = 0 (R287). -/
def FollowOn.view (f : FollowOn) : Stream :=
  { addr := f.pc.toNat, left := 1, cur := none, op := 0, rho := 0, cap := f.cap, next := 0, cyc := f.row, opIssue := f.issue
    issue := f.issue, visible := 0, latched := [] }

/-- The loader's follow-on stops: it has no effect (R155), the row of this cycle included. -/
def State.dropFollow (s : State) (f : FollowOn) : State :=
  let s := (s.restoreRows f.old).modC fun x => { x with
    mat := { x.mat with loader := x.mat.loader.filter fun (g : FollowOn) => g.copy != f.copy }
    iss := { x.iss with pend := x.iss.pend.filter fun (p : Pend) => !(p.due == s.tb && (match p.dst with
      | .latch _ _ _ => true
      | _ => false)) } }
  s.followDone f.copy

/-- One cycle of the loader of the core in focus. The word's rep and step are ignored: a follow-on is one operation with ρ = 0,
which is all that R160 and R287 give it (DESIGN CHOICE, notes/assumptions/112.md). -/
def State.loaderStep (s : State) : State :=
  match s.core.mat.loader with
  | [] => s
  | f :: r =>
    if !f.running then s
    else
      match decode f.word with
      | .ok (.mwld a t _) =>
        match s.loadRow f.view a t f.row with
        | .ok u =>
          let t := u.modC fun x => { x with mat := { x.mat with
            loader := { f with row := f.row + 1, old := f.old ++ s.shadowRow f.row } :: r } }
          if f.row + 1 == outColumns s.cur then t.followDone f.copy else t
        | .error h =>
          let s := match h.damage with
            | some d => s.modMem (·.markPoison d)
            | none => s
          (s.raise ⟨h.cause, f.pc, h.addr, finfo 0 4 true h.det (s.tb - f.issue)⟩).dropFollow f
      | _ => s

/-! ### The scaled sum (R57, R59, R162) -/

/-- The mantissa patterns of an operation, 128 to a row. -/
def mantAt (rows : List Row) (i : Nat) : Nat := (rowByte (rows.getD (i / 128) 0) (i % 128)).toNat

/-- Planes 2c and 2c + 1 of the mantissas of a vector (R57), added to those read before. -/
def addPlanes (rows : List Row) (ms : List Nat) (c : Nat) : List Row :=
  [0, 1].map fun h => rowOfBytes ((List.range 128).map fun i =>
    BitVec.ofNat 8 (mantAt rows (128 * h + i) + natBits (ms.getD (128 * h + i) 0) (2 * c) 2 * 2 ^ (2 * c)))

/-- Bytes of a vector of `v` bytes, in W blocks, that hold planes 2c and 2c + 1: all of them in the element layout. -/
def planeBytes (f : Fmt) (v w c : Nat) : List Nat :=
  if f.isPlanar then (List.range w).flatMap fun k => (List.range 16).map fun i => k * (v / w) + 16 * c + i else List.range v

/-- The part of a byte set that lies in row `h` of a vector. -/
def bytesIn (bs : List Nat) (h : Nat) : BitVec 128 :=
  bs.foldl (fun (a : BitVec 128) b => if b / 128 == h then a ||| rowSpan (b % 128) 1 else a) 0

/-- G of R59 for one block: `ms` mantissas, `cs` codebook indices. None for a zero block. -/
def blockTerm (frac p : Nat) (ms cs : List Nat) (e : Byte) (s8 : Nat) (sv : W32) : Option W32 :=
  if s8 == 0 then none
  else
    let dot := (ms.zip cs).foldl (fun (a : Int) (m, c) => a + signedNat p m * codebook c) 0
    let x := dot * s8
    let f : W32 := BitVec.ofNat 32 (if e == 255 then fp32.nanPat
      else fp32.roundFin .rne (x < 0) x.natAbs ((e.toNat : Int) - 127 - frac - 11))
    some (mulF32 f sv)

/-- The terms of every output column, from the mantissas, exponents and the active latch. -/
def State.scaledTerms (s : State) (frac p : Nat) (ms : List Row) (ex : Row) : List (List (Option W32)) :=
  let w := tileBlocks s.cur
  let latch := if s.core.mat.sel then s.core.mat.wl1 else s.core.mat.wl0
  let sv := (s.core.iss.pend.foldl (fun (c : Core) p => match p.dst with
    | .sv _ _ => c.apply p.dst
    | _ => c) s.core).mat.sv
  let blocks := (List.range w).map fun b => (List.range 64).map fun i => mantAt ms (64 * b + i)
  (List.range (outColumns s.cur)).map fun n =>
    let row := latch[n]?.getD LatchRow.reset
    (blocks.zipIdx).map fun (m, b) =>
      blockTerm frac p m ((List.range 64).map fun i => natBits row.idx.toNat (4 * (64 * b + i)) 4) (rowByte ex b)
        (natBits row.codes.toNat (8 * b) 8) (sv[n]?.getD 0)

/-- One cycle of MMA or MMO: exponents and format in the first, two planes in each, the sum in the last. -/
def State.mulCycle (s : State) (anew : Bool) (a e : VReg) (acc : BitVec 6) (st : Stream) : Part? (State × Stream) := do
  let w := tileBlocks s.cur
  let p := s.core.mat.planes
  let f := s.bankFmt (st.field a.toNat).toNat
  let v := w * f.blockBytes
  let bs := planeBytes f v w st.cyc
  let fmts : List Fmt := if 4 < p then [.bx8, .bxp8] else [.bx8, .bx4, .bxp8, .bxp4]
  let (t, r0) ← s.matRead st (st.field a.toNat) (bytesIn bs 0) (some fmts)
  let (t, r1) ← if v == 256 then t.matRead st (st.field (a.toNat + 1)) (bytesIn bs 1) (some [f]) else .ok (t, 0)
  let (t, ex) ← if st.cyc == 0 then t.matRead st (st.field e.toNat) (rowSpan 0 w) none else .ok (t, st.latched.headD 0)
  let data := rowBytes r0 ++ rowBytes r1
  let bb := f.blockBytes
  let ms := (List.range w).flatMap fun k => f.mants ((data.drop (bb * k)).take bb)
  let rows := addPlanes (if st.cyc == 0 then [] else st.latched.drop 1) ms st.cyc
  let st' := { st with latched := ex :: rows }
  if st.cyc + 1 < p / 2 then return (t, st')
  else return (t.modIss fun x => { x with accPend := x.accPend ++ [{
    due := s.tb + 14, row := accRow s.cur acc st.rho, anew := anew, zero := false
    terms := s.scaledTerms (blockFrac f.mantBits) p rows ex
    parity := s.core.mat.parity.any (·.1 == s.core.mat.sel), pc := BitVec.ofNat 12 st.addr, issue := st.opIssue }] }, st')

def execMma (a e : VReg) (acc : BitVec 6) (st : Stp) (s : State) : Result :=
  s.occupy st (s.core.mat.planes / 2) (s.tb + 14) (s.mulCycle false a e acc)
def execMmo (a e : VReg) (acc : BitVec 6) (st : Stp) (s : State) : Result :=
  s.occupy st (s.core.mat.planes / 2) (s.tb + 14) (s.mulCycle true a e acc)

def execMzro (acc : BitVec 6) (st : Stp) (s : State) : Result :=
  s.operate .matrix st (s.tb + 14) fun r => .ok (s.modIss fun x => { x with accPend := x.accPend ++ [{
    due := s.tb + 14, row := accRow s.cur acc r.rho, anew := true, zero := true, terms := [], parity := false
    pc := BitVec.ofNat 12 r.addr, issue := r.opIssue }] })

/-! ### The drain (R165) -/

/-- Formats MDRN writes. -/
def drainFmts : List Fmt := [.raw, .fp32, .bf16, .fp16, .e4m3, .e5m2, .int8, .int16, .int32]

/-- The words a drain reads. -/
def State.accWords (s : State) (first n : Nat) : Part? (List W32) :=
  (List.range n).mapM fun i =>
    (s.fetchBound (accBase s.cur + 4 * ((first + i) % 16384)) 4).map fun bs => BitVec.ofNat 32 (leNat bs)

/-- The row of one MDRN operation. -/
def drainRow (f : Fmt) (mode : Rnd) (t : W32) (ws : List W32) : Row :=
  rowOfBytes (f.join (ws.map fun w => f.pattern mode (fp32.decode (mulF32 w t).toNat)))

/-- One operation of a drain: the words of this cycle, written eight cycles later. -/
def State.drainOp (s : State) (d : VReg) (aw : BitVec 11) (st : Stream) : Part? State := do
  let da := st.field d.toNat
  let f := s.bankFmt da.toNat
  let f : Fmt := if f == .raw then .fp32 else f
  let t ← s.checkWrite st .matrix da fullRow (some drainFmts) (s.tb + 8)
  let q := 128 / f.unit
  let ws ← t.accWords ((8 * aw.toNat + q * st.rho) % 16384).toNat q
  return t.putRow st .matrix da (drainRow f (s.bankRnd da.toNat) s.core.mat.tscale ws) fullRow (s.tb + 8)

/-- A word of n operations occupies n + 8 cycles: the last operation's occupancy holds the eight. -/
def execMdrn (d : VReg) (aw : BitVec 11) (st : Stp) (s : State) : Result :=
  match s.core.iss.mat.run with
  | none => .next s
  | some r =>
    s.occupy st (if r.op < st.rep.toNat then 1 else 9) (s.tb + if r.cyc == 0 then 8 else 0) fun r =>
      if r.cyc == 0 then (s.drainOp d aw r).map fun t => (t, r) else .ok (s, r)

/-! ### The accumulator port: the matrix column's writes (R157, R168, R174) -/

/-- The words of an accumulator row that a write of the core in focus reaches, lowest first. -/
def AccPend.words (p : AccPend) (core : Nat) : List Nat :=
  (List.range (outColumns core)).map fun n => accBase core + 4 * (outColumns core * p.row + n)

/-- A sum that reads words above a watermark, or whose sequence tag has not landed (R15): the first, with its detail
(notes/assumptions/119.md). -/
def State.accLate (s : State) (p : AccPend) : Option (Nat × Nat) :=
  if p.anew then none else (p.words s.cur).findSome? fun a => (s.lateRead a (rowSpan 0 4)).map fun d => (a, d)

/-- A write that finds such a word, an uncorrectable word or a latch error in this cycle: its fault (R15, R174, R331). -/
def State.accFault (s : State) (p : AccPend) : Option FaultRec :=
  if let some (a, det) := s.accLate p then some ⟨.timing, p.pc, BitVec.ofNat 64 a, finfo 0 2 true det (s.tb - p.issue)⟩
  else if p.parity then some ⟨.ucdata, p.pc, 0, finfo 0 2 true 13 (s.tb - p.issue)⟩
  else if p.anew then none
  else ((p.words s.cur).find? s.mem.damaged).map fun a =>
    ⟨.ucdata, p.pc, BitVec.ofNat 64 a, finfo 0 2 true 0 (s.tb - p.issue)⟩

/-- The value of a word after the terms of its column. -/
def sumTerms (acc : W32) (terms : List (Option W32)) : W32 :=
  terms.foldl (fun (a : W32) t => match t with
    | some g => addF32 a g
    | none => a) acc

/-- Let a due write take effect. -/
def State.accWrite (s : State) (p : AccPend) : State :=
  if p.parity then s
  else
    s.modMem fun m => ((p.words s.cur).zipIdx).foldl (fun (m : Mem) (a, n) =>
      let g := p.terms.getD n []
      if p.anew then (m.setWord a (if p.zero then 0 else sumTerms 0 g)).clearPoison a
      else if m.damaged a then m.markPoison a
      else if g.all (·.isNone) then m
      else m.setWord a (sumTerms (m.word a) g)) m

end Sys2Proof.Machine
end

