-- ==== Sys2Proof/Machine/Io.lean ====
section
/-!
DEFINITION. Reads and writes by the dispatcher, the queue processors, the boards and the ports: whole ranges of a world's
address space, checked and translated as R232 to R245 and R253 give.
-/
namespace Sys2Proof.Machine

open Sys2Proof

/-- What stops such an access. -/
inductive IoStop where
  | xlate (va : Nat)
  | refused (c : Cause) (va : Nat)
  /-- Uncorrectable data, with FADDR (R331). -/
  | damaged (addr : Nat)
deriving DecidableEq, Repr

def Stop.io : Stop → IoStop
  | .xlate va => .xlate va
  | .refused c va => .refused c va
  | .table va => .damaged va

/-- The scheduler is told of a table line that fails (R237). -/
def State.noteStop (s : State) (world : Nat) (e : Stop) : State :=
  match e with
  | .table va => s.say (.uncorrectable world (BitVec.ofNat 64 va))
  | _ => s

/-- The bytes of a range; a failing unit is noted (R306, R314, R331). These units fix no walk time (R240). -/
def State.ioRead (s : State) (world va n : Nat) : Except (IoStop × State) (List Byte × State) :=
  match s.resolve world none va n false false (pagesOf va n + 1) with
  | .error e => .error (e.io, s.noteStop world e)
  | .ok rs =>
    match s.badRead rs with
    | some (u, fa, hbm) => .error (.damaged fa, s.noteDamage u hbm)
    | none => .ok (s.readPieces rs, s)

def IoStop.isRefused : IoStop → Bool
  | .refused _ _ => true
  | _ => false

/-- What follows a read: `stop` where it stops, `k` with its bytes. -/
def ioThen {β : Type} (r : Except (IoStop × State) (List Byte × State)) (stop : IoStop × State → β) (k : List Byte → State → β) : β :=
  match r with
  | .error e => stop e
  | .ok (bs, s) => k bs s

/-- What follows a part that may stop. -/
def okThen {ε α β : Type} (r : Except ε α) (stop : ε → β) (k : α → β) : β :=
  match r with
  | .error e => stop e
  | .ok x => k x

/-- Write physical pieces: HBM lines under their key, memories of slices as a landing writes them. -/
def State.writePieces (s : State) (world : Nat) (rs : List PRun) (bs : List Byte) : State × Option Nat :=
  match rs with
  | [] => (s, none)
  | r :: l =>
    let part := bs.take r.n
    if r.void then s.writePieces world l (bs.drop r.n)
    else if placeOf r.pa == .hbm then
      let (t, bad) := s.landHbm world r.key (lineSplit r.pa part (part.length + 1))
      match bad with
      | some u => (t, some (r.va + u - r.pa))
      | none => t.writePieces world l (bs.drop r.n)
    else (s.modMem fun m => m.landPiece r.pa part).writePieces world l (bs.drop r.n)

/-- Write a range; `gid` is the writing group where R245 applies. -/
def State.ioWrite (s : State) (world : Nat) (gid : Option (BitVec 16)) (va : Nat) (bs : List Byte) : Except (IoStop × State) State :=
  match s.resolve world gid va bs.length true false (pagesOf va bs.length + 1) with
  | .error e => .error (e.io, s.noteStop world e)
  | .ok rs =>
    match s.writePieces world rs bs with
    | (t, none) => .ok t
    | (t, some fa) => .error (.damaged fa, t)

/-- The failing line of uncorrectable data, which every report names (R331). -/
def IoStop.line : IoStop → Nat
  | .damaged a => a
  | _ => 0

/-- Cause and FADDR of a stop, for units that do not wait for the scheduler. -/
def IoStop.cause : IoStop → Cause × Nat
  | .xlate va => (.capperm, va)
  | .refused c va => (c, va)
  | .damaged a => (.ucdata, a)

end Sys2Proof.Machine
end

