-- ==== Sys2Proof/Machine/Seal.lean ====
section
/-!
DEFINITION. The seal record (Tables 15.5 to 15.8): its bytes, written from a sealed core, and the registers restored from
them (R343, R344).
-/
namespace Sys2Proof.Machine

open Sys2Proof

/-- Stride of the record area for logical index, and the record's place in it (R343). -/
def sealStride : Nat := 0x110000
def sealOffset : Nat := 0x100000
def sealVa (x : Jetton) (logical : Nat) : Nat := x.sealptr.toNat / 64 * 64 + sealStride * logical + sealOffset

/-- The drain of a sealed core. -/
def Core.drained (c : Core) : Drain := c.iss.drain.getD ⟨0, none, 0, false, false, false, 0, false, false, none⟩
/-- D of R333. -/
def Drain.point (d : Drain) : Nat := d.d.getD d.q

/-- Table 15.6, bytes 0 to 7. -/
def headerWord (core rpc rply : Nat) (bkpend : Bool) (bksrc : Nat) (fpend rstrt dbg retd : Bool) (stg : Nat) : Nat :=
  0x5EA1 * 2 ^ 48 + 1 * 2 ^ 40 + core * 2 ^ 29 + rpc % 4096 * 2 ^ 17 + rply * 2 ^ 15 + bkpend.toNat * 2 ^ 14
    + bksrc * 2 ^ 12 + fpend.toNat * 2 ^ 11 + rstrt.toNat * 2 ^ 10 + dbg.toNat * 2 ^ 9 + retd.toNat * 2 ^ 8 + stg * 2 ^ 5

/-- An entry of Table 15.7. -/
def streamEntry (cap : Cap) (off : Int) (rho : Int) (col : Nat) (kind : Bool) (first cnt : Nat) : List Byte :=
  leBytes cap.cur.toNat 8 ++ leBytes cap.high.toNat 8 ++ leBytes (BitVec.ofInt 64 off).toNat 8
    ++ leBytes (BitVec.ofInt 32 rho).toNat 4
    ++ leBytes (col * 2 ^ 30 + cap.tag.toNat * 2 ^ 29 + kind.toNat * 2 ^ 28 + first % 4096 * 2 ^ 16 + cnt * 2 ^ 8) 4

def Core.columns (c : Core) : List (Nat × Column) := [(0, c.iss.vec), (1, c.iss.mat), (2, c.iss.tab)]

/-- Launches not started, in the order of their start cycle. -/
def Core.launches (c : Core) : List (Nat × Launch) :=
  sortBy (fun (_, l) => l.start * 2 ^ 64 + l.issue) (c.columns.flatMap fun (k, x) => x.armed.map fun l => (k, l))
/-- Streams with words left, in the order of their next word, then of the issue of their launches. -/
def Core.streams (c : Core) : List (Nat × Stream) :=
  sortBy (fun (_, r) => r.next * 2 ^ 64 + r.issue) (c.columns.filterMap fun (k, x) => x.run.map fun r => (k, r))


/-- A copy's LEVEL: the bytes of its destination order that have landed. -/
def Copy.level (c : Copy) : Nat := c.targets.foldl (fun m t => min m t.doneb) (c.targets.foldl (fun m t => max m t.doneb) 0)

/-- An entry of Table 15.8; a saved copy's time is its OFF. -/
def copyEntry (c : Copy) : List Byte :=
  let parked := c.state == .parked
  leBytes (natSet (natSet c.card.toNat 0 5 0) 0 5 (c.op.toNat + parked.toNat * 16)) 8
    ++ (List.range 3).flatMap (fun k => leBytes (c.ext[k]?.getD 0).toNat 8)
    ++ leBytes c.dst.toNat 8 ++ leBytes c.src.toNat 8 ++ leBytes c.time 8 ++ leBytes c.n 4
    ++ leBytes (if parked then c.level else 0) 4

/-- The entry of a collective that has not reached its engine (R380). -/
def collEntry (c : Coll) : List Byte :=
  leBytes (natSet (natSet c.card.toNat 0 5 0) 0 5 (c.opcode.toNat - 0x50)) 8
    ++ leBytes c.key.opix.toNat 8 ++ leBytes 0 16
    ++ leBytes c.dst.toNat 8 ++ leBytes c.src.toNat 8 ++ leBytes c.time 8 ++ leBytes c.n 4 ++ leBytes 0 4

/-- The entries of the copies and collectives of a core that its seal saved, in the order of the T that they had in their
buffers, then of issue (R338, R343, R380). -/
def State.savedEntries (s : State) (i : Nat) : List (List Byte) :=
  let a := ((s.copiesOf i).filter (·.saved)).map fun c => (c.place * 2 ^ 64 + c.id, copyEntry c)
  let b := ((s.collsOf i).filter (·.saved)).map fun c => (c.place * 2 ^ 64 + c.id, collEntry c)
  (sortBy (fun (e : Nat × List Byte) => e.1) (a ++ b)).map (·.2)

/-- Bits of a list of Booleans, first at bit 0. -/
def boolBits (l : List Bool) : Nat := (l.zipIdx).foldl (fun a (b, i) => a + b.toNat * 2 ^ i) 0

/-- The header (Table 15.6). A retired core, or one whose run starts over, has no resume word. -/
def Core.header (c : Core) (i nc : Nat) : List Byte :=
  let d := c.drained
  let rstrt := d.restart && !d.retired
  let w := headerWord i (if d.retired || rstrt then 0 else d.resume) c.sys.rply c.sys.bkpend c.sys.bksrc.toNat
    d.fpend.isSome rstrt d.dbg d.retired (if rstrt then c.bnd.stage else 0)
  let v := c.vec
  let q := (v.q.toList.zipIdx).foldl (fun a (b, k) => a + b.toNat * 2 ^ (32 + 8 * k)) 0
    + v.qrd.toNat * 2 ^ 30 + v.qwr.toNat * 2 ^ 28 + c.sys.sd.toNat * 2 ^ 27 + c.sys.vmode.toNat * 2 ^ 24
    + boolBits (c.ctl.c.toList.map (·.tag)) * 2 ^ 8 + c.ctl.k.toNat
  let ev := c.sys.evmask.toNat % 128 + boolBits [c.iss.vec.flag, c.iss.mat.flag, c.iss.tab.flag] * 2 ^ 7
  let n := if d.retired || rstrt then 0 else nc * 2 ^ 25 + c.streams.length * 2 ^ 23 + c.launches.length * 2 ^ 16
  let f := d.fpend
  let bp := (c.sys.bpaddr.toList.zipIdx).foldl (fun a (b, k) => a + b.toNat * 2 ^ (16 * k)) 0
  padTo 256 (leBytes w 8
    ++ leBytes (BitVec.ofInt 64 ((d.point : Int) - c.sys.anchor.toNat)).toNat 8
    ++ leBytes (d.point - c.iss.runStart - c.iss.debugCyc) 8
    ++ leBytes (loopst c.ctl.loops).toNat 8
    ++ c.ctl.lc.toList.flatMap (fun x => leBytes x.toNat 4)
    ++ leBytes q 8
    ++ leBytes (ev + n) 8
    ++ (c.bnd.alpha.toList.flatMap fun x => leBytes x.toNat 4) ++ leBytes 0 4
    ++ leBytes bp 8
    ++ leBytes ((f.map fun r => r.cause.code).getD c.sys.fcause.toNat) 8
    ++ leBytes ((f.map fun r => r.fpc.toNat).getD c.sys.fpc.toNat) 8
    ++ leBytes ((f.map fun r => r.addr.toNat).getD c.sys.faddr.toNat) 8
    ++ leBytes ((f.map fun r => r.info.toNat).getD c.sys.finfo.toNat) 8)

/-- The record of a sealed core (Table 15.5). -/
def State.sealRecord (s : State) (i : Nat) : List Byte :=
  let c := s.getCore i
  let d := c.drained
  let copies := s.savedEntries i
  let h := c.header i copies.length
  if d.retired || d.restart then h
  else
    let at_ (t : Nat) : Int := (t : Int) - d.point
    h ++ c.ctl.s.toList.flatMap (fun x => leBytes x.toNat 8)
      ++ c.ctl.c.toList.flatMap (fun x => leBytes x.cur.toNat 8 ++ leBytes x.high.toNat 8)
      ++ padTo 480 ((c.launches.flatMap fun (k, l) => streamEntry l.cap (at_ l.start) 0 k false l.first (l.count - 1))
        ++ c.streams.flatMap fun (k, r) => streamEntry r.cap (at_ r.next) r.rho k true r.addr (r.left - 1))
      ++ c.vec.m.toList.flatMap (fun x => leBytes x.toNat 8)
      ++ List.replicate 224 0
      ++ c.vec.v.toList.flatMap (fun r => rowBytes r)
      ++ padTo 4096 (copies.flatten)

/-! ### Restoring (R344) -/

/-- The field of `n` bytes at an offset of a record. -/
def recNat (b : List Byte) (off n : Nat) : Nat := leNat ((b.drop off).take n)
def recW64 (b : List Byte) (off : Nat) : W64 := BitVec.ofNat 64 (recNat b off 8)

/-- The launch and stream entries of a record: column, kind, launch as armed with its offset for a start, row offset. -/
def recEntries (b : List Byte) : List (Nat × Bool × Launch × Int) :=
  let n := recNat b 56 8
  (List.range (natBits n 16 7 + natBits n 23 2)).map fun k =>
    let e := b.drop (0x300 + 32 * k)
    let w := recNat e 28 4
    (natBits w 30 2, natBits w 28 1 == 1,
      { first := natBits w 16 12, count := natBits w 8 8 + 1, cap := ⟨recW64 e 0, recW64 e 8, natBits w 29 1 == 1⟩
        start := recNat e 16 8, pc := BitVec.ofNat 12 (natBits w 16 12), issue := k, saved := true },
      (BitVec.ofNat 32 (recNat e 24 4)).toInt)

/-- A column with the entries of a record: launches armed and a stream that continues, both at their offsets. -/
def recColumn (b : List Byte) (k : Nat) (flag : Bool) : Column :=
  let es := (recEntries b).filter (·.1 == k)
  { armed := es.filterMap fun (_, stream, l, _) => if stream then none else some l
    run := es.findSome? fun (_, stream, l, rho) => if stream then some {
        addr := l.first, left := l.count, cur := none, op := 0, rho := rho, cap := l.cap, next := l.start, cyc := 0
        opIssue := 0, issue := l.issue, visible := 0, latched := [] } else none
    ends := [], flag := flag }

/-- The registers that a record restores, with every start still at its offset; the loop stack's own addresses are
resident (notes/assumptions/12.md). -/
def Core.restore (c : Core) (b : List Byte) : Core :=
  let w := recNat b 0 8
  let q := recNat b 48 8
  let ev := recNat b 56 8
  let bp := recNat b 88 8
  { c with
    ctl := { c.ctl with
      s := Vector.ofFn fun i => recW64 b (0x100 + 8 * i.val)
      c := Vector.ofFn fun i => ⟨recW64 b (0x200 + 16 * i.val), recW64 b (0x208 + 16 * i.val), natBits q (8 + i.val) 1 == 1⟩
      k := BitVec.ofNat 8 q ||| 1
      lc := Vector.ofFn fun i => BitVec.ofNat 32 (recNat b (32 + 4 * i.val) 4) }
    vec := { c.vec with
      v := Vector.ofFn fun i => rowOfBytes ((b.drop (0x600 + 128 * i.val)).take 128)
      m := (Vector.ofFn fun (i : Fin 8) => recW64 b (0x4E0 + 8 * i.val)).set 0 (BitVec.allOnes 64)
      q := Vector.ofFn fun i => BitVec.ofNat 8 (natBits q (32 + 8 * i.val) 8)
      qrd := BitVec.ofNat 2 (natBits q 30 2), qwr := BitVec.ofNat 2 (natBits q 28 2), qOld := Vector.replicate 4 0, qAt := 0 }
    sys := { c.sys with
      sd := natBits q 27 1 == 1, vmode := BitVec.ofNat 3 (natBits q 24 3), evmask := BitVec.ofNat 16 (natBits ev 0 7)
      rply := natBits w 15 2, bkpend := natBits w 14 1 == 1, bksrc := BitVec.ofNat 2 (natBits w 12 2), dbg := false
      anchor := recW64 b 8
      bpaddr := Vector.ofFn fun i => BitVec.ofNat 13 (natBits bp (16 * i.val) 13)
      fcause := BitVec.ofNat 8 (recNat b 96 8), fpc := BitVec.ofNat 12 (recNat b 104 8)
      faddr := recW64 b 112, finfo := recW64 b 120 }
    bnd := { c.bnd with alpha := Vector.ofFn fun i => BitVec.ofNat 32 (recNat b (64 + 4 * i.val) 4) }
    iss := { c.iss with
      pc := natBits w 17 12, runStart := recNat b 16 8, debugCyc := 0, wait := .none
      vec := recColumn b 0 (natBits ev 7 1 == 1), mat := recColumn b 1 (natBits ev 8 1 == 1)
      tab := recColumn b 2 (natBits ev 9 1 == 1) } }

end Sys2Proof.Machine
end

