-- ==== Sys2Proof/Machine/Launch.lean ====
section
/-!
DEFINITION. The starts and ends of runs: what a start sets (R12, R90, R151, R183, R184, R203, R221, R223, R273, R329), the
footprint checks (R260), resume (R344, R345), the end of a task (R32, R188) and the balancer (R204, R205).
-/
namespace Sys2Proof.Machine

open Sys2Proof

/-! ### Timetables -/

/-- The plane a selection uses (R383): the active one, or the one the request keeps. -/
def Handle.plane (h : Handle) (second : Bool) : Option Timetable := ((if second then h.b else h.a).map (·.1))

def State.handle? (s : State) (tth : BitVec 16) : Option Handle := s.disp.handles.find? (·.tth == tth)

/-- The timetable of a jetton: of its request's plane while it holds one, else of the active plane. -/
def State.timetable? (s : State) (x : Jetton) : Option Timetable :=
  (s.handle? x.tth).bind fun h => h.plane (if x.group.isSome then x.plane else h.active)

/-! ### Settings of a task image (Table 3.9) -/

/-- The BFMT value of a `.bank` directive (Table 1.9). -/
def bankSetReg (b : BankSet) : W64 :=
  BitVec.ofNat 64 (b.pad.toNat * 2 ^ 32 + b.rnd.toNat * 2 ^ 8 + b.fmt.toNat)

/-- The ring register of a `.ring` directive (Table 1.3). -/
def ringSetReg (r : RingSet) : W64 := BitVec.ofNat 64 (r.first * 2 ^ 55 + r.last * 2 ^ 48 + r.slot * 2 ^ 36)

/-- The highest bank that a `.bank` or `.ring` directive names; bank 0 when none does (R184). -/
def imageTop (t : TaskImage) : Nat := t.rings.foldl (fun m r => max m r.last) (t.banks.foldl (fun m b => max m b.bank) 0)

/-- The highest bank of format CAP that the task names. -/
def imageCap (t : TaskImage) : Option Nat :=
  t.banks.foldl (fun m b => if b.fmt == 0xF then some (max (m.getD 0) b.bank) else m) none

/-- c0 (R184). -/
def imageC0 (t : TaskImage) (world core : Nat) : Cap :=
  mkCap world (if (imageCap t).isSome then permRead + permWrite + permLoadCap + permStoreCap else permRead + permWrite)
    (coreBase core) (((imageTop t) + 1) * 4096)

/-- The word of an image at a code address; words it does not emit are zero. -/
def imageWord (t : TaskImage) (a : Nat) : W48 := ((t.words.find? (·.1 == a)).map (·.2)).getD 0

/-- Code segment 0 from an image (R67). -/
def Mem.loadSegment (m : Mem) (core : Nat) (t : TaskImage) : Mem :=
  (List.range 256).foldl (fun (m : Mem) a => (m.setCodeWord core a (imageWord t a)).clearPoison (codeBase core + 8 * a)) m

/-- Segment 0 loaded and marked present with its tag; `fresh` marks the others absent (R21, R203). -/
def State.loadCode (s : State) (i : Nat) (t : TaskImage) (fresh : Bool) : State :=
  (s.modMem (·.loadSegment i t)).modCore i fun c => { c with bnd := { c.bnd with
    segs := (if fresh then Vector.replicate 16 ⟨false, 0⟩ else c.bnd.segs).set 0 ⟨true, t.segTag⟩ } }

/-! ### Regions and footprint checks (R260) -/

/-- The base of a region of capability number `c`. -/
def regionBase (c0 : Cap) (mb : Vector W64 16) (c : Nat) : Nat := if c == 0 then c0.cur.toNat else ((mb[c]?).getD 0).toNat

/-- The regions of a task's footprints and expectations at a start. -/
def imageRegions (t : TaskImage) (c0 : Cap) (mb : Vector W64 16) : List Region :=
  t.foots.map (fun f => ⟨some f.kind, BitVec.ofNat 64 (regionBase c0 mb f.c + f.off), f.len, 0⟩)
    ++ t.expects.map (fun e => ⟨none, BitVec.ofNat 64 (regionBase c0 mb e.c + e.off), e.len, e.tag⟩)

def footNeed : FootKind → Nat
  | .read => permRead
  | .write => permWrite
  | .acc | .ring => permRead + permWrite

/-- Step 2: an acc region in one accumulator, a ring region in the banks of one window, that pass R234. -/
def State.footPlace (s : State) (world : Nat) (kind : FootKind) (a n : Nat) : Bool :=
  match kind, placeOf a, placeOf (a + n - 1) with
  | .acc, .slice i .acc, .slice j .acc => i == j && s.windowOk world a true false
  | .ring, .slice i (.bank _), .slice j (.bank _) => i == j && s.windowOk world a true false
  | .read, _, _ => true
  | .write, _, _ => true
  | _, _, _ => false

/-- The bytes [lo, hi) lie in the regions, each given as base and end. -/
def coveredBy (regs : List (Nat × Nat)) (lo hi fuel : Nat) : Bool :=
  match fuel with
  | 0 => hi ≤ lo
  | fuel + 1 =>
    hi ≤ lo || (match regs.find? fun (a, b) => a ≤ lo && lo < b with
      | some (_, b) => coveredBy regs b hi fuel
      | none => false)

/-- Step 3: read and write regions of a task meet only inside its acc and ring regions. -/
def footsApart (rs : List (FootKind × Nat × Nat)) : Bool :=
  let own := (rs.filter fun (k, _, _) => k == .acc || k == .ring).map (·.2)
  let reads := (rs.filter fun (k, _, _) => k == .read).map (·.2)
  let writes := (rs.filter fun (k, _, _) => k == .write).map (·.2)
  reads.all fun (a, b) => writes.all fun (x, y) => coveredBy own (max a x) (min b y) (own.length + 1)

/-- The cause with which the footprints of a task fail, if they do, and FADDR: the address of step 1 (R102), 0 in the
other steps (R323). -/
def State.footCause (s : State) (world : Nat) (c0 root : Cap) (mb : Vector W64 16) (t : TaskImage) : Option (Cause × Nat) :=
  let fail := t.foots.findSome? fun f =>
    let a := regionBase c0 mb f.c + f.off
    match (if f.c == 0 then c0 else root).check world (footNeed f.kind) a f.len with
    | some c => some (c, a)
    | none => if s.footPlace world f.kind a f.len then none else some (.capperm, 0)
  match fail with
  | some c => some c
  | none =>
    if footsApart (t.foots.map fun f => let a := regionBase c0 mb f.c + f.off; (f.kind, a, a + f.len)) then none
    else some (.ill, 0)

/-- A fault that the dispatcher finds (R323): FPC 0, and FADDR as the rule that raises it gives. -/
def dispatchFault (c : Cause) (det addr : Nat) : FaultRec := ⟨c, 0, BitVec.ofNat 64 addr, finfo 0 9 false det 0⟩

/-- The footprint check of core `i` before a start; a failure ends the request. -/
def State.footCheck (s : State) (i : Nat) : Option State :=
  let c := s.getCore i
  match c.bnd.task with
  | none => none
  | some t =>
    let w := c.sys.world.toNat
    (s.footCause w (imageC0 t w i) (s.jetton c.bnd.jetton).root c.ctl.mb t).map fun (f, a) =>
      s.endRequest c.bnd.jetton s.tb f.code (dispatchFault f 3 a)

/-! ### A start of a run -/

/-- DMEM (Table 8.1). -/
def State.dmem (s : State) (i stage : Nat) : W64 :=
  let x := s.jetton (s.getCore i).bnd.jetton
  BitVec.ofNat 64 (stage * 2 ^ 54 + x.link.toNat * 2 ^ 38 + Config.packageIndex.toNat * 2 ^ 28
    + (isToken i).toNat * 2 ^ 27 + x.gid.toNat * 2 ^ 11 + i)

/-- A channel still receiving a copy (R273). -/
def State.landing (s : State) (i : Nat) (ch : Channel) : Bool :=
  ch.act && s.eng.copies.any fun c => c.id == ch.copy && (c.state == .issued || c.state == .parked) &&
    c.targets.any fun t => t.core == some i && !t.complete

/-- Rings at a start: the settings of the image, with the state carried over where the layout stands (R221). -/
def imageRings (t : TaskImage) (old : Vector Ring 8) (carry : Bool) : Vector Ring 8 :=
  Vector.ofFn fun k =>
    let reg := ((t.rings.find? (·.ring == k.val)).map ringSetReg).getD 0
    if carry && old[k].reg.extractLsb' 36 26 == reg.extractLsb' 36 26 then old[k] else ⟨reg, [], []⟩

/-- The registers of R12, R90 and R151 at a start. -/
def Core.startRegs (c : Core) (t : TaskImage) (i : Nat) (carry : Bool) : Core :=
  { c with
    ctl := { c.ctl with s := Vector.replicate 32 0, c := (Vector.replicate 16 Cap.null).set 0 (imageC0 t c.sys.world.toNat i)
                        k := 1, lc := Vector.replicate 4 0, loops := [] }
    vec := Core.reset.vec
    mat := Core.reset.mat
    rn := imageRings t c.rn carry
    copyrec := Vector.replicate 16 0
    copyOf := Vector.replicate 16 0
    sys := { c.sys with
      sd := false, dbg := false, bkpend := false, bksrc := 0, vmode := 0, evmask := 0
      drainbase := BitVec.ofNat 12 t.drainBase, cycmax := t.cycmax
      bfmt := t.banks.foldl (fun v b => v.setIfInBounds b.bank (bankSetReg b)) (Vector.replicate 96 0) } }

/-- The root capability in the last granule of the CAP bank (R184). -/
def State.placeRoot (s : State) (i : Nat) (t : TaskImage) (root : Cap) : State :=
  match (imageCap t) with
  | some b =>
    let a := bankBase i b + 4080
    s.modMem fun m => (m.write a (leBytes root.cur.toNat 8 ++ leBytes root.high.toNat 8)).setCapTag a root.tag
  | none => s

/-- The entries of `.table` (R90). -/
def State.placeTables (s : State) (i : Nat) (t : TaskImage) : State :=
  s.modMem fun m => t.tables.foldl (fun (m : Mem) (k, v) => m.setWord (tableBase i + 4 * (k % 2048)) v) m

/-- After a UCDATA every word of the acc footprint is +0.0 and carries no poison mark (R175). -/
def State.clearFootprint (s : State) (regs : List Region) : State :=
  (regs.filter fun r => r.kind == some .acc).foldl (fun s r =>
    let a := r.base.toNat / 4 * 4
    s.modMem fun m => (List.range ((r.base.toNat % 4 + r.len + 3) / 4)).foldl (fun (m : Mem) k =>
      (m.setWord (a + 4 * k) 0).clearPoison (a + 4 * k)) m) s

/-- α at a start (R223): the phase numbers at a first start, as they are at a restart, as the run began at a replay. -/
def State.startAlpha (s : State) (i kind : Nat) : Vector (BitVec 32) 5 :=
  let b := (s.getCore i).bnd
  if kind == 0 then Vector.ofFn fun l => s.phaseNo (s.domainOf i l.val)
  else if kind == 3 then b.alphaStart else b.alpha

/-- A run of core `i` starts in this cycle: kind 0 first start, 1 restart in the same stage, 2 restart in another stage,
3 replay. A follow-on that the loader still holds is dropped, and its copy with it (notes/assumptions/118.md). -/
def State.beginRun (s : State) (i kind : Nat) : State :=
  match (s.getCore i).bnd.task with
  | none => s
  | some t =>
    let c := s.getCore i
    let root := (s.jetton c.bnd.jetton).root
    let alpha := s.startAlpha i kind
    let s := c.mat.loader.foldl (fun (s : State) (f : FollowOn) => s.followDone f.copy) s
    let s := if kind == 3 && c.sys.fcause == 0x19 then s.clearFootprint c.bnd.regions else s
    let s := if kind == 2 then s.loadCode i t true else if kind == 3 then s.loadCode i t false else s
    let dmem := s.dmem i c.bnd.stage
    let scope := ((s.world? c.sys.world.toNat).map (·.scopemax)).getD 5
    let wm := Vector.ofFn fun k : Fin 16 => let ch := (s.getCore i).wm[k]; if s.landing i ch then ch else Channel.reset
    let s := s.modCore i fun c =>
      let c := c.startRegs t i (kind == 1 || kind == 3)
      { c with
        wm := wm
        journal := if kind == 3 then c.journal else []
        jpos := 0
        sys := { c.sys with
          anchor := BitVec.ofNat 64 s.tb, dmem := dmem, scope := scope, rply := if kind == 3 then c.sys.rply else 0
          fcause := if kind == 0 then 0 else c.sys.fcause, fpc := if kind == 0 then 0 else c.sys.fpc
          faddr := if kind == 0 then 0 else c.sys.faddr, finfo := if kind == 0 then 0 else c.sys.finfo
          bpaddr := if kind == 0 then Vector.replicate 4 0 else c.sys.bpaddr }
        bnd := { c.bnd with
          alpha := alpha, alphaStart := alpha, movedStage := false, started := true
          firstRun := if kind == 0 then c.iss.run + 1 else c.bnd.firstRun
          startRun := if kind == 3 then c.bnd.startRun else c.iss.run + 1
          regions := imageRegions t (imageC0 t c.sys.world.toNat i) c.ctl.mb }
        iss := { Core.reset.iss with
          fault := c.iss.fault
          status := .running, next := s.tb, runStart := s.tb, run := c.iss.run + 1
          ucLast := if kind == 3 then c.iss.ucLast else none
          pend := c.iss.pend, bankPend := c.iss.bankPend, accPend := c.iss.accPend } }
    (s.placeRoot i t root).placeTables i t

/-! ### Resume (R344, R345) -/

/-- The cause of a code of Table 15.3. -/
def causeOf (code : Nat) : Cause :=
  ([.ill, .priv, .capbnd, .captag, .capperm, .timing, .seqtag, .slip, .segmiss, .dfovf, .xlate, .align, .overrun, .quota,
    .tier, .bkpt, .svc, .record, .owner, .ringerr, .seqwin, .started, .ucdata] : List Cause).find? (·.code == code) |>.getD .ill

/-- The code of the BKPT instruction at the resume word (R345). -/
def State.bkptCode (s : State) (i : Nat) : BitVec 16 :=
  match decode (s.mem.codeWord i (s.getCore i).iss.pc) with
  | .ok (.bkpt code) => code
  | _ => 0

/-- A column restored from a record, whose starts stood as offsets, rebased to cycle R. -/
def Column.rebase (c : Column) (r : Nat) : Column :=
  { c with armed := c.armed.map fun l => { l with start := r + l.start }, run := c.run.map fun x => { x with next := r + x.next } }

/-- CPYG reads its index list again (R344). -/
def State.rereadIndex (s : State) (c : Copy) : CopyKind :=
  match c.kind with
  | .gather b _ => .gather b (s.indexList ((c.ext[1]?).getD 0).toNat (c.n / max b 1))
  | k => k

/-- The copies of a sealed core re-enter their buffers with T = R + OFF. -/
def State.restoreCopies (s : State) (i : Nat) : State :=
  let j := (s.getCore i).bnd.jetton
  let back (c : Copy) : Copy :=
    if c.asker == .core i && c.jetton == j && c.saved then { c with saved := false, time := s.tb + c.time, kind := s.rereadIndex c } else c
  let again (c : Coll) : Coll :=
    if c.core == i && c.jetton == j && c.saved then { c with saved := false, time := s.tb + c.time } else c
  s.modEng fun e => { e with copies := e.copies.map back, colls := e.colls.map again }

/-- A sealed core continues at its resume word in this cycle. -/
def State.resumeRun (s : State) (i : Nat) : State :=
  let c := s.getCore i
  let stage := c.bnd.stage
  let dmem := s.dmem i stage
  let s := s.restoreCopies i
  let s := s.modCore i fun c => { c with
    sys := { c.sys with anchor := s.tbw - c.sys.anchor, dmem := dmem }
    iss := { c.iss with
      status := .running, next := s.tb, runStart := s.tb - c.iss.runStart, turn := none, drain := none, wait := .none
      vec := c.iss.vec.rebase s.tb, mat := c.iss.mat.rebase s.tb, tab := c.iss.tab.rebase s.tb } }
  let pc := BitVec.ofNat 12 c.iss.pc
  let raise (f : FaultRec) (s : State) : State := ((s.focus i).raise f).focus s.cur
  if c.sys.bkpend then
    let hard := c.sys.bksrc == 1
    let code := if hard then 0 else s.bkptCode i
    raise ⟨.bkpt, pc, 0, finfo code 0 false 0 0⟩ (s.modCore i fun c => { c with
      sys := { c.sys with bkpend := false }, iss := { c.iss with pass := hard } })
  else
    match c.drained.fpend with
    | some _ => raise ⟨causeOf c.sys.fcause.toNat, c.sys.fpc, c.sys.faddr, c.sys.finfo⟩ s
    | none => s

/-! ### The start events -/

/-- The start event of core `i` is removed from the schedule's future by its happening; it stays for R200's counts. -/
def State.startKind (s : State) (i : Nat) : Option Nat := (s.startNow i).map (·.kind)

/-- The footprint check passes, or the request ends; then the run begins. -/
def State.checkedStart (s : State) (i kind : Nat) : State :=
  match s.footCheck i with
  | some t => t
  | none => s.beginRun i kind

/-- TASK_START: a first start or a resume; its first control word issues in this cycle (R197). -/
def execTaskStart (core : Nat) (s : State) : Result :=
  .next (match s.startKind core with
    | some 0 => s.beginRun core 0
    | some 4 => s.resumeRun core
    | _ => s)

/-- TASK_RESTART (R203): in the same stage or, with its image loaded, in another. -/
def execTaskRestart (core : Nat) (s : State) : Result :=
  .next (match s.startKind core with
    | some 1 => s.checkedStart core 1
    | some 2 => s.checkedStart core 2
    | _ => s)

/-- REPLAY_START (R328, R329). -/
def execReplayStart (core : Nat) (s : State) : Result :=
  .next (match s.startKind core with
    | some 3 => s.checkedStart core 3
    | _ => s)

/-! ### The end of a task -/

/-- The task of a core ends now (R32). -/
def State.endsNow (s : State) (i : Nat) : Bool :=
  let x := (s.getCore i).iss
  x.wait == .done && x.vec.finished && x.mat.finished && x.tab.finished && s.copiesIdle i

/-- A core that runs a stage's task in this cycle: its run is on, or ends in this cycle (R204). -/
def State.runsStage (s : State) (i st : Nat) : Bool :=
  let c := s.getCore i
  (c.iss.status.live && c.bnd.stage == st) || c.bnd.lastEnd == some (s.tb, st)

/-- Published slots and size of rn0 of a core (R204). -/
def Core.inbound (c : Core) : Nat × Nat := (ringPublished c.rn[0].reg, ringSlots c.rn[0].reg)

/-- Numerator and denominator of O_st. -/
def State.occupancy (s : State) (cores : List Nat) (st : Nat) : Nat × Nat :=
  let xs := (cores.filter fun i => s.runsStage i st).map fun i => (s.getCore i).inbound
  (xs.foldl (fun n x => n + x.1) 0, xs.foldl (fun n x => n + x.2) 0)

def stageCount (at_ : List Nat) (st : Nat) : Nat := (at_.filter (· == st)).length

/-- The balancer's decision for a core of stage `st` (R205). The counts are those of the cores assigned to each stage; that a
retired core still counts there is the model's choice (notes/assumptions/101.md). -/
def State.balance (s : State) (i st : Nat) (g : Group) : Nat :=
  let (p, _) := (s.getCore i).inbound
  let n := stageCount g.at_
  let mn (k : Nat) : Nat := ((g.stages[k]?).map (·.min)).getD 0
  let mx (k : Nat) : Nat := ((g.stages[k]?).map (·.max)).getD 0
  let (a, b) := s.occupancy g.cores (st + 1)
  let (x, y) := s.occupancy g.cores st
  if p != 0 || ringClaim (s.getCore i).rn[0].reg != 0 then st
  else if st + 1 < g.stages.length && b != 0 && 3 * b ≤ 4 * a && mn st < n st && n (st + 1) < mx (st + 1) then st + 1
  else if 0 < st && y != 0 && 4 * x ≤ y && mn st < n st && n (st - 1) < mx (st - 1) then st - 1
  else st

/-- The run of core `i` ends with its DONE; what it leaves at ring homes is settled at the end of the cycle. A core that is
draining goes on to its seal as a retired core or one between runs does (R333, R343). -/
def State.doneRun (s : State) (i : Nat) (st : Status) (f : Drain → Drain) : State :=
  let d := (s.getCore i).iss.drain
  let s := s.modCore i fun c => { c with bnd := { c.bnd with lastEnd := some (s.tb, c.bnd.stage) } }
  let s := s.stopRun i st
  s.modCore i fun c => { c with iss := { c.iss with drain := d.map fun d => f { d with d := some s.tb, stub := false } } }

/-- A core retires (R188): its arrivals count at every level; when the whole group has retired, the request completes. -/
def State.retire (s : State) (i : Nat) : State :=
  let j := (s.getCore i).bnd.jetton
  let s := s.doneRun i .retired fun d => { d with retired := true }
  let s := s.modCore i fun c => { c with iss := { c.iss with next := s.tb } }
  let s := (List.range 5).foldl (fun s l =>
    s.at_ (s.tb + s.phaseA l) (.phaseArrival (s.domainOf i l) i (((s.getCore i).bnd.alpha.toList[l]?).getD 0))) s
  if (s.heldCores j).all fun k => (s.getCore k).hasRetired then s.endRequest j s.tb 0 (dispatchFault .ill 0 0) else s

/-- A core that ended a task with s0 ≠ 0 starts again (R203, R205), or seals before it does. -/
def State.again (s : State) (i : Nat) : State :=
  let j := (s.getCore i).bnd.jetton
  let draining := (s.getCore i).iss.drain.isSome
  match (s.jetton j).group with
  | none => s.stopRun i .between
  | some g =>
    let st := (s.getCore i).bnd.stage
    let next := s.balance i st g
    let moved := next != st
    let kind := if moved then 2 else 1
    let s := s.doneRun i (if draining then .draining else .between) fun d => { d with restart := true, kind := kind }
    let s := s.modJetton j fun x => { x with group := some { g with at_ := g.at_.set (s.getCore i).bnd.logical next } }
    let s := s.modCore i fun c => { c with bnd := { c.bnd with
      stage := next, movedStage := moved
      task := if moved then (g.stages[next]?).map (·.task) else c.bnd.task } }
    if draining then s else s.schedule [(i, kind)] (s.tb + (if moved then 272 else 24))

/-- A DONE that had to wait moves the anchor as every wait does (R22). -/
def Core.doneAnchor (c : Core) (now : Nat) : Core :=
  if c.iss.waitAt == now then c else { c with sys := { c.sys with anchor := BitVec.ofNat 64 now } }

/-- TASK_END (R32): every column has finished and every copy has landed. -/
def execTaskEnd (core : Nat) (s : State) : Result :=
  .next (if s.endsNow core then
      let t := s.modCore core fun c => c.doneAnchor s.tb
      if (s.getCore core).iss.s0done == 0 then t.retire core else t.again core
    else s)

end Sys2Proof.Machine
end

