-- ==== Sys2Proof/Machine/Select.lean ====
section
/-!
DEFINITION. The dispatcher's selection path (R179 to R182, R191 to R199, R202), the scan abort (R360), loading and arming
(R186, R197, R260, R344, R346), completion records (R187, R401) and OVERRUN (R18).
-/
namespace Sys2Proof.Machine

open Sys2Proof

/-! ### Placement (R179 to R181) -/

/-- The core at cluster coordinates (R179). -/
def coreOf (token : Bool) (x y : Nat) : Nat :=
  ((if token then 4 else 0) + y / 16 * 2 + x / 16) * 256 + y % 16 * 16 + x % 16

/-- Cluster index of a core (R179). -/
def clusterIndex (i : Nat) : Nat := i % 1024

/-- Admitted origins of a shape, in the order of R181; a shape beyond 32 cores either way has none. -/
def originsOf (w h : Nat) : List (Nat × Nat) :=
  if w == 0 || h == 0 || 32 < w || 32 < h then []
  else if w ≤ 16 && h ≤ 16 then
    (List.range 4).flatMap fun d => (List.range (17 - h)).flatMap fun y => (List.range (17 - w)).map fun x =>
      (16 * (d % 2) + x, 16 * (d / 2) + y)
  else
    let along (n : Nat) : List Nat := if 16 < n then [0] else [0, 16]
    (along h).flatMap fun y => (along w).map fun x => (x, y)

/-- The cores of a rectangle in logical order (R182). -/
def rectangle (token : Bool) (w h : Nat) (o : Nat × Nat) : List Nat :=
  (List.range h).flatMap fun y => (List.range w).map fun x => coreOf token (o.1 + x) (o.2 + y)

/-- The first admitted rectangle whose cores all pass. -/
def placeRect (token : Bool) (w h : Nat) (ok : Nat → Bool) : Option (List Nat) :=
  ((originsOf w h).map (rectangle token w h)).find? fun cs => cs.all ok

/-- The core is in its cluster's logical core map (R180). -/
def State.inMap (s : State) (i : Nat) : Bool :=
  (if isToken i then s.disp.mapToken else s.disp.mapPrompt).getLsbD (clusterIndex i)

def State.scan (s : State) (i : Nat) : Scan := (getKey s.disp.scans i).getD Scan.reset

/-- No world (R355: an evicted core is free for no world until its scrub has ended). -/
def noWorld : Nat := 1024

/-- A core is free for a selection of a world but for what a scan of it holds (R180, R355). -/
def State.idleFor (s : State) (world i : Nat) : Bool :=
  let c := s.getCore i
  s.inMap i && c.iss.status == .free && (c.owner.isNone || c.owner == some world)

/-- A core is free for a selection of a world (R180, R355, R357). -/
def State.freeFor (s : State) (world i : Nat) : Bool := s.idleFor world i && (s.scan i).state == 0

/-- Cores of a cluster that a world's groups hold bound (R393). -/
def State.boundCores (s : State) (world : Nat) (token : Bool) : Nat :=
  s.disp.jettons.foldl (fun n (_, x) =>
    match x.group with
    | some g =>
      if x.world == world && g.token == token &&
          (x.state == .binding || x.state == .running || x.state == .sealing || x.state == .frozen) then n + g.cores.length else n
    | none => n) 0

/-- The placement stays within the world's cap (R393). -/
def State.underCap (s : State) (world n : Nat) (token : Bool) : Bool :=
  match s.world? world with
  | some w => s.boundCores world token + n ≤ (if token then w.capToken else w.capPrompt)
  | none => true

/-- The core keeps the resident state of a sealed jetton that is not evicted (R342). -/
def State.keepsSeal (s : State) (j i : Nat) : Bool :=
  let c := s.getCore i
  c.iss.status == .sealed && c.bnd.jetton == j

/-- A core that a SEALED jetton resumes on is free for it (R199, R346). -/
def State.freeSealed (s : State) (j : Nat) (x : Jetton) (i : Nat) : Bool :=
  s.inMap i && (s.scan i).state == 0 && (if x.evicted then s.freeFor x.world i else s.keepsSeal j i)

/-- The placement of a candidate in this cycle: R181, or R199 for one that is SEALED. `extra` admits further cores. -/
def State.placement (s : State) (j : Nat) (x : Jetton) (t : Timetable) (extra : Nat → Bool) : Option (List Nat) :=
  if !s.underCap x.world (t.width * t.height) t.token then none
  else if x.state == .sealed then
    match x.group with
    | some g => if g.cores.all fun i => s.freeSealed j x i || extra i then some g.cores else none
    | none => none
  else placeRect t.token t.width t.height fun i => s.freeFor x.world i || extra i

/-! ### Candidates (R191 to R196) -/

/-- A READY jetton, or a SEALED one whose records are complete (R343) and whose eviction is not under way (R346, R361,
Table 16.4), whose timetable names the cluster. -/
def State.candidate? (s : State) (token : Bool) (x : Jetton) : Option Timetable :=
  let ready := x.state == .ready || (x.state == .sealed && x.evictReq.isNone && (match x.group with
    | some g => g.cores.all fun i => x.records.contains i
    | none => false))
  if ready then
    match s.timetable? x with
    | some t => if t.token == token then some t else none
    | none => none
  else none

/-- The shape has no admitted placement even with every core of the map free (R195). -/
def State.unplaceable (s : State) (t : Timetable) : Bool := (placeRect t.token t.width t.height fun i => s.inMap i).isNone

/-- The ranking of R193 as a number, first in rank lowest. -/
def Jetton.rank (x : Jetton) (j now : Nat) : Nat := ((7 - x.eprio now) * 2 ^ 32 + (2 ^ 32 - 1 - x.wait now)) * 2 ^ 14 + j

/-- All candidates of a cluster, and those that take part in the ranking, in rank. -/
def State.allCandidates (s : State) (token : Bool) : List (Nat × Jetton × Timetable) :=
  s.disp.jettons.filterMap fun (j, x) => (s.candidate? token x).map fun t => (j, x, t)
def State.ranked (s : State) (token : Bool) : List (Nat × Jetton × Timetable) :=
  sortBy (fun (j, x, _) => x.rank j s.tb)
    ((s.allCandidates token).filter fun (_, x, t) => x.state == .sealed || !s.unplaceable t)

def State.selector (s : State) (token : Bool) : Selector := if token then s.disp.selToken else s.disp.selPrompt
def State.modSelector (s : State) (token : Bool) (f : Selector → Selector) : State :=
  s.modDisp fun d => if token then { d with selToken := f d.selToken } else { d with selPrompt := f d.selPrompt }

/-- The path may select: at least 16 cycles since the cluster's previous selection (R191), no hold (R415, R420), and after the
first partition command (R419). -/
def State.pathIdle (s : State) (token : Bool) : Bool :=
  s.mon.commands && !s.mon.powerHold && !s.mon.thermalHold && (match (s.selector token).last with
  | some c => c + 16 ≤ s.tb
  | none => true)

/-- The candidate that stands first in rank without a placement. -/
def State.stuckTop (s : State) (token : Bool) : Option Nat :=
  match s.ranked token with
  | (j, x, t) :: _ => if (s.placement j x t fun _ => false).isNone then some j else none
  | [] => none

/-- R194, kept for every cycle: who has stood first without a placement, and since which cycle. Once that has lasted 2^18
cycles, it stands until its candidate is bound or is none any more. -/
def State.watchTop (s : State) (token : Bool) : State :=
  let v := s.selector token
  let still := match v.top with
    | some (j, c) => (v.barred || c + 2 ^ 18 ≤ s.tb) && (s.allCandidates token).any fun (k, _, _) => k == j
    | none => false
  if still then s
  else
    match v.top, s.stuckTop token with
    | none, none => s
    | some (j, c), some k =>
      if j == k && !v.barred then s else s.modSelector token fun v => { v with top := some (k, if j == k then c else s.tb), barred := false }
    | _, some k => s.modSelector token fun v => { v with top := some (k, s.tb), barred := false }
    | some _, none => s.modSelector token fun v => { v with top := none, barred := false }

/-- The 2^18 cycles of R194 have passed. -/
def State.barDue (s : State) (token : Bool) : Bool :=
  let v := s.selector token
  match v.top with
  | some (_, c) => !v.barred && c + 2 ^ 18 ≤ s.tb
  | none => false

/-- STARVATION_BAR (R194): other candidates are barred, and the scheduler is told the jetton. -/
def execStarvationBar (token : Bool) (s : State) : Result :=
  .next (match (s.selector token).top with
    | some (j, _) =>
      if s.barDue token then (s.modSelector token fun v => { v with barred := true }).say (.signal j) else s
    | none => s)

/-- The candidate that a selection in this cycle binds, with its placement (R193, R194). -/
def State.chosen (s : State) (token : Bool) : Option (Nat × Jetton × Timetable × List Nat) :=
  let v := s.selector token
  let cs := s.ranked token
  let cs : List (Nat × Jetton × Timetable) := match v.top with
    | some (k, _) => if v.barred || s.barDue token then cs.filter fun (i, _, _) => i == k else cs
    | none => cs
  cs.findSome? fun (j, x, t) => (s.placement j x t fun _ => false).map fun p => (j, x, t, p)

/-! ### Binding -/

/-- The queue of a bind (R196). -/
def Jetton.nextQueue (x : Jetton) : BitVec 2 :=
  if x.unended then x.curQueue
  else
    let q := x.lastQueue
    (([q + 1, q + 2, q + 3, q] : List (BitVec 2)).find? fun k => (x.qs[k.toNat]'k.isLt).pending).getD q

/-- The lowest group identifier that no group holds (Table 8.6). -/
def lowestFree (used : List Nat) (k fuel : Nat) : Nat :=
  match fuel with
  | 0 => k
  | fuel + 1 => if used.contains k then lowestFree used (k + 1) fuel else k

def State.freeGid (s : State) : BitVec 16 :=
  let used := s.disp.jettons.filterMap fun (_, x) => x.group.map fun _ => x.gid.toNat
  BitVec.ofNat 16 (lowestFree used 0 (used.length + 1))

/-- Cores of each stage at a bind (R202): the minima, then the rest in order up to each maximum. -/
def stageCounts (stages : List Stage) (rest : Nat) : List Nat :=
  match stages with
  | [] => []
  | s :: r =>
    let k := min rest (s.max - s.min)
    (s.min + k) :: stageCounts r (rest - k)

/-- The stage of each logical core at a bind. -/
def stagesAt (t : Timetable) : List Nat :=
  let rest := t.width * t.height - (t.stages.foldl (fun n s => n + s.min) 0)
  ((stageCounts t.stages rest).zipIdx).flatMap fun (n, k) => List.replicate n k

/-- A core is bound (R182, R202): the scrub in progress stops (R355), and its window belongs to the jetton's world. -/
def State.bindCore (s : State) (j : Nat) (x : Jetton) (g : Group) (logical i : Nat) : State :=
  let stage := (g.at_[logical]?).getD 0
  let scope := ((s.world? x.world).map (·.scopemax)).getD 5
  s.modCore i fun c => { c with
    owner := none
    scrubEnd := none
    sys := { c.sys with
      world := BitVec.ofNat 9 x.world, scope := scope
      tcoord := BitVec.ofNat 32 (logical % g.w + logical / g.w * 2 ^ 16), gshape := BitVec.ofNat 32 (g.w + g.h * 2 ^ 16) }
    rn := Core.reset.rn
    bnd := { Core.reset.bnd with
      jetton := j, logical := logical, stage := stage, task := (g.stages[stage]?).map (·.task), firstRun := c.iss.run + 1 }
    iss := { Core.reset.iss with status := .bound, run := c.iss.run } }

/-- A READY jetton is bound in this cycle; its anchor lies 296 cycles on. -/
def State.bindNew (s : State) (j : Nat) (x : Jetton) (t : Timetable) (cores : List Nat) : State :=
  let g : Group := { token := t.token, w := t.width, h := t.height, cores := cores, stages := t.stages, at_ := stagesAt t }
  let s := s.setJetton j { x with
    state := .binding, gid := s.freeGid, group := some g, curQueue := x.nextQueue, anchorAt := s.tb + 296
    plane := ((s.handle? x.tth).map (·.active)).getD false, records := [], spill := [], evicted := false, evictReq := none, evictAt := none
    preempt := false, unended := true }
  let s := (cores.zipIdx).foldl (fun s (i, l) => s.bindCore j x g l i) s
  cores.foldl (fun s i => s.joinDomains i) (s.renewDomains j)

/-- A SEALED jetton is bound on its old placement; an evicted one after its unspill (R346). -/
def State.bindSealed (s : State) (j : Nat) (x : Jetton) (cores : List Nat) : State :=
  let s := s.setJetton j { x with state := .binding, anchorAt := s.tb + (if x.evicted then 3496 else 296), preempt := false, evictReq := none, evictAt := none }
  cores.foldl (fun s i => s.modCore i fun c => { c with
    owner := none, scrubEnd := none
    sys := { c.sys with world := BitVec.ofNat 9 x.world }
    bnd := { c.bnd with jetton := j }
    iss := { c.iss with status := .bound } }) s

/-! ### What a selection path finds besides (R195, R199, R360) -/

/-- The SEALED jettons of a cluster with a core out of the map (R199). -/
def State.strays (s : State) (token : Bool) : List Nat :=
  s.disp.jettons.filterMap fun (j, x) =>
    match x.group with
    | some g => if x.state == .sealed && g.token == token && g.cores.any fun i => !s.inMap i then some j else none
    | none => none

/-- The seal is discarded: READY again, with its request entry unended. -/
def State.discardSeal (s : State) (j : Nat) : State :=
  let s := if (s.jetton j).link == 0 then s.breakDomains j else s
  (s.dropCores j s.tb).modJetton j fun x => { x with
    state := .ready, gid := 0xFFFF, waitSince := s.tb + 1, group := none, records := [], spill := [], evicted := false
    evictReq := none, evictAt := none, unended := true }

/-- Candidates whose shape has no placement and that the scheduler has not been told of yet (R195). -/
def State.newUnplaceable (s : State) (token : Bool) : List Nat :=
  ((s.allCandidates token).filter fun (j, x, t) => x.state == .ready && s.unplaceable t && !s.disp.signalled.contains j).map (·.1)

/-- A scan that a candidate of priority `e` may abort (R360). -/
def State.abortable (s : State) (e i : Nat) : Bool :=
  let x := s.scan i
  (x.state == 2 || x.state == 3) && x.apen && x.aprio.toNat ≤ e

/-- The cores whose scans abort in this cycle, with the candidate (R360). -/
def State.scanAborts (s : State) (token : Bool) : Option (Nat × List Nat) :=
  match s.ranked token with
  | (j, x, t) :: _ =>
    let e := x.eprio s.tb
    if (s.placement j x t fun _ => false).isSome then none
    else
      match s.placement j x t (s.abortable e) with
      | some cs => some (j, cs.filter (s.abortable e))
      | none => none
  | [] => none

/-- The abort condition holds for a core in this cycle; its row of Table 16.3 acts at the cycle's end. -/
def State.abortScan (s : State) (i : Nat) : State :=
  s.modDisp fun d => { d with scans := setKey d.scans i { s.scan i with abort := true } }

/-- The signal of R195 stands for a jetton only while its candidate has no placement in the map. -/
def State.dropSignals (s : State) : State :=
  if s.disp.signalled.isEmpty then s
  else
    let stays (j : Nat) : Bool := [false, true].any fun token => (s.allCandidates token).any fun (k, x, t) =>
      k == j && x.state == .ready && s.unplaceable t
    s.modDisp fun d => { d with signalled := d.signalled.filter stays }

/-- Something for the path to do in this cycle. -/
def State.selectionDue (s : State) (token : Bool) : Bool :=
  !(s.strays token).isEmpty || !(s.newUnplaceable token).isEmpty
    || (s.pathIdle token && ((s.chosen token).isSome || (s.scanAborts token).isSome))

/-- SELECTION (R191 to R199, R360). What a cycle finds, it finds in the state as the previous cycle left it. -/
def execSelection (token : Bool) (s : State) : Result :=
  let t := (s.newUnplaceable token).foldl (fun (t : State) j =>
    (t.modDisp fun d => { d with signalled := d.signalled ++ [j] }).say (.signal j)) s
  let t := (s.strays token).foldl (fun (t : State) j => t.discardSeal j) t
  .next (if !s.pathIdle token then t
    else
      let t := match s.scanAborts token with
        | some (j, cs) => (cs.foldl (fun (t : State) i => t.abortScan i) t).say (.signal j)
        | none => t
      match s.chosen token with
      | some (j, x, tt, p) =>
        let t := t.modSelector token fun v => { v with last := some t.tb }
        let t := t.modDisp fun d => { d with signalled := d.signalled.filter (· != j) }
        if x.state == .sealed then t.bindSealed j x p else t.bindNew j x tt p
      | none => t)

/-! ### Loading and arming (Table 8.6) -/

/-- The mailbox of a request (R186). -/
def Jetton.entryVa (x : Jetton) : Nat :=
  let q := x.qs[x.curQueue.toNat]'x.curQueue.isLt
  q.qbase.toNat / 4096 * 4096 + 128 * (q.ridx.toNat % 2 ^ min q.qlog.toNat 12)

/-- A bind that cannot read what it needs ends the request: CAPPERM for an XLATE or a refusal, UCDATA otherwise; an XLATE
is also reported (R186). -/
def State.bindStop (s : State) (j : Nat) (x : Jetton) (e : IoStop) : State :=
  let s := match e with
    | .xlate va => s.reportXlate x.world (BitVec.ofNat 64 va) (.bind j)
    | _ => s
  let c := e.cause.1
  s.endRequest j s.tb c.code (dispatchFault c 0 e.line)

/-- The loading phase of a first bind ends: mailbox, images, footprint checks, start cycles. -/
def State.armNew (s : State) (j : Nat) (x : Jetton) (g : Group) : State :=
  ioThen (s.ioRead x.world x.entryVa 128) (fun p => p.2.bindStop j x p.1) fun bs s =>
    let mb : Vector W64 16 := Vector.ofFn fun k => BitVec.ofNat 64 (leNat ((bs.drop (8 * k.val)).take 8))
    let s := g.cores.foldl (fun (s : State) i =>
      let s := s.modCore i fun c => { c with ctl := { c.ctl with mb := mb } }
      match (s.getCore i).bnd.task with
      | some t => s.loadCode i t true
      | none => s) s
    match g.cores.findSome? fun i => s.footCheck i with
    | some t => t
    | none => s.schedule (g.cores.map fun i => (i, 0)) x.anchorAt

/-- A core of a resumed group takes its record: the core with its registers, and the kind of its start; `none` for a core
that stays retired. -/
def State.armCore (s : State) (x : Jetton) (g : Group) (i : Nat) : Except (IoStop × State) (State × Option Nat) :=
  let c := s.getCore i
  ioThen (s.ioRead x.world (sealVa x c.bnd.logical) 256) .error fun hd s =>
    let w := recNat hd 0 8
    if natBits w 8 1 == 1 then
      .ok (s.modCore i fun c => { c with iss := { c.iss with status := .retired, drain := none } }, none)
    else if natBits w 10 1 == 1 then
      let stage := natBits w 5 3
      .ok (s.modCore i fun c => { c with
        sys := { c.sys with rply := natBits w 15 2 }
        bnd := { c.bnd with stage := stage, task := (g.stages[stage]?).map (·.task) } }, some c.drained.kind)
    else
      ioThen (s.ioRead x.world (sealVa x c.bnd.logical) 0x2600) .error fun rec s =>
        .ok (s.modCore i fun c => c.restore rec, some 4)

/-- The cores of a resumed group, in logical order, with the starts they need. -/
def State.armCores (s : State) (x : Jetton) (g : Group) (cores : List Nat) (starts : List (Nat × Nat)) :
    Except (IoStop × State) (State × List (Nat × Nat)) :=
  match cores with
  | [] => .ok (s, starts)
  | i :: r =>
    okThen (s.armCore x g i) .error fun p => p.1.armCores x g r (starts ++ (p.2.map fun k => (i, k)).toList)

/-- The end of the loading phase of the bind of a jetton. -/
def State.arm (s : State) (j : Nat) : State :=
  let x := s.jetton j
  match x.group with
  | none => s
  | some g =>
    if x.records.isEmpty then s.armNew j x g
    else
      okThen (s.armCores x g g.cores []) (fun p => p.2.bindStop j x p.1) fun p => p.1.schedule p.2 x.anchorAt

/-- The parts of a window that an image holds, as offset and length (R346, Table 1.8). -/
def imageParts (shared : BitVec 4) : List (Nat × Nat) :=
  [(0, 0x72000)] ++ ((List.range 4).filterMap fun q => if shared.getLsbD q then none else some (0x80000 + 0x10000 * q, 0x10000))
    ++ [(0xC0000, 0x8000)]

/-- The place of a core's window image in its world (R346). -/
def imageVa (x : Jetton) (logical : Nat) : Nat := x.sealptr.toNat / 64 * 64 + sealStride * logical

/-- Parts of a window written back, part by part. -/
def State.unspillParts (s : State) (world va i : Nat) (parts : List (Nat × Nat)) : Except (IoStop × State) State :=
  match parts with
  | [] => .ok s
  | (o, n) :: r =>
    ioThen (s.ioRead world (va + o) n) .error fun bs s =>
      let bs := if o == 0xC0000 then (bs.zipIdx).map fun (b, k) => if 6 ≤ k % 8 then 0 else b else bs
      (s.modMem fun m => m.write (coreBase i + o) bs).unspillParts world va i r

/-- The resident state of a core as the eviction saved it, with its marks. -/
def State.unspillMarks (s : State) (sp : Spill) : State :=
  let b := coreBase sp.core
  let outside (a : Nat) : Bool := a < b || b + windowSize ≤ a
  let s := s.modMem fun m => { m with
    captags := sp.captags.foldl insAddr (m.captags.filter outside)
    seqtags := sp.seqtags.foldl (fun l (k, v) => setKey l k v) (m.seqtags.filter fun (k, _) => outside k)
    poison := sp.poison.foldl insAddr (m.poison.filter outside) }
  s.modCore sp.core fun c => { sp.regs with
    ctl := { sp.regs.ctl with k := sp.regs.ctl.k ||| 1 }
    vec := { sp.regs.vec with m := sp.regs.vec.m.set 0 (BitVec.allOnes 64) }
    iss := { sp.regs.iss with status := .bound, run := max c.iss.run sp.regs.iss.run }, shared := c.shared }

/-- One core of an unspill: its window image, then its other resident state. -/
def State.unspillOne (s : State) (world va : Nat) (sp : Spill) (parts : List (Nat × Nat)) : Except (IoStop × State) State :=
  okThen (s.unspillParts world va sp.core parts) .error fun s => .ok (s.unspillMarks sp)

def State.unspillAll (s : State) (x : Jetton) (l : List Spill) : Except (IoStop × State) State :=
  match l with
  | [] => .ok s
  | sp :: r =>
    okThen (s.unspillOne x.world (imageVa x sp.regs.bnd.logical) sp (imageParts (s.getCore sp.core).shared)) .error
      fun s => s.unspillAll x r

/-- An unspill (R346): images back from memory, then the other resident state. -/
def State.unspill (s : State) (j : Nat) : State :=
  let x := s.jetton j
  okThen (s.unspillAll x x.spill) (fun p => p.2.bindStop j x p.1) fun s => s.modJetton j fun x => { x with evicted := false, spill := [] }

/-- The binds that this cycle unspills or arms, in ascending jetton index. -/
def State.armAll (s : State) : State :=
  s.disp.jettons.foldl (fun (s : State) (j, _) =>
    let x := s.jetton j
    if x.state != .binding then s
    else if x.evicted && x.anchorAt == s.tb + 296 then s.unspill j
    else if x.anchorAt == s.tb + 16 then s.arm j
    else s) s

/-- The anchor cycle of a bind ends: the jetton runs (Table 8.5). -/
def State.anchorAll (s : State) : State :=
  if s.disp.jettons.any fun (_, x) => x.state == .binding && x.anchorAt == s.tb then
    s.modDisp fun d => { d with jettons := d.jettons.map fun (j, x) =>
      if x.state == .binding && x.anchorAt == s.tb then (j, { x with state := .running, records := [] }) else (j, x) }
  else s

/-! ### OVERRUN (R18, R323) -/

/-- The CYCMAX count of core `i` has reached its bound, and no fault waits for the seal. -/
def State.overrunDue (s : State) (i : Nat) : Bool :=
  let c := s.getCore i
  c.fw.isNone && c.iss.status.live && !c.sys.dbg && c.sys.cycmax != 0
    && c.iss.runStart + c.iss.debugCyc + c.sys.cycmax.toNat ≤ s.tb && !(c.iss.drain.any fun d => d.fpend.isSome)

/-- OVERRUN: charged to the waiting word, else to the next word to issue. -/
def execOverrun (core : Nat) (s : State) : Result :=
  let x := (s.getCore core).iss
  .next (if s.overrunDue core then
      let d := if x.wait == .none then 0 else s.tb - x.waitAt
      ((s.focus core).raise ⟨.overrun, BitVec.ofNat 12 x.pc, 0, finfo 0 0 false 0 d⟩).focus s.cur
    else s)

/-! ### Completion records (R187, R401) -/

/-- Copies and collectives of the requests of a jetton that ended by cycle `e` and are not over. -/
def State.requestBusy (s : State) (j e : Nat) : Bool :=
  (s.eng.copies.any fun c => c.jetton == j && (match c.asker with | .core _ => true | _ => false) && c.issue ≤ e && c.pending)
    || s.eng.colls.any fun c => c.jetton == j && c.issue ≤ e && c.pending

/-- Mark, in the settling of a cycle, the ended requests of which nothing remains; `e` is the cycle just over. -/
def State.noteClear (s : State) (e : Nat) : State :=
  let note (j : Nat) (r : Ended) : Ended :=
    if r.clear.isNone && !s.requestBusy j r.tend then { r with clear := some e } else r
  s.modDisp fun d => { d with jettons := d.jettons.map fun (j, x) =>
    if x.ended.isEmpty then (j, x) else (j, { x with ended := x.ended.map (note j) }) }

/-- A write of a record of queue `q` of jetton `j` met XLATE and waits for its service. -/
def State.recordHeld (s : State) (j : Nat) (q : BitVec 2) : Bool := s.disp.xlates.any fun x => x.who == .record j q

/-- The record of jetton `j` that is written next for the cycle just over, `e`: the first that nothing of its request holds
back, and no earlier record of its queue (R187). -/
def State.recordNext (s : State) (j : Nat) (e : Nat) : Option Ended :=
  let rs := (s.jetton j).ended
  (rs.zipIdx).findSome? fun (r, k) =>
    let first := !((rs.take k).any fun x => x.queue == r.queue)
    let due := match r.clear with
      | some c => c == r.tend || c < e
      | none => false
    if first && due && !s.recordHeld j r.queue then some r else none

/-- Table 19.9. -/
def Ended.bytes (r : Ended) : List Byte :=
  padTo 32 (leBytes r.seq.toNat 4 ++ [r.status, r.det] ++ leBytes r.code.toNat 2 ++ leBytes r.value.toNat 8 ++ leBytes r.tend 8
    ++ leBytes r.fpc.toNat 2)

/-- H of a queue's semaphore (R399). -/
def semH (addr : Nat) : Nat := if inSram addr then 120 else 230

/-- A record is written in cycle `e`, or lost: CIDX, and the LAUNCH increments that follow it. -/
def State.finishRecord (s : State) (j e : Nat) (r : Ended) : State :=
  let x := s.jetton j
  let q := x.qs[r.queue.toNat]'r.queue.isLt
  let s := s.setJetton j { x with
    ended := x.ended.erase r, qs := x.qs.set r.queue.toNat { q with cidx := q.cidx + 1 } r.queue.isLt }
  r.sem.foldl (fun (s : State) (a, _) =>
    if a == 0 then s else s.at_ (e + 1 + semH a) (.launchSemaphoreIncrement a x.world)) s

/-- Where the next record of a queue goes (R401). -/
def WorkQueue.recordVa (q : WorkQueue) : Nat := q.crec.toNat + 32 * (q.cidx.toNat % 2 ^ min q.qlog.toNat 12)

/-- A record goes to its place; one that no service can place is lost, and its queue goes on. -/
def State.writeRecord (s : State) (j e : Nat) (r : Ended) : State :=
  let x := s.jetton j
  match s.ioWrite x.world none (x.qs[r.queue.toNat]'r.queue.isLt).recordVa r.bytes with
  | .ok t => t.finishRecord j e r
  | .error (.xlate a, t) => t.reportXlate x.world (BitVec.ofNat 64 a) (.record j r.queue)
  | .error (_, t) => t.finishRecord j e r

/-- COMPLETION_RECORD_WRITE, for the cycle just over. -/
def execCompletionRecordWrite (jetton : Nat) (s : State) : Result :=
  .next (match s.recordNext jetton (s.tb - 1) with
    | some r => s.writeRecord jetton (s.tb - 1) r
    | none => s)

end Sys2Proof.Machine
end

