-- ==== Sys2Proof/Machine/Drain.lean ====
section
/-!
DEFINITION. Pre-emption: drain points and stubs, seals and their records (R333 to R343, R351), eviction (R346, R361), the
release of frozen jettons (R330), the debug port (R347 to R350) and the scrub of freed cores (R353, R355).
-/
namespace Sys2Proof.Machine

open Sys2Proof

/-! ### Draining (R333 to R338) -/

/-- What a drain takes out of the time buffers (R338): the copies queued or parked at D, and later ones as they enter. -/
def State.saveCopies (s : State) (i d : Nat) : State :=
  let j := (s.getCore i).bnd.jetton
  let save (c : Copy) : Copy :=
    if c.asker == .core i && c.jetton == j && !c.saved && (c.state == .queued || c.state == .parked) then
      { c with saved := true, time := c.time - d, place := c.time } else c
  let keep (c : Coll) : Coll :=
    if c.core == i && c.jetton == j && !c.saved && c.inBuffer then { c with saved := true, time := c.time - d, place := c.time } else c
  s.modEng fun e => { e with copies := e.copies.map save, colls := e.colls.map keep }

/-- The breakpoint that the next control word would take: its BKSRC (R341). -/
def State.breakpointAt (s : State) (i : Nat) : Option Nat :=
  let c := s.getCore i
  let pc := BitVec.ofNat 12 c.iss.pc
  if !c.iss.pass && c.sys.bpaddr.toList.any fun b => b.getLsbD 12 && b.extractLsb' 0 12 == pc then some 1
  else
    match decode (s.mem.codeWord i c.iss.pc) with
    | .ok (.bkpt _) => some 0
    | _ => none

/-- Fetch diverts in this cycle: D, the resume word and the stub, if an entry of the drain table holds the word. -/
def State.divert (s : State) (i : Nat) : State :=
  let stub := s.stubFor i (s.getCore i).iss.pc
  let bk := s.breakpointAt i
  let s := s.modCore i fun c =>
    let d := c.drained
    { c with
      sys := { c.sys with bkpend := c.sys.bkpend || bk.isSome, bksrc := if c.sys.bkpend then c.sys.bksrc else BitVec.ofNat 2 (bk.getD 0) }
      iss := { c.iss with
        pc := stub.getD c.iss.pc, next := s.tb, wait := .none
        drain := some { d with d := some s.tb, resume := c.iss.pc, stub := stub.isSome } } }
  s.saveCopies i s.tb

/-- The home operation of an abandoned wait is dropped, with what a consume took given back. -/
def State.abandonHome (s : State) (id : Nat) : State :=
  match s.eng.homes.find? (·.id == id) with
  | some op =>
    let s := match op.what, op.acted, op.fault, op.home with
      | .swait x _ true, true, none, .acc k w =>
        s.modMem fun m => m.setWord (accBase k + 4 * w) (m.word (accBase k + 4 * w) + x)
      | .swait x _ true, true, none, .host a _ => s.modMem fun m => m.setWord a (m.word a + x)
      | _, _, _, _ => s
    s.dropHome id
  | none => s

/-- The fault that a discarded home operation of core `i`'s waiting word has set up (R239) does not come, nor is its XLATE
awaited. -/
def State.abandonLate (s : State) (i : Nat) : State :=
  let c := s.getCore i
  let mine (l : Later) : Bool := l.f.fpc == BitVec.ofNat 12 c.iss.pc && infoSrc l.f.info == 7 && infoDet l.f.info == 4
  let vas := (c.iss.later.filter mine).map (·.f.addr)
  let s := s.modCore i fun c => { c with iss := { c.iss with later := c.iss.later.filter fun l => !mine l } }
  s.modDisp fun d => { d with xlates := d.xlates.filter fun x => !(x.who == .task i && vas.contains x.va) }

/-- The arrival of an abandoned PBAR: the core's number is as before, and the unit has not heard of it. -/
def State.abandonArrival (s : State) (i : Nat) (lvl : BitVec 3) (p : BitVec 32) : State :=
  let dom := s.domainOf i lvl.toNat
  let s := s.modCore i fun c => { c with bnd := { c.bnd with
    alpha := c.bnd.alpha.setIfInBounds lvl.toNat (((c.bnd.alpha.toList[lvl.toNat]?).getD 0) - 1) } }
  let s := { s with agenda := s.agenda.filter fun e => e.2 != Instr.phaseArrival dom i p }
  s.modDomain dom fun d => { d with arrivals := d.arrivals.filter (· != (i, p)) }

/-- The request of an abandoned XSEQ, XCAN or XWAIT does not reach the engine, unless it already has (notes/assumptions/55.md). -/
def State.abandonFabric (s : State) (i : Nat) : State :=
  let run := (s.getCore i).iss.run
  let asks (k : CollKind) : Bool := k == .seq || k == .cancel || k == .wait
  s.modEng fun e => { e with colls := e.colls.filter fun c => !(c.core == i && c.run == run && c.queued && asks c.kind) }

/-- An abandoned wait has no effect (R210, R335): what its word asked for is taken back. -/
def State.abandonWait (s : State) (i : Nat) : State :=
  let c := s.getCore i
  match c.iss.wait with
  | .home id => if id == 0 then s.abandonLate i else s.abandonHome id
  | .phase lvl p =>
    match decode (s.mem.codeWord i c.iss.pc) with
    | .ok (.pbar _) => s.abandonArrival i lvl p
    | _ => s
  | .fabric _ _ _ _ => s.abandonFabric i
  | _ => s

/-- The control column of a draining core stands at a drain point in this cycle (R333, R341), or it waits there in the cycle
in which the request reaches it (R335). -/
def State.divertDue (s : State) (i : Nat) : Bool :=
  let c := s.getCore i
  c.iss.status == .draining && !c.sys.dbg && (match c.iss.drain with
    | some d => d.d.isNone && (if c.iss.wait == .none then
        c.iss.next ≤ s.tb && ((s.stubFor i c.iss.pc).isSome || (s.breakpointAt i).isSome)
      else d.q == s.tb && (s.stubFor i c.iss.pc).isSome)
    | none => false)

/-- DRAIN_DIVERT. -/
def execDrainDivert (core : Nat) (s : State) : Result :=
  .next (if s.divertDue core then (s.abandonWait core).divert core else s)

/-- Leave debug state (R350). -/
def Core.leaveDebug (c : Core) : Core :=
  { c with
    sys := { c.sys with dbg := false }
    iss := { c.iss with
      debugCyc := c.iss.debugCyc + c.iss.frozenX, frozenX := 0, steps := 0, leaving := false } }

/-- The kind of the start that a core awaits: that of its scheduled start, a replay when none is fixed yet (R328). -/
def State.awaitedKind (s : State) (i : Nat) : Nat :=
  match s.disp.starts.find? fun x => x.core == i && s.tb ≤ x.cycle with
  | some x => x.kind
  | none =>
    match s.disp.wishes.findSome? fun w => (w.cores.find? (·.1 == i)).map (·.2) with
    | some k => k
    | none => 3

/-- The request reaches core `i` of its group in this cycle (R333, R335). In debug state it acts as CONT, and the drain begins
with the next cycle (R351). -/
def State.preemptCore (s : State) (i : Nat) : State :=
  let c := s.getCore i
  let q : Drain := ⟨s.tb, none, c.iss.pc, false, false, false, 0, false, c.sys.dbg, none⟩
  match c.iss.status with
  | .retired => s.modCore i fun c => { c with iss := { c.iss with drain := some { q with d := some s.tb, retired := true } } }
  | .between | .bound =>
    let k := s.awaitedKind i
    (s.modDisp fun d => d.unstart i s.tb).modCore i fun c => { c with iss := { c.iss with
      status := .draining, drain := some { q with d := some s.tb, restart := true, kind := k } } }
  | .running =>
    if c.sys.dbg then
      s.modCore i fun c => { c with
        sys := { c.sys with bkpend := true, bksrc := 1 }
        iss := { c.iss with status := .draining, drain := some { q with q := s.tb + 1 }, leaving := true, steps := 0 } }
    else
      let s := s.modCore i fun c => { c with iss := { c.iss with status := .draining, drain := some q } }
      if c.iss.wait != .none && (s.stubFor i c.iss.pc).isSome then (s.abandonWait i).divert i else s
  | _ => s

/-- PREEMPTION_REQUEST (Table 8.5): it reaches every core of the group in one cycle. A bind in progress completes first. -/
def execPreemptionRequest (jetton : Nat) (s : State) : Result :=
  let x := s.jetton jetton
  match x.state with
  | .running =>
    let s := (s.heldCores jetton).foldl (fun s i => s.preemptCore i) s
    .next (s.modJetton jetton fun x => { x with state := .sealing, preempt := false, records := [] })
  | .binding => .next (s.modJetton jetton fun x => { x with preempt := true })
  | _ => .next s

/-- The held pre-emption of a jetton whose anchor has passed (R190). -/
def State.preemptDue (s : State) : Option Nat :=
  (s.disp.jettons.find? fun (_, x) => x.preempt && x.state == .running).map (·.1)

/-! ### The seal (R339 to R343) -/

/-- A column has come to rest: no word in progress, every result visible in cycle `e`. -/
def Column.atRest (c : Column) (e : Nat) : Bool :=
  c.ends.all (· ≤ e) && (match c.run with
    | some r => r.cur.isNone && r.cyc == 0 && r.visible ≤ e
    | none => true)

/-- Core `i` seals in cycle `e`, the one just over (R339, R341, R343). -/
def State.sealDue (s : State) (i e : Nat) : Bool :=
  let c := s.getCore i
  let x := c.iss
  (x.status == .draining || x.status == .retired) && x.fault.isNone && (match x.drain with
    | some d => d.retired || d.restart || (d.d.isSome && (!d.stub || d.stubDone) && x.wait == .none && x.vec.atRest e && x.mat.atRest e
        && x.tab.atRest e && x.pend.isEmpty && x.bankPend.isEmpty && x.accPend.isEmpty && x.stores.isEmpty
        && !(s.eng.homes.any fun h => h.asker == .core i && h.run == x.run && (h.dst.isSome || h.acted)))
    | none => false)

/-- The slots that the beats of a record find, from cycle `c` on (R343): the cycle in which the last one lands. -/
def State.recordBeats (s : State) (world cls va n c last : Nat) : Nat × State :=
  match n with
  | 0 => (last, s)
  | n + 1 =>
    match s.resolve world none va 256 true false 2 with
    | .error _ => s.recordBeats world cls (va + 256) n (c + 1) (max last c)
    | .ok rs =>
      let (_, t, s) := s.takeSlot world cls rs (max c (last + 1))
      s.recordBeats world cls (va + 256) n (c + 1) t

/-- SEAL, for the cycle just over: the core is sealed, its record starts out, and the jetton is SEALED once the last core of
the group is. -/
def execSealCore (core : Nat) (s : State) : Result :=
  let e := s.tb - 1
  .next (if !s.sealDue core e then s
    else
      let c := s.getCore core
      let j := c.bnd.jetton
      let x := s.jetton j
      let d := c.drained
      let s := s.saveCopies core d.point
      let s := s.modCore core fun c => { c with
        iss := { c.iss with status := .sealed, turn := none, later := [], wait := .none } }
      let n := if d.retired || d.restart then 1 else 38
      let (t, s) := s.recordBeats x.world x.bwc.toNat (sealVa x c.bnd.logical) n (e + 211) (e + 210)
      let s := s.at_ (max t s.tb) (.sealRecordComplete core)
      if (s.heldCores j).all fun i => (s.getCore i).iss.status == .sealed then
        s.modJetton j fun x => { x with state := .sealed, waitSince := s.tb }
      else s)

/-- A record is lost, or a write of an image is: the request ends (R343). -/
def State.sealLost (s : State) (j : Nat) (e : IoStop) : State :=
  let c := match e with
    | .damaged _ => Cause.ucdata
    | _ => .capperm
  s.endRequest j s.tb c.code (dispatchFault c 0 e.line)

/-- SEAL_RECORD_COMPLETE: the last beat of a core's record lands; a beat that meets XLATE parks. -/
def execSealRecordComplete (core : Nat) (s : State) : Result :=
  let c := s.getCore core
  let j := c.bnd.jetton
  let x := s.jetton j
  if c.iss.status != .sealed || x.records.contains core || !(x.state == .sealing || x.state == .sealed) then .next s
  else
    match s.ioWrite x.world none (sealVa x c.bnd.logical) (s.sealRecord core) with
    | .ok s => .next (s.modJetton j fun x => { x with records := x.records ++ [core] })
    | .error (.xlate va, s) => .next (s.reportXlate x.world (BitVec.ofNat 64 va) (.sealOf core))
    | .error (e, s) => .next (s.sealLost j e)

/-! ### Eviction (R346, R361) -/

/-- EVICTION_REQUEST: taken for a SEALED jetton that is not evicted. -/
def execEvictionRequest (jetton : Nat) (s : State) : Result :=
  let x := s.jetton jetton
  .next (if x.state == .sealed && !x.evicted && x.evictReq.isNone then
      s.modJetton jetton fun x => { x with evictReq := some s.tb } else s)

/-- Nothing holds an eviction back any more: the records are complete and every issued copy has landed; a follow-on that
still runs holds nothing back (R287). -/
def State.evictReady (s : State) (x : Jetton) : Bool :=
  match x.group with
  | some g => g.cores.all fun i => x.records.contains i && !((s.copiesOf i).any fun c => !c.saved && c.pending && c.state != .landed)
  | none => false

/-- In the settling of a cycle: the evictions that are ready at the end of cycle `e` complete 3,200 cycles on (R361). -/
def State.noteEvictions (s : State) (e : Nat) : State :=
  s.disp.jettons.foldl (fun (s : State) (j, x) =>
    match x.evictReq, x.evictAt with
    | some r, none =>
      if x.state == .sealed && s.evictReady x then
        let t := max r e + 3200
        (s.modJetton j fun x => { x with evictAt := some t }).at_ t (.evictionComplete j)
      else s
    | _, _ => s) s

/-- The image of a window and the dispatcher's own bytes (R346), written part by part. -/
def State.spillParts (s : State) (world va i : Nat) (parts : List (Nat × Nat)) : Except (IoStop × State) State :=
  match parts with
  | [] => s.ioWrite world none (va + 0x102600) ((List.range (0x110000 - 0x102600)).map (Config.residentByte s.free))
  | (o, n) :: r =>
    okThen (s.ioWrite world none (va + o) (s.mem.read (coreBase i + o) n)) .error fun s => s.spillParts world va i r

/-- What of a core the eviction keeps beside its image. -/
def State.spillOf (s : State) (i : Nat) : Spill :=
  let b := coreBase i
  let inside (a : Nat) : Bool := b ≤ a && a < b + windowSize
  { core := i, regs := s.getCore i, captags := s.mem.captags.filter inside
    seqtags := s.mem.seqtags.filter fun (k, _) => inside k, poison := s.mem.poison.filter inside }

/-- A core whose image is written: its state kept, and freed. -/
def State.evictOut (s : State) (j i : Nat) : State :=
  let sp := s.spillOf i
  let s := { s with free := s.free + 1 }
  let s := s.modJetton j fun x => { x with spill := x.spill ++ [sp] }
  (s.modCore i fun c => { c with iss := { c.iss with status := .free }, owner := some noWorld, scrubEnd := none }).at_
    (s.tb + 1) (.coreScrubStart i)

/-- One core of an eviction: image written, state kept, core freed for no world until its scrub has ended (R355). -/
def State.evictCore (s : State) (j i : Nat) : Except (IoStop × State) State :=
  let x := s.jetton j
  let c := s.getCore i
  okThen (s.spillParts x.world (imageVa x c.bnd.logical) i (imageParts c.shared)) .error fun s => .ok (s.evictOut j i)

def State.evictCores (s : State) (j : Nat) (cores : List Nat) : Except (IoStop × State) State :=
  match cores with
  | [] => .ok s
  | i :: r =>
    okThen (s.evictCore j i) .error fun t => t.evictCores j r

/-- EVICTION_COMPLETE. -/
def execEvictionComplete (jetton : Nat) (s : State) : Result :=
  let x := s.jetton jetton
  .next (if x.state == .sealed && x.evictAt == some s.tb then
      okThen (s.evictCores jetton (s.heldCores jetton)) (fun p => p.2.sealLost jetton p.1)
        fun t => t.modJetton jetton fun x => { x with evicted := true, evictReq := none, evictAt := none }
    else s)

/-! ### Release of a frozen jetton (R330, Table 8.5) -/

/-- JETTON_RELEASE: the cores return to the pool. -/
def execJettonRelease (jetton : Nat) (s : State) : Result :=
  let x := s.jetton jetton
  .next (if x.state == .frozen then
      let s := (s.heldCores jetton).foldl (fun (s : State) i =>
        ((s.cancelQueued i).freeCore i s.tb).modDisp (·.leave jetton i)) s
      let s := s.modEng fun e => { e with copies := e.copies.filter fun c => c.jetton != jetton || c.state != .faulted }
      s.modJetton jetton fun x => x.rest s.tb false
    else s)

/-! ### Scrub of a freed core (R353, R355) -/

/-- Cycles of a core's scrub (Table 15.11). -/
def scrubTime (shared : BitVec 4) : Nat :=
  3840 + 512 * ((List.range 4).filter fun q => !shared.getLsbD q).length

/-- Clear the bytes [a, a + n) with valid codes: zero, no poison, sequence and capability tags 0. -/
def Mem.scrub (m : Mem) (a n : Nat) : Mem :=
  let out (k : Nat) : Bool := k < a || a + n ≤ k
  { m with
    bytes := m.bytes.filter fun (k, _) => out k
    captags := m.captags.filter out, poison := m.poison.filter out, ue := m.ue.filter out
    seqtags := m.seqtags.filter fun (k, _) => out k }

/-- What cycle `k` of a scrub clears: 128 bytes of its step, in the order of R353. -/
def State.scrubPart (s : State) (i k : Nat) : State :=
  let b := coreBase i
  if k < 3072 then
    let s := s.modMem fun m => m.scrub (b + 128 * k) 128
    if k % 32 == 0 then s.modCore i fun c => { c with sys := { c.sys with bfmt := c.sys.bfmt.setIfInBounds (k / 32) 0 } } else s
  else if k < 3264 then
    let u := k - 3072
    let lo := u * 64 / 3
    let s := s.modMem (·.scrub (codeBase i + 8 * lo) (8 * ((u + 1) * 64 / 3 - lo)))
    s.modCore i fun c => { c with bnd := { c.bnd with segs := c.bnd.segs.setIfInBounds (lo / 256) ⟨false, 0⟩ } }
  else if k < 3328 then s.modMem (·.scrub (tableBase i + 128 * (k - 3264)) 128)
  else if k < 3840 then s.modMem (·.scrub (accBase i + 128 * (k - 3328)) 128)
  else
    let priv := (List.range 4).filter fun q => !(s.getCore i).shared.getLsbD q
    match priv[(k - 3840) / 512]? with
    | some q => s.modMem (·.scrub (b + 0x80000 + 0x10000 * q + 128 * ((k - 3840) % 512)) 128)
    | none => s

/-- Scrubs in progress clear their part of this cycle. -/
def State.scrubAll (s : State) : State :=
  s.live.foldl (fun (s : State) i =>
    let c := s.getCore i
    match c.scrubEnd with
    | some e => if s.tb ≤ e then s.scrubPart i (scrubTime c.shared - 1 - (e - s.tb)) else s
    | none => s) s

/-- Steps 1 to 5 of R353 at once. -/
def State.scrubCore (s : State) (i : Nat) : State :=
  let q (k : Nat) : Bool := !(s.getCore i).shared.getLsbD k
  let s := s.modMem fun m => ((List.range 4).filter q).foldl (fun (m : Mem) k => m.scrub (coreBase i + 0x80000 + 0x10000 * k) 0x10000)
    ((m.scrub (coreBase i) 0x72000).scrub (codeBase i) 0x8000)
  s.modCore i fun c => { c with
    sys := { c.sys with bfmt := Vector.replicate 96 0 }, bnd := { c.bnd with segs := Vector.replicate 16 ⟨false, 0⟩ } }

/-- CORE_SCRUB_START: the scrub of a core still free begins in this cycle. -/
def execCoreScrubStart (core : Nat) (s : State) : Result :=
  let c := s.getCore core
  .next (if c.iss.status == .free && c.owner.isSome && c.scrubEnd.isNone then
      let e := s.tb + scrubTime c.shared - 1
      (s.modCore core fun c => { c with scrubEnd := some e }).at_ e (.coreScrubEnd core)
    else s)

/-- CORE_SCRUB_END: the core belongs to no world. -/
def execCoreScrubEnd (core : Nat) (s : State) : Result :=
  let c := s.getCore core
  .next (if c.iss.status == .free && c.scrubEnd == some s.tb then
      s.modCore core fun c => { c with owner := none, scrubEnd := none }
    else s)

/-! ### The debug port (R347 to R350) -/

/-- HALT: debug state in the next cycle; refused unless DBGEN = 1 and a task runs, draining or not. -/
def execHalt (core : Nat) (s : State) : Result :=
  let c := s.getCore core
  .next (if c.iss.status.live && c.fw.isNone && !c.sys.dbg && s.debugOn c.sys.world.toNat then
      s.modCore core fun c => { c with iss := { c.iss with halting := true } }
    else s.say (.refused core))

/-- A HALT of the cycle before takes effect. -/
def State.enterHalts (s : State) : State :=
  s.live.foldl (fun (s : State) i =>
    let c := s.getCore i
    if c.iss.halting then
      s.modCore i fun c => { c with
        sys := { c.sys with dbg := true, fcause := 0x12, fpc := BitVec.ofNat 12 c.iss.pc, faddr := 0, finfo := 0 }
        iss := { c.iss with halting := false, frozenX := 0, steps := 0 } }
    else s) s

/-- STEP n: the next n cycles, this one first, advance the task. -/
def execStep (core : Nat) (n : BitVec 16) (s : State) : Result :=
  .next (if (s.getCore core).sys.dbg && n != 0 then
      s.modCore core fun c => { c with iss := { c.iss with steps := n.toNat } }
    else s.say (.refused core))

/-- CONT: debug state ends with this cycle. -/
def execCont (core : Nat) (s : State) : Result :=
  .next (if (s.getCore core).sys.dbg then s.modCore core fun c => { c with iss := { c.iss with leaving := true, steps := 0 } }
    else s.say (.refused core))

/-- The end of a cycle for the cores in debug state: a cycle without a step holds the task and its queued copies; CONT
takes effect. -/
def State.debugTick (s : State) : State :=
  s.live.foldl (fun (s : State) i =>
    let c := s.getCore i
    if !c.sys.dbg then s
    else
      let s :=
        if 0 < c.iss.steps then s.modCore i fun c => { c with iss := { c.iss with steps := c.iss.steps - 1 } }
        else s.holdCore i
      if c.iss.leaving then s.modCore i Core.leaveDebug else s) s

/-- A register by its debug name (Table 15.9). ANCHOR shows no cycles of the stay before CONT. -/
def State.readReg (s : State) (r : RegName) : BitVec 1056 :=
  let c := s.core
  match r with
  | .s n => (s.sreg n).setWidth 1056
  | .c n => let x := s.creg n; ((if x.tag then 1#1 else 0#1) ++ x.high ++ x.cur).setWidth 1056
  | .k n => if s.kreg n then 1 else 0
  | .lc n => (c.ctl.lc[n.toNat]'n.isLt).setWidth 1056
  | .mb n => (c.ctl.mb[n.toNat]'n.isLt).setWidth 1056
  | .v n => (s.vreg n).setWidth 1056
  | .m n => (s.mreg n).setWidth 1056
  | .q n => (c.vec.q[n.toNat]'n.isLt).setWidth 1056
  | .wl w n =>
    let x := if w then c.mat.wl1[n.toNat]'n.isLt else c.mat.wl0[n.toNat]'n.isLt
    x.codes ++ x.idx
  | .sv n => (c.mat.sv[n.toNat]'n.isLt).setWidth 1056
  | .rn n => (c.rn[n.toNat]'n.isLt).reg.setWidth 1056
  | .wm n =>
    let x := c.wm[n.toNat]'n.isLt
    BitVec.ofNat 1056 (x.act.toNat * 2 ^ 63 + x.level % 2 ^ 48)
  | .dq n => ((c.vec.dq[n.toNat]?).map fun d => (d.value ++ d.index).setWidth 1056).getD 0
  | .st n =>
    let v := (s.stateReg n).getD 0
    (if n == 0x05 && c.sys.dbg then v - BitVec.ofNat 64 c.iss.frozenX else v).setWidth 1056

/-- Registers that WREG refuses (Table 15.9): ANCHOR, TB, WORLD, DMEM, TCOORD, GSHAPE and the mailbox. -/
def regFixed : RegName → Bool
  | .mb _ => true
  | .st n => (n.toNat ∈ [0x05, 0x06, 0x07, 0x08, 0x09, 0x0A]) || (0x20 ≤ n.toNat && n.toNat ≤ 0x2F)
  | _ => false

def isBpaddr : RegName → Bool
  | .st n => 0x10 ≤ n.toNat && n.toNat ≤ 0x13
  | _ => false

/-- A state register written by the debug port. TSTAT's counts of the queue and the loop stack and its DBG bit are views;
LOOPST moves the end of active levels and drops levels. -/
def Core.writeState (c : Core) (n : Nat) (v : W64) : Core :=
  let y := c.sys
  if n == 0x00 then
    { c with
      sys := { y with sd := v.getLsbD 0, bkpend := v.getLsbD 8, rply := natBits v.toNat 10 2 }
      vec := { c.vec with qwr := v.extractLsb' 15 2, qrd := v.extractLsb' 17 2 } }
  else if n == 0x01 then { c with sys := { y with fcause := v.setWidth 8 } }
  else if n == 0x02 then { c with sys := { y with fpc := v.setWidth 12 } }
  else if n == 0x03 then { c with sys := { y with faddr := v } }
  else if n == 0x04 then { c with sys := { y with finfo := v &&& 0xFFFF0FFFFFFFFFFF#64 } }
  else if n == 0x0B then { c with sys := { y with vmode := v.setWidth 3 } }
  else if n == 0x0C then { c with sys := { y with scope := v.setWidth 3 } }
  else if n == 0x0D then { c with sys := { y with drainbase := v.setWidth 12 } }
  else if n == 0x0E then { c with sys := { y with cycmax := v.setWidth 32 } }
  else if h : 0x10 ≤ n ∧ n ≤ 0x13 then { c with sys := { y with bpaddr := y.bpaddr.set (n - 0x10) (v.setWidth 13) (by omega) } }
  else if n == 0x15 then
    let keep (l : LoopLevel) : Option LoopLevel :=
      if v.getLsbD (16 * l.lvl.toNat + 15) then some { l with stop := natBits v.toNat (16 * l.lvl.toNat) 12 } else none
    { c with ctl := { c.ctl with loops := c.ctl.loops.filterMap keep } }
  else if h : 0x18 ≤ n ∧ n ≤ 0x1B then { c with ctl := { c.ctl with lc := c.ctl.lc.set (n - 0x18) (v.setWidth 32) (by omega) } }
  else { c with sys := y.write n v }

/-- A register written by the debug port: reserved bits stay zero (R5), and a capability carries no tag (R246). -/
def Core.writeReg (c : Core) (r : RegName) (v : BitVec 1056) : Core :=
  match r with
  | .s n => c.apply (.s n (v.setWidth 64))
  | .c n => c.apply (.c n ⟨v.extractLsb' 0 64, v.extractLsb' 64 64, false⟩)
  | .k n => c.apply (.k n (v.getLsbD 0))
  | .lc n => { c with ctl := { c.ctl with lc := c.ctl.lc.set n.toNat (v.setWidth 32) n.isLt } }
  | .mb _ => c
  | .v n => c.apply (.v n (v.setWidth 1024) fullRow)
  | .m n => c.apply (.m n (v.setWidth 64))
  | .q n => c.apply (.q n (v.setWidth 8))
  | .wl w n => c.apply (.latch w n.toNat ⟨v.extractLsb' 0 1024, v.extractLsb' 1024 32⟩)
  | .sv n => { c with mat := { c.mat with sv := c.mat.sv.set n.toNat (v.setWidth 32) n.isLt } }
  | .rn n => { c with rn := c.rn.set n.toNat { (c.rn[n.toNat]'n.isLt) with reg := v.setWidth 64 &&& 0x3FFFFFFFFFFFFFFF#64 } n.isLt }
  | .wm n =>
    let x := c.wm[n.toNat]'n.isLt
    { c with wm := c.wm.set n.toNat { x with act := v.getLsbD 63, level := natBits v.toNat 0 48 } n.isLt }
  | .dq n =>
    let put (d : Deferred) : Deferred := { d with value := v.extractLsb' 32 32, index := v.extractLsb' 0 32 }
    { c with vec := { c.vec with dq := c.vec.dq.modify n.toNat put } }
  | .st n => c.writeState n.toNat (v.setWidth 64)

/-- RREG: any register of Table 1.2 or Table 1.5. -/
def execRreg (core : Nat) (r : RegName) (s : State) : Result :=
  .next (s.say (.debug core ((s.focus core).readReg r)))

/-- WREG: in debug state, BPADDR at any time. -/
def execWreg (core : Nat) (r : RegName) (value : BitVec 1056) (s : State) : Result :=
  .next (if !regFixed r && ((s.getCore core).sys.dbg || isBpaddr r) then s.modCore core fun c => c.writeReg r value
    else s.say (.refused core))

end Sys2Proof.Machine
end

