-- ==== Sys2Proof/Machine/Keccak.lean ====
section
/-!
DEFINITION. SHAKE256 and KMAC256, which the manual names for tags, digests and record codes (R292, R304, R308, R383, R407).
They are taken from FIPS 202 and SP 800-185 (notes/assumptions/9.md).
-/
namespace Sys2Proof.Machine

/-- `n` output bits of the shift register x⁸ + x⁶ + x⁵ + x⁴ + 1 from a state on. -/
def lfsrBits (n state : Nat) : List Bool :=
  match n with
  | 0 => []
  | k + 1 => state.testBit 0 :: lfsrBits k (if state < 128 then 2 * state else 2 * state ^^^ 0x171)

/-- The constant of each of the 24 rounds: seven register bits, at the places 2^j − 1. -/
def roundWords : List (BitVec 64) :=
  let bits := lfsrBits 168 1
  (List.range 24).map fun k => (List.range 7).foldl (fun (w : BitVec 64) j =>
    if bits.getD (7 * k + j) false then w ||| (1#64 <<< (2 ^ j - 1)) else w) 0

/-- The lanes in the order of the rotation walk, as column, row and rotation: each step goes from (x, y) to (y, 2x + 3y). -/
def laneWalk (n t x y : Nat) : List (Nat × Nat × Nat) :=
  match n with
  | 0 => []
  | k + 1 => (x, y, (t + 1) * (t + 2) / 2 % 64) :: laneWalk k (t + 1) y ((2 * x + 3 * y) % 5)

/-- For each place of the permuted state, the lane that comes there and its rotation. -/
def laneMoves : List (Nat × Nat) :=
  let walk := (0, 0, 0) :: laneWalk 24 0 1 0
  (List.range 25).map fun i =>
    match walk.find? fun (x, y, _) => y == i % 5 && (2 * x + 3 * y) % 5 == i / 5 with
    | some (x, y, r) => (x + 5 * y, r)
    | none => (0, 0)

/-- The sum of column `x` of the 25 lanes, lane x + 5y. -/
def columnSum (a : List (BitVec 64)) (x : Nat) : BitVec 64 :=
  a.zipIdx.foldl (fun p (l, i) => if i % 5 == x % 5 then p ^^^ l else p) 0

/-- One round. -/
def keccakRound (a : List (BitVec 64)) (rc : BitVec 64) : List (BitVec 64) :=
  let sums := (List.range 5).map (columnSum a)
  let mixed := a.zipIdx.map fun (l, i) => l ^^^ sums.getD ((i + 4) % 5) 0 ^^^ (sums.getD ((i + 1) % 5) 0).rotateLeft 1
  let moved := laneMoves.map fun (i, r) => (mixed.getD i 0).rotateLeft r
  let near (i k : Nat) : BitVec 64 := moved.getD (i / 5 * 5 + (i + k) % 5) 0
  moved.zipIdx.map fun (l, i) => l ^^^ (~~~near i 1 &&& near i 2) ^^^ (if i == 0 then rc else 0)

def keccakF (a : List (BitVec 64)) : List (BitVec 64) := roundWords.foldl keccakRound a

/-- A block of 136 bytes goes into the first 17 lanes, and the state is permuted. -/
def absorbBlock (a : List (BitVec 64)) (block : List Byte) : List (BitVec 64) :=
  keccakF (a.zipIdx.map fun (l, i) => l ^^^ BitVec.ofNat 64 (leNat ((block.drop (8 * i)).take 8)))

/-- The sponge of rate 136 bytes with a domain byte, giving 32 bytes. -/
def keccak512 (bs : List Byte) (domain : Byte) : List Byte :=
  let blocks := bs.length / 136 + 1
  let room := 136 * blocks - bs.length
  let tail := (List.range room).map fun k => (if k == 0 then domain else 0) ||| (if k + 1 == room then 0x80 else 0)
  let a := (List.range blocks).foldl (fun a k => absorbBlock a (((bs ++ tail).drop (136 * k)).take 136)) (List.replicate 25 0)
  (a.take 4).flatMap fun x => leBytes x.toNat 8

/-- SHAKE256 to 256 bits. -/
def shake256 (bs : List Byte) : List Byte := keccak512 bs 0x1F

/-- Bytes of a number, most significant first, at least one. -/
def beBytes (v : Nat) : List Byte :=
  if v < 256 then [BitVec.ofNat 8 v]
  else if v < 65536 then [BitVec.ofNat 8 (v / 256), BitVec.ofNat 8 v]
  else if v < 16777216 then [BitVec.ofNat 8 (v / 65536), BitVec.ofNat 8 (v / 256), BitVec.ofNat 8 v]
  else (leBytes v 4).reverse

def leftEncode (v : Nat) : List Byte := let b := beBytes v; BitVec.ofNat 8 b.length :: b
def rightEncode (v : Nat) : List Byte := let b := beBytes v; b ++ [BitVec.ofNat 8 b.length]
def encodeString (s : List Byte) : List Byte := leftEncode (8 * s.length) ++ s
def bytepad (x : List Byte) : List Byte :=
  let z := leftEncode 136 ++ x
  z ++ List.replicate ((136 - z.length % 136) % 136) 0

/-- The bytes of an ASCII string. -/
def ascii (s : String) : List Byte := s.toList.map fun c => BitVec.ofNat 8 c.toNat

/-- KMAC256 to 256 bits: key, message, customisation. -/
def kmac256 (k x s : List Byte) : List Byte :=
  keccak512 (bytepad (encodeString (ascii "KMAC") ++ encodeString s) ++ bytepad (encodeString k) ++ x ++ rightEncode 256) 0x04

end Sys2Proof.Machine
end

