-- ==== Sys2Proof/Machine/Prefix.lean ====
section
/-!
DEFINITION. The prefix index, its commands and journal, weight segments and the cold-start engine (R292 to R314).
-/
namespace Sys2Proof.Machine

open Sys2Proof

/-! ### Ways (Table 12.2) -/

/-- The world's salt (R292). -/
def State.salt (s : State) (w : Nat) : List Byte :=
  kmac256 (Config.worldKey w (((s.world? w).map (·.keyGen)).getD 0)) (ascii "HW8 PREFIX SALT") []

/-- The bucket of a tag (R292). -/
def bucketOf (tag : List Byte) : Nat := leNat (tag.take 3) % 2 ^ 22

/-- The way that a lookup hits (R294). -/
def State.hit (s : State) (w : Nat) (tag : List Byte) : Option Way :=
  s.eng.ways.find? fun x => x.world == w && x.tag == tag

def State.dropWay (s : State) (bucket way : Nat) : State :=
  s.modEng fun e => { e with ways := e.ways.filter fun x => !(x.bucket == bucket && x.way == way) }

/-! ### The index cache (R294, R298) -/

/-- A cached line: a bucket, or the weight-map line of a digest. -/
def State.lineCached (s : State) (k : Nat × Option Nat) : Bool := s.eng.cached.contains k

/-- The line used in this cycle stands last; the least recently used of 65,536 leaves. -/
def State.touchLine (s : State) (k : Nat × Option Nat) : State :=
  s.modEng fun e =>
    let l := e.cached.filter (· != k)
    { e with cached := (if 65536 ≤ l.length then l.drop 1 else l) ++ [k] }

/-! ### Functions of the commands (Table 12.4) -/

/-- Operand bytes and permission needed, if the function has a block. -/
def prefixBlock (fn : Nat) : Option (Nat × Nat) :=
  match fn with
  | 0 => some (160, permRead)
  | 1 => some (32, permRead)
  | 2 => some (32, permRead)
  | 5 => some (256, permRW)
  | 6 => some (256, permRead)
  | 7 => some (32, permRead)
  | 8 => some (32, permRead)
  | _ => none

def journalled (fn : Nat) (ref : Bool) : Bool := (fn == 1 && ref) || fn == 2 || fn == 3 || fn == 4 || fn == 6

/-- Bytes in the banks of the core in focus. -/
def State.inOwnBanks (s : State) (a n : Nat) : Bool :=
  match placeOf a, placeOf (a + n - 1) with
  | .slice i (.bank _), .slice j (.bank _) => i == s.cur && j == s.cur
  | _, _ => false

def State.inOwnAcc (s : State) (a n : Nat) : Bool :=
  match placeOf a, placeOf (a + n - 1) with
  | .slice i .acc, .slice j .acc => i == s.cur && j == s.cur
  | _, _ => false

/-- Physical pieces of a list of ranges, as their pages translate now. -/
def State.physPieces (s : State) (world : Nat) (l : List (Nat × Nat)) : List (Nat × Nat) :=
  l.flatMap fun (va, n) => (List.range (pagesOf va n)).map fun k =>
    let a := if k == 0 then va else (va / 4096 + k) * 4096
    (s.physOf world a, min (va + n) ((a / 4096 + 1) * 4096) - a)

/-- Every byte that a copy reads, its exponent array included. -/
def State.source (s : State) (c : Copy) : List (Nat × Nat) :=
  c.targets.flatMap fun t =>
    let exps := if c.op == 0 && readsExp c.sfmt t.fmt then [(c.expSrc.toNat, (elemsOf t.fmt c.n + 63) / 64)] else []
    s.physPieces c.world (wholeSource c.kind t.dst.toNat c.src.toNat c.n c.sfmt t.fmt ++ exps)

/-- A slot's 16 KiB and a list of physical pieces meet. -/
def State.meetsSlot (s : State) (d : Nat) (l : List (Nat × Nat)) : Bool :=
  let lo := (s.prefix_ s.myWorld).slotPa d
  l.any fun (a, n) => a < lo + 16384 && lo < a + n

/-- Copies of the issuing task, not landed, that write into a slot (R298); and those that still read it. -/
def State.slotCopies (s : State) (d : Nat) : List Nat :=
  (s.myCopies.filter fun c => c.state != .landed && s.meetsSlot d (s.destination c)).map (·.id)
def State.slotReaders (s : State) (d : Nat) : List Nat :=
  (s.myCopies.filter fun c => c.state != .landed && s.meetsSlot d (s.source c)).map (·.id)

/-- V + 1 of R298 for the copies of the task whose last byte landed in this cycle, else this cycle. -/
def State.slotFree (s : State) (d : Nat) : Nat :=
  if s.eng.settled.any fun (l, c) => l == s.tb && c.asker == .core s.cur && c.jetton == s.core.bnd.jetton && s.meetsSlot d (s.destination c)
  then s.tb + 1 else s.tb

/-- The journal at the next journalled command (R307): replayed from an entry, or a new entry, or full. -/
inductive JournalPlace where
  | none | full
  | replay (k : Nat)
  | new (k : Nat)
  /-- The earlier run's command ended in a fault: this one acts anew in its place (notes/assumptions/108.md). -/
  | again (k : Nat)
deriving DecidableEq, Repr

def Core.journalPlace (c : Core) (fn : Nat) (ref : Bool) : JournalPlace :=
  if !journalled fn ref then .none
  else if 16 ≤ c.jpos then .full
  else
    match c.journal[c.jpos]? with
    | some e => if e.fn == 0 then .again c.jpos else if e.fn.toNat == fn then .replay c.jpos else .new c.jpos
    | none => .new c.jpos

/-- A fault with FADDR and DET, or none. -/
def firstOf (l : List (Option (Cause × Nat × Nat))) : Option (Cause × Nat × Nat) := l.findSome? id

/-- The checks of R297 on the operand and result blocks. -/
def State.prefixCheck (s : State) (fn : Nat) (a b : CReg) : Option (Cause × Nat × Nat) :=
  let ca := s.creg a
  let cb := s.creg b
  let x := ca.cur.toNat
  let y := cb.cur.toNat
  let operand : Option (Cause × Nat × Nat) :=
    match prefixBlock fn with
    | some (n, need) =>
      match ca.check s.myWorld need x n with
      | some c => some (c, x, 0)
      | none => if x % 32 != 0 then some (.align, x, 0) else if s.inOwnBanks x n then none else some (.capperm, x, 0)
    | none => none
  let result : Option (Cause × Nat × Nat) :=
    if fn == 8 then none
    else
      match cb.check s.myWorld permRW y 64 with
      | some c => some (c, y, 0)
      | none => if y % 64 != 0 then some (.align, y, 0) else if s.inOwnAcc y 64 then none else some (.capperm, y, 0)
  firstOf [operand, result]

/-- A prefix or weight command at its issue (R296, R297). -/
def State.prefixIssue (s : State) (fn : Nat) (ref : Bool) (slot : W64) (a b : CReg) : State :=
  match s.prefixCheck fn a b with
  | some (c, x, det) => s.ctlFault c (BitVec.ofNat 64 x) det
  | none =>
    let place := s.core.journalPlace fn ref
    if place == .full then s.ctlFault .ill 0 8
    else
      let x := (s.creg a).cur.toNat
      let n := ((prefixBlock fn).map (·.1)).getD 0
      match if n == 0 then none else s.mem.firstDamage x n with
      | some u => (s.modMem (·.markPoison u)).ctlFault .ucdata (BitVec.ofNat 64 u)
      | none =>
        let (id, s) := s.fresh
        let onSlot := fn == 2 || fn == 4 || fn == 6
        let cmd : PCommand := {
          id := id, fn := BitVec.ofNat 4 fn, ref := ref, core := s.cur, jetton := s.core.bnd.jetton, run := s.core.iss.run
          pc := BitVec.ofNat 12 s.core.iss.pc, issue := s.tb, world := s.myWorld, slot := slot, block := s.mem.read x n
          operand := x, result := (s.creg b).cur.toNat, blockers := if onSlot then s.slotCopies slot.toNat else []
          reads := if fn == 4 then s.slotReaders slot.toNat else [], notBefore := if onSlot then s.slotFree slot.toNat else s.tb
          arrive := none, act := none
          words := [], fault := none
          journal := match place with | .replay k => some k | .new k => some k | .again k => some k | _ => none
          record := [] }
        let s := s.modC fun c => { c with
          jpos := if place == .none then c.jpos else c.jpos + 1
          journal := match place with
            | .new k => c.journal.take k ++ [⟨id, BitVec.ofNat 4 fn, none⟩]
            | .again k => c.journal.set k ⟨id, BitVec.ofNat 4 fn, none⟩
            | _ => c.journal }
        (s.modEng fun e => { e with pcmds := e.pcmds ++ [cmd] }).advance 1

def execKvhs (a b : CReg) (s : State) : Result := .next (s.prefixIssue 0 false 0 a b)
def execKvlk (a b : CReg) (ref : Bool) (s : State) : Result := .next (s.prefixIssue 1 ref 0 a b)
def execKvin (d : SReg) (a b : CReg) (s : State) : Result := .next (s.prefixIssue 2 false (s.sreg d) a b)
def execKvap (b : CReg) (s : State) : Result := .next (s.prefixIssue 3 false 0 0 b)
def execKvrl (d : SReg) (b : CReg) (s : State) : Result := .next (s.prefixIssue 4 false (s.sreg d) 0 b)
def execKvex (d : SReg) (a b : CReg) (s : State) : Result := .next (s.prefixIssue 5 false (s.sreg d) a b)
def execKvim (d : SReg) (a b : CReg) (s : State) : Result := .next (s.prefixIssue 6 false (s.sreg d) a b)
def execWseg (a b : CReg) (s : State) : Result := .next (s.prefixIssue 7 false 0 a b)
def execWprf (a : CReg) (s : State) : Result := .next (s.prefixIssue 8 false 0 a 0)

/-! ### Departure, start and act (R298, R307) -/

def State.pcmd? (s : State) (id : Nat) : Option PCommand := s.eng.pcmds.find? (·.id == id)
def State.modPcmd (s : State) (id : Nat) (f : PCommand → PCommand) : State :=
  s.modEng fun e => { e with pcmds := e.pcmds.map fun p => if p.id == id then f p else p }
def State.dropPcmd (s : State) (id : Nat) : State := s.modEng fun e => { e with pcmds := e.pcmds.filter (·.id != id) }

/-- The journal entry that a command of a replay is answered from; its own entry is none. -/
def State.answerOf (s : State) (p : PCommand) : Option JournalEntry :=
  match p.journal with
  | some k =>
    match (s.getCore p.core).journal[k]? with
    | some e => if e.id == p.id then none else some e
    | none => none
  | none => none

/-- A copy has made its last read before this cycle, or goes on no more. -/
def State.hasRead (s : State) (id : Nat) : Bool :=
  match s.copy? id with
  | some c => !c.pending || c.state == .landed || (c.state == .issued && c.beatCount ≤ c.beat && c.at_ ≤ s.tb)
  | none => true

/-- A command leaves its core in this cycle: nothing holds it, and an earlier run's command has given its result. -/
def PCommand.departs (p : PCommand) (s : State) : Bool :=
  p.arrive.isNone && p.blockers.isEmpty && p.notBefore ≤ s.tb && (p.reads.all fun id => s.hasRead id) && (match s.answerOf p with
    | some e => e.words.isSome
    | none => true)

/-- PREFIX_COMMAND_DEPART: to its unit, 48 cycles away, or answered from the journal. -/
def execPrefixCommandDepart (id : Nat) (s : State) : Result :=
  match s.pcmd? id with
  | some p =>
    .next (if !p.departs s then s
      else
        match s.answerOf p with
        | some e =>
          let ws := ((e.words.getD []).zipIdx).map fun (w, k) => (k + 1, w)
          (s.modPcmd id fun p => { p with arrive := some s.tb, act := some s.tb, words := ws }).at_ (s.tb + 97) (.journalReply id)
        | none => s.modPcmd id fun p => { p with arrive := some (s.tb + 48) })
  | none => .next s

/-- The commands waiting at a unit, in the order in which it serves them. -/
def State.waitingAt (s : State) (hash : Bool) : List PCommand :=
  sortBy (fun p => (p.arrive.getD 0) * 2 ^ 12 + p.core)
    (s.eng.pcmds.filter fun p => p.act.isNone && (p.fn == 0) == hash && (match p.arrive with
      | some c => c ≤ s.tb
      | none => false))

/-- The command that a unit starts in this cycle. -/
def State.starting (s : State) (hash : Bool) : Option PCommand :=
  if (if hash then s.eng.hashFree else s.eng.indexFree) ≤ s.tb then (s.waitingAt hash).head? else none

/-- The tag that a command looks up. -/
def PCommand.tag (p : PCommand) : List Byte := if p.fn == 6 then (p.block.drop 128).take 32 else p.block.take 32

/-- The lowest free slot below a bound. -/
def Prefix.lowestFree (p : Prefix) (j fuel : Nat) : Option Nat :=
  match fuel with
  | 0 => none
  | fuel + 1 => if p.quota ≤ j then none else if (p.slot j).alloc then p.lowestFree (j + 1) fuel else some j
def Prefix.free (p : Prefix) : Option Nat := p.lowestFree 0 (p.slots.length + 1)

/-- The least of a list by key; ties to the earlier. -/
def leastBy {α : Type} (key : α → Nat) (l : List α) : Option α :=
  l.foldl (fun m x => match m with | some y => if key x < key y then some x else m | none => some x) none

/-- The cached slot of least AGE, ties to the lower slot (R302). -/
def Prefix.reclaimable (p : Prefix) : Option (Nat × Slot) :=
  leastBy (fun (_, x) => x.age) (p.slots.filter fun (j, x) => j < p.quota && x.idx && x.ref == 0)

/-- The index cache line whose place decides a command's time (R298). -/
def State.lineOfCommand (s : State) (p : PCommand) : Option (Nat × Option Nat) :=
  let pr := s.prefix_ p.world
  let sl := pr.slot p.slot.toNat
  match p.fn.toNat with
  | 1 | 2 | 6 => some (bucketOf p.tag, none)
  | 4 | 5 => if sl.idx then some (sl.bucket, none) else none
  | 3 => if pr.free.isSome then none else pr.reclaimable.map fun (_, x) => (x.bucket, none)
  | 7 | 8 => some (bucketOf p.tag, some p.world)
  | _ => none

/-- E of Table 12.5. -/
def State.engineTime (s : State) (p : PCommand) : Nat :=
  let line := match s.lineOfCommand p with
    | some k => if s.lineCached k then 8 else 430
    | none => 8
  match p.fn.toNat with
  | 0 => 40
  | 3 => if (s.lineOfCommand p).isSome then 8 + line else 8
  | 5 | 6 => 640 + line
  | _ => line

/-- PREFIX_COMMAND_START: the unit takes the command; it acts at the end of cycle st + E − 1. -/
def execPrefixCommandStart (id : Nat) (s : State) : Result :=
  match s.pcmd? id with
  | some p =>
    let hash := p.fn == 0
    .next (if (s.starting hash).map (·.id) == some id then
        let t := s.tb + s.engineTime p - 1
        let s := s.modEng fun e => if hash then { e with hashFree := s.tb + 1 } else { e with indexFree := t + 1 }
        (s.modPcmd id fun p => { p with act := some t }).at_ t (.prefixCommandAct id)
      else s)
  | none => .next s

/-! ### What a command does (R299 to R305, R309, R310) -/

/-- The result words 1 to 7 (Table 12.6). -/
def resultWords (status slot ref va : Nat) : List (Nat × W32) :=
  [(1, BitVec.ofNat 32 status), (2, BitVec.ofNat 32 slot), (3, BitVec.ofNat 32 ref), (4, BitVec.ofNat 32 va),
   (5, BitVec.ofNat 32 (va / 2 ^ 32)), (6, 0), (7, 0)]

/-- A result that names a slot, as the slot stands after the command. -/
def State.slotResult (s : State) (w status e : Nat) : List (Nat × W32) :=
  let p := s.prefix_ w
  resultWords status e (p.slot e).ref (p.slotVa e)

/-- A result without a slot. -/
def plainResult (status : Nat) : List (Nat × W32) := resultWords status (2 ^ 32 - 1) 0 0

def State.modSlot (s : State) (w j : Nat) (f : Slot → Slot) : State :=
  let p := s.prefix_ w
  s.setPrefix (p.setSlot j (f (p.slot j)))

/-- Index slot `d` under a tag at a way. -/
def State.placeWay (s : State) (w d v : Nat) (tag : List Byte) : State :=
  let b := bucketOf tag
  (s.modEng fun e => { e with ways := e.ways ++ [⟨b, v, tag, w, d⟩] }).modSlot w d fun x => { x with idx := true, bucket := b, way := v }

/-- KVIN of R301, with a tag. -/
def State.kvin (s : State) (w d : Nat) (tag : List Byte) : State × List (Nat × W32) :=
  let sl := (s.prefix_ w).slot d
  if sl.idx || sl.dmg then (s, s.slotResult w 0x04 d)
  else
    match s.hit w tag with
    | some x =>
      let e := x.slot
      if ((s.prefix_ w).slot e).ref == 65535 then (s, s.slotResult w 0x05 e)
      else
        let t := s.modSlot w e fun y => { y with ref := y.ref + 1 }
        (t, t.slotResult w 0x02 e)
    | none =>
      let b := bucketOf tag
      let inUse := s.eng.ways.filter (·.bucket == b)
      match (List.range 8).find? fun v => !(inUse.any (·.way == v)) with
      | some v =>
        let t := s.placeWay w d v tag
        (t, t.slotResult w 0x00 d)
      | none =>
        let own := sortBy (·.way) (inUse.filter fun x => x.world == w && ((s.prefix_ w).slot x.slot).ref == 0)
        match leastBy (fun (x : Way) => ((s.prefix_ w).slot x.slot).age) own with
        | none => (s, s.slotResult w 0x03 d)
        | some x =>
          let t := (s.dropWay b x.way).modSlot w x.slot fun y => { y with idx := false, alloc := false, dmg := false }
          let t := t.placeWay w d x.way tag
          (t, t.slotResult w 0x00 d)

/-- KVAP (R302). -/
def State.kvap (s : State) (w : Nat) : State × List (Nat × W32) :=
  let p := s.prefix_ w
  let take (s : State) (j : Nat) : State × List (Nat × W32) :=
    let t := s.modSlot w j fun x => { x with alloc := true, ref := 1, idx := false, age := s.tb }
    (t, t.slotResult w 0x00 j)
  match p.free with
  | some j => take s j
  | none =>
    match p.reclaimable with
    | some (j, x) => take (s.dropWay x.bucket x.way) j
    | none => (s, plainResult 0x10)

/-- KVRL (R301). -/
def State.kvrl (s : State) (w d : Nat) : State × List (Nat × W32) :=
  let t := s.modSlot w d fun x =>
    let r := x.ref - 1
    if r != 0 then { x with ref := r }
    else if x.idx then { x with ref := 0, age := s.tb }
    else { x with ref := 0, age := s.tb, alloc := false, dmg := false }
  (t, t.slotResult w 0x00 d)

/-- The MAC of a record (R304). -/
def State.recordMac (s : State) (w : Nat) (head page : List Byte) : List Byte :=
  kmac256 (Config.worldKey w (((s.world? w).map (·.keyGen)).getD 0)) (head ++ page) (ascii "HW8 PREFIX RECORD")

def State.page (s : State) (w d : Nat) : List Byte := s.mem.read ((s.prefix_ w).slotPa d) 16384

/-- A line of a slot that fails verification (R306), on a read of the page by the engine. -/
def State.pageBad (s : State) (w d : Nat) : Option Nat :=
  let a := (s.prefix_ w).slotPa d
  (s.mem.badLine w a 16384).orElse fun _ => s.mem.firstDamage a 16384

/-- KVEX's record (Table 12.7). -/
def State.kvexRecord (s : State) (w d : Nat) (block : List Byte) : List Byte :=
  let sl := (s.prefix_ w).slot d
  let tag := ((s.eng.ways.find? fun x => x.bucket == sl.bucket && x.way == sl.way).map (·.tag)).getD []
  let head := padTo 96 (padTo 32 tag ++ block.take 48 ++ leBytes w 2)
  head ++ s.recordMac w head (s.page w d)

/-- The checks of KVIM on its record (R305). -/
def State.kvimOk (s : State) (w d : Nat) (block : List Byte) : Bool :=
  let r := (block.drop 128).take 128
  leNat ((r.drop 80).take 2) == w && ((r.drop 82).take 14).all (· == 0) && (r.drop 32).take 48 == block.take 48
    && r.drop 96 == s.recordMac w (r.take 96) (s.page w d)

/-- The slot of a command passes R300. -/
def State.slotHeld (s : State) (p : PCommand) : Bool :=
  let pr := s.prefix_ p.world
  let sl := pr.slot p.slot.toNat
  match p.fn.toNat with
  | 2 | 4 | 6 => p.slot.toNat < pr.quota && sl.alloc && sl.ref != 0
  | 5 => p.slot.toNat < pr.quota && sl.alloc
  | _ => true

/-- The window slot at which a world maps a digest (R309). -/
def State.mappedAt (s : State) (w : Nat) (digest : List Byte) : Option Nat :=
  ((s.prefix_ w).weights.find? fun (_, d) => d == digest).map (·.1)
def State.segment? (s : State) (digest : List Byte) : Option Segment := s.eng.segments.find? (·.digest == digest)
def State.modSegment (s : State) (digest : List Byte) (f : Segment → Segment) : State :=
  s.modEng fun e => { e with segments := e.segments.map fun g => if g.digest == digest then f g else g }

/-- The effect and the result words of a command at s. -/
def State.actCommand (s : State) (p : PCommand) : State × List (Nat × W32) :=
  let w := p.world
  let d := p.slot.toNat
  match p.fn.toNat with
  | 0 =>
    let tag := shake256 (p.block.take 32 ++ s.salt w ++ (p.block.drop 32).take 128)
    (s, (1, 0) :: (List.range 8).map fun k => (8 + k, BitVec.ofNat 32 (leNat ((tag.drop (4 * k)).take 4))))
  | 1 =>
    match s.hit w p.tag with
    | some x =>
      if !p.ref then (s, s.slotResult w 0x00 x.slot)
      else if ((s.prefix_ w).slot x.slot).ref == 65535 then (s, s.slotResult w 0x05 x.slot)
      else
        let t := s.modSlot w x.slot fun y => { y with ref := y.ref + 1 }
        (t, t.slotResult w 0x00 x.slot)
    | none => (s, plainResult 0x01)
  | 2 => s.kvin w d p.tag
  | 3 => s.kvap w
  | 4 => s.kvrl w d
  | 5 => (s, s.slotResult w (if ((s.prefix_ w).slot d).idx then 0x00 else 0x04) d)
  | 6 =>
    let sl := (s.prefix_ w).slot d
    if sl.idx || sl.dmg then (s, s.slotResult w 0x04 d)
    else if s.kvimOk w d p.block then s.kvin w d p.tag
    else (s, s.slotResult w 0x14 d)
  | 7 =>
    match s.mappedAt w p.tag, (s.segment? p.tag).map (·.sst) with
    | some k, some 2 =>
      (s, resultWords 0x00 (2 ^ 32 - 1) 0 ((s.prefix_ w).wwbase.toNat / 0x200000 * 0x200000 + 0x200000 * k))
    | _, _ => (s.say (.absent w p.tag), plainResult 0x06)
  | _ =>
    let pr := s.prefix_ w
    if 256 ≤ pr.prefetch.length then
      (s.setPrefix { pr with pfdrop := if pr.pfdrop == BitVec.allOnes 32 then pr.pfdrop else pr.pfdrop + 1 }, [])
    else if pr.prefetch.contains p.tag then (s, [])
    else (s.setPrefix { pr with prefetch := pr.prefetch ++ [p.tag] }, [])

/-- PREFIX_COMMAND_ACT: one step at s; the results follow 48 cycles on. -/
def execPrefixCommandAct (id : Nat) (s : State) : Result :=
  match s.pcmd? id with
  | some p =>
    .next (if p.act != some s.tb then s
      else
        let s := match s.lineOfCommand p with
          | some k => s.touchLine k
          | none => s
        if !s.slotHeld p then
          let a := BitVec.ofNat 64 ((s.prefix_ p.world).slotVa p.slot.toNat)
          (s.modPcmd id fun p => { p with fault := some (.capperm, a) }).at_ (s.tb + 48) (.prefixResultWrite id)
        else
          let sl := (s.prefix_ p.world).slot p.slot.toNat
          let reads := (p.fn == 5 && sl.idx) || (p.fn == 6 && !sl.idx && !sl.dmg)
          match if reads then s.pageBad p.world p.slot.toNat else none with
          | some u =>
            let a := BitVec.ofNat 64 ((s.prefix_ p.world).slotVa p.slot.toNat + u - (s.prefix_ p.world).slotPa p.slot.toNat)
            ((s.noteDamage u true).modPcmd id fun p => { p with fault := some (.ucdata, a) }).at_ (s.tb + 48) (.prefixResultWrite id)
          | none =>
            let rec_ := if p.fn == 5 && ((s.prefix_ p.world).slot p.slot.toNat).idx then
              s.kvexRecord p.world p.slot.toNat p.block else []
            let (s, ws) := s.actCommand p
            let s := s.accessDone id s.tb
            if p.fn == 8 then s.dropPcmd id
            else (s.modPcmd id fun p => { p with words := ws, record := rec_ }).at_ (s.tb + 48) (.prefixResultWrite id))
  | none => .next s

/-! ### Results (R299, R300, R303, R307) -/

/-- A plain write of result words. -/
def State.writeResult (s : State) (p : PCommand) (ws : List (Nat × W32)) : State :=
  s.modMem fun m => ws.foldl (fun (m : Mem) (k, w) => (m.setWord (p.result + 4 * k) w).clearPoison (p.result + 4 * k)) m

/-- The entry of a command records its words (R307). -/
def State.recordWords (s : State) (p : PCommand) : State :=
  match p.journal with
  | some _ =>
    let ws := (List.range 7).map fun k => ((p.words.find? (·.1 == k + 1)).map (·.2)).getD 0
    let put (e : JournalEntry) : JournalEntry := if e.id == p.id then { e with words := some ws } else e
    s.modCore p.core fun c => { c with journal := c.journal.map put }
  | none => s

/-- The entry of a command that ended in a fault: a replay's command acts anew there. -/
def State.voidEntry (s : State) (p : PCommand) : State :=
  let void (e : JournalEntry) : JournalEntry := if e.id == p.id then ⟨0, 0, none⟩ else e
  s.modCore p.core fun c => { c with journal := c.journal.map void }

/-- The core still stands for the request whose task issued the command, in that run or a later one (R299, R300, R303). -/
def State.issuedBy (s : State) (p : PCommand) : Bool :=
  let c := s.getCore p.core
  c.iss.status != .free && c.bnd.jetton == p.jetton && c.bnd.firstRun ≤ p.run

/-- A fault of a command, raised at its task in this cycle (notes/assumptions/109.md). -/
def State.pcmdFault (s : State) (p : PCommand) (c : Cause) (a : W64) : State :=
  if s.issuedBy p then (s.deferFault p.core c a 8 0 p.pc p.issue).dropPcmd p.id else s.dropPcmd p.id

/-- PREFIX_RESULT_WRITE: words 1 to 15 at the end of s + 48; a violation, or an ending status, there instead of word 0. -/
def execPrefixResultWrite (id : Nat) (s : State) : Result :=
  match s.pcmd? id with
  | some p =>
    .next (match p.fault with
      | some (c, a) => (s.voidEntry p).pcmdFault p c a
      | none =>
        let s := (s.writeResult p p.words).recordWords p
        let s := if p.record.isEmpty then s else s.modMem fun m => m.landPiece (p.operand + 128) p.record
        let status := ((p.words.find? (·.1 == 1)).map (·.2)).getD 0
        if status == 0x10 || status == 0x11 then
          let s := s.dropPcmd id
          if s.issuedBy p then
            s.endRequest p.jetton s.tb status.toNat
              ⟨if status == 0x10 then .quota else .tier, p.pc, 0, finfo 0 8 true 0 (s.tb - p.issue)⟩
          else s
        else s.at_ (s.tb + 1) (.prefixCompletionCount id))
  | none => .next s

/-- PREFIX_COMPLETION_COUNT: word 0, unless it is poisoned. -/
def execPrefixCompletionCount (id : Nat) (s : State) : Result :=
  match s.pcmd? id with
  | some p =>
    .next (if s.mem.damaged p.result then
        (s.modMem (·.markPoison (unitOf p.result))).pcmdFault p .ucdata (BitVec.ofNat 64 p.result)
      else (s.modMem fun m => m.setWord p.result (m.word p.result + 1)).dropPcmd id)
  | none => .next s

/-- JOURNAL_REPLY (R307): the words of an earlier run's command, then word 0 in the next cycle. -/
def execJournalReply (id : Nat) (s : State) : Result :=
  match s.pcmd? id with
  | some p => .next ((s.writeResult p p.words).at_ (s.tb + 1) (.prefixCompletionCount id))
  | none => .next s

/-! ### Cold start (R308, R311 to R314) -/

/-- Base of 2 MiB frame `n` of HBM. -/
def frameBase (n : Nat) : Nat := hbmBase + n / 31744 * 0x1000000000 + n % 31744 * 0x200000

def State.framesUsed (s : State) : List Nat :=
  s.worlds.flatMap (·.frames) ++ s.eng.segments.filterMap (·.frame)

def firstFrame (used : List Nat) (n fuel : Nat) : Option Nat :=
  match fuel with
  | 0 => none
  | fuel + 1 => if 507904 ≤ n then none else if used.contains (frameBase n) then firstFrame used (n + 1) fuel else some (frameBase n)

/-- The lowest-numbered frame that no world and no segment holds. -/
def State.freeFrame (s : State) : Option Nat := let u := s.framesUsed; firstFrame u 0 (u.length + 1)

/-- Tiers that a segment has, in order: 0 and 1 its peers, 2 local flash. -/
def Segment.tiers (g : Segment) : List Nat := (if g.p0v then [0] else []) ++ (if g.p1v then [1] else []) ++ [2]

/-- The first piece not yet verified. -/
def Segment.nextPiece (g : Segment) : Option Nat := (List.range 32).find? fun k => !g.pieces.getLsbD k

def Segment.fresh (digest : List Byte) : Segment := ⟨digest, 0, 0, 0, none, 0, 0, 0, false, false, 0⟩

def insertTurn (l : List Prefix) (p : Prefix) : List Prefix :=
  match l with
  | [] => [p]
  | q :: r => if q.world ≤ p.world then q :: insertTurn r p else p :: q :: r

/-- The world whose prefetch turn it is (R311): the next one up that has a digest. -/
def State.prefetchTurn (s : State) : Option Prefix :=
  let l := (s.eng.prefixes.filter fun p => !p.prefetch.isEmpty).foldl insertTurn []
  (l.find? fun p => s.eng.pfLast < p.world).orElse fun _ => l.head?

/-- The directory lists a digest, as a fresh entry where none stood (R308). -/
def State.listSegment (s : State) (digest : List Byte) : State :=
  if (s.segment? digest).isSome then s
  else s.modEng fun e => { e with segments := e.segments ++ [Segment.fresh digest] }

/-- A digest is resident in the directory, with every piece verified (R311, R314). -/
def State.resident (s : State) (digest : List Byte) : Bool :=
  match s.segment? digest with
  | some g => g.sst == 2 && g.pieces == BitVec.allOnes 32
  | none => false

/-- The engine starts a fetch: SST 1, a frame, the first tier. -/
def State.startFetch (s : State) (digest : List Byte) : State :=
  let s := s.listSegment digest
  let frame := s.freeFrame
  let s := s.modSegment digest fun g =>
    { g with sst := 1, frame := g.frame.orElse fun _ => frame, tier := g.tiers.headD 2 }
  match s.segment? digest with
  | some g => (s.modEng fun e => { e with fetch := some digest }).say (.fetch digest g.tier (g.nextPiece.getD 0))
  | none => s

/-- Map a resident segment for a world at the lowest free window slot (R311). -/
def State.mapSegment (s : State) (w : Nat) (digest : List Byte) : State :=
  let p := s.prefix_ w
  if p.weights.any fun (_, d) => d == digest then s
  else
    let k := lowestFree (p.weights.map (·.1)) 0 (p.weights.length + 1)
    (s.setPrefix { p with weights := setKey p.weights k digest }).modSegment digest fun g => { g with maps := g.maps + 1 }

/-- COLD_START_FETCH: the next demand, else the next prefetch; a resident digest is mapped instead (R311). -/
def execColdStartFetch (s : State) : Result :=
  .next (if s.eng.fetch.isSome then s
    else
      match s.eng.demands with
      | (d, w) :: r =>
        let s := s.modEng fun e => { e with demands := r }
        if s.resident d then
          match w with
          | some w => s.mapSegment w d
          | none => s
        else s.startFetch d
      | [] =>
        match s.prefetchTurn with
        | some p =>
          let d := p.prefetch.headD []
          let s := (s.setPrefix { p with prefetch := p.prefetch.drop 1 }).modEng fun e => { e with pfLast := p.world }
          if s.resident d then s.mapSegment p.world d else s.startFetch d
        | none => s)

def State.coldStartDue (s : State) : Bool :=
  s.eng.fetch.isNone && (!s.eng.demands.isEmpty || s.prefetchTurn.isSome)

/-- The replays that waited for a piece wait no more (R314): each starts when its own time and every other service allow. -/
def State.releasePieces (s : State) (held : Nat → Bool) : State :=
  s.live.foldl (fun (s : State) i =>
    let c := s.getCore i
    match c.iss.heldBy with
    | some a =>
      if !held a then s
      else
        let s := s.modCore i fun c => { c with iss := { c.iss with heldBy := none } }
        if s.replayHeld i && !s.awaitsXlate i then s.schedule [(i, 3)] (max c.iss.next (s.tb + 1)) else s
    | none => s) s

/-- The last tier failed (R314): SST 3; copies parked on the segment and pending WSEGs end their requests with TIER. -/
def State.tierFail (s : State) (g : Segment) : State :=
  let s := (s.modSegment g.digest fun g => { g with sst := 3 }).modEng fun e => { e with fetch := none }
  let s := s.releasePieces fun a => match g.frame with
    | some f => f ≤ a && a < f + 0x200000
    | none => false
  let parked := s.eng.copies.filter fun c => c.state == .parked && (match c.parkFrame, g.frame with
    | some a, some f => f ≤ a && a < f + 0x200000
    | _, _ => false)
  let f (pc : BitVec 12) (src issue : Nat) : FaultRec := ⟨.tier, pc, 0, finfo 0 src true 0 (s.tb - issue)⟩
  let s := parked.foldl (fun (s : State) c =>
    let s' := s.endCopy c
    match s.issuerLive c with
    | some i => s'.endRequest (s.getCore i).bnd.jetton s.tb 0x11 (f c.pc (engineSrc c.engine) c.issue)
    | none => s') s
  (s.eng.pcmds.filter fun p => p.fn == 7 && p.tag == g.digest).foldl (fun (s : State) p =>
    let s' := (s.writeResult p (plainResult 0x11)).dropPcmd p.id
    if s.issuedBy p then s'.endRequest p.jetton s.tb 0x11 (f p.pc 8 p.issue) else s') s

/-- The tier being read fails: the next one goes on from the first piece not verified (R312). -/
def State.nextTier (s : State) (g : Segment) : State :=
  match g.tiers.find? fun t => g.tier < t with
  | some t =>
    (s.modSegment g.digest fun g => { g with tier := t }).say (.fetch g.digest t (g.nextPiece.getD 0))
  | none => s.tierFail g

/-- TIER_READ_FAILURE. -/
def execTierReadFailure (digest : List Byte) (s : State) : Result :=
  match s.segment? digest with
  | some g => .next (if s.eng.fetch == some digest then s.nextTier g else s)
  | none => .next s

/-- A verified piece is stored, its bit set, and the copies that await it compete again from the next cycle (R312, R313); a replay
that its failure held back may start (R314). -/
def State.storePiece (s : State) (g : Segment) (frame k : Nat) (data : List Byte) : State :=
  let a := frame + 65536 * k
  let s := s.modMem fun m =>
    let m := m.write a data
    { m with lines := (List.range 256).foldl (fun l i => setKey l (a + 256 * i) ⟨257, false⟩) m.lines }
  let s := s.modSegment g.digest fun g =>
    let p := g.pieces ||| (1#32 <<< k)
    { g with pieces := p, sst := if p == BitVec.allOnes 32 then 2 else g.sst }
  let s := if (s.segment? g.digest).map (·.sst) == some 2 then s.modEng fun e => { e with fetch := none } else s
  let wake (c : Copy) : Copy :=
    if c.parkFrame == some a then { c with parkFrame := none, time := if c.saved then c.time else s.tb + 1 } else c
  (s.modEng fun e => { e with copies := e.copies.map wake }).releasePieces (· == a)

/-- SEGMENT_PIECE_LAND, with the piece digests that the tier sent first. -/
def execSegmentPieceLand (digest : List Byte) (piece : BitVec 5) (pds : List (List Byte)) (data : List Byte) (s : State) : Result :=
  match s.segment? digest with
  | some g =>
    .next (if s.eng.fetch != some digest then s
      else if pds.length != 32 || shake256 pds.flatten != digest || data.length != 65536
          || shake256 data != pds.getD piece.toNat [] then s.nextTier g
      else
        match g.frame with
        | some f => if g.pieces.getLsbD piece.toNat then s else s.storePiece g f piece.toNat data
        | none => s)
  | none => .next s

end Sys2Proof.Machine
end

