-- ==== Sys2Proof/Machine/Fabric.lean ====
section
/-!
DEFINITION. The fabric: the counting board and its standby (R372 to R374), a member's order of starts (R375), the collectives
and what they compute (R376 to R381), and the fabric control group (R382).
-/
namespace Sys2Proof.Machine

open Sys2Proof

/-! ### Communicators and messages -/

def State.comm? (s : State) (c : BitVec 16) : Option Comm := s.eng.comms.find? (·.comm == c)
def State.modComm (s : State) (c : BitVec 16) (f : Comm → Comm) : State :=
  s.modEng fun e => { e with comms := e.comms.map fun x => if x.comm == c then f x else x }
def State.board? (s : State) (c : BitVec 16) : Option Board := s.eng.boards.find? (·.comm == c)
def State.setBoard (s : State) (b : Board) : State :=
  s.modEng fun e => { e with boards := e.boards.map fun x => if x.comm == b.comm then b else x }
def State.send (s : State) (l : List NetMsg) : State := { s with net := s.net ++ l }

/-- Members of a communicator, as package indices. -/
def Comm.members (c : Comm) : List Nat := c.rtab.map (·.toNat)

/-! ### The counting board (R372, R373) -/

def Board.num? (b : Board) (n : BitVec 32) : Option BoardNum := b.nums.find? (·.n == n)
def Board.setNum (b : Board) (x : BoardNum) : Board := { b with nums := b.nums.map fun y => if y.n == x.n then x else y }
/-- The number of a key in the key table. -/
def Board.keyNum? (b : Board) (k : Key) : Option BoardNum := b.nums.find? fun x => x.keyed && x.key == k

def addOnce (l : List Nat) (m : Nat) : List Nat := if l.contains m then l else l ++ [m]

/-- A decision goes to the standby, where there is one; its number. -/
def Board.decide (b : Board) (c : Comm) (w : Decision) : Board × List NetMsg :=
  let d := b.decisions + 1
  if c.sbv then ({ b with decisions := d }, [⟨c.stby, c.epoch, .decision c.comm d w⟩])
  else ({ b with decisions := d, acked := d }, [])

/-- A reply that reports decision `d`: sent at once when that is acknowledged, else held (R373). -/
def Board.reply (b : Board) (c : Comm) (d to_ : Nat) (m : Msg) : Board × List NetMsg :=
  if d ≤ b.acked then (b, [⟨to_, c.epoch, m⟩]) else ({ b with replies := b.replies ++ [(d, to_, m)] }, [])

/-- A new number for a key, on the request of member `m` (ASSIGN). -/
def Board.assign (b : Board) (c : Comm) (m : Nat) (k : Key) : Option (Board × List NetMsg) :=
  if !serialLT b.next (b.low + BitVec.ofNat 32 (2 ^ 20)) then none
  else
    let n := b.next
    let (b, out) := b.decide c (.number k n m)
    some ({ b with
      next := n + 1
      nums := b.nums ++ [{ n := n, key := k, keyed := true, state := .assigned, params := none, assigned := [m], opens := []
                           dones := [], allOpened := false, given := b.decisions, decision := b.decisions }] }, out)

/-- Mark a member's ASSIGN or CANCEL; the key leaves the table when every member has sent one. -/
def BoardNum.mark (x : BoardNum) (c : Comm) (m : Nat) : BoardNum :=
  let a := addOnce x.assigned m
  { x with assigned := a, keyed := !(c.members.all a.contains) }

/-- n − 1 is opened or empty; the first number of a communicator has none before it. -/
def Board.mayOpen (b : Board) (n : BitVec 32) : Bool :=
  match b.num? (n - 1) with
  | some p => p.state != .assigned
  | none => n == 0

/-- The board's action on a message of member `m`; `none` holds the message (Table 17.4). -/
def Board.take (b : Board) (c : Comm) (m : Nat) (msg : Msg) : Option (Board × List NetMsg) :=
  match msg with
  | .assign k =>
    match b.keyNum? k with
    | some x =>
      some ((b.setNum (x.mark c m)).reply c x.given m (.number k x.n))
    | none =>
      match b.assign c m k with
      | none => none
      | some (b, out) =>
        let x := (b.keyNum? k).map fun x => x.mark c m
        let b := (x.map b.setNum).getD b
        let (b, o) := b.reply c b.decisions m (.number k (b.next - 1))
        some (b, out ++ o)
  | .cancel k =>
    match (match b.keyNum? k with
      | some _ => some (b, ([] : List NetMsg))
      | none => b.assign c m k) with
    | none => none
    | some (b, out) =>
      match b.keyNum? k with
      | none => some (b, out)
      | some x =>
        let x := x.mark c m
        match x.state with
        | .assigned =>
          let (b, o) := b.decide c (.empty x.n)
          let (b, o') := (b.setNum { x with state := .empty, decision := b.decisions }).reply c b.decisions m (.cancelled k x.n)
          some (b, out ++ o ++ o')
        | .empty =>
          let (b, o) := (b.setNum x).reply c x.decision m (.cancelled k x.n)
          some (b, out ++ o)
        | _ =>
          let (b, o) := (b.setNum x).reply c x.decision m (.started k)
          some (b, out ++ o)
  | .openMsg _ n p =>
    match b.num? n with
    | none => none
    | some x =>
      match x.state with
      | .empty => some (b.reply c x.decision m (.empty c.comm n))
      | .mismatch => some (b.reply c x.decision m (.mismatch c.comm n))
      | .opened =>
        if x.params == some p then some (b.reply c x.decision m (.opened c.comm n))
        else
          let (b, o) := b.decide c (.mismatch n)
          let b := b.setNum { x with state := .mismatch, decision := b.decisions }
          let b := { b with held := b.held.filter fun (k, h) => !(k == m && h == .openMsg c.comm n p) }
          some ((x.opens).foldl (fun (a : Board × List NetMsg) k =>
            let (b, l) := a.1.reply c a.1.decisions k (.mismatch c.comm n)
            (b, a.2 ++ l)) (b, o))
      | .assigned =>
        if b.mayOpen n then
          let (b, o) := b.decide c (.opened n p)
          let b := b.setNum { x with state := .opened, params := some p, decision := b.decisions }
          let (b, o') := b.reply c b.decisions m (.opened c.comm n)
          some (b, o ++ o')
        else none
  | .done _ n =>
    some (match b.num? n with
      | some x => b.setNum { x with dones := addOnce x.dones m }
      | none => b, [])
  | _ => some (b, [])

/-- LOW passes every number that is empty or complete at all members. -/
def Board.raiseLow (b : Board) (c : Comm) (fuel : Nat) : Board :=
  match fuel with
  | 0 => b
  | fuel + 1 =>
    match b.num? b.low with
    | some x => if x.state == .empty || c.members.all x.dones.contains then { b with low := b.low + 1 }.raiseLow c fuel else b
    | none => b

/-- Messages held, tried again in the order of their arrival. -/
def Board.retry (b : Board) (c : Comm) (fuel : Nat) : Board × List NetMsg :=
  match fuel with
  | 0 => (b, [])
  | fuel + 1 =>
    let b := b.raiseLow c b.nums.length
    let (b, out, moved) := b.held.foldl (fun (a : Board × List NetMsg × Bool) (m, msg) =>
      let (b, out, moved) := a
      match { b with held := b.held.filter fun h => !(h == (m, msg)) }.take c m msg with
      | some (b, o) => (b, out ++ o, true)
      | none => (b, out, moved)) (b, [], false)
    if moved then
      let (b, o) := b.retry c fuel
      (b, out ++ o)
    else (b, out)

/-- ALLOPENED, once for each opened number for which every member has sent OPEN. A member's DONE shows that it did. -/
def Board.announce (b : Board) (c : Comm) : Board × List NetMsg :=
  (b.nums.filter fun x => x.state == .opened && !x.allOpened && c.members.all fun m => x.opens.contains m || x.dones.contains m).foldl
    (fun (a : Board × List NetMsg) x =>
      let b := a.1.setNum { x with allOpened := true }
      c.members.foldl (fun (a : Board × List NetMsg) m =>
        let (b, o) := a.1.reply c x.decision m (.allopened c.comm x.n)
        (b, a.2 ++ o)) (b, a.2)) (b, [])

/-- A message of member `m` arrives at the board. -/
def Board.receive (b : Board) (c : Comm) (m : Nat) (msg : Msg) : Board × List NetMsg :=
  let b := match msg with
    | .openMsg _ n _ => match b.num? n with
      | some x => b.setNum { x with opens := addOnce x.opens m }
      | none => b
    | _ => b
  let (b, out) := match b.take c m msg with
    | some (b, o) => (b, o)
    | none => ({ b with held := b.held ++ [(m, msg)] }, [])
  let (b, o) := b.retry c (b.held.length + 1)
  let (b, o') := b.announce c
  (b.raiseLow c b.nums.length, out ++ o ++ o')

/-- A board message, unless it carries an older epoch or this package does not answer as the primary (R374). -/
def State.boardMessage (s : State) (comm : BitVec 16) (sender epoch : Nat) (msg : Msg) : State :=
  match s.comm? comm, s.board? comm with
  | some c, some b =>
    if !b.answering || epoch < c.epoch then s
    else
      let (b, out) := b.receive c sender msg
      (s.setBoard b).send out
  | _, _ => s

/-- ASSIGN. -/
def execAssign (sender epoch : Nat) (key : Key) (s : State) : Result := .next (s.boardMessage key.comm sender epoch (.assign key))
/-- OPEN. -/
def execOpenMsg (sender epoch : Nat) (comm : BitVec 16) (n : BitVec 32) (params : CollParams) (s : State) : Result :=
  .next (s.boardMessage comm sender epoch (.openMsg comm n params))
/-- CANCEL. -/
def execCancel (sender epoch : Nat) (key : Key) (s : State) : Result := .next (s.boardMessage key.comm sender epoch (.cancel key))
/-- DONE. -/
def execCollectiveDoneMessage (sender epoch : Nat) (comm : BitVec 16) (n : BitVec 32) (s : State) : Result :=
  .next (s.boardMessage comm sender epoch (.done comm n))

/-- STANDBY_ACK: the replies of the acknowledged decisions leave the primary (R373). -/
def execStandbyAck (epoch : Nat) (comm : BitVec 16) (decision : Nat) (s : State) : Result :=
  .next (match s.comm? comm, s.board? comm with
    | some c, some b =>
      if !b.answering || epoch < c.epoch then s
      else
        let a := max b.acked decision
        let go := b.replies.filter fun (d, _, _) => d ≤ a
        (s.setBoard { b with acked := a, replies := b.replies.filter fun (d, _, _) => a < d }).send
          (go.map fun (_, t, m) => ⟨t, c.epoch, m⟩)
    | _, _ => s)

/-- What a standby records of a decision. -/
def Board.learn (b : Board) (d : Nat) (w : Decision) : Board :=
  let b := { b with decisions := d, acked := d }
  match w with
  | .number k n m =>
    { b with
      next := n + 1
      nums := b.nums ++ [{ n := n, key := k, keyed := true, state := .assigned, params := none, assigned := [m], opens := []
                           dones := [], allOpened := false, given := d, decision := d }] }
  | .opened n p => match b.num? n with
    | some x => b.setNum { x with state := .opened, params := some p, decision := d }
    | none => b
  | .empty n => match b.num? n with
    | some x => b.setNum { x with state := .empty, decision := d }
    | none => b
  | .mismatch n => match b.num? n with
    | some x => b.setNum { x with state := .mismatch, decision := d }
    | none => b

/-- STANDBY_DECISION: the standby records the decision and acknowledges it. -/
def execStandbyDecision (epoch : Nat) (comm : BitVec 16) (decision : Nat) (what : Decision) (s : State) : Result :=
  .next (match s.comm? comm, s.board? comm with
    | some c, some b =>
      if b.answering || epoch < c.epoch then s
      else (s.setBoard (if b.decisions < decision then b.learn decision what else b)).send [⟨c.prim, c.epoch, .ack comm decision⟩]
    | _, _ => s)

/-! ### Heartbeats and takeover (R374) -/

def heartbeatPeriod : Nat := 85000
def heartbeatLimit : Nat := 1700000

/-- The communicator whose primary, here, sends its heartbeat in this cycle. -/
def State.heartbeatDue (s : State) : Option (BitVec 16) :=
  (s.eng.boards.find? fun b => b.answering && b.lastHeartbeat + heartbeatPeriod ≤ s.tb && (s.comm? b.comm).isSome).map (·.comm)

/-- HEARTBEAT: at a primary it goes to the standby and to every member every 85,000 cycles; at a standby it arrives. One that
reaches a primary is an older epoch's and is discarded. -/
def execHeartbeat (comm : BitVec 16) (s : State) : Result :=
  .next (match s.comm? comm, s.board? comm with
    | some c, some b =>
      let t := s.setBoard { b with lastHeartbeat := s.tb }
      if !b.answering then t
      else if s.tb < b.lastHeartbeat + heartbeatPeriod then s
      else t.send ((if c.sbv then [⟨c.stby, c.epoch, .heartbeat comm⟩] else [])
        ++ c.members.map fun m => ⟨m, c.epoch, .heartbeat comm⟩)
    | _, _ => s)

/-- The communicator whose standby, here, has heard nothing for 1,700,000 cycles. -/
def State.heartbeatLate (s : State) : Option (BitVec 16) :=
  (s.eng.boards.find? fun b => !b.answering && b.lastHeartbeat + heartbeatLimit ≤ s.tb && (match s.comm? b.comm with
    | some c => c.sbv
    | none => false)).map (·.comm)

/-- HEARTBEAT_TIMEOUT: the standby takes over with a new epoch, which it announces to every member. -/
def execHeartbeatTimeout (comm : BitVec 16) (s : State) : Result :=
  .next (match s.comm? comm, s.board? comm with
    | some c, some b =>
      if b.answering || !c.sbv || s.tb < b.lastHeartbeat + heartbeatLimit then s
      else
        let e := c.epoch + 1
        let s := s.modComm comm fun c => { c with epoch := e, prim := c.stby, sbv := false }
        (s.setBoard { b with answering := true, acked := b.decisions, lastHeartbeat := s.tb }).send
          (c.members.map fun m => ⟨m, e, .epoch comm c.stby⟩)
    | _, _ => s)

/-! ### The package's collective engine -/

def State.coll? (s : State) (id : Nat) : Option Coll := s.eng.colls.find? (·.id == id)
def State.modColl (s : State) (id : Nat) (f : Coll → Coll) : State :=
  s.modEng fun e => { e with colls := e.colls.map fun c => if c.id == id then f c else c }
def State.dropColl (s : State) (id : Nat) : State := s.modEng fun e => { e with colls := e.colls.filter (·.id != id) }

/-- The local collective of a key. -/
def State.collOf (s : State) (k : Key) : Option Coll :=
  s.eng.colls.find? fun c => c.key == k && (c.kind == .data || c.kind == .barrier)
/-- The key stands at the engine as outstanding: a collective not completed, or an XSEQ's number. -/
def State.holder (s : State) (k : Key) : Option Coll :=
  s.eng.colls.find? fun c => c.key == k && (c.pending || (c.kind == .seq && c.done.isNone)) && !c.queued
/-- Collectives issued, or obtained by XSEQ, and not completed or empty (R375). -/
def State.outstanding (s : State) : Nat :=
  (s.eng.colls.filter fun c => c.pending || (c.kind == .seq && c.done.isNone)).length

/-- A message to the primary board of a communicator. -/
def State.toBoard (s : State) (comm : BitVec 16) (m : Msg) : State :=
  match s.comm? comm with
  | some c => s.send [⟨c.prim, c.epoch, m⟩]
  | none => s

def Coll.params (c : Coll) : CollParams := ⟨c.opcode, c.op, c.type, BitVec.ofNat 32 c.n⟩

/-- OPEN for a collective whose number is known. -/
def State.askOpen (s : State) (c : Coll) : State :=
  match c.number with
  | some n => s.toBoard c.key.comm (.openMsg c.key.comm n c.params)
  | none => s

/-- The fabric wait of core `i` gets its answer: it completes in the later of t + 96 and `c`. -/
def State.answerWait (s : State) (i c : Nat) (v : W64) : State :=
  s.modCore i fun x => { x with iss := match x.iss.wait with
    | .fabric fn d k none => { x.iss with wait := .fabric fn d k (some (max c (x.iss.waitAt + 96), v)) }
    | _ => x.iss }

/-- Cores whose fabric wait `fn` on a key has reached the engine and has no answer yet. -/
def State.askers (s : State) (fn : Nat) (k : Key) : List Nat :=
  s.live.filter fun i =>
    let x := (s.getCore i).iss
    (match x.wait with
      | .fabric f _ key none => f == fn && key == k
      | _ => false) && x.waitAt + 48 ≤ s.tb

def State.answerAll (s : State) (fn : Nat) (k : Key) (v : W64) : State :=
  (s.askers fn k).foldl (fun s i => s.answerWait i (s.tb + 48) v) s

/-- The first of them to have asked. -/
def State.answerFirst (s : State) (fn : Nat) (k : Key) (v : W64) : State :=
  match sortBy (fun i => (s.getCore i).iss.waitAt * 4096 + i) (s.askers fn k) with
  | i :: _ => s.answerWait i (s.tb + 48) v
  | [] => s

/-- A number that this package has found empty or mismatched (R375). -/
def State.skipNumber (s : State) (comm : BitVec 16) (n : BitVec 32) : State :=
  s.modComm comm fun c => if c.skips.contains n then c else { c with skips := c.skips ++ [n] }

/-- COLLECTIVE_COMPLETE, EMPTY or MISMATCH: the collective of the package is over with a status (R375, R380). -/
def State.finishColl (s : State) (c : Coll) (status : Nat) : State :=
  let s := s.modColl c.id fun c => { c with done := some (s.tb, status), data := [], late := [], queued := false }
  let s := s.accessDone c.id s.tb
  let s := match c.number with
    | some n => if status == 1 then s else s.toBoard c.key.comm (.done c.key.comm n)
    | none => s
  s.answerAll 3 c.key (BitVec.ofNat 64 status)

/-! ### Data (R378 to R380) -/

def collWidth (c : Coll) : Nat := if c.type == 5 then 2 else if c.type == 0 then 1 else 4

/-- Bytes of the source and of the destination of a collective (Table 17.6). -/
def srcBytes (opcode : BitVec 8) (members n : Nat) : Nat := if opcode == 0x5E || opcode == 0x5F then members * n else n
def dstBytes (opcode : BitVec 8) (members n : Nat) : Nat := if opcode == 0x5D || opcode == 0x5F then members * n else n

/-- One step of the reduction, on patterns of 32 bits (R378). -/
def reduceStep (op type : BitVec 4) (y x : Nat) : Nat :=
  if type == 3 then
    if op == 0 then (y + x) % 2 ^ 32
    else arithElem (if op == 1 then .max else .min) .int32 .rne y x 0
  else if op == 0 then fp32.addP .rne y x
  else arithElem (if op == 1 then .max else .min) .fp32 .rne y x 0

/-- An element of the reduction, ranks in ascending order. -/
def reduceElem (op type : BitVec 4) (xs : List Nat) : Nat :=
  let wide (x : Nat) : Nat := if type == 5 then x * 2 ^ 16 else x
  match xs with
  | [] => 0
  | x :: r =>
    let y := r.foldl (fun y x => reduceStep op type y (wide x)) (wide x)
    if type == 5 then bf16.arith .rne (fp32.decode y) else y

/-- The byte that rank `k` contributes at an offset. -/
def Coll.byte? (c : Coll) (k off : Nat) : Option Byte := (c.data.find? fun (r, o, _) => r == k && o == off).map (·.2.2)

/-- The bytes of rank `k` at an offset, once all have come. -/
def Coll.elem? (c : Coll) (k off w : Nat) : Option Nat := ((List.range w).mapM fun i => c.byte? k (off + i)).map leNat

/-- Destination bytes that can be written and have not been: offset, byte. A member sends data only on OPENED, so bytes of
every rank show that no MISMATCH can come any more; until then no byte is written (R372, R379). -/
def Coll.ready (c : Coll) (members : Nat) : List (Nat × Byte) :=
  if !((List.range members).all fun k => c.data.any fun (r, _, _) => r == k) then []
  else if c.opcode == 0x5D || c.opcode == 0x5F then
    (c.data.filterMap fun (k, o, b) => if k < members && o < c.n then some (k * c.n + o, b) else none).filter fun (o, _) => !c.written.contains o
  else
    let w := collWidth c
    (List.range (c.n / max w 1)).flatMap fun e =>
      if c.written.contains (e * w) then []
      else match (List.range members).mapM fun k => c.elem? k (e * w) w with
        | some xs => (leBytes (reduceElem c.op c.type xs) w).zipIdx.map fun (b, i) => (e * w + i, b)
        | none => []

/-- A fault of a collective at its issuer, if the request lives (R379). -/
def State.collOwner (s : State) (c : Coll) : Bool :=
  (s.getCore c.core).bnd.jetton == c.jetton && (s.getCore c.core).bnd.firstRun ≤ c.run
    && ((s.jetton c.jetton).group.isSome)

/-- The request that issued a collective ends without replay (R379). -/
def State.collEnds (s : State) (c : Coll) (cause : Cause) (addr : Nat) : State :=
  let own := s.collOwner c
  let s := (s.accessGone c.id).dropColl c.id
  if !own then s
  else
    let f : FaultRec := ⟨cause, c.pc, BitVec.ofNat 64 addr, finfo 0 6 true 0 (s.tb - c.issue)⟩
    if cause.violation then s.deferFault c.core cause (BitVec.ofNat 64 addr) 6 0 c.pc c.issue
    else s.endRequest c.jetton s.tb cause.code f

/-- Runs of consecutive offsets. -/
def joinBytes : List (Nat × Byte) → List (Nat × List Byte)
  | [] => []
  | (o, b) :: r =>
    match joinBytes r with
    | (p, bs) :: l => if p == o + 1 then (o, b :: bs) :: l else (o, [b]) :: (p, bs) :: l
    | [] => [(o, [b])]

/-- Write the bytes that have come to their places; those of a page without a translation wait for its service. -/
def State.writeColl (s : State) (id : Nat) (runs : List (Nat × List Byte)) : State :=
  match runs with
  | [] => s
  | (o, bs) :: r =>
    match s.coll? id with
    | none => s
    | some c =>
      match s.ioWrite c.world (some c.group) (c.dst.toNat + o) bs with
      | .ok t =>
        (t.modColl id fun c => { c with written := c.written ++ (List.range bs.length).map (o + ·) }).writeColl id r
      | .error (.xlate va, t) =>
        let t := t.modColl id fun c => { c with
          parked := true, late := c.late ++ (bs.zipIdx.map fun (b, i) => (o + i, b))
          written := c.written ++ (List.range bs.length).map (o + ·) }
        (t.reportXlate c.world (BitVec.ofNat 64 va) (.collective id)).writeColl id r
      | .error (e, t) => t.collEnds c e.cause.1 e.cause.2

/-- Bytes of a page each: a run is written page by page. -/
def pageRuns (base : Nat) (l : List (Nat × Byte)) : List (Nat × List Byte) :=
  (joinBytes l).flatMap fun (o, bs) =>
    (List.range (pagesOf (base + o) bs.length)).map fun k =>
      let a := if k == 0 then base + o else ((base + o) / 4096 + k) * 4096
      let e := min (base + o + bs.length) ((a / 4096 + 1) * 4096)
      (a - base, (bs.drop (a - (base + o))).take (e - a))

/-- Every destination byte is written and every source byte read: the collective completes here (R380). -/
def State.collComplete? (s : State) (c : Coll) : Bool :=
  c.kind == .data && c.started && c.done.isNone && c.late.isEmpty && (match s.comm? c.key.comm with
    | some m => c.written.length == dstBytes c.opcode m.n c.n
    | none => false)

/-- The first collective that completes now. -/
def State.collCompleteDue (s : State) : Option Key := (s.eng.colls.find? fun c => s.collComplete? c).map (·.key)

/-- COLLECTIVE_COMPLETE. -/
def execCollectiveComplete (key : Key) (s : State) : Result :=
  .next (match s.collOf key with
    | some c => if s.collComplete? c then s.finishColl c 0 else s
    | none => s)

/-- Write what has come. -/
def State.advanceColl (s : State) (id : Nat) : State :=
  match s.coll? id with
  | none => s
  | some c =>
    match s.comm? c.key.comm with
    | none => s
    | some m => s.writeColl id (pageRuns c.dst.toNat (sortBy (fun (e : Nat × Byte) => e.1) (c.ready m.n)))

/-- COLLECTIVE_DATA_ARRIVAL: bytes of a rank's contribution to this package arrive. Bytes that come before this package has
started the collective wait for it. -/
def execCollectiveDataArrival (key : Key) (rank off : Nat) (data : List Byte) (s : State) : Result :=
  .next (match s.collOf key with
    | some c =>
      if c.kind != .data || c.done.isSome then s
      else
        let new := (data.zipIdx.map fun (b, i) => (rank, off + i, b)).filter fun (r, o, _) => (c.byte? r o).isNone && o < c.n
        let s := s.modColl c.id fun c => { c with data := c.data ++ new }
        if c.started then s.advanceColl c.id else s
    | none => s)

/-! ### A member's messages and starts (R375) -/

/-- COLLECTIVE_ENGINE_ENTRY: a collective or a fabric request reaches the engine in its cycle. -/
def execCollectiveEngineEntry (id : Nat) (s : State) : Result :=
  .next (match s.coll? id with
    | none => s
    | some c =>
      if !c.queued || c.saved || s.tb < c.time then s
      else
        match c.kind with
        | .data | .barrier =>
          let known := match s.holder c.key with
            | some h => if h.kind == .seq then h.number else none
            | none => none
          let s := s.modEng fun e => { e with colls := e.colls.filter fun x => !(x.key == c.key && x.kind == .seq && !x.queued) }
          let c := { c with queued := false, number := known }
          let s := (s.modColl id fun _ => c).toBoard c.key.comm (.assign c.key)
          s.askOpen c
        | .seq =>
          match s.holder c.key with
          | some h =>
            let s := (s.dropColl id).toBoard c.key.comm (.assign c.key)
            (match h.number with
              | some n => s.answerAll 0 c.key (n.setWidth 64)
              | none => s)
          | none => (s.modColl id fun c => { c with queued := false }).toBoard c.key.comm (.assign c.key)
        | .cancel => (s.dropColl id).toBoard c.key.comm (.cancel c.key)
        | .wait =>
          let s := s.dropColl id
          match s.collOf c.key with
          | none => s.answerAll 3 c.key 2
          | some h => match h.done with
            | some (_, st) => s.answerAll 3 c.key (BitVec.ofNat 64 st)
            | none => s)

/-- The reply is not of an older epoch. -/
def State.current (s : State) (comm : BitVec 16) (epoch : Nat) : Bool := match s.comm? comm with
  | some c => c.epoch ≤ epoch
  | none => false

/-- The collectives at the engine that a number belongs to. -/
def State.collsAt (s : State) (comm : BitVec 16) (n : BitVec 32) : List Coll :=
  s.eng.colls.filter fun c => c.key.comm == comm && c.number == some n && c.pending && !c.queued

/-- NUMBER: every entry of the key learns its number, OPEN leaves for its collective, and XSEQ gets its answer. -/
def execNumber (epoch : Nat) (key : Key) (n : BitVec 32) (s : State) : Result :=
  .next (if !s.current key.comm epoch then s
    else
      let new (c : Coll) : Bool := c.key == key && c.number.isNone && !c.queued && (c.pending || (c.kind == .seq && c.done.isNone))
      let ids := (s.eng.colls.filter new).map (·.id)
      let s := s.modEng fun e => { e with colls := e.colls.map fun c => if new c then { c with number := some n } else c }
      let s := ids.foldl (fun (s : State) id => match s.coll? id with
        | some c => if c.pending then s.askOpen c else s
        | none => s) s
      s.answerAll 0 key (n.setWidth 64))

/-- OPENED. -/
def execOpened (epoch : Nat) (comm : BitVec 16) (n : BitVec 32) (s : State) : Result :=
  .next (if !s.current comm epoch then s
    else (s.collsAt comm n).foldl (fun (s : State) c => s.modColl c.id fun c => { c with opened := true }) s)

/-- EMPTY: the local collective completes with status 1. -/
def execEmpty (epoch : Nat) (comm : BitVec 16) (n : BitVec 32) (s : State) : Result :=
  .next (if !s.current comm epoch then s
    else (s.collsAt comm n).foldl (fun (s : State) c => s.finishColl c 1) (s.skipNumber comm n))

/-- MISMATCH: the local collective completes with status 3, and none of its destination bytes is written. -/
def execMismatch (epoch : Nat) (comm : BitVec 16) (n : BitVec 32) (s : State) : Result :=
  .next (if !s.current comm epoch then s
    else (s.collsAt comm n).foldl (fun (s : State) c => s.finishColl c 3) (s.skipNumber comm n))

/-- ALLOPENED: a barrier completes; one that has not started holds no later number back. -/
def execAllopened (epoch : Nat) (comm : BitVec 16) (n : BitVec 32) (s : State) : Result :=
  .next (if !s.current comm epoch then s
    else ((s.collsAt comm n).filter fun c => c.kind == .barrier).foldl (fun (s : State) c =>
      (if c.started then s else s.skipNumber comm n).finishColl c 0) s)

/-- CANCELLED: XCAN's answer is 0, and an emptied local collective of the key completes with status 1. -/
def execCancelled (epoch : Nat) (key : Key) (n : BitVec 32) (s : State) : Result :=
  .next (if !s.current key.comm epoch then s
    else
      let s := s.skipNumber key.comm n
      let s := (s.eng.colls.filter fun c => c.key == key && c.kind == .seq && !c.queued).foldl (fun (s : State) c => s.dropColl c.id) s
      let s := match s.collOf key with
        | some c => if c.pending then s.finishColl { c with number := some n } 1 else s
        | none => s
      s.answerFirst 2 key 0)

/-- STARTED: XCAN's answer is 0x18. -/
def execStarted (epoch : Nat) (key : Key) (s : State) : Result :=
  .next (if !s.current key.comm epoch then s else s.answerFirst 2 key 0x18)

/-- The lowest number of a communicator that this package has neither started nor found empty or mismatched. -/
def Comm.skipOver (c : Comm) (fuel : Nat) : Comm :=
  match fuel with
  | 0 => c
  | fuel + 1 =>
    if c.skips.contains c.nextStart then
      ({ c with nextStart := c.nextStart + 1, skips := c.skips.filter (· != c.nextStart) } : Comm).skipOver fuel
    else c

/-- The collective that may start now: opened, and every number before it started, empty or mismatched. -/
def State.collStartDue (s : State) : Option (BitVec 16 × BitVec 32) :=
  s.eng.comms.findSome? fun c =>
    let n := (c.skipOver c.skips.length).nextStart
    if (s.collsAt c.comm n).any fun x => x.opened && !x.started && !x.parked then some (c.comm, n) else none

/-- The contribution of the source to rank `k` (Table 17.6). -/
def collPart (c : Coll) (src : List Byte) (k : Nat) : List Byte :=
  if c.opcode == 0x5E || c.opcode == 0x5F then (src.drop (k * c.n)).take c.n else src

/-- COLLECTIVE_START: the source is read and its data leaves for every other member; a barrier has none. A page of the source
without a translation parks the collective (R379). -/
def execCollectiveStart (comm : BitVec 16) (n : BitVec 32) (s : State) : Result :=
  .next (if s.collStartDue != some (comm, n) then s
    else
      match s.comm? comm, (s.collsAt comm n).find? fun x => x.opened && !x.started && !x.parked with
      | some m, some c =>
        let onward (s : State) : State :=
          (s.modComm comm fun m => { m.skipOver m.skips.length with nextStart := n + 1 }).modColl c.id fun c => { c with started := true }
        if c.kind == .barrier then onward s
        else
          match s.ioRead c.world c.src.toNat (srcBytes c.opcode m.n c.n) with
          | .ok (bs, s) =>
            let own := (collPart c bs m.rank).zipIdx.map fun (b, i) => (m.rank, i, b)
            let s := (onward s).modColl c.id fun c => { c with data := own ++ c.data.filter fun (r, _, _) => r != m.rank }
            let s := s.send ((m.members.zipIdx.filter fun (_, k) => k != m.rank).map fun (p, k) =>
              ⟨p, m.epoch, .data c.key m.rank (collPart c bs k)⟩)
            s.advanceColl c.id
          | .error (.xlate va, s) => (s.modColl c.id fun c => { c with parked := true }).reportXlate c.world (BitVec.ofNat 64 va) (.collective c.id)
          | .error (e, s) => s.collEnds c e.cause.1 e.cause.2
      | _, _ => s)

/-- The scheduler's answer to a parked collective (R379, R290). -/
def State.releaseColl (s : State) (id : Nat) (mapped : Bool) : State :=
  match s.coll? id with
  | none => s
  | some c =>
    if !mapped then s.collEnds c .capperm c.dst.toNat
    else
      let late := c.late
      let s := s.modColl id fun c => { c with
        parked := false, late := [], written := c.written.filter fun o => !(late.any fun (p, _) => p == o) }
      if c.started then s.writeColl id (pageRuns c.dst.toNat (sortBy (fun (e : Nat × Byte) => e.1) late)) else s

/-- A member sends again every message that has no reply, and the OPEN of every barrier without its ALLOPENED (R374). -/
def State.resend (s : State) (comm : BitVec 16) : State :=
  let mine := s.eng.colls.filter fun c => c.key.comm == comm && !c.queued
  let s := mine.foldl (fun (s : State) c =>
    match c.number, c.done with
    | none, none => s.toBoard comm (.assign c.key)
    | some n, none => if c.kind == .seq || (c.opened && c.kind == .data) then s else s.toBoard comm (.openMsg comm n c.params)
    | some n, some (_, st) => if st == 1 then s else s.toBoard comm (.done comm n)
    | none, some _ => s) s
  s.live.foldl (fun (s : State) i => match (s.getCore i).iss.wait with
    | .fabric 2 _ k none => if k.comm == comm && (s.getCore i).iss.waitAt + 48 ≤ s.tb then s.toBoard comm (.cancel k) else s
    | _ => s) s

/-- EPOCH_ANNOUNCE: a newer epoch and its primary; a former primary stops answering, and the member sends its messages again. The
package of the new primary knows the epoch, and sends as the member it is when its own announcement reaches it (R374). -/
def execEpochAnnounce (comm : BitVec 16) (epoch primary : Nat) (s : State) : Result :=
  .next (match s.comm? comm with
    | none => s
    | some c =>
      if c.epoch < epoch then
        let s := s.modComm comm fun c => { c with epoch := epoch, prim := primary, sbv := false }
        let s := match s.board? comm with
          | some b => s.setBoard { b with answering := false }
          | none => s
        s.resend comm
      else if epoch == c.epoch && primary == c.prim && (match s.board? comm with | some b => b.answering | none => false) then s.resend comm
      else s)

/-! ### Collective commands (R376, R377) -/

/-- Step 2 of R377: the communicator of the task. -/
def State.commOk (s : State) (comm : Nat) : Bool :=
  comm < 4096 && (match s.comm? (BitVec.ofNat 16 comm) with
    | some c => c.world == s.myWorld
    | none => false)

/-- A fresh entry for the task in focus. -/
def State.newColl (s : State) (kind : CollKind) (key : Key) (time : Nat) (opcode : BitVec 8) : Coll where
  id := s.nextId
  key := key
  kind := kind
  core := s.cur
  run := s.core.iss.run
  start := s.core.bnd.startRun
  pc := BitVec.ofNat 12 s.core.iss.pc
  issue := s.tb
  time := time
  world := s.myWorld
  group := s.myGroup
  jetton := s.core.bnd.jetton
  card := 0
  opcode := opcode
  op := 0
  type := 0
  n := 0
  dst := 0
  src := 0
  queued := true
  saved := false
  place := 0
  number := none
  opened := false
  started := false
  parked := false
  done := none
  data := []
  written := []
  late := []

/-- An entry joins the engine queue; an older completed collective of the key gives way. -/
def State.enterColl (s : State) (c : Coll) : State :=
  let own (k : CollKind) : Bool := k == .data || k == .barrier
  { s with nextId := s.nextId + 1 }.modEng fun e => { e with
    colls := (e.colls.filter fun (x : Coll) => !(own c.kind && own x.kind && x.key == c.key && x.done.isSome)) ++ [c] }

/-- The collective of an earlier run of the same start that a command with this key attaches to (R381). -/
def State.attached (s : State) (k : Key) : Option Coll :=
  match s.collOf k with
  | some c =>
    if c.core == s.cur && c.jetton == s.core.bnd.jetton && c.start == s.core.bnd.startRun
        && (c.done.isNone || c.run < s.core.iss.run) then some c else none
  | none => none

/-- The collective that a re-executed instruction attaches to goes on for this run; otherwise a new one enters. -/
def State.attachOr (s : State) (old : Option Coll) (new : Coll) : State :=
  match old with
  | some c => s.modColl c.id fun c => { c with run := s.core.iss.run }
  | none => s.enterColl new

/-- A collective command. -/
def State.collective (s : State) (opcode : BitVec 8) (a b : CReg) (len card : SReg) (t : TimeArg) : State :=
  let j := card.toNat
  let cd := s.sreg card
  let n := (s.sreg len).toNat
  let op := cd.extractLsb' 44 4
  let type := cd.extractLsb' 40 4
  let comm := natBits cd.toNat 48 16
  let key : Key := ⟨BitVec.ofNat 16 comm, ((s.core.ctl.s.toList[j + 1]?).getD 0).setWidth 32⟩
  let move := opcode == 0x5D || opcode == 0x5F
  let typeOk := type == 4 || type == 5 || type == 3 || (type == 0 && move)
  let w := if type == 5 then 2 else if type == 0 then 1 else 4
  let time := s.timeOf t
  if s.core.fw.isSome || j == 31 || natBits cd.toNat 0 40 != 0 || 2 < op.toNat || (move && op != 0) || !typeOk
      || n == 0 || 2 ^ 30 ≤ n || n % w != 0 then s.ctlFault .ill 0
  else if !s.commOk comm then s.ctlFault .capperm 0
  else
    let m := ((s.comm? key.comm).map (·.n)).getD 0
    let ca := s.creg a
    let cb := s.creg b
    let dn := dstBytes opcode m n
    let sn := srcBytes opcode m n
    let dst := ca.cur.toNat
    let src := cb.cur.toNat
    let world := s.myWorld
    match (ca.covers world permWrite [(dst, dn)]).orElse fun _ => cb.covers world permRead [(src, sn)] with
    | some (f, x) => s.ctlFault f (BitVec.ofNat 64 x)
    | none =>
      match (s.windowCause world true false dst dn).orElse fun _ => s.windowCause world false false src sn with
      | some x => s.ctlFault .capperm (BitVec.ofNat 64 x)
      | none =>
        let unit (x : Nat) : Nat := match placeOf (s.physOf world x) with
          | .slice _ .acc => 4
          | _ => w
        if dst % unit dst != 0 then s.ctlFault .align (BitVec.ofNat 64 dst)
        else if src % unit src != 0 then s.ctlFault .align (BitVec.ofNat 64 src)
        else
          let old := s.attached key
          if old.isNone && (match s.collOf key with | some c => c.done.isNone | none => false) then s.ctlFault .ill 0
          else if old.isNone && 2 ^ 20 ≤ s.outstanding then s.ctlFault .seqwin 0
          else if time < s.tb + 2 then s.ctlFault .slip 0 9
          else if 64 ≤ s.waitingCopies s.cur then s.ctlFault .slip 0 10
          else
            let drained := s.core.iss.drain.bind (·.d)
            let c := { s.newColl .data key time opcode with
              card := cd, op := op, type := type, n := n, dst := ca.cur, src := cb.cur, saved := drained.isSome
              time := match drained with
                | some d => time - d
                | none => time }
            (s.attachOr old c).advance 1

def execXar (a b : CReg) (len card : SReg) (t : TimeArg) (s : State) : Result := .next (s.collective 0x5C a b len card t)
def execXag (a b : CReg) (len card : SReg) (t : TimeArg) (s : State) : Result := .next (s.collective 0x5D a b len card t)
def execXrs (a b : CReg) (len card : SReg) (t : TimeArg) (s : State) : Result := .next (s.collective 0x5E a b len card t)
def execXata (a b : CReg) (len card : SReg) (t : TimeArg) (s : State) : Result := .next (s.collective 0x5F a b len card t)

/-! ### Fabric control group (R382) -/

/-- The key of a group word, or the fault of its checks. -/
def State.fabricKey (s : State) (a b : SReg) : Except Cause Key :=
  if s.core.fw.isSome || natBits (s.sreg a).toNat 16 48 != 0 then .error .ill
  else if !s.commOk (natBits (s.sreg a).toNat 0 16) then .error .capperm
  else .ok ⟨(s.sreg a).setWidth 16, (s.sreg b).setWidth 32⟩

/-- XSEQ, XCAN and XWAIT: a request that reaches the engine in t + 48, and the wait. -/
def State.fabricWait (s : State) (fn : Nat) (kind : CollKind) (d a b : SReg) : Result :=
  s.waitWord fun s => match s.fabricKey a b with
  | .error c => s.ctlFault c 0
  | .ok k => (s.enterColl (s.newColl kind k (s.tb + 48) 0x5B)).await (.fabric fn d k none)

def execXseq (d a b : SReg) (s : State) : Result := s.fabricWait 0 .seq d a b
def execXcan (d a b : SReg) (s : State) : Result := s.fabricWait 2 .cancel d a b
def execXwait (d a b : SReg) (s : State) : Result := s.fabricWait 3 .wait d a b

/-- XBAR is not a wait. Where a collective of the key stands, it joins that one. -/
def execXbar (a b : SReg) (s : State) : Result :=
  .next (match s.fabricKey a b with
    | .error c => s.ctlFault c 0
    | .ok k =>
      match s.attached k, s.collOf k with
      | some c, _ => (s.modColl c.id fun c => { c with run := s.core.iss.run }).advance 1
      | none, some c => if c.done.isNone then s.advance 1 else (s.enterColl { s.newColl .barrier k (s.tb + 48) 0x5B with op := 1 }).advance 1
      | none, none => (s.enterColl { s.newColl .barrier k (s.tb + 48) 0x5B with op := 1 }).advance 1)

/-- The fabric wait of core `i` completes in this cycle. -/
def State.fabricDone (s : State) (i : Nat) : Bool := match (s.getCore i).iss.wait with
  | .fabric _ _ _ (some (c, _)) => c ≤ s.tb
  | _ => false

/-- FABRIC_WAIT_COMPLETE: sD is written at the end of this cycle and the anchor moves here. -/
def execFabricWaitComplete (core : Nat) (s : State) : Result :=
  let home := s.cur
  let s' := s.focus core
  .next (match s'.core.iss.wait with
    | .fabric _ d _ (some (c, v)) =>
      if c ≤ s.tb then
        ((s'.modIss fun x => { x with pend := x.pend ++ [⟨s.tb, .s d v, none, s.tb⟩] }).completeWait).focus home
      else s
    | _ => s)

end Sys2Proof.Machine
end

