-- ==== Sys2Proof/Machine/Partition.lean ====
section
/-!
DEFINITION. Function-level reset (R352 to R354) and the partition commands (R390 to R396), with the resource catalogue
(R389).
-/
namespace Sys2Proof.Machine

open Sys2Proof

/-! ### Function-level reset (Table 15.10) -/

/-- The jettons of a world that are not FREE. -/
def State.jettonsOf (s : State) (w : Nat) : List Nat :=
  s.disp.jettons.filterMap fun (j, x) => if x.world == w && x.state != .free then some j else none

/-- The world that a home operation acts for. -/
def HomeOp.actsFor (h : HomeOp) : Nat := h.world

/-- Step 2: every master of the world freezes without draining. What its engines have sent on its way lands; nothing
further is read, acts or answers. -/
def State.freezeWorld (s : State) (w : Nat) : State :=
  let s := (s.jettonsOf w).foldl (fun (s : State) j =>
    let cores := s.heldCores j
    let s := s.breakDomains j
    let s := cores.foldl (fun (s : State) i => (s.endRun i .frozen).modDisp (·.unstart i s.tb)) s
    s.modJetton j fun x => { x with ended := [], preempt := false, evictReq := none, evictAt := none, sems := [] }) s
  let gone := (s.eng.colls.filter fun c => c.world == w).map (·.id)
    ++ (s.eng.homes.filter fun h => h.actsFor == w && !h.acted).map (·.id)
    ++ (s.eng.pcmds.filter fun p => p.world == w && p.act.isNone).map (·.id)
  let s := gone.foldl (fun (s : State) id => s.accessGone id) s
  let s := s.modEng fun e => { e with
    colls := e.colls.filter fun c => c.world != w
    homes := e.homes.filter fun h => h.actsFor != w || h.acted
    pcmds := e.pcmds.filter fun p => p.world != w || p.act.isSome
    copies := e.copies.map fun c => if c.world == w && c.state != .landed then { c with state := .cancelled } else c
    queues := e.queues.map fun (k, q) => if q.world == w && q.held then (k, { q with state := 4, entry := none, holdXlate := false, irqs := [] }) else (k, q) }
  let s := s.modDisp fun d => { d with
    xlates := d.xlates.filter fun x => x.world != w
    scans := d.scans }
  { s with funcs := s.funcs.map fun (f : Func) => if f.world == w then { f with frozen := true } else f }

/-- Step 3: no translation of the world is held, and no root capability. -/
def State.invalidateWorld (s : State) (w : Nat) : State :=
  let s := s.modWorld w fun x => { x with ranges := Vector.replicate 16 0, ptroot := 0 }
  let s := s.modDisp fun d => { d with tlb := d.tlb.filter fun (v, _, _) => v != w }
  (s.jettonsOf w).foldl (fun (s : State) j => s.modJetton j fun x => { x with root := .null, rtag := false }) s

/-- Step 4: no line verifies under the world's keys any more. -/
def State.eraseKeys (s : State) (w : Nat) : State := s.modMem fun m => { m with lines := m.lines.filter fun (_, l) => l.world != w }

/-- The world's key-store slot is cleared: what it keys from then on is another free value (R353). -/
def State.clearKeySlot (s : State) (w : Nat) : State :=
  { s with nextId := s.nextId + 1 }.modWorld w fun x => { x with keyed := false, keyGen := s.nextId }

/-- The cores last bound to a world whose memories it may still fill, an evicted core under its scrub among them. -/
def State.coresLast (s : State) (w : Nat) : List Nat :=
  s.live.filter fun i =>
    let c := s.getCore i
    i < 2048 && (c.owner == some w || ((c.iss.status != .free || c.owner == some noWorld) && c.sys.world.toNat == w))

/-- A core last bound to the world whose scan has not left DRAIN, RUN or SCRUB: step 5 awaits it (R359). -/
def State.scanAwaited (s : State) (w : Nat) : Bool :=
  s.disp.scans.any fun (i, x) =>
    let c := s.getCore i
    2 ≤ x.state.toNat && x.state.toNat ≤ 4 && c.bnd.firstRun != 0 && c.sys.world.toNat == w

/-- Step 5 begins: the sequencers of the world's cores start steps 1 to 5 of R353. -/
def State.startScrub (s : State) (w : Nat) : State :=
  (s.coresLast w).foldl (fun (s : State) i => s.modCore i fun c => { c with scrubEnd := some (s.tb + scrubTime c.shared - 1) }) s

/-- Cycles of the longest of those scrubs. -/
def State.scrubSpan (s : State) (w : Nat) : Nat :=
  (s.coresLast w).foldl (fun n i => max n (scrubTime (s.getCore i).shared)) 1

/-- The derived state of a world with CONF = 1 (R354). A cached bucket goes where every way in it is the world's; in one that
it shares, its own ways go with step 6. -/
def State.scrubDerived (s : State) (w : Nat) : State :=
  let s := (s.coresLast w).foldl (fun (s : State) i => s.modCore i fun c => { c with
    vec := { c.vec with dq := [], qrd := 0, qwr := 0 }
    sys := { c.sys with fcause := 0, fpc := 0, faddr := 0, finfo := 0 } }) s
  let only (b : Nat) : Bool :=
    let ws := s.eng.ways.filter fun x => x.bucket == b
    !ws.isEmpty && ws.all fun x => x.world == w
  let s := s.modEng fun e => { e with
    cached := e.cached.filter fun (k, o) => o != some w && !(o.isNone && only k)
    copies := e.copies.filter fun c => c.world != w
    prefixes := e.prefixes.map fun p => if p.world == w then { p with prefetch := [], pfdrop := 0 } else p }
  s.modDisp fun d => { d with tlb := d.tlb.filter fun (v, _, _) => v != w }

/-- The end of step 5: the derived state where CONF = 1, then the key-store slot (R353, R354). -/
def State.endScrub (s : State) (w : Nat) : State :=
  (if ((s.world? w).map (·.conf)).getD false then s.scrubDerived w else s).clearKeySlot w

/-- Step 6: everything the world held goes back to its pool, and its jettons are FREE. Its ways leave the index in this cycle
(notes/assumptions/110.md). -/
def State.returnWorld (s : State) (w : Nat) : State :=
  let maps := ((s.prefix_ w).weights).map (·.2)
  let s := s.modEng fun e => { e with
    prefixes := e.prefixes.filter (·.world != w)
    ways := e.ways.filter (·.world != w)
    segments := e.segments.map fun g => { g with maps := g.maps - (maps.filter (· == g.digest)).length }
    copies := e.copies.filter (·.world != w)
    lands := e.lands.filter fun l => e.copies.any fun c => c.id == l.copy && c.world != w
    homes := e.homes.filter (·.actsFor != w)
    pcmds := e.pcmds.filter (·.world != w)
    queues := e.queues.map fun (k, q) => if q.world == w && q.held then (k, { CmdQueue.reset with held := true, world := w }) else (k, q) }
  let s := (s.coresLast w).foldl (fun (s : State) i =>
    (s.modCore i fun c => { c with
      iss := { Core.reset.iss with status := .free, run := c.iss.run }, owner := none, scrubEnd := none }).modDisp (·.leave (s.getCore i).bnd.jetton i)) s
  let s := (s.jettonsOf w).foldl (fun (s : State) j =>
    s.setJetton j { Jetton.reset with world := w, held := (s.jetton j).held }) s
  let s := s.modWorld w fun x => { x with frames := [], stopped := false, flr := none }
  ({ s with funcs := s.funcs.map fun (f : Func) => if f.world == w then { f with frozen := false } else f }).say (.flrDone w)

/-! ### The command mailbox and its responses (R390, R391) -/

def putBytes (old : List Byte) (off : Nat) (new : List Byte) : List Byte := old.take off ++ new ++ old.drop (off + new.length)

/-- The response of a command, with vector 0 of the function where it is enabled. -/
def State.respond (s : State) (p : PCmd) (status : Nat) (result : Nat) : State :=
  let bs := putBytes (putBytes (putBytes (List.replicate 64 0) 0 (leBytes p.tag.toNat 2)) 2 (leBytes status 2)) 8 (leBytes result 8)
  let on := s.funcs.any fun f => f.fn == p.fn && f.vectors.contains 0
  let s := ({ s with mon := { s.mon with commands := true }, funcs := s.funcs.map fun (f : Func) => if f.fn == p.fn then { f with response := some bs, held := false } else f }).say
    (.response p.fn bs)
  if on then
    match s.funcs.find? (·.fn == p.fn) with
    | some f => s.say (.msix f.world 0)
    | none => s
  else s

/-- The status codes of Table 19.4. -/
def stExists : Nat := 1
def stNoWorld : Nat := 2
def stNoRes : Nat := 3
def stBusy : Nat := 4
def stBadArg : Nat := 5
def stLimit : Nat := 6
def stDenied : Nat := 7

/-- The world a command names: a VF's own (R391). -/
def State.cmdWorld (s : State) (p : PCmd) : Nat :=
  if p.fn == 0 then p.world.toNat else ((s.funcs.find? (·.fn == p.fn)).map (·.world)).getD 65535

/-- A command of the PF on a world that exists, or the status that refuses it. -/
def State.pfWorld (s : State) (p : PCmd) : Except Nat World :=
  if p.fn != 0 then .error stDenied
  else
    match s.world? p.world.toNat with
    | some w => .ok w
    | none => .error stNoWorld

/-- A command of any function on its world. -/
def State.anyWorld (s : State) (p : PCmd) : Except Nat World :=
  match s.world? (s.cmdWorld p) with
  | some w => .ok w
  | none => .error stNoWorld

/-! ### Resources -/

/-- The items of a kind: TOTAL, PMAX (Table 19.3). -/
def kindTotal (k : Nat) : Nat :=
  if k == 1 || k == 2 then 1024 else if k == 3 || k == 0x0B then 16384 else if k == 4 then 507904 else if k == 5 then 896
  else if k == 6 then 992 else if k == 7 then 2048 else if k == 8 then 4096 else if k == 9 then 65536 else if k == 0x0A then 255 else 0
def kindMax (k : Nat) : Nat := if k == 0x0A then 1 else kindTotal k

/-- Set bits of a mask. -/
def maskCount (m : BitVec 1024) : Nat := ((List.range 1024).filter fun k => m.getLsbD k).length

/-- Slots that a world owns, masks still to take effect included. -/
def World.slots (w : World) (fabric : Bool) : BitVec 1024 :=
  let now := (if fabric then w.fabricSlots else w.hbmSlots).toList.foldl (· ||| ·) 0
  (w.newSlots.filter fun (_, f, _, _) => f == fabric).foldl (fun m (_, _, _, x) => m ||| x) now

/-- Items of a list of (item, world) that a world holds. -/
def heldBy {α : Type} (l : List (α × Nat)) (w : Nat) : Nat := (l.filter fun (_, v) => v == w).length

/-- Granules of a kind that a world holds. -/
def State.amount (s : State) (w : World) (kind : Nat) : Nat :=
  let id := w.wid
  if kind == 1 then w.capPrompt else if kind == 2 then w.capToken
  else if kind == 3 then (s.disp.jettons.filter fun (_, x) => x.held && x.world == id).length
  else if kind == 4 then w.frames.length
  else if kind == 5 then max w.slotAmount (maskCount (w.slots false))
  else if kind == 6 then maskCount (w.slots true)
  else if kind == 7 then (s.eng.queues.filter fun (_, q) => q.held && q.world == id).length
  else if kind == 8 then heldBy s.commsHeld id
  else if kind == 9 then heldBy s.handlesHeld id
  else if kind == 0x0A then (s.funcs.filter fun f => f.fn != 0 && f.world == id).length
  else if kind == 0x0B then heldBy s.qpHeld id
  else 0

/-- What the worlds that pass a test hold of a kind. -/
def State.heldAmount (s : State) (kind : Nat) (own : Nat → Bool) : Nat :=
  (s.worlds.filter fun w => own w.wid).foldl (fun n w => n + s.amount w kind) 0

/-- The granules kept by firmware and the host world: what they hold, and the HBM that weight segments occupy. They have no
cap on cores (notes/assumptions/2.md), so none is kept for them. -/
def State.reserved (s : State) (kind : Nat) : Nat :=
  if kind == 1 || kind == 2 then 0
  else (if kind == 4 then (s.eng.segments.filter fun g => g.frame.isSome).length else 0) + s.heldAmount kind (256 ≤ ·)

/-- FREE: granules that no world holds; cores out of the map are not free (R389). -/
def State.freeAmount (s : State) (kind : Nat) : Nat :=
  let present := if kind == 1 then maskCount s.disp.mapPrompt else if kind == 2 then maskCount s.disp.mapToken else kindTotal kind
  present - s.reserved kind - s.heldAmount kind (· < 256)

/-- The catalogue's entries (R389, Tables 19.2, 19.3). -/
def State.entries (s : State) : List Byte :=
  let entry (k : Nat) : List Byte :=
    let unit := if k == 4 then 1 else if k == 5 || k == 6 then 2 else 0
    let total := if k == 4 then 1065151889408 else kindTotal k
    let gran := if k == 4 then 2097152 else 1
    leBytes (k * 2 ^ 240 + unit * 2 ^ 232 + total * 2 ^ 160 + gran * 2 ^ 128 + kindMax k * 2 ^ 96 + s.freeAmount k * 2 ^ 64
      + s.reserved k * 2 ^ 32) 32
  (List.range 11).flatMap fun i => entry (i + 1)

/-- The catalogue's bytes: the header with GEN, and the entries. -/
def State.catalogue (s : State) : List Byte :=
  putBytes (putBytes (List.replicate 64 0) 0 [0x41, 0x43, 1, 11]) 8 (leBytes s.mon.genCounter 8) ++ s.entries

/-- What a command makes of `s`, with GEN raised where an entry changes (R389). -/
def State.counted (s t : State) : State :=
  if t.entries == s.entries then t else { t with mon := { t.mon with genCounter := t.mon.genCounter + 1 } }

/-- Complete a command: its effect and a result, or its status; `gen` where its effect is on what entries count. -/
def State.answer (s : State) (p : PCmd) (r : Except Nat (State × Nat)) (gen : Bool) : State :=
  match r with
  | .error e => s.respond p e 0
  | .ok (t, v) => (if gen then s.counted t else t).respond p 0 v

/-! ### CREATE, DESTROY, GRANT, REVOKE -/

/-- CREATE: a zeroed context with its classes, and a fresh key in slot w. -/
def execCreate (p : PCmd) (s : State) : Result :=
  let w := p.world.toNat
  let r : Except Nat (State × Nat) :=
    if p.fn != 0 then .error stDenied
    else if 257 < w || 32 ≤ p.a.toNat || p.b != 0 || p.c != 0 || p.kind != 0 then .error stBadArg
    else if (s.world? w).isSome then .error stExists
    else
      let sm := p.a.extractLsb' 2 3
      let x := { World.reset w with
        conf := p.a.getLsbD 0, dbgen := p.a.getLsbD 1, scopemax := if 5 < sm.toNat then 5 else sm
        keyGen := s.nextId, keyed := true, capPrompt := 0, capToken := 0 }
      .ok ({ s with worlds := sortBy (fun (y : World) => y.wid) (s.worlds ++ [x]), nextId := s.nextId + 1 }, 0)
  .next (s.answer p r false)

/-- The tail of DESTROY: every grant returned and the context cleared. -/
def State.dropWorld (s : State) (w : Nat) : State :=
  let comms := (s.commsHeld.filter fun (_, v) => v == w).map (·.1)
  let handles := (s.handlesHeld.filter fun (_, v) => v == w).map (·.1)
  let s := s.modEng fun e => { e with
    queues := e.queues.filter fun (_, q) => q.world != w
    comms := e.comms.filter fun c => !comms.contains c.comm
    boards := e.boards.filter fun b => !comms.contains b.comm }
  let s := s.modDisp fun d => { d with
    jettons := d.jettons.filter fun (_, x) => x.world != w
    handles := d.handles.filter fun h => !handles.contains h.tth }
  { s with
    commsHeld := s.commsHeld.filter fun (_, v) => v != w
    handlesHeld := s.handlesHeld.filter fun (_, v) => v != w
    qpairs := s.qpairs.filter fun (_, q) => q.world != w
    qpHeld := s.qpHeld.filter fun (_, v) => v != w
    funcs := s.funcs.filter fun f => f.fn == 0 || f.world != w
    worlds := s.worlds.filter fun x => x.wid != w }

/-- The next step of a world's FLR, in its cycle (Table 15.10); 6 is the end of step 5, which comes when the last sequencer has
reported, and 7 is step 6 (notes/assumptions/61.md). -/
def State.flrStep (s : State) (w k : Nat) : State :=
  let go (s : State) (n d : Nat) : State := s.modWorld w fun x => { x with flr := some (n, s.tb + d) }
  match k with
  | 1 =>
    let s := (s.jettonsOf w).foldl (fun (s : State) j => s.modJetton j fun x => { x with state := .stopped }) s
    go (s.modWorld w fun x => { x with stopped := true }) 2 1
  | 2 => go (s.freezeWorld w) 3 1
  | 3 => go (s.invalidateWorld w) 4 1
  | 4 => go (s.eraseKeys w) 5 1
  | 5 => go (s.startScrub w) 6 (s.scrubSpan w)
  | 6 => if s.scanAwaited w then go s 6 1 else go (s.endScrub w) 7 1
  | _ =>
    let t := s.returnWorld w
    match (t.world? w).bind (·.destroy) with
    | some p => s.answer p (.ok (t.dropWorld w, 0)) true
    | none => t

/-- FLR: of the function of a world, or the next step of one in progress. -/
def execFlr (world : Nat) (s : State) : Result :=
  .next (match s.world? world with
    | none => s
    | some w => match w.flr with
      | none => s.flrStep world 1
      | some (k, c) => if c == s.tb then s.flrStep world k else s)

/-- The FLR steps that fall in this cycle. -/
def State.flrAll (s : State) : State :=
  s.worlds.foldl (fun (s : State) w => match w.flr with
    | some (k, c) => if c == s.tb then s.flrStep w.wid k else s
    | none => s) s

/-- DESTROY: answered when the FLR order is done. -/
def execDestroy (p : PCmd) (s : State) : Result :=
  .next (match s.pfWorld p with
    | .error e => s.respond p e 0
    | .ok w =>
      if 256 ≤ w.wid || p.a != 0 || p.b != 0 || p.c != 0 || p.kind != 0 then s.respond p stBadArg 0
      else
        let s := s.modWorld w.wid fun x => { x with destroy := some p }
        if w.flr.isSome then s else s.flrStep w.wid 1)

/-- Item `i` of a kind is held by a world. -/
def State.itemWorld (s : State) (kind i : Nat) : Option Nat :=
  if kind == 3 then (let x := s.jetton i; if x.held then some x.world else none)
  else if kind == 7 then
    match getKey s.eng.queues i with
    | some q => if q.held then some q.world else none
    | none => none
  else if kind == 8 then (s.commsHeld.find? fun (c, _) => c.toNat == i).map (·.2)
  else if kind == 9 then (s.handlesHeld.find? fun (h, _) => h.toNat == i).map (·.2)
  else if kind == 0x0A then (s.funcs.find? fun f => f.fn == i).map (·.world)
  else if kind == 0x0B then (s.qpHeld.find? fun (q, _) => q == i).map (·.2)
  else none

/-- Items of a kind that can be granted: the lowest and the first past the highest. -/
def itemRange (kind : Nat) : Option (Nat × Nat) :=
  if kind == 3 || kind == 7 || kind == 8 || kind == 9 || kind == 0x0B then some (0, kindTotal kind)
  else if kind == 0x0A then some (1, 256)
  else none

/-- One item passes to a world. -/
def State.giveItem (s : State) (w kind i : Nat) : State :=
  if kind == 3 then s.setJetton i { Jetton.reset with world := w, held := true, state := .idle }
  else if kind == 7 then s.modEng fun e => { e with queues := setKey e.queues i { CmdQueue.reset with world := w, held := true } }
  else if kind == 8 then { s with commsHeld := s.commsHeld ++ [(BitVec.ofNat 16 i, w)] }
  else if kind == 9 then { s with handlesHeld := s.handlesHeld ++ [(BitVec.ofNat 16 i, w)] }
  else if kind == 0x0A then
    { s with funcs := sortBy (fun (f : Func) => f.fn) (s.funcs ++ [⟨i, w, none, List.replicate 64 0, false, [], false, none⟩]) }
  else { s with qpHeld := s.qpHeld ++ [(i, w)] }

/-- GRANT. -/
def execGrant (p : PCmd) (s : State) : Result :=
  let kind := p.kind.toNat
  let r : Except Nat (State × Nat) :=
    match s.pfWorld p with
    | .error e => .error e
    | .ok w =>
      match itemRange kind with
      | none => .error stBadArg
      | some (lo, hi) =>
        let items := (List.range (min p.b.toNat 65537)).map (p.a.toNat + ·)
        if p.a.toNat < lo || hi < p.a.toNat + p.b.toNat || p.b == 0 || p.c != 0 then .error stBadArg
        else if items.any fun i => (s.itemWorld kind i).isSome then .error stExists
        else if kindMax kind < s.amount w kind + p.b.toNat then .error stLimit
        else .ok (items.foldl (fun (s : State) i => s.giveItem w.wid kind i) s, 0)
  .next (s.answer p r true)

/-- One item returns. -/
def State.takeItem (s : State) (kind i : Nat) : State :=
  if kind == 3 then s.modDisp fun d => { d with jettons := delKey d.jettons i }
  else if kind == 7 then s.modEng fun e => { e with queues := delKey e.queues i }
  else if kind == 8 then
    { s with commsHeld := s.commsHeld.filter fun (c, _) => c.toNat != i }.modEng fun e => { e with
      comms := e.comms.filter fun c => c.comm.toNat != i, boards := e.boards.filter fun b => b.comm.toNat != i }
  else if kind == 9 then
    { s with handlesHeld := s.handlesHeld.filter fun (h, _) => h.toNat != i }.modDisp fun d => { d with
      handles := d.handles.filter fun h => h.tth.toNat != i }
  else if kind == 0x0A then { s with funcs := s.funcs.filter fun f => f.fn != i }
  else { s with qpHeld := s.qpHeld.filter fun (q, _) => q != i, qpairs := delKey s.qpairs i }

/-- An item that REVOKE finds in use. -/
def State.itemBusy (s : State) (kind i : Nat) : Bool :=
  if kind == 3 then (let st := (s.jetton i).state; !(st == .free || st == .idle))
  else if kind == 7 then ((getKey s.eng.queues i).map (·.qen)).getD false
  else if kind == 8 then s.eng.colls.any fun c => c.key.comm.toNat == i && (c.pending || (c.kind == .seq && c.done.isNone))
  else false

/-- REVOKE. -/
def execRevoke (p : PCmd) (s : State) : Result :=
  let kind := p.kind.toNat
  let r : Except Nat (State × Nat) :=
    match s.pfWorld p with
    | .error e => .error e
    | .ok w =>
      match itemRange kind with
      | none => .error stBadArg
      | some (lo, hi) =>
        let items := (List.range (min p.b.toNat 65537)).map (p.a.toNat + ·)
        if p.a.toNat < lo || hi < p.a.toNat + p.b.toNat || p.b == 0 || p.c != 0 then .error stBadArg
        else if items.any fun i => s.itemWorld kind i != some w.wid then .error stBadArg
        else if items.any fun i => s.itemBusy kind i then .error stBusy
        else .ok (items.foldl (fun (s : State) i => s.takeItem kind i) s, 0)
  .next (s.answer p r true)

/-! ### RESIZE (R393) -/

/-- The lowest-numbered frames that nobody holds. -/
def State.lowFrames (s : State) (n : Nat) (used acc : List Nat) : Option (List Nat) :=
  match n with
  | 0 => some acc
  | n + 1 =>
    match firstFrame used 0 (used.length + 1) with
    | none => none
    | some f => s.lowFrames n (f :: used) (acc ++ [f])

/-- A byte range of HBM lies in a world's frames. -/
def inFrames (frames : List Nat) (pa n : Nat) : Bool :=
  n == 0 || (List.range ((pa + n - 1) / 0x200000 - pa / 0x200000 + 1)).all fun k => frames.contains ((pa / 0x200000 + k) * 0x200000)

/-- The frame holds part of the world's prefix region. -/
def Prefix.uses (p : Prefix) (frame : Nat) : Bool :=
  let lo := p.slotPa 0
  p.quota != 0 && lo < frame + 0x200000 && frame < lo + 16384 * p.quota

/-- Released frames are scrubbed before they are free. -/
def State.releaseFrames (s : State) (w : Nat) (fs : List Nat) : State :=
  let inside (a : Nat) : Bool := fs.contains (a / 0x200000 * 0x200000)
  let s := s.modWorld w fun x => { x with frames := x.frames.filter fun f => !fs.contains f }
  s.modMem fun m => { m with
    bytes := m.bytes.filter fun (a, _) => !inside a
    lines := m.lines.filter fun (a, _) => !inside a
    poison := m.poison.filter fun a => !inside a
    ue := m.ue.filter fun a => !inside a
    captags := m.captags.filter fun a => !inside a
    seqtags := m.seqtags.filter fun (a, _) => !inside a }

/-- RESIZE: the list at B is the frames a downward change of HBM names; its length and the amount A agree in one of the two
ways R393 and Table 19.5 can be read (notes/assumptions/40.md). -/
def execResize (p : PCmd) (frames : List W64) (s : State) : Result :=
  let kind := p.kind.toNat
  let a := p.a.toNat
  let fs := frames.map (·.toNat)
  let r : Except Nat (State × Nat) :=
    match s.pfWorld p with
    | .error e => .error e
    | .ok w =>
      let room := s.freeAmount kind + s.amount w kind
      if p.c != 0 then .error stBadArg
      else if kind == 1 || kind == 2 then
        if 1024 < a then .error stLimit
        else if room < a then .error stNoRes
        else .ok (s.modWorld w.wid fun x => if kind == 1 then { x with capPrompt := a } else { x with capToken := a }, 0)
      else if kind == 5 then
        if 896 < a then .error stLimit
        else if room < a then .error stNoRes
        else if a < maskCount (w.slots false) then .error stBusy
        else .ok (s.modWorld w.wid fun x => { x with slotAmount := a }, 0)
      else if kind == 4 && p.b == 1 then
        let q := s.prefix_ w.wid
        if 2 ^ 22 ≤ a then .error stLimit
        else if q.slots.any fun (j, x) => a ≤ j && x.alloc then .error stBusy
        else if a != 0 && !inFrames w.frames (q.slotPa 0) (16384 * a) then .error stNoRes
        else .ok (s.setPrefix { q with quota := a }, 0)
      else if kind == 4 then
        if 507904 < a then .error stLimit
        else if fs.isEmpty then
          if a < w.frames.length then .error stBadArg
          else
            match s.lowFrames (a - w.frames.length) s.framesUsed [] with
            | none => .error stNoRes
            | some new => .ok (s.modWorld w.wid fun x => { x with frames := sortBy (fun (f : Nat) => f) (x.frames ++ new) }, 0)
        else if !(a == fs.length || a + fs.length == w.frames.length) then .error stBadArg
        else if fs.any fun f => !w.frames.contains f || (s.prefix_ w.wid).uses f then .error stBusy
        else .ok (s.releaseFrames w.wid fs, 0)
      else .error stBadArg
  .next (s.answer p r true)

/-! ### BWSET (R394) -/

/-- The slots of a frame that no world may own. -/
def reservedSlot (fabric : Bool) (k : Nat) : Bool := if fabric then k % 32 == 0 else k % 16 == 0 || k % 16 == 8

def World.classSlots (w : World) (fabric : Bool) (cls : Nat) : BitVec 1024 :=
  let now := ((if fabric then w.fabricSlots else w.hbmSlots).toList[cls]?).getD 0
  (w.newSlots.filter fun (_, f, c, _) => f == fabric && c.toNat == cls).foldl (fun m (_, _, _, x) => m ||| x) now

/-- BWSET: the mask takes effect at the first frame boundary after the response. -/
def execBwset (p : PCmd) (mask : BitVec 1024) (s : State) : Result :=
  let r : Except Nat (State × Nat) :=
    match s.pfWorld p with
    | .error e => .error e
    | .ok w =>
      if !(p.kind == 5 || p.kind == 6) || 4 ≤ p.a.toNat || p.c != 0 then .error stBadArg
      else
        let fabric := p.kind == 6
        let cls := p.a.toNat
        let others := s.worlds.foldl (fun (m : BitVec 1024) x => (List.range 4).foldl (fun (m : BitVec 1024) c =>
          if x.wid == w.wid && c == cls then m else m ||| x.classSlots fabric c) m) 0
        if (mask &&& others) != 0 || (List.range 1024).any fun k => mask.getLsbD k && reservedSlot fabric k then .error stBusy
        else .ok (s.modWorld w.wid fun x => { x with
          newSlots := x.newSlots ++ [((s.tb / 1024 + 1) * 1024, fabric, BitVec.ofNat 2 cls, mask)] }, 0)
  .next (s.answer p r true)

/-- The masks whose frame boundary cycle `c` is. -/
def World.takeSlots (w : World) (c : Nat) : World :=
  (w.newSlots.filter fun (d, _, _, _) => d ≤ c).foldl (fun (w : World) (_, fabric, cls, m) =>
    if fabric then { w with fabricSlots := w.fabricSlots.set cls.toNat m cls.isLt }
    else { w with hbmSlots := w.hbmSlots.set cls.toNat m cls.isLt })
    { w with newSlots := w.newSlots.filter fun (d, _, _, _) => c < d }

def State.takeSlots (s : State) (c : Nat) : State :=
  if s.worlds.all (·.newSlots.isEmpty) then s else { s with worlds := s.worlds.map (·.takeSlots c) }

/-! ### INSTALL (Table 19.6) -/

/-- A field of little-endian record bytes. -/
def recField (b : List Byte) (lo n : Nat) : Nat := natBits (leNat b) lo n

/-- R201 and R334 for a timetable record. -/
def timetableOk (t : Timetable) : Bool :=
  let mins := t.stages.foldl (fun n x => n + x.min) 0
  let maxs := t.stages.foldl (fun n x => n + x.max) 0
  let wh := t.width * t.height
  let table (i : TaskImage) : Bool :=
    (List.range 256).any fun k =>
      i.drainBase + k < 256 && (imageWord i (i.drainBase + k)).getLsbD 0
        && (List.range (k + 1)).all fun m => (imageWord i (i.drainBase + m)).extractLsb' 1 11 == 0
  1 ≤ t.stages.length && t.stages.length ≤ 8 && (t.stages.all fun x => 1 ≤ x.min && x.min ≤ x.max && table x.task)
    && mins ≤ wh && wh ≤ maxs

/-- A communicator descriptor from its 16 bytes, with the rank table that stands at RTAB. -/
def State.commOf (s : State) (comm : Nat) (b : List Byte) : Comm :=
  let n := recField b 23 11
  let rtab := recField b 64 64
  { comm := BitVec.ofNat 16 comm, rtab := (List.range n).map fun k => BitVec.ofNat 16 (s.mem.readNat (rtab + 2 * k) 2)
    prim := recField b 54 10, stby := recField b 44 10, rank := recField b 34 10, n := n, world := recField b 14 9
    sbv := recField b 13 1 == 1, epoch := 0, nextStart := 0, skips := [], raw := b }

/-- With SBV = 0 a board replies without waiting: no decision awaits an acknowledgement (R373). -/
def Board.unheld (b : Board) (c : Comm) : Board := if c.sbv then b else { b with acked := b.decisions, replies := [] }

/-- The replies that leave with that. -/
def Board.freed (b : Board) (c : Comm) : List NetMsg :=
  if c.sbv then [] else b.replies.map fun (_, t, m) => ⟨t, c.epoch, m⟩

/-- The descriptor in place, with what a communicator already keeps, and this package's board where it is named. -/
def State.putComm (s : State) (c : Comm) : State :=
  let old := s.comm? c.comm
  let c := { c with
    epoch := (old.map (·.epoch)).getD 0, nextStart := (old.map (·.nextStart)).getD 0, skips := (old.map (·.skips)).getD [] }
  let here := Config.packageIndex.toNat
  let board := s.board? c.comm
  let fresh : Board := ⟨c.comm, 0, 0, [], [], 0, 0, [], s.tb, c.prim == here⟩
  let s := if c.prim == here then s.send ((board.map (·.freed c)).getD []) else s
  s.modEng fun e => { e with
    comms := sortBy (fun (x : Comm) => x.comm.toNat) (e.comms.filter (fun x => x.comm != c.comm) ++ [c])
    boards := if c.prim == here || (c.sbv && c.stby == here) then
        match board with
        | some _ => e.boards.map fun b => if b.comm == c.comm then { b.unheld c with answering := c.prim == here } else b
        | none => sortBy (fun (b : Board) => b.comm.toNat) (e.boards ++ [fresh])
      else e.boards.filter fun b => b.comm != c.comm }

/-- A range entry reaches only frames of the world, in HBM (R396). -/
def rangeOk (w : World) (e : BitVec 192) : Bool :=
  if !e.getLsbD 11 then true
  else
    let off := natBits e.toNat 140 52
    let lo := (natBits e.toNat 12 52 + off) * 4096 % 2 ^ 64
    let hi := (natBits e.toNat 76 52 + off) * 4096 % 2 ^ 64
    let n := hi / 0x200000 - lo / 0x200000 + 1
    lo ≤ hi && (if n ≤ 1024 || n ≤ 2 * w.frames.length then
        (List.range n).all fun k =>
          let f := (lo / 0x200000 + k) * 0x200000
          placeOf f != .hbm || w.frames.contains f
      else false)

/-- An address names a frame of the world; 0 names none. -/
def World.names (w : World) (pa : Nat) : Bool := pa == 0 || w.frames.contains (pa / 0x200000 * 0x200000)

/-- A queue descriptor of a jetton from its 32 bytes (Table 8.3). -/
def workQueueOf (b : List Byte) : WorkQueue :=
  ⟨BitVec.ofNat 64 (recField b 192 64), BitVec.ofNat 32 (recField b 160 32), BitVec.ofNat 32 (recField b 128 32),
    BitVec.ofNat 32 (recField b 96 32), recField b 72 1 == 1, BitVec.ofNat 4 (recField b 64 4), BitVec.ofNat 64 (recField b 0 64)⟩

/-- What INSTALL does with a record; `none` where the record breaks its rules. -/
def State.installed (s : State) (w : World) (kind i : Nat) (r : InstallRec) : Option State :=
  match kind, r with
  | 1, .timetable t raw =>
    if s.itemWorld 9 i == some w.wid && timetableOk t then
      let h : Handle := ⟨BitVec.ofNat 16 i, some (t, raw), none, false, w.wid⟩
      some (s.modDisp fun d => { d with handles := d.handles.filter (fun x => x.tth != h.tth) ++ [h] })
    else none
  | 2, .bytes b =>
    let c := s.commOf i b
    if b.length != 16 || s.itemWorld 8 i != some w.wid || recField b 1 12 != 0 then none
    else if recField b 0 1 == 0 then
      some (s.modEng fun e => { e with comms := e.comms.filter fun x => x.comm != c.comm, boards := e.boards.filter fun x => x.comm != c.comm })
    else if c.world == w.wid && 1 ≤ c.n && c.n ≤ 1024 && c.rank < c.n then some (s.putComm c)
    else none
  | 3, .bytes b =>
    let n (k : Nat) : Nat := recField b (16 * k) 16
    let ok (k : Nat) : Bool := 1 ≤ n k && n k ≤ 1024
    if b.length == 16 && 1 ≤ i && i ≤ 65535 && ok 0 && ok 1 && ok 2 && recField b 48 80 == 0 then
      some (s.modDisp fun d => { d with links := d.links.filter (fun x => x.1.toNat != i) ++ [(BitVec.ofNat 16 i, n 0, n 1, n 2)] })
    else none
  | 4, .bytes b =>
    let e := BitVec.ofNat 192 (leNat b)
    if h : i < 16 then
      if b.length == 24 && rangeOk w e then some (s.modWorld w.wid fun x => { x with ranges := x.ranges.set i (e &&& rangeBits) h }) else none
    else none
  | 5, .bytes b =>
    let pt := recField b 0 64
    let pg := recField b 64 64
    let db := recField b 128 64
    if b.length == 24 && i == 0 && w.names (pt / 4096 * 4096) && w.names (pg / 65536 * 65536) && w.names (db / 0x200000 * 0x200000) then
      some (s.modWorld w.wid fun x => { x with
        ptroot := BitVec.ofNat 64 pt, pgtbase := BitVec.ofNat 64 pg, dirtybase := BitVec.ofNat 64 db })
    else none
  | 6, .bytes b =>
    let f (k : Nat) : Nat := recField b (64 * k) 64
    if b.length == 40 && i == 0 && w.names (f 0 / 4096 * 4096) && w.names (f 1 / 16384 * 16384) && w.names (f 3) then
      some (s.setPrefix { s.prefix_ w.wid with
        slottab := BitVec.ofNat 64 (f 0), pphys := BitVec.ofNat 64 (f 1), pbase := BitVec.ofNat 64 (f 2)
        wmap := BitVec.ofNat 64 (f 3), wwbase := BitVec.ofNat 64 (f 4) })
    else none
  | 7, .bytes b =>
    let j := i / 4
    let x := s.jetton j
    if b.length == 32 && s.itemWorld 3 j == some w.wid && (x.state == .free || x.state == .idle) then
      let old := x.qs.toList.getD (i % 4) WorkQueue.reset
      let x := { x with qs := x.qs.setIfInBounds (i % 4) { workQueueOf b with cidx := old.cidx, ridx := old.ridx } }
      some (s.setJetton j (if x.state == .idle && x.anyPending then { x with state := .ready, waitSince := s.tb + 1 } else x))
    else none
  | 8, .bytes b =>
    match getKey s.eng.queues i with
    | some q =>
      if b.length == 32 && q.held && q.world == w.wid && recField b 23 9 == w.wid then
        some (s.modEng fun e => { e with queues := setKey e.queues i { q with
          base := BitVec.ofNat 64 (recField b 192 64), rpaddr := BitVec.ofNat 64 (recField b 128 64)
          sembase := BitVec.ofNat 64 (recField b 64 64), log := BitVec.ofNat 4 (recField b 19 4), qen := recField b 0 1 == 1 } })
      else none
    | none => none
  | 9, .qpair q =>
    if s.itemWorld 0x0B i == some w.wid && q.world == w.wid && s.itemWorld 3 q.jetton == some w.wid then
      some { s with qpairs := setKey s.qpairs i q }
    else none
  | _, _ => none

/-- INSTALL. -/
def execInstall (p : PCmd) (r : InstallRec) (s : State) : Result :=
  let out : Except Nat (State × Nat) :=
    match s.anyWorld p with
    | .error e => .error e
    | .ok w =>
      if p.c != 0 then .error stBadArg
      else
        match s.installed w p.kind.toNat p.a.toNat r with
        | some t => .ok (t, 0)
        | none => .error stBadArg
  .next (s.answer p out false)

/-! ### INVAL, QUERY, QCTL, ROOT -/

/-- INVAL: no translation made under an old entry remains (R241). -/
def execInval (p : PCmd) (s : State) : Result :=
  let out : Except Nat (State × Nat) :=
    match s.anyWorld p with
    | .error e => .error e
    | .ok w =>
      if p.a != 0 || p.b != 0 || p.c != 0 || p.kind != 0 then .error stBadArg
      else .ok (s.modDisp fun d => { d with tlb := d.tlb.filter fun (v, _, _) => v != w.wid }, 0)
  .next (s.answer p out false)

/-- QUERY. -/
def execQuery (p : PCmd) (s : State) : Result :=
  let out : Except Nat (State × Nat) :=
    match s.anyWorld p with
    | .error e => .error e
    | .ok w =>
      if kindTotal p.kind.toNat == 0 || p.a != 0 || p.b != 0 || p.c != 0 then .error stBadArg
      else .ok (s, s.amount w p.kind.toNat)
  .next (s.answer p out false)

/-- QCTL: a reset first, then the enable bit (R397). -/
def State.qctl (s : State) (p : PCmd) : State :=
  let out : Except Nat (State × Nat) :=
    match s.anyWorld p with
    | .error e => .error e
    | .ok w =>
      match getKey s.eng.queues p.a.toNat with
      | none => .error stBadArg
      | some q =>
        if !q.held || q.world != w.wid || 4 ≤ p.b.toNat || p.c != 0 || p.kind != 0 then .error stBadArg
        else if p.b.getLsbD 1 && q.state == 4 then .error stBusy
        else
          let q := if p.b.getLsbD 1 then { q with
            ridx := 0, errc := 0, state := 0, entry := none, holdXlate := false, faulted := false, polling := false } else q
          let en := p.b.getLsbD 0
          let q := { q with nextPoll := s.tb, polling := false, qen := en, state := if en && q.state == 0 then 1 else q.state }
          .ok (s.modEng fun e => { e with queues := setKey e.queues p.a.toNat q }, 0)
  s.answer p out false

/-- QCTL with the reset bit. -/
def execQctlReset (p : PCmd) (s : State) : Result := .next (if p.b.getLsbD 1 then s.qctl p else s.respond p stBadArg 0)
/-- QCTL without it: the enable bit. -/
def execQctlEnable (p : PCmd) (s : State) : Result := .next (if p.b.getLsbD 1 then s.respond p stBadArg 0 else s.qctl p)

/-- ROOT: the root capability of a jetton, with its tag. One of another WORLD than the jetton's is a bad argument (R250,
notes/assumptions/107.md). -/
def execRoot (p : PCmd) (cap : BitVec 128) (s : State) : Result :=
  let j := p.a.toNat
  let out : Except Nat (State × Nat) :=
    match s.pfWorld p with
    | .error e => .error e
    | .ok w =>
      if 16384 ≤ j || p.c != 0 || p.kind != 0 || s.itemWorld 3 j != some w.wid
          || natBits cap.toNat 119 9 != w.wid then .error stBadArg
      else
        let x := s.jetton j
        if !(x.state == .free || x.state == .idle) then .error stBusy
        else .ok (s.setJetton j { x with root := ⟨cap.setWidth 64, cap.extractLsb' 64 64, true⟩, rtag := true }, 0)
  .next (s.answer p out false)

end Sys2Proof.Machine
end

