-- ==== Sys2Proof/Machine/Queue.lean ====
section
/-!
DEFINITION. The queue processors: taking entries (R398), the commands of Table 19.8 with their checks and order (R399, R411),
and the entry copy of a LAUNCH (R422).
-/
namespace Sys2Proof.Machine

open Sys2Proof

def State.queue? (s : State) (k : Nat) : Option CmdQueue := getKey s.eng.queues k
def State.modQueue (s : State) (k : Nat) (f : CmdQueue → CmdQueue) : State :=
  s.modEng fun e => match getKey e.queues k with
    | some q => { e with queues := setKey e.queues k (f q) }
    | none => e

/-! ### Accesses of a processor (R399) -/

/-- An access meets XLATE: it is reported, and the queue holds its command in STATE 2. -/
def State.queueHold (s : State) (k world va : Nat) : State :=
  (s.reportXlate world (BitVec.ofNat 64 va) (.queue k)).modQueue k fun q => { q with holdXlate := true, state := 2 }

/-- What a stopped access does to its queue: hold, violation, or an error. -/
def State.queueIo (s : State) (k world : Nat) (e : IoStop) : State :=
  match e with
  | .xlate va => s.queueHold k world va
  | .refused c _ => s.queueStop k none c true
  | .damaged _ => s.queueStop k none .ucdata false

/-- The fields of an entry. -/
def entOp (e : List Byte) : Nat := leNat (e.take 1)
def entFlags (e : List Byte) : Nat := leNat ((e.drop 1).take 1)
def entTicket (e : List Byte) : Nat := leNat ((e.drop 2).take 2)
def entSem (e : List Byte) : Nat := leNat ((e.drop 4).take 2)
def entA (e : List Byte) : Nat := leNat ((e.drop 8).take 8)
def entB (e : List Byte) : Nat := leNat ((e.drop 16).take 8)
def entC (e : List Byte) : Nat := leNat ((e.drop 24).take 8)

/-- The condition of a WAIT, if its code is one of Table 3.3. -/
def condOf (n : Nat) : Option Cond :=
  ([.eq, .ne, .lt, .ge, .ltu, .geu, .gt, .le, .gtu, .leu] : List Cond)[n]?

/-- Why an entry is refused before anything of it happens (R399). -/
def entryCause (e : List Byte) : Option Cause :=
  let op := entOp e
  let fl := entFlags e
  let cond := fl % 16
  let consume := fl / 16 % 2 == 1
  let noSem := entSem e == 0xFFFF
  if 9 < op || leNat ((e.drop 6).take 2) != 0 || (op != 1 && fl != 0) then some .ill
  else if op == 1 && (32 ≤ fl || 10 ≤ cond || (consume && !(cond == 3 || cond == 5))) then some .ill
  else if (op == 1 || op == 2 || op == 3) && noSem then some .ill
  else if (op == 0 || op == 7 || op == 8 || op == 9) && !noSem then some .ill
  else if op == 6 && entB e % 4 != 0 then some .ill
  else if (op == 4 || op == 9) && entA e % 8 != 0 then some .align
  else if op == 6 && entA e % 4 != 0 then some .align
  else none

/-- The word at a semaphore's address: its home and H (R243, R399), without effect there where a scan holds the core (R357); or what stops the command: XLATE, a violation, CAPPERM. -/
inductive SemHome where
  | ok (home : HomeAt) (h : Nat) (pa : Nat)
  | xlate (va : Nat)
  | violation
  | plain (c : Cause)
deriving DecidableEq, Repr

def State.semHome (s : State) (world va : Nat) (read write : Bool) : SemHome :=
  if inSram va then
    match placeOf va with
    | .slice i p =>
      if !(s.windowOk world va write false || (world == 257 && s.heldAway va)) then .violation
      else if p == .acc then .ok (.acc i (offAt va % 0x10000 / 4)) 120 va
      else .plain .capperm
    | _ => .violation
  else if world == 257 then .plain .capperm
  else
    match s.translate world (BitVec.ofNat 64 va) with
    | .xlate => .xlate va
    | .refused => .violation
    | .uc => .plain .ucdata
    | .ok pa a _ =>
      if (read && !a.admits world false) || (write && !a.admits world true) then .violation
      else if a.ah == 1 then
        match placeOf pa with
        | .slice i .acc => .ok (.acc i ((pa - accBase i) / 4)) 120 pa
        | _ => .plain .capperm
      else if a.ah == 2 && placeOf pa == .hbm then .ok (.host pa (a.key world)) 230 pa
      else .plain .capperm

def CmdQueue.semVa (q : CmdQueue) (k : Nat) : Nat := (q.sembase.toNat / 4 * 4 + 4 * k) % 2 ^ 64

/-- The semaphore of a command; `f` goes on with its home. -/
def State.withSem (s : State) (k : Nat) (q : CmdQueue) (e : List Byte) (read write : Bool) (f : HomeAt → Nat → Nat → State) : State :=
  match s.semHome q.world (q.semVa (entSem e)) read write with
  | .ok h n pa => f h n pa
  | .xlate va => s.queueHold k q.world va
  | .violation => s.queueStop k none .capperm true
  | .plain c => s.queueStop k none c false

/-- The semaphore of COPY, FILL and LAUNCH, where one is named: its word and Hr. -/
def State.withOptSem (s : State) (k : Nat) (q : CmdQueue) (e : List Byte) (f : Option (Nat × Nat) → State) : State :=
  if entSem e == 0xFFFF then f none else s.withSem k q e true true fun _ n pa => f (some (pa, n))

/-! ### Slots (R394, R395) -/

/-- The slot of an access lies in this cycle: class 0 of its world, for a queue processor and a function (R395). -/
def State.slotNow (s : State) (world : Nat) (rs : List PRun) : Option State :=
  match rs.find? fun r => placeOf r.pa == .hbm with
  | none => some s
  | some r =>
    let n := min 12 (linesOf rs)
    (s.findSlot (s.hbmMask world 0) world (hbmStack r.pa) n s.tb 1).map fun c =>
      s.modEng fun e => { e with slotUse := e.slotUse ++ [(c, hbmStack r.pa, world, n)] }

/-- The access of a queue processor at a world address finds its slot in this cycle; one that translation stops needs none. -/
def State.slotOpen (s : State) (world va n : Nat) (write : Bool) : Option State :=
  okThen (s.resolve world none va n write false (pagesOf va n + 1)) (fun _ => some s) fun rs => s.slotNow world rs

/-! ### Taking an entry (R398) -/

/-- The queue runs and holds no command. -/
def CmdQueue.free (q : CmdQueue) : Bool := q.held && q.qen && q.state == 1 && q.entry.isNone && !q.holdXlate

/-- The next entry may be looked at in cycle `c`. -/
def CmdQueue.looks (q : CmdQueue) (c : Nat) : Bool := q.free && !q.polling && q.notBefore ≤ c && q.nextPoll ≤ c

def CmdQueue.slots (q : CmdQueue) : Nat := 2 ^ max 4 q.log.toNat
def CmdQueue.entryVa (q : CmdQueue) (i : BitVec 32) : Nat := q.base.toNat / 4096 * 4096 + 32 * (i.toNat % q.slots)
/-- The word to which RIDX is published. -/
def CmdQueue.ridxVa (q : CmdQueue) : Nat := q.rpaddr.toNat / 4 * 4

/-- Write RIDX to RPADDR. -/
def State.publishRidx (s : State) (k : Nat) : State :=
  match s.queue? k with
  | none => s
  | some q =>
    okThen (s.ioWrite q.world none q.ridxVa (leBytes q.ridx.toNat 4)) (fun p => p.2.queueIo k q.world p.1)
      fun s => s.modQueue k fun q => { q with published := true, faulted := false }

/-- The entry at RIDX is taken, and RIDX published. The entry starts in the cycle in which it is taken (R411). -/
def State.takeEntry (s : State) (k : Nat) (e : List Byte) : State :=
  let s := s.modQueue k fun q => { q with
    ridx := q.ridx + 1, entry := some e, published := false, polling := false
    notBefore := max q.notBefore (s.tb + 16) }
  let s := s.publishRidx k
  match s.queue? k, entryCause e with
  | some q, some c => if q.published then s.queueStop k none c false else s
  | _, _ => s

/-- The processor looks again in the next cycle. -/
def State.lookNext (s : State) (k : Nat) : State := s.modQueue k fun q => { q with nextPoll := s.tb + 1 }

/-- QUEUE_ENTRY_TAKE: the processor looks at entry RIDX; a matching TICKET takes it. The read of the entry and the write of RIDX
wait for their slot (R395). -/
def execQueueEntryTake (queue : Nat) (s : State) : Result :=
  .next (match s.queue? queue with
    | none => s
    | some q =>
      if !q.looks s.tb then s
      else
        match s.slotOpen q.world (q.entryVa q.ridx) 32 false with
        | none => s.lookNext queue
        | some t =>
          ioThen (t.ioRead q.world (q.entryVa q.ridx) 32) (fun p => p.2.queueIo queue q.world p.1) fun e u =>
            if entTicket e != q.ridx.toNat % 65535 + 1 then u.modQueue queue fun q => { q with nextPoll := s.tb + 1024, polling := true }
            else
              match u.slotOpen q.world q.ridxVa 4 true with
              | none => u.lookNext queue
              | some v => v.takeEntry queue e)

/-- QUEUE_POLL_TIMER: 1,024 cycles after a look that found nothing, the processor looks again in this cycle. -/
def execQueuePollTimer (queue : Nat) (s : State) : Result :=
  .next (match s.queue? queue with
    | some q => if q.polling && q.nextPoll ≤ s.tb then s.modQueue queue fun q => { q with polling := false, nextPoll := s.tb } else s
    | none => s)

/-- The write of RIDX that a queue still owes finds its slot; a queue that owes none needs none. -/
def State.ridxSlot (s : State) (q : CmdQueue) : Option State :=
  if q.entry.isSome && !q.published then s.slotOpen q.world q.ridxVa 4 true else some s

/-- QUEUE_XLATE_RETRY: the access is tried again from the cycle of the release, in its slot. -/
def execQueueXlateRetry (queue : Nat) (s : State) : Result :=
  .next (match s.queue? queue with
    | some q =>
      if !q.holdXlate then s
      else
        match s.ridxSlot q with
        | none => s
        | some s =>
          let s := (s.modQueue queue fun q => { q with
            holdXlate := false, state := 1
            notBefore := if q.entry.isSome then max q.notBefore (s.tb + 16) else q.notBefore }).modDisp fun d => { d with
            xlates := d.xlates.filter fun x => x.who != .queue queue }
          if q.entry.isSome && !q.published then
            let s := s.publishRidx queue
            match s.queue? queue, q.entry.bind entryCause with
            | some q, some c => if q.published then s.queueStop queue none c false else s
            | _, _ => s
          else s
    | none => s)

/-- The queue's command that is to start, or to go on, in cycle `c`. -/
def CmdQueue.command? (q : CmdQueue) : Option (List Byte) :=
  if q.held && (q.state == 1 || q.state == 2) && !q.holdXlate && q.published then q.entry else none

/-- The queue's command has something to do in this cycle: a WAIT waits at its home, a LAUNCH for room, a FENCE for what
stands before it. -/
def State.queueCommandDue (s : State) (k : Nat) : Option Nat :=
  match (s.queue? k).bind fun q => q.command?.map fun e => (q, e) with
  | none => none
  | some (q, e) =>
    let op := entOp e
    if q.state != 2 then (if op == 9 && (s.slotOpen q.world (entA e) 8 true).isNone then none else some op)
    else if op == 4 then
      let j := entC e % 2 ^ 14
      let i : BitVec 2 := BitVec.ofNat 2 (entC e / 2 ^ 14)
      let w := (s.jetton j).qs[i.toNat]'i.isLt
      let sent := (s.eng.launches.filter fun l => l.jetton == j && l.q == i).length
      if (w.widx + BitVec.ofNat 32 sent - w.ridx).toNat < 2 ^ min w.qlog.toNat 12 then some op else none
    else if op == 8 && q.busy.isEmpty then some op
    else none

/-- The command of a queue when its OP is the one named; nothing otherwise. -/
def State.queueDo (s : State) (k op : Nat) (f : CmdQueue → List Byte → State) : State :=
  match s.queue? k with
  | none => s
  | some q =>
    match q.command? with
    | some e => if entOp e == op then f q e else s
    | none => s

/-- The command no longer holds the queue. -/
def State.queueNext (s : State) (k : Nat) : State := s.modQueue k fun q => { q with entry := none, state := if q.state == 2 then 1 else q.state }

/-- The command has acted in this cycle. -/
def State.queueActed (s : State) (k : Nat) : State := s.queueNext k

/-- The command goes on under an identifier until it completes, and the queue with it. -/
def State.queueBusy (s : State) (k id : Nat) (q : CmdQueue) : State :=
  s.modQueue k fun x => { x with busy := x.busy ++ [(id, q.ridx - 1)] }

/-- The commands of the queue that have not completed. -/
def CmdQueue.awaited (q : CmdQueue) : List Nat := q.busy.map fun (b : Nat × BitVec 32) => b.1

/-! ### The commands (Table 19.8) -/

/-- NOP. -/
def execQueueNop (queue : Nat) (s : State) : Result := .next (s.queueDo queue 0 fun _ _ => s.queueActed queue)

/-- A semaphore operation on its way: it acts 2 + H cycles on, after the commands it awaits. -/
def State.queueHome (s : State) (q : CmdQueue) (k : Nat) (what : HomeDo) (home : HomeAt) (h va : Nat) (blockers : List Nat)
    (waits : Bool) : State :=
  let op : HomeOp := {
    id := s.nextId, asker := .queue k, run := 0, pc := 0, issue := s.tb, addr := BitVec.ofNat 64 va, world := q.world
    what := what, home := home, h := h, due := s.tb + 2 + h, blockers := blockers, waits := waits, dst := none
    acted := false, ret := 0, value := none, fault := none, lo := 0, hi := 0 }
  ({ s with nextId := s.nextId + 1 }.modEng fun e => { e with homes := e.homes ++ [op] }).queueBusy k op.id q

/-- WAIT: it holds the queue, in STATE 2, until its word meets the condition. -/
def execQueueWait (queue : Nat) (s : State) : Result :=
  .next (s.queueDo queue 1 fun q e =>
    if q.state == 2 then s
    else
      let fl := entFlags e
      let consume := fl / 16 % 2 == 1
      s.withSem queue q e true consume fun home h _ =>
        let x := BitVec.ofNat 32 (entC e)
        let s := s.queueHome q queue (.swait x ((condOf (fl % 16)).getD .eq) consume) home h (q.semVa (entSem e)) [] true
        s.modQueue queue fun q => { q with state := 2 })

/-- The WAIT of a queue that has been satisfied, with its completion in this cycle. -/
def State.queueWaitDone (s : State) (k : Nat) : Option HomeOp :=
  s.eng.homes.find? fun h => h.asker == .queue k && h.waits && h.acted && h.ret ≤ s.tb

/-- QUEUE_WAIT_COMPLETE, in w = c + 3 + H; the next command starts in w + 1 or later (R411). -/
def execQueueWaitComplete (queue : Nat) (s : State) : Result :=
  .next (match s.queueWaitDone queue with
    | some h =>
      ((s.dropHome h.id).queueNext queue).modQueue queue fun q => { q with notBefore := max q.notBefore (s.tb + 1) }
    | none => s)

/-- SIGNAL: acts after every earlier command of the queue has completed, as a release at SYSTEM scope. -/
def execSignal (queue : Nat) (s : State) : Result :=
  .next (s.queueDo queue 2 fun q e => s.withSem queue q e true true fun home h _ =>
    (s.queueHome q queue (.ssig (BitVec.ofNat 32 (entC e))) home h (q.semVa (entSem e)) q.awaited false).queueNext queue)

/-- SET, with no ordering. -/
def execQueueSet (queue : Nat) (s : State) : Result :=
  .next (s.queueDo queue 3 fun q e => s.withSem queue q e false true fun home h _ =>
    (s.queueHome q queue (.sset (BitVec.ofNat 32 (entC e))) home h (q.semVa (entSem e)) [] false).queueNext queue)

/-- The I/O-die engine of a queue's processor (R422). -/
def queueEngine (k : Nat) : Nat :=
  let p := k / 64
  4096 + 192 + 32 * (p / 16) + p % 16

/-- A COPY, a FILL or the entry copy of a LAUNCH enters its engine with T the start of the command. -/
def State.queueCopy (s : State) (k : Nat) (q : CmdQueue) (kind : CopyKind) (dst src n : Nat) (sem : Option (Nat × Nat)) : State :=
  let place := placeOf (s.physOf q.world dst)
  let t : Target := { core := place.core?, dst := BitVec.ofNat 64 dst, fmt := .raw, rnd := .rne, pad := 0, beats := 0, lag := 0
                      lastLand := 0, doneb := 0, complete := false }
  let c : Copy := {
    id := s.nextId, op := 0, engine := queueEngine k, asker := .queue k, run := 0, pc := 0, issue := s.tb, time := s.tb
    world := q.world, group := 0, jetton := 0, n := n, dst := BitVec.ofNat 64 dst, src := BitVec.ofNat 64 src, dcap := .null
    kind := kind, card := 0, sfmt := .raw, keepTags := false, expSrc := 0, expDst := 0, exps := [], ext := [], follow := none
    phase := none, state := .queued, issuedAt := 0, at_ := 0, beat := 0, blockers := [], notBefore := 0, ovr := 0
    targets := [t], followBusy := false, sem := sem, saved := false, place := 0, doom := none, parkFrame := none, reissued := false }
  (({ s with nextId := s.nextId + 1 }.modEng fun e => { e with copies := e.copies ++ [c] }).queueBusy k c.id q).queueNext k

/-- COPY: a CPY in RAW. -/
def execCopy (queue : Nat) (s : State) : Result :=
  .next (s.queueDo queue 5 fun q e => s.withOptSem queue q e fun sem =>
    s.queueCopy queue q .plain (entA e) (entB e) (entC e % 2 ^ 32) sem)

/-- FILL. -/
def execFill (queue : Nat) (s : State) : Result :=
  .next (s.queueDo queue 6 fun q e => s.withOptSem queue q e fun sem =>
    s.queueCopy queue q (.fill (BitVec.ofNat 32 (entC e))) (entA e) (entA e) (entB e) sem)

/-- Entries on their way into a jetton's queue. -/
def State.launching (s : State) (j : Nat) (q : BitVec 2) : Nat := (s.eng.launches.filter fun l => l.jetton == j && l.q == q).length

/-- Entries a work queue holds (Table 8.3). -/
def WorkQueue.size (w : WorkQueue) : Nat := 2 ^ min w.qlog.toNat 12
/-- Where entry `i` of a work queue stands. -/
def WorkQueue.slotVa (w : WorkQueue) (i : BitVec 32) : Nat := w.qbase.toNat / 4096 * 4096 + 128 * (i.toNat % w.size)

/-- LAUNCH: its entry copy enters the queue's engine (R399, R422); while the jetton's queue is full, the command waits. -/
def execLaunch (queue : Nat) (s : State) : Result :=
  .next (s.queueDo queue 4 fun q e =>
    let j := entC e % 2 ^ 14
    let x := s.jetton j
    let k : BitVec 2 := BitVec.ofNat 2 (entC e / 2 ^ 14)
    let w := x.qs[k.toNat]'k.isLt
    if !x.held || x.world != q.world then s.queueStop queue none .capperm true
    else
      let seq := w.widx + BitVec.ofNat 32 (s.launching j k)
      if w.size ≤ (seq - w.ridx).toNat then s.modQueue queue fun q => { q with state := 2 }
      else
        s.withOptSem queue q e fun sem =>
          let slot := w.slotVa seq
          let l : LaunchCopy := ⟨s.nextId, queue, q.ridx - 1, j, k, seq, BitVec.ofNat 64 slot, (sem.map (·.1)).getD 0⟩
          (s.queueCopy queue q .plain slot (entA e) 128 none).modEng fun en => { en with launches := en.launches ++ [l] })

/-- An entry that an engine has placed: WIDX advances in this cycle, and an IDLE jetton is READY 24 cycles on, by its
first such entry (R197, Table 8.6). -/
def State.placedEntry (s : State) (j : Nat) (q : BitVec 2) : State :=
  let x := s.jetton j
  let w := x.qs[q.toNat]'q.isLt
  if x.state == .free || x.state == .stopped || !w.qen then s
  else s.setJetton j { x with qs := x.qs.set q.toNat { w with widx := w.widx + 1 } q.isLt, readyAt := x.readyAt.orElse fun _ => some (s.tb + 23) }

/-- The end of a cycle: jettons whose entry has passed its ingress are READY. -/
def State.ingressAll (s : State) : State :=
  if s.disp.jettons.all fun (_, x) => x.readyAt.isNone then s
  else s.modDisp fun d => { d with jettons := d.jettons.map fun (j, x) => match x.readyAt with
    | some c =>
      if c ≤ s.tb then
        let x := { x with readyAt := none }
        (j, if x.state == .idle && x.anyPending then { x with state := .ready, waitSince := s.tb + 1 } else x)
      else (j, x)
    | none => (j, x) }

/-- LAUNCH_ENTRY_LANDING: the last byte of the entry copy has landed in this cycle, D of R197. -/
def execLaunchEntryLanding (queue id : Nat) (s : State) : Result :=
  .next (match s.eng.launches.find? fun l => l.id == id && l.queue == queue with
    | none => s
    | some l =>
      let s := s.modEng fun e => { e with launches := e.launches.filter (·.id != id) }
      (s.modJetton l.jetton fun x => { x with sems := x.sems ++ [(l.q, l.seq, l.sem, id)] }).placedEntry l.jetton l.q)

/-- LAUNCH_SEMAPHORE_INCREMENT: word + 1 at its home, in the host-side position. An uncorrectable word is marked and stays. -/
def execLaunchSemaphoreIncrement (addr world : Nat) (s : State) : Result := .next (s.increment world addr).2

/-- The vector is raised by the function that owns the world. -/
def State.raiseVector (s : State) (world v : Nat) : State := s.say (.msix world v)

/-- IRQ: raised at once, or held until every earlier command has completed. -/
def execIrq (queue : Nat) (s : State) : Result :=
  .next (s.queueDo queue 7 fun q e =>
    let v := entC e % 2 ^ 11
    if q.busy.isEmpty then (s.raiseVector q.world v).queueNext queue
    else
      let id := s.nextId
      (({ s with nextId := id + 1 }.queueBusy queue id q).modQueue queue fun x => { x with
        irqs := x.irqs ++ [(id, v, q.awaited, s.tb)] }).queueNext queue)

/-- The held interrupts whose turn this cycle is. -/
def State.irqAll (s : State) : State :=
  s.eng.queues.foldl (fun (s : State) (k, q) =>
    (q.irqs.filter fun (_, _, bs, n) => bs.isEmpty && n ≤ s.tb).foldl (fun (s : State) ((id, v, _, _) : Nat × Nat × List Nat × Nat) =>
      ((s.raiseVector q.world v).accessDone id s.tb).modQueue k fun x => { x with irqs := x.irqs.filter fun (i : Nat × Nat × List Nat × Nat) => i.1 != id }) s) s

/-- FENCE: it holds the queue until every earlier command has completed. -/
def execQueueFence (queue : Nat) (s : State) : Result :=
  .next (s.queueDo queue 8 fun q _ =>
    if q.busy.isEmpty then (s.queueNext queue).modQueue queue fun q => { q with notBefore := max q.notBefore (s.tb + 1) }
    else s.modQueue queue fun q => { q with state := 2 })

/-- TSTAMP: it writes in its slot. -/
def execTstamp (queue : Nat) (s : State) : Result :=
  .next (s.queueDo queue 9 fun q e =>
    match s.slotOpen q.world (entA e) 8 true with
    | none => s
    | some s =>
      okThen (s.ioWrite q.world none (entA e) (leBytes s.tb 8)) (fun p => p.2.queueIo queue q.world p.1)
        fun s => s.queueActed queue)

/-- A queue whose RPADDR must still show the entry of a fault writes it in its slot (R397). -/
def State.showFault (s : State) (k : Nat) (q : CmdQueue) : State :=
  (s.slotOpen q.world q.ridxVa 4 true).elim s fun t =>
    (okThen (t.ioWrite q.world none q.ridxVa (leBytes q.ridx.toNat 4)) (fun p => p.2) fun u => u).modQueue k
      fun q => { q with faulted := false }

def State.faultedAll (s : State) : State :=
  s.eng.queues.foldl (fun (s : State) (k, q) => if q.faulted then s.showFault k q else s) s

end Sys2Proof.Machine
end

