-- ==== Sys2Proof/Machine/Migrate.lean ====
section
/-!
DEFINITION. The MIGRATE steps of a world that leaves this package (R405, R406).
-/
namespace Sys2Proof.Machine

open Sys2Proof

/-- A step of a migration: from the PF, on a world that exists, after the step before it. PASS may follow itself. -/
def State.migration (s : State) (p : PCmd) (step : Nat) : Except Nat World :=
  match s.pfWorld p with
  | .error e => .error e
  | .ok w =>
    if p.a.toNat != step || p.c != 0 || p.kind != 0 then .error stBadArg
    else if w.migStep + 1 == step || (step == 3 && w.migStep == 3) || (step == 1) then .ok w
    else .error stBusy

def State.migStep (s : State) (w k : Nat) : State := s.modWorld w fun x => { x with migStep := k }

/-- ATTEST: the destination's report is checked, and the session key agreed. -/
def execMigrateAttest (p : PCmd) (ok : Bool) (s : State) : Result :=
  let r : Except Nat (State × Nat) := (s.migration p 1).bind fun w =>
    if ok then .ok (s.modWorld w.wid fun x => { x with migStep := 1, migPass := 0 }, 0) else .error stBadArg
  .next (s.answer p r false)

/-- Every granule of 64 KiB of a world's frames leaves under the session key. -/
def State.sendFrames (s : State) (w : World) (pass : Nat) : State :=
  { s with out := s.out ++ w.frames.flatMap fun f => (List.range 32).map fun k => Out.granule w.wid (f + 0x10000 * k) pass }

/-- The dirty bitmap of a world, its 8,192 lines, as zero lines under the firmware world's key (R242). -/
def Mem.clearDirty (m : Mem) (base : Nat) : Mem :=
  { m with
    bytes := m.bytes.filter fun (a, _) => a < base || base + 0x200000 ≤ a
    lines := (List.range 8192).foldl (fun l k => setKey l (base + 256 * k) ⟨257, false⟩) m.lines }

/-- TRACK: the bitmap is cleared, tracking starts, and everything is copied once. -/
def execMigrateTrack (p : PCmd) (s : State) : Result :=
  let r : Except Nat (State × Nat) := (s.migration p 2).bind fun w =>
    let base := w.dirtybase.toNat / 0x200000 * 0x200000
    let t := (s.modMem (·.clearDirty base)).modWorld w.wid fun x => { x with dirtyen := true, migStep := 2 }
    .ok (t.sendFrames w 0, 0)
  .next (s.answer p r false)

/-- The granules that the bitmap marks, with the bitmap exchanged with zero. -/
def State.takeDirty (s : State) (w : World) : List Nat × State :=
  let base := w.dirtybase.toNat / 0x200000 * 0x200000
  let marked := (s.mem.bytes.filter fun (a, _) => base ≤ a && a < base + 0x200000).flatMap fun (a, b) =>
    ((List.range 8).filter fun i => b.getLsbD i).map fun i => hbmBase + 0x10000 * (8 * (a - base) + i)
  (marked, s.modMem fun m => { m with bytes := m.bytes.filter fun (a, _) => a < base || base + 0x200000 ≤ a })

/-- One pass: what is marked is copied. -/
def State.dirtyPass (s : State) (w : World) : Nat × State :=
  let (gs, s) := s.takeDirty w
  let pass := w.migPass + 1
  let s := s.modWorld w.wid fun x => { x with migPass := pass }
  (gs.length, { s with out := s.out ++ gs.map fun a => Out.granule w.wid a pass })

/-- PASS: the result is the number of granules copied. -/
def execMigratePass (p : PCmd) (s : State) : Result :=
  let r : Except Nat (State × Nat) := (s.migration p 3).bind fun w =>
    let (n, t) := s.dirtyPass w
    .ok (t.migStep w.wid 3, n)
  .next (s.answer p r false)

/-- Admission stops for migration (Table 8.5). -/
def State.stopAdmission (s : State) (w : Nat) : State :=
  let s := s.modWorld w fun x => { x with stopped := true }
  s.modDisp fun d => { d with jettons := d.jettons.map fun (j, x) =>
    if x.world != w || x.state == .free then (j, x)
    else if x.state == .idle || x.state == .ready then (j, { x with state := .stopped })
    else (j, { x with migStop := true }) }

/-- Every jetton of a world has stopped. -/
def State.allStopped (s : State) (w : Nat) : Bool :=
  s.disp.jettons.all fun (_, x) => x.world != w || x.state == .stopped || x.state == .free

/-- The tail of SEAL: a final pass and the answer. -/
def State.sealDone (s : State) (w : World) (p : PCmd) : State :=
  let (n, s) := s.dirtyPass w
  s.answer p (.ok (s.modWorld w.wid fun x => { x with migStep := 4, sealing := none }, n)) false

/-- The worlds whose jettons have all stopped since their SEAL began. -/
def State.migrateAll (s : State) : State :=
  s.worlds.foldl (fun (s : State) w => match w.sealing with
    | some p => if s.allStopped w.wid then s.sealDone w p else s
    | none => s) s

/-- SEAL: admission stops, and the command is answered once every jetton of the world is STOPPED. -/
def execMigrateSeal (p : PCmd) (s : State) : Result :=
  .next (match s.migration p 4 with
    | .error e => s.respond p e 0
    | .ok w =>
      let s := (s.stopAdmission w.wid).modWorld w.wid fun x => { x with sealing := some p }
      if s.allStopped w.wid then s.sealDone w p else s)

/-- PREFIX: the slots that the destination could not verify are copied. -/
def execMigratePrefix (p : PCmd) (verified : List Nat) (s : State) : Result :=
  let r : Except Nat (State × Nat) := (s.migration p 5).bind fun w =>
    let js := ((s.prefix_ w.wid).slots.filter fun (_, x) => x.idx).map (·.1)
    let t := { s with out := s.out ++ (js.filter fun j => !verified.contains j).map fun j => Out.slot w.wid j }
    .ok (t.migStep w.wid 5, 0)
  .next (s.answer p r false)

/-- KEYS: the world key leaves wrapped, and this package's keys of the world are erased. -/
def execMigrateKeys (p : PCmd) (s : State) : Result :=
  let r : Except Nat (State × Nat) := (s.migration p 6).bind fun w =>
    let k := Config.wrap (Config.sessionKey w.wid w.keyGen) (Config.worldKey w.wid w.keyGen)
    .ok ((((s.say (.key w.wid k)).eraseKeys w.wid).clearKeySlot w.wid).migStep w.wid 6, 0)
  .next (s.answer p r false)

/-- RESUME: jettons and queues have moved; here the jettons are FREE again (Table 8.5). -/
def execMigrateResume (p : PCmd) (s : State) : Result :=
  let r : Except Nat (State × Nat) := (s.migration p 7).bind fun w =>
    let t := s.modDisp fun d => { d with jettons := d.jettons.map fun (j, x) =>
      if x.world == w.wid && x.state == .stopped then (j, { Jetton.reset with world := w.wid, held := x.held }) else (j, x) }
    let t := t.modEng fun e => { e with queues := e.queues.map fun (k, q) =>
      if q.held && q.world == w.wid then (k, { CmdQueue.reset with held := true, world := w.wid }) else (k, q) }
    .ok (t.migStep w.wid 7, 0)
  .next (s.answer p r false)

end Sys2Proof.Machine
end

