-- ==== Sys2Proof/Machine/Host.lean ====
section
/-!
DEFINITION. The host and the Ethernet ports: the BARs of each PCIe function (R387), posted writes and reads (R253, R263,
R395, R421), host atomics (R244), request forms of the Ethernet ports (R402) and timetable differences (R383).
-/
namespace Sys2Proof.Machine

open Sys2Proof

/-! ### Functions (R330, R387) -/

/-- A function that acts: enabled for a world and not frozen. -/
def State.func? (s : State) (fn : Nat) : Option Func := s.funcs.find? fun f => f.fn == fn && !f.frozen
def State.modFunc (s : State) (fn : Nat) (g : Func → Func) : State :=
  { s with funcs := s.funcs.map fun (f : Func) => if f.fn == fn then g f else f }

/-- The function may ring for a world: the PF for all, a VF for its own. -/
def Func.owns (f : Func) (world : Nat) : Bool := f.fn == 0 || f.world == world

/-- JETTON_DOORBELL: WIDX of a queue, as a scheduler write; one to another world's jetton is discarded. -/
def execJettonDoorbell (fn jetton : Nat) (q : BitVec 2) (widx : BitVec 32) (s : State) : Result :=
  .next (match s.func? fn with
    | some f => if f.owns (s.jetton jetton).world then s.writeWidx jetton q widx else s
    | none => s)

/-- COMMAND_QUEUE_DOORBELL: the processor looks again (R398). -/
def execCommandQueueDoorbell (fn queue : Nat) (s : State) : Result :=
  .next (match s.func? fn, s.queue? queue with
    | some f, some q =>
      if f.owns q.world then s.modQueue queue fun q => { q with polling := false, nextPoll := min q.nextPoll s.tb } else s
    | _, _ => s)

/-! ### BAR 0 and BAR 2 (Table 19.1) -/

/-- The byte at an offset of BAR 0, or none where the table assigns nothing. -/
def State.bar0Byte (s : State) (f : Func) (o : Nat) : Option Byte :=
  if o < 0x40 then f.request[o]?
  else if o < 0x80 then (f.response.getD (List.replicate 64 0))[o - 0x40]?
  else if f.fn != 0 then none
  else if 0x10000 ≤ o && o < 0x101A0 then s.catalogue[o - 0x10000]?
  else if 0x400000 ≤ o && o < 0x800000 then
    let j := (o - 0x400000) / 256
    some (BitVec.ofNat 8 (natBits ((s.jetton j).bits s.tb) (8 * (o % 256)) 8))
  else none

/-- A doorbell's jetton and queue, or command queue, at an offset of BAR 2. -/
def doorbellAt (o : Nat) : Option (Nat × Option (BitVec 2)) :=
  if o % 4 != 0 then none
  else if o < 0x40000 then some (o / 16, some (BitVec.ofNat 2 (o / 4)))
  else if 0xF8000 ≤ o && o < 0x100000 && o % 16 == 0 then some ((o - 0xF8000) / 16, none)
  else none

/-- The bytes of a read of BAR 0 or BAR 2; a doorbell reads as free bytes. -/
def State.barRead (s : State) (f : Func) (bar o n : Nat) : Option (List Byte) :=
  if bar == 0 then (List.range n).mapM fun i => s.bar0Byte f (o + i)
  else if bar == 2 && (doorbellAt (o / 4 * 4)).isSome then some ((List.range n).map fun i => Config.freeByte (s.free + i))
  else none

/-- A write into the request part of a mailbox: byte 0 submits the command (R390). -/
def State.mailboxWrite (s : State) (f : Func) (o : Nat) (data : List Byte) : State :=
  if 0x40 ≤ o || f.held then s
  else s.modFunc f.fn fun f =>
    let r := putBytes f.request o (data.take (0x40 - o))
    if o == 0 && !data.isEmpty then { f with request := r, held := true, response := none, since := some s.tb } else { f with request := r }

/-- The request that a mailbox holds: OP, and the operands (R390). -/
def Func.field (f : Func) (o n : Nat) : Nat := leNat ((f.request.drop o).take n)
def Func.op (f : Func) : Nat := f.field 0 1
def Func.command (f : Func) : PCmd :=
  ⟨f.fn, BitVec.ofNat 16 (f.field 2 2), BitVec.ofNat 16 (f.field 4 2), BitVec.ofNat 16 (f.field 6 2), BitVec.ofNat 64 (f.field 8 8),
    BitVec.ofNat 64 (f.field 16 8), BitVec.ofNat 64 (f.field 24 8)⟩

/-- A nonzero reserved byte. -/
def Func.reservedSet (f : Func) : Bool := f.field 1 1 != 0 || f.field 32 32 != 0

/-- Bytes that a command takes from the address in B (Table 19.5, R393, Table 19.6). -/
def Func.recordBytes (f : Func) : Nat :=
  let p := f.command
  if f.op == 5 then (if p.kind == 4 && 1 < p.b.toNat && p.a.toNat ≤ 507904 then 8 * p.a.toNat else 0)
  else if f.op == 6 then 128
  else if f.op == 7 then
    (if p.kind == 2 || p.kind == 3 then 16 else if p.kind == 4 || p.kind == 5 then 24 else if p.kind == 6 then 40
      else if p.kind == 7 || p.kind == 8 then 32 else 0)
  else if f.op == 0x0C then 16 else 0

/-- The state after an instruction that never stops the machine. -/
def Result.state (s : State) (r : Result) : State := match r with
  | .next t => t
  | _ => s

/-- The firmware executes a request, with the bytes at B; an OP or a step that no table has is a bad argument (R391). -/
def State.execRequest (s : State) (f : Func) (bs : List Byte) : State :=
  let p := f.command
  let words : List W64 := (List.range (bs.length / 8)).map fun k => BitVec.ofNat 64 (leNat ((bs.drop (8 * k)).take 8))
  let r : Result := match f.op with
    | 1 => execCreate p s
    | 2 => execDestroy p s
    | 3 => execGrant p s
    | 4 => execRevoke p s
    | 5 => execResize p words s
    | 6 => execBwset p (BitVec.ofNat 1024 (leNat bs)) s
    | 7 => execInstall p (.bytes bs) s
    | 8 => execInval p s
    | 9 => execQuery p s
    | 10 => if p.b.getLsbD 1 then execQctlReset p s else execQctlEnable p s
    | 11 =>
      match p.a.toNat with
      | 2 => execMigrateTrack p s
      | 3 => execMigratePass p s
      | 4 => execMigrateSeal p s
      | 6 => execMigrateKeys p s
      | 7 => execMigrateResume p s
      | _ => .next (s.respond p stBadArg 0)
    | 12 => execRoot p (BitVec.ofNat 128 (leNat bs)) s
    | _ => .next (s.respond p stBadArg 0)
  Result.state s r

/-- What a request needs from outside: a record in a layout that the manual does not give, or the destination's answer. Its step
comes as an input (notes/assumptions/73.md). -/
def Func.needsInput (f : Func) : Bool :=
  f.op == 7 && (f.command.kind == 1 || f.command.kind == 9) || f.op == 11 && (f.command.a == 1 || f.command.a == 5)

/-- Requests whose effect stands above a selection in Table 8.5 (notes/assumptions/96.md). -/
def Func.actsFirst (f : Func) : Bool := f.op == 2 || f.op == 11 && f.command.a == 4

/-- The firmware turns to a request: it refuses what the bytes show, or executes it. -/
def State.takeRequest (s : State) (f : Func) : State :=
  let p := f.command
  let s := s.modFunc f.fn fun f => { f with since := none }
  if f.fn != 0 && !(7 ≤ f.op && f.op ≤ 10) then s.respond p stDenied 0
  else if f.reservedSet then s.respond p stBadArg 0
  else if f.needsInput then s
  else if f.recordBytes == 0 then s.execRequest f []
  else ioThen (s.ioRead f.world p.b.toNat f.recordBytes) (fun e => e.2.respond p stBadArg 0) fun bs s => s.execRequest f bs

/-- Partition commands are executed one at a time, in the order of their submission, and in ascending function within one cycle
(R391): a request waits while an earlier one has no response. -/
def State.mailboxTurn (s : State) (first : Bool) : State :=
  if s.funcs.any fun f => f.held && f.since.isNone then s
  else
    match leastBy (fun (f : Func) => (f.since.getD 0) * 65536 + f.fn) (s.funcs.filter fun f => f.held) with
    | some f => if f.actsFirst != first || s.tb ≤ (f.since.getD 0) + Config.commandCycles (f.since.getD 0) then s else s.takeRequest f
    | none => s

/-- A write to BAR 0 or BAR 2; what the table assigns to nothing discards it. -/
def State.barWrite (s : State) (f : Func) (bar o : Nat) (data : List Byte) : State :=
  if bar == 0 then s.mailboxWrite f o data
  else if bar == 2 then
    match doorbellAt o with
    | some (j, some q) =>
      if data.length == 4 && f.owns (s.jetton j).world then s.writeWidx j q (BitVec.ofNat 32 (leNat data)) else s
    | some (k, none) =>
      match s.queue? k with
      | some x => if f.owns x.world then s.modQueue k fun q => { q with polling := false, nextPoll := min q.nextPoll s.tb } else s
      | none => s
    | none => s
  else s

/-! ### BAR 4 (R239, R253, R263, R387, R395, R421) -/

def bar4Size : Nat := 2 ^ 36

/-- An access of a function that its world refuses freezes it; an XLATE is reported (R239, R330). -/
def State.hostStop (s : State) (f : Func) (e : IoStop) : State :=
  match e with
  | .xlate va => s.reportXlate f.world (BitVec.ofNat 64 va) (.host f.fn)
  | .refused _ _ => s.modFunc f.fn fun f => { f with frozen := true }
  | .damaged _ => s

/-- A byte that a host read returns, and whether it is uncorrectable. -/
def State.hostByte (s : State) (r : PRun) (i : Nat) : Byte × Bool :=
  let a := r.pa + i
  if s.mem.damaged a || (placeOf a == .hbm && !s.mem.lineOk r.key a) then
    (BitVec.ofNat 8 (natBits 0x7FC0DEAD (8 * (a % 4)) 8), true)
  else (s.mem.get a, false)

/-- A read of BAR 4: `none` while its slot has not come. -/
def State.hostMemRead (s : State) (f : Func) (a n : Nat) : Option State :=
  if bar4Size < a + n then some (s.say (.unsupported f.fn))
  else
    okThen (s.resolve f.world none a n false false (pagesOf a n + 1))
      (fun e => some (((s.noteStop f.world e).hostStop f e.io).say (.unsupported f.fn))) fun rs =>
      (s.slotNow f.world rs).map fun s =>
        let bs := rs.flatMap fun r => (List.range r.n).map fun i => s.hostByte r i
        let s := match s.badRead rs with
          | some (u, _, hbm) => s.noteDamage u hbm
          | none => s
        s.say (.read f.fn (bs.map (·.1)) (bs.any (·.2)))

/-- One line of a posted write to BAR 4: the state, and whether the whole write is over; `none` while its slot has not come. -/
def State.hostLine (s : State) (f : Func) (a : Nat) (part : List Byte) : Option (State × Bool) :=
  if bar4Size < a + part.length then some (s, true)
  else
    okThen (s.resolve f.world none a part.length true false (pagesOf a part.length + 1))
      (fun e => some ((s.noteStop f.world e).hostStop f e.io, true)) fun rs =>
      (s.slotNow f.world rs).map fun s =>
        let p := s.writePieces f.world rs part
        (if p.2.isSome then p.1.say (.aer f.fn) else p.1, false)

/-! ### The order of a function's requests (R263) -/

/-- The first read of a function, and the list without it: a read is held behind no posted write, and sees the state that
the cycle before left (R263). -/
def takeRead (l : List (Nat × HostReq)) (fn : Nat) : Option ((Nat × W64 × Nat) × List (Nat × HostReq)) :=
  match l with
  | [] => none
  | (k, .read bar addr n) :: t =>
    if k == fn then some ((bar, addr, n), t) else (takeRead t fn).map fun (r, u) => (r, (k, .read bar addr n) :: u)
  | x :: t => (takeRead t fn).map fun (r, u) => (r, x :: u)
/-- The first posted write of a function is over, or the bytes of it that remain. -/
def replaceWrite (l : List (Nat × HostReq)) (fn : Nat) (r : Option HostReq) : List (Nat × HostReq) :=
  match l with
  | [] => []
  | (k, .write bar addr data) :: t =>
    if k == fn then (match r with
      | some y => (k, y) :: t
      | none => t)
    else (k, .write bar addr data) :: replaceWrite t fn r
  | x :: t => x :: replaceWrite t fn r
def firstWrite (l : List (Nat × HostReq)) (fn : Nat) : Option (Nat × W64 × List Byte) :=
  l.findSome? fun (k, r) => match r with
    | .write bar addr data => if k == fn then some (bar, addr, data) else none
    | .read _ _ _ => none

/-- HOST_READ: the read takes its place behind the function's earlier reads. -/
def execHostRead (fn bar : Nat) (addr : W64) (n : Nat) (s : State) : Result :=
  .next (match s.func? fn with
    | some _ => { s with posted := s.posted ++ [(fn, .read bar addr n)] }
    | none => s.say (.unsupported fn))

/-- HOST_WRITE: the posted write takes its place behind the function's earlier writes. -/
def execHostWrite (fn bar : Nat) (addr : W64) (data : List Byte) (s : State) : Result :=
  .next (match s.func? fn with
    | some _ => { s with posted := s.posted ++ [(fn, .write bar addr data)] }
    | none => s)

/-- The reads of each function act in their order, each on the state that the previous cycle left. -/
def State.hostReads (s : State) (fuel : Nat) : State :=
  match fuel with
  | 0 => s
  | fuel + 1 =>
    let one (s : State) (fn : Nat) : State :=
      match takeRead s.posted fn, s.func? fn with
      | some ((bar, addr, n), rest), some f =>
        if bar == 4 then
          match s.hostMemRead f addr.toNat n with
          | some t => { t with posted := rest }
          | none => s
        else
          let s := { s with posted := rest }
          match s.barRead f bar addr.toNat n with
          | some bs => { s with free := s.free + n }.say (.read fn bs false)
          | none => s.say (.unsupported fn)
      | some (_, rest), none => { s with posted := rest }.say (.unsupported fn)
      | _, _ => s
    let t := (s.posted.map (·.1)).eraseDups.foldl one s
    if t.posted.length == s.posted.length then t else t.hostReads fuel

/-- The posted write that stands first at each function takes effect: one 256-byte line of it in this cycle. -/
def State.hostWrites (s : State) : State :=
  (s.posted.map (·.1)).eraseDups.foldl (fun (s : State) fn =>
    match firstWrite s.posted fn, s.func? fn with
    | some (bar, addr, data), some f =>
      if bar == 4 then
        let a := addr.toNat
        let k := 256 - a % 256
        match s.hostLine f a (data.take k) with
        | some (t, ended) =>
          { t with posted := replaceWrite t.posted fn (if ended || data.length ≤ k then none else some (.write 4 (BitVec.ofNat 64 (a + k)) (data.drop k))) }
        | none => s
      else { s.barWrite f bar addr.toNat data with posted := replaceWrite s.posted fn none }
    | some _, none => { s with posted := replaceWrite s.posted fn none }
    | _, _ => s) s

/-! ### Host atomics (R244) -/

/-- A host atomic of 32 bits on a word with SA = 1 and a home: on its way to act in this cycle; anything else completes with
Unsupported Request, and one that the page's R or W refuses is a violation of the function too (R238, R244). -/
def State.hostAtomic (s : State) (fn : Nat) (addr : W64) (bits : Nat) (what : HomeDo) : State :=
  let no (s : State) : State := s.say (.unsupported fn)
  match s.func? fn with
  | none => no s
  | some f =>
    let a := addr.toNat
    if bits != 32 || a % 4 != 0 || bar4Size < a + 4 then no s
    else
      match s.translate f.world addr with
      | .xlate => no (s.hostStop f (.xlate a))
      | .refused => no (s.hostStop f (.refused .capperm a))
      | .uc => no (s.say (.uncorrectable f.world addr))
      | .ok pa t _ =>
        if !t.sa then no s
        else if !t.admits f.world false || !t.admits f.world true then no (s.hostStop f (.refused .capperm a))
        else
          match homeOfTranslated f.world 2048 pa t with
          | .error _ => no s
          | .ok (home, h) =>
            let op : HomeOp := {
              id := s.nextId, asker := .host fn, run := 0, pc := 0, issue := s.tb, addr := addr, world := f.world, what := what
              home := home, h := h, due := s.tb, blockers := [], waits := false, dst := none, acted := false, ret := 0
              value := none, fault := none, lo := 0, hi := 0 }
            { s with nextId := s.nextId + 1 }.modEng fun e => { e with homes := e.homes ++ [op] }

def execHostFetchadd (fn : Nat) (addr : W64) (bits : Nat) (x : W64) (s : State) : Result :=
  .next (s.hostAtomic fn addr bits (.aadd (x.setWidth 32) true))
def execHostSwap (fn : Nat) (addr : W64) (bits : Nat) (x : W64) (s : State) : Result :=
  .next (s.hostAtomic fn addr bits (.axch (x.setWidth 32)))
def execHostCas (fn : Nat) (addr : W64) (bits : Nat) (cmp x : W64) (s : State) : Result :=
  .next (s.hostAtomic fn addr bits (.acas (cmp.setWidth 32) (x.setWidth 32)))

/-! ### Ethernet requests (R402) -/

/-- The queue takes one more entry. -/
def State.queueRoom (s : State) (j : Nat) (q : BitVec 2) : Bool :=
  let x := s.jetton j
  let w := x.qs[q.toNat]'q.isLt
  x.state != .free && x.state != .stopped && w.qen && (w.widx + BitVec.ofNat 32 (s.launching j q) - w.ridx).toNat < w.size

/-- Write an entry at WIDX of a queue: D of R197 is this cycle. `none` where the write is refused. -/
def State.placeEntry (s : State) (j : Nat) (q : BitVec 2) (bs : List Byte) : Option State :=
  let x := s.jetton j
  let w := x.qs[q.toNat]'q.isLt
  okThen (s.ioWrite x.world none (w.slotVa w.widx) (padTo 128 bs)) (fun _ => none) fun s => some (s.placedEntry j q)

/-- An entry of a request, and the answer of its connection; `back` where the write is refused. -/
def State.answerEntry (s : State) (qp : Nat) (r : QPair) (bs : List Byte) (back : State) : State :=
  match s.placeEntry r.jetton r.queue bs with
  | some t => t.say (.ack qp)
  | none => back.say (.nak qp true)

/-- ROCE_SEND: one packet of 1 to 128 bytes becomes an entry; an immediate takes bytes 124 to 127. -/
def execRoceSend (qp : Nat) (payload : List Byte) (imm : Option (BitVec 32)) (s : State) : Result :=
  .next (match getKey s.qpairs qp with
    | none => s.say (.nak qp true)
    | some r =>
      if payload.isEmpty || 128 < payload.length then s.say (.nak qp true)
      else if !s.queueRoom r.jetton r.queue then s.say (.nak qp false)
      else
        let bs := padTo 128 payload
        let bs := match imm with
          | some i => putBytes bs 124 (leBytes i.toNat 4)
          | none => bs
        s.answerEntry qp r bs s)

/-- ROCE_RDMA_WRITE_WITH_IMMEDIATE: the payload lands in the region of the memory key, then the entry. -/
def execRoceRdmaWriteWithImmediate (qp : Nat) (mkey : BitVec 32) (addr : W64) (payload : List Byte) (imm : BitVec 32) (s : State) :
    Result :=
  .next (match getKey s.qpairs qp with
    | none => s.say (.nak qp true)
    | some r =>
      let a := addr.toNat
      if mkey != r.mkey || a < r.base.toNat || r.base.toNat + r.length.toNat < a + payload.length then s.say (.nak qp true)
      else if !s.queueRoom r.jetton r.queue then s.say (.nak qp false)
      else
        okThen (s.ioWrite r.world none a payload) (fun _ => s.say (.nak qp true)) fun t =>
          let e := leBytes imm.toNat 4 ++ leBytes 0 4 ++ leBytes a 8 ++ leBytes payload.length 4
          t.answerEntry qp r e t)

/-- The check of a UDP frame: the first 48 bits of KMAC256 under the world's key. -/
def State.frameCheck (s : State) (world : Nat) (header payload : List Byte) : List Byte :=
  (kmac256 (Config.worldKey world (((s.world? world).map (·.keyGen)).getD 0)) (header.take 10 ++ payload) (ascii "HW8 FRAME")).take 6

/-- UDP_REQUEST_FRAME: a frame that passes its check and its sequence becomes an entry; every other is dropped and counted. -/
def execUdpRequestFrame (header payload : List Byte) (s : State) : Result :=
  let f (o n : Nat) : Nat := leNat ((header.drop o).take n)
  let j := f 4 2 % 2 ^ 14
  let q : BitVec 2 := BitVec.ofNat 2 (f 4 2 / 2 ^ 14)
  let seq : BitVec 32 := BitVec.ofNat 32 (f 6 4)
  let x := s.jetton j
  let drop : State := { s with udpDrops := s.udpDrops + 1 }
  .next (if header.length != 16 || payload.length != 128 || f 0 2 != 0x4857 || f 2 1 != 1 then drop
    else if header.drop 10 != s.frameCheck x.world header payload || !serialLT (x.udpSeq[q.toNat]'q.isLt) seq then drop
    else if !s.queueRoom j q then drop
    else
      match s.placeEntry j q payload with
      | some t => t.modJetton j fun x => { x with udpSeq := x.udpSeq.set q.toNat seq q.isLt }
      | none => drop)

/-! ### Timetable differences (R383) -/

/-- The plane after the entries, in order; a later one wins where two overlap. -/
def applyDiff (raw : List Byte) (entries : List DiffEntry) : List Byte :=
  entries.foldl (fun (r : List Byte) (e : DiffEntry) => putBytes (padTo e.off r) e.off e.bytes) raw

/-- The plane is in use by a bound, sealed or evicted request. -/
def State.planeBusy (s : State) (tth : BitVec 16) (second : Bool) : Bool :=
  s.disp.jettons.any fun (_, x) => x.tth == tth && x.group.isSome && x.plane == second

/-- TIMETABLE_DIFFERENCE: `img` is what the bytes of the new plane describe. -/
def execTimetableDifference (tth : BitVec 16) (base new : List Byte) (entries : List DiffEntry) (img : Timetable) (s : State) :
    Result :=
  let st (d : DiffStatus) (s : State) : State := s.say (.status tth d)
  .next (match s.handle? tth with
    | none => st .base s
    | some h =>
      match (if h.active then h.b else h.a) with
      | none => st .base s
      | some (_, raw) =>
        if shake256 raw != base then st .base s
        else if s.planeBusy tth (!h.active) then st .busy s
        else
          let r := applyDiff raw entries
          if shake256 r == new && timetableOk img then
            let g : Handle := if h.active then { h with a := some (img, r), active := false } else { h with b := some (img, r), active := true }
            st .ok (s.modDisp fun d => { d with handles := d.handles.map fun (x : Handle) => if x.tth == tth then g else x })
          else st .rollback s)

end Sys2Proof.Machine
end

