-- ==== Sys2Proof/Machine/Physical.lean ====
section
/-!
DEFINITION. The scan blocks (R356 to R361), the package's power, heat and resets (R407, R415 to R420), attestation (R408)
and the Rilduas ports (R367).
-/
namespace Sys2Proof.Machine

open Sys2Proof

/-! ### Scan (Table 16.3) -/

def State.setScan (s : State) (i : Nat) (x : Scan) : State := s.modDisp fun d => { d with scans := setKey d.scans i x }

/-- A HOLD takes a core that is free under R180, in no scrub of R355 and keeping no seal. -/
def State.holdable (s : State) (i : Nat) : Bool :=
  let c := s.getCore i
  s.inMap i && c.iss.status == .free && c.owner.isNone

/-- What the commands of a cycle and the abort condition make of a scan at the cycle's end: the highest row of Table 16.3 that
fits its state; any other command is ignored (R358). -/
def Scan.turn (x : Scan) (holdable : Bool) (now : Nat) : Scan :=
  let y := { x with cmds := [], abort := false }
  if x.cmds.contains 1 && x.state == 0 && holdable then { y with state := 1, ab := false, elapsed := 0 }
  else if x.abort && x.state == 2 then { y with state := 0, ab := true }
  else if x.abort && x.state == 3 then
    { y with state := 4, ab := true, elapsed := BitVec.ofNat 32 (170000 - min 170000 (x.until_ - now)), until_ := now + 5888 }
  else if x.cmds.contains 2 && x.state == 1 then { y with state := 2 }
  else if x.cmds.contains 3 && (x.state == 1 || x.state == 5) then { y with state := 0 }
  else y

/-- The end of a cycle for every scan block. -/
def State.scanTurns (s : State) : State :=
  s.disp.scans.foldl (fun (s : State) (i, x) =>
    if x.cmds.isEmpty && !x.abort then s else s.setScan i (x.turn (s.holdable i) s.tb)) s

/-- CMD written. -/
def State.writeCmd (s : State) (i : Nat) (cmd : BitVec 3) : State :=
  s.setScan i { s.scan i with cmd := cmd, cmds := (s.scan i).cmds ++ [cmd] }

def execScanHold (core : Nat) (s : State) : Result := .next (s.writeCmd core 1)
def execScanStart (core : Nat) (s : State) : Result := .next (s.writeCmd core 2)
def execScanRelease (core : Nat) (s : State) : Result := .next (s.writeCmd core 3)

/-- A copy holds an unlanded beat for the window of core `i`. -/
def State.beatFor (s : State) (i : Nat) : Bool :=
  s.eng.lands.any fun l => (l.pieces.any fun (a, _) => inSram a && coreAt a == i) || l.words.any fun (a, _) => inSram a && coreAt a == i

/-- SCAN_DRAIN_END: RUN begins in the next cycle. -/
def execScanDrainEnd (core : Nat) (s : State) : Result :=
  let x := s.scan core
  .next (if x.state == 2 && !s.beatFor core then s.setScan core { x with state := 3, until_ := s.tb + 170000 } else s)

/-- Every private byte of a core as RUN leaves it: free bytes, with valid codes (R359). -/
def State.runPattern (s : State) (i : Nat) : State :=
  let s := s.scrubCore i
  let parts := [(0, 0x72000)] ++ ((List.range 4).filterMap fun q =>
    if (s.getCore i).shared.getLsbD q then none else some (0x80000 + 0x10000 * q, 0x10000)) ++ [(0xC0000, 0x8000)]
  let s := parts.foldl (fun (s : State) (o, n) => s.modMem fun m =>
    (List.range n).foldl (fun (m : Mem) k =>
      if codePad (coreBase i + o + k) then m else m.set (coreBase i + o + k) (Config.scanByte s.free (o + k))) m) s
  { s with free := s.free + 1 }

/-- SCAN_RUN_END: the 170,000th cycle of RUN; the signature is a free value (R359). -/
def execScanRunEnd (core : Nat) (s : State) : Result :=
  let x := s.scan core
  .next (if x.state == 3 && x.until_ == s.tb then
      let y := { x with ssiga := Config.scanSignature s.free, elapsed := 170000 }
      let s := { s with free := s.free + 1 }
      if y.ssiga == y.ssigx then s.setScan core { y with state := 4, until_ := s.tb + 5888 }
      else (s.setScan core { y with state := 6 }).runPattern core
    else s)

/-- SCAN_SCRUB_END: the 5,888th cycle of SCRUB; the core belongs to no world. -/
def execScanScrubEnd (core : Nat) (s : State) : Result :=
  let x := s.scan core
  .next (if x.state == 4 && x.until_ == s.tb then
      ((s.scrubCore core).modCore core fun c => { c with owner := none, scrubEnd := none }).setScan core
        { x with state := if x.ab then 0 else 5 }
    else s)

/-- What a scan block has to do at the end of this cycle, by its number in Table 16.2. -/
def State.scanEnds (s : State) : Option (Nat × Nat) :=
  s.disp.scans.findSome? fun (i, x) =>
    if x.state == 2 && !s.beatFor i then some (i, 2)
    else if (x.state == 3 || x.state == 4) && x.until_ == s.tb then some (i, x.state.toNat)
    else none

/-- DIE_RESET: the scan blocks of the die's cores return to reset, and a core that a scan held has zero memories. -/
def execDieReset (die : BitVec 4) (s : State) : Result :=
  let mine := s.disp.scans.filter fun (i, _) => i / 256 == die.toNat
  let s := mine.foldl (fun (s : State) (i, x) =>
    if x.state == 0 then s else (s.scrubCore i).modCore i fun c => { c with owner := none, scrubEnd := none }) s
  .next (s.modDisp fun d => { d with scans := d.scans.filter fun (i, _) => i / 256 != die.toNat })

/-! ### Power and heat (R415, R416, R420) -/

/-- POWER_CAP_HOLD: the average over the last 1 ms, in watts, holds or frees selection. -/
def execPowerCapHold (watts : Nat) (s : State) : Result :=
  .next { s with mon := { s.mon with powerHold :=
    if s.mon.pcap < watts then true else if 100 * watts ≤ 95 * s.mon.pcap then false else s.mon.powerHold } }

/-- THERMAL_HOLD: a die's temperature. At 105 it holds selection, until every die is below 100. -/
def execThermalHold (die : BitVec 4) (celsius : Nat) (s : State) : Result :=
  let hot := if 100 ≤ celsius then (if s.mon.hot.contains die then s.mon.hot else s.mon.hot ++ [die])
    else s.mon.hot.filter (· != die)
  .next { s with mon := { s.mon with
    hot := hot, thermalHold := if 105 ≤ celsius then true else if hot.isEmpty then false else s.mon.thermalHold } }

/-- SENSOR_UPDATE. -/
def execSensorUpdate (sensor value : Nat) (s : State) : Result :=
  .next { s with mon := { s.mon with sensors := setKey s.mon.sensors sensor value } }

/-- The package as it leaves reset with some cores in the maps; what the outside world sends, and has been told, stays. -/
def State.powered (s : State) (prompt token : BitVec 1024) : State :=
  let r := State.reset.modDisp fun d => { d with mapPrompt := prompt, mapToken := token }
  { r with inputs := s.inputs, out := s.out, net := s.net, free := s.free }

/-- POWER_UP: bit i of `pass` is core i's start-up scan test (R419). -/
def execPowerUp (pass : BitVec 2048) (s : State) : Result :=
  .next (s.powered (pass.extractLsb' 0 1024) (pass.extractLsb' 1024 1024))

/-- CORE_REGULATOR_TRIP: the package is reset (R416). -/
def execCoreRegulatorTrip (s : State) : Result := .next (s.powered (BitVec.allOnes 1024) (BitVec.allOnes 1024))
/-- THERMAL_RESET (R420). -/
def execThermalReset (s : State) : Result := .next (s.powered (BitVec.allOnes 1024) (BitVec.allOnes 1024))

/-! ### Firmware image and attestation (R407, R408) -/

/-- A firmware processor that starts an image at its first word, at the monitor level (notes/assumptions/41.md). -/
def State.bootProcessor (s : State) (p : Nat) : State :=
  s.modCore (2048 + p) fun c => { Core.reset with
    ctl := { Core.reset.ctl with c := Core.reset.ctl.c.set 0 (mkCap 257 63 0 (2 ^ 63)) }
    sys := { Core.reset.sys with world := 257 }
    iss := { Core.reset.iss with status := .running, next := s.tb + 1, run := c.iss.run + 1 }
    fw := some Fw.reset }

/-- The digest field of an image header (notes/assumptions/41.md). -/
def headerDigest (hdr : List Byte) : List Byte := hdr.drop 32

/-- The three checks of R407 on an image. -/
def imageOk (hdr body sig : List Byte) : Bool :=
  hdr.length == 64 && leNat (hdr.take 2) == 0x4657 && Config.verifyImage (hdr ++ body) sig && shake256 body == headerDigest hdr
    && Config.fusedMinimum ≤ leNat ((hdr.drop 4).take 4)

/-- FIRMWARE_IMAGE_LOAD. -/
def execFirmwareImageLoad (hdr body sig : List Byte) (s : State) : Result :=
  .next (if !imageOk hdr body sig then s.say (.image 5)
    else
      let k := Config.imageRegister hdr % 4
      let old := (s.mon.measure.toList[k]?).getD []
      let s := { s with mon := { s.mon with
        measure := s.mon.measure.setIfInBounds k (shake256 (old ++ headerDigest hdr))
        image := body, svn := leNat ((hdr.drop 4).take 4) } }
      let s := s.modMem fun m => m.write 0 (body.take 0x400000)
      ((List.range 16).foldl State.bootProcessor s).say (.image 0))

/-- The bytes of a report before its signature. -/
def State.reportBody (s : State) (nonce : List Byte) (world : Nat) : List Byte :=
  let w := s.world? world
  let head := [0x54, 0x41] ++ leBytes 1 2 ++ padTo 32 (nonce.take 32) ++ s.mon.measure.toList.flatMap fun m => padTo 32 (m.take 32)
  let id := leBytes (if w.isSome then world else 0xFFFF) 2 ++ [match w with
    | some x => if x.conf then 1 else 0
    | none => 0]
  padTo 192 (head ++ id) ++ padTo 1568 (match w with
    | some _ => (Config.kemKey world).take 1568
    | none => [])

/-- ATTESTATION_REQUEST. -/
def execAttestationRequest (nonce : List Byte) (world : BitVec 16) (s : State) : Result :=
  let b := s.reportBody nonce world.toNat
  .next (s.say (.report (b ++ Config.signReport b)))

/-- CERTIFICATE_REQUEST. -/
def execCertificateRequest (s : State) : Result := .next (s.say (.report Config.certificate))

/-! ### Rilduas ports (R367) -/

/-- FLIT_CRC_REPLAY: the port sends the flit again. -/
def execFlitCrcReplay (port : BitVec 5) (seq : Nat) (s : State) : Result :=
  .next { s with mon := { s.mon with replay := setKey s.mon.replay port.toNat seq } }

/-- PORT_RETRAIN: traffic leaves a port that is down and uses one that is up. -/
def execPortRetrain (port : BitVec 5) (up : Bool) (s : State) : Result :=
  .next { s with mon := { s.mon with portsUp :=
    if up then s.mon.portsUp ||| (1#32 <<< port.toNat) else s.mon.portsUp &&& ~~~(1#32 <<< port.toNat) } }

end Sys2Proof.Machine
end

