-- ==== Sys2Proof/Machine/Service.lean ====
section
/-!
DEFINITION. What the scheduler and the monitor do by themselves: servicing an XLATE (R239, R290, R328), writing registers
that have no row of their own (R180, R185, R235, R293, R308, R356, R415), and ending a plug-in's call (R403).
-/
namespace Sys2Proof.Machine

open Sys2Proof

/-! ### XLATE_SERVICE -/

/-- The address is unmapped: a request ends with CAPPERM. -/
def State.unmapped (s : State) (j : Nat) (pc : BitVec 12) (va : W64) (src issue : Nat) : State :=
  s.endRequest j s.tb Cause.capperm.code ⟨.capperm, pc, va, finfo 0 src true 4 (s.tb - issue)⟩

/-- One waiter is released, or hears that its address is unmapped. -/
def State.serve (s : State) (x : Xlate) (mapped : Bool) : State :=
  match x.who with
  | .copy id =>
    match s.copy? id with
    | none => s
    | some c =>
      if c.state != .parked then s
      else if mapped then s.modCopy id fun c => { c with time := if c.saved then c.time else s.tb }
      else
        let t := s.endCopy c
        match c.asker with
        | .queue k => s.queueStop k (some id) .capperm false |>.endCopy c
        | _ =>
          match s.issuerLive c with
          | some i => t.unmapped (s.getCore i).bnd.jetton c.pc x.va (engineSrc c.engine) c.issue
          | none => t
  | .task i =>
    if !mapped then
      let c := s.getCore i
      if c.iss.status == .free then s else s.unmapped c.bnd.jetton c.sys.fpc x.va 7 s.tb
    else if s.replayHeld i && (s.getCore i).iss.heldBy.isNone then s.schedule [(i, 3)] (max (s.getCore i).iss.next (s.tb + 64))
    else s
  | .queue k => if mapped then s else (s.modQueue k fun q => { q with holdXlate := false }).queueStop k none .capperm false
  | .sealOf i =>
    if mapped then s.at_ s.tb (.sealRecordComplete i) else s.sealLost (s.getCore i).bnd.jetton (.refused .capperm x.va.toNat)
  | .record j q =>
    if mapped then s
    else
      match (s.jetton j).ended.find? (·.queue == q) with
      | some r => s.finishRecord j s.tb r
      | none => s
  | .collective id => s.releaseColl id mapped
  | .bind _ => s
  | .host _ => s

/-- XLATE_SERVICE: every master that reported the address is served. -/
def execXlateService (world : Nat) (va : W64) (mapped : Bool) (s : State) : Result :=
  let hit (x : Xlate) : Bool := x.world == world && x.va == va
  let mine := s.disp.xlates.filter hit
  let s := s.modDisp fun d => { d with xlates := d.xlates.filter fun x => !hit x }
  .next (mine.foldl (fun (s : State) x => s.serve x mapped) s)

/-! ### REGISTER_WRITE -/

/-- A field of a segment's directory entry (Table 12.8). -/
def Segment.write (g : Segment) (f : SegField) (v : BitVec 256) : Segment :=
  match f with
  | .peer0 => { g with peer0 := v.setWidth 10 }
  | .peer1 => { g with peer1 := v.setWidth 10 }
  | .lba => { g with lba := v.setWidth 64 }
  | .p0v => { g with p0v := v.getLsbD 0 }
  | .p1v => { g with p1v := v.getLsbD 0 }

/-- A segment is demanded for a world, or its frame is taken back while no world maps it (R308, R311). -/
def State.placeSegment (s : State) (digest : List Byte) (world : Nat) (want : Bool) : State :=
  if want then
    if s.eng.demands.contains (digest, some world) then s
    else s.modEng fun e => { e with demands := e.demands ++ [(digest, some world)] }
  else s.modSegment digest fun g => if g.maps == 0 && s.eng.fetch != some digest then { g with sst := 0, pieces := 0, frame := none } else g

/-- A world's weight map names a segment at a window slot, or no longer does (R308); a failed segment is never mapped. -/
def State.writeWeightMap (s : State) (w k : Nat) (digest : List Byte) (on : Bool) : State :=
  let p := s.prefix_ w
  let old := getKey p.weights k
  let s := match old with
    | some d => s.modSegment d fun g => { g with maps := g.maps - 1 }
    | none => s
  if on && (match (s.segment? digest).map (·.sst) with | some 1 => true | some 2 => true | _ => false) then
    (s.setPrefix { p with weights := setKey p.weights k digest }).modSegment digest fun g => { g with maps := g.maps + 1 }
  else s.setPrefix { p with weights := delKey p.weights k }

/-- REGISTER_WRITE. A segment's entry exists from the first write of one of its fields on (R308); the placing of a segment names in
bits 9 to 1 the world that demands it. -/
def execRegisterWrite (r : RegTarget) (value : BitVec 256) (s : State) : Result :=
  .next (match r with
    | .jetton j f => s.writeJetton j f value
    | .world w f => s.modWorld w fun x => x.write f value
    | .coreMap token idx =>
      let put (m : BitVec 1024) : BitVec 1024 :=
        if value.getLsbD 0 then m ||| (1#1024 <<< idx.toNat) else m &&& ~~~(1#1024 <<< idx.toNat)
      s.modDisp fun d => if token then { d with mapToken := put d.mapToken } else { d with mapPrompt := put d.mapPrompt }
    | .ssigx i => s.setScan i { s.scan i with ssigx := value.setWidth 64 }
    | .sctl i =>
      (s.setScan i { s.scan i with aprio := value.extractLsb' 9 3, apen := value.getLsbD 8 }).writeCmd i (value.setWidth 3)
    | .segment d f => (s.listSegment d).modSegment d fun g => g.write f value
    | .segmentPlace d => s.placeSegment d (natBits value.toNat 1 9) (value.getLsbD 0)
    | .weightMap w k d => s.writeWeightMap w k d (value.getLsbD 0)
    | .sharedQuarter i q => s.modCore i fun c => { c with
        shared := if value.getLsbD 0 then c.shared ||| (1#4 <<< q.toNat) else c.shared &&& ~~~(1#4 <<< q.toNat) }
    | .quota w => s.setPrefix { s.prefix_ w with quota := value.toNat % 2 ^ 22 }
    | .pcap => if 1000 ≤ value.toNat && value.toNat ≤ 4500 then { s with mon := { s.mon with pcap := value.toNat } } else s)

/-! ### PLUGIN_CALL_TIMEOUT -/

/-- The call of a plug-in on firmware processor `p` has not returned after 4,096 cycles. -/
def State.pluginLate (s : State) (p : Nat) : Bool :=
  let c := s.getCore (2048 + p)
  match c.fw with
  | some f => c.iss.status == .running && (f.level == .plugin || f.calls.any fun (l, _) => l == .plugin) && f.callStart + 4096 ≤ s.tb
  | none => false

/-- PLUGIN_CALL_TIMEOUT: the call ends with OVERRUN and the level that made it goes on. -/
def execPluginCallTimeout (fp : Nat) (s : State) : Result :=
  .next (if s.pluginLate fp then
      s.modCore (2048 + fp) fun c => match c.fw with
        | some f =>
          let (f, pc) := f.endPlugin false
          { c with
            fw := some { f with callStart := s.tb }
            sys := { c.sys with
              fcause := BitVec.ofNat 8 Cause.overrun.code, fpc := BitVec.ofNat 12 c.iss.pc, faddr := 0, finfo := finfo 0 0 false 0 0 }
            iss := { c.iss with wait := .none, pc := pc, next := s.tb + 1, run := c.iss.run + 1, turn := some [] } }
        | none => c
    else s)

end Sys2Proof.Machine
end

