-- ==== Sys2Proof/Machine/Dispatch.lean ====
section
/-!
DEFINITION. The dispatch of every instruction of Sys2Proof.Instr to its meaning, one arm for each constructor.
-/
namespace Sys2Proof.Machine

open Sys2Proof

def exec (i : Instr) (s : State) : Host.Outcome State Fault Refusal :=
  match i with
  | .add d a b => Sys2Proof.Machine.execAdd d a b s
  | .sub d a b => Sys2Proof.Machine.execSub d a b s
  | .and d a b => Sys2Proof.Machine.execAnd d a b s
  | .or d a b => Sys2Proof.Machine.execOr d a b s
  | .xor d a b => Sys2Proof.Machine.execXor d a b s
  | .andn d a b => Sys2Proof.Machine.execAndn d a b s
  | .shl d a b => Sys2Proof.Machine.execShl d a b s
  | .shrl d a b => Sys2Proof.Machine.execShrl d a b s
  | .shra d a b => Sys2Proof.Machine.execShra d a b s
  | .rotl d a b => Sys2Proof.Machine.execRotl d a b s
  | .min d a b => Sys2Proof.Machine.execMin d a b s
  | .max d a b => Sys2Proof.Machine.execMax d a b s
  | .minu d a b => Sys2Proof.Machine.execMinu d a b s
  | .maxu d a b => Sys2Proof.Machine.execMaxu d a b s
  | .addi d a imm => Sys2Proof.Machine.execAddi d a imm s
  | .andi d a imm => Sys2Proof.Machine.execAndi d a imm s
  | .ori d a imm => Sys2Proof.Machine.execOri d a imm s
  | .xori d a imm => Sys2Proof.Machine.execXori d a imm s
  | .shli d a sh => Sys2Proof.Machine.execShli d a sh s
  | .shrli d a sh => Sys2Proof.Machine.execShrli d a sh s
  | .shrai d a sh => Sys2Proof.Machine.execShrai d a sh s
  | .movi d imm => Sys2Proof.Machine.execMovi d imm s
  | .movhi d imm => Sys2Proof.Machine.execMovhi d imm s
  | .mov d a => Sys2Proof.Machine.execMov d a s
  | .clz d a => Sys2Proof.Machine.execClz d a s
  | .ctz d a => Sys2Proof.Machine.execCtz d a s
  | .popc d a => Sys2Proof.Machine.execPopc d a s
  | .sext d a n1 => Sys2Proof.Machine.execSext d a n1 s
  | .bfx d a pos len1 => Sys2Proof.Machine.execBfx d a pos len1 s
  | .bfi d a pos len1 => Sys2Proof.Machine.execBfi d a pos len1 s
  | .sel d a b k => Sys2Proof.Machine.execSel d a b k s
  | .mort d a b => Sys2Proof.Machine.execMort d a b s
  | .umort d a => Sys2Proof.Machine.execUmort d a s
  | .mul d a b => Sys2Proof.Machine.execMul d a b s
  | .mulhs d a b => Sys2Proof.Machine.execMulhs d a b s
  | .mulhu d a b => Sys2Proof.Machine.execMulhu d a b s
  | .divs d a b => Sys2Proof.Machine.execDivs d a b s
  | .divu d a b => Sys2Proof.Machine.execDivu d a b s
  | .rems d a b => Sys2Proof.Machine.execRems d a b s
  | .remu d a b => Sys2Proof.Machine.execRemu d a b s
  | .cmp kd a b cond => Sys2Proof.Machine.execCmp kd a b cond s
  | .cmpi kd a imm cond => Sys2Proof.Machine.execCmpi kd a imm cond s
  | .kop kd ka kb op => Sys2Proof.Machine.execKop kd ka kb op s
  | .ld d c sz off => Sys2Proof.Machine.execLd d c sz off s
  | .lds d c sz off => Sys2Proof.Machine.execLds d c sz off s
  | .st d c sz off => Sys2Proof.Machine.execSt d c sz off s
  | .ldc cd c off => Sys2Proof.Machine.execLdc cd c off s
  | .stc cd c off => Sys2Proof.Machine.execStc cd c off s
  | .loadStallComplete core => Sys2Proof.Machine.execLoadStallComplete core s
  | .cbnd cd ca b => Sys2Proof.Machine.execCbnd cd ca b s
  | .cperm cd ca b => Sys2Proof.Machine.execCperm cd ca b s
  | .cadd cd ca b => Sys2Proof.Machine.execCadd cd ca b s
  | .cset cd ca b => Sys2Proof.Machine.execCset cd ca b s
  | .cget d ca field => Sys2Proof.Machine.execCget d ca field s
  | .cseal cd ca cb => Sys2Proof.Machine.execCseal cd ca cb s
  | .cunsl cd ca cb => Sys2Proof.Machine.execCunsl cd ca cb s
  | .ctst kd ca cb => Sys2Proof.Machine.execCtst kd ca cb s
  | .b k sense off => Sys2Proof.Machine.execB k sense off s
  | .j off => Sys2Proof.Machine.execJ off s
  | .jr a => Sys2Proof.Machine.execJr a s
  | .jf tag target => Sys2Proof.Machine.execJf tag target s
  | .call d off => Sys2Proof.Machine.execCall d off s
  | .ret a => Sys2Proof.Machine.execRet a s
  | .loop lvl count off => Sys2Proof.Machine.execLoop lvl count off s
  | .loopr lvl reg off => Sys2Proof.Machine.execLoopr lvl reg off s
  | .vrun addr cnt c t => Sys2Proof.Machine.execVrun addr cnt c t s
  | .mrun addr cnt c t => Sys2Proof.Machine.execMrun addr cnt c t s
  | .trun addr cnt c t => Sys2Proof.Machine.execTrun addr cnt c t s
  | .streamStart core col => Sys2Proof.Machine.execStreamStart core col s
  | .streamEndEvent core col => Sys2Proof.Machine.execStreamEndEvent core col s
  | .trap k sense code => Sys2Proof.Machine.execTrap k sense code s
  | .svc a code => Sys2Proof.Machine.execSvc a code s
  | .srd d num => Sys2Proof.Machine.execSrd d num s
  | .swr num a => Sys2Proof.Machine.execSwr num a s
  | .time d a tb => Sys2Proof.Machine.execTime d a tb s
  | .bkpt code => Sys2Proof.Machine.execBkpt code s
  | .aadd d c int32 off => Sys2Proof.Machine.execAadd d c int32 off s
  | .axch d c off => Sys2Proof.Machine.execAxch d c off s
  | .acas d c off => Sys2Proof.Machine.execAcas d c off s
  | .ald d c off => Sys2Proof.Machine.execAld d c off s
  | .ast d c off => Sys2Proof.Machine.execAst d c off s
  | .homeOperationAct id => Sys2Proof.Machine.execHomeOperationAct id s
  | .homeOperationReturn id => Sys2Proof.Machine.execHomeOperationReturn id s
  | .ssig d c scope off => Sys2Proof.Machine.execSsig d c scope off s
  | .sset d c off => Sys2Proof.Machine.execSset d c off s
  | .swait d c cond off => Sys2Proof.Machine.execSwait d c cond off s
  | .swaitConsume d c unsigned off => Sys2Proof.Machine.execSwaitConsume d c unsigned off s
  | .rel d c scope off => Sys2Proof.Machine.execRel d c scope off s
  | .acq d c cond scope off => Sys2Proof.Machine.execAcq d c cond scope off s
  | .homeWaitComplete id => Sys2Proof.Machine.execHomeWaitComplete id s
  | .rinit rn a => Sys2Proof.Machine.execRinit rn a s
  | .rclm d c rn n => Sys2Proof.Machine.execRclm d c rn n s
  | .rwfl d c rn n => Sys2Proof.Machine.execRwfl d c rn n s
  | .rwfr d c rn n => Sys2Proof.Machine.execRwfr d c rn n s
  | .rpub c rn n => Sys2Proof.Machine.execRpub c rn n s
  | .rrel c rn n => Sys2Proof.Machine.execRrel c rn n s
  | .rstat d c rn => Sys2Proof.Machine.execRstat d c rn s
  | .parv d lvl => Sys2Proof.Machine.execParv d lvl s
  | .pwait lvl a => Sys2Proof.Machine.execPwait lvl a s
  | .pbar lvl => Sys2Proof.Machine.execPbar lvl s
  | .phaseArrival dom core p => Sys2Proof.Machine.execPhaseArrival dom core p s
  | .phaseCopyRegistration dom id p => Sys2Proof.Machine.execPhaseCopyRegistration dom id p s
  | .phaseCopyLanding dom id p => Sys2Proof.Machine.execPhaseCopyLanding dom id p s
  | .phaseCopyWithdrawal dom id p => Sys2Proof.Machine.execPhaseCopyWithdrawal dom id p s
  | .phaseWaitComplete core => Sys2Proof.Machine.execPhaseWaitComplete core s
  | .fence scope => Sys2Proof.Machine.execFence scope s
  | .wevComplete core => Sys2Proof.Machine.execWevComplete core s
  | .carry d c off => Sys2Proof.Machine.execCarry d c off s
  | .cpy a b len card t => Sys2Proof.Machine.execCpy a b len card t s
  | .cpys a b len card t => Sys2Proof.Machine.execCpys a b len card t s
  | .cpyz a b len card t => Sys2Proof.Machine.execCpyz a b len card t s
  | .cpyc a b len card t => Sys2Proof.Machine.execCpyc a b len card t s
  | .cpyg a b len card t => Sys2Proof.Machine.execCpyg a b len card t s
  | .cpym a b len card t => Sys2Proof.Machine.execCpym a b len card t s
  | .cpya a b len card t => Sys2Proof.Machine.execCpya a b len card t s
  | .cpyx a b len card t => Sys2Proof.Machine.execCpyx a b len card t s
  | .cfch b len card t => Sys2Proof.Machine.execCfch b len card t s
  | .cwm d wm clear => Sys2Proof.Machine.execCwm d wm clear s
  | .ccan d k => Sys2Proof.Machine.execCcan d k s
  | .cstat d k => Sys2Proof.Machine.execCstat d k s
  | .copyEngineIssue id => Sys2Proof.Machine.execCopyEngineIssue id s
  | .copyBeatRead id => Sys2Proof.Machine.execCopyBeatRead id s
  | .copyBeatLand land => Sys2Proof.Machine.execCopyBeatLand land s
  | .copySemaphoreIncrement addr => Sys2Proof.Machine.execCopySemaphoreIncrement addr s
  | .copyRecordLanded core k id => Sys2Proof.Machine.execCopyRecordLanded core k id s
  | .followOnPresent id => Sys2Proof.Machine.execFollowOnPresent id s
  | .followOnStart core => Sys2Proof.Machine.execFollowOnStart core s
  | .vadd ty d a b mem st => Sys2Proof.Machine.execVadd ty d a b mem st s
  | .vsub ty d a b mem st => Sys2Proof.Machine.execVsub ty d a b mem st s
  | .vmul ty d a b mem st => Sys2Proof.Machine.execVmul ty d a b mem st s
  | .vfma ty d a b mem st => Sys2Proof.Machine.execVfma ty d a b mem st s
  | .vfms ty d a b mem st => Sys2Proof.Machine.execVfms ty d a b mem st s
  | .vmax ty d a b mem st => Sys2Proof.Machine.execVmax ty d a b mem st s
  | .vmin ty d a b mem st => Sys2Proof.Machine.execVmin ty d a b mem st s
  | .vcmp ty md cond a b mem st => Sys2Proof.Machine.execVcmp ty md cond a b mem st s
  | .vld d row st => Sys2Proof.Machine.execVld d row st s
  | .vst src m g row st => Sys2Proof.Machine.execVst src m g row st s
  | .vldb d l row st => Sys2Proof.Machine.execVldb d l row st s
  | .vldx d a row st => Sys2Proof.Machine.execVldx d a row st s
  | .vstx src a m row st => Sys2Proof.Machine.execVstx src a m row st s
  | .vmov form d a mem st => Sys2Proof.Machine.execVmov form d a mem st s
  | .vabs ty d a mem st => Sys2Proof.Machine.execVabs ty d a mem st s
  | .vneg ty d a mem st => Sys2Proof.Machine.execVneg ty d a mem st s
  | .vsel d a m g mem st => Sys2Proof.Machine.execVsel d a m g mem st s
  | .vand d a b mem st => Sys2Proof.Machine.execVand d a b mem st s
  | .vor d a b mem st => Sys2Proof.Machine.execVor d a b mem st s
  | .vxor d a b mem st => Sys2Proof.Machine.execVxor d a b mem st s
  | .vshl d a sh mem st => Sys2Proof.Machine.execVshl d a sh mem st s
  | .vshr d a sh mem st => Sys2Proof.Machine.execVshr d a sh mem st s
  | .vsra d a sh mem st => Sys2Proof.Machine.execVsra d a sh mem st s
  | .vcvt d a dt srcT h mem st => Sys2Proof.Machine.execVcvt d a dt srcT h mem st s
  | .vrcp ty d a mem st => Sys2Proof.Machine.execVrcp ty d a mem st s
  | .vrsq ty d a mem st => Sys2Proof.Machine.execVrsq ty d a mem st s
  | .vexp2 ty d a mem st => Sys2Proof.Machine.execVexp2 ty d a mem st s
  | .vlg2 ty d a mem st => Sys2Proof.Machine.execVlg2 ty d a mem st s
  | .vrsum ty d a mem st => Sys2Proof.Machine.execVrsum ty d a mem st s
  | .vrmax ty d a mem st => Sys2Proof.Machine.execVrmax ty d a mem st s
  | .vbmax a t f mem st => Sys2Proof.Machine.execVbmax a t f mem st s
  | .vqsc d k st => Sys2Proof.Machine.execVqsc d k st s
  | .vqcvt d a p t f mem st => Sys2Proof.Machine.execVqcvt d a p t f mem st s
  | .vshuf d a b g st => Sys2Proof.Machine.execVshuf d a b g st s
  | .viota d g st => Sys2Proof.Machine.execViota d g st s
  | .vbcst d a l st => Sys2Proof.Machine.execVbcst d a l st s
  | .vdfr a m g mem st => Sys2Proof.Machine.execVdfr a m g mem st s
  | .vdfd d e m st => Sys2Proof.Machine.execVdfd d e m st s
  | .vdfn d clear st => Sys2Proof.Machine.execVdfn d clear st s
  | .vnop st => Sys2Proof.Machine.execVnop st s
  | .tld t row st => Sys2Proof.Machine.execTld t row st s
  | .tseg ty d a h st => Sys2Proof.Machine.execTseg ty d a h st s
  | .tint ty d a h st => Sys2Proof.Machine.execTint ty d a h st s
  | .tqad ty d a h st => Sys2Proof.Machine.execTqad ty d a h st s
  | .tclmp ty d a h st => Sys2Proof.Machine.execTclmp ty d a h st s
  | .mcfg p g x st => Sys2Proof.Machine.execMcfg p g x st s
  | .mwld a src st => Sys2Proof.Machine.execMwld a src st s
  | .mwsw st => Sys2Proof.Machine.execMwsw st s
  | .mma a e acc st => Sys2Proof.Machine.execMma a e acc st s
  | .mmo a e acc st => Sys2Proof.Machine.execMmo a e acc st s
  | .mdrn d aw st => Sys2Proof.Machine.execMdrn d aw st s
  | .mzro acc st => Sys2Proof.Machine.execMzro acc st s
  | .mscl a j st => Sys2Proof.Machine.execMscl a j st s
  | .mnop st => Sys2Proof.Machine.execMnop st s
  | .kvhs a b => Sys2Proof.Machine.execKvhs a b s
  | .kvlk a b ref => Sys2Proof.Machine.execKvlk a b ref s
  | .kvin d a b => Sys2Proof.Machine.execKvin d a b s
  | .kvap b => Sys2Proof.Machine.execKvap b s
  | .kvrl d b => Sys2Proof.Machine.execKvrl d b s
  | .kvex d a b => Sys2Proof.Machine.execKvex d a b s
  | .kvim d a b => Sys2Proof.Machine.execKvim d a b s
  | .wseg a b => Sys2Proof.Machine.execWseg a b s
  | .wprf a => Sys2Proof.Machine.execWprf a s
  | .prefixCommandDepart id => Sys2Proof.Machine.execPrefixCommandDepart id s
  | .prefixCommandStart id => Sys2Proof.Machine.execPrefixCommandStart id s
  | .prefixCommandAct id => Sys2Proof.Machine.execPrefixCommandAct id s
  | .prefixResultWrite id => Sys2Proof.Machine.execPrefixResultWrite id s
  | .prefixCompletionCount id => Sys2Proof.Machine.execPrefixCompletionCount id s
  | .journalReply id => Sys2Proof.Machine.execJournalReply id s
  | .xseq d a b => Sys2Proof.Machine.execXseq d a b s
  | .xbar a b => Sys2Proof.Machine.execXbar a b s
  | .xcan d a b => Sys2Proof.Machine.execXcan d a b s
  | .xwait d a b => Sys2Proof.Machine.execXwait d a b s
  | .fabricWaitComplete core => Sys2Proof.Machine.execFabricWaitComplete core s
  | .xar a b len card t => Sys2Proof.Machine.execXar a b len card t s
  | .xag a b len card t => Sys2Proof.Machine.execXag a b len card t s
  | .xrs a b len card t => Sys2Proof.Machine.execXrs a b len card t s
  | .xata a b len card t => Sys2Proof.Machine.execXata a b len card t s
  | .collectiveEngineEntry id => Sys2Proof.Machine.execCollectiveEngineEntry id s
  | .collectiveStart comm n => Sys2Proof.Machine.execCollectiveStart comm n s
  | .collectiveComplete key => Sys2Proof.Machine.execCollectiveComplete key s
  | .heartbeat comm => Sys2Proof.Machine.execHeartbeat comm s
  | .heartbeatTimeout comm => Sys2Proof.Machine.execHeartbeatTimeout comm s
  | .selection token => Sys2Proof.Machine.execSelection token s
  | .starvationBar token => Sys2Proof.Machine.execStarvationBar token s
  | .taskStart core => Sys2Proof.Machine.execTaskStart core s
  | .taskEnd core => Sys2Proof.Machine.execTaskEnd core s
  | .taskRestart core => Sys2Proof.Machine.execTaskRestart core s
  | .completionRecordWrite jetton => Sys2Proof.Machine.execCompletionRecordWrite jetton s
  | .overrun core => Sys2Proof.Machine.execOverrun core s
  | .replayStart core => Sys2Proof.Machine.execReplayStart core s
  | .drainDivert core => Sys2Proof.Machine.execDrainDivert core s
  | .sealCore core => Sys2Proof.Machine.execSealCore core s
  | .sealRecordComplete core => Sys2Proof.Machine.execSealRecordComplete core s
  | .evictionComplete jetton => Sys2Proof.Machine.execEvictionComplete jetton s
  | .coreScrubStart core => Sys2Proof.Machine.execCoreScrubStart core s
  | .coreScrubEnd core => Sys2Proof.Machine.execCoreScrubEnd core s
  | .queueEntryTake queue => Sys2Proof.Machine.execQueueEntryTake queue s
  | .queuePollTimer queue => Sys2Proof.Machine.execQueuePollTimer queue s
  | .queueNop queue => Sys2Proof.Machine.execQueueNop queue s
  | .queueWait queue => Sys2Proof.Machine.execQueueWait queue s
  | .queueWaitComplete queue => Sys2Proof.Machine.execQueueWaitComplete queue s
  | .signal queue => Sys2Proof.Machine.execSignal queue s
  | .queueSet queue => Sys2Proof.Machine.execQueueSet queue s
  | .launch queue => Sys2Proof.Machine.execLaunch queue s
  | .launchEntryLanding queue id => Sys2Proof.Machine.execLaunchEntryLanding queue id s
  | .launchSemaphoreIncrement addr world => Sys2Proof.Machine.execLaunchSemaphoreIncrement addr world s
  | .copy queue => Sys2Proof.Machine.execCopy queue s
  | .fill queue => Sys2Proof.Machine.execFill queue s
  | .irq queue => Sys2Proof.Machine.execIrq queue s
  | .queueFence queue => Sys2Proof.Machine.execQueueFence queue s
  | .tstamp queue => Sys2Proof.Machine.execTstamp queue s
  | .queueXlateRetry queue => Sys2Proof.Machine.execQueueXlateRetry queue s
  | .scanDrainEnd core => Sys2Proof.Machine.execScanDrainEnd core s
  | .scanRunEnd core => Sys2Proof.Machine.execScanRunEnd core s
  | .scanScrubEnd core => Sys2Proof.Machine.execScanScrubEnd core s
  | .pluginCallTimeout fp => Sys2Proof.Machine.execPluginCallTimeout fp s
  | .nop => Sys2Proof.Machine.execNop s
  | .done => Sys2Proof.Machine.execDone s
  | .eret => Sys2Proof.Machine.execEret s
  | .wev => Sys2Proof.Machine.execWev s
  | .xlateService world va mapped => Sys2Proof.Machine.execXlateService world va mapped s
  | .coldStartFetch => Sys2Proof.Machine.execColdStartFetch s
  | .segmentPieceLand digest piece pds data => Sys2Proof.Machine.execSegmentPieceLand digest piece pds data s
  | .assign sender epoch key => Sys2Proof.Machine.execAssign sender epoch key s
  | .openMsg sender epoch comm n params => Sys2Proof.Machine.execOpenMsg sender epoch comm n params s
  | .cancel sender epoch key => Sys2Proof.Machine.execCancel sender epoch key s
  | .collectiveDoneMessage sender epoch comm n => Sys2Proof.Machine.execCollectiveDoneMessage sender epoch comm n s
  | .number epoch key n => Sys2Proof.Machine.execNumber epoch key n s
  | .opened epoch comm n => Sys2Proof.Machine.execOpened epoch comm n s
  | .empty epoch comm n => Sys2Proof.Machine.execEmpty epoch comm n s
  | .mismatch epoch comm n => Sys2Proof.Machine.execMismatch epoch comm n s
  | .cancelled epoch key n => Sys2Proof.Machine.execCancelled epoch key n s
  | .started epoch key => Sys2Proof.Machine.execStarted epoch key s
  | .allopened epoch comm n => Sys2Proof.Machine.execAllopened epoch comm n s
  | .standbyDecision epoch comm decision what => Sys2Proof.Machine.execStandbyDecision epoch comm decision what s
  | .standbyAck epoch comm decision => Sys2Proof.Machine.execStandbyAck epoch comm decision s
  | .epochAnnounce comm epoch primary => Sys2Proof.Machine.execEpochAnnounce comm epoch primary s
  | .preemptionRequest jetton => Sys2Proof.Machine.execPreemptionRequest jetton s
  | .evictionRequest jetton => Sys2Proof.Machine.execEvictionRequest jetton s
  | .jettonRelease jetton => Sys2Proof.Machine.execJettonRelease jetton s
  | .halt core => Sys2Proof.Machine.execHalt core s
  | .step core n => Sys2Proof.Machine.execStep core n s
  | .cont core => Sys2Proof.Machine.execCont core s
  | .rreg core r => Sys2Proof.Machine.execRreg core r s
  | .wreg core r value => Sys2Proof.Machine.execWreg core r value s
  | .flr world => Sys2Proof.Machine.execFlr world s
  | .registerWrite r value => Sys2Proof.Machine.execRegisterWrite r value s
  | .create p => Sys2Proof.Machine.execCreate p s
  | .destroy p => Sys2Proof.Machine.execDestroy p s
  | .grant p => Sys2Proof.Machine.execGrant p s
  | .revoke p => Sys2Proof.Machine.execRevoke p s
  | .resize p frames => Sys2Proof.Machine.execResize p frames s
  | .bwset p mask => Sys2Proof.Machine.execBwset p mask s
  | .install p r => Sys2Proof.Machine.execInstall p r s
  | .inval p => Sys2Proof.Machine.execInval p s
  | .query p => Sys2Proof.Machine.execQuery p s
  | .qctlReset p => Sys2Proof.Machine.execQctlReset p s
  | .qctlEnable p => Sys2Proof.Machine.execQctlEnable p s
  | .root p cap => Sys2Proof.Machine.execRoot p cap s
  | .migrateAttest p ok => Sys2Proof.Machine.execMigrateAttest p ok s
  | .migrateTrack p => Sys2Proof.Machine.execMigrateTrack p s
  | .migratePass p => Sys2Proof.Machine.execMigratePass p s
  | .migrateSeal p => Sys2Proof.Machine.execMigrateSeal p s
  | .migratePrefix p verified => Sys2Proof.Machine.execMigratePrefix p verified s
  | .migrateKeys p => Sys2Proof.Machine.execMigrateKeys p s
  | .migrateResume p => Sys2Proof.Machine.execMigrateResume p s
  | .jettonDoorbell fn jetton q widx => Sys2Proof.Machine.execJettonDoorbell fn jetton q widx s
  | .commandQueueDoorbell fn queue => Sys2Proof.Machine.execCommandQueueDoorbell fn queue s
  | .hostRead fn bar addr n => Sys2Proof.Machine.execHostRead fn bar addr n s
  | .hostWrite fn bar addr data => Sys2Proof.Machine.execHostWrite fn bar addr data s
  | .hostFetchadd fn addr bits x => Sys2Proof.Machine.execHostFetchadd fn addr bits x s
  | .hostSwap fn addr bits x => Sys2Proof.Machine.execHostSwap fn addr bits x s
  | .hostCas fn addr bits cmp x => Sys2Proof.Machine.execHostCas fn addr bits cmp x s
  | .roceSend qp payload imm => Sys2Proof.Machine.execRoceSend qp payload imm s
  | .roceRdmaWriteWithImmediate qp mkey addr payload imm => Sys2Proof.Machine.execRoceRdmaWriteWithImmediate qp mkey addr payload imm s
  | .udpRequestFrame header payload => Sys2Proof.Machine.execUdpRequestFrame header payload s
  | .timetableDifference tth base new entries img => Sys2Proof.Machine.execTimetableDifference tth base new entries img s
  | .scanHold core => Sys2Proof.Machine.execScanHold core s
  | .scanStart core => Sys2Proof.Machine.execScanStart core s
  | .scanRelease core => Sys2Proof.Machine.execScanRelease core s
  | .powerCapHold watts => Sys2Proof.Machine.execPowerCapHold watts s
  | .coreRegulatorTrip => Sys2Proof.Machine.execCoreRegulatorTrip s
  | .thermalHold die celsius => Sys2Proof.Machine.execThermalHold die celsius s
  | .thermalReset => Sys2Proof.Machine.execThermalReset s
  | .sensorUpdate sensor value => Sys2Proof.Machine.execSensorUpdate sensor value s
  | .powerUp pass => Sys2Proof.Machine.execPowerUp pass s
  | .firmwareImageLoad hdr body sig => Sys2Proof.Machine.execFirmwareImageLoad hdr body sig s
  | .attestationRequest nonce world => Sys2Proof.Machine.execAttestationRequest nonce world s
  | .certificateRequest => Sys2Proof.Machine.execCertificateRequest s
  | .flitCrcReplay port seq => Sys2Proof.Machine.execFlitCrcReplay port seq s
  | .portRetrain port up => Sys2Proof.Machine.execPortRetrain port up s
  | .dieReset die => Sys2Proof.Machine.execDieReset die s
  | .collectiveDataArrival key rank off data => Sys2Proof.Machine.execCollectiveDataArrival key rank off data s
  | .tierReadFailure digest => Sys2Proof.Machine.execTierReadFailure digest s

end Sys2Proof.Machine
end

