-- ==== Sys2Proof/Machine/Cycle.lean ====
section
/-!
DEFINITION. The order of a cycle: what is due, place by place (notes/assumptions/7.md). Every place first gives the
instructions that are due there, one at a time, and then passes on with what the cycle does there by itself.
-/
namespace Sys2Proof.Machine

open Sys2Proof

/-- What the machine does next: run an instruction on a state, or pass to a state. -/
inductive Pick where
  | run (i : Instr) (s : State)
  | quiet (s : State)

def State.goto (s : State) (p : Phase) : State := { s with phase := p }

/-- Run an instruction where there is one; pass on otherwise. -/
def State.orElse (s : State) (i : Option Instr) (next : State) : Pick :=
  match i with
  | some i => .run i s
  | none => .quiet next

/-- The first of some choices. -/
def firstDue (l : List (Option Instr)) : Option Instr := l.findSome? id

/-- The first entry of a list that passes, and the list without it. -/
def takeFirst {α : Type} (ok : α → Bool) (l : List α) : Option (α × List α) :=
  match l with
  | [] => none
  | x :: r => if ok x then some (x, r) else (takeFirst ok r).map fun (y, r) => (y, x :: r)

/-- The cores, in ascending order, that debug state does not hold. -/
def State.awake (s : State) : List Nat := s.live.filter fun i => !(s.getCore i).frozen

/-! ### Fates, landings, the end of the cycle before -/

/-- The place of a fate among those of one cycle, as the rows of Table 8.5 stand: violations, then the ends of requests, then
the others. -/
def State.fateRank (s : State) (i : Nat) (f : FaultRec) : Nat :=
  if f.cause.violation then 0 else if s.endsRequest i f then 1 else 2

/-- The fates of the faults of the cycle just over. Where several of one rank meet, the core of lowest index comes first:
which of them gives a request its status is the model's choice (notes/assumptions/100.md). A fault of a core that an earlier
fate has stopped has none. -/
def State.fates (s : State) : State :=
  let now := s.live.filterMap fun i => (s.getCore i).iss.fault.map fun f => (i, f)
  let all := sortBy (fun (i, f) => s.fateRank i f) now
  let bad := (now.filter fun (_, f) => f.cause.violation).map (·.1)
  let s := now.foldl (fun (s : State) (i, f) => s.modCore i fun c => c.noteFault f) s
  all.foldl (fun (s : State) (i, f) =>
    let st := (s.getCore i).iss.status
    if st == .free || st == .stopped || st == .frozen then s else s.fate bad i (s.tb - 1) f) s

/-- The landing to take first: ascending engine number, then the order of the beats (R272). -/
def State.landNext (s : State) (acc : Bool) : Option Instr :=
  (leastBy (fun (l : Land) => l.engine * 2 ^ 64 + l.id) (s.eng.lands.filter fun l => l.acc == acc && l.cycle ≤ s.tb)).map
    fun l => .copyBeatLand l.id

/-- The end of the cycle just over, for every core; then the schedule of starts (R200). -/
def State.commitAll (s : State) : State :=
  (s.live.foldl (fun (s : State) i => (s.focus i).commit (s.tb - 1)) s).placeStarts

/-- A seal or a completion record for the cycle just over. -/
def State.settleDue (s : State) : Option Instr :=
  firstDue [(s.live.find? fun i => s.sealDue i (s.tb - 1)).map Instr.sealCore,
    (s.disp.jettons.find? fun (j, _) => (s.recordNext j (s.tb - 1)).isSome).map fun (j, _) => .completionRecordWrite j]

/-- What else opens a cycle. -/
def State.openCycle (s : State) : State :=
  ((((((((s.watchTop false).watchTop true).dropSignals).enterHalts).flrAll).migrateAll).irqAll).faultedAll).mailboxTurn true

/-! ### Selection, inputs, agenda -/

/-- The selection paths' steps: the starvation bars, then the selections. -/
def State.selectDue (s : State) (k : Nat) : Option Instr :=
  if k == 0 then (if s.barDue false then some (.starvationBar false) else none)
  else if k == 1 then (if s.barDue true then some (.starvationBar true) else none)
  else if k == 2 then (if s.selectionDue false then some (.selection false) else none)
  else (if s.selectionDue true then some (.selection true) else none)

/-- Steps that the outside world, the scheduler or another package causes. -/
def isExternal : Instr → Bool
  | .phaseArrival _ _ _ | .heartbeat _ | .xlateService _ _ _ | .segmentPieceLand _ _ _ _ | .tierReadFailure _
  | .assign _ _ _ | .openMsg _ _ _ _ _ | .cancel _ _ _ | .collectiveDoneMessage _ _ _ _ | .number _ _ _ | .opened _ _ _
  | .empty _ _ _ | .mismatch _ _ _ | .cancelled _ _ _ | .started _ _ | .allopened _ _ _ | .standbyDecision _ _ _ _
  | .standbyAck _ _ _ | .epochAnnounce _ _ _ | .collectiveDataArrival _ _ _ _
  | .preemptionRequest _ | .evictionRequest _ | .jettonRelease _ | .halt _ | .step _ _ | .cont _ | .rreg _ _ | .wreg _ _ _
  | .flr _ | .registerWrite _ _ | .create _ | .destroy _ | .grant _ | .revoke _ | .resize _ _ | .bwset _ _ | .install _ _
  | .inval _ | .query _ | .qctlReset _ | .qctlEnable _ | .root _ _ | .migrateAttest _ _ | .migrateTrack _ | .migratePass _
  | .migrateSeal _ | .migratePrefix _ _ | .migrateKeys _ | .migrateResume _
  | .jettonDoorbell _ _ _ _ | .commandQueueDoorbell _ _ | .hostRead _ _ _ _ | .hostWrite _ _ _ _ | .hostFetchadd _ _ _ _
  | .hostSwap _ _ _ _ | .hostCas _ _ _ _ _ | .roceSend _ _ _ | .roceRdmaWriteWithImmediate _ _ _ _ _
  | .udpRequestFrame _ _ | .timetableDifference _ _ _ _ _ | .scanHold _ | .scanStart _ | .scanRelease _
  | .powerCapHold _ | .coreRegulatorTrip | .thermalHold _ _ | .thermalReset | .sensorUpdate _ _ | .powerUp _
  | .firmwareImageLoad _ _ _ | .attestationRequest _ _ | .certificateRequest | .flitCrcReplay _ _ | .portRetrain _ _
  | .dieReset _ => true
  | _ => false

/-- The three places of a cycle at which inputs act. -/
inductive InputAt where
  | first | middle | last
deriving DecidableEq, Repr

/-- FLR, and the end of admission for a migration, stand above a selection in Table 8.5 and act before it. Scan commands and
scan fields (R356), and register writes of the debug port, take effect at the end of their cycle (notes/assumptions/96.md). -/
def inputAt : Instr → InputAt
  | .flr _ | .destroy _ | .migrateSeal _ => .first
  | .scanHold _ | .scanStart _ | .scanRelease _ | .wreg _ _ _ => .last
  | .registerWrite (.ssigx _) _ | .registerWrite (.sctl _) _ => .last
  | _ => .middle

/-- Partition commands of one cycle are executed in ascending function number (R391), and the board takes the messages of one
cycle in ascending sender (R372); every other input comes before them. -/
def senderOf : Instr → Nat
  | .create p | .destroy p | .grant p | .revoke p | .resize p _ | .bwset p _ | .install p _ | .inval p | .query p | .qctlReset p
  | .qctlEnable p | .root p _ | .migrateAttest p _ | .migrateTrack p | .migratePass p | .migrateSeal p | .migratePrefix p _
  | .migrateKeys p | .migrateResume p => 1 + p.fn
  | .assign k _ _ | .openMsg k _ _ _ _ | .cancel k _ _ | .collectiveDoneMessage k _ _ _ => 65536 + k
  | _ => 0

/-- The next input of this cycle at a place; one that is no step of the outside world, or names no unit, is nothing. -/
def State.inputNext (s : State) (p : InputAt) : Option Pick :=
  let now (e : Nat × Instr) : Bool := e.1 ≤ s.tb && inputAt e.2 == p
  (leastBy (fun (e : Nat × Instr) => senderOf e.2) (s.inputs.filter now)).bind fun e =>
    (takeFirst (fun x => now x && x == e) s.inputs).map fun ((_, i), r) =>
      if isExternal i && i.wf then .run i { s with inputs := r } else .quiet { s with inputs := r }

/-- Where in a cycle a scheduled event stands. -/
inductive Slot? where
  | agenda | acc | home | wait
deriving DecidableEq

def slotOf : Instr → Slot?
  | .copySemaphoreIncrement _ | .prefixResultWrite _ | .prefixCompletionCount _ | .journalReply _ => .acc
  | .launchSemaphoreIncrement _ _ => .home
  | .copyRecordLanded _ _ _ | .coreScrubEnd _ => .wait
  | _ => .agenda

/-- The next scheduled event of a place that passes. -/
def State.agendaNext (s : State) (p : Slot?) (ok : Instr → Bool) : Option Pick :=
  (takeFirst (fun (e : Nat × Instr) => e.1 ≤ s.tb && slotOf e.2 == p && ok e.2) s.agenda).map fun ((_, i), r) =>
    .run i { s with agenda := r }

/-! ### Faults and returns before the columns -/

/-- A result write or count of a prefix command that raises a fault instead (R300, R303). -/
def State.prefixFaults (s : State) (i : Instr) : Bool :=
  match i with
  | .prefixResultWrite id => ((s.pcmd? id).map fun p => p.fault.isSome).getD false
  | .prefixCompletionCount id => ((s.pcmd? id).map fun p => s.mem.damaged p.result).getD false
  | _ => false

/-- The core that a home operation was asked by. -/
def HomeOp.by? (h : HomeOp) : Option Nat := match h.asker with
  | .core i => some i
  | _ => none

/-- A home operation of a core whose return, or completion of a wait, falls in this cycle. -/
def State.returnDue (s : State) : Option Instr :=
  (s.eng.homes.find? fun h => h.acted && h.ret ≤ s.tb && (match h.by? with
    | some i => !(h.waits && (s.getCore i).frozen)
    | none => false)).map fun h => if h.waits then .homeWaitComplete h.id else .homeOperationReturn h.id

/-- The matrix columns' writes of this cycle. -/
def State.accAll (s : State) : State :=
  s.awake.foldl (fun (s : State) i =>
    let now := (s.getCore i).iss.accPend.filter (·.due ≤ s.tb)
    if now.isEmpty then s
    else
      let t := now.foldl (fun (t : State) p => t.accWrite p) (s.focus i)
      (t.modIss fun x => { x with accPend := x.accPend.filter (s.tb < ·.due) }).focus s.cur) s

/-- What the accumulator words will be once the matrix columns and the landings of this cycle have acted (R168). -/
def State.accLanded (s : State) (fuel : Nat) : State :=
  match fuel with
  | 0 => s
  | n + 1 => match s.landNext true with
    | some i => (Result.state s (exec i s)).accLanded n
    | none => s

/-- A local ALD that finds an uncorrectable word faults in the cycle in which it acts; what precedes it in step 1 or 2 of R168
may still make the word whole (R171, R174). -/
def State.aldFault (s : State) : Option Instr :=
  let bad (s : State) (h : HomeOp) : Bool := match s.actAt h with
    | .fault _ _ _ => true
    | _ => false
  (s.eng.homes.find? fun h => h.what == .ald && !h.acted && h.due ≤ s.tb && h.by? == h.home.core? && h.by?.isSome && bad s h
    && bad (s.accAll.accLanded (s.eng.lands.length + 1)) h).map fun h => .homeOperationAct h.id

/-- A stalled load whose last byte has landed (R15). -/
def State.loadReady (s : State) (i : Nat) : Bool :=
  let t := s.focus i
  match t.core.iss.wait with
  | .load a n _ => t.core.iss.status.live && t.core.iss.fault.isNone && (t.core.sys.dbg || !t.core.aboveMark a n)
  | _ => false

/-- The column that R20 charges with two writes of one bank at this cycle's end: neither takes effect. -/
def State.clashAt (s : State) (i : Nat) : State :=
  let x := (s.getCore i).iss
  let due := x.bankPend.filter (·.due ≤ s.tb)
  match due.filter (bankClash due ·) with
  | [] => s
  | b :: r =>
    let w := r.foldl (fun (a b : BankPend) => if colSrc b.col < colSrc a.col then b else a) b
    let s := s.modCore i fun c => { c with iss := { c.iss with
      bankPend := c.iss.bankPend.filter fun b => !(b.due ≤ s.tb && bankClash due b) } }
    ((s.focus i).raise ⟨.slip, w.pc, BitVec.ofNat 64 w.addr, finfo 0 (colSrc w.col) false 12 (s.tb - w.issue)⟩).focus s.cur

/-- The faults of core `i` that earlier words set up for this cycle (R321), and those of its accumulator writes (R174). A sum
that reads too early has no effect (R155). -/
def State.laterAt (s : State) (i : Nat) : State :=
  let x := (s.getCore i).iss
  let now := x.later.filter (·.cycle ≤ s.tb)
  let t := s.focus i
  let t := now.foldl (fun (t : State) l => t.raise l.f) t
  let t := if now.isEmpty then t else t.modIss fun x => { x with later := x.later.filter (s.tb < ·.cycle) }
  let t := ((x.accPend.filter (·.due ≤ s.tb)).filterMap t.accFault).foldl (fun (t : State) f => t.raise f) t
  let t := t.modIss fun x => { x with accPend := x.accPend.filter fun p => !(p.due ≤ s.tb && (t.accLate p).isSome) }
  t.focus s.cur

def State.raiseAll (s : State) : State := s.awake.foldl (fun (s : State) i => (s.laterAt i).clashAt i) s

/-- The core whose run has lasted CYCMAX cycles, where that fault is kept (R18, R322). -/
def State.overrunNow (s : State) : Option Nat :=
  s.live.find? fun i => s.overrunDue i && (match (s.getCore i).iss.fault with
    | none => true
    | some g => !g.cause.violation && 0 < infoSrc g.info)

def State.raiseDue (s : State) : Option Instr :=
  firstDue [((List.range 16).find? fun p => s.pluginLate p).map Instr.pluginCallTimeout, s.returnDue, s.aldFault,
    (s.awake.find? fun i => s.loadReady i).map Instr.loadStallComplete, s.overrunNow.map Instr.overrun]

/-! ### Starts and drains -/

/-- A start of this cycle that has not happened. -/
def State.startDue (s : State) (i : Nat) : Option Instr :=
  let c := s.getCore i
  if c.iss.status == .bound || c.iss.status == .between then
    match s.startKind i with
    | some 0 => if c.bnd.task.isSome then some (.taskStart i) else none
    | some 4 => some (.taskStart i)
    | some 3 => if c.bnd.task.isSome then some (.replayStart i) else none
    | some 1 => if c.bnd.task.isSome then some (.taskRestart i) else none
    | some 2 => if c.bnd.task.isSome then some (.taskRestart i) else none
    | _ => none
  else none

def State.startsDue (s : State) : Option Instr :=
  firstDue [(s.disp.starts.filter fun x => x.cycle == s.tb).findSome? fun x => s.startDue x.core,
    (s.live.find? fun i => s.divertDue i).map Instr.drainDivert]

/-- Copies of draining cores that stand in their buffers are saved (R338). -/
def State.saveAll (s : State) : State :=
  s.live.foldl (fun (s : State) i =>
    let x := (s.getCore i).iss
    match x.status, x.drain with
    | .draining, some d => match d.d with
      | some c => s.saveCopies i c
      | none => s
    | _, _ => s) s

/-! ### Engines and queues -/

/-- The instruction of a queue command's OP (Table 19.8). -/
def queueInstr (k op : Nat) : Option Instr :=
  match op with
  | 0 => some (.queueNop k)
  | 1 => some (.queueWait k)
  | 2 => some (.signal k)
  | 3 => some (.queueSet k)
  | 4 => some (.launch k)
  | 5 => some (.copy k)
  | 6 => some (.fill k)
  | 7 => some (.irq k)
  | 8 => some (.queueFence k)
  | 9 => some (.tstamp k)
  | _ => none

/-- What a queue processor does in this cycle. -/
def State.queueDue (s : State) (k : Nat) (q : CmdQueue) : Option Instr :=
  if q.looks s.tb then some (.queueEntryTake k)
  else if q.free && q.polling && q.nextPoll ≤ s.tb then some (.queuePollTimer k)
  else if q.holdXlate && !(s.disp.xlates.any fun x => x.who == .queue k) && (s.ridxSlot q).isSome then some (.queueXlateRetry k)
  else (s.queueCommandDue k).bind (queueInstr k)

/-- An engine that no issued copy still reads for (R267). -/
def State.engineFree (s : State) (e : Nat) : Bool :=
  !(s.eng.copies.any fun c => c.engine == e && c.state == .issued && (c.beat < c.beatCount || c.issuedAt == s.tb))

/-- A destination channel still receives another copy (R273). -/
def State.channelHeld (s : State) (c : Copy) : Bool :=
  c.state == .queued && cardWen c.card && c.op != 8 && c.targets.any fun t =>
    match t.core with
    | some i =>
      let wm := (s.getCore i).wm
      let k := cardWm c.card
      s.landing i (wm[k.toNat]'k.isLt) || (c.expLen != 0 && s.landing i (wm[(k + 1).toNat]'(k + 1).isLt))
    | none => false

/-- A copy that its engine may take in this cycle. -/
def State.issuable (s : State) (c : Copy) : Bool :=
  !c.saved && c.time ≤ s.tb && c.blockers.isEmpty && c.notBefore ≤ s.tb && (match c.state with
    | .queued => (match c.asker with
      | .core i => !(s.getCore i).frozen
      | _ => true)
    | .parked => c.parkFrame.isNone && !(s.disp.xlates.any fun x => x.who == .copy c.id)
    | _ => false) && s.engineFree c.engine && !s.channelHeld c

/-- The copy that issues next: ascending engine number, then T, then the order of entry (R267). -/
def State.issueNext (s : State) : Option Instr :=
  (leastBy (fun (c : Copy) => (c.engine * 2 ^ 80 + c.time) * 2 ^ 64 + c.id) (s.eng.copies.filter s.issuable)).map
    fun c => .copyEngineIssue c.id

def State.engineDue (s : State) : Option Instr :=
  firstDue [(s.starting false).map fun p => .prefixCommandStart p.id, (s.starting true).map fun p => .prefixCommandStart p.id,
    if s.coldStartDue then some .coldStartFetch else none,
    (s.eng.colls.find? fun c => c.queued && !c.saved && c.time ≤ s.tb).map fun c => .collectiveEngineEntry c.id,
    s.collStartDue.map fun (c, n) => .collectiveStart c n,
    s.heartbeatDue.map Instr.heartbeat, s.heartbeatLate.map Instr.heartbeatTimeout,
    s.eng.queues.findSome? fun (k, q) => s.queueDue k q, s.issueNext]

def State.beatNext (s : State) : Option Instr :=
  (s.eng.copies.find? fun c => !c.targets.isEmpty && s.beatDue c).map fun c => .copyBeatRead c.id

/-! ### Streams and the loader -/

/-- Fetch has left the task of a draining core (R333, R337). -/
def Issue.diverted (x : Issue) : Bool := match x.drain with
  | some d => d.d.isSome
  | none => false

def allCols : List Col := [.vector, .matrix, .table]

/-- A stream event of core `i` in this cycle (R26, R28). -/
def State.streamDue (s : State) (i : Nat) : Option Instr :=
  let c := s.getCore i
  firstDue [(allCols.find? fun k => (c.col k).ends.any (· ≤ s.tb)).map (Instr.streamEndEvent i),
    if c.iss.status.live && !c.iss.diverted then
      (allCols.find? fun k => ((c.col k).startNow s.tb).isSome).map (Instr.streamStart i)
    else none]

/-- The stream is inside an MWLD of its own (R160). -/
def Core.inMwld (c : Core) : Bool := match c.iss.mat.run with
  | some r => r.cyc != 0 && (match r.cur with
    | some (.mwld _ _ _) => true
    | _ => false)
  | none => false

def State.followDue (s : State) (i : Nat) : Bool :=
  let c := s.getCore i
  match c.mat.loader with
  | f :: _ => !f.running && !c.inMwld
  | [] => false

def State.streamsDue (s : State) : Option Instr :=
  firstDue [s.awake.findSome? fun i => s.streamDue i, (s.awake.find? fun i => s.followDue i).map Instr.followOnStart]

/-- The loaders load their rows of this cycle. -/
def State.loadAll (s : State) : State :=
  s.awake.foldl (fun (s : State) i => if (s.getCore i).mat.loader.isEmpty then s else ((s.focus i).loaderStep).focus s.cur) s

/-! ### The columns (R20, R21, R81, R119, R321, R322) -/

/-- The control column of the core in focus issues in this cycle. -/
def State.ctlDue (s : State) : Bool :=
  let x := s.core.iss
  x.status.live && x.wait == .none && x.next ≤ s.tb && (match x.drain with
    | some d => d.d.isNone || (d.stub && !d.stubDone)
    | none => true)

/-- A stream has an operation, or a further cycle of one, in this cycle. -/
def State.colDue (s : State) (k : Col) : Bool :=
  match (s.core.col k).run with
  | some r => r.next ≤ s.tb && (r.cyc != 0 || (s.core.iss.status.live && (r.cur.isSome || !s.core.iss.diverted)))
  | none => false

/-- The columns of the core in focus that issue in this cycle, the control column first. -/
def State.dueCols (s : State) : List (Option Col) :=
  if s.core.frozen then [] else
    (if s.ctlDue then [none] else []) ++ (allCols.filter fun k => s.colDue k).map some

/-- The word that a column fetches, or the fault that the fetch raises: its cause and address. -/
inductive Fetched where
  | word (i : Instr)
  | fault (c : Cause) (addr : W64) (unit : Option Nat)

/-- Fetch of the word at a code address by a column of the core in focus (R21, R67, R81, R83, R331). -/
def State.fetch (s : State) (k : Option Col) (a : Nat) : Fetched :=
  let read (w : W48) : Fetched :=
    if opcodeCol w != k then .fault .ill 0 none
    else match decode w with
      | .ok i => .word i
      | .error _ => .fault .ill 0 none
  if s.core.fw.isSome then read (BitVec.ofNat 48 (leNat ((List.range 6).map fun i => s.fwByte (8 * a + i))))
  else if 0xFFF < a then .fault .ill 0 none
  else if !((s.core.bnd.segs.toList[a / 256]?).map (·.present)).getD false then .fault .segmiss (BitVec.ofNat 64 a) none
  else if s.mem.damaged (codeBase s.cur + 8 * a) then
    .fault .ucdata (BitVec.ofNat 64 (codeBase s.cur + 8 * a)) (some (codeBase s.cur + 8 * a))
  else read (s.mem.codeWord s.cur a)

/-- A fetch that found its code slot uncorrectable marks it, and the segment is absent (R331). -/
def State.fetchDamage (s : State) (a : Nat) (unit : Option Nat) : State :=
  match unit with
  | some u => (s.modMem (·.markPoison u)).modBnd fun b => { b with
      segs := Vector.ofFn fun k => if k.val == a / 256 then { b.segs[k] with present := false } else b.segs[k] }
  | none => s

/-- A hardware breakpoint stops the next control word (R119, R341). -/
def State.breaks (s : State) : Bool :=
  let x := s.core.iss
  s.core.fw.isNone && !x.pass && !s.core.sys.dbg && !x.inStub && !x.diverted &&
    s.core.sys.bpaddr.toList.any fun b => b.getLsbD 12 && (b.extractLsb' 0 12).toNat == x.pc

/-- A column's word of this cycle, with the state it runs on; or the state in which its fetch, or a breakpoint, has raised a
fault. DESIGN CHOICE (notes/assumptions/113.md): a breakpoint that matches a word whose fetch would fault comes first. -/
inductive Turn where
  | word (i : Instr) (s : State)
  | stop (s : State)

def State.columnTurn (s : State) (k : Option Col) : Turn :=
  match k with
  | none =>
    if s.breaks then .stop ((s.ctlFault .bkpt 0).modIss fun x => { x with pass := true })
    else
      match s.fetch none s.core.iss.pc with
      | .word i => .word i (s.modIss fun x => { x with pass := false })
      | .fault c a u => .stop ((s.fetchDamage s.core.iss.pc u).ctlFault c a)
  | some col =>
    match (s.core.col col).run with
    | none => .stop s
    | some r =>
      let r := if r.cyc == 0 then { r with opIssue := s.tb } else r
      match r.cur with
      | some i => .word i (s.modCol col fun c => { c with run := some r })
      | none =>
        match s.fetch k r.addr with
        | .word i => .word i (s.modCol col fun c => { c with run := some { r with cur := some i } })
        | .fault c a u => .stop ((s.fetchDamage r.addr u).colFault col r (s.halt c a 0 none))

/-- The state after a column's turn, taken alone. -/
def State.trial (s : State) (k : Option Col) : State :=
  match s.columnTurn k with
  | .word i t => Result.state t (exec i t)
  | .stop t => t

/-- The operation of a stream that reads or writes a bank in this cycle together with another column raises SLIP (R20). -/
def State.slipOf (s : State) (col : Col) (a : Nat) : Option FaultRec :=
  match (s.core.col col).run with
  | some r => (s.colFault col (if r.cyc == 0 then { r with opIssue := s.tb } else r) (s.halt .slip (BitVec.ofNat 64 a) 12 none)).core.iss.fault
  | none => none

/-- Who takes a row port of a bank in a cycle. -/
inductive PortOwner where
  | op
  | loader
  | row (b : BankPend)

/-- A row port taken: the column, the row's address, and for whom. -/
structure PortClaim where
  col : Col
  addr : Nat
  who : PortOwner

/-- The pairs of claims of two columns on one bank, the lower column first (R20, R125, R156). -/
def clashes (l : List PortClaim) : List (PortClaim × PortClaim) :=
  l.flatMap fun x => (l.filter fun y => colSrc x.col < colSrc y.col && bankOf x.addr == bankOf y.addr).map fun y => (x, y)

/-- The SLIP charged to a claim. -/
def State.slipFor (s : State) (x : PortClaim) : Option FaultRec :=
  match x.who with
  | .op => s.slipOf x.col x.addr
  | .loader => s.core.mat.loader.head?.map fun f =>
    ⟨.slip, f.pc, BitVec.ofNat 64 x.addr, finfo 0 4 true 12 (s.tb - f.issue)⟩
  | .row b => some ⟨.slip, b.pc, BitVec.ofNat 64 b.addr, finfo 0 (colSrc b.col) false 12 (s.tb - b.issue)⟩

/-- What a claim was for takes no effect. An operation in its first cycle has done nothing yet. -/
def State.voidClaim (s : State) (x : PortClaim) : State :=
  match x.who with
  | .op => match (s.core.col x.col).run with
    | some r => s.undo x.col r
    | none => s
  | .loader => match s.core.mat.loader with
    | f :: _ => s.dropFollow f
    | [] => s
  | .row b => s.modIss fun y => { y with bankPend := y.bankPend.filter (· != b) }

/-- The operation that a matrix occupancy holds, which runs to its end whatever the task raises (R327). -/
def State.goesOn (s : State) : List (Option Col) := match s.core.iss.mat.run with
  | some r => if r.cyc != 0 && r.next ≤ s.tb then [some .matrix] else []
  | none => []

def State.setTurn (s : State) (l : List (Option Col)) : State := s.modIss fun x => { x with turn := some l }

/-- The columns fetch together: a word that one of them fetched stays fetched. -/
def State.prefetch (s : State) (l : List (Option Col)) : State :=
  l.foldl (fun (t : State) k => match k with
    | none => t
    | some col => match s.columnTurn k with
      | .word i _ => t.modCol col fun c => { c with run := c.run.map fun r => { r with cur := some i } }
      | .stop _ => t) s

/-- Decide which columns of the core in focus run in this cycle: all that are due, or, when a fault is raised, the one whose
fault is kept (R321, R322). Neither side of a port conflict takes effect, and a conflict of an operand precedes the failure of
a later one (R124). -/
def State.decide (s : State) : State :=
  let due := s.dueCols
  let clean := s.modIss fun x => { x with fault := none }
  let ts := due.map fun k => (k, clean.trial k)
  let claims (f : Issue → List (Col × Nat)) : List PortClaim :=
    (f s.core.iss).map (fun (c, a) => ⟨c, a, .loader⟩)
      ++ ts.flatMap fun (_, t) => ((f t.core.iss).drop (f s.core.iss).length).map fun (c, a) => ⟨c, a, .op⟩
  let rows := (s.core.iss.bankPend.filter (·.due == s.tb)).map fun b => (⟨b.col, b.addr, .row b⟩ : PortClaim)
  let cl := clashes (claims (·.ports)) ++ clashes (rows ++ claims (·.wports))
  let out := cl.flatMap fun (x, y) => [x, y]
  let clashing (k : Option Col) : Bool := out.any fun x => some x.col == k && (match x.who with
    | .op => true
    | _ => false)
  let own := ts.filterMap fun (k, t) => if clashing k then none else t.core.iss.fault.map fun f => (some k, f)
  let slips := (cl.filterMap fun (x, _) => clean.slipFor x).map fun f => ((none : Option (Option Col)), f)
  let all := (s.core.iss.fault.toList.map fun f => ((none : Option (Option Col)), f)) ++ own ++ slips
  let best := all.foldl (fun (m : Option (Option (Option Col) × FaultRec)) x => match m with
    | none => some x
    | some y => if x.2.outranks y.2 then some x else some y) none
  let t := out.foldl (fun (t : State) x => t.voidClaim x) s
  match best with
  | none => (t.prefetch due).setTurn due
  | some (some k, _) => t.setTurn (k :: t.goesOn.filter (· != k))
  | some (none, f) => (t.raise f).setTurn t.goesOn

/-- The turn of a column of this cycle. -/
def State.columnNext (s : State) : Option Pick :=
  s.live.findSome? fun i =>
    let t := s.focus i
    match t.core.iss.turn with
    | none => if t.dueCols.isEmpty then none else some (.quiet t.decide)
    | some [] => none
    | some (k :: r) => some (match (t.setTurn r).columnTurn k with
      | .word w u => .run w u
      | .stop u => .quiet u)

/-! ### The accumulator port, home operations (R168) -/

/-- The place of a home operation in step 3 of R168: local, remote by core, queue processors, hosts. -/
def HomeOp.rank (h : HomeOp) : Nat :=
  match h.asker with
  | .core i => if h.home.core? == some i then 0 else 1 + i
  | .queue k => 10000 + k
  | .host f => 20000 + f

/-- The home operation that acts next. A waiting one acts once its condition holds (R210). DESIGN CHOICE
(notes/assumptions/114.md): every wait, a consuming SWAIT too, acts after all operations of its cycle that do not wait, and
waits among themselves stand in the order of step 3 of R168. -/
def State.actNext (s : State) (waits : Bool) : Option Instr :=
  (leastBy (fun (h : HomeOp) => h.rank * 2 ^ 64 + h.id) (s.eng.homes.filter fun h =>
    h.waits == waits && !h.acted && h.due ≤ s.tb && h.blockers.isEmpty && (!waits || s.actAt h != .wait))).map
    fun h => .homeOperationAct h.id

/-! ### The end of the cycle -/

def scanInstr (x : Nat × Nat) : Instr :=
  if x.2 == 2 then .scanDrainEnd x.1 else if x.2 == 3 then .scanRunEnd x.1 else .scanScrubEnd x.1

/-- A wait of core `i` that is over (R22, R32). -/
def State.waitOver (s : State) (i : Nat) : Option Instr :=
  let c := s.getCore i
  if !c.iss.status.live || c.iss.fault.isSome then none
  else
    match c.iss.wait with
    | .wev => if (s.focus i).eventsHold then some (.wevComplete i) else none
    | .phase l p => if s.phaseShown i l p then some (.phaseWaitComplete i) else none
    | .fabric _ _ _ _ => if s.fabricDone i then some (.fabricWaitComplete i) else none
    | _ => none

/-- The task that ends next in this cycle: those of one group in ascending logical index (R205). -/
def State.taskEndDue (s : State) : Option Instr :=
  (leastBy (fun i => let b := (s.getCore i).bnd; b.jetton * 2 ^ 16 + b.logical) (s.awake.filter fun i =>
    let c := s.getCore i
    c.fw.isNone && c.iss.status.live && c.iss.fault.isNone && s.endsNow i)).map Instr.taskEnd

def State.waitDue (s : State) : Option Instr :=
  firstDue [s.actNext true, s.returnDue, (s.eng.queues.find? fun (k, _) => (s.queueWaitDone k).isSome).map fun (k, _) => .queueWaitComplete k,
    s.awake.findSome? fun i => s.waitOver i, s.taskEndDue, s.collCompleteDue.map Instr.collectiveComplete,
    (s.eng.pcmds.find? fun p => p.departs s).map fun p => .prefixCommandDepart p.id]

/-- The claims of the runs that end with this cycle's DONEs become void (R220). -/
def State.voidEnded (s : State) : State :=
  s.live.foldl (fun (s : State) i =>
    if ((s.getCore i).bnd.lastEnd.map (·.1)) == some s.tb then s.voidClaims i else s) s

/-- The cycle ends and the next begins. -/
def State.closeCycle (s : State) : State :=
  let s := s.voidEnded
  let s := ((s.anchorAll.ingressAll).takeSlots (s.tb + 1)).debugTick
  { s with tb := s.tb + 1, phase := .fate }

/-! ### The step -/

/-- What happens next. -/
def State.pick (s : State) : Pick :=
  match s.phase with
  | .fate => .quiet ((s.noteEvictions (s.tb - 1)).fates.goto .land)
  | .land => s.orElse (s.landNext false) ((s.commitAll.noteClear (s.tb - 1)).goto .settle)
  | .settle => s.orElse s.settleDue (s.openCycle.goto (.select 0))
  | .select k =>
    let next := s.goto (if k < 3 then .select (k + 1) else .input)
    ((if k == 0 then s.inputNext .first else none)).getD (next.orElse (s.selectDue k) next)
  | .input => (s.inputNext .middle).getD (.quiet (((s.mailboxTurn false).hostReads (s.posted.length + 1)).goto .agenda))
  | .agenda =>
    match s.agendaNext .agenda fun _ => true, s.preemptDue with
    | some p, _ => p
    | none, some j => .quiet (Result.state s (execPreemptionRequest j s))
    | none, none => .quiet (s.scrubAll.goto .raise)
  | .raise =>
    match s.agendaNext .acc s.prefixFaults with
    | some p => p
    | none => s.orElse s.raiseDue ((s.raiseAll.armAll).goto .start)
  | .start => s.orElse s.startsDue (s.saveAll.goto .engine)
  | .engine => s.orElse s.engineDue (s.goto .beat)
  | .beat => s.orElse s.beatNext (s.goto .stream)
  | .stream => s.orElse s.streamsDue (s.loadAll.goto .column)
  | .column => s.columnNext.getD (.quiet (s.goto .port))
  | .port => .quiet (s.accAll.goto .acc)
  | .acc =>
    match s.landNext true with
    | some i => .run i s
    | none => (s.agendaNext .acc fun _ => true).getD (.quiet (s.goto .home))
  | .home =>
    match s.actNext false with
    | some i => .run i s
    | none => (s.agendaNext .home fun _ => true).getD (.quiet (s.hostWrites.goto .scan))
  | .scan => (s.inputNext .last).getD (.quiet (s.fwStores.scanTurns.goto .wait))
  | .wait =>
    match s.scanEnds with
    | some x => .run (scanInstr x) s
    | none =>
      match s.waitDue with
      | some i => .run i s
      | none => (s.agendaNext .wait fun _ => true).getD (.quiet s.closeCycle)

end Sys2Proof.Machine
end

