-- ==== Sys2Proof/Machine/Step.lean ====
section
/-!
DEFINITION. One step of the package: what `State.pick` finds due happens. And the host's placing of a word where the next
step fetches it.
-/
namespace Sys2Proof.Machine

open Sys2Proof

/-- One step: an instruction that is due runs, or the cycle passes to its next place. -/
def step (s : State) : Host.Outcome State Fault Refusal :=
  match s.pick with
  | .run i t => exec i t
  | .quiet t => .next t

/-- `s` at the turn of the column that the word's opcode belongs to, on core 0, with the word in code slot 0 and segment 0
present (notes/assumptions/1.md). It stands for the bind and the start of a task of one word: a control word is at the
program counter, a stream word is the one word of a stream launched through c0. -/
def State.withFetchWord (s : State) (_nbits w : Nat) : State :=
  let s := s.focus 0
  let word := BitVec.ofNat 48 w
  let col := opcodeCol word
  let run : Stream :=
    { addr := 0, left := 1, cur := none, op := 0, rho := 0, cap := s.core.ctl.c[0], next := s.tb, cyc := 0, opIssue := s.tb
      issue := s.tb, visible := s.tb, latched := [] }
  let s := match col with
    | none => s
    | some k => s.modCol k fun c => { c with run := some run }
  let s := s.modIss fun x => { x with
    status := .running, pc := 0, next := s.tb, wait := .none, fault := none, drain := none, pass := true, turn := some [col] }
  let s := s.modBnd fun b => { b with segs := b.segs.set 0 { b.segs[0] with present := true } }
  { s with
    phase := .column
    core := { s.core with fw := none }
    others := s.others.map fun (i, c) => (i, { c with iss := { c.iss with turn := some [] } })
    mem := (s.mem.setCodeWord 0 0 word).clearPoison (codeBase 0) }

end Sys2Proof.Machine
end

