-- ==== Sys2Proof/Safety.lean ====
section
/-!
DEFINITION. What the statements speak of: the well-formed states of the package, and what a word leaves unchanged.
-/
namespace Sys2Proof.Machine

open Sys2Proof

/-- The registers that Table 1.2 hard-wires hold what it says: k0 is 1 and every bit of m0 is 1. -/
def Core.wired (c : Core) : Prop := c.ctl.k.getLsbD 0 = true ∧ c.vec.m[0] = BitVec.allOnes 64

/-- Strictly rising keys, none below `lo`. -/
def keysRise {α : Type} (lo : Nat) : List (Nat × α) → Prop
  | [] => True
  | (k, _) :: r => lo ≤ k ∧ keysRise (k + 1) r

/-- The core in focus is in no other place, and every other core stands once. -/
def State.coresOnce (s : State) : Prop := keysRise 0 s.others ∧ ∀ p ∈ s.others, p.1 ≠ s.cur

/-- What every state of the package that a run reaches satisfies: memory in its canonical form, each core once, and the
hard-wired registers as they are wired. -/
def State.good (s : State) : Prop :=
  s.mem.wf = true ∧ s.coresOnce ∧ s.core.wired ∧ ∀ p ∈ s.others, p.2.wired

/-- The time and the place in the cycle stand, or are those of reset: a power-up, a trip of the regulator and a thermal reset
start the package anew (R416, R419, R420). -/
def Clock (s t : State) : Prop :=
  (t.tb = s.tb ∧ t.phase = s.phase) ∨ (t.tb = State.reset.tb ∧ t.phase = State.reset.phase)

/-- `t` comes from `s` inside one place of a cycle: it is good if `s` was, and the clock stands. -/
def Keeps (s t : State) : Prop := (s.good → t.good) ∧ Clock s t

end Sys2Proof.Machine
end

