-- ==== Sys2Proof/Safety/Effects.lean ====
section
/-!
DEFINITION. What the statements say of an instruction's effect: results on their way, transfers, faults, and what stays.
-/
namespace Sys2Proof.Machine

open Sys2Proof

/-! ### What a control word leaves unchanged, and what it gives

A word's result takes effect at the end of a later cycle (R7, R20), so a statement about it speaks of the end of every cycle
`e`: `State.commit e`. -/

/-- All of a state but the place of the control column in its program: the program counter, the loops, the cycle of the next
word, and the results on their way. Every register, flag, byte of memory and unit is in it. -/
def State.steady (s : State) : State :=
  { s with core := { s.core with
      ctl := { s.core.ctl with loops := [], lc := Vector.replicate 4 0 }
      iss := { s.core.iss with pc := 0, next := 0, pend := [] } } }

/-- The word at the program counter has issued: the loop-end step (R36) gives the next one, which issues `cost` cycles on. A
stub checks no loop end (R336). -/
def Issues (s t : State) (cost : Nat) : Prop :=
  t.core.iss.next = s.tb + cost ∧
  (t.core.ctl.loops, t.core.ctl.lc, t.core.iss.pc) =
    if s.core.iss.inStub then (s.core.ctl.loops, s.core.ctl.lc, s.core.iss.pc + 1)
    else loopEnd s.core.ctl.loops s.core.ctl.lc s.core.iss.pc

/-- The place of the control column, and the cycle of its next word. -/
def State.place (s : State) : List LoopLevel × Vector W32 4 × Nat × Nat :=
  (s.core.ctl.loops, s.core.ctl.lc, s.core.iss.pc, s.core.iss.next)

/-- `t` is `s` with the result `d` on its way to the end of cycle `due`: at the end of an earlier cycle nothing differs, and
from that one on `d` is applied after all else that the cycle's end does. -/
def Lands (s t : State) (due : Nat) (d : Dst) : Prop :=
  t.steady = s.steady ∧ (∀ e, e < due → (t.commit e).steady = (s.commit e).steady) ∧
  ∀ e, due ≤ e → (t.commit e).steady = ((s.commit e).modC fun c => c.apply d).steady

/-- The instruction completes, its one effect the result `d` of latency `lat` (R7). -/
def Gives (s : State) (i : Instr) (lat cost : Nat) (d : Dst) : Prop :=
  ∃ t, exec i s = .next t ∧ Issues s t cost ∧ Lands s t (s.tb + lat - 1) d

/-- The instruction completes with the program counter alone moved on. -/
def Passes (s : State) (i : Instr) (cost : Nat) : Prop :=
  ∃ t, exec i s = .next t ∧ Issues s t cost ∧ t.steady = s.steady ∧ t.core.iss.pend = s.core.iss.pend

/-- The instruction completes as a taken transfer: the word at `target` issues two cycles on, with `loops` the active levels
(R38), and nothing else changes. -/
def Transfers (s : State) (i : Instr) (target : Nat) (loops : List LoopLevel) : Prop :=
  ∃ t, exec i s = .next t ∧ t.place = (loops, s.core.ctl.lc, target, s.tb + 2) ∧ t.steady = s.steady ∧
    t.core.iss.pend = s.core.iss.pend

/-- The core's task runs, nothing has faulted in this cycle, and no stub and no active loop's end stands at the word: what a
flow word needs (R39, R336). -/
def State.flowFree (s : State) : Prop :=
  s.core.iss.inStub = false ∧ ∀ l ∈ s.core.ctl.loops, l.stop ≠ s.core.iss.pc

/-- A precise fault of the word at the program counter is raised in this cycle, and nothing else changes (R321, R323). -/
def Faults (s : State) (i : Instr) (c : Cause) (addr : W64) (det : Nat) (code : BitVec 16) : Prop :=
  exec i s = .next (s.modIss fun x => { x with
    fault := some ⟨c, BitVec.ofNat 12 s.core.iss.pc, addr, finfo code 0 false det 0⟩ })

/-- The core can raise a fault and none has been raised in this cycle. -/
def State.mayFault (s : State) : Prop := s.core.iss.status.live = true ∧ s.core.iss.fault = none

/-- The instruction completes as a wait: the control column stands at its word until `w` is over, and nothing else changes. -/
def Waits (s : State) (i : Instr) (w : WaitFor) : Prop :=
  exec i s = .next (s.modIss fun x => { x with wait := w, waitAt := s.tb })

/-- A control-column access of `n` bytes through `c` passes every check of R102, on a task's core: the capability's own
(tag, seal, world, permission, bounds, alignment) and the window's. -/
def State.mayAccess (s : State) (c : Cap) (a : W64) (n need : Nat) (store : Bool) : Prop :=
  s.core.fw = none ∧ c.tag = true ∧ c.otype = 0 ∧ c.world = s.myWorld ∧ c.has need = true ∧ c.inBounds a.toNat n = true ∧
  a.toNat % n = 0 ∧ ∀ i < n, (if store then s.ownWritable (a.toNat + i) else s.ownReadable (a.toNat + i)) = true

/-- Nothing else of this cycle stands in the way of an access: no fault, and no LDC or STC of the cycle before on its bank. -/
def State.portFree (s : State) (a : W64) : Prop := s.core.iss.fault = none ∧ s.wideBusy a.toNat = false

/-- A home operation of the task in focus leaves its core in this cycle; its act is due 2 + H cycles on (R209). -/
def State.leaves (s : State) (what : HomeDo) (va : W64) (home : HomeAt) (h : Nat) (blockers : List Nat) (waits : Bool)
    (dst : Option SReg) (lo : W64) (hi : Nat) : State :=
  { s with
    nextId := s.nextId + 1
    eng := { s.eng with homes := s.eng.homes ++ [{
      id := s.nextId, asker := .core s.cur, run := s.core.iss.run, pc := BitVec.ofNat 12 s.core.iss.pc, issue := s.tb
      addr := va, world := s.myWorld, what := what, home := home, h := h, due := s.tb + 2 + h, blockers := blockers
      waits := waits, dst := dst, acted := false, ret := 0, value := none, fault := none, lo := lo, hi := hi }] } }

/-- The instruction completes by sending a home operation: the column goes on, or waits for it. Nothing else changes. -/
def Sends (s u : State) (i : Instr) (waits : Bool) : Prop :=
  if waits then exec i s = .next (u.modIss fun x => { x with wait := .home s.nextId, waitAt := s.tb })
  else ∃ t, exec i s = .next t ∧ Issues s t 1 ∧ t.steady = u.steady ∧ t.core.iss.pend = s.core.iss.pend

/-- A home operation of `n` bytes through `c` at `va` passes the checks of R102 on a task's core, and its address has the home
`home` at path cost `h` without a walk (R170, R171, R243). -/
def State.mayReach (s : State) (c : Cap) (va : W64) (n need : Nat) (home : HomeAt) (h : Nat) : Prop :=
  s.core.fw = none ∧ c.checkAligned s.myWorld need va.toNat n = none ∧
  s.homeOf s.myWorld s.cur s.myGroup va (Nat.land need permRead != 0) (Nat.land need permWrite != 0) = .ok (home, h, false)

/-! ### Function columns -/

/-- A row that a column reads: its address, the bytes of it that the operation depends on, and the bank formats admitted. -/
abbrev RowArg := W64 × BitVec 128 × Option (List Fmt)

/-- The column may read the row in this cycle: R124's checks and the port of its bank (R125), and no byte of it damaged. -/
def State.rowFree (s : State) (st : Stream) (col : Col) (r : RowArg) : Prop :=
  s.rowStop st r.1.toNat r.2.1 permRead r.2.2 = none ∧ s.lateRead r.1.toNat r.2.1 = none ∧
  (∀ p ∈ s.core.iss.ports, p.1 = col → bankOf p.2 = bankOf r.1.toNat → p.2 = r.1.toNat) ∧
  ∀ k < 128, s.mem.damaged (r.1.toNat + k) = false

/-- The column may read all the rows in this cycle: two of one bank are one row (R125). -/
def State.rowsFree (s : State) (st : Stream) (col : Col) (rows : List RowArg) : Prop :=
  (∀ r ∈ rows, s.rowFree st col r) ∧ rows.Pairwise fun x y => bankOf x.1.toNat = bankOf y.1.toNat → x.1 = y.1

/-- The column may write the row at the end of cycle `due` (R124, R125). -/
def State.writeFree (s : State) (st : Stream) (col : Col) (r : RowArg) (due : Nat) : Prop :=
  s.rowStop st r.1.toNat r.2.1 permWrite r.2.2 = none ∧
  ∀ b ∈ s.core.iss.bankPend, b.col = col → b.due = due → bankOf b.addr = bankOf r.1.toNat → b.addr = r.1.toNat

/-- The row at an address as an operation that depends on `bytes` of it reads it. -/
def State.rowOf (s : State) (a : W64) (bytes : BitVec 128) : Row := if bytes = 0 then 0 else rowOfBytes (s.mem.read a.toNat 128)

/-- The operation completes: it takes the read ports of `rows`, leaves the state `u`, and the stream moves on (R79, R80, R28). -/
def Operates (s : State) (i : Instr) (col : Col) (st : Stream) (stp : Stp) (due : Nat) (rows : List RowArg) (u : State) : Prop :=
  exec i s = .next ((u.modIss fun x => { x with ports := x.ports ++ rows.map fun r => (col, r.1.toNat) }).opDone col st stp due)

/-- The rows a vector operation reads: none in register mode (R121). -/
def Stream.vRows (st : Stream) (mem : Bool) (args : List VArg) : List RowArg :=
  if mem then args.map fun a => (st.field a.reg.toNat, a.bytes, a.fmts) else []

/-- A vector operation passes its checks: in memory mode those of its destination and its sources. -/
def State.vFree (s : State) (st : Stream) (mem : Bool) (dst : Option VArg) (lat : Nat) (args : List VArg) : Prop :=
  (mem = true → ∀ d ∈ dst, s.writeFree st .vector (st.field d.reg.toNat, d.bytes, d.fmts) (s.tb + lat - 1)) ∧
  s.rowsFree st .vector (st.vRows mem args)

/-- A source of a vector operation: a register, or a row of a bank (R121). -/
def State.vSource (s : State) (st : Stream) (mem : Bool) (a : VArg) : Row :=
  if mem then s.rowOf (st.field a.reg.toNat) a.bytes else s.vreg a.reg

/-- The vector operation completes with the row `r` written to the bytes of `d`: a register, or a row of a bank, of latency
`lat`, whose write port it takes in this cycle where the latency is 1; nothing else changes. -/
def VGives (s : State) (i : Instr) (st : Stream) (stp : Stp) (mem : Bool) (d : VArg) (lat : Nat) (args : List VArg) (r : Row) :
    Prop :=
  s.vFree st mem (some d) lat args →
  Operates s i .vector st stp (s.tb + lat - 1) (st.vRows mem args)
    ((s.vPut st mem d.reg r d.bytes lat).modIss fun x => { x with
      wports := x.wports ++ if mem && lat == 1 then [(.vector, (st.field d.reg.toNat).toNat)] else [] })

/-- Element `j` of a row in a type (R120), and how many there are. -/
def VType.elem (ty : VType) (r : Row) (j : Nat) : Nat := if ty.bits = 32 then (lane r j).toNat else (elem16 r j).toNat
def VType.count (ty : VType) : Nat := if ty.bits = 32 then 32 else 64

/-- A row's elements are those that `f` gives. -/
def VType.row (ty : VType) (r : Row) (f : Nat → Nat) : Prop := ∀ j < VType.count ty, VType.elem ty r j = f j % 2 ^ ty.bits

/-- The value at place `i` of level `k` of a binary tree over leaves `x` (R137). -/
def treeAt {α : Type} (f : α → α → α) (x : Nat → α) : Nat → Nat → α
  | 0, i => x i
  | k + 1, i => f (treeAt f x k (2 * i)) (treeAt f x k (2 * i + 1))

/-- The instruction completes by ending a wait: the anchor moves to this cycle and the next word issues in the next one (R22);
what else it changes of the state is in `u`. -/
def Resumes (s u : State) (i : Instr) : Prop :=
  ∃ t, exec i s = .next t ∧ Issues s t 1 ∧ t.core.iss.pend = u.core.iss.pend ∧
    t.steady = ((u.modIss fun x => { x with wait := .none }).modSys fun r => { r with anchor := BitVec.ofNat 64 s.tb }).steady

/-- The instruction completes and the column goes on; what it changes is in `u`. -/
def Leaves (s u : State) (i : Instr) : Prop :=
  ∃ t, exec i s = .next t ∧ Issues s t 1 ∧ t.steady = u.steady ∧ t.core.iss.pend = u.core.iss.pend

end Sys2Proof.Machine
end

