-- ==== Sys2Proof/Certificates/Slice0/Obligations.lean ====
section
/-!
DEFINITION. The statements for the provers, each from the numbered rules and tables of the spec that its text names.
-/
open Sys2Proof Sys2Proof.Machine

/-- Register, immediate, move, bit, multiply and divide words give the results of their tables. R96, Table 4.1: each register ALU
word completes, and its result, of latency 1, is that of the table; nothing else changes but the place in the program. R97,
Table 4.2: the immediate ALU words; SHLI, SHRLI and SHRAI have no word with a shift above 63. R98, Table 4.3: the move and bit
group. A bit position above 63 reads 0 in BFX and is dropped in BFI. R99, Table 4.4: multiply, and divide with its corners; MUL,
MULHS and MULHU have latency 3, the others occupy the issue slot for 20 cycles and are written at the end of cycle t + 19. None
raises a fault. -/
def Obligations.AluWordsGiveTheirResults : Prop :=
  (∀ (s : State) (d a b : SReg), let x := s.sreg a; let y := s.sreg b; let sh := y.toNat % 64
    Gives s (.add d a b) 1 1 (.s d (BitVec.ofNat 64 (x.toNat + y.toNat)))
    ∧ Gives s (.sub d a b) 1 1 (.s d (BitVec.ofInt 64 (x.toInt - y.toInt)))
    ∧ Gives s (.and d a b) 1 1 (.s d (x &&& y)) ∧ Gives s (.or d a b) 1 1 (.s d (x ||| y))
    ∧ Gives s (.xor d a b) 1 1 (.s d (x ^^^ y)) ∧ Gives s (.andn d a b) 1 1 (.s d (x &&& ~~~y))
    ∧ Gives s (.shl d a b) 1 1 (.s d (BitVec.ofNat 64 (x.toNat * 2 ^ sh)))
    ∧ Gives s (.shrl d a b) 1 1 (.s d (BitVec.ofNat 64 (x.toNat / 2 ^ sh)))
    ∧ Gives s (.shra d a b) 1 1 (.s d (BitVec.ofInt 64 (x.toInt / 2 ^ sh)))
    ∧ Gives s (.rotl d a b) 1 1 (.s d (if sh = 0 then x else (x <<< sh) ||| (x >>> (64 - sh))))
    ∧ Gives s (.min d a b) 1 1 (.s d (if x.toInt ≤ y.toInt then x else y))
    ∧ Gives s (.max d a b) 1 1 (.s d (if x.toInt ≤ y.toInt then y else x))
    ∧ Gives s (.minu d a b) 1 1 (.s d (if x.toNat ≤ y.toNat then x else y))
    ∧ Gives s (.maxu d a b) 1 1 (.s d (if x.toNat ≤ y.toNat then y else x)))
  ∧ (∀ (s : State) (d a : SReg) (imm : BitVec 24) (sh : BitVec 6), let x := s.sreg a; let y : W64 := BitVec.ofInt 64 imm.toInt
    Gives s (.addi d a imm) 1 1 (.s d (BitVec.ofInt 64 (x.toInt + imm.toInt)))
    ∧ Gives s (.andi d a imm) 1 1 (.s d (x &&& y)) ∧ Gives s (.ori d a imm) 1 1 (.s d (x ||| y))
    ∧ Gives s (.xori d a imm) 1 1 (.s d (x ^^^ y))
    ∧ Gives s (.shli d a sh) 1 1 (.s d (BitVec.ofNat 64 (x.toNat * 2 ^ sh.toNat)))
    ∧ Gives s (.shrli d a sh) 1 1 (.s d (BitVec.ofNat 64 (x.toNat / 2 ^ sh.toNat)))
    ∧ Gives s (.shrai d a sh) 1 1 (.s d (BitVec.ofInt 64 (x.toInt / 2 ^ sh.toNat)))
    ∧ Gives s (.movi d imm) 1 1 (.s d y)
    ∧ Gives s (.movhi d imm) 1 1 (.s d (BitVec.ofNat 64 ((s.sreg d).toNat * 2 ^ 24 + imm.toNat))))
  ∧ (∀ (s : State) (d a b : SReg) (k : KReg) (n1 pos len1 : BitVec 6),
    let x := s.sreg a; let y := s.sreg b; let n := n1.toNat + 1; let p := pos.toNat; let len := len1.toNat + 1
    Gives s (.mov d a) 1 1 (.s d x) ∧ Gives s (.sel d a b k) 1 1 (.s d (if s.kreg k = true then x else y))
    ∧ Gives s (.sext d a n1) 1 1 (.s d (BitVec.ofInt 64 (x.setWidth n).toInt))
    ∧ Gives s (.popc d a) 1 1 (.s d (BitVec.ofNat 64 ((List.range 64).filter fun i => x.getLsbD i).length))
    ∧ (∃ z, Gives s (.clz d a) 1 1 (.s d (BitVec.ofNat 64 z)) ∧ z ≤ 64 ∧ (∀ i, i < z → x.getLsbD (63 - i) = false)
        ∧ (z < 64 → x.getLsbD (63 - z) = true))
    ∧ (∃ z, Gives s (.ctz d a) 1 1 (.s d (BitVec.ofNat 64 z)) ∧ z ≤ 64 ∧ (∀ i, i < z → x.getLsbD i = false)
        ∧ (z < 64 → x.getLsbD z = true))
    ∧ (∃ v, Gives s (.bfx d a pos len1) 1 1 (.s d v) ∧ ∀ i, i < 64 → v.getLsbD i = (decide (i < len) && x.getLsbD (p + i)))
    ∧ (∃ v, Gives s (.bfi d a pos len1) 1 1 (.s d v)
        ∧ ∀ i, i < 64 → v.getLsbD i = if p ≤ i ∧ i < p + len then x.getLsbD (i - p) else (s.sreg d).getLsbD i)
    ∧ (∃ v, Gives s (.mort d a b) 1 1 (.s d v)
        ∧ ∀ i, i < 64 → v.getLsbD i = (decide (i < 32) && if i % 2 = 0 then x.getLsbD (i / 2) else y.getLsbD (i / 2)))
    ∧ (∃ v, Gives s (.umort d a) 1 1 (.s d v) ∧ ∀ i, i < 64 → v.getLsbD i =
        (decide (i < 32) && if i < 16 then x.getLsbD (2 * i) else x.getLsbD (2 * (i - 16) + 1))))
  ∧ (∀ (s : State) (d a b : SReg), let x := (s.sreg a).toInt; let y := (s.sreg b).toInt
    let u := (s.sreg a).toNat; let w := (s.sreg b).toNat
    let q : Int := if y = 0 then -1 else if x = -2 ^ 63 ∧ y = -1 then -2 ^ 63 else x.tdiv y
    let r : Int := if y = 0 then x else if x = -2 ^ 63 ∧ y = -1 then 0 else x - q * y
    Gives s (.mul d a b) 3 1 (.s d (BitVec.ofInt 64 (x * y)))
    ∧ Gives s (.mulhs d a b) 3 1 (.s d (BitVec.ofInt 64 (x * y / 2 ^ 64)))
    ∧ Gives s (.mulhu d a b) 3 1 (.s d (BitVec.ofNat 64 (u * w / 2 ^ 64)))
    ∧ Gives s (.divs d a b) 20 20 (.s d (BitVec.ofInt 64 q)) ∧ Gives s (.rems d a b) 20 20 (.s d (BitVec.ofInt 64 r))
    ∧ Gives s (.divu d a b) 20 20 (.s d (BitVec.ofNat 64 (if w = 0 then 2 ^ 64 - 1 else u / w)))
    ∧ Gives s (.remu d a b) 20 20 (.s d (BitVec.ofNat 64 (if w = 0 then u else u - u / w * w))))

/-- R100, R101, Table 4.5: compares, signed and unsigned, and the predicate operations, with latency 1. -/
def Obligations.ComparesAndPredicates : Prop :=
  ∀ (s : State) (kd ka kb : KReg) (a b : SReg) (imm : BitVec 24),
    let x := s.sreg a; let y := s.sreg b; let z : W64 := BitVec.ofInt 64 imm.toInt; let p := s.kreg ka; let q := s.kreg kb
    let cmp (c : Cond) (x y : W64) : Bool := match c with
      | .eq => decide (x = y) | .ne => decide (x ≠ y) | .lt => decide (x.toInt < y.toInt) | .ge => decide (x.toInt ≥ y.toInt)
      | .ltu => decide (x.toNat < y.toNat) | .geu => decide (x.toNat ≥ y.toNat) | .gt => decide (x.toInt > y.toInt)
      | .le => decide (x.toInt ≤ y.toInt) | .gtu => decide (x.toNat > y.toNat) | .leu => decide (x.toNat ≤ y.toNat)
    (∀ c, Gives s (.cmp kd a b c) 1 1 (.k kd (cmp c x y))) ∧ (∀ c, Gives s (.cmpi kd a imm c) 1 1 (.k kd (cmp c x z)))
    ∧ Gives s (.kop kd ka kb .and) 1 1 (.k kd (p && q)) ∧ Gives s (.kop kd ka kb .or) 1 1 (.k kd (p || q))
    ∧ Gives s (.kop kd ka kb .xor) 1 1 (.k kd (p != q)) ∧ Gives s (.kop kd ka kb .andn) 1 1 (.k kd (p && !q))
    ∧ Gives s (.kop kd ka kb .not) 1 1 (.k kd !p) ∧ Gives s (.kop kd ka kb .orn) 1 1 (.k kd (p || !q))

/-- Table 1.2: what a result does to the registers: its own register takes it and no other changes; k0 reads 1 and m0 reads all ones
whatever is written (a write of either is discarded). -/
def Obligations.ResultsWrite : Prop :=
  ∀ (c : Core) (v : W64) (w : Cap) (p : Bool) (r : Row) (mask : BitVec 128),
    (∀ n m : SReg, (c.apply (.s n v)).ctl.s[m.toNat] = if m = n then v else c.ctl.s[m.toNat])
    ∧ (∀ n m : CReg, (c.apply (.c n w)).ctl.c[m.toNat] = if m = n then w else c.ctl.c[m.toNat])
    ∧ (∀ n m : KReg, n ≠ 0 → (c.apply (.k n p)).ctl.k.getLsbD m.toNat = if m = n then p else c.ctl.k.getLsbD m.toNat)
    ∧ (∀ n : BitVec 3, n ≠ 0 → ∀ m : BitVec 3, (c.apply (.m n v)).vec.m[m.toNat] = if m = n then v else c.vec.m[m.toNat])
    ∧ c.apply (.k 0 p) = c ∧ c.apply (.m 0 v) = c
    ∧ (∀ n : BitVec 5, ∀ i, i < 128 → rowByte ((c.apply (.v n r mask)).vec.v[n.toNat]) i =
        if mask.getLsbD i then rowByte r i else rowByte (c.vec.v[n.toNat]) i)
    ∧ (∀ n m : BitVec 5, m ≠ n → (c.apply (.v n r mask)).vec.v[m.toNat] = c.vec.v[m.toNat])

/-- SRD and SWR of every state register: values, effects and the faults of the others. Tables 1.5, 1.6 and 1.7, R16, R17, R40: SRD
of every register of the table, with latency 1; the fields of TSTAT and of LOOPST. R16, R118: SWR of a register a task may
write, its effect (a 1 in bit 0 of TSTAT clears SD; EVMASK and VMODE keep their bits; BFMT its defined fields), and what the
others raise: PRIV for a register that is not writable, ILL for a number Table 1.5 does not assign and for a reserved code in
VMODE or RND. -/
def Obligations.StateRegistersReadAndWrite : Prop :=
  (∀ (s : State) (d : SReg), let r := s.core.sys; let is (n : BitVec 8) (v : W64) : Prop := Gives s (.srd d n) 1 1 (.s d v)
    is 0x01 (r.fcause.setWidth 64) ∧ is 0x02 (r.fpc.setWidth 64) ∧ is 0x03 r.faddr ∧ is 0x04 r.finfo ∧ is 0x05 r.anchor
    ∧ is 0x06 (BitVec.ofNat 64 s.tb) ∧ is 0x07 r.dmem ∧ is 0x08 (r.tcoord.setWidth 64) ∧ is 0x09 (r.gshape.setWidth 64)
    ∧ is 0x0A (r.world.setWidth 64) ∧ is 0x0B (r.vmode.setWidth 64) ∧ is 0x0C (r.scope.setWidth 64)
    ∧ is 0x0D (r.drainbase.setWidth 64) ∧ is 0x0E (r.cycmax.setWidth 64) ∧ is 0x14 (r.evmask.setWidth 64)
    ∧ (∀ (k : Nat) (h : k < 4), is (BitVec.ofNat 8 (0x10 + k)) (r.bpaddr[k].setWidth 64)
        ∧ is (BitVec.ofNat 8 (0x18 + k)) (s.core.ctl.lc[k].setWidth 64))
    ∧ (∀ (k : Nat) (h : k < 16), is (BitVec.ofNat 8 (0x20 + k)) s.core.ctl.mb[k])
    ∧ (∀ (k : Nat) (h : k < 96), is (BitVec.ofNat 8 (0x40 + k)) r.bfmt[k])
    ∧ is 0x00 (BitVec.ofNat 64 ((s.core.vec.dq.filter fun e => decide (e.cycle + 2 ≤ s.tb)).length * 2 ^ 19 + s.core.vec.qrd.toNat * 2 ^ 17
        + s.core.vec.qwr.toNat * 2 ^ 15 + s.core.ctl.loops.length * 2 ^ 12 + r.rply * 2 ^ 10 + r.dbg.toNat * 2 ^ 9 + r.bkpend.toNat * 2 ^ 8 + r.sd.toNat))
    ∧ ∃ v, is 0x15 v ∧ (s.core.ctl.loops.Pairwise (fun x y => x.lvl ≠ y.lvl) → (∀ l ∈ s.core.ctl.loops, l.stop < 4096) → ∀ k : BitVec 2,
        v.extractLsb' (16 * k.toNat) 16 = match s.core.ctl.loops.find? (fun l => l.lvl == k) with
          | some l => BitVec.ofNat 16 (0x8000 + l.stop)
          | none => 0))
  ∧ (∀ (s : State) (a : SReg), let v := s.sreg a
    let gives (n : BitVec 8) : Prop := Gives s (.swr n a) 1 1 (.reg n v)
    gives 0x00 ∧ gives 0x14 ∧ ((v.extractLsb' 0 3).toNat ≤ 4 → gives 0x0B)
    ∧ (∀ k : Nat, k < 96 → (v.extractLsb' 8 3).toNat ≤ 4 → gives (BitVec.ofNat 8 (0x40 + k)))
    ∧ (s.mayFault → (∀ n : BitVec 8, 1 ≤ n.toNat ∧ n.toNat ≤ 0x0E ∧ n ≠ 0x0B ∨ 0x10 ≤ n.toNat ∧ n.toNat ≤ 0x13 ∨ n = 0x15
          ∨ 0x18 ≤ n.toNat ∧ n.toNat ≤ 0x1B ∨ 0x20 ≤ n.toNat ∧ n.toNat ≤ 0x2F → Faults s (.swr n a) .priv 0 0 0)
        ∧ (∀ n : BitVec 8, n = 0x0F ∨ n = 0x16 ∨ n = 0x17 ∨ 0x1C ≤ n.toNat ∧ n.toNat ≤ 0x1F ∨ 0x30 ≤ n.toNat ∧ n.toNat ≤ 0x3F
          ∨ 0xA0 ≤ n.toNat → Faults s (.swr n a) .ill 0 0 0 ∧ ∀ d, Faults s (.srd d n) .ill 0 0 0)
        ∧ (5 ≤ (v.extractLsb' 0 3).toNat → Faults s (.swr 0x0B a) .ill 0 0 0)
        ∧ (∀ k : Nat, k < 96 → 5 ≤ (v.extractLsb' 8 3).toNat → Faults s (.swr (BitVec.ofNat 8 (0x40 + k)) a) .ill 0 0 0))
    ∧ ∀ (c : Core), (c.apply (.reg 0x00 v)).sys = { c.sys with sd := c.sys.sd && !v.getLsbD 0 }
      ∧ (c.apply (.reg 0x0B v)).sys = { c.sys with vmode := v.extractLsb' 0 3 }
      ∧ (c.apply (.reg 0x14 v)).sys = { c.sys with evmask := (v.extractLsb' 0 7).setWidth 16 }
      ∧ ∀ (k : Nat) (h : k < 96), (c.apply (.reg (BitVec.ofNat 8 (0x40 + k)) v)).sys =
          { c.sys with bfmt := c.sys.bfmt.set k (v &&& 0xFFFFFFFF0000070F) })

/-- Capability words: results, and the first check that fails. R107, R108, Table 4.9: the capability words that pass their checks.
CBND keeps the cursor; CADD and CSET clear the tag where the new cursor leaves the representable region, and reserved bits read
0. R108: the first check of each capability word that fails raises its fault. -/
def Obligations.CapabilityWords : Prop :=
  (∀ (s : State) (cd ca cb : CReg) (b d : SReg) (kd : KReg), let x := s.creg ca; let y := s.creg cb; let v := s.sreg b
    let clean (h : W64) : W64 := h &&& 0xFFFFF9FFFFFFFFFF
    (x.tag = true → x.otype = 0 → ∀ c, x.narrow v.toNat = some c → Gives s (.cbnd cd ca b) 1 1 (.c cd c))
    ∧ ((x.tag = true → x.otype = 0) →
        Gives s (.cperm cd ca b) 1 1 (.c cd ⟨x.cur, clean (x.high &&& (v ||| 0xFFFFFE07FFFFFFFF)), x.tag⟩)
        ∧ Gives s (.cadd cd ca b) 1 1 (.c cd ⟨x.cur + v, clean x.high, x.tag && x.represents (x.cur + v).toNat⟩)
        ∧ Gives s (.cset cd ca b) 1 1 (.c cd ⟨v, clean x.high, x.tag && x.represents v.toNat⟩))
    ∧ (let is (f : BitVec 3) (w : W64) : Prop := Gives s (.cget d ca f) 1 1 (.s d w);
        is 0 x.cur ∧ is 1 (BitVec.ofNat 64 x.base) ∧ is 2 (BitVec.ofNat 64 (min (x.top - x.base) (2 ^ 64 - 1)))
        ∧ is 3 (x.high &&& 0x000001F800000000) ∧ is 4 ((x.high.extractLsb' 43 12).setWidth 64)
        ∧ is 5 ((x.high.extractLsb' 55 9).setWidth 64) ∧ is 6 (if x.tag then 1 else 0) ∧ is 7 x.high)
    ∧ (x.tag = true → y.tag = true → x.otype = 0 → y.otype = 0 → y.has permSeal = true → y.inBounds y.cur.toNat 1 = true →
        1 ≤ y.cur.toNat → y.cur.toNat ≤ 4095 →
        Gives s (.cseal cd ca cb) 1 1 (.c cd ⟨x.cur, clean ((x.high &&& 0xFF8007FFFFFFFFFF) ||| (y.cur <<< 43)), true⟩))
    ∧ (x.tag = true → y.tag = true → x.otype ≠ 0 → y.otype = 0 → y.has permUnseal = true → y.cur.toNat = x.otype →
        y.inBounds y.cur.toNat 1 = true →
        Gives s (.cunsl cd ca cb) 1 1 (.c cd ⟨x.cur, clean (x.high &&& 0xFF8007FFFFFFFFFF), true⟩))
    ∧ Gives s (.ctst kd ca none) 1 1 (.k kd x.tag)
    ∧ Gives s (.ctst kd ca (some cb)) 1 1 (.k kd (x.tag && y.tag && decide (x.otype = y.otype ∧ x.world = y.world
        ∧ y.base ≤ x.base ∧ x.top ≤ y.top ∧ y.perms &&& x.perms = x.perms))))
  ∧ (∀ (s : State) (cd ca cb : CReg) (b : SReg), s.mayFault → let x := s.creg ca; let y := s.creg cb; let v := s.sreg b
    (x.tag = false → Faults s (.cbnd cd ca b) .captag 0 0 0 ∧ Faults s (.cseal cd ca cb) .captag 0 0 0
      ∧ Faults s (.cunsl cd ca cb) .captag 0 0 0)
    ∧ (y.tag = false → Faults s (.cseal cd ca cb) .captag 0 0 0 ∧ Faults s (.cunsl cd ca cb) .captag 0 0 0)
    ∧ (x.tag = true → x.otype ≠ 0 → Faults s (.cbnd cd ca b) .capperm 0 0 0 ∧ Faults s (.cperm cd ca b) .capperm 0 0 0
        ∧ Faults s (.cadd cd ca b) .capperm 0 0 0 ∧ Faults s (.cset cd ca b) .capperm 0 0 0)
    ∧ (x.tag = true → x.otype = 0 → v = 0 ∨ x.narrow v.toNat = none → Faults s (.cbnd cd ca b) .capbnd 0 0 0)
    ∧ (x.tag = true → y.tag = true → (x.otype ≠ 0 ∨ y.otype ≠ 0 ∨ y.has permSeal = false → Faults s (.cseal cd ca cb) .capperm 0 0 0)
        ∧ (x.otype = 0 ∨ y.otype ≠ 0 ∨ y.has permUnseal = false ∨ y.cur.toNat ≠ x.otype → Faults s (.cunsl cd ca cb) .capperm 0 0 0)
        ∧ (x.otype = 0 → y.otype = 0 → y.has permSeal = true → y.inBounds y.cur.toNat 1 = false ∨ y.cur = 0 ∨ 4095 < y.cur.toNat →
          Faults s (.cseal cd ca cb) .capbnd 0 0 0)
        ∧ (x.otype ≠ 0 → y.otype = 0 → y.has permUnseal = true → y.cur.toNat = x.otype → y.inBounds y.cur.toNat 1 = false →
          Faults s (.cunsl cd ca cb) .capbnd 0 0 0)))

/-- R108, R247, R248: no capability word widens authority. The result of CBND has the permissions, world and object type of its
source, bounds that hold its region [cursor, cursor + b) and lie within the source's; CPERM, CADD and CSET keep or clear the tag
and the permissions, and an untagged source gives an untagged result; CSEAL and CUNSL change the object type alone, by the
authority of a capability that holds it. -/
def Obligations.CapabilitiesOnlyNarrow : Prop :=
  ∀ (x y c : Cap) (b : W64),
    (capBnd x b = .ok c → c.cur = x.cur ∧ c.tag = x.tag ∧ c.perms = x.perms ∧ c.world = x.world ∧ c.otype = x.otype
      ∧ x.base ≤ c.base ∧ c.top ≤ x.top ∧ c.base ≤ x.cur.toNat ∧ x.cur.toNat + b.toNat ≤ c.top)
    ∧ (capPerm x b = .ok c → c.cur = x.cur ∧ c.tag = x.tag ∧ c.world = x.world ∧ c.otype = x.otype ∧ c.base = x.base ∧ c.top = x.top
      ∧ ∀ i < 6, c.perms.testBit i = (x.perms.testBit i && b.getLsbD (35 + i)))
    ∧ (capAdd x b = .ok c ∨ capSet x b = .ok c → c.perms = x.perms ∧ c.world = x.world ∧ c.otype = x.otype
      ∧ (c.tag = true → x.tag = true ∧ c.base = x.base ∧ c.top = x.top))
    ∧ (capSeal x y = .ok c ∨ capUnseal x y = .ok c → c.cur = x.cur ∧ x.tag = true ∧ c.perms = x.perms ∧ c.world = x.world
      ∧ c.base = x.base ∧ c.top = x.top ∧ y.tag = true ∧ y.otype = 0 ∧ y.inBounds y.cur.toNat 1 = true)
    ∧ (capSeal x y = .ok c → x.otype = 0 ∧ y.has permSeal = true ∧ c.otype = y.cur.toNat)
    ∧ (capUnseal x y = .ok c → x.otype = y.cur.toNat ∧ y.has permUnseal = true ∧ c.otype = 0)

/-- Flow words go to their targets, and raise ILL or SEGMISS where they may not. R109 to R112, Table 4.10, R38, R73: a taken
transfer to a target inside the code space goes there in two cycles and leaves the loop levels whose range does not hold the
target; CALL and RET keep them all; an untaken B passes. CALL's link is the address of the word after it. R38, R39, R73, R110,
R111, R336: where a flow word raises ILL or SEGMISS: a target outside the code space, a segment that is absent or of another tag
(DET 7), a word that ends an active loop (DET 0) or stands in a stub (DET 14). -/
def Obligations.TransfersGoOrFault : Prop :=
  (∀ (s : State) (k : KReg) (sense : Bool) (off : BitVec 24) (a d : SReg) (tag : BitVec 16) (tg : BitVec 12), s.flowFree →
    let dest : Int := s.core.iss.pc + off.toInt; let v := (s.sreg a).toNat
    let kept (n : Nat) : List LoopLevel := s.core.ctl.loops.filter fun l => decide (l.start ≤ n ∧ n ≤ l.stop)
    let seg := s.core.bnd.segs[tg.toNat / 256]'(by omega)
    (s.kreg k = sense → Passes s (.b k sense off) 1)
    ∧ (0 ≤ dest → dest ≤ 0xFFF →
        (s.kreg k ≠ sense → Transfers s (.b k sense off) dest.toNat (kept dest.toNat))
        ∧ Transfers s (.j off) dest.toNat (kept dest.toNat)
        ∧ ∃ t, exec (.call d off) s = .next t ∧ t.place = (s.core.ctl.loops, s.core.ctl.lc, dest.toNat, s.tb + 2)
            ∧ Lands s t s.tb (.s d (BitVec.ofNat 64 (s.core.iss.pc + 1))))
    ∧ (v ≤ 0xFFF → Transfers s (.jr a) v (kept v) ∧ Transfers s (.ret a) v s.core.ctl.loops)
    ∧ (seg.present = true → seg.tag = tag → Transfers s (.jf tag tg) tg.toNat (kept tg.toNat)))
  ∧ (∀ (s : State) (k : KReg) (sense : Bool) (off : BitVec 24) (a d : SReg) (tag : BitVec 16) (tg : BitVec 12)
    (lvl : BitVec 2) (count : BitVec 13), s.mayFault →
    let dest : Int := s.core.iss.pc + off.toInt; let seg := s.core.bnd.segs[tg.toNat / 256]'(by omega)
    (s.flowFree → dest < 0 ∨ 0xFFF < dest → Faults s (.j off) .ill 0 0 0 ∧ Faults s (.call d off) .ill 0 0 0
        ∧ (s.kreg k ≠ sense → Faults s (.b k sense off) .ill 0 0 0))
    ∧ (s.flowFree → 0xFFF < (s.sreg a).toNat → Faults s (.jr a) .ill 0 0 0 ∧ Faults s (.ret a) .ill 0 0 0)
    ∧ (s.flowFree → seg.present = false → Faults s (.jf tag tg) .segmiss (tg.setWidth 64) 0 0)
    ∧ (s.flowFree → seg.present = true → seg.tag ≠ tag → Faults s (.jf tag tg) .segmiss (tg.setWidth 64) 7 0)
    ∧ (s.core.iss.inStub = true → Faults s (.j off) .ill 0 14 0 ∧ Faults s (.b k sense off) .ill 0 14 0 ∧ Faults s (.jr a) .ill 0 14 0
        ∧ Faults s (.call d off) .ill 0 14 0 ∧ Faults s .done .ill 0 14 0)
    ∧ (s.core.iss.inStub = false → (∃ l ∈ s.core.ctl.loops, l.stop = s.core.iss.pc) → ∀ i : Instr, i = .b k sense off ∨ i = .j off
        ∨ i = .call d off ∨ i = .ret a ∨ i = .jr a ∨ i = .jf tag tg ∨ i = .done ∨ i = .loop lvl count off ∨ i = .loopr lvl count off →
        Faults s i .ill 0 0 0))

/-- Loops push their level and count down at their end word. R33 to R37: LOOP and LOOPR of a level that is not active, with an end
word after it and inside the enclosing loop, push the level with its count and go to the next word; a count of 0 passes over the
loop as its end word would. R36: a word that has issued outside a stub takes the loop-end step within its cycle, and the word
that the step names issues in the next one: with no loop ending at the word, the next word; a loop that has counted down to 0
leaves the stack, and the step goes on with the loop around it that ends there too; any other loop goes back to its first word,
no outer counter changed. -/
def Obligations.LoopsPushAndEnd : Prop :=
  (∀ (s : State) (lvl : BitVec 2) (n : W32) (off : BitVec 24) (count reg : BitVec 13), s.flowFree →
    (∀ l ∈ s.core.ctl.loops, l.lvl ≠ lvl) → 1 ≤ off.toInt → s.core.iss.pc + off.toInt ≤ 0xFFF →
    (∀ l r, s.core.ctl.loops = l :: r → s.core.iss.pc + off.toInt ≤ l.stop) →
    let stop := (s.core.iss.pc + off.toInt).toNat; let pc := s.core.iss.pc
    let counts (i : Instr) (n : W32) : Prop :=
      (n ≠ 0 → ∃ t, exec i s = .next t ∧ t.steady = s.steady ∧ t.core.iss.pend = s.core.iss.pend
        ∧ t.place = (⟨lvl, pc + 1, stop⟩ :: s.core.ctl.loops, s.core.ctl.lc.set lvl.toNat n, pc + 1, s.tb + 1))
      ∧ (n = 0 → ∃ t, exec i s = .next t ∧ t.steady = s.steady ∧ t.core.iss.pend = s.core.iss.pend
        ∧ (t.core.ctl.loops, t.core.ctl.lc, t.core.iss.pc) = loopEnd s.core.ctl.loops s.core.ctl.lc stop
        ∧ t.core.iss.next = s.tb + 1)
    counts (.loop lvl count off) (BitVec.ofNat 32 count.toNat)
    ∧ (∀ h : reg.toNat < 32, n = s.core.ctl.s[reg.toNat].setWidth 32 → counts (.loopr lvl reg off) n)
    ∧ (∀ h : 32 ≤ reg.toNat ∧ reg.toNat < 48, n = s.core.ctl.mb[reg.toNat - 32].setWidth 32 → counts (.loopr lvl reg off) n))
  ∧ (∀ (s : State) (l : LoopLevel) (r : List LoopLevel) (lc : Vector W32 4) (pc : Nat), let n := lc[l.lvl.toNat] - 1
    (s.core.iss.inStub = false → ∃ t, exec .nop s = .next t ∧ t.core.iss.next = s.tb + 1
      ∧ (t.core.ctl.loops, t.core.ctl.lc, t.core.iss.pc) = loopEnd s.core.ctl.loops s.core.ctl.lc s.core.iss.pc)
    ∧ loopEnd [] lc pc = ([], lc, pc + 1)
    ∧ (l.stop ≠ pc → loopEnd (l :: r) lc pc = (l :: r, lc, pc + 1))
    ∧ (l.stop = pc → n ≠ 0 → loopEnd (l :: r) lc pc = (l :: r, lc.set l.lvl.toNat n, l.start))
    ∧ (l.stop = pc → n = 0 → loopEnd (l :: r) lc pc = loopEnd r (lc.set l.lvl.toNat 0) pc))

/-- Launches arm, start in their cycle and advance word by word; SLIP where they cannot. R26, R27, R113: VRUN, MRUN and TRUN arm
their column's stream with the capability as it is read now; a start less than two cycles away raises SLIP with DET 9, a fifth
launch SLIP with DET 10. Nothing else changes. R26 to R28, R230: STREAM_START issues a launch in its start cycle, SLIP while the
column still issues; STREAM_END_EVENT sets the column's sticky flag once every result is visible. R79, R80, R28: VNOP and MNOP
move their stream by one operation: ρ advances by STEP; the repeat, the next word, or the end of the stream follows in the next
cycle. Nothing else changes. -/
def Obligations.StreamsStartAndAdvance : Prop :=
  (∀ (s : State) (col : Col) (addr cnt : BitVec 8) (c : CReg) (t : TimeArg),
    let i : Instr := match col with | .vector => .vrun addr cnt c t | .matrix => .mrun addr cnt c t | .table => .trun addr cnt c t
    let start := match t with | .rel x => (s.core.sys.anchor + BitVec.ofNat 64 x.toNat).toNat | .abs k => (s.sreg k).toNat
    let l : Launch := ⟨addr.toNat * 16, cnt.toNat + 1, s.creg c, start, BitVec.ofNat 12 s.core.iss.pc, s.tb, false⟩
    s.core.fw = none → addr.toNat * 16 + cnt.toNat + 1 ≤ 4096 →
      (s.tb + 2 ≤ start → (s.core.col col).armed.length < 4 →
        ∃ u, exec i s = .next u ∧ Issues s u 1 ∧ u.core.iss.pend = s.core.iss.pend
          ∧ u.steady = (s.modCol col fun x => { x with armed := x.armed ++ [l] }).steady)
      ∧ (s.mayFault → start < s.tb + 2 → Faults s i .slip 0 9 0)
      ∧ (s.mayFault → s.tb + 2 ≤ start → 4 ≤ (s.core.col col).armed.length → Faults s i .slip 0 10 0))
  ∧ (∀ (s : State) (col : Col) (l : Launch) (r : List Launch), let c := s.core.col col
    let st : Stream := ⟨l.first, l.count, none, 0, 0, l.cap, s.tb, 0, s.tb, l.issue, s.tb, []⟩
    (c.armed = l :: r → l.start = s.tb →
      (c.run = none → exec (.streamStart s.cur col) s = .next (s.modCol col fun x => { x with armed := r, run := some st }))
      ∧ (c.run ≠ none → s.mayFault → ∃ info, natBits info.toNat 32 7 = 11
        ∧ (l.saved = false → info.extractLsb' 0 32 = BitVec.ofNat 32 (s.tb - l.issue))
        ∧ exec (.streamStart s.cur col) s = .next ((s.modCol col fun x => { x with armed := r }).modIss
          fun x => { x with fault := some ⟨.slip, if l.saved then BitVec.ofNat 12 l.first else l.pc, 0, info⟩ })))
    ∧ (∀ e ∈ c.ends, e ≤ s.tb → exec (.streamEndEvent s.cur col) s = .next (s.modCol col fun x => { x with
        flag := true, ends := x.ends.filter (s.tb < ·) })))
  ∧ (∀ (s : State) (st : Stream) (stp : Stp), let rho := st.rho + stp.step.toInt
    let on (c : Column) : Column :=
      if st.op < stp.rep.toNat then
        { c with run := some { st with rho := rho, next := s.tb + 1, cyc := 0, latched := [], visible := max st.visible (s.tb + 1), op := st.op + 1 } }
      else if st.left = 1 then { c with run := none, ends := c.ends ++ [max st.visible (s.tb + 1)] }
      else { c with run := some { st with rho := rho, next := s.tb + 1, cyc := 0, latched := [], visible := max st.visible (s.tb + 1), op := 0, cur := none, addr := st.addr + 1, left := st.left - 1 } }
    0 < st.left →
    (s.core.iss.vec.run = some st → exec (.vnop stp) s = .next (s.modIss fun x => { x with vec := on x.vec }))
    ∧ (s.core.iss.mat.run = some st → exec (.mnop stp) s = .next (s.modIss fun x => { x with mat := on x.mat })))

/-- NOP, TIME, DONE, ERET, and the words that raise TIMING, SVC and BKPT; firmware calls. R32, R114 to R119: NOP, TIME, an untaken
TRAP and a DONE complete; a taken TRAP raises TIMING with DET 1, SVC and BKPT their own causes, each with its CODE; ERET ends a
stub, and outside one raises PRIV. R403: SVC of a firmware level calls the next one at its entry point, and its ERET returns to
the word after the call. Where the spec leaves a point open, what this says of it is the model's choice:
notes/assumptions/11.md. -/
def Obligations.SystemWordsAndCalls : Prop :=
  (∀ (s : State) (k : KReg) (sense : Bool) (code : BitVec 16) (a d : SReg),
    Passes s .nop 1
    ∧ Gives s (.time d a false) 1 1 (.s d (s.core.sys.anchor + s.sreg a))
    ∧ Gives s (.time d a true) 1 1 (.s d (BitVec.ofNat 64 s.tb + s.sreg a))
    ∧ (s.core.iss.inStub = false → s.kreg k = sense → Passes s (.trap k sense code) 1)
    ∧ (s.mayFault → s.core.iss.inStub = false → s.kreg k ≠ sense → Faults s (.trap k sense code) .timing 0 1 code)
    ∧ (s.mayFault → s.core.iss.inStub = false → s.core.fw = none → Faults s (.svc a code) .svc (s.sreg a) 0 code)
    ∧ (s.mayFault → s.core.iss.inStub = false → Faults s (.bkpt code) .bkpt 0 0 code)
    ∧ (s.core.fw = none → s.core.iss.inStub = true → exec .eret s =
        .next (s.modIss fun x => { x with next := s.tb + 1, drain := x.drain.map fun q => { q with stubDone := true } }))
    ∧ (s.mayFault → s.core.fw = none → s.core.iss.inStub = false → Faults s .eret .priv 0 0 0)
    ∧ (s.flowFree → exec .done s = .next (s.modIss fun x => { x with s0done := s.sreg 0, wait := .done, waitAt := s.tb })))
  ∧ (∀ (s : State) (f : Fw) (a : SReg) (code : BitVec 16), s.core.fw = some f → s.core.iss.inStub = false →
    (f.level = .scheduler → ∃ t, exec (.svc a code) s = .next t ∧ t.core.iss.pc = f.entryMonitor ∧ t.mem = s.mem
      ∧ t.core.fw = some { f with level := .monitor, calls := (.scheduler, s.core.iss.pc + 1) :: f.calls })
    ∧ (f.level = .plugin → ∃ t, exec (.svc a code) s = .next t ∧ t.core.iss.pc = f.entryScheduler ∧ t.mem = s.mem
      ∧ t.core.fw = some { f with level := .scheduler, calls := (.plugin, s.core.iss.pc + 1) :: f.calls })
    ∧ (∀ l pc r, f.calls = (l, pc) :: r → ∃ t, exec .eret s = .next t ∧ t.core.iss.pc = pc ∧ t.core.iss.next = s.tb + 2
      ∧ t.mem = s.mem ∧ t.core.ctl = s.core.ctl ∧ t.core.fw = some { f with level := l, calls := r })
    ∧ (s.mayFault → f.calls = [] → Faults s .eret .priv 0 0 0))

/-- Loads give their bytes, stall above a LEVEL and complete. R94, R103, R104: LD and LDS give the little-endian value of their
bytes, zero or sign extended, with latency 3; LDC gives both halves, and the tag of its granule where the bank is a CAP bank and
LOADCAP is held. No byte of memory changes. R15, R106: a load of bytes at or above an active channel's LEVEL waits at its word.
R15, R94, R103, R104, R106: the completion of a stalled LD, LDS or LDC: the address that its issue checked is sampled, the
register is written at the end of the third cycle, and the next word issues in the next one. Where the spec leaves a point open,
what this says of it is the model's choice: notes/assumptions/104.md. -/
def Obligations.LoadsGiveOrStall : Prop :=
  (∀ (s : State) (d : SReg) (cd c : CReg) (sz : Size) (off : BitVec 24), let x := s.creg c; let n := sz.bytes
    let a : W64 := BitVec.ofInt 64 (x.cur.toInt + off.toInt); let bytes := fun n => s.mem.read a.toNat n
    s.portFree a →
    (s.mayAccess x a n permRead false → s.core.aboveMark a.toNat n = false → (∀ i < n, s.mem.damaged (a.toNat + i) = false) →
      Gives s (.ld d c sz off) 3 1 (.s d (BitVec.ofNat 64 (leNat (bytes n))))
      ∧ Gives s (.lds d c sz off) 3 1 (.s d ((BitVec.ofNat (8 * n) (leNat (bytes n))).signExtend 64)))
    ∧ (s.mayAccess x a 16 permRead false → s.core.aboveMark a.toNat 16 = false → (∀ i < 16, s.mem.damaged (a.toNat + i) = false) →
      ∃ t, exec (.ldc cd c off) s = .next t ∧ Issues s t 1 ∧ Lands (s.useWide a.toNat) t (s.tb + 2)
        (.c cd ⟨BitVec.ofNat 64 (leNat (bytes 8)), BitVec.ofNat 64 (leNat (s.mem.read (a.toNat + 8) 8)),
          x.has permLoadCap && s.capBank a.toNat && s.mem.capTag a.toNat⟩)))
  ∧ (∀ (s : State) (d : SReg) (cd c : CReg) (sz : Size) (off : BitVec 24), let x := s.creg c; let n := sz.bytes
    let a : W64 := BitVec.ofInt 64 (x.cur.toInt + off.toInt); s.portFree a → s.core.sys.dbg = false →
    (s.mayAccess x a n permRead false → s.core.aboveMark a.toNat n = true →
      Waits s (.ld d c sz off) (.load a.toNat n (.zext d)) ∧ Waits s (.lds d c sz off) (.load a.toNat n (.sext d)))
    ∧ (s.mayAccess x a 16 permRead false → s.core.aboveMark a.toNat 16 = true →
      Waits s (.ldc cd c off) (.load a.toNat 16 (.cap cd (x.has permLoadCap)))))
  ∧ (∀ (s : State) (a : Nat), s.core.iss.fault = none → s.core.fw = none →
    let done (n : Nat) (dst : LoadTo) (v : Dst) : Prop := s.core.iss.wait = .load a n dst → (∀ i < n, s.mem.damaged (a + i) = false) →
      ∃ t, exec (.loadStallComplete s.cur) s = .next t ∧ t.core.iss.wait = .none ∧ t.mem = s.mem ∧ Issues s t 1
        ∧ t.core.sys = { s.core.sys with anchor := BitVec.ofNat 64 s.tb } ∧ t.eng = s.eng ∧ t.disp = s.disp
        ∧ t.core.iss.pend = s.core.iss.pend ++ [⟨s.tb + 2, v, none, s.tb⟩]
    (∀ (d : SReg) (sz : Size), let b := leNat (s.mem.read a sz.bytes)
      done sz.bytes (.zext d) (.s d (BitVec.ofNat 64 b)) ∧ done sz.bytes (.sext d) (.s d ((BitVec.ofNat (8 * sz.bytes) b).signExtend 64)))
    ∧ ∀ (cd : CReg) (may : Bool), done 16 (.cap cd may) (.c cd ⟨BitVec.ofNat 64 (leNat (s.mem.read a 8)),
        BitVec.ofNat 64 (leNat (s.mem.read (a + 8) 8)), may && s.capBank a && s.mem.capTag a⟩))

/-- R94, R103, R104, R105: ST and STC leave their bytes for the end of the cycle: no register and no other byte changes, and from
the end of the cycle on (where no bank row and no table entry is written beside) their bytes hold the value, in ascending
significance. Where the spec leaves a point open, what this says of it is the model's choice: notes/assumptions/104.md. -/
def Obligations.StoresWriteTheirBytes : Prop :=
  ∀ (s : State) (d : SReg) (cd c : CReg) (sz : Size) (off : BitVec 24) (e b : Nat), let x := s.creg c
    let a : W64 := BitVec.ofInt 64 (x.cur.toInt + off.toInt); let v := s.creg cd
    let quiet : Prop := s.core.iss.bankPend = [] ∧ s.core.iss.pend = [] ∧ s.mem.wf = true
    let leaves (i : Instr) (u : State) (w : StorePend) : Prop := ∃ t, exec i s = .next t ∧ Issues s t 1
      ∧ t.core.iss.pend = s.core.iss.pend ∧ t.steady = (u.modIss fun y => { y with stores := y.stores ++ [w] }).steady
      ∧ (quiet → (t.commit e).mem.get b =
          if a.toNat ≤ b ∧ b < a.toNat + w.bytes.length then w.bytes[b - a.toNat]! else (s.commit e).mem.get b)
    s.portFree a →
    (s.mayAccess x a sz.bytes permWrite true →
      leaves (.st d c sz off) s ⟨a.toNat, leBytes (s.sreg d).toNat sz.bytes, none⟩)
    ∧ (s.mayAccess x a 16 (if v.tag then permWrite + permStoreCap else permWrite) true →
      leaves (.stc cd c off) (s.useWide a.toNat) ⟨a.toNat, leBytes v.cur.toNat 8 ++ leBytes v.high.toNat 8, some v.tag⟩)

/-- R102, R105: the checks of every load and store, in order; the first that fails raises its cause with FADDR the address; one that
passes them all in the cycle after an LDC or STC of its bank raises SLIP with DET 12. -/
def Obligations.AccessChecksInOrder : Prop :=
  ∀ (s : State) (d : SReg) (cd c : CReg) (sz : Size) (off : BitVec 24), s.mayFault → s.core.fw = none → let x := s.creg c
    let a : W64 := BitVec.ofInt 64 (x.cur.toInt + off.toInt)
    let checks (i : Instr) (n need : Nat) (own : Nat → Bool) : Prop :=
      (x.tag = false → Faults s i .captag a 0 0)
      ∧ (x.tag = true → x.otype ≠ 0 ∨ x.world ≠ s.myWorld ∨ x.has need = false → Faults s i .capperm a 0 0)
      ∧ (x.authority s.myWorld need = none →
          (a.toNat < x.base ∨ x.top < a.toNat + n ∨ 2 ^ 64 < a.toNat + n → Faults s i .capbnd a 0 0)
          ∧ (x.inBounds a.toNat n = true → a.toNat % n ≠ 0 → Faults s i .align a 0 0)
          ∧ (x.inBounds a.toNat n = true → a.toNat % n = 0 →
              ((∃ k < n, own (a.toNat + k) = false) → Faults s i .capperm a 0 0)
              ∧ ((∀ k < n, own (a.toNat + k) = true) → s.wideBusy a.toNat = true → Faults s i .slip a 12 0)))
    checks (.ld d c sz off) sz.bytes permRead s.ownReadable ∧ checks (.lds d c sz off) sz.bytes permRead s.ownReadable
    ∧ checks (.ldc cd c off) 16 permRead s.ownReadable ∧ checks (.st d c sz off) sz.bytes permWrite s.ownWritable
    ∧ checks (.stc cd c off) 16 (if (s.creg cd).tag then permWrite + permStoreCap else permWrite) s.ownWritable

/-- Atomics, semaphore words and CARRY leave for their home. R168, R169, R209, R211, R228, Tables 6.4 and 9.2: atomics, semaphore
words and CARRY that reach a home leave the core in this cycle, to act 2 + H cycles on; SWAIT and ACQ wait at their word. A
release awaits what it covers and what a fence holds back; at SYSTEM scope on a task whose SCOPE is below 5 it executes as
TENANT and sets TSTAT.SD. R170, R171: an address in the accumulators of a core that admits the world has its home there, at the
path cost of R171. -/
def Obligations.HomeOperationsLeave : Prop :=
  (∀ (s : State) (d : SReg) (c : CReg) (off : BitVec 24) (int32 uns : Bool) (cond : Cond) (x : Scope) (home : HomeAt) (h : Nat),
    let cap := s.creg c; let va : W64 := BitVec.ofInt 64 (cap.cur.toInt + off.toInt); let v : W32 := (s.sreg d).setWidth 32
    let rw := permRead + permWrite; let low := s.core.sys.scope.toNat < 5
    let eff : Scope := if x = .system ∧ low then .tenant else x
    let marked (u : State) : State := if x = .system ∧ low then u.modSys fun r => { r with sd := true } else u
    let send what bl waits dst := s.leaves what va home h bl waits dst 0 0
    (s.mayReach cap va 4 rw home h →
      Sends s (send (.aadd v int32) [] false (some d)) (.aadd d c int32 off) false
      ∧ Sends s (send (.axch v) [] false (some d)) (.axch d c off) false
      ∧ (d ≠ 31 → Sends s (send (.acas v ((s.sreg (d + 1)).setWidth 32)) [] false (some d)) (.acas d c off) false)
      ∧ (s.core.iss.fault = none → Sends s (marked (send (.ssig v) (s.covered eff ++ s.fenced) false none)) (.ssig d c x off) false)
      ∧ (s.core.iss.inStub = false →
          Sends s (send (.swait v (if uns then .geu else .ge) true) [] true none) (.swaitConsume d c uns off) true))
    ∧ (s.mayReach cap va 4 permRead home h →
      Sends s (send .ald [] false (some d)) (.ald d c off) false
      ∧ (s.core.iss.inStub = false → Sends s (send (.swait v cond false) [] true none) (.swait d c cond off) true
          ∧ Sends s (send (.swait v cond false) [] true none) (.acq d c cond x off) true))
    ∧ (s.mayReach cap va 4 permWrite home h →
      Sends s (send (.ast v) [] false none) (.ast d c off) false ∧ Sends s (send (.sset v) s.fenced false none) (.sset d c off) false
      ∧ (s.core.iss.fault = none → Sends s (marked (send (.sset v) (s.covered eff ++ s.fenced) false none)) (.rel d c x off) false))
    ∧ (s.mayReach cap va 8 rw home h →
      Sends s (send (.carry ((s.sreg d).setWidth 16) s.myGroup) (s.covered .tenant ++ s.fenced) false (some d)) (.carry d c off) false))
  ∧ (∀ (s : State) (i w : Nat) (gid : BitVec 16) (va : W64) (r wr : Bool), i < 2048 → w < 16384 → s.cur < 2048 →
    va.toNat = 0x0000010000000000 + i * 0x100000 + 0x60000 + 4 * w → s.admits s.myWorld i = true →
    let dist (a b : Nat) : Nat := (a - b) + (b - a)
    let far (a b : Nat) : Nat := (a / 16 - b / 16) + (b / 16 - a / 16)
    s.homeOf s.myWorld s.cur gid va r wr = .ok (.acc i w, (if s.cur = i then 0
      else 17 + 2 * (dist (gx s.cur) (gx i) + dist (gy s.cur) (gy i)) + 18 * (far (gx s.cur) (gx i) + far (gy s.cur) (gy i))), false))

/-- R216 to R219, Table 9.3: RINIT makes the ring of its word; the ring operations of an address in the banks of a core leave for
that core's ring, RWFL and RWFR as waits, RPUB after the copies into the ring's banks and what a fence holds back. Where the
spec leaves a point open, what this says of it is the model's choice: notes/assumptions/102.md. -/
def Obligations.RingWords : Prop :=
  ∀ (s : State) (d a : SReg) (c : CReg) (rn : RnReg) (n : BitVec 12) (i b : Nat),
    let x := (s.sreg a).toNat; let first := x / 2 ^ 55 % 128; let last := x / 2 ^ 48 % 128; let sz := x / 2 ^ 36 % 4096
    let cap := s.creg c; let h := homeCost s.cur i
    let send what bl waits dst := s.leaves what cap.cur (.ring i rn) h bl waits dst (BitVec.ofNat 64 cap.base) cap.top
    (first ≤ last → last ≤ 95 → 1 ≤ sz → sz ≤ 3072 → 2 * sz ≤ 32 * (last - first + 1) →
      ∃ t, exec (.rinit rn a) s = .next t ∧ Issues s t 1 ∧ t.core.iss.pend = s.core.iss.pend ∧ t.steady =
        (s.modC fun k => { k with rn := k.rn.set rn.toNat ⟨BitVec.ofNat 64 (first * 2 ^ 55 + last * 2 ^ 48 + sz * 2 ^ 36), [], []⟩ }).steady)
    ∧ (s.mayFault → last < first ∨ 95 < last ∨ sz = 0 ∨ 3072 < sz ∨ 32 * (last - first + 1) < 2 * sz →
      Faults s (.rinit rn a) .ringerr 0 0 0)
    ∧ (placeOf cap.cur.toNat = .slice i (.bank b) →
      (cap.authority s.myWorld permWrite = none →
        Sends s (send (.rclm n.toNat) [] false (some d)) (.rclm d c rn n) false
        ∧ Sends s (send (.rpub n.toNat) (s.ringCopies rn i ++ s.fenced) false none) (.rpub c rn n) false
        ∧ (s.core.iss.inStub = false → Sends s (send (.rwfr n.toNat) [] true (some d)) (.rwfr d c rn n) true))
      ∧ (cap.authority s.myWorld permRead = none →
        Sends s (send (.rrel n.toNat) [] false none) (.rrel c rn n) false ∧ Sends s (send .rstat [] false (some d)) (.rstat d c rn) false
        ∧ (s.core.iss.inStub = false → Sends s (send (.rwfl n.toNat) [] true (some d)) (.rwfl d c rn n) true)))

/-- R168, R171, R209, Tables 6.4 and 9.2: HOME_OPERATION_ACT of a core's operation whose word at an accumulator has no uncorrectable
error, on a core that no scan holds: the new word, the value that goes back, and when it arrives; the four bytes of the word are
all that changes of memory. Where the spec leaves a point open, what this says of it is the model's choice:
notes/assumptions/114.md. -/
def Obligations.WordsActAtTheirHome : Prop :=
  ∀ (s : State) (id i w p : Nat) (op : HomeOp) (b : Nat), s.mem.wf = true →
    s.eng.homes.find? (fun h => h.id == id) = some op → op.home = .acc i w → op.asker = .core p →
    s.mem.damaged (accBase i + 4 * w) = false → s.heldAway (accBase i + 4 * w) = false → let a := accBase i + 4 * w; let old := s.mem.word a
    let acts (new : W32) (v : Option W64) (back : Nat) : Prop := ∃ t, exec (.homeOperationAct id) s = .next t
      ∧ t.core.ctl = s.core.ctl ∧ t.core.vec = s.core.vec ∧ t.core.sys = s.core.sys ∧ t.disp = s.disp ∧ t.worlds = s.worlds
      ∧ t.mem.get b = (if a ≤ b ∧ b < a + 4 then (leBytes new.toNat 4)[b - a]! else s.mem.get b)
      ∧ (op.dst.isSome = true ∨ op.waits = true → ∃ h, h ∈ t.eng.homes ∧ h.id = id ∧ h.acted = true ∧ h.value = v ∧ h.ret = s.tb + back)
    let got : Option W64 := some (BitVec.ofNat 64 old.toNat)
    (∀ x, op.what = .aadd x true → acts (old + x) got (3 + op.h)) ∧ (∀ x, op.what = .aadd x false → acts (addF32 old x) got (3 + op.h))
    ∧ (∀ x, op.what = .axch x → acts x got (3 + op.h))
    ∧ (∀ c x, op.what = .acas c x → acts (if old = c then x else old) got (3 + op.h))
    ∧ (op.what = .ald → acts old got op.h) ∧ (∀ x, op.what = .ast x → acts x none (3 + op.h))
    ∧ (∀ x, op.what = .ssig x → acts (old + x) none (3 + op.h)) ∧ (∀ x, op.what = .sset x → acts x none (3 + op.h))
    ∧ (∀ x c k, op.what = .swait x c k → Cond.holds c old x = true → acts (if k then old - x else old) got (3 + op.h))
    ∧ (∀ x c k, op.what = .swait x c k → Cond.holds c old x = false → exec (.homeOperationAct id) s = .next s)

/-- R15, R106, R171, R209, R210: the return of an acted operation to the run that sent it writes its register at the end of the
cycle; the completion of a wait, and of a stalled load, moves the anchor to this cycle and the next word issues in the next one. -/
def Obligations.ReturnsComplete : Prop :=
  ∀ (s : State) (id : Nat) (op : HomeOp), s.eng.homes.find? (fun h => h.id == id) = some op → op.asker = .core s.cur →
    op.fault = none → op.run = s.core.iss.run →
    let rest : List HomeOp := s.eng.homes.filter fun h => h.id != id
    let sent : List Pend := match op.dst, op.value with
      | some d, some v => insertPend s.core.iss.pend ⟨s.tb, .s d v, none, op.issue⟩
      | _, _ => s.core.iss.pend
    s.core.frozen = false →
    (∃ t, exec (.homeOperationReturn id) s = .next t ∧ t.eng = { s.eng with homes := rest } ∧ t.mem = s.mem
      ∧ t.core = { s.core with iss := { s.core.iss with pend := sent } } ∧ t.others = s.others ∧ t.disp = s.disp)
    ∧ (s.core.iss.wait = .home id → ∃ t, exec (.homeWaitComplete id) s = .next t ∧ t.core.iss.wait = .none ∧ t.mem = s.mem
      ∧ t.core.sys = { s.core.sys with anchor := BitVec.ofNat 64 s.tb } ∧ Issues s t 1 ∧ t.core.iss.pend = sent
      ∧ t.eng = { s.eng with homes := rest })

/-- Phase words, the events of the phase unit, and the waits that end. R222, R223, R226: PARV, PBAR, PWAIT, FENCE and WEV. An
arrival is at α, reaches the phase unit A cycles on, and moves α; one at P + 2 or beyond, in the core's view, raises TIMING and
leaves α. At level 4 the latency is a value the spec does not fix (R369). R224, R225: the events of the phase unit. An arrival,
a registration, a landing or a withdrawal changes the domain it names; with it the current phase completes in this cycle when
every required member has arrived and no counted copy is left, and only then. A landing or a withdrawal that is there before the
registration of its copy follows it (the latencies of level 4 are not fixed, R369). R22, R223, R224, R230, R231:
PHASE_WAIT_COMPLETE once the phase shows complete in the core's view, and WEV_COMPLETE once every condition that EVMASK selects
holds: the selected sticky flags are cleared. Where the spec leaves a point open, what this says of it is the model's choice:
notes/assumptions/6.md, notes/assumptions/24.md. -/
def Obligations.PhasesAdvance : Prop :=
  (∀ (s : State) (d a : SReg) (lvl : BitVec 3) (x : Scope), let l := lvl.toNat; let al := s.alpha lvl; let seen := s.seenPhase s.cur l
    let lat := if l = 0 then 1 else if l = 1 then 8 else if l = 2 then 40 else if l = 3 then 64 else Config.podLatency s.free + 1
    let arrived : State := { s with
      free := if l = 4 then s.free + 1 else s.free
      agenda := s.agenda ++ [(s.tb + lat, .phaseArrival (s.domainOf s.cur l) s.cur al)]
      core := { s.core with bnd := { s.core.bnd with alpha := s.core.bnd.alpha.setIfInBounds l (al + 1) } } }
    let low := x = .system ∧ s.core.sys.scope.toNat < 5
    let fenced : State := s.modIss fun y => { y with fence := (s.covered (if low then .tenant else x) ++ s.fenced).eraseDups }
    (l ≤ 4 → (al = seen + 2 ∨ ¬ serialLT al (seen + 2) = true) → s.mayFault → Faults s (.parv d lvl) .timing 0 0 0
      ∧ (s.core.iss.inStub = false → Faults s (.pbar lvl) .timing 0 0 0))
    ∧ (l ≤ 4 → serialLT al (seen + 2) = true →
      (∃ t, exec (.parv d lvl) s = .next t ∧ Issues s t 1 ∧ t.steady = arrived.steady
        ∧ t.core.iss.pend = s.core.iss.pend ++ [⟨s.tb, .s d (al.setWidth 64), none, s.tb⟩])
      ∧ (s.core.iss.inStub = false →
        exec (.pbar lvl) s = .next (arrived.modIss fun y => { y with wait := .phase lvl al, waitAt := s.tb })))
    ∧ (l ≤ 4 → s.core.iss.inStub = false → Waits s (.pwait lvl a) (.phase lvl ((s.sreg a).setWidth 32)))
    ∧ (s.core.iss.inStub = false → Waits s .wev .wev)
    ∧ (s.core.iss.fault = none → Leaves s (if low then fenced.modSys fun r => { r with sd := true } else fenced) (.fence x)))
  ∧ (∀ (s : State) (dom core id : Nat) (p : BitVec 32) (c : Domain), s.domain? dom = some c →
    let gone := (s.getCore core).hasRetired = true ∧ (s.getCore core).bnd.alpha.toList[dom / 2 ^ 32]? = some p
    let late := s.agenda.find? fun e => e.2 == .phaseCopyRegistration dom id p
    let acts (i : Instr) (f : Domain → Domain) : Prop :=
      let full := (f c).broken = false ∧ s.membersIn (f c) c.p = true ∧ ∀ q ∈ (f c).copies, q.2 ≠ c.p
      (¬ full → exec i s = .next { s with disp := { s.disp with domains := s.disp.domains.map fun y => if y.id == dom then f y else y } })
      ∧ (full → ∃ t u, exec i s = .next t ∧ t = { s with disp := { s.disp with domains := t.disp.domains } }
          ∧ t.domain? dom = some u ∧ (u.p = c.p + 1 ∨ u.p = c.p + 2) ∧ (c.p, s.tb) ∈ u.comps)
    acts (.phaseArrival dom core p) (fun y => { y with
        arrivals := if (core, p) ∈ y.arrivals then y.arrivals else y.arrivals ++ [(core, p)]
        retired := if gone ∧ core ∉ y.retired then y.retired ++ [core] else y.retired })
    ∧ acts (.phaseCopyRegistration dom id p) (fun y => { y with copies := y.copies ++ [(id, p)] })
    ∧ (late = none → acts (.phaseCopyLanding dom id p) (fun y => { y with copies := y.copies.filter fun q => q != (id, p) })
        ∧ acts (.phaseCopyWithdrawal dom id p) (fun y => { y with copies := y.copies.filter fun q => q != (id, p) }))
    ∧ (∀ e, late = some e → ∀ i : Instr, i = .phaseCopyLanding dom id p ∨ i = .phaseCopyWithdrawal dom id p →
        exec i s = .next { s with agenda := s.agenda ++ [(e.1, i)] }))
  ∧ (∀ (s : State), let m := s.core.sys.evmask; let y := s.core.iss
    (∀ lvl p, y.wait = .phase lvl p →
      (serialLT p (s.seenPhase s.cur lvl.toNat) = true → Resumes s s (.phaseWaitComplete s.cur))
      ∧ (serialLT p (s.seenPhase s.cur lvl.toNat) = false → exec (.phaseWaitComplete s.cur) s = .next s))
    ∧ (y.wait = .wev →
      (m.getLsbD 0 = true → y.vec.flag = true) ∧ (m.getLsbD 1 = true → y.mat.flag = true) ∧ (m.getLsbD 2 = true → y.tab.flag = true)
        ∧ (m.getLsbD 3 = true → y.vec.finished = true) ∧ (m.getLsbD 4 = true → y.mat.finished = true)
        ∧ (m.getLsbD 5 = true → y.tab.finished = true) ∧ (m.getLsbD 6 = true → s.copiesIdle s.cur = true) →
      Resumes s (s.modIss fun z => { z with
        vec := { z.vec with flag := z.vec.flag && !m.getLsbD 0 }, mat := { z.mat with flag := z.mat.flag && !m.getLsbD 1 }
        tab := { z.tab with flag := z.tab.flag && !m.getLsbD 2 } }) (.wevComplete s.cur)))

/-- R121, R123, R128, Table 5.3: typed arithmetic, with register or memory operands: every element of the result, its latency, and
nothing else changed. VFMA and VFMS read d before they write it. -/
def Obligations.VectorArithmetic : Prop :=
  ∀ (s : State) (st : Stream) (ty : VType) (d a b : VReg) (mem : Bool) (stp : Stp), s.core.iss.vec.run = some st →
    let arg (r : VReg) : VArg := ⟨r, fullRow, some [.raw, VType.fmt ty]⟩
    let at_ (r : VReg) (j : Nat) : Nat := VType.elem ty (s.vSource st mem (arg r)) j
    let md := s.vMode st mem d
    let gives (i : Instr) (lat : Nat) (from_ : List VReg) (g : Nat → Nat) : Prop :=
      ∃ r, VType.row ty r g ∧ VGives s i st stp mem (arg d) lat (from_.map arg) r
    (∀ f, VType.float? ty = some f →
      let x (j : Nat) : FVal := f.decode (at_ a j); let y (j : Nat) : FVal := f.decode (at_ b j); let z (j : Nat) : FVal := f.decode (at_ d j)
      let minus (j : Nat) : Bool := at_ a j / f.signBit % 2 == 1
      gives (.vadd ty d a b mem stp) 2 [a, b] (fun j => f.arith md (FVal.add md (x j) (y j)))
      ∧ gives (.vsub ty d a b mem stp) 2 [a, b] (fun j => f.arith md (FVal.add md (x j) (y j).neg))
      ∧ gives (.vmul ty d a b mem stp) 3 [a, b] (fun j => f.arith md (FVal.mul (x j) (y j)))
      ∧ gives (.vfma ty d a b mem stp) 4 [d, a, b] (fun j => f.arith md (FVal.add md (FVal.mul (x j) (y j)) (z j)))
      ∧ gives (.vfms ty d a b mem stp) 4 [d, a, b] (fun j => f.arith md (FVal.add md (FVal.mul (x j) (y j)) (z j).neg))
      ∧ gives (.vmax ty d a b mem stp) 2 [a, b] (fun j => if (x j).isNaN || (y j).isNaN then f.nanPat
          else if FVal.cmp (x j) (y j) = .lt ∨ FVal.cmp (x j) (y j) = .eq ∧ minus j = true then at_ b j else at_ a j)
      ∧ gives (.vmin ty d a b mem stp) 2 [a, b] (fun j => if (x j).isNaN || (y j).isNaN then f.nanPat
          else if FVal.cmp (x j) (y j) = .gt ∨ FVal.cmp (x j) (y j) = .eq ∧ minus j = false then at_ b j else at_ a j))
    ∧ (ty = .int32 →
      let int (r : VReg) (j : Nat) : Int := signedNat 32 (at_ r j)
      let wraps (i : Instr) (lat : Nat) (from_ : List VReg) (g : Nat → Int) : Prop := gives i lat from_ fun j => (g j % 2 ^ 32).toNat
      wraps (.vadd ty d a b mem stp) 2 [a, b] (fun j => int a j + int b j)
      ∧ wraps (.vsub ty d a b mem stp) 2 [a, b] (fun j => int a j - int b j)
      ∧ wraps (.vmul ty d a b mem stp) 3 [a, b] (fun j => int a j * int b j)
      ∧ wraps (.vfma ty d a b mem stp) 4 [d, a, b] (fun j => int a j * int b j + int d j)
      ∧ wraps (.vfms ty d a b mem stp) 4 [d, a, b] (fun j => int a j * int b j - int d j)
      ∧ wraps (.vmax ty d a b mem stp) 2 [a, b] (fun j => max (int a j) (int b j))
      ∧ wraps (.vmin ty d a b mem stp) 2 [a, b] (fun j => min (int a j) (int b j)))

/-- R130, R131, R132: logic on all bits, shifts of each lane, absolute value and negation, the three moves, and the merge under a
mask, which reads and writes the selected bytes only. -/
def Obligations.VectorLogicAndMoves : Prop :=
  ∀ (s : State) (st : Stream) (d a b : VReg) (m : MReg) (g : Gran) (sh : BitVec 5) (mem : Bool) (stp : Stp),
    s.core.iss.vec.run = some st →
    let raw (r : VReg) : VArg := ⟨r, fullRow, none⟩; let x := s.vSource st mem (raw a); let y := s.vSource st mem (raw b)
    let sel := selBytes (s.mreg m) g
    VGives s (.vand d a b mem stp) st stp mem (raw d) 2 [raw a, raw b] (x &&& y)
    ∧ VGives s (.vor d a b mem stp) st stp mem (raw d) 2 [raw a, raw b] (x ||| y)
    ∧ VGives s (.vxor d a b mem stp) st stp mem (raw d) 2 [raw a, raw b] (x ^^^ y)
    ∧ (∃ r, VGives s (.vshl d a sh mem stp) st stp mem (raw d) 2 [raw a] r ∧ ∀ i < 32, lane r i = lane x i <<< sh.toNat)
    ∧ (∃ r, VGives s (.vshr d a sh mem stp) st stp mem (raw d) 2 [raw a] r ∧ ∀ i < 32, lane r i = lane x i >>> sh.toNat)
    ∧ (∃ r, VGives s (.vsra d a sh mem stp) st stp mem (raw d) 2 [raw a] r ∧ ∀ i < 32, lane r i = (lane x i).sshiftRight sh.toNat)
    ∧ (∀ ty, let arg (r : VReg) : VArg := ⟨r, fullRow, some [.raw, VType.fmt ty]⟩
        let e (j : Nat) : Nat := VType.elem ty (s.vSource st mem (arg a)) j
        let gives (i : Instr) (f : Nat → Nat) : Prop := ∃ r, VGives s i st stp mem (arg d) 2 [arg a] r ∧ VType.row ty r f
        (∀ f, VType.float? ty = some f →
          gives (.vabs ty d a mem stp) (fun j => if (f.decode (e j)).isNaN then f.nanPat else e j % f.signBit)
          ∧ gives (.vneg ty d a mem stp) (fun j => if (f.decode (e j)).isNaN then f.nanPat else e j + f.signBit))
        ∧ (ty = .int32 → gives (.vabs ty d a mem stp) (fun j => (signedNat 32 (e j)).natAbs)
          ∧ gives (.vneg ty d a mem stp) (fun j => 2 ^ 32 - e j)))
    ∧ VGives s (.vmov .vFromV d a mem stp) st stp mem (raw d) 2 [raw a] x
    ∧ Operates s (.vmov .mFromV d a mem stp) .vector st stp (s.tb + 1) []
        (s.putCol .vector 2 (.m (d.extractLsb' 0 3) ((s.vreg a).extractLsb' 0 64)))
    ∧ Operates s (.vmov .vFromM d a mem stp) .vector st stp (s.tb + 1) []
        (s.putCol .vector 2 (.v d ((s.mreg (a.extractLsb' 0 3)).setWidth 1024) fullRow))
    ∧ VGives s (.vsel d a m g mem stp) st stp mem ⟨d, sel, none⟩ 1 [⟨a, sel, none⟩] (s.vSource st mem ⟨a, sel, none⟩)

/-- R129, R135, R137: the mask a compare writes, conversions between types of one width and of two, and the reductions by a tree of
FP32 additions or comparisons. -/
def Obligations.VectorComparesAndReductions : Prop :=
  ∀ (s : State) (st : Stream) (ty dt : VType) (d a b : VReg) (md : MReg) (c : VCond) (h mem : Bool) (stp : Stp),
    s.core.iss.vec.run = some st →
    let arg (t : VType) (r : VReg) : VArg := ⟨r, fullRow, some [.raw, VType.fmt t]⟩
    let at_ (r : VReg) (j : Nat) : Nat := VType.elem ty (s.vSource st mem (arg ty r)) j
    let mode := s.vMode st mem d
    let holds (o : Ordering) : Bool := match c with
      | .eq => o == .eq | .ne => o != .eq | .lt => o == .lt | .le => o != .gt
    let bit (j : Nat) : Bool := match VType.float? ty with
      | some f => if (f.decode (at_ a j)).isNaN || (f.decode (at_ b j)).isNaN then c == .ne
          else holds (FVal.cmp (f.decode (at_ a j)) (f.decode (at_ b j)))
      | none => holds (compare (signedNat 32 (at_ a j)) (signedNat 32 (at_ b j)))
    let cvt (e : Nat) : Nat := if dt = ty then e else (VType.fmt dt).pattern mode ((VType.fmt ty).value e)
    let half : BitVec 128 := if h then rowSpan 64 64 else rowSpan 0 64; let off := if h then 32 else 0
    (s.vFree st mem none 2 [arg ty a, arg ty b] →
      ∃ v, Operates s (.vcmp ty md c a b mem stp) .vector st stp (s.tb + 1) (st.vRows mem [arg ty a, arg ty b]) (s.putCol .vector 2 (.m md v))
        ∧ ∀ j, j < 64 → v.getLsbD j = (decide (j < VType.count ty) && bit j))
    ∧ (dt.bits = ty.bits → ∃ r, VGives s (.vcvt d a dt ty h mem stp) st stp mem (arg dt d) 3 [arg ty a] r
        ∧ VType.row dt r fun j => cvt (at_ a j))
    ∧ (dt.bits < ty.bits → ∃ r, VGives s (.vcvt d a dt ty h mem stp) st stp mem ⟨d, half, some [.raw, VType.fmt dt]⟩ 3 [arg ty a] r
        ∧ ∀ j < 32, VType.elem dt r (off + j) = cvt (at_ a j) % 2 ^ 16)
    ∧ (ty.bits < dt.bits → let from_ : VArg := ⟨a, half, some [.raw, VType.fmt ty]⟩
        ∃ r, VGives s (.vcvt d a dt ty h mem stp) st stp mem (arg dt d) 3 [from_] r
          ∧ ∀ j < 32, VType.elem dt r j = cvt (VType.elem ty (s.vSource st mem from_) (off + j)) % 2 ^ 32)
    ∧ (∀ f, VType.float? ty = some f →
        let root (op : Nat → Nat → Nat) : Nat :=
          treeAt op (fun j => fp32.round .rne (f.decode (at_ a j))) (if ty.bits = 32 then 5 else 6) 0
        let larger (x y : Nat) : Nat := if (fp32.decode x).isNaN || (fp32.decode y).isNaN then fp32.nanPat
          else if FVal.cmp (fp32.decode x) (fp32.decode y) = .lt ∨ FVal.cmp (fp32.decode x) (fp32.decode y) = .eq ∧ x / 2 ^ 31 % 2 = 1 then y else x
        (∃ r, VGives s (.vrsum ty d a mem stp) st stp mem (arg ty d) 7 [arg ty a] r
          ∧ VType.row ty r fun _ => f.arith mode (fp32.decode (root (fp32.addP .rne))))
        ∧ ∃ r, VGives s (.vrmax ty d a mem stp) st stp mem (arg ty d) 7 [arg ty a] r
          ∧ VType.row ty r fun _ => f.arith mode (fp32.decode (root larger)))
    ∧ (ty = .int32 →
        (∃ r, VGives s (.vrsum ty d a mem stp) st stp mem (arg ty d) 7 [arg ty a] r
          ∧ VType.row ty r fun _ => ((List.range 32).map (at_ a)).sum)
        ∧ ∃ r, VGives s (.vrmax ty d a mem stp) st stp mem (arg ty d) 7 [arg ty a] r
          ∧ ∃ k < 32, (VType.row ty r fun _ => at_ a k) ∧ ∀ j < 32, signedNat 32 (at_ a j) ≤ signedNat 32 (at_ a k))

/-- R136, Table 5.4: VRCP, VRSQ, VEXP2 and VLG2 give, with latency 6, every element of their function of the source's element,
rounded once (fnRcp, fnRsq, fnExp2, fnLg2), and nothing else. The special inputs of the table. What fnRcp and fnRsq answer lies
on the same side of every even count of their last place as the exact 1/x and 1/√x, and on it exactly where they do; fnExp2 is
exact at the integers below 2^15 and fnLg2 at every power of two. Elsewhere fnExp2 and fnLg2 are the model's fixed-point sums,
and no clause bounds them. Where the spec leaves a point open, what this says of it is the model's choice:
notes/assumptions/116.md. -/
def Obligations.VectorFunctions : Prop :=
  (∀ (s : State) (st : Stream) (ty : VType) (f : FFmt) (d a : VReg) (mem : Bool) (stp : Stp), s.core.iss.vec.run = some st →
    VType.float? ty = some f → let arg (r : VReg) : VArg := ⟨r, fullRow, some [.raw, VType.fmt ty]⟩
    let gives (i : Instr) (g : FVal → FVal) : Prop := ∃ r, VGives s i st stp mem (arg d) 6 [arg a] r
      ∧ VType.row ty r fun j => f.arith (s.vMode st mem d) (g (f.decode (VType.elem ty (s.vSource st mem (arg a)) j)))
    gives (.vrcp ty d a mem stp) fnRcp ∧ gives (.vrsq ty d a mem stp) fnRsq ∧ gives (.vexp2 ty d a mem stp) fnExp2
    ∧ gives (.vlg2 ty d a mem stp) fnLg2)
  ∧ (∀ n e, [fnRcp, fnRsq, fnExp2, fnLg2].map (· (.nan n)) = List.replicate 4 (.nan false)
      ∧ fnRcp (.fin n 0 e) = .inf n ∧ fnRsq (.fin n 0 e) = .inf n ∧ fnExp2 (.fin n 0 e) = .fin false 1 0 ∧ fnLg2 (.fin n 0 e) = .inf true)
  ∧ fnRcp (.inf false) = .fin false 0 0 ∧ fnRcp (.inf true) = .fin true 0 0 ∧ fnRsq (.inf false) = .fin false 0 0
  ∧ fnRsq (.inf true) = .nan false ∧ fnExp2 (.inf false) = .inf false ∧ fnExp2 (.inf true) = .fin false 0 0
  ∧ fnLg2 (.inf false) = .inf false ∧ fnLg2 (.inf true) = .nan false
  ∧ (∀ m e, 0 < m → fnRsq (.fin true m e) = .nan false ∧ fnLg2 (.fin true m e) = .nan false
      ∧ (∀ n, ∃ r k : Nat, fnRcp (.fin n m e) = .fin n r (-e - k - 1) ∧ 2 ^ 64 ≤ r
          ∧ ∀ j, (2 * j < r ↔ j * m < 2 ^ k) ∧ (2 * j = r ↔ j * m = 2 ^ k))
      ∧ let x := if e % 2 = 0 then m else 2 * m
        ∃ r k : Nat, fnRsq (.fin false m e) = .fin false r (-(e / 2) - k - 1) ∧ 2 ^ 64 ≤ r
          ∧ ∀ j, (2 * j < r ↔ j * j * x < 2 ^ (2 * k)) ∧ (2 * j = r ↔ j * j * x = 2 ^ (2 * k)))
  ∧ (∀ (n : Bool) (k sh : Nat), 0 < k → k < 2 ^ 15 →
      fnExp2 (.fin n (k * 2 ^ sh) (-(sh : Int))) = .fin false 1 (if n then -(k : Int) else k))
  ∧ (∀ (l : Nat) (e : Int), fnLg2 (.fin false (2 ^ l) e) = .fin (decide (l + e < 0)) (l + e).natAbs 0)
  ∧ ∀ f ∈ [fp32, bf16, fp16], ∀ md, let one := f.bias * 2 ^ f.mbits; f.arith md (fnRcp (f.decode one)) = one
      ∧ f.arith md (fnRsq (f.decode one)) = one ∧ f.arith md (fnExp2 (f.decode one)) = one + 2 ^ f.mbits
      ∧ f.arith md (fnLg2 (f.decode one)) = 0

/-- Vector loads and stores move rows under their masks. R133, R134: loads and stores of a row at cursor + 128 × ROW + 128 × ρ.
R120, R132, R134: the bytes that a mask selects: four of each selected lane, two of each selected element. Where the spec leaves
a point open, what this says of it is the model's choice: notes/assumptions/26.md. -/
def Obligations.VectorLoadsAndStores : Prop :=
  (∀ (s : State) (st : Stream) (d a : VReg) (m : MReg) (g : Gran) (row : BitVec 11) (row6 : BitVec 6) (row7 : BitVec 7)
    (row3 : BitVec 3) (l : BitVec 5) (stp : Stp), s.core.iss.vec.run = some st →
    let at_ (n : Nat) : W64 := st.cap.cur + BitVec.ofNat 64 (128 * n) + BitVec.ofInt 64 (128 * st.rho)
    let x := s.vreg a; let v := s.vreg d; let k := s.mreg m
    let idx (i : Nat) : Nat := (lane x i).toNat % 32
    let loads (i : Instr) (n : Nat) (bytes : BitVec 128) (f : Nat → W32) : Prop := s.rowsFree st .vector [(at_ n, bytes, none)] →
      ∃ r, Operates s i .vector st stp (s.tb + 3) [(at_ n, bytes, none)] (s.putCol .vector 4 (.v d r fullRow)) ∧ ∀ j < 32, lane r j = f j
    let stores (i : Instr) (n : Nat) (bytes : BitVec 128) (r : Row) : Prop := s.writeFree st .vector (at_ n, bytes, none) (s.tb + 1) →
      Operates s i .vector st stp (s.tb + 1) [] (s.putRow st .vector (at_ n) r bytes (s.tb + 1))
    let word (n : Nat) (w : Nat) : W32 := s.mem.word ((at_ n).toNat + 4 * w)
    loads (.vld d row stp) row.toNat fullRow (word row.toNat)
    ∧ loads (.vldb d l row6 stp) row6.toNat (wordBytes [l.toNat]) (fun _ => word row6.toNat l.toNat)
    ∧ loads (.vldx d a row6 stp) row6.toNat (wordBytes ((List.range 32).map idx)) (fun j => word row6.toNat (idx j))
    ∧ stores (.vst d m g row7 stp) row7.toNat (selBytes k g) v
    ∧ ∃ r, stores (.vstx d a m row3 stp) row3.toNat (wordBytes (((List.range 32).filter fun i => k.getLsbD i).map idx)) r
        ∧ ∀ i < 32, k.getLsbD i = true → (∀ j < 32, i < j → k.getLsbD j = true → idx j ≠ idx i) → lane r (idx i) = lane v i)
  ∧ (∀ (m : W64) (b : Nat), b < 128 → (selBytes m .lane).getLsbD b = m.getLsbD (b / 4) ∧ (selBytes m .elem).getLsbD b = m.getLsbD (b / 2))

/-- R138, R139, R140: the block-quantising group. The exponent goes to q[QWR] and comes back from q[QRD] as it stood two cycles
before; each moves its pointer. -/
def Obligations.VectorBlocks : Prop :=
  ∀ (s : State) (st : Stream) (d a : VReg) (p : BitVec 2) (k : BitVec 5) (t : HType) (bf : BlockF) (mem : Bool) (stp : Stp),
    s.core.iss.vec.run = some st →
    let arg : VArg := ⟨a, fullRow, some [.raw, HType.fmt t]⟩
    let xs : List FVal := (List.range 64).map fun i => (HType.fmt t).value (elem16 (s.vSource st mem arg) i).toNat
    let v := s.core.vec; let da := st.field d.toNat
    let bits := match bf with | .bx8 => 8 | .bx4 => 4
    let e : Byte := (if v.qAt = s.tb then v.qOld else v.q)[v.qrd.toNat]'v.qrd.isLt
    let fmts : List Fmt := match bf with | .bx8 => [.raw, .bx8, .bxp8] | .bx4 => [.raw, .bx4, .bxp4]
    let bytes := rowSpan (8 * bits * p.toNat) (8 * bits)
    let mant (i : Nat) : Nat := (blockMant bits (s.bankRnd da.toNat) e (xs.getD i (.nan false)) % 2 ^ bits).toNat
    (s.vFree st mem none 5 [arg] → Operates s (.vbmax a t bf mem stp) .vector st stp (s.tb + 4) (st.vRows mem [arg])
      ((s.putCol .vector 5 (.q v.qwr (blockExp bits (rndOf s.core.sys.vmode) xs))).modC fun c =>
        { c with vec := { c.vec with qwr := c.vec.qwr + 1 } }))
    ∧ (8 * bits * p.toNat < 128 → s.vFree st mem none 4 [arg] → s.writeFree st .vector (da, bytes, some fmts) (s.tb + 3) →
      ∃ r, Operates s (.vqcvt d a p t bf mem stp) .vector st stp (s.tb + 3) (st.vRows mem [arg])
          ((s.putRow st .vector da r bytes (s.tb + 3)).modC fun c => { c with vec := { c.vec with qrd := c.vec.qrd + 1 } })
        ∧ ∀ i < 64, ∀ j < bits, r.getLsbD (64 * bits * p.toNat + if (s.bankFmt da.toNat).isPlanar then 64 * j + i else bits * i + j)
            = (mant i).testBit j)
    ∧ (s.writeFree st .vector (da, rowSpan (4 * k.toNat) 4, none) (s.tb + 1) →
      ∃ r, Operates s (.vqsc d k stp) .vector st stp (s.tb + 1) [] (s.putRow st .vector da r (rowSpan (4 * k.toNat) 4) (s.tb + 1))
        ∧ ∀ i : Fin 4, rowByte r (4 * k.toNat + i) = v.q[i])

/-- R141 to R144: shuffles, indexes, broadcasts, and the deferral queue: what VDFR appends, what VDFD takes, what VDFN counts. -/
def Obligations.VectorQueueAndIndexes : Prop :=
  ∀ (s : State) (st : Stream) (d a b : VReg) (m : MReg) (g : Gran) (l : BitVec 5) (mem clear : Bool) (stp : Stp),
    s.core.iss.vec.run = some st →
    let x := s.vreg a; let y := s.vreg b; let q := s.core.vec.dq; let n := min 32 (q.filter fun e => decide (e.cycle + 2 ≤ s.tb)).length
    let gives (i : Instr) (f16 : Nat → BitVec 16) (f32 : Nat → W32) : Prop := ∃ r,
      Operates s i .vector st stp (s.tb + 1) [] (s.putCol .vector 2 (.v d r fullRow))
        ∧ (g = .lane → ∀ j < 32, lane r j = f32 j) ∧ (g = .elem → ∀ j < 64, elem16 r j = f16 j)
    let src : VArg := ⟨a, selBytes (s.mreg m) g, none⟩; let z := s.vSource st mem src
    let es : List Deferred := match g with
      | .lane => ((List.range 32).filter fun j => (s.mreg m).getLsbD j).map fun j => ⟨lane z j, BitVec.ofInt 32 (st.rho * 32 + j), s.tb⟩
      | .elem => ((List.range 64).filter fun j => (s.mreg m).getLsbD j).map fun j =>
          ⟨(elem16 z j).setWidth 32, BitVec.ofInt 32 (st.rho * 64 + j), s.tb⟩
    gives (.vshuf d a b g stp) (fun j => elem16 x ((elem16 y j).toNat % 64)) (fun j => lane x ((lane y j).toNat % 32))
    ∧ gives (.viota d g stp) (fun j => BitVec.ofInt 16 (st.rho * 64 + j)) (fun j => BitVec.ofInt 32 (st.rho * 32 + j))
    ∧ (g = .lane → gives (.vbcst d a l stp) (fun _ => 0) (fun _ => lane x l.toNat))
    ∧ (s.vFree st mem none 2 [src] → q.length + es.length ≤ 4096 →
      Operates s (.vdfr a m g mem stp) .vector st stp (s.tb + 1) (st.vRows mem [src])
        (s.modC fun c => { c with vec := { c.vec with dq := q ++ es } }))
    ∧ (s.vFree st mem none 2 [src] → 4096 < q.length + es.length →
      Operates s (.vdfr a m g mem stp) .vector st stp (s.tb + 1) (st.vRows mem [src])
        (s.modIss fun x => { x with later := x.later ++
          [⟨s.tb + 1, ⟨.dfovf, BitVec.ofNat 12 st.addr, 0, finfo 0 1 false 0 (s.tb + 1 - st.opIssue)⟩⟩] }))
    ∧ (∃ v w, Operates s (.vdfd d b m stp) .vector st stp (s.tb + 3) []
          ((((s.modC fun c => { c with vec := { c.vec with dq := q.drop n } }).putCol .vector 4 (.v d v fullRow)).putCol .vector 4
            (.v b w fullRow)).putCol .vector 4 (.m m (BitVec.ofNat 64 (2 ^ n - 1))))
        ∧ ∀ j < 32, lane v j = (if h : j < n ∧ j < q.length then q[j].value else 0)
            ∧ lane w j = (if h : j < n ∧ j < q.length then q[j].index else 0))
    ∧ (∃ v, Operates s (.vdfn d clear stp) .vector st stp (s.tb + 1) []
          ((if clear then s.modC fun c => { c with vec := { c.vec with dq := [] } } else s).putCol .vector 2 (.v d v fullRow))
        ∧ ∀ j < 32, lane v j = BitVec.ofNat 32 q.length)

/-- R147, R148, R149, Table 5.5: the table column: the entries a TLD sends, and what TSEG, TINT, TQAD and TCLMP write for every
element, where no word they read is damaged or still to land (R15). Where the spec leaves a point open, what this says of it is
the model's choice: notes/assumptions/26.md, notes/assumptions/111.md. -/
def Obligations.TableResults : Prop :=
  ∀ (s : State) (st : Stream) (ty : VType) (f : FFmt) (d a : VReg) (h : BitVec 4) (t : BitVec 6) (row : BitVec 10) (stp : Stp),
    s.core.iss.tab.run = some st → VType.float? ty = some f → (∀ i < 8192, s.mem.damaged (tableBase s.cur + i) = false) →
    (∀ i < 2048, s.lateRead (tableBase s.cur + 4 * i) (rowSpan 0 4) = none) →
    let ra : W64 := st.cap.cur + BitVec.ofNat 64 (128 * row.toNat) + BitVec.ofInt 64 (128 * st.rho)
    let da := st.field d.toNat; let src : RowArg := (st.field a.toNat, fullRow, some [.raw, VType.fmt ty])
    let md := s.bankRnd da.toNat
    let entry (i : Nat) : W32 := s.mem.word (tableBase s.cur + 4 * (i % 2048)); let val (i : Nat) : FVal := fp32.decode (entry i).toNat
    let x (j : Nat) : FVal := (VType.fmt ty).value (VType.elem ty (s.rowOf src.1 fullRow) j)
    let rne (v : FVal) : FVal := fp32.decode (fp32.arith .rne v)
    let fma (p q r : FVal) : FVal := rne (FVal.add .rne (FVal.mul p q) r)
    let hd := 128 * h.toNat; let n := max 1 ((entry (hd + 2)).toNat % 2048); let d0 := (entry (hd + 5)).toNat % 2048
    let u (j : Nat) : FVal := rne (FVal.mul (rne (FVal.add .rne (x j) (val hd).neg)) (val (hd + 1)))
    let seg (j : Nat) : Option (Nat × FVal) :=
      if (x j).isNaN || (u j).isNaN then none else if FVal.cmp (u j) (.fin false 0 0) = .lt then some (0, .fin false 0 0)
      else if FVal.cmp (u j) (.fin false n 0) ≠ .lt then some (n - 1, .fin false 1 0) else some (floorFrac (u j))
    let gives (i : Instr) (lat : Nat) (dfmt : Fmt) (g : Nat → Nat) : Prop :=
      s.writeFree st .table (da, fullRow, some [.raw, dfmt]) (s.tb + lat - 1) → s.rowsFree st .table [src] →
      ∃ r, VType.row ty r g ∧ Operates s i .table st stp (s.tb + lat - 1) [src] (s.putRow st .table da r fullRow (s.tb + lat - 1))
    let curve (g : Nat → FVal → FVal) (j : Nat) : Nat := f.arith md (match seg j with | some (k, t) => g k t | none => .nan false)
    let lo := val (hd + 3); let hi := val (hd + 4)
    (s.rowsFree st .table [(ra, fullRow, none)] → Operates s (.tld t row stp) .table st stp s.tb [(ra, fullRow, none)]
      (s.putCol .table 1 (.table (32 * ((t.toNat + st.rho) % 64).toNat) (s.rowOf ra fullRow))))
    ∧ gives (.tseg ty d a h stp) 4 (if ty.bits = 32 then .int32 else .int16)
        (fun j => match seg j with | some (k, _) => k | none => 2 ^ ty.bits - 1)
    ∧ gives (.tint ty d a h stp) 6 (VType.fmt ty) (curve fun k t => fma t (rne (FVal.add .rne (val (d0 + k + 1)) (val (d0 + k)).neg)) (val (d0 + k)))
    ∧ gives (.tqad ty d a h stp) 8 (VType.fmt ty) (curve fun k t => fma (fma (val (d0 + 3 * k + 2)) t (val (d0 + 3 * k + 1))) t (val (d0 + 3 * k)))
    ∧ gives (.tclmp ty d a h stp) 2 (VType.fmt ty) (fun j => f.arith md (
        if (x j).isNaN || lo.isNaN || hi.isNaN then x j
        else if FVal.cmp (x j) lo = .lt then lo else if FVal.cmp hi (x j) = .lt then hi else x j))

/-- R158, R159, R161, R163, R164: MCFG, MSCL, MZRO and MWSW; MWSW with the loader busy; and each cycle of an MWLD, which sends one
row of the tile and its scale codes to the shadow latch. Where the spec leaves a point open, what this says of it is the model's
choice: notes/assumptions/26.md, notes/assumptions/27.md, notes/assumptions/112.md. -/
def Obligations.MatrixSettings : Prop :=
  ∀ (s : State) (st : Stream) (p : Planes) (g a t : VReg) (x : BitVec 5) (j : BitVec 3) (acc : BitVec 6) (stp : Stp),
    s.core.iss.mat.run = some st → 0 < st.left →
    let cfg : RowArg := (st.field g.toNat, rowSpan (4 * x.toNat) 4, none); let sc : RowArg := (st.field a.toNat, fullRow, none)
    let c := st.cyc; let lr := if isToken s.cur then 64 else 128; let w := if isToken s.cur then 2 else 4
    let i1 : RowArg := (st.rowAt (32 * a.toNat + lr * c / 128), rowSpan (lr * c % 128) lr, some [.raw, .qn4])
    let i2 : RowArg := (st.rowAt (32 * t.toNat + w * c / 128), rowSpan (w * c % 128) w, none)
    let next (u : State) : Prop := exec (.mwld a t stp) s = .next ((u.modIss fun y => { y with
        ports := y.ports ++ [(.matrix, i1.1.toNat), (.matrix, i2.1.toNat)] }).modIss fun y =>
          { y with mat := { y.mat with run := some { st with latched := st.latched ++ s.shadowRow c, cyc := c + 1, next := s.tb + 1 } } })
    (s.rowsFree st .matrix [cfg] → Operates s (.mcfg p g x stp) .matrix st stp s.tb [cfg]
      (s.putCol .matrix 1 (.mcfg p.count (s.mem.word (cfg.1.toNat + 4 * x.toNat)))))
    ∧ (s.rowsFree st .matrix [sc] → Operates s (.mscl a j stp) .matrix st stp (s.tb + 7) [sc] (s.putCol .matrix 8 (.sv j (s.rowOf sc.1 fullRow))))
    ∧ Operates s (.mzro acc stp) .matrix st stp (s.tb + 14) [] (s.modIss fun y => { y with accPend := y.accPend ++
        [⟨s.tb + 14, ((acc.toNat + st.rho) % (if isToken s.cur then 128 else 64)).toNat, true, true, [], false, BitVec.ofNat 12 st.addr, st.opIssue⟩] })
    ∧ (s.core.mat.loader = [] → Operates s (.mwsw stp) .matrix st stp s.tb [] (s.putCol .matrix 1 .swap))
    ∧ (s.core.mat.loader ≠ [] → s.mayFault → exec (.mwsw stp) s = .next (s.modIss fun y => { y with
        fault := some ⟨.timing, BitVec.ofNat 12 st.addr, 0, finfo 0 2 (c != 0) 0 (s.tb - st.opIssue)⟩ }))
    ∧ (s.core.mat.loader = [] ∨ 0 < c → s.rowsFree st .matrix [i1, i2] →
      ∃ r : LatchRow, let u := s.putCol .matrix 1 (.latch (!s.core.mat.sel) c r)
        (c + 1 < (if isToken s.cur then 128 else 256) → next u)
        ∧ (¬ c + 1 < (if isToken s.cur then 128 else 256) → Operates s (.mwld a t stp) .matrix st stp s.tb [i1, i2] u)
        ∧ (∀ k < 8 * lr, r.idx.getLsbD k = (s.rowOf i1.1 i1.2.1).getLsbD (8 * (lr * c % 128) + k))
        ∧ ∀ k < 8 * w, r.codes.getLsbD k = (s.rowOf i2.1 i2.2.1).getLsbD (8 * (w * c % 128) + k))

/-- MMA and MMO compute the scaled sum, cycle by cycle. R57, R59, R162: the terms of the scaled sum: for output column n and block
b, the exact sum of the products of mantissas and codebook integers, times the scale code, rounded, times sv[n]; no term for a
zero scale code. R57, R162: each cycle of an MMA or MMO reads two planes of every block, and the exponents in the first; the
last sends the scaled sum to row (A + ρ) of the accumulators, due 14 cycles on. Where the spec leaves a point open, what this
says of it is the model's choice: notes/assumptions/26.md. -/
def Obligations.MatrixMultiplies : Prop :=
  (∀ (s : State) (frac p : Nat) (ms : List Row) (ex : Row) (n b : Nat), n < outColumns s.cur → b < tileBlocks s.cur →
    (∀ q ∈ s.core.iss.pend, ∀ j r, q.dst ≠ .sv j r) →
    let row := ((if s.core.mat.sel then s.core.mat.wl1 else s.core.mat.wl0)[n]?).getD LatchRow.reset
    let s8 := natBits row.codes.toNat (8 * b) 8; let e := (rowByte ex b).toNat
    let mant (i : Nat) : Int := signedNat p (mantAt ms (64 * b + i))
    let x : Int := ((List.range 64).map fun i => mant i * codebook (natBits row.idx.toNat (4 * (64 * b + i)) 4)).sum * s8
    ((s.scaledTerms frac p ms ex).getD n []).getD b none = if s8 = 0 then none
      else some (mulF32 (BitVec.ofNat 32 (if e = 255 then fp32.nanPat else fp32.roundFin .rne (x < 0) x.natAbs ((e : Int) - 127 - frac - 11)))
        ((s.core.mat.sv[n]?).getD 0)))
  ∧ (∀ (s : State) (st : Stream) (a e : VReg) (acc : BitVec 6) (ov : Bool) (stp : Stp), s.core.iss.mat.run = some st → 0 < st.left →
    let c := st.cyc; let p := s.core.mat.planes; let w := tileBlocks s.cur; let a0 := st.field a.toNat
    let f := s.bankFmt a0.toNat; let v := w * f.blockBytes; let bs := planeBytes f v w c
    let i : Instr := if ov then .mmo a e acc stp else .mma a e acc stp
    let fmts : List Fmt := if 4 < p then [.bx8, .bxp8] else [.bx8, .bx4, .bxp8, .bxp4]
    let rows : List RowArg := [(a0, bytesIn bs 0, some fmts)] ++ (if v = 256 then [(st.field (a.toNat + 1), bytesIn bs 1, some [f])] else [])
      ++ if c = 0 then [(st.field e.toNat, rowSpan 0 w, none)] else []
    let ex := if c = 0 then s.rowOf (st.field e.toNat) (rowSpan 0 w) else st.latched.headD 0
    let data := rowBytes (s.rowOf a0 (bytesIn bs 0)) ++ rowBytes (if v = 256 then s.rowOf (st.field (a.toNat + 1)) (bytesIn bs 1) else 0)
    let before (k : Nat) : Nat := if c = 0 then 0 else mantAt (st.latched.drop 1) k
    let read (k : Nat) : Nat := (f.mants ((data.drop (f.blockBytes * (k / 64))).take f.blockBytes)).getD (k % 64) 0
    s.rowsFree st .matrix rows → ∃ ms : List Row,
      (∀ k < 64 * w, mantAt ms k = (before k + natBits (read k) (2 * c) 2 * 2 ^ (2 * c)) % 256)
      ∧ (c + 1 < p / 2 → exec i s = .next (s.modIss fun y => { y with
          ports := y.ports ++ rows.map (fun r => (.matrix, r.1.toNat))
          mat := { y.mat with run := some { st with latched := ex :: ms, cyc := c + 1, next := s.tb + 1 } } }))
      ∧ (¬ c + 1 < p / 2 → Operates s i .matrix { st with latched := ex :: ms } stp (s.tb + 14) rows (s.modIss fun y => { y with
          accPend := y.accPend ++ [⟨s.tb + 14, ((acc.toNat + st.rho) % (if isToken s.cur then 128 else 64)).toNat, ov, false,
            s.scaledTerms (if f.mantBits = 4 then 2 else 6) p ms ex, s.core.mat.parity.any fun q => q.1 == s.core.mat.sel, BitVec.ofNat 12 st.addr, st.opIssue⟩] })))

/-- The matrix column writes accumulators, and MDRN drains them. R162, R164, R174: a write of the matrix column at the accumulator
port, where no word is damaged and no latch error stands: MMA adds its terms to the words of its row in order, MMO and MZRO
start at +0.0; no byte outside the row changes. R60, R153, R165: an operation of MDRN writes a row of words times T, rounded in
the destination's format, eight cycles on; the last operation of a word holds the column for eight cycles more. -/
def Obligations.AccumulatorsDrain : Prop :=
  (∀ (s : State) (p : AccPend) (n b : Nat), s.mem.wf = true → p.parity = false → n < outColumns s.cur →
    (∀ a ∈ p.words s.cur, s.mem.damaged a = false) →
    let wn := outColumns s.cur; let word (k : Nat) : Nat := accBase s.cur + 4 * (wn * p.row + k)
    let sum (start : W32) : W32 := (p.terms.getD n []).foldl (fun (x : W32) t => match t with | some g => addF32 x g | none => x) start
    (s.accWrite p).mem.word (word n) = (if p.anew = true ∧ p.zero = true then 0 else sum (if p.anew then 0 else s.mem.word (word n)))
    ∧ (b < word 0 ∨ word wn ≤ b → (s.accWrite p).mem.get b = s.mem.get b))
  ∧ (∀ (s : State) (st : Stream) (d : VReg) (aw : BitVec 11) (stp : Stp), s.core.iss.mat.run = some st → 0 < st.left →
    let da := st.field d.toNat; let f0 := s.bankFmt da.toNat; let f : Fmt := if f0 = .raw then .fp32 else f0; let q := 128 / f.unit
    let from_ (i : Nat) : Nat := accBase s.cur + 4 * (((((8 * aw.toNat + q * st.rho) % 16384).toNat + i)) % 16384)
    let ticks (u : State) : State := u.modIss fun y => { y with mat := { y.mat with run := some { st with cyc := st.cyc + 1, next := s.tb + 1 } } }
    (st.cyc = 0 → s.writeFree st .matrix (da, fullRow, some [.raw, .fp32, .bf16, .fp16, .e4m3, .e5m2, .int8, .int16, .int32]) (s.tb + 8) →
      (∀ i < q, s.lateRead (from_ i) (rowSpan 0 4) = none ∧ ∀ k < 4, s.mem.damaged (from_ i + k) = false) →
      ∃ r, let u := s.putRow st .matrix da r fullRow (s.tb + 8)
        (st.op < stp.rep.toNat → Operates s (.mdrn d aw stp) .matrix st stp (s.tb + 8) [] u)
        ∧ (¬ st.op < stp.rep.toNat → exec (.mdrn d aw stp) s = .next (ticks u))
        ∧ ∀ i < q, leNat (((rowBytes r).drop (i * f.unit)).take f.unit)
            = f.pattern (s.bankRnd da.toNat) (fp32.decode (mulF32 (s.mem.word (from_ i)) s.core.mat.tscale).toNat) % 256 ^ f.unit)
    ∧ (0 < st.cyc → ¬ st.op < stp.rep.toNat → (st.cyc < 8 → exec (.mdrn d aw stp) s = .next (ticks s))
        ∧ (st.cyc = 8 → Operates s (.mdrn d aw stp) .matrix st stp s.tb [] s)))

/-- A copy command that passes its checks enters its engine. R267, R270, R275, R288: a copy command that passes its checks
completes: its entry stands in the engine's time buffer, its record shows STATE 1, a counted or named phase is on its way to the
phase unit, and CFCH has cleared the present bit of its segment. R266, R267, R270, R275: what holds of a copy that enters: its
issue time is at least two cycles on, its capabilities are tagged, unsealed, of the world and with the permissions, no buffer is
full, and its fields are those of the operands in this cycle. Where the spec leaves a point open, what this says of it is the
model's choice: notes/assumptions/106.md. -/
def Obligations.CopyCommandsEnter : Prop :=
  (∀ (s : State) (a b : CReg) (len card : SReg) (time : TimeArg), s.core.iss.drain.bind (fun q => q.d) = none →
    let enters (i : Instr) (op : Nat) (ca : Option CReg) : Prop :=
      ∀ c, s.command op ca b len card (s.timeOf time) = .enter c → let k := cardWm c.card
        let clear (x : Bound) : Bound := { x with segs := x.segs.set k.toNat ⟨false, (x.segs[k.toNat]'k.isLt).tag⟩ }
        let u : State := { s with
          nextId := s.nextId + 1
          eng := { s.eng with copies := s.eng.copies ++ [c] }
          core := { s.core with
            copyrec := s.core.copyrec.set k.toNat (1#64 <<< 61), copyOf := s.core.copyOf.set k.toNat s.nextId
            bnd := if op = 8 then clear s.core.bnd else s.core.bnd } }
        (c.phase = none → Leaves s u i)
        ∧ (∀ l p, c.phase = some (l, p) → l.toNat < 4 → Leaves s { u with
            agenda := s.agenda ++ [(s.tb + s.phaseA l.toNat, .phaseCopyRegistration (u.domainOf s.cur l.toNat) c.id p)] } i)
        ∧ (∀ l p, c.phase = some (l, p) → l.toNat = 4 → ∃ lat, Leaves s { u with
            free := s.free + 1, agenda := s.agenda ++ [(s.tb + lat, .phaseCopyRegistration (u.domainOf s.cur l.toNat) c.id p)] } i)
    enters (.cpy a b len card time) 0 (some a) ∧ enters (.cpys a b len card time) 1 (some a) ∧ enters (.cpyz a b len card time) 2 (some a)
    ∧ enters (.cpyc a b len card time) 3 (some a) ∧ enters (.cpyg a b len card time) 4 (some a) ∧ enters (.cpym a b len card time) 5 (some a)
    ∧ enters (.cpya a b len card time) 6 (some a) ∧ enters (.cpyx a b len card time) 7 (some a) ∧ enters (.cfch b len card time) 8 none)
  ∧ (∀ (s : State) (op : Nat) (a b : CReg) (len card : SReg) (time : Nat) (c : Copy), op < 8 →
    s.command op (some a) b len card time = .enter c → let x := s.creg a; let y := s.creg b; let cd := s.sreg card
    s.core.fw = none ∧ s.tb + 2 ≤ time ∧ c.time = time ∧ c.asker = .core s.cur ∧ c.n = (s.sreg len).toNat ∧ c.n < 2 ^ 32 ∧ c.dst = x.cur
    ∧ c.src = y.cur ∧ c.card = cd ∧ c.world = s.myWorld ∧ c.state = .queued ∧ c.id = s.nextId
    ∧ x.tag = true ∧ y.tag = true ∧ x.otype = 0 ∧ y.otype = 0 ∧ x.world = s.myWorld ∧ y.world = s.myWorld ∧ x.has permWrite = true
    ∧ y.has permRead = true ∧ (op = 6 → x.has permRead = true)
    ∧ (c.engine = s.cur ∨ c.engine = fabricEngine s.cur) ∧ s.bufferLoad c.engine < (if c.engine < 4096 then 64 else 512)
    ∧ s.waitingCopies s.cur < 64 ∧ cardSen cd ≠ 3 ∧ natBits cd.toNat 0 8 = 0 ∧ (op = 5 ↔ c.follow ≠ none)
    ∧ (cardPen cd = false → c.phase = none)
    ∧ ∀ l p, c.phase = some (l, p) → l = cardPl cd ∧ p.toNat % 8 = cardPlo cd ∧ (p - s.alpha l).toNat < 4)

/-- R288, R289, Table 11.7: the copy control group, of latency 1. CWM reads a channel and may clear one that is whole; CCAN removes
a copy that has not issued, and tells whether one has begun; CSTAT reads a record, in which an issue of this cycle shows from
its end on. -/
def Obligations.CopyControlResults : Prop :=
  ∀ (s : State) (d : SReg) (k : BitVec 4), let ch := s.core.wm[k.toNat]'k.isLt; let rec_ := s.core.copyrec[k.toNat]'k.isLt
    let word : W64 := BitVec.ofNat 64 (ch.act.toNat * 2 ^ 63 + ch.level % 2 ^ 48); let st := natBits rec_.toNat 61 3
    let copy := s.copy? (s.core.copyOf[k.toNat]'k.isLt)
    let gives (i : Instr) (u : State) (v : W64) : Prop := ∃ t, exec i s = .next t ∧ Issues s t 1 ∧ t.steady = u.steady
      ∧ t.core.iss.pend = u.core.iss.pend ++ [⟨s.tb, .s d v, none, s.tb⟩]
    gives (.cwm d k false) s word
    ∧ (ch.act = false ∨ ch.level = ch.size → gives (.cwm d k true)
        (s.modC fun c => { c with wm := c.wm.set k.toNat { ch with act := false, level := 0 } }) word)
    ∧ (ch.act = true → ch.level ≠ ch.size → gives (.cwm d k true) s (word ||| 1#64 <<< 62))
    ∧ (copy = none → gives (.cstat d k) s rec_ ∧ gives (.ccan d k) s (if st = 2 ∨ st = 3 then 1 else 2))
    ∧ (∀ c, copy = some c → (c.state ≠ .issued ∨ c.issuedAt ≠ s.tb → gives (.cstat d k) s rec_)
      ∧ (c.state = .issued → c.issuedAt = s.tb →
          gives (.cstat d k) s ((rec_ &&& ~~~(7#64 <<< 61)) ||| (if c.reissued then 3#64 <<< 61 else 1#64 <<< 61)))
      ∧ (c.state = .queued → ∃ u, gives (.ccan d k) u 0 ∧ (∀ x ∈ u.eng.copies, x.id ≠ c.id) ∧ u.mem = s.mem
          ∧ u.core.iss = s.core.iss ∧ u.core.wm = s.core.wm ∧ u.core.ctl = s.core.ctl)
      ∧ (c.state ≠ .queued → gives (.ccan d k) s (if st = 2 ∨ st = 3 then 1 else 2)))

/-- A copy beat reads its source and lands at its destination. R267, R271, R272: COPY_ENGINE_ISSUE moves an entry from its buffer to
its beats; COPY_BEAT_READ of a plain copy between core memories reads the next 256 bytes of the order and sends them to land D
cycles on, one beat a cycle. R272, R273, R274, R284: COPY_BEAT_LAND writes the beat's bytes and no others, or adds CPYA's words,
raises the copy's watermark, and with the last beat completes the copy: its semaphore and its record are on their way. Where the
spec leaves a point open, what this says of it is the model's choice: notes/assumptions/16.md, notes/assumptions/19.md,
notes/assumptions/105.md. -/
def Obligations.CopyBeatsMoveTheirBytes : Prop :=
  (∀ (s : State) (id : Nat) (c : Copy), s.copy? id = some c →
    (∃ t u, exec (.copyEngineIssue id) s = .next t ∧ t.copy? id = some u ∧ u = { c with
        state := .issued, issuedAt := s.tb, at_ := s.tb, reissued := c.state != .queued, targets := c.targets.map fun y => { y with lag := 0 } }
      ∧ t.mem = s.mem ∧ t.disp = s.disp ∧ t.worlds = s.worlds ∧ (∀ y ∈ s.eng.copies, y.id ≠ id → y ∈ t.eng.copies)
      ∧ (0 < c.beatCount → t.eng.lands = s.eng.lands))
    ∧ (∀ y bs, c.doom = none → c.targets = [y] → c.kind = .plain → c.sfmt = y.fmt → c.sfmt.isBlock = false →
      let pos := 256 * c.beat; let len := min 256 (c.n - pos); let from_ := c.src.toNat + pos; let dest := c.dst.toNat + pos
      y.dst = c.dst → pos < c.n → inSram from_ = true → inSram dest = true → from_ % 4096 + len ≤ 4096 → dest % 4096 + len ≤ 4096 →
      s.windowOk c.world from_ false false = true → s.windowOk c.world dest true false = true → s.eng.segments = [] →
      (∀ k < len, s.mem.damaged (from_ + k) = false) → bs = s.mem.read from_ len → c.keepTags = false →
      let nominal := s.tb + pathBase (ioEngine c.engine) c.asker.core? (some (placeOf from_)) (placeOf dest) + y.lag
      let at_ := max nominal (y.lastLand + 1)
      ∃ t l, exec (.copyBeatRead id) s = .next t ∧ t.eng.lands = s.eng.lands ++ [l] ∧ l.copy = id ∧ l.cycle = at_ ∧ l.pieces = [(dest, bs)]
        ∧ l.bytes = len ∧ l.last = decide (c.n ≤ pos + 256) ∧ l.tags = [] ∧ l.words = [] ∧ t.mem = s.mem ∧ t.core = s.core ∧ t.others = s.others
        ∧ t.copy? id = some { c with beat := c.beat + 1, at_ := s.tb + 1, targets := [{ y with lag := y.lag + (at_ - nominal), lastLand := at_ }] }))
  ∧ (∀ (s : State) (id a b i : Nat) (bs : List Byte) (l : Land) (c : Copy) (y : Target), s.good →
    s.eng.lands.find? (fun z => z.id == id) = some l → s.copy? l.copy = some c → c.targets = [y] → l.target = 0 → c.doom = none →
    (∀ x ∈ s.eng.launches, x.id ≠ c.id) → (∀ p ∈ l.pieces, placeOf p.1 ≠ .hbm) → s.bankBusy l.pieces = false → c.asker = .core i → y.core = some i → c.state = .issued →
    ∃ t, exec (.copyBeatLand id) s = .next t ∧ t.disp = s.disp ∧ t.worlds = s.worlds
      ∧ (l.pieces = [(a, bs)] → l.words = [] → t.mem.get b = if a ≤ b ∧ b < a + bs.length then bs.getD (b - a) 0 else s.mem.get b)
      ∧ (∀ x int, c.kind = .add int → l.pieces = [] → l.words = [(a, x)] → s.mem.damaged a = false →
          t.mem.word a = (if int then s.mem.word a + x else addF32 (s.mem.word a) x) ∧ (b < a ∨ a + 4 ≤ b → t.mem.get b = s.mem.get b))
      ∧ (let k := cardWm c.card; let ch := (s.getCore i).wm[k.toNat]'k.isLt
          l.expBeat = false → ch.act = true → ch.copy = c.id →
            ((t.getCore i).wm[k.toNat]'k.isLt).level = ch.level + l.bytes ∧ ((t.getCore i).wm[k.toNat]'k.isLt).act = true)
      ∧ (l.last = false → t.agenda = s.agenda ∧ ∃ u, t.copy? c.id = some u ∧ u.state = .issued)
      ∧ (l.last = true → l.words = [] → c.followBusy = false → t.copy? c.id = none
          ∧ (s.tb + homeCost i i, Instr.copyRecordLanded i (cardWm c.card) c.id) ∈ t.agenda
          ∧ (cardSen c.card = 1 ∨ cardSen c.card = 2 → ∃ d, 1 ≤ d ∧ (s.tb + d, Instr.copySemaphoreIncrement (accBase i + 4 * cardSemw c.card)) ∈ t.agenda))
      ∧ (l.last = true → l.words = [] → c.followBusy = true → (s.tb + 1, Instr.followOnPresent c.id) ∈ t.agenda))

/-- R160, R174, R274, R287, R288, R357: the events after a copy: COPY_RECORD_LANDED; COPY_SEMAPHORE_INCREMENT, which adds 1 to its
word, is a UCDATA of the issuing task on an uncorrectable word, and does nothing on a core that a scan holds; and the presenting
and starting of a follow-on MWLD. Where the spec leaves a point open, what this says of it is the model's choice:
notes/assumptions/112.md. -/
def Obligations.CopyEventsFollow : Prop :=
  ∀ (s : State) (k : BitVec 4) (id a b : Nat), s.good →
    let r := s.core.copyrec[k.toNat]'k.isLt
    (s.core.copyOf[k.toNat]'k.isLt = id → ∃ t v, exec (.copyRecordLanded s.cur k id) s = .next t
      ∧ t = s.modC (fun c => { c with copyrec := c.copyrec.set k.toNat v }) ∧ natBits v.toNat 61 3 = 4 ∧ v.setWidth 61 = r.setWidth 61)
    ∧ (s.core.copyOf[k.toNat]'k.isLt ≠ id → exec (.copyRecordLanded s.cur k id) s = .next s)
    ∧ (∀ x, s.eng.incs.find? (fun x => x.addr == a && x.cycle == s.tb) = some x →
        let taken : Engines := { s.eng with incs := s.eng.incs.erase x }
        let fails : Prop := s.mem.damaged a = true ∨ placeOf a = .hbm ∧ s.mem.lineOk (s.semKey x.world a) a = false
        (s.heldAway a = false → ¬ fails → ∃ t, exec (.copySemaphoreIncrement a) s = .next t ∧ t.core = s.core ∧ t.others = s.others ∧ t.eng = taken
          ∧ t.mem = ((s.modMem fun m => m.setWord a (m.word a + 1)).dirty x.world a).mem
          ∧ (placeOf a ≠ .hbm → t.mem.word a = s.mem.word a + 1 ∧ (b < a ∨ a + 4 ≤ b → t.mem.get b = s.mem.get b)))
        ∧ (s.heldAway a = false → fails → x.asker = .core s.cur → s.core.bnd.firstRun ≤ x.run →
          s.core.bnd.jetton = x.jetton → s.mayFault → ∃ t, exec (.copySemaphoreIncrement a) s = .next t ∧ t.mem.bytes = s.mem.bytes
            ∧ t.core.iss.fault = some ⟨.ucdata, x.pc, BitVec.ofNat 64 a, finfo 0 (engineSrc x.engine) true 0 (s.tb - x.issue)⟩)
        ∧ (s.heldAway a = true → exec (.copySemaphoreIncrement a) s = .next (s.modEng fun _ => taken)))
    ∧ (∀ c w p q stp, s.copy? id = some c → c.asker = .core s.cur → c.follow = some w → c.run = s.core.iss.run →
        s.core.bnd.firstRun ≤ c.run → s.core.iss.status = .running → decode w = .ok (.mwld p q stp) →
        let f : FollowOn := ⟨id, w, c.dcap, c.pc, c.issue, c.engine, s.tb, 0, false, []⟩
        exec (.followOnPresent id) s = .next (s.modC fun x => { x with mat := { x.mat with loader := insertFollow x.mat.loader f } }))
    ∧ (∀ f rest, s.core.mat.loader = f :: rest → exec (.followOnStart s.cur) s =
        .next (s.modC fun x => { x with mat := { x.mat with loader := { f with running := true } :: rest } }))

/-- Prefix commands leave their core and pass their steps. R296, R297, R298, R307: a prefix or weight command whose blocks pass
their checks leaves the core in this cycle, with its operand block as it stands now; a journalled one takes the next journal
entry. KVIN, KVIM and KVRL await the copies that write into their slot, KVRL those that read it too. R298, R299, R300, R307: a
command's way: departure, start, the writing of its results or the raising of its fault, and the count in word 0 one cycle
later; a command that a replay repeats is answered from the journal 97 cycles on. Where the spec leaves a point open, what this
says of it is the model's choice: notes/assumptions/45.md, notes/assumptions/108.md, notes/assumptions/109.md. -/
def Obligations.PrefixCommandsGoThrough : Prop :=
  (∀ (s : State) (d : SReg) (a b : CReg) (ref : Bool),
    let go (i : Instr) (fn : BitVec 4) (ref : Bool) (slot : W64) (block : Option (CReg × Nat × Nat)) (result : Option CReg)
        (onSlot : Bool) : Prop :=
      (∀ r n need, block = some (r, n, need) → (s.creg r).check s.myWorld need (s.creg r).cur.toNat n = none ∧ (s.creg r).cur.toNat % 32 = 0
        ∧ s.inOwnBanks (s.creg r).cur.toNat n = true ∧ ∀ k < n, s.mem.damaged ((s.creg r).cur.toNat + k) = false) →
      (∀ r, result = some r → (s.creg r).check s.myWorld (permRead + permWrite) (s.creg r).cur.toNat 64 = none
        ∧ (s.creg r).cur.toNat % 64 = 0 ∧ s.inOwnAcc (s.creg r).cur.toNat 64 = true) →
      let place := s.core.journalPlace fn.toNat ref; place ≠ .full →
      ∃ cmd : PCommand, Leaves s { s with
          nextId := s.nextId + 1
          eng := { s.eng with pcmds := s.eng.pcmds ++ [cmd] }
          core := { s.core with
            jpos := if place = .none then s.core.jpos else s.core.jpos + 1
            journal := match place with
              | .new k => s.core.journal.take k ++ [⟨s.nextId, fn, none⟩]
              | .again k => s.core.journal.set k ⟨s.nextId, fn, none⟩
              | _ => s.core.journal } } i
        ∧ cmd.id = s.nextId ∧ cmd.fn = fn ∧ cmd.ref = ref ∧ cmd.core = s.cur ∧ cmd.world = s.myWorld ∧ cmd.slot = slot ∧ cmd.issue = s.tb
        ∧ (∀ r n need, block = some (r, n, need) → cmd.block = s.mem.read (s.creg r).cur.toNat n ∧ cmd.operand = (s.creg r).cur.toNat)
        ∧ (∀ r, result = some r → cmd.result = (s.creg r).cur.toNat) ∧ cmd.blockers = (if onSlot then s.slotCopies slot.toNat else [])
        ∧ cmd.reads = (if fn = 4 then s.slotReaders slot.toNat else []) ∧ cmd.notBefore = (if onSlot then s.slotFree slot.toNat else s.tb) ∧ cmd.arrive = none ∧ cmd.act = none
        ∧ cmd.words = [] ∧ cmd.fault = none
    let x := s.sreg d; let rw := permRead + permWrite
    go (.kvhs a b) 0 false 0 (some (a, 160, permRead)) (some b) false
    ∧ go (.kvlk a b ref) 1 ref 0 (some (a, 32, permRead)) (some b) false
    ∧ go (.kvin d a b) 2 false x (some (a, 32, permRead)) (some b) true
    ∧ go (.kvap b) 3 false 0 none (some b) false
    ∧ go (.kvrl d b) 4 false x none (some b) true
    ∧ go (.kvex d a b) 5 false x (some (a, 256, rw)) (some b) false
    ∧ go (.kvim d a b) 6 false x (some (a, 256, permRead)) (some b) true
    ∧ go (.wseg a b) 7 false 0 (some (a, 32, permRead)) (some b) false
    ∧ go (.wprf a) 8 false 0 (some (a, 32, permRead)) none false)
  ∧ (∀ (s : State) (id b : Nat) (p : PCommand), s.mem.wf = true → s.pcmd? id = some p →
    let marks (i : Instr) (f : PCommand → PCommand) (agenda : List (Nat × Instr)) : Prop := exec i s = .next { s with
      agenda := s.agenda ++ agenda, eng := { s.eng with pcmds := s.eng.pcmds.map fun q => if q.id == id then f q else q } }
    let writes (t : State) : Prop := (p.words.map (·.1)).Nodup → (∀ kw ∈ p.words, t.mem.word (p.result + 4 * kw.1) = kw.2)
      ∧ ((∀ kw ∈ p.words, b < p.result + 4 * kw.1 ∨ p.result + 4 * kw.1 + 4 ≤ b) → t.mem.get b = s.mem.get b)
    (p.arrive = none → p.blockers = [] → p.notBefore ≤ s.tb → (∀ x ∈ p.reads, s.hasRead x = true) →
      (s.answerOf p = none → marks (.prefixCommandDepart id) (fun q => { q with arrive := some (s.tb + 48) }) [])
      ∧ (∀ e ws, s.answerOf p = some e → e.words = some ws → marks (.prefixCommandDepart id) (fun q => { q with
          arrive := some s.tb, act := some s.tb, words := ws.zipIdx.map fun y => (y.2 + 1, y.1) }) [(s.tb + 97, .journalReply id)]))
    ∧ (s.starting (p.fn == 0) = some p →
      ∃ t, exec (.prefixCommandStart id) s = .next t ∧ let at_ := s.tb + s.engineTime p - 1
        t = { s with
          agenda := s.agenda ++ [(at_, .prefixCommandAct id)]
          eng := { s.eng with
            hashFree := if p.fn = 0 then s.tb + 1 else s.eng.hashFree, indexFree := if p.fn = 0 then s.eng.indexFree else at_ + 1
            pcmds := s.eng.pcmds.map fun q => if q.id == id then { q with act := some at_ } else q } })
    ∧ (p.fault = none → p.record = [] → (∀ kw ∈ p.words, kw.1 = 1 → kw.2 ≠ 0x10 ∧ kw.2 ≠ 0x11) →
      ∃ t, exec (.prefixResultWrite id) s = .next t ∧ writes t ∧ t.agenda = s.agenda ++ [(s.tb + 1, .prefixCompletionCount id)]
        ∧ t.eng = s.eng ∧ t.disp = s.disp)
    ∧ (∀ c a, p.fault = some (c, a) → s.issuedBy p = true → p.core = s.cur → s.mayFault → ∃ t, exec (.prefixResultWrite id) s = .next t
        ∧ t.core.iss.fault = some ⟨c, p.pc, a, finfo 0 8 true 0 (s.tb - p.issue)⟩ ∧ t.mem = s.mem
        ∧ t.eng = { s.eng with pcmds := s.eng.pcmds.filter fun q => q.id != id })
    ∧ (∃ t, exec (.journalReply id) s = .next t ∧ writes t ∧ t.agenda = s.agenda ++ [(s.tb + 1, .prefixCompletionCount id)]
        ∧ t.eng = s.eng ∧ t.disp = s.disp ∧ t.core = s.core)
    ∧ (s.mem.damaged p.result = false → ∃ t, exec (.prefixCompletionCount id) s = .next t ∧ t.mem.word p.result = s.mem.word p.result + 1
        ∧ (b < p.result ∨ p.result + 4 ≤ b → t.mem.get b = s.mem.get b) ∧ t.core = s.core
        ∧ t.eng = { s.eng with pcmds := s.eng.pcmds.filter fun q => q.id != id }))

/-- Prefix commands act at the index engine; cold-start fetches. R292, R294, R300 to R305, R309, R310: what a command does in the
one step in which it acts, and the words it gives: KVHS the tag; KVLK a hit or a miss; KVIN, and KVIM of a record that verifies,
an indexed slot, or the slot that has its tag, or why not; KVAP the lowest free slot; KVRL one reference fewer; KVEX a record;
WSEG where a resident segment is mapped; WPRF a place in its world's list; and CAPPERM for a slot that is not held. R308, R311
to R314: the cold-start engine takes the next demand, and maps a segment that is resident; a piece that verifies is stored and
its bit set, the last one making the segment resident; a piece that does not, or a failing read, moves the fetch to the next
tier, and after the last one the fetch has failed. Where the spec leaves a point open, what this says of it is the model's
choice: notes/assumptions/9.md, notes/assumptions/48.md, notes/assumptions/49.md, notes/assumptions/110.md. -/
def Obligations.PrefixCommandsAct : Prop :=
  (∀ (s : State) (id : Nat) (p : PCommand), s.pcmd? id = some p → p.act = some s.tb → p.fault = none →
    let w := p.world; let d := p.slot.toNat; let pr := s.prefix_ w; let sl := pr.slot d
    let word (q : PCommand) (k : Nat) : Option W32 := (q.words.find? fun y => y.1 == k).map fun y => y.2
    let acts (f : State → PCommand → Prop) : Prop := ∃ t q, exec (.prefixCommandAct id) s = .next t ∧ t.pcmd? id = some q ∧ q.fault = none
      ∧ t.agenda = s.agenda ++ [(s.tb + 48, .prefixResultWrite id)] ∧ t.mem = s.mem ∧ t.core = s.core ∧ f t q
    let same (t : State) : Prop := t.eng.prefixes = s.eng.prefixes ∧ t.eng.ways = s.eng.ways
    let gives (st : W32) : Prop := acts fun t q => word q 1 = some st ∧ same t
    let tag := shake256 (p.block.take 32 ++ s.salt w ++ (p.block.drop 32).take 128)
    let held := d < pr.quota ∧ sl.alloc = true
    let fresh := held ∧ 0 < sl.ref ∧ sl.idx = false ∧ sl.dmg = false
    let inserts (tag : List Byte) : Prop := let b := bucketOf tag; let inUse := s.eng.ways.filter fun x => x.bucket == b
      (∀ x, s.hit w tag = some x →
        ((pr.slot x.slot).ref = 65535 → gives 5)
        ∧ ((pr.slot x.slot).ref < 65535 → acts fun t q => word q 1 = some 2 ∧ word q 2 = some (BitVec.ofNat 32 x.slot)
            ∧ (t.prefix_ w).slot x.slot = { pr.slot x.slot with ref := (pr.slot x.slot).ref + 1 } ∧ t.eng.ways = s.eng.ways))
      ∧ (∀ v, s.hit w tag = none → v < 8 → (∀ x ∈ inUse, x.way ≠ v) → (∀ u < v, ∃ x ∈ inUse, x.way = u) → acts fun t q => word q 1 = some 0
          ∧ t.eng.ways = s.eng.ways ++ [⟨b, v, tag, w, d⟩] ∧ (t.prefix_ w).slot d = { sl with idx := true, bucket := b, way := v })
      ∧ (s.hit w tag = none → (∀ v < 8, ∃ x ∈ inUse, x.way = v) → let mine (x : Way) : Prop := x ∈ inUse ∧ x.world = w ∧ (pr.slot x.slot).ref = 0
        ((∀ x, ¬ mine x) → gives 3)
        ∧ ((∃ x, mine x) → acts fun t q => word q 1 = some 0 ∧ ∃ y, mine y ∧ (∀ z, mine z → (pr.slot y.slot).age ≤ (pr.slot z.slot).age)
            ∧ ⟨b, y.way, tag, w, d⟩ ∈ t.eng.ways ∧ ((t.prefix_ w).slot y.slot).alloc = false ∧ ((t.prefix_ w).slot y.slot).idx = false))
    (p.fn = 0 → acts fun t q => word q 1 = some 0 ∧ same t
      ∧ ∀ k < 8, word q (8 + k) = some (BitVec.ofNat 32 (leNat ((tag.drop (4 * k)).take 4))))
    ∧ (p.fn = 1 → s.hit w (p.block.take 32) = none → acts fun t q => word q 1 = some 1 ∧ word q 2 = some 0xFFFFFFFF ∧ same t)
    ∧ (∀ x, p.fn = 1 → s.hit w (p.block.take 32) = some x → p.ref = false → acts fun t q => word q 1 = some 0
        ∧ word q 2 = some (BitVec.ofNat 32 x.slot) ∧ word q 3 = some (BitVec.ofNat 32 (pr.slot x.slot).ref) ∧ same t)
    ∧ (∀ x, p.fn = 1 → s.hit w (p.block.take 32) = some x → p.ref = true →
        ((pr.slot x.slot).ref = 65535 → gives 5)
        ∧ ((pr.slot x.slot).ref < 65535 → acts fun t q =>
            word q 1 = some 0 ∧ (t.prefix_ w).slot x.slot = { pr.slot x.slot with ref := (pr.slot x.slot).ref + 1 }))
    ∧ (p.fn = 2 → held → 0 < sl.ref → sl.idx = true ∨ sl.dmg = true → gives 4) ∧ (p.fn = 2 → fresh → inserts (p.block.take 32))
    ∧ (∀ j, p.fn = 3 → pr.free = some j → acts fun t q => word q 1 = some 0 ∧ word q 2 = some (BitVec.ofNat 32 j)
        ∧ (t.prefix_ w).slot j = { pr.slot j with alloc := true, ref := 1, idx := false, age := s.tb })
    ∧ (∀ j x, p.fn = 3 → pr.free = none → pr.reclaimable = some (j, x) → acts fun t q => word q 1 = some 0 ∧ word q 2 = some (BitVec.ofNat 32 j)
        ∧ ((t.prefix_ w).slot j).ref = 1 ∧ ((t.prefix_ w).slot j).idx = false ∧ ∀ y ∈ t.eng.ways, ¬ (y.bucket = x.bucket ∧ y.way = x.way))
    ∧ (p.fn = 3 → pr.free = none → pr.reclaimable = none → gives 0x10)
    ∧ (p.fn = 4 → held → 0 < sl.ref → acts fun t q => word q 1 = some 0 ∧ word q 3 = some (BitVec.ofNat 32 (sl.ref - 1))
        ∧ ((t.prefix_ w).slot d).ref = sl.ref - 1 ∧ (((t.prefix_ w).slot d).alloc = true ↔ 1 < sl.ref ∨ sl.idx = true))
    ∧ (p.fn = 5 → held → sl.idx = false → gives 4)
    ∧ (p.fn = 5 → held → sl.idx = true → s.pageBad w d = none → acts fun t q => word q 1 = some 0 ∧ same t ∧ q.record = s.kvexRecord w d p.block)
    ∧ (p.fn = 6 → held → 0 < sl.ref → sl.idx = true ∨ sl.dmg = true → gives 4)
    ∧ (p.fn = 6 → fresh → s.pageBad w d = none → (s.kvimOk w d p.block = false → gives 0x14)
        ∧ (s.kvimOk w d p.block = true → inserts ((p.block.drop 128).take 32)))
    ∧ (p.fn = 7 → (∀ k g, s.mappedAt w (p.block.take 32) = some k → s.segment? (p.block.take 32) = some g → g.sst = 2 →
          let va := pr.wwbase.toNat / 0x200000 * 0x200000 + 0x200000 * k
          acts fun t q => word q 1 = some 0 ∧ word q 4 = some (BitVec.ofNat 32 va) ∧ word q 5 = some (BitVec.ofNat 32 (va / 2 ^ 32)) ∧ same t)
        ∧ (¬ (∃ k g, s.mappedAt w (p.block.take 32) = some k ∧ s.segment? (p.block.take 32) = some g ∧ g.sst = 2) → acts fun t q => word q 1 = some 6 ∧ same t ∧ t.out = s.out ++ [.absent w (p.block.take 32)]))
    ∧ (p.fn = 8 → ∃ t, exec (.prefixCommandAct id) s = .next t ∧ t.pcmd? id = none ∧ t.agenda = s.agenda ∧ t.mem = s.mem
        ∧ let l := pr.prefetch; (t.prefix_ w).prefetch = (if 256 ≤ l.length ∨ p.block.take 32 ∈ l then l else l ++ [p.block.take 32])
          ∧ (256 ≤ l.length → (t.prefix_ w).pfdrop = (if pr.pfdrop = BitVec.allOnes 32 then pr.pfdrop else pr.pfdrop + 1)))
    ∧ (p.fn = 2 ∨ p.fn = 4 ∨ p.fn = 6 → pr.quota ≤ d ∨ sl.alloc = false ∨ sl.ref = 0 →
        ∃ t q, exec (.prefixCommandAct id) s = .next t ∧ t.pcmd? id = some q
          ∧ q.fault = some (.capperm, BitVec.ofNat 64 (pr.pbase.toNat / 16384 * 16384 + 16384 * d))
          ∧ t.agenda = s.agenda ++ [(s.tb + 48, .prefixResultWrite id)] ∧ same t))
  ∧ (∀ (s : State) (dg : List Byte) (k : BitVec 5) (pds : List (List Byte)) (data : List Byte) (g : Segment) (f : Nat), s.mem.wf = true →
    (∀ ow rest, s.eng.fetch = none → s.eng.demands = (dg, ow) :: rest →
      (s.resident dg = false → ∃ t h, exec .coldStartFetch s = .next t ∧ t.eng.fetch = some dg
        ∧ t.eng.demands = rest ∧ t.segment? dg = some h ∧ h.sst = 1 ∧ t.out = s.out ++ [.fetch dg h.tier (h.nextPiece.getD 0)] ∧ t.mem = s.mem)
      ∧ (s.resident dg = true → ow = none → exec .coldStartFetch s = .next (s.modEng fun e => { e with demands := rest }))
      ∧ (∀ w, s.resident dg = true → ow = some w → s.mappedAt w dg = none → s.segment? dg = some g → ∃ t h, exec .coldStartFetch s = .next t
        ∧ t.eng.fetch = none ∧ t.eng.demands = rest ∧ (t.mappedAt w dg).isSome = true ∧ t.segment? dg = some h ∧ h.maps = g.maps + 1 ∧ t.mem = s.mem))
    ∧ (s.segment? dg = some g → s.eng.fetch = some dg →
      let moves (i : Instr) : Prop :=
        (∀ n, g.tiers.find? (fun y => decide (g.tier < y)) = some n → ∃ t h, exec i s = .next t
          ∧ t.segment? dg = some h ∧ h.tier = n ∧ h.pieces = g.pieces ∧ t.mem = s.mem ∧ t.eng.fetch = some dg)
        ∧ ((∀ y ∈ g.tiers, y ≤ g.tier) → ∃ t h, exec i s = .next t ∧ t.segment? dg = some h ∧ h.sst = 3 ∧ h.pieces = g.pieces ∧ t.eng.fetch = none)
      moves (.tierReadFailure dg)
      ∧ (pds.length ≠ 32 ∨ shake256 pds.flatten ≠ dg ∨ data.length ≠ 65536 ∨ shake256 data ≠ pds.getD k.toNat [] →
          moves (.segmentPieceLand dg k pds data))
      ∧ (pds.length = 32 → shake256 pds.flatten = dg → data.length = 65536 → shake256 data = pds.getD k.toNat [] → g.frame = some f →
          g.pieces.getLsbD k.toNat = false → ∃ t h, exec (.segmentPieceLand dg k pds data) s = .next t ∧ t.segment? dg = some h
            ∧ h.pieces = g.pieces ||| (1#32 <<< k.toNat) ∧ (∀ i < 65536, t.mem.get (f + 65536 * k.toNat + i) = data.getD i 0)
            ∧ (∀ a, a < f + 65536 * k.toNat ∨ f + 65536 * k.toNat + 65536 ≤ a → t.mem.get a = s.mem.get a)
            ∧ (h.pieces = BitVec.allOnes 32 → h.sst = 2 ∧ t.eng.fetch = none))))

/-- R376, R377, R381, R382: the collective commands and the fabric control group: a request whose checks pass joins the engine's
queue, to reach the engine at its issue time, or in t + 48; XSEQ, XCAN and XWAIT wait for its answer. Where the spec leaves a
point open, what this says of it is the model's choice: notes/assumptions/54.md, notes/assumptions/60.md. -/
def Obligations.FabricWords : Prop :=
  ∀ (s : State) (d x y : SReg) (a b : CReg) (len card : SReg) (time : TimeArg), s.core.fw = none →
    let joined (c : Coll) : State := { s with nextId := s.nextId + 1, eng := { s.eng with colls := s.eng.colls ++ [c] } }
    let mine (c : Coll) (k : Key) : Prop := c.id = s.nextId ∧ c.key = k ∧ c.core = s.cur ∧ c.world = s.myWorld ∧ c.run = s.core.iss.run
      ∧ c.issue = s.tb ∧ c.queued = true ∧ c.number = none ∧ c.started = false ∧ c.done = none
    let key : Key := ⟨(s.sreg x).setWidth 16, (s.sreg y).setWidth 32⟩
    let waits (i : Instr) (fn : Nat) (kind : CollKind) : Prop := ∃ c, mine c key ∧ c.kind = kind ∧ c.time = s.tb + 48
      ∧ exec i s = .next ((joined c).modIss fun z => { z with wait := .fabric fn d key none, waitAt := s.tb })
    let cd := s.sreg card; let n := (s.sreg len).toNat; let comm := natBits cd.toNat 48 16
    let ck : Key := ⟨BitVec.ofNat 16 comm, ((s.core.ctl.s.toList[card.toNat + 1]?).getD 0).setWidth 32⟩
    let ty := cd.extractLsb' 40 4; let w := if ty = 5 then 2 else if ty = 0 then 1 else 4
    let dst := (s.creg a).cur.toNat; let src := (s.creg b).cur.toNat
    let enters (i : Instr) (opcode : BitVec 8) (manySrc manyDst : Bool) : Prop :=
      ∀ m, s.comm? ck.comm = some m → let sn := if manySrc then m.n * n else n; let dn := if manyDst then m.n * n else n
      (ty = 4 ∨ ty = 5 ∨ ty = 3 ∨ ty = 0 ∧ manyDst = true) → (cd.extractLsb' 44 4).toNat ≤ 2 → (manyDst = true → cd.extractLsb' 44 4 = 0) →
      (s.creg a).covers s.myWorld permWrite [(dst, dn)] = none → (s.creg b).covers s.myWorld permRead [(src, sn)] = none →
      s.windowCause s.myWorld true false dst dn = none → s.windowCause s.myWorld false false src sn = none → dst % 4 = 0 → src % 4 = 0 →
      ∃ c, Leaves s (joined c) i ∧ mine c ck ∧ c.kind = .data ∧ c.time = s.timeOf time ∧ c.opcode = opcode ∧ c.n = n ∧ c.card = cd
        ∧ c.dst = (s.creg a).cur ∧ c.src = (s.creg b).cur
    (natBits (s.sreg x).toNat 16 48 = 0 → s.commOk (natBits (s.sreg x).toNat 0 16) = true →
      (s.core.iss.inStub = false → waits (.xseq d x y) 0 .seq ∧ waits (.xcan d x y) 2 .cancel ∧ waits (.xwait d x y) 3 .wait)
      ∧ (s.collOf key = none → ∃ c, Leaves s (joined c) (.xbar x y) ∧ mine c key ∧ c.kind = .barrier ∧ c.time = s.tb + 48))
    ∧ (card ≠ 31 → natBits cd.toNat 0 40 = 0 → 0 < n → n < 2 ^ 30 → n % w = 0 → comm < 4096 → s.commOk comm = true → s.collOf ck = none →
      s.outstanding < 2 ^ 20 → s.tb + 2 ≤ s.timeOf time → s.waitingCopies s.cur < 64 → s.core.iss.drain.bind (fun q => q.d) = none →
      enters (.xar a b len card time) 0x5C false false ∧ enters (.xag a b len card time) 0x5D false true
      ∧ enters (.xrs a b len card time) 0x5E true false ∧ enters (.xata a b len card time) 0x5F true true)

/-- Boards answer their messages and hand over to a standby. R372, R373, Table 17.4: the counting board of a primary that holds no
message back: ASSIGN gives a key its number, once; OPEN opens a number in order or finds a mismatch; CANCEL empties a number
that is not opened; DONE is counted. Every reply leaves, or waits for the standby's acknowledgement. R373, R374: the standby and
the heartbeats: a decision is recorded and acknowledged, an acknowledgement lets the held replies go, a primary's heartbeat goes
to its standby and members, a standby takes over after 1,700,000 silent cycles, a newer epoch moves the primary, and a member
whose package is the new primary sends its messages again. Where the spec leaves a point open, what this says of it is the
model's choice: notes/assumptions/52.md. -/
def Obligations.BoardsAnswer : Prop :=
  (∀ (s : State) (sender epoch : Nat) (key : Key) (comm : BitVec 16) (n : BitVec 32) (p : CollParams) (c : Comm) (b : Board),
    s.comm? comm = some c → s.board? comm = some b → b.answering = true → c.epoch ≤ epoch → b.held = [] → key.comm = comm →
    b.nums.Pairwise (fun x y => x.n ≠ y.n) → (∀ x ∈ b.nums, x.n ≠ b.next) →
    let runs (i : Instr) (f : State → Board → Prop) : Prop := ∃ t b', exec i s = .next t ∧ t.board? comm = some b' ∧ f t b'
      ∧ t.mem = s.mem ∧ t.core = s.core ∧ t.eng.colls = s.eng.colls
    let replies (t : State) (b' : Board) (m : Msg) : Prop := (⟨sender, c.epoch, m⟩ : NetMsg) ∈ t.net ∨ ∃ k, (k, sender, m) ∈ b'.replies
    (b.keyNum? key = none → serialLT b.next (b.low + BitVec.ofNat 32 (2 ^ 20)) = true → runs (.assign sender epoch key) fun t b' =>
      b'.next = b.next + 1 ∧ replies t b' (.number key b.next) ∧ ∃ y ∈ b'.nums, y.n = b.next ∧ y.key = key ∧ y.state = .assigned)
    ∧ (∀ x, b.keyNum? key = some x → runs (.assign sender epoch key) fun t b' => b'.next = b.next ∧ replies t b' (.number key x.n))
    ∧ (∀ x, b.num? n = some x → x.state = .assigned → b.mayOpen n = true → runs (.openMsg sender epoch comm n p) fun t b' =>
        replies t b' (.opened comm n) ∧ ∃ y ∈ b'.nums, y.n = n ∧ y.state = .opened ∧ y.params = some p)
    ∧ (∀ x, b.num? n = some x → x.state = .opened → x.params ≠ some p → runs (.openMsg sender epoch comm n p) fun t b' =>
        replies t b' (.mismatch comm n) ∧ ∃ y ∈ b'.nums, y.n = n ∧ y.state = .mismatch)
    ∧ (∀ x, b.num? n = some x → x.state = .empty → runs (.openMsg sender epoch comm n p) fun t b' => replies t b' (.empty comm n))
    ∧ (∀ x, b.keyNum? key = some x → x.state = .assigned → runs (.cancel sender epoch key) fun t b' =>
        replies t b' (.cancelled key x.n) ∧ ∃ y ∈ b'.nums, y.n = x.n ∧ y.state = .empty)
    ∧ (∀ x, b.keyNum? key = some x → x.state = .opened ∨ x.state = .mismatch → runs (.cancel sender epoch key) fun t b' =>
        replies t b' (.started key) ∧ b'.next = b.next)
    ∧ (∀ x, b.num? n = some x → runs (.collectiveDoneMessage sender epoch comm n) fun _ b' => ∃ y ∈ b'.nums, y.n = n ∧ sender ∈ y.dones))
  ∧ (∀ (s : State) (epoch k : Nat) (comm : BitVec 16) (what : Decision) (c : Comm) (b : Board),
    s.comm? comm = some c → s.board? comm = some b →
    let runs (i : Instr) (f : State → Board → Prop) : Prop := ∃ t b', exec i s = .next t ∧ t.board? comm = some b' ∧ f t b'
      ∧ t.mem = s.mem ∧ t.core = s.core ∧ t.eng.colls = s.eng.colls
    (b.answering = false → c.epoch ≤ epoch → runs (.standbyDecision epoch comm k what) fun t b' =>
      t.net = s.net ++ [⟨c.prim, c.epoch, .ack comm k⟩] ∧ b'.decisions = max b.decisions k)
    ∧ (b.answering = true → c.epoch ≤ epoch → runs (.standbyAck epoch comm k) fun t b' => b'.acked = max b.acked k
      ∧ t.net = s.net ++ (b.replies.filter fun r => decide (r.1 ≤ max b.acked k)).map (fun r => ⟨r.2.1, c.epoch, r.2.2⟩)
      ∧ ∀ r ∈ b'.replies, max b.acked k < r.1)
    ∧ (b.answering = true → b.lastHeartbeat + 85000 ≤ s.tb → runs (.heartbeat comm) fun t b' => b'.lastHeartbeat = s.tb
      ∧ (c.sbv = true → (⟨c.stby, c.epoch, .heartbeat comm⟩ : NetMsg) ∈ t.net) ∧ ∀ m ∈ c.rtab, (⟨m.toNat, c.epoch, .heartbeat comm⟩ : NetMsg) ∈ t.net)
    ∧ (b.answering = true → s.tb < b.lastHeartbeat + 85000 → exec (.heartbeat comm) s = .next s)
    ∧ (b.answering = false → runs (.heartbeat comm) fun t b' => b'.lastHeartbeat = s.tb ∧ t.net = s.net)
    ∧ (b.answering = false → c.sbv = true → b.lastHeartbeat + 1700000 ≤ s.tb → runs (.heartbeatTimeout comm) fun t b' =>
      b'.answering = true ∧ (∃ c', t.comm? comm = some c' ∧ c'.epoch = c.epoch + 1 ∧ c'.prim = c.stby)
      ∧ ∀ m ∈ c.rtab, (⟨m.toNat, c.epoch + 1, .epoch comm c.stby⟩ : NetMsg) ∈ t.net)
    ∧ (c.epoch < epoch → ∃ t b', exec (.epochAnnounce comm epoch k) s = .next t ∧ t.board? comm = some b' ∧ b'.answering = false
      ∧ (∃ c', t.comm? comm = some c' ∧ c'.epoch = epoch ∧ c'.prim = k) ∧ t.mem = s.mem ∧ t.core = s.core)
    ∧ (epoch < c.epoch ∨ epoch = c.epoch ∧ (b.answering = false ∨ k ≠ c.prim) → exec (.epochAnnounce comm epoch k) s = .next s)
    ∧ (epoch = c.epoch → b.answering = true → k = c.prim → ∃ t, exec (.epochAnnounce comm epoch k) s = .next t ∧ t.mem = s.mem ∧ t.core = s.core
      ∧ t.disp = s.disp ∧ t.eng = s.eng ∧ ∀ x ∈ s.eng.colls, x.key.comm = comm → x.queued = false → x.number = none → x.done = none →
        (⟨c.prim, c.epoch, .assign x.key⟩ : NetMsg) ∈ t.net))

/-- Members follow the board, and collectives run to their result. R375, R380, R382: what a member does on the board's messages: a
number goes to its collective, which asks to be opened; OPENED lets it start; EMPTY, MISMATCH and, for a barrier, ALLOPENED
complete it; the messages answer the waits of XSEQ and XCAN; and a message of an older epoch does nothing. R375, R377 to R380,
R382: at the engine: an entry asks for its number, a cancel goes to the board, a collective that is opened and next starts, its
data goes to every other member, bytes that come are kept, the last one completes it, and an answered wait ends with its
register written. Where the spec leaves a point open, what this says of it is the model's choice: notes/assumptions/51.md,
notes/assumptions/55.md, notes/assumptions/56.md, notes/assumptions/59.md. -/
def Obligations.CollectivesRun : Prop :=
  (∀ (s : State) (epoch : Nat) (key : Key) (comm : BitVec 16) (n : BitVec 32) (m : Comm) (x : Coll),
    s.comm? comm = some m → key.comm = comm → s.coll? x.id = some x → x.queued = false →
    let becomes (i : Instr) (f : State → Coll → Prop) : Prop := ∃ t y, exec i s = .next t ∧ t.coll? x.id = some y ∧ f t y ∧ t.mem = s.mem
    let ends_ (i : Instr) (status : Nat) : Prop := becomes i fun _ y => y.done = some (s.tb, status) ∧ y.data = []
    let at_ := x.key.comm = comm ∧ x.number = some n ∧ x.pending = true
    let wait (fn : Nat) (d : SReg) (v : W64) : State → Prop := fun t => t.core.iss.wait = .fabric fn d key (some (max (s.tb + 48) (s.core.iss.waitAt + 96), v))
    (epoch < m.epoch → ∀ i ∈ [Instr.number epoch key n, .opened epoch comm n, .empty epoch comm n, .mismatch epoch comm n,
      .allopened epoch comm n, .cancelled epoch key n, .started epoch key], exec i s = .next s)
    ∧ (m.epoch ≤ epoch →
      (x.key = key → x.number = none → x.pending = true → becomes (.number epoch key n) fun t y => y.number = some n
        ∧ (⟨m.prim, m.epoch, .openMsg comm n x.params⟩ : NetMsg) ∈ t.net)
      ∧ (at_ → becomes (.opened epoch comm n) (fun _ y => y = { x with opened := true }) ∧ ends_ (.empty epoch comm n) 1
        ∧ ends_ (.mismatch epoch comm n) 3 ∧ (x.kind = .barrier → ends_ (.allopened epoch comm n) 0))
      ∧ (∃ t m', exec (.empty epoch comm n) s = .next t ∧ t.comm? comm = some m' ∧ n ∈ m'.skips ∧ t.mem = s.mem)
      ∧ (∀ d, s.core.iss.wait = .fabric 0 d key none → s.core.iss.waitAt + 48 ≤ s.tb → s.cur ∈ s.live →
          ∃ t, exec (.number epoch key n) s = .next t ∧ wait 0 d (n.setWidth 64) t)
      ∧ (∀ d, s.core.iss.wait = .fabric 2 d key none → s.askers 2 key = [s.cur] →
          (∃ t, exec (.started epoch key) s = .next t ∧ wait 2 d 0x18 t ∧ t.mem = s.mem ∧ t.eng = s.eng)
          ∧ (s.collOf key = none → ∃ t, exec (.cancelled epoch key n) s = .next t ∧ wait 2 d 0 t ∧ t.mem = s.mem))))
  ∧ (∀ (s : State) (id : Nat) (c : Coll) (m : Comm), s.coll? id = some c → s.comm? c.key.comm = some m →
    let sent (t : State) (x : Msg) : Prop := (⟨m.prim, m.epoch, x⟩ : NetMsg) ∈ t.net
    (c.queued = true → c.saved = false → c.time ≤ s.tb →
      (c.kind = .data ∨ c.kind = .barrier → ∃ t y, exec (.collectiveEngineEntry id) s = .next t ∧ t.coll? id = some y ∧ y.queued = false
        ∧ sent t (.assign c.key) ∧ t.mem = s.mem ∧ t.core = s.core)
      ∧ (c.kind = .cancel → ∃ t, exec (.collectiveEngineEntry id) s = .next t ∧ sent t (.cancel c.key) ∧ t.coll? id = none ∧ t.core = s.core))
    ∧ (∀ n, s.collStartDue = some (c.key.comm, n) →
        (s.collsAt c.key.comm n).find? (fun x => x.opened && !x.started && !x.parked) = some c →
      (c.kind = .barrier → ∃ t y m', exec (.collectiveStart c.key.comm n) s = .next t ∧ t.coll? id = some y ∧ y.started = true
        ∧ t.comm? c.key.comm = some m' ∧ m'.nextStart = n + 1 ∧ t.mem = s.mem ∧ t.core = s.core)
      ∧ (∀ bs u, c.kind = .data → s.ioRead c.world c.src.toNat (srcBytes c.opcode m.n c.n) = .ok (bs, u) → u.coll? id = some c →
          u.comm? c.key.comm = some m → ∃ (v : State) (y : Coll), exec (.collectiveStart c.key.comm n) s = .next (v.advanceColl id) ∧ v.coll? id = some y
            ∧ y.started = true ∧ (∀ k ∈ (collPart c bs m.rank).zipIdx, (m.rank, k.2, k.1) ∈ y.data) ∧ v.mem = u.mem
            ∧ v.net = u.net ++ (m.members.zipIdx.filter fun k => k.2 != m.rank).map
                fun k => ⟨k.1, m.epoch, .data c.key m.rank (collPart c bs k.2)⟩))
    ∧ (s.collOf c.key = some c → s.collComplete? c = true → ∃ t y, exec (.collectiveComplete c.key) s = .next t ∧ t.coll? id = some y
        ∧ y.done = some (s.tb, 0) ∧ (∀ n, c.number = some n → sent t (.done c.key.comm n)) ∧ t.mem = s.mem)
    ∧ (∀ rank off bytes, s.collOf c.key = some c → c.kind = .data → c.done = none → c.started = false →
        ∃ t y, exec (.collectiveDataArrival c.key rank off bytes) s = .next t ∧ t.coll? id = some y ∧ t.mem = s.mem ∧ t.core = s.core
          ∧ (∃ new, y.data = c.data ++ new) ∧ ∀ i < bytes.length, off + i < c.n → c.byte? rank (off + i) = none →
            y.byte? rank (off + i) = some (bytes.getD i 0))
    ∧ (∀ fn d k at_ v, s.core.iss.wait = .fabric fn d k (some (at_, v)) → at_ ≤ s.tb →
        Resumes s (s.modIss fun x => { x with pend := x.pend ++ [⟨s.tb, .s d v, none, s.tb⟩] }) (.fabricWaitComplete s.cur)))

/-- Runs of tasks begin, resume and end. R12, R24, R184, R203, R223, R328, R329: a first start, a restart in the same or another
stage, and a replay begin a run in their cycle: registers as at a start, the anchor here, the first word issuing here; what the
run keeps of the one before depends on the kind. R197, R344, R345: a resume continues a sealed core at its resume word, with its
time stepped over the seal. R32, R187, R188, R203, R205, R333: TASK_END: with s0 = 0 the core retires, and counts as arrived at
every level A cycles on; the last core of a group to retire ends the request with status 0 and every core of the group is freed;
with another s0 the core starts again, in its stage 24 cycles on or in the stage that the balancer (State.balance) gives 272
cycles on, or, where a pre-emption drains it, waits for its seal with that start to come. Where the spec leaves a point open,
what this says of it is the model's choice: notes/assumptions/31.md, notes/assumptions/101.md. -/
def Obligations.RunsBeginAndEnd : Prop :=
  (∀ (s : State) (core : Nat) (task : TaskImage), s.good → (s.getCore core).bnd.task = some task →
    let c := s.getCore core
    let begins (i : Instr) (kind : Nat) : Prop := ∃ t, exec i s = .next t ∧ let k := t.getCore core
      k.iss.status = .running ∧ k.iss.next = s.tb ∧ k.iss.pc = 0 ∧ k.iss.wait = .none ∧ k.iss.run = c.iss.run + 1 ∧ k.iss.fault = c.iss.fault
      ∧ k.iss.vec.run = none ∧ k.iss.mat.armed = [] ∧ k.sys.anchor = BitVec.ofNat 64 s.tb ∧ k.ctl.s = Vector.replicate 32 0
      ∧ (k.ctl.c[0]).cur = BitVec.ofNat 64 (coreBase core) ∧ (∀ n : Fin 16, n ≠ 0 → k.ctl.c[n] = Cap.null) ∧ k.ctl.k = 1 ∧ k.ctl.loops = []
      ∧ k.sys.vmode = 0 ∧ k.sys.evmask = 0 ∧ k.sys.bkpend = false ∧ k.jpos = 0 ∧ k.copyrec = Vector.replicate 16 0 ∧ k.ctl.mb = c.ctl.mb
      ∧ k.journal = (if kind = 3 then c.journal else []) ∧ k.sys.rply = (if kind = 3 then c.sys.rply else 0)
      ∧ k.sys.fcause = (if kind = 0 then 0 else c.sys.fcause) ∧ k.sys.fpc = (if kind = 0 then 0 else c.sys.fpc)
      ∧ k.bnd.alpha = (if kind = 0 then Vector.ofFn fun l => s.phaseNo (s.domainOf core l.val) else if kind = 3 then c.bnd.alphaStart else c.bnd.alpha)
    (s.startKind core = some 0 → begins (.taskStart core) 0)
    ∧ (s.footCheck core = none → (s.startKind core = some 1 → begins (.taskRestart core) 1)
      ∧ (s.startKind core = some 2 → begins (.taskRestart core) 2) ∧ (s.startKind core = some 3 → begins (.replayStart core) 3)))
  ∧ (∀ (s : State) (core : Nat), s.good → s.startKind core = some 4 → let c := s.getCore core; c.sys.bkpend = false → c.drained.fpend = none →
    ∃ t, exec (.taskStart core) s = .next t ∧ let k := t.getCore core
      k.iss.status = .running ∧ k.iss.pc = c.iss.pc ∧ k.iss.next = s.tb ∧ k.iss.wait = .none ∧ k.ctl = c.ctl ∧ k.vec = c.vec ∧ k.mat = c.mat
      ∧ k.sys.anchor = BitVec.ofNat 64 s.tb - c.sys.anchor ∧ k.sys.vmode = c.sys.vmode ∧ t.mem = s.mem ∧ t.disp = s.disp)
  ∧ (∀ (s : State) (core : Nat) (g : Group), s.good → s.endsNow core = true → let c := s.getCore core; let j := c.bnd.jetton
    (s.jetton j).group = some g → core ∈ g.cores →
    (c.iss.s0done = 0 → (∃ k ∈ s.heldCores j, k ≠ core ∧ (s.getCore k).hasRetired = false) → ∃ t, exec (.taskEnd core) s = .next t
      ∧ (t.getCore core).iss.status = .retired ∧ t.mem = s.mem ∧ (t.jetton j).group = some g
      ∧ ∀ l < 5, ∃ a, (s.tb + a, Instr.phaseArrival (s.domainOf core l) core ((c.bnd.alpha.toList[l]?).getD 0)) ∈ t.agenda)
    ∧ (c.iss.s0done = 0 → (∀ k ∈ s.heldCores j, k = core ∨ (s.getCore k).hasRetired = true) → (s.jetton j).state.held = true →
      let q (u : State) : WorkQueue := (u.jetton j).qs[(s.jetton j).curQueue.toNat]'(s.jetton j).curQueue.isLt
      ∃ t, exec (.taskEnd core) s = .next t ∧ t.mem = s.mem ∧ (t.jetton j).group = none ∧ (t.jetton j).state ∈ [JState.stopped, .ready, .idle]
        ∧ (q t).ridx = (q s).ridx + 1 ∧ (∃ r, (t.jetton j).ended = (s.jetton j).ended ++ [r] ∧ r.queue = (s.jetton j).curQueue
          ∧ r.seq = (q s).ridx ∧ r.status = 0 ∧ r.tend = s.tb)
        ∧ ∀ k ∈ s.heldCores j, (t.getCore k).iss.status = .free ∧ (t.getCore k).owner = some (s.getCore k).sys.world.toNat
          ∧ (s.tb + 1, Instr.coreScrubStart k) ∈ t.agenda)
    ∧ (c.iss.s0done ≠ 0 → let next := (s.modCore core fun c => c.doneAnchor s.tb).balance core c.bnd.stage g
      let kind := if next = c.bnd.stage then 1 else 2
      ∃ t, exec (.taskEnd core) s = .next t ∧ t.mem = s.mem ∧ (t.getCore core).bnd.stage = next
        ∧ (c.iss.drain = none → (t.getCore core).iss.status = .between
          ∧ t.disp.wishes = s.disp.wishes ++ [⟨j, [(core, kind)], s.tb + (if next = c.bnd.stage then 24 else 272)⟩])
        ∧ ∀ d, c.iss.drain = some d → (t.getCore core).iss.status = .draining ∧ t.disp.wishes = s.disp.wishes
          ∧ ∃ x, (t.getCore core).iss.drain = some x ∧ x.restart = true ∧ x.kind = kind))

/-- R18, R187, R191 to R199, R346, R401: the dispatcher's events: a starvation bar; a selection that binds a READY jetton to its
rectangle of cores 296 cycles before its anchor, or a SEALED one to its old cores, 3,496 cycles before it where they were
evicted; OVERRUN; and the write of a completion record, after which the increments of its LAUNCHes follow. Where the spec leaves
a point open, what this says of it is the model's choice: notes/assumptions/33.md, notes/assumptions/36.md,
notes/assumptions/100.md. -/
def Obligations.DispatchEvents : Prop :=
  ∀ (s : State) (token : Bool), s.good →
    (∀ j at_, (s.selector token).top = some (j, at_) → (s.selector token).barred = false → at_ + 2 ^ 18 ≤ s.tb →
      ∃ t, exec (.starvationBar token) s = .next t ∧ (t.selector token).barred = true ∧ t.out = s.out ++ [.signal j] ∧ t.mem = s.mem
        ∧ t.core = s.core ∧ t.selector (!token) = s.selector (!token))
    ∧ (∀ j x tt p, s.pathIdle token = true → s.chosen token = some (j, x, tt, p) → ∃ t g, exec (.selection token) s = .next t
        ∧ (t.jetton j).state = .binding ∧ (t.jetton j).group = some g ∧ (t.selector token).last = some s.tb ∧ t.mem = s.mem
        ∧ (∀ i ∈ p, (t.getCore i).iss.status = .bound ∧ (t.getCore i).sys.world = BitVec.ofNat 9 x.world ∧ (t.getCore i).bnd.jetton = j)
        ∧ (x.state = .ready → (t.jetton j).anchorAt = s.tb + 296 ∧ g.cores = p ∧ g.w = tt.width ∧ g.h = tt.height)
        ∧ (x.state = .sealed → x.group = some g ∧ g.cores = p ∧ (t.jetton j).anchorAt = s.tb + if x.evicted then 3496 else 296))
    ∧ (∀ core, s.overrunDue core = true → (s.getCore core).iss.fault = none → ∃ t, exec (.overrun core) s = .next t ∧ t.mem = s.mem
        ∧ t.disp = s.disp ∧ (∀ k, k ≠ core → t.getCore k = s.getCore k) ∧ let y := (s.getCore core).iss
        t.getCore core = { s.getCore core with iss := { y with
          fault := some ⟨.overrun, BitVec.ofNat 12 y.pc, 0, finfo 0 0 false 0 (if y.wait = .none then 0 else s.tb - y.waitAt)⟩ } })
    ∧ (∀ j r u, s.recordNext j (s.tb - 1) = some r →
        s.ioWrite (s.jetton j).world none ((s.jetton j).qs[r.queue.toNat]'r.queue.isLt).recordVa r.bytes = .ok u →
        let q (v : State) : WorkQueue := (v.jetton j).qs[r.queue.toNat]'r.queue.isLt
        ∃ t, exec (.completionRecordWrite j) s = .next t ∧ t.mem = u.mem ∧ (t.jetton j).ended = (u.jetton j).ended.erase r
          ∧ (q t).cidx = (q u).cidx + 1
          ∧ ∀ p ∈ r.sem, p.1 ≠ 0 → (s.tb - 1 + 1 + semH p.1, Instr.launchSemaphoreIncrement p.1 (u.jetton j).world) ∈ t.agenda)

/-- R333 to R339, R341 to R344: a pre-emption reaches every core of the group in one cycle; at its drain point a core's resume word
does not issue, its stub does, and its copies leave the time buffers; at rest it seals, and with the last core of the group the
jetton. -/
def Obligations.PreemptionSeals : Prop :=
  ∀ (s : State) (j i : Nat) (d : Drain), s.good → let x := s.jetton j; let c := s.getCore i
    let q : Drain := ⟨s.tb, none, c.iss.pc, false, false, false, 0, false, false, none⟩
    let sealed (k : Nat) : Prop := (s.getCore k).iss.status = .sealed
    (x.state = .running → ∃ t, exec (.preemptionRequest j) s = .next t ∧ (t.jetton j).state = .sealing
      ∧ (i ∈ s.heldCores j → c.iss.status = .running → c.sys.dbg = false → c.iss.wait = .none ∨ s.stubFor i c.iss.pc = none → t.getCore i = { c with iss :=
          { c.iss with status := .draining, drain := some q } })
      ∧ (i ∈ s.heldCores j → c.iss.status = .running → c.sys.dbg = false → c.iss.wait ≠ .none → (s.stubFor i c.iss.pc).isSome = true →
          (t.getCore i).iss.status = .draining ∧ (t.getCore i).iss.wait = .none ∧ (t.getCore i).ctl = c.ctl
          ∧ ∃ q, (t.getCore i).iss.drain = some q ∧ q.d = some s.tb ∧ q.resume = c.iss.pc)
      ∧ (i ∈ s.heldCores j → c.iss.status = .running → c.sys.dbg = true → (t.getCore i).iss.status = .draining
          ∧ (t.getCore i).iss.leaving = true ∧ (t.getCore i).sys.bkpend = true ∧ ∃ q, (t.getCore i).iss.drain = some q ∧ q.q = s.tb + 1)
      ∧ (i ∈ s.heldCores j → c.iss.status = .between ∨ c.iss.status = .bound → (t.getCore i).iss.status = .draining
          ∧ ∃ q, (t.getCore i).iss.drain = some q ∧ q.d = some s.tb ∧ q.restart = true)
      ∧ (i ∈ s.heldCores j → c.iss.status = .retired → ∃ q, t.getCore i = { c with iss := { c.iss with drain := some q } }
          ∧ q.d = some s.tb ∧ q.retired = true))
    ∧ (x.state = .binding → exec (.preemptionRequest j) s = .next (s.modJetton j fun x => { x with preempt := true }))
    ∧ (c.iss.drain = some d → s.divertDue i = true → ∃ t, exec (.drainDivert i) s = .next t ∧ (t.getCore i).iss.wait = .none
      ∧ (t.getCore i).ctl = c.ctl ∧ ∃ q, (t.getCore i).iss.drain = some q ∧ q.d = some s.tb ∧ q.resume = c.iss.pc)
    ∧ (c.iss.drain = some d → s.divertDue i = true → c.iss.wait = .none → ∃ t, exec (.drainDivert i) s = .next t ∧ t.mem = s.mem
      ∧ (t.getCore i).iss = { c.iss with pc := (s.stubFor i c.iss.pc).getD c.iss.pc, next := s.tb, wait := .none
                                         drain := some { d with d := some s.tb, resume := c.iss.pc, stub := (s.stubFor i c.iss.pc).isSome } }
      ∧ (t.getCore i).ctl = c.ctl ∧ t.eng.copies = s.eng.copies.map fun y =>
          if y.asker = .core i ∧ y.jetton = c.bnd.jetton ∧ y.saved = false ∧ (y.state = .queued ∨ y.state = .parked) then
            { y with saved := true, time := y.time - s.tb, place := y.time } else y)
    ∧ (c.bnd.jetton = j → i ∈ s.heldCores j → s.sealDue i (s.tb - 1) = true → ∃ t, exec (.sealCore i) s = .next t ∧ t.mem = s.mem
      ∧ (t.getCore i).iss = { c.iss with status := .sealed, turn := none, later := [], wait := .none }
      ∧ (t.getCore i).ctl = c.ctl ∧ (t.getCore i).vec = c.vec ∧ (t.getCore i).mat = c.mat ∧ (t.getCore i).sys = c.sys
      ∧ (∃ a, s.tb ≤ a ∧ (a, .sealRecordComplete i) ∈ t.agenda)
      ∧ ((∀ k ∈ s.heldCores j, k = i ∨ sealed k) → (t.jetton j).state = .sealed)
      ∧ ((∃ k ∈ s.heldCores j, k ≠ i ∧ ¬ sealed k) → (t.jetton j).state = x.state))
    ∧ (c.bnd.jetton = j → c.iss.status = .sealed → i ∉ x.records → x.state = .sealing ∨ x.state = .sealed →
        ∀ u, s.ioWrite x.world none (sealVa x c.bnd.logical) (s.sealRecord i) = .ok u →
          exec (.sealRecordComplete i) s = .next (u.modJetton j fun y => { y with records := y.records ++ [i] }))

/-- R330, R346, R353, R355, R361: an eviction is taken for a sealed jetton and completes with its cores' images written and the
cores freed; a frozen jetton's cores are freed at its release; a freed core is scrubbed for 3,840 cycles and 512 more for each
private quarter, its banks first at one block of 128 bytes a cycle, and then belongs to no world. Where the spec leaves a point
open, what this says of it is the model's choice: notes/assumptions/95.md. -/
def Obligations.CoresAreFreed : Prop :=
  ∀ (s : State) (j i : Nat), s.good → let x := s.jetton j; let c := s.getCore i
    let freed (t : State) (w : Nat) : Prop :=
      (t.getCore i).iss.status = .free ∧ (t.getCore i).owner = some w ∧ (s.tb + 1, .coreScrubStart i) ∈ t.agenda
    let scrub := 3840 + 512 * ((List.range 4).filter fun q => !c.shared.getLsbD q).length
    exec (.evictionRequest j) s = .next (if x.state = .sealed ∧ x.evicted = false ∧ x.evictReq = none then
      s.modJetton j fun y => { y with evictReq := some s.tb } else s)
    ∧ (x.state = .sealed → x.evictAt = some s.tb → ∀ u, s.evictCores j (s.heldCores j) = .ok u → ∃ t, exec (.evictionComplete j) s = .next t
        ∧ t.mem = u.mem ∧ (t.jetton j).evicted = true ∧ (t.jetton j).state = .sealed ∧ (i ∈ s.heldCores j → freed t noWorld))
    ∧ (x.state = .frozen → ∃ t, exec (.jettonRelease j) s = .next t ∧ t.mem = s.mem ∧ (t.jetton j).group = none
        ∧ (t.jetton j).state = (if x.anyPending = true then .ready else .idle) ∧ (i ∈ s.heldCores j → freed t c.sys.world.toNat))
    ∧ exec (.coreScrubStart i) s = .next (if c.iss.status = .free ∧ c.owner ≠ none ∧ c.scrubEnd = none then
        (s.modCore i fun k => { k with scrubEnd := some (s.tb + scrub - 1) }).at_ (s.tb + scrub - 1) (.coreScrubEnd i) else s)
    ∧ exec (.coreScrubEnd i) s = .next (if c.iss.status = .free ∧ c.scrubEnd = some s.tb then
        s.modCore i fun k => { k with owner := none, scrubEnd := none } else s)
    ∧ ∀ k < 3072, ∀ a, (s.scrubPart i k).mem.get a
        = if coreBase i + 128 * k ≤ a ∧ a < coreBase i + 128 * k + 128 then 0 else s.mem.get a

/-- R347 to R350: the debug port. HALT needs DBGEN and a task that runs, draining or not; STEP and CONT debug state; WREG debug
state but for BPADDR, and never the fixed registers; RREG reads any register. What is refused changes nothing else. Where the
spec leaves a point open, what this says of it is the model's choice: notes/assumptions/39.md. -/
def Obligations.DebugPort : Prop :=
  ∀ (s : State) (i : Nat) (n : BitVec 16) (r : RegName) (v : BitVec 1056), s.good → let c := s.getCore i
    let refused : Host.Outcome State Fault Refusal := .next { s with out := s.out ++ [.refused i] }
    exec (.halt i) s = (if c.iss.status.live = true ∧ c.fw = none ∧ c.sys.dbg = false ∧ s.debugOn c.sys.world.toNat = true then
      .next (s.modCore i fun k => { k with iss := { k.iss with halting := true } }) else refused)
    ∧ exec (.step i n) s = (if c.sys.dbg = true ∧ n ≠ 0 then .next (s.modCore i fun k => { k with iss := { k.iss with steps := n.toNat } }) else refused)
    ∧ exec (.cont i) s = (if c.sys.dbg = true then .next (s.modCore i fun k => { k with iss := { k.iss with leaving := true, steps := 0 } }) else refused)
    ∧ (∃ w, exec (.rreg i r) s = .next { s with out := s.out ++ [.debug i w] } ∧ (∀ a, r = .s a → w = (c.ctl.s[a.toNat]'a.isLt).setWidth 1056)
        ∧ (∀ a, r = .lc a → w = (c.ctl.lc[a.toNat]'a.isLt).setWidth 1056) ∧ (r = .st 0x02 → w = c.sys.fpc.setWidth 1056)
        ∧ (∀ a, r = .v a → w = (c.vec.v[a.toNat]'a.isLt).setWidth 1056))
    ∧ exec (.wreg i r v) s = (if regFixed r = false ∧ (c.sys.dbg = true ∨ isBpaddr r = true) then .next (s.modCore i fun k => k.writeReg r v) else refused)
    ∧ (∀ a, c.writeReg (.s a) v = { c with ctl := { c.ctl with s := c.ctl.s.set a.toNat (v.setWidth 64) a.isLt } })
    ∧ (∀ a, c.writeReg (.mb a) v = c) ∧ regFixed (.st 0x05) = true ∧ regFixed (.st 0x06) = true ∧ regFixed (.st 0x07) = true
    ∧ (∀ a, regFixed (.mb a) = true) ∧ (∀ b : Fin 4, isBpaddr (.st (BitVec.ofNat 8 (0x10 + b.val))) = true)

/-- Queue processors take their entries, and launched entries land. R398, R399, R411: a processor looks at its next entry, takes it
on a matching TICKET and publishes RIDX; on another it looks again 1,024 cycles on; a malformed entry stops the queue in error;
after a release the access is tried again; a WAIT ends in its cycle. R395: the read of the entry and the write of RIDX wait for
a slot of class 0 of the queue's world. R197, R399, R422: the last byte of a LAUNCH's entry copy has landed: WIDX advances and
an IDLE jetton becomes READY at the end of 24 cycles, unless the jetton or the queue takes none any more; the semaphore's word
counts the request's completion at its home, and an uncorrectable one is only marked. Where the spec leaves a point open, what
this says of it is the model's choice: notes/assumptions/67.md, notes/assumptions/70.md, notes/assumptions/71.md. -/
def Obligations.QueuesTakeEntries : Prop :=
  (∀ (s r u v w : State) (k : Nat) (q : CmdQueue) (e : List Byte), s.queue? k = some q →
    let taken : CmdQueue := { q with ridx := q.ridx + 1, entry := some e, published := true, polling := false, faulted := false
                                     notBefore := max q.notBefore (s.tb + 16) }
    (q.looks s.tb = true → s.slotOpen q.world (q.entryVa q.ridx) 32 false = none → exec (.queueEntryTake k) s = .next (s.lookNext k))
    ∧ (q.looks s.tb = true → s.slotOpen q.world (q.entryVa q.ridx) 32 false = some r → r.ioRead q.world (q.entryVa q.ridx) 32 = .ok (e, u) →
      (entTicket e ≠ q.ridx.toNat % 65535 + 1 → exec (.queueEntryTake k) s = .next (u.modQueue k fun x => { x with
        nextPoll := s.tb + 1024, polling := true }))
      ∧ (entTicket e = q.ridx.toNat % 65535 + 1 → u.slotOpen q.world q.ridxVa 4 true = none → exec (.queueEntryTake k) s = .next (u.lookNext k))
      ∧ (entTicket e = q.ridx.toNat % 65535 + 1 → u.slotOpen q.world q.ridxVa 4 true = some v → (v.modQueue k fun x => { x with
            ridx := x.ridx + 1, entry := some e, published := false, polling := false, notBefore := max x.notBefore (s.tb + 16) }).ioWrite
            q.world none q.ridxVa (leBytes (q.ridx + 1).toNat 4) = .ok w →
          ∃ t, exec (.queueEntryTake k) s = .next t ∧ t.mem = w.mem ∧ (entryCause e = none → t.queue? k = some taken)
            ∧ ∀ c, entryCause e = some c → t.queue? k = some { taken with
                state := 3, entry := none, holdXlate := false, errc := BitVec.ofNat 8 c.code }))
    ∧ (q.polling = true → q.nextPoll ≤ s.tb → exec (.queuePollTimer k) s = .next (s.modQueue k fun x => { x with polling := false, nextPoll := s.tb }))
    ∧ (q.holdXlate = true → let on : CmdQueue := { q with
          holdXlate := false, state := 1, notBefore := if q.entry.isSome then max q.notBefore (s.tb + 16) else q.notBefore }
        let out := s.disp.xlates.filter fun x => x.who != .queue k
        (q.entry = none ∨ q.published = true → ∃ t, exec (.queueXlateRetry k) s = .next t ∧ t.mem = s.mem ∧ t.queue? k = some on
          ∧ t.disp.xlates = out)
        ∧ (q.entry = some e → q.published = false → s.slotOpen q.world q.ridxVa 4 true = none → exec (.queueXlateRetry k) s = .next s)
        ∧ (q.entry = some e → q.published = false → entryCause e = none → s.slotOpen q.world q.ridxVa 4 true = some v →
          ((v.modQueue k fun _ => on).modDisp fun d => { d with xlates := out }).ioWrite q.world none q.ridxVa (leBytes q.ridx.toNat 4) = .ok w →
          ∃ t, exec (.queueXlateRetry k) s = .next t ∧ t.mem = w.mem ∧ t.queue? k = some { on with published := true, faulted := false }))
    ∧ (∀ h, s.queueWaitDone k = some h → ∃ t, exec (.queueWaitComplete k) s = .next t ∧ t.mem = s.mem
        ∧ t.eng.homes = s.eng.homes.filter (·.id != h.id) ∧ t.queue? k = some { q with
            entry := none, state := if q.state = 2 then 1 else q.state, notBefore := max q.notBefore (s.tb + 1) }))
  ∧ (∀ (s : State) (k a w : Nat) (l : LaunchCopy),
    (s.eng.launches.find? (fun x => x.id == l.id && x.queue == k) = some l → let x := s.jetton l.jetton; let y := x.qs[l.q.toNat]'l.q.isLt
      ∃ t, exec (.launchEntryLanding k l.id) s = .next t ∧ t.mem = s.mem ∧ t.eng.launches = s.eng.launches.filter (·.id != l.id)
        ∧ (t.jetton l.jetton).state = x.state ∧ (l.q, l.seq, l.sem, l.id) ∈ (t.jetton l.jetton).sems
        ∧ let takes : Prop := x.state ≠ .free ∧ x.state ≠ .stopped ∧ y.qen = true
          (takes → (t.jetton l.jetton).readyAt = some (x.readyAt.getD (s.tb + 23))
            ∧ ((t.jetton l.jetton).qs[l.q.toNat]'l.q.isLt) = { y with widx := y.widx + 1 })
          ∧ (¬ takes → (t.jetton l.jetton).readyAt = x.readyAt ∧ (t.jetton l.jetton).qs = x.qs))
    ∧ (s.heldAway a = false → s.mem.damaged a = false → (placeOf a = .hbm → s.mem.lineOk (s.semKey w a) a = true) →
        ∃ t, exec (.launchSemaphoreIncrement a w) s = .next t ∧ t.core = s.core ∧ t.others = s.others
          ∧ t.mem = ((s.modMem fun m => m.setWord a (m.word a + 1)).dirty w a).mem)
    ∧ (s.heldAway a = false → s.mem.damaged a = true → exec (.launchSemaphoreIncrement a w) s = .next (s.modMem (·.markPoison (unitOf a))))
    ∧ (s.heldAway a = true → exec (.launchSemaphoreIncrement a w) s = .next s))

/-- R399, R411, R422: the commands of Table 19.8: what each leaves in its cycle. SIGNAL acts after the queue's earlier commands, SET
and WAIT at once; COPY and FILL, with the semaphore they name or none, and the entry copy of a LAUNCH enter an engine of the I/O
die; a LAUNCH waits while the work queue is full, and is a violation where the jetton is not of the queue's world; IRQ and FENCE
wait for every earlier command; TSTAMP writes in its slot (R395). Where an access or a semaphore stops the command, no clause
speaks. Where the spec leaves a point open, what this says of it is the model's choice: notes/assumptions/66.md,
notes/assumptions/68.md, notes/assumptions/70.md. -/
def Obligations.QueueCommandsAct : Prop :=
  ∀ (s : State) (k : Nat) (q : CmdQueue) (e : List Byte), s.queue? k = some q → q.command? = some e →
    let busy : CmdQueue := { q with busy := q.busy ++ [(s.nextId, q.ridx - 1)] }
    let freed (x : CmdQueue) : CmdQueue := { x with entry := none, state := if x.state = 2 then 1 else x.state }
    let sent (i : Instr) (what : HomeDo) (blockers : List Nat) (waits : Bool) (h : Nat) (after : CmdQueue) : Prop :=
      ∃ (t : State) (o : HomeOp), exec i s = .next t ∧ t.mem = s.mem ∧ t.queue? k = some after ∧ t.eng.homes = s.eng.homes ++ [o]
        ∧ o.id = s.nextId ∧ o.asker = .queue k ∧ o.what = what ∧ o.due = s.tb + 2 + h ∧ o.blockers = blockers ∧ o.waits = waits
    let x : W32 := BitVec.ofNat 32 (entC e); let va := q.semVa (entSem e); let consume := entFlags e / 16 % 2 == 1
    let named (sem : Option (Nat × Nat)) : Prop := (entSem e = 0xFFFF ∧ sem = none)
      ∨ (entSem e ≠ 0xFFFF ∧ ∃ home h pa, s.semHome q.world va true true = .ok home h pa ∧ sem = some (pa, h))
    let copied (i : Instr) (kind : CopyKind) (dst src n : Nat) (sem : Option (Nat × Nat)) (ls : List LaunchCopy) : Prop :=
      ∃ (t : State) (c : Copy), exec i s = .next t ∧ t.mem = s.mem ∧ t.queue? k = some (freed busy) ∧ t.eng.copies = s.eng.copies ++ [c]
        ∧ c.id = s.nextId ∧ c.asker = .queue k ∧ c.engine = queueEngine k ∧ c.kind = kind ∧ c.state = .queued ∧ c.time = s.tb ∧ c.n = n
        ∧ c.dst = BitVec.ofNat 64 dst ∧ c.src = BitVec.ofNat 64 src ∧ c.sem = sem ∧ t.eng.launches = s.eng.launches ++ ls
    let j := entC e % 2 ^ 14; let n : BitVec 2 := BitVec.ofNat 2 (entC e / 2 ^ 14); let y := (s.jetton j).qs[n.toNat]'n.isLt
    let seq := y.widx + BitVec.ofNat 32 (s.launching j n)
    (entOp e = 0 → exec (.queueNop k) s = .next (s.queueNext k))
    ∧ (∀ home h pa, entOp e = 1 → q.state ≠ 2 → s.semHome q.world va true consume = .ok home h pa →
        sent (.queueWait k) (.swait x ((condOf (entFlags e % 16)).getD .eq) consume) [] true h { busy with state := 2 })
    ∧ (∀ home h pa, entOp e = 2 → s.semHome q.world va true true = .ok home h pa → sent (.signal k) (.ssig x) q.awaited false h (freed busy))
    ∧ (∀ home h pa, entOp e = 3 → s.semHome q.world va false true = .ok home h pa → sent (.queueSet k) (.sset x) [] false h (freed busy))
    ∧ (∀ sem, named sem → (entOp e = 5 → copied (.copy k) .plain (entA e) (entB e) (entC e % 2 ^ 32) sem [])
        ∧ (entOp e = 6 → copied (.fill k) (.fill x) (entA e) (entA e) (entB e) sem []))
    ∧ (entOp e = 7 → let v := entC e % 2 ^ 11
        (q.busy = [] → exec (.irq k) s = .next (({ s with out := s.out ++ [Out.msix q.world v] }).queueNext k))
        ∧ (q.busy ≠ [] → ∃ t, exec (.irq k) s = .next t ∧ t.out = s.out ∧ t.mem = s.mem
            ∧ t.queue? k = some (freed { busy with irqs := q.irqs ++ [(s.nextId, v, q.awaited, s.tb)] })))
    ∧ (entOp e = 8 → (q.busy = [] → ∃ t, exec (.queueFence k) s = .next t ∧ t.mem = s.mem
          ∧ t.queue? k = some { freed q with notBefore := max q.notBefore (s.tb + 1) })
        ∧ (q.busy ≠ [] → exec (.queueFence k) s = .next (s.modQueue k fun x => { x with state := 2 })))
    ∧ (∀ v u, entOp e = 9 → s.slotOpen q.world (entA e) 8 true = some v → v.ioWrite q.world none (entA e) (leBytes s.tb 8) = .ok u →
      exec (.tstamp k) s = .next (u.queueNext k))
    ∧ (entOp e = 9 → s.slotOpen q.world (entA e) 8 true = none → exec (.tstamp k) s = .next s)
    ∧ (entOp e = 4 → (s.jetton j).held = true → (s.jetton j).world = q.world →
        (y.size ≤ (seq - y.ridx).toNat → exec (.launch k) s = .next (s.modQueue k fun x => { x with state := 2 }))
        ∧ (∀ sem, (seq - y.ridx).toNat < y.size → named sem → copied (.launch k) .plain (y.slotVa seq) (entA e) 128 none
            [⟨s.nextId, k, q.ridx - 1, j, n, seq, BitVec.ofNat 64 (y.slotVa seq), (sem.map (·.1)).getD 0⟩]))
    ∧ (entOp e = 4 → (s.jetton j).held = false ∨ (s.jetton j).world ≠ q.world → exec (.launch k) s = .next (s.queueStop k none .capperm true))

/-- R185, R186, R244, R263, R387, R398: doorbells of the functions that own the world, posted writes and reads, which take their
place in their function's order and act from there, and host atomics on shared words with a home; of a frozen or disabled
function, and for any other atomic that translates, nothing but Unsupported; an atomic that its page refuses freezes the
function as well. Where the spec leaves a point open, what this says of it is the model's choice: notes/assumptions/75.md,
notes/assumptions/76.md. -/
def Obligations.HostRequestsAct : Prop :=
  ∀ (s : State) (fn j k : Nat) (q : BitVec 2) (widx : BitVec 32) (bar n bits : Nat) (a : W64) (data : List Byte) (x cmp : W64),
    let y := s.jetton j; let w := y.qs[q.toNat]'q.isLt
    let no : Host.Outcome State Fault Refusal := .next { s with out := s.out ++ [.unsupported fn] }
    let atomics (good : Instr → HomeDo → Prop) : Prop := good (.hostFetchadd fn a bits x) (.aadd (x.setWidth 32) true)
      ∧ good (.hostSwap fn a bits x) (.axch (x.setWidth 32)) ∧ good (.hostCas fn a bits cmp x) (.acas (cmp.setWidth 32) (x.setWidth 32))
    (∀ f, s.func? fn = some f →
      (y.state = .free ∨ y.state = .stopped ∨ w.qen = false ∨ (fn ≠ 0 ∧ f.fn = fn ∧ f.world ≠ y.world) → exec (.jettonDoorbell fn j q widx) s = .next s)
      ∧ (f.owns y.world = true → y.state ≠ .free → y.state ≠ .stopped → w.qen = true → ∃ t, exec (.jettonDoorbell fn j q widx) s = .next t
          ∧ t.mem = s.mem ∧ ((t.jetton j).qs[q.toNat]'q.isLt) = { w with widx := widx }
          ∧ (t.jetton j).state = (if y.state = .idle ∧ (t.jetton j).anyPending = true then .ready else y.state))
      ∧ (∀ c, s.queue? k = some c → f.owns c.world = true → exec (.commandQueueDoorbell fn k) s = .next (s.modQueue k fun z => { z with
          polling := false, nextPoll := min z.nextPoll s.tb }))
      ∧ (∀ c, s.queue? k = some c → f.owns c.world = false → exec (.commandQueueDoorbell fn k) s = .next s)
      ∧ (s.posted = [(fn, .read 4 a n)] → ∀ t, s.hostMemRead f a.toNat n = some t → s.hostReads 2 = { t with posted := [] })
      ∧ (s.posted = [(fn, .write bar a data)] → bar ≠ 4 → s.hostWrites = { s.barWrite f bar a.toNat data with posted := [] })
      ∧ (s.posted = [(fn, .write 4 a data)] → ∀ t, s.hostLine f a.toNat data = some (t, true) → s.hostLine f a.toNat (data.take (256 - a.toNat % 256)) = some (t, true) →
          s.hostWrites = { t with posted := replaceWrite t.posted fn none })
      ∧ exec (.hostRead fn bar a n) s = .next { s with posted := s.posted ++ [(fn, .read bar a n)] }
      ∧ exec (.hostWrite fn bar a data) s = .next { s with posted := s.posted ++ [(fn, .write bar a data)] }
      ∧ (bits ≠ 32 ∨ a.toNat % 4 ≠ 0 ∨ 2 ^ 36 < a.toNat + 4 → atomics fun i _ => exec i s = no)
      ∧ (bits = 32 → a.toNat % 4 = 0 → a.toNat + 4 ≤ 2 ^ 36 → ∀ pa e hit home h,
          s.translate f.world a = .ok pa e hit →
          (e.sa = false → atomics fun i _ => ∃ t, exec i s = .next t ∧ t.out = s.out ++ [.unsupported fn] ∧ t.mem = s.mem ∧ t.eng.homes = s.eng.homes)
          ∧ (e.sa = true → e.admits f.world false = false ∨ e.admits f.world true = false → atomics fun i _ => ∃ t, exec i s = .next t
              ∧ t.out = s.out ++ [.unsupported fn] ∧ t.mem = s.mem ∧ t.eng.homes = s.eng.homes ∧ ∀ g ∈ t.funcs, g.fn = f.fn → g.frozen = true)
          ∧ (∀ z, e.sa = true → e.admits f.world false = true → e.admits f.world true = true → homeOfTranslated f.world 2048 pa e = .error z →
              atomics fun i _ => exec i s = no)
          ∧ (e.sa = true → e.admits f.world false = true → e.admits f.world true = true → homeOfTranslated f.world 2048 pa e = .ok (home, h) →
              atomics fun i what => ∃ (t : State) (o : HomeOp), exec i s = .next t ∧ t.out = s.out ∧ t.mem = s.mem
                ∧ t.eng.homes = s.eng.homes ++ [o] ∧ o.asker = .host fn ∧ o.what = what ∧ o.home = home ∧ o.due = s.tb)))
    ∧ (s.func? fn = none → exec (.jettonDoorbell fn j q widx) s = .next s ∧ exec (.commandQueueDoorbell fn k) s = .next s
        ∧ exec (.hostWrite fn bar a data) s = .next s ∧ exec (.hostRead fn bar a n) s = no ∧ atomics fun i _ => exec i s = no)

/-- Ethernet requests become entries; timetable differences switch planes. R402: a SEND, an RDMA WRITE with immediate and a UDP
frame become entries at WIDX, or a NAK, or a counted drop. R383: a timetable difference is applied to the plane not in use, its
status told; only a plane whose digest is NEW and that meets R201 becomes active. Where the spec leaves a point open, what this
says of it is the model's choice: notes/assumptions/78.md, notes/assumptions/79.md. -/
def Obligations.RequestsBecomeEntries : Prop :=
  (∀ (s u v : State) (qp : Nat) (r : QPair) (payload header : List Byte) (imm : BitVec 32) (a : W64), getKey s.qpairs qp = some r →
    let x := s.jetton r.jetton; let w := x.qs[r.queue.toNat]'r.queue.isLt
    let send := Instr.roceSend qp payload none; let sendImm := Instr.roceSend qp payload (some imm)
    let write := Instr.roceRdmaWriteWithImmediate qp r.mkey a payload imm
    let nak (i : Instr) (b : Bool) : Prop := exec i s = .next { s with out := s.out ++ [.nak qp b] }
    let entered (i : Instr) (u : State) : Prop := ∃ t, exec i s = .next t ∧ t.mem = u.mem ∧ t.out = s.out ++ [.ack qp]
      ∧ ((t.jetton r.jetton).qs[r.queue.toNat]'r.queue.isLt) = { w with widx := w.widx + 1 } ∧ (t.jetton r.jetton).readyAt = some (x.readyAt.getD (s.tb + 23))
    let lands (s : State) (bs : List Byte) (u : State) : Prop := s.ioWrite x.world none (w.slotVa w.widx) bs = .ok u
    let refused (s : State) (world a : Nat) (bs : List Byte) : Prop := ∃ e, s.ioWrite world none a bs = .error e
    let inRegion := r.base.toNat ≤ a.toNat ∧ a.toNat + payload.length ≤ r.base.toNat + r.length.toNat
    (payload = [] ∨ 128 < payload.length → nak send true ∧ nak sendImm true)
    ∧ (payload ≠ [] → payload.length ≤ 128 →
        (s.queueRoom r.jetton r.queue = false → nak send false ∧ nak sendImm false)
        ∧ (s.queueRoom r.jetton r.queue = true → (lands s (padTo 128 payload) u → entered send u)
            ∧ (lands s (putBytes (padTo 128 payload) 124 (leBytes imm.toNat 4)) u → entered sendImm u)
            ∧ (refused s x.world (w.slotVa w.widx) (padTo 128 payload) → nak send true)))
    ∧ (∀ p, getKey s.qpairs p = none → exec (.roceSend p payload none) s = .next { s with out := s.out ++ [.nak p true] })
    ∧ (∀ key, key ≠ r.mkey → nak (.roceRdmaWriteWithImmediate qp key a payload imm) true)
    ∧ (inRegion → s.queueRoom r.jetton r.queue = true → refused s r.world a.toNat payload → nak write true)
    ∧ (¬ inRegion → nak write true) ∧ (inRegion → s.queueRoom r.jetton r.queue = false → nak write false)
    ∧ (inRegion → s.queueRoom r.jetton r.queue = true → s.ioWrite r.world none a.toNat payload = .ok u →
        lands u (padTo 128 (leBytes imm.toNat 4 ++ leBytes 0 4 ++ leBytes a.toNat 8 ++ leBytes payload.length 4)) v → entered write v)
    ∧ (let f (o n : Nat) : Nat := leNat ((header.drop o).take n); let j := f 4 2 % 2 ^ 14; let q : BitVec 2 := BitVec.ofNat 2 (f 4 2 / 2 ^ 14)
       let y := s.jetton j; let z := y.qs[q.toNat]'q.isLt; let seq : BitVec 32 := BitVec.ofNat 32 (f 6 4)
       let good := header.length = 16 ∧ payload.length = 128 ∧ f 0 2 = 0x4857 ∧ f 2 1 = 1 ∧ header.drop 10 = s.frameCheck y.world header payload
         ∧ serialLT (y.udpSeq[q.toNat]'q.isLt) seq = true ∧ s.queueRoom j q = true
       (¬ good ∨ refused s y.world (z.slotVa z.widx) (padTo 128 payload) → exec (.udpRequestFrame header payload) s = .next { s with udpDrops := s.udpDrops + 1 })
       ∧ (good → s.ioWrite y.world none (z.slotVa z.widx) (padTo 128 payload) = .ok u → ∃ t, exec (.udpRequestFrame header payload) s = .next t
           ∧ t.mem = u.mem ∧ ((t.jetton j).qs[q.toNat]'q.isLt) = { z with widx := z.widx + 1 } ∧ (t.jetton j).udpSeq[q.toNat]'q.isLt = seq
           ∧ t.udpDrops = s.udpDrops)))
  ∧ (∀ (s : State) (tth : BitVec 16) (base new raw : List Byte) (es : List DiffEntry) (img old : Timetable) (h : Handle),
    let i := Instr.timetableDifference tth base new es img
    let tells (d : DiffStatus) : Prop := exec i s = .next { s with out := s.out ++ [.status tth d] }
    let result := es.foldl (fun (b : List Byte) (e : DiffEntry) => putBytes (padTo e.off b) e.off e.bytes) raw
    (s.handle? tth = none → tells .base) ∧ (s.handle? tth = some h → (if h.active then h.b else h.a) = none → tells .base)
    ∧ (s.handle? tth = some h → (if h.active then h.b else h.a) = some (old, raw) →
        (shake256 raw ≠ base → tells .base) ∧ (shake256 raw = base → s.planeBusy tth (!h.active) = true → tells .busy)
        ∧ (shake256 raw = base → s.planeBusy tth (!h.active) = false → (shake256 result ≠ new ∨ timetableOk img = false) → tells .rollback)
        ∧ (shake256 raw = base → s.planeBusy tth (!h.active) = false → shake256 result = new → timetableOk img = true → ∃ t, exec i s = .next t
            ∧ t.out = s.out ++ [.status tth .ok] ∧ t.mem = s.mem ∧ ∃ g, t.handle? tth = some g ∧ g.active = !h.active
              ∧ (if g.active then g.b else g.a) = some (img, result) ∧ (if h.active then g.b else g.a) = some (old, raw))))

/-- Worlds are made, granted and reset step by step. R352, R390 to R392: CREATE, DESTROY, GRANT and REVOKE: done, or refused with a
status and nothing changed but the response; and what the response holds, with vector 0 of the function where it is enabled.
R352, R353, R354, R359: each step of an FLR in its cycle: admission stops; every master freezes; no translation and no root
capability is held; no line verifies under the world's keys; the world's cores scrub, and a scan still under way is awaited; the
derived state of a confidential world and the key-store slot are cleared; what the world held goes back, and a DESTROY is
answered. Where the spec leaves a point open, what this says of it is the model's choice: notes/assumptions/61.md,
notes/assumptions/62.md, notes/assumptions/65.md. -/
def Obligations.WorldsAreMadeAndReset : Prop :=
  (∀ (s : State) (p : PCmd), let w := p.world.toNat; let kind := p.kind.toNat; let lo := p.a.toNat; let n := p.b.toNat
    let refuses (i : Instr) (st : Nat) : Prop := exec i s = .next (s.respond p st 0)
    let plain := p.a = 0 ∧ p.b = 0 ∧ p.c = 0 ∧ p.kind = 0
    let makes := w ≤ 257 ∧ lo < 32 ∧ p.b = 0 ∧ p.c = 0 ∧ p.kind = 0
    let named := (kind = 3 ∨ kind = 7 ∨ kind = 8 ∨ kind = 9 ∨ kind = 11 ∨ (kind = 10 ∧ 1 ≤ lo)) ∧ n ≠ 0 ∧ p.c = 0
      ∧ lo + n ≤ (if kind = 10 then 256 else kindTotal kind)
    let item (i : Nat) : Prop := lo ≤ i ∧ i < lo + n
    (p.fn ≠ 0 → refuses (.create p) 7 ∧ refuses (.destroy p) 7 ∧ refuses (.grant p) 7 ∧ refuses (.revoke p) 7)
    ∧ (p.fn = 0 → ¬ makes → refuses (.create p) 5) ∧ (p.fn = 0 → makes → s.world? w ≠ none → refuses (.create p) 1)
    ∧ (p.fn = 0 → makes → s.world? w = none → ∃ (u : State) (x : World), exec (.create p) s = .next (u.respond p 0 0)
        ∧ u = { s with worlds := u.worlds, nextId := s.nextId + 1 } ∧ u.world? w = some x ∧ x.conf = p.a.getLsbD 0 ∧ x.dbgen = p.a.getLsbD 1
        ∧ x.scopemax.toNat = min (lo / 4 % 8) 5 ∧ x.keyed = true ∧ x.keyGen = s.nextId ∧ x.frames = [] ∧ x.ranges = Vector.replicate 16 0
        ∧ x.ptroot = 0 ∧ x.dirtyen = false ∧ ∀ v, v ≠ w → u.world? v = s.world? v)
    ∧ (p.fn = 0 → s.world? w = none → refuses (.destroy p) 2 ∧ refuses (.grant p) 2 ∧ refuses (.revoke p) 2)
    ∧ (∀ x, p.fn = 0 → s.world? w = some x →
      (256 ≤ w ∨ ¬ plain → refuses (.destroy p) 5)
      ∧ (w < 256 → plain → x.flr = none → ∃ t y, exec (.destroy p) s = .next t ∧ t.mem = s.mem ∧ t.world? w = some y ∧ y.destroy = some p
          ∧ y.stopped = true ∧ y.flr = some (2, s.tb + 1) ∧ ∀ j ∈ s.jettonsOf w, (t.jetton j).state = .stopped)
      ∧ (¬ named → refuses (.grant p) 5 ∧ refuses (.revoke p) 5)
      ∧ (named → (∃ i, item i ∧ s.itemWorld kind i ≠ none) → refuses (.grant p) 1)
      ∧ (named → (∀ i, item i → s.itemWorld kind i = none) → kindMax kind < s.amount x kind + n → refuses (.grant p) 6)
      ∧ (named → (∀ i, item i → s.itemWorld kind i = none) → s.amount x kind + n ≤ kindMax kind → ∃ u, exec (.grant p) s = .next ((s.counted u).respond p 0 0)
          ∧ u.mem = s.mem ∧ u.core = s.core ∧ u.worlds = s.worlds ∧ (∀ i, item i → u.itemWorld kind i = some w))
      ∧ (named → (∃ i, item i ∧ s.itemWorld kind i ≠ some w) → refuses (.revoke p) 5)
      ∧ (named → (∀ i, item i → s.itemWorld kind i = some w) → (∃ i, item i ∧ s.itemBusy kind i = true) → refuses (.revoke p) 4)
      ∧ (named → (∀ i, item i → s.itemWorld kind i = some w ∧ s.itemBusy kind i = false) → exec (.revoke p) s = .next ((s.counted
          (((List.range n).map (lo + ·)).foldl (fun (s : State) i => s.takeItem kind i) s)).respond p 0 0)))
    ∧ (∀ st v, (∀ f ∈ s.funcs, f.fn = p.fn → 0 ∉ f.vectors) → let bs := leBytes p.tag.toNat 2 ++ leBytes st 2 ++ List.replicate 4 0 ++ leBytes v 8 ++ List.replicate 48 0
        (s.respond p st v).out = s.out ++ [.response p.fn bs] ∧ (s.respond p st v).mem = s.mem ∧ (s.respond p st v).worlds = s.worlds
        ∧ ∀ f ∈ s.funcs, f.fn = p.fn → { f with response := some bs, held := false } ∈ (s.respond p st v).funcs)
    ∧ (∀ f st v, s.funcs.find? (·.fn == p.fn) = some f → 0 ∈ f.vectors → ∃ bs, (s.respond p st v).out = s.out ++ [.response p.fn bs, .msix f.world 0]))
  ∧ (∀ (s : State) (x : World) (i j : Nat), s.good → let w := x.wid; s.world? w = some x →
    let runs (k : Nat) (f : State → Prop) : Prop := x.flr = some (k, s.tb) → ∃ t, exec (.flr w) s = .next t ∧ f t
    let goes (t : State) (k d : Nat) : Prop := ∃ y, t.world? w = some y ∧ y.flr = some (k, s.tb + d)
    (∀ k c, x.flr = some (k, c) → c ≠ s.tb → exec (.flr w) s = .next s)
    ∧ (x.flr = none → ∃ t y, exec (.flr w) s = .next t ∧ t.mem = s.mem ∧ t.world? w = some y ∧ y.stopped = true ∧ y.flr = some (2, s.tb + 1)
        ∧ (j ∈ s.jettonsOf w → (t.jetton j).state = .stopped))
    ∧ runs 2 (fun t => goes t 3 1 ∧ t.mem = s.mem ∧ (j ∈ s.jettonsOf w → i ∈ s.heldCores j → (t.getCore i).iss.status = .frozen)
        ∧ (∀ c ∈ t.eng.colls, c.world ≠ w) ∧ (∀ h ∈ t.eng.homes, h.world = w → h.acted = true)
        ∧ (∀ c ∈ t.eng.copies, c.world = w → c.state = .landed ∨ c.state = .cancelled) ∧ ∀ f ∈ t.funcs, f.world = w → f.frozen = true)
    ∧ runs 3 (fun t => goes t 4 1 ∧ t.mem = s.mem ∧ (∀ e ∈ t.disp.tlb, e.1 ≠ w) ∧ (j ∈ s.jettonsOf w → (t.jetton j).rtag = false ∧ (t.jetton j).root = .null)
        ∧ ∀ y, t.world? w = some y → y.ranges = Vector.replicate 16 0 ∧ y.ptroot = 0)
    ∧ runs 4 (fun t => goes t 5 1 ∧ (∀ l ∈ t.mem.lines, l.2.world ≠ w) ∧ t.mem.bytes = s.mem.bytes)
    ∧ runs 5 (fun t => t.mem = s.mem ∧ ∃ d, goes t 6 d ∧ d ≤ 5888 ∧ (i ∈ s.coresLast w → let n := scrubTime (s.getCore i).shared
        n ≤ d ∧ (t.getCore i).scrubEnd = some (s.tb + n - 1)))
    ∧ (s.scanAwaited w = true → runs 6 (fun t => goes t 6 1 ∧ t.mem = s.mem ∧ t.core = s.core ∧ t.eng = s.eng ∧ t.disp = s.disp))
    ∧ (s.scanAwaited w = false → runs 6 (fun t => goes t 7 1 ∧ t.mem = s.mem ∧ (∀ y, t.world? w = some y → y.keyed = false ∧ y.keyGen = s.nextId)
        ∧ (x.conf = true → (∀ c ∈ t.eng.copies, c.world ≠ w) ∧ (i ∈ s.coresLast w → (t.getCore i).vec.dq = [] ∧ (t.getCore i).sys.fcause = 0))))
    ∧ (x.destroy = none → runs 7 (fun t => t.mem = s.mem ∧ (∀ k, (t.jetton k).world = w → (t.jetton k).state = .free) ∧ (∀ q ∈ t.eng.prefixes, q.world ≠ w)
        ∧ (∀ c ∈ t.eng.copies, c.world ≠ w) ∧ t.out = s.out ++ [.flrDone w] ∧ ∀ y, t.world? w = some y → y.frames = [] ∧ y.flr = none))
    ∧ (∀ p, x.destroy = some p → runs 7 (fun t => t.mem = s.mem ∧ t.world? w = none ∧ (∀ f ∈ t.funcs, f.fn = p.fn → f.held = false)
        ∧ ∃ bs, .response p.fn bs ∈ t.out)))

/-- R389, R393 to R397, R185, R241, R250: RESIZE, BWSET, INSTALL, INVAL, QUERY, QCTL and ROOT: their effect, or a status with
nothing changed but the response. INSTALL's effect is State.installed, of which the clauses for a timetable and a range entry
say what it is. Where the spec leaves a point open, what this says of it is the model's choice: notes/assumptions/40.md,
notes/assumptions/62.md, notes/assumptions/107.md. -/
def Obligations.WorldsAreConfigured : Prop :=
  ∀ (s : State) (p : PCmd) (fs : List W64) (mask : BitVec 1024) (r : InstallRec) (cap : BitVec 128) (x : World),
    let kind := p.kind.toNat; let a := p.a.toNat; let w := p.world.toNat; let mine := s.cmdWorld p; let j := s.jetton a
    let refuses (i : Instr) (st : Nat) : Prop := exec i s = .next (s.respond p st 0)
    let done (i : Instr) (u : State) (v : Nat) : Prop := exec i s = .next (u.respond p 0 v)
    let plain := p.a = 0 ∧ p.b = 0 ∧ p.c = 0
    let room := s.freeAmount kind + s.amount x kind
    let shared (k : Nat) : Prop := ∃ y ∈ s.worlds, ∃ c < 4, ¬ (y.wid = x.wid ∧ c = a) ∧ (y.classSlots (kind == 6) c).getLsbD k = true
    (p.fn ≠ 0 → refuses (.resize p fs) 7 ∧ refuses (.bwset p mask) 7 ∧ refuses (.root p cap) 7)
    ∧ (s.world? mine = none → refuses (.install p r) 2 ∧ refuses (.inval p) 2 ∧ refuses (.query p) 2
        ∧ (p.b.getLsbD 1 = false → refuses (.qctlEnable p) 2) ∧ (p.b.getLsbD 1 = true → refuses (.qctlReset p) 2))
    ∧ (p.fn = 0 → s.world? w = some x → p.c = 0 →
      (kind = 1 ∨ kind = 2 → (1024 < a → refuses (.resize p fs) 6) ∧ (a ≤ 1024 → room < a → refuses (.resize p fs) 3)
        ∧ (a ≤ 1024 → a ≤ room → done (.resize p fs) (s.counted (s.modWorld w fun y =>
            if kind == 1 then { y with capPrompt := a } else { y with capToken := a })) 0))
      ∧ (kind = 5 → (896 < a → refuses (.resize p fs) 6) ∧ (a ≤ 896 → room < a → refuses (.resize p fs) 3)
        ∧ (a ≤ 896 → a ≤ room → a < maskCount (x.slots false) → refuses (.resize p fs) 4)
        ∧ (a ≤ 896 → a ≤ room → maskCount (x.slots false) ≤ a → done (.resize p fs) (s.counted (s.modWorld w fun y => { y with slotAmount := a })) 0))
      ∧ (kind = 4 → p.b = 1 → let q := s.prefix_ x.wid
        (2 ^ 22 ≤ a → refuses (.resize p fs) 6) ∧ (a < 2 ^ 22 → (∃ z ∈ q.slots, a ≤ z.1 ∧ z.2.alloc = true) → refuses (.resize p fs) 4)
        ∧ (a < 2 ^ 22 → (∀ z ∈ q.slots, a ≤ z.1 → z.2.alloc = false) → a = 0 ∨ inFrames x.frames (q.slotPa 0) (16384 * a) = true →
            done (.resize p fs) (s.counted (s.setPrefix { q with quota := a })) 0))
      ∧ (kind = 4 → p.b ≠ 1 → a ≤ 507904 → fs = [] → x.frames.length ≤ a → ∀ new, s.lowFrames (a - x.frames.length) s.framesUsed [] = some new →
          done (.resize p fs) (s.counted (s.modWorld w fun y => { y with frames := sortBy (fun f => f) (y.frames ++ new) })) 0)
      ∧ (kind = 4 → p.b ≠ 1 → a ≤ 507904 → fs ≠ [] → a = fs.length ∨ a + fs.length = x.frames.length →
          ((∃ f ∈ fs, f.toNat ∉ x.frames ∨ (s.prefix_ w).uses f.toNat = true) → refuses (.resize p fs) 4)
          ∧ ((∀ f ∈ fs, f.toNat ∈ x.frames ∧ (s.prefix_ w).uses f.toNat = false) → done (.resize p fs) (s.counted (s.releaseFrames w (fs.map (·.toNat)))) 0))
      ∧ ((kind = 5 ∨ kind = 6) → a < 4 → ((∃ k < 1024, mask.getLsbD k = true ∧ (shared k ∨ reservedSlot (kind == 6) k = true)) → refuses (.bwset p mask) 4)
        ∧ ((∀ k < 1024, mask.getLsbD k = true → ¬ shared k ∧ reservedSlot (kind == 6) k = false) → done (.bwset p mask) (s.counted (s.modWorld w fun y =>
            { y with newSlots := y.newSlots ++ [((s.tb / 1024 + 1) * 1024, kind == 6, BitVec.ofNat 2 a, mask)] })) 0))
      ∧ (a < 16384 → p.kind = 0 → s.itemWorld 3 a = some w →
          (natBits cap.toNat 119 9 ≠ w → refuses (.root p cap) 5)
          ∧ (natBits cap.toNat 119 9 = w → j.state ≠ .free ∧ j.state ≠ .idle → refuses (.root p cap) 4)
          ∧ (natBits cap.toNat 119 9 = w → j.state = .free ∨ j.state = .idle → done (.root p cap) (s.setJetton a { j with
              root := ⟨cap.setWidth 64, cap.extractLsb' 64 64, true⟩, rtag := true }) 0)))
    ∧ (s.world? mine = some x →
      (p.c = 0 → (∀ u, s.installed x kind a r = some u → done (.install p r) u 0) ∧ (s.installed x kind a r = none → refuses (.install p r) 5))
      ∧ (p.kind = 0 → plain → done (.inval p) (s.modDisp fun d => { d with tlb := d.tlb.filter fun e => e.1 != x.wid }) 0)
      ∧ (plain → 1 ≤ kind → kind ≤ 11 → done (.query p) s (s.amount x kind)) ∧ (kind = 0 ∨ 11 < kind → refuses (.query p) 5)
      ∧ (∀ q, getKey s.eng.queues a = some q → q.held = true → q.world = x.wid → p.b.toNat < 4 → p.c = 0 → p.kind = 0 →
          let en := p.b.getLsbD 0
          let set (i : Instr) (y : CmdQueue) : Prop := done i (s.modEng fun e => { e with queues := setKey e.queues a { y with
            nextPoll := s.tb, polling := false, qen := en, state := if en ∧ y.state = 0 then 1 else y.state } }) 0
          (p.b.getLsbD 1 = false → set (.qctlEnable p) q)
          ∧ (p.b.getLsbD 1 = true → q.state = 4 → refuses (.qctlReset p) 4)
          ∧ (p.b.getLsbD 1 = true → q.state ≠ 4 → set (.qctlReset p) { q with
              ridx := 0, errc := 0, state := 0, entry := none, holdXlate := false, faulted := false })))
    ∧ (∀ b : List Byte, b.length = 24 → ∀ h : a < 16, rangeOk x (BitVec.ofNat 192 (leNat b)) = true → s.installed x 4 a (.bytes b) =
        some (s.modWorld x.wid fun y => { y with ranges := y.ranges.set a (BitVec.ofNat 192 (leNat b) &&& rangeBits) h }))
    ∧ (∀ t raw, s.itemWorld 9 a = some x.wid → timetableOk t = true → ∃ u h, s.installed x 1 a (.timetable t raw) = some u ∧ h ∈ u.disp.handles
        ∧ h.tth = BitVec.ofNat 16 a ∧ h.a = some (t, raw) ∧ h.b = none ∧ h.active = false ∧ u.mem = s.mem)

/-- R390, R405, R406: the steps of a migration, each after the one before: attested, tracked and copied, dirty granules copied,
sealed once every jetton has stopped, prefix slots, keys, and the jettons and queues given up. Where the spec leaves a point
open, what this says of it is the model's choice: notes/assumptions/72.md. -/
def Obligations.MigrationsStep : Prop :=
  ∀ (s : State) (p : PCmd) (ok : Bool) (verified : List Nat) (x : World), let w := p.world.toNat; let k := p.a.toNat
    let refuses (i : Instr) (st : Nat) : Prop := exec i s = .next (s.respond p st 0)
    let done (i : Instr) (f : State → Nat → Prop) : Prop := ∃ u v, exec i s = .next (u.respond p 0 v) ∧ f u v
    let at_ (u : State) (k : Nat) : Prop := ∃ y, u.world? w = some y ∧ y.migStep = k
    let base := x.dirtybase.toNat / 0x200000 * 0x200000
    let inMap (a : Nat) : Prop := base ≤ a ∧ a < base + 0x200000
    (p.fn ≠ 0 → refuses (.migrateAttest p ok) 7 ∧ refuses (.migrateTrack p) 7 ∧ refuses (.migratePass p) 7 ∧ refuses (.migrateSeal p) 7
      ∧ refuses (.migratePrefix p verified) 7 ∧ refuses (.migrateKeys p) 7 ∧ refuses (.migrateResume p) 7)
    ∧ (p.fn = 0 → s.world? w = some x → p.c = 0 → p.kind = 0 →
      (k = 1 → (ok = false → refuses (.migrateAttest p ok) 5) ∧ (ok = true → done (.migrateAttest p ok) fun u v => v = 0 ∧ at_ u 1 ∧ u.mem = s.mem))
      ∧ (k = 2 → (x.migStep ≠ 1 → refuses (.migrateTrack p) 4) ∧ (x.migStep = 1 → done (.migrateTrack p) fun u v => v = 0 ∧ at_ u 2
          ∧ (∀ y, u.world? w = some y → y.dirtyen = true) ∧ (∀ b ∈ u.mem.bytes, ¬ inMap b.1)
          ∧ ∀ f ∈ x.frames, ∀ n < 32, Out.granule w (f + 0x10000 * n) 0 ∈ u.out))
      ∧ (k = 3 → (x.migStep ≠ 2 ∧ x.migStep ≠ 3 → refuses (.migratePass p) 4) ∧ (x.migStep = 2 ∨ x.migStep = 3 → done (.migratePass p) fun u v =>
          at_ u 3 ∧ (∀ b ∈ u.mem.bytes, ¬ inMap b.1) ∧ u.out.length = s.out.length + v
          ∧ ∀ a b n, (a, b) ∈ s.mem.bytes → inMap a → n < 8 → b.getLsbD n = true →
              Out.granule w (hbmBase + 0x10000 * (8 * (a - base) + n)) (x.migPass + 1) ∈ u.out))
      ∧ (k = 4 → x.migStep ≠ 3 → refuses (.migrateSeal p) 4) ∧ (k = 5 → x.migStep ≠ 4 → refuses (.migratePrefix p verified) 4)
      ∧ (k = 6 → x.migStep ≠ 5 → refuses (.migrateKeys p) 4) ∧ (k = 7 → x.migStep ≠ 6 → refuses (.migrateResume p) 4)
      ∧ (k = 4 → x.migStep = 3 → let rests (y : Jetton) : Prop := y.world = w → y.state ∈ [JState.free, .idle, .ready, .stopped]
          ((∃ j ∈ s.disp.jettons, ¬ rests j.2) → ∃ t y, exec (.migrateSeal p) s = .next t
              ∧ t.mem = s.mem ∧ t.out = s.out ∧ t.world? w = some y ∧ y.stopped = true ∧ y.sealing = some p ∧ y.migStep = 3)
          ∧ ((∀ j ∈ s.disp.jettons, rests j.2) → done (.migrateSeal p) fun u v => at_ u 4 ∧ u.out.length = s.out.length + v ∧ ∀ b ∈ u.mem.bytes, ¬ inMap b.1))
      ∧ (k = 5 → x.migStep = 4 → done (.migratePrefix p verified) fun u v => v = 0 ∧ at_ u 5 ∧ u.mem = s.mem
          ∧ ∀ q ∈ (s.prefix_ w).slots, q.2.idx = true → q.1 ∉ verified → Out.slot w q.1 ∈ u.out)
      ∧ (k = 6 → x.migStep = 5 → done (.migrateKeys p) fun u v => v = 0 ∧ at_ u 6 ∧ u.mem.bytes = s.mem.bytes ∧ (∀ l ∈ u.mem.lines, l.2.world ≠ w)
          ∧ ∀ y, u.world? w = some y → y.keyed = false ∧ y.keyGen = s.nextId)
      ∧ (k = 7 → x.migStep = 6 → done (.migrateResume p) fun u v => v = 0 ∧ at_ u 7 ∧ u.mem = s.mem
          ∧ (∀ j, (s.jetton j).world = w → (s.jetton j).state = .stopped → (u.jetton j).state = .free ∧ (u.jetton j).held = (s.jetton j).held)
          ∧ ∀ i q, getKey s.eng.queues i = some q → q.held = true → q.world = w →
              getKey u.eng.queues i = some { CmdQueue.reset with held := true, world := w }))

/-- R356 to R360, Table 16.3: the transitions of a scan. HOLD, START and RELEASE write CMD; at the end of the cycle the highest row
that fits the block's state acts: HOLD takes a free core, the abort condition ends DRAIN or RUN, START and RELEASE act from
their states alone. RUN begins once nothing is on its way to the window, and ends in SCRUB or FAIL by the signature, whose value
no rule gives. Where the spec leaves a point open, what this says of it is the model's choice: notes/assumptions/81.md. -/
def Obligations.ScansGoRound : Prop :=
  ∀ (s : State) (i : Nat), let x := s.scan i
    let sets (e : Instr) (z : Scan) : Prop := exec e s = .next (s.setScan i z)
    sets (.scanHold i) { x with cmd := 1, cmds := x.cmds ++ [1] } ∧ sets (.scanStart i) { x with cmd := 2, cmds := x.cmds ++ [2] }
    ∧ sets (.scanRelease i) { x with cmd := 3, cmds := x.cmds ++ [3] }
    ∧ (∀ z, s.disp.scans = [(i, z)] → z.cmds ≠ [] ∨ z.abort = true → s.scanTurns = s.setScan i (z.turn (s.holdable i) s.tb))
    ∧ (∀ (z : Scan) (free : Bool), let y : Scan := { z with cmds := [], abort := false }; let t := z.turn free s.tb
        (z.state = 0 → 1 ∈ z.cmds → free = true → t = { y with state := 1, ab := false, elapsed := 0 })
        ∧ (z.state = 0 → 1 ∉ z.cmds ∨ free = false → t = y)
        ∧ (z.state = 1 → 2 ∈ z.cmds → t = { y with state := 2 }) ∧ (z.state = 1 → 2 ∉ z.cmds → 3 ∈ z.cmds → t = { y with state := 0 })
        ∧ (z.state = 1 → 2 ∉ z.cmds → 3 ∉ z.cmds → t = y)
        ∧ (z.state = 2 → t = if z.abort then { y with state := 0, ab := true } else y)
        ∧ (z.state = 3 → t = if z.abort then { y with
            state := 4, ab := true, elapsed := BitVec.ofNat 32 (170000 - min 170000 (z.until_ - s.tb)), until_ := s.tb + 5888 } else y)
        ∧ (z.state = 5 → t = if 3 ∈ z.cmds then { y with state := 0 } else y) ∧ (z.state = 4 ∨ z.state = 6 → t = y))
    ∧ (x.state = 2 → s.beatFor i = false → sets (.scanDrainEnd i) { x with state := 3, until_ := s.tb + 170000 })
    ∧ (x.state = 3 → x.until_ = s.tb → let sig := Config.scanSignature s.free
        (sig = x.ssigx → ∃ t, exec (.scanRunEnd i) s = .next t ∧ t.mem = s.mem
          ∧ t.scan i = { x with ssiga := sig, elapsed := 170000, state := 4, until_ := s.tb + 5888 })
        ∧ (sig ≠ x.ssigx → ∃ t, exec (.scanRunEnd i) s = .next t ∧ t.scan i = { x with ssiga := sig, elapsed := 170000, state := 6 }))
    ∧ (x.state = 4 → x.until_ = s.tb → ∃ t, exec (.scanScrubEnd i) s = .next t ∧ t.scan i = { x with state := if x.ab then 0 else 5 }
        ∧ (t.getCore i).owner = none ∧ ∀ b ∈ t.mem.bytes, ¬ (coreBase i ≤ b.1 ∧ b.1 < coreBase i + 0x72000))
    ∧ (x.state ≠ 2 → exec (.scanDrainEnd i) s = .next s) ∧ (x.state ≠ 3 → exec (.scanRunEnd i) s = .next s) ∧ (x.state ≠ 4 → exec (.scanScrubEnd i) s = .next s)
    ∧ (∀ die : BitVec 4, i / 256 = die.toNat → ∃ t, exec (.dieReset die) s = .next t ∧ (∀ z ∈ t.disp.scans, z.1 / 256 ≠ die.toNat)
        ∧ (t.scan i).state = 0 ∧ ∀ z ∈ s.disp.scans, z.1 / 256 ≠ die.toNat → z ∈ t.disp.scans)

/-- Power, heat, ports, firmware images and reports. R367, R415, R416, R419, R420: power and heat hold selection and free it;
sensors; a trip, a thermal reset and a power-up leave the reset state, with what the outside world has sent and been told, and
the cores that passed; ports replay and retrain. R407, R408: an image loads, extends a measurement and starts the 16 processors,
or leaves the running one with status 5; reports of attestation and the certificate. Which register a load extends, and how a
processor starts, are the model's. Where the spec leaves a point open, what this says of it is the model's choice:
notes/assumptions/41.md, notes/assumptions/82.md, notes/assumptions/83.md. -/
def Obligations.PowerHeatAndImages : Prop :=
  (∀ (s : State) (watts celsius sensor value seq : Nat) (die : BitVec 4) (pass : BitVec 2048) (port : BitVec 5) (up : Bool),
    let mon (f : Monitor → Monitor) : Host.Outcome State Fault Refusal := .next { s with mon := f s.mon }
    let again (i : Instr) (a b : BitVec 1024) : Prop := exec i s = .next ({ State.reset with
      disp := { State.reset.disp with mapPrompt := a, mapToken := b }, inputs := s.inputs, out := s.out, net := s.net, free := s.free })
    exec (.powerCapHold watts) s = mon (fun m => { m with
      powerHold := if m.pcap < watts then true else if 100 * watts ≤ 95 * m.pcap then false else m.powerHold })
    ∧ (105 ≤ celsius → ∃ t, exec (.thermalHold die celsius) s = .next t ∧ t.mon.thermalHold = true ∧ die ∈ t.mon.hot ∧ t.mem = s.mem)
    ∧ (celsius < 100 → ∃ t, exec (.thermalHold die celsius) s = .next t ∧ t.mem = s.mem ∧ (∀ d, d ∈ t.mon.hot ↔ d ∈ s.mon.hot ∧ d ≠ die)
        ∧ t.mon.thermalHold = (if t.mon.hot = [] then false else s.mon.thermalHold))
    ∧ (100 ≤ celsius → celsius < 105 → ∃ t, exec (.thermalHold die celsius) s = .next t ∧ die ∈ t.mon.hot ∧ t.mon.thermalHold = s.mon.thermalHold)
    ∧ exec (.sensorUpdate sensor value) s = mon (fun m => { m with sensors := setKey m.sensors sensor value })
    ∧ again (.powerUp pass) (pass.extractLsb' 0 1024) (pass.extractLsb' 1024 1024)
    ∧ again .coreRegulatorTrip (BitVec.allOnes 1024) (BitVec.allOnes 1024) ∧ again .thermalReset (BitVec.allOnes 1024) (BitVec.allOnes 1024)
    ∧ exec (.flitCrcReplay port seq) s = mon (fun m => { m with replay := setKey m.replay port.toNat seq })
    ∧ (∃ t, exec (.portRetrain port up) s = .next t ∧ t = { s with mon := { s.mon with portsUp := t.mon.portsUp } }
        ∧ ∀ k < 32, t.mon.portsUp.getLsbD k = (if k = port.toNat then up else s.mon.portsUp.getLsbD k)))
  ∧ (∀ (s : State) (hdr body sig nonce : List Byte) (world : BitVec 16), s.good →
    (imageOk hdr body sig = false → exec (.firmwareImageLoad hdr body sig) s = .next { s with out := s.out ++ [.image 5] })
    ∧ (imageOk hdr body sig = true → ∃ t, exec (.firmwareImageLoad hdr body sig) s = .next t ∧ t.out = s.out ++ [.image 0] ∧ t.mon.image = body
        ∧ (∃ k, t.mon.measure = s.mon.measure.setIfInBounds k (shake256 (((s.mon.measure.toList[k]?).getD []) ++ hdr.drop 32)) ∧ k < 4)
        ∧ ∀ p < 16, (t.getCore (2048 + p)).iss.status = .running ∧ (t.getCore (2048 + p)).iss.pc = 0 ∧ (t.getCore (2048 + p)).fw = some Fw.reset)
    ∧ (imageOk hdr body sig = true → hdr.length = 64 ∧ leNat (hdr.take 2) = 0x4657 ∧ Config.verifyImage (hdr ++ body) sig = true
        ∧ shake256 body = hdr.drop 32 ∧ Config.fusedMinimum ≤ leNat ((hdr.drop 4).take 4))
    ∧ (∃ b : List Byte, exec (.attestationRequest nonce world) s = .next { s with out := s.out ++ [.report (b ++ Config.signReport b)] }
        ∧ b.take 4 = [0x54, 0x41, 1, 0] ∧ (nonce.length = 32 → (b.drop 4).take 32 = nonce)
        ∧ (s.world? world.toNat = none → (b.drop 164).take 2 = [0xFF, 0xFF]))
    ∧ exec .certificateRequest s = .next { s with out := s.out ++ [.report Config.certificate] })

/-- R180, R185, R235, R239, R290, R293, R328, R356, R403, R415: the scheduler's services: a serviced XLATE lets a parked copy
compete again from this cycle, a saved one with its resume; the core maps, PCAP, DIRTYEN, PTROOT and a scan's SSIGX and SCTL
written by name; a plug-in's call that is 4,096 cycles old ends with OVERRUN. Where the spec leaves a point open, what this says
of it is the model's choice: notes/assumptions/84.md, notes/assumptions/86.md, notes/assumptions/103.md. -/
def Obligations.ServicesAct : Prop :=
  ∀ (s : State) (w : Nat) (va : W64) (v : BitVec 256) (c : Copy) (token : Bool) (idx : BitVec 10) (k : Nat) (f : Fw),
    (s.disp.xlates = [⟨w, va, .copy c.id⟩] → s.copy? c.id = some c → c.state = .parked →
        ∃ t, exec (.xlateService w va true) s = .next t ∧ t.mem = s.mem ∧ t.disp.xlates = []
          ∧ t.copy? c.id = some { c with time := if c.saved then c.time else s.tb })
    ∧ ((∀ x ∈ s.disp.xlates, ¬ (x.world = w ∧ x.va = va)) → ∀ b, exec (.xlateService w va b) s = .next s)
    ∧ (∃ t, exec (.registerWrite (.coreMap token idx) v) s = .next t ∧ t.mem = s.mem ∧ t.core = s.core
        ∧ ∀ i, i < 1024 → (if token then t.disp.mapToken else t.disp.mapPrompt).getLsbD i
            = (if i = idx.toNat then v.getLsbD 0 else (if token then s.disp.mapToken else s.disp.mapPrompt).getLsbD i)
          ∧ (if token then t.disp.mapPrompt = s.disp.mapPrompt else t.disp.mapToken = s.disp.mapToken))
    ∧ exec (.registerWrite .pcap v) s = .next (if 1000 ≤ v.toNat ∧ v.toNat ≤ 4500 then { s with mon := { s.mon with pcap := v.toNat } } else s)
    ∧ exec (.registerWrite (.world w .dirtyen) v) s = .next (s.modWorld w fun x => { x with dirtyen := v.getLsbD 0 })
    ∧ exec (.registerWrite (.world w .ptroot) v) s = .next (s.modWorld w fun x => { x with ptroot := v.setWidth 64 })
    ∧ exec (.registerWrite (.ssigx k) v) s = .next (s.setScan k { s.scan k with ssigx := v.setWidth 64 })
    ∧ (let x := s.scan k; exec (.registerWrite (.sctl k) v) s = .next ((s.setScan k { x with aprio := v.extractLsb' 9 3, apen := v.getLsbD 8 }).setScan k
        { x with aprio := v.extractLsb' 9 3, apen := v.getLsbD 8, cmd := v.setWidth 3, cmds := x.cmds ++ [v.setWidth 3] }))
    ∧ (let p := s.getCore (2048 + k); p.fw = some f → p.iss.status = .running →
        (f.callStart + 4096 ≤ s.tb → f.level = .plugin → ∃ t, exec (.pluginCallTimeout k) s = .next t ∧ t.mem = s.mem
          ∧ (t.getCore (2048 + k)).sys.fcause = 0x0E ∧ (t.getCore (2048 + k)).iss.next = s.tb + 1
          ∧ (t.getCore (2048 + k)).iss.pc = (match f.calls with | r :: _ => r.2 | [] => f.entryScheduler))
        ∧ (s.tb < f.callStart + 4096 → exec (.pluginCallTimeout k) s = .next s))

/-- The values the spec gives for reset (Tables 1.2, 1.5, 8.2, 10.3, 15.2, 16.1, R415, R418, R419), and that the state is good. A
register that the spec gives no reset value holds the value notes/assumptions/2.md names. -/
def Obligations.ResetHoldsItsValues : Prop :=
  let s := State.reset; let c := s.core
  s.good ∧ s.tb = 0 ∧ s.mem.bytes = [] ∧ s.mem.captags = [] ∧ s.mon.pcap = 4500 ∧ s.mon.powerHold = false ∧ s.disp.jettons = []
  ∧ (∀ n : Fin 32, c.ctl.s[n] = 0) ∧ (∀ n : Fin 16, c.ctl.c[n] = Cap.null) ∧ c.ctl.k = 1 ∧ c.vec.m[0] = BitVec.allOnes 64
  ∧ (∀ n : Fin 8, n ≠ 0 → c.vec.m[n] = 0) ∧ c.sys.fcause = 0 ∧ c.sys.vmode = 0 ∧ c.sys.evmask = 0 ∧ c.iss.status = .free ∧ c.iss.pc = 0
  ∧ (∀ j, (s.jetton j).state = .free) ∧ (∀ i, (s.scan i).state = 0 ∧ (s.scan i).aprio = 7 ∧ (s.scan i).apen = false)
  ∧ (∀ w, w = 256 ∨ w = 257 ↔ s.world? w ≠ none)

/-- Tables 3.6, 4.2, 5.2, 6.3: words written out bit by bit from their encodings are the instructions they stand for; a reserved
field, an unassigned function and a register that its class lacks are none. -/
def Obligations.WordsDecode : Prop :=
  let st : Stp := ⟨0xFFE, 1⟩
  decode 0x033A12600000 = .ok (.divs 7 8 9) ∧ decode 0x082008456789 = .ok (.movhi 4 0x456789) ∧ decode 0x040886400000 = .ok (.cmp 1 2 3 .lt)
  ∧ decode 0x203000FFFFFD = .ok (.b 1 true 0xFFFFFD) ∧ decode 0x103130000040 = .ok (.ld 6 2 .b8 0x40) ∧ decode 0x123120FFFFF8 = .ok (.st 6 2 .b4 0xFFFFF8)
  ∧ decode 0x181888000000 = .ok (.cbnd 3 2 4) ∧ decode 0x3C1800800005 = .ok (.srd 3 5) ∧ decode 0x3C0140400012 = .ok (.svc 5 0x12)
  ∧ decode 0x482880200008 = .ok (.rclm 5 2 0 1) ∧ decode 0x4911A0000010 = .ok (.ssig 2 3 .group 0x10) ∧ decode 0x4C0000600003 = .ok (.fence .cluster)
  ∧ decode 0x503429800014 = .ok (.cpy 3 4 5 6 (.rel 20)) ∧ decode 0x5A008A200001 = .ok (.kvlk 2 5 true) ∧ decode 0x5B2086000000 = .ok (.xseq 4 2 3)
  ∧ decode 0xBF0000FFE001 = .ok (.vnop st) ∧ decode 0x3C0000000001 = .error .reservedField ∧ decode 0x040887400000 = .error .reservedCode
  ∧ decode 0x044886400000 = .error .noSuchRegister ∧ decode 0x4C0000600006 = .error .reservedCode

/-- R20, R21, R67, R81, R83, R331, R403: in its turn a column runs the word it fetches: the step is `exec` of the decoded
instruction, the state the one at hand but for the turn taken (and, for a stream, the word being in place). An absent segment
raises SEGMISS with the address; a word that is no instruction, or whose opcode is another column's, ILL; an uncorrectable slot
of a control word UCDATA. A firmware processor fetches 6 bytes at 8 times its word address. Where the spec leaves a point open,
what this says of it is the model's choice: notes/assumptions/113.md. -/
def Obligations.StepRunsTheDecodedWord : Prop :=
  ∀ (s : State) (r : List (Option Col)) (i : Instr) (st : Stream) (col : Col), s.phase = .column →
    (∀ k ∈ s.live, k ≠ s.cur → (s.getCore k).iss.turn = some []) →
    let pc := s.core.iss.pc; let slot (a : Nat) : Nat := codeBase s.cur + 8 * a
    let there (a : Nat) : Prop := a ≤ 0xFFF ∧ ∀ h : a / 256 < 16, s.core.bnd.segs[a / 256].present = true
    let sound (a : Nat) : Prop := there a ∧ s.mem.damaged (slot a) = false
    let reads (w : W48) (k : Option Col) (j : Instr) : Prop := opcodeCol w = k ∧ decode w = .ok j
    let word (a : Nat) : W48 := s.mem.codeWord s.cur a
    let st' : Stream := if st.cyc = 0 then { st with opIssue := s.tb } else st
    let faults (c : Cause) (pc : Nat) (a : Nat) (src : Nat) : Prop := s.mayFault → ∃ t info, step s = .next t
      ∧ t.core.iss.fault = some ⟨c, BitVec.ofNat 12 pc, BitVec.ofNat 64 a, info⟩ ∧ natBits info.toNat 40 4 = src
    (s.core.iss.turn = some (none :: r) → s.breaks = false →
      let u := s.modIss fun x => { x with turn := some r, pass := false }
      (s.core.fw = none → (sound pc → reads (word pc) none i → step s = exec i u)
        ∧ (0xFFF < pc ∨ (sound pc ∧ ∀ j, ¬ reads (word pc) none j) → faults .ill pc 0 0)
        ∧ (∀ h : pc / 256 < 16, s.core.bnd.segs[pc / 256].present = false → faults .segmiss pc pc 0)
        ∧ (there pc → s.mem.damaged (slot pc) = true → faults .ucdata pc (slot pc) 0))
      ∧ (s.core.fw ≠ none → let w := BitVec.ofNat 48 (leNat ((List.range 6).map fun k => s.fwByte (8 * pc + k)))
        (reads w none i → step s = exec i u) ∧ ((∀ j, ¬ reads w none j) → faults .ill pc 0 0)))
    ∧ (s.core.iss.turn = some (some col :: r) → (s.core.col col).run = some st → s.core.fw = none →
      let u (z : Stream) : State := (s.modIss fun x => { x with turn := some r }).modCol col fun c => { c with run := some z }
      (st.cur = some i → step s = exec i (u st'))
      ∧ (st.cur = none → sound st.addr → reads (word st.addr) (some col) i → step s = exec i (u { st' with cur := some i }))
      ∧ (st.cur = none → sound st.addr → (∀ j, ¬ reads (word st.addr) (some col) j) → faults .ill st.addr 0 (colSrc col))
      ∧ (st.cur = none → ∀ h : st.addr / 256 < 16, s.core.bnd.segs[st.addr / 256].present = false → faults .segmiss st.addr st.addr (colSrc col)))

/-- R418: every state has a next one, every instruction answers one, and the timebase moves by 1 as a cycle ends, and in no other
way but by a reset of the package, which begins again at 0. -/
def Obligations.TimeRunsByOne : Prop :=
  ∀ s : State, (∀ i, ∃ t, exec i s = .next t ∧ (t.tb = s.tb ∧ t.phase = s.phase ∨ t.tb = 0 ∧ t.phase = .fate))
    ∧ ∃ t, step s = .next t ∧ (t.tb = s.tb ∨ (t.tb = s.tb + 1 ∧ s.phase = .wait ∧ t.phase = .fate) ∨ t.tb = 0)

/-- R69 to R84: no encoding drops a bit: exactly the words of the instruction set have an encoding, and each decodes from it, at
every value of every operand that the encoding admits. -/
def Obligations.DecodeOfEncode : Prop :=
  (∀ i : Instr, (encode i).isSome = i.isWord) ∧ ∀ (i : Instr) (w : W48), i.wf = true → encode i = some w → decode w = .ok i

/-- R69 to R84, R127: no word but an encoding is taken for an instruction: a 48-bit word that decodes is the encoding of the
instruction it gives, which is well formed; so two different words never give one instruction. -/
def Obligations.EncodeOfDecode : Prop :=
  ∀ (i : Instr) (w : W48), decode w = .ok i → i.wf = true ∧ encode i = some w

/-- Table 1.2, R183, and the form of memory: every step keeps the hard-wired registers as they are wired (k0 is 1, every bit of m0
is 1), each core once, and memory in its canonical form, with no byte listed that reads as an unlisted one. -/
def Obligations.StepKeepsGood : Prop :=
  ∀ s t : State, s.good → step s = .next t → t.good
end

