-- ==== Sys2Proof/Laws/Forms.lean ====
section
/-!
SUPPORT. The fields of a word written from fields are those fields (Tables 3.1 and 3.4), and its opcode is theirs.
-/
namespace Sys2Proof

theorem RForm.of_word (f : RForm) : RForm.of f.word = f := by
  obtain ⟨op, d, a, b, fn, ext⟩ := f
  simp only [RForm.of, RForm.word, RForm.mk.injEq]
  refine ⟨?_, ?_, ?_, ?_, ?_, ?_⟩ <;> apply BitVec.eq_of_getLsbD_eq <;> intro i hi <;>
    rw [BitVec.getLsbD_extractLsb'] <;> (show (_ && @BitVec.getLsbD (8+5+5+5+4+21) _ _) = _) <;>
    simp only [BitVec.getLsbD_append, hi, decide_true, Bool.true_and] <;> split_ifs <;>
    first
    | omega
    | exact congrArg _ (by omega)

theorem RForm.op_word (f : RForm) : f.word.extractLsb' 40 8 = f.op := congrArg RForm.op f.of_word

theorem IForm.of_word (f : IForm) : IForm.of f.word = f := by
  obtain ⟨op, d, a, fn, imm⟩ := f
  simp only [IForm.of, IForm.word, IForm.mk.injEq]
  refine ⟨?_, ?_, ?_, ?_, ?_⟩ <;> apply BitVec.eq_of_getLsbD_eq <;> intro i hi <;>
    rw [BitVec.getLsbD_extractLsb'] <;> (show (_ && @BitVec.getLsbD (8+5+5+6+24) _ _) = _) <;>
    simp only [BitVec.getLsbD_append, hi, decide_true, Bool.true_and] <;> split_ifs <;>
    first
    | omega
    | exact congrArg _ (by omega)

theorem IForm.op_word (f : IForm) : f.word.extractLsb' 40 8 = f.op := congrArg IForm.op f.of_word

theorem MForm.of_word (f : MForm) : MForm.of f.word = f := by
  obtain ⟨op, d, c, size, flags, off⟩ := f
  simp only [MForm.of, MForm.word, MForm.mk.injEq]
  refine ⟨?_, ?_, ?_, ?_, ?_, ?_⟩ <;> apply BitVec.eq_of_getLsbD_eq <;> intro i hi <;>
    rw [BitVec.getLsbD_extractLsb'] <;> (show (_ && @BitVec.getLsbD (8+5+4+3+4+24) _ _) = _) <;>
    simp only [BitVec.getLsbD_append, hi, decide_true, Bool.true_and] <;> split_ifs <;>
    first
    | omega
    | exact congrArg _ (by omega)

theorem MForm.op_word (f : MForm) : f.word.extractLsb' 40 8 = f.op := congrArg MForm.op f.of_word

theorem BForm.of_word (f : BForm) : BForm.of f.word = f := by
  obtain ⟨op, pred, sense, rsv, off⟩ := f
  simp only [BForm.of, BForm.word, BForm.mk.injEq]
  refine ⟨?_, ?_, ?_, ?_, ?_⟩ <;> apply BitVec.eq_of_getLsbD_eq <;> intro i hi <;>
    rw [BitVec.getLsbD_extractLsb'] <;> (show (_ && @BitVec.getLsbD (8+3+1+12+24) _ _) = _) <;>
    simp only [BitVec.getLsbD_append, hi, decide_true, Bool.true_and] <;> split_ifs <;>
    first
    | omega
    | exact congrArg _ (by omega)

theorem BForm.op_word (f : BForm) : f.word.extractLsb' 40 8 = f.op := congrArg BForm.op f.of_word

theorem FForm.of_word (f : FForm) : FForm.of f.word = f := by
  obtain ⟨op, tag, rsv, target⟩ := f
  simp only [FForm.of, FForm.word, FForm.mk.injEq]
  refine ⟨?_, ?_, ?_, ?_⟩ <;> apply BitVec.eq_of_getLsbD_eq <;> intro i hi <;>
    rw [BitVec.getLsbD_extractLsb'] <;> (show (_ && @BitVec.getLsbD (8+16+12+12) _ _) = _) <;>
    simp only [BitVec.getLsbD_append, hi, decide_true, Bool.true_and] <;> split_ifs <;>
    first
    | omega
    | exact congrArg _ (by omega)

theorem FForm.op_word (f : FForm) : f.word.extractLsb' 40 8 = f.op := congrArg FForm.op f.of_word

theorem LForm.of_word (f : LForm) : LForm.of f.word = f := by
  obtain ⟨op, lvl, isReg, count, off⟩ := f
  simp only [LForm.of, LForm.word, LForm.mk.injEq]
  refine ⟨?_, ?_, ?_, ?_, ?_⟩ <;> apply BitVec.eq_of_getLsbD_eq <;> intro i hi <;>
    rw [BitVec.getLsbD_extractLsb'] <;> (show (_ && @BitVec.getLsbD (8+2+1+13+24) _ _) = _) <;>
    simp only [BitVec.getLsbD_append, hi, decide_true, Bool.true_and] <;> split_ifs <;>
    first
    | omega
    | exact congrArg _ (by omega)

theorem LForm.op_word (f : LForm) : f.word.extractLsb' 40 8 = f.op := congrArg LForm.op f.of_word

theorem VForm.of_word (f : VForm) : VForm.of f.word = f := by
  obtain ⟨code, addr, cnt, c, isAbs, time⟩ := f
  simp only [VForm.of, VForm.word, VForm.mk.injEq]
  refine ⟨?_, ?_, ?_, ?_, ?_, ?_⟩ <;> apply BitVec.eq_of_getLsbD_eq <;> intro i hi <;>
    rw [BitVec.getLsbD_extractLsb'] <;> (show (_ && @BitVec.getLsbD (6+8+8+4+1+21) _ _) = _) <;>
    simp only [BitVec.getLsbD_append, hi, decide_true, Bool.true_and] <;> split_ifs <;>
    first
    | omega
    | exact congrArg _ (by omega)

theorem CForm.of_word (f : CForm) : CForm.of f.word = f := by
  obtain ⟨op, a, b, len, card, isAbs, time⟩ := f
  simp only [CForm.of, CForm.word, CForm.mk.injEq]
  refine ⟨?_, ?_, ?_, ?_, ?_, ?_, ?_⟩ <;> apply BitVec.eq_of_getLsbD_eq <;> intro i hi <;>
    rw [BitVec.getLsbD_extractLsb'] <;> (show (_ && @BitVec.getLsbD (8+4+4+5+5+1+21) _ _) = _) <;>
    simp only [BitVec.getLsbD_append, hi, decide_true, Bool.true_and] <;> split_ifs <;>
    first
    | omega
    | exact congrArg _ (by omega)

theorem CForm.op_word (f : CForm) : f.word.extractLsb' 40 8 = f.op := congrArg CForm.op f.of_word

theorem SForm.of_word (f : SForm) : SForm.of f.word = f := by
  obtain ⟨op, opnd, step, rep⟩ := f
  simp only [SForm.of, SForm.word, SForm.mk.injEq]
  refine ⟨?_, ?_, ?_, ?_⟩ <;> apply BitVec.eq_of_getLsbD_eq <;> intro i hi <;>
    rw [BitVec.getLsbD_extractLsb'] <;> (show (_ && @BitVec.getLsbD (8+16+12+12) _ _) = _) <;>
    simp only [BitVec.getLsbD_append, hi, decide_true, Bool.true_and] <;> split_ifs <;>
    first
    | omega
    | exact congrArg _ (by omega)

theorem SForm.op_word (f : SForm) : f.word.extractLsb' 40 8 = f.op := congrArg SForm.op f.of_word

end Sys2Proof
end

