-- ==== Sys2Proof/Laws/Memory.lean ====
section
/-!
SUPPORT. The laws of memory: a read after a write, and that every memory operation keeps the canonical form.
-/
namespace Sys2Proof.Machine

open Sys2Proof

/-! ### Keyed lists -/

theorem cellsWf_mono {lo lo' : Nat} {l : List Host.Cell} (h : cellsWf lo l = true) (hl : lo' ≤ lo) : cellsWf lo' l = true := by
  cases l with
  | nil => rfl
  | cons p r =>
    obtain ⟨a, b⟩ := p
    simp only [cellsWf, Bool.and_eq_true, decide_eq_true_eq, bne_iff_ne, ne_eq] at h ⊢
    exact ⟨⟨by omega, h.1.2⟩, h.2⟩

theorem setKey_cellsWf {l : List Host.Cell} {lo a : Nat} {b : Byte} (h : cellsWf lo l = true) (ha : lo ≤ a)
    (hb : b ≠ unlisted) : cellsWf lo (setKey l a b) = true := by
  induction l generalizing lo with
  | nil => simp [setKey, cellsWf, ha, hb]
  | cons p r ih =>
    obtain ⟨j, y⟩ := p
    simp only [cellsWf, Bool.and_eq_true, decide_eq_true_eq, bne_iff_ne, ne_eq] at h
    simp only [setKey, beq_iff_eq]
    split
    · subst j; simp only [cellsWf, Bool.and_eq_true, decide_eq_true_eq, bne_iff_ne, ne_eq]; exact ⟨⟨ha, hb⟩, h.2⟩
    · split
      · simp only [cellsWf, Bool.and_eq_true, decide_eq_true_eq, bne_iff_ne, ne_eq]
        exact ⟨⟨ha, hb⟩, ⟨by omega, h.1.2⟩, h.2⟩
      · simp only [cellsWf, Bool.and_eq_true, decide_eq_true_eq, bne_iff_ne, ne_eq]
        exact ⟨h.1, ih h.2 (by omega)⟩

theorem delKey_cellsWf {l : List Host.Cell} {lo a : Nat} (h : cellsWf lo l = true) : cellsWf lo (delKey l a) = true := by
  induction l generalizing lo with
  | nil => rfl
  | cons p r ih =>
    obtain ⟨j, y⟩ := p
    have h' := h
    simp only [cellsWf, Bool.and_eq_true, decide_eq_true_eq, bne_iff_ne, ne_eq] at h
    simp only [delKey, beq_iff_eq]
    split
    · exact cellsWf_mono h.2 (by omega)
    · split
      · exact h'
      · simp only [cellsWf, Bool.and_eq_true, decide_eq_true_eq, bne_iff_ne, ne_eq]
        exact ⟨h.1, ih h.2⟩

theorem cellsWf_filter (p : Host.Cell → Bool) {l : List Host.Cell} {lo : Nat} (h : cellsWf lo l = true) :
    cellsWf lo (l.filter p) = true := by
  induction l generalizing lo with
  | nil => rfl
  | cons q r ih =>
    obtain ⟨a, b⟩ := q
    simp only [cellsWf, Bool.and_eq_true] at h
    rw [List.filter_cons]
    split
    · simp only [cellsWf, Bool.and_eq_true]; exact ⟨h.1, ih h.2⟩
    · exact ih (cellsWf_mono h.2 (by have := h.1.1; simp at this; omega))

theorem getKey_setKey {α : Type} (l : List (Nat × α)) (a c : Nat) (x : α) (lo : Nat) (h : keysRise lo l) :
    getKey (setKey l a x) c = if a = c then some x else getKey l c := by
  induction l generalizing lo with
  | nil => by_cases e : a = c <;> simp [setKey, getKey, e]
  | cons p r ih =>
    obtain ⟨j, y⟩ := p
    obtain ⟨_, hr⟩ := h
    simp only [setKey, beq_iff_eq]
    split
    · subst j
      by_cases e : a = c
      · simp [getKey, e]
      · simp [getKey, e]
    · split
      · by_cases e : a = c
        · simp [getKey, e]
        · simp only [getKey, beq_iff_eq, e, if_false]
          split
          · have h1 : j ≠ c := by omega
            have h2 : c < j := by omega
            simp [h1, h2]
          · rfl
      · simp only [getKey, beq_iff_eq, ih _ hr]
        by_cases e : a = c
        · subst c
          have h1 : j ≠ a := by omega
          have h2 : ¬ a < j := by omega
          simp [h1, h2]
        · simp [e]

theorem getKey_none_of_lt {α : Type} {l : List (Nat × α)} {lo a : Nat} (h : keysRise lo l) (ha : a < lo) : getKey l a = none := by
  cases l with
  | nil => rfl
  | cons p r =>
    obtain ⟨j, y⟩ := p
    have h1 : j ≠ a := by have := h.1; omega
    have h2 : a < j := by have := h.1; omega
    simp [getKey, h1, h2]

theorem getKey_delKey {α : Type} (l : List (Nat × α)) (a c : Nat) (lo : Nat) (h : keysRise lo l) :
    getKey (delKey l a) c = if a = c then none else getKey l c := by
  induction l generalizing lo with
  | nil => simp [delKey, getKey]
  | cons p r ih =>
    obtain ⟨j, y⟩ := p
    obtain ⟨_, hr⟩ := h
    simp only [delKey, beq_iff_eq]
    split
    · subst j
      by_cases e : a = c
      · subst c; simp [getKey_none_of_lt hr]
      · simp only [getKey, beq_iff_eq, e, if_false]
        split
        · rw [getKey_none_of_lt hr (by omega)]
        · rfl
    · split
      · by_cases e : a = c
        · subst c; simp [getKey, *]
        · simp [e]
      · simp only [getKey, beq_iff_eq, ih _ hr]
        by_cases e : a = c
        · subst c; simp [*]
        · simp [e]

theorem keysRise_of_cellsWf {l : List Host.Cell} {lo : Nat} (h : cellsWf lo l = true) : keysRise lo l := by
  induction l generalizing lo with
  | nil => trivial
  | cons p r ih =>
    obtain ⟨j, y⟩ := p
    simp only [cellsWf, Bool.and_eq_true, decide_eq_true_eq] at h
    exact ⟨h.1.1, ih h.2⟩

/-! ### One byte -/

theorem Mem.set_wf {m : Mem} (h : m.wf = true) (a : Nat) (b : Byte) : (m.set a b).wf = true := by
  unfold Mem.set putByte Mem.wf
  split
  · exact delKey_cellsWf h
  · rename_i hb
    exact setKey_cellsWf h (by omega) (by simpa using hb)

/-- A byte read after a byte written. -/
theorem Mem.get_set {m : Mem} (h : m.wf = true) (a c : Nat) (b : Byte) : (m.set a b).get c = if a = c then b else m.get c := by
  have hk := keysRise_of_cellsWf h
  unfold Mem.get Mem.set putByte
  by_cases hb : b = unlisted
  · simp only [hb, beq_self_eq_true, if_true, getKey_delKey _ _ _ _ hk]
    split <;> rfl
  · have : (b == unlisted) = false := by simpa using hb
    simp only [this, Bool.false_eq_true, if_false, getKey_setKey _ _ _ _ _ hk]
    split <;> rfl

/-! ### Runs of bytes -/

theorem Mem.write_wf {m : Mem} (h : m.wf = true) (a : Nat) (bs : List Byte) : (m.write a bs).wf = true := by
  induction bs generalizing m a with
  | nil => exact h
  | cons b r ih => exact ih (Mem.set_wf h a b) (a + 1)

/-- A byte read after a run of bytes written. -/
theorem Mem.get_write {m : Mem} (h : m.wf = true) (a c : Nat) (bs : List Byte) :
    (m.write a bs).get c = if a ≤ c ∧ c < a + bs.length then bs.getD (c - a) 0 else m.get c := by
  induction bs generalizing m a with
  | nil => simp only [Mem.write, List.length_nil]; rw [if_neg (by omega)]
  | cons b r ih =>
    simp only [Mem.write, ih (Mem.set_wf h a b), Mem.get_set h, List.length_cons]
    by_cases e : a = c
    · subst c; rw [if_neg (by omega), if_pos (by omega)]; simp
    · by_cases e1 : a + 1 ≤ c ∧ c < a + 1 + r.length
      · rw [if_pos e1, if_pos (by omega)]
        have : c - a = c - (a + 1) + 1 := by omega
        rw [this]; simp
      · rw [if_neg e1, if_neg e, if_neg (by omega)]

/-- Bytes outside the run keep their value. -/
theorem Mem.get_write_out {m : Mem} (h : m.wf = true) {a c : Nat} {bs : List Byte} (hc : c < a ∨ a + bs.length ≤ c) :
    (m.write a bs).get c = m.get c := by
  rw [Mem.get_write h, if_neg (by omega)]

/-- A run read back. -/
theorem Mem.read_write {m : Mem} (h : m.wf = true) (a : Nat) (bs : List Byte) : (m.write a bs).read a bs.length = bs := by
  unfold Mem.read
  apply List.ext_getElem
  · simp
  · intro i h1 h2
    simp only [List.getElem_map, List.getElem_range, Mem.get_write h]
    rw [if_pos (by omega)]
    simp [List.getD_eq_getElem?_getD, h2]

/-! ### The operations over memory keep the form -/

theorem Mem.setWord_wf {m : Mem} (h : m.wf = true) (a : Nat) (w : W32) : (m.setWord a w).wf = true := Mem.write_wf h _ _
theorem Mem.setCodeWord_wf {m : Mem} (h : m.wf = true) (c a : Nat) (w : W48) : (m.setCodeWord c a w).wf = true := Mem.write_wf h _ _
theorem Mem.markPoison_wf {m : Mem} (h : m.wf = true) (u : Nat) : (m.markPoison u).wf = true := h
theorem Mem.clearPoison_wf {m : Mem} (h : m.wf = true) (u : Nat) : (m.clearPoison u).wf = true := by
  unfold Mem.clearPoison; split <;> exact h
theorem Mem.setSeqTag_wf {m : Mem} (h : m.wf = true) (a : Nat) (t : BitVec 16) : (m.setSeqTag a t).wf = true := h
theorem Mem.setCapTag_wf {m : Mem} (h : m.wf = true) (a : Nat) (t : Bool) : (m.setCapTag a t).wf = true := by
  unfold Mem.setCapTag; split
  · exact h
  · split <;> exact h
theorem Mem.untag_wf {m : Mem} (h : m.wf = true) (a n : Nat) : (m.untag a n).wf = true := by
  unfold Mem.untag; split <;> exact h

/-- A fold of operations that keep the form keeps it. -/
theorem Mem.foldl_wf {α : Type} {f : Mem → α → Mem} (hf : ∀ m x, m.wf = true → (f m x).wf = true) :
    ∀ (l : List α) {m : Mem}, m.wf = true → (l.foldl f m).wf = true := by
  intro l
  induction l with
  | nil => intro m h; exact h
  | cons x r ih => intro m h; exact ih (hf m x h)

/-- A change of the marks alone. -/
theorem Mem.lit_wf {m : Mem} (h : m.wf = true) {l : List (Nat × LineMark)} {c : List Nat} {q : List (Nat × BitVec 16)}
    {p u : List Nat} : Mem.wf ⟨m.bytes, l, c, q, p, u⟩ = true := h

theorem Mem.ite_wf {c : Prop} [Decidable c] {m n : Mem} (hm : m.wf = true) (hn : n.wf = true) :
    (if c then m else n).wf = true := by split <;> assumption

theorem Mem.bankWrite_wf {m : Mem} (h : m.wf = true) (b : BankPend) : (m.bankWrite b).wf = true := by
  have h1 := Mem.ite_wf (c := (b.bytes == BitVec.allOnes 128) = true) (Mem.write_wf h b.addr (rowBytes b.row))
    (Mem.foldl_wf (f := fun (m : Mem) i => if b.bytes.getLsbD i then m.set (b.addr + i) (rowByte b.row i) else m)
      (fun m x hm => Mem.ite_wf (Mem.set_wf hm _ _) hm) (List.range 128) h)
  have h2 := Mem.ite_wf (c := (b.bytes == BitVec.allOnes 128) = true) (Mem.clearPoison_wf h1 b.addr) h1
  exact Mem.ite_wf h2 (Mem.foldl_wf (fun m x hm => Mem.ite_wf (Mem.setCapTag_wf hm _ _) hm) _ h2)

theorem Mem.applyTable_wf {m : Mem} (h : m.wf = true) (c : Nat) (d : Dst) : (m.applyTable c d).wf = true := by
  unfold Mem.applyTable; split
  · exact Mem.foldl_wf (fun _ _ hm => Mem.write_wf hm _ _) _ h
  · exact h

end Sys2Proof.Machine
end

