-- ==== Sys2Proof/Laws/Keeps.lean ====
section
/-!
SUPPORT. `Keeps`: the operations on the state's parts keep it good, at the same time and place.
-/
namespace Sys2Proof.Machine

open Sys2Proof

theorem Keeps.refl (s : State) : Keeps s s := ⟨id, .inl ⟨rfl, rfl⟩⟩

theorem Keeps.trans {r s t : State} (h : Keeps r s) (g : Keeps s t) : Keeps r t :=
  ⟨fun x => g.1 (h.1 x), g.2.elim (fun e => h.2.imp (fun f => ⟨e.1.trans f.1, e.2.trans f.2⟩) fun f => ⟨e.1.trans f.1, e.2.trans f.2⟩)
    .inr⟩

/-- Two states that agree in what `Keeps` speaks of. -/
theorem Keeps.same {r s t : State} (h : Keeps r s) (e1 : t.mem = s.mem) (e2 : t.core = s.core) (e3 : t.others = s.others)
    (e4 : t.cur = s.cur) (e5 : t.tb = s.tb) (e6 : t.phase = s.phase) : Keeps r t := by
  refine ⟨fun x => ?_, h.2.imp (fun f => ⟨e5.trans f.1, e6.trans f.2⟩) fun f => ⟨e5.trans f.1, e6.trans f.2⟩⟩
  have := h.1 x
  unfold State.good State.coresOnce at *
  rw [e1, e2, e3, e4]
  exact this

/-- A change of nothing that `Keeps` speaks of. -/
theorem Keeps.lit {r s : State} (h : Keeps r s) {worlds : List World} {disp : Dispatch} {eng : Engines} {funcs : List Func} {qpairs : List (Nat × QPair)} {commsHeld : List (BitVec 16 × Nat)} {handlesHeld : List (BitVec 16 × Nat)} {qpHeld : List (Nat × Nat)} {udpDrops : Nat} {posted : List (Nat × HostReq)} {mon : Monitor} {agenda : List (Nat × Instr)} {inputs : List (Nat × Instr)} {net : List NetMsg} {out : List Out} {free : Nat} {nextId : Nat} :
    Keeps r ⟨s.tb, s.phase, s.cur, s.core, s.others, s.mem, worlds, disp, eng, funcs, qpairs, commsHeld, handlesHeld, qpHeld, udpDrops, posted, mon, agenda, inputs, net, out, free, nextId⟩ :=
  h.same rfl rfl rfl rfl rfl rfl

/-- A change of memory beside. -/
theorem Keeps.litMem {r s : State} {m : Mem} (h : Keeps r s) (hm : s.mem.wf = true → m.wf = true) {worlds : List World} {disp : Dispatch} {eng : Engines} {funcs : List Func} {qpairs : List (Nat × QPair)} {commsHeld : List (BitVec 16 × Nat)} {handlesHeld : List (BitVec 16 × Nat)} {qpHeld : List (Nat × Nat)} {udpDrops : Nat} {posted : List (Nat × HostReq)} {mon : Monitor} {agenda : List (Nat × Instr)} {inputs : List (Nat × Instr)} {net : List NetMsg} {out : List Out} {free : Nat} {nextId : Nat} :
    Keeps r ⟨s.tb, s.phase, s.cur, s.core, s.others, m, worlds, disp, eng, funcs, qpairs, commsHeld, handlesHeld, qpHeld, udpDrops, posted, mon, agenda, inputs, net, out, free, nextId⟩ :=
  ⟨fun x => ⟨hm (h.1 x).1, (h.1 x).2⟩, h.2⟩

/-- An operation that changes memory alone. -/
theorem Keeps.mem {r s : State} (h : Keeps r s) {f : Mem → Mem} (hf : ∀ m, m.wf = true → (f m).wf = true) : Keeps r (s.modMem f) :=
  ⟨fun x => ⟨hf _ (h.1 x).1, (h.1 x).2⟩, h.2⟩

/-- A change of the core in focus. -/
theorem Keeps.modC {r s : State} (h : Keeps r s) {f : Core → Core} (hf : ∀ c, c.wired → (f c).wired) : Keeps r (s.modC f) :=
  ⟨fun x => ⟨(h.1 x).1, (h.1 x).2.1, hf _ (h.1 x).2.2.1, (h.1 x).2.2.2⟩, h.2⟩

theorem Keeps.modIss {r s : State} (h : Keeps r s) {f : Issue → Issue} : Keeps r (s.modIss f) :=
  Keeps.modC (f := fun c => { c with iss := f c.iss }) h fun _ hc => hc
theorem Keeps.modSys {r s : State} (h : Keeps r s) {f : SysRegs → SysRegs} : Keeps r (s.modSys f) :=
  Keeps.modC (f := fun c => { c with sys := f c.sys }) h fun _ hc => hc
theorem Keeps.modBnd {r s : State} (h : Keeps r s) {f : Bound → Bound} : Keeps r (s.modBnd f) :=
  Keeps.modC (f := fun c => { c with bnd := f c.bnd }) h fun _ hc => hc
theorem Keeps.modCtl {r s : State} (h : Keeps r s) {f : CtlRegs → CtlRegs} (hf : ∀ c, c.k.getLsbD 0 = true → (f c).k.getLsbD 0 = true) :
    Keeps r (s.modCtl f) :=
  Keeps.modC (f := fun c => { c with ctl := f c.ctl }) h fun c hc => ⟨hf c.ctl hc.1, hc.2⟩

theorem Keeps.modDisp {r s : State} (h : Keeps r s) {f : Dispatch → Dispatch} : Keeps r (s.modDisp f) :=
  h.same rfl rfl rfl rfl rfl rfl
theorem Keeps.modEng {r s : State} (h : Keeps r s) {f : Engines → Engines} : Keeps r (s.modEng f) :=
  h.same rfl rfl rfl rfl rfl rfl

/-! ### The cores -/

theorem keysRise_mono {α : Type} {lo lo' : Nat} {l : List (Nat × α)} (h : keysRise lo l) (hl : lo' ≤ lo) : keysRise lo' l := by
  cases l with
  | nil => trivial
  | cons p r => exact ⟨Nat.le_trans hl h.1, h.2⟩

theorem setKey_keysRise {α : Type} {l : List (Nat × α)} {lo k : Nat} {x : α} (h : keysRise lo l) (hk : lo ≤ k) :
    keysRise lo (setKey l k x) := by
  induction l generalizing lo with
  | nil => exact ⟨hk, trivial⟩
  | cons p r ih =>
    obtain ⟨j, y⟩ := p
    obtain ⟨h1, h2⟩ := h
    simp only [setKey, beq_iff_eq]
    split
    · subst j; exact ⟨hk, h2⟩
    · split
      · exact ⟨hk, by omega, h2⟩
      · exact ⟨h1, ih h2 (by omega)⟩

theorem delKey_keysRise {α : Type} {l : List (Nat × α)} {lo k : Nat} (h : keysRise lo l) : keysRise lo (delKey l k) := by
  induction l generalizing lo with
  | nil => trivial
  | cons p r ih =>
    obtain ⟨j, y⟩ := p
    obtain ⟨h1, h2⟩ := h
    simp only [delKey, beq_iff_eq]
    split
    · exact keysRise_mono h2 (by omega)
    · split
      · exact ⟨h1, h2⟩
      · exact ⟨h1, ih h2⟩

theorem mem_setKey {α : Type} {l : List (Nat × α)} {k : Nat} {x : α} {p : Nat × α} (h : p ∈ setKey l k x) : p = (k, x) ∨ p ∈ l := by
  induction l with
  | nil => simpa [setKey] using h
  | cons q r ih =>
    obtain ⟨j, y⟩ := q
    simp only [setKey, beq_iff_eq] at h
    split at h
    · simp only [List.mem_cons] at h ⊢; exact h.imp_right Or.inr
    · split at h
      · simpa using h
      · simp only [List.mem_cons] at h ⊢
        rcases h with h | h
        · exact Or.inr (Or.inl h)
        · exact (ih h).imp_right Or.inr

theorem mem_delKey {α : Type} {l : List (Nat × α)} {k : Nat} {p : Nat × α} (h : p ∈ delKey l k) : p ∈ l := by
  induction l with
  | nil => exact h
  | cons q r ih =>
    obtain ⟨j, y⟩ := q
    simp only [delKey, beq_iff_eq] at h
    split at h
    · exact List.mem_cons_of_mem _ h
    · split at h
      · exact h
      · simp only [List.mem_cons] at h ⊢; exact h.imp_right ih

theorem keysRise_key {α : Type} {l : List (Nat × α)} {lo : Nat} (h : keysRise lo l) {p : Nat × α} (hp : p ∈ l) : lo ≤ p.1 := by
  induction l generalizing lo with
  | nil => simp at hp
  | cons q r ih =>
    rcases List.mem_cons.1 hp with rfl | hp
    · exact h.1
    · have := ih h.2 hp; have := h.1; omega

theorem delKey_ne {α : Type} {l : List (Nat × α)} {lo k : Nat} (h : keysRise lo l) {p : Nat × α} (hp : p ∈ delKey l k) : p.1 ≠ k := by
  induction l generalizing lo with
  | nil => simp [delKey] at hp
  | cons q r ih =>
    obtain ⟨j, y⟩ := q
    obtain ⟨h1, h2⟩ := h
    simp only [delKey, beq_iff_eq] at hp
    split at hp
    · have := keysRise_key h2 hp; omega
    · split at hp
      · rcases List.mem_cons.1 hp with rfl | hp
        · simpa using ‹¬ j = k›
        · have := keysRise_key h2 hp; omega
      · rcases List.mem_cons.1 hp with rfl | hp
        · simpa using ‹¬ j = k›
        · exact ih h2 hp

theorem mem_of_getKey {α : Type} {l : List (Nat × α)} {k : Nat} {x : α} (h : getKey l k = some x) : (k, x) ∈ l := by
  induction l with
  | nil => simp [getKey] at h
  | cons q r ih =>
    obtain ⟨j, y⟩ := q
    simp only [getKey, beq_iff_eq] at h
    split at h
    · simp_all
    · split at h
      · simp at h
      · exact List.mem_cons_of_mem _ (ih h)

theorem Core.reset_wired : Core.reset.wired := by
  refine ⟨by decide, ?_⟩
  simp [Core.reset]

theorem State.good.getCore {s : State} (h : s.good) (i : Nat) : (s.getCore i).wired := by
  unfold State.getCore
  split
  · exact h.2.2.1
  · cases e : getKey s.others i with
    | none => exact Core.reset_wired
    | some c => exact h.2.2.2 _ (mem_of_getKey e)

theorem Keeps.setCore {r s : State} (h : Keeps r s) (i : Nat) {c : Core} (hc : s.good → c.wired) : Keeps r (s.setCore i c) := by
  unfold State.setCore
  split
  · exact ⟨fun x => ⟨(h.1 x).1, (h.1 x).2.1, hc (h.1 x), (h.1 x).2.2.2⟩, h.2⟩
  · rename_i hi
    refine ⟨fun x => ?_, h.2⟩
    obtain ⟨h1, ⟨h2, h3⟩, h4, h5⟩ := h.1 x
    refine ⟨h1, ⟨setKey_keysRise h2 (Nat.zero_le _), fun p hp => ?_⟩, h4, fun p hp => ?_⟩
    · rcases mem_setKey hp with rfl | hp
      · exact fun e => hi (by simpa using e.symm)
      · exact h3 p hp
    · rcases mem_setKey hp with rfl | hp
      · exact hc (h.1 x)
      · exact h5 p hp

theorem Keeps.modCore {r s : State} (h : Keeps r s) (i : Nat) {f : Core → Core} (hf : ∀ c, c.wired → (f c).wired) :
    Keeps r (s.modCore i f) := h.setCore i fun g => hf _ (g.getCore i)

theorem Keeps.focus {r s : State} (h : Keeps r s) (i : Nat) : Keeps r (s.focus i) := by
  unfold State.focus
  split
  · exact h
  · refine ⟨fun x => ?_, h.2⟩
    have g := h.1 x
    obtain ⟨h1, ⟨h2, h3⟩, h4, h5⟩ := g
    have hk : keysRise 0 (setKey s.others s.cur s.core) := setKey_keysRise h2 (Nat.zero_le _)
    refine ⟨h1, ⟨delKey_keysRise hk, fun p hp => delKey_ne hk hp⟩, (h.1 x).getCore i, fun p hp => ?_⟩
    rcases mem_setKey (mem_delKey hp) with rfl | hp
    · exact h4
    · exact h5 p hp

/-- Two cores with the same predicates and masks are wired alike. -/
theorem Core.wired.same {c d : Core} (h : c.wired) (e1 : d.ctl.k = c.ctl.k) (e2 : d.vec.m = c.vec.m) : d.wired := by
  unfold Core.wired at *; rw [e1, e2]; exact h

/-! ### Choices, folds and the ways a part of an operation answers -/

theorem Keeps.ite {r s t : State} {c : Prop} [Decidable c] (hs : c → Keeps r s) (ht : ¬ c → Keeps r t) :
    Keeps r (if c then s else t) := by split; (exact hs ‹_›); (exact ht ‹_›)

theorem Keeps.foldl {α : Type} {r : State} {f : State → α → State} (hf : ∀ s x, Keeps r s → Keeps r (f s x)) :
    ∀ (l : List α) {s : State}, Keeps r s → Keeps r (l.foldl f s)
  | [], _, h => h
  | x :: l, _, h => Keeps.foldl hf l (hf _ x h)

/-- An outcome is a next state that keeps. -/
def Keeps.Res (r : State) (o : Result) : Prop := ∃ t, o = .next t ∧ Keeps r t

theorem Keeps.next {r t : State} (h : Keeps r t) : Keeps.Res r (.next t) := ⟨t, rfl, h⟩

theorem Keeps.Res.ite {r : State} {o p : Result} {c : Prop} [Decidable c] (ho : c → Keeps.Res r o) (hp : ¬ c → Keeps.Res r p) :
    Keeps.Res r (if c then o else p) := by
  split
  · exact ho ‹_›
  · exact hp ‹_›

/-- Part of an operation that answers a state, keeps. -/
def Keeps.Part (r : State) (p : Part? State) : Prop := ∀ t, p = .ok t → Keeps r t
/-- Of an operation that may answer no state, the state keeps. -/
structure Keeps.Opt (r : State) (p : Option State) : Prop where
  keep : ∀ t, p = some t → Keeps r t

theorem Keeps.Part.ok {r t : State} (h : Keeps r t) : Keeps.Part r (.ok t) := fun _ e => by cases e; exact h
theorem Keeps.Part.error {r : State} (e : Halt) : Keeps.Part r (.error e) := fun _ e => by cases e
theorem Keeps.Part.pure {r t : State} (h : Keeps r t) : Keeps.Part r (Pure.pure t) := fun _ e => by cases e; exact h
theorem Part?.bind_ok {α β : Type} {p : Part? α} {k : α → Part? β} {y : β} (h : (p >>= k) = .ok y) :
    ∃ x, p = .ok x ∧ k x = .ok y := by
  cases p with
  | error e => cases h
  | ok x => exact ⟨x, rfl, h⟩

theorem Keeps.Part.bind {α : Type} {r : State} {p : Part? α} {k : α → Part? State} (h : ∀ x, p = .ok x → Keeps.Part r (k x)) :
    Keeps.Part r (p >>= k) := by
  cases p with
  | error e => exact Keeps.Part.error e
  | ok x => exact h x rfl
theorem Keeps.Part.ite {r : State} {o p : Part? State} {c : Prop} [Decidable c] (ho : c → Keeps.Part r o)
    (hp : ¬ c → Keeps.Part r p) : Keeps.Part r (if c then o else p) := by
  split
  · exact ho ‹_›
  · exact hp ‹_›

/-- Part of an operation that answers a state and a stream, keeps. -/
def Keeps.Part2 (r : State) (p : Part? (State × Stream)) : Prop := ∀ x, p = .ok x → Keeps r x.1
theorem Keeps.Part2.pure {r t : State} {st : Stream} (h : Keeps r t) : Keeps.Part2 r (Pure.pure (t, st)) := fun _ e => by cases e; exact h
theorem Keeps.Part2.bind {α : Type} {r : State} {p : Part? α} {k : α → Part? (State × Stream)}
    (h : ∀ x, p = .ok x → Keeps.Part2 r (k x)) : Keeps.Part2 r (p >>= k) := fun y e => by
  obtain ⟨x, e1, e2⟩ := Part?.bind_ok e
  exact h x e1 y e2
theorem Keeps.Part2.ite {r : State} {o p : Part? (State × Stream)} {c : Prop} [Decidable c] (ho : c → Keeps.Part2 r o)
    (hp : ¬ c → Keeps.Part2 r p) : Keeps.Part2 r (if c then o else p) := by
  split
  · exact ho ‹_›
  · exact hp ‹_›

theorem Keeps.Opt.some {r t : State} (h : Keeps r t) : Keeps.Opt r (Option.some t) := ⟨fun _ e => by cases e; exact h⟩
theorem Keeps.Opt.none {r : State} : Keeps.Opt r Option.none := ⟨fun _ e => by cases e⟩
theorem Keeps.Opt.ite {r : State} {o p : Option State} {c : Prop} [Decidable c] (ho : c → Keeps.Opt r o)
    (hp : ¬ c → Keeps.Opt r p) : Keeps.Opt r (if c then o else p) := by
  split
  · exact ho ‹_›
  · exact hp ‹_›
theorem Keeps.Opt.dite {r : State} {c : Prop} [Decidable c] {o : c → Option State} {p : ¬ c → Option State}
    (ho : ∀ h, Keeps.Opt r (o h)) (hp : ∀ h, Keeps.Opt r (p h)) : Keeps.Opt r (if h : c then o h else p h) := by
  split
  · exact ho ‹_›
  · exact hp ‹_›
theorem Keeps.Opt.of {r t : State} {o : Option State} (e : o = Option.some t) (h : Keeps.Opt r o) : Keeps r t := h.keep t e

/-- An answer of a command keeps. -/
structure Keeps.Ans (r : State) (p : Except Nat (State × Nat)) : Prop where
  keep : ∀ x, p = .ok x → Keeps r x.1

theorem Keeps.Ans.ok {r t : State} {n : Nat} (h : Keeps r t) : Keeps.Ans r (.ok (t, n)) := ⟨fun _ e => by
  obtain rfl := Except.ok.inj e; exact h⟩
theorem Keeps.Ans.error {r : State} (n : Nat) : Keeps.Ans r (.error n) := ⟨fun _ e => nomatch e⟩
theorem Keeps.Ans.ite {r : State} {o p : Except Nat (State × Nat)} {c : Prop} [Decidable c] (ho : c → Keeps.Ans r o)
    (hp : ¬ c → Keeps.Ans r p) : Keeps.Ans r (if c then o else p) := by
  split
  · exact ho ‹_›
  · exact hp ‹_›
theorem Keeps.Ans.bind {α : Type} {r : State} {p : Except Nat α} {k : α → Except Nat (State × Nat)}
    (h : ∀ x, p = .ok x → Keeps.Ans r (k x)) : Keeps.Ans r (p.bind k) := by
  cases p with
  | error e => exact Keeps.Ans.error e
  | ok x => exact h x rfl

/-- Of a pair, the state keeps. -/
def Keeps.Fst {α : Type} (r : State) (p : State × α) : Prop := Keeps r p.1
def Keeps.Snd {α : Type} (r : State) (p : α × State) : Prop := Keeps r p.2

theorem Keeps.Fst.mk {α : Type} {r t : State} {a : α} (h : Keeps r t) : Keeps.Fst r (t, a) := h
theorem Keeps.Snd.mk {α : Type} {r t : State} {a : α} (h : Keeps r t) : Keeps.Snd r (a, t) := h
theorem Keeps.Fst.ite {α : Type} {r : State} {o p : State × α} {c : Prop} [Decidable c] (ho : c → Keeps.Fst r o)
    (hp : ¬ c → Keeps.Fst r p) : Keeps.Fst r (if c then o else p) := by
  split
  · exact ho ‹_›
  · exact hp ‹_›
theorem Keeps.Snd.ite {α : Type} {r : State} {o p : α × State} {c : Prop} [Decidable c] (ho : c → Keeps.Snd r o)
    (hp : ¬ c → Keeps.Snd r p) : Keeps.Snd r (if c then o else p) := by
  split
  · exact ho ‹_›
  · exact hp ‹_›

/-- An act at a home keeps. -/
def Keeps.Act (r : State) : Acted → Prop
  | .done t _ => Keeps r t
  | .fault t _ _ => Keeps r t
  | .wait => True

theorem Keeps.Act.done {r t : State} (h : Keeps r t) (v : Option W64) : Keeps.Act r (.done t v) := h
theorem Keeps.Act.fault {r t : State} (h : Keeps r t) (c : Cause) (a : W64) : Keeps.Act r (.fault t c a) := h
theorem Keeps.Act.wait {r : State} : Keeps.Act r .wait := trivial

end Sys2Proof.Machine
end

