-- ==== Sys2Proof/Laws/Wired.lean ====
section
/-!
SUPPORT. Every operation on a core's registers keeps the hard-wired ones (Table 1.2).
-/
namespace Sys2Proof.Machine

open Sys2Proof

theorem Core.ite_wired {p : Prop} [Decidable p] {c d : Core} (hc : p → c.wired) (hd : ¬ p → d.wired) : (if p then c else d).wired := by
  split
  · exact hc ‹_›
  · exact hd ‹_›
theorem Core.dite_wired {p : Prop} [Decidable p] {c : p → Core} {d : ¬ p → Core} (hc : ∀ h, (c h).wired) (hd : ∀ h, (d h).wired) :
    (dite p c d).wired := by
  split
  · exact hc _
  · exact hd _

theorem Core.foldl_wired {α : Type} {f : Core → α → Core} (hf : ∀ c x, c.wired → (f c x).wired) :
    ∀ (l : List α) {c : Core}, c.wired → (l.foldl f c).wired
  | [], _, h => h
  | x :: l, _, h => Core.foldl_wired hf l (hf _ x h)

/-- A result that takes effect writes neither k0 nor m0. -/
theorem Core.apply_wired {c : Core} (h : c.wired) (d : Dst) : (c.apply d).wired := by
  obtain ⟨h1, h2⟩ := h
  cases d with
  | k n v =>
    simp only [Core.apply]
    split
    · exact ⟨h1, h2⟩
    · rename_i hn
      refine ⟨?_, h2⟩
      have : n.toNat ≠ 0 := fun e => hn (by simpa using BitVec.eq_of_toNat_eq (y := 0#3) e)
      have h0 : (1#8 <<< n.toNat).getLsbD 0 = false := by simp; omega
      split
      · simp [h1]
      · rw [BitVec.getLsbD_and, BitVec.getLsbD_not, h1, h0]; rfl
  | m n v =>
    simp only [Core.apply]
    split
    · exact ⟨h1, h2⟩
    · rename_i hn
      refine ⟨h1, ?_⟩
      have : n.toNat ≠ 0 := fun e => hn (by simpa using BitVec.eq_of_toNat_eq (y := 0#3) e)
      simp only [Vector.getElem_set]
      rw [if_neg (by omega)]; exact h2
  | latch w i r => simp only [Core.apply]; split <;> exact ⟨h1, h2⟩
  | _ => exact ⟨h1, h2⟩

theorem Core.freeLoader_wired {c : Core} (h : c.wired) (n : Nat) : (c.freeLoader n).wired := by
  unfold Core.freeLoader; split <;> exact h
theorem Core.voidClaims_wired {c : Core} (h : c.wired) (p : Nat) : (c.voidClaims p).wired := by
  unfold Core.voidClaims; split
  · exact h.same rfl rfl
  · exact h
theorem Core.noteFault_wired {c : Core} (h : c.wired) (rec : FaultRec) : (c.noteFault rec).wired := h.same rfl rfl
theorem Core.hold_wired {c : Core} (h : c.wired) : c.hold.wired := h
theorem Core.leaveDebug_wired {c : Core} (h : c.wired) : c.leaveDebug.wired := h
theorem bindChannel_wired {c : Core} (h : c.wired) (k : BitVec 4) (ch : Channel) : (bindChannel c k ch).wired := h
theorem Core.doneAnchor_wired {c : Core} (h : c.wired) (now : Nat) : (c.doneAnchor now).wired := by
  unfold Core.doneAnchor; repeat' split
  all_goals with_reducible exact h.same rfl rfl
theorem Core.startRegs_wired {c : Core} (t : TaskImage) (i : Nat) (carry : Bool) : (c.startRegs t i carry).wired :=
  ⟨by simp [Core.startRegs], Core.reset_wired.2⟩

theorem Core.writeState_wired {c : Core} (h : c.wired) (n : Nat) (v : W64) : (c.writeState n v).wired := by
  unfold Core.writeState
  dsimp only
  repeat' first
    | with_reducible apply Core.ite_wired
    | with_reducible apply Core.dite_wired
    | intro _
  all_goals with_reducible exact h.same rfl rfl

theorem Core.writeReg_wired {c : Core} (h : c.wired) (r : RegName) (v : BitVec 1056) : (c.writeReg r v).wired := by
  cases r <;> first
    | exact h
    | exact Core.apply_wired h _
    | exact Core.writeState_wired h _ _

/-- A core whose hard-wired registers are set. -/
theorem Core.ored_wired (c : Core) (k : BitVec 8) (m : Vector W64 8) (h1 : c.ctl.k = k ||| 1)
    (h2 : c.vec.m = m.set 0 (BitVec.allOnes 64)) : c.wired := by
  unfold Core.wired; rw [h1, h2]; simp

theorem Core.restore_wired {c : Core} (_ : c.wired) (b : List Byte) : (c.restore b).wired := by
  refine ⟨?_, ?_⟩
  · simp [Core.restore]
  · simp [Core.restore]

end Sys2Proof.Machine
end

