-- ==== Sys2Proof/Laws/KeepsCells.lean ====
section
/-!
SUPPORT. `Keeps` for the operations and meanings of Machine/Cells.lean.
-/
namespace Sys2Proof.Machine

open Sys2Proof

theorem State.at__keeps {r0 s : State} (hk : Keeps r0 s) (cycle : Nat) (i : Instr) : Keeps r0 (State.at_ s cycle i) := by
  unfold State.at_
  repeat' first
    | (with_reducible first | assumption | apply Keeps.ite) | extract_lets | intro _ | split | dsimp only
    | with_reducible apply Keeps.lit

theorem State.say_keeps {r0 s : State} (hk : Keeps r0 s) (o : Out) : Keeps r0 (State.say s o) := by
  unfold State.say
  repeat' first
    | (with_reducible first | assumption | apply Keeps.ite) | extract_lets | intro _ | split | dsimp only
    | with_reducible apply Keeps.lit

theorem State.fresh_keeps {r0 s t : State} {i : Nat} (e : s.fresh = (i, t)) (hk : Keeps r0 s) : Keeps r0 t := by
  cases e
  exact hk.same rfl rfl rfl rfl rfl rfl

theorem State.fresh2_keeps {r0 s : State} (hk : Keeps r0 s) : Keeps r0 s.fresh.2 := State.fresh_keeps rfl hk

theorem State.modWorld_keeps {r0 s : State} (hk : Keeps r0 s) (w : Nat) (f : World → World) : Keeps r0 (State.modWorld s w f) := by
  unfold State.modWorld
  repeat' first
    | (with_reducible first | assumption | apply Keeps.ite) | extract_lets | intro _ | split | dsimp only
    | with_reducible apply Keeps.lit

theorem State.setJetton_keeps {r0 s : State} (hk : Keeps r0 s) (j : Nat) (x : Jetton) : Keeps r0 (State.setJetton s j x) := by
  unfold State.setJetton
  repeat' first
    | (with_reducible first | assumption | apply Keeps.modDisp | apply Keeps.ite) | extract_lets | intro _ | split
    | dsimp only | with_reducible apply Keeps.lit

theorem State.modJetton_keeps {r0 s : State} (hk : Keeps r0 s) (j : Nat) (f : Jetton → Jetton) : Keeps r0 (State.modJetton s j f) := by
  unfold State.modJetton
  repeat' first
    | (with_reducible first | assumption | apply State.setJetton_keeps | apply Keeps.ite) | extract_lets | intro _ | split
    | dsimp only | with_reducible apply Keeps.lit

end Sys2Proof.Machine
end

