-- ==== Sys2Proof/Laws/KeepsSched.lean ====
section
/-!
SUPPORT. `Keeps` for the operations and meanings of Machine/Sched.lean.
-/
namespace Sys2Proof.Machine

open Sys2Proof

theorem State.modDomain_keeps {r0 s : State} (hk : Keeps r0 s) (id : Nat) (f : Domain → Domain) : Keeps r0 (State.modDomain s id f) := by
  unfold State.modDomain
  repeat' first
    | (with_reducible first | assumption | apply Keeps.modDisp | apply Keeps.ite) | extract_lets | intro _ | split
    | dsimp only | with_reducible apply Keeps.lit

theorem State.renewDomains_keeps {r0 s : State} (hk : Keeps r0 s) (j : Nat) : Keeps r0 (State.renewDomains s j) := by
  unfold State.renewDomains
  repeat' first
    | (with_reducible first
        | assumption | apply Keeps.modDisp | apply Keeps.foldl | apply Mem.foldl_wf | apply Core.foldl_wired | apply Keeps.ite)
    | extract_lets | intro _ | split | dsimp only | with_reducible apply Keeps.lit

theorem State.joinDomains_keeps {r0 s : State} (hk : Keeps r0 s) (core : Nat) : Keeps r0 (State.joinDomains s core) := by
  unfold State.joinDomains
  repeat' first
    | (with_reducible first
        | assumption | apply Keeps.modDisp | apply Keeps.foldl | apply Mem.foldl_wf | apply Core.foldl_wired | apply Keeps.ite)
    | extract_lets | intro _ | split | dsimp only | with_reducible apply Keeps.lit

theorem State.accessDone_keeps {r0 s : State} (hk : Keeps r0 s) (id l : Nat) : Keeps r0 (State.accessDone s id l) := by
  unfold State.accessDone
  repeat' first
    | (with_reducible first | assumption | apply Keeps.modEng | apply Keeps.ite) | extract_lets | intro _ | split | dsimp only
    | with_reducible apply Keeps.lit

theorem State.accessGone_keeps {r0 s : State} (hk : Keeps r0 s) (id : Nat) : Keeps r0 (State.accessGone s id) := by
  unfold State.accessGone
  repeat' first
    | (with_reducible first | assumption | apply Keeps.modEng | apply Keeps.ite) | extract_lets | intro _ | split | dsimp only
    | with_reducible apply Keeps.lit

theorem State.modCopy_keeps {r0 s : State} (hk : Keeps r0 s) (id : Nat) (f : Copy → Copy) : Keeps r0 (State.modCopy s id f) := by
  unfold State.modCopy
  repeat' first
    | (with_reducible first | assumption | apply Keeps.modEng | apply Keeps.ite) | extract_lets | intro _ | split | dsimp only
    | with_reducible apply Keeps.lit

theorem State.record_keeps {r0 s : State} (hk : Keeps r0 s) (c : Copy) (st : CopyState) : Keeps r0 (State.record s c st) := by
  unfold State.record
  repeat' first
    | (with_reducible first
        | assumption | apply Keeps.setCore | apply Keeps.foldl | apply Mem.foldl_wf | apply Core.foldl_wired
        | apply Mem.set_wf | apply Keeps.ite)
    | extract_lets | intro _ | split | (have hw := ‹Core.wired _›; with_reducible exact hw.same rfl rfl)
    | (have hg := ‹State.good _›; with_reducible exact (hg.getCore _).same rfl rfl) | dsimp only
    | with_reducible apply Keeps.lit

theorem State.followDone_keeps {r0 s : State} (hk : Keeps r0 s) (id : Nat) : Keeps r0 (State.followDone s id) := by
  unfold State.followDone
  repeat' first
    | (with_reducible first | assumption | apply Keeps.modEng | apply State.accessDone_keeps | apply Keeps.ite) | extract_lets
    | intro _ | split | dsimp only | with_reducible apply Keeps.lit

theorem State.withdraw_keeps {r0 s : State} (hk : Keeps r0 s) (c : Copy) : Keeps r0 (State.withdraw s c) := by
  unfold State.withdraw
  repeat' first
    | (with_reducible first | assumption | apply State.at__keeps | apply Keeps.ite) | extract_lets | intro _ | split
    | dsimp only | with_reducible apply Keeps.lit

theorem State.cancelCopy_keeps {r0 s : State} (hk : Keeps r0 s) (id : Nat) : Keeps r0 (State.cancelCopy s id) := by
  unfold State.cancelCopy
  repeat' first
    | (with_reducible first
        | assumption | apply Keeps.modEng | apply State.accessGone_keeps | apply State.record_keeps
        | apply State.withdraw_keeps | apply Keeps.ite)
    | extract_lets | intro _ | split | dsimp only | with_reducible apply Keeps.lit

theorem State.cancelSome_keeps {r0 s : State} (hk : Keeps r0 s) (core : Nat) (ok : Copy → Bool) : Keeps r0 (State.cancelSome s core ok) := by
  unfold State.cancelSome
  repeat' first
    | (with_reducible first
        | assumption | apply Keeps.modEng | apply Keeps.foldl | apply Mem.foldl_wf | apply Core.foldl_wired
        | apply State.accessGone_keeps | apply State.cancelCopy_keeps | apply Keeps.ite)
    | extract_lets | intro _ | split | dsimp only | with_reducible apply Keeps.lit

theorem State.cancelQueued_keeps {r0 s : State} (hk : Keeps r0 s) (core : Nat) : Keeps r0 (State.cancelQueued s core) := by
  unfold State.cancelQueued
  repeat' first
    | (with_reducible first | assumption | apply State.cancelSome_keeps | apply Keeps.ite) | extract_lets | intro _ | split
    | dsimp only | with_reducible apply Keeps.lit

theorem State.cancelUnissued_keeps {r0 s : State} (hk : Keeps r0 s) (core : Nat) : Keeps r0 (State.cancelUnissued s core) := by
  unfold State.cancelUnissued
  repeat' first
    | (with_reducible first | assumption | apply State.cancelSome_keeps | apply Keeps.ite) | extract_lets | intro _ | split
    | dsimp only | with_reducible apply Keeps.lit

theorem State.voidClaims_keeps {r0 s : State} (hk : Keeps r0 s) (p : Nat) : Keeps r0 (State.voidClaims s p) := by
  unfold State.voidClaims
  exact Keeps.modDisp (Keeps.foldl (fun _ _ ht => Keeps.modCore ht _ fun _ hc => Core.voidClaims_wired hc _) _ hk)

theorem State.stopRun_keeps {r0 s : State} (hk : Keeps r0 s) (i : Nat) (st : Status) : Keeps r0 (State.stopRun s i st) := by
  unfold State.stopRun
  repeat' first
    | (with_reducible first | assumption | apply Keeps.modEng | apply Keeps.modCore | apply Keeps.ite) | extract_lets
    | intro _ | split | (have hw := ‹Core.wired _›; with_reducible exact hw.same rfl rfl) | dsimp only
    | with_reducible apply Keeps.lit

theorem State.endRun_keeps {r0 s : State} (hk : Keeps r0 s) (i : Nat) (st : Status) : Keeps r0 (State.endRun s i st) := by
  unfold State.endRun
  repeat' first
    | (with_reducible first
        | assumption | apply Core.voidClaims_wired | apply State.voidClaims_keeps | apply State.stopRun_keeps
        | apply Keeps.ite)
    | extract_lets | intro _ | split | dsimp only | with_reducible apply Keeps.lit

theorem State.freezeCore_keeps {r0 s : State} (hk : Keeps r0 s) (i : Nat) : Keeps r0 (State.freezeCore s i) := by
  unfold State.freezeCore
  repeat' first
    | (with_reducible first
        | assumption | apply Keeps.modEng | apply Keeps.modCore | apply Core.voidClaims_wired | apply State.voidClaims_keeps
        | apply Keeps.ite)
    | extract_lets | intro _ | split | (have hw := ‹Core.wired _›; with_reducible exact hw.same rfl rfl) | dsimp only
    | with_reducible apply Keeps.lit

theorem State.freeCore_keeps {r0 s : State} (hk : Keeps r0 s) (i e : Nat) : Keeps r0 (State.freeCore s i e) := by
  unfold State.freeCore
  repeat' first
    | (with_reducible first
        | assumption | apply Keeps.modDisp | apply Keeps.modCore | apply State.at__keeps | apply Keeps.ite)
    | extract_lets | intro _ | split | (have hw := ‹Core.wired _›; with_reducible exact hw.same rfl rfl)
    | (have hg := ‹State.good _›; with_reducible exact (hg.getCore _).same rfl rfl) | dsimp only
    | with_reducible apply Keeps.lit

theorem State.closeRequest_keeps {r0 s : State} (hk : Keeps r0 s) (j e status : Nat) (f : FaultRec) : Keeps r0 (State.closeRequest s j e status f) := by
  unfold State.closeRequest
  repeat' first
    | (with_reducible first
        | assumption | apply Keeps.foldl | apply Mem.foldl_wf | apply Core.foldl_wired | apply Mem.set_wf
        | apply State.modJetton_keeps | apply State.accessDone_keeps | apply Keeps.ite)
    | extract_lets | intro _ | split | dsimp only | with_reducible apply Keeps.lit

theorem State.breakDomains_keeps {r0 s : State} (hk : Keeps r0 s) (j : Nat) : Keeps r0 (State.breakDomains s j) := by
  unfold State.breakDomains
  repeat' first
    | (with_reducible first
        | assumption | apply Keeps.modDisp | apply Keeps.foldl | apply Mem.foldl_wf | apply Core.foldl_wired
        | apply State.modDomain_keeps | apply Keeps.ite)
    | extract_lets | intro _ | split | dsimp only | with_reducible apply Keeps.lit

theorem State.dropCores_keeps {r0 s : State} (hk : Keeps r0 s) (j e : Nat) : Keeps r0 (State.dropCores s j e) := by
  unfold State.dropCores
  repeat' first
    | (with_reducible first
        | assumption | apply Keeps.modDisp | apply Keeps.foldl | apply Mem.foldl_wf | apply Core.foldl_wired
        | apply Core.voidClaims_wired | apply State.voidClaims_keeps | apply State.cancelQueued_keeps
        | apply State.endRun_keeps | apply State.freeCore_keeps | apply Keeps.ite)
    | extract_lets | intro _ | split | dsimp only | with_reducible apply Keeps.lit

theorem State.endRequest_keeps {r0 s : State} (hk : Keeps r0 s) (j e status : Nat) (f : FaultRec) : Keeps r0 (State.endRequest s j e status f) := by
  unfold State.endRequest
  repeat' first
    | (with_reducible first
        | assumption | apply State.modJetton_keeps | apply State.closeRequest_keeps | apply State.breakDomains_keeps
        | apply State.dropCores_keeps | apply Keeps.ite)
    | extract_lets | intro _ | split | dsimp only | with_reducible apply Keeps.lit

theorem State.violate_keeps {r0 s : State} (hk : Keeps r0 s) (bad : List Nat) (i e : Nat) (f : FaultRec) : Keeps r0 (State.violate s bad i e f) := by
  unfold State.violate
  repeat' first
    | (with_reducible first
        | assumption | apply Keeps.modDisp | apply Keeps.foldl | apply Mem.foldl_wf | apply Core.foldl_wired
        | apply State.modJetton_keeps | apply State.cancelQueued_keeps | apply State.cancelUnissued_keeps
        | apply State.endRun_keeps | apply State.freezeCore_keeps | apply State.closeRequest_keeps
        | apply State.breakDomains_keeps | apply State.endRequest_keeps | apply Keeps.ite)
    | extract_lets | intro _ | split | (have hg := ‹State.good _›; with_reducible exact (hg.getCore _).same rfl rfl)
    | dsimp only | with_reducible apply Keeps.lit

theorem State.schedule_keeps {r0 s : State} (hk : Keeps r0 s) (cores : List (Nat × Nat)) (a : Nat) : Keeps r0 (State.schedule s cores a) := by
  unfold State.schedule
  repeat' first
    | (with_reducible first | assumption | apply Keeps.modDisp | apply Keeps.ite) | extract_lets | intro _ | split
    | (have hg := ‹State.good _›; with_reducible exact (hg.getCore _).same rfl rfl) | dsimp only
    | with_reducible apply Keeps.lit

theorem State.placeStarts_keeps {r0 s : State} (hk : Keeps r0 s) : Keeps r0 (State.placeStarts s) := by
  unfold State.placeStarts
  repeat' first
    | (with_reducible first
        | assumption | apply Keeps.modDisp | apply Keeps.foldl | apply Mem.foldl_wf | apply Core.foldl_wired | apply Keeps.ite)
    | extract_lets | intro _ | split | dsimp only | with_reducible apply Keeps.lit

end Sys2Proof.Machine
end

