-- ==== Sys2Proof/Laws/KeepsOps.lean ====
section
/-!
SUPPORT. `Keeps` for the operations and meanings of Machine/Ops.lean.
-/
namespace Sys2Proof.Machine

open Sys2Proof

theorem State.put_keeps {r0 s : State} (hk : Keeps r0 s) (lat : Nat) (d : Dst) : Keeps r0 (State.put s lat d) := by
  unfold State.put
  repeat' first
    | (with_reducible first | assumption | apply Keeps.modIss | apply Keeps.ite) | extract_lets | intro _ | split | dsimp only
    | with_reducible apply Keeps.lit

theorem State.putCol_keeps {r0 s : State} (hk : Keeps r0 s) (col : Col) (lat : Nat) (d : Dst) : Keeps r0 (State.putCol s col lat d) := by
  unfold State.putCol
  repeat' first
    | (with_reducible first | assumption | apply Keeps.modIss | apply Keeps.ite) | extract_lets | intro _ | split | dsimp only
    | with_reducible apply Keeps.lit

theorem State.raise_keeps {r0 s : State} (hk : Keeps r0 s) (f : FaultRec) : Keeps r0 (State.raise s f) := by
  unfold State.raise
  repeat' first
    | (with_reducible first | assumption | apply Keeps.modIss | apply Keeps.ite) | extract_lets | intro _ | split | dsimp only
    | with_reducible apply Keeps.lit

theorem State.ctlFault_keeps {r0 s : State} (hk : Keeps r0 s) (cause : Cause) (addr : W64) (det : Nat := 0) (code : BitVec 16 := 0) : Keeps r0 (State.ctlFault s cause addr det code) := by
  unfold State.ctlFault
  repeat' first
    | (with_reducible first | assumption | apply State.raise_keeps | apply Keeps.ite) | extract_lets | intro _ | split
    | dsimp only | with_reducible apply Keeps.lit

theorem State.deferFault_keeps {r0 s : State} (hk : Keeps r0 s) (i : Nat) (cause : Cause) (addr : W64) (src det : Nat) (pc : BitVec 12) (issue : Nat) : Keeps r0 (State.deferFault s i cause addr src det pc issue) := by
  unfold State.deferFault
  repeat' first
    | (with_reducible first | assumption | apply Keeps.modIss | apply Keeps.focus | apply State.raise_keeps | apply Keeps.ite)
    | extract_lets | intro _ | split | dsimp only | with_reducible apply Keeps.lit

theorem State.storeWrite_keeps {r0 s : State} (hk : Keeps r0 s) (w : StorePend) : Keeps r0 (State.storeWrite s w) := by
  unfold State.storeWrite
  repeat' first
    | (with_reducible first
        | assumption | apply Keeps.mem | apply Mem.write_wf | apply Mem.setCapTag_wf | apply Mem.untag_wf | apply Keeps.ite)
    | extract_lets | intro _ | (with_reducible first | apply Mem.ite_wf | apply Mem.lit_wf) | split | dsimp only
    | with_reducible apply Keeps.lit | with_reducible apply Keeps.litMem

theorem State.commit_keeps {r0 s : State} (hk : Keeps r0 s) (e : Nat) : Keeps r0 (State.commit s e) := by
  unfold State.commit
  repeat' first
    | (with_reducible first
        | assumption | apply Keeps.mem | apply Keeps.modC | apply Keeps.modIss | apply Keeps.foldl | apply Mem.foldl_wf
        | apply Core.foldl_wired | apply Mem.bankWrite_wf | apply Mem.applyTable_wf | apply Core.apply_wired
        | apply Core.freeLoader_wired | apply State.storeWrite_keeps | apply Keeps.ite)
    | extract_lets | intro _ | (with_reducible first | apply Mem.ite_wf | apply Mem.lit_wf) | split
    | (have hw := ‹Core.wired _›; with_reducible exact hw.same rfl rfl) | dsimp only | with_reducible apply Keeps.lit
    | with_reducible apply Keeps.litMem

theorem State.advance_keeps {r0 s : State} (hk : Keeps r0 s) (cost : Nat) : Keeps r0 (State.advance s cost) := by
  unfold State.advance
  repeat' first
    | (with_reducible first | assumption | apply Keeps.modIss | apply Keeps.modCtl | apply Keeps.ite) | extract_lets | intro _
    | split | (have hw := ‹Core.wired _›; with_reducible exact hw.same rfl rfl) | dsimp only | with_reducible apply Keeps.lit

theorem State.jumpTo_keeps {r0 s : State} (hk : Keeps r0 s) (target : Nat) (keep : Bool) : Keeps r0 (State.jumpTo s target keep) := by
  unfold State.jumpTo
  repeat' first
    | (with_reducible first | assumption | apply Keeps.modIss | apply Keeps.modCtl | apply Keeps.ite) | extract_lets | intro _
    | split | (have hw := ‹Core.wired _›; with_reducible exact hw.same rfl rfl) | dsimp only | with_reducible apply Keeps.lit

theorem State.await_keeps {r0 s : State} (hk : Keeps r0 s) (w : WaitFor) : Keeps r0 (State.await s w) := by
  unfold State.await
  repeat' first
    | (with_reducible first | assumption | apply Keeps.modIss | apply Keeps.ite) | extract_lets | intro _ | split | dsimp only
    | with_reducible apply Keeps.lit

theorem State.completeWait_keeps {r0 s : State} (hk : Keeps r0 s) : Keeps r0 (State.completeWait s) := by
  unfold State.completeWait
  repeat' first
    | (with_reducible first
        | assumption | apply Keeps.modIss | apply Keeps.modSys | apply State.advance_keeps | apply Keeps.ite)
    | extract_lets | intro _ | split | dsimp only | with_reducible apply Keeps.lit

theorem State.replay_keeps {r0 s : State} (hk : Keeps r0 s) (i f : Nat) (rec : FaultRec) : Keeps r0 (State.replay s i f rec) := by
  unfold State.replay
  repeat' first
    | (with_reducible first
        | assumption | apply Keeps.modCore | apply State.cancelQueued_keeps | apply State.endRun_keeps
        | apply State.schedule_keeps | apply Keeps.ite)
    | extract_lets | intro _ | split | (have hw := ‹Core.wired _›; with_reducible exact hw.same rfl rfl)
    | (have hg := ‹State.good _›; with_reducible exact (hg.getCore _).same rfl rfl) | dsimp only
    | with_reducible apply Keeps.lit

theorem State.endBy_keeps {r0 s : State} (hk : Keeps r0 s) (i f : Nat) (rec : FaultRec) : Keeps r0 (State.endBy s i f rec) := by
  unfold State.endBy
  repeat' first
    | (with_reducible first | assumption | apply State.endRequest_keeps | apply Keeps.ite) | extract_lets | intro _ | split
    | (have hg := ‹State.good _›; with_reducible exact (hg.getCore _).same rfl rfl) | dsimp only
    | with_reducible apply Keeps.lit

theorem State.holdCore_keeps {r0 s : State} (hk : Keeps r0 s) (i : Nat) : Keeps r0 (State.holdCore s i) := by
  unfold State.holdCore
  repeat' first
    | (with_reducible first | assumption | apply Keeps.modEng | apply Keeps.modCore | apply Core.hold_wired | apply Keeps.ite)
    | extract_lets | intro _ | split | (have hw := ‹Core.wired _›; with_reducible exact hw.same rfl rfl)
    | (have hg := ‹State.good _›; with_reducible exact (hg.getCore _).same rfl rfl) | dsimp only
    | with_reducible apply Keeps.lit

theorem State.enterDebug_keeps {r0 s : State} (hk : Keeps r0 s) (i : Nat) (hard : Bool) : Keeps r0 (State.enterDebug s i hard) := by
  unfold State.enterDebug
  repeat' first
    | (with_reducible first | assumption | apply Keeps.modCore | apply State.holdCore_keeps | apply Keeps.ite) | extract_lets
    | intro _ | split | (have hw := ‹Core.wired _›; with_reducible exact hw.same rfl rfl)
    | (have hg := ‹State.good _›; with_reducible exact (hg.getCore _).same rfl rfl) | dsimp only
    | with_reducible apply Keeps.lit

theorem State.fwFate_keeps {r0 s : State} (hk : Keeps r0 s) (i f : Nat) (rec : FaultRec) : Keeps r0 (State.fwFate s i f rec) := by
  unfold State.fwFate
  repeat' first
    | (with_reducible first | assumption | apply Keeps.modCore | apply Keeps.ite) | extract_lets | intro _ | split
    | (have hw := ‹Core.wired _›; with_reducible exact hw.same rfl rfl) | dsimp only | with_reducible apply Keeps.lit

theorem State.drainReplay_keeps {r0 s : State} (hk : Keeps r0 s) (i f : Nat) (d : Drain) (rec : FaultRec) : Keeps r0 (State.drainReplay s i f d rec) := by
  unfold State.drainReplay
  repeat' first
    | (with_reducible first
        | assumption | apply Keeps.modCore | apply State.cancelQueued_keeps | apply State.endRun_keeps | apply Keeps.ite)
    | extract_lets | intro _ | split | (have hw := ‹Core.wired _›; with_reducible exact hw.same rfl rfl) | dsimp only
    | with_reducible apply Keeps.lit

theorem State.drainHold_keeps {r0 s : State} (hk : Keeps r0 s) (i f : Nat) (d : Drain) (rec : FaultRec) : Keeps r0 (State.drainHold s i f d rec) := by
  unfold State.drainHold
  repeat' first
    | (with_reducible first | assumption | apply Keeps.modCore | apply Keeps.ite) | extract_lets | intro _ | split
    | (have hw := ‹Core.wired _›; with_reducible exact hw.same rfl rfl)
    | (have hg := ‹State.good _›; with_reducible exact (hg.getCore _).same rfl rfl) | dsimp only
    | with_reducible apply Keeps.lit

theorem State.fate_keeps {r0 s : State} (hk : Keeps r0 s) (bad : List Nat) (i f : Nat) (rec : FaultRec) : Keeps r0 (State.fate s bad i f rec) := by
  unfold State.fate
  repeat' first
    | (with_reducible first
        | assumption | apply State.violate_keeps | apply State.replay_keeps | apply State.endBy_keeps
        | apply State.enterDebug_keeps | apply State.fwFate_keeps | apply State.drainReplay_keeps
        | apply State.drainHold_keeps | apply Keeps.ite)
    | extract_lets | intro _ | split | (have hg := ‹State.good _›; with_reducible exact (hg.getCore _).same rfl rfl)
    | dsimp only | with_reducible apply Keeps.lit

theorem State.stubReturn_keeps {r0 s : State} (hk : Keeps r0 s) : Keeps r0 (State.stubReturn s) := by
  unfold State.stubReturn
  repeat' first
    | (with_reducible first | assumption | apply Keeps.modIss | apply Keeps.ite) | extract_lets | intro _ | split | dsimp only
    | with_reducible apply Keeps.lit

end Sys2Proof.Machine
end

