-- ==== Sys2Proof/Laws/KeepsFlags.lean ====
section
/-!
SUPPORT. `Keeps` for the operations and meanings of Machine/Flags.lean.
-/
namespace Sys2Proof.Machine

open Sys2Proof

theorem State.clearEvents_keeps {r0 s : State} (hk : Keeps r0 s) : Keeps r0 (State.clearEvents s) := by
  unfold State.clearEvents
  repeat' first
    | (with_reducible first | assumption | apply Keeps.modIss | apply Keeps.ite) | extract_lets | intro _ | split | dsimp only
    | with_reducible apply Keeps.lit

end Sys2Proof.Machine
end

