-- ==== Sys2Proof/Laws/KeepsAlu.lean ====
section
/-!
SUPPORT. `Keeps` for the operations and meanings of Machine/Alu.lean.
-/
namespace Sys2Proof.Machine

open Sys2Proof

theorem State.give_keeps {r0 s : State} (hk : Keeps r0 s) (lat cost : Nat) (d : Dst) : Keeps.Res r0 (State.give s lat cost d) := by
  unfold State.give
  repeat' first
    | (with_reducible first
        | assumption | apply State.put_keeps | apply State.advance_keeps | apply Keeps.next | apply Keeps.Res.ite
        | apply Keeps.ite)
    | extract_lets | intro _ | split | dsimp only | with_reducible apply Keeps.lit

theorem State.alu_keeps {r0 s : State} (hk : Keeps r0 s) (d : SReg) (v : W64) : Keeps.Res r0 (State.alu s d v) := by
  unfold State.alu
  repeat' first
    | (with_reducible first | assumption | apply State.give_keeps | apply Keeps.next | apply Keeps.Res.ite | apply Keeps.ite)
    | extract_lets | intro _ | split | dsimp only | with_reducible apply Keeps.lit

theorem execNop_keeps {r0 s : State} (hk : Keeps r0 s) : Keeps.Res r0 (execNop s) := by
  unfold execNop
  repeat' first
    | (with_reducible first
        | assumption | apply State.advance_keeps | apply Keeps.next | apply Keeps.Res.ite | apply Keeps.ite)
    | extract_lets | intro _ | split | dsimp only | with_reducible apply Keeps.lit

theorem execAdd_keeps {r0 s : State} (hk : Keeps r0 s) (d a b : SReg) : Keeps.Res r0 (execAdd d a b s) := by
  unfold execAdd
  repeat' first
    | (with_reducible first | assumption | apply State.alu_keeps | apply Keeps.next | apply Keeps.Res.ite | apply Keeps.ite)
    | extract_lets | intro _ | split | dsimp only | with_reducible apply Keeps.lit

theorem execSub_keeps {r0 s : State} (hk : Keeps r0 s) (d a b : SReg) : Keeps.Res r0 (execSub d a b s) := by
  unfold execSub
  repeat' first
    | (with_reducible first | assumption | apply State.alu_keeps | apply Keeps.next | apply Keeps.Res.ite | apply Keeps.ite)
    | extract_lets | intro _ | split | dsimp only | with_reducible apply Keeps.lit

theorem execAnd_keeps {r0 s : State} (hk : Keeps r0 s) (d a b : SReg) : Keeps.Res r0 (execAnd d a b s) := by
  unfold execAnd
  repeat' first
    | (with_reducible first | assumption | apply State.alu_keeps | apply Keeps.next | apply Keeps.Res.ite | apply Keeps.ite)
    | extract_lets | intro _ | split | dsimp only | with_reducible apply Keeps.lit

theorem execOr_keeps {r0 s : State} (hk : Keeps r0 s) (d a b : SReg) : Keeps.Res r0 (execOr d a b s) := by
  unfold execOr
  repeat' first
    | (with_reducible first | assumption | apply State.alu_keeps | apply Keeps.next | apply Keeps.Res.ite | apply Keeps.ite)
    | extract_lets | intro _ | split | dsimp only | with_reducible apply Keeps.lit

theorem execXor_keeps {r0 s : State} (hk : Keeps r0 s) (d a b : SReg) : Keeps.Res r0 (execXor d a b s) := by
  unfold execXor
  repeat' first
    | (with_reducible first | assumption | apply State.alu_keeps | apply Keeps.next | apply Keeps.Res.ite | apply Keeps.ite)
    | extract_lets | intro _ | split | dsimp only | with_reducible apply Keeps.lit

theorem execAndn_keeps {r0 s : State} (hk : Keeps r0 s) (d a b : SReg) : Keeps.Res r0 (execAndn d a b s) := by
  unfold execAndn
  repeat' first
    | (with_reducible first | assumption | apply State.alu_keeps | apply Keeps.next | apply Keeps.Res.ite | apply Keeps.ite)
    | extract_lets | intro _ | split | dsimp only | with_reducible apply Keeps.lit

theorem execShl_keeps {r0 s : State} (hk : Keeps r0 s) (d a b : SReg) : Keeps.Res r0 (execShl d a b s) := by
  unfold execShl
  repeat' first
    | (with_reducible first | assumption | apply State.alu_keeps | apply Keeps.next | apply Keeps.Res.ite | apply Keeps.ite)
    | extract_lets | intro _ | split | dsimp only | with_reducible apply Keeps.lit

theorem execShrl_keeps {r0 s : State} (hk : Keeps r0 s) (d a b : SReg) : Keeps.Res r0 (execShrl d a b s) := by
  unfold execShrl
  repeat' first
    | (with_reducible first | assumption | apply State.alu_keeps | apply Keeps.next | apply Keeps.Res.ite | apply Keeps.ite)
    | extract_lets | intro _ | split | dsimp only | with_reducible apply Keeps.lit

theorem execShra_keeps {r0 s : State} (hk : Keeps r0 s) (d a b : SReg) : Keeps.Res r0 (execShra d a b s) := by
  unfold execShra
  repeat' first
    | (with_reducible first | assumption | apply State.alu_keeps | apply Keeps.next | apply Keeps.Res.ite | apply Keeps.ite)
    | extract_lets | intro _ | split | dsimp only | with_reducible apply Keeps.lit

theorem execRotl_keeps {r0 s : State} (hk : Keeps r0 s) (d a b : SReg) : Keeps.Res r0 (execRotl d a b s) := by
  unfold execRotl
  repeat' first
    | (with_reducible first | assumption | apply State.alu_keeps | apply Keeps.next | apply Keeps.Res.ite | apply Keeps.ite)
    | extract_lets | intro _ | split | dsimp only | with_reducible apply Keeps.lit

theorem execMin_keeps {r0 s : State} (hk : Keeps r0 s) (d a b : SReg) : Keeps.Res r0 (execMin d a b s) := by
  unfold execMin
  repeat' first
    | (with_reducible first | assumption | apply State.alu_keeps | apply Keeps.next | apply Keeps.Res.ite | apply Keeps.ite)
    | extract_lets | intro _ | split | dsimp only | with_reducible apply Keeps.lit

theorem execMax_keeps {r0 s : State} (hk : Keeps r0 s) (d a b : SReg) : Keeps.Res r0 (execMax d a b s) := by
  unfold execMax
  repeat' first
    | (with_reducible first | assumption | apply State.alu_keeps | apply Keeps.next | apply Keeps.Res.ite | apply Keeps.ite)
    | extract_lets | intro _ | split | dsimp only | with_reducible apply Keeps.lit

theorem execMinu_keeps {r0 s : State} (hk : Keeps r0 s) (d a b : SReg) : Keeps.Res r0 (execMinu d a b s) := by
  unfold execMinu
  repeat' first
    | (with_reducible first | assumption | apply State.alu_keeps | apply Keeps.next | apply Keeps.Res.ite | apply Keeps.ite)
    | extract_lets | intro _ | split | dsimp only | with_reducible apply Keeps.lit

theorem execMaxu_keeps {r0 s : State} (hk : Keeps r0 s) (d a b : SReg) : Keeps.Res r0 (execMaxu d a b s) := by
  unfold execMaxu
  repeat' first
    | (with_reducible first | assumption | apply State.alu_keeps | apply Keeps.next | apply Keeps.Res.ite | apply Keeps.ite)
    | extract_lets | intro _ | split | dsimp only | with_reducible apply Keeps.lit

theorem execAddi_keeps {r0 s : State} (hk : Keeps r0 s) (d a : SReg) (imm : BitVec 24) : Keeps.Res r0 (execAddi d a imm s) := by
  unfold execAddi
  repeat' first
    | (with_reducible first | assumption | apply State.alu_keeps | apply Keeps.next | apply Keeps.Res.ite | apply Keeps.ite)
    | extract_lets | intro _ | split | dsimp only | with_reducible apply Keeps.lit

theorem execAndi_keeps {r0 s : State} (hk : Keeps r0 s) (d a : SReg) (imm : BitVec 24) : Keeps.Res r0 (execAndi d a imm s) := by
  unfold execAndi
  repeat' first
    | (with_reducible first | assumption | apply State.alu_keeps | apply Keeps.next | apply Keeps.Res.ite | apply Keeps.ite)
    | extract_lets | intro _ | split | dsimp only | with_reducible apply Keeps.lit

theorem execOri_keeps {r0 s : State} (hk : Keeps r0 s) (d a : SReg) (imm : BitVec 24) : Keeps.Res r0 (execOri d a imm s) := by
  unfold execOri
  repeat' first
    | (with_reducible first | assumption | apply State.alu_keeps | apply Keeps.next | apply Keeps.Res.ite | apply Keeps.ite)
    | extract_lets | intro _ | split | dsimp only | with_reducible apply Keeps.lit

theorem execXori_keeps {r0 s : State} (hk : Keeps r0 s) (d a : SReg) (imm : BitVec 24) : Keeps.Res r0 (execXori d a imm s) := by
  unfold execXori
  repeat' first
    | (with_reducible first | assumption | apply State.alu_keeps | apply Keeps.next | apply Keeps.Res.ite | apply Keeps.ite)
    | extract_lets | intro _ | split | dsimp only | with_reducible apply Keeps.lit

theorem execShli_keeps {r0 s : State} (hk : Keeps r0 s) (d a : SReg) (sh : BitVec 6) : Keeps.Res r0 (execShli d a sh s) := by
  unfold execShli
  repeat' first
    | (with_reducible first | assumption | apply State.alu_keeps | apply Keeps.next | apply Keeps.Res.ite | apply Keeps.ite)
    | extract_lets | intro _ | split | dsimp only | with_reducible apply Keeps.lit

theorem execShrli_keeps {r0 s : State} (hk : Keeps r0 s) (d a : SReg) (sh : BitVec 6) : Keeps.Res r0 (execShrli d a sh s) := by
  unfold execShrli
  repeat' first
    | (with_reducible first | assumption | apply State.alu_keeps | apply Keeps.next | apply Keeps.Res.ite | apply Keeps.ite)
    | extract_lets | intro _ | split | dsimp only | with_reducible apply Keeps.lit

theorem execShrai_keeps {r0 s : State} (hk : Keeps r0 s) (d a : SReg) (sh : BitVec 6) : Keeps.Res r0 (execShrai d a sh s) := by
  unfold execShrai
  repeat' first
    | (with_reducible first | assumption | apply State.alu_keeps | apply Keeps.next | apply Keeps.Res.ite | apply Keeps.ite)
    | extract_lets | intro _ | split | dsimp only | with_reducible apply Keeps.lit

theorem execMovi_keeps {r0 s : State} (hk : Keeps r0 s) (d : SReg) (imm : BitVec 24) : Keeps.Res r0 (execMovi d imm s) := by
  unfold execMovi
  repeat' first
    | (with_reducible first | assumption | apply State.alu_keeps | apply Keeps.next | apply Keeps.Res.ite | apply Keeps.ite)
    | extract_lets | intro _ | split | dsimp only | with_reducible apply Keeps.lit

theorem execMovhi_keeps {r0 s : State} (hk : Keeps r0 s) (d : SReg) (imm : BitVec 24) : Keeps.Res r0 (execMovhi d imm s) := by
  unfold execMovhi
  repeat' first
    | (with_reducible first | assumption | apply State.alu_keeps | apply Keeps.next | apply Keeps.Res.ite | apply Keeps.ite)
    | extract_lets | intro _ | split | dsimp only | with_reducible apply Keeps.lit

theorem execMov_keeps {r0 s : State} (hk : Keeps r0 s) (d a : SReg) : Keeps.Res r0 (execMov d a s) := by
  unfold execMov
  repeat' first
    | (with_reducible first | assumption | apply State.alu_keeps | apply Keeps.next | apply Keeps.Res.ite | apply Keeps.ite)
    | extract_lets | intro _ | split | dsimp only | with_reducible apply Keeps.lit

theorem execClz_keeps {r0 s : State} (hk : Keeps r0 s) (d a : SReg) : Keeps.Res r0 (execClz d a s) := by
  unfold execClz
  repeat' first
    | (with_reducible first | assumption | apply State.alu_keeps | apply Keeps.next | apply Keeps.Res.ite | apply Keeps.ite)
    | extract_lets | intro _ | split | dsimp only | with_reducible apply Keeps.lit

theorem execCtz_keeps {r0 s : State} (hk : Keeps r0 s) (d a : SReg) : Keeps.Res r0 (execCtz d a s) := by
  unfold execCtz
  repeat' first
    | (with_reducible first | assumption | apply State.alu_keeps | apply Keeps.next | apply Keeps.Res.ite | apply Keeps.ite)
    | extract_lets | intro _ | split | dsimp only | with_reducible apply Keeps.lit

theorem execPopc_keeps {r0 s : State} (hk : Keeps r0 s) (d a : SReg) : Keeps.Res r0 (execPopc d a s) := by
  unfold execPopc
  repeat' first
    | (with_reducible first | assumption | apply State.alu_keeps | apply Keeps.next | apply Keeps.Res.ite | apply Keeps.ite)
    | extract_lets | intro _ | split | dsimp only | with_reducible apply Keeps.lit

theorem execSext_keeps {r0 s : State} (hk : Keeps r0 s) (d a : SReg) (n1 : BitVec 6) : Keeps.Res r0 (execSext d a n1 s) := by
  unfold execSext
  repeat' first
    | (with_reducible first | assumption | apply State.alu_keeps | apply Keeps.next | apply Keeps.Res.ite | apply Keeps.ite)
    | extract_lets | intro _ | split | dsimp only | with_reducible apply Keeps.lit

theorem execBfx_keeps {r0 s : State} (hk : Keeps r0 s) (d a : SReg) (pos len1 : BitVec 6) : Keeps.Res r0 (execBfx d a pos len1 s) := by
  unfold execBfx
  repeat' first
    | (with_reducible first | assumption | apply State.alu_keeps | apply Keeps.next | apply Keeps.Res.ite | apply Keeps.ite)
    | extract_lets | intro _ | split | dsimp only | with_reducible apply Keeps.lit

theorem execBfi_keeps {r0 s : State} (hk : Keeps r0 s) (d a : SReg) (pos len1 : BitVec 6) : Keeps.Res r0 (execBfi d a pos len1 s) := by
  unfold execBfi
  repeat' first
    | (with_reducible first | assumption | apply State.alu_keeps | apply Keeps.next | apply Keeps.Res.ite | apply Keeps.ite)
    | extract_lets | intro _ | split | dsimp only | with_reducible apply Keeps.lit

theorem execSel_keeps {r0 s : State} (hk : Keeps r0 s) (d a b : SReg) (k : KReg) : Keeps.Res r0 (execSel d a b k s) := by
  unfold execSel
  repeat' first
    | (with_reducible first | assumption | apply State.alu_keeps | apply Keeps.next | apply Keeps.Res.ite | apply Keeps.ite)
    | extract_lets | intro _ | split | dsimp only | with_reducible apply Keeps.lit

theorem execMort_keeps {r0 s : State} (hk : Keeps r0 s) (d a b : SReg) : Keeps.Res r0 (execMort d a b s) := by
  unfold execMort
  repeat' first
    | (with_reducible first | assumption | apply State.alu_keeps | apply Keeps.next | apply Keeps.Res.ite | apply Keeps.ite)
    | extract_lets | intro _ | split | dsimp only | with_reducible apply Keeps.lit

theorem execUmort_keeps {r0 s : State} (hk : Keeps r0 s) (d a : SReg) : Keeps.Res r0 (execUmort d a s) := by
  unfold execUmort
  repeat' first
    | (with_reducible first | assumption | apply State.alu_keeps | apply Keeps.next | apply Keeps.Res.ite | apply Keeps.ite)
    | extract_lets | intro _ | split | dsimp only | with_reducible apply Keeps.lit

theorem execMul_keeps {r0 s : State} (hk : Keeps r0 s) (d a b : SReg) : Keeps.Res r0 (execMul d a b s) := by
  unfold execMul
  repeat' first
    | (with_reducible first | assumption | apply State.give_keeps | apply Keeps.next | apply Keeps.Res.ite | apply Keeps.ite)
    | extract_lets | intro _ | split | dsimp only | with_reducible apply Keeps.lit

theorem execMulhs_keeps {r0 s : State} (hk : Keeps r0 s) (d a b : SReg) : Keeps.Res r0 (execMulhs d a b s) := by
  unfold execMulhs
  repeat' first
    | (with_reducible first | assumption | apply State.give_keeps | apply Keeps.next | apply Keeps.Res.ite | apply Keeps.ite)
    | extract_lets | intro _ | split | dsimp only | with_reducible apply Keeps.lit

theorem execMulhu_keeps {r0 s : State} (hk : Keeps r0 s) (d a b : SReg) : Keeps.Res r0 (execMulhu d a b s) := by
  unfold execMulhu
  repeat' first
    | (with_reducible first | assumption | apply State.give_keeps | apply Keeps.next | apply Keeps.Res.ite | apply Keeps.ite)
    | extract_lets | intro _ | split | dsimp only | with_reducible apply Keeps.lit

theorem execDivs_keeps {r0 s : State} (hk : Keeps r0 s) (d a b : SReg) : Keeps.Res r0 (execDivs d a b s) := by
  unfold execDivs
  repeat' first
    | (with_reducible first | assumption | apply State.give_keeps | apply Keeps.next | apply Keeps.Res.ite | apply Keeps.ite)
    | extract_lets | intro _ | split | dsimp only | with_reducible apply Keeps.lit

theorem execDivu_keeps {r0 s : State} (hk : Keeps r0 s) (d a b : SReg) : Keeps.Res r0 (execDivu d a b s) := by
  unfold execDivu
  repeat' first
    | (with_reducible first | assumption | apply State.give_keeps | apply Keeps.next | apply Keeps.Res.ite | apply Keeps.ite)
    | extract_lets | intro _ | split | dsimp only | with_reducible apply Keeps.lit

theorem execRems_keeps {r0 s : State} (hk : Keeps r0 s) (d a b : SReg) : Keeps.Res r0 (execRems d a b s) := by
  unfold execRems
  repeat' first
    | (with_reducible first | assumption | apply State.give_keeps | apply Keeps.next | apply Keeps.Res.ite | apply Keeps.ite)
    | extract_lets | intro _ | split | dsimp only | with_reducible apply Keeps.lit

theorem execRemu_keeps {r0 s : State} (hk : Keeps r0 s) (d a b : SReg) : Keeps.Res r0 (execRemu d a b s) := by
  unfold execRemu
  repeat' first
    | (with_reducible first | assumption | apply State.give_keeps | apply Keeps.next | apply Keeps.Res.ite | apply Keeps.ite)
    | extract_lets | intro _ | split | dsimp only | with_reducible apply Keeps.lit

theorem execCmp_keeps {r0 s : State} (hk : Keeps r0 s) (kd : KReg) (a b : SReg) (cond : Cond) : Keeps.Res r0 (execCmp kd a b cond s) := by
  unfold execCmp
  repeat' first
    | (with_reducible first | assumption | apply State.give_keeps | apply Keeps.next | apply Keeps.Res.ite | apply Keeps.ite)
    | extract_lets | intro _ | split | dsimp only | with_reducible apply Keeps.lit

theorem execCmpi_keeps {r0 s : State} (hk : Keeps r0 s) (kd : KReg) (a : SReg) (imm : BitVec 24) (cond : Cond) : Keeps.Res r0 (execCmpi kd a imm cond s) := by
  unfold execCmpi
  repeat' first
    | (with_reducible first | assumption | apply State.give_keeps | apply Keeps.next | apply Keeps.Res.ite | apply Keeps.ite)
    | extract_lets | intro _ | split | dsimp only | with_reducible apply Keeps.lit

theorem execKop_keeps {r0 s : State} (hk : Keeps r0 s) (kd ka kb : KReg) (op : KFun) : Keeps.Res r0 (execKop kd ka kb op s) := by
  unfold execKop
  repeat' first
    | (with_reducible first
        | assumption | apply Core.apply_wired | apply State.give_keeps | apply Keeps.next | apply Keeps.Res.ite
        | apply Keeps.ite)
    | extract_lets | intro _ | split | dsimp only | with_reducible apply Keeps.lit

end Sys2Proof.Machine
end

