-- ==== Sys2Proof/Laws/KeepsFlow.lean ====
section
/-!
SUPPORT. `Keeps` for the operations and meanings of Machine/Flow.lean.
-/
namespace Sys2Proof.Machine

open Sys2Proof

theorem State.flow_keeps {r0 s : State} {f : State → State} (hk : Keeps r0 s) (hf : ∀ t, Keeps r0 t → Keeps r0 (f t)) :
    Keeps.Res r0 (State.flow s f) := by
  unfold State.flow
  repeat' first
    | exact Keeps.next (hf _ hk)
    | exact Keeps.next (State.ctlFault_keeps hk _ _ _ _)
    | split

theorem State.branchTo_keeps {r0 s : State} (hk : Keeps r0 s) (off : BitVec 24) : Keeps r0 (State.branchTo s off) := by
  unfold State.branchTo
  repeat' first
    | (with_reducible first | assumption | apply State.ctlFault_keeps | apply State.jumpTo_keeps | apply Keeps.ite)
    | extract_lets | intro _ | split | dsimp only | with_reducible apply Keeps.lit

theorem execB_keeps {r0 s : State} (hk : Keeps r0 s) (k : KReg) (sense : Bool) (off : BitVec 24) : Keeps.Res r0 (execB k sense off s) := by
  unfold execB
  repeat' first
    | (with_reducible first
        | assumption | apply State.advance_keeps | apply State.flow_keeps | apply State.branchTo_keeps | apply Keeps.next
        | apply Keeps.Res.ite | apply Keeps.ite)
    | extract_lets | intro _ | split | dsimp only | with_reducible apply Keeps.lit

theorem execJ_keeps {r0 s : State} (hk : Keeps r0 s) (off : BitVec 24) : Keeps.Res r0 (execJ off s) := by
  unfold execJ
  repeat' first
    | (with_reducible first
        | assumption | apply State.flow_keeps | apply State.branchTo_keeps | apply Keeps.next | apply Keeps.Res.ite
        | apply Keeps.ite)
    | extract_lets | intro _ | split | dsimp only | with_reducible apply Keeps.lit

theorem State.indirect_keeps {r0 s : State} (hk : Keeps r0 s) (a : W64) (keep : Bool) : Keeps r0 (State.indirect s a keep) := by
  unfold State.indirect
  repeat' first
    | (with_reducible first | assumption | apply State.ctlFault_keeps | apply State.jumpTo_keeps | apply Keeps.ite)
    | extract_lets | intro _ | split | dsimp only | with_reducible apply Keeps.lit

theorem execJr_keeps {r0 s : State} (hk : Keeps r0 s) (a : SReg) : Keeps.Res r0 (execJr a s) := by
  unfold execJr
  repeat' first
    | (with_reducible first
        | assumption | apply State.flow_keeps | apply State.indirect_keeps | apply Keeps.next | apply Keeps.Res.ite
        | apply Keeps.ite)
    | extract_lets | intro _ | split | dsimp only | with_reducible apply Keeps.lit

theorem execRet_keeps {r0 s : State} (hk : Keeps r0 s) (a : SReg) : Keeps.Res r0 (execRet a s) := by
  unfold execRet
  repeat' first
    | (with_reducible first
        | assumption | apply State.flow_keeps | apply State.indirect_keeps | apply Keeps.next | apply Keeps.Res.ite
        | apply Keeps.ite)
    | extract_lets | intro _ | split | dsimp only | with_reducible apply Keeps.lit

theorem execJf_keeps {r0 s : State} (hk : Keeps r0 s) (tag : BitVec 16) (target : BitVec 12) : Keeps.Res r0 (execJf tag target s) := by
  unfold execJf
  repeat' first
    | (with_reducible first
        | assumption | apply State.ctlFault_keeps | apply State.jumpTo_keeps | apply State.flow_keeps | apply Keeps.next
        | apply Keeps.Res.ite | apply Keeps.ite)
    | extract_lets | intro _ | split | dsimp only | with_reducible apply Keeps.lit

theorem execCall_keeps {r0 s : State} (hk : Keeps r0 s) (d : SReg) (off : BitVec 24) : Keeps.Res r0 (execCall d off s) := by
  unfold execCall
  repeat' first
    | (with_reducible first
        | assumption | apply State.put_keeps | apply State.ctlFault_keeps | apply State.jumpTo_keeps | apply State.flow_keeps
        | apply Keeps.next | apply Keeps.Res.ite | apply Keeps.ite)
    | extract_lets | intro _ | split | dsimp only | with_reducible apply Keeps.lit

theorem State.pushLoop_keeps {r0 s : State} (hk : Keeps r0 s) (lvl : BitVec 2) (n : W32) (off : BitVec 24) : Keeps r0 (State.pushLoop s lvl n off) := by
  unfold State.pushLoop
  repeat' first
    | (with_reducible first
        | assumption | apply Keeps.modIss | apply Keeps.modCtl | apply Mem.set_wf | apply State.ctlFault_keeps
        | apply Keeps.ite)
    | extract_lets | intro _ | split | (have hw := ‹Core.wired _›; with_reducible exact hw.same rfl rfl) | dsimp only
    | with_reducible apply Keeps.lit

theorem execLoop_keeps {r0 s : State} (hk : Keeps r0 s) (lvl : BitVec 2) (count : BitVec 13) (off : BitVec 24) : Keeps.Res r0 (execLoop lvl count off s) := by
  unfold execLoop
  repeat' first
    | (with_reducible first
        | assumption | apply State.flow_keeps | apply State.pushLoop_keeps | apply Keeps.next | apply Keeps.Res.ite
        | apply Keeps.ite)
    | extract_lets | intro _ | split | dsimp only | with_reducible apply Keeps.lit

theorem execLoopr_keeps {r0 s : State} (hk : Keeps r0 s) (lvl : BitVec 2) (reg : BitVec 13) (off : BitVec 24) : Keeps.Res r0 (execLoopr lvl reg off s) := by
  unfold execLoopr
  repeat' first
    | (with_reducible first
        | assumption | apply State.ctlFault_keeps | apply State.flow_keeps | apply State.pushLoop_keeps | apply Keeps.next
        | apply Keeps.Res.ite | apply Keeps.ite)
    | extract_lets | intro _ | split | dsimp only | with_reducible apply Keeps.lit

theorem State.modCol_keeps {r0 s : State} (hk : Keeps r0 s) (col : Col) (f : Column → Column) : Keeps r0 (State.modCol s col f) := by
  unfold State.modCol
  repeat' first
    | (with_reducible first | assumption | apply Keeps.modIss | apply Keeps.ite) | extract_lets | intro _ | split | dsimp only
    | with_reducible apply Keeps.lit

theorem State.launch_keeps {r0 s : State} (hk : Keeps r0 s) (col : Col) (addr cnt : BitVec 8) (c : CReg) (t : TimeArg) : Keeps r0 (State.launch s col addr cnt c t) := by
  unfold State.launch
  repeat' first
    | (with_reducible first
        | assumption | apply State.ctlFault_keeps | apply State.advance_keeps | apply State.modCol_keeps | apply Keeps.ite)
    | extract_lets | intro _ | split | dsimp only | with_reducible apply Keeps.lit

theorem execVrun_keeps {r0 s : State} (hk : Keeps r0 s) (addr cnt : BitVec 8) (c : CReg) (t : TimeArg) : Keeps.Res r0 (execVrun addr cnt c t s) := by
  unfold execVrun
  repeat' first
    | (with_reducible first
        | assumption | apply State.launch_keeps | apply Keeps.next | apply Keeps.Res.ite | apply Keeps.ite)
    | extract_lets | intro _ | split | dsimp only | with_reducible apply Keeps.lit

theorem execMrun_keeps {r0 s : State} (hk : Keeps r0 s) (addr cnt : BitVec 8) (c : CReg) (t : TimeArg) : Keeps.Res r0 (execMrun addr cnt c t s) := by
  unfold execMrun
  repeat' first
    | (with_reducible first
        | assumption | apply State.launch_keeps | apply Keeps.next | apply Keeps.Res.ite | apply Keeps.ite)
    | extract_lets | intro _ | split | dsimp only | with_reducible apply Keeps.lit

theorem execTrun_keeps {r0 s : State} (hk : Keeps r0 s) (addr cnt : BitVec 8) (c : CReg) (t : TimeArg) : Keeps.Res r0 (execTrun addr cnt c t s) := by
  unfold execTrun
  repeat' first
    | (with_reducible first
        | assumption | apply State.launch_keeps | apply Keeps.next | apply Keeps.Res.ite | apply Keeps.ite)
    | extract_lets | intro _ | split | dsimp only | with_reducible apply Keeps.lit

end Sys2Proof.Machine
end

