-- ==== Sys2Proof/Laws/KeepsColumn.lean ====
section
/-!
SUPPORT. `Keeps` for the operations and meanings of Machine/Column.lean.
-/
namespace Sys2Proof.Machine

open Sys2Proof

theorem State.checkRead_keeps {r0 s t : State} {st : Stream} {col : Col} {a : W64} {bytes : BitVec 128} {fmts : Option (List Fmt)}
    (e : s.checkRead st col a bytes fmts = .ok t) (hk : Keeps r0 s) : Keeps r0 t := by
  unfold State.checkRead at e
  repeat' split at e
  all_goals first
    | (cases e; done)
    | (cases e; exact Keeps.modIss hk)

theorem State.checkWrite_keeps {r0 s t : State} {st : Stream} {col : Col} {a : W64} {bytes : BitVec 128}
    {fmts : Option (List Fmt)} {due : Nat} (e : s.checkWrite st col a bytes fmts due = .ok t) (hk : Keeps r0 s) : Keeps r0 t := by
  unfold State.checkWrite at e
  split at e
  · cases e
  · split at e
    · cases e
    · obtain rfl := Except.ok.inj e
      exact Keeps.ite (fun _ => Keeps.modIss hk) fun _ => hk

theorem State.putRow_keeps {r0 s : State} (hk : Keeps r0 s) (st : Stream) (col : Col) (a : W64) (row : Row) (bytes : BitVec 128) (due : Nat) : Keeps r0 (State.putRow s st col a row bytes due) := by
  unfold State.putRow
  repeat' first
    | (with_reducible first | assumption | apply Keeps.modIss | apply Keeps.ite) | extract_lets | intro _ | split | dsimp only
    | with_reducible apply Keeps.lit

theorem State.restoreRows_keeps {r0 s : State} (hk : Keeps r0 s) (old : List Row) : Keeps r0 (State.restoreRows s old) := by
  unfold State.restoreRows
  repeat' first
    | (with_reducible first
        | assumption | apply Keeps.modC | apply Keeps.foldl | apply Mem.foldl_wf | apply Core.foldl_wired
        | apply Core.apply_wired | apply Keeps.ite)
    | extract_lets | intro _ | split | (have hw := ‹Core.wired _›; with_reducible exact hw.same rfl rfl) | dsimp only
    | with_reducible apply Keeps.lit

theorem State.undo_keeps {r0 s : State} (hk : Keeps r0 s) (col : Col) (st : Stream) : Keeps r0 (State.undo s col st) := by
  unfold State.undo
  repeat' first
    | (with_reducible first | assumption | apply State.modCol_keeps | apply State.restoreRows_keeps | apply Keeps.ite)
    | extract_lets | intro _ | split | dsimp only | with_reducible apply Keeps.lit

theorem State.colFault_keeps {r0 s : State} (hk : Keeps r0 s) (col : Col) (st : Stream) (h : Halt) : Keeps r0 (State.colFault s col st h) := by
  unfold State.colFault
  repeat' first
    | (with_reducible first
        | assumption | apply Keeps.mem | apply Keeps.modIss | apply Mem.markPoison_wf | apply State.raise_keeps
        | apply State.modCol_keeps | apply State.undo_keeps | apply Keeps.ite)
    | extract_lets | intro _ | (with_reducible first | apply Mem.ite_wf | apply Mem.lit_wf) | split | dsimp only
    | with_reducible apply Keeps.lit | with_reducible apply Keeps.litMem

theorem State.setStream_keeps {r0 s : State} (hk : Keeps r0 s) (col : Col) (st : Stream) : Keeps r0 (State.setStream s col st) := by
  unfold State.setStream
  repeat' first
    | (with_reducible first | assumption | apply State.modCol_keeps | apply Keeps.ite) | extract_lets | intro _ | split
    | dsimp only | with_reducible apply Keeps.lit

theorem State.opDone_keeps {r0 s : State} (hk : Keeps r0 s) (col : Col) (st : Stream) (stp : Stp) (due : Nat) : Keeps r0 (State.opDone s col st stp due) := by
  unfold State.opDone
  repeat' first
    | (with_reducible first | assumption | apply State.setStream_keeps | apply Keeps.ite) | extract_lets | intro _ | split
    | dsimp only | with_reducible apply Keeps.lit

theorem State.operate_keeps {r0 s : State} (hk : Keeps r0 s) (col : Col) (stp : Stp) (due : Nat) {f : Stream → Part? State}
    (hf : ∀ st, Keeps.Part r0 (f st)) : Keeps.Res r0 (s.operate col stp due f) := by
  unfold State.operate
  split
  · exact Keeps.next hk
  · split
    · exact Keeps.next (State.colFault_keeps hk _ _ _)
    · exact Keeps.next (State.opDone_keeps (hf _ _ ‹_›) _ _ _ _)

theorem execStreamStart_keeps {r0 s : State} (hk : Keeps r0 s) (core : Nat) (col : Col) : Keeps.Res r0 (execStreamStart core col s) := by
  unfold execStreamStart
  repeat' first
    | (with_reducible first
        | assumption | apply Keeps.focus | apply State.raise_keeps | apply State.modCol_keeps | apply Keeps.next
        | apply Keeps.Res.ite | apply Keeps.ite)
    | extract_lets | intro _ | split | dsimp only | with_reducible apply Keeps.lit

theorem execStreamEndEvent_keeps {r0 s : State} (hk : Keeps r0 s) (core : Nat) (col : Col) : Keeps.Res r0 (execStreamEndEvent core col s) := by
  unfold execStreamEndEvent
  repeat' first
    | (with_reducible first
        | assumption | apply Keeps.focus | apply State.modCol_keeps | apply Keeps.next | apply Keeps.Res.ite | apply Keeps.ite)
    | extract_lets | intro _ | split | dsimp only | with_reducible apply Keeps.lit

end Sys2Proof.Machine
end

