-- ==== Sys2Proof/Laws/KeepsTranslate.lean ====
section
/-!
SUPPORT. `Keeps` for the operations and meanings of Machine/Translate.lean.
-/
namespace Sys2Proof.Machine

open Sys2Proof

theorem State.cachePage_keeps {r0 s : State} (hk : Keeps r0 s) (master world va : Nat) : Keeps r0 (State.cachePage s master world va) := by
  unfold State.cachePage
  repeat' first
    | (with_reducible first | assumption | apply Keeps.modDisp | apply Keeps.ite) | extract_lets | intro _ | split
    | dsimp only | with_reducible apply Keeps.lit

theorem Mem.lineWrite_wf {m n : Mem} {key a : Nat} {bs : List Byte} {b : Bool} (e : m.lineWrite key a bs = (b, n)) (h : m.wf = true) :
    n.wf = true := by
  unfold Mem.lineWrite at e
  dsimp only at e
  repeat' split at e
  all_goals
    cases e
    first
      | exact h
      | exact Mem.write_wf h _ _
theorem Mem.lineWrite2_wf {m : Mem} (h : m.wf = true) {key a : Nat} {bs : List Byte} : (m.lineWrite key a bs).2.wf = true :=
  Mem.lineWrite_wf (b := (m.lineWrite key a bs).1) rfl h

theorem State.dirty_keeps {r0 s : State} (hk : Keeps r0 s) (world pa : Nat) : Keeps r0 (State.dirty s world pa) := by
  unfold State.dirty
  repeat' first
    | (with_reducible first | assumption | apply Keeps.mem | apply Mem.set_wf | apply Mem.write_wf | apply Keeps.ite)
    | extract_lets | intro _ | (with_reducible first | apply Mem.ite_wf | apply Mem.lit_wf) | split | dsimp only
    | with_reducible apply Keeps.lit | with_reducible apply Keeps.litMem

theorem State.setPrefix_keeps {r0 s : State} (hk : Keeps r0 s) (p : Prefix) : Keeps r0 (State.setPrefix s p) := by
  unfold State.setPrefix
  repeat' first
    | (with_reducible first | assumption | apply Keeps.modEng | apply Mem.set_wf | apply Keeps.ite) | extract_lets | intro _
    | split | dsimp only | with_reducible apply Keeps.lit

theorem State.noteDamage_keeps {r0 s : State} (hk : Keeps r0 s) (u : Nat) (hbm : Bool) : Keeps r0 (State.noteDamage s u hbm) := by
  unfold State.noteDamage
  repeat' first
    | (with_reducible first
        | assumption | apply Keeps.mem | apply Keeps.modEng | apply Mem.markPoison_wf | apply State.setPrefix_keeps
        | apply Keeps.ite)
    | extract_lets | intro _ | (with_reducible first | apply Mem.ite_wf | apply Mem.lit_wf) | split | dsimp only
    | with_reducible apply Keeps.lit | with_reducible apply Keeps.litMem

theorem State.failLine_keeps {r0 s : State} (hk : Keeps r0 s) (key a : Nat) : Keeps r0 (State.failLine s key a) := by
  unfold State.failLine
  repeat' first
    | (with_reducible first | assumption | apply Keeps.mem | apply State.noteDamage_keeps | apply Keeps.ite) | extract_lets
    | intro _ | (with_reducible first | apply Mem.ite_wf | apply Mem.lit_wf) | split | dsimp only
    | with_reducible apply Keeps.lit | with_reducible apply Keeps.litMem

end Sys2Proof.Machine
end

