-- ==== Sys2Proof/Laws/KeepsFirmware.lean ====
section
/-!
SUPPORT. `Keeps` for the operations and meanings of Machine/Firmware.lean.
-/
namespace Sys2Proof.Machine

open Sys2Proof

theorem State.writeWidx_keeps {r0 s : State} (hk : Keeps r0 s) (j : Nat) (q : BitVec 2) (v : BitVec 32) : Keeps r0 (State.writeWidx s j q v) := by
  unfold State.writeWidx
  repeat' first
    | (with_reducible first | assumption | apply Mem.set_wf | apply State.setJetton_keeps | apply Keeps.ite) | extract_lets
    | intro _ | split | dsimp only | with_reducible apply Keeps.lit

theorem State.writeJetton_keeps {r0 s : State} (hk : Keeps r0 s) (j : Nat) (f : JField) (v : BitVec 256) : Keeps r0 (State.writeJetton s j f v) := by
  unfold State.writeJetton
  repeat' first
    | (with_reducible first
        | assumption | apply Mem.set_wf | apply State.setJetton_keeps | apply State.writeWidx_keeps | apply Keeps.ite)
    | extract_lets | intro _ | split | dsimp only | with_reducible apply Keeps.lit

theorem State.fwWriteJetton_keeps {r0 s : State} (hk : Keeps r0 s) (j byte : Nat) (bs : List Byte) : Keeps r0 (State.fwWriteJetton s j byte bs) := by
  unfold State.fwWriteJetton
  repeat' first
    | (with_reducible first
        | assumption | apply Keeps.foldl | apply Mem.foldl_wf | apply Core.foldl_wired | apply State.writeJetton_keeps
        | apply Keeps.ite)
    | extract_lets | intro _ | split | dsimp only | with_reducible apply Keeps.lit

theorem State.fwWriteContext_keeps {r0 s : State} (hk : Keeps r0 s) (w : World) (byte : Nat) (bs : List Byte) : Keeps r0 (State.fwWriteContext s w byte bs) := by
  unfold State.fwWriteContext
  repeat' first
    | (with_reducible first
        | assumption | apply Keeps.foldl | apply Mem.foldl_wf | apply Core.foldl_wired | apply Mem.write_wf
        | apply State.modWorld_keeps | apply Keeps.ite)
    | extract_lets | intro _ | split | dsimp only | with_reducible apply Keeps.lit

theorem State.fwWrite_keeps {r0 s : State} (hk : Keeps r0 s) (plugin : Bool) (w : StorePend) : Keeps r0 (State.fwWrite s plugin w) := by
  unfold State.fwWrite
  repeat' first
    | (with_reducible first
        | assumption | apply Keeps.mem | apply Keeps.modDisp | apply Mem.write_wf | apply State.record_keeps
        | apply State.storeWrite_keeps | apply Mem.lineWrite2_wf | refine Mem.lineWrite_wf (by assumption) ?_
        | apply State.dirty_keeps | apply State.fwWriteJetton_keeps | apply State.fwWriteContext_keeps | apply Keeps.ite)
    | extract_lets | intro _ | (with_reducible first | apply Mem.ite_wf | apply Mem.lit_wf) | split | dsimp only
    | with_reducible apply Keeps.lit | with_reducible apply Keeps.litMem

theorem State.fwStores_keeps {r0 s : State} (hk : Keeps r0 s) : Keeps r0 (State.fwStores s) := by
  unfold State.fwStores
  repeat' first
    | (with_reducible first
        | assumption | apply Keeps.modCore | apply Keeps.foldl | apply Mem.foldl_wf | apply Core.foldl_wired
        | apply State.fwWrite_keeps | apply Keeps.ite)
    | extract_lets | intro _ | split | (have hw := ‹Core.wired _›; with_reducible exact hw.same rfl rfl)
    | (have hg := ‹State.good _›; with_reducible exact (hg.getCore _).same rfl rfl) | dsimp only
    | with_reducible apply Keeps.lit

end Sys2Proof.Machine
end

