-- ==== Sys2Proof/Laws/KeepsSystem.lean ====
section
/-!
SUPPORT. `Keeps` for the operations and meanings of Machine/System.lean.
-/
namespace Sys2Proof.Machine

open Sys2Proof

theorem State.notInStub_keeps {r0 s : State} {f : State → State} (hk : Keeps r0 s) (hf : ∀ t, Keeps r0 t → Keeps r0 (f t)) :
    Keeps.Res r0 (State.notInStub s f) := by
  unfold State.notInStub
  repeat' first
    | exact Keeps.next (hf _ hk)
    | exact Keeps.next (State.ctlFault_keeps hk _ _ _ _)
    | split

theorem execDone_keeps {r0 s : State} (hk : Keeps r0 s) : Keeps.Res r0 (execDone s) := by
  unfold execDone
  repeat' first
    | (with_reducible first
        | assumption | apply Keeps.modIss | apply State.await_keeps | apply State.flow_keeps | apply Keeps.next
        | apply Keeps.Res.ite | apply Keeps.ite)
    | extract_lets | intro _ | split | dsimp only | with_reducible apply Keeps.lit

theorem execTrap_keeps {r0 s : State} (hk : Keeps r0 s) (k : KReg) (sense : Bool) (code : BitVec 16) : Keeps.Res r0 (execTrap k sense code s) := by
  unfold execTrap
  repeat' first
    | (with_reducible first
        | assumption | apply State.ctlFault_keeps | apply State.advance_keeps | apply State.notInStub_keeps | apply Keeps.next
        | apply Keeps.Res.ite | apply Keeps.ite)
    | extract_lets | intro _ | split | dsimp only | with_reducible apply Keeps.lit

theorem State.fwCall_keeps {r0 s : State} (hk : Keeps r0 s) (f : Fw) : Keeps r0 (State.fwCall s f) := by
  unfold State.fwCall
  repeat' first
    | (with_reducible first
        | assumption | apply Keeps.modC | apply State.ctlFault_keeps | apply State.jumpTo_keeps | apply Keeps.ite)
    | extract_lets | intro _ | split | (have hw := ‹Core.wired _›; with_reducible exact hw.same rfl rfl) | dsimp only
    | with_reducible apply Keeps.lit

theorem execSvc_keeps {r0 s : State} (hk : Keeps r0 s) (a : SReg) (code : BitVec 16) : Keeps.Res r0 (execSvc a code s) := by
  unfold execSvc
  repeat' first
    | (with_reducible first
        | assumption | apply State.ctlFault_keeps | apply State.notInStub_keeps | apply State.fwCall_keeps | apply Keeps.next
        | apply Keeps.Res.ite | apply Keeps.ite)
    | extract_lets | intro _ | split | dsimp only | with_reducible apply Keeps.lit

theorem execEret_keeps {r0 s : State} (hk : Keeps r0 s) : Keeps.Res r0 (execEret s) := by
  unfold execEret
  repeat' first
    | (with_reducible first
        | assumption | apply Keeps.modC | apply State.ctlFault_keeps | apply State.jumpTo_keeps | apply State.stubReturn_keeps
        | apply Keeps.next | apply Keeps.Res.ite | apply Keeps.ite)
    | extract_lets | intro _ | split | (have hw := ‹Core.wired _›; with_reducible exact hw.same rfl rfl) | dsimp only
    | with_reducible apply Keeps.lit

theorem execSrd_keeps {r0 s : State} (hk : Keeps r0 s) (d : SReg) (num : BitVec 8) : Keeps.Res r0 (execSrd d num s) := by
  unfold execSrd
  repeat' first
    | (with_reducible first
        | assumption | apply State.ctlFault_keeps | apply State.alu_keeps | apply Keeps.next | apply Keeps.Res.ite
        | apply Keeps.ite)
    | extract_lets | intro _ | split | dsimp only | with_reducible apply Keeps.lit

theorem execSwr_keeps {r0 s : State} (hk : Keeps r0 s) (num : BitVec 8) (a : SReg) : Keeps.Res r0 (execSwr num a s) := by
  unfold execSwr
  repeat' first
    | (with_reducible first
        | assumption | apply State.ctlFault_keeps | apply State.give_keeps | apply Keeps.next | apply Keeps.Res.ite
        | apply Keeps.ite)
    | extract_lets | intro _ | split | dsimp only | with_reducible apply Keeps.lit

theorem execTime_keeps {r0 s : State} (hk : Keeps r0 s) (d a : SReg) (tb : Bool) : Keeps.Res r0 (execTime d a tb s) := by
  unfold execTime
  repeat' first
    | (with_reducible first | assumption | apply State.alu_keeps | apply Keeps.next | apply Keeps.Res.ite | apply Keeps.ite)
    | extract_lets | intro _ | split | dsimp only | with_reducible apply Keeps.lit

theorem execBkpt_keeps {r0 s : State} (hk : Keeps r0 s) (code : BitVec 16) : Keeps.Res r0 (execBkpt code s) := by
  unfold execBkpt
  repeat' first
    | (with_reducible first
        | assumption | apply State.ctlFault_keeps | apply State.notInStub_keeps | apply Keeps.next | apply Keeps.Res.ite
        | apply Keeps.ite)
    | extract_lets | intro _ | split | dsimp only | with_reducible apply Keeps.lit

end Sys2Proof.Machine
end

