-- ==== Sys2Proof/Laws/KeepsMem.lean ====
section
/-!
SUPPORT. `Keeps` for the operations and meanings of Machine/Mem.lean.
-/
namespace Sys2Proof.Machine

open Sys2Proof

theorem State.useWide_keeps {r0 s : State} (hk : Keeps r0 s) (a : Nat) : Keeps r0 (State.useWide s a) := by
  unfold State.useWide
  repeat' first
    | (with_reducible first | assumption | apply Keeps.modIss | apply Keeps.ite) | extract_lets | intro _ | split | dsimp only
    | with_reducible apply Keeps.lit

theorem State.loadDamage_keeps {r0 s t : State} {a n : Nat} (e : s.loadDamage a n = some t) (hk : Keeps r0 s) : Keeps r0 t := by
  unfold State.loadDamage at e
  simp only [Option.map_eq_some_iff] at e
  obtain ⟨u, -, rfl⟩ := e
  exact State.ctlFault_keeps (Keeps.ite (fun _ => State.noteDamage_keeps hk _ _)
    fun _ => Keeps.mem hk fun _ hm => Mem.markPoison_wf hm _) _ _ _ _

theorem State.loadInto_keeps {r0 s : State} (hk : Keeps r0 s) (a n : Nat) (dst : LoadTo) : Keeps r0 (State.loadInto s a n dst) := by
  unfold State.loadInto
  repeat' first
    | (with_reducible first
        | assumption | apply State.put_keeps | refine State.loadDamage_keeps (by assumption) ?_ | apply Keeps.ite)
    | extract_lets | intro _ | split | dsimp only | with_reducible apply Keeps.lit

theorem State.load_keeps {r0 s : State} (hk : Keeps r0 s) (c : Cap) (a : W64) (n : Nat) (wide : Bool) (dst : LoadTo) : Keeps r0 (State.load s c a n wide dst) := by
  unfold State.load
  repeat' first
    | (with_reducible first
        | assumption | apply State.ctlFault_keeps | apply State.advance_keeps | apply State.await_keeps
        | apply State.useWide_keeps | apply State.loadInto_keeps | apply Keeps.ite)
    | extract_lets | intro _ | split | dsimp only | with_reducible apply Keeps.lit

theorem execLd_keeps {r0 s : State} (hk : Keeps r0 s) (d : SReg) (c : CReg) (sz : Size) (off : BitVec 24) : Keeps.Res r0 (execLd d c sz off s) := by
  unfold execLd
  repeat' first
    | (with_reducible first | assumption | apply State.load_keeps | apply Keeps.next | apply Keeps.Res.ite | apply Keeps.ite)
    | extract_lets | intro _ | split | dsimp only | with_reducible apply Keeps.lit

theorem execLds_keeps {r0 s : State} (hk : Keeps r0 s) (d : SReg) (c : CReg) (sz : Size) (off : BitVec 24) : Keeps.Res r0 (execLds d c sz off s) := by
  unfold execLds
  repeat' first
    | (with_reducible first | assumption | apply State.load_keeps | apply Keeps.next | apply Keeps.Res.ite | apply Keeps.ite)
    | extract_lets | intro _ | split | dsimp only | with_reducible apply Keeps.lit

theorem execLdc_keeps {r0 s : State} (hk : Keeps r0 s) (cd c : CReg) (off : BitVec 24) : Keeps.Res r0 (execLdc cd c off s) := by
  unfold execLdc
  repeat' first
    | (with_reducible first | assumption | apply State.load_keeps | apply Keeps.next | apply Keeps.Res.ite | apply Keeps.ite)
    | extract_lets | intro _ | split | dsimp only | with_reducible apply Keeps.lit

theorem State.storeDamage_keeps {r0 s t : State} {a : Nat} (e : s.storeDamage a = some t) (hk : Keeps r0 s) : Keeps r0 t := by
  unfold State.storeDamage at e
  split at e
  · cases e
  · cases e; exact State.ctlFault_keeps (State.failLine_keeps hk _ _) _ _ _ _

theorem State.store_keeps {r0 s : State} (hk : Keeps r0 s) (c : Cap) (a : W64) (bs : List Byte) (need : Nat) (tag : Option Bool) (wide : Bool) : Keeps r0 (State.store s c a bs need tag wide) := by
  unfold State.store
  repeat' first
    | (with_reducible first
        | assumption | apply Keeps.modIss | apply State.ctlFault_keeps | apply State.advance_keeps | apply State.useWide_keeps
        | refine State.storeDamage_keeps (by assumption) ?_ | apply Keeps.ite)
    | extract_lets | intro _ | split | dsimp only | with_reducible apply Keeps.lit

theorem execSt_keeps {r0 s : State} (hk : Keeps r0 s) (d : SReg) (c : CReg) (sz : Size) (off : BitVec 24) : Keeps.Res r0 (execSt d c sz off s) := by
  unfold execSt
  repeat' first
    | (with_reducible first | assumption | apply State.store_keeps | apply Keeps.next | apply Keeps.Res.ite | apply Keeps.ite)
    | extract_lets | intro _ | split | dsimp only | with_reducible apply Keeps.lit

theorem execStc_keeps {r0 s : State} (hk : Keeps r0 s) (cd c : CReg) (off : BitVec 24) : Keeps.Res r0 (execStc cd c off s) := by
  unfold execStc
  repeat' first
    | (with_reducible first | assumption | apply State.store_keeps | apply Keeps.next | apply Keeps.Res.ite | apply Keeps.ite)
    | extract_lets | intro _ | split | dsimp only | with_reducible apply Keeps.lit

theorem execLoadStallComplete_keeps {r0 s : State} (hk : Keeps r0 s) (core : Nat) : Keeps.Res r0 (execLoadStallComplete core s) := by
  unfold execLoadStallComplete
  repeat' first
    | (with_reducible first
        | assumption | apply Keeps.modIss | apply Keeps.focus | apply State.completeWait_keeps | apply State.loadInto_keeps
        | apply State.load_keeps | apply Keeps.next | apply Keeps.Res.ite | apply Keeps.ite)
    | extract_lets | intro _ | split | dsimp only | with_reducible apply Keeps.lit

theorem State.capResult_keeps {r0 s : State} (hk : Keeps r0 s) (cd : CReg) (r : Except Cause Cap) (addr : W64) : Keeps.Res r0 (State.capResult s cd r addr) := by
  unfold State.capResult
  repeat' first
    | (with_reducible first
        | assumption | apply State.ctlFault_keeps | apply State.give_keeps | apply Keeps.next | apply Keeps.Res.ite
        | apply Keeps.ite)
    | extract_lets | intro _ | split | dsimp only | with_reducible apply Keeps.lit

theorem execCbnd_keeps {r0 s : State} (hk : Keeps r0 s) (cd ca : CReg) (b : SReg) : Keeps.Res r0 (execCbnd cd ca b s) := by
  unfold execCbnd
  repeat' first
    | (with_reducible first
        | assumption | apply State.capResult_keeps | apply Keeps.next | apply Keeps.Res.ite | apply Keeps.ite)
    | extract_lets | intro _ | split | dsimp only | with_reducible apply Keeps.lit

theorem execCperm_keeps {r0 s : State} (hk : Keeps r0 s) (cd ca : CReg) (b : SReg) : Keeps.Res r0 (execCperm cd ca b s) := by
  unfold execCperm
  repeat' first
    | (with_reducible first
        | assumption | apply State.capResult_keeps | apply Keeps.next | apply Keeps.Res.ite | apply Keeps.ite)
    | extract_lets | intro _ | split | dsimp only | with_reducible apply Keeps.lit

theorem execCadd_keeps {r0 s : State} (hk : Keeps r0 s) (cd ca : CReg) (b : SReg) : Keeps.Res r0 (execCadd cd ca b s) := by
  unfold execCadd
  repeat' first
    | (with_reducible first
        | assumption | apply State.capResult_keeps | apply Keeps.next | apply Keeps.Res.ite | apply Keeps.ite)
    | extract_lets | intro _ | split | dsimp only | with_reducible apply Keeps.lit

theorem execCset_keeps {r0 s : State} (hk : Keeps r0 s) (cd ca : CReg) (b : SReg) : Keeps.Res r0 (execCset cd ca b s) := by
  unfold execCset
  repeat' first
    | (with_reducible first
        | assumption | apply State.capResult_keeps | apply Keeps.next | apply Keeps.Res.ite | apply Keeps.ite)
    | extract_lets | intro _ | split | dsimp only | with_reducible apply Keeps.lit

theorem execCget_keeps {r0 s : State} (hk : Keeps r0 s) (d : SReg) (ca : CReg) (field : BitVec 3) : Keeps.Res r0 (execCget d ca field s) := by
  unfold execCget
  repeat' first
    | (with_reducible first | assumption | apply State.alu_keeps | apply Keeps.next | apply Keeps.Res.ite | apply Keeps.ite)
    | extract_lets | intro _ | split | dsimp only | with_reducible apply Keeps.lit

theorem execCseal_keeps {r0 s : State} (hk : Keeps r0 s) (cd ca cb : CReg) : Keeps.Res r0 (execCseal cd ca cb s) := by
  unfold execCseal
  repeat' first
    | (with_reducible first
        | assumption | apply State.capResult_keeps | apply Keeps.next | apply Keeps.Res.ite | apply Keeps.ite)
    | extract_lets | intro _ | split | dsimp only | with_reducible apply Keeps.lit

theorem execCunsl_keeps {r0 s : State} (hk : Keeps r0 s) (cd ca cb : CReg) : Keeps.Res r0 (execCunsl cd ca cb s) := by
  unfold execCunsl
  repeat' first
    | (with_reducible first
        | assumption | apply State.capResult_keeps | apply Keeps.next | apply Keeps.Res.ite | apply Keeps.ite)
    | extract_lets | intro _ | split | dsimp only | with_reducible apply Keeps.lit

theorem execCtst_keeps {r0 s : State} (hk : Keeps r0 s) (kd : KReg) (ca : CReg) (cb : Option CReg) : Keeps.Res r0 (execCtst kd ca cb s) := by
  unfold execCtst
  repeat' first
    | (with_reducible first | assumption | apply State.give_keeps | apply Keeps.next | apply Keeps.Res.ite | apply Keeps.ite)
    | extract_lets | intro _ | split | dsimp only | with_reducible apply Keeps.lit

end Sys2Proof.Machine
end

