-- ==== Sys2Proof/Laws/KeepsHome.lean ====
section
/-!
SUPPORT. `Keeps` for the operations and meanings of Machine/Home.lean.
-/
namespace Sys2Proof.Machine

open Sys2Proof

theorem State.demote_keeps {r0 s : State} (hk : Keeps r0 s) (x : Scope) : Keeps r0 (State.demote s x) := by
  unfold State.demote
  repeat' first
    | (with_reducible first | assumption | apply Keeps.modSys | apply Keeps.ite) | extract_lets | intro _ | split | dsimp only
    | with_reducible apply Keeps.lit

theorem State.sendHome_keeps {r0 s : State} (hk : Keeps r0 s) (va : W64) (what : HomeDo) (home : HomeAt) (h : Nat) (blockers : List Nat) (waits : Bool) (dst : Option SReg) (lo : W64) (hi : Nat) : Keeps r0 (State.sendHome s va what home h blockers waits dst lo hi) := by
  unfold State.sendHome
  repeat' first
    | (with_reducible first
        | assumption | apply Keeps.modEng | apply State.fresh2_keeps | refine State.fresh_keeps (by assumption) ?_
        | apply State.advance_keeps | apply State.await_keeps | apply Keeps.ite)
    | extract_lets | intro _ | split | dsimp only | with_reducible apply Keeps.lit

theorem State.laterFault_keeps {r0 s : State} (hk : Keeps r0 s) (cycle : Nat) (c : Cause) (addr : W64) (src det : Nat) : Keeps r0 (State.laterFault s cycle c addr src det) := by
  unfold State.laterFault
  repeat' first
    | (with_reducible first | assumption | apply Keeps.modIss | apply Keeps.ite) | extract_lets | intro _ | split | dsimp only
    | with_reducible apply Keeps.lit

theorem State.reportXlate_keeps {r0 s : State} (hk : Keeps r0 s) (world : Nat) (va : W64) (who : Waiter) : Keeps r0 (State.reportXlate s world va who) := by
  unfold State.reportXlate
  repeat' first
    | (with_reducible first | assumption | apply Keeps.modDisp | apply Keeps.ite) | extract_lets | intro _ | split
    | dsimp only | with_reducible apply Keeps.lit

theorem State.discardHome_keeps {r0 s : State} (hk : Keeps r0 s) (va : W64) (c : Cause) (report waits : Bool) (at_ : Nat) : Keeps r0 (State.discardHome s va c report waits at_) := by
  unfold State.discardHome
  repeat' first
    | (with_reducible first
        | assumption | apply State.at__keeps | apply State.advance_keeps | apply State.await_keeps
        | apply State.laterFault_keeps | apply State.reportXlate_keeps | apply Keeps.ite)
    | extract_lets | intro _ | split | dsimp only | with_reducible apply Keeps.lit

theorem State.issueHome_keeps {r0 s : State} (hk : Keeps r0 s) (c : Cap) (va : W64) (n need : Nat) (what : HomeDo) (blockers : List Nat) (waits : Bool) (dst : Option SReg) : Keeps r0 (State.issueHome s c va n need what blockers waits dst) := by
  unfold State.issueHome
  repeat' first
    | (with_reducible first
        | assumption | apply State.say_keeps | apply State.ctlFault_keeps | apply State.cachePage_keeps
        | apply State.sendHome_keeps | apply State.discardHome_keeps | apply Keeps.ite)
    | extract_lets | intro _ | split | dsimp only | with_reducible apply Keeps.lit

theorem execAadd_keeps {r0 s : State} (hk : Keeps r0 s) (d : SReg) (c : CReg) (int32 : Bool) (off : BitVec 24) : Keeps.Res r0 (execAadd d c int32 off s) := by
  unfold execAadd
  repeat' first
    | (with_reducible first
        | assumption | apply State.issueHome_keeps | apply Keeps.next | apply Keeps.Res.ite | apply Keeps.ite)
    | extract_lets | intro _ | split | dsimp only | with_reducible apply Keeps.lit

theorem execAxch_keeps {r0 s : State} (hk : Keeps r0 s) (d : SReg) (c : CReg) (off : BitVec 24) : Keeps.Res r0 (execAxch d c off s) := by
  unfold execAxch
  repeat' first
    | (with_reducible first
        | assumption | apply State.issueHome_keeps | apply Keeps.next | apply Keeps.Res.ite | apply Keeps.ite)
    | extract_lets | intro _ | split | dsimp only | with_reducible apply Keeps.lit

theorem execAcas_keeps {r0 s : State} (hk : Keeps r0 s) (d : SReg) (c : CReg) (off : BitVec 24) : Keeps.Res r0 (execAcas d c off s) := by
  unfold execAcas
  repeat' first
    | (with_reducible first
        | assumption | apply State.ctlFault_keeps | apply State.issueHome_keeps | apply Keeps.next | apply Keeps.Res.ite
        | apply Keeps.ite)
    | extract_lets | intro _ | split | dsimp only | with_reducible apply Keeps.lit

theorem execAld_keeps {r0 s : State} (hk : Keeps r0 s) (d : SReg) (c : CReg) (off : BitVec 24) : Keeps.Res r0 (execAld d c off s) := by
  unfold execAld
  repeat' first
    | (with_reducible first
        | assumption | apply State.issueHome_keeps | apply Keeps.next | apply Keeps.Res.ite | apply Keeps.ite)
    | extract_lets | intro _ | split | dsimp only | with_reducible apply Keeps.lit

theorem execAst_keeps {r0 s : State} (hk : Keeps r0 s) (d : SReg) (c : CReg) (off : BitVec 24) : Keeps.Res r0 (execAst d c off s) := by
  unfold execAst
  repeat' first
    | (with_reducible first
        | assumption | apply State.issueHome_keeps | apply Keeps.next | apply Keeps.Res.ite | apply Keeps.ite)
    | extract_lets | intro _ | split | dsimp only | with_reducible apply Keeps.lit

theorem State.waitWord_keeps {r0 s : State} {f : State → State} (hk : Keeps r0 s) (hf : ∀ t, Keeps r0 t → Keeps r0 (f t)) :
    Keeps.Res r0 (State.waitWord s f) := by
  unfold State.waitWord
  repeat' first
    | exact Keeps.next (hf _ hk)
    | exact Keeps.next (State.ctlFault_keeps hk _ _ _ _)
    | split

theorem execSsig_keeps {r0 s : State} (hk : Keeps r0 s) (d : SReg) (c : CReg) (scope : Scope) (off : BitVec 24) : Keeps.Res r0 (execSsig d c scope off s) := by
  unfold execSsig
  repeat' first
    | (with_reducible first
        | assumption | apply State.demote_keeps | apply State.issueHome_keeps | apply Keeps.next | apply Keeps.Res.ite
        | apply Keeps.ite)
    | extract_lets | intro _ | split | dsimp only | with_reducible apply Keeps.lit

theorem execSset_keeps {r0 s : State} (hk : Keeps r0 s) (d : SReg) (c : CReg) (off : BitVec 24) : Keeps.Res r0 (execSset d c off s) := by
  unfold execSset
  repeat' first
    | (with_reducible first
        | assumption | apply State.issueHome_keeps | apply Keeps.next | apply Keeps.Res.ite | apply Keeps.ite)
    | extract_lets | intro _ | split | dsimp only | with_reducible apply Keeps.lit

theorem execSwait_keeps {r0 s : State} (hk : Keeps r0 s) (d : SReg) (c : CReg) (cond : Cond) (off : BitVec 24) : Keeps.Res r0 (execSwait d c cond off s) := by
  unfold execSwait
  repeat' first
    | (with_reducible first
        | assumption | apply State.issueHome_keeps | apply State.waitWord_keeps | apply Keeps.next | apply Keeps.Res.ite
        | apply Keeps.ite)
    | extract_lets | intro _ | split | dsimp only | with_reducible apply Keeps.lit

theorem execSwaitConsume_keeps {r0 s : State} (hk : Keeps r0 s) (d : SReg) (c : CReg) (unsigned : Bool) (off : BitVec 24) : Keeps.Res r0 (execSwaitConsume d c unsigned off s) := by
  unfold execSwaitConsume
  repeat' first
    | (with_reducible first
        | assumption | apply State.issueHome_keeps | apply State.waitWord_keeps | apply Keeps.next | apply Keeps.Res.ite
        | apply Keeps.ite)
    | extract_lets | intro _ | split | dsimp only | with_reducible apply Keeps.lit

theorem execRel_keeps {r0 s : State} (hk : Keeps r0 s) (d : SReg) (c : CReg) (scope : Scope) (off : BitVec 24) : Keeps.Res r0 (execRel d c scope off s) := by
  unfold execRel
  repeat' first
    | (with_reducible first
        | assumption | apply State.demote_keeps | apply State.issueHome_keeps | apply Keeps.next | apply Keeps.Res.ite
        | apply Keeps.ite)
    | extract_lets | intro _ | split | dsimp only | with_reducible apply Keeps.lit

theorem execAcq_keeps {r0 s : State} (hk : Keeps r0 s) (d : SReg) (c : CReg) (cond : Cond) (_scope : Scope) (off : BitVec 24) : Keeps.Res r0 (execAcq d c cond _scope off s) := by
  unfold execAcq
  repeat' first
    | (with_reducible first
        | assumption | apply State.issueHome_keeps | apply State.waitWord_keeps | apply Keeps.next | apply Keeps.Res.ite
        | apply Keeps.ite)
    | extract_lets | intro _ | split | dsimp only | with_reducible apply Keeps.lit

theorem execCarry_keeps {r0 s : State} (hk : Keeps r0 s) (d : SReg) (c : CReg) (off : BitVec 24) : Keeps.Res r0 (execCarry d c off s) := by
  unfold execCarry
  repeat' first
    | (with_reducible first
        | assumption | apply State.issueHome_keeps | apply Keeps.next | apply Keeps.Res.ite | apply Keeps.ite)
    | extract_lets | intro _ | split | dsimp only | with_reducible apply Keeps.lit

theorem execRinit_keeps {r0 s : State} (hk : Keeps r0 s) (rn : RnReg) (a : SReg) : Keeps.Res r0 (execRinit rn a s) := by
  unfold execRinit
  repeat' first
    | (with_reducible first
        | assumption | apply Keeps.modC | apply Mem.set_wf | apply State.ctlFault_keeps | apply State.advance_keeps
        | apply Keeps.next | apply Keeps.Res.ite | apply Keeps.ite)
    | extract_lets | intro _ | split | (have hw := ‹Core.wired _›; with_reducible exact hw.same rfl rfl) | dsimp only
    | with_reducible apply Keeps.lit

theorem State.issueRing_keeps {r0 s : State} (hk : Keeps r0 s) (c : CReg) (rn : RnReg) (need : Nat) (what : HomeDo) (blockers : Nat → List Nat) (waits : Bool) (dst : Option SReg) : Keeps r0 (State.issueRing s c rn need what blockers waits dst) := by
  unfold State.issueRing
  repeat' first
    | (with_reducible first | assumption | apply State.ctlFault_keeps | apply State.sendHome_keeps | apply Keeps.ite)
    | extract_lets | intro _ | split | dsimp only | with_reducible apply Keeps.lit

theorem execRclm_keeps {r0 s : State} (hk : Keeps r0 s) (d : SReg) (c : CReg) (rn : RnReg) (n : BitVec 12) : Keeps.Res r0 (execRclm d c rn n s) := by
  unfold execRclm
  repeat' first
    | (with_reducible first
        | assumption | apply State.issueRing_keeps | apply Keeps.next | apply Keeps.Res.ite | apply Keeps.ite)
    | extract_lets | intro _ | split | dsimp only | with_reducible apply Keeps.lit

theorem execRwfl_keeps {r0 s : State} (hk : Keeps r0 s) (d : SReg) (c : CReg) (rn : RnReg) (n : BitVec 12) : Keeps.Res r0 (execRwfl d c rn n s) := by
  unfold execRwfl
  repeat' first
    | (with_reducible first
        | assumption | apply State.waitWord_keeps | apply State.issueRing_keeps | apply Keeps.next | apply Keeps.Res.ite
        | apply Keeps.ite)
    | extract_lets | intro _ | split | dsimp only | with_reducible apply Keeps.lit

theorem execRwfr_keeps {r0 s : State} (hk : Keeps r0 s) (d : SReg) (c : CReg) (rn : RnReg) (n : BitVec 12) : Keeps.Res r0 (execRwfr d c rn n s) := by
  unfold execRwfr
  repeat' first
    | (with_reducible first
        | assumption | apply State.waitWord_keeps | apply State.issueRing_keeps | apply Keeps.next | apply Keeps.Res.ite
        | apply Keeps.ite)
    | extract_lets | intro _ | split | dsimp only | with_reducible apply Keeps.lit

theorem execRpub_keeps {r0 s : State} (hk : Keeps r0 s) (c : CReg) (rn : RnReg) (n : BitVec 12) : Keeps.Res r0 (execRpub c rn n s) := by
  unfold execRpub
  repeat' first
    | (with_reducible first
        | assumption | apply State.issueRing_keeps | apply Keeps.next | apply Keeps.Res.ite | apply Keeps.ite)
    | extract_lets | intro _ | split | dsimp only | with_reducible apply Keeps.lit

theorem execRrel_keeps {r0 s : State} (hk : Keeps r0 s) (c : CReg) (rn : RnReg) (n : BitVec 12) : Keeps.Res r0 (execRrel c rn n s) := by
  unfold execRrel
  repeat' first
    | (with_reducible first
        | assumption | apply State.issueRing_keeps | apply Keeps.next | apply Keeps.Res.ite | apply Keeps.ite)
    | extract_lets | intro _ | split | dsimp only | with_reducible apply Keeps.lit

theorem execRstat_keeps {r0 s : State} (hk : Keeps r0 s) (d : SReg) (c : CReg) (rn : RnReg) : Keeps.Res r0 (execRstat d c rn s) := by
  unfold execRstat
  repeat' first
    | (with_reducible first
        | assumption | apply State.issueRing_keeps | apply Keeps.next | apply Keeps.Res.ite | apply Keeps.ite)
    | extract_lets | intro _ | split | dsimp only | with_reducible apply Keeps.lit

theorem State.writeHome_keeps {r0 s : State} (hk : Keeps r0 s) (h : HomeAt) (world off : Nat) (w : W32) : Keeps r0 (State.writeHome s h world off w) := by
  unfold State.writeHome
  repeat' first
    | (with_reducible first
        | assumption | apply Keeps.mem | apply Mem.setWord_wf | apply Mem.clearPoison_wf | apply State.dirty_keeps
        | apply Keeps.ite)
    | extract_lets | intro _ | (with_reducible first | apply Mem.ite_wf | apply Mem.lit_wf) | split | dsimp only
    | with_reducible apply Keeps.lit | with_reducible apply Keeps.litMem

theorem State.badHome_keeps {r0 s : State} (hk : Keeps r0 s) (h : HomeAt) (va : W64) (wr : Bool) : Keeps.Act r0 (s.badHome h va wr) := by
  unfold State.badHome
  repeat' first
    | (with_reducible first
        | assumption | apply Keeps.Act.done | apply Keeps.Act.fault | exact Keeps.Act.wait | apply Keeps.mem
        | apply Mem.markPoison_wf | apply State.noteDamage_keeps | apply State.failLine_keeps | apply Keeps.ite)
    | extract_lets | intro _ | (with_reducible first | apply Mem.ite_wf | apply Mem.lit_wf) | split | dsimp only
    | with_reducible apply Keeps.lit | with_reducible apply Keeps.litMem

theorem State.actCarry_keeps {r0 s : State} (hk : Keeps r0 s) (op : HomeOp) (owner group : BitVec 16) : Keeps.Act r0 (s.actCarry op owner group) := by
  unfold State.actCarry
  repeat' first
    | (with_reducible first
        | assumption | apply Keeps.Act.done | apply Keeps.Act.fault | exact Keeps.Act.wait | apply State.writeHome_keeps
        | apply State.badHome_keeps | apply Keeps.ite)
    | extract_lets | intro _ | split | dsimp only | with_reducible apply Keeps.lit

theorem State.actWord_keeps {r0 s : State} (hk : Keeps r0 s) (op : HomeOp) : Keeps.Act r0 (s.actWord op) := by
  unfold State.actWord
  repeat' first
    | (with_reducible first
        | assumption | apply Keeps.Act.done | apply Keeps.Act.fault | exact Keeps.Act.wait | apply State.writeHome_keeps
        | apply State.badHome_keeps | apply State.actCarry_keeps | apply Keeps.ite)
    | extract_lets | intro _ | split | dsimp only | with_reducible apply Keeps.lit

theorem State.actRing_keeps {r0 s : State} (hk : Keeps r0 s) (op : HomeOp) (i : Nat) (rn : RnReg) (p : Nat) : Keeps.Act r0 (s.actRing op i rn p) := by
  unfold State.actRing
  repeat' first
    | (with_reducible first
        | assumption | apply Keeps.Act.done | apply Keeps.Act.fault | exact Keeps.Act.wait | apply Keeps.modCore
        | apply Mem.set_wf | apply Keeps.ite)
    | extract_lets | intro _ | split | (have hw := ‹Core.wired _›; with_reducible exact hw.same rfl rfl)
    | (have hg := ‹State.good _›; with_reducible exact (hg.getCore _).same rfl rfl) | dsimp only
    | with_reducible apply Keeps.lit

theorem HomeOp.actVoid_keeps {r0 s : State} (hk : Keeps r0 s) (op : HomeOp) : Keeps.Act r0 (op.actVoid s) := by
  unfold HomeOp.actVoid
  split
  · exact Keeps.Act.wait
  · exact Keeps.Act.done hk _

theorem State.actAt_keeps {r0 s : State} (hk : Keeps r0 s) (op : HomeOp) : Keeps.Act r0 (s.actAt op) := by
  unfold State.actAt
  repeat' first
    | (with_reducible first
        | assumption | apply Keeps.Act.done | apply Keeps.Act.fault | exact Keeps.Act.wait | apply State.actWord_keeps
        | apply State.actRing_keeps | apply HomeOp.actVoid_keeps | apply Keeps.ite)
    | extract_lets | intro _ | split | dsimp only | with_reducible apply Keeps.lit

theorem State.actAt_done {r0 s t : State} {op : HomeOp} {v : Option W64} (e : s.actAt op = .done t v) (hk : Keeps r0 s) :
    Keeps r0 t := by
  have := State.actAt_keeps hk op; rw [e] at this; exact this

theorem State.actAt_fault {r0 s t : State} {op : HomeOp} {c : Cause} {a : W64} (e : s.actAt op = .fault t c a) (hk : Keeps r0 s) :
    Keeps r0 t := by
  have := State.actAt_keeps hk op; rw [e] at this; exact this

theorem State.modHome_keeps {r0 s : State} (hk : Keeps r0 s) (id : Nat) (f : HomeOp → HomeOp) : Keeps r0 (State.modHome s id f) := by
  unfold State.modHome
  repeat' first
    | (with_reducible first | assumption | apply Keeps.modEng | apply Keeps.ite) | extract_lets | intro _ | split | dsimp only
    | with_reducible apply Keeps.lit

theorem State.dropHome_keeps {r0 s : State} (hk : Keeps r0 s) (id : Nat) : Keeps r0 (State.dropHome s id) := by
  unfold State.dropHome
  repeat' first
    | (with_reducible first | assumption | apply Keeps.modEng | apply Keeps.ite) | extract_lets | intro _ | split | dsimp only
    | with_reducible apply Keeps.lit

theorem State.queueStop_keeps {r0 s : State} (hk : Keeps r0 s) (k : Nat) (id : Option Nat) (c : Cause) (violation : Bool) : Keeps r0 (State.queueStop s k id c violation) := by
  unfold State.queueStop
  repeat' first
    | (with_reducible first | assumption | apply Keeps.modDisp | apply Keeps.modEng | apply Keeps.ite) | extract_lets
    | intro _ | split | dsimp only | with_reducible apply Keeps.lit

theorem execHomeOperationAct_keeps {r0 s : State} (hk : Keeps r0 s) (id : Nat) : Keeps.Res r0 (execHomeOperationAct id s) := by
  unfold execHomeOperationAct
  repeat' first
    | (with_reducible first
        | assumption | apply State.say_keeps | apply State.accessDone_keeps | apply State.accessGone_keeps
        | apply State.actAt_keeps | refine State.actAt_done (by assumption) ?_ | refine State.actAt_fault (by assumption) ?_
        | apply State.modHome_keeps | apply State.dropHome_keeps | apply State.queueStop_keeps | apply Keeps.next
        | apply Keeps.Res.ite | apply Keeps.ite)
    | extract_lets | intro _ | split | dsimp only | with_reducible apply Keeps.lit

theorem State.homeReturn_keeps {r0 s : State} (hk : Keeps r0 s) (op : HomeOp) (i : Nat) : Keeps r0 (State.homeReturn s op i) := by
  unfold State.homeReturn
  repeat' first
    | (with_reducible first
        | assumption | apply Keeps.modCore | apply Core.apply_wired | apply State.deferFault_keeps
        | apply State.dropHome_keeps | apply Keeps.ite)
    | extract_lets | intro _ | split | (have hw := ‹Core.wired _›; with_reducible exact hw.same rfl rfl)
    | (have hg := ‹State.good _›; with_reducible exact (hg.getCore _).same rfl rfl) | dsimp only
    | with_reducible apply Keeps.lit

theorem execHomeOperationReturn_keeps {r0 s : State} (hk : Keeps r0 s) (id : Nat) : Keeps.Res r0 (execHomeOperationReturn id s) := by
  unfold execHomeOperationReturn
  repeat' first
    | (with_reducible first
        | assumption | apply State.dropHome_keeps | apply State.homeReturn_keeps | apply Keeps.next | apply Keeps.Res.ite
        | apply Keeps.ite)
    | extract_lets | intro _ | split | dsimp only | with_reducible apply Keeps.lit

theorem execHomeWaitComplete_keeps {r0 s : State} (hk : Keeps r0 s) (id : Nat) : Keeps.Res r0 (execHomeWaitComplete id s) := by
  unfold execHomeWaitComplete
  repeat' first
    | (with_reducible first
        | assumption | apply Keeps.focus | apply State.completeWait_keeps | apply State.dropHome_keeps
        | apply State.homeReturn_keeps | apply Keeps.next | apply Keeps.Res.ite | apply Keeps.ite)
    | extract_lets | intro _ | split | dsimp only | with_reducible apply Keeps.lit

end Sys2Proof.Machine
end

