-- ==== Sys2Proof/Laws/KeepsPhase.lean ====
section
/-!
SUPPORT. `Keeps` for the operations and meanings of Machine/Phase.lean.
-/
namespace Sys2Proof.Machine

open Sys2Proof

theorem State.completePhases_keeps {r0 s : State} (hk : Keeps r0 s) (id c fuel : Nat) : Keeps r0 (State.completePhases s id c fuel) := by
  induction fuel generalizing s id c with
  | zero =>
    unfold State.completePhases
    repeat' first
      | (with_reducible first | assumption | apply State.modDomain_keeps | apply Keeps.ite) | extract_lets | intro _ | split
      | dsimp only | with_reducible apply Keeps.lit
  | succ fuel ih =>
    unfold State.completePhases
    repeat' first
      | (with_reducible first | assumption | apply ih | apply State.modDomain_keeps | apply Keeps.ite) | extract_lets
      | intro _ | split | dsimp only | with_reducible apply Keeps.lit

theorem State.phaseEvent_keeps {r0 s : State} (hk : Keeps r0 s) (id : Nat) (f : Domain → Domain) : Keeps r0 (State.phaseEvent s id f) := by
  unfold State.phaseEvent
  repeat' first
    | (with_reducible first | assumption | apply State.modDomain_keeps | apply State.completePhases_keeps | apply Keeps.ite)
    | extract_lets | intro _ | split | dsimp only | with_reducible apply Keeps.lit

theorem execPhaseArrival_keeps {r0 s : State} (hk : Keeps r0 s) (dom core : Nat) (p : BitVec 32) : Keeps.Res r0 (execPhaseArrival dom core p s) := by
  unfold execPhaseArrival
  repeat' first
    | (with_reducible first
        | assumption | apply State.phaseEvent_keeps | apply Keeps.next | apply Keeps.Res.ite | apply Keeps.ite)
    | extract_lets | intro _ | split | (have hg := ‹State.good _›; with_reducible exact (hg.getCore _).same rfl rfl)
    | dsimp only | with_reducible apply Keeps.lit

theorem execPhaseCopyRegistration_keeps {r0 s : State} (hk : Keeps r0 s) (dom id : Nat) (p : BitVec 32) : Keeps.Res r0 (execPhaseCopyRegistration dom id p s) := by
  unfold execPhaseCopyRegistration
  repeat' first
    | (with_reducible first
        | assumption | apply State.phaseEvent_keeps | apply Keeps.next | apply Keeps.Res.ite | apply Keeps.ite)
    | extract_lets | intro _ | split | dsimp only | with_reducible apply Keeps.lit

theorem State.phaseCopyOver_keeps {r0 s : State} (hk : Keeps r0 s) (dom id : Nat) (p : BitVec 32) (i : Instr) : Keeps r0 (State.phaseCopyOver s dom id p i) := by
  unfold State.phaseCopyOver
  repeat' first
    | (with_reducible first | assumption | apply State.at__keeps | apply State.phaseEvent_keeps | apply Keeps.ite)
    | extract_lets | intro _ | split | dsimp only | with_reducible apply Keeps.lit

theorem execPhaseCopyLanding_keeps {r0 s : State} (hk : Keeps r0 s) (dom id : Nat) (p : BitVec 32) : Keeps.Res r0 (execPhaseCopyLanding dom id p s) := by
  unfold execPhaseCopyLanding
  repeat' first
    | (with_reducible first
        | assumption | apply State.phaseCopyOver_keeps | apply Keeps.next | apply Keeps.Res.ite | apply Keeps.ite)
    | extract_lets | intro _ | split | dsimp only | with_reducible apply Keeps.lit

theorem execPhaseCopyWithdrawal_keeps {r0 s : State} (hk : Keeps r0 s) (dom id : Nat) (p : BitVec 32) : Keeps.Res r0 (execPhaseCopyWithdrawal dom id p s) := by
  unfold execPhaseCopyWithdrawal
  repeat' first
    | (with_reducible first
        | assumption | apply State.phaseCopyOver_keeps | apply Keeps.next | apply Keeps.Res.ite | apply Keeps.ite)
    | extract_lets | intro _ | split | dsimp only | with_reducible apply Keeps.lit

theorem State.arrive_keeps {r0 s : State} (hk : Keeps r0 s) (lvl : BitVec 3) {f : State → BitVec 32 → State}
    (hf : ∀ t a, Keeps r0 t → Keeps r0 (f t a)) : Keeps r0 (s.arrive lvl f) := by
  unfold State.arrive
  dsimp only
  split
  · exact State.ctlFault_keeps hk _ _ _ _
  · split
    · exact State.ctlFault_keeps hk _ _ _ _
    · refine hf _ _ (Keeps.modBnd ?_)
      split
      · exact Keeps.lit (State.at__keeps hk _ _)
      · exact State.at__keeps hk _ _

theorem execParv_keeps {r0 s : State} (hk : Keeps r0 s) (d : SReg) (lvl : BitVec 3) : Keeps.Res r0 (execParv d lvl s) := by
  unfold execParv
  repeat' first
    | (with_reducible first
        | assumption | apply State.put_keeps | apply State.advance_keeps | apply State.arrive_keeps | apply Keeps.next
        | apply Keeps.Res.ite | apply Keeps.ite)
    | extract_lets | intro _ | split | dsimp only | with_reducible apply Keeps.lit

theorem execPwait_keeps {r0 s : State} (hk : Keeps r0 s) (lvl : BitVec 3) (a : SReg) : Keeps.Res r0 (execPwait lvl a s) := by
  unfold execPwait
  repeat' first
    | (with_reducible first
        | assumption | apply State.ctlFault_keeps | apply State.await_keeps | apply State.waitWord_keeps | apply Keeps.next
        | apply Keeps.Res.ite | apply Keeps.ite)
    | extract_lets | intro _ | split | dsimp only | with_reducible apply Keeps.lit

theorem execPbar_keeps {r0 s : State} (hk : Keeps r0 s) (lvl : BitVec 3) : Keeps.Res r0 (execPbar lvl s) := by
  unfold execPbar
  repeat' first
    | (with_reducible first
        | assumption | apply State.await_keeps | apply State.waitWord_keeps | apply State.arrive_keeps | apply Keeps.next
        | apply Keeps.Res.ite | apply Keeps.ite)
    | extract_lets | intro _ | split | dsimp only | with_reducible apply Keeps.lit

theorem execPhaseWaitComplete_keeps {r0 s : State} (hk : Keeps r0 s) (core : Nat) : Keeps.Res r0 (execPhaseWaitComplete core s) := by
  unfold execPhaseWaitComplete
  repeat' first
    | (with_reducible first
        | assumption | apply Keeps.focus | apply State.completeWait_keeps | apply Keeps.next | apply Keeps.Res.ite
        | apply Keeps.ite)
    | extract_lets | intro _ | split | dsimp only | with_reducible apply Keeps.lit

theorem execFence_keeps {r0 s : State} (hk : Keeps r0 s) (scope : Scope) : Keeps.Res r0 (execFence scope s) := by
  unfold execFence
  repeat' first
    | (with_reducible first
        | assumption | apply Keeps.modIss | apply State.advance_keeps | apply State.demote_keeps | apply Keeps.next
        | apply Keeps.Res.ite | apply Keeps.ite)
    | extract_lets | intro _ | split | dsimp only | with_reducible apply Keeps.lit

theorem execWev_keeps {r0 s : State} (hk : Keeps r0 s) : Keeps.Res r0 (execWev s) := by
  unfold execWev
  repeat' first
    | (with_reducible first
        | assumption | apply State.await_keeps | apply State.waitWord_keeps | apply Keeps.next | apply Keeps.Res.ite
        | apply Keeps.ite)
    | extract_lets | intro _ | split | dsimp only | with_reducible apply Keeps.lit

theorem execWevComplete_keeps {r0 s : State} (hk : Keeps r0 s) (core : Nat) : Keeps.Res r0 (execWevComplete core s) := by
  unfold execWevComplete
  repeat' first
    | (with_reducible first
        | assumption | apply Keeps.focus | apply State.completeWait_keeps | apply State.clearEvents_keeps | apply Keeps.next
        | apply Keeps.Res.ite | apply Keeps.ite)
    | extract_lets | intro _ | split | dsimp only | with_reducible apply Keeps.lit

end Sys2Proof.Machine
end

