-- ==== Sys2Proof/Laws/KeepsBeat.lean ====
section
/-!
SUPPORT. `Keeps` for the operations and meanings of Machine/Beat.lean.
-/
namespace Sys2Proof.Machine

open Sys2Proof

theorem State.takeSlot_keeps {r0 s t : State} {world cls c n : Nat} {rs : List PRun} {b : Bool}
    (e : s.takeSlot world cls rs c = (b, n, t)) (hk : Keeps r0 s) : Keeps r0 t := by
  unfold State.takeSlot at e
  split at e
  · cases e; exact hk
  · dsimp only at e
    split at e
    · cases e; exact Keeps.modEng hk
    · cases e; exact hk

theorem State.takeSlot2_keeps {r0 s : State} (hk : Keeps r0 s) {world cls c : Nat} {rs : List PRun} :
    Keeps r0 (s.takeSlot world cls rs c).2.2 := State.takeSlot_keeps rfl hk

end Sys2Proof.Machine
end

