-- ==== Sys2Proof/Laws/KeepsCopy.lean ====
section
/-!
SUPPORT. `Keeps` for the operations and meanings of Machine/Copy.lean.
-/
namespace Sys2Proof.Machine

open Sys2Proof

theorem State.enterCopy_keeps {r0 s : State} (hk : Keeps r0 s) (c : Copy) : Keeps r0 (State.enterCopy s c) := by
  unfold State.enterCopy
  repeat' first
    | (with_reducible first
        | assumption | apply Keeps.modC | apply Keeps.modEng | apply Mem.set_wf | apply State.at__keeps | apply Keeps.ite)
    | extract_lets | intro _ | split | (have hw := ‹Core.wired _›; with_reducible exact hw.same rfl rfl) | dsimp only
    | with_reducible apply Keeps.lit

theorem State.copyWord_keeps {r0 s : State} (hk : Keeps r0 s) (op : Nat) (ca : Option CReg) (cb : CReg) (len card : SReg) (t : TimeArg) : Keeps r0 (State.copyWord s op ca cb len card t) := by
  unfold State.copyWord
  repeat' first
    | (with_reducible first
        | assumption | apply Keeps.mem | apply Mem.markPoison_wf | apply State.ctlFault_keeps | apply State.advance_keeps
        | apply State.enterCopy_keeps | apply Keeps.ite)
    | extract_lets | intro _ | (with_reducible first | apply Mem.ite_wf | apply Mem.lit_wf) | split | dsimp only
    | with_reducible apply Keeps.lit | with_reducible apply Keeps.litMem

theorem execCpy_keeps {r0 s : State} (hk : Keeps r0 s) (a b : CReg) (len card : SReg) (t : TimeArg) : Keeps.Res r0 (execCpy a b len card t s) := by
  unfold execCpy
  repeat' first
    | (with_reducible first
        | assumption | apply State.copyWord_keeps | apply Keeps.next | apply Keeps.Res.ite | apply Keeps.ite)
    | extract_lets | intro _ | split | dsimp only | with_reducible apply Keeps.lit

theorem execCpys_keeps {r0 s : State} (hk : Keeps r0 s) (a b : CReg) (len card : SReg) (t : TimeArg) : Keeps.Res r0 (execCpys a b len card t s) := by
  unfold execCpys
  repeat' first
    | (with_reducible first
        | assumption | apply State.copyWord_keeps | apply Keeps.next | apply Keeps.Res.ite | apply Keeps.ite)
    | extract_lets | intro _ | split | dsimp only | with_reducible apply Keeps.lit

theorem execCpyz_keeps {r0 s : State} (hk : Keeps r0 s) (a b : CReg) (len card : SReg) (t : TimeArg) : Keeps.Res r0 (execCpyz a b len card t s) := by
  unfold execCpyz
  repeat' first
    | (with_reducible first
        | assumption | apply State.copyWord_keeps | apply Keeps.next | apply Keeps.Res.ite | apply Keeps.ite)
    | extract_lets | intro _ | split | dsimp only | with_reducible apply Keeps.lit

theorem execCpyc_keeps {r0 s : State} (hk : Keeps r0 s) (a b : CReg) (len card : SReg) (t : TimeArg) : Keeps.Res r0 (execCpyc a b len card t s) := by
  unfold execCpyc
  repeat' first
    | (with_reducible first
        | assumption | apply State.copyWord_keeps | apply Keeps.next | apply Keeps.Res.ite | apply Keeps.ite)
    | extract_lets | intro _ | split | dsimp only | with_reducible apply Keeps.lit

theorem execCpyg_keeps {r0 s : State} (hk : Keeps r0 s) (a b : CReg) (len card : SReg) (t : TimeArg) : Keeps.Res r0 (execCpyg a b len card t s) := by
  unfold execCpyg
  repeat' first
    | (with_reducible first
        | assumption | apply State.copyWord_keeps | apply Keeps.next | apply Keeps.Res.ite | apply Keeps.ite)
    | extract_lets | intro _ | split | dsimp only | with_reducible apply Keeps.lit

theorem execCpym_keeps {r0 s : State} (hk : Keeps r0 s) (a b : CReg) (len card : SReg) (t : TimeArg) : Keeps.Res r0 (execCpym a b len card t s) := by
  unfold execCpym
  repeat' first
    | (with_reducible first
        | assumption | apply State.copyWord_keeps | apply Keeps.next | apply Keeps.Res.ite | apply Keeps.ite)
    | extract_lets | intro _ | split | dsimp only | with_reducible apply Keeps.lit

theorem execCpya_keeps {r0 s : State} (hk : Keeps r0 s) (a b : CReg) (len card : SReg) (t : TimeArg) : Keeps.Res r0 (execCpya a b len card t s) := by
  unfold execCpya
  repeat' first
    | (with_reducible first
        | assumption | apply State.copyWord_keeps | apply Keeps.next | apply Keeps.Res.ite | apply Keeps.ite)
    | extract_lets | intro _ | split | dsimp only | with_reducible apply Keeps.lit

theorem execCpyx_keeps {r0 s : State} (hk : Keeps r0 s) (a b : CReg) (len card : SReg) (t : TimeArg) : Keeps.Res r0 (execCpyx a b len card t s) := by
  unfold execCpyx
  repeat' first
    | (with_reducible first
        | assumption | apply State.copyWord_keeps | apply Keeps.next | apply Keeps.Res.ite | apply Keeps.ite)
    | extract_lets | intro _ | split | dsimp only | with_reducible apply Keeps.lit

theorem execCfch_keeps {r0 s : State} (hk : Keeps r0 s) (b : CReg) (len card : SReg) (t : TimeArg) : Keeps.Res r0 (execCfch b len card t s) := by
  unfold execCfch
  repeat' first
    | (with_reducible first
        | assumption | apply State.copyWord_keeps | apply Keeps.next | apply Keeps.Res.ite | apply Keeps.ite)
    | extract_lets | intro _ | split | dsimp only | with_reducible apply Keeps.lit

theorem State.bindCopy_keeps {r0 s : State} (hk : Keeps r0 s) (c : Copy) : Keeps r0 (State.bindCopy s c) := by
  unfold State.bindCopy
  repeat' first
    | (with_reducible first
        | assumption | apply Keeps.modCore | apply Keeps.foldl | apply Mem.foldl_wf | apply Core.foldl_wired
        | apply bindChannel_wired | apply Keeps.ite)
    | extract_lets | intro _ | split | (have hw := ‹Core.wired _›; with_reducible exact hw.same rfl rfl) | dsimp only
    | with_reducible apply Keeps.lit

theorem execCopyEngineIssue_keeps {r0 s : State} (hk : Keeps r0 s) (id : Nat) : Keeps.Res r0 (execCopyEngineIssue id s) := by
  unfold execCopyEngineIssue
  repeat' first
    | (with_reducible first
        | assumption | apply Keeps.modEng | apply Keeps.foldl | apply Mem.foldl_wf | apply Core.foldl_wired
        | apply State.at__keeps | apply State.fresh2_keeps | refine State.fresh_keeps (by assumption) ?_
        | apply State.modCopy_keeps | apply State.record_keeps | apply State.bindCopy_keeps | apply Keeps.next
        | apply Keeps.Res.ite | apply Keeps.ite)
    | extract_lets | intro _ | split | dsimp only | with_reducible apply Keeps.lit

theorem State.copyFault_keeps {r0 s : State} (hk : Keeps r0 s) (c : Copy) (cause : Cause) (addr : Nat) (src det : Nat) : Keeps r0 (State.copyFault s c cause addr src det) := by
  unfold State.copyFault
  repeat' first
    | (with_reducible first
        | assumption | apply Keeps.modCore | apply State.deferFault_keeps | apply State.queueStop_keeps | apply Keeps.ite)
    | extract_lets | intro _ | split | (have hw := ‹Core.wired _›; with_reducible exact hw.same rfl rfl) | dsimp only
    | with_reducible apply Keeps.lit

theorem State.endCopy_keeps {r0 s : State} (hk : Keeps r0 s) (c : Copy) : Keeps r0 (State.endCopy s c) := by
  unfold State.endCopy
  repeat' first
    | (with_reducible first
        | assumption | apply Keeps.modEng | apply State.accessGone_keeps | apply State.record_keeps | apply Keeps.ite)
    | extract_lets | intro _ | split | dsimp only | with_reducible apply Keeps.lit

theorem State.doomCopy_keeps {r0 s : State} (hk : Keeps r0 s) (c : Copy) (cause : Cause) (addr : Nat) : Keeps r0 (State.doomCopy s c cause addr) := by
  unfold State.doomCopy
  repeat' first
    | (with_reducible first
        | assumption | apply State.modCopy_keeps | apply State.record_keeps | apply State.endCopy_keeps | apply Keeps.ite)
    | extract_lets | intro _ | split | dsimp only | with_reducible apply Keeps.lit

theorem State.sendInc_keeps {r0 s : State} (hk : Keeps r0 s) (c : Copy) (pa d : Nat) : Keeps r0 (State.sendInc s c pa d) := by
  unfold State.sendInc
  repeat' first
    | (with_reducible first | assumption | apply Keeps.modEng | apply State.at__keeps | apply Keeps.ite) | extract_lets
    | intro _ | split | dsimp only | with_reducible apply Keeps.lit

theorem State.completeTarget_keeps {r0 s : State} (hk : Keeps r0 s) (c : Copy) (k : Nat) (t : Target) : Keeps r0 (State.completeTarget s c k t) := by
  unfold State.completeTarget
  repeat' first
    | (with_reducible first
        | assumption | apply Keeps.mem | apply Keeps.modEng | apply Keeps.modCore | apply Keeps.foldl | apply Mem.foldl_wf
        | apply Core.foldl_wired | apply Mem.set_wf | apply Mem.setSeqTag_wf | apply State.at__keeps
        | apply State.accessDone_keeps | apply State.modCopy_keeps | apply State.sendInc_keeps | apply Keeps.ite)
    | extract_lets | intro _ | (with_reducible first | apply Mem.ite_wf | apply Mem.lit_wf) | split
    | (have hw := ‹Core.wired _›; with_reducible exact hw.same rfl rfl) | dsimp only | with_reducible apply Keeps.lit
    | with_reducible apply Keeps.litMem

theorem execCopyRecordLanded_keeps {r0 s : State} (hk : Keeps r0 s) (core : Nat) (k : BitVec 4) (id : Nat) : Keeps.Res r0 (execCopyRecordLanded core k id s) := by
  unfold execCopyRecordLanded
  repeat' first
    | (with_reducible first
        | assumption | apply Keeps.modCore | apply Mem.set_wf | apply Keeps.next | apply Keeps.Res.ite | apply Keeps.ite)
    | extract_lets | intro _ | split | (have hw := ‹Core.wired _›; with_reducible exact hw.same rfl rfl) | dsimp only
    | with_reducible apply Keeps.lit

theorem State.increment_keeps {r0 s t : State} {world addr : Nat} {b : Bool} (e : s.increment world addr = (b, t)) (hk : Keeps r0 s) :
    Keeps r0 t := by
  unfold State.increment at e
  split at e
  · cases e; exact hk
  · split at e
    · cases e; exact Keeps.mem hk fun _ hm => Mem.markPoison_wf hm _
    · split at e
      · cases e; exact State.failLine_keeps hk _ _
      · cases e; exact State.dirty_keeps (Keeps.mem hk fun _ hm => Mem.setWord_wf hm _ _) _ _
theorem State.increment2_keeps {r0 s : State} (hk : Keeps r0 s) (world addr : Nat) : Keeps r0 (s.increment world addr).2 :=
  State.increment_keeps (b := (s.increment world addr).1) rfl hk

theorem execCopySemaphoreIncrement_keeps {r0 s : State} (hk : Keeps r0 s) (addr : Nat) : Keeps.Res r0 (execCopySemaphoreIncrement addr s) := by
  unfold execCopySemaphoreIncrement
  repeat' first
    | (with_reducible first
        | assumption | apply Keeps.modEng | apply State.deferFault_keeps | apply State.queueStop_keeps
        | apply State.increment2_keeps | refine State.increment_keeps (by assumption) ?_ | apply Keeps.next
        | apply Keeps.Res.ite | apply Keeps.ite)
    | extract_lets | intro _ | split | (have hg := ‹State.good _›; with_reducible exact (hg.getCore _).same rfl rfl)
    | dsimp only | with_reducible apply Keeps.lit

theorem State.stopBeat_keeps {r0 s : State} (hk : Keeps r0 s) (c : Copy) (e : Stop) : Keeps r0 (State.stopBeat s c e) := by
  unfold State.stopBeat
  repeat' first
    | (with_reducible first
        | assumption | apply State.say_keeps | apply State.modCopy_keeps | apply State.record_keeps
        | apply State.reportXlate_keeps | apply State.copyFault_keeps | apply State.doomCopy_keeps | apply Keeps.ite)
    | extract_lets | intro _ | split | dsimp only | with_reducible apply Keeps.lit

theorem State.walkBeat_keeps {r0 s : State} (hk : Keeps r0 s) (c : Copy) (va : Nat) : Keeps r0 (State.walkBeat s c va) := by
  unfold State.walkBeat
  repeat' first
    | (with_reducible first
        | assumption | apply State.at__keeps | apply State.modCopy_keeps | apply State.cachePage_keeps | apply Keeps.ite)
    | extract_lets | intro _ | split | dsimp only | with_reducible apply Keeps.lit

theorem State.landAt_keeps {r0 s u : State} {c : Copy} {t t' : Target} {dst : List PRun} {base cls l : Nat}
    (e : s.landAt c t dst base cls = (l, t', u)) (hk : Keeps r0 s) : Keeps r0 u := by
  unfold State.landAt at e
  dsimp only at e
  cases e
  exact State.takeSlot_keeps rfl hk

theorem State.landAt2_keeps {r0 s : State} (hk : Keeps r0 s) {c : Copy} {t : Target} {dst : List PRun} {base cls : Nat} :
    Keeps r0 (s.landAt c t dst base cls).2.2 := State.landAt_keeps rfl hk

theorem State.sendBeat_keeps {r0 s : State} (hk : Keeps r0 s) (c : Copy) (k : Nat) (t : Target) (dst : List PRun) (runs : List Run) (src : List PRun) (bs exps : List Byte) (cls : Nat) : Keeps r0 (State.sendBeat s c k t dst runs src bs exps cls) := by
  unfold State.sendBeat
  repeat' first
    | (with_reducible first
        | assumption | apply Keeps.modEng | apply Keeps.foldl | apply Mem.foldl_wf | apply Core.foldl_wired | apply Mem.set_wf
        | apply State.fresh2_keeps | refine State.fresh_keeps (by assumption) ?_ | apply State.modCopy_keeps
        | apply State.landAt2_keeps | refine State.landAt_keeps (by assumption) ?_ | apply Keeps.ite)
    | extract_lets | intro _ | split | dsimp only | with_reducible apply Keeps.lit

theorem State.readBeat_keeps {r0 s : State} (hk : Keeps r0 s) (c : Copy) : Keeps r0 (State.readBeat s c) := by
  unfold State.readBeat
  repeat' first
    | (with_reducible first
        | assumption | apply Keeps.foldl | apply Mem.foldl_wf | apply Core.foldl_wired | apply State.at__keeps
        | apply State.modCopy_keeps | apply State.record_keeps | apply State.noteDamage_keeps | apply State.takeSlot2_keeps
        | refine State.takeSlot_keeps (by assumption) ?_ | apply State.stopBeat_keeps | apply State.walkBeat_keeps
        | apply State.sendBeat_keeps | apply Keeps.ite)
    | extract_lets | intro _ | split | dsimp only | with_reducible apply Keeps.lit

theorem execCopyBeatRead_keeps {r0 s : State} (hk : Keeps r0 s) (id : Nat) : Keeps.Res r0 (execCopyBeatRead id s) := by
  unfold execCopyBeatRead
  repeat' first
    | (with_reducible first
        | assumption | apply State.modCopy_keeps | apply State.record_keeps | apply State.copyFault_keeps
        | apply State.endCopy_keeps | apply State.readBeat_keeps | apply Keeps.next | apply Keeps.Res.ite | apply Keeps.ite)
    | extract_lets | intro _ | split | dsimp only | with_reducible apply Keeps.lit

theorem Mem.landPiece_wf {m : Mem} (hk : m.wf = true) (a : Nat) (bs : List Byte) : (Mem.landPiece m a bs).wf = true := by
  unfold Mem.landPiece
  repeat' first
    | (with_reducible first
        | assumption | apply Keeps.foldl | apply Mem.foldl_wf | apply Core.foldl_wired | apply Mem.write_wf
        | apply Mem.clearPoison_wf | apply Mem.untag_wf)
    | extract_lets | intro _ | (with_reducible first | apply Mem.ite_wf | apply Mem.lit_wf) | split | dsimp only

theorem State.landHbm2_keeps {r0 s : State} (hk : Keeps r0 s) {world key : Nat} {pieces : List (Nat × List Byte)} :
    Keeps r0 (s.landHbm world key pieces).1 := by
  induction pieces generalizing s with
  | nil => exact hk
  | cons p r ih =>
    obtain ⟨a, bs⟩ := p
    unfold State.landHbm
    split
    · exact State.failLine_keeps hk _ _
    · exact ih (State.dirty_keeps (Keeps.mem hk fun _ h => Mem.lineWrite2_wf h) _ _)
theorem State.landHbm_keeps {r0 s t : State} {world key : Nat} {pieces : List (Nat × List Byte)} {x : Option Nat}
    (e : s.landHbm world key pieces = (t, x)) (hk : Keeps r0 s) : Keeps r0 t := by
  have := State.landHbm2_keeps hk (world := world) (key := key) (pieces := pieces); rw [e] at this; exact this

theorem State.landAll_keeps {r0 s : State} (hk : Keeps r0 s) (world : Nat) (l : Land) : Keeps r0 (State.landAll s world l) := by
  unfold State.landAll
  repeat' first
    | (with_reducible first
        | assumption | apply Keeps.mem | apply Keeps.foldl | apply Mem.foldl_wf | apply Core.foldl_wired
        | apply Mem.landPiece_wf | apply State.landHbm2_keeps | refine State.landHbm_keeps (by assumption) ?_
        | apply Keeps.ite)
    | extract_lets | intro _ | (with_reducible first | apply Mem.ite_wf | apply Mem.lit_wf) | split | dsimp only
    | with_reducible apply Keeps.lit | with_reducible apply Keeps.litMem

theorem Mem.addAll_wf {m : Mem} {int : Bool} {ws : List (Nat × W32)} (h : m.wf = true) : (m.addAll int ws).1.wf = true := by
  induction ws generalizing m with
  | nil => exact h
  | cons p r ih =>
    obtain ⟨a, x⟩ := p
    unfold Mem.addAll
    split
    · exact ih (Mem.markPoison_wf h _)
    · exact ih (Mem.setWord_wf h _ _)

theorem State.delayLands_keeps {r0 s : State} (hk : Keeps r0 s) (l : Land) (by_ : Nat) : Keeps r0 (State.delayLands s l by_) := by
  unfold State.delayLands
  repeat' first
    | (with_reducible first | assumption | apply Keeps.modEng | apply State.modCopy_keeps | apply Keeps.ite) | extract_lets
    | intro _ | split | dsimp only | with_reducible apply Keeps.lit

theorem State.raiseLevel_keeps {r0 s : State} (hk : Keeps r0 s) (c : Copy) (t : Target) (n : Nat) (exp : Bool) : Keeps r0 (State.raiseLevel s c t n exp) := by
  unfold State.raiseLevel
  repeat' first
    | (with_reducible first | assumption | apply Keeps.modCore | apply bindChannel_wired | apply Keeps.ite) | extract_lets
    | intro _ | split | (have hw := ‹Core.wired _›; with_reducible exact hw.same rfl rfl) | dsimp only
    | with_reducible apply Keeps.lit

theorem execCopyBeatLand_keeps {r0 s : State} (hk : Keeps r0 s) (land : Nat) : Keeps.Res r0 (execCopyBeatLand land s) := by
  unfold execCopyBeatLand
  repeat' first
    | (with_reducible first
        | assumption | apply Keeps.mem | apply Keeps.modEng | apply Keeps.foldl | apply Mem.foldl_wf | apply Core.foldl_wired
        | apply Mem.set_wf | apply Mem.setCapTag_wf | apply State.modCopy_keeps | apply State.record_keeps
        | apply State.failLine_keeps | apply State.copyFault_keeps | apply State.endCopy_keeps
        | apply State.completeTarget_keeps | apply State.landAll_keeps | apply Mem.addAll_wf | apply State.delayLands_keeps
        | apply State.raiseLevel_keeps | apply Keeps.next | apply Keeps.Res.ite | apply Keeps.ite)
    | extract_lets | intro _ | (with_reducible first | apply Mem.ite_wf | apply Mem.lit_wf) | split | dsimp only
    | with_reducible apply Keeps.lit | with_reducible apply Keeps.litMem

theorem execCwm_keeps {r0 s : State} (hk : Keeps r0 s) (d : SReg) (wm : BitVec 4) (clear : Bool) : Keeps.Res r0 (execCwm d wm clear s) := by
  unfold execCwm
  repeat' first
    | (with_reducible first
        | assumption | apply Keeps.modC | apply bindChannel_wired | apply State.alu_keeps | apply Keeps.next
        | apply Keeps.Res.ite | apply Keeps.ite)
    | extract_lets | intro _ | split | (have hw := ‹Core.wired _›; with_reducible exact hw.same rfl rfl) | dsimp only
    | with_reducible apply Keeps.lit

theorem execCcan_keeps {r0 s : State} (hk : Keeps r0 s) (d : SReg) (k : BitVec 4) : Keeps.Res r0 (execCcan d k s) := by
  unfold execCcan
  repeat' first
    | (with_reducible first
        | assumption | apply State.cancelCopy_keeps | apply State.alu_keeps | apply Keeps.next | apply Keeps.Res.ite
        | apply Keeps.ite)
    | extract_lets | intro _ | split | dsimp only | with_reducible apply Keeps.lit

theorem execCstat_keeps {r0 s : State} (hk : Keeps r0 s) (d : SReg) (k : BitVec 4) : Keeps.Res r0 (execCstat d k s) := by
  unfold execCstat
  repeat' first
    | (with_reducible first | assumption | apply State.alu_keeps | apply Keeps.next | apply Keeps.Res.ite | apply Keeps.ite)
    | extract_lets | intro _ | split | dsimp only | with_reducible apply Keeps.lit

end Sys2Proof.Machine
end

