-- ==== Sys2Proof/Laws/KeepsVector.lean ====
section
/-!
SUPPORT. `Keeps` for the operations and meanings of Machine/Vector.lean.
-/
namespace Sys2Proof.Machine

open Sys2Proof

theorem State.vDst_keeps {r0 s t : State} {st : Stream} {mem : Bool} {d : VReg} {bytes : BitVec 128} {fmts : Option (List Fmt)}
    {lat : Nat} (e : s.vDst st mem d bytes fmts lat = .ok t) (hk : Keeps r0 s) : Keeps r0 t := by
  unfold State.vDst at e
  split at e
  · exact State.checkWrite_keeps e hk
  · cases e; exact hk

theorem State.vSrc_keeps {r0 s t : State} {st : Stream} {mem : Bool} {a : VReg} {bytes : BitVec 128} {fmts : Option (List Fmt)}
    (e : s.vSrc st mem a bytes fmts = .ok t) (hk : Keeps r0 s) : Keeps r0 t := by
  unfold State.vSrc at e
  split at e
  · exact State.checkRead_keeps e hk
  · cases e; exact hk

theorem State.vPut_keeps {r0 s : State} (hk : Keeps r0 s) (st : Stream) (mem : Bool) (d : VReg) (r : Row) (bytes : BitVec 128) (lat : Nat) : Keeps r0 (State.vPut s st mem d r bytes lat) := by
  unfold State.vPut
  repeat' first
    | (with_reducible first | assumption | apply State.putCol_keeps | apply State.putRow_keeps | apply Keeps.ite)
    | extract_lets | intro _ | split | dsimp only | with_reducible apply Keeps.lit

theorem State.vSrcs_keeps {r0 s t : State} {st : Stream} {mem : Bool} {as : List VArg} (e : s.vSrcs st mem as = .ok t)
    (hk : Keeps r0 s) : Keeps r0 t := by
  unfold State.vSrcs at e
  induction as generalizing s with
  | nil => cases e; exact hk
  | cons a r ih =>
    simp only [List.foldlM_cons] at e
    cases h : s.vSrc st mem a.reg a.bytes a.fmts with
    | error x => rw [h] at e; cases e
    | ok u => rw [h] at e; exact ih e (State.vSrc_keeps h hk)

theorem State.vecOp_keeps {r0 s : State} (hk : Keeps r0 s) (stp : Stp) (mem : Bool) (lat : Nat) (d : VReg) (dfmts : Option (List Fmt)) (bytes : BitVec 128) (srcs : List VArg) (f : Rnd → List Row → Row) : Keeps.Res r0 (State.vecOp s stp mem lat d dfmts bytes srcs f) := by
  unfold State.vecOp
  repeat' first
    | (with_reducible first
        | assumption | apply State.operate_keeps | refine State.vDst_keeps (by assumption) ?_ | apply State.vPut_keeps
        | refine State.vSrcs_keeps (by assumption) ?_ | apply Keeps.next | apply Keeps.Res.ite | apply Keeps.Part.bind
        | apply Keeps.Part.pure | apply Keeps.Part.ok | apply Keeps.Part.error | apply Keeps.Part.ite | apply Keeps.ite)
    | extract_lets | intro _ | split | dsimp only | with_reducible apply Keeps.lit

theorem State.vecTo_keeps {r0 s : State} (hk : Keeps r0 s) (stp : Stp) (mem : Bool) (lat : Nat) (srcs : List VArg)
    {f : State → Stream → List Row → State} (hf : ∀ t st rows, Keeps r0 t → Keeps r0 (f t st rows)) :
    Keeps.Res r0 (s.vecTo stp mem lat srcs f) := by
  unfold State.vecTo
  exact State.operate_keeps hk _ _ _ fun st => Keeps.Part.bind fun t e => Keeps.Part.bind fun _ _ =>
    Keeps.Part.pure (hf _ _ _ (State.vSrcs_keeps e hk))

theorem State.arith2_keeps {r0 s : State} (hk : Keeps r0 s) (op : Arith) (lat : Nat) (ty : VType) (d a b : VReg) (mem : Bool) (stp : Stp) : Keeps.Res r0 (State.arith2 s op lat ty d a b mem stp) := by
  unfold State.arith2
  repeat' first
    | (with_reducible first | assumption | apply State.vecOp_keeps | apply Keeps.next | apply Keeps.Res.ite | apply Keeps.ite)
    | extract_lets | intro _ | split | dsimp only | with_reducible apply Keeps.lit

theorem State.arith3_keeps {r0 s : State} (hk : Keeps r0 s) (op : Arith) (ty : VType) (d a b : VReg) (mem : Bool) (stp : Stp) : Keeps.Res r0 (State.arith3 s op ty d a b mem stp) := by
  unfold State.arith3
  repeat' first
    | (with_reducible first | assumption | apply State.vecOp_keeps | apply Keeps.next | apply Keeps.Res.ite | apply Keeps.ite)
    | extract_lets | intro _ | split | dsimp only | with_reducible apply Keeps.lit

theorem execVadd_keeps {r0 s : State} (hk : Keeps r0 s) (ty : VType) (d a b : VReg) (mem : Bool) (st : Stp) : Keeps.Res r0 (execVadd ty d a b mem st s) := by
  unfold execVadd
  repeat' first
    | (with_reducible first
        | assumption | apply State.arith2_keeps | apply Keeps.next | apply Keeps.Res.ite | apply Keeps.ite)
    | extract_lets | intro _ | split | dsimp only | with_reducible apply Keeps.lit

theorem execVsub_keeps {r0 s : State} (hk : Keeps r0 s) (ty : VType) (d a b : VReg) (mem : Bool) (st : Stp) : Keeps.Res r0 (execVsub ty d a b mem st s) := by
  unfold execVsub
  repeat' first
    | (with_reducible first
        | assumption | apply State.arith2_keeps | apply Keeps.next | apply Keeps.Res.ite | apply Keeps.ite)
    | extract_lets | intro _ | split | dsimp only | with_reducible apply Keeps.lit

theorem execVmul_keeps {r0 s : State} (hk : Keeps r0 s) (ty : VType) (d a b : VReg) (mem : Bool) (st : Stp) : Keeps.Res r0 (execVmul ty d a b mem st s) := by
  unfold execVmul
  repeat' first
    | (with_reducible first
        | assumption | apply State.arith2_keeps | apply Keeps.next | apply Keeps.Res.ite | apply Keeps.ite)
    | extract_lets | intro _ | split | dsimp only | with_reducible apply Keeps.lit

theorem execVfma_keeps {r0 s : State} (hk : Keeps r0 s) (ty : VType) (d a b : VReg) (mem : Bool) (st : Stp) : Keeps.Res r0 (execVfma ty d a b mem st s) := by
  unfold execVfma
  repeat' first
    | (with_reducible first
        | assumption | apply State.arith3_keeps | apply Keeps.next | apply Keeps.Res.ite | apply Keeps.ite)
    | extract_lets | intro _ | split | dsimp only | with_reducible apply Keeps.lit

theorem execVfms_keeps {r0 s : State} (hk : Keeps r0 s) (ty : VType) (d a b : VReg) (mem : Bool) (st : Stp) : Keeps.Res r0 (execVfms ty d a b mem st s) := by
  unfold execVfms
  repeat' first
    | (with_reducible first
        | assumption | apply State.arith3_keeps | apply Keeps.next | apply Keeps.Res.ite | apply Keeps.ite)
    | extract_lets | intro _ | split | dsimp only | with_reducible apply Keeps.lit

theorem execVmax_keeps {r0 s : State} (hk : Keeps r0 s) (ty : VType) (d a b : VReg) (mem : Bool) (st : Stp) : Keeps.Res r0 (execVmax ty d a b mem st s) := by
  unfold execVmax
  repeat' first
    | (with_reducible first
        | assumption | apply State.arith2_keeps | apply Keeps.next | apply Keeps.Res.ite | apply Keeps.ite)
    | extract_lets | intro _ | split | dsimp only | with_reducible apply Keeps.lit

theorem execVmin_keeps {r0 s : State} (hk : Keeps r0 s) (ty : VType) (d a b : VReg) (mem : Bool) (st : Stp) : Keeps.Res r0 (execVmin ty d a b mem st s) := by
  unfold execVmin
  repeat' first
    | (with_reducible first
        | assumption | apply State.arith2_keeps | apply Keeps.next | apply Keeps.Res.ite | apply Keeps.ite)
    | extract_lets | intro _ | split | dsimp only | with_reducible apply Keeps.lit

theorem execVcmp_keeps {r0 s : State} (hk : Keeps r0 s) (ty : VType) (md : MReg) (cond : VCond) (a b : VReg) (mem : Bool) (st : Stp) : Keeps.Res r0 (execVcmp ty md cond a b mem st s) := by
  unfold execVcmp
  repeat' first
    | (with_reducible first
        | assumption | apply State.putCol_keeps | apply State.vecTo_keeps | apply Keeps.next | apply Keeps.Res.ite
        | apply Keeps.ite)
    | extract_lets | intro _ | split | dsimp only | with_reducible apply Keeps.lit

theorem State.logic_keeps {r0 s : State} (hk : Keeps r0 s) (d a b : VReg) (mem : Bool) (stp : Stp) (f : Row → Row → Row) : Keeps.Res r0 (State.logic s d a b mem stp f) := by
  unfold State.logic
  repeat' first
    | (with_reducible first | assumption | apply State.vecOp_keeps | apply Keeps.next | apply Keeps.Res.ite | apply Keeps.ite)
    | extract_lets | intro _ | split | dsimp only | with_reducible apply Keeps.lit

theorem State.laneOp_keeps {r0 s : State} (hk : Keeps r0 s) (d a : VReg) (mem : Bool) (stp : Stp) (f : W32 → W32) : Keeps.Res r0 (State.laneOp s d a mem stp f) := by
  unfold State.laneOp
  repeat' first
    | (with_reducible first | assumption | apply State.vecOp_keeps | apply Keeps.next | apply Keeps.Res.ite | apply Keeps.ite)
    | extract_lets | intro _ | split | dsimp only | with_reducible apply Keeps.lit

theorem execVand_keeps {r0 s : State} (hk : Keeps r0 s) (d a b : VReg) (mem : Bool) (st : Stp) : Keeps.Res r0 (execVand d a b mem st s) := by
  unfold execVand
  repeat' first
    | (with_reducible first | assumption | apply State.logic_keeps | apply Keeps.next | apply Keeps.Res.ite | apply Keeps.ite)
    | extract_lets | intro _ | split | dsimp only | with_reducible apply Keeps.lit

theorem execVor_keeps {r0 s : State} (hk : Keeps r0 s) (d a b : VReg) (mem : Bool) (st : Stp) : Keeps.Res r0 (execVor d a b mem st s) := by
  unfold execVor
  repeat' first
    | (with_reducible first | assumption | apply State.logic_keeps | apply Keeps.next | apply Keeps.Res.ite | apply Keeps.ite)
    | extract_lets | intro _ | split | dsimp only | with_reducible apply Keeps.lit

theorem execVxor_keeps {r0 s : State} (hk : Keeps r0 s) (d a b : VReg) (mem : Bool) (st : Stp) : Keeps.Res r0 (execVxor d a b mem st s) := by
  unfold execVxor
  repeat' first
    | (with_reducible first | assumption | apply State.logic_keeps | apply Keeps.next | apply Keeps.Res.ite | apply Keeps.ite)
    | extract_lets | intro _ | split | dsimp only | with_reducible apply Keeps.lit

theorem execVshl_keeps {r0 s : State} (hk : Keeps r0 s) (d a : VReg) (sh : BitVec 5) (mem : Bool) (st : Stp) : Keeps.Res r0 (execVshl d a sh mem st s) := by
  unfold execVshl
  repeat' first
    | (with_reducible first
        | assumption | apply State.laneOp_keeps | apply Keeps.next | apply Keeps.Res.ite | apply Keeps.ite)
    | extract_lets | intro _ | split | dsimp only | with_reducible apply Keeps.lit

theorem execVshr_keeps {r0 s : State} (hk : Keeps r0 s) (d a : VReg) (sh : BitVec 5) (mem : Bool) (st : Stp) : Keeps.Res r0 (execVshr d a sh mem st s) := by
  unfold execVshr
  repeat' first
    | (with_reducible first
        | assumption | apply State.laneOp_keeps | apply Keeps.next | apply Keeps.Res.ite | apply Keeps.ite)
    | extract_lets | intro _ | split | dsimp only | with_reducible apply Keeps.lit

theorem execVsra_keeps {r0 s : State} (hk : Keeps r0 s) (d a : VReg) (sh : BitVec 5) (mem : Bool) (st : Stp) : Keeps.Res r0 (execVsra d a sh mem st s) := by
  unfold execVsra
  repeat' first
    | (with_reducible first
        | assumption | apply State.laneOp_keeps | apply Keeps.next | apply Keeps.Res.ite | apply Keeps.ite)
    | extract_lets | intro _ | split | dsimp only | with_reducible apply Keeps.lit

theorem State.unary_keeps {r0 s : State} (hk : Keeps r0 s) (lat : Nat) (ty : VType) (d a : VReg) (mem : Bool) (stp : Stp) (f : Rnd → Nat → Nat) : Keeps.Res r0 (State.unary s lat ty d a mem stp f) := by
  unfold State.unary
  repeat' first
    | (with_reducible first | assumption | apply State.vecOp_keeps | apply Keeps.next | apply Keeps.Res.ite | apply Keeps.ite)
    | extract_lets | intro _ | split | dsimp only | with_reducible apply Keeps.lit

theorem execVabs_keeps {r0 s : State} (hk : Keeps r0 s) (ty : VType) (d a : VReg) (mem : Bool) (st : Stp) : Keeps.Res r0 (execVabs ty d a mem st s) := by
  unfold execVabs
  repeat' first
    | (with_reducible first | assumption | apply State.unary_keeps | apply Keeps.next | apply Keeps.Res.ite | apply Keeps.ite)
    | extract_lets | intro _ | split | dsimp only | with_reducible apply Keeps.lit

theorem execVneg_keeps {r0 s : State} (hk : Keeps r0 s) (ty : VType) (d a : VReg) (mem : Bool) (st : Stp) : Keeps.Res r0 (execVneg ty d a mem st s) := by
  unfold execVneg
  repeat' first
    | (with_reducible first | assumption | apply State.unary_keeps | apply Keeps.next | apply Keeps.Res.ite | apply Keeps.ite)
    | extract_lets | intro _ | split | dsimp only | with_reducible apply Keeps.lit

theorem execVmov_keeps {r0 s : State} (hk : Keeps r0 s) (form : VmovForm) (d a : VReg) (mem : Bool) (st : Stp) : Keeps.Res r0 (execVmov form d a mem st s) := by
  unfold execVmov
  repeat' first
    | (with_reducible first
        | assumption | apply State.putCol_keeps | apply State.vecOp_keeps | apply State.vecTo_keeps | apply Keeps.next
        | apply Keeps.Res.ite | apply Keeps.ite)
    | extract_lets | intro _ | split | dsimp only | with_reducible apply Keeps.lit

theorem execVsel_keeps {r0 s : State} (hk : Keeps r0 s) (d a : VReg) (m : MReg) (g : Gran) (mem : Bool) (st : Stp) : Keeps.Res r0 (execVsel d a m g mem st s) := by
  unfold execVsel
  repeat' first
    | (with_reducible first | assumption | apply State.vecOp_keeps | apply Keeps.next | apply Keeps.Res.ite | apply Keeps.ite)
    | extract_lets | intro _ | split | dsimp only | with_reducible apply Keeps.lit

theorem State.vecLoad_keeps {r0 s : State} (hk : Keeps r0 s) (stp : Stp) (d : VReg) (row : Nat) (bytes : BitVec 128) (f : Row → Row) : Keeps.Res r0 (State.vecLoad s stp d row bytes f) := by
  unfold State.vecLoad
  repeat' first
    | (with_reducible first
        | assumption | apply State.putCol_keeps | refine State.checkRead_keeps (by assumption) ?_ | apply State.operate_keeps
        | apply Keeps.next | apply Keeps.Res.ite | apply Keeps.Part.bind | apply Keeps.Part.pure | apply Keeps.Part.ok
        | apply Keeps.Part.error | apply Keeps.Part.ite | apply Keeps.ite)
    | extract_lets | intro _ | split | dsimp only | with_reducible apply Keeps.lit

theorem execVld_keeps {r0 s : State} (hk : Keeps r0 s) (d : VReg) (row : BitVec 11) (st : Stp) : Keeps.Res r0 (execVld d row st s) := by
  unfold execVld
  repeat' first
    | (with_reducible first
        | assumption | apply State.vecLoad_keeps | apply Keeps.next | apply Keeps.Res.ite | apply Keeps.ite)
    | extract_lets | intro _ | split | dsimp only | with_reducible apply Keeps.lit

theorem execVldb_keeps {r0 s : State} (hk : Keeps r0 s) (d : VReg) (l : BitVec 5) (row : BitVec 6) (st : Stp) : Keeps.Res r0 (execVldb d l row st s) := by
  unfold execVldb
  repeat' first
    | (with_reducible first
        | assumption | apply State.vecLoad_keeps | apply Keeps.next | apply Keeps.Res.ite | apply Keeps.ite)
    | extract_lets | intro _ | split | dsimp only | with_reducible apply Keeps.lit

theorem execVldx_keeps {r0 s : State} (hk : Keeps r0 s) (d a : VReg) (row : BitVec 6) (st : Stp) : Keeps.Res r0 (execVldx d a row st s) := by
  unfold execVldx
  repeat' first
    | (with_reducible first
        | assumption | apply State.vecLoad_keeps | apply Keeps.next | apply Keeps.Res.ite | apply Keeps.ite)
    | extract_lets | intro _ | split | dsimp only | with_reducible apply Keeps.lit

theorem State.vecStore_keeps {r0 s : State} (hk : Keeps r0 s) (stp : Stp) (row : Nat) (v : Row) (bytes : BitVec 128) : Keeps.Res r0 (State.vecStore s stp row v bytes) := by
  unfold State.vecStore
  repeat' first
    | (with_reducible first
        | assumption | refine State.checkWrite_keeps (by assumption) ?_ | apply State.putRow_keeps | apply State.operate_keeps
        | apply Keeps.next | apply Keeps.Res.ite | apply Keeps.Part.bind | apply Keeps.Part.pure | apply Keeps.Part.ok
        | apply Keeps.Part.error | apply Keeps.Part.ite | apply Keeps.ite)
    | extract_lets | intro _ | split | dsimp only | with_reducible apply Keeps.lit

theorem execVst_keeps {r0 s : State} (hk : Keeps r0 s) (v : VReg) (m : MReg) (g : Gran) (row : BitVec 7) (st : Stp) : Keeps.Res r0 (execVst v m g row st s) := by
  unfold execVst
  repeat' first
    | (with_reducible first
        | assumption | apply State.vecStore_keeps | apply Keeps.next | apply Keeps.Res.ite | apply Keeps.ite)
    | extract_lets | intro _ | split | dsimp only | with_reducible apply Keeps.lit

theorem execVstx_keeps {r0 s : State} (hk : Keeps r0 s) (v a : VReg) (m : MReg) (row : BitVec 3) (st : Stp) : Keeps.Res r0 (execVstx v a m row st s) := by
  unfold execVstx
  repeat' first
    | (with_reducible first
        | assumption | apply State.vecStore_keeps | apply Keeps.next | apply Keeps.Res.ite | apply Keeps.ite)
    | extract_lets | intro _ | split | dsimp only | with_reducible apply Keeps.lit

theorem execVcvt_keeps {r0 s : State} (hk : Keeps r0 s) (d a : VReg) (dt srcT : VType) (h : Bool) (mem : Bool) (st : Stp) : Keeps.Res r0 (execVcvt d a dt srcT h mem st s) := by
  unfold execVcvt
  repeat' first
    | (with_reducible first | assumption | apply State.vecOp_keeps | apply Keeps.next | apply Keeps.Res.ite | apply Keeps.ite)
    | extract_lets | intro _ | split | dsimp only | with_reducible apply Keeps.lit

theorem execVrcp_keeps {r0 s : State} (hk : Keeps r0 s) (ty : VType) (d a : VReg) (mem : Bool) (st : Stp) : Keeps.Res r0 (execVrcp ty d a mem st s) := by
  unfold execVrcp
  repeat' first
    | (with_reducible first | assumption | apply State.unary_keeps | apply Keeps.next | apply Keeps.Res.ite | apply Keeps.ite)
    | extract_lets | intro _ | split | dsimp only | with_reducible apply Keeps.lit

theorem execVrsq_keeps {r0 s : State} (hk : Keeps r0 s) (ty : VType) (d a : VReg) (mem : Bool) (st : Stp) : Keeps.Res r0 (execVrsq ty d a mem st s) := by
  unfold execVrsq
  repeat' first
    | (with_reducible first | assumption | apply State.unary_keeps | apply Keeps.next | apply Keeps.Res.ite | apply Keeps.ite)
    | extract_lets | intro _ | split | dsimp only | with_reducible apply Keeps.lit

theorem execVexp2_keeps {r0 s : State} (hk : Keeps r0 s) (ty : VType) (d a : VReg) (mem : Bool) (st : Stp) : Keeps.Res r0 (execVexp2 ty d a mem st s) := by
  unfold execVexp2
  repeat' first
    | (with_reducible first | assumption | apply State.unary_keeps | apply Keeps.next | apply Keeps.Res.ite | apply Keeps.ite)
    | extract_lets | intro _ | split | dsimp only | with_reducible apply Keeps.lit

theorem execVlg2_keeps {r0 s : State} (hk : Keeps r0 s) (ty : VType) (d a : VReg) (mem : Bool) (st : Stp) : Keeps.Res r0 (execVlg2 ty d a mem st s) := by
  unfold execVlg2
  repeat' first
    | (with_reducible first | assumption | apply State.unary_keeps | apply Keeps.next | apply Keeps.Res.ite | apply Keeps.ite)
    | extract_lets | intro _ | split | dsimp only | with_reducible apply Keeps.lit

theorem State.reduce_keeps {r0 s : State} (hk : Keeps r0 s) (sum : Bool) (ty : VType) (d a : VReg) (mem : Bool) (stp : Stp) : Keeps.Res r0 (State.reduce s sum ty d a mem stp) := by
  unfold State.reduce
  repeat' first
    | (with_reducible first | assumption | apply State.vecOp_keeps | apply Keeps.next | apply Keeps.Res.ite | apply Keeps.ite)
    | extract_lets | intro _ | split | dsimp only | with_reducible apply Keeps.lit

theorem execVrsum_keeps {r0 s : State} (hk : Keeps r0 s) (ty : VType) (d a : VReg) (mem : Bool) (st : Stp) : Keeps.Res r0 (execVrsum ty d a mem st s) := by
  unfold execVrsum
  repeat' first
    | (with_reducible first
        | assumption | apply State.reduce_keeps | apply Keeps.next | apply Keeps.Res.ite | apply Keeps.ite)
    | extract_lets | intro _ | split | dsimp only | with_reducible apply Keeps.lit

theorem execVrmax_keeps {r0 s : State} (hk : Keeps r0 s) (ty : VType) (d a : VReg) (mem : Bool) (st : Stp) : Keeps.Res r0 (execVrmax ty d a mem st s) := by
  unfold execVrmax
  repeat' first
    | (with_reducible first
        | assumption | apply State.reduce_keeps | apply Keeps.next | apply Keeps.Res.ite | apply Keeps.ite)
    | extract_lets | intro _ | split | dsimp only | with_reducible apply Keeps.lit

theorem execVbmax_keeps {r0 s : State} (hk : Keeps r0 s) (a : VReg) (t : HType) (f : BlockF) (mem : Bool) (st : Stp) : Keeps.Res r0 (execVbmax a t f mem st s) := by
  unfold execVbmax
  repeat' first
    | (with_reducible first
        | assumption | apply Keeps.modC | apply State.putCol_keeps | apply State.vecTo_keeps | apply Keeps.next
        | apply Keeps.Res.ite | apply Keeps.ite)
    | extract_lets | intro _ | split | (have hw := ‹Core.wired _›; with_reducible exact hw.same rfl rfl) | dsimp only
    | with_reducible apply Keeps.lit

theorem execVqcvt_keeps {r0 s : State} (hk : Keeps r0 s) (d a : VReg) (p : BitVec 2) (t : HType) (f : BlockF) (mem : Bool) (st : Stp) : Keeps.Res r0 (execVqcvt d a p t f mem st s) := by
  unfold execVqcvt
  repeat' first
    | (with_reducible first
        | assumption | apply Keeps.modC | refine State.checkWrite_keeps (by assumption) ?_ | apply State.putRow_keeps
        | apply State.operate_keeps | refine State.vSrcs_keeps (by assumption) ?_ | apply Keeps.next | apply Keeps.Res.ite
        | apply Keeps.Part.bind | apply Keeps.Part.pure | apply Keeps.Part.ok | apply Keeps.Part.error | apply Keeps.Part.ite
        | apply Keeps.ite)
    | extract_lets | intro _ | split | (have hw := ‹Core.wired _›; with_reducible exact hw.same rfl rfl) | dsimp only
    | with_reducible apply Keeps.lit

theorem execVqsc_keeps {r0 s : State} (hk : Keeps r0 s) (d : VReg) (k : BitVec 5) (st : Stp) : Keeps.Res r0 (execVqsc d k st s) := by
  unfold execVqsc
  repeat' first
    | (with_reducible first
        | assumption | refine State.checkWrite_keeps (by assumption) ?_ | apply State.putRow_keeps | apply State.operate_keeps
        | apply Keeps.next | apply Keeps.Res.ite | apply Keeps.Part.bind | apply Keeps.Part.pure | apply Keeps.Part.ok
        | apply Keeps.Part.error | apply Keeps.Part.ite | apply Keeps.ite)
    | extract_lets | intro _ | split | dsimp only | with_reducible apply Keeps.lit

theorem State.regOp_keeps {r0 s : State} (hk : Keeps r0 s) (d : VReg) (stp : Stp) (f : Stream → Row) : Keeps.Res r0 (State.regOp s d stp f) := by
  unfold State.regOp
  repeat' first
    | (with_reducible first
        | assumption | apply State.putCol_keeps | apply State.operate_keeps | apply Keeps.next | apply Keeps.Res.ite
        | apply Keeps.Part.bind | apply Keeps.Part.pure | apply Keeps.Part.ok | apply Keeps.Part.error | apply Keeps.Part.ite
        | apply Keeps.ite)
    | extract_lets | intro _ | (with_reducible first | apply Mem.ite_wf | apply Mem.lit_wf) | split
    | with_reducible exact Keeps.refl _ | (have hw := ‹Core.wired _›; with_reducible exact hw.same rfl rfl)
    | (have hg := ‹State.good _›; with_reducible exact (hg.getCore _).same rfl rfl) | dsimp only
    | with_reducible apply Keeps.lit | with_reducible apply Keeps.litMem

theorem execVshuf_keeps {r0 s : State} (hk : Keeps r0 s) (d a b : VReg) (g : Gran) (st : Stp) : Keeps.Res r0 (execVshuf d a b g st s) := by
  unfold execVshuf
  repeat' first
    | (with_reducible first | assumption | apply State.regOp_keeps | apply Keeps.next | apply Keeps.Res.ite | apply Keeps.ite)
    | extract_lets | intro _ | split | dsimp only | with_reducible apply Keeps.lit

theorem execViota_keeps {r0 s : State} (hk : Keeps r0 s) (d : VReg) (g : Gran) (st : Stp) : Keeps.Res r0 (execViota d g st s) := by
  unfold execViota
  repeat' first
    | (with_reducible first | assumption | apply State.regOp_keeps | apply Keeps.next | apply Keeps.Res.ite | apply Keeps.ite)
    | extract_lets | intro _ | split | dsimp only | with_reducible apply Keeps.lit

theorem execVbcst_keeps {r0 s : State} (hk : Keeps r0 s) (d a : VReg) (l : BitVec 5) (st : Stp) : Keeps.Res r0 (execVbcst d a l st s) := by
  unfold execVbcst
  repeat' first
    | (with_reducible first | assumption | apply State.regOp_keeps | apply Keeps.next | apply Keeps.Res.ite | apply Keeps.ite)
    | extract_lets | intro _ | split | dsimp only | with_reducible apply Keeps.lit

theorem State.defer_keeps {r0 s : State} (hk : Keeps r0 s) (st : Stream) (es : List Deferred) : Keeps r0 (State.defer s st es) := by
  unfold State.defer
  repeat' first
    | (with_reducible first | assumption | apply Keeps.modC | apply Keeps.modIss | apply Keeps.ite) | extract_lets | intro _
    | split | (have hw := ‹Core.wired _›; with_reducible exact hw.same rfl rfl) | dsimp only | with_reducible apply Keeps.lit

theorem execVdfr_keeps {r0 s : State} (hk : Keeps r0 s) (a : VReg) (m : MReg) (g : Gran) (mem : Bool) (st : Stp) : Keeps.Res r0 (execVdfr a m g mem st s) := by
  unfold execVdfr
  repeat' first
    | (with_reducible first
        | assumption | apply State.vecTo_keeps | apply State.defer_keeps | apply Keeps.next | apply Keeps.Res.ite
        | apply Keeps.ite)
    | extract_lets | intro _ | split | dsimp only | with_reducible apply Keeps.lit

theorem execVdfd_keeps {r0 s : State} (hk : Keeps r0 s) (d e : VReg) (m : MReg) (st : Stp) : Keeps.Res r0 (execVdfd d e m st s) := by
  unfold execVdfd
  repeat' first
    | (with_reducible first
        | assumption | apply Keeps.modC | apply State.putCol_keeps | apply State.operate_keeps | apply Keeps.next
        | apply Keeps.Res.ite | apply Keeps.Part.bind | apply Keeps.Part.pure | apply Keeps.Part.ok | apply Keeps.Part.error
        | apply Keeps.Part.ite | apply Keeps.ite)
    | extract_lets | intro _ | (with_reducible first | apply Mem.ite_wf | apply Mem.lit_wf) | split
    | with_reducible exact Keeps.refl _ | (have hw := ‹Core.wired _›; with_reducible exact hw.same rfl rfl)
    | (have hg := ‹State.good _›; with_reducible exact (hg.getCore _).same rfl rfl) | dsimp only
    | with_reducible apply Keeps.lit | with_reducible apply Keeps.litMem

theorem execVdfn_keeps {r0 s : State} (hk : Keeps r0 s) (d : VReg) (clear : Bool) (st : Stp) : Keeps.Res r0 (execVdfn d clear st s) := by
  unfold execVdfn
  repeat' first
    | (with_reducible first
        | assumption | apply Keeps.modC | apply State.putCol_keeps | apply State.operate_keeps | apply Keeps.next
        | apply Keeps.Res.ite | apply Keeps.Part.bind | apply Keeps.Part.pure | apply Keeps.Part.ok | apply Keeps.Part.error
        | apply Keeps.Part.ite | apply Keeps.ite)
    | extract_lets | intro _ | (with_reducible first | apply Mem.ite_wf | apply Mem.lit_wf) | split
    | with_reducible exact Keeps.refl _ | (have hw := ‹Core.wired _›; with_reducible exact hw.same rfl rfl)
    | (have hg := ‹State.good _›; with_reducible exact (hg.getCore _).same rfl rfl) | dsimp only
    | with_reducible apply Keeps.lit | with_reducible apply Keeps.litMem

theorem execVnop_keeps {r0 s : State} (hk : Keeps r0 s) (st : Stp) : Keeps.Res r0 (execVnop st s) := by
  unfold execVnop
  repeat' first
    | (with_reducible first
        | assumption | apply State.operate_keeps | apply Keeps.next | apply Keeps.Res.ite | apply Keeps.Part.bind
        | apply Keeps.Part.pure | apply Keeps.Part.ok | apply Keeps.Part.error | apply Keeps.Part.ite | apply Keeps.ite)
    | extract_lets | intro _ | (with_reducible first | apply Mem.ite_wf | apply Mem.lit_wf) | split
    | with_reducible exact Keeps.refl _ | (have hw := ‹Core.wired _›; with_reducible exact hw.same rfl rfl)
    | (have hg := ‹State.good _›; with_reducible exact (hg.getCore _).same rfl rfl) | dsimp only
    | with_reducible apply Keeps.lit | with_reducible apply Keeps.litMem

end Sys2Proof.Machine
end

