-- ==== Sys2Proof/Laws/KeepsTable.lean ====
section
/-!
SUPPORT. `Keeps` for the operations and meanings of Machine/Table.lean.
-/
namespace Sys2Proof.Machine

open Sys2Proof

theorem execTld_keeps {r0 s : State} (hk : Keeps r0 s) (t : BitVec 6) (row : BitVec 10) (st : Stp) : Keeps.Res r0 (execTld t row st s) := by
  unfold execTld
  repeat' first
    | (with_reducible first
        | assumption | apply State.putCol_keeps | refine State.checkRead_keeps (by assumption) ?_ | apply State.operate_keeps
        | apply Keeps.next | apply Keeps.Res.ite | apply Keeps.Part.bind | apply Keeps.Part.pure | apply Keeps.Part.ok
        | apply Keeps.Part.error | apply Keeps.Part.ite | apply Keeps.ite)
    | extract_lets | intro _ | split | dsimp only | with_reducible apply Keeps.lit

theorem State.tableOp_keeps {r0 s : State} (hk : Keeps r0 s) (lat : Nat) (ty : VType) (dfmt : Fmt) (d a : VReg) (h : BitVec 4) (stp : Stp)
    (f : State → Header → Rnd → FVal → Part? Nat) : Keeps.Res r0 (s.tableOp lat ty dfmt d a h stp f) := by
  unfold State.tableOp
  exact State.operate_keeps hk _ _ _ fun st => Keeps.Part.bind fun t e1 => Keeps.Part.bind fun u e2 =>
    Keeps.Part.bind fun _ _ => Keeps.Part.bind fun _ _ => Keeps.Part.bind fun _ _ =>
      Keeps.Part.pure (State.putRow_keeps (State.checkRead_keeps e2 (State.checkWrite_keeps e1 hk)) _ _ _ _ _ _)

theorem execTseg_keeps {r0 s : State} (hk : Keeps r0 s) (ty : VType) (d a : VReg) (h : BitVec 4) (st : Stp) : Keeps.Res r0 (execTseg ty d a h st s) := by
  unfold execTseg
  repeat' first
    | (with_reducible first
        | assumption | apply State.tableOp_keeps | apply Keeps.next | apply Keeps.Res.ite | apply Keeps.ite)
    | extract_lets | intro _ | split | dsimp only | with_reducible apply Keeps.lit

theorem State.curveOp_keeps {r0 s : State} (hk : Keeps r0 s) (lat : Nat) (ty : VType) (d a : VReg) (h : BitVec 4) (stp : Stp)
    (f : State → Nat → Nat → FVal → Part? FVal) : Keeps.Res r0 (s.curveOp lat ty d a h stp f) :=
  State.tableOp_keeps hk _ _ _ _ _ _ _ _

theorem execTint_keeps {r0 s : State} (hk : Keeps r0 s) (ty : VType) (d a : VReg) (h : BitVec 4) (st : Stp) : Keeps.Res r0 (execTint ty d a h st s) := by
  unfold execTint
  repeat' first
    | (with_reducible first
        | assumption | apply State.curveOp_keeps | apply Keeps.next | apply Keeps.Res.ite | apply Keeps.ite)
    | extract_lets | intro _ | split | dsimp only | with_reducible apply Keeps.lit

theorem execTqad_keeps {r0 s : State} (hk : Keeps r0 s) (ty : VType) (d a : VReg) (h : BitVec 4) (st : Stp) : Keeps.Res r0 (execTqad ty d a h st s) := by
  unfold execTqad
  repeat' first
    | (with_reducible first
        | assumption | apply State.curveOp_keeps | apply Keeps.next | apply Keeps.Res.ite | apply Keeps.ite)
    | extract_lets | intro _ | split | dsimp only | with_reducible apply Keeps.lit

theorem execTclmp_keeps {r0 s : State} (hk : Keeps r0 s) (ty : VType) (d a : VReg) (h : BitVec 4) (st : Stp) : Keeps.Res r0 (execTclmp ty d a h st s) := by
  unfold execTclmp
  repeat' first
    | (with_reducible first
        | assumption | apply State.tableOp_keeps | apply Keeps.next | apply Keeps.Res.ite | apply Keeps.ite)
    | extract_lets | intro _ | split | dsimp only | with_reducible apply Keeps.lit

end Sys2Proof.Machine
end

