-- ==== Sys2Proof/Laws/KeepsMatrix.lean ====
section
/-!
SUPPORT. `Keeps` for the operations and meanings of Machine/Matrix.lean.
-/
namespace Sys2Proof.Machine

open Sys2Proof

theorem State.matRead_keeps {r0 s t : State} {st : Stream} {a : W64} {bytes : BitVec 128} {fmts : Option (List Fmt)} {v : Row}
    (e : s.matRead st a bytes fmts = .ok (t, v)) (hk : Keeps r0 s) : Keeps r0 t := by
  unfold State.matRead at e
  obtain ⟨u, h, e⟩ := Part?.bind_ok e
  obtain ⟨w, -, e⟩ := Part?.bind_ok e
  cases e; exact State.checkRead_keeps h hk

theorem State.matRead1_keeps {r0 s : State} {st : Stream} {a : W64} {bytes : BitVec 128} {fmts : Option (List Fmt)} {x : State × Row}
    (e : s.matRead st a bytes fmts = .ok x) (hk : Keeps r0 s) : Keeps r0 x.1 := State.matRead_keeps (v := x.2) e hk

theorem Keeps.okRow {r0 s : State} {v : Row} {x : State × Row} (e : (Except.ok (s, v) : Part? (State × Row)) = .ok x)
    (hk : Keeps r0 s) : Keeps r0 x.1 := by cases e; exact hk

theorem execMcfg_keeps {r0 s : State} (hk : Keeps r0 s) (p : Planes) (g : VReg) (x : BitVec 5) (st : Stp) : Keeps.Res r0 (execMcfg p g x st s) := by
  unfold execMcfg
  repeat' first
    | (with_reducible first
        | assumption | apply State.putCol_keeps | apply State.operate_keeps | refine State.matRead_keeps (by assumption) ?_
        | refine State.matRead1_keeps (by assumption) ?_ | refine Keeps.okRow (by assumption) ?_ | apply Keeps.next
        | apply Keeps.Res.ite | apply Keeps.Part.bind | apply Keeps.Part.pure | apply Keeps.Part.ok | apply Keeps.Part.error
        | apply Keeps.Part.ite | apply Keeps.ite)
    | extract_lets | intro _ | split | dsimp only | with_reducible apply Keeps.lit

theorem execMscl_keeps {r0 s : State} (hk : Keeps r0 s) (a : VReg) (j : BitVec 3) (st : Stp) : Keeps.Res r0 (execMscl a j st s) := by
  unfold execMscl
  repeat' first
    | (with_reducible first
        | assumption | apply State.putCol_keeps | apply State.operate_keeps | refine State.matRead_keeps (by assumption) ?_
        | refine State.matRead1_keeps (by assumption) ?_ | refine Keeps.okRow (by assumption) ?_ | apply Keeps.next
        | apply Keeps.Res.ite | apply Keeps.Part.bind | apply Keeps.Part.pure | apply Keeps.Part.ok | apply Keeps.Part.error
        | apply Keeps.Part.ite | apply Keeps.ite)
    | extract_lets | intro _ | split | dsimp only | with_reducible apply Keeps.lit

theorem execMwsw_keeps {r0 s : State} (hk : Keeps r0 s) (st : Stp) : Keeps.Res r0 (execMwsw st s) := by
  unfold execMwsw
  repeat' first
    | (with_reducible first
        | assumption | apply State.putCol_keeps | apply State.operate_keeps | apply Keeps.next | apply Keeps.Res.ite
        | apply Keeps.Part.bind | apply Keeps.Part.pure | apply Keeps.Part.ok | apply Keeps.Part.error | apply Keeps.Part.ite
        | apply Keeps.ite)
    | extract_lets | intro _ | (with_reducible first | apply Mem.ite_wf | apply Mem.lit_wf) | split
    | with_reducible exact Keeps.refl _ | (have hw := ‹Core.wired _›; with_reducible exact hw.same rfl rfl)
    | (have hg := ‹State.good _›; with_reducible exact (hg.getCore _).same rfl rfl) | dsimp only
    | with_reducible apply Keeps.lit | with_reducible apply Keeps.litMem

theorem execMnop_keeps {r0 s : State} (hk : Keeps r0 s) (st : Stp) : Keeps.Res r0 (execMnop st s) := by
  unfold execMnop
  repeat' first
    | (with_reducible first
        | assumption | apply State.operate_keeps | apply Keeps.next | apply Keeps.Res.ite | apply Keeps.Part.bind
        | apply Keeps.Part.pure | apply Keeps.Part.ok | apply Keeps.Part.error | apply Keeps.Part.ite | apply Keeps.ite)
    | extract_lets | intro _ | (with_reducible first | apply Mem.ite_wf | apply Mem.lit_wf) | split
    | with_reducible exact Keeps.refl _ | (have hw := ‹Core.wired _›; with_reducible exact hw.same rfl rfl)
    | (have hg := ‹State.good _›; with_reducible exact (hg.getCore _).same rfl rfl) | dsimp only
    | with_reducible apply Keeps.lit | with_reducible apply Keeps.litMem

theorem State.loadRow_keeps {r0 s u : State} {st : Stream} {a t : VReg} {i : Nat} (e : s.loadRow st a t i = .ok u)
    (hk : Keeps r0 s) : Keeps r0 u := by
  have key : Keeps.Part r0 (s.loadRow st a t i) := by
    unfold State.loadRow
    refine Keeps.Part.bind fun x e1 => ?_
    obtain ⟨t1, v1⟩ := x
    refine Keeps.Part.bind fun y e2 => ?_
    obtain ⟨t2, v2⟩ := y
    exact Keeps.Part.pure (State.putCol_keeps (State.matRead_keeps e2 (State.matRead_keeps e1 hk)) _ _ _)
  exact key u e

theorem State.occupy_keeps {r0 s : State} (hk : Keeps r0 s) (stp : Stp) (n due : Nat) {f : Stream → Part? (State × Stream)}
    (hf : ∀ st t r, f st = .ok (t, r) → Keeps r0 t) : Keeps.Res r0 (s.occupy stp n due f) := by
  unfold State.occupy
  split
  · exact Keeps.next hk
  · split
    · exact Keeps.next (State.colFault_keeps hk _ _ _)
    · split
      · exact Keeps.next (State.setStream_keeps (hf _ _ _ ‹_›) _ _)
      · exact Keeps.next (State.opDone_keeps (hf _ _ _ ‹_›) _ _ _ _)

theorem execMwld_keeps {r0 s : State} (hk : Keeps r0 s) (a t : VReg) (st : Stp) : Keeps.Res r0 (execMwld a t  st  s) := by
  unfold execMwld
  refine State.occupy_keeps hk _ _ _ fun st x r e => ?_
  split at e
  · cases e
  · cases h : s.loadRow st a t st.cyc with
    | error x => rw [h] at e; cases e
    | ok u => rw [h] at e; cases e; exact State.loadRow_keeps h hk

theorem execFollowOnPresent_keeps {r0 s : State} (hk : Keeps r0 s) (id : Nat) : Keeps.Res r0 (execFollowOnPresent id s) := by
  unfold execFollowOnPresent
  repeat' first
    | (with_reducible first
        | assumption | apply Keeps.modC | apply Keeps.focus | apply State.followDone_keeps | apply State.deferFault_keeps
        | apply Keeps.next | apply Keeps.Res.ite | apply Keeps.ite)
    | extract_lets | intro _ | split | (have hw := ‹Core.wired _›; with_reducible exact hw.same rfl rfl) | dsimp only
    | with_reducible apply Keeps.lit

theorem execFollowOnStart_keeps {r0 s : State} (hk : Keeps r0 s) (core : Nat) : Keeps.Res r0 (execFollowOnStart core s) := by
  unfold execFollowOnStart
  repeat' first
    | (with_reducible first
        | assumption | apply Keeps.modC | apply Keeps.focus | apply Keeps.next | apply Keeps.Res.ite | apply Keeps.ite)
    | extract_lets | intro _ | split | (have hw := ‹Core.wired _›; with_reducible exact hw.same rfl rfl) | dsimp only
    | with_reducible apply Keeps.lit

theorem State.dropFollow_keeps {r0 s : State} (hk : Keeps r0 s) (f : FollowOn) : Keeps r0 (State.dropFollow s f) := by
  unfold State.dropFollow
  repeat' first
    | (with_reducible first
        | assumption | apply Keeps.modC | apply State.followDone_keeps | apply State.restoreRows_keeps | apply Keeps.ite)
    | extract_lets | intro _ | split | (have hw := ‹Core.wired _›; with_reducible exact hw.same rfl rfl) | dsimp only
    | with_reducible apply Keeps.lit

theorem State.loaderStep_keeps {r0 s : State} (hk : Keeps r0 s) : Keeps r0 (State.loaderStep s) := by
  unfold State.loaderStep
  repeat' first
    | (with_reducible first
        | assumption | apply Keeps.mem | apply Keeps.modC | apply Mem.markPoison_wf | apply State.followDone_keeps
        | apply State.raise_keeps | refine State.loadRow_keeps (by assumption) ?_ | apply State.dropFollow_keeps
        | apply Keeps.ite)
    | extract_lets | intro _ | (with_reducible first | apply Mem.ite_wf | apply Mem.lit_wf) | split
    | (have hw := ‹Core.wired _›; with_reducible exact hw.same rfl rfl) | dsimp only | with_reducible apply Keeps.lit
    | with_reducible apply Keeps.litMem

theorem State.mulCycle_part {r0 s : State} (hk : Keeps r0 s) (anew : Bool) (a e : VReg) (acc : BitVec 6) (st : Stream) : Keeps.Part2 r0 (s.mulCycle anew a e acc st) := by
  unfold State.mulCycle
  repeat' first
    | (with_reducible first
        | assumption | apply Keeps.Part2.pure | apply Keeps.Part2.bind | apply Keeps.Part2.ite | apply Keeps.modIss
        | refine State.matRead_keeps (by assumption) ?_ | refine State.matRead1_keeps (by assumption) ?_
        | refine Keeps.okRow (by assumption) ?_ | apply Keeps.Part.bind | apply Keeps.Part.pure | apply Keeps.Part.ok
        | apply Keeps.Part.error | apply Keeps.Part.ite | apply Keeps.ite)
    | extract_lets | intro _ | split | dsimp only | with_reducible apply Keeps.lit

theorem State.mulCycle_keeps {r0 s t : State} {anew : Bool} {a e : VReg} {acc : BitVec 6} {st r : Stream}
    (h : s.mulCycle anew a e acc st = .ok (t, r)) (hk : Keeps r0 s) : Keeps r0 t := State.mulCycle_part hk anew a e acc st _ h

theorem execMma_keeps {r0 s : State} (hk : Keeps r0 s) (a e : VReg) (acc : BitVec 6) (st : Stp) : Keeps.Res r0 (execMma a e  acc  st  s) := by
  unfold execMma
  exact State.occupy_keeps hk _ _ _ fun _ _ _ e => State.mulCycle_keeps e hk

theorem execMmo_keeps {r0 s : State} (hk : Keeps r0 s) (a e : VReg) (acc : BitVec 6) (st : Stp) : Keeps.Res r0 (execMmo a e  acc  st  s) := by
  unfold execMmo
  exact State.occupy_keeps hk _ _ _ fun _ _ _ e => State.mulCycle_keeps e hk

theorem execMzro_keeps {r0 s : State} (hk : Keeps r0 s) (acc : BitVec 6) (st : Stp) : Keeps.Res r0 (execMzro acc st s) := by
  unfold execMzro
  repeat' first
    | (with_reducible first
        | assumption | apply Keeps.modIss | apply State.operate_keeps | apply Keeps.next | apply Keeps.Res.ite
        | apply Keeps.Part.bind | apply Keeps.Part.pure | apply Keeps.Part.ok | apply Keeps.Part.error | apply Keeps.Part.ite
        | apply Keeps.ite)
    | extract_lets | intro _ | (with_reducible first | apply Mem.ite_wf | apply Mem.lit_wf) | split
    | with_reducible exact Keeps.refl _ | (have hw := ‹Core.wired _›; with_reducible exact hw.same rfl rfl)
    | (have hg := ‹State.good _›; with_reducible exact (hg.getCore _).same rfl rfl) | dsimp only
    | with_reducible apply Keeps.lit | with_reducible apply Keeps.litMem

theorem State.drainOp_keeps {r0 s t : State} {d : VReg} {aw : BitVec 11} {st : Stream} (e : s.drainOp d aw st = .ok t)
    (hk : Keeps r0 s) : Keeps r0 t := by
  unfold State.drainOp at e
  obtain ⟨t1, e1, e⟩ := Part?.bind_ok e
  obtain ⟨ws, -, e⟩ := Part?.bind_ok e
  cases e
  exact State.putRow_keeps (State.checkWrite_keeps e1 hk) _ _ _ _ _ _

theorem execMdrn_keeps {r0 s : State} (hk : Keeps r0 s) (d : VReg) (aw : BitVec 11) (st : Stp) : Keeps.Res r0 (execMdrn d  aw  st  s) := by
  unfold execMdrn
  split
  · exact Keeps.next hk
  · refine State.occupy_keeps hk _ _ _ fun st x r e => ?_
    split at e
    · cases h : s.drainOp d aw st with
      | error x => rw [h] at e; cases e
      | ok u => rw [h] at e; cases e; exact State.drainOp_keeps h hk
    · cases e; exact hk

theorem State.accWrite_keeps {r0 s : State} (hk : Keeps r0 s) (p : AccPend) : Keeps r0 (State.accWrite s p) := by
  unfold State.accWrite
  repeat' first
    | (with_reducible first
        | assumption | apply Keeps.mem | apply Keeps.foldl | apply Mem.foldl_wf | apply Core.foldl_wired
        | apply Mem.setWord_wf | apply Mem.markPoison_wf | apply Mem.clearPoison_wf | apply Keeps.ite)
    | extract_lets | intro _ | (with_reducible first | apply Mem.ite_wf | apply Mem.lit_wf) | split | dsimp only
    | with_reducible apply Keeps.lit | with_reducible apply Keeps.litMem

end Sys2Proof.Machine
end

