-- ==== Sys2Proof/Laws/KeepsIo.lean ====
section
/-!
SUPPORT. `Keeps` for the operations and meanings of Machine/Io.lean.
-/
namespace Sys2Proof.Machine

open Sys2Proof

theorem State.noteStop_keeps {r0 s : State} (hk : Keeps r0 s) (world : Nat) (e : Stop) : Keeps r0 (State.noteStop s world e) := by
  unfold State.noteStop
  repeat' first
    | (with_reducible first | assumption | apply State.say_keeps | apply Keeps.ite) | extract_lets | intro _ | split
    | dsimp only | with_reducible apply Keeps.lit

theorem State.ioRead_keeps {r0 s t : State} {world va n : Nat} {bs : List Byte} (e : s.ioRead world va n = .ok (bs, t))
    (hk : Keeps r0 s) : Keeps r0 t := by
  unfold State.ioRead at e
  repeat' split at e
  all_goals first
    | (cases e; done)
    | (cases e; exact hk)

theorem State.ioReadE_keeps {r0 s : State} {world va n : Nat} {p : IoStop × State} (e : s.ioRead world va n = .error p)
    (hk : Keeps r0 s) : Keeps r0 p.2 := by
  unfold State.ioRead at e
  repeat' split at e
  all_goals first
    | (cases e; done)
    | (cases e; exact State.noteStop_keeps hk _ _)
    | (cases e; exact State.noteDamage_keeps hk _ _)

theorem ioThen_ok {α : Type} {q : Except (IoStop × State) (List Byte × State)} {k : List Byte → State → Except (IoStop × State) α} {y : α}
    (h : ioThen q .error k = .ok y) : ∃ bs s, q = .ok (bs, s) ∧ k bs s = .ok y := by
  unfold ioThen at h
  split at h
  · cases h
  · exact ⟨_, _, rfl, h⟩
theorem ioThen_error {α : Type} {q : Except (IoStop × State) (List Byte × State)} {k : List Byte → State → Except (IoStop × State) α}
    {y : IoStop × State} (h : ioThen q .error k = .error y) : q = .error y ∨ ∃ bs s, q = .ok (bs, s) ∧ k bs s = .error y := by
  unfold ioThen at h
  split at h
  · obtain rfl := Except.error.inj h; exact .inl rfl
  · exact .inr ⟨_, _, rfl, h⟩
theorem ioThen_keeps {r0 : State} {q : Except (IoStop × State) (List Byte × State)} {a : IoStop × State → State}
    {k : List Byte → State → State} (ha : ∀ e, q = .error e → Keeps r0 (a e)) (hk : ∀ bs s, q = .ok (bs, s) → Keeps r0 (k bs s)) :
    Keeps r0 (ioThen q a k) := by
  unfold ioThen
  split
  · exact ha _ rfl
  · exact hk _ _ rfl

theorem okThen_ok {ε α β : Type} {q : Except ε α} {k : α → Except ε β} {y : β}
    (h : okThen q .error k = .ok y) : ∃ x, q = .ok x ∧ k x = .ok y := by
  unfold okThen at h
  split at h
  · cases h
  · exact ⟨_, rfl, h⟩
theorem okThen_keeps {ε α : Type} {r0 : State} {q : Except ε α} {a : ε → State} {k : α → State}
    (ha : ∀ e, q = .error e → Keeps r0 (a e)) (hk : ∀ x, q = .ok x → Keeps r0 (k x)) : Keeps r0 (okThen q a k) := by
  unfold okThen
  split
  · exact ha _ rfl
  · exact hk _ rfl

theorem okThen_error {ε α β : Type} {q : Except ε α} {k : α → Except ε β} {y : ε}
    (h : okThen q .error k = .error y) : q = .error y ∨ ∃ x, q = .ok x ∧ k x = .error y := by
  unfold okThen at h
  split at h
  · obtain rfl := Except.error.inj h; exact .inl rfl
  · exact .inr ⟨_, rfl, h⟩

theorem State.writePieces_keeps {r0 s : State} (hk : Keeps r0 s) (world : Nat) (rs : List PRun) (bs : List Byte) :
    Keeps r0 (s.writePieces world rs bs).1 := by
  induction rs generalizing s bs with
  | nil => exact hk
  | cons r l ih =>
    unfold State.writePieces
    extract_lets part
    split
    · exact ih hk _
    · split
      · have h1 := State.landHbm2_keeps hk (world := world) (key := r.key) (pieces := lineSplit r.pa part (part.length + 1))
        dsimp only
        split
        · exact h1
        · exact ih h1 _
      · exact ih (Keeps.mem hk fun _ hm => Mem.landPiece_wf hm _ _) _
theorem State.writePieces1_keeps {r0 s t : State} {world : Nat} {rs : List PRun} {bs : List Byte} {x : Option Nat}
    (e : s.writePieces world rs bs = (t, x)) (hk : Keeps r0 s) : Keeps r0 t := by
  have := State.writePieces_keeps hk world rs bs; rw [e] at this; exact this

theorem State.ioWrite_keeps {r0 s t : State} {world va : Nat} {gid : Option (BitVec 16)} {bs : List Byte}
    (e : s.ioWrite world gid va bs = .ok t) (hk : Keeps r0 s) : Keeps r0 t := by
  unfold State.ioWrite at e
  repeat' split at e
  all_goals first
    | (cases e; done)
    | (cases e; exact State.writePieces1_keeps ‹_› hk)
theorem State.ioWriteE_keeps {r0 s t : State} {world va : Nat} {gid : Option (BitVec 16)} {bs : List Byte} {x : IoStop}
    (e : s.ioWrite world gid va bs = .error (x, t)) (hk : Keeps r0 s) : Keeps r0 t := by
  unfold State.ioWrite at e
  repeat' split at e
  all_goals first
    | (cases e; done)
    | (cases e; exact State.noteStop_keeps hk _ _)
    | (cases e; exact State.writePieces1_keeps ‹_› hk)
theorem State.ioWriteP_keeps {r0 s : State} {world va : Nat} {gid : Option (BitVec 16)} {bs : List Byte} {p : IoStop × State}
    (e : s.ioWrite world gid va bs = .error p) (hk : Keeps r0 s) : Keeps r0 p.2 := State.ioWriteE_keeps (x := p.1) e hk

end Sys2Proof.Machine
end

