-- ==== Sys2Proof/Laws/KeepsLaunch.lean ====
section
/-!
SUPPORT. `Keeps` for the operations and meanings of Machine/Launch.lean.
-/
namespace Sys2Proof.Machine

open Sys2Proof

theorem Mem.loadSegment_wf {m : Mem} (hk : m.wf = true) (core : Nat) (t : TaskImage) : (Mem.loadSegment m core t).wf = true := by
  unfold Mem.loadSegment
  repeat' first
    | (with_reducible first
        | assumption | apply Keeps.foldl | apply Mem.foldl_wf | apply Core.foldl_wired | apply Mem.setCodeWord_wf
        | apply Mem.clearPoison_wf)
    | extract_lets | intro _ | (with_reducible first | apply Mem.ite_wf | apply Mem.lit_wf) | split | dsimp only

theorem State.loadCode_keeps {r0 s : State} (hk : Keeps r0 s) (i : Nat) (t : TaskImage) (fresh : Bool) : Keeps r0 (State.loadCode s i t fresh) := by
  unfold State.loadCode
  repeat' first
    | (with_reducible first
        | assumption | apply Keeps.mem | apply Keeps.modCore | apply Mem.set_wf | apply State.fresh2_keeps
        | refine State.fresh_keeps (by assumption) ?_ | apply Mem.loadSegment_wf | apply Keeps.ite)
    | extract_lets | intro _ | (with_reducible first | apply Mem.ite_wf | apply Mem.lit_wf) | split
    | (have hw := ‹Core.wired _›; with_reducible exact hw.same rfl rfl) | dsimp only | with_reducible apply Keeps.lit
    | with_reducible apply Keeps.litMem

theorem State.footCheck_keeps {r0 s t : State} {i : Nat} (e : s.footCheck i = some t) (hk : Keeps r0 s) : Keeps r0 t := by
  unfold State.footCheck at e
  dsimp only at e
  split at e
  · cases e
  · simp only [Option.map_eq_some_iff] at e
    obtain ⟨x, -, rfl⟩ := e
    exact State.endRequest_keeps hk _ _ _ _

theorem State.footChecks_keeps {r0 s t : State} {l : List Nat} (e : (l.findSome? fun i => s.footCheck i) = some t)
    (hk : Keeps r0 s) : Keeps r0 t := by
  obtain ⟨i, -, h⟩ := List.exists_of_findSome?_eq_some e
  exact State.footCheck_keeps h hk

theorem State.placeRoot_keeps {r0 s : State} (hk : Keeps r0 s) (i : Nat) (t : TaskImage) (root : Cap) : Keeps r0 (State.placeRoot s i t root) := by
  unfold State.placeRoot
  repeat' first
    | (with_reducible first | assumption | apply Keeps.mem | apply Mem.write_wf | apply Mem.setCapTag_wf | apply Keeps.ite)
    | extract_lets | intro _ | (with_reducible first | apply Mem.ite_wf | apply Mem.lit_wf) | split | dsimp only
    | with_reducible apply Keeps.lit | with_reducible apply Keeps.litMem

theorem State.placeTables_keeps {r0 s : State} (hk : Keeps r0 s) (i : Nat) (t : TaskImage) : Keeps r0 (State.placeTables s i t) := by
  unfold State.placeTables
  repeat' first
    | (with_reducible first
        | assumption | apply Keeps.mem | apply Keeps.foldl | apply Mem.foldl_wf | apply Core.foldl_wired
        | apply Mem.setWord_wf | apply Keeps.ite)
    | extract_lets | intro _ | (with_reducible first | apply Mem.ite_wf | apply Mem.lit_wf) | split | dsimp only
    | with_reducible apply Keeps.lit | with_reducible apply Keeps.litMem

theorem State.clearFootprint_keeps {r0 s : State} (hk : Keeps r0 s) (regs : List Region) : Keeps r0 (State.clearFootprint s regs) := by
  unfold State.clearFootprint
  repeat' first
    | (with_reducible first
        | assumption | apply Keeps.mem | apply Keeps.foldl | apply Mem.foldl_wf | apply Core.foldl_wired
        | apply Mem.setWord_wf | apply Mem.clearPoison_wf | apply Keeps.ite)
    | extract_lets | intro _ | (with_reducible first | apply Mem.ite_wf | apply Mem.lit_wf) | split | dsimp only
    | with_reducible apply Keeps.lit | with_reducible apply Keeps.litMem

theorem State.beginRun_keeps {r0 s : State} (hk : Keeps r0 s) (i kind : Nat) : Keeps r0 (s.beginRun i kind) := by
  unfold State.beginRun
  split
  · exact hk
  · extract_lets c root alpha s0 s1 s2 dmem scope wm src s3
    have h0 : Keeps r0 s0 := Keeps.foldl (fun _ _ ht => State.followDone_keeps ht _) _ hk
    clear_value s0
    have h1 : Keeps r0 s1 := Keeps.ite (fun _ => State.clearFootprint_keeps h0 _) fun _ => h0
    clear_value s1
    have h2 : Keeps r0 s2 := Keeps.ite (fun _ => State.loadCode_keeps h1 _ _ _)
      fun _ => Keeps.ite (fun _ => State.loadCode_keeps h1 _ _ _) fun _ => h1
    clear_value s2
    have h3 : Keeps r0 s3 := by
      refine Keeps.modCore h2 _ fun c _ => ?_
      extract_lets d
      have hd : d.wired := Core.startRegs_wired _ _ _
      clear_value d
      exact hd.same rfl rfl
    clear_value s3
    exact State.placeTables_keeps (State.placeRoot_keeps h3 _ _ _) _ _

theorem State.restoreCopies_keeps {r0 s : State} (hk : Keeps r0 s) (i : Nat) : Keeps r0 (State.restoreCopies s i) := by
  unfold State.restoreCopies
  repeat' first
    | (with_reducible first | assumption | apply Keeps.modEng | apply Keeps.ite) | extract_lets | intro _ | split
    | (have hg := ‹State.good _›; with_reducible exact (hg.getCore _).same rfl rfl) | dsimp only
    | with_reducible apply Keeps.lit

theorem State.resumeRun_keeps {r0 s : State} (hk : Keeps r0 s) (i : Nat) : Keeps r0 (State.resumeRun s i) := by
  unfold State.resumeRun
  repeat' first
    | (with_reducible first
        | assumption | apply Keeps.modCore | apply Keeps.focus | apply State.raise_keeps | apply State.restoreCopies_keeps
        | apply Keeps.ite)
    | extract_lets | intro _ | (with_reducible first | apply Mem.ite_wf | apply Mem.lit_wf) | split
    | (have hw := ‹Core.wired _›; with_reducible exact hw.same rfl rfl)
    | (have hg := ‹State.good _›; with_reducible exact (hg.getCore _).same rfl rfl) | dsimp only
    | with_reducible apply Keeps.lit | with_reducible apply Keeps.litMem

theorem State.checkedStart_keeps {r0 s : State} (hk : Keeps r0 s) (i kind : Nat) : Keeps r0 (State.checkedStart s i kind) := by
  unfold State.checkedStart
  repeat' first
    | (with_reducible first
        | assumption | refine State.footCheck_keeps (by assumption) ?_ | refine State.footChecks_keeps (by assumption) ?_
        | apply State.beginRun_keeps | apply Keeps.ite)
    | extract_lets | intro _ | split | dsimp only | with_reducible apply Keeps.lit

theorem execTaskStart_keeps {r0 s : State} (hk : Keeps r0 s) (core : Nat) : Keeps.Res r0 (execTaskStart core s) := by
  unfold execTaskStart
  repeat' first
    | (with_reducible first
        | assumption | apply State.beginRun_keeps | apply State.resumeRun_keeps | apply Keeps.next | apply Keeps.Res.ite
        | apply Keeps.ite)
    | extract_lets | intro _ | split | dsimp only | with_reducible apply Keeps.lit

theorem execTaskRestart_keeps {r0 s : State} (hk : Keeps r0 s) (core : Nat) : Keeps.Res r0 (execTaskRestart core s) := by
  unfold execTaskRestart
  repeat' first
    | (with_reducible first
        | assumption | apply State.checkedStart_keeps | apply Keeps.next | apply Keeps.Res.ite | apply Keeps.ite)
    | extract_lets | intro _ | split | dsimp only | with_reducible apply Keeps.lit

theorem execReplayStart_keeps {r0 s : State} (hk : Keeps r0 s) (core : Nat) : Keeps.Res r0 (execReplayStart core s) := by
  unfold execReplayStart
  repeat' first
    | (with_reducible first
        | assumption | apply State.checkedStart_keeps | apply Keeps.next | apply Keeps.Res.ite | apply Keeps.ite)
    | extract_lets | intro _ | split | dsimp only | with_reducible apply Keeps.lit

theorem State.doneRun_keeps {r0 s : State} (hk : Keeps r0 s) (i : Nat) (st : Status) (f : Drain → Drain) : Keeps r0 (State.doneRun s i st f) := by
  unfold State.doneRun
  repeat' first
    | (with_reducible first | assumption | apply Keeps.modCore | apply State.stopRun_keeps | apply Keeps.ite) | extract_lets
    | intro _ | split | (have hw := ‹Core.wired _›; with_reducible exact hw.same rfl rfl)
    | (have hg := ‹State.good _›; with_reducible exact (hg.getCore _).same rfl rfl) | dsimp only
    | with_reducible apply Keeps.lit

theorem State.retire_keeps {r0 s : State} (hk : Keeps r0 s) (i : Nat) : Keeps r0 (State.retire s i) := by
  unfold State.retire
  repeat' first
    | (with_reducible first
        | assumption | apply Keeps.modCore | apply Keeps.foldl | apply Mem.foldl_wf | apply Core.foldl_wired
        | apply State.at__keeps | apply State.endRequest_keeps | apply State.doneRun_keeps | apply Keeps.ite)
    | extract_lets | intro _ | split | (have hw := ‹Core.wired _›; with_reducible exact hw.same rfl rfl)
    | (have hg := ‹State.good _›; with_reducible exact (hg.getCore _).same rfl rfl) | dsimp only
    | with_reducible apply Keeps.lit

theorem State.again_keeps {r0 s : State} (hk : Keeps r0 s) (i : Nat) : Keeps r0 (State.again s i) := by
  unfold State.again
  repeat' first
    | (with_reducible first
        | assumption | apply Keeps.modCore | apply Mem.set_wf | apply State.at__keeps | apply State.modJetton_keeps
        | apply State.stopRun_keeps | apply State.schedule_keeps | apply State.doneRun_keeps | apply Keeps.ite)
    | extract_lets | intro _ | split | (have hw := ‹Core.wired _›; with_reducible exact hw.same rfl rfl)
    | (have hg := ‹State.good _›; with_reducible exact (hg.getCore _).same rfl rfl) | dsimp only
    | with_reducible apply Keeps.lit

theorem execTaskEnd_keeps {r0 s : State} (hk : Keeps r0 s) (core : Nat) : Keeps.Res r0 (execTaskEnd core s) := by
  unfold execTaskEnd
  repeat' first
    | (with_reducible first
        | assumption | apply Keeps.modCore | apply Core.doneAnchor_wired | apply State.retire_keeps | apply State.again_keeps
        | apply Keeps.next | apply Keeps.Res.ite | apply Keeps.ite)
    | extract_lets | intro _ | split | (have hw := ‹Core.wired _›; with_reducible exact hw.same rfl rfl)
    | (have hg := ‹State.good _›; with_reducible exact (hg.getCore _).same rfl rfl) | dsimp only
    | with_reducible apply Keeps.lit

end Sys2Proof.Machine
end

