-- ==== Sys2Proof/Laws/KeepsSelect.lean ====
section
/-!
SUPPORT. `Keeps` for the operations and meanings of Machine/Select.lean.
-/
namespace Sys2Proof.Machine

open Sys2Proof

theorem State.modSelector_keeps {r0 s : State} (hk : Keeps r0 s) (token : Bool) (f : Selector → Selector) : Keeps r0 (State.modSelector s token f) := by
  unfold State.modSelector
  repeat' first
    | (with_reducible first | assumption | apply Keeps.modDisp | apply Keeps.ite) | extract_lets | intro _ | split
    | dsimp only | with_reducible apply Keeps.lit

theorem State.watchTop_keeps {r0 s : State} (hk : Keeps r0 s) (token : Bool) : Keeps r0 (State.watchTop s token) := by
  unfold State.watchTop
  repeat' first
    | (with_reducible first | assumption | apply State.modSelector_keeps | apply Keeps.ite) | extract_lets | intro _ | split
    | dsimp only | with_reducible apply Keeps.lit

theorem execStarvationBar_keeps {r0 s : State} (hk : Keeps r0 s) (token : Bool) : Keeps.Res r0 (execStarvationBar token s) := by
  unfold execStarvationBar
  repeat' first
    | (with_reducible first
        | assumption | apply State.say_keeps | apply State.modSelector_keeps | apply Keeps.next | apply Keeps.Res.ite
        | apply Keeps.ite)
    | extract_lets | intro _ | split | dsimp only | with_reducible apply Keeps.lit

theorem State.bindCore_keeps {r0 s : State} (hk : Keeps r0 s) (j : Nat) (x : Jetton) (g : Group) (logical i : Nat) : Keeps r0 (State.bindCore s j x g logical i) := by
  unfold State.bindCore
  repeat' first
    | (with_reducible first | assumption | apply Keeps.modCore | apply State.at__keeps | apply Keeps.ite) | extract_lets
    | intro _ | split | (have hw := ‹Core.wired _›; with_reducible exact hw.same rfl rfl) | dsimp only
    | with_reducible apply Keeps.lit

theorem State.bindNew_keeps {r0 s : State} (hk : Keeps r0 s) (j : Nat) (x : Jetton) (t : Timetable) (cores : List Nat) : Keeps r0 (State.bindNew s j x t cores) := by
  unfold State.bindNew
  repeat' first
    | (with_reducible first
        | assumption | apply Keeps.foldl | apply Mem.foldl_wf | apply Core.foldl_wired | apply State.at__keeps
        | apply State.setJetton_keeps | apply State.renewDomains_keeps | apply State.joinDomains_keeps
        | apply State.bindCore_keeps | apply Keeps.ite)
    | extract_lets | intro _ | split | dsimp only | with_reducible apply Keeps.lit

theorem State.bindSealed_keeps {r0 s : State} (hk : Keeps r0 s) (j : Nat) (x : Jetton) (cores : List Nat) : Keeps r0 (State.bindSealed s j x cores) := by
  unfold State.bindSealed
  repeat' first
    | (with_reducible first
        | assumption | apply Keeps.modCore | apply Keeps.foldl | apply Mem.foldl_wf | apply Core.foldl_wired
        | apply State.setJetton_keeps | apply Keeps.ite)
    | extract_lets | intro _ | split | (have hw := ‹Core.wired _›; with_reducible exact hw.same rfl rfl) | dsimp only
    | with_reducible apply Keeps.lit

theorem State.discardSeal_keeps {r0 s : State} (hk : Keeps r0 s) (j : Nat) : Keeps r0 (State.discardSeal s j) := by
  unfold State.discardSeal
  repeat' first
    | (with_reducible first
        | assumption | apply State.modJetton_keeps | apply State.breakDomains_keeps | apply State.dropCores_keeps
        | apply Keeps.ite)
    | extract_lets | intro _ | split | dsimp only | with_reducible apply Keeps.lit

theorem State.abortScan_keeps {r0 s : State} (hk : Keeps r0 s) (i : Nat) : Keeps r0 (State.abortScan s i) := by
  unfold State.abortScan
  repeat' first
    | (with_reducible first | assumption | apply Keeps.modDisp | apply Keeps.ite) | extract_lets | intro _ | split
    | dsimp only | with_reducible apply Keeps.lit

theorem State.dropSignals_keeps {r0 s : State} (hk : Keeps r0 s) : Keeps r0 (State.dropSignals s) := by
  unfold State.dropSignals
  repeat' first
    | (with_reducible first | assumption | apply Keeps.modDisp | apply Keeps.ite) | extract_lets | intro _ | split
    | dsimp only | with_reducible apply Keeps.lit

theorem execSelection_keeps {r0 s : State} (hk : Keeps r0 s) (token : Bool) : Keeps.Res r0 (execSelection token s) := by
  unfold execSelection
  repeat' first
    | (with_reducible first
        | assumption | apply Keeps.modDisp | apply Keeps.foldl | apply Mem.foldl_wf | apply Core.foldl_wired
        | apply State.say_keeps | apply State.modSelector_keeps | apply State.bindNew_keeps | apply State.bindSealed_keeps
        | apply State.discardSeal_keeps | apply State.abortScan_keeps | apply Keeps.next | apply Keeps.Res.ite
        | apply Keeps.ite)
    | extract_lets | intro _ | split | dsimp only | with_reducible apply Keeps.lit

theorem State.bindStop_keeps {r0 s : State} (hk : Keeps r0 s) (j : Nat) (x : Jetton) (e : IoStop) : Keeps r0 (State.bindStop s j x e) := by
  unfold State.bindStop
  repeat' first
    | (with_reducible first | assumption | apply State.endRequest_keeps | apply State.reportXlate_keeps | apply Keeps.ite)
    | extract_lets | intro _ | split | dsimp only | with_reducible apply Keeps.lit

theorem State.armNew_keeps {r0 s : State} (hk : Keeps r0 s) (j : Nat) (x : Jetton) (g : Group) : Keeps r0 (s.armNew j x g) := by
  unfold State.armNew
  refine ioThen_keeps (fun p e => State.bindStop_keeps (State.ioReadE_keeps e hk) _ _ _) fun bs u h1 => ?_
  have hu := State.ioRead_keeps h1 hk
  extract_lets mb s2
  clear_value mb
  have h3 : Keeps r0 s2 := by
    refine Keeps.foldl (fun s i hs => ?_) _ hu
    extract_lets v
    have hv : Keeps r0 v := Keeps.modCore hs _ fun _ hc => hc.same rfl rfl
    split
    · exact State.loadCode_keeps hv _ _ _
    · exact hv
  clear_value s2
  split
  · exact State.footChecks_keeps ‹_› h3
  · exact State.schedule_keeps h3 _ _

theorem State.armCore_keeps {r0 s t : State} {x : Jetton} {g : Group} {i : Nat} {k : Option Nat} (e : s.armCore x g i = .ok (t, k))
    (hk : Keeps r0 s) : Keeps r0 t := by
  unfold State.armCore at e
  extract_lets c at e
  obtain ⟨hd, u, h1, e⟩ := ioThen_ok e
  have hu := State.ioRead_keeps h1 hk
  extract_lets w at e
  split at e
  · cases e; exact Keeps.modCore hu _ fun _ hc => hc.same rfl rfl
  · split at e
    · cases e; exact Keeps.modCore hu _ fun _ hc => hc.same rfl rfl
    · obtain ⟨b, v, h2, e⟩ := ioThen_ok e
      cases e; exact Keeps.modCore (State.ioRead_keeps h2 hu) _ fun _ hc => Core.restore_wired hc _

theorem State.armCoreE_keeps {r0 s : State} {x : Jetton} {g : Group} {i : Nat} {p : IoStop × State} (e : s.armCore x g i = .error p)
    (hk : Keeps r0 s) : Keeps r0 p.2 := by
  unfold State.armCore at e
  extract_lets c at e
  rcases ioThen_error e with h | ⟨hd, u, h1, e⟩
  · exact State.ioReadE_keeps h hk
  · have hu := State.ioRead_keeps h1 hk
    extract_lets w at e
    split at e
    · cases e
    · split at e
      · cases e
      · rcases ioThen_error e with h | ⟨b, v, h2, e⟩
        · exact State.ioReadE_keeps h hu
        · cases e

theorem State.armCores_keeps {r0 s : State} {x : Jetton} {g : Group} {cores : List Nat} {starts : List (Nat × Nat)}
    {p : State × List (Nat × Nat)} (e : s.armCores x g cores starts = .ok p) (hk : Keeps r0 s) : Keeps r0 p.1 := by
  induction cores generalizing s starts with
  | nil => cases e; exact hk
  | cons i r ih =>
    obtain ⟨q, h, e⟩ := okThen_ok e
    exact ih e (State.armCore_keeps (k := q.2) h hk)

theorem State.armCoresE_keeps {r0 s : State} {x : Jetton} {g : Group} {cores : List Nat} {starts : List (Nat × Nat)}
    {p : IoStop × State} (e : s.armCores x g cores starts = .error p) (hk : Keeps r0 s) : Keeps r0 p.2 := by
  induction cores generalizing s starts with
  | nil => cases e
  | cons i r ih =>
    rcases okThen_error e with h | ⟨q, h, e⟩
    · exact State.armCoreE_keeps h hk
    · exact ih e (State.armCore_keeps (k := q.2) h hk)

theorem State.arm_keeps {r0 s : State} (hk : Keeps r0 s) (j : Nat) : Keeps r0 (s.arm j) := by
  unfold State.arm
  extract_lets x
  split
  · exact hk
  · split
    · exact State.armNew_keeps hk _ _ _
    · exact okThen_keeps (fun _ e => State.bindStop_keeps (State.armCoresE_keeps e hk) _ _ _)
        fun _ e => State.schedule_keeps (State.armCores_keeps e hk) _ _

theorem State.unspillParts_keeps {r0 s t : State} {world va i : Nat} {parts : List (Nat × Nat)}
    (e : s.unspillParts world va i parts = .ok t) (hk : Keeps r0 s) : Keeps r0 t := by
  induction parts generalizing s with
  | nil => cases e; exact hk
  | cons p r ih =>
    obtain ⟨bs, u, h, e⟩ := ioThen_ok e
    exact ih e (Keeps.mem (State.ioRead_keeps h hk) fun _ hm => Mem.write_wf hm _ _)

theorem State.unspillPartsE_keeps {r0 s : State} {world va i : Nat} {parts : List (Nat × Nat)} {p : IoStop × State}
    (e : s.unspillParts world va i parts = .error p) (hk : Keeps r0 s) : Keeps r0 p.2 := by
  induction parts generalizing s with
  | nil => cases e
  | cons q r ih =>
    rcases ioThen_error e with h | ⟨bs, u, h, e⟩
    · exact State.ioReadE_keeps h hk
    · exact ih e (Keeps.mem (State.ioRead_keeps h hk) fun _ hm => Mem.write_wf hm _ _)

theorem State.unspillMarks_keeps {r0 s : State} (hk : Keeps r0 s) (sp : Spill) : Keeps r0 (s.unspillMarks sp) := by
  unfold State.unspillMarks
  extract_lets b outside s1
  have h1 : Keeps r0 s1 := Keeps.mem hk fun _ hm => hm
  clear_value s1
  refine Keeps.modCore h1 _ fun c _ => ?_
  exact Core.ored_wired _ sp.regs.ctl.k sp.regs.vec.m rfl rfl

theorem State.unspillOne_keeps {r0 s t : State} {world va : Nat} {sp : Spill} {parts : List (Nat × Nat)}
    (e : s.unspillOne world va sp parts = .ok t) (hk : Keeps r0 s) : Keeps r0 t := by
  obtain ⟨u, h, e⟩ := okThen_ok e
  obtain rfl := Except.ok.inj e
  exact State.unspillMarks_keeps (State.unspillParts_keeps h hk) _

theorem State.unspillAll_keeps {r0 s t : State} {x : Jetton} {l : List Spill} (e : s.unspillAll x l = .ok t)
    (hk : Keeps r0 s) : Keeps r0 t := by
  induction l generalizing s with
  | nil => cases e; exact hk
  | cons sp r ih =>
    obtain ⟨u, h, e⟩ := okThen_ok e
    exact ih e (State.unspillOne_keeps h hk)

theorem State.unspillAllE_keeps {r0 s : State} {x : Jetton} {l : List Spill} {p : IoStop × State} (e : s.unspillAll x l = .error p)
    (hk : Keeps r0 s) : Keeps r0 p.2 := by
  induction l generalizing s with
  | nil => cases e
  | cons sp r ih =>
    rcases okThen_error e with h | ⟨u, h, e⟩
    · rcases okThen_error h with h | ⟨v, h, e⟩
      · exact State.unspillPartsE_keeps h hk
      · cases e
    · exact ih e (State.unspillOne_keeps h hk)

theorem State.unspill_keeps {r0 s : State} (hk : Keeps r0 s) (j : Nat) : Keeps r0 (s.unspill j) := by
  unfold State.unspill
  exact okThen_keeps (fun _ e => State.bindStop_keeps (State.unspillAllE_keeps e hk) _ _ _)
    fun _ e => State.modJetton_keeps (State.unspillAll_keeps e hk) _ _

theorem State.armAll_keeps {r0 s : State} (hk : Keeps r0 s) : Keeps r0 (State.armAll s) := by
  unfold State.armAll
  repeat' first
    | (with_reducible first
        | assumption | apply Keeps.foldl | apply Mem.foldl_wf | apply Core.foldl_wired | apply State.arm_keeps
        | apply State.unspill_keeps | apply Keeps.ite)
    | extract_lets | intro _ | split | dsimp only | with_reducible apply Keeps.lit

theorem State.anchorAll_keeps {r0 s : State} (hk : Keeps r0 s) : Keeps r0 (State.anchorAll s) := by
  unfold State.anchorAll
  repeat' first
    | (with_reducible first | assumption | apply Keeps.modDisp | apply Keeps.ite) | extract_lets | intro _ | split
    | dsimp only | with_reducible apply Keeps.lit

theorem execOverrun_keeps {r0 s : State} (hk : Keeps r0 s) (core : Nat) : Keeps.Res r0 (execOverrun core s) := by
  unfold execOverrun
  repeat' first
    | (with_reducible first
        | assumption | apply Keeps.focus | apply State.raise_keeps | apply Keeps.next | apply Keeps.Res.ite | apply Keeps.ite)
    | extract_lets | intro _ | split | (have hg := ‹State.good _›; with_reducible exact (hg.getCore _).same rfl rfl)
    | dsimp only | with_reducible apply Keeps.lit

theorem State.noteClear_keeps {r0 s : State} (hk : Keeps r0 s) (e : Nat) : Keeps r0 (State.noteClear s e) := by
  unfold State.noteClear
  repeat' first
    | (with_reducible first | assumption | apply Keeps.modDisp | apply Keeps.ite) | extract_lets | intro _ | split
    | dsimp only | with_reducible apply Keeps.lit

theorem State.finishRecord_keeps {r0 s : State} (hk : Keeps r0 s) (j e : Nat) (r : Ended) : Keeps r0 (State.finishRecord s j e r) := by
  unfold State.finishRecord
  repeat' first
    | (with_reducible first
        | assumption | apply Keeps.foldl | apply Mem.foldl_wf | apply Core.foldl_wired | apply Mem.set_wf
        | apply State.at__keeps | apply State.setJetton_keeps | apply Keeps.ite)
    | extract_lets | intro _ | split | dsimp only | with_reducible apply Keeps.lit

theorem State.writeRecord_keeps {r0 s : State} (hk : Keeps r0 s) (j e : Nat) (r : Ended) : Keeps r0 (s.writeRecord j e r) := by
  rw [State.writeRecord]
  generalize (s.jetton j) = x
  generalize h : s.ioWrite _ none _ _ = w
  cases w with
  | ok t => exact State.finishRecord_keeps (State.ioWrite_keeps h hk) _ _ _
  | error p =>
    obtain ⟨c, t⟩ := p
    cases c with
    | xlate a => exact State.reportXlate_keeps (State.ioWriteE_keeps h hk) _ _ _
    | refused c a => exact State.finishRecord_keeps (State.ioWriteE_keeps h hk) _ _ _
    | damaged a => exact State.finishRecord_keeps (State.ioWriteE_keeps h hk) _ _ _

theorem execCompletionRecordWrite_keeps {r0 s : State} (hk : Keeps r0 s) (jetton : Nat) :
    Keeps.Res r0 (execCompletionRecordWrite jetton s) := by
  unfold execCompletionRecordWrite
  apply Keeps.next
  split
  · exact State.writeRecord_keeps hk _ _ _
  · exact hk

end Sys2Proof.Machine
end

