-- ==== Sys2Proof/Laws/KeepsDrain.lean ====
section
/-!
SUPPORT. `Keeps` for the operations and meanings of Machine/Drain.lean.
-/
namespace Sys2Proof.Machine

open Sys2Proof

theorem State.saveCopies_keeps {r0 s : State} (hk : Keeps r0 s) (i d : Nat) : Keeps r0 (State.saveCopies s i d) := by
  unfold State.saveCopies
  repeat' first
    | (with_reducible first | assumption | apply Keeps.modEng | apply Keeps.ite) | extract_lets | intro _ | split
    | (have hg := ‹State.good _›; with_reducible exact (hg.getCore _).same rfl rfl) | dsimp only
    | with_reducible apply Keeps.lit

theorem State.divert_keeps {r0 s : State} (hk : Keeps r0 s) (i : Nat) : Keeps r0 (State.divert s i) := by
  unfold State.divert
  repeat' first
    | (with_reducible first | assumption | apply Keeps.modCore | apply State.saveCopies_keeps | apply Keeps.ite)
    | extract_lets | intro _ | split | (have hw := ‹Core.wired _›; with_reducible exact hw.same rfl rfl)
    | (have hg := ‹State.good _›; with_reducible exact (hg.getCore _).same rfl rfl) | dsimp only
    | with_reducible apply Keeps.lit

theorem State.abandonHome_keeps {r0 s : State} (hk : Keeps r0 s) (id : Nat) : Keeps r0 (State.abandonHome s id) := by
  unfold State.abandonHome
  repeat' first
    | (with_reducible first
        | assumption | apply Keeps.mem | apply Mem.setWord_wf | apply State.dropHome_keeps | apply Keeps.ite)
    | extract_lets | intro _ | (with_reducible first | apply Mem.ite_wf | apply Mem.lit_wf) | split | dsimp only
    | with_reducible apply Keeps.lit | with_reducible apply Keeps.litMem

theorem State.abandonLate_keeps {r0 s : State} (hk : Keeps r0 s) (i : Nat) : Keeps r0 (State.abandonLate s i) := by
  unfold State.abandonLate
  repeat' first
    | (with_reducible first | assumption | apply Keeps.modDisp | apply Keeps.modCore | apply Keeps.ite) | extract_lets
    | intro _ | split | (have hw := ‹Core.wired _›; with_reducible exact hw.same rfl rfl)
    | (have hg := ‹State.good _›; with_reducible exact (hg.getCore _).same rfl rfl) | dsimp only
    | with_reducible apply Keeps.lit

theorem State.abandonArrival_keeps {r0 s : State} (hk : Keeps r0 s) (i : Nat) (lvl : BitVec 3) (p : BitVec 32) : Keeps r0 (State.abandonArrival s i lvl p) := by
  unfold State.abandonArrival
  repeat' first
    | (with_reducible first | assumption | apply Keeps.modCore | apply State.modDomain_keeps | apply Keeps.ite) | extract_lets
    | intro _ | split | (have hw := ‹Core.wired _›; with_reducible exact hw.same rfl rfl) | dsimp only
    | with_reducible apply Keeps.lit

theorem State.abandonFabric_keeps {r0 s : State} (hk : Keeps r0 s) (i : Nat) : Keeps r0 (State.abandonFabric s i) := by
  unfold State.abandonFabric
  repeat' first
    | (with_reducible first | assumption | apply Keeps.modEng | apply Keeps.ite) | extract_lets | intro _ | split
    | (have hg := ‹State.good _›; with_reducible exact (hg.getCore _).same rfl rfl) | dsimp only
    | with_reducible apply Keeps.lit

theorem State.abandonWait_keeps {r0 s : State} (hk : Keeps r0 s) (i : Nat) : Keeps r0 (State.abandonWait s i) := by
  unfold State.abandonWait
  repeat' first
    | (with_reducible first
        | assumption | apply State.abandonHome_keeps | apply State.abandonLate_keeps | apply State.abandonArrival_keeps
        | apply State.abandonFabric_keeps | apply Keeps.ite)
    | extract_lets | intro _ | split | (have hg := ‹State.good _›; with_reducible exact (hg.getCore _).same rfl rfl)
    | dsimp only | with_reducible apply Keeps.lit

theorem execDrainDivert_keeps {r0 s : State} (hk : Keeps r0 s) (core : Nat) : Keeps.Res r0 (execDrainDivert core s) := by
  unfold execDrainDivert
  repeat' first
    | (with_reducible first
        | assumption | apply State.divert_keeps | apply State.abandonWait_keeps | apply Keeps.next | apply Keeps.Res.ite
        | apply Keeps.ite)
    | extract_lets | intro _ | split | dsimp only | with_reducible apply Keeps.lit

theorem State.preemptCore_keeps {r0 s : State} (hk : Keeps r0 s) (i : Nat) : Keeps r0 (State.preemptCore s i) := by
  unfold State.preemptCore
  repeat' first
    | (with_reducible first
        | assumption | apply Keeps.modDisp | apply Keeps.modCore | apply State.divert_keeps | apply State.abandonWait_keeps
        | apply Keeps.ite)
    | extract_lets | intro _ | split | (have hw := ‹Core.wired _›; with_reducible exact hw.same rfl rfl)
    | (have hg := ‹State.good _›; with_reducible exact (hg.getCore _).same rfl rfl) | dsimp only
    | with_reducible apply Keeps.lit

theorem execPreemptionRequest_keeps {r0 s : State} (hk : Keeps r0 s) (jetton : Nat) : Keeps.Res r0 (execPreemptionRequest jetton s) := by
  unfold execPreemptionRequest
  repeat' first
    | (with_reducible first
        | assumption | apply Keeps.foldl | apply Mem.foldl_wf | apply Core.foldl_wired | apply State.modJetton_keeps
        | apply State.preemptCore_keeps | apply Keeps.next | apply Keeps.Res.ite | apply Keeps.ite)
    | extract_lets | intro _ | split | dsimp only | with_reducible apply Keeps.lit

theorem State.recordBeats_keeps {r0 s : State} (hk : Keeps r0 s) (world cls va n c last : Nat) :
    Keeps r0 (s.recordBeats world cls va n c last).2 := by
  induction n generalizing s va c last with
  | zero => exact hk
  | succ n ih =>
    unfold State.recordBeats
    split
    · exact ih hk _ _ _
    · exact ih (State.takeSlot2_keeps hk) _ _ _

theorem State.recordBeatsE_keeps {r0 s t : State} {world cls va n c last l : Nat}
    (e : s.recordBeats world cls va n c last = (l, t)) (hk : Keeps r0 s) : Keeps r0 t := by
  have := State.recordBeats_keeps hk world cls va n c last
  rw [e] at this; exact this

theorem execSealCore_keeps {r0 s : State} (hk : Keeps r0 s) (core : Nat) : Keeps.Res r0 (execSealCore core s) := by
  unfold execSealCore
  repeat' first
    | (with_reducible first
        | assumption | apply Keeps.modCore | apply State.at__keeps | apply State.modJetton_keeps
        | apply State.saveCopies_keeps | apply State.recordBeats_keeps | refine State.recordBeatsE_keeps (by assumption) ?_
        | apply Keeps.next | apply Keeps.Res.ite | apply Keeps.ite)
    | extract_lets | intro _ | split | (have hw := ‹Core.wired _›; with_reducible exact hw.same rfl rfl)
    | (have hg := ‹State.good _›; with_reducible exact (hg.getCore _).same rfl rfl) | dsimp only
    | with_reducible apply Keeps.lit

theorem State.sealLost_keeps {r0 s : State} (hk : Keeps r0 s) (j : Nat) (e : IoStop) : Keeps r0 (State.sealLost s j e) := by
  unfold State.sealLost
  repeat' first
    | (with_reducible first | assumption | apply State.endRequest_keeps | apply Keeps.ite) | extract_lets | intro _ | split
    | dsimp only | with_reducible apply Keeps.lit

theorem execSealRecordComplete_keeps {r0 s : State} (hk : Keeps r0 s) (core : Nat) : Keeps.Res r0 (execSealRecordComplete core s) := by
  unfold execSealRecordComplete
  repeat' first
    | (with_reducible first
        | assumption | apply State.modJetton_keeps | apply State.reportXlate_keeps
        | refine State.ioWrite_keeps (by assumption) ?_ | refine State.ioWriteE_keeps (by assumption) ?_
        | apply State.sealLost_keeps | apply Keeps.next | apply Keeps.Res.ite | apply Keeps.ite)
    | (with_reducible refine State.ioWriteP_keeps (by with_reducible assumption) ?_) | extract_lets | intro _ | split
    | (have hg := ‹State.good _›; with_reducible exact (hg.getCore _).same rfl rfl) | dsimp only
    | with_reducible apply Keeps.lit

theorem execEvictionRequest_keeps {r0 s : State} (hk : Keeps r0 s) (jetton : Nat) : Keeps.Res r0 (execEvictionRequest jetton s) := by
  unfold execEvictionRequest
  repeat' first
    | (with_reducible first
        | assumption | apply State.modJetton_keeps | apply Keeps.next | apply Keeps.Res.ite | apply Keeps.ite)
    | extract_lets | intro _ | split | dsimp only | with_reducible apply Keeps.lit

theorem State.noteEvictions_keeps {r0 s : State} (hk : Keeps r0 s) (e : Nat) : Keeps r0 (State.noteEvictions s e) := by
  unfold State.noteEvictions
  repeat' first
    | (with_reducible first
        | assumption | apply Keeps.foldl | apply Mem.foldl_wf | apply Core.foldl_wired | apply State.at__keeps
        | apply State.modJetton_keeps | apply Keeps.ite)
    | extract_lets | intro _ | split | dsimp only | with_reducible apply Keeps.lit

theorem State.spillParts_keeps {r0 s t : State} {world va i : Nat} {parts : List (Nat × Nat)}
    (e : s.spillParts world va i parts = .ok t) (hk : Keeps r0 s) : Keeps r0 t := by
  induction parts generalizing s with
  | nil => exact State.ioWrite_keeps e hk
  | cons p r ih =>
    obtain ⟨u, h, e⟩ := okThen_ok e
    exact ih e (State.ioWrite_keeps h hk)

theorem State.spillPartsE_keeps {r0 s : State} {world va i : Nat} {parts : List (Nat × Nat)} {p : IoStop × State}
    (e : s.spillParts world va i parts = .error p) (hk : Keeps r0 s) : Keeps r0 p.2 := by
  induction parts generalizing s with
  | nil => exact State.ioWriteE_keeps (x := p.1) e hk
  | cons q r ih =>
    rcases okThen_error e with h | ⟨u, h, e⟩
    · exact State.ioWriteE_keeps (x := p.1) h hk
    · exact ih e (State.ioWrite_keeps h hk)

theorem State.evictOut_keeps {r0 s : State} (hk : Keeps r0 s) (j i : Nat) : Keeps r0 (State.evictOut s j i) := by
  unfold State.evictOut
  repeat' first
    | (with_reducible first
        | assumption | apply Keeps.modCore | apply State.at__keeps | apply State.modJetton_keeps | apply Keeps.ite)
    | extract_lets | intro _ | split | (have hw := ‹Core.wired _›; with_reducible exact hw.same rfl rfl) | dsimp only
    | with_reducible apply Keeps.lit

theorem State.evictCore_keeps {r0 s t : State} {j i : Nat} (e : s.evictCore j i = .ok t) (hk : Keeps r0 s) : Keeps r0 t := by
  unfold State.evictCore at e
  extract_lets x c at e
  obtain ⟨u, h, e⟩ := okThen_ok e
  obtain rfl := Except.ok.inj e
  exact State.evictOut_keeps (State.spillParts_keeps h hk) _ _

theorem State.evictCoreE_keeps {r0 s : State} {j i : Nat} {p : IoStop × State} (e : s.evictCore j i = .error p)
    (hk : Keeps r0 s) : Keeps r0 p.2 := by
  unfold State.evictCore at e
  extract_lets x c at e
  rcases okThen_error e with h | ⟨u, _, e⟩
  · exact State.spillPartsE_keeps h hk
  · cases e

theorem State.evictCores_keeps {r0 s t : State} {j : Nat} {cores : List Nat} (e : s.evictCores j cores = .ok t)
    (hk : Keeps r0 s) : Keeps r0 t := by
  induction cores generalizing s with
  | nil => cases e; exact hk
  | cons i r ih =>
    obtain ⟨u, h, e⟩ := okThen_ok e
    exact ih e (State.evictCore_keeps h hk)

theorem State.evictCoresE_keeps {r0 s : State} {j : Nat} {cores : List Nat} {p : IoStop × State}
    (e : s.evictCores j cores = .error p) (hk : Keeps r0 s) : Keeps r0 p.2 := by
  induction cores generalizing s with
  | nil => cases e
  | cons i r ih =>
    rcases okThen_error e with h | ⟨u, h, e⟩
    · exact State.evictCoreE_keeps h hk
    · exact ih e (State.evictCore_keeps h hk)

theorem execEvictionComplete_keeps {r0 s : State} (hk : Keeps r0 s) (jetton : Nat) :
    Keeps.Res r0 (execEvictionComplete jetton s) := by
  unfold execEvictionComplete
  refine Keeps.next (Keeps.ite (fun _ => okThen_keeps (fun p e => ?_) fun t e => ?_) fun _ => hk)
  · exact State.sealLost_keeps (State.evictCoresE_keeps e hk) _ _
  · exact State.modJetton_keeps (State.evictCores_keeps e hk) _ _

theorem execJettonRelease_keeps {r0 s : State} (hk : Keeps r0 s) (jetton : Nat) : Keeps.Res r0 (execJettonRelease jetton s) := by
  unfold execJettonRelease
  repeat' first
    | (with_reducible first
        | assumption | apply Keeps.modDisp | apply Keeps.modEng | apply Keeps.foldl | apply Mem.foldl_wf
        | apply Core.foldl_wired | apply State.modJetton_keeps | apply State.cancelQueued_keeps | apply State.freeCore_keeps
        | apply Keeps.next | apply Keeps.Res.ite | apply Keeps.ite)
    | extract_lets | intro _ | split | dsimp only | with_reducible apply Keeps.lit

theorem Mem.scrub_wf {m : Mem} (h : m.wf = true) (a n : Nat) : (m.scrub a n).wf = true := cellsWf_filter _ h

theorem State.scrubPart_keeps {r0 s : State} (hk : Keeps r0 s) (i k : Nat) : Keeps r0 (State.scrubPart s i k) := by
  unfold State.scrubPart
  repeat' first
    | (with_reducible first | assumption | apply Keeps.mem | apply Keeps.modCore | apply Mem.scrub_wf | apply Keeps.ite)
    | extract_lets | intro _ | (with_reducible first | apply Mem.ite_wf | apply Mem.lit_wf) | split
    | (have hw := ‹Core.wired _›; with_reducible exact hw.same rfl rfl)
    | (have hg := ‹State.good _›; with_reducible exact (hg.getCore _).same rfl rfl) | dsimp only
    | with_reducible apply Keeps.lit | with_reducible apply Keeps.litMem

theorem State.scrubAll_keeps {r0 s : State} (hk : Keeps r0 s) : Keeps r0 (State.scrubAll s) := by
  unfold State.scrubAll
  repeat' first
    | (with_reducible first
        | assumption | apply Keeps.foldl | apply Mem.foldl_wf | apply Core.foldl_wired | apply State.scrubPart_keeps
        | apply Keeps.ite)
    | extract_lets | intro _ | split | (have hg := ‹State.good _›; with_reducible exact (hg.getCore _).same rfl rfl)
    | dsimp only | with_reducible apply Keeps.lit

theorem State.scrubCore_keeps {r0 s : State} (hk : Keeps r0 s) (i : Nat) : Keeps r0 (State.scrubCore s i) := by
  unfold State.scrubCore
  repeat' first
    | (with_reducible first
        | assumption | apply Keeps.mem | apply Keeps.modCore | apply Keeps.foldl | apply Mem.foldl_wf | apply Core.foldl_wired
        | apply Mem.scrub_wf | apply Keeps.ite)
    | extract_lets | intro _ | (with_reducible first | apply Mem.ite_wf | apply Mem.lit_wf) | split
    | (have hw := ‹Core.wired _›; with_reducible exact hw.same rfl rfl)
    | (have hg := ‹State.good _›; with_reducible exact (hg.getCore _).same rfl rfl) | dsimp only
    | with_reducible apply Keeps.lit | with_reducible apply Keeps.litMem

theorem execCoreScrubStart_keeps {r0 s : State} (hk : Keeps r0 s) (core : Nat) : Keeps.Res r0 (execCoreScrubStart core s) := by
  unfold execCoreScrubStart
  repeat' first
    | (with_reducible first
        | assumption | apply Keeps.modCore | apply State.at__keeps | apply Keeps.next | apply Keeps.Res.ite | apply Keeps.ite)
    | extract_lets | intro _ | split | (have hw := ‹Core.wired _›; with_reducible exact hw.same rfl rfl)
    | (have hg := ‹State.good _›; with_reducible exact (hg.getCore _).same rfl rfl) | dsimp only
    | with_reducible apply Keeps.lit

theorem execCoreScrubEnd_keeps {r0 s : State} (hk : Keeps r0 s) (core : Nat) : Keeps.Res r0 (execCoreScrubEnd core s) := by
  unfold execCoreScrubEnd
  repeat' first
    | (with_reducible first | assumption | apply Keeps.modCore | apply Keeps.next | apply Keeps.Res.ite | apply Keeps.ite)
    | extract_lets | intro _ | split | (have hw := ‹Core.wired _›; with_reducible exact hw.same rfl rfl)
    | (have hg := ‹State.good _›; with_reducible exact (hg.getCore _).same rfl rfl) | dsimp only
    | with_reducible apply Keeps.lit

theorem execHalt_keeps {r0 s : State} (hk : Keeps r0 s) (core : Nat) : Keeps.Res r0 (execHalt core s) := by
  unfold execHalt
  repeat' first
    | (with_reducible first
        | assumption | apply Keeps.modCore | apply State.say_keeps | apply Keeps.next | apply Keeps.Res.ite | apply Keeps.ite)
    | extract_lets | intro _ | split | (have hw := ‹Core.wired _›; with_reducible exact hw.same rfl rfl)
    | (have hg := ‹State.good _›; with_reducible exact (hg.getCore _).same rfl rfl) | dsimp only
    | with_reducible apply Keeps.lit

theorem State.enterHalts_keeps {r0 s : State} (hk : Keeps r0 s) : Keeps r0 (State.enterHalts s) := by
  unfold State.enterHalts
  repeat' first
    | (with_reducible first
        | assumption | apply Keeps.modCore | apply Keeps.foldl | apply Mem.foldl_wf | apply Core.foldl_wired | apply Keeps.ite)
    | extract_lets | intro _ | split | (have hw := ‹Core.wired _›; with_reducible exact hw.same rfl rfl)
    | (have hg := ‹State.good _›; with_reducible exact (hg.getCore _).same rfl rfl) | dsimp only
    | with_reducible apply Keeps.lit

theorem execStep_keeps {r0 s : State} (hk : Keeps r0 s) (core : Nat) (n : BitVec 16) : Keeps.Res r0 (execStep core n s) := by
  unfold execStep
  repeat' first
    | (with_reducible first
        | assumption | apply Keeps.modCore | apply State.say_keeps | apply Keeps.next | apply Keeps.Res.ite | apply Keeps.ite)
    | extract_lets | intro _ | split | (have hw := ‹Core.wired _›; with_reducible exact hw.same rfl rfl)
    | (have hg := ‹State.good _›; with_reducible exact (hg.getCore _).same rfl rfl) | dsimp only
    | with_reducible apply Keeps.lit

theorem execCont_keeps {r0 s : State} (hk : Keeps r0 s) (core : Nat) : Keeps.Res r0 (execCont core s) := by
  unfold execCont
  repeat' first
    | (with_reducible first
        | assumption | apply Keeps.modCore | apply State.say_keeps | apply Keeps.next | apply Keeps.Res.ite | apply Keeps.ite)
    | extract_lets | intro _ | split | (have hw := ‹Core.wired _›; with_reducible exact hw.same rfl rfl)
    | (have hg := ‹State.good _›; with_reducible exact (hg.getCore _).same rfl rfl) | dsimp only
    | with_reducible apply Keeps.lit

theorem State.debugTick_keeps {r0 s : State} (hk : Keeps r0 s) : Keeps r0 (State.debugTick s) := by
  unfold State.debugTick
  repeat' first
    | (with_reducible first
        | assumption | apply Keeps.modCore | apply Keeps.foldl | apply Mem.foldl_wf | apply Core.foldl_wired
        | apply Core.leaveDebug_wired | apply State.holdCore_keeps | apply Keeps.ite)
    | extract_lets | intro _ | split | (have hw := ‹Core.wired _›; with_reducible exact hw.same rfl rfl)
    | (have hg := ‹State.good _›; with_reducible exact (hg.getCore _).same rfl rfl) | dsimp only
    | with_reducible apply Keeps.lit

theorem execRreg_keeps {r0 s : State} (hk : Keeps r0 s) (core : Nat) (r : RegName) : Keeps.Res r0 (execRreg core r s) := by
  unfold execRreg
  repeat' first
    | (with_reducible first
        | assumption | apply Keeps.focus | apply State.say_keeps | apply Keeps.next | apply Keeps.Res.ite | apply Keeps.ite)
    | extract_lets | intro _ | split | dsimp only | with_reducible apply Keeps.lit

theorem execWreg_keeps {r0 s : State} (hk : Keeps r0 s) (core : Nat) (r : RegName) (value : BitVec 1056) : Keeps.Res r0 (execWreg core r value s) := by
  unfold execWreg
  repeat' first
    | (with_reducible first
        | assumption | apply Keeps.modCore | apply Core.writeReg_wired | apply State.say_keeps | apply Keeps.next
        | apply Keeps.Res.ite | apply Keeps.ite)
    | extract_lets | intro _ | split | (have hw := ‹Core.wired _›; with_reducible exact hw.same rfl rfl)
    | (have hg := ‹State.good _›; with_reducible exact (hg.getCore _).same rfl rfl) | dsimp only
    | with_reducible apply Keeps.lit

end Sys2Proof.Machine
end

