-- ==== Sys2Proof/Laws/KeepsPrefix.lean ====
section
/-!
SUPPORT. `Keeps` for the operations and meanings of Machine/Prefix.lean.
-/
namespace Sys2Proof.Machine

open Sys2Proof

theorem State.dropWay_keeps {r0 s : State} (hk : Keeps r0 s) (bucket way : Nat) : Keeps r0 (State.dropWay s bucket way) := by
  unfold State.dropWay
  repeat' first
    | (with_reducible first | assumption | apply Keeps.modEng | apply Keeps.ite) | extract_lets | intro _ | split | dsimp only
    | with_reducible apply Keeps.lit

theorem State.touchLine_keeps {r0 s : State} (hk : Keeps r0 s) (k : Nat × Option Nat) : Keeps r0 (State.touchLine s k) := by
  unfold State.touchLine
  repeat' first
    | (with_reducible first | assumption | apply Keeps.modEng | apply Keeps.ite) | extract_lets | intro _ | split | dsimp only
    | with_reducible apply Keeps.lit

theorem State.prefixIssue_keeps {r0 s : State} (hk : Keeps r0 s) (fn : Nat) (ref : Bool) (slot : W64) (a b : CReg) : Keeps r0 (State.prefixIssue s fn ref slot a b) := by
  unfold State.prefixIssue
  repeat' first
    | (with_reducible first
        | assumption | apply Keeps.mem | apply Keeps.modC | apply Keeps.modEng | apply Mem.set_wf | apply Mem.markPoison_wf
        | apply State.fresh2_keeps | refine State.fresh_keeps (by assumption) ?_ | apply State.record_keeps
        | apply State.ctlFault_keeps | apply State.advance_keeps | apply State.replay_keeps | apply State.arrive_keeps
        | apply State.again_keeps | apply Keeps.ite)
    | extract_lets | intro _ | (with_reducible first | apply Mem.ite_wf | apply Mem.lit_wf) | split
    | (have hw := ‹Core.wired _›; with_reducible exact hw.same rfl rfl) | dsimp only | with_reducible apply Keeps.lit
    | with_reducible apply Keeps.litMem

theorem execKvhs_keeps {r0 s : State} (hk : Keeps r0 s) (a b : CReg) : Keeps.Res r0 (execKvhs a b s) := by
  unfold execKvhs
  repeat' first
    | (with_reducible first
        | assumption | apply State.prefixIssue_keeps | apply Keeps.next | apply Keeps.Res.ite | apply Keeps.ite)
    | extract_lets | intro _ | split | dsimp only | with_reducible apply Keeps.lit

theorem execKvlk_keeps {r0 s : State} (hk : Keeps r0 s) (a b : CReg) (ref : Bool) : Keeps.Res r0 (execKvlk a b ref s) := by
  unfold execKvlk
  repeat' first
    | (with_reducible first
        | assumption | apply State.prefixIssue_keeps | apply Keeps.next | apply Keeps.Res.ite | apply Keeps.ite)
    | extract_lets | intro _ | split | dsimp only | with_reducible apply Keeps.lit

theorem execKvin_keeps {r0 s : State} (hk : Keeps r0 s) (d : SReg) (a b : CReg) : Keeps.Res r0 (execKvin d a b s) := by
  unfold execKvin
  repeat' first
    | (with_reducible first
        | assumption | apply State.prefixIssue_keeps | apply Keeps.next | apply Keeps.Res.ite | apply Keeps.ite)
    | extract_lets | intro _ | split | dsimp only | with_reducible apply Keeps.lit

theorem execKvap_keeps {r0 s : State} (hk : Keeps r0 s) (b : CReg) : Keeps.Res r0 (execKvap b s) := by
  unfold execKvap
  repeat' first
    | (with_reducible first
        | assumption | apply State.prefixIssue_keeps | apply Keeps.next | apply Keeps.Res.ite | apply Keeps.ite)
    | extract_lets | intro _ | split | dsimp only | with_reducible apply Keeps.lit

theorem execKvrl_keeps {r0 s : State} (hk : Keeps r0 s) (d : SReg) (b : CReg) : Keeps.Res r0 (execKvrl d b s) := by
  unfold execKvrl
  repeat' first
    | (with_reducible first
        | assumption | apply State.prefixIssue_keeps | apply Keeps.next | apply Keeps.Res.ite | apply Keeps.ite)
    | extract_lets | intro _ | split | dsimp only | with_reducible apply Keeps.lit

theorem execKvex_keeps {r0 s : State} (hk : Keeps r0 s) (d : SReg) (a b : CReg) : Keeps.Res r0 (execKvex d a b s) := by
  unfold execKvex
  repeat' first
    | (with_reducible first
        | assumption | apply State.prefixIssue_keeps | apply Keeps.next | apply Keeps.Res.ite | apply Keeps.ite)
    | extract_lets | intro _ | split | dsimp only | with_reducible apply Keeps.lit

theorem execKvim_keeps {r0 s : State} (hk : Keeps r0 s) (d : SReg) (a b : CReg) : Keeps.Res r0 (execKvim d a b s) := by
  unfold execKvim
  repeat' first
    | (with_reducible first
        | assumption | apply State.prefixIssue_keeps | apply Keeps.next | apply Keeps.Res.ite | apply Keeps.ite)
    | extract_lets | intro _ | split | dsimp only | with_reducible apply Keeps.lit

theorem execWseg_keeps {r0 s : State} (hk : Keeps r0 s) (a b : CReg) : Keeps.Res r0 (execWseg a b s) := by
  unfold execWseg
  repeat' first
    | (with_reducible first
        | assumption | apply State.prefixIssue_keeps | apply Keeps.next | apply Keeps.Res.ite | apply Keeps.ite)
    | extract_lets | intro _ | split | dsimp only | with_reducible apply Keeps.lit

theorem execWprf_keeps {r0 s : State} (hk : Keeps r0 s) (a : CReg) : Keeps.Res r0 (execWprf a s) := by
  unfold execWprf
  repeat' first
    | (with_reducible first
        | assumption | apply State.prefixIssue_keeps | apply Keeps.next | apply Keeps.Res.ite | apply Keeps.ite)
    | extract_lets | intro _ | split | dsimp only | with_reducible apply Keeps.lit

theorem State.modPcmd_keeps {r0 s : State} (hk : Keeps r0 s) (id : Nat) (f : PCommand → PCommand) : Keeps r0 (State.modPcmd s id f) := by
  unfold State.modPcmd
  repeat' first
    | (with_reducible first | assumption | apply Keeps.modEng | apply Keeps.ite) | extract_lets | intro _ | split | dsimp only
    | with_reducible apply Keeps.lit

theorem State.dropPcmd_keeps {r0 s : State} (hk : Keeps r0 s) (id : Nat) : Keeps r0 (State.dropPcmd s id) := by
  unfold State.dropPcmd
  repeat' first
    | (with_reducible first | assumption | apply Keeps.modEng | apply Keeps.ite) | extract_lets | intro _ | split | dsimp only
    | with_reducible apply Keeps.lit

theorem execPrefixCommandDepart_keeps {r0 s : State} (hk : Keeps r0 s) (id : Nat) : Keeps.Res r0 (execPrefixCommandDepart id s) := by
  unfold execPrefixCommandDepart
  repeat' first
    | (with_reducible first
        | assumption | apply State.at__keeps | apply State.arrive_keeps | apply State.modPcmd_keeps | apply Keeps.next
        | apply Keeps.Res.ite | apply Keeps.ite)
    | extract_lets | intro _ | split | dsimp only | with_reducible apply Keeps.lit

theorem execPrefixCommandStart_keeps {r0 s : State} (hk : Keeps r0 s) (id : Nat) : Keeps.Res r0 (execPrefixCommandStart id s) := by
  unfold execPrefixCommandStart
  repeat' first
    | (with_reducible first
        | assumption | apply Keeps.modEng | apply State.at__keeps | apply State.modPcmd_keeps | apply Keeps.next
        | apply Keeps.Res.ite | apply Keeps.ite)
    | extract_lets | intro _ | split | dsimp only | with_reducible apply Keeps.lit

theorem State.modSlot_keeps {r0 s : State} (hk : Keeps r0 s) (w j : Nat) (f : Slot → Slot) : Keeps r0 (State.modSlot s w j f) := by
  unfold State.modSlot
  repeat' first
    | (with_reducible first | assumption | apply State.setPrefix_keeps | apply Keeps.ite) | extract_lets | intro _ | split
    | dsimp only | with_reducible apply Keeps.lit

theorem State.placeWay_keeps {r0 s : State} (hk : Keeps r0 s) (w d v : Nat) (tag : List Byte) : Keeps r0 (State.placeWay s w d v tag) := by
  unfold State.placeWay
  repeat' first
    | (with_reducible first | assumption | apply Keeps.modEng | apply State.modSlot_keeps | apply Keeps.ite) | extract_lets
    | intro _ | split | dsimp only | with_reducible apply Keeps.lit

theorem State.kvin_fst {r0 s : State} (hk : Keeps r0 s) (w d : Nat) (tag : List Byte) : Keeps.Fst r0 (s.kvin w d tag) := by
  unfold State.kvin
  repeat' first
    | (with_reducible first
        | assumption | apply Keeps.Fst.mk | apply Keeps.Fst.ite | apply State.dropWay_keeps | apply State.modSlot_keeps
        | apply State.placeWay_keeps | apply Keeps.ite)
    | extract_lets | intro _ | split | dsimp only | with_reducible apply Keeps.lit

theorem State.kvin_keeps {r0 s : State} (hk : Keeps r0 s) (w d : Nat) (tag : List Byte) : Keeps r0 (s.kvin w d tag).1 := State.kvin_fst hk w d tag

theorem State.kvap_fst {r0 s : State} (hk : Keeps r0 s) (w : Nat) : Keeps.Fst r0 (s.kvap w) := by
  unfold State.kvap
  repeat' first
    | (with_reducible first
        | assumption | apply Keeps.Fst.mk | apply Keeps.Fst.ite | apply State.dropWay_keeps | apply State.modSlot_keeps
        | apply Keeps.ite)
    | extract_lets | intro _ | split | dsimp only | with_reducible apply Keeps.lit

theorem State.kvap_keeps {r0 s : State} (hk : Keeps r0 s) (w : Nat) : Keeps r0 (s.kvap w).1 := State.kvap_fst hk w

theorem State.kvrl_fst {r0 s : State} (hk : Keeps r0 s) (w d : Nat) : Keeps.Fst r0 (s.kvrl w d) := by
  unfold State.kvrl
  repeat' first
    | (with_reducible first
        | assumption | apply Keeps.Fst.mk | apply Keeps.Fst.ite | apply State.modSlot_keeps | apply Keeps.ite)
    | extract_lets | intro _ | split | dsimp only | with_reducible apply Keeps.lit

theorem State.kvrl_keeps {r0 s : State} (hk : Keeps r0 s) (w d : Nat) : Keeps r0 (s.kvrl w d).1 := State.kvrl_fst hk w d

theorem State.modSegment_keeps {r0 s : State} (hk : Keeps r0 s) (digest : List Byte) (f : Segment → Segment) : Keeps r0 (State.modSegment s digest f) := by
  unfold State.modSegment
  repeat' first
    | (with_reducible first | assumption | apply Keeps.modEng | apply Keeps.ite) | extract_lets | intro _ | split | dsimp only
    | with_reducible apply Keeps.lit

theorem State.actCommand_fst {r0 s : State} (hk : Keeps r0 s) (p : PCommand) : Keeps.Fst r0 (s.actCommand p) := by
  unfold State.actCommand
  repeat' first
    | (with_reducible first
        | assumption | apply Keeps.Fst.mk | apply Keeps.Fst.ite | apply State.say_keeps | apply State.setPrefix_keeps
        | apply State.modSlot_keeps | apply State.kvin_fst | apply State.kvin_keeps | apply State.kvap_fst
        | apply State.kvap_keeps | apply State.kvrl_fst | apply State.kvrl_keeps | apply Keeps.ite)
    | extract_lets | intro _ | split | dsimp only | with_reducible apply Keeps.lit

theorem State.actCommand_keeps {r0 s : State} (hk : Keeps r0 s) (p : PCommand) : Keeps r0 (s.actCommand p).1 := State.actCommand_fst hk p

theorem execPrefixCommandAct_keeps {r0 s : State} (hk : Keeps r0 s) (id : Nat) : Keeps.Res r0 (execPrefixCommandAct id s) := by
  unfold execPrefixCommandAct
  repeat' first
    | (with_reducible first
        | assumption | apply State.at__keeps | apply State.accessDone_keeps | apply State.record_keeps
        | apply State.noteDamage_keeps | apply State.touchLine_keeps | apply State.modPcmd_keeps | apply State.dropPcmd_keeps
        | apply State.actCommand_fst | apply State.actCommand_keeps | apply Keeps.next | apply Keeps.Res.ite | apply Keeps.ite)
    | extract_lets | intro _ | split | dsimp only | with_reducible apply Keeps.lit

theorem State.writeResult_keeps {r0 s : State} (hk : Keeps r0 s) (p : PCommand) (ws : List (Nat × W32)) : Keeps r0 (State.writeResult s p ws) := by
  unfold State.writeResult
  repeat' first
    | (with_reducible first
        | assumption | apply Keeps.mem | apply Keeps.foldl | apply Mem.foldl_wf | apply Core.foldl_wired
        | apply Mem.setWord_wf | apply Mem.clearPoison_wf | apply Keeps.ite)
    | extract_lets | intro _ | (with_reducible first | apply Mem.ite_wf | apply Mem.lit_wf) | split | dsimp only
    | with_reducible apply Keeps.lit | with_reducible apply Keeps.litMem

theorem State.recordWords_keeps {r0 s : State} (hk : Keeps r0 s) (p : PCommand) : Keeps r0 (State.recordWords s p) := by
  unfold State.recordWords
  repeat' first
    | (with_reducible first | assumption | apply Keeps.modCore | apply State.put_keeps | apply Keeps.ite) | extract_lets
    | intro _ | split | (have hw := ‹Core.wired _›; with_reducible exact hw.same rfl rfl) | dsimp only
    | with_reducible apply Keeps.lit

theorem State.voidEntry_keeps {r0 s : State} (hk : Keeps r0 s) (p : PCommand) : Keeps r0 (State.voidEntry s p) := by
  unfold State.voidEntry
  repeat' first
    | (with_reducible first | assumption | apply Keeps.modCore | apply Keeps.ite) | extract_lets | intro _ | split
    | (have hw := ‹Core.wired _›; with_reducible exact hw.same rfl rfl) | dsimp only | with_reducible apply Keeps.lit

theorem State.pcmdFault_keeps {r0 s : State} (hk : Keeps r0 s) (p : PCommand) (c : Cause) (a : W64) : Keeps r0 (State.pcmdFault s p c a) := by
  unfold State.pcmdFault
  repeat' first
    | (with_reducible first | assumption | apply State.deferFault_keeps | apply State.dropPcmd_keeps | apply Keeps.ite)
    | extract_lets | intro _ | split | dsimp only | with_reducible apply Keeps.lit

theorem execPrefixResultWrite_keeps {r0 s : State} (hk : Keeps r0 s) (id : Nat) : Keeps.Res r0 (execPrefixResultWrite id s) := by
  unfold execPrefixResultWrite
  repeat' first
    | (with_reducible first
        | assumption | apply Keeps.mem | apply State.at__keeps | apply State.record_keeps | apply State.endRequest_keeps
        | apply Mem.landPiece_wf | apply State.dropPcmd_keeps | apply State.writeResult_keeps | apply State.recordWords_keeps
        | apply State.voidEntry_keeps | apply State.pcmdFault_keeps | apply Keeps.next | apply Keeps.Res.ite | apply Keeps.ite)
    | extract_lets | intro _ | (with_reducible first | apply Mem.ite_wf | apply Mem.lit_wf) | split | dsimp only
    | with_reducible apply Keeps.lit | with_reducible apply Keeps.litMem

theorem execPrefixCompletionCount_keeps {r0 s : State} (hk : Keeps r0 s) (id : Nat) : Keeps.Res r0 (execPrefixCompletionCount id s) := by
  unfold execPrefixCompletionCount
  repeat' first
    | (with_reducible first
        | assumption | apply Keeps.mem | apply Mem.setWord_wf | apply Mem.markPoison_wf | apply State.dropPcmd_keeps
        | apply State.pcmdFault_keeps | apply Keeps.next | apply Keeps.Res.ite | apply Keeps.ite)
    | extract_lets | intro _ | (with_reducible first | apply Mem.ite_wf | apply Mem.lit_wf) | split | dsimp only
    | with_reducible apply Keeps.lit | with_reducible apply Keeps.litMem

theorem execJournalReply_keeps {r0 s : State} (hk : Keeps r0 s) (id : Nat) : Keeps.Res r0 (execJournalReply id s) := by
  unfold execJournalReply
  repeat' first
    | (with_reducible first
        | assumption | apply State.at__keeps | apply State.writeResult_keeps | apply Keeps.next | apply Keeps.Res.ite
        | apply Keeps.ite)
    | extract_lets | intro _ | split | dsimp only | with_reducible apply Keeps.lit

theorem State.listSegment_keeps {r0 s : State} (hk : Keeps r0 s) (digest : List Byte) : Keeps r0 (State.listSegment s digest) := by
  unfold State.listSegment
  repeat' first
    | (with_reducible first
        | assumption | apply Keeps.modEng | apply State.fresh2_keeps | refine State.fresh_keeps (by assumption) ?_
        | apply Keeps.ite)
    | extract_lets | intro _ | split | dsimp only | with_reducible apply Keeps.lit

theorem State.startFetch_keeps {r0 s : State} (hk : Keeps r0 s) (digest : List Byte) : Keeps r0 (State.startFetch s digest) := by
  unfold State.startFetch
  repeat' first
    | (with_reducible first
        | assumption | apply Keeps.modEng | apply State.say_keeps | apply State.modSegment_keeps
        | apply State.listSegment_keeps | apply Keeps.ite)
    | extract_lets | intro _ | split | dsimp only | with_reducible apply Keeps.lit

theorem State.mapSegment_keeps {r0 s : State} (hk : Keeps r0 s) (w : Nat) (digest : List Byte) : Keeps r0 (State.mapSegment s w digest) := by
  unfold State.mapSegment
  repeat' first
    | (with_reducible first | assumption | apply State.setPrefix_keeps | apply State.modSegment_keeps | apply Keeps.ite)
    | extract_lets | intro _ | split | dsimp only | with_reducible apply Keeps.lit

theorem execColdStartFetch_keeps {r0 s : State} (hk : Keeps r0 s) : Keeps.Res r0 (execColdStartFetch s) := by
  unfold execColdStartFetch
  repeat' first
    | (with_reducible first
        | assumption | apply Keeps.modEng | apply State.setPrefix_keeps | apply State.startFetch_keeps
        | apply State.mapSegment_keeps | apply Keeps.next | apply Keeps.Res.ite | apply Keeps.ite)
    | extract_lets | intro _ | split | dsimp only | with_reducible apply Keeps.lit

theorem State.releasePieces_keeps {r0 s : State} (hk : Keeps r0 s) (held : Nat → Bool) : Keeps r0 (State.releasePieces s held) := by
  unfold State.releasePieces
  repeat' first
    | (with_reducible first
        | assumption | apply Keeps.modCore | apply Keeps.foldl | apply Mem.foldl_wf | apply Core.foldl_wired
        | apply State.schedule_keeps | apply Keeps.ite)
    | extract_lets | intro _ | split | (have hw := ‹Core.wired _›; with_reducible exact hw.same rfl rfl)
    | (have hg := ‹State.good _›; with_reducible exact (hg.getCore _).same rfl rfl) | dsimp only
    | with_reducible apply Keeps.lit

theorem State.tierFail_keeps {r0 s : State} (hk : Keeps r0 s) (g : Segment) : Keeps r0 (State.tierFail s g) := by
  unfold State.tierFail
  repeat' first
    | (with_reducible first
        | assumption | apply Keeps.modEng | apply Keeps.foldl | apply Mem.foldl_wf | apply Core.foldl_wired
        | apply State.endRequest_keeps | apply State.endCopy_keeps | apply State.dropPcmd_keeps | apply State.modSegment_keeps
        | apply State.writeResult_keeps | apply State.releasePieces_keeps | apply Keeps.ite)
    | extract_lets | intro _ | split | (have hg := ‹State.good _›; with_reducible exact (hg.getCore _).same rfl rfl)
    | dsimp only | with_reducible apply Keeps.lit

theorem State.nextTier_keeps {r0 s : State} (hk : Keeps r0 s) (g : Segment) : Keeps r0 (State.nextTier s g) := by
  unfold State.nextTier
  repeat' first
    | (with_reducible first
        | assumption | apply State.say_keeps | apply State.modSegment_keeps | apply State.tierFail_keeps | apply Keeps.ite)
    | extract_lets | intro _ | split | dsimp only | with_reducible apply Keeps.lit

theorem execTierReadFailure_keeps {r0 s : State} (hk : Keeps r0 s) (digest : List Byte) : Keeps.Res r0 (execTierReadFailure digest s) := by
  unfold execTierReadFailure
  repeat' first
    | (with_reducible first
        | assumption | apply State.nextTier_keeps | apply Keeps.next | apply Keeps.Res.ite | apply Keeps.ite)
    | extract_lets | intro _ | split | dsimp only | with_reducible apply Keeps.lit

theorem State.storePiece_keeps {r0 s : State} (hk : Keeps r0 s) (g : Segment) (frame k : Nat) (data : List Byte) : Keeps r0 (State.storePiece s g frame k data) := by
  unfold State.storePiece
  repeat' first
    | (with_reducible first
        | assumption | apply Keeps.mem | apply Keeps.modEng | apply Keeps.foldl | apply Mem.foldl_wf | apply Core.foldl_wired
        | apply Mem.write_wf | apply State.modSegment_keeps | apply State.releasePieces_keeps | apply Keeps.ite)
    | extract_lets | intro _ | (with_reducible first | apply Mem.ite_wf | apply Mem.lit_wf) | split | dsimp only
    | with_reducible apply Keeps.lit | with_reducible apply Keeps.litMem

theorem execSegmentPieceLand_keeps {r0 s : State} (hk : Keeps r0 s) (digest : List Byte) (piece : BitVec 5) (pds : List (List Byte)) (data : List Byte) : Keeps.Res r0 (execSegmentPieceLand digest piece pds data s) := by
  unfold execSegmentPieceLand
  repeat' first
    | (with_reducible first
        | assumption | apply State.nextTier_keeps | apply State.storePiece_keeps | apply Keeps.next | apply Keeps.Res.ite
        | apply Keeps.ite)
    | extract_lets | intro _ | split | dsimp only | with_reducible apply Keeps.lit

end Sys2Proof.Machine
end

