-- ==== Sys2Proof/Laws/KeepsFabric.lean ====
section
/-!
SUPPORT. `Keeps` for the operations and meanings of Machine/Fabric.lean.
-/
namespace Sys2Proof.Machine

open Sys2Proof

theorem State.modComm_keeps {r0 s : State} (hk : Keeps r0 s) (c : BitVec 16) (f : Comm → Comm) : Keeps r0 (State.modComm s c f) := by
  unfold State.modComm
  repeat' first
    | (with_reducible first | assumption | apply Keeps.modEng | apply Keeps.ite) | extract_lets | intro _ | split | dsimp only
    | with_reducible apply Keeps.lit

theorem State.setBoard_keeps {r0 s : State} (hk : Keeps r0 s) (b : Board) : Keeps r0 (State.setBoard s b) := by
  unfold State.setBoard
  repeat' first
    | (with_reducible first | assumption | apply Keeps.modEng | apply Keeps.ite) | extract_lets | intro _ | split | dsimp only
    | with_reducible apply Keeps.lit

theorem State.send_keeps {r0 s : State} (hk : Keeps r0 s) (l : List NetMsg) : Keeps r0 (State.send s l) := by
  unfold State.send
  repeat' first
    | (with_reducible first | assumption | apply Keeps.ite) | extract_lets | intro _ | split | dsimp only
    | with_reducible apply Keeps.lit

theorem State.boardMessage_keeps {r0 s : State} (hk : Keeps r0 s) (comm : BitVec 16) (sender epoch : Nat) (msg : Msg) : Keeps r0 (State.boardMessage s comm sender epoch msg) := by
  unfold State.boardMessage
  repeat' first
    | (with_reducible first | assumption | apply State.setBoard_keeps | apply State.send_keeps | apply Keeps.ite)
    | extract_lets | intro _ | split | dsimp only | with_reducible apply Keeps.lit

theorem execAssign_keeps {r0 s : State} (hk : Keeps r0 s) (sender epoch : Nat) (key : Key) : Keeps.Res r0 (execAssign sender epoch key s) := by
  unfold execAssign
  repeat' first
    | (with_reducible first
        | assumption | apply State.boardMessage_keeps | apply Keeps.next | apply Keeps.Res.ite | apply Keeps.ite)
    | extract_lets | intro _ | split | dsimp only | with_reducible apply Keeps.lit

theorem execOpenMsg_keeps {r0 s : State} (hk : Keeps r0 s) (sender epoch : Nat) (comm : BitVec 16) (n : BitVec 32) (params : CollParams) : Keeps.Res r0 (execOpenMsg sender epoch comm n params s) := by
  unfold execOpenMsg
  repeat' first
    | (with_reducible first
        | assumption | apply State.boardMessage_keeps | apply Keeps.next | apply Keeps.Res.ite | apply Keeps.ite)
    | extract_lets | intro _ | split | dsimp only | with_reducible apply Keeps.lit

theorem execCancel_keeps {r0 s : State} (hk : Keeps r0 s) (sender epoch : Nat) (key : Key) : Keeps.Res r0 (execCancel sender epoch key s) := by
  unfold execCancel
  repeat' first
    | (with_reducible first
        | assumption | apply State.boardMessage_keeps | apply Keeps.next | apply Keeps.Res.ite | apply Keeps.ite)
    | extract_lets | intro _ | split | dsimp only | with_reducible apply Keeps.lit

theorem execCollectiveDoneMessage_keeps {r0 s : State} (hk : Keeps r0 s) (sender epoch : Nat) (comm : BitVec 16) (n : BitVec 32) : Keeps.Res r0 (execCollectiveDoneMessage sender epoch comm n s) := by
  unfold execCollectiveDoneMessage
  repeat' first
    | (with_reducible first
        | assumption | apply State.boardMessage_keeps | apply Keeps.next | apply Keeps.Res.ite | apply Keeps.ite)
    | extract_lets | intro _ | split | dsimp only | with_reducible apply Keeps.lit

theorem execStandbyAck_keeps {r0 s : State} (hk : Keeps r0 s) (epoch : Nat) (comm : BitVec 16) (decision : Nat) : Keeps.Res r0 (execStandbyAck epoch comm decision s) := by
  unfold execStandbyAck
  repeat' first
    | (with_reducible first
        | assumption | apply State.setBoard_keeps | apply State.send_keeps | apply Keeps.next | apply Keeps.Res.ite
        | apply Keeps.ite)
    | extract_lets | intro _ | split | dsimp only | with_reducible apply Keeps.lit

theorem execStandbyDecision_keeps {r0 s : State} (hk : Keeps r0 s) (epoch : Nat) (comm : BitVec 16) (decision : Nat) (what : Decision) : Keeps.Res r0 (execStandbyDecision epoch comm decision what s) := by
  unfold execStandbyDecision
  repeat' first
    | (with_reducible first
        | assumption | apply State.setBoard_keeps | apply State.send_keeps | apply Keeps.next | apply Keeps.Res.ite
        | apply Keeps.ite)
    | extract_lets | intro _ | split | dsimp only | with_reducible apply Keeps.lit

theorem execHeartbeat_keeps {r0 s : State} (hk : Keeps r0 s) (comm : BitVec 16) : Keeps.Res r0 (execHeartbeat comm s) := by
  unfold execHeartbeat
  repeat' first
    | (with_reducible first
        | assumption | apply State.setBoard_keeps | apply State.send_keeps | apply Keeps.next | apply Keeps.Res.ite
        | apply Keeps.ite)
    | extract_lets | intro _ | split | dsimp only | with_reducible apply Keeps.lit

theorem execHeartbeatTimeout_keeps {r0 s : State} (hk : Keeps r0 s) (comm : BitVec 16) : Keeps.Res r0 (execHeartbeatTimeout comm s) := by
  unfold execHeartbeatTimeout
  repeat' first
    | (with_reducible first
        | assumption | apply State.modComm_keeps | apply State.setBoard_keeps | apply State.send_keeps | apply Keeps.next
        | apply Keeps.Res.ite | apply Keeps.ite)
    | extract_lets | intro _ | split | dsimp only | with_reducible apply Keeps.lit

theorem State.modColl_keeps {r0 s : State} (hk : Keeps r0 s) (id : Nat) (f : Coll → Coll) : Keeps r0 (State.modColl s id f) := by
  unfold State.modColl
  repeat' first
    | (with_reducible first | assumption | apply Keeps.modEng | apply Keeps.ite) | extract_lets | intro _ | split | dsimp only
    | with_reducible apply Keeps.lit

theorem State.dropColl_keeps {r0 s : State} (hk : Keeps r0 s) (id : Nat) : Keeps r0 (State.dropColl s id) := by
  unfold State.dropColl
  repeat' first
    | (with_reducible first | assumption | apply Keeps.modEng | apply Keeps.ite) | extract_lets | intro _ | split | dsimp only
    | with_reducible apply Keeps.lit

theorem State.toBoard_keeps {r0 s : State} (hk : Keeps r0 s) (comm : BitVec 16) (m : Msg) : Keeps r0 (State.toBoard s comm m) := by
  unfold State.toBoard
  repeat' first
    | (with_reducible first | assumption | apply State.send_keeps | apply Keeps.ite) | extract_lets | intro _ | split
    | dsimp only | with_reducible apply Keeps.lit

theorem State.askOpen_keeps {r0 s : State} (hk : Keeps r0 s) (c : Coll) : Keeps r0 (State.askOpen s c) := by
  unfold State.askOpen
  repeat' first
    | (with_reducible first | assumption | apply State.modColl_keeps | apply State.toBoard_keeps | apply Keeps.ite)
    | extract_lets | intro _ | split | dsimp only | with_reducible apply Keeps.lit

theorem State.answerWait_keeps {r0 s : State} (hk : Keeps r0 s) (i c : Nat) (v : W64) : Keeps r0 (State.answerWait s i c v) := by
  unfold State.answerWait
  repeat' first
    | (with_reducible first | assumption | apply Keeps.modCore | apply Keeps.ite) | extract_lets | intro _ | split
    | (have hw := ‹Core.wired _›; with_reducible exact hw.same rfl rfl) | dsimp only | with_reducible apply Keeps.lit

theorem State.answerAll_keeps {r0 s : State} (hk : Keeps r0 s) (fn : Nat) (k : Key) (v : W64) : Keeps r0 (State.answerAll s fn k v) := by
  unfold State.answerAll
  repeat' first
    | (with_reducible first
        | assumption | apply Keeps.foldl | apply Mem.foldl_wf | apply Core.foldl_wired | apply State.answerWait_keeps
        | apply Keeps.ite)
    | extract_lets | intro _ | split | dsimp only | with_reducible apply Keeps.lit

theorem State.answerFirst_keeps {r0 s : State} (hk : Keeps r0 s) (fn : Nat) (k : Key) (v : W64) : Keeps r0 (State.answerFirst s fn k v) := by
  unfold State.answerFirst
  repeat' first
    | (with_reducible first | assumption | apply State.answerWait_keeps | apply Keeps.ite) | extract_lets | intro _ | split
    | (have hg := ‹State.good _›; with_reducible exact (hg.getCore _).same rfl rfl) | dsimp only
    | with_reducible apply Keeps.lit

theorem State.skipNumber_keeps {r0 s : State} (hk : Keeps r0 s) (comm : BitVec 16) (n : BitVec 32) : Keeps r0 (State.skipNumber s comm n) := by
  unfold State.skipNumber
  repeat' first
    | (with_reducible first | assumption | apply State.modComm_keeps | apply Keeps.ite) | extract_lets | intro _ | split
    | dsimp only | with_reducible apply Keeps.lit

theorem State.finishColl_keeps {r0 s : State} (hk : Keeps r0 s) (c : Coll) (status : Nat) : Keeps r0 (State.finishColl s c status) := by
  unfold State.finishColl
  repeat' first
    | (with_reducible first
        | assumption | apply State.accessDone_keeps | apply State.modColl_keeps | apply State.toBoard_keeps
        | apply State.answerAll_keeps | apply Keeps.ite)
    | extract_lets | intro _ | split | dsimp only | with_reducible apply Keeps.lit

theorem State.collEnds_keeps {r0 s : State} (hk : Keeps r0 s) (c : Coll) (cause : Cause) (addr : Nat) : Keeps r0 (State.collEnds s c cause addr) := by
  unfold State.collEnds
  repeat' first
    | (with_reducible first
        | assumption | apply State.accessGone_keeps | apply State.endRequest_keeps | apply State.deferFault_keeps
        | apply State.dropColl_keeps | apply Keeps.ite)
    | extract_lets | intro _ | split | dsimp only | with_reducible apply Keeps.lit

theorem State.writeColl_keeps {r0 s : State} (hk : Keeps r0 s) (id : Nat) (runs : List (Nat × List Byte)) : Keeps r0 (State.writeColl s id runs) := by
  induction runs generalizing s id with
  | nil =>
    unfold State.writeColl
    repeat' first
      | (with_reducible first
          | assumption | apply State.reportXlate_keeps | refine State.ioWrite_keeps (by assumption) ?_
          | refine State.ioWriteE_keeps (by assumption) ?_ | apply State.modColl_keeps | apply State.collEnds_keeps
          | apply Keeps.ite)
      | (with_reducible refine State.ioWriteP_keeps (by with_reducible assumption) ?_) | extract_lets | intro _ | split
      | dsimp only | with_reducible apply Keeps.lit
  | cons x rest ih =>
    unfold State.writeColl
    repeat' first
      | (with_reducible first
          | assumption | apply ih | apply State.reportXlate_keeps | refine State.ioWrite_keeps (by assumption) ?_
          | refine State.ioWriteE_keeps (by assumption) ?_ | apply State.modColl_keeps | apply State.collEnds_keeps
          | apply Keeps.ite)
      | (with_reducible refine State.ioWriteP_keeps (by with_reducible assumption) ?_) | extract_lets | intro _ | split
      | dsimp only | with_reducible apply Keeps.lit

theorem execCollectiveComplete_keeps {r0 s : State} (hk : Keeps r0 s) (key : Key) : Keeps.Res r0 (execCollectiveComplete key s) := by
  unfold execCollectiveComplete
  repeat' first
    | (with_reducible first
        | assumption | apply State.finishColl_keeps | apply Keeps.next | apply Keeps.Res.ite | apply Keeps.ite)
    | extract_lets | intro _ | split | dsimp only | with_reducible apply Keeps.lit

theorem State.advanceColl_keeps {r0 s : State} (hk : Keeps r0 s) (id : Nat) : Keeps r0 (State.advanceColl s id) := by
  unfold State.advanceColl
  repeat' first
    | (with_reducible first | assumption | apply State.writeColl_keeps | apply Keeps.ite) | extract_lets | intro _ | split
    | dsimp only | with_reducible apply Keeps.lit

theorem execCollectiveDataArrival_keeps {r0 s : State} (hk : Keeps r0 s) (key : Key) (rank off : Nat) (data : List Byte) : Keeps.Res r0 (execCollectiveDataArrival key rank off data s) := by
  unfold execCollectiveDataArrival
  repeat' first
    | (with_reducible first
        | assumption | apply State.modColl_keeps | apply State.advanceColl_keeps | apply Keeps.next | apply Keeps.Res.ite
        | apply Keeps.ite)
    | extract_lets | intro _ | split | dsimp only | with_reducible apply Keeps.lit

theorem execCollectiveEngineEntry_keeps {r0 s : State} (hk : Keeps r0 s) (id : Nat) : Keeps.Res r0 (execCollectiveEngineEntry id s) := by
  unfold execCollectiveEngineEntry
  repeat' first
    | (with_reducible first
        | assumption | apply Keeps.modEng | apply State.modColl_keeps | apply State.dropColl_keeps | apply State.toBoard_keeps
        | apply State.askOpen_keeps | apply State.answerAll_keeps | apply Keeps.next | apply Keeps.Res.ite | apply Keeps.ite)
    | extract_lets | intro _ | split | dsimp only | with_reducible apply Keeps.lit

theorem execNumber_keeps {r0 s : State} (hk : Keeps r0 s) (epoch : Nat) (key : Key) (n : BitVec 32) : Keeps.Res r0 (execNumber epoch key n s) := by
  unfold execNumber
  repeat' first
    | (with_reducible first
        | assumption | apply Keeps.modEng | apply Keeps.foldl | apply Mem.foldl_wf | apply Core.foldl_wired
        | apply State.askOpen_keeps | apply State.answerAll_keeps | apply Keeps.next | apply Keeps.Res.ite | apply Keeps.ite)
    | extract_lets | intro _ | split | dsimp only | with_reducible apply Keeps.lit

theorem execOpened_keeps {r0 s : State} (hk : Keeps r0 s) (epoch : Nat) (comm : BitVec 16) (n : BitVec 32) : Keeps.Res r0 (execOpened epoch comm n s) := by
  unfold execOpened
  repeat' first
    | (with_reducible first
        | assumption | apply Keeps.foldl | apply Mem.foldl_wf | apply Core.foldl_wired | apply State.modColl_keeps
        | apply Keeps.next | apply Keeps.Res.ite | apply Keeps.ite)
    | extract_lets | intro _ | split | dsimp only | with_reducible apply Keeps.lit

theorem execEmpty_keeps {r0 s : State} (hk : Keeps r0 s) (epoch : Nat) (comm : BitVec 16) (n : BitVec 32) : Keeps.Res r0 (execEmpty epoch comm n s) := by
  unfold execEmpty
  repeat' first
    | (with_reducible first
        | assumption | apply Keeps.foldl | apply Mem.foldl_wf | apply Core.foldl_wired | apply State.skipNumber_keeps
        | apply State.finishColl_keeps | apply Keeps.next | apply Keeps.Res.ite | apply Keeps.ite)
    | extract_lets | intro _ | split | dsimp only | with_reducible apply Keeps.lit

theorem execMismatch_keeps {r0 s : State} (hk : Keeps r0 s) (epoch : Nat) (comm : BitVec 16) (n : BitVec 32) : Keeps.Res r0 (execMismatch epoch comm n s) := by
  unfold execMismatch
  repeat' first
    | (with_reducible first
        | assumption | apply Keeps.foldl | apply Mem.foldl_wf | apply Core.foldl_wired | apply State.skipNumber_keeps
        | apply State.finishColl_keeps | apply Keeps.next | apply Keeps.Res.ite | apply Keeps.ite)
    | extract_lets | intro _ | split | dsimp only | with_reducible apply Keeps.lit

theorem execAllopened_keeps {r0 s : State} (hk : Keeps r0 s) (epoch : Nat) (comm : BitVec 16) (n : BitVec 32) : Keeps.Res r0 (execAllopened epoch comm n s) := by
  unfold execAllopened
  repeat' first
    | (with_reducible first
        | assumption | apply Keeps.foldl | apply Mem.foldl_wf | apply Core.foldl_wired | apply State.skipNumber_keeps
        | apply State.finishColl_keeps | apply Keeps.next | apply Keeps.Res.ite | apply Keeps.ite)
    | extract_lets | intro _ | split | dsimp only | with_reducible apply Keeps.lit

theorem execCancelled_keeps {r0 s : State} (hk : Keeps r0 s) (epoch : Nat) (key : Key) (n : BitVec 32) : Keeps.Res r0 (execCancelled epoch key n s) := by
  unfold execCancelled
  repeat' first
    | (with_reducible first
        | assumption | apply Keeps.foldl | apply Mem.foldl_wf | apply Core.foldl_wired | apply State.dropColl_keeps
        | apply State.answerFirst_keeps | apply State.skipNumber_keeps | apply State.finishColl_keeps | apply Keeps.next
        | apply Keeps.Res.ite | apply Keeps.ite)
    | extract_lets | intro _ | split | dsimp only | with_reducible apply Keeps.lit

theorem execStarted_keeps {r0 s : State} (hk : Keeps r0 s) (epoch : Nat) (key : Key) : Keeps.Res r0 (execStarted epoch key s) := by
  unfold execStarted
  repeat' first
    | (with_reducible first
        | assumption | apply State.answerFirst_keeps | apply Keeps.next | apply Keeps.Res.ite | apply Keeps.ite)
    | extract_lets | intro _ | split | dsimp only | with_reducible apply Keeps.lit

theorem execCollectiveStart_keeps {r0 s : State} (hk : Keeps r0 s) (comm : BitVec 16) (n : BitVec 32) : Keeps.Res r0 (execCollectiveStart comm n s) := by
  unfold execCollectiveStart
  repeat' first
    | (with_reducible first
        | assumption | apply State.reportXlate_keeps | refine State.ioRead_keeps (by assumption) ?_
        | refine State.ioReadE_keeps (by assumption) ?_ | apply State.modComm_keeps | apply State.send_keeps
        | apply State.modColl_keeps | apply State.collEnds_keeps | apply State.advanceColl_keeps | apply Keeps.next
        | apply Keeps.Res.ite | apply Keeps.ite)
    | extract_lets | intro _ | split | dsimp only | with_reducible apply Keeps.lit

theorem State.releaseColl_keeps {r0 s : State} (hk : Keeps r0 s) (id : Nat) (mapped : Bool) : Keeps r0 (State.releaseColl s id mapped) := by
  unfold State.releaseColl
  repeat' first
    | (with_reducible first
        | assumption | apply State.modColl_keeps | apply State.collEnds_keeps | apply State.writeColl_keeps | apply Keeps.ite)
    | extract_lets | intro _ | split | dsimp only | with_reducible apply Keeps.lit

theorem State.resend_keeps {r0 s : State} (hk : Keeps r0 s) (comm : BitVec 16) : Keeps r0 (s.resend comm) := by
  unfold State.resend
  repeat' first
    | (with_reducible first
        | assumption | apply Keeps.foldl | apply Mem.foldl_wf | apply Core.foldl_wired | apply State.toBoard_keeps | apply Keeps.ite)
    | extract_lets | intro _ | split | (have hg := ‹State.good _›; with_reducible exact (hg.getCore _).same rfl rfl)
    | dsimp only | with_reducible apply Keeps.lit

theorem execEpochAnnounce_keeps {r0 s : State} (hk : Keeps r0 s) (comm : BitVec 16) (epoch primary : Nat) : Keeps.Res r0 (execEpochAnnounce comm epoch primary s) := by
  unfold execEpochAnnounce
  repeat' first
    | (with_reducible first
        | assumption | apply State.resend_keeps | apply State.modComm_keeps
        | apply State.setBoard_keeps | apply Keeps.next | apply Keeps.Res.ite | apply Keeps.ite)
    | extract_lets | intro _ | split | dsimp only | with_reducible apply Keeps.lit

theorem State.enterColl_keeps {r0 s : State} (hk : Keeps r0 s) (c : Coll) : Keeps r0 (State.enterColl s c) := by
  unfold State.enterColl
  repeat' first
    | (with_reducible first | assumption | apply Keeps.modEng | apply Keeps.ite) | extract_lets | intro _ | split | dsimp only
    | with_reducible apply Keeps.lit

theorem State.attachOr_keeps {r0 s : State} (hk : Keeps r0 s) (old : Option Coll) (new : Coll) : Keeps r0 (State.attachOr s old new) := by
  unfold State.attachOr
  repeat' first
    | (with_reducible first | assumption | apply State.modColl_keeps | apply State.enterColl_keeps | apply Keeps.ite)
    | extract_lets | intro _ | split | dsimp only | with_reducible apply Keeps.lit

theorem State.collective_keeps {r0 s : State} (hk : Keeps r0 s) (opcode : BitVec 8) (a b : CReg) (len card : SReg) (t : TimeArg) : Keeps r0 (State.collective s opcode a b len card t) := by
  unfold State.collective
  repeat' first
    | (with_reducible first
        | assumption | apply State.ctlFault_keeps | apply State.advance_keeps | apply State.attachOr_keeps | apply Keeps.ite)
    | extract_lets | intro _ | split | dsimp only | with_reducible apply Keeps.lit

theorem execXar_keeps {r0 s : State} (hk : Keeps r0 s) (a b : CReg) (len card : SReg) (t : TimeArg) : Keeps.Res r0 (execXar a b len card t s) := by
  unfold execXar
  repeat' first
    | (with_reducible first
        | assumption | apply State.collective_keeps | apply Keeps.next | apply Keeps.Res.ite | apply Keeps.ite)
    | extract_lets | intro _ | split | dsimp only | with_reducible apply Keeps.lit

theorem execXag_keeps {r0 s : State} (hk : Keeps r0 s) (a b : CReg) (len card : SReg) (t : TimeArg) : Keeps.Res r0 (execXag a b len card t s) := by
  unfold execXag
  repeat' first
    | (with_reducible first
        | assumption | apply State.collective_keeps | apply Keeps.next | apply Keeps.Res.ite | apply Keeps.ite)
    | extract_lets | intro _ | split | dsimp only | with_reducible apply Keeps.lit

theorem execXrs_keeps {r0 s : State} (hk : Keeps r0 s) (a b : CReg) (len card : SReg) (t : TimeArg) : Keeps.Res r0 (execXrs a b len card t s) := by
  unfold execXrs
  repeat' first
    | (with_reducible first
        | assumption | apply State.collective_keeps | apply Keeps.next | apply Keeps.Res.ite | apply Keeps.ite)
    | extract_lets | intro _ | split | dsimp only | with_reducible apply Keeps.lit

theorem execXata_keeps {r0 s : State} (hk : Keeps r0 s) (a b : CReg) (len card : SReg) (t : TimeArg) : Keeps.Res r0 (execXata a b len card t s) := by
  unfold execXata
  repeat' first
    | (with_reducible first
        | assumption | apply State.collective_keeps | apply Keeps.next | apply Keeps.Res.ite | apply Keeps.ite)
    | extract_lets | intro _ | split | dsimp only | with_reducible apply Keeps.lit

theorem State.fabricWait_keeps {r0 s : State} (hk : Keeps r0 s) (fn : Nat) (kind : CollKind) (d a b : SReg) : Keeps.Res r0 (State.fabricWait s fn kind d a b) := by
  unfold State.fabricWait
  repeat' first
    | (with_reducible first
        | assumption | apply State.ctlFault_keeps | apply State.await_keeps | apply State.waitWord_keeps
        | apply State.enterColl_keeps | apply Keeps.next | apply Keeps.Res.ite | apply Keeps.ite)
    | extract_lets | intro _ | split | dsimp only | with_reducible apply Keeps.lit

theorem execXseq_keeps {r0 s : State} (hk : Keeps r0 s) (d a b : SReg) : Keeps.Res r0 (execXseq d a b s) := by
  unfold execXseq
  repeat' first
    | (with_reducible first
        | assumption | apply State.fabricWait_keeps | apply Keeps.next | apply Keeps.Res.ite | apply Keeps.ite)
    | extract_lets | intro _ | split | dsimp only | with_reducible apply Keeps.lit

theorem execXcan_keeps {r0 s : State} (hk : Keeps r0 s) (d a b : SReg) : Keeps.Res r0 (execXcan d a b s) := by
  unfold execXcan
  repeat' first
    | (with_reducible first
        | assumption | apply State.fabricWait_keeps | apply Keeps.next | apply Keeps.Res.ite | apply Keeps.ite)
    | extract_lets | intro _ | split | dsimp only | with_reducible apply Keeps.lit

theorem execXwait_keeps {r0 s : State} (hk : Keeps r0 s) (d a b : SReg) : Keeps.Res r0 (execXwait d a b s) := by
  unfold execXwait
  repeat' first
    | (with_reducible first
        | assumption | apply State.fabricWait_keeps | apply Keeps.next | apply Keeps.Res.ite | apply Keeps.ite)
    | extract_lets | intro _ | split | dsimp only | with_reducible apply Keeps.lit

theorem execXbar_keeps {r0 s : State} (hk : Keeps r0 s) (a b : SReg) : Keeps.Res r0 (execXbar a b s) := by
  unfold execXbar
  repeat' first
    | (with_reducible first
        | assumption | apply State.ctlFault_keeps | apply State.advance_keeps | apply State.modColl_keeps
        | apply State.enterColl_keeps | apply Keeps.next | apply Keeps.Res.ite | apply Keeps.ite)
    | extract_lets | intro _ | split | dsimp only | with_reducible apply Keeps.lit

theorem execFabricWaitComplete_keeps {r0 s : State} (hk : Keeps r0 s) (core : Nat) : Keeps.Res r0 (execFabricWaitComplete core s) := by
  unfold execFabricWaitComplete
  repeat' first
    | (with_reducible first
        | assumption | apply Keeps.modIss | apply Keeps.focus | apply State.completeWait_keeps | apply Keeps.next
        | apply Keeps.Res.ite | apply Keeps.ite)
    | extract_lets | intro _ | split | dsimp only | with_reducible apply Keeps.lit

end Sys2Proof.Machine
end

