-- ==== Sys2Proof/Laws/KeepsPartition.lean ====
section
/-!
SUPPORT. `Keeps` for the operations and meanings of Machine/Partition.lean.
-/
namespace Sys2Proof.Machine

open Sys2Proof

theorem State.freezeWorld_keeps {r0 s : State} (hk : Keeps r0 s) (w : Nat) : Keeps r0 (State.freezeWorld s w) := by
  unfold State.freezeWorld
  repeat' first
    | (with_reducible first
        | assumption | apply Keeps.modDisp | apply Keeps.modEng | apply Keeps.foldl | apply Mem.foldl_wf
        | apply Core.foldl_wired | apply State.modJetton_keeps | apply State.accessGone_keeps | apply State.endRun_keeps
        | apply State.breakDomains_keeps | apply Keeps.ite)
    | extract_lets | intro _ | split | dsimp only | with_reducible apply Keeps.lit

theorem State.invalidateWorld_keeps {r0 s : State} (hk : Keeps r0 s) (w : Nat) : Keeps r0 (State.invalidateWorld s w) := by
  unfold State.invalidateWorld
  repeat' first
    | (with_reducible first
        | assumption | apply Keeps.modDisp | apply Keeps.foldl | apply Mem.foldl_wf | apply Core.foldl_wired
        | apply State.modWorld_keeps | apply State.modJetton_keeps | apply Keeps.ite)
    | extract_lets | intro _ | split | dsimp only | with_reducible apply Keeps.lit

theorem State.eraseKeys_keeps {r0 s : State} (hk : Keeps r0 s) (w : Nat) : Keeps r0 (State.eraseKeys s w) := by
  unfold State.eraseKeys
  repeat' first
    | (with_reducible first | assumption | apply Keeps.mem | apply Keeps.ite) | extract_lets | intro _
    | (with_reducible first | apply Mem.ite_wf | apply Mem.lit_wf) | split | dsimp only | with_reducible apply Keeps.lit
    | with_reducible apply Keeps.litMem

theorem State.clearKeySlot_keeps {r0 s : State} (hk : Keeps r0 s) (w : Nat) : Keeps r0 (State.clearKeySlot s w) := by
  unfold State.clearKeySlot
  repeat' first
    | (with_reducible first | assumption | apply State.modWorld_keeps | apply Keeps.ite) | extract_lets | intro _ | split
    | dsimp only | with_reducible apply Keeps.lit

theorem State.startScrub_keeps {r0 s : State} (hk : Keeps r0 s) (w : Nat) : Keeps r0 (State.startScrub s w) := by
  unfold State.startScrub
  repeat' first
    | (with_reducible first
        | assumption | apply Keeps.modCore | apply Keeps.foldl | apply Mem.foldl_wf | apply Core.foldl_wired | apply Keeps.ite)
    | extract_lets | intro _ | split | (have hw := ‹Core.wired _›; with_reducible exact hw.same rfl rfl) | dsimp only
    | with_reducible apply Keeps.lit

theorem State.scrubDerived_keeps {r0 s : State} (hk : Keeps r0 s) (w : Nat) : Keeps r0 (State.scrubDerived s w) := by
  unfold State.scrubDerived
  repeat' first
    | (with_reducible first
        | assumption | apply Keeps.modDisp | apply Keeps.modEng | apply Keeps.modCore | apply Keeps.foldl | apply Mem.foldl_wf
        | apply Core.foldl_wired | apply Keeps.ite)
    | extract_lets | intro _ | split | (have hw := ‹Core.wired _›; with_reducible exact hw.same rfl rfl) | dsimp only
    | with_reducible apply Keeps.lit

theorem State.endScrub_keeps {r0 s : State} (hk : Keeps r0 s) (w : Nat) : Keeps r0 (State.endScrub s w) := by
  unfold State.endScrub
  repeat' first
    | (with_reducible first | assumption | apply State.clearKeySlot_keeps | apply State.scrubDerived_keeps | apply Keeps.ite)
    | extract_lets | intro _ | split | dsimp only | with_reducible apply Keeps.lit

theorem State.returnWorld_keeps {r0 s : State} (hk : Keeps r0 s) (w : Nat) : Keeps r0 (State.returnWorld s w) := by
  unfold State.returnWorld
  repeat' first
    | (with_reducible first
        | assumption | apply Keeps.modDisp | apply Keeps.modEng | apply Keeps.modCore | apply Keeps.foldl | apply Mem.foldl_wf
        | apply Core.foldl_wired | apply State.say_keeps | apply State.modWorld_keeps | apply State.setJetton_keeps
        | apply Keeps.ite)
    | extract_lets | intro _ | split | (have hw := ‹Core.wired _›; with_reducible exact hw.same rfl rfl)
    | (have hg := ‹State.good _›; with_reducible exact (hg.getCore _).same rfl rfl) | dsimp only
    | with_reducible apply Keeps.lit

theorem State.respond_keeps {r0 s : State} (hk : Keeps r0 s) (p : PCmd) (status : Nat) (result : Nat) : Keeps r0 (State.respond s p status result) := by
  unfold State.respond
  repeat' first
    | (with_reducible first | assumption | apply State.say_keeps | apply Keeps.ite) | extract_lets | intro _ | split
    | dsimp only | with_reducible apply Keeps.lit

theorem State.answer_keeps {r0 s : State} (hk : Keeps r0 s) (p : PCmd) {r : Except Nat (State × Nat)} (gen : Bool)
    (ha : Keeps.Ans r0 r) : Keeps r0 (s.answer p r gen) := by
  unfold State.answer
  split
  · exact State.respond_keeps hk _ _ _
  · refine State.respond_keeps ?_ _ _ _
    have h := ha.keep _ rfl
    unfold State.counted
    split
    · split
      · exact h
      · exact Keeps.lit h
    · exact h

theorem execCreate_keeps {r0 s : State} (hk : Keeps r0 s) (p : PCmd) : Keeps.Res r0 (execCreate p s) := by
  unfold execCreate
  dsimp only
  repeat' first
    | (with_reducible first
        | assumption | apply Keeps.Ans.ok | apply Keeps.Ans.error | apply Keeps.Ans.ite | apply Keeps.Ans.bind
        | apply State.answer_keeps | apply Keeps.next | apply Keeps.Res.ite | apply Keeps.ite)
    | extract_lets | intro _ | split | dsimp only | with_reducible apply Keeps.lit

theorem State.dropWorld_keeps {r0 s : State} (hk : Keeps r0 s) (w : Nat) : Keeps r0 (State.dropWorld s w) := by
  unfold State.dropWorld
  repeat' first
    | (with_reducible first | assumption | apply Keeps.modDisp | apply Keeps.modEng | apply Keeps.ite) | extract_lets
    | intro _ | split | dsimp only | with_reducible apply Keeps.lit

theorem State.flrStep_keeps {r0 s : State} (hk : Keeps r0 s) (w k : Nat) : Keeps r0 (State.flrStep s w k) := by
  unfold State.flrStep
  dsimp only
  repeat' first
    | (with_reducible first
        | assumption | apply Keeps.Ans.ok | apply Keeps.Ans.error | apply Keeps.Ans.ite | apply Keeps.Ans.bind
        | apply Keeps.foldl | apply Mem.foldl_wf | apply Core.foldl_wired | apply State.modWorld_keeps
        | apply State.modJetton_keeps | apply State.freezeWorld_keeps | apply State.invalidateWorld_keeps
        | apply State.eraseKeys_keeps | apply State.startScrub_keeps | apply State.endScrub_keeps
        | apply State.returnWorld_keeps | apply State.answer_keeps | apply State.dropWorld_keeps | apply Keeps.ite)
    | extract_lets | intro _ | split | dsimp only | with_reducible apply Keeps.lit

theorem execFlr_keeps {r0 s : State} (hk : Keeps r0 s) (world : Nat) : Keeps.Res r0 (execFlr world s) := by
  unfold execFlr
  repeat' first
    | (with_reducible first
        | assumption | apply State.flrStep_keeps | apply Keeps.next | apply Keeps.Res.ite | apply Keeps.ite)
    | extract_lets | intro _ | split | dsimp only | with_reducible apply Keeps.lit

theorem State.flrAll_keeps {r0 s : State} (hk : Keeps r0 s) : Keeps r0 (State.flrAll s) := by
  unfold State.flrAll
  repeat' first
    | (with_reducible first
        | assumption | apply Keeps.foldl | apply Mem.foldl_wf | apply Core.foldl_wired | apply State.flrStep_keeps
        | apply Keeps.ite)
    | extract_lets | intro _ | split | dsimp only | with_reducible apply Keeps.lit

theorem execDestroy_keeps {r0 s : State} (hk : Keeps r0 s) (p : PCmd) : Keeps.Res r0 (execDestroy p s) := by
  unfold execDestroy
  repeat' first
    | (with_reducible first
        | assumption | apply State.modWorld_keeps | apply State.respond_keeps | apply State.flrStep_keeps | apply Keeps.next
        | apply Keeps.Res.ite | apply Keeps.ite)
    | extract_lets | intro _ | split | dsimp only | with_reducible apply Keeps.lit

theorem State.giveItem_keeps {r0 s : State} (hk : Keeps r0 s) (w kind i : Nat) : Keeps r0 (State.giveItem s w kind i) := by
  unfold State.giveItem
  repeat' first
    | (with_reducible first | assumption | apply Keeps.modEng | apply State.setJetton_keeps | apply Keeps.ite) | extract_lets
    | intro _ | split | dsimp only | with_reducible apply Keeps.lit

theorem execGrant_keeps {r0 s : State} (hk : Keeps r0 s) (p : PCmd) : Keeps.Res r0 (execGrant p s) := by
  unfold execGrant
  dsimp only
  repeat' first
    | (with_reducible first
        | assumption | apply Keeps.Ans.ok | apply Keeps.Ans.error | apply Keeps.Ans.ite | apply Keeps.Ans.bind
        | apply Keeps.foldl | apply Mem.foldl_wf | apply Core.foldl_wired | apply State.answer_keeps
        | apply State.giveItem_keeps | apply Keeps.next | apply Keeps.Res.ite | apply Keeps.ite)
    | extract_lets | intro _ | split | dsimp only | with_reducible apply Keeps.lit

theorem State.takeItem_keeps {r0 s : State} (hk : Keeps r0 s) (kind i : Nat) : Keeps r0 (State.takeItem s kind i) := by
  unfold State.takeItem
  repeat' first
    | (with_reducible first | assumption | apply Keeps.modDisp | apply Keeps.modEng | apply Keeps.ite) | extract_lets
    | intro _ | split | dsimp only | with_reducible apply Keeps.lit

theorem execRevoke_keeps {r0 s : State} (hk : Keeps r0 s) (p : PCmd) : Keeps.Res r0 (execRevoke p s) := by
  unfold execRevoke
  dsimp only
  repeat' first
    | (with_reducible first
        | assumption | apply Keeps.Ans.ok | apply Keeps.Ans.error | apply Keeps.Ans.ite | apply Keeps.Ans.bind
        | apply Keeps.foldl | apply Mem.foldl_wf | apply Core.foldl_wired | apply State.answer_keeps
        | apply State.takeItem_keeps | apply Keeps.next | apply Keeps.Res.ite | apply Keeps.ite)
    | extract_lets | intro _ | split | dsimp only | with_reducible apply Keeps.lit

theorem State.releaseFrames_keeps {r0 s : State} (hk : Keeps r0 s) (w : Nat) (fs : List Nat) : Keeps r0 (s.releaseFrames w fs) := by
  unfold State.releaseFrames
  exact Keeps.mem (State.modWorld_keeps hk _ _) fun _ hm => cellsWf_filter _ hm

theorem execResize_keeps {r0 s : State} (hk : Keeps r0 s) (p : PCmd) (frames : List W64) : Keeps.Res r0 (execResize p frames s) := by
  unfold execResize
  dsimp only
  repeat' first
    | (with_reducible first
        | assumption | apply Keeps.Ans.ok | apply Keeps.Ans.error | apply Keeps.Ans.ite | apply Keeps.Ans.bind
        | apply State.modWorld_keeps | apply State.setPrefix_keeps | apply State.answer_keeps
        | apply State.releaseFrames_keeps | apply Keeps.next | apply Keeps.Res.ite | apply Keeps.ite)
    | extract_lets | intro _ | split | dsimp only | with_reducible apply Keeps.lit

theorem execBwset_keeps {r0 s : State} (hk : Keeps r0 s) (p : PCmd) (mask : BitVec 1024) : Keeps.Res r0 (execBwset p mask s) := by
  unfold execBwset
  dsimp only
  repeat' first
    | (with_reducible first
        | assumption | apply Keeps.Ans.ok | apply Keeps.Ans.error | apply Keeps.Ans.ite | apply Keeps.Ans.bind
        | apply Keeps.foldl | apply Mem.foldl_wf | apply Core.foldl_wired | apply State.modWorld_keeps
        | apply State.answer_keeps | apply Keeps.next | apply Keeps.Res.ite | apply Keeps.ite)
    | extract_lets | intro _ | split | dsimp only | with_reducible apply Keeps.lit

theorem State.takeSlots_keeps {r0 s : State} (hk : Keeps r0 s) (c : Nat) : Keeps r0 (State.takeSlots s c) := by
  unfold State.takeSlots
  repeat' first
    | (with_reducible first | assumption | apply Keeps.ite) | extract_lets | intro _ | split | dsimp only
    | with_reducible apply Keeps.lit

theorem State.putComm_keeps {r0 s : State} (hk : Keeps r0 s) (c : Comm) : Keeps r0 (State.putComm s c) := by
  unfold State.putComm
  repeat' first
    | (with_reducible first
        | assumption | apply Keeps.modEng | apply State.fresh2_keeps | refine State.fresh_keeps (by assumption) ?_
        | apply State.send_keeps | apply Keeps.ite)
    | extract_lets | intro _ | split | dsimp only | with_reducible apply Keeps.lit

theorem State.installed_keeps {r0 s : State} (hk : Keeps r0 s) (w : World) (kind i : Nat) (r : InstallRec) : Keeps.Opt r0 (s.installed w kind i r) := by
  unfold State.installed
  repeat' first
    | (with_reducible first
        | assumption | apply Keeps.Opt.some | exact Keeps.Opt.none | apply Keeps.Opt.ite | apply Keeps.Opt.dite
        | apply Keeps.modDisp | apply Keeps.modEng | apply Mem.set_wf | apply State.modWorld_keeps
        | apply State.setJetton_keeps | apply State.setPrefix_keeps | apply State.putComm_keeps | apply Keeps.ite)
    | extract_lets | intro _ | split | dsimp only | with_reducible apply Keeps.lit

theorem execInstall_keeps {r0 s : State} (hk : Keeps r0 s) (p : PCmd) (r : InstallRec) : Keeps.Res r0 (execInstall p r s) := by
  unfold execInstall
  dsimp only
  repeat' first
    | (with_reducible first
        | assumption | apply Keeps.Ans.ok | apply Keeps.Ans.error | apply Keeps.Ans.ite | apply Keeps.Ans.bind
        | apply State.answer_keeps | apply Keeps.next | apply Keeps.Res.ite | apply Keeps.ite)
    | (with_reducible refine Keeps.Opt.of (by with_reducible assumption) (State.installed_keeps ?_ _ _ _ _)) | extract_lets
    | intro _ | split | dsimp only | with_reducible apply Keeps.lit

theorem execInval_keeps {r0 s : State} (hk : Keeps r0 s) (p : PCmd) : Keeps.Res r0 (execInval p s) := by
  unfold execInval
  dsimp only
  repeat' first
    | (with_reducible first
        | assumption | apply Keeps.Ans.ok | apply Keeps.Ans.error | apply Keeps.Ans.ite | apply Keeps.Ans.bind
        | apply Keeps.modDisp | apply State.answer_keeps | apply Keeps.next | apply Keeps.Res.ite | apply Keeps.ite)
    | extract_lets | intro _ | split | dsimp only | with_reducible apply Keeps.lit

theorem execQuery_keeps {r0 s : State} (hk : Keeps r0 s) (p : PCmd) : Keeps.Res r0 (execQuery p s) := by
  unfold execQuery
  dsimp only
  repeat' first
    | (with_reducible first
        | assumption | apply Keeps.Ans.ok | apply Keeps.Ans.error | apply Keeps.Ans.ite | apply Keeps.Ans.bind
        | apply State.answer_keeps | apply Keeps.next | apply Keeps.Res.ite | apply Keeps.ite)
    | extract_lets | intro _ | split | dsimp only | with_reducible apply Keeps.lit

theorem State.qctl_keeps {r0 s : State} (hk : Keeps r0 s) (p : PCmd) : Keeps r0 (s.qctl p) := by
  unfold State.qctl
  dsimp only
  repeat' first
    | (with_reducible first
        | assumption | apply Keeps.Ans.ok | apply Keeps.Ans.error | apply Keeps.Ans.ite | apply Keeps.Ans.bind
        | apply Keeps.modEng | apply State.answer_keeps | apply Keeps.ite)
    | extract_lets | intro _ | split | dsimp only | with_reducible apply Keeps.lit

theorem execQctlReset_keeps {r0 s : State} (hk : Keeps r0 s) (p : PCmd) : Keeps.Res r0 (execQctlReset p s) := by
  unfold execQctlReset
  repeat' first
    | (with_reducible first
        | assumption | apply State.respond_keeps | apply State.qctl_keeps | apply Keeps.next | apply Keeps.Res.ite
        | apply Keeps.ite)
    | extract_lets | intro _ | split | dsimp only | with_reducible apply Keeps.lit

theorem execQctlEnable_keeps {r0 s : State} (hk : Keeps r0 s) (p : PCmd) : Keeps.Res r0 (execQctlEnable p s) := by
  unfold execQctlEnable
  repeat' first
    | (with_reducible first
        | assumption | apply State.respond_keeps | apply State.qctl_keeps | apply Keeps.next | apply Keeps.Res.ite
        | apply Keeps.ite)
    | extract_lets | intro _ | split | dsimp only | with_reducible apply Keeps.lit

theorem execRoot_keeps {r0 s : State} (hk : Keeps r0 s) (p : PCmd) (cap : BitVec 128) : Keeps.Res r0 (execRoot p cap s) := by
  unfold execRoot
  dsimp only
  repeat' first
    | (with_reducible first
        | assumption | apply Keeps.Ans.ok | apply Keeps.Ans.error | apply Keeps.Ans.ite | apply Keeps.Ans.bind
        | apply State.setJetton_keeps | apply State.answer_keeps | apply Keeps.next | apply Keeps.Res.ite | apply Keeps.ite)
    | extract_lets | intro _ | split | dsimp only | with_reducible apply Keeps.lit

end Sys2Proof.Machine
end

