-- ==== Sys2Proof/Laws/KeepsQueue.lean ====
section
/-!
SUPPORT. `Keeps` for the operations and meanings of Machine/Queue.lean.
-/
namespace Sys2Proof.Machine

open Sys2Proof

theorem State.modQueue_keeps {r0 s : State} (hk : Keeps r0 s) (k : Nat) (f : CmdQueue → CmdQueue) : Keeps r0 (State.modQueue s k f) := by
  unfold State.modQueue
  repeat' first
    | (with_reducible first | assumption | apply Keeps.modEng | apply Keeps.ite) | extract_lets | intro _ | split | dsimp only
    | with_reducible apply Keeps.lit

theorem State.queueHold_keeps {r0 s : State} (hk : Keeps r0 s) (k world va : Nat) : Keeps r0 (State.queueHold s k world va) := by
  unfold State.queueHold
  repeat' first
    | (with_reducible first | assumption | apply State.reportXlate_keeps | apply State.modQueue_keeps | apply Keeps.ite)
    | extract_lets | intro _ | split | dsimp only | with_reducible apply Keeps.lit

theorem State.queueIo_keeps {r0 s : State} (hk : Keeps r0 s) (k world : Nat) (e : IoStop) : Keeps r0 (State.queueIo s k world e) := by
  unfold State.queueIo
  repeat' first
    | (with_reducible first | assumption | apply State.queueStop_keeps | apply State.queueHold_keeps | apply Keeps.ite)
    | extract_lets | intro _ | split | dsimp only | with_reducible apply Keeps.lit

theorem State.withSem_keeps {r0 s : State} (hk : Keeps r0 s) (k : Nat) (q : CmdQueue) (e : List Byte) (read write : Bool)
    {f : HomeAt → Nat → Nat → State} (hf : ∀ h n a, Keeps r0 (f h n a)) : Keeps r0 (s.withSem k q e read write f) := by
  unfold State.withSem
  split
  · exact hf _ _ _
  · exact State.queueHold_keeps hk _ _ _
  · exact State.queueStop_keeps hk _ _ _ _
  · exact State.queueStop_keeps hk _ _ _ _

theorem State.withOptSem_keeps {r0 s : State} (hk : Keeps r0 s) (k : Nat) (q : CmdQueue) (e : List Byte)
    {f : Option (Nat × Nat) → State} (hf : ∀ x, Keeps r0 (f x)) : Keeps r0 (s.withOptSem k q e f) := by
  unfold State.withOptSem
  exact Keeps.ite (fun _ => hf _) fun _ => State.withSem_keeps hk _ _ _ _ _ fun _ _ _ => hf _

theorem State.slotNow_keeps {r0 s : State} (hk : Keeps r0 s) (world : Nat) (rs : List PRun) : Keeps.Opt r0 (s.slotNow world rs) := by
  unfold State.slotNow
  split
  · exact Keeps.Opt.some hk
  · refine ⟨fun t e => ?_⟩
    simp only [Option.map_eq_some_iff] at e
    obtain ⟨c, -, rfl⟩ := e
    exact Keeps.modEng hk

theorem okThen_opt {ε α : Type} {r0 : State} {q : Except ε α} {a : ε → Option State} {k : α → Option State}
    (ha : ∀ e, Keeps.Opt r0 (a e)) (hk : ∀ x, Keeps.Opt r0 (k x)) : Keeps.Opt r0 (okThen q a k) := by
  unfold okThen
  split
  · exact ha _
  · exact hk _

theorem State.slotOpen_keeps {r0 s t : State} {world va n : Nat} {write : Bool} (e : s.slotOpen world va n write = some t) (hk : Keeps r0 s) :
    Keeps r0 t := by
  have h : Keeps.Opt r0 (s.slotOpen world va n write) := okThen_opt (fun _ => Keeps.Opt.some hk) fun _ => State.slotNow_keeps hk _ _
  exact h.keep t e

theorem State.ridxSlot_keeps {r0 s t : State} {q : CmdQueue} (e : s.ridxSlot q = some t) (hk : Keeps r0 s) : Keeps r0 t := by
  unfold State.ridxSlot at e
  split at e
  · exact State.slotOpen_keeps e hk
  · cases e; exact hk

theorem State.publishRidx_keeps {r0 s : State} (hk : Keeps r0 s) (k : Nat) : Keeps r0 (State.publishRidx s k) := by
  unfold State.publishRidx
  repeat' first
    | (with_reducible first
        | assumption | apply okThen_keeps | refine State.ioWrite_keeps (by assumption) ?_
        | refine State.ioWriteE_keeps (by assumption) ?_ | apply State.modQueue_keeps | apply State.queueIo_keeps
        | apply Keeps.ite)
    | (with_reducible refine State.ioWriteP_keeps (by with_reducible assumption) ?_) | extract_lets | intro _ | split
    | dsimp only | with_reducible apply Keeps.lit

theorem State.takeEntry_keeps {r0 s : State} (hk : Keeps r0 s) (k : Nat) (e : List Byte) : Keeps r0 (s.takeEntry k e) := by
  unfold State.takeEntry
  repeat' first
    | (with_reducible first
        | assumption | apply State.queueStop_keeps | apply State.modQueue_keeps | apply State.publishRidx_keeps | apply Keeps.ite)
    | extract_lets | intro _ | split | dsimp only | with_reducible apply Keeps.lit

theorem State.lookNext_keeps {r0 s : State} (hk : Keeps r0 s) (k : Nat) : Keeps r0 (s.lookNext k) := State.modQueue_keeps hk _ _

theorem execQueueEntryTake_keeps {r0 s : State} (hk : Keeps r0 s) (queue : Nat) : Keeps.Res r0 (execQueueEntryTake queue s) := by
  unfold execQueueEntryTake
  repeat' first
    | (with_reducible first
        | assumption | apply State.takeEntry_keeps | apply State.lookNext_keeps | refine State.ioRead_keeps (by assumption) ?_
        | refine State.ioReadE_keeps (by assumption) ?_ | apply ioThen_keeps | apply State.modQueue_keeps
        | apply State.queueIo_keeps | refine State.slotOpen_keeps (by assumption) ?_ | apply Keeps.next | apply Keeps.Res.ite | apply Keeps.ite)
    | extract_lets | intro _ | split | dsimp only | with_reducible apply Keeps.lit

theorem execQueuePollTimer_keeps {r0 s : State} (hk : Keeps r0 s) (queue : Nat) : Keeps.Res r0 (execQueuePollTimer queue s) := by
  unfold execQueuePollTimer
  repeat' first
    | (with_reducible first
        | assumption | apply State.modQueue_keeps | apply Keeps.next | apply Keeps.Res.ite | apply Keeps.ite)
    | extract_lets | intro _ | split | dsimp only | with_reducible apply Keeps.lit

theorem execQueueXlateRetry_keeps {r0 s : State} (hk : Keeps r0 s) (queue : Nat) : Keeps.Res r0 (execQueueXlateRetry queue s) := by
  unfold execQueueXlateRetry
  repeat' first
    | (with_reducible first
        | assumption | apply Keeps.modDisp | apply State.queueStop_keeps | apply State.modQueue_keeps
        | apply State.publishRidx_keeps | refine State.ridxSlot_keeps (by assumption) ?_ | apply Keeps.next | apply Keeps.Res.ite | apply Keeps.ite)
    | extract_lets | intro _ | split | dsimp only | with_reducible apply Keeps.lit

theorem State.queueDo_keeps {r0 s : State} (hk : Keeps r0 s) (k op : Nat) {f : CmdQueue → List Byte → State}
    (hf : ∀ q e, Keeps r0 (f q e)) : Keeps r0 (s.queueDo k op f) := by
  unfold State.queueDo
  split
  · exact hk
  · split
    · exact Keeps.ite (fun _ => hf _ _) fun _ => hk
    · exact hk

theorem State.queueNext_keeps {r0 s : State} (hk : Keeps r0 s) (k : Nat) : Keeps r0 (State.queueNext s k) := by
  unfold State.queueNext
  repeat' first
    | (with_reducible first | assumption | apply State.modQueue_keeps | apply Keeps.ite) | extract_lets | intro _ | split
    | dsimp only | with_reducible apply Keeps.lit

theorem State.queueActed_keeps {r0 s : State} (hk : Keeps r0 s) (k : Nat) : Keeps r0 (State.queueActed s k) := by
  unfold State.queueActed
  repeat' first
    | (with_reducible first | assumption | apply State.queueNext_keeps | apply Keeps.ite) | extract_lets | intro _ | split
    | dsimp only | with_reducible apply Keeps.lit

theorem State.queueBusy_keeps {r0 s : State} (hk : Keeps r0 s) (k id : Nat) (q : CmdQueue) : Keeps r0 (State.queueBusy s k id q) := by
  unfold State.queueBusy
  repeat' first
    | (with_reducible first | assumption | apply State.modQueue_keeps | apply Keeps.ite) | extract_lets | intro _ | split
    | dsimp only | with_reducible apply Keeps.lit

theorem execQueueNop_keeps {r0 s : State} (hk : Keeps r0 s) (queue : Nat) : Keeps.Res r0 (execQueueNop queue s) := by
  unfold execQueueNop
  repeat' first
    | (with_reducible first
        | assumption | apply State.queueDo_keeps | apply State.queueActed_keeps | apply Keeps.next | apply Keeps.Res.ite
        | apply Keeps.ite)
    | extract_lets | intro _ | split | dsimp only | with_reducible apply Keeps.lit

theorem State.queueHome_keeps {r0 s : State} (hk : Keeps r0 s) (q : CmdQueue) (k : Nat) (what : HomeDo) (home : HomeAt) (h va : Nat) (blockers : List Nat) (waits : Bool) : Keeps r0 (State.queueHome s q k what home h va blockers waits) := by
  unfold State.queueHome
  repeat' first
    | (with_reducible first | assumption | apply Keeps.modEng | apply State.queueBusy_keeps | apply Keeps.ite) | extract_lets
    | intro _ | split | dsimp only | with_reducible apply Keeps.lit

theorem execQueueWait_keeps {r0 s : State} (hk : Keeps r0 s) (queue : Nat) : Keeps.Res r0 (execQueueWait queue s) := by
  unfold execQueueWait
  repeat' first
    | (with_reducible first
        | assumption | apply State.modQueue_keeps | apply State.withSem_keeps | apply State.queueDo_keeps
        | apply State.queueHome_keeps | apply Keeps.next | apply Keeps.Res.ite | apply Keeps.ite)
    | extract_lets | intro _ | split | dsimp only | with_reducible apply Keeps.lit

theorem execQueueWaitComplete_keeps {r0 s : State} (hk : Keeps r0 s) (queue : Nat) : Keeps.Res r0 (execQueueWaitComplete queue s) := by
  unfold execQueueWaitComplete
  repeat' first
    | (with_reducible first
        | assumption | apply State.dropHome_keeps | apply State.modQueue_keeps | apply State.queueNext_keeps
        | apply Keeps.next | apply Keeps.Res.ite | apply Keeps.ite)
    | extract_lets | intro _ | split | dsimp only | with_reducible apply Keeps.lit

theorem execSignal_keeps {r0 s : State} (hk : Keeps r0 s) (queue : Nat) : Keeps.Res r0 (execSignal queue s) := by
  unfold execSignal
  repeat' first
    | (with_reducible first
        | assumption | apply State.withSem_keeps | apply State.queueDo_keeps | apply State.queueNext_keeps
        | apply State.queueHome_keeps | apply Keeps.next | apply Keeps.Res.ite | apply Keeps.ite)
    | extract_lets | intro _ | split | dsimp only | with_reducible apply Keeps.lit

theorem execQueueSet_keeps {r0 s : State} (hk : Keeps r0 s) (queue : Nat) : Keeps.Res r0 (execQueueSet queue s) := by
  unfold execQueueSet
  repeat' first
    | (with_reducible first
        | assumption | apply State.withSem_keeps | apply State.queueDo_keeps | apply State.queueNext_keeps
        | apply State.queueHome_keeps | apply Keeps.next | apply Keeps.Res.ite | apply Keeps.ite)
    | extract_lets | intro _ | split | dsimp only | with_reducible apply Keeps.lit

theorem State.queueCopy_keeps {r0 s : State} (hk : Keeps r0 s) (k : Nat) (q : CmdQueue) (kind : CopyKind) (dst src n : Nat) (sem : Option (Nat × Nat)) : Keeps r0 (State.queueCopy s k q kind dst src n sem) := by
  unfold State.queueCopy
  repeat' first
    | (with_reducible first
        | assumption | apply Keeps.modEng | apply State.at__keeps | apply State.queueNext_keeps | apply State.queueBusy_keeps
        | apply Keeps.ite)
    | extract_lets | intro _ | split | dsimp only | with_reducible apply Keeps.lit

theorem execCopy_keeps {r0 s : State} (hk : Keeps r0 s) (queue : Nat) : Keeps.Res r0 (execCopy queue s) := by
  unfold execCopy
  repeat' first
    | (with_reducible first
        | assumption | apply State.withOptSem_keeps | apply State.queueDo_keeps | apply State.queueCopy_keeps
        | apply Keeps.next | apply Keeps.Res.ite | apply Keeps.ite)
    | extract_lets | intro _ | split | dsimp only | with_reducible apply Keeps.lit

theorem execFill_keeps {r0 s : State} (hk : Keeps r0 s) (queue : Nat) : Keeps.Res r0 (execFill queue s) := by
  unfold execFill
  repeat' first
    | (with_reducible first
        | assumption | apply State.withOptSem_keeps | apply State.queueDo_keeps | apply State.queueCopy_keeps
        | apply Keeps.next | apply Keeps.Res.ite | apply Keeps.ite)
    | extract_lets | intro _ | split | dsimp only | with_reducible apply Keeps.lit

theorem execLaunch_keeps {r0 s : State} (hk : Keeps r0 s) (queue : Nat) : Keeps.Res r0 (execLaunch queue s) := by
  unfold execLaunch
  repeat' first
    | (with_reducible first
        | assumption | apply Keeps.modEng | apply State.queueStop_keeps | apply State.modQueue_keeps
        | apply State.withOptSem_keeps | apply State.queueDo_keeps | apply State.queueCopy_keeps | apply Keeps.next
        | apply Keeps.Res.ite | apply Keeps.ite)
    | extract_lets | intro _ | split | dsimp only | with_reducible apply Keeps.lit

theorem State.placedEntry_keeps {r0 s : State} (hk : Keeps r0 s) (j : Nat) (q : BitVec 2) : Keeps r0 (State.placedEntry s j q) := by
  unfold State.placedEntry
  repeat' first
    | (with_reducible first | assumption | apply Mem.set_wf | apply State.setJetton_keeps | apply Keeps.ite) | extract_lets
    | intro _ | split | dsimp only | with_reducible apply Keeps.lit

theorem State.ingressAll_keeps {r0 s : State} (hk : Keeps r0 s) : Keeps r0 (State.ingressAll s) := by
  unfold State.ingressAll
  repeat' first
    | (with_reducible first | assumption | apply Keeps.modDisp | apply Keeps.ite) | extract_lets | intro _ | split
    | dsimp only | with_reducible apply Keeps.lit

theorem execLaunchEntryLanding_keeps {r0 s : State} (hk : Keeps r0 s) (queue id : Nat) : Keeps.Res r0 (execLaunchEntryLanding queue id s) := by
  unfold execLaunchEntryLanding
  repeat' first
    | (with_reducible first
        | assumption | apply Keeps.modEng | apply State.modJetton_keeps | apply State.placedEntry_keeps | apply Keeps.next
        | apply Keeps.Res.ite | apply Keeps.ite)
    | extract_lets | intro _ | split | dsimp only | with_reducible apply Keeps.lit

theorem execLaunchSemaphoreIncrement_keeps {r0 s : State} (hk : Keeps r0 s) (addr world : Nat) : Keeps.Res r0 (execLaunchSemaphoreIncrement addr world s) := by
  unfold execLaunchSemaphoreIncrement
  repeat' first
    | (with_reducible first
        | assumption | apply State.increment2_keeps | refine State.increment_keeps (by assumption) ?_ | apply Keeps.next
        | apply Keeps.Res.ite | apply Keeps.ite)
    | extract_lets | intro _ | split | dsimp only | with_reducible apply Keeps.lit

theorem State.raiseVector_keeps {r0 s : State} (hk : Keeps r0 s) (world v : Nat) : Keeps r0 (State.raiseVector s world v) := by
  unfold State.raiseVector
  repeat' first
    | (with_reducible first | assumption | apply State.say_keeps | apply Keeps.ite) | extract_lets | intro _ | split
    | dsimp only | with_reducible apply Keeps.lit

theorem execIrq_keeps {r0 s : State} (hk : Keeps r0 s) (queue : Nat) : Keeps.Res r0 (execIrq queue s) := by
  unfold execIrq
  repeat' first
    | (with_reducible first
        | assumption | apply State.modQueue_keeps | apply State.queueDo_keeps | apply State.queueNext_keeps
        | apply State.queueBusy_keeps | apply State.raiseVector_keeps | apply Keeps.next | apply Keeps.Res.ite
        | apply Keeps.ite)
    | extract_lets | intro _ | split | dsimp only | with_reducible apply Keeps.lit

theorem State.irqAll_keeps {r0 s : State} (hk : Keeps r0 s) : Keeps r0 (State.irqAll s) := by
  unfold State.irqAll
  repeat' first
    | (with_reducible first
        | assumption | apply Keeps.foldl | apply Mem.foldl_wf | apply Core.foldl_wired | apply State.accessDone_keeps
        | apply State.modQueue_keeps | apply State.raiseVector_keeps | apply Keeps.ite)
    | extract_lets | intro _ | split | dsimp only | with_reducible apply Keeps.lit

theorem execQueueFence_keeps {r0 s : State} (hk : Keeps r0 s) (queue : Nat) : Keeps.Res r0 (execQueueFence queue s) := by
  unfold execQueueFence
  repeat' first
    | (with_reducible first
        | assumption | apply State.modQueue_keeps | apply State.queueDo_keeps | apply State.queueNext_keeps | apply Keeps.next
        | apply Keeps.Res.ite | apply Keeps.ite)
    | extract_lets | intro _ | split | dsimp only | with_reducible apply Keeps.lit

theorem execTstamp_keeps {r0 s : State} (hk : Keeps r0 s) (queue : Nat) : Keeps.Res r0 (execTstamp queue s) := by
  unfold execTstamp
  refine Keeps.next (State.queueDo_keeps hk _ _ fun q e => ?_)
  split
  · exact hk
  · have h := State.slotOpen_keeps ‹_› hk
    exact okThen_keeps (fun p he => State.queueIo_keeps (State.ioWriteP_keeps he h) _ _ _)
      fun t he => State.queueActed_keeps (State.ioWrite_keeps he h) _

theorem State.showFault_keeps {r0 s : State} (hk : Keeps r0 s) (k : Nat) (q : CmdQueue) : Keeps r0 (s.showFault k q) := by
  have h : ∀ t, s.slotOpen q.world q.ridxVa 4 true = some t → Keeps r0 t := fun t e => State.slotOpen_keeps e hk
  unfold State.showFault
  revert h
  generalize s.slotOpen q.world q.ridxVa 4 true = o
  intro h
  cases o with
  | none => exact hk
  | some t =>
    have ht := h t rfl
    exact State.modQueue_keeps (okThen_keeps (fun p he => State.ioWriteP_keeps he ht) fun t he => State.ioWrite_keeps he ht) _ _

theorem State.faultedAll_keeps {r0 s : State} (hk : Keeps r0 s) : Keeps r0 (State.faultedAll s) := by
  unfold State.faultedAll
  exact Keeps.foldl (fun u k hu => Keeps.ite (fun _ => State.showFault_keeps hu _ _) fun _ => hu) _ hk

end Sys2Proof.Machine
end

