-- ==== Sys2Proof/Laws/KeepsMigrate.lean ====
section
/-!
SUPPORT. `Keeps` for the operations and meanings of Machine/Migrate.lean.
-/
namespace Sys2Proof.Machine

open Sys2Proof

theorem State.migStep_keeps {r0 s : State} (hk : Keeps r0 s) (w k : Nat) : Keeps r0 (State.migStep s w k) := by
  unfold State.migStep
  repeat' first
    | (with_reducible first | assumption | apply State.modWorld_keeps | apply Keeps.ite) | extract_lets | intro _ | split
    | dsimp only | with_reducible apply Keeps.lit

theorem execMigrateAttest_keeps {r0 s : State} (hk : Keeps r0 s) (p : PCmd) (ok : Bool) : Keeps.Res r0 (execMigrateAttest p ok s) := by
  unfold execMigrateAttest
  dsimp only
  repeat' first
    | (with_reducible first
        | assumption | apply Keeps.Ans.ok | apply Keeps.Ans.error | apply Keeps.Ans.ite | apply Keeps.Ans.bind
        | apply State.modWorld_keeps | apply State.answer_keeps | apply State.migStep_keeps | apply Keeps.next
        | apply Keeps.Res.ite | apply Keeps.ite)
    | extract_lets | intro _ | split | dsimp only | with_reducible apply Keeps.lit

theorem State.sendFrames_keeps {r0 s : State} (hk : Keeps r0 s) (w : World) (pass : Nat) : Keeps r0 (State.sendFrames s w pass) := by
  unfold State.sendFrames
  repeat' first
    | (with_reducible first | assumption | apply Keeps.ite) | extract_lets | intro _ | split | dsimp only
    | with_reducible apply Keeps.lit

theorem Mem.clearDirty_wf {m : Mem} (hk : m.wf = true) (base : Nat) : (Mem.clearDirty m base).wf = true := cellsWf_filter _ hk

theorem execMigrateTrack_keeps {r0 s : State} (hk : Keeps r0 s) (p : PCmd) : Keeps.Res r0 (execMigrateTrack p s) := by
  unfold execMigrateTrack
  dsimp only
  repeat' first
    | (with_reducible first
        | assumption | apply Keeps.Ans.ok | apply Keeps.Ans.error | apply Keeps.Ans.ite | apply Keeps.Ans.bind
        | apply Keeps.mem | apply State.modWorld_keeps | apply State.answer_keeps | apply State.migStep_keeps
        | apply State.sendFrames_keeps | apply Mem.clearDirty_wf | apply Keeps.next | apply Keeps.Res.ite | apply Keeps.ite)
    | extract_lets | intro _ | (with_reducible first | apply Mem.ite_wf | apply Mem.lit_wf) | split | dsimp only
    | with_reducible apply Keeps.lit | with_reducible apply Keeps.litMem

theorem State.takeDirty_keeps {r0 s : State} (hk : Keeps r0 s) (w : World) : Keeps r0 (s.takeDirty w).2 := by
  unfold State.takeDirty
  exact Keeps.mem hk fun _ hm => cellsWf_filter _ hm

theorem State.dirtyPass_keeps {r0 s : State} (hk : Keeps r0 s) (w : World) : Keeps r0 (s.dirtyPass w).2 := by
  unfold State.dirtyPass
  exact Keeps.lit (State.modWorld_keeps (State.takeDirty_keeps hk w) _ _)

theorem execMigratePass_keeps {r0 s : State} (hk : Keeps r0 s) (p : PCmd) : Keeps.Res r0 (execMigratePass p s) := by
  unfold execMigratePass
  dsimp only
  repeat' first
    | (with_reducible first
        | assumption | apply Keeps.Ans.ok | apply Keeps.Ans.error | apply Keeps.Ans.ite | apply Keeps.Ans.bind
        | apply State.answer_keeps | apply State.migStep_keeps | apply State.dirtyPass_keeps | apply Keeps.next
        | apply Keeps.Res.ite | apply Keeps.ite)
    | extract_lets | intro _ | split | dsimp only | with_reducible apply Keeps.lit

theorem State.stopAdmission_keeps {r0 s : State} (hk : Keeps r0 s) (w : Nat) : Keeps r0 (State.stopAdmission s w) := by
  unfold State.stopAdmission
  repeat' first
    | (with_reducible first | assumption | apply Keeps.modDisp | apply State.modWorld_keeps | apply Keeps.ite) | extract_lets
    | intro _ | split | dsimp only | with_reducible apply Keeps.lit

theorem State.sealDone_keeps {r0 s : State} (hk : Keeps r0 s) (w : World) (p : PCmd) : Keeps r0 (State.sealDone s w p) := by
  unfold State.sealDone
  dsimp only
  repeat' first
    | (with_reducible first
        | assumption | apply Keeps.Ans.ok | apply Keeps.Ans.error | apply Keeps.Ans.ite | apply Keeps.Ans.bind
        | apply State.modWorld_keeps | apply State.answer_keeps | apply State.migStep_keeps | apply State.dirtyPass_keeps
        | apply Keeps.ite)
    | extract_lets | intro _ | split | dsimp only | with_reducible apply Keeps.lit

theorem State.migrateAll_keeps {r0 s : State} (hk : Keeps r0 s) : Keeps r0 (State.migrateAll s) := by
  unfold State.migrateAll
  repeat' first
    | (with_reducible first
        | assumption | apply Keeps.foldl | apply Mem.foldl_wf | apply Core.foldl_wired | apply State.sealDone_keeps
        | apply Keeps.ite)
    | extract_lets | intro _ | split | dsimp only | with_reducible apply Keeps.lit

theorem execMigrateSeal_keeps {r0 s : State} (hk : Keeps r0 s) (p : PCmd) : Keeps.Res r0 (execMigrateSeal p s) := by
  unfold execMigrateSeal
  repeat' first
    | (with_reducible first
        | assumption | apply State.modWorld_keeps | apply State.respond_keeps | apply State.stopAdmission_keeps
        | apply State.sealDone_keeps | apply Keeps.next | apply Keeps.Res.ite | apply Keeps.ite)
    | extract_lets | intro _ | split | dsimp only | with_reducible apply Keeps.lit

theorem execMigratePrefix_keeps {r0 s : State} (hk : Keeps r0 s) (p : PCmd) (verified : List Nat) : Keeps.Res r0 (execMigratePrefix p verified s) := by
  unfold execMigratePrefix
  dsimp only
  repeat' first
    | (with_reducible first
        | assumption | apply Keeps.Ans.ok | apply Keeps.Ans.error | apply Keeps.Ans.ite | apply Keeps.Ans.bind
        | apply State.answer_keeps | apply State.migStep_keeps | apply Keeps.next | apply Keeps.Res.ite | apply Keeps.ite)
    | extract_lets | intro _ | split | dsimp only | with_reducible apply Keeps.lit

theorem execMigrateKeys_keeps {r0 s : State} (hk : Keeps r0 s) (p : PCmd) : Keeps.Res r0 (execMigrateKeys p s) := by
  unfold execMigrateKeys
  dsimp only
  repeat' first
    | (with_reducible first
        | assumption | apply Keeps.Ans.ok | apply Keeps.Ans.error | apply Keeps.Ans.ite | apply Keeps.Ans.bind
        | apply State.say_keeps | apply State.eraseKeys_keeps | apply State.clearKeySlot_keeps | apply State.answer_keeps
        | apply State.migStep_keeps | apply Keeps.next | apply Keeps.Res.ite | apply Keeps.ite)
    | extract_lets | intro _ | split | dsimp only | with_reducible apply Keeps.lit

theorem execMigrateResume_keeps {r0 s : State} (hk : Keeps r0 s) (p : PCmd) : Keeps.Res r0 (execMigrateResume p s) := by
  unfold execMigrateResume
  dsimp only
  repeat' first
    | (with_reducible first
        | assumption | apply Keeps.Ans.ok | apply Keeps.Ans.error | apply Keeps.Ans.ite | apply Keeps.Ans.bind
        | apply Keeps.modDisp | apply Keeps.modEng | apply State.answer_keeps | apply State.migStep_keeps | apply Keeps.next
        | apply Keeps.Res.ite | apply Keeps.ite)
    | extract_lets | intro _ | split | dsimp only | with_reducible apply Keeps.lit

end Sys2Proof.Machine
end

