-- ==== Sys2Proof/Laws/KeepsHost.lean ====
section
/-!
SUPPORT. `Keeps` for the operations and meanings of Machine/Host.lean.
-/
namespace Sys2Proof.Machine

open Sys2Proof

theorem State.modFunc_keeps {r0 s : State} (hk : Keeps r0 s) (fn : Nat) (g : Func → Func) : Keeps r0 (State.modFunc s fn g) := by
  unfold State.modFunc
  repeat' first
    | (with_reducible first | assumption | apply Keeps.ite) | extract_lets | intro _ | split | dsimp only
    | with_reducible apply Keeps.lit

theorem execJettonDoorbell_keeps {r0 s : State} (hk : Keeps r0 s) (fn jetton : Nat) (q : BitVec 2) (widx : BitVec 32) : Keeps.Res r0 (execJettonDoorbell fn jetton q widx s) := by
  unfold execJettonDoorbell
  repeat' first
    | (with_reducible first
        | assumption | apply State.writeWidx_keeps | apply Keeps.next | apply Keeps.Res.ite | apply Keeps.ite)
    | extract_lets | intro _ | split | dsimp only | with_reducible apply Keeps.lit

theorem execCommandQueueDoorbell_keeps {r0 s : State} (hk : Keeps r0 s) (fn queue : Nat) : Keeps.Res r0 (execCommandQueueDoorbell fn queue s) := by
  unfold execCommandQueueDoorbell
  repeat' first
    | (with_reducible first
        | assumption | apply State.modQueue_keeps | apply Keeps.next | apply Keeps.Res.ite | apply Keeps.ite)
    | extract_lets | intro _ | split | dsimp only | with_reducible apply Keeps.lit

theorem State.mailboxWrite_keeps {r0 s : State} (hk : Keeps r0 s) (f : Func) (o : Nat) (data : List Byte) : Keeps r0 (State.mailboxWrite s f o data) := by
  unfold State.mailboxWrite
  repeat' first
    | (with_reducible first | assumption | apply State.modFunc_keeps | apply Keeps.ite) | extract_lets | intro _ | split
    | dsimp only | with_reducible apply Keeps.lit

theorem Result.state_keeps {r0 s : State} {r : Result} (h : Keeps.Res r0 r) : Keeps r0 (Result.state s r) := by
  obtain ⟨t, rfl, ht⟩ := h
  exact ht

theorem State.execRequest_keeps {r0 s : State} (hk : Keeps r0 s) (f : Func) (bs : List Byte) : Keeps r0 (s.execRequest f bs) := by
  unfold State.execRequest
  extract_lets p words r
  refine Result.state_keeps ?_
  unfold r
  repeat' first
    | (with_reducible first
        | assumption | apply execCreate_keeps | apply execDestroy_keeps | apply execGrant_keeps | apply execRevoke_keeps
        | apply execResize_keeps | apply execBwset_keeps | apply execInstall_keeps | apply execInval_keeps | apply execQuery_keeps
        | apply execQctlReset_keeps | apply execQctlEnable_keeps | apply execMigrateTrack_keeps | apply execMigratePass_keeps
        | apply execMigrateSeal_keeps | apply execMigrateKeys_keeps | apply execMigrateResume_keeps | apply execRoot_keeps
        | apply State.respond_keeps | apply Keeps.next | apply Keeps.Res.ite)
    | intro _ | split

theorem State.takeRequest_keeps {r0 s : State} (hk : Keeps r0 s) (f : Func) : Keeps r0 (s.takeRequest f) := by
  unfold State.takeRequest
  extract_lets p t
  have ht : Keeps r0 t := State.modFunc_keeps hk _ _
  clear_value t
  repeat' first
    | (with_reducible first
        | assumption | apply State.respond_keeps | apply State.execRequest_keeps | apply Keeps.ite)
    | intro _ | split
  exact ioThen_keeps (fun e h => State.respond_keeps (State.ioReadE_keeps h ht) _ _ _)
    fun _ _ h => State.execRequest_keeps (State.ioRead_keeps h ht) _ _

theorem State.mailboxTurn_keeps {r0 s : State} (hk : Keeps r0 s) (first : Bool) : Keeps r0 (s.mailboxTurn first) := by
  unfold State.mailboxTurn
  repeat' first
    | (with_reducible first | assumption | apply State.takeRequest_keeps | apply Keeps.ite) | intro _ | split

theorem State.barWrite_keeps {r0 s : State} (hk : Keeps r0 s) (f : Func) (bar o : Nat) (data : List Byte) : Keeps r0 (State.barWrite s f bar o data) := by
  unfold State.barWrite
  repeat' first
    | (with_reducible first
        | assumption | apply State.writeWidx_keeps | apply State.modQueue_keeps | apply State.mailboxWrite_keeps
        | apply Keeps.ite)
    | extract_lets | intro _ | split | dsimp only | with_reducible apply Keeps.lit

theorem State.hostStop_keeps {r0 s : State} (hk : Keeps r0 s) (f : Func) (e : IoStop) : Keeps r0 (State.hostStop s f e) := by
  unfold State.hostStop
  repeat' first
    | (with_reducible first | assumption | apply State.reportXlate_keeps | apply State.modFunc_keeps | apply Keeps.ite)
    | extract_lets | intro _ | split | dsimp only | with_reducible apply Keeps.lit

theorem Keeps.Opt.map {r0 : State} {o : Option State} {f : State → State} (h : Keeps.Opt r0 o)
    (hf : ∀ t, Keeps r0 t → Keeps r0 (f t)) : Keeps.Opt r0 (o.map f) := by
  refine ⟨fun t e => ?_⟩
  simp only [Option.map_eq_some_iff] at e
  obtain ⟨u, e, rfl⟩ := e
  exact hf _ (h.keep u e)

theorem State.hostMemRead_keeps {r0 s : State} (hk : Keeps r0 s) (f : Func) (a n : Nat) : Keeps.Opt r0 (s.hostMemRead f a n) := by
  unfold State.hostMemRead
  refine Keeps.Opt.ite (fun _ => Keeps.Opt.some (State.say_keeps hk _)) fun _ => ?_
  refine okThen_opt (fun e => Keeps.Opt.some (State.say_keeps (State.hostStop_keeps (State.noteStop_keeps hk _ _) _ _) _)) fun rs => ?_
  refine Keeps.Opt.map (State.slotNow_keeps hk _ _) fun t ht => ?_
  extract_lets bs v
  refine State.say_keeps ?_ _
  show Keeps r0 (match t.badRead rs with | some (u, _, hbm) => t.noteDamage u hbm | none => t)
  split
  · exact State.noteDamage_keeps ht _ _
  · exact ht

theorem State.hostLine_keeps {r0 s t : State} {f : Func} {a : Nat} {part : List Byte} {b : Bool}
    (e : s.hostLine f a part = some (t, b)) (hk : Keeps r0 s) : Keeps r0 t := by
  unfold State.hostLine at e
  split at e
  · cases e; exact hk
  · unfold okThen at e
    split at e
    · obtain ⟨rfl, -⟩ := Prod.mk.inj (Option.some.inj e)
      exact State.hostStop_keeps (State.noteStop_keeps hk _ _) _ _
    · simp only [Option.map_eq_some_iff] at e
      obtain ⟨v, e1, e2⟩ := e
      obtain ⟨rfl, -⟩ := Prod.mk.inj e2
      have hv : Keeps r0 v := (State.slotNow_keeps hk _ _).keep _ e1
      exact Keeps.ite (fun _ => State.say_keeps (State.writePieces_keeps hv _ _ _) _) fun _ => State.writePieces_keeps hv _ _ _

theorem execHostRead_keeps {r0 s : State} (hk : Keeps r0 s) (fn bar : Nat) (addr : W64) (n : Nat) : Keeps.Res r0 (execHostRead fn bar addr n s) := by
  unfold execHostRead
  repeat' first
    | (with_reducible first | assumption | apply State.say_keeps | apply Keeps.next | apply Keeps.Res.ite | apply Keeps.ite)
    | extract_lets | intro _ | split | dsimp only | with_reducible apply Keeps.lit

theorem execHostWrite_keeps {r0 s : State} (hk : Keeps r0 s) (fn bar : Nat) (addr : W64) (data : List Byte) : Keeps.Res r0 (execHostWrite fn bar addr data s) := by
  unfold execHostWrite
  repeat' first
    | (with_reducible first | assumption | apply Mem.write_wf | apply Keeps.next | apply Keeps.Res.ite | apply Keeps.ite)
    | extract_lets | intro _ | split | dsimp only | with_reducible apply Keeps.lit

theorem State.hostReads_keeps {r0 s : State} (hk : Keeps r0 s) (fuel : Nat) : Keeps r0 (State.hostReads s fuel) := by
  induction fuel generalizing s with
  | zero =>
    unfold State.hostReads
    repeat' first
      | (with_reducible first
          | assumption | apply Keeps.foldl | apply Mem.foldl_wf | apply Core.foldl_wired | apply State.say_keeps
          | apply Keeps.ite)
      | (with_reducible refine Keeps.Opt.of (by with_reducible assumption) (State.hostMemRead_keeps ?_ _ _ _)) | extract_lets
      | intro _ | split | dsimp only | with_reducible apply Keeps.lit
  | succ fuel ih =>
    unfold State.hostReads
    repeat' first
      | (with_reducible first
          | assumption | apply ih | apply Keeps.foldl | apply Mem.foldl_wf | apply Core.foldl_wired | apply State.say_keeps
          | apply Keeps.ite)
      | (with_reducible refine Keeps.Opt.of (by with_reducible assumption) (State.hostMemRead_keeps ?_ _ _ _)) | extract_lets
      | intro _ | split | dsimp only | with_reducible apply Keeps.lit

theorem State.hostWrites_keeps {r0 s : State} (hk : Keeps r0 s) : Keeps r0 (State.hostWrites s) := by
  unfold State.hostWrites
  repeat' first
    | (with_reducible first
        | assumption | apply Keeps.foldl | apply Mem.foldl_wf | apply Core.foldl_wired | apply Mem.write_wf
        | apply State.barWrite_keeps | refine State.hostLine_keeps (by assumption) ?_ | apply Keeps.ite)
    | extract_lets | intro _ | split | dsimp only | with_reducible apply Keeps.lit

theorem State.hostAtomic_keeps {r0 s : State} (hk : Keeps r0 s) (fn : Nat) (addr : W64) (bits : Nat) (what : HomeDo) : Keeps r0 (State.hostAtomic s fn addr bits what) := by
  unfold State.hostAtomic
  repeat' first
    | (with_reducible first
        | assumption | apply Keeps.modEng | apply State.say_keeps | apply State.hostStop_keeps | apply Keeps.ite)
    | extract_lets | intro _ | split | dsimp only | with_reducible apply Keeps.lit

theorem execHostFetchadd_keeps {r0 s : State} (hk : Keeps r0 s) (fn : Nat) (addr : W64) (bits : Nat) (x : W64) : Keeps.Res r0 (execHostFetchadd fn addr bits x s) := by
  unfold execHostFetchadd
  repeat' first
    | (with_reducible first
        | assumption | apply State.hostAtomic_keeps | apply Keeps.next | apply Keeps.Res.ite | apply Keeps.ite)
    | extract_lets | intro _ | split | dsimp only | with_reducible apply Keeps.lit

theorem execHostSwap_keeps {r0 s : State} (hk : Keeps r0 s) (fn : Nat) (addr : W64) (bits : Nat) (x : W64) : Keeps.Res r0 (execHostSwap fn addr bits x s) := by
  unfold execHostSwap
  repeat' first
    | (with_reducible first
        | assumption | apply State.hostAtomic_keeps | apply Keeps.next | apply Keeps.Res.ite | apply Keeps.ite)
    | extract_lets | intro _ | split | dsimp only | with_reducible apply Keeps.lit

theorem execHostCas_keeps {r0 s : State} (hk : Keeps r0 s) (fn : Nat) (addr : W64) (bits : Nat) (cmp x : W64) : Keeps.Res r0 (execHostCas fn addr bits cmp x s) := by
  unfold execHostCas
  repeat' first
    | (with_reducible first
        | assumption | apply State.hostAtomic_keeps | apply Keeps.next | apply Keeps.Res.ite | apply Keeps.ite)
    | extract_lets | intro _ | split | dsimp only | with_reducible apply Keeps.lit

theorem State.placeEntry_keeps {r0 s t : State} {j : Nat} {q : BitVec 2} {bs : List Byte} (e : s.placeEntry j q bs = some t)
    (hk : Keeps r0 s) : Keeps r0 t := by
  unfold State.placeEntry okThen at e
  dsimp only at e
  split at e
  · cases e
  · obtain rfl := Option.some.inj e
    exact State.placedEntry_keeps (State.ioWrite_keeps ‹_› hk) _ _

theorem State.answerEntry_keeps {r0 s : State} (hk : Keeps r0 s) (qp : Nat) (r : QPair) (bs : List Byte) {back : State}
    (hb : Keeps r0 back) : Keeps r0 (s.answerEntry qp r bs back) := by
  unfold State.answerEntry
  split
  · exact State.say_keeps (State.placeEntry_keeps ‹_› hk) _
  · exact State.say_keeps hb _

theorem execRoceSend_keeps {r0 s : State} (hk : Keeps r0 s) (qp : Nat) (payload : List Byte) (imm : Option (BitVec 32)) : Keeps.Res r0 (execRoceSend qp payload imm s) := by
  unfold execRoceSend
  repeat' first
    | (with_reducible first
        | assumption | apply State.say_keeps | apply State.answerEntry_keeps | apply Keeps.next | apply Keeps.Res.ite
        | apply Keeps.ite)
    | extract_lets | intro _ | split | dsimp only | with_reducible apply Keeps.lit

theorem execRoceRdmaWriteWithImmediate_keeps {r0 s : State} (hk : Keeps r0 s) (qp : Nat) (mkey : BitVec 32) (addr : W64) (payload : List Byte) (imm : BitVec 32) : Keeps.Res r0 (execRoceRdmaWriteWithImmediate qp mkey addr payload imm s) := by
  unfold execRoceRdmaWriteWithImmediate
  repeat' first
    | (with_reducible first
        | assumption | apply State.say_keeps | apply okThen_keeps | refine State.ioWrite_keeps (by assumption) ?_
        | refine State.ioWriteE_keeps (by assumption) ?_ | apply State.answerEntry_keeps | apply Keeps.next
        | apply Keeps.Res.ite | apply Keeps.ite)
    | (with_reducible refine State.ioWriteP_keeps (by with_reducible assumption) ?_) | extract_lets | intro _ | split
    | dsimp only | with_reducible apply Keeps.lit

theorem execUdpRequestFrame_keeps {r0 s : State} (hk : Keeps r0 s) (header payload : List Byte) : Keeps.Res r0 (execUdpRequestFrame header payload s) := by
  unfold execUdpRequestFrame
  repeat' first
    | (with_reducible first
        | assumption | apply Mem.set_wf | apply State.modJetton_keeps | refine State.placeEntry_keeps (by assumption) ?_
        | apply Keeps.next | apply Keeps.Res.ite | apply Keeps.ite)
    | extract_lets | intro _ | split | dsimp only | with_reducible apply Keeps.lit

theorem execTimetableDifference_keeps {r0 s : State} (hk : Keeps r0 s) (tth : BitVec 16) (base new : List Byte) (entries : List DiffEntry) (img : Timetable) : Keeps.Res r0 (execTimetableDifference tth base new entries img s) := by
  unfold execTimetableDifference
  repeat' first
    | (with_reducible first
        | assumption | apply Keeps.modDisp | apply State.say_keeps | apply Keeps.next | apply Keeps.Res.ite | apply Keeps.ite)
    | extract_lets | intro _ | split | dsimp only | with_reducible apply Keeps.lit

end Sys2Proof.Machine
end

