-- ==== Sys2Proof/Laws/KeepsPhysical.lean ====
section
/-!
SUPPORT. `Keeps` for the operations and meanings of Machine/Physical.lean.
-/
namespace Sys2Proof.Machine

open Sys2Proof

theorem State.setScan_keeps {r0 s : State} (hk : Keeps r0 s) (i : Nat) (x : Scan) : Keeps r0 (State.setScan s i x) := by
  unfold State.setScan
  repeat' first
    | (with_reducible first | assumption | apply Keeps.modDisp | apply Keeps.ite) | extract_lets | intro _ | split
    | dsimp only | with_reducible apply Keeps.lit

theorem State.scanTurns_keeps {r0 s : State} (hk : Keeps r0 s) : Keeps r0 (State.scanTurns s) := by
  unfold State.scanTurns
  repeat' first
    | (with_reducible first
        | assumption | apply Keeps.foldl | apply Mem.foldl_wf | apply Core.foldl_wired | apply State.setScan_keeps
        | apply Keeps.ite)
    | extract_lets | intro _ | split | dsimp only | with_reducible apply Keeps.lit

theorem State.writeCmd_keeps {r0 s : State} (hk : Keeps r0 s) (i : Nat) (cmd : BitVec 3) : Keeps r0 (State.writeCmd s i cmd) := by
  unfold State.writeCmd
  repeat' first
    | (with_reducible first | assumption | apply State.setScan_keeps | apply Keeps.ite) | extract_lets | intro _ | split
    | dsimp only | with_reducible apply Keeps.lit

theorem execScanHold_keeps {r0 s : State} (hk : Keeps r0 s) (core : Nat) : Keeps.Res r0 (execScanHold core s) := by
  unfold execScanHold
  repeat' first
    | (with_reducible first
        | assumption | apply State.writeCmd_keeps | apply Keeps.next | apply Keeps.Res.ite | apply Keeps.ite)
    | extract_lets | intro _ | split | dsimp only | with_reducible apply Keeps.lit

theorem execScanStart_keeps {r0 s : State} (hk : Keeps r0 s) (core : Nat) : Keeps.Res r0 (execScanStart core s) := by
  unfold execScanStart
  repeat' first
    | (with_reducible first
        | assumption | apply State.writeCmd_keeps | apply Keeps.next | apply Keeps.Res.ite | apply Keeps.ite)
    | extract_lets | intro _ | split | dsimp only | with_reducible apply Keeps.lit

theorem execScanRelease_keeps {r0 s : State} (hk : Keeps r0 s) (core : Nat) : Keeps.Res r0 (execScanRelease core s) := by
  unfold execScanRelease
  repeat' first
    | (with_reducible first
        | assumption | apply State.writeCmd_keeps | apply Keeps.next | apply Keeps.Res.ite | apply Keeps.ite)
    | extract_lets | intro _ | split | dsimp only | with_reducible apply Keeps.lit

theorem execScanDrainEnd_keeps {r0 s : State} (hk : Keeps r0 s) (core : Nat) : Keeps.Res r0 (execScanDrainEnd core s) := by
  unfold execScanDrainEnd
  repeat' first
    | (with_reducible first
        | assumption | apply State.setScan_keeps | apply Keeps.next | apply Keeps.Res.ite | apply Keeps.ite)
    | extract_lets | intro _ | split | dsimp only | with_reducible apply Keeps.lit

theorem State.runPattern_keeps {r0 s : State} (hk : Keeps r0 s) (i : Nat) : Keeps r0 (State.runPattern s i) := by
  unfold State.runPattern
  repeat' first
    | (with_reducible first
        | assumption | apply Keeps.mem | apply Keeps.foldl | apply Mem.foldl_wf | apply Core.foldl_wired | apply Mem.set_wf
        | apply State.scrubCore_keeps | apply Keeps.ite)
    | extract_lets | intro _ | (with_reducible first | apply Mem.ite_wf | apply Mem.lit_wf) | split
    | (have hg := ‹State.good _›; with_reducible exact (hg.getCore _).same rfl rfl) | dsimp only
    | with_reducible apply Keeps.lit | with_reducible apply Keeps.litMem

theorem execScanRunEnd_keeps {r0 s : State} (hk : Keeps r0 s) (core : Nat) : Keeps.Res r0 (execScanRunEnd core s) := by
  unfold execScanRunEnd
  repeat' first
    | (with_reducible first
        | assumption | apply State.setScan_keeps | apply State.runPattern_keeps | apply Keeps.next | apply Keeps.Res.ite
        | apply Keeps.ite)
    | extract_lets | intro _ | split | dsimp only | with_reducible apply Keeps.lit

theorem execScanScrubEnd_keeps {r0 s : State} (hk : Keeps r0 s) (core : Nat) : Keeps.Res r0 (execScanScrubEnd core s) := by
  unfold execScanScrubEnd
  repeat' first
    | (with_reducible first
        | assumption | apply Keeps.modCore | apply State.scrubCore_keeps | apply State.setScan_keeps | apply Keeps.next
        | apply Keeps.Res.ite | apply Keeps.ite)
    | extract_lets | intro _ | split | (have hw := ‹Core.wired _›; with_reducible exact hw.same rfl rfl) | dsimp only
    | with_reducible apply Keeps.lit

theorem execDieReset_keeps {r0 s : State} (hk : Keeps r0 s) (die : BitVec 4) : Keeps.Res r0 (execDieReset die s) := by
  unfold execDieReset
  repeat' first
    | (with_reducible first
        | assumption | apply Keeps.modDisp | apply Keeps.modCore | apply Keeps.foldl | apply Mem.foldl_wf
        | apply Core.foldl_wired | apply State.scrubCore_keeps | apply Keeps.next | apply Keeps.Res.ite | apply Keeps.ite)
    | extract_lets | intro _ | split | (have hw := ‹Core.wired _›; with_reducible exact hw.same rfl rfl) | dsimp only
    | with_reducible apply Keeps.lit

theorem execPowerCapHold_keeps {r0 s : State} (hk : Keeps r0 s) (watts : Nat) : Keeps.Res r0 (execPowerCapHold watts s) := by
  unfold execPowerCapHold
  repeat' first
    | (with_reducible first | assumption | apply Keeps.next | apply Keeps.Res.ite | apply Keeps.ite) | extract_lets | intro _
    | split | dsimp only | with_reducible apply Keeps.lit

theorem execThermalHold_keeps {r0 s : State} (hk : Keeps r0 s) (die : BitVec 4) (celsius : Nat) : Keeps.Res r0 (execThermalHold die celsius s) := by
  unfold execThermalHold
  repeat' first
    | (with_reducible first | assumption | apply Keeps.next | apply Keeps.Res.ite | apply Keeps.ite) | extract_lets | intro _
    | split | dsimp only | with_reducible apply Keeps.lit

theorem execSensorUpdate_keeps {r0 s : State} (hk : Keeps r0 s) (sensor value : Nat) : Keeps.Res r0 (execSensorUpdate sensor value s) := by
  unfold execSensorUpdate
  repeat' first
    | (with_reducible first | assumption | apply Keeps.next | apply Keeps.Res.ite | apply Keeps.ite) | extract_lets | intro _
    | split | dsimp only | with_reducible apply Keeps.lit

theorem State.reset_good : State.reset.good :=
  ⟨rfl, ⟨trivial, fun _ h => nomatch h⟩, Core.reset_wired, fun _ h => nomatch h⟩

theorem State.powered_keeps {r0 s : State} (_ : Keeps r0 s) (prompt token : BitVec 1024) : Keeps r0 (s.powered prompt token) := by
  have h : Keeps r0 State.reset := ⟨fun _ => State.reset_good, .inr ⟨rfl, rfl⟩⟩
  unfold State.powered
  exact Keeps.lit (Keeps.modDisp h)

theorem execPowerUp_keeps {r0 s : State} (hk : Keeps r0 s) (pass : BitVec 2048) : Keeps.Res r0 (execPowerUp pass s) := by
  unfold execPowerUp
  repeat' first
    | (with_reducible first
        | assumption | apply State.powered_keeps | apply Keeps.next | apply Keeps.Res.ite | apply Keeps.ite)
    | extract_lets | intro _ | split | dsimp only | with_reducible apply Keeps.lit

theorem execCoreRegulatorTrip_keeps {r0 s : State} (hk : Keeps r0 s) : Keeps.Res r0 (execCoreRegulatorTrip s) := by
  unfold execCoreRegulatorTrip
  repeat' first
    | (with_reducible first
        | assumption | apply State.powered_keeps | apply Keeps.next | apply Keeps.Res.ite | apply Keeps.ite)
    | extract_lets | intro _ | split | dsimp only | with_reducible apply Keeps.lit

theorem execThermalReset_keeps {r0 s : State} (hk : Keeps r0 s) : Keeps.Res r0 (execThermalReset s) := by
  unfold execThermalReset
  repeat' first
    | (with_reducible first
        | assumption | apply State.powered_keeps | apply Keeps.next | apply Keeps.Res.ite | apply Keeps.ite)
    | extract_lets | intro _ | split | dsimp only | with_reducible apply Keeps.lit

theorem State.bootProcessor_keeps {r0 s : State} (hk : Keeps r0 s) (p : Nat) : Keeps r0 (s.bootProcessor p) :=
  Keeps.modCore hk _ fun _ _ => Core.reset_wired.same rfl rfl

theorem execFirmwareImageLoad_keeps {r0 s : State} (hk : Keeps r0 s) (hdr body sig : List Byte) : Keeps.Res r0 (execFirmwareImageLoad hdr body sig s) := by
  unfold execFirmwareImageLoad
  repeat' first
    | (with_reducible first
        | assumption | apply Keeps.mem | apply Keeps.foldl | apply Mem.foldl_wf | apply Core.foldl_wired | apply Mem.write_wf
        | apply State.say_keeps | apply State.bootProcessor_keeps | apply Keeps.next | apply Keeps.Res.ite | apply Keeps.ite)
    | extract_lets | intro _ | (with_reducible first | apply Mem.ite_wf | apply Mem.lit_wf) | split | dsimp only
    | with_reducible apply Keeps.lit | with_reducible apply Keeps.litMem

theorem execAttestationRequest_keeps {r0 s : State} (hk : Keeps r0 s) (nonce : List Byte) (world : BitVec 16) : Keeps.Res r0 (execAttestationRequest nonce world s) := by
  unfold execAttestationRequest
  repeat' first
    | (with_reducible first | assumption | apply State.say_keeps | apply Keeps.next | apply Keeps.Res.ite | apply Keeps.ite)
    | extract_lets | intro _ | split | dsimp only | with_reducible apply Keeps.lit

theorem execCertificateRequest_keeps {r0 s : State} (hk : Keeps r0 s) : Keeps.Res r0 (execCertificateRequest s) := by
  unfold execCertificateRequest
  repeat' first
    | (with_reducible first | assumption | apply State.say_keeps | apply Keeps.next | apply Keeps.Res.ite | apply Keeps.ite)
    | extract_lets | intro _ | split | dsimp only | with_reducible apply Keeps.lit

theorem execFlitCrcReplay_keeps {r0 s : State} (hk : Keeps r0 s) (port : BitVec 5) (seq : Nat) : Keeps.Res r0 (execFlitCrcReplay port seq s) := by
  unfold execFlitCrcReplay
  repeat' first
    | (with_reducible first
        | assumption | apply State.replay_keeps | apply Keeps.next | apply Keeps.Res.ite | apply Keeps.ite)
    | extract_lets | intro _ | split | dsimp only | with_reducible apply Keeps.lit

theorem execPortRetrain_keeps {r0 s : State} (hk : Keeps r0 s) (port : BitVec 5) (up : Bool) : Keeps.Res r0 (execPortRetrain port up s) := by
  unfold execPortRetrain
  repeat' first
    | (with_reducible first | assumption | apply Keeps.next | apply Keeps.Res.ite | apply Keeps.ite) | extract_lets | intro _
    | split | dsimp only | with_reducible apply Keeps.lit

end Sys2Proof.Machine
end

