-- ==== Sys2Proof/Laws/KeepsService.lean ====
section
/-!
SUPPORT. `Keeps` for the operations and meanings of Machine/Service.lean.
-/
namespace Sys2Proof.Machine

open Sys2Proof

theorem State.unmapped_keeps {r0 s : State} (hk : Keeps r0 s) (j : Nat) (pc : BitVec 12) (va : W64) (src issue : Nat) : Keeps r0 (State.unmapped s j pc va src issue) := by
  unfold State.unmapped
  repeat' first
    | (with_reducible first | assumption | apply State.endRequest_keeps | apply Keeps.ite) | extract_lets | intro _ | split
    | dsimp only | with_reducible apply Keeps.lit

theorem State.serve_keeps {r0 s : State} (hk : Keeps r0 s) (x : Xlate) (mapped : Bool) : Keeps r0 (State.serve s x mapped) := by
  unfold State.serve
  repeat' first
    | (with_reducible first
        | assumption | apply State.at__keeps | apply State.modCopy_keeps | apply State.record_keeps
        | apply State.schedule_keeps | apply State.queueStop_keeps | apply State.endCopy_keeps
        | apply State.finishRecord_keeps | apply State.sealLost_keeps | apply State.releaseColl_keeps
        | apply State.collective_keeps | apply State.modQueue_keeps | apply State.unmapped_keeps | apply Keeps.ite)
    | extract_lets | intro _ | split | (have hg := ‹State.good _›; with_reducible exact (hg.getCore _).same rfl rfl)
    | dsimp only | with_reducible apply Keeps.lit

theorem execXlateService_keeps {r0 s : State} (hk : Keeps r0 s) (world : Nat) (va : W64) (mapped : Bool) : Keeps.Res r0 (execXlateService world va mapped s) := by
  unfold execXlateService
  repeat' first
    | (with_reducible first
        | assumption | apply Keeps.modDisp | apply Keeps.foldl | apply Mem.foldl_wf | apply Core.foldl_wired
        | apply State.serve_keeps | apply Keeps.next | apply Keeps.Res.ite | apply Keeps.ite)
    | extract_lets | intro _ | split | dsimp only | with_reducible apply Keeps.lit

theorem State.placeSegment_keeps {r0 s : State} (hk : Keeps r0 s) (digest : List Byte) (world : Nat) (want : Bool) : Keeps r0 (State.placeSegment s digest world want) := by
  unfold State.placeSegment
  repeat' first
    | (with_reducible first | assumption | apply Keeps.modEng | apply State.modSegment_keeps | apply Keeps.ite) | extract_lets
    | intro _ | split | dsimp only | with_reducible apply Keeps.lit

theorem State.writeWeightMap_keeps {r0 s : State} (hk : Keeps r0 s) (w k : Nat) (digest : List Byte) (on : Bool) : Keeps r0 (State.writeWeightMap s w k digest on) := by
  unfold State.writeWeightMap
  repeat' first
    | (with_reducible first | assumption | apply State.setPrefix_keeps | apply State.modSegment_keeps | apply Keeps.ite)
    | extract_lets | intro _ | split | dsimp only | with_reducible apply Keeps.lit

theorem execRegisterWrite_keeps {r0 s : State} (hk : Keeps r0 s) (r : RegTarget) (value : BitVec 256) : Keeps.Res r0 (execRegisterWrite r value s) := by
  unfold execRegisterWrite
  repeat' first
    | (with_reducible first
        | assumption | apply Keeps.modDisp | apply Keeps.modCore | apply Mem.write_wf | apply State.modWorld_keeps
        | apply State.put_keeps | apply State.setPrefix_keeps | apply State.writeJetton_keeps | apply State.modSegment_keeps
        | apply State.listSegment_keeps | apply State.setScan_keeps | apply State.writeCmd_keeps
        | apply State.placeSegment_keeps | apply State.writeWeightMap_keeps | apply Keeps.next | apply Keeps.Res.ite
        | apply Keeps.ite)
    | extract_lets | intro _ | split | (have hw := ‹Core.wired _›; with_reducible exact hw.same rfl rfl) | dsimp only
    | with_reducible apply Keeps.lit

theorem execPluginCallTimeout_keeps {r0 s : State} (hk : Keeps r0 s) (fp : Nat) : Keeps.Res r0 (execPluginCallTimeout fp s) := by
  unfold execPluginCallTimeout
  repeat' first
    | (with_reducible first | assumption | apply Keeps.modCore | apply Keeps.next | apply Keeps.Res.ite | apply Keeps.ite)
    | extract_lets | intro _ | split | (have hw := ‹Core.wired _›; with_reducible exact hw.same rfl rfl) | dsimp only
    | with_reducible apply Keeps.lit

end Sys2Proof.Machine
end

