-- ==== Sys2Proof/Laws/KeepsCycle.lean ====
section
/-!
SUPPORT. `Keeps` for the operations and meanings of Machine/Cycle.lean.
-/
namespace Sys2Proof.Machine

open Sys2Proof

/-- What the machine does next keeps: the state on which an instruction runs, or the state passed to. -/
def Keeps.Next (r : State) : Pick → Prop
  | .run _ t => Keeps r t
  | .quiet t => Keeps r t

theorem State.fates_keeps {r0 s : State} (hk : Keeps r0 s) : Keeps r0 (State.fates s) := by
  unfold State.fates
  repeat' first
    | (with_reducible first
        | assumption | apply Keeps.modCore | apply Keeps.foldl | apply Mem.foldl_wf | apply Core.foldl_wired
        | apply Core.noteFault_wired | apply State.fate_keeps | apply Keeps.ite)
    | extract_lets | intro _ | split | (have hw := ‹Core.wired _›; with_reducible exact hw.same rfl rfl)
    | (have hg := ‹State.good _›; with_reducible exact (hg.getCore _).same rfl rfl) | dsimp only
    | with_reducible apply Keeps.lit

theorem State.commitAll_keeps {r0 s : State} (hk : Keeps r0 s) : Keeps r0 (State.commitAll s) := by
  unfold State.commitAll
  repeat' first
    | (with_reducible first
        | assumption | apply Keeps.focus | apply Keeps.foldl | apply Mem.foldl_wf | apply Core.foldl_wired
        | apply State.placeStarts_keeps | apply State.commit_keeps | apply Keeps.ite)
    | extract_lets | intro _ | split | dsimp only | with_reducible apply Keeps.lit

theorem State.openCycle_keeps {r0 s : State} (hk : Keeps r0 s) : Keeps r0 (State.openCycle s) := by
  unfold State.openCycle
  repeat' first
    | (with_reducible first
        | assumption | apply State.mailboxTurn_keeps | apply State.watchTop_keeps | apply State.dropSignals_keeps | apply State.enterHalts_keeps
        | apply State.flrAll_keeps | apply State.irqAll_keeps | apply State.faultedAll_keeps | apply State.migrateAll_keeps
        | apply Keeps.ite)
    | extract_lets | intro _ | split | dsimp only | with_reducible apply Keeps.lit

theorem State.inputNext_keeps {r0 s : State} {at_ : InputAt} {p : Pick} (e : s.inputNext at_ = some p) (hk : Keeps r0 s) :
    Keeps.Next r0 p := by
  unfold State.inputNext at e
  simp only [Option.bind_eq_some_iff, Option.map_eq_some_iff] at e
  obtain ⟨_, -, x, -, rfl⟩ := e
  split
  · exact Keeps.lit hk
  · exact Keeps.lit hk

theorem State.agendaNext_keeps {r0 s : State} {k : Slot?} {ok : Instr → Bool} {p : Pick} (e : s.agendaNext k ok = some p)
    (hk : Keeps r0 s) : Keeps.Next r0 p := by
  unfold State.agendaNext at e
  simp only [Option.map_eq_some_iff] at e
  obtain ⟨x, -, rfl⟩ := e
  exact Keeps.lit hk

theorem State.accAll_keeps {r0 s : State} (hk : Keeps r0 s) : Keeps r0 (State.accAll s) := by
  unfold State.accAll
  repeat' first
    | (with_reducible first
        | assumption | apply Keeps.modIss | apply Keeps.focus | apply Keeps.foldl | apply Mem.foldl_wf
        | apply Core.foldl_wired | apply State.accWrite_keeps | apply Keeps.ite)
    | extract_lets | intro _ | split | (have hg := ‹State.good _›; with_reducible exact (hg.getCore _).same rfl rfl)
    | dsimp only | with_reducible apply Keeps.lit

theorem State.clashAt_keeps {r0 s : State} (hk : Keeps r0 s) (i : Nat) : Keeps r0 (State.clashAt s i) := by
  unfold State.clashAt
  repeat' first
    | (with_reducible first
        | assumption | apply Keeps.modCore | apply Keeps.focus | apply Keeps.foldl | apply Mem.foldl_wf
        | apply Core.foldl_wired | apply State.raise_keeps | apply Keeps.ite)
    | extract_lets | intro _ | split | (have hw := ‹Core.wired _›; with_reducible exact hw.same rfl rfl)
    | (have hg := ‹State.good _›; with_reducible exact (hg.getCore _).same rfl rfl) | dsimp only
    | with_reducible apply Keeps.lit

theorem State.laterAt_keeps {r0 s : State} (hk : Keeps r0 s) (i : Nat) : Keeps r0 (State.laterAt s i) := by
  unfold State.laterAt
  repeat' first
    | (with_reducible first
        | assumption | apply Keeps.modIss | apply Keeps.focus | apply Keeps.foldl | apply Mem.foldl_wf
        | apply Core.foldl_wired | apply State.raise_keeps | apply Keeps.ite)
    | extract_lets | intro _ | split | (have hg := ‹State.good _›; with_reducible exact (hg.getCore _).same rfl rfl)
    | dsimp only | with_reducible apply Keeps.lit

theorem State.raiseAll_keeps {r0 s : State} (hk : Keeps r0 s) : Keeps r0 (State.raiseAll s) := by
  unfold State.raiseAll
  repeat' first
    | (with_reducible first
        | assumption | apply Keeps.foldl | apply Mem.foldl_wf | apply Core.foldl_wired | apply State.clashAt_keeps
        | apply State.laterAt_keeps | apply Keeps.ite)
    | extract_lets | intro _ | split | dsimp only | with_reducible apply Keeps.lit

theorem State.saveAll_keeps {r0 s : State} (hk : Keeps r0 s) : Keeps r0 (State.saveAll s) := by
  unfold State.saveAll
  repeat' first
    | (with_reducible first
        | assumption | apply Keeps.foldl | apply Mem.foldl_wf | apply Core.foldl_wired | apply State.saveCopies_keeps
        | apply Keeps.ite)
    | extract_lets | intro _ | split | (have hg := ‹State.good _›; with_reducible exact (hg.getCore _).same rfl rfl)
    | dsimp only | with_reducible apply Keeps.lit

theorem State.loadAll_keeps {r0 s : State} (hk : Keeps r0 s) : Keeps r0 (State.loadAll s) := by
  unfold State.loadAll
  repeat' first
    | (with_reducible first
        | assumption | apply Keeps.focus | apply Keeps.foldl | apply Mem.foldl_wf | apply Core.foldl_wired
        | apply State.loaderStep_keeps | apply Keeps.ite)
    | extract_lets | intro _ | split | (have hg := ‹State.good _›; with_reducible exact (hg.getCore _).same rfl rfl)
    | dsimp only | with_reducible apply Keeps.lit

theorem State.fetchDamage_keeps {r0 s : State} (hk : Keeps r0 s) (a : Nat) (unit : Option Nat) : Keeps r0 (State.fetchDamage s a unit) := by
  unfold State.fetchDamage
  repeat' first
    | (with_reducible first | assumption | apply Keeps.mem | apply Keeps.modBnd | apply Mem.markPoison_wf | apply Keeps.ite)
    | extract_lets | intro _ | (with_reducible first | apply Mem.ite_wf | apply Mem.lit_wf) | split | dsimp only
    | with_reducible apply Keeps.lit | with_reducible apply Keeps.litMem

theorem State.columnTurn_word {r0 s t : State} {k : Option Col} {i : Instr} (e : s.columnTurn k = .word i t) (hk : Keeps r0 s) :
    Keeps r0 t := by
  unfold State.columnTurn at e
  dsimp only at e
  repeat' split at e
  all_goals first
    | (cases e; done)
    | (obtain ⟨-, rfl⟩ := Turn.word.inj e; first | exact Keeps.modIss hk | exact State.modCol_keeps hk _ _)

theorem State.columnTurn_stop {r0 s t : State} {k : Option Col} (e : s.columnTurn k = .stop t) (hk : Keeps r0 s) : Keeps r0 t := by
  unfold State.columnTurn at e
  dsimp only at e
  repeat' split at e
  all_goals first
    | (cases e; done)
    | (obtain rfl := Turn.stop.inj e
       first
         | exact hk
         | exact Keeps.modIss (State.ctlFault_keeps hk _ _ _ _)
         | exact State.ctlFault_keeps (State.fetchDamage_keeps hk _ _) _ _ _ _
         | exact State.colFault_keeps (State.fetchDamage_keeps hk _ _) _ _ _)

theorem State.voidClaim_keeps {r0 s : State} (hk : Keeps r0 s) (x : PortClaim) : Keeps r0 (State.voidClaim s x) := by
  unfold State.voidClaim
  repeat' first
    | (with_reducible first
        | assumption | apply Keeps.modIss | apply State.undo_keeps | apply State.dropFollow_keeps | apply Keeps.ite)
    | extract_lets | intro _ | split | dsimp only | with_reducible apply Keeps.lit

theorem State.setTurn_keeps {r0 s : State} (hk : Keeps r0 s) (l : List (Option Col)) : Keeps r0 (State.setTurn s l) := by
  unfold State.setTurn
  repeat' first
    | (with_reducible first | assumption | apply Keeps.modIss | apply Keeps.ite) | extract_lets | intro _ | split | dsimp only
    | with_reducible apply Keeps.lit

theorem State.prefetch_keeps {r0 s : State} (hk : Keeps r0 s) (l : List (Option Col)) : Keeps r0 (s.prefetch l) := by
  unfold State.prefetch
  refine Keeps.foldl (fun t k ht => ?_) _ hk
  split
  · exact ht
  · split
    · exact State.modCol_keeps ht _ _
    · exact ht

theorem State.decide_keeps {r0 s : State} (hk : Keeps r0 s) : Keeps r0 s.decide := by
  unfold State.decide
  extract_lets due clean ts claims rows cl out clashing own slips all best t
  have ht : Keeps r0 t := Keeps.foldl (fun t x ht => State.voidClaim_keeps ht x) _ hk
  clear_value best due t
  split
  · exact State.setTurn_keeps (State.prefetch_keeps ht _) _
  · exact State.setTurn_keeps ht _
  · exact State.setTurn_keeps (State.raise_keeps ht _) _

theorem State.columnNext_keeps {r0 s : State} {p : Pick} (e : s.columnNext = some p) (hk : Keeps r0 s) : Keeps.Next r0 p := by
  unfold State.columnNext at e
  obtain ⟨i, -, e⟩ := List.exists_of_findSome?_eq_some e
  have ht : Keeps r0 (s.focus i) := Keeps.focus hk i
  generalize s.focus i = t at e ht
  dsimp only at e
  split at e
  · split at e
    · cases e
    · obtain rfl := Option.some.inj e; exact State.decide_keeps ht
  · cases e
  · obtain rfl := Option.some.inj e
    split
    · exact State.columnTurn_word ‹_› (State.setTurn_keeps ht _)
    · exact State.columnTurn_stop ‹_› (State.setTurn_keeps ht _)

theorem State.voidEnded_keeps {r0 s : State} (hk : Keeps r0 s) : Keeps r0 (State.voidEnded s) := by
  unfold State.voidEnded
  repeat' first
    | (with_reducible first
        | assumption | apply Keeps.foldl | apply Mem.foldl_wf | apply Core.foldl_wired | apply Core.voidClaims_wired
        | apply State.voidClaims_keeps | apply Keeps.ite)
    | extract_lets | intro _ | split | (have hg := ‹State.good _›; with_reducible exact (hg.getCore _).same rfl rfl)
    | dsimp only | with_reducible apply Keeps.lit

/-- What the end of a cycle does before the time moves on. -/
theorem State.closing_keeps {r0 s : State} (hk : Keeps r0 s) :
    Keeps r0 ((s.voidEnded.anchorAll.ingressAll.takeSlots (s.voidEnded.tb + 1)).debugTick) :=
  State.debugTick_keeps (State.takeSlots_keeps (State.ingressAll_keeps (State.anchorAll_keeps (State.voidEnded_keeps hk))) _)

end Sys2Proof.Machine
end

