-- ==== Sys2Proof/Laws/KeepsExec.lean ====
section
/-!
SUPPORT. Every instruction answers a next state, and keeps: the law of `exec`.
-/
namespace Sys2Proof.Machine

open Sys2Proof

/-- What every instruction does to every state: it answers a next state, good if the state was. -/
theorem exec_keeps {r0 s : State} (hk : Keeps r0 s) (i : Instr) : Keeps.Res r0 (exec i s) := by
  cases i with
  | add d a b => exact execAdd_keeps hk d a b
  | sub d a b => exact execSub_keeps hk d a b
  | and d a b => exact execAnd_keeps hk d a b
  | or d a b => exact execOr_keeps hk d a b
  | xor d a b => exact execXor_keeps hk d a b
  | andn d a b => exact execAndn_keeps hk d a b
  | shl d a b => exact execShl_keeps hk d a b
  | shrl d a b => exact execShrl_keeps hk d a b
  | shra d a b => exact execShra_keeps hk d a b
  | rotl d a b => exact execRotl_keeps hk d a b
  | min d a b => exact execMin_keeps hk d a b
  | max d a b => exact execMax_keeps hk d a b
  | minu d a b => exact execMinu_keeps hk d a b
  | maxu d a b => exact execMaxu_keeps hk d a b
  | addi d a imm => exact execAddi_keeps hk d a imm
  | andi d a imm => exact execAndi_keeps hk d a imm
  | ori d a imm => exact execOri_keeps hk d a imm
  | xori d a imm => exact execXori_keeps hk d a imm
  | shli d a sh => exact execShli_keeps hk d a sh
  | shrli d a sh => exact execShrli_keeps hk d a sh
  | shrai d a sh => exact execShrai_keeps hk d a sh
  | movi d imm => exact execMovi_keeps hk d imm
  | movhi d imm => exact execMovhi_keeps hk d imm
  | mov d a => exact execMov_keeps hk d a
  | clz d a => exact execClz_keeps hk d a
  | ctz d a => exact execCtz_keeps hk d a
  | popc d a => exact execPopc_keeps hk d a
  | sext d a n1 => exact execSext_keeps hk d a n1
  | bfx d a pos len1 => exact execBfx_keeps hk d a pos len1
  | bfi d a pos len1 => exact execBfi_keeps hk d a pos len1
  | sel d a b k => exact execSel_keeps hk d a b k
  | mort d a b => exact execMort_keeps hk d a b
  | umort d a => exact execUmort_keeps hk d a
  | mul d a b => exact execMul_keeps hk d a b
  | mulhs d a b => exact execMulhs_keeps hk d a b
  | mulhu d a b => exact execMulhu_keeps hk d a b
  | divs d a b => exact execDivs_keeps hk d a b
  | divu d a b => exact execDivu_keeps hk d a b
  | rems d a b => exact execRems_keeps hk d a b
  | remu d a b => exact execRemu_keeps hk d a b
  | cmp kd a b cond => exact execCmp_keeps hk kd a b cond
  | cmpi kd a imm cond => exact execCmpi_keeps hk kd a imm cond
  | kop kd ka kb op => exact execKop_keeps hk kd ka kb op
  | ld d c sz off => exact execLd_keeps hk d c sz off
  | lds d c sz off => exact execLds_keeps hk d c sz off
  | st d c sz off => exact execSt_keeps hk d c sz off
  | ldc cd c off => exact execLdc_keeps hk cd c off
  | stc cd c off => exact execStc_keeps hk cd c off
  | loadStallComplete core => exact execLoadStallComplete_keeps hk core
  | cbnd cd ca b => exact execCbnd_keeps hk cd ca b
  | cperm cd ca b => exact execCperm_keeps hk cd ca b
  | cadd cd ca b => exact execCadd_keeps hk cd ca b
  | cset cd ca b => exact execCset_keeps hk cd ca b
  | cget d ca field => exact execCget_keeps hk d ca field
  | cseal cd ca cb => exact execCseal_keeps hk cd ca cb
  | cunsl cd ca cb => exact execCunsl_keeps hk cd ca cb
  | ctst kd ca cb => exact execCtst_keeps hk kd ca cb
  | b k sense off => exact execB_keeps hk k sense off
  | j off => exact execJ_keeps hk off
  | jr a => exact execJr_keeps hk a
  | jf tag target => exact execJf_keeps hk tag target
  | call d off => exact execCall_keeps hk d off
  | ret a => exact execRet_keeps hk a
  | loop lvl count off => exact execLoop_keeps hk lvl count off
  | loopr lvl reg off => exact execLoopr_keeps hk lvl reg off
  | vrun addr cnt c t => exact execVrun_keeps hk addr cnt c t
  | mrun addr cnt c t => exact execMrun_keeps hk addr cnt c t
  | trun addr cnt c t => exact execTrun_keeps hk addr cnt c t
  | streamStart core col => exact execStreamStart_keeps hk core col
  | streamEndEvent core col => exact execStreamEndEvent_keeps hk core col
  | trap k sense code => exact execTrap_keeps hk k sense code
  | svc a code => exact execSvc_keeps hk a code
  | srd d num => exact execSrd_keeps hk d num
  | swr num a => exact execSwr_keeps hk num a
  | time d a tb => exact execTime_keeps hk d a tb
  | bkpt code => exact execBkpt_keeps hk code
  | aadd d c int32 off => exact execAadd_keeps hk d c int32 off
  | axch d c off => exact execAxch_keeps hk d c off
  | acas d c off => exact execAcas_keeps hk d c off
  | ald d c off => exact execAld_keeps hk d c off
  | ast d c off => exact execAst_keeps hk d c off
  | homeOperationAct id => exact execHomeOperationAct_keeps hk id
  | homeOperationReturn id => exact execHomeOperationReturn_keeps hk id
  | ssig d c scope off => exact execSsig_keeps hk d c scope off
  | sset d c off => exact execSset_keeps hk d c off
  | swait d c cond off => exact execSwait_keeps hk d c cond off
  | swaitConsume d c unsigned off => exact execSwaitConsume_keeps hk d c unsigned off
  | rel d c scope off => exact execRel_keeps hk d c scope off
  | acq d c cond scope off => exact execAcq_keeps hk d c cond scope off
  | homeWaitComplete id => exact execHomeWaitComplete_keeps hk id
  | rinit rn a => exact execRinit_keeps hk rn a
  | rclm d c rn n => exact execRclm_keeps hk d c rn n
  | rwfl d c rn n => exact execRwfl_keeps hk d c rn n
  | rwfr d c rn n => exact execRwfr_keeps hk d c rn n
  | rpub c rn n => exact execRpub_keeps hk c rn n
  | rrel c rn n => exact execRrel_keeps hk c rn n
  | rstat d c rn => exact execRstat_keeps hk d c rn
  | parv d lvl => exact execParv_keeps hk d lvl
  | pwait lvl a => exact execPwait_keeps hk lvl a
  | pbar lvl => exact execPbar_keeps hk lvl
  | phaseArrival dom core p => exact execPhaseArrival_keeps hk dom core p
  | phaseCopyRegistration dom id p => exact execPhaseCopyRegistration_keeps hk dom id p
  | phaseCopyLanding dom id p => exact execPhaseCopyLanding_keeps hk dom id p
  | phaseCopyWithdrawal dom id p => exact execPhaseCopyWithdrawal_keeps hk dom id p
  | phaseWaitComplete core => exact execPhaseWaitComplete_keeps hk core
  | fence scope => exact execFence_keeps hk scope
  | wevComplete core => exact execWevComplete_keeps hk core
  | carry d c off => exact execCarry_keeps hk d c off
  | cpy a b len card t => exact execCpy_keeps hk a b len card t
  | cpys a b len card t => exact execCpys_keeps hk a b len card t
  | cpyz a b len card t => exact execCpyz_keeps hk a b len card t
  | cpyc a b len card t => exact execCpyc_keeps hk a b len card t
  | cpyg a b len card t => exact execCpyg_keeps hk a b len card t
  | cpym a b len card t => exact execCpym_keeps hk a b len card t
  | cpya a b len card t => exact execCpya_keeps hk a b len card t
  | cpyx a b len card t => exact execCpyx_keeps hk a b len card t
  | cfch b len card t => exact execCfch_keeps hk b len card t
  | cwm d wm clear => exact execCwm_keeps hk d wm clear
  | ccan d k => exact execCcan_keeps hk d k
  | cstat d k => exact execCstat_keeps hk d k
  | copyEngineIssue id => exact execCopyEngineIssue_keeps hk id
  | copyBeatRead id => exact execCopyBeatRead_keeps hk id
  | copyBeatLand land => exact execCopyBeatLand_keeps hk land
  | copySemaphoreIncrement addr => exact execCopySemaphoreIncrement_keeps hk addr
  | copyRecordLanded core k id => exact execCopyRecordLanded_keeps hk core k id
  | followOnPresent id => exact execFollowOnPresent_keeps hk id
  | followOnStart core => exact execFollowOnStart_keeps hk core
  | vadd ty d a b mem st => exact execVadd_keeps hk ty d a b mem st
  | vsub ty d a b mem st => exact execVsub_keeps hk ty d a b mem st
  | vmul ty d a b mem st => exact execVmul_keeps hk ty d a b mem st
  | vfma ty d a b mem st => exact execVfma_keeps hk ty d a b mem st
  | vfms ty d a b mem st => exact execVfms_keeps hk ty d a b mem st
  | vmax ty d a b mem st => exact execVmax_keeps hk ty d a b mem st
  | vmin ty d a b mem st => exact execVmin_keeps hk ty d a b mem st
  | vcmp ty md cond a b mem st => exact execVcmp_keeps hk ty md cond a b mem st
  | vld d row st => exact execVld_keeps hk d row st
  | vst src m g row st => exact execVst_keeps hk src m g row st
  | vldb d l row st => exact execVldb_keeps hk d l row st
  | vldx d a row st => exact execVldx_keeps hk d a row st
  | vstx src a m row st => exact execVstx_keeps hk src a m row st
  | vmov form d a mem st => exact execVmov_keeps hk form d a mem st
  | vabs ty d a mem st => exact execVabs_keeps hk ty d a mem st
  | vneg ty d a mem st => exact execVneg_keeps hk ty d a mem st
  | vsel d a m g mem st => exact execVsel_keeps hk d a m g mem st
  | vand d a b mem st => exact execVand_keeps hk d a b mem st
  | vor d a b mem st => exact execVor_keeps hk d a b mem st
  | vxor d a b mem st => exact execVxor_keeps hk d a b mem st
  | vshl d a sh mem st => exact execVshl_keeps hk d a sh mem st
  | vshr d a sh mem st => exact execVshr_keeps hk d a sh mem st
  | vsra d a sh mem st => exact execVsra_keeps hk d a sh mem st
  | vcvt d a dt srcT h mem st => exact execVcvt_keeps hk d a dt srcT h mem st
  | vrcp ty d a mem st => exact execVrcp_keeps hk ty d a mem st
  | vrsq ty d a mem st => exact execVrsq_keeps hk ty d a mem st
  | vexp2 ty d a mem st => exact execVexp2_keeps hk ty d a mem st
  | vlg2 ty d a mem st => exact execVlg2_keeps hk ty d a mem st
  | vrsum ty d a mem st => exact execVrsum_keeps hk ty d a mem st
  | vrmax ty d a mem st => exact execVrmax_keeps hk ty d a mem st
  | vbmax a t f mem st => exact execVbmax_keeps hk a t f mem st
  | vqsc d k st => exact execVqsc_keeps hk d k st
  | vqcvt d a p t f mem st => exact execVqcvt_keeps hk d a p t f mem st
  | vshuf d a b g st => exact execVshuf_keeps hk d a b g st
  | viota d g st => exact execViota_keeps hk d g st
  | vbcst d a l st => exact execVbcst_keeps hk d a l st
  | vdfr a m g mem st => exact execVdfr_keeps hk a m g mem st
  | vdfd d e m st => exact execVdfd_keeps hk d e m st
  | vdfn d clear st => exact execVdfn_keeps hk d clear st
  | vnop st => exact execVnop_keeps hk st
  | tld t row st => exact execTld_keeps hk t row st
  | tseg ty d a h st => exact execTseg_keeps hk ty d a h st
  | tint ty d a h st => exact execTint_keeps hk ty d a h st
  | tqad ty d a h st => exact execTqad_keeps hk ty d a h st
  | tclmp ty d a h st => exact execTclmp_keeps hk ty d a h st
  | mcfg p g x st => exact execMcfg_keeps hk p g x st
  | mwld a src st => exact execMwld_keeps hk a src st
  | mwsw st => exact execMwsw_keeps hk st
  | mma a e acc st => exact execMma_keeps hk a e acc st
  | mmo a e acc st => exact execMmo_keeps hk a e acc st
  | mdrn d aw st => exact execMdrn_keeps hk d aw st
  | mzro acc st => exact execMzro_keeps hk acc st
  | mscl a j st => exact execMscl_keeps hk a j st
  | mnop st => exact execMnop_keeps hk st
  | kvhs a b => exact execKvhs_keeps hk a b
  | kvlk a b ref => exact execKvlk_keeps hk a b ref
  | kvin d a b => exact execKvin_keeps hk d a b
  | kvap b => exact execKvap_keeps hk b
  | kvrl d b => exact execKvrl_keeps hk d b
  | kvex d a b => exact execKvex_keeps hk d a b
  | kvim d a b => exact execKvim_keeps hk d a b
  | wseg a b => exact execWseg_keeps hk a b
  | wprf a => exact execWprf_keeps hk a
  | prefixCommandDepart id => exact execPrefixCommandDepart_keeps hk id
  | prefixCommandStart id => exact execPrefixCommandStart_keeps hk id
  | prefixCommandAct id => exact execPrefixCommandAct_keeps hk id
  | prefixResultWrite id => exact execPrefixResultWrite_keeps hk id
  | prefixCompletionCount id => exact execPrefixCompletionCount_keeps hk id
  | journalReply id => exact execJournalReply_keeps hk id
  | xseq d a b => exact execXseq_keeps hk d a b
  | xbar a b => exact execXbar_keeps hk a b
  | xcan d a b => exact execXcan_keeps hk d a b
  | xwait d a b => exact execXwait_keeps hk d a b
  | fabricWaitComplete core => exact execFabricWaitComplete_keeps hk core
  | xar a b len card t => exact execXar_keeps hk a b len card t
  | xag a b len card t => exact execXag_keeps hk a b len card t
  | xrs a b len card t => exact execXrs_keeps hk a b len card t
  | xata a b len card t => exact execXata_keeps hk a b len card t
  | collectiveEngineEntry id => exact execCollectiveEngineEntry_keeps hk id
  | collectiveStart comm n => exact execCollectiveStart_keeps hk comm n
  | collectiveComplete key => exact execCollectiveComplete_keeps hk key
  | heartbeat comm => exact execHeartbeat_keeps hk comm
  | heartbeatTimeout comm => exact execHeartbeatTimeout_keeps hk comm
  | selection token => exact execSelection_keeps hk token
  | starvationBar token => exact execStarvationBar_keeps hk token
  | taskStart core => exact execTaskStart_keeps hk core
  | taskEnd core => exact execTaskEnd_keeps hk core
  | taskRestart core => exact execTaskRestart_keeps hk core
  | completionRecordWrite jetton => exact execCompletionRecordWrite_keeps hk jetton
  | overrun core => exact execOverrun_keeps hk core
  | replayStart core => exact execReplayStart_keeps hk core
  | drainDivert core => exact execDrainDivert_keeps hk core
  | sealCore core => exact execSealCore_keeps hk core
  | sealRecordComplete core => exact execSealRecordComplete_keeps hk core
  | evictionComplete jetton => exact execEvictionComplete_keeps hk jetton
  | coreScrubStart core => exact execCoreScrubStart_keeps hk core
  | coreScrubEnd core => exact execCoreScrubEnd_keeps hk core
  | queueEntryTake queue => exact execQueueEntryTake_keeps hk queue
  | queuePollTimer queue => exact execQueuePollTimer_keeps hk queue
  | queueNop queue => exact execQueueNop_keeps hk queue
  | queueWait queue => exact execQueueWait_keeps hk queue
  | queueWaitComplete queue => exact execQueueWaitComplete_keeps hk queue
  | signal queue => exact execSignal_keeps hk queue
  | queueSet queue => exact execQueueSet_keeps hk queue
  | launch queue => exact execLaunch_keeps hk queue
  | launchEntryLanding queue id => exact execLaunchEntryLanding_keeps hk queue id
  | launchSemaphoreIncrement addr world => exact execLaunchSemaphoreIncrement_keeps hk addr world
  | copy queue => exact execCopy_keeps hk queue
  | fill queue => exact execFill_keeps hk queue
  | irq queue => exact execIrq_keeps hk queue
  | queueFence queue => exact execQueueFence_keeps hk queue
  | tstamp queue => exact execTstamp_keeps hk queue
  | queueXlateRetry queue => exact execQueueXlateRetry_keeps hk queue
  | scanDrainEnd core => exact execScanDrainEnd_keeps hk core
  | scanRunEnd core => exact execScanRunEnd_keeps hk core
  | scanScrubEnd core => exact execScanScrubEnd_keeps hk core
  | pluginCallTimeout fp => exact execPluginCallTimeout_keeps hk fp
  | nop => exact execNop_keeps hk
  | done => exact execDone_keeps hk
  | eret => exact execEret_keeps hk
  | wev => exact execWev_keeps hk
  | xlateService world va mapped => exact execXlateService_keeps hk world va mapped
  | coldStartFetch => exact execColdStartFetch_keeps hk
  | segmentPieceLand digest piece pds data => exact execSegmentPieceLand_keeps hk digest piece pds data
  | assign sender epoch key => exact execAssign_keeps hk sender epoch key
  | openMsg sender epoch comm n params => exact execOpenMsg_keeps hk sender epoch comm n params
  | cancel sender epoch key => exact execCancel_keeps hk sender epoch key
  | collectiveDoneMessage sender epoch comm n => exact execCollectiveDoneMessage_keeps hk sender epoch comm n
  | number epoch key n => exact execNumber_keeps hk epoch key n
  | opened epoch comm n => exact execOpened_keeps hk epoch comm n
  | empty epoch comm n => exact execEmpty_keeps hk epoch comm n
  | mismatch epoch comm n => exact execMismatch_keeps hk epoch comm n
  | cancelled epoch key n => exact execCancelled_keeps hk epoch key n
  | started epoch key => exact execStarted_keeps hk epoch key
  | allopened epoch comm n => exact execAllopened_keeps hk epoch comm n
  | standbyDecision epoch comm decision what => exact execStandbyDecision_keeps hk epoch comm decision what
  | standbyAck epoch comm decision => exact execStandbyAck_keeps hk epoch comm decision
  | epochAnnounce comm epoch primary => exact execEpochAnnounce_keeps hk comm epoch primary
  | preemptionRequest jetton => exact execPreemptionRequest_keeps hk jetton
  | evictionRequest jetton => exact execEvictionRequest_keeps hk jetton
  | jettonRelease jetton => exact execJettonRelease_keeps hk jetton
  | halt core => exact execHalt_keeps hk core
  | step core n => exact execStep_keeps hk core n
  | cont core => exact execCont_keeps hk core
  | rreg core r => exact execRreg_keeps hk core r
  | wreg core r value => exact execWreg_keeps hk core r value
  | flr world => exact execFlr_keeps hk world
  | registerWrite r value => exact execRegisterWrite_keeps hk r value
  | create p => exact execCreate_keeps hk p
  | destroy p => exact execDestroy_keeps hk p
  | grant p => exact execGrant_keeps hk p
  | revoke p => exact execRevoke_keeps hk p
  | resize p frames => exact execResize_keeps hk p frames
  | bwset p mask => exact execBwset_keeps hk p mask
  | install p r => exact execInstall_keeps hk p r
  | inval p => exact execInval_keeps hk p
  | query p => exact execQuery_keeps hk p
  | qctlReset p => exact execQctlReset_keeps hk p
  | qctlEnable p => exact execQctlEnable_keeps hk p
  | root p cap => exact execRoot_keeps hk p cap
  | migrateAttest p ok => exact execMigrateAttest_keeps hk p ok
  | migrateTrack p => exact execMigrateTrack_keeps hk p
  | migratePass p => exact execMigratePass_keeps hk p
  | migrateSeal p => exact execMigrateSeal_keeps hk p
  | migratePrefix p verified => exact execMigratePrefix_keeps hk p verified
  | migrateKeys p => exact execMigrateKeys_keeps hk p
  | migrateResume p => exact execMigrateResume_keeps hk p
  | jettonDoorbell fn jetton q widx => exact execJettonDoorbell_keeps hk fn jetton q widx
  | commandQueueDoorbell fn queue => exact execCommandQueueDoorbell_keeps hk fn queue
  | hostRead fn bar addr n => exact execHostRead_keeps hk fn bar addr n
  | hostWrite fn bar addr data => exact execHostWrite_keeps hk fn bar addr data
  | hostFetchadd fn addr bits x => exact execHostFetchadd_keeps hk fn addr bits x
  | hostSwap fn addr bits x => exact execHostSwap_keeps hk fn addr bits x
  | hostCas fn addr bits cmp x => exact execHostCas_keeps hk fn addr bits cmp x
  | roceSend qp payload imm => exact execRoceSend_keeps hk qp payload imm
  | roceRdmaWriteWithImmediate qp mkey addr payload imm => exact execRoceRdmaWriteWithImmediate_keeps hk qp mkey addr payload imm
  | udpRequestFrame header payload => exact execUdpRequestFrame_keeps hk header payload
  | timetableDifference tth base new entries img => exact execTimetableDifference_keeps hk tth base new entries img
  | scanHold core => exact execScanHold_keeps hk core
  | scanStart core => exact execScanStart_keeps hk core
  | scanRelease core => exact execScanRelease_keeps hk core
  | powerCapHold watts => exact execPowerCapHold_keeps hk watts
  | coreRegulatorTrip => exact execCoreRegulatorTrip_keeps hk
  | thermalHold die celsius => exact execThermalHold_keeps hk die celsius
  | thermalReset => exact execThermalReset_keeps hk
  | sensorUpdate sensor value => exact execSensorUpdate_keeps hk sensor value
  | powerUp pass => exact execPowerUp_keeps hk pass
  | firmwareImageLoad hdr body sig => exact execFirmwareImageLoad_keeps hk hdr body sig
  | attestationRequest nonce world => exact execAttestationRequest_keeps hk nonce world
  | certificateRequest => exact execCertificateRequest_keeps hk
  | flitCrcReplay port seq => exact execFlitCrcReplay_keeps hk port seq
  | portRetrain port up => exact execPortRetrain_keeps hk port up
  | dieReset die => exact execDieReset_keeps hk die
  | collectiveDataArrival key rank off data => exact execCollectiveDataArrival_keeps hk key rank off data
  | tierReadFailure digest => exact execTierReadFailure_keeps hk digest

end Sys2Proof.Machine
end

