-- ==== Sys2Proof/Laws/PerInstr.lean ====
section
/-!
SUPPORT. Statements made instruction by instruction. `HasWord`: exactly the instructions of the manual's encodings have a
word; the machine's own steps have none.
-/
namespace Sys2Proof.Laws.HasWord

open Sys2Proof

def Statement (i : Instr) : Prop := (encode i).isSome = i.isWord

theorem add (d a b) : Statement (.add d a b) := rfl
theorem sub (d a b) : Statement (.sub d a b) := rfl
theorem and (d a b) : Statement (.and d a b) := rfl
theorem or (d a b) : Statement (.or d a b) := rfl
theorem xor (d a b) : Statement (.xor d a b) := rfl
theorem andn (d a b) : Statement (.andn d a b) := rfl
theorem shl (d a b) : Statement (.shl d a b) := rfl
theorem shrl (d a b) : Statement (.shrl d a b) := rfl
theorem shra (d a b) : Statement (.shra d a b) := rfl
theorem rotl (d a b) : Statement (.rotl d a b) := rfl
theorem min (d a b) : Statement (.min d a b) := rfl
theorem max (d a b) : Statement (.max d a b) := rfl
theorem minu (d a b) : Statement (.minu d a b) := rfl
theorem maxu (d a b) : Statement (.maxu d a b) := rfl
theorem addi (d a imm) : Statement (.addi d a imm) := rfl
theorem andi (d a imm) : Statement (.andi d a imm) := rfl
theorem ori (d a imm) : Statement (.ori d a imm) := rfl
theorem xori (d a imm) : Statement (.xori d a imm) := rfl
theorem shli (d a sh) : Statement (.shli d a sh) := rfl
theorem shrli (d a sh) : Statement (.shrli d a sh) := rfl
theorem shrai (d a sh) : Statement (.shrai d a sh) := rfl
theorem movi (d imm) : Statement (.movi d imm) := rfl
theorem movhi (d imm) : Statement (.movhi d imm) := rfl
theorem mov (d a) : Statement (.mov d a) := rfl
theorem clz (d a) : Statement (.clz d a) := rfl
theorem ctz (d a) : Statement (.ctz d a) := rfl
theorem popc (d a) : Statement (.popc d a) := rfl
theorem sext (d a n1) : Statement (.sext d a n1) := rfl
theorem bfx (d a pos len1) : Statement (.bfx d a pos len1) := rfl
theorem bfi (d a pos len1) : Statement (.bfi d a pos len1) := rfl
theorem sel (d a b k) : Statement (.sel d a b k) := rfl
theorem mort (d a b) : Statement (.mort d a b) := rfl
theorem umort (d a) : Statement (.umort d a) := rfl
theorem mul (d a b) : Statement (.mul d a b) := rfl
theorem mulhs (d a b) : Statement (.mulhs d a b) := rfl
theorem mulhu (d a b) : Statement (.mulhu d a b) := rfl
theorem divs (d a b) : Statement (.divs d a b) := rfl
theorem divu (d a b) : Statement (.divu d a b) := rfl
theorem rems (d a b) : Statement (.rems d a b) := rfl
theorem remu (d a b) : Statement (.remu d a b) := rfl
theorem cmp (kd a b cond) : Statement (.cmp kd a b cond) := rfl
theorem cmpi (kd a imm cond) : Statement (.cmpi kd a imm cond) := rfl
theorem kop (kd ka kb op) : Statement (.kop kd ka kb op) := rfl
theorem ld (d c sz off) : Statement (.ld d c sz off) := rfl
theorem lds (d c sz off) : Statement (.lds d c sz off) := rfl
theorem st (d c sz off) : Statement (.st d c sz off) := rfl
theorem ldc (cd c off) : Statement (.ldc cd c off) := rfl
theorem stc (cd c off) : Statement (.stc cd c off) := rfl
theorem loadStallComplete (core) : Statement (.loadStallComplete core) := rfl
theorem cbnd (cd ca b) : Statement (.cbnd cd ca b) := rfl
theorem cperm (cd ca b) : Statement (.cperm cd ca b) := rfl
theorem cadd (cd ca b) : Statement (.cadd cd ca b) := rfl
theorem cset (cd ca b) : Statement (.cset cd ca b) := rfl
theorem cget (d ca field) : Statement (.cget d ca field) := rfl
theorem cseal (cd ca cb) : Statement (.cseal cd ca cb) := rfl
theorem cunsl (cd ca cb) : Statement (.cunsl cd ca cb) := rfl
theorem ctst (kd ca cb) : Statement (.ctst kd ca cb) := by cases cb <;> rfl
theorem b (k sense off) : Statement (.b k sense off) := rfl
theorem j (off) : Statement (.j off) := rfl
theorem jr (a) : Statement (.jr a) := rfl
theorem jf (tag target) : Statement (.jf tag target) := rfl
theorem call (d off) : Statement (.call d off) := rfl
theorem ret (a) : Statement (.ret a) := rfl
theorem loop (lvl count off) : Statement (.loop lvl count off) := rfl
theorem loopr (lvl reg off) : Statement (.loopr lvl reg off) := rfl
theorem vrun (addr cnt c t) : Statement (.vrun addr cnt c t) := rfl
theorem mrun (addr cnt c t) : Statement (.mrun addr cnt c t) := rfl
theorem trun (addr cnt c t) : Statement (.trun addr cnt c t) := rfl
theorem streamStart (core col) : Statement (.streamStart core col) := rfl
theorem streamEndEvent (core col) : Statement (.streamEndEvent core col) := rfl
theorem trap (k sense code) : Statement (.trap k sense code) := rfl
theorem svc (a code) : Statement (.svc a code) := rfl
theorem srd (d num) : Statement (.srd d num) := rfl
theorem swr (num a) : Statement (.swr num a) := rfl
theorem time (d a tb) : Statement (.time d a tb) := rfl
theorem bkpt (code) : Statement (.bkpt code) := rfl
theorem aadd (d c int32 off) : Statement (.aadd d c int32 off) := rfl
theorem axch (d c off) : Statement (.axch d c off) := rfl
theorem acas (d c off) : Statement (.acas d c off) := rfl
theorem ald (d c off) : Statement (.ald d c off) := rfl
theorem ast (d c off) : Statement (.ast d c off) := rfl
theorem homeOperationAct (id) : Statement (.homeOperationAct id) := rfl
theorem homeOperationReturn (id) : Statement (.homeOperationReturn id) := rfl
theorem ssig (d c scope off) : Statement (.ssig d c scope off) := rfl
theorem sset (d c off) : Statement (.sset d c off) := rfl
theorem swait (d c cond off) : Statement (.swait d c cond off) := rfl
theorem swaitConsume (d c unsigned off) : Statement (.swaitConsume d c unsigned off) := rfl
theorem rel (d c scope off) : Statement (.rel d c scope off) := rfl
theorem acq (d c cond scope off) : Statement (.acq d c cond scope off) := rfl
theorem homeWaitComplete (id) : Statement (.homeWaitComplete id) := rfl
theorem rinit (rn a) : Statement (.rinit rn a) := rfl
theorem rclm (d c rn n) : Statement (.rclm d c rn n) := rfl
theorem rwfl (d c rn n) : Statement (.rwfl d c rn n) := rfl
theorem rwfr (d c rn n) : Statement (.rwfr d c rn n) := rfl
theorem rpub (c rn n) : Statement (.rpub c rn n) := rfl
theorem rrel (c rn n) : Statement (.rrel c rn n) := rfl
theorem rstat (d c rn) : Statement (.rstat d c rn) := rfl
theorem parv (d lvl) : Statement (.parv d lvl) := rfl
theorem pwait (lvl a) : Statement (.pwait lvl a) := rfl
theorem pbar (lvl) : Statement (.pbar lvl) := rfl
theorem phaseArrival (dom core p) : Statement (.phaseArrival dom core p) := rfl
theorem phaseCopyRegistration (dom id p) : Statement (.phaseCopyRegistration dom id p) := rfl
theorem phaseCopyLanding (dom id p) : Statement (.phaseCopyLanding dom id p) := rfl
theorem phaseCopyWithdrawal (dom id p) : Statement (.phaseCopyWithdrawal dom id p) := rfl
theorem phaseWaitComplete (core) : Statement (.phaseWaitComplete core) := rfl
theorem fence (scope) : Statement (.fence scope) := rfl
theorem wevComplete (core) : Statement (.wevComplete core) := rfl
theorem carry (d c off) : Statement (.carry d c off) := rfl
theorem cpy (a b len card t) : Statement (.cpy a b len card t) := rfl
theorem cpys (a b len card t) : Statement (.cpys a b len card t) := rfl
theorem cpyz (a b len card t) : Statement (.cpyz a b len card t) := rfl
theorem cpyc (a b len card t) : Statement (.cpyc a b len card t) := rfl
theorem cpyg (a b len card t) : Statement (.cpyg a b len card t) := rfl
theorem cpym (a b len card t) : Statement (.cpym a b len card t) := rfl
theorem cpya (a b len card t) : Statement (.cpya a b len card t) := rfl
theorem cpyx (a b len card t) : Statement (.cpyx a b len card t) := rfl
theorem cfch (b len card t) : Statement (.cfch b len card t) := rfl
theorem cwm (d wm clear) : Statement (.cwm d wm clear) := rfl
theorem ccan (d k) : Statement (.ccan d k) := rfl
theorem cstat (d k) : Statement (.cstat d k) := rfl
theorem copyEngineIssue (id) : Statement (.copyEngineIssue id) := rfl
theorem copyBeatRead (id) : Statement (.copyBeatRead id) := rfl
theorem copyBeatLand (land) : Statement (.copyBeatLand land) := rfl
theorem copySemaphoreIncrement (addr) : Statement (.copySemaphoreIncrement addr) := rfl
theorem copyRecordLanded (core k id) : Statement (.copyRecordLanded core k id) := rfl
theorem followOnPresent (id) : Statement (.followOnPresent id) := rfl
theorem followOnStart (core) : Statement (.followOnStart core) := rfl
theorem vadd (ty d a b mem st) : Statement (.vadd ty d a b mem st) := rfl
theorem vsub (ty d a b mem st) : Statement (.vsub ty d a b mem st) := rfl
theorem vmul (ty d a b mem st) : Statement (.vmul ty d a b mem st) := rfl
theorem vfma (ty d a b mem st) : Statement (.vfma ty d a b mem st) := rfl
theorem vfms (ty d a b mem st) : Statement (.vfms ty d a b mem st) := rfl
theorem vmax (ty d a b mem st) : Statement (.vmax ty d a b mem st) := rfl
theorem vmin (ty d a b mem st) : Statement (.vmin ty d a b mem st) := rfl
theorem vcmp (ty md cond a b mem st) : Statement (.vcmp ty md cond a b mem st) := rfl
theorem vld (d row st) : Statement (.vld d row st) := rfl
theorem vst (src m g row st) : Statement (.vst src m g row st) := rfl
theorem vldb (d l row st) : Statement (.vldb d l row st) := rfl
theorem vldx (d a row st) : Statement (.vldx d a row st) := rfl
theorem vstx (src a m row st) : Statement (.vstx src a m row st) := rfl
theorem vmov (form d a mem st) : Statement (.vmov form d a mem st) := rfl
theorem vabs (ty d a mem st) : Statement (.vabs ty d a mem st) := rfl
theorem vneg (ty d a mem st) : Statement (.vneg ty d a mem st) := rfl
theorem vsel (d a m g mem st) : Statement (.vsel d a m g mem st) := rfl
theorem vand (d a b mem st) : Statement (.vand d a b mem st) := rfl
theorem vor (d a b mem st) : Statement (.vor d a b mem st) := rfl
theorem vxor (d a b mem st) : Statement (.vxor d a b mem st) := rfl
theorem vshl (d a sh mem st) : Statement (.vshl d a sh mem st) := rfl
theorem vshr (d a sh mem st) : Statement (.vshr d a sh mem st) := rfl
theorem vsra (d a sh mem st) : Statement (.vsra d a sh mem st) := rfl
theorem vcvt (d a dt srcT h mem st) : Statement (.vcvt d a dt srcT h mem st) := rfl
theorem vrcp (ty d a mem st) : Statement (.vrcp ty d a mem st) := rfl
theorem vrsq (ty d a mem st) : Statement (.vrsq ty d a mem st) := rfl
theorem vexp2 (ty d a mem st) : Statement (.vexp2 ty d a mem st) := rfl
theorem vlg2 (ty d a mem st) : Statement (.vlg2 ty d a mem st) := rfl
theorem vrsum (ty d a mem st) : Statement (.vrsum ty d a mem st) := rfl
theorem vrmax (ty d a mem st) : Statement (.vrmax ty d a mem st) := rfl
theorem vbmax (a t f mem st) : Statement (.vbmax a t f mem st) := rfl
theorem vqsc (d k st) : Statement (.vqsc d k st) := rfl
theorem vqcvt (d a p t f mem st) : Statement (.vqcvt d a p t f mem st) := rfl
theorem vshuf (d a b g st) : Statement (.vshuf d a b g st) := rfl
theorem viota (d g st) : Statement (.viota d g st) := rfl
theorem vbcst (d a l st) : Statement (.vbcst d a l st) := rfl
theorem vdfr (a m g mem st) : Statement (.vdfr a m g mem st) := rfl
theorem vdfd (d e m st) : Statement (.vdfd d e m st) := rfl
theorem vdfn (d clear st) : Statement (.vdfn d clear st) := rfl
theorem vnop (st) : Statement (.vnop st) := rfl
theorem tld (t row st) : Statement (.tld t row st) := rfl
theorem tseg (ty d a h st) : Statement (.tseg ty d a h st) := rfl
theorem tint (ty d a h st) : Statement (.tint ty d a h st) := rfl
theorem tqad (ty d a h st) : Statement (.tqad ty d a h st) := rfl
theorem tclmp (ty d a h st) : Statement (.tclmp ty d a h st) := rfl
theorem mcfg (p g x st) : Statement (.mcfg p g x st) := rfl
theorem mwld (a src st) : Statement (.mwld a src st) := rfl
theorem mwsw (st) : Statement (.mwsw st) := rfl
theorem mma (a e acc st) : Statement (.mma a e acc st) := rfl
theorem mmo (a e acc st) : Statement (.mmo a e acc st) := rfl
theorem mdrn (d aw st) : Statement (.mdrn d aw st) := rfl
theorem mzro (acc st) : Statement (.mzro acc st) := rfl
theorem mscl (a j st) : Statement (.mscl a j st) := rfl
theorem mnop (st) : Statement (.mnop st) := rfl
theorem kvhs (a b) : Statement (.kvhs a b) := rfl
theorem kvlk (a b ref) : Statement (.kvlk a b ref) := rfl
theorem kvin (d a b) : Statement (.kvin d a b) := rfl
theorem kvap (b) : Statement (.kvap b) := rfl
theorem kvrl (d b) : Statement (.kvrl d b) := rfl
theorem kvex (d a b) : Statement (.kvex d a b) := rfl
theorem kvim (d a b) : Statement (.kvim d a b) := rfl
theorem wseg (a b) : Statement (.wseg a b) := rfl
theorem wprf (a) : Statement (.wprf a) := rfl
theorem prefixCommandDepart (id) : Statement (.prefixCommandDepart id) := rfl
theorem prefixCommandStart (id) : Statement (.prefixCommandStart id) := rfl
theorem prefixCommandAct (id) : Statement (.prefixCommandAct id) := rfl
theorem prefixResultWrite (id) : Statement (.prefixResultWrite id) := rfl
theorem prefixCompletionCount (id) : Statement (.prefixCompletionCount id) := rfl
theorem journalReply (id) : Statement (.journalReply id) := rfl
theorem xseq (d a b) : Statement (.xseq d a b) := rfl
theorem xbar (a b) : Statement (.xbar a b) := rfl
theorem xcan (d a b) : Statement (.xcan d a b) := rfl
theorem xwait (d a b) : Statement (.xwait d a b) := rfl
theorem fabricWaitComplete (core) : Statement (.fabricWaitComplete core) := rfl
theorem xar (a b len card t) : Statement (.xar a b len card t) := rfl
theorem xag (a b len card t) : Statement (.xag a b len card t) := rfl
theorem xrs (a b len card t) : Statement (.xrs a b len card t) := rfl
theorem xata (a b len card t) : Statement (.xata a b len card t) := rfl
theorem collectiveEngineEntry (id) : Statement (.collectiveEngineEntry id) := rfl
theorem collectiveStart (comm n) : Statement (.collectiveStart comm n) := rfl
theorem collectiveComplete (key) : Statement (.collectiveComplete key) := rfl
theorem heartbeat (comm) : Statement (.heartbeat comm) := rfl
theorem heartbeatTimeout (comm) : Statement (.heartbeatTimeout comm) := rfl
theorem selection (token) : Statement (.selection token) := rfl
theorem starvationBar (token) : Statement (.starvationBar token) := rfl
theorem taskStart (core) : Statement (.taskStart core) := rfl
theorem taskEnd (core) : Statement (.taskEnd core) := rfl
theorem taskRestart (core) : Statement (.taskRestart core) := rfl
theorem completionRecordWrite (jetton) : Statement (.completionRecordWrite jetton) := rfl
theorem overrun (core) : Statement (.overrun core) := rfl
theorem replayStart (core) : Statement (.replayStart core) := rfl
theorem drainDivert (core) : Statement (.drainDivert core) := rfl
theorem sealCore (core) : Statement (.sealCore core) := rfl
theorem sealRecordComplete (core) : Statement (.sealRecordComplete core) := rfl
theorem evictionComplete (jetton) : Statement (.evictionComplete jetton) := rfl
theorem coreScrubStart (core) : Statement (.coreScrubStart core) := rfl
theorem coreScrubEnd (core) : Statement (.coreScrubEnd core) := rfl
theorem queueEntryTake (queue) : Statement (.queueEntryTake queue) := rfl
theorem queuePollTimer (queue) : Statement (.queuePollTimer queue) := rfl
theorem queueNop (queue) : Statement (.queueNop queue) := rfl
theorem queueWait (queue) : Statement (.queueWait queue) := rfl
theorem queueWaitComplete (queue) : Statement (.queueWaitComplete queue) := rfl
theorem signal (queue) : Statement (.signal queue) := rfl
theorem queueSet (queue) : Statement (.queueSet queue) := rfl
theorem launch (queue) : Statement (.launch queue) := rfl
theorem launchEntryLanding (queue id) : Statement (.launchEntryLanding queue id) := rfl
theorem launchSemaphoreIncrement (addr world) : Statement (.launchSemaphoreIncrement addr world) := rfl
theorem copy (queue) : Statement (.copy queue) := rfl
theorem fill (queue) : Statement (.fill queue) := rfl
theorem irq (queue) : Statement (.irq queue) := rfl
theorem queueFence (queue) : Statement (.queueFence queue) := rfl
theorem tstamp (queue) : Statement (.tstamp queue) := rfl
theorem queueXlateRetry (queue) : Statement (.queueXlateRetry queue) := rfl
theorem scanDrainEnd (core) : Statement (.scanDrainEnd core) := rfl
theorem scanRunEnd (core) : Statement (.scanRunEnd core) := rfl
theorem scanScrubEnd (core) : Statement (.scanScrubEnd core) := rfl
theorem pluginCallTimeout (fp) : Statement (.pluginCallTimeout fp) := rfl
theorem nop : Statement .nop := rfl
theorem done : Statement .done := rfl
theorem eret : Statement .eret := rfl
theorem wev : Statement .wev := rfl
theorem xlateService (world va mapped) : Statement (.xlateService world va mapped) := rfl
theorem coldStartFetch : Statement .coldStartFetch := rfl
theorem segmentPieceLand (digest piece pds data) : Statement (.segmentPieceLand digest piece pds data) := rfl
theorem assign (sender epoch key) : Statement (.assign sender epoch key) := rfl
theorem openMsg (sender epoch comm n params) : Statement (.openMsg sender epoch comm n params) := rfl
theorem cancel (sender epoch key) : Statement (.cancel sender epoch key) := rfl
theorem collectiveDoneMessage (sender epoch comm n) : Statement (.collectiveDoneMessage sender epoch comm n) := rfl
theorem number (epoch key n) : Statement (.number epoch key n) := rfl
theorem opened (epoch comm n) : Statement (.opened epoch comm n) := rfl
theorem empty (epoch comm n) : Statement (.empty epoch comm n) := rfl
theorem mismatch (epoch comm n) : Statement (.mismatch epoch comm n) := rfl
theorem cancelled (epoch key n) : Statement (.cancelled epoch key n) := rfl
theorem started (epoch key) : Statement (.started epoch key) := rfl
theorem allopened (epoch comm n) : Statement (.allopened epoch comm n) := rfl
theorem standbyDecision (epoch comm decision what) : Statement (.standbyDecision epoch comm decision what) := rfl
theorem standbyAck (epoch comm decision) : Statement (.standbyAck epoch comm decision) := rfl
theorem epochAnnounce (comm epoch primary) : Statement (.epochAnnounce comm epoch primary) := rfl
theorem preemptionRequest (jetton) : Statement (.preemptionRequest jetton) := rfl
theorem evictionRequest (jetton) : Statement (.evictionRequest jetton) := rfl
theorem jettonRelease (jetton) : Statement (.jettonRelease jetton) := rfl
theorem halt (core) : Statement (.halt core) := rfl
theorem step (core n) : Statement (.step core n) := rfl
theorem cont (core) : Statement (.cont core) := rfl
theorem rreg (core r) : Statement (.rreg core r) := rfl
theorem wreg (core r value) : Statement (.wreg core r value) := rfl
theorem flr (world) : Statement (.flr world) := rfl
theorem registerWrite (r value) : Statement (.registerWrite r value) := rfl
theorem create (p) : Statement (.create p) := rfl
theorem destroy (p) : Statement (.destroy p) := rfl
theorem grant (p) : Statement (.grant p) := rfl
theorem revoke (p) : Statement (.revoke p) := rfl
theorem resize (p frames) : Statement (.resize p frames) := rfl
theorem bwset (p mask) : Statement (.bwset p mask) := rfl
theorem install (p r) : Statement (.install p r) := rfl
theorem inval (p) : Statement (.inval p) := rfl
theorem query (p) : Statement (.query p) := rfl
theorem qctlReset (p) : Statement (.qctlReset p) := rfl
theorem qctlEnable (p) : Statement (.qctlEnable p) := rfl
theorem root (p cap) : Statement (.root p cap) := rfl
theorem migrateAttest (p ok) : Statement (.migrateAttest p ok) := rfl
theorem migrateTrack (p) : Statement (.migrateTrack p) := rfl
theorem migratePass (p) : Statement (.migratePass p) := rfl
theorem migrateSeal (p) : Statement (.migrateSeal p) := rfl
theorem migratePrefix (p verified) : Statement (.migratePrefix p verified) := rfl
theorem migrateKeys (p) : Statement (.migrateKeys p) := rfl
theorem migrateResume (p) : Statement (.migrateResume p) := rfl
theorem jettonDoorbell (fn jetton q widx) : Statement (.jettonDoorbell fn jetton q widx) := rfl
theorem commandQueueDoorbell (fn queue) : Statement (.commandQueueDoorbell fn queue) := rfl
theorem hostRead (fn bar addr n) : Statement (.hostRead fn bar addr n) := rfl
theorem hostWrite (fn bar addr data) : Statement (.hostWrite fn bar addr data) := rfl
theorem hostFetchadd (fn addr bits x) : Statement (.hostFetchadd fn addr bits x) := rfl
theorem hostSwap (fn addr bits x) : Statement (.hostSwap fn addr bits x) := rfl
theorem hostCas (fn addr bits cmp x) : Statement (.hostCas fn addr bits cmp x) := rfl
theorem roceSend (qp payload imm) : Statement (.roceSend qp payload imm) := rfl
theorem roceRdmaWriteWithImmediate (qp mkey addr payload imm) : Statement (.roceRdmaWriteWithImmediate qp mkey addr payload imm) := rfl
theorem udpRequestFrame (header payload) : Statement (.udpRequestFrame header payload) := rfl
theorem timetableDifference (tth base new entries img) : Statement (.timetableDifference tth base new entries img) := rfl
theorem scanHold (core) : Statement (.scanHold core) := rfl
theorem scanStart (core) : Statement (.scanStart core) := rfl
theorem scanRelease (core) : Statement (.scanRelease core) := rfl
theorem powerCapHold (watts) : Statement (.powerCapHold watts) := rfl
theorem coreRegulatorTrip : Statement .coreRegulatorTrip := rfl
theorem thermalHold (die celsius) : Statement (.thermalHold die celsius) := rfl
theorem thermalReset : Statement .thermalReset := rfl
theorem sensorUpdate (sensor value) : Statement (.sensorUpdate sensor value) := rfl
theorem powerUp (pass) : Statement (.powerUp pass) := rfl
theorem firmwareImageLoad (hdr body sig) : Statement (.firmwareImageLoad hdr body sig) := rfl
theorem attestationRequest (nonce world) : Statement (.attestationRequest nonce world) := rfl
theorem certificateRequest : Statement .certificateRequest := rfl
theorem flitCrcReplay (port seq) : Statement (.flitCrcReplay port seq) := rfl
theorem portRetrain (port up) : Statement (.portRetrain port up) := rfl
theorem dieReset (die) : Statement (.dieReset die) := rfl
theorem collectiveDataArrival (key rank off data) : Statement (.collectiveDataArrival key rank off data) := rfl
theorem tierReadFailure (digest) : Statement (.tierReadFailure digest) := rfl

end Sys2Proof.Laws.HasWord
end

