-- ==== Sys2Proof/Laws/Results.lean ====
section
/-!
SUPPORT. What the shared operations of control words do: a result on its way lands (R7, R20), the word at the program counter
moves on, a transfer, a fault.
-/
namespace Sys2Proof.Machine

open Sys2Proof

theorem State.steady_modIss {s : State} {f : Issue → Issue}
    (h : { f s.core.iss with pc := 0, next := 0, pend := [] } = { s.core.iss with pc := 0, next := 0, pend := [] }) :
    (s.modIss f).steady = s.steady := by
  unfold State.steady State.modIss; dsimp only; rw [h]

theorem State.advance_steady (s : State) (cost : Nat) : (s.advance cost).steady = s.steady := by
  unfold State.advance; split <;> rfl

theorem State.advance_issues (s : State) (cost : Nat) : Issues s (s.advance cost) cost := by
  unfold Issues State.advance
  split <;> exact ⟨rfl, rfl⟩

theorem State.advance_pend (s : State) (cost : Nat) : (s.advance cost).core.iss.pend = s.core.iss.pend := by
  unfold State.advance; split <;> rfl

/-! ### The end of a cycle after a change of the control column's place and a new result -/

/-- The core with another place of its control column and one more result on its way. -/
def Core.moved (c : Core) (l : List LoopLevel) (lc : Vector W32 4) (pc next : Nat) (p : Pend) : Core :=
  { c with ctl := { c.ctl with loops := l, lc := lc }, iss := { c.iss with pc := pc, next := next, pend := c.iss.pend ++ [p] } }

theorem State.storeWrite_modC (s : State) (f : Core → Core) (hf : ∀ c, (f c).sys = c.sys) (w : StorePend) :
    (s.modC f).storeWrite w = (s.storeWrite w).modC f := by
  have g : ∀ k, ((s.modC f).getCore k).sys = (s.getCore k).sys := by
    intro k
    unfold State.getCore State.modC
    dsimp only
    split <;> simp only [hf]
  have h : ∀ m : Mem → Mem, ((s.modC f).modMem m).capBank w.addr = (s.modMem m).capBank w.addr := by
    intro m
    have e : ∀ t : State, ∀ k, (t.modMem m).getCore k = t.getCore k := fun _ _ => rfl
    unfold State.capBank State.bankReg
    simp only [e, g]
  unfold State.storeWrite
  dsimp only
  split
  · rw [h]; split <;> rfl
  · rfl

theorem State.storeWrites_modC (f : Core → Core) (hf : ∀ c, (f c).sys = c.sys) :
    ∀ (l : List StorePend) (s : State),
      l.foldl (fun (s : State) w => s.storeWrite w) (s.modC f) = (l.foldl (fun (s : State) w => s.storeWrite w) s).modC f
  | [], _ => rfl
  | w :: l, s => by
    simp only [List.foldl_cons, State.storeWrite_modC s f hf]
    exact State.storeWrites_modC f hf l _

theorem State.storeWrite_core (s : State) (w : StorePend) : (s.storeWrite w).core = s.core := by
  unfold State.storeWrite
  dsimp only
  split
  · split <;> rfl
  · rfl

theorem State.storeWrites_core : ∀ (l : List StorePend) (s : State),
    (l.foldl (fun (s : State) w => s.storeWrite w) s).core = s.core
  | [], _ => rfl
  | w :: l, s => by rw [List.foldl_cons, State.storeWrites_core l, State.storeWrite_core]

/-- The end of a cycle for the core itself: its results, and its own times. -/
def Core.atEnd (c : Core) (e : Nat) (tok : Bool) : Core :=
  let res := c.iss.pend.filter (·.due ≤ e)
  let c := if res.any fun (p : Pend) => p.dst.isQ then { c with vec := c.vec.keepQ (e + 1) } else c
  let c := (res.foldl (fun (c : Core) (p : Pend) => c.apply p.dst) c).freeLoader (if tok then 128 else 256)
  { c with iss := { c.iss with
      stores := [], bankPend := c.iss.bankPend.filter (e < ·.due), pend := c.iss.pend.filter (e < ·.due), turn := none, ports := [],
      wports := [] } }

/-- The end of a cycle for memory. -/
def Mem.atEnd (m : Mem) (i : Nat) (x : Issue) (e : Nat) : Mem :=
  (x.pend.filter (·.due ≤ e)).foldl (fun (m : Mem) (p : Pend) => m.applyTable i p.dst)
    ((x.bankPend.filter (·.due ≤ e)).foldl Mem.bankWrite m)

theorem Core.apply_iss (c : Core) (d : Dst) : (c.apply d).iss = c.iss := by
  unfold Core.apply
  split <;> (try split) <;> rfl

theorem Core.applies_iss : ∀ (l : List Pend) (c : Core), (l.foldl (fun (c : Core) (p : Pend) => c.apply p.dst) c).iss = c.iss
  | [], _ => rfl
  | p :: l, c => by rw [List.foldl_cons, Core.applies_iss l, Core.apply_iss]

theorem State.commit_eq (s : State) (e : Nat) :
    s.commit e = { s.core.iss.stores.foldl (fun (t : State) w => t.storeWrite w) s with
      mem := (s.core.iss.stores.foldl (fun (t : State) w => t.storeWrite w) s).mem.atEnd s.cur s.core.iss e
      core := s.core.atEnd e (isToken s.cur) } := by
  have h := State.storeWrites_core s.core.iss.stores s
  unfold State.commit Core.atEnd Mem.atEnd
  dsimp only
  generalize s.core.iss.stores.foldl (fun (t : State) w => t.storeWrite w) s = S at h
  split <;> simp only [State.modIss, State.modC, State.modMem, h, Core.applies_iss, Core.freeLoader] <;> split <;>
    simp only [Core.applies_iss]

theorem Core.apply_moved (c : Core) (l : List LoopLevel) (lc : Vector W32 4) (pc next : Nat) (p : Pend) (d : Dst) :
    (c.moved l lc pc next p).apply d = (c.apply d).moved l lc pc next p := by
  unfold Core.apply
  split <;> (try split) <;> rfl

theorem Core.applies_moved (l : List LoopLevel) (lc : Vector W32 4) (pc next : Nat) (p : Pend) : ∀ (r : List Pend) (c : Core),
    r.foldl (fun (c : Core) (p : Pend) => c.apply p.dst) (c.moved l lc pc next p) =
      (r.foldl (fun (c : Core) (p : Pend) => c.apply p.dst) c).moved l lc pc next p
  | [], _ => rfl
  | q :: r, c => by rw [List.foldl_cons, Core.apply_moved, Core.applies_moved l lc pc next p r]; rfl

/-- The core without the place of its control column and its results on their way. -/
def Core.steady (c : Core) : Core :=
  { c with ctl := { c.ctl with loops := [], lc := Vector.replicate 4 0 }, iss := { c.iss with pc := 0, next := 0, pend := [] } }

theorem State.steady_eq (s : State) : s.steady = { s with core := s.core.steady } := rfl

theorem Core.freeLoader_apply (c : Core) (d : Dst) (n : Nat) : (c.apply d).freeLoader n = (c.freeLoader n).apply d := by
  cases d <;> simp only [Core.apply, Core.freeLoader] <;> (repeat' split) <;> first | rfl | simp_all

theorem Core.freeLoader_moved (c : Core) (l : List LoopLevel) (lc : Vector W32 4) (pc next : Nat) (p : Pend) (n : Nat) :
    (c.moved l lc pc next p).freeLoader n = (c.freeLoader n).moved l lc pc next p := by
  unfold Core.freeLoader Core.moved
  dsimp only
  split <;> rfl

/-- Applying a result leaves out of sight what `steady` does. -/
theorem Core.apply_steady (c : Core) (d : Dst) : (c.apply d).steady = c.steady.apply d := by
  cases d <;> simp only [Core.apply, Core.steady] <;> (repeat' split) <;> rfl

theorem Core.atEnd_moved (c : Core) (l : List LoopLevel) (lc : Vector W32 4) (pc next : Nat) (p : Pend) (e : Nat) (tok : Bool)
    (hq : p.dst.isQ = false) :
    ((c.moved l lc pc next p).atEnd e tok).steady =
      (if p.due ≤ e then (c.atEnd e tok).apply p.dst else c.atEnd e tok).steady := by
  have hp : (c.moved l lc pc next p).iss.pend = c.iss.pend ++ [p] := rfl
  unfold Core.atEnd
  rw [hp, List.filter_append]
  by_cases h : p.due ≤ e
  · have hf : [p].filter (fun x => decide (x.due ≤ e)) = [p] := by simp [h]
    simp only [hf, List.any_append, List.any_cons, List.any_nil, hq, Bool.or_false, h, if_true, List.foldl_append,
      List.foldl_cons, List.foldl_nil]
    generalize c.iss.pend.filter (fun x => decide (x.due ≤ e)) = r
    rw [Core.apply_steady]
    split
    · have : ({ c.moved l lc pc next p with vec := (c.moved l lc pc next p).vec.keepQ (e + 1) } : Core)
          = ({ c with vec := c.vec.keepQ (e + 1) } : Core).moved l lc pc next p := rfl
      rw [this, Core.applies_moved, Core.apply_moved, Core.freeLoader_moved, Core.freeLoader_apply]
      generalize (r.foldl (fun (c : Core) (p : Pend) => c.apply p.dst) { c with vec := c.vec.keepQ (e + 1) }).freeLoader _ = k
      rw [← Core.apply_steady]
      cases p.dst <;> simp only [Core.apply, Core.steady, Core.moved] <;> (repeat' split) <;> rfl
    · rw [Core.applies_moved, Core.apply_moved, Core.freeLoader_moved, Core.freeLoader_apply]
      generalize (r.foldl (fun (c : Core) (p : Pend) => c.apply p.dst) c).freeLoader _ = k
      rw [← Core.apply_steady]
      cases p.dst <;> simp only [Core.apply, Core.steady, Core.moved] <;> (repeat' split) <;> rfl
  · have hf : [p].filter (fun x => decide (x.due ≤ e)) = [] := by simp [h]
    simp only [hf, List.append_nil, h, if_false]
    generalize c.iss.pend.filter (fun x => decide (x.due ≤ e)) = r
    split
    · have : ({ c.moved l lc pc next p with vec := (c.moved l lc pc next p).vec.keepQ (e + 1) } : Core)
          = ({ c with vec := c.vec.keepQ (e + 1) } : Core).moved l lc pc next p := rfl
      rw [this, Core.applies_moved, Core.freeLoader_moved]
      rfl
    · rw [Core.applies_moved, Core.freeLoader_moved]
      rfl

theorem State.commit_moved (s : State) (l : List LoopLevel) (lc : Vector W32 4) (pc next : Nat) (p : Pend) (e : Nat)
    (hq : p.dst.isQ = false) (ht : ∀ (m : Mem) i, m.applyTable i p.dst = m) :
    ((s.modC fun c => c.moved l lc pc next p).commit e).steady =
      (if p.due ≤ e then (s.commit e).modC fun c => c.apply p.dst else s.commit e).steady := by
  have hst := State.storeWrites_modC (fun c => c.moved l lc pc next p) (fun _ => rfl) s.core.iss.stores s
  have hm : ∀ m : Mem, m.atEnd s.cur (s.core.moved l lc pc next p).iss e = m.atEnd s.cur s.core.iss e := by
    intro m
    have hp : (s.core.moved l lc pc next p).iss.pend = s.core.iss.pend ++ [p] := rfl
    unfold Mem.atEnd
    rw [hp, List.filter_append, List.foldl_append]
    by_cases h : p.due ≤ e
    · simp only [h, decide_true, List.filter_cons_of_pos, List.filter_nil, List.foldl_cons, List.foldl_nil, ht]; rfl
    · simp only [h, decide_false, List.filter_nil, List.foldl_nil, Bool.false_eq_true, not_false_eq_true, List.filter_cons_of_neg]; rfl
  have hc := Core.atEnd_moved s.core l lc pc next p e (isToken s.cur) hq
  rw [State.commit_eq, State.commit_eq]
  have e1 : (s.modC fun c => c.moved l lc pc next p).core.iss.stores = s.core.iss.stores := rfl
  have e2 : (s.modC fun c => c.moved l lc pc next p).cur = s.cur := rfl
  rw [e1, e2, hst]
  have e3 : (s.modC fun c => c.moved l lc pc next p).core = s.core.moved l lc pc next p := rfl
  rw [e3, hm]
  generalize s.core.iss.stores.foldl (fun (t : State) w => t.storeWrite w) s = S
  simp only [State.steady_eq]
  rw [hc]
  split <;> rfl

/-! ### A control word with a result -/

theorem State.put_advance (s : State) (lat cost : Nat) (d : Dst) :
    ∃ l lc pc, (s.put lat d).advance cost = s.modC fun c => c.moved l lc pc (s.tb + cost) ⟨s.tb + lat - 1, d, none, s.tb⟩ := by
  unfold State.advance
  split
  · exact ⟨_, _, _, rfl⟩
  · exact ⟨_, _, _, rfl⟩

theorem State.put_issues (s : State) (lat cost : Nat) (d : Dst) : Issues s ((s.put lat d).advance cost) cost :=
  State.advance_issues (s.put lat d) cost

/-- A register result lands. -/
theorem State.put_lands (s : State) (lat cost : Nat) {d : Dst} (hq : d.isQ = false) (ht : ∀ (m : Mem) i, m.applyTable i d = m) :
    Lands s ((s.put lat d).advance cost) (s.tb + lat - 1) d := by
  obtain ⟨l, lc, pc, h⟩ := s.put_advance lat cost d
  rw [h]
  refine ⟨rfl, fun e he => ?_, fun e he => ?_⟩
  · rw [State.commit_moved _ _ _ _ _ _ _ hq ht, if_neg (by simp; omega)]
  · rw [State.commit_moved _ _ _ _ _ _ _ hq ht, if_pos (by simpa using he)]

/-- The results whose landing changes the registers of the core alone. -/
def Dst.plain : Dst → Bool
  | .s _ _ | .c _ _ | .k _ _ | .reg _ _ | .v _ _ _ | .m _ _ => true
  | _ => false

theorem Gives.of_give {s : State} {i : Instr} {lat cost : Nat} {d : Dst} (h : exec i s = s.give lat cost d)
    (hd : d.plain = true) : Gives s i lat cost d := by
  refine ⟨_, h, State.put_issues s lat cost d, State.put_lands s lat cost ?_ ?_⟩
  · cases d <;> first | rfl | cases hd
  · intro m k; cases d <;> first | rfl | cases hd

theorem Passes.of_advance {s : State} {i : Instr} {cost : Nat} (h : exec i s = .next (s.advance cost)) : Passes s i cost :=
  ⟨_, h, s.advance_issues cost, s.advance_steady cost, s.advance_pend cost⟩

theorem Transfers.of_jump {s : State} {i : Instr} {target : Nat} {keep : Bool} (h : exec i s = .next (s.jumpTo target keep)) :
    Transfers s i target (if keep then s.core.ctl.loops else popLoops s.core.ctl.loops target) := by
  refine ⟨_, h, ?_, ?_, ?_⟩ <;> unfold State.jumpTo <;> split <;> first | rfl | simp_all

theorem State.flowBlocked_free {s : State} (h : s.flowFree) : s.flowBlocked = none := by
  obtain ⟨h1, h2⟩ := h
  have h3 : (s.core.ctl.loops.any fun l => l.stop == s.core.iss.pc) = false := by
    rw [List.any_eq_false]; intro l hl; simpa using h2 l hl
  unfold State.flowBlocked
  rw [h1, h3]; rfl

/-- A flow word that stands where it may. -/
theorem State.flow_free {s : State} (h : s.flowFree) (f : State → State) : s.flow f = .next (f s) := by
  unfold State.flow; rw [State.flowBlocked_free h]

theorem State.ctlFault_eq {s : State} (h : s.mayFault) (c : Cause) (a : W64) (det : Nat) (code : BitVec 16) :
    s.ctlFault c a det code = s.modIss fun x => { x with
      fault := some ⟨c, BitVec.ofNat 12 s.core.iss.pc, a, finfo code 0 false det 0⟩ } := by
  unfold State.ctlFault State.raise
  rw [h.1]
  simp only [if_true, State.modIss]
  unfold Issue.keepFault
  rw [h.2]

end Sys2Proof.Machine
end

