-- ==== Sys2Proof/Laws/State.lean ====
section
/-!
SUPPORT. What each update of one part of the state leaves in each part.
-/
namespace Sys2Proof.Machine

open Sys2Proof

@[simp] theorem State.modC_tb (s : State) (f : Core → Core) : (s.modC f).tb = s.tb := rfl
@[simp] theorem State.modC_phase (s : State) (f : Core → Core) : (s.modC f).phase = s.phase := rfl
@[simp] theorem State.modC_cur (s : State) (f : Core → Core) : (s.modC f).cur = s.cur := rfl
@[simp] theorem State.modC_core (s : State) (f : Core → Core) : (s.modC f).core = f s.core := rfl
@[simp] theorem State.modC_others (s : State) (f : Core → Core) : (s.modC f).others = s.others := rfl
@[simp] theorem State.modC_mem (s : State) (f : Core → Core) : (s.modC f).mem = s.mem := rfl
@[simp] theorem State.modC_worlds (s : State) (f : Core → Core) : (s.modC f).worlds = s.worlds := rfl
@[simp] theorem State.modC_disp (s : State) (f : Core → Core) : (s.modC f).disp = s.disp := rfl
@[simp] theorem State.modC_eng (s : State) (f : Core → Core) : (s.modC f).eng = s.eng := rfl
@[simp] theorem State.modC_funcs (s : State) (f : Core → Core) : (s.modC f).funcs = s.funcs := rfl
@[simp] theorem State.modC_qpairs (s : State) (f : Core → Core) : (s.modC f).qpairs = s.qpairs := rfl
@[simp] theorem State.modC_commsHeld (s : State) (f : Core → Core) : (s.modC f).commsHeld = s.commsHeld := rfl
@[simp] theorem State.modC_handlesHeld (s : State) (f : Core → Core) : (s.modC f).handlesHeld = s.handlesHeld := rfl
@[simp] theorem State.modC_qpHeld (s : State) (f : Core → Core) : (s.modC f).qpHeld = s.qpHeld := rfl
@[simp] theorem State.modC_udpDrops (s : State) (f : Core → Core) : (s.modC f).udpDrops = s.udpDrops := rfl
@[simp] theorem State.modC_posted (s : State) (f : Core → Core) : (s.modC f).posted = s.posted := rfl
@[simp] theorem State.modC_mon (s : State) (f : Core → Core) : (s.modC f).mon = s.mon := rfl
@[simp] theorem State.modC_agenda (s : State) (f : Core → Core) : (s.modC f).agenda = s.agenda := rfl
@[simp] theorem State.modC_inputs (s : State) (f : Core → Core) : (s.modC f).inputs = s.inputs := rfl
@[simp] theorem State.modC_net (s : State) (f : Core → Core) : (s.modC f).net = s.net := rfl
@[simp] theorem State.modC_out (s : State) (f : Core → Core) : (s.modC f).out = s.out := rfl
@[simp] theorem State.modC_free (s : State) (f : Core → Core) : (s.modC f).free = s.free := rfl
@[simp] theorem State.modC_nextId (s : State) (f : Core → Core) : (s.modC f).nextId = s.nextId := rfl

@[simp] theorem State.modIss_tb (s : State) (f : Issue → Issue) : (s.modIss f).tb = s.tb := rfl
@[simp] theorem State.modIss_phase (s : State) (f : Issue → Issue) : (s.modIss f).phase = s.phase := rfl
@[simp] theorem State.modIss_cur (s : State) (f : Issue → Issue) : (s.modIss f).cur = s.cur := rfl
@[simp] theorem State.modIss_core (s : State) (f : Issue → Issue) : (s.modIss f).core = { s.core with iss := f s.core.iss } := rfl
@[simp] theorem State.modIss_others (s : State) (f : Issue → Issue) : (s.modIss f).others = s.others := rfl
@[simp] theorem State.modIss_mem (s : State) (f : Issue → Issue) : (s.modIss f).mem = s.mem := rfl
@[simp] theorem State.modIss_worlds (s : State) (f : Issue → Issue) : (s.modIss f).worlds = s.worlds := rfl
@[simp] theorem State.modIss_disp (s : State) (f : Issue → Issue) : (s.modIss f).disp = s.disp := rfl
@[simp] theorem State.modIss_eng (s : State) (f : Issue → Issue) : (s.modIss f).eng = s.eng := rfl
@[simp] theorem State.modIss_funcs (s : State) (f : Issue → Issue) : (s.modIss f).funcs = s.funcs := rfl
@[simp] theorem State.modIss_qpairs (s : State) (f : Issue → Issue) : (s.modIss f).qpairs = s.qpairs := rfl
@[simp] theorem State.modIss_commsHeld (s : State) (f : Issue → Issue) : (s.modIss f).commsHeld = s.commsHeld := rfl
@[simp] theorem State.modIss_handlesHeld (s : State) (f : Issue → Issue) : (s.modIss f).handlesHeld = s.handlesHeld := rfl
@[simp] theorem State.modIss_qpHeld (s : State) (f : Issue → Issue) : (s.modIss f).qpHeld = s.qpHeld := rfl
@[simp] theorem State.modIss_udpDrops (s : State) (f : Issue → Issue) : (s.modIss f).udpDrops = s.udpDrops := rfl
@[simp] theorem State.modIss_posted (s : State) (f : Issue → Issue) : (s.modIss f).posted = s.posted := rfl
@[simp] theorem State.modIss_mon (s : State) (f : Issue → Issue) : (s.modIss f).mon = s.mon := rfl
@[simp] theorem State.modIss_agenda (s : State) (f : Issue → Issue) : (s.modIss f).agenda = s.agenda := rfl
@[simp] theorem State.modIss_inputs (s : State) (f : Issue → Issue) : (s.modIss f).inputs = s.inputs := rfl
@[simp] theorem State.modIss_net (s : State) (f : Issue → Issue) : (s.modIss f).net = s.net := rfl
@[simp] theorem State.modIss_out (s : State) (f : Issue → Issue) : (s.modIss f).out = s.out := rfl
@[simp] theorem State.modIss_free (s : State) (f : Issue → Issue) : (s.modIss f).free = s.free := rfl
@[simp] theorem State.modIss_nextId (s : State) (f : Issue → Issue) : (s.modIss f).nextId = s.nextId := rfl

@[simp] theorem State.modSys_tb (s : State) (f : SysRegs → SysRegs) : (s.modSys f).tb = s.tb := rfl
@[simp] theorem State.modSys_phase (s : State) (f : SysRegs → SysRegs) : (s.modSys f).phase = s.phase := rfl
@[simp] theorem State.modSys_cur (s : State) (f : SysRegs → SysRegs) : (s.modSys f).cur = s.cur := rfl
@[simp] theorem State.modSys_core (s : State) (f : SysRegs → SysRegs) : (s.modSys f).core = { s.core with sys := f s.core.sys } := rfl
@[simp] theorem State.modSys_others (s : State) (f : SysRegs → SysRegs) : (s.modSys f).others = s.others := rfl
@[simp] theorem State.modSys_mem (s : State) (f : SysRegs → SysRegs) : (s.modSys f).mem = s.mem := rfl
@[simp] theorem State.modSys_worlds (s : State) (f : SysRegs → SysRegs) : (s.modSys f).worlds = s.worlds := rfl
@[simp] theorem State.modSys_disp (s : State) (f : SysRegs → SysRegs) : (s.modSys f).disp = s.disp := rfl
@[simp] theorem State.modSys_eng (s : State) (f : SysRegs → SysRegs) : (s.modSys f).eng = s.eng := rfl
@[simp] theorem State.modSys_funcs (s : State) (f : SysRegs → SysRegs) : (s.modSys f).funcs = s.funcs := rfl
@[simp] theorem State.modSys_qpairs (s : State) (f : SysRegs → SysRegs) : (s.modSys f).qpairs = s.qpairs := rfl
@[simp] theorem State.modSys_commsHeld (s : State) (f : SysRegs → SysRegs) : (s.modSys f).commsHeld = s.commsHeld := rfl
@[simp] theorem State.modSys_handlesHeld (s : State) (f : SysRegs → SysRegs) : (s.modSys f).handlesHeld = s.handlesHeld := rfl
@[simp] theorem State.modSys_qpHeld (s : State) (f : SysRegs → SysRegs) : (s.modSys f).qpHeld = s.qpHeld := rfl
@[simp] theorem State.modSys_udpDrops (s : State) (f : SysRegs → SysRegs) : (s.modSys f).udpDrops = s.udpDrops := rfl
@[simp] theorem State.modSys_posted (s : State) (f : SysRegs → SysRegs) : (s.modSys f).posted = s.posted := rfl
@[simp] theorem State.modSys_mon (s : State) (f : SysRegs → SysRegs) : (s.modSys f).mon = s.mon := rfl
@[simp] theorem State.modSys_agenda (s : State) (f : SysRegs → SysRegs) : (s.modSys f).agenda = s.agenda := rfl
@[simp] theorem State.modSys_inputs (s : State) (f : SysRegs → SysRegs) : (s.modSys f).inputs = s.inputs := rfl
@[simp] theorem State.modSys_net (s : State) (f : SysRegs → SysRegs) : (s.modSys f).net = s.net := rfl
@[simp] theorem State.modSys_out (s : State) (f : SysRegs → SysRegs) : (s.modSys f).out = s.out := rfl
@[simp] theorem State.modSys_free (s : State) (f : SysRegs → SysRegs) : (s.modSys f).free = s.free := rfl
@[simp] theorem State.modSys_nextId (s : State) (f : SysRegs → SysRegs) : (s.modSys f).nextId = s.nextId := rfl

@[simp] theorem State.modBnd_tb (s : State) (f : Bound → Bound) : (s.modBnd f).tb = s.tb := rfl
@[simp] theorem State.modBnd_phase (s : State) (f : Bound → Bound) : (s.modBnd f).phase = s.phase := rfl
@[simp] theorem State.modBnd_cur (s : State) (f : Bound → Bound) : (s.modBnd f).cur = s.cur := rfl
@[simp] theorem State.modBnd_core (s : State) (f : Bound → Bound) : (s.modBnd f).core = { s.core with bnd := f s.core.bnd } := rfl
@[simp] theorem State.modBnd_others (s : State) (f : Bound → Bound) : (s.modBnd f).others = s.others := rfl
@[simp] theorem State.modBnd_mem (s : State) (f : Bound → Bound) : (s.modBnd f).mem = s.mem := rfl
@[simp] theorem State.modBnd_worlds (s : State) (f : Bound → Bound) : (s.modBnd f).worlds = s.worlds := rfl
@[simp] theorem State.modBnd_disp (s : State) (f : Bound → Bound) : (s.modBnd f).disp = s.disp := rfl
@[simp] theorem State.modBnd_eng (s : State) (f : Bound → Bound) : (s.modBnd f).eng = s.eng := rfl
@[simp] theorem State.modBnd_funcs (s : State) (f : Bound → Bound) : (s.modBnd f).funcs = s.funcs := rfl
@[simp] theorem State.modBnd_qpairs (s : State) (f : Bound → Bound) : (s.modBnd f).qpairs = s.qpairs := rfl
@[simp] theorem State.modBnd_commsHeld (s : State) (f : Bound → Bound) : (s.modBnd f).commsHeld = s.commsHeld := rfl
@[simp] theorem State.modBnd_handlesHeld (s : State) (f : Bound → Bound) : (s.modBnd f).handlesHeld = s.handlesHeld := rfl
@[simp] theorem State.modBnd_qpHeld (s : State) (f : Bound → Bound) : (s.modBnd f).qpHeld = s.qpHeld := rfl
@[simp] theorem State.modBnd_udpDrops (s : State) (f : Bound → Bound) : (s.modBnd f).udpDrops = s.udpDrops := rfl
@[simp] theorem State.modBnd_posted (s : State) (f : Bound → Bound) : (s.modBnd f).posted = s.posted := rfl
@[simp] theorem State.modBnd_mon (s : State) (f : Bound → Bound) : (s.modBnd f).mon = s.mon := rfl
@[simp] theorem State.modBnd_agenda (s : State) (f : Bound → Bound) : (s.modBnd f).agenda = s.agenda := rfl
@[simp] theorem State.modBnd_inputs (s : State) (f : Bound → Bound) : (s.modBnd f).inputs = s.inputs := rfl
@[simp] theorem State.modBnd_net (s : State) (f : Bound → Bound) : (s.modBnd f).net = s.net := rfl
@[simp] theorem State.modBnd_out (s : State) (f : Bound → Bound) : (s.modBnd f).out = s.out := rfl
@[simp] theorem State.modBnd_free (s : State) (f : Bound → Bound) : (s.modBnd f).free = s.free := rfl
@[simp] theorem State.modBnd_nextId (s : State) (f : Bound → Bound) : (s.modBnd f).nextId = s.nextId := rfl

@[simp] theorem State.modCtl_tb (s : State) (f : CtlRegs → CtlRegs) : (s.modCtl f).tb = s.tb := rfl
@[simp] theorem State.modCtl_phase (s : State) (f : CtlRegs → CtlRegs) : (s.modCtl f).phase = s.phase := rfl
@[simp] theorem State.modCtl_cur (s : State) (f : CtlRegs → CtlRegs) : (s.modCtl f).cur = s.cur := rfl
@[simp] theorem State.modCtl_core (s : State) (f : CtlRegs → CtlRegs) : (s.modCtl f).core = { s.core with ctl := f s.core.ctl } := rfl
@[simp] theorem State.modCtl_others (s : State) (f : CtlRegs → CtlRegs) : (s.modCtl f).others = s.others := rfl
@[simp] theorem State.modCtl_mem (s : State) (f : CtlRegs → CtlRegs) : (s.modCtl f).mem = s.mem := rfl
@[simp] theorem State.modCtl_worlds (s : State) (f : CtlRegs → CtlRegs) : (s.modCtl f).worlds = s.worlds := rfl
@[simp] theorem State.modCtl_disp (s : State) (f : CtlRegs → CtlRegs) : (s.modCtl f).disp = s.disp := rfl
@[simp] theorem State.modCtl_eng (s : State) (f : CtlRegs → CtlRegs) : (s.modCtl f).eng = s.eng := rfl
@[simp] theorem State.modCtl_funcs (s : State) (f : CtlRegs → CtlRegs) : (s.modCtl f).funcs = s.funcs := rfl
@[simp] theorem State.modCtl_qpairs (s : State) (f : CtlRegs → CtlRegs) : (s.modCtl f).qpairs = s.qpairs := rfl
@[simp] theorem State.modCtl_commsHeld (s : State) (f : CtlRegs → CtlRegs) : (s.modCtl f).commsHeld = s.commsHeld := rfl
@[simp] theorem State.modCtl_handlesHeld (s : State) (f : CtlRegs → CtlRegs) : (s.modCtl f).handlesHeld = s.handlesHeld := rfl
@[simp] theorem State.modCtl_qpHeld (s : State) (f : CtlRegs → CtlRegs) : (s.modCtl f).qpHeld = s.qpHeld := rfl
@[simp] theorem State.modCtl_udpDrops (s : State) (f : CtlRegs → CtlRegs) : (s.modCtl f).udpDrops = s.udpDrops := rfl
@[simp] theorem State.modCtl_posted (s : State) (f : CtlRegs → CtlRegs) : (s.modCtl f).posted = s.posted := rfl
@[simp] theorem State.modCtl_mon (s : State) (f : CtlRegs → CtlRegs) : (s.modCtl f).mon = s.mon := rfl
@[simp] theorem State.modCtl_agenda (s : State) (f : CtlRegs → CtlRegs) : (s.modCtl f).agenda = s.agenda := rfl
@[simp] theorem State.modCtl_inputs (s : State) (f : CtlRegs → CtlRegs) : (s.modCtl f).inputs = s.inputs := rfl
@[simp] theorem State.modCtl_net (s : State) (f : CtlRegs → CtlRegs) : (s.modCtl f).net = s.net := rfl
@[simp] theorem State.modCtl_out (s : State) (f : CtlRegs → CtlRegs) : (s.modCtl f).out = s.out := rfl
@[simp] theorem State.modCtl_free (s : State) (f : CtlRegs → CtlRegs) : (s.modCtl f).free = s.free := rfl
@[simp] theorem State.modCtl_nextId (s : State) (f : CtlRegs → CtlRegs) : (s.modCtl f).nextId = s.nextId := rfl

@[simp] theorem State.modMem_tb (s : State) (f : Mem → Mem) : (s.modMem f).tb = s.tb := rfl
@[simp] theorem State.modMem_phase (s : State) (f : Mem → Mem) : (s.modMem f).phase = s.phase := rfl
@[simp] theorem State.modMem_cur (s : State) (f : Mem → Mem) : (s.modMem f).cur = s.cur := rfl
@[simp] theorem State.modMem_core (s : State) (f : Mem → Mem) : (s.modMem f).core = s.core := rfl
@[simp] theorem State.modMem_others (s : State) (f : Mem → Mem) : (s.modMem f).others = s.others := rfl
@[simp] theorem State.modMem_mem (s : State) (f : Mem → Mem) : (s.modMem f).mem = f s.mem := rfl
@[simp] theorem State.modMem_worlds (s : State) (f : Mem → Mem) : (s.modMem f).worlds = s.worlds := rfl
@[simp] theorem State.modMem_disp (s : State) (f : Mem → Mem) : (s.modMem f).disp = s.disp := rfl
@[simp] theorem State.modMem_eng (s : State) (f : Mem → Mem) : (s.modMem f).eng = s.eng := rfl
@[simp] theorem State.modMem_funcs (s : State) (f : Mem → Mem) : (s.modMem f).funcs = s.funcs := rfl
@[simp] theorem State.modMem_qpairs (s : State) (f : Mem → Mem) : (s.modMem f).qpairs = s.qpairs := rfl
@[simp] theorem State.modMem_commsHeld (s : State) (f : Mem → Mem) : (s.modMem f).commsHeld = s.commsHeld := rfl
@[simp] theorem State.modMem_handlesHeld (s : State) (f : Mem → Mem) : (s.modMem f).handlesHeld = s.handlesHeld := rfl
@[simp] theorem State.modMem_qpHeld (s : State) (f : Mem → Mem) : (s.modMem f).qpHeld = s.qpHeld := rfl
@[simp] theorem State.modMem_udpDrops (s : State) (f : Mem → Mem) : (s.modMem f).udpDrops = s.udpDrops := rfl
@[simp] theorem State.modMem_posted (s : State) (f : Mem → Mem) : (s.modMem f).posted = s.posted := rfl
@[simp] theorem State.modMem_mon (s : State) (f : Mem → Mem) : (s.modMem f).mon = s.mon := rfl
@[simp] theorem State.modMem_agenda (s : State) (f : Mem → Mem) : (s.modMem f).agenda = s.agenda := rfl
@[simp] theorem State.modMem_inputs (s : State) (f : Mem → Mem) : (s.modMem f).inputs = s.inputs := rfl
@[simp] theorem State.modMem_net (s : State) (f : Mem → Mem) : (s.modMem f).net = s.net := rfl
@[simp] theorem State.modMem_out (s : State) (f : Mem → Mem) : (s.modMem f).out = s.out := rfl
@[simp] theorem State.modMem_free (s : State) (f : Mem → Mem) : (s.modMem f).free = s.free := rfl
@[simp] theorem State.modMem_nextId (s : State) (f : Mem → Mem) : (s.modMem f).nextId = s.nextId := rfl

@[simp] theorem State.modDisp_tb (s : State) (f : Dispatch → Dispatch) : (s.modDisp f).tb = s.tb := rfl
@[simp] theorem State.modDisp_phase (s : State) (f : Dispatch → Dispatch) : (s.modDisp f).phase = s.phase := rfl
@[simp] theorem State.modDisp_cur (s : State) (f : Dispatch → Dispatch) : (s.modDisp f).cur = s.cur := rfl
@[simp] theorem State.modDisp_core (s : State) (f : Dispatch → Dispatch) : (s.modDisp f).core = s.core := rfl
@[simp] theorem State.modDisp_others (s : State) (f : Dispatch → Dispatch) : (s.modDisp f).others = s.others := rfl
@[simp] theorem State.modDisp_mem (s : State) (f : Dispatch → Dispatch) : (s.modDisp f).mem = s.mem := rfl
@[simp] theorem State.modDisp_worlds (s : State) (f : Dispatch → Dispatch) : (s.modDisp f).worlds = s.worlds := rfl
@[simp] theorem State.modDisp_disp (s : State) (f : Dispatch → Dispatch) : (s.modDisp f).disp = f s.disp := rfl
@[simp] theorem State.modDisp_eng (s : State) (f : Dispatch → Dispatch) : (s.modDisp f).eng = s.eng := rfl
@[simp] theorem State.modDisp_funcs (s : State) (f : Dispatch → Dispatch) : (s.modDisp f).funcs = s.funcs := rfl
@[simp] theorem State.modDisp_qpairs (s : State) (f : Dispatch → Dispatch) : (s.modDisp f).qpairs = s.qpairs := rfl
@[simp] theorem State.modDisp_commsHeld (s : State) (f : Dispatch → Dispatch) : (s.modDisp f).commsHeld = s.commsHeld := rfl
@[simp] theorem State.modDisp_handlesHeld (s : State) (f : Dispatch → Dispatch) : (s.modDisp f).handlesHeld = s.handlesHeld := rfl
@[simp] theorem State.modDisp_qpHeld (s : State) (f : Dispatch → Dispatch) : (s.modDisp f).qpHeld = s.qpHeld := rfl
@[simp] theorem State.modDisp_udpDrops (s : State) (f : Dispatch → Dispatch) : (s.modDisp f).udpDrops = s.udpDrops := rfl
@[simp] theorem State.modDisp_posted (s : State) (f : Dispatch → Dispatch) : (s.modDisp f).posted = s.posted := rfl
@[simp] theorem State.modDisp_mon (s : State) (f : Dispatch → Dispatch) : (s.modDisp f).mon = s.mon := rfl
@[simp] theorem State.modDisp_agenda (s : State) (f : Dispatch → Dispatch) : (s.modDisp f).agenda = s.agenda := rfl
@[simp] theorem State.modDisp_inputs (s : State) (f : Dispatch → Dispatch) : (s.modDisp f).inputs = s.inputs := rfl
@[simp] theorem State.modDisp_net (s : State) (f : Dispatch → Dispatch) : (s.modDisp f).net = s.net := rfl
@[simp] theorem State.modDisp_out (s : State) (f : Dispatch → Dispatch) : (s.modDisp f).out = s.out := rfl
@[simp] theorem State.modDisp_free (s : State) (f : Dispatch → Dispatch) : (s.modDisp f).free = s.free := rfl
@[simp] theorem State.modDisp_nextId (s : State) (f : Dispatch → Dispatch) : (s.modDisp f).nextId = s.nextId := rfl

@[simp] theorem State.modEng_tb (s : State) (f : Engines → Engines) : (s.modEng f).tb = s.tb := rfl
@[simp] theorem State.modEng_phase (s : State) (f : Engines → Engines) : (s.modEng f).phase = s.phase := rfl
@[simp] theorem State.modEng_cur (s : State) (f : Engines → Engines) : (s.modEng f).cur = s.cur := rfl
@[simp] theorem State.modEng_core (s : State) (f : Engines → Engines) : (s.modEng f).core = s.core := rfl
@[simp] theorem State.modEng_others (s : State) (f : Engines → Engines) : (s.modEng f).others = s.others := rfl
@[simp] theorem State.modEng_mem (s : State) (f : Engines → Engines) : (s.modEng f).mem = s.mem := rfl
@[simp] theorem State.modEng_worlds (s : State) (f : Engines → Engines) : (s.modEng f).worlds = s.worlds := rfl
@[simp] theorem State.modEng_disp (s : State) (f : Engines → Engines) : (s.modEng f).disp = s.disp := rfl
@[simp] theorem State.modEng_eng (s : State) (f : Engines → Engines) : (s.modEng f).eng = f s.eng := rfl
@[simp] theorem State.modEng_funcs (s : State) (f : Engines → Engines) : (s.modEng f).funcs = s.funcs := rfl
@[simp] theorem State.modEng_qpairs (s : State) (f : Engines → Engines) : (s.modEng f).qpairs = s.qpairs := rfl
@[simp] theorem State.modEng_commsHeld (s : State) (f : Engines → Engines) : (s.modEng f).commsHeld = s.commsHeld := rfl
@[simp] theorem State.modEng_handlesHeld (s : State) (f : Engines → Engines) : (s.modEng f).handlesHeld = s.handlesHeld := rfl
@[simp] theorem State.modEng_qpHeld (s : State) (f : Engines → Engines) : (s.modEng f).qpHeld = s.qpHeld := rfl
@[simp] theorem State.modEng_udpDrops (s : State) (f : Engines → Engines) : (s.modEng f).udpDrops = s.udpDrops := rfl
@[simp] theorem State.modEng_posted (s : State) (f : Engines → Engines) : (s.modEng f).posted = s.posted := rfl
@[simp] theorem State.modEng_mon (s : State) (f : Engines → Engines) : (s.modEng f).mon = s.mon := rfl
@[simp] theorem State.modEng_agenda (s : State) (f : Engines → Engines) : (s.modEng f).agenda = s.agenda := rfl
@[simp] theorem State.modEng_inputs (s : State) (f : Engines → Engines) : (s.modEng f).inputs = s.inputs := rfl
@[simp] theorem State.modEng_net (s : State) (f : Engines → Engines) : (s.modEng f).net = s.net := rfl
@[simp] theorem State.modEng_out (s : State) (f : Engines → Engines) : (s.modEng f).out = s.out := rfl
@[simp] theorem State.modEng_free (s : State) (f : Engines → Engines) : (s.modEng f).free = s.free := rfl
@[simp] theorem State.modEng_nextId (s : State) (f : Engines → Engines) : (s.modEng f).nextId = s.nextId := rfl

@[simp] theorem State.at__tb (s : State) (c : Nat) (i : Instr) : (s.at_ c i).tb = s.tb := rfl
@[simp] theorem State.at__phase (s : State) (c : Nat) (i : Instr) : (s.at_ c i).phase = s.phase := rfl
@[simp] theorem State.at__cur (s : State) (c : Nat) (i : Instr) : (s.at_ c i).cur = s.cur := rfl
@[simp] theorem State.at__core (s : State) (c : Nat) (i : Instr) : (s.at_ c i).core = s.core := rfl
@[simp] theorem State.at__others (s : State) (c : Nat) (i : Instr) : (s.at_ c i).others = s.others := rfl
@[simp] theorem State.at__mem (s : State) (c : Nat) (i : Instr) : (s.at_ c i).mem = s.mem := rfl
@[simp] theorem State.at__worlds (s : State) (c : Nat) (i : Instr) : (s.at_ c i).worlds = s.worlds := rfl
@[simp] theorem State.at__disp (s : State) (c : Nat) (i : Instr) : (s.at_ c i).disp = s.disp := rfl
@[simp] theorem State.at__eng (s : State) (c : Nat) (i : Instr) : (s.at_ c i).eng = s.eng := rfl
@[simp] theorem State.at__funcs (s : State) (c : Nat) (i : Instr) : (s.at_ c i).funcs = s.funcs := rfl
@[simp] theorem State.at__qpairs (s : State) (c : Nat) (i : Instr) : (s.at_ c i).qpairs = s.qpairs := rfl
@[simp] theorem State.at__commsHeld (s : State) (c : Nat) (i : Instr) : (s.at_ c i).commsHeld = s.commsHeld := rfl
@[simp] theorem State.at__handlesHeld (s : State) (c : Nat) (i : Instr) : (s.at_ c i).handlesHeld = s.handlesHeld := rfl
@[simp] theorem State.at__qpHeld (s : State) (c : Nat) (i : Instr) : (s.at_ c i).qpHeld = s.qpHeld := rfl
@[simp] theorem State.at__udpDrops (s : State) (c : Nat) (i : Instr) : (s.at_ c i).udpDrops = s.udpDrops := rfl
@[simp] theorem State.at__posted (s : State) (c : Nat) (i : Instr) : (s.at_ c i).posted = s.posted := rfl
@[simp] theorem State.at__mon (s : State) (c : Nat) (i : Instr) : (s.at_ c i).mon = s.mon := rfl
@[simp] theorem State.at__agenda (s : State) (c : Nat) (i : Instr) : (s.at_ c i).agenda = s.agenda ++ [(c, i)] := rfl
@[simp] theorem State.at__inputs (s : State) (c : Nat) (i : Instr) : (s.at_ c i).inputs = s.inputs := rfl
@[simp] theorem State.at__net (s : State) (c : Nat) (i : Instr) : (s.at_ c i).net = s.net := rfl
@[simp] theorem State.at__out (s : State) (c : Nat) (i : Instr) : (s.at_ c i).out = s.out := rfl
@[simp] theorem State.at__free (s : State) (c : Nat) (i : Instr) : (s.at_ c i).free = s.free := rfl
@[simp] theorem State.at__nextId (s : State) (c : Nat) (i : Instr) : (s.at_ c i).nextId = s.nextId := rfl

@[simp] theorem State.say_tb (s : State) (o : Out) : (s.say o).tb = s.tb := rfl
@[simp] theorem State.say_phase (s : State) (o : Out) : (s.say o).phase = s.phase := rfl
@[simp] theorem State.say_cur (s : State) (o : Out) : (s.say o).cur = s.cur := rfl
@[simp] theorem State.say_core (s : State) (o : Out) : (s.say o).core = s.core := rfl
@[simp] theorem State.say_others (s : State) (o : Out) : (s.say o).others = s.others := rfl
@[simp] theorem State.say_mem (s : State) (o : Out) : (s.say o).mem = s.mem := rfl
@[simp] theorem State.say_worlds (s : State) (o : Out) : (s.say o).worlds = s.worlds := rfl
@[simp] theorem State.say_disp (s : State) (o : Out) : (s.say o).disp = s.disp := rfl
@[simp] theorem State.say_eng (s : State) (o : Out) : (s.say o).eng = s.eng := rfl
@[simp] theorem State.say_funcs (s : State) (o : Out) : (s.say o).funcs = s.funcs := rfl
@[simp] theorem State.say_qpairs (s : State) (o : Out) : (s.say o).qpairs = s.qpairs := rfl
@[simp] theorem State.say_commsHeld (s : State) (o : Out) : (s.say o).commsHeld = s.commsHeld := rfl
@[simp] theorem State.say_handlesHeld (s : State) (o : Out) : (s.say o).handlesHeld = s.handlesHeld := rfl
@[simp] theorem State.say_qpHeld (s : State) (o : Out) : (s.say o).qpHeld = s.qpHeld := rfl
@[simp] theorem State.say_udpDrops (s : State) (o : Out) : (s.say o).udpDrops = s.udpDrops := rfl
@[simp] theorem State.say_posted (s : State) (o : Out) : (s.say o).posted = s.posted := rfl
@[simp] theorem State.say_mon (s : State) (o : Out) : (s.say o).mon = s.mon := rfl
@[simp] theorem State.say_agenda (s : State) (o : Out) : (s.say o).agenda = s.agenda := rfl
@[simp] theorem State.say_inputs (s : State) (o : Out) : (s.say o).inputs = s.inputs := rfl
@[simp] theorem State.say_net (s : State) (o : Out) : (s.say o).net = s.net := rfl
@[simp] theorem State.say_out (s : State) (o : Out) : (s.say o).out = s.out ++ [o] := rfl
@[simp] theorem State.say_free (s : State) (o : Out) : (s.say o).free = s.free := rfl
@[simp] theorem State.say_nextId (s : State) (o : Out) : (s.say o).nextId = s.nextId := rfl

end Sys2Proof.Machine
end

