-- ==== Sys2Proof/Tests/Slice0.lean ====
section
/-!
SUPPORT. Tests of single definitions and single steps, and witnesses that the hypotheses of the statements can be met.
The words are written out from the encoding tables of chapters 3 to 6, 9, 11, 12 and 17; the expected results are the
manual's worked examples, or computed by hand from its tables.
-/
namespace Sys2Proof.Tests

open Sys2Proof Sys2Proof.Machine

/-! ### Well-formedness: one ill-formed term for each check, refused -/

/-- R101, R77, R169, R217, R222: NOT with a second source; ACAS of s31; launches whose words run past 0xFFF; a ring count of
0; a phase level above 4. -/
theorem test_wf_control : [Instr.kop 1 2 3 .not, .acas 31 0 0, .vrun 255 16 0 (.rel 0), .mrun 255 255 0 (.rel 0),
    .trun 241 255 0 (.rel 0), .rclm 0 0 0 0, .rwfl 0 0 0 0, .rwfr 0 0 0 0, .rpub 0 0 0, .rrel 0 0 0, .parv 0 5, .pwait 5 0,
    .pbar 7].all (fun i => !i.wf) = true := by decide

/-- R127, R131, R135, R136, R140, R146: reserved combinations of the vector and table words. -/
theorem test_wf_stream : let st : Stp := ⟨0, 1⟩
    [Instr.vmov .mFromV 0 0 true st, .vmov .mFromV 8 0 false st, .vmov .vFromM 0 8 false st, .vmov .vFromM 0 0 true st,
     .vcvt 0 1 .bf16 .fp16 true false st, .vrcp .int32 0 1 false st, .vrsq .int32 0 1 false st, .vexp2 .int32 0 1 false st,
     .vlg2 .int32 0 1 false st, .vqcvt 0 1 2 .bf16 .bx8 false st, .tseg .int32 0 1 0 st, .tint .int32 0 1 0 st,
     .tqad .int32 0 1 0 st, .tclmp .int32 0 1 0 st].all (fun i => !i.wf) = true := by decide

/-- The machine's own steps name a core, column, jetton or queue that exists. -/
theorem test_wf_steps : [Instr.loadStallComplete 2064, .streamStart 2048 .vector, .streamEndEvent 2048 .table,
    .phaseWaitComplete 2048, .wevComplete 2064, .copyRecordLanded 2048 0 1, .followOnStart 2048, .fabricWaitComplete 2064,
    .taskStart 2048, .taskEnd 2048, .taskRestart 2048, .overrun 2048, .replayStart 2048, .drainDivert 2048, .sealCore 2048,
    .sealRecordComplete 2048, .coreScrubStart 2048, .coreScrubEnd 2048, .halt 2048, .step 2048 1, .step 0 0, .cont 2048,
    .rreg 2048 (.s 0), .wreg 2048 (.s 0) 0, .completionRecordWrite 16384, .preemptionRequest 16384, .evictionRequest 16384,
    .evictionComplete 16384, .jettonRelease 16384, .jettonDoorbell 0 16384 0 0, .commandQueueDoorbell 0 2048, .scanHold 2048,
    .scanStart 2048, .scanRelease 2048, .scanDrainEnd 2048, .scanRunEnd 2048, .scanScrubEnd 2048,
    .pluginCallTimeout 16].all (fun i => !i.wf) = true := by decide

/-- Their neighbours at the boundary are well formed. -/
theorem test_wf_admits : [Instr.kop 1 2 0 .not, .acas 30 0 0, .vrun 240 255 0 (.rel 0), .rclm 0 0 0 4095, .pbar 4,
    .vmov .mFromV 7 31 false ⟨0, 1⟩, .vqcvt 0 1 3 .bf16 .bx4 false ⟨0, 1⟩, .taskStart 2047, .wevComplete 2063,
    .preemptionRequest 16383, .commandQueueDoorbell 0 2047, .pluginCallTimeout 15].all Instr.wf = true := by decide

/-! ### Decoding: words written out from the encoding tables -/

/-- Tables 3.6, 4.1 to 4.5: the arithmetic, move, multiply, compare and predicate groups. -/
theorem test_decode_arithmetic :
    decode 0x033A12600000 = .ok (.divs 7 8 9) ∧ decode 0x082008456789 = .ok (.movhi 4 0x456789) ∧
    decode 0x040886400000 = .ok (.cmp 1 2 3 .lt) :=
  ⟨rfl, rfl, rfl⟩

/-- Tables 4.6 to 4.10: loads, stores, capabilities, control flow. -/
theorem test_decode_memory_and_flow :
    decode 0x103130000040 = .ok (.ld 6 2 .b8 0x40) ∧ decode 0x123120FFFFF8 = .ok (.st 6 2 .b4 0xFFFFF8) ∧
    decode 0x181888000000 = .ok (.cbnd 3 2 4) ∧ decode 0x203000FFFFFD = .ok (.b 1 true 0xFFFFFD) ∧
    decode 0x230A51000300 = .ok (.jf 0x0A51 0x300) :=
  ⟨rfl, rfl, rfl, rfl, rfl⟩

/-- Table 4.11: the system group. -/
theorem test_decode_system :
    decode 0x3C1800800005 = .ok (.srd 3 5) ∧ decode 0x3C0140400012 = .ok (.svc 5 0x12) :=
  ⟨rfl, rfl⟩

/-- Tables 9.2 to 9.5: ring, semaphore, fence and phase words. -/
theorem test_decode_synchronisation :
    decode 0x482880200008 = .ok (.rclm 5 2 0 1) ∧ decode 0x483000400008 = .ok (.rwfl 6 0 0 1) ∧
    decode 0x480080800008 = .ok (.rpub 2 0 1) ∧ decode 0x480000A00008 = .ok (.rrel 0 0 1) ∧
    decode 0x4911A0000010 = .ok (.ssig 2 3 .group 0x10) ∧ decode 0x4E18C3000004 = .ok (.acq 3 1 .ge .tenant 4) ∧
    decode 0x4F20C0000000 = .ok (.carry 4 1 0) ∧ decode 0x4C0000400001 = .ok (.pbar 1) ∧
    decode 0x4C0000600003 = .ok (.fence .cluster) :=
  ⟨rfl, rfl, rfl, rfl, rfl, rfl, rfl, rfl, rfl⟩

/-- Tables 11.1, 12.5 and 17.5: copies, prefix commands, fabric words. -/
theorem test_decode_commands :
    decode 0x503429800014 = .ok (.cpy 3 4 5 6 (.rel 20)) ∧ decode 0x594800400002 = .ok (.cstat 9 2) ∧
    decode 0x5A000A600000 = .ok (.kvap 5) ∧ decode 0x5A008A200001 = .ok (.kvlk 2 5 true) ∧
    decode 0x5A308A400000 = .ok (.kvin 6 2 5) ∧ decode 0x5B2086000000 = .ok (.xseq 4 2 3) ∧
    decode 0x5B0086200000 = .ok (.xbar 2 3) ∧ decode 0x5B3086400000 = .ok (.xcan 6 2 3) ∧
    decode 0x5B2886600000 = .ok (.xwait 5 2 3) ∧ decode 0x5C3429800014 = .ok (.xar 3 4 5 6 (.rel 20)) :=
  ⟨rfl, rfl, rfl, rfl, rfl, rfl, rfl, rfl, rfl, rfl⟩

/-- Tables 5.2 and 6.3: vector, table and matrix words. -/
theorem test_decode_streams :
    decode 0xB60081001003 = .ok (.vbmax 2 .bf16 .bx8 true ⟨1, 3⟩) ∧ decode 0xBF0000FFE001 = .ok (.vnop ⟨0xFFE, 1⟩) ∧
    decode 0xB72800000000 = .ok (.vqsc 5 0 ⟨0, 0⟩) :=
  ⟨rfl, rfl, rfl⟩

/-- R70, R73, R83: a reserved field, a reserved code, a register that its class lacks, a reserved function. -/
theorem test_decode_refuses :
    decode 0x3C0000000001 = .error .reservedField ∧ decode 0x040887400000 = .error .reservedCode ∧
    decode 0x044886400000 = .error .noSuchRegister ∧ decode 0x4C0000600006 = .error .reservedCode :=
  ⟨rfl, rfl, rfl, rfl⟩

/-! ### Single steps -/

/-- A task of world 0 on core 0, its control word at address 0 in its turn. -/
def task : State := (State.reset.withFetchWord 48 0).setJetton 0 { Jetton.reset with state := .running }
def putS (s : State) (n : Fin 32) (v : W64) : State := s.modCtl fun c => { c with s := c.s.set n v }
def putC (s : State) (n : Fin 16) (v : Cap) : State := s.modCtl fun c => { c with c := c.c.set n v }
/-- What `f` sees of the state after the instruction and the end of the cycle `e`. -/
def after {α : Type} (i : Instr) (s : State) (e : Nat) (f : State → α) : Option α :=
  match exec i s with
  | .next t => some (f (t.commit e))
  | _ => none
def s1 (t : State) : W64 := t.core.ctl.s[1]
/-- The cause and DET of the fault raised. -/
def raised (t : State) : Option (Cause × Nat) := t.core.iss.fault.map fun f => (f.cause, infoDet f.info)

/-- Table 4.1: sums wrap, and SHRA keeps the sign. -/
theorem test_add_wraps : after (.add 1 2 3) (putS (putS task 2 (-1)) 3 3) 0 s1 = some 2 := by decide
theorem test_shra_by_64 : after (.shra 1 2 3) (putS (putS task 2 0x8000000000000000) 3 65) 0 s1 = some 0xC000000000000000 := by decide
/-- Table 4.2: immediates are sign extended; MOVHI shifts its register. -/
theorem test_addi_negative : after (.addi 1 2 0xFFFFFF) task 0 s1 = some 0xFFFFFFFFFFFFFFFF := by decide
theorem test_movhi : after (.movhi 1 0x456789) (putS task 1 0x123) 0 s1 = some 0x123456789 := by decide
/-- Table 4.3: BFX past bit 63 reads zeros; MORT interleaves. -/
theorem test_bfx_past_the_top : after (.bfx 1 2 60 7) (putS task 2 (-1)) 0 s1 = some 0xF := by decide
theorem test_mort : after (.mort 1 2 3) (putS (putS task 2 3) 3 1) 0 s1 = some 7 := by decide
/-- R99: division by zero, the overflow of division, and the cycle a quotient is written in. -/
theorem test_divs_by_zero : after (.divs 1 2 3) (putS task 2 7) 19 s1 = some 0xFFFFFFFFFFFFFFFF := by decide
theorem test_rems_overflow : after (.rems 1 2 3) (putS (putS task 2 0x8000000000000000) 3 (-1)) 19 s1 = some 0 := by decide
theorem test_divu_not_before_its_cycle : after (.divu 1 2 3) (putS (putS task 2 9) 3 2) 18 s1 = some 0 := by decide
/-- R100: LT is signed, LTU is not. -/
theorem test_cmp_signs : after (.cmp 1 2 3 .lt) (putS task 2 (-1)) 0 (fun t => t.core.ctl.k) = some 3 ∧
    after (.cmp 1 2 3 .ltu) (putS task 2 (-1)) 0 (fun t => t.core.ctl.k) = some 1 := by decide
/-- Table 1.2: a write of k0 is discarded. -/
theorem test_k0_stays : after (.cmp 0 2 3 .ne) task 0 (fun t => t.core.ctl.k) = some 1 := by decide

/-- The example after R250: world 7, READ and WRITE, cursor 0x0000_2000_0003_0010. -/
def wide : Cap := ⟨0x0000200000030010, mkHigh 7 0 3 49 0 0 0x3FFF, true⟩
theorem test_cbnd_example : (match capBnd wide 100001 with
    | .ok c => (c.high, c.base, c.top) == (0x038000187800B0D4, 0x0000200000030010, 0x00002000000486B8)
    | .error _ => false) = true := by decide
/-- The same example: CADD keeps or clears the tag by the representable region. -/
theorem test_cadd_example : (match capBnd wide 100001 with
    | .ok c => [capAdd c 0x30000, capAdd c (-0x10000), capAdd c 100007].map fun r => match r with
        | .ok d => (d.cur, d.tag) | .error _ => (0, false)
    | .error _ => []) = [(0x0000200000060010, false), (0x0000200000020010, true), (0x00002000000486B7, true)] := by decide

/-- R102 to R104: a byte of a bank of the own window, sign extended; an unaligned address raises ALIGN. -/
def bank0 : Cap := mkCap 0 0x3F (bankBase 0 0) 0x1000
def loaded : State := (putC task 1 bank0).modMem fun m => m.write (bankBase 0 0) [0x80, 0x01]
theorem test_lds_sign : after (.lds 1 1 .b1 0) loaded 2 s1 = some 0xFFFFFFFFFFFFFF80 := by decide
theorem test_ld_order : after (.ld 1 1 .b2 0) loaded 2 s1 = some 0x0180 := by decide
theorem test_ld_unaligned : after (.ld 1 1 .b2 1) loaded 2 raised = some (some (.align, 0)) := by decide
theorem test_ld_untagged : after (.ld 1 2 .b1 0) loaded 2 raised = some (some (.captag, 0)) := by decide
theorem test_st_bytes : after (.st 2 1 .b4 4) (putS loaded 2 0x0102030405060708) 0
    (fun t => t.mem.read (bankBase 0 0 + 3) 6) = some [0, 8, 7, 6, 5, 0] := by decide

/-- R38, R109: a taken branch, an untaken one, and one out of the code space. -/
theorem test_b_taken : after (.b 0 false 5) task 0 (fun t => (t.core.iss.pc, t.core.iss.next)) = some (5, 2) := by decide
theorem test_b_untaken : after (.b 0 true 5) task 0 (fun t => (t.core.iss.pc, t.core.iss.next)) = some (1, 1) := by decide
theorem test_j_below_zero : after (.j 0xFFFFFF) task 0 raised = some (some (.ill, 0)) := by decide
/-- R33, R35, R36: LOOP pushes its level, and one of count 0 is passed over. -/
theorem test_loop_pushes : after (.loop 2 7 3) task 0 (fun t => (t.core.ctl.loops, t.core.ctl.lc[2], t.core.iss.pc)) =
    some ([⟨2, 1, 3⟩], 7, 1) := by decide
theorem test_loop_of_zero : after (.loop 2 0 3) task 0 (fun t => (t.core.ctl.loops, t.core.iss.pc)) = some ([], 4) := by decide
/-- R26, R27: a launch arms; a start earlier than t + 2 raises SLIP with DET 9. -/
theorem test_vrun_arms : after (.vrun 4 0 0 (.rel 2)) task 0 (fun t => t.core.iss.vec.armed.map fun l => (l.first, l.count, l.start)) =
    some [(64, 1, 2)] := by decide
theorem test_vrun_too_early : after (.vrun 4 0 0 (.rel 1)) task 0 raised = some (some (.slip, 9)) := by decide
/-- R114 to R119: TRAP, SVC and BKPT raise their causes; SRD of a number that Table 1.5 does not assign raises ILL. -/
theorem test_trap : after (.trap 0 false 9) task 0 raised = some (some (.timing, 1)) := by decide
theorem test_svc : after (.svc 0 0x12) task 0 raised = some (some (.svc, 0)) := by decide
theorem test_bkpt : after (.bkpt 0) task 0 raised = some (some (.bkpt, 0)) := by decide
theorem test_srd_unassigned : after (.srd 1 0x0F) task 0 raised = some (some (.ill, 0)) := by decide
theorem test_swr_read_only : after (.swr 0x05 1) task 0 raised = some (some (.priv, 0)) := by decide
theorem test_eret_outside : after .eret task 0 raised = some (some (.priv, 0)) := by decide

/-- R45 to R49: FP32 sums: exact, a tie to even, the largest number rounding up to infinity; signs of zero; NaN. -/
theorem test_fp32_add : addF32 0x3F800000 0x3F800000 = 0x40000000 ∧ addF32 0x3F800000 0x33800000 = 0x3F800000 ∧
    addF32 0x3F800001 0x33800000 = 0x3F800002 ∧ addF32 0x7F7FFFFF 0x7F7FFFFF = 0x7F800000 ∧ addF32 0 0x80000000 = 0 := by decide
/-- R207: serial comparison wraps. -/
theorem test_serial : serialLT 0xFFFFFFFF 0 = true ∧ serialLT 0 0xFFFFFFFF = false ∧ serialLT 5 5 = false := by decide
/-- R171: the core of the other die in the same row of dies is 16 hops and one crossing away. -/
theorem test_home_cost : homeCost 0 0 = 0 ∧ homeCost 0 1 = 19 := by decide

/-- Steps on the placed word: DIVS at address 0 holds the issue slot for 20 cycles. -/
theorem test_step_divs : (match step (State.reset.withFetchWord 48 0x033A12600000) with
    | .next t => (t.core.iss.pc, t.core.iss.next) == (1, 20) | _ => false) = true := by decide
/-- A word that is no instruction raises ILL at its address. -/
theorem test_step_ill : (match step (State.reset.withFetchWord 48 0x3C0000000001) with
    | .next t => raised t == some (.ill, 0) | _ => false) = true := by decide
/-- VNOP, one operation: its stream ends. -/
theorem test_step_vnop : (match step (State.reset.withFetchWord 48 0xBF0000000000) with
    | .next t => t.core.iss.vec.run == none && t.core.iss.vec.ends.length == 1 | _ => false) = true := by decide


/-! ### Witnesses: states and operands that meet the hypotheses of the statements -/

theorem task_good : task.good := ⟨by decide, ⟨trivial, by decide⟩, ⟨by decide, by decide⟩, fun _ h => nomatch h⟩
theorem task_mayFault : task.mayFault := ⟨rfl, rfl⟩
theorem task_flowFree : task.flowFree := ⟨rfl, by decide⟩

theorem witness_ResultsWrite : (7 : KReg) ≠ 0 ∧ (7 : BitVec 3) ≠ 0 ∧ (0 : BitVec 5) ≠ 31 := by decide

/-- The codes of VMODE and of a bank's RND at the boundary: 4 is admitted, 5 is reserved. -/
theorem witness_StateRegistersReadAndWrite : task.mayFault ∧ ((4 : W64).extractLsb' 0 3).toNat ≤ 4
    ∧ 5 ≤ ((5 : W64).extractLsb' 0 3).toNat ∧ ((0x400 : W64).extractLsb' 8 3).toNat ≤ 4
    ∧ 5 ≤ ((0x500 : W64).extractLsb' 8 3).toNat ∧ (95 : Nat) < 96 :=
  ⟨task_mayFault, by decide, by decide, by decide, by decide, by decide⟩

/-- A sealing capability over the object types, its cursor at 4095 and at 0; and a capability it has sealed. -/
def sealer (at_ : W64) : Cap := ⟨at_, (mkCap 0 0x3F 0 0x1000).high, true⟩
def sealed : Cap := ⟨bank0.cur, bank0.high ||| (4095 : W64) <<< 43, true⟩
theorem witness_CapabilityWords : task.mayFault
    ∧ (bank0.tag = true ∧ bank0.otype = 0 ∧ (bank0.narrow 0x1000).isSome = true ∧ bank0.narrow 0x1001 = none ∧ bank0.narrow 0 = none)
    ∧ ((sealer 4095).has permSeal = true ∧ (sealer 4095).inBounds 4095 1 = true ∧ (sealer 4095).otype = 0)
    ∧ (sealed.otype = 4095 ∧ (sealer 4095).has permUnseal = true ∧ (sealer 4095).cur.toNat = sealed.otype)
    ∧ Cap.null.tag = false :=
  ⟨task_mayFault, by decide, by decide, by decide, by decide⟩

/-- CBND at the whole of its source, CADD and CSET to the first address past it. -/
theorem witness_CapabilitiesOnlyNarrow : (∃ c, capBnd bank0 0x1000 = .ok c) ∧ (∃ c, capPerm bank0 0 = .ok c)
    ∧ (∃ c, capAdd bank0 0x1000 = .ok c) ∧ (∃ c, capSet bank0 0 = .ok c) ∧ (∃ c, capSeal bank0 (sealer 4095) = .ok c)
    ∧ ∃ c, capUnseal sealed (sealer 4095) = .ok c := ⟨⟨_, rfl⟩, ⟨_, rfl⟩, ⟨_, rfl⟩, ⟨_, rfl⟩, ⟨_, rfl⟩, ⟨_, rfl⟩⟩

/-- The task in a drain stub; with a loop that ends at its word; with an overlay tag in segment 0. -/
def stub : State := task.modIss fun x => { x with drain := some ⟨0, some 0, 0, true, false, false, 0, false, false, none⟩ }
def inLoop : State := task.modCtl fun c => { c with loops := [⟨1, 0, 0⟩], lc := c.lc.set 1 2 }
theorem witness_TransfersGoOrFault : task.flowFree ∧ task.mayFault ∧ stub.mayFault ∧ inLoop.mayFault
    ∧ (task.kreg 0 = true ∧ task.kreg 0 ≠ false ∧ task.core.iss.pc = 0)
    ∧ ((0xFFF : BitVec 24).toInt ≤ 0xFFF ∧ (0xFFFFFF : BitVec 24).toInt < 0 ∧ 0xFFF < (0x1000 : BitVec 24).toInt)
    ∧ (task.core.bnd.segs[0].present = true ∧ task.core.bnd.segs[0].tag ≠ 1 ∧ task.core.bnd.segs[1].present = false)
    ∧ stub.core.iss.inStub = true ∧ ∃ l ∈ inLoop.core.ctl.loops, l.stop = inLoop.core.iss.pc :=
  ⟨task_flowFree, task_mayFault, ⟨rfl, rfl⟩, ⟨rfl, rfl⟩, by decide, by decide, by decide, by decide, by decide⟩

/-- An enclosing loop of level 0 up to 0xFFF: level 1 may end there too, not beyond. -/
def outer : State := task.modCtl fun c => { c with loops := [⟨0, 0, 0xFFF⟩], lc := c.lc.set 0 1 }
theorem witness_LoopsPushAndEnd : outer.flowFree ∧ (∀ l ∈ outer.core.ctl.loops, l.lvl ≠ 1)
    ∧ (1 ≤ (0xFFF : BitVec 24).toInt ∧ outer.core.iss.pc + (0xFFF : BitVec 24).toInt ≤ 0xFFF)
    ∧ (∀ l r, outer.core.ctl.loops = l :: r → outer.core.iss.pc + (0xFFF : BitVec 24).toInt ≤ l.stop)
    ∧ outer.core.ctl.lc[0] - 1 = 0 ∧ inLoop.core.ctl.lc[1] - 1 ≠ 0 := by
  refine ⟨⟨rfl, by decide⟩, by decide, by decide, ?_, by decide, by decide⟩
  rintro l r ⟨⟩; decide

/-- A stream of one word, and one of two; launches for cycle 0 and for later cycles. -/
def stream1 : Stream := ⟨0, 1, none, 0, 0, bank0, 0, 0, 0, 0, 0, []⟩
def onVector : State := task.modIss fun x => { x with vec := { x.vec with run := some stream1 } }
def launch (at_ : Nat) : Launch := ⟨16, 1, bank0, at_, 0, 0, false⟩
def armed (n : Nat) : State := task.modIss fun x => { x with vec := { x.vec with armed := List.replicate n (launch 0), ends := [0] } }
theorem witness_StreamsStartAndAdvance : task.core.fw = none ∧ (255 * 16 + 15 + 1 ≤ 4096)
    ∧ (task.tb + 2 ≤ (task.core.sys.anchor + BitVec.ofNat 64 2).toNat ∧ (task.core.sys.anchor + BitVec.ofNat 64 1).toNat < task.tb + 2)
    ∧ ((armed 3).core.col .vector).armed.length < 4 ∧ 4 ≤ ((armed 4).core.col .vector).armed.length ∧ (armed 4).mayFault
    ∧ (launch 0).start = (armed 1).tb ∧ ((armed 1).core.col .vector).run = none ∧ (onVector.core.col .vector).run ≠ none
    ∧ (∀ e ∈ ((armed 1).core.col .vector).ends, e ≤ (armed 1).tb) ∧ 0 < stream1.left ∧ onVector.core.iss.vec.run = some stream1 :=
  ⟨rfl, by decide, by decide, by decide, by decide, ⟨rfl, rfl⟩, rfl, rfl, by decide, by decide, by decide, rfl⟩

/-- A firmware processor at each level, and one with a caller. -/
def firmware (f : Fw) : State := task.modC fun c => { c with fw := some f }
theorem witness_SystemWordsAndCalls : task.mayFault ∧ task.flowFree ∧ task.kreg 0 ≠ false ∧ stub.core.iss.inStub = true ∧ stub.core.fw = none
    ∧ (firmware { Fw.reset with level := .scheduler }).core.fw = some { Fw.reset with level := .scheduler }
    ∧ (firmware { Fw.reset with level := .plugin }).core.iss.inStub = false
    ∧ (firmware { Fw.reset with calls := [(.plugin, 3)] }).core.fw = some { Fw.reset with calls := [(.plugin, 3)] }
    ∧ (firmware Fw.reset).mayFault ∧ Fw.reset.calls = [] :=
  ⟨task_mayFault, task_flowFree, by decide, rfl, rfl, rfl, rfl, rfl, ⟨rfl, rfl⟩, rfl⟩

/-! Loads, stores and home operations -/

/-- c1 over bank 0 and c2 over the accumulators of core 0, in the task's window; c3 a byte past a bank's last word. -/
def acc0 : Cap := mkCap 0 0x3F (accBase 0) 0x10000
def memory : State := putC loaded 2 acc0
/-- The same with channel 3 bound to the last eight bytes of bank 0 and nothing landed; and stalled there. -/
def marked : State := memory.modC fun c => { c with wm := c.wm.set 3 ⟨true, 0, 8, 1, [(bankBase 0 0 + 0xFF8, 0, 8)]⟩ }
def stalled (n : Nat) (dst : LoadTo) : State := marked.modIss fun x => { x with wait := .load (bankBase 0 0 + 0xFF0) n dst }
theorem witness_LoadsGiveOrStall : let a : W64 := BitVec.ofNat 64 (bankBase 0 0 + 0xFF8)
    (memory.portFree a ∧ memory.mayAccess (memory.creg 1) a 8 permRead false ∧ memory.core.aboveMark a.toNat 8 = false
      ∧ ∀ i < 8, memory.mem.damaged (a.toNat + i) = false)
    ∧ memory.mayAccess (memory.creg 1) (BitVec.ofNat 64 (bankBase 0 0 + 0xFF0)) 16 permRead false
    ∧ (marked.portFree a ∧ marked.mayAccess (marked.creg 1) a 8 permRead false ∧ marked.core.aboveMark a.toNat 8 = true
      ∧ marked.core.sys.dbg = false)
    ∧ ([(8, LoadTo.zext 5), (1, .sext 30), (16, .cap 15 true)].all fun (n, dst) => let s := stalled n dst
        s.core.iss.fault.isNone && s.core.fw.isNone && s.core.iss.wait == .load (bankBase 0 0 + 0xFF0) n dst
          && (List.range n).all fun i => !s.mem.damaged (bankBase 0 0 + 0xFF0 + i)) = true :=
  ⟨⟨⟨rfl, by decide⟩, ⟨rfl, rfl, by decide, by decide, by decide, by decide, by decide, by decide⟩, by decide, by decide⟩,
    ⟨rfl, rfl, by decide, by decide, by decide, by decide, by decide, by decide⟩,
    ⟨⟨rfl, by decide⟩, ⟨rfl, rfl, by decide, by decide, by decide, by decide, by decide, by decide⟩, by decide, rfl⟩,
    by decide⟩

theorem witness_StoresWriteTheirBytes : let a : W64 := BitVec.ofNat 64 (bankBase 0 0 + 0xFF8)
    let b : W64 := BitVec.ofNat 64 (bankBase 0 0 + 0xFF0)
    memory.portFree a ∧ memory.mayAccess (memory.creg 1) a 8 permWrite true
    ∧ memory.mayAccess (memory.creg 1) b 16 (permWrite + permStoreCap) true ∧ (memory.creg 1).tag = true
    ∧ memory.core.iss.bankPend = [] ∧ memory.core.iss.pend = [] ∧ memory.mem.wf = true :=
  ⟨⟨rfl, by decide⟩, ⟨rfl, rfl, by decide, by decide, by decide, by decide, by decide, by decide⟩,
    ⟨rfl, rfl, by decide, by decide, by decide, by decide, by decide, by decide⟩, rfl, rfl, rfl, by decide⟩

/-- Bank 0's port taken by a wide access in the cycle before. -/
def widened : State := { memory.useWide (bankBase 0 0) with tb := memory.tb + 1 }
/-- Each check of R102 failing alone: no tag; sealed; no READ; no WRITE; past the top; unaligned; an accumulator; the port. -/
theorem witness_AccessChecksInOrder : memory.mayFault ∧ memory.core.fw = none ∧ Cap.null.tag = false ∧ sealed.otype ≠ 0
    ∧ ((mkCap 0 0x3E 0 16).tag = true ∧ (mkCap 0 0x3E 0 16).has permRead = false ∧ (mkCap 0 0x3D 0 16).has permWrite = false
      ∧ (mkCap 0 0x3E 0 16).world = memory.myWorld)
    ∧ bank0.authority memory.myWorld (permRead + permWrite) = none
    ∧ (bank0.top < bankBase 0 0 + 0xFF9 + 8 ∧ bank0.inBounds (bankBase 0 0 + 0xFF7) 8 = true ∧ (bankBase 0 0 + 0xFF7) % 8 ≠ 0)
    ∧ (acc0.authority memory.myWorld (permRead + permWrite) = none ∧ acc0.inBounds (accBase 0) 8 = true
      ∧ ∃ i < 8, memory.ownReadable (accBase 0 + i) = false)
    ∧ (widened.mayFault ∧ widened.wideBusy (bankBase 0 0) = true ∧ ∀ k < 16, widened.ownReadable (bankBase 0 0 + k) = true ∧ widened.ownWritable (bankBase 0 0 + k) = true) :=
  ⟨⟨rfl, rfl⟩, rfl, rfl, by decide, by decide, by decide, by decide, ⟨by decide, by decide, 0, by decide, by decide⟩, ⟨rfl, rfl⟩, by decide, by decide⟩

/-- The first word of the accumulators, and the last eight bytes, are reached at no cost by their own core. -/
theorem witness_HomeOperationsLeave : let a : W64 := BitVec.ofNat 64 (accBase 0)
    memory.mayReach acc0 a 4 (permRead + permWrite) (.acc 0 0) 0 ∧ memory.mayReach acc0 a 4 permRead (.acc 0 0) 0
    ∧ memory.mayReach acc0 a 4 permWrite (.acc 0 0) 0
    ∧ memory.mayReach acc0 (BitVec.ofNat 64 (accBase 0 + 0xFFF8)) 8 (permRead + permWrite) (.acc 0 16382) 0
    ∧ memory.core.iss.fault = none ∧ memory.core.iss.inStub = false ∧ (30 : SReg) ≠ 31
    ∧ memory.cur < 2048 ∧ memory.admits memory.myWorld 0 = true
    ∧ accBase 2047 + 4 * 16383 = 0x0000010000000000 + 2047 * 0x100000 + 0x60000 + 4 * 16383 :=
  ⟨⟨rfl, by decide, rfl⟩, ⟨rfl, by decide, rfl⟩, ⟨rfl, by decide, rfl⟩, ⟨rfl, by decide, rfl⟩, rfl, rfl,
    by decide, by decide, by decide, by decide⟩

/-- Rings of all banks with the largest slot that gives two slots; of one bank; and operands that RINIT refuses. -/
theorem witness_RingWords : task.mayFault
    ∧ ([95 * 2 ^ 48 + 1536 * 2 ^ 36, 7 * 2 ^ 55 + 7 * 2 ^ 48 + 16 * 2 ^ 36].all fun x =>
        let first := x / 2 ^ 55 % 128; let last := x / 2 ^ 48 % 128; let sz := x / 2 ^ 36 % 4096
        decide (first ≤ last ∧ last ≤ 95 ∧ 1 ≤ sz ∧ sz ≤ 3072 ∧ 2 * sz ≤ 32 * (last - first + 1))) = true
    ∧ ([96 * 2 ^ 48 + 2 ^ 36, 2 ^ 55 + 2 ^ 36, 2 ^ 48, 3073 * 2 ^ 36].all fun x =>
        let first := x / 2 ^ 55 % 128; let last := x / 2 ^ 48 % 128; let sz := x / 2 ^ 36 % 4096
        decide (last < first ∨ 95 < last ∨ sz = 0 ∨ 3072 < sz)) = true
    ∧ (let x := 7 * 2 ^ 55 + 7 * 2 ^ 48 + 17 * 2 ^ 36; 32 * (x / 2 ^ 48 % 128 - x / 2 ^ 55 % 128 + 1) < 2 * (x / 2 ^ 36 % 4096))
    ∧ placeOf bank0.cur.toNat = .slice 0 (.bank 0) ∧ bank0.authority memory.myWorld permWrite = none
    ∧ bank0.authority memory.myWorld permRead = none ∧ memory.core.iss.inStub = false :=
  ⟨task_mayFault, by decide, by decide, by decide, by decide, by decide, by decide, rfl⟩

/-- An operation of core 0 at word 5 of its accumulators, and one whose wait is over. -/
def homeOp (what : HomeDo) (waits : Bool) : HomeOp :=
  { id := 1, asker := .core 0, run := 0, pc := 0, issue := 0, addr := 0, world := 0, what := what, home := .acc 0 5, h := 0, due := 2
    blockers := [], waits := waits, dst := some 3, acted := false, ret := 0, value := some 9, fault := none, lo := 0, hi := 0 }
def asking (what : HomeDo) : State := { memory with eng := { memory.eng with homes := [homeOp what false] } }
theorem witness_WordsActAtTheirHome : memory.mem.wf = true
    ∧ (asking (.swait 0 .ge true)).eng.homes.find? (fun h => h.id == 1) = some (homeOp (.swait 0 .ge true) false)
    ∧ (homeOp .ald false).home = .acc 0 5 ∧ (homeOp .ald false).asker = .core 0 ∧ memory.mem.damaged (accBase 0 + 20) = false ∧ memory.heldAway (accBase 0 + 20) = false
    ∧ ((homeOp .ald false).dst.isSome = true ∨ (homeOp .ald false).waits = true)
    ∧ Cond.holds .ge (memory.mem.word (accBase 0 + 20)) 0 = true ∧ Cond.holds .ge (memory.mem.word (accBase 0 + 20)) 1 = false :=
  ⟨by decide, rfl, rfl, rfl, by decide, by decide, .inl rfl, by decide, by decide⟩

def answered : State := { (asking .ald) with core := { (asking .ald).core with iss := { (asking .ald).core.iss with wait := .home 1 } } }
theorem witness_ReturnsComplete : answered.eng.homes.find? (fun h => h.id == 1) = some (homeOp .ald false)
    ∧ (homeOp .ald false).asker = .core answered.cur ∧ (homeOp .ald false).fault = none
    ∧ (homeOp .ald false).run = answered.core.iss.run ∧ answered.core.frozen = false ∧ answered.core.iss.wait = .home 1 :=
  ⟨rfl, rfl, rfl, rfl, by decide, rfl⟩

/-- A core at the view's phase plus one, and at plus two; its domain; a wait on a phase; a wait on the vector column's flag. -/
def ahead (n : BitVec 32) : State := task.modBnd fun b => { b with alpha := Vector.replicate 5 n }
def domain0 (copies : List (Nat × BitVec 32)) : Domain := ⟨0, 0, 0, 4, [], [(0, 4)], [], copies, false⟩
def waiting (w : WaitFor) (mask : BitVec 16) : State :=
  (task.modIss fun x => { x with wait := w, vec := { x.vec with flag := true } }).modSys fun r => { r with evmask := mask }
theorem witness_PhasesAdvance : task.mayFault ∧ task.core.iss.inStub = false ∧ (4 : BitVec 3).toNat ≤ 4
    ∧ ((ahead 2).alpha 4 = (ahead 2).seenPhase 0 4 + 2) ∧ serialLT ((ahead 1).alpha 4) ((ahead 1).seenPhase 0 4 + 2) = true
    ∧ ¬ serialLT ((ahead 3).alpha 0) ((ahead 3).seenPhase 0 0 + 2) = true
    ∧ (task.modDisp fun d => { d with domains := [domain0 []] }).domain? 0 = some (domain0 [])
    ∧ ((domain0 []).broken = false ∧ task.membersIn (domain0 []) 4 = true ∧ ∀ q ∈ (domain0 []).copies, q.2 ≠ (domain0 []).p)
    ∧ (¬ ∀ q ∈ (domain0 [(1, 4)]).copies, q.2 ≠ (domain0 [(1, 4)]).p)
    ∧ ((waiting (.phase 1 0xFFFFFFFF) 0).core.iss.wait = .phase 1 0xFFFFFFFF
      ∧ serialLT 0xFFFFFFFF ((waiting (.phase 1 0xFFFFFFFF) 0).seenPhase 0 1) = true
      ∧ serialLT 0 ((waiting (.phase 1 0) 0).seenPhase 0 1) = false)
    ∧ ((waiting .wev 1).core.iss.wait = .wev ∧ (waiting .wev 1).core.sys.evmask.getLsbD 0 = true ∧ (waiting .wev 1).core.iss.vec.flag = true
      ∧ (waiting .wev 1).core.sys.evmask.getLsbD 6 = false)
    ∧ (let s := task.at_ 5 (.phaseCopyRegistration 0 1 4); s.agenda.find? (fun e => e.2 == .phaseCopyRegistration 0 1 4) = some (5, .phaseCopyRegistration 0 1 4)
      ∧ s.agenda.find? (fun e => e.2 == .phaseCopyRegistration 0 2 4) = none) :=
  ⟨task_mayFault, rfl, by decide, by decide, by decide, by decide, rfl, by decide, by decide, by decide, by decide, by decide⟩

/-! Function columns -/

/-- The banks of core 0 through one capability: field f of a memory operand is row 0 of bank f. -/
def banks0 : Cap := mkCap 0 0x3F (bankBase 0 0) 0x60000
def run0 (left : Nat) : Stream := { stream1 with cap := banks0, left := left }
/-- Streams of `left` words on the three columns, with the format and rounding register of bank 3 set. -/
def columns (left : Nat) (fmt : W64) : State :=
  (task.modIss fun x => { x with
    vec := { x.vec with run := some (run0 left) }, mat := { x.mat with run := some (run0 left) }
    tab := { x.tab with run := some (run0 left) } }).modSys fun r => { r with bfmt := r.bfmt.set 3 fmt }

/-- The last row of field 3, as FP32 or as bytes 96 to 127 of it. -/
theorem witness_VectorArithmetic : (columns 1 4).core.iss.vec.run = some (run0 1)
    ∧ (columns 1 4).vFree (run0 1) true (some ⟨3, fullRow, some [.raw, .fp32]⟩) 2 [⟨1, fullRow, some [.raw, .fp32]⟩, ⟨3, fullRow, some [.raw, .fp32]⟩]
    ∧ VType.float? .fp32 = some fp32 :=
  ⟨rfl, ⟨by
    intro _ d h
    obtain rfl : _ = d := by simpa using h
    exact ⟨by decide, by decide⟩, by
    refine ⟨?_, by decide⟩
    intro r h
    obtain rfl | rfl : r = _ ∨ r = _ := by simpa [Stream.vRows] using h
    · exact ⟨by decide, by decide, by decide, by decide⟩
    · exact ⟨by decide, by decide, by decide, by decide⟩⟩, rfl⟩

theorem one_row {s : State} {st : Stream} {col : Col} {r : RowArg} (h : s.rowFree st col r) : s.rowsFree st col [r] :=
  ⟨by simpa using h, by simp⟩
theorem one_source {s : State} {st : Stream} {lat : Nat} {a : VArg}
    (h : s.rowFree st .vector (st.field a.reg.toNat, a.bytes, a.fmts)) : s.vFree st true none lat [a] :=
  ⟨by simp, one_row h⟩

/-- The memory form of VABS and of VSEL under an empty mask, which accesses no byte. -/
theorem witness_VectorLogicAndMoves : (columns 1 0).core.iss.vec.run = some (run0 1)
    ∧ (columns 1 0).vFree (run0 1) true none 2 [⟨3, fullRow, some [.raw, .bf16]⟩]
    ∧ (columns 1 0).vFree (run0 1) true none 1 [⟨3, selBytes 0 .elem, none⟩]
    ∧ VType.float? .bf16 = some bf16 ∧ VType.float? .int32 = none :=
  ⟨rfl, one_source ⟨by decide, by decide, by decide, by decide⟩, one_source ⟨by decide, by decide, by decide, by decide⟩, rfl, rfl⟩

/-- Conversions to the same, a narrower and a wider width. -/
theorem witness_VectorComparesAndReductions : (columns 1 0).core.iss.vec.run = some (run0 1)
    ∧ (columns 1 0).vFree (run0 1) false none 2 [⟨1, fullRow, some [.raw, .fp16]⟩, ⟨2, fullRow, some [.raw, .fp16]⟩]
    ∧ VType.bits .bf16 = VType.bits .fp16 ∧ VType.bits .fp16 < VType.bits .fp32 ∧ VType.float? .fp16 = some fp16 :=
  ⟨rfl, ⟨by simp, ⟨by simp [Stream.vRows], by simp [Stream.vRows]⟩⟩, rfl, by decide, rfl⟩

theorem witness_VectorFunctions : (columns 1 0).core.iss.vec.run = some (run0 1) ∧ VType.float? .fp16 = some fp16
    ∧ 0 < (1 : Nat) ∧ fp16 ∈ [fp32, bf16, fp16] := ⟨rfl, rfl, by decide, by simp⟩

/-- Row 0 and the last row that VST can name, under a mask of one lane; a scatter whose indexes do not meet. -/
theorem witness_VectorLoadsAndStores : (columns 1 0).core.iss.vec.run = some (run0 1)
    ∧ (columns 1 0).rowsFree (run0 1) .vector [((run0 1).cap.cur, fullRow, none)]
    ∧ (columns 1 0).writeFree (run0 1) .vector ((run0 1).cap.cur + BitVec.ofNat 64 (128 * 127), selBytes 1 .lane, none) 1
    ∧ ((1 : W64).getLsbD 0 = true ∧ ∀ j < 32, 0 < j → (1 : W64).getLsbD j = false) ∧ (127 : Nat) < 128 :=
  ⟨rfl, one_row ⟨by decide, by decide, by decide, by decide⟩, ⟨by decide, by decide⟩, by decide, by decide⟩

/-- VQCVT at the last position of each format: 64 bytes at 64, and 32 bytes at 96. -/
theorem witness_VectorBlocks : (columns 1 0).core.iss.vec.run = some (run0 1)
    ∧ (columns 1 0).vFree (run0 1) true none 5 [⟨1, fullRow, some [.raw, .bf16]⟩]
    ∧ (8 * 8 * 1 < 128 ∧ 8 * 4 * 3 < 128 ∧ ¬ 8 * 8 * 2 < 128)
    ∧ (columns 1 0).writeFree (run0 1) .vector ((run0 1).field 3, rowSpan 96 32, some [.raw, .bx4, .bxp4]) 3
    ∧ (columns 1 0).writeFree (run0 1) .vector ((run0 1).field 3, rowSpan (4 * 31) 4, none) 1 :=
  ⟨rfl, one_source ⟨by decide, by decide, by decide, by decide⟩, by decide, ⟨by decide, by decide⟩, ⟨by decide, by decide⟩⟩

/-- A deferral queue that has room for a row's 32 lanes exactly, and one that has not. -/
theorem witness_VectorQueueAndIndexes : (columns 1 0).core.iss.vec.run = some (run0 1)
    ∧ (columns 1 0).vFree (run0 1) true none 2 [⟨1, selBytes (BitVec.allOnes 64) .lane, none⟩]
    ∧ (List.replicate 4064 (0 : Nat)).length + 32 ≤ 4096 ∧ 4096 < (List.replicate 4065 (0 : Nat)).length + 32 :=
  ⟨rfl, one_source ⟨by decide, by decide, by decide, by decide⟩, (List.length_replicate (n := 4064) (a := 0)).symm ▸ by decide, (List.length_replicate (n := 4065) (a := 0)).symm ▸ by decide⟩

theorem columns_undamaged (left : Nat) (fmt : W64) (a : Nat) : (columns left fmt).mem.damaged a = false := rfl
theorem columns_landed (left : Nat) (fmt : W64) (a : Nat) (m : BitVec 128) : (columns left fmt).lateRead a m = none := rfl

theorem witness_TableResults : (columns 1 5).core.iss.tab.run = some (run0 1) ∧ VType.float? .bf16 = some bf16
    ∧ (∀ i < 8192, (columns 1 5).mem.damaged (tableBase (columns 1 5).cur + i) = false)
    ∧ (∀ i < 2048, (columns 1 5).lateRead (tableBase (columns 1 5).cur + 4 * i) (rowSpan 0 4) = none)
    ∧ (columns 1 5).writeFree (run0 1) .table ((run0 1).field 3, fullRow, some [.raw, .bf16]) 7
    ∧ (columns 1 5).rowsFree (run0 1) .table [((run0 1).field 1, fullRow, some [.raw, .bf16])]
    ∧ (columns 1 5).rowsFree (run0 1) .table [((run0 1).cap.cur, fullRow, none)] :=
  ⟨rfl, rfl, fun i _ => columns_undamaged 1 5 _, fun _ _ => columns_landed _ _ _ _, ⟨by decide, by decide⟩, one_row ⟨by decide, by decide, by decide, by decide⟩,
    one_row ⟨by decide, by decide, by decide, by decide⟩⟩

/-- The loader busy with a follow-on; the two rows of a latch row's cycle. -/
def loading : State := (columns 1 0).modC fun c => { c with mat := { c.mat with loader := [⟨1, 0, banks0, 0, 0, 0, 0, 0, true, []⟩] } }
theorem witness_MatrixSettings : (columns 1 0).core.iss.mat.run = some (run0 1) ∧ 0 < (run0 1).left
    ∧ (columns 1 0).rowsFree (run0 1) .matrix [((run0 1).field 2, rowSpan (4 * 31) 4, none)]
    ∧ (columns 1 0).rowsFree (run0 1) .matrix [((run0 1).field 4, fullRow, none)]
    ∧ (columns 1 0).core.mat.loader = [] ∧ loading.core.mat.loader ≠ [] ∧ loading.mayFault
    ∧ (columns 1 0).rowsFree (run0 1) .matrix [((run0 1).rowAt 0, fullRow, some [.raw, .qn4]), ((run0 1).rowAt 64, rowSpan 0 4, none)] := by
  refine ⟨rfl, by decide, one_row ⟨by decide, by decide, by decide, by decide⟩, one_row ⟨by decide, by decide, by decide, by decide⟩,
    rfl, by decide, ⟨rfl, rfl⟩, ?_, by decide⟩
  intro r h
  obtain rfl | rfl : r = _ ∨ r = _ := by simpa using h
  · exact ⟨by decide, by decide, by decide, by decide⟩
  · exact ⟨by decide, by decide, by decide, by decide⟩

/-- The last output column and block of a prompt core; a BX8 row and its exponents. -/
theorem witness_MatrixMultiplies : 255 < outColumns (columns 1 9).cur ∧ ¬ 256 < outColumns (columns 1 9).cur
    ∧ tileBlocks (columns 1 9).cur - 1 < tileBlocks (columns 1 9).cur ∧ (columns 1 9).core.iss.pend = []
    ∧ (columns 1 9).core.iss.mat.run = some (run0 1) ∧ (run0 1).cyc = 0 ∧ 0 < (run0 1).left
    ∧ (columns 1 9).bankFmt ((run0 1).field 3).toNat = .bx8
    ∧ (columns 1 9).rowsFree (run0 1) .matrix [((run0 1).field 3, fullRow, some [.bx8, .bxp8]), ((run0 1).field 4, rowSpan 0 4, none)] := by
  refine ⟨by decide, by decide, by decide, rfl, rfl, rfl, by decide, by decide, ?_, by decide⟩
  intro r h
  obtain rfl | rfl : r = _ ∨ r = _ := by simpa using h
  · exact ⟨by decide, by decide, by decide, by decide⟩
  · exact ⟨by decide, by decide, by decide, by decide⟩

/-- The last row of the accumulators of a prompt core, and the first eight words that an MDRN drains. -/
def accAt (row : Nat) : AccPend := ⟨0, row, true, true, [], false, 0, 0⟩
theorem witness_AccumulatorsDrain : (columns 1 4).mem.wf = true ∧ (accAt 63).parity = false ∧ 255 < outColumns (columns 1 4).cur
    ∧ (∀ a ∈ (accAt 63).words (columns 1 4).cur, (columns 1 4).mem.damaged a = false)
    ∧ (columns 1 4).core.iss.mat.run = some (run0 1) ∧ 0 < (run0 1).left ∧ (run0 1).cyc = 0
    ∧ (columns 1 4).writeFree (run0 1) .matrix ((run0 1).field 3, fullRow,
        some [.raw, .fp32, .bf16, .fp16, .e4m3, .e5m2, .int8, .int16, .int32]) 8
    ∧ (∀ i < 32, (columns 1 4).lateRead (accBase 0 + 4 * i) (rowSpan 0 4) = none ∧ ∀ k < 4, (columns 1 4).mem.damaged (accBase 0 + 4 * i + k) = false)
    ∧ ¬ (run0 1).op < (0 : BitVec 12).toNat ∧ (run0 1).op < (1 : BitVec 12).toNat :=
  ⟨by decide, rfl, by decide, fun a _ => columns_undamaged 1 4 a, rfl, by decide, rfl, ⟨by decide, by decide⟩,
    fun _ _ => ⟨columns_landed _ _ _ _, fun _ _ => rfl⟩, by decide, by decide⟩

/-! Copies -/

/-- s4 = 256 bytes, s5 a job card; c1 over bank 0, c3 over bank 1; s6 a card with a phase of level 4 or 1. -/
def copying (card : W64) : State :=
  putS (putS (putC (putC task 1 bank0) 3 (mkCap 0 0x3F (bankBase 0 1) 0x1000)) 4 256) 5 card
def entersAs (s : State) (op : Nat) (f : Copy → Bool) : Bool := match s.command op (some 1) 3 4 5 2 with
  | .enter c => f c
  | _ => false
theorem witness_CopyCommandsEnter : (copying 0).core.iss.drain.bind (fun q => q.d) = none
    ∧ entersAs (copying 0) 0 (fun c => c.phase == none) = true
    ∧ entersAs (copying (1 <<< 41 ||| 1 <<< 38)) 0 (fun c => c.phase == some (1, 0)) = true
    ∧ entersAs (copying (1 <<< 41 ||| 4 <<< 38)) 0 (fun c => c.phase == some (4, 0)) = true
    ∧ entersAs ((copying 0).modCtl fun c => { c with c := c.c.set 1 acc0, s := c.s.set 5 (4 <<< 11) }) 6 (fun c => c.kind == .add false) = true :=
  ⟨rfl, by decide, by decide, by decide, by decide⟩

/-- A copy of `n` bytes from bank 1 to bank 0 of core 0, its beats from cycle 0. -/
def theCopy (n : Nat) (st : CopyState) : Copy :=
  { id := 9, op := 0, engine := 0, asker := .core 0, run := 0, pc := 0, issue := 0, time := 0, world := 0, group := 0, jetton := 0, n := n
    dst := BitVec.ofNat 64 (bankBase 0 0), src := BitVec.ofNat 64 (bankBase 0 1), dcap := bank0, kind := .plain, card := 2 <<< 33
    sfmt := .raw, keepTags := false, expSrc := 0, expDst := 0, exps := [], ext := [], follow := none, phase := none, state := st
    issuedAt := 0, at_ := 0, beat := 0, blockers := [], notBefore := 0, ovr := 0
    targets := [⟨some 0, BitVec.ofNat 64 (bankBase 0 0), .raw, .rne, 0, 0, 0, 0, 0, false⟩]
    followBusy := false, sem := none, saved := false, place := 0, doom := none, parkFrame := none, reissued := false }
def holding (c : Copy) (ls : List Land) : State := { copying 0 with eng := { (copying 0).eng with copies := [c], lands := ls } }
def bound (act : Bool) (level : Nat) : State := (holding (theCopy 256 .queued) []).modC fun c => { c with
  wm := c.wm.set 2 ⟨act, level, 256, 9, []⟩, copyOf := c.copyOf.set 2 9 }
theorem witness_CopyControlResults : ((bound false 0).core.wm[2].act = false ∧ (bound true 256).core.wm[2].level = (bound true 256).core.wm[2].size
      ∧ (bound true 255).core.wm[2].act = true ∧ (bound true 255).core.wm[2].level ≠ (bound true 255).core.wm[2].size)
    ∧ (task.copy? (task.core.copyOf[2]) = none) ∧ (bound true 0).copy? ((bound true 0).core.copyOf[2]) = some (theCopy 256 .queued)
    ∧ (theCopy 256 .queued).state = .queued ∧ ((theCopy 256 .issued).issuedAt ≠ 1) :=
  ⟨by decide, rfl, rfl, rfl, by decide⟩

/-- The last beat of 257 bytes and the first of 512; a beat of 256 bytes, and one of CPYA's words, about to land. -/
def beatOf (ps : List (Nat × List Byte)) (ws : List (Nat × W32)) (last : Bool) : Land :=
  { id := 3, copy := 9, target := 0, cycle := 0, acc := false, engine := 0, pieces := ps, lines := [], tags := [], words := ws, bytes := 256, expBeat := false
    last := last }
def sumCopy : Copy := { theCopy 256 .issued with kind := .add true, dst := BitVec.ofNat 64 (accBase 0) }
theorem witness_CopyBeatsMoveTheirBytes : (holding (theCopy 256 .issued) []).copy? 9 = some (theCopy 256 .issued)
    ∧ 0 < (theCopy 256 .issued).beatCount ∧ (theCopy 257 .issued).doom = none ∧ (theCopy 257 .issued).sfmt.isBlock = false
    ∧ (256 < (theCopy 257 .issued).n ∧ min 256 (257 - 256) = 1 ∧ inSram (bankBase 0 1 + 256) = true ∧ inSram (bankBase 0 0 + 256) = true)
    ∧ (bankBase 0 1 + 0xF00) % 4096 + 256 ≤ 4096 ∧ (holding (theCopy 257 .issued) []).windowOk 0 (bankBase 0 1) false false = true
    ∧ (holding (theCopy 257 .issued) []).windowOk 0 (bankBase 0 0) true false = true ∧ (holding (theCopy 257 .issued) []).eng.segments = []
    ∧ (∀ k < 256, (holding (theCopy 257 .issued) []).mem.damaged (bankBase 0 1 + k) = false) :=
  ⟨rfl, by decide, rfl, rfl, by decide, by decide, by decide, by decide, rfl, fun _ _ => rfl⟩

theorem copying_good : (copying 0).good := ⟨by decide, ⟨trivial, by decide⟩, ⟨by decide, by decide⟩, fun _ h => nomatch h⟩
theorem holding_good (c : Copy) (ls : List Land) : (holding c ls).good := copying_good
theorem witness_CopyBeatsLand : let l := beatOf [(bankBase 0 0, List.replicate 256 7)] [] true
    (holding (theCopy 256 .issued) [l]).good ∧ (holding (theCopy 256 .issued) [l]).eng.lands.find? (fun z => z.id == 3) = some l
    ∧ l.target = 0 ∧ (∀ p ∈ l.pieces, placeOf p.1 ≠ .hbm) ∧ (holding (theCopy 256 .issued) [l]).bankBusy l.pieces = false
    ∧ (theCopy 256 .issued).state = .issued ∧ (cardSen (theCopy 256 .issued).card = 1 ∨ cardSen (theCopy 256 .issued).card = 2)
    ∧ (let a := beatOf [] [(accBase 0, 5)] false
      (holding sumCopy [a]).eng.lands.find? (fun z => z.id == 3) = some a ∧ sumCopy.kind = .add true
        ∧ (holding sumCopy [a]).mem.damaged (accBase 0) = false)
    ∧ ((holding (theCopy 256 .issued) [l]).getCore 0).wm[2].act = false ∧ (bound true 0).core.wm[2].copy = (theCopy 256 .issued).id :=
  ⟨holding_good _ _, rfl, rfl, by decide, by decide, rfl, by decide, ⟨rfl, rfl, rfl⟩, rfl, rfl⟩

/-- The completion of core 0's copy in this cycle at accumulator 0, whose word `m` may have damaged; core 0 held by a scan. -/
def inc0 : SemInc := ⟨0, accBase 0, 0, .core 0, 0, 0, 5, 0, 0⟩
def counting (m : Mem → Mem) : State := { task with mem := m task.mem, eng := { task.eng with incs := [inc0] } }
/-- A CPYM whose follow-on is an MWLD. -/
def withFollow : Copy := { theCopy 256 .landed with follow := some 0xC10000000000 }
theorem witness_CopyEventsFollow : task.good ∧ (bound true 0).core.copyOf[2] = 9 ∧ task.core.copyOf[2] ≠ 9
    ∧ task.mem.damaged (accBase 0) = false ∧ placeOf (accBase 0) ≠ .hbm
    ∧ ((holding withFollow []).copy? 9 = some withFollow ∧ withFollow.asker = .core (holding withFollow []).cur
      ∧ withFollow.run = (holding withFollow []).core.iss.run) ∧ loading.core.mat.loader ≠ []
    ∧ withFollow.follow = some 0xC10000000000 ∧ decode 0xC10000000000 = .ok (.mwld 0 0 ⟨0, 0⟩)
    ∧ ((holding withFollow []).core.bnd.firstRun ≤ withFollow.run ∧ (holding withFollow []).core.iss.status = .running)
    ∧ ((counting id).eng.incs.find? (fun x => x.addr == accBase 0 && x.cycle == (counting id).tb) = some inc0 ∧ (counting id).heldAway (accBase 0) = false
      ∧ (counting (·.markPoison (unitOf (accBase 0)))).mem.damaged (accBase 0) = true ∧ (counting id).core.bnd.firstRun ≤ inc0.run
      ∧ (counting id).core.bnd.jetton = inc0.jetton ∧ (counting id).mayFault)
    ∧ ({ counting id with disp := { task.disp with scans := [(0, { Scan.reset with state := 3 })] } } : State).heldAway (accBase 0) = true
    ∧ placeOf hbmBase = .hbm ∧ task.mem.lineOk 5 hbmBase = false :=
  ⟨task_good, rfl, by decide, rfl, by decide, ⟨rfl, rfl, rfl⟩, by decide, rfl, rfl, by decide, ⟨rfl, by decide, by decide, by decide, rfl, rfl, rfl⟩,
    by decide, by decide, by decide⟩

/-! Prefix commands and segments -/

/-- Result words in the accumulators through c2 (64-aligned), an operand block in bank 0 through c1. -/
theorem witness_PrefixCommandsLeave :
    (memory.creg 1).check memory.myWorld permRead (memory.creg 1).cur.toNat 160 = none ∧ (memory.creg 1).cur.toNat % 32 = 0
    ∧ memory.inOwnBanks (memory.creg 1).cur.toNat 160 = true ∧ (∀ k < 160, memory.mem.damaged ((memory.creg 1).cur.toNat + k) = false)
    ∧ (memory.creg 2).check memory.myWorld (permRead + permWrite) (memory.creg 2).cur.toNat 64 = none
    ∧ (memory.creg 2).cur.toNat % 64 = 0 ∧ memory.inOwnAcc (memory.creg 2).cur.toNat 64 = true
    ∧ memory.core.journalPlace 0 false = .none ∧ memory.core.journalPlace 3 false = .new 0
    ∧ ({ memory.core with jpos := 15 }).journalPlace 3 false = .new 15 ∧ ({ memory.core with jpos := 16 }).journalPlace 3 false = .full
    ∧ ({ memory.core with journal := [⟨1, 0, none⟩] }).journalPlace 3 false = .again 0 :=
  ⟨by decide, by decide, by decide, fun _ _ => rfl, by decide, by decide, by decide, by decide, by decide, by decide, by decide, by decide⟩

/-- A command of function `fn` on slot `slot`, in the step `arrive`, `act`; a world's record with two slots, slot 0 held once. -/
def pcommand (fn : BitVec 4) (slot : W64) (arrive act : Option Nat) (block : List Byte) : PCommand :=
  { id := 4, fn := fn, ref := true, core := 0, jetton := 0, run := 0, pc := 0, issue := 0, world := 0, slot := slot, block := block, operand := 0
    result := accBase 0, blockers := [], reads := [], notBefore := 0, arrive := arrive, act := act, words := [(1, 0), (2, 5)], fault := none
    journal := none, record := [] }
def slots (ref : Nat) (idx : Bool) : Prefix := { Prefix.reset 0 with quota := 2, slots := [(0, { Slot.reset with ref := ref, alloc := true, idx := idx })] }
def prefixing (p : PCommand) (pr : Prefix) : State := { task with eng := { task.eng with
  pcmds := [p], prefixes := [pr], ways := [⟨0, 0, List.replicate 32 0, 0, 0⟩] } }
theorem witness_PrefixCommandSteps : let p := pcommand 3 0 none none []
    (prefixing p (slots 1 true)).mem.wf = true ∧ (prefixing p (slots 1 true)).pcmd? 4 = some p ∧ p.blockers = []
    ∧ p.notBefore ≤ (prefixing p (slots 1 true)).tb ∧ (prefixing p (slots 1 true)).answerOf p = none
    ∧ ((prefixing { p with journal := some 0 } (slots 1 true)).modC fun c => { c with journal := [⟨1, 3, some [0, 5]⟩] }).answerOf
        { p with journal := some 0 } = some ⟨1, 3, some [0, 5]⟩
    ∧ (prefixing (pcommand 3 0 (some 0) none []) (slots 1 true)).starting false = some (pcommand 3 0 (some 0) none [])
    ∧ p.fault = none ∧ p.record = [] ∧ (∀ kw ∈ p.words, kw.1 = 1 → kw.2 ≠ 0x10 ∧ kw.2 ≠ 0x11) ∧ (p.words.map (·.1)).Nodup
    ∧ (prefixing p (slots 1 true)).mem.damaged p.result = false ∧ (prefixing p (slots 1 true)).hasRead 77 = true
    ∧ (let q := { p with fault := some (.capperm, 64) }; (prefixing q (slots 1 true)).pcmd? 4 = some q ∧ (prefixing q (slots 1 true)).issuedBy q = true
      ∧ (prefixing q (slots 1 true)).mayFault) :=
  ⟨by decide, rfl, rfl, by decide, rfl, rfl, rfl, rfl, rfl, by decide, by decide, rfl, rfl, rfl, by decide, rfl, rfl⟩

/-- A hit in slot 0, a miss, a free slot, no free slot, a count at its limit, slots that are not held. -/
theorem witness_PrefixCommandsAct : let p := pcommand 1 0 (some 0) (some 0) (List.replicate 32 0); let s := prefixing p (slots 65534 true)
    (s.pcmd? 4 = some p ∧ p.act = some s.tb ∧ p.fault = none ∧ s.hit 0 (p.block.take 32) = some ⟨0, 0, List.replicate 32 0, 0, 0⟩
      ∧ ((s.prefix_ 0).slot 0).ref < 65535 ∧ s.hit 0 (List.replicate 32 1) = none)
    ∧ (slots 1 true).free = some 1 ∧ (({ slots 1 true with quota := 1 } : Prefix).free = none
      ∧ ({ slots 1 true with quota := 1 } : Prefix).reclaimable = none)
    ∧ (0 < (slots 1 true).quota ∧ ((slots 1 true).slot 0).alloc = true ∧ 0 < ((slots 1 true).slot 0).ref)
    ∧ ((slots 1 true).quota ≤ 2 ∧ ((slots 1 true).slot 1).alloc = false ∧ ((slots 0 true).slot 0).ref = 0)
    ∧ (({ slots 0 true with quota := 1 } : Prefix).free = none ∧ ({ slots 0 true with quota := 1 } : Prefix).reclaimable.isSome = true) := by decide

/-- A segment that is being fetched from the tier `y`, and demands; one that is resident, for world 0's map. -/
def segment0 (dg : List Byte) (y : Nat) : Segment := { Segment.fresh dg with frame := some 0, p0v := true, tier := y }
def resident1 : Segment := { segment0 [1] 2 with sst := 2, pieces := BitVec.allOnes 32 }
def fetching (g : Segment) (d : Option (List Byte)) (ds : List (List Byte × Option Nat)) : State := { task with eng := { task.eng with
  fetch := d, demands := ds, segments := [g] } }
theorem repeated_getD {α : Type} (x d : α) : ∀ n k, k < n → x = (List.replicate n x).getD k d
  | 0, _, h => absurd h (by omega)
  | _ + 1, 0, _ => rfl
  | n + 1, k + 1, h => repeated_getD x d n k (by omega)
theorem fetching_segment (dg : List Byte) (y : Nat) (d : Option (List Byte)) (ds) : (fetching (segment0 dg y) d ds).segment? dg = some (segment0 dg y) := by
  show [segment0 dg y].find? (fun g => g.digest == dg) = _
  have h : (segment0 dg y).digest = dg := rfl
  simp [h]
theorem witness_ColdStartEvents : (fetching (segment0 [] 0) none [([1], none)]).mem.wf = true ∧ (fetching (segment0 [] 0) none [([1], none)]).eng.fetch = none
    ∧ (fetching (segment0 [] 0) none [([1], none)]).resident [1] = false
    ∧ (let s := fetching resident1 none [([1], some 0)]; s.eng.demands = [([1], some 0)] ∧ s.resident [1] = true ∧ s.mappedAt 0 [1] = none
      ∧ s.segment? [1] = some resident1 ∧ (fetching resident1 none [([1], none)]).eng.demands = [([1], none)])
    ∧ (segment0 [] 0).tiers.find? (fun y => decide ((segment0 [] 0).tier < y)) = some 2 ∧ (∀ y ∈ (segment0 [] 2).tiers, y ≤ (segment0 [] 2).tier)
    ∧ ∃ (dg : List Byte) (pds : List (List Byte)) (data : List Byte), (fetching (segment0 dg 0) (some dg) []).segment? dg = some (segment0 dg 0)
      ∧ (fetching (segment0 dg 0) (some dg) []).eng.fetch = some dg ∧ pds.length = 32 ∧ shake256 pds.flatten = dg
      ∧ data.length = 65536 ∧ shake256 data = pds.getD (31 : BitVec 5).toNat [] ∧ (segment0 dg 0).frame = some 0
      ∧ (segment0 dg 0).pieces.getLsbD 31 = false :=
  ⟨by decide, rfl, by decide, ⟨rfl, by decide, rfl, by decide, rfl⟩, rfl, by decide, _, List.replicate 32 (shake256 (List.replicate 65536 0)),
    List.replicate 65536 0, fetching_segment _ _ _ _, rfl, List.length_replicate, rfl, List.length_replicate,
    repeated_getD _ _ _ _ (by decide), rfl, rfl⟩

/-! Fabric -/

def comm1 : Comm := ⟨1, [0, 1], 0, 1, 0, 2, 0, true, 5, 0, [], []⟩
def key1 : Key := ⟨1, 7⟩
def params1 : CollParams := ⟨0x5C, 0, 4, 64⟩
def num (st : NumState) : BoardNum := ⟨3, key1, true, st, if st == .opened then some params1 else none, [], [], [], false, 0, 0⟩
def board (ns : List BoardNum) (ans : Bool) : Board := ⟨1, 4, 0, ns, [], 0, 0, [], 0, ans⟩
def fabric (ns : List BoardNum) (ans : Bool) (cs : List Coll) : State := { memory with
  tb := 1700000, eng := { memory.eng with comms := [comm1], boards := [board ns ans], colls := cs } }
def coll (kind : CollKind) (queued : Bool) (number : Option (BitVec 32)) (opened : Bool) : Coll :=
  { id := 6, key := key1, kind := kind, core := 0, run := 0, start := 0, pc := 0, issue := 0, time := 0, world := 0, group := 0, jetton := 0
    card := 0, opcode := 0x5C, op := 0, type := 4, n := 0, dst := 0, src := 0, queued := queued, saved := false, place := 0, number := number
    opened := opened, started := false, parked := false, done := none, data := [], written := [], late := [] }
theorem witness_BoardMessages : ((fabric [] true []).comm? 1 = some comm1 ∧ (fabric [] true []).board? 1 = some (board [] true)
      ∧ (board [] true).answering = true ∧ comm1.epoch ≤ 5 ∧ (board [] true).held = [] ∧ key1.comm = 1
      ∧ (board [num .opened] true).nums.Pairwise (fun x y => x.n ≠ y.n) ∧ ∀ x ∈ (board [num .opened] true).nums, x.n ≠ (board [] true).next)
    ∧ ((board [] true).keyNum? key1 = none ∧ serialLT (board [] true).next ((board [] true).low + BitVec.ofNat 32 (2 ^ 20)) = true)
    ∧ (let b := board [num .assigned, { num .empty with n := 2, key := ⟨1, 6⟩ }] true
      b.keyNum? key1 = some (num .assigned) ∧ b.num? 3 = some (num .assigned) ∧ b.mayOpen 3 = true)
    ∧ ((board [num .opened] true).num? 3 = some (num .opened) ∧ (num .opened).params ≠ some { params1 with n := 65 })
    ∧ (board [num .empty] true).num? 3 = some (num .empty) ∧ (board [num .mismatch] true).keyNum? key1 = some (num .mismatch) := by
  refine ⟨⟨rfl, rfl, rfl, by decide, rfl, rfl, by decide, by decide⟩, ⟨rfl, by decide⟩, ⟨rfl, rfl, by decide⟩, ⟨rfl, by decide⟩, rfl, rfl⟩

theorem witness_BoardsAndStandbys : (board [] false).answering = false ∧ comm1.sbv = true
    ∧ (board [] false).lastHeartbeat + 1700000 ≤ (fabric [] false []).tb ∧ comm1.epoch < 6 ∧ 5 ≤ comm1.epoch
    ∧ (fabric [] false []).board? 1 = some (board [] false)
    ∧ ((board [] true).answering = true ∧ (board [] true).lastHeartbeat + 85000 ≤ (fabric [] true []).tb
      ∧ (fabric [] true []).tb < { board [] true with lastHeartbeat := 1615001 }.lastHeartbeat + 85000)
    ∧ (0 = comm1.prim ∧ (coll .data false none false).key.comm = 1 ∧ (coll .data false none false).queued = false
      ∧ (coll .data false none false).number = none ∧ (coll .data false none false).done = none) :=
  ⟨rfl, rfl, by decide, by decide, by decide, rfl, ⟨rfl, by decide, by decide⟩, rfl, rfl, rfl, rfl, rfl⟩

def asks (w : WaitFor) : State := (fabric [] true []).modIss fun x => { x with wait := w }
theorem witness_MembersFollowTheBoard : let x := coll .barrier false (some 3) false
    (fabric [] true [x]).comm? 1 = some comm1 ∧ key1.comm = 1 ∧ (fabric [] true [x]).coll? x.id = some x ∧ x.queued = false
    ∧ 4 < comm1.epoch ∧ comm1.epoch ≤ 5 ∧ (coll .data false none false).pending = true ∧ x.pending = true ∧ x.key.comm = 1 ∧ x.number = some 3
    ∧ ((asks (.fabric 0 2 key1 none)).core.iss.wait = .fabric 0 2 key1 none ∧ (asks (.fabric 0 2 key1 none)).core.iss.waitAt + 48 ≤ (fabric [] true []).tb
      ∧ (asks (.fabric 0 2 key1 none)).cur ∈ (asks (.fabric 0 2 key1 none)).live)
    ∧ (asks (.fabric 2 2 key1 none)).askers 2 key1 = [(asks (.fabric 2 2 key1 none)).cur] ∧ (asks (.fabric 2 2 key1 none)).collOf key1 = none := by
  refine ⟨rfl, rfl, rfl, rfl, by decide, by decide, rfl, rfl, rfl, rfl, ⟨rfl, by decide, by decide⟩, by decide, rfl⟩

theorem witness_CollectivesRun : (fabric [] true [coll .data true none false]).coll? 6 = some (coll .data true none false)
    ∧ (fabric [] true []).comm? (coll .cancel true none false).key.comm = some comm1 ∧ (coll .cancel true none false).time ≤ 1700000
    ∧ (let c := coll .barrier false (some 0) true; (fabric [] true [c]).collStartDue = some (1, 0)
      ∧ ((fabric [] true [c]).collsAt 1 0).find? (fun x => x.opened && !x.started && !x.parked) = some c)
    ∧ (let c := { coll .data false (some 0) true with started := true }; (fabric [] true [c]).collOf key1 = some c)
    ∧ (asks (.fabric 3 2 key1 (some (0, 9)))).core.iss.wait = .fabric 3 2 key1 (some (0, 9)) := by
  refine ⟨rfl, rfl, by decide, ⟨by decide, rfl⟩, rfl, rfl⟩

theorem witness_FabricWords : let s := (fabric [] true []).modCtl fun c => { c with s := (((c.s.set 4 1).set 5 7).set 6 4).set 7 (1 <<< 48 ||| 4 <<< 40) }
    s.core.fw = none ∧ natBits (s.sreg 4).toNat 16 48 = 0 ∧ s.commOk (natBits (s.sreg 4).toNat 0 16) = true ∧ s.core.iss.inStub = false
    ∧ s.collOf ⟨(s.sreg 4).setWidth 16, (s.sreg 5).setWidth 32⟩ = none
    ∧ ((7 : SReg) ≠ 31 ∧ natBits (s.sreg 7).toNat 0 40 = 0 ∧ 0 < (s.sreg 6).toNat ∧ (s.sreg 6).toNat < 2 ^ 30 ∧ (s.sreg 6).toNat % 4 = 0
      ∧ natBits (s.sreg 7).toNat 48 16 < 4096 ∧ s.commOk 1 = true ∧ s.outstanding < 2 ^ 20 ∧ s.tb + 2 ≤ s.tb + 2 ∧ s.waitingCopies s.cur < 64
      ∧ s.core.iss.drain.bind (fun q => q.d) = none)
    ∧ (s.comm? 1 = some comm1 ∧ (s.sreg 7).extractLsb' 40 4 = 4 ∧ ((s.sreg 7).extractLsb' 44 4).toNat ≤ 2
      ∧ (s.creg 1).covers s.myWorld permWrite [((s.creg 1).cur.toNat, 4)] = none ∧ (s.creg 1).covers s.myWorld permRead [((s.creg 1).cur.toNat, 8)] = none
      ∧ s.windowCause s.myWorld true false (s.creg 1).cur.toNat 8 = none ∧ s.windowCause s.myWorld false false (s.creg 1).cur.toNat 8 = none
      ∧ (s.creg 1).cur.toNat % 4 = 0) := by
  refine ⟨rfl, by decide, by decide, rfl, rfl, by decide, rfl, by decide, by decide, by decide, by decide, by decide, by decide, by decide⟩

/-! Dispatch -/

/-- A task image without words, and a group of cores 0 and 1 with that image in one stage. -/
def image0 : TaskImage := ⟨5, 0, [], 0, [], [], [], [], []⟩
def group0 (cs : List Nat) : Group := ⟨false, cs.length, 1, cs, [⟨image0, 1, 2⟩], cs.map fun _ => 0⟩
def member (x : Status) : Core := { task.core with iss := { task.core.iss with status := x }, bnd := { task.core.bnd with task := some image0 } }
/-- Jetton 0 in state `j` on cores 0 and 1, whose states are `a` and `b`; a start of kind `k` of core 0 in this cycle. -/
def pair (j : JState) (a b : Status) (k : Nat) : State :=
  { task with
    core := member a, others := [(1, member b)]
    disp := { task.disp with
      jettons := [(0, { Jetton.reset with state := j, group := some (group0 [0, 1]) })], starts := [⟨0, 0, k, false⟩] } }
theorem pair_good (j : JState) (a b : Status) (k : Nat) : (pair j a b k).good :=
  ⟨rfl, ⟨⟨Nat.zero_le _, trivial⟩, fun p h => by obtain rfl : p = (1, member b) := List.mem_singleton.mp h; exact Nat.one_ne_zero⟩,
    task_good.2.2.1, fun p h => by obtain rfl : p = (1, member b) := List.mem_singleton.mp h; exact task_good.2.2.1⟩
theorem witness_RunsBegin : (pair .running .between .running 0).good ∧ ((pair .running .between .running 0).getCore 0).bnd.task = some image0
    ∧ ((List.range 5).all fun k => (pair .running .between .running k).startKind 0 == some k) = true
    ∧ ((pair .running .between .running 1).footCheck 0).isNone = true
    ∧ ((pair .running .sealed .sealed 4).getCore 0).sys.bkpend = false ∧ ((pair .running .sealed .sealed 4).getCore 0).drained.fpend = none :=
  ⟨pair_good _ _ _ _, rfl, by decide, by decide, rfl, rfl⟩

/-- Core 0 waits in DONE, with s0 = 0 and with s0 = 1, while core 1 runs. -/
def ending (s0 : W64) : State := (pair .running .running .running 9).modIss fun x => { x with wait := .done, s0done := s0 }
def endingLast : State := (pair .running .running .retired 9).modIss fun x => { x with wait := .done, s0done := 0 }
def drain0 : Drain := ⟨0, none, 0, false, false, false, 0, false, false, none⟩
def endingDrained : State := (pair .sealing .draining .draining 9).modIss fun x => { x with wait := .done, s0done := 1, drain := some drain0 }
theorem witness_TasksEnd : (ending 0).good ∧ (ending 0).endsNow 0 = true ∧ (ending 1).endsNow 0 = true
    ∧ (((ending 0).jetton 0).group = some (group0 [0, 1]) ∧ 0 ∈ (group0 [0, 1]).cores)
    ∧ ((ending 0).core.iss.s0done = 0 ∧ (ending 1).core.iss.s0done ≠ 0) ∧ (∃ k ∈ (ending 0).heldCores 0, k ≠ 0 ∧ ((ending 0).getCore k).hasRetired = false)
    ∧ (endingLast.endsNow 0 = true ∧ (∀ k ∈ endingLast.heldCores 0, k = 0 ∨ (endingLast.getCore k).hasRetired = true) ∧ (endingLast.jetton 0).state.held = true)
    ∧ ((ending 1).core.iss.drain = none ∧ (endingDrained.endsNow 0 = true ∧ endingDrained.core.iss.drain = some drain0)) :=
  ⟨pair_good .running .running .running 9, by decide, by decide, ⟨rfl, by decide⟩, by decide, ⟨1, by decide, by decide, by decide⟩, by decide, rfl, by decide, rfl⟩

/-- A prompt jetton of one core READY behind the timetable 5, with commands executed before; a bar that is due. -/
def timetable0 : Timetable := ⟨1, 1, false, [⟨image0, 1, 1⟩]⟩
def oneEntry : Vector WorkQueue 4 := Jetton.reset.qs.set 0 { WorkQueue.reset with qen := true, widx := 1 }
def ready : State := { State.reset with
  mon := { State.reset.mon with commands := true }
  worlds := [.reset 0, .reset 256, .reset 257]
  disp := { State.reset.disp with
    handles := [⟨5, some (timetable0, []), none, false, 0⟩]
    jettons := [(0, { Jetton.reset with state := .ready, held := true, tth := 5, qs := oneEntry })] } }
def starved : State := { ready with tb := 2 ^ 18, disp := { ready.disp with selPrompt := ⟨none, some (0, 0), false⟩ } }
/-- A SEALED jetton with its group on cores 0 and 1, behind the same timetable. -/
def again : State := { ready with core := member .sealed, others := [(1, member .sealed)], disp := { ready.disp with
  jettons := [(0, { Jetton.reset with state := .sealed, held := true, tth := 5, qs := oneEntry, group := some (group0 [0, 1]), records := [0, 1] })] } }
set_option maxRecDepth 2000 in
theorem witness_DispatchEvents : ready.good ∧ (starved.selector false).top = some (0, 0) ∧ (starved.selector false).barred = false
    ∧ 0 + 2 ^ 18 ≤ starved.tb ∧ ready.pathIdle false = true ∧ ready.strays false = [] ∧ ready.newUnplaceable false = []
    ∧ ready.scanAborts false = none ∧ ((ready.chosen false).map fun x => (x.1, x.2.1.state, x.2.2.2)) = some (0, .ready, [0])
    ∧ (again.pathIdle false = true ∧ ((again.chosen false).map fun x => (x.1, x.2.1.state, x.2.2.2)) = some (0, .sealed, [0, 1])) :=
  ⟨⟨by decide, ⟨trivial, by decide⟩, ⟨by decide, by decide⟩, fun _ h => nomatch h⟩, rfl, rfl, by decide, by decide, rfl, by decide, by decide, by decide, by decide, by decide⟩

/-- A core in its last cycle before CYCMAX; a jetton whose ended request's record is due and can be written. -/
def late : State := { (task.modSys fun r => { r with cycmax := 5 }) with tb := 5 }
def ended0 : Ended := ⟨0, 0, 0, 0, 0, 0, 0, 0, [(64, 48)], some 0⟩
def records : Vector WorkQueue 4 := Jetton.reset.qs.set 0 { WorkQueue.reset with crec := BitVec.ofNat 64 (bankBase 0 3) }
def recording : State := { pair .running .running .running 0 with tb := 1, disp := { (pair .running .running .running 0).disp with
  jettons := [(0, { Jetton.reset with state := .running, ended := [ended0], qs := records })] } }
theorem witness_Overruns : late.overrunDue late.cur = true ∧ late.core.iss.fault = none
    ∧ (recording.jetton 0).ended = [ended0] ∧ recording.recordNext 0 0 = some ended0 ∧ ended0.sem ≠ []
    ∧ (match recording.ioWrite 0 none ((recording.jetton 0).qs[0].recordVa) ended0.bytes with | .ok u => decide (u.jetton 0 = recording.jetton 0) | .error _ => false) = true :=
  ⟨by decide, rfl, rfl, by decide, by decide, by decide⟩

/-- A core that drains, with its drain point at its next word and a breakpoint armed there; one that has come to rest in D. -/
def draining (d : Option Nat) : Drain := ⟨0, d, 0, false, false, false, 0, false, false, none⟩
def drainTo (d : Option Nat) : State := ((pair .sealing .draining .sealed 9).modIss fun x => { x with drain := some (draining d), pass := false }).modSys
  fun r => { r with bpaddr := r.bpaddr.set 0 0x1000 }
theorem witness_PreemptionSeals : (pair .running .running .between 9).good ∧ ((pair .running .running .between 9).jetton 0).state = .running
    ∧ (0 ∈ (pair .running .running .between 9).heldCores 0 ∧ 1 ∈ (pair .running .running .between 9).heldCores 0
      ∧ ((pair .running .running .between 9).getCore 0).iss.status = .running ∧ ((pair .running .running .between 9).getCore 0).iss.wait = .none
      ∧ ((pair .running .running .between 9).getCore 1).iss.status = .between ∧ ((pair .running .running .retired 9).getCore 1).iss.status = .retired)
    ∧ ((pair .binding .bound .bound 9).jetton 0).state = .binding
    ∧ ((drainTo none).core.iss.drain = some (draining none) ∧ (drainTo none).divertDue 0 = true ∧ (drainTo none).core.iss.wait = .none)
    ∧ ((drainTo (some 0)).core.bnd.jetton = 0 ∧ 0 ∈ (drainTo (some 0)).heldCores 0 ∧ (drainTo (some 0)).sealDue 0 0 = true
      ∧ ∀ k ∈ (drainTo (some 0)).heldCores 0, k = 0 ∨ ((drainTo (some 0)).getCore k).iss.status = .sealed)
    ∧ (((pair .sealing .sealed .draining 9).getCore 0).iss.status = .sealed ∧ 0 ∉ ((pair .sealing .sealed .draining 9).jetton 0).records)
    ∧ (let s := (pair .running .running .between 9).modIss fun x => { x with wait := .wev }
      s.core.iss.status = .running ∧ s.core.sys.dbg = false ∧ s.core.iss.wait ≠ .none ∧ (s.stubFor 0 s.core.iss.pc).isSome = true)
    ∧ (((pair .running .running .between 9).modSys fun r => { r with dbg := true }).core.sys.dbg = true)
    ∧ ((pair .running .bound .between 9).getCore 0).iss.status = .bound :=
  ⟨pair_good _ _ _ _, rfl, by decide, rfl, ⟨rfl, by decide, rfl⟩, by decide, by decide, ⟨rfl, rfl, by decide, by decide⟩, rfl, rfl⟩

/-- A sealed jetton whose eviction completes in this cycle with nothing left to write; a frozen one; a freed core in its scrub. -/
def evicting (at_ : Option Nat) : State := { pair .sealed .sealed .sealed 9 with disp := { task.disp with
  jettons := [(0, { Jetton.reset with state := .sealed, evictAt := at_ })] } }
theorem witness_CoresAreFreed : ((evicting none).jetton 0).state = .sealed ∧ ((evicting none).jetton 0).evictReq = none
    ∧ ((evicting (some 0)).jetton 0).evictAt = some (evicting (some 0)).tb
    ∧ (match (evicting (some 0)).evictCores 0 ((evicting (some 0)).heldCores 0) with | .ok _ => true | .error _ => false) = true
    ∧ ((pair .frozen .frozen .frozen 9).jetton 0).state = .frozen ∧ 0 ∈ (pair .frozen .frozen .frozen 9).heldCores 0 :=
  ⟨rfl, rfl, rfl, rfl, rfl, by decide⟩

theorem witness_DebugPort : task.good ∧ task.core.iss.status.live = true ∧ Status.draining.live = true ∧ task.core.fw = none ∧ (task.modSys fun r => { r with dbg := true }).core.sys.dbg = true
    ∧ ({ task with worlds := [{ World.reset 0 with dbgen := true }] } : State).debugOn 0 = true ∧ isBpaddr (.st 0x13) = true ∧ isBpaddr (.st 0x14) = false :=
  ⟨task_good, rfl, rfl, rfl, rfl, by decide, by decide, by decide⟩

/-! Command queues -/

/-- An entry of operation `op` with ticket 1; a queue of world 0 whose ring and RPADDR are in banks of core 0, its semaphores the
accumulators; a state with that queue. -/
def entry (op sem a b c : Nat) : List Byte :=
  leBytes op 1 ++ leBytes 0 1 ++ leBytes 1 2 ++ leBytes sem 2 ++ leBytes 0 2 ++ leBytes a 8 ++ leBytes b 8 ++ leBytes c 8
def queue0 : CmdQueue := { CmdQueue.reset with qen := true, held := true, state := 1, base := BitVec.ofNat 64 (bankBase 0 3)
                                               rpaddr := BitVec.ofNat 64 (bankBase 0 4), sembase := BitVec.ofNat 64 (accBase 0) }
def queueing (q : CmdQueue) : State := { task with eng := { task.eng with queues := [(3, q)] } }
/-- The queue with its ring's first entry written. -/
def ring (e : List Byte) : State := (queueing queue0).modMem fun m => m.write (bankBase 0 3) e
/-- A queue whose ring and RPADDR lie in HBM of a world that owns no slot. -/
def slotless (va : Nat) : State := { queueing { queue0 with base := BitVec.ofNat 64 va, rpaddr := BitVec.ofNat 64 va } with
  worlds := [{ World.reset 0 with frames := [hbmBase], ranges := (World.reset 0).ranges.set 0 (BitVec.ofNat 192
    (2 ^ 11 + 2 ^ 7 + 2 ^ 6 + hbmBase / 4096 * 2 ^ 140)) }, .reset 256, .reset 257] }
/-- What `f` sees of a read or a write of the queue's. -/
def seen {α β : Type} (r : Except β α) (f : α → Bool) : Bool := match r with | .ok a => f a | .error _ => false
/-- A wait that has acted, the copy of a LAUNCH on its way. -/
def waited : HomeOp := { id := 9, asker := .queue 3, run := 0, pc := 0, issue := 0, addr := 0, world := 0, what := .sset 0, home := .acc 0 0, h := 0, due := 0
                         blockers := [], waits := true, dst := none, acted := true, ret := 0, value := none, fault := none, lo := 0, hi := 0 }
def onItsWay : LaunchCopy := ⟨6, 3, 0, 0, 0, 0, BitVec.ofNat 64 (bankBase 0 3), 0⟩
def launching : State := { task with eng := { task.eng with launches := [onItsWay] }, disp := { task.disp with
  jettons := [(0, { Jetton.reset with state := .running, held := true, qs := oneEntry })] } }
theorem witness_QueuesTakeEntries : let e := entry 1 0 0 0 0; let x := queueing { queue0 with entry := some e, published := true, holdXlate := true, state := 2 }
    (ring e).queue? 3 = some queue0 ∧ queue0.looks (ring e).tb = true
    ∧ ((ring e).slotOpen 0 (queue0.entryVa 0) 32 false = some (ring e) ∧ (ring e).slotOpen 0 queue0.ridxVa 4 true = some (ring e))
    ∧ ((slotless 0).slotOpen 0 ({ queue0 with base := 0 }.entryVa 0) 32 false = none ∧ { queue0 with base := 0 }.looks (slotless 0).tb = true
      ∧ (slotless 0).slotOpen 0 { queue0 with rpaddr := 0 }.ridxVa 4 true = none)
    ∧ seen ((ring e).ioRead 0 (queue0.entryVa 0) 32) (fun p => decide (p.1 = e ∧ entTicket p.1 = queue0.ridx.toNat % 65535 + 1)) = true
    ∧ seen (task.ioRead 0 (queue0.entryVa 0) 32) (fun p => decide (entTicket p.1 ≠ queue0.ridx.toNat % 65535 + 1)) = true
    ∧ seen ((ring e).ioWrite 0 none queue0.ridxVa (leBytes 1 4)) (fun _ => true) = true
    ∧ entryCause e = none ∧ entryCause (entry 10 0 0 0 0) = some .ill
    ∧ ((queueing { queue0 with polling := true }).queue? 3 = some { queue0 with polling := true })
    ∧ x.queue? 3 = some { queue0 with entry := some e, published := true, holdXlate := true, state := 2 }
    ∧ ({ task with eng := { task.eng with homes := [waited] } } : State).queueWaitDone 3 = some waited
    ∧ launching.eng.launches.find? (fun x => x.id == onItsWay.id && x.queue == 3) = some onItsWay ∧ (launching.jetton 0).state = .running ∧ ((launching.jetton 0).qs[0]).qen = true
    ∧ task.heldAway (accBase 0) = false ∧ task.mem.damaged (accBase 0) = false ∧ placeOf (accBase 0) ≠ .hbm
    ∧ (let z := queueing { queue0 with entry := some e, published := false, holdXlate := true }
      seen (z.ioWrite 0 none queue0.ridxVa (leBytes 0 4)) (fun _ => true) = true)
    ∧ ({ task with disp := { task.disp with scans := [(0, { Scan.reset with state := 3 })] } } : State).heldAway (accBase 0) = true
    ∧ ({ task with mem := task.mem.markPoison (unitOf (accBase 0)) } : State).mem.damaged (accBase 0) = true := by
  refine ⟨?_, ?_, ⟨?_, ?_⟩, ⟨?_, ?_, ?_⟩, ?_, ?_, ?_, ?_, ?_, ?_, ?_, ?_, ?_, ?_, ?_, ?_, ?_, ?_, ?_, ?_, ?_⟩ <;> decide +kernel

/-- Commands in a queue: nothing before them, or one command busy. -/
def held (e : List Byte) (busy : List (Nat × BitVec 32)) : CmdQueue := { queue0 with entry := some e, published := true, busy := busy }
def launcher (seq : BitVec 32) : State := { queueing (held (entry 4 0xFFFF (bankBase 0 2) 0 0) []) with disp := { task.disp with
  jettons := [(0, { Jetton.reset with state := .running, held := true, qs := Jetton.reset.qs.set 0 { WorkQueue.reset with
    qen := true, widx := seq, qbase := BitVec.ofNat 64 (bankBase 0 3) } })] } }
theorem witness_QueueCommandsAct : let x (op : Nat) := queueing (held (entry op 0 0 0 0) []); let t := launcher 0
    ((List.range 10).all fun op => ((x op).queue? 3 == some (held (entry op 0 0 0 0) [])) && (held (entry op 0 0 0 0) []).command? == some (entry op 0 0 0 0)
      && entOp (entry op 0 0 0 0) == op) = true
    ∧ (match (x 1).semHome 0 (queue0.semVa 0) true false, (x 1).semHome 0 (queue0.semVa 0) true true, (x 1).semHome 0 (queue0.semVa 0) false true with
        | .ok _ _ _, .ok _ _ _, .ok _ _ _ => true | _, _, _ => false) = true
    ∧ entSem (entry 5 0xFFFF 0 0 0) = 0xFFFF ∧ (held (entry 7 0 0 0 0) [(1, 0)]).busy ≠ []
    ∧ (x 9).slotOpen 0 (bankBase 0 2) 8 true = some (x 9) ∧ (slotless 0).slotOpen 0 0 8 true = none
    ∧ seen ((x 9).ioWrite 0 none (bankBase 0 2) (leBytes (x 9).tb 8)) (fun _ => true) = true
    ∧ (t.jetton 0).held = true ∧ (t.jetton 0).world = queue0.world
    ∧ ((0 : BitVec 32) + BitVec.ofNat 32 (t.launching 0 0) - 0).toNat < ((t.jetton 0).qs[0]).size
    ∧ (((launcher 1).jetton 0).qs[0]).size ≤ ((1 : BitVec 32) + BitVec.ofNat 32 ((launcher 1).launching 0 0) - 0).toNat
    ∧ t.queue? 3 ≠ none ∧ entSem (entry 4 0 0 0 0) ≠ 0xFFFF ∧ ({ t with disp := task.disp } : State).queue? 3 ≠ none ∧ (task.jetton 5).held = false := by
  refine ⟨?_, ?_, ?_, ?_, ?_, ?_, ?_, ?_, ?_, ?_, ?_, ?_, ?_, ?_, ?_⟩ <;> decide +kernel

/-! Requests of the host and of the network -/

/-- World 0 with a first range entry that maps its first page to the accumulators of core 0 (AH 1), shared atomics or not. -/
def ranged (sa : Nat) : World := { World.reset 0 with ranges := (World.reset 0).ranges.set 0 (BitVec.ofNat 192
  (2 ^ 11 + sa * 2 ^ 10 + 2 ^ 8 + 2 ^ 7 + 2 ^ 6 + accBase 0 / 4096 * 2 ^ 140)) }
/-- A physical function 0 and a virtual function 1 of world 0. -/
def function (fn : Nat) : Func := ⟨fn, 0, none, [], false, [], false, none⟩
def posting (q : HostReq) : State := { (launcher 0) with funcs := [⟨0, 0, none, [], false, [], false, none⟩], posted := [(1, q)] }
def hosted (sa : Nat) : State := { launcher 0 with funcs := [function 0, function 1, { function 2 with frozen := true }], worlds := [ranged sa, .reset 256, .reset 257] }
theorem witness_HostRequestsAct : let s := hosted 1
    s.func? 1 = some (function 1) ∧ s.func? 2 = none ∧ (s.jetton 1).state = .free ∧ (function 1).owns (s.jetton 0).world = true
    ∧ (s.jetton 0).state = .running ∧ ((s.jetton 0).qs[0]).qen = true ∧ (s.queue? 3).isSome = true
    ∧ (8 : W64).toNat % 4 = 0 ∧ (8 : W64).toNat + 4 ≤ 2 ^ 36 ∧ (7 : W64).toNat % 4 ≠ 0 ∧ 2 ^ 36 < (2 ^ 36 - 2 : W64).toNat + 4
    ∧ ([0, 1].all fun sa => match (hosted sa).translate 0 8 with
        | Trans.ok pa e _ => e.sa == (sa == 1) && e.admits 0 false && e.admits 0 true
            && (match homeOfTranslated 0 2048 pa e with | .ok _ => true | .error _ => false)
        | _ => false) = true
    ∧ (posting (.read 4 8 4)).posted = [(1, .read 4 8 4)] ∧ (s.hostMemRead (function 1) 8 4).isSome = true
    ∧ ((s.hostLine (function 1) 8 [1, 2]).map (·.2)) = some false
    ∧ (match s.hostLine (function 1) (2 ^ 36) [1, 2] with | some (_, b) => b | none => false) = true
    ∧ (match (hosted 1).translate 0 0x1000 with | .ok .. => false | _ => true) = true := by
  refine ⟨?_, ?_, ?_, ?_, ?_, ?_, ?_, ?_, ?_, ?_, ?_, ?_, ?_, ?_, ?_, ?_, ?_⟩ <;> decide +kernel

/-- A digest has 32 bytes. -/
theorem keccakRound_length (a : List (BitVec 64)) (c : BitVec 64) : (keccakRound a c).length = 25 := by
  simp only [keccakRound, List.length_map, List.length_zipIdx]; decide
theorem absorbBlock_length (a : List (BitVec 64)) (b : List Byte) : (absorbBlock a b).length = 25 := by
  have (l : List (BitVec 64)) : ∀ a, (l.foldl keccakRound a).length = if l = [] then a.length else 25 := by
    induction l with
    | nil => simp
    | cons c r ih => intro a; simp [ih, keccakRound_length]
  rw [absorbBlock, keccakF, this, if_neg (by decide)]
theorem keccak512_length (bs : List Byte) (d : Byte) : (keccak512 bs d).length = 32 := by
  have (f : Nat → List Byte) (n : Nat) : ((List.range n).foldl (fun a k => absorbBlock a (f k)) (List.replicate 25 0)).length = 25 := by
    cases n with
    | zero => simp
    | succ n => simp only [List.range_succ, List.foldl_append, List.foldl_cons, List.foldl_nil, absorbBlock_length]
  have key (a : List (BitVec 64)) (h : a.length = 25) : ((a.take 4).flatMap fun x => leBytes x.toNat 8).length = 32 := by
    simp [List.length_flatMap, leBytes, List.map_const', h]
  unfold keccak512
  exact key _ (this _ _)

/-- A UDP frame for queue 0 of jetton 0 with sequence number 1 and its check; a queue pair; a timetable in plane A. -/
def frameStart : List Byte := [0x57, 0x48, 1, 0, 0, 0, 1, 0, 0, 0]
def framePayload : List Byte := List.replicate 128 0
theorem frameCheck_length (s : State) (w : Nat) (h p : List Byte) : (s.frameCheck w h p).length = 6 := by
  simp [State.frameCheck, kmac256, keccak512_length]
def frameHeader : List Byte := frameStart ++ (launcher 0).frameCheck 0 frameStart framePayload
def pairing (seq : BitVec 32) : State := { launcher seq with qpairs := [(9, ⟨0, 0, 0, 5, BitVec.ofNat 64 (bankBase 0 4), 16⟩)] }
def image1 : TaskImage := { image0 with words := [(0, 1)] }
def plane1 : Timetable := ⟨1, 1, false, [⟨image1, 1, 1⟩]⟩
def planed (busy : Bool) : State := { task with disp := { task.disp with handles := [⟨5, some (plane1, [1]), none, false, 0⟩]
                                                                         jettons := [(0, { Jetton.reset with tth := 5, plane := busy, group := some (group0 [0]) })] } }
theorem witness_RequestsBecomeEntries : let s := pairing 0
    getKey s.qpairs 9 = some ⟨0, 0, 0, 5, BitVec.ofNat 64 (bankBase 0 4), 16⟩ ∧ s.queueRoom 0 0 = true ∧ (pairing 1).queueRoom 0 0 = false
    ∧ seen (s.ioWrite 0 none (((s.jetton 0).qs[0]).slotVa 0) (padTo 128 [1])) (fun _ => true) = true
    ∧ seen (s.ioWrite 0 none (bankBase 0 4) [1, 2]) (fun u => seen (u.ioWrite 0 none (((s.jetton 0).qs[0]).slotVa 0) (padTo 128 [1])) fun _ => true) = true
    ∧ (frameHeader.length = 16 ∧ framePayload.length = 128
      ∧ leNat ((frameHeader.drop 0).take 2) = 0x4857 ∧ leNat ((frameHeader.drop 2).take 1) = 1 ∧ leNat ((frameHeader.drop 4).take 2) = 0
      ∧ leNat ((frameHeader.drop 6).take 4) = 1 ∧ frameHeader.drop 10 = (launcher 0).frameCheck 0 frameHeader framePayload
      ∧ serialLT ((s.jetton 0).udpSeq[0]) 1 = true)
    ∧ ((planed false).handle? 5 = some ⟨5, some (plane1, [1]), none, false, 0⟩ ∧ task.handle? 5 = none
      ∧ (match s.ioWrite 0 none 0 [1] with | .ok _ => false | .error _ => true) = true ∧ (planed false).planeBusy 5 true = false ∧ (planed true).planeBusy 5 true = true ∧ timetableOk plane1 = true ∧ timetableOk ⟨1, 1, false, []⟩ = false
      ∧ shake256 [1] ≠ []) := by
  refine ⟨?_, ?_, ?_, ?_, ?_, ⟨?_, ?_, ?_, ?_, ?_, ?_, ?_, ?_⟩, ?_, ?_, ?_, ?_, ?_, ?_, ?_, ?_⟩
  case refine_6 => rw [frameHeader, List.length_append, frameCheck_length]; rfl
  case refine_12 =>
    have t : frameHeader.take 10 = frameStart := List.take_left' rfl
    have d : frameHeader.drop 10 = (launcher 0).frameCheck 0 frameStart framePayload := List.drop_left' rfl
    rw [d]; simp only [State.frameCheck, t]; rfl
  case refine_21 => exact fun h => by have := keccak512_length [1] 0x1F; rw [show keccak512 [1] 0x1F = [] from h] at this; exact absurd this (by decide)
  all_goals decide +kernel

/-! Commands of the host -/

/-- A command of function `fn` on world `w` for `kind`, with its arguments; world 0 in step `k` of a reset, with jetton 0 on cores 0 and 1. -/
def pc (fn w kind a b : Nat) : PCmd := ⟨fn, 1, BitVec.ofNat 16 w, BitVec.ofNat 16 kind, BitVec.ofNat 64 a, BitVec.ofNat 64 b, 0⟩
def resetting (f : Option (Nat × Nat)) : State := { pair .running .running .running 9 with worlds := [{ ranged 0 with flr := f }, .reset 256, .reset 257] }
def idle : State := { hosted 1 with disp := { (hosted 1).disp with jettons := [(0, { Jetton.reset with state := .idle, held := true })] } }
theorem witness_WorldsAreMadeAndReset : let s := hosted 1
    (1 ≠ 0 ∧ (s.world? 0).isSome = true ∧ s.world? 1 = none ∧ (pc 0 1 0 31 0).a.toNat < 32 ∧ ¬ (pc 0 1 0 32 0).a.toNat < 32)
    ∧ (s.world? 0 = some (ranged 1) ∧ (ranged 1).flr = none ∧ (256 ≤ 256) ∧ (s.world? 256).isSome = true)
    ∧ ((pc 0 0 3 5 2).kind.toNat = 3 ∧ 5 + 2 ≤ kindTotal 3 ∧ (s.itemWorld 3 5 = none ∧ s.itemWorld 3 6 = none) ∧ s.amount (ranged 1) 3 + 2 ≤ kindMax 3
      ∧ s.itemWorld 3 0 = some 0 ∧ s.itemWorld 3 0 ≠ none ∧ s.itemWorld 3 5 ≠ some 0
      ∧ (s.itemWorld 10 5 = none ∧ s.itemWorld 10 6 = none ∧ kindMax 10 < s.amount (ranged 1) 10 + 2 ∧ 5 + 2 ≤ 256)
      ∧ s.itemBusy 3 0 = true ∧ idle.itemWorld 3 0 = some 0 ∧ idle.itemBusy 3 0 = false)
    ∧ (s.funcs.all fun f => decide (0 ∉ f.vectors)) = true
    ∧ ((resetting none).world? 0 = some (ranged 0) ∧ (ranged 0).destroy = none
      ∧ ((List.range 8).all fun k => (resetting (some (k, 0))).world? 0 == some { ranged 0 with flr := some (k, (resetting none).tb) }) = true
      ∧ 0 ∈ (resetting none).jettonsOf 0 ∧ 0 ∈ (resetting none).heldCores 0 ∧ 0 ∈ (resetting none).coresLast 0
      ∧ (resetting none).scanAwaited 0 = false ∧ ((resetting none).setScan 0 { Scan.reset with state := 3 }).scanAwaited 0 = false
      ∧ (((resetting none).modCore 0 fun c => { c with bnd := { c.bnd with firstRun := 1 } }).setScan 0 { Scan.reset with state := 3 }).scanAwaited 0 = true
      ∧ ({ ranged 0 with destroy := some (pc 0 0 0 0 0) } : World).destroy ≠ none)
    ∧ ({ s with funcs := [{ function 0 with vectors := [0] }] } : State).funcs.find? (·.fn == 0) = some { function 0 with vectors := [0] } := by
  refine ⟨⟨?_, ?_, ?_, ?_, ?_⟩, ⟨?_, ?_, ?_, ?_⟩, ⟨?_, ?_, ?_, ?_, ?_, ?_, ?_, ?_, ?_, ?_, ?_⟩, ?_, ⟨?_, ?_, ?_, ?_, ?_, ?_, ?_, ?_, ?_, ?_⟩, ?_⟩ <;> decide +kernel
theorem resetting_good (f : Option (Nat × Nat)) : (resetting f).good := pair_good .running .running .running 9

/-- World 0 with the first two frames of HBM and a slot of class 0 from another world. -/
def framed : State := { idle with worlds := [{ ranged 1 with frames := [hbmBase, hbmBase + 0x200000], capPrompt := 4 },
  { World.reset 1 with hbmSlots := (World.reset 1).hbmSlots.set 0 2 }, .reset 256, .reset 257] }
theorem witness_WorldsAreConfigured : let s := framed
    (match s.world? 0 with
      | some x => decide (x.frames.length = 2 ∧ s.freeAmount 1 + s.amount x 1 < 1024 ∧ 3 ≤ s.freeAmount 1 + s.amount x 1 ∧ x.wid = 0)
      | none => false) = true
    ∧ s.world? (s.cmdWorld (pc 0 0 0 0 0)) ≠ none ∧ s.world? (s.cmdWorld (pc 0 9 0 0 0)) = none
    ∧ (s.lowFrames 1 s.framesUsed []).isSome = true ∧ (s.prefix_ 0).uses hbmBase = false ∧ (hbmBase + 0x400000) ∉ [hbmBase, hbmBase + 0x200000]
    ∧ (World.reset 1).wid ≠ 0 ∧ (s.worlds.any fun y => y.wid == 1 && (y.classSlots false 0).getLsbD 1) = true ∧ reservedSlot false 8 = true ∧ reservedSlot false 2 = false
    ∧ s.itemWorld 3 0 = some 0 ∧ (s.jetton 0).state = .idle ∧ ((hosted 1).jetton 0).state = .running
    ∧ getKey s.eng.queues 3 = some (held (entry 4 0xFFFF (bankBase 0 2) 0 0) []) ∧ (held (entry 4 0xFFFF (bankBase 0 2) 0 0) []).world = 0
    ∧ (s.installed (ranged 1) 4 0 (.bytes (List.replicate 24 0))).isSome = true ∧ (s.installed (ranged 1) 4 0 (.bytes [])).isSome = false
    ∧ natBits (0 : BitVec 128).toNat 119 9 = 0 ∧ natBits (2 ^ 119 : BitVec 128).toNat 119 9 ≠ 0 ∧ s.itemWorld 9 5 = none
    ∧ (({ s with handlesHeld := [(5, 0)] } : State).itemWorld 9 5 = some 0 ∧ timetableOk plane1 = true)
    ∧ maskCount ((ranged 1).slots false) ≤ 896 ∧ 896 < 897
    ∧ (List.replicate 24 (0 : Byte)).length = 24 ∧ rangeOk (ranged 1) (BitVec.ofNat 192 (leNat (List.replicate 24 0))) = true := by
  refine ⟨?_, ?_, ?_, ?_, ?_, ?_, ?_, ?_, ?_, ?_, ?_, ?_, ?_, ?_, ?_, ?_, ?_, ?_, ?_, ?_, ?_, ?_, ?_, ?_⟩ <;> decide +kernel

/-- World 0 after step `k` of a migration, with jetton 0 running, stopped or free, one prefix slot and a command queue. -/
def migrating (k : Nat) (j : JState) : State := { framed with
  worlds := [{ ranged 1 with migStep := k, frames := [hbmBase], dirtybase := BitVec.ofNat 64 hbmBase }, .reset 256, .reset 257]
  disp := { framed.disp with jettons := [(0, { Jetton.reset with state := j, held := true })] }
  eng := { framed.eng with prefixes := [slots 1 true] } }
theorem witness_MigrationsStep :
    ((List.range 7).all fun k => decide (((migrating k .stopped).world? 0).map (·.migStep) = some k)) = true
    ∧ (∃ j ∈ (migrating 3 .running).disp.jettons, j.2.world = 0 ∧ j.2.state ∉ [JState.free, .idle, .ready, .stopped])
    ∧ (∀ j ∈ (migrating 3 .stopped).disp.jettons, j.2.state ∈ [JState.free, .idle, .ready, .stopped])
    ∧ (((migrating 4 .stopped).prefix_ 0).slots.any fun q => q.2.idx) = true ∧ ((migrating 6 .stopped).jetton 0).state = .stopped
    ∧ (getKey (migrating 6 .stopped).eng.queues 3).isSome = true := by
  refine ⟨?_, ?_, ?_, ?_, ?_, ?_⟩ <;> decide +kernel

/-- A scan of core 2 in state `k`, whose time is due; a firmware processor 3 in a plug-in's call. -/
def scanning (k : Nat) (sig : W64) : State := { State.reset with disp := { State.reset.disp with
  mapPrompt := BitVec.allOnes 1024, scans := [(2, { Scan.reset with state := k, ssigx := sig })] } }
theorem witness_ScansGoRound (sig : W64) : State.reset.scan 2 = Scan.reset ∧ ({ State.reset with disp := (scanning 0 0).disp } : State).holdable 2 = true
    ∧ ((scanning 2 0).scan 2).state = 2 ∧ (scanning 2 0).beatFor 2 = false
    ∧ ((scanning 3 sig).scan 2).until_ = (scanning 3 sig).tb ∧ sig = ((scanning 3 sig).scan 2).ssigx ∧ sig + 1 ≠ ((scanning 3 sig).scan 2).ssigx
    ∧ (let z : Scan := { Scan.reset with cmds := [1], abort := true }; (State.reset.setScan 2 z).disp.scans = [(2, z)] ∧ z.cmds ≠ [] ∧ z.abort = true ∧ 1 ∈ z.cmds)
    ∧ ((scanning 4 0).scan 2).state = 4 ∧ ((scanning 4 0).scan 2).until_ = (scanning 4 0).tb ∧ 2 / 256 = (0 : BitVec 4).toNat := by
  refine ⟨by decide +kernel, by decide +kernel, rfl, rfl, rfl, rfl, ?_, by decide +kernel, rfl, rfl, rfl⟩
  intro h; have : sig + 1 = sig := h; bv_omega

/-- The image's own checks hold as soon as the two that the spec leaves to the outside world do: its signature and its version. -/
theorem witness_PowerHeatAndImages (v sig : List Byte) (hv : Config.verifyImage ([0x57, 0x46, 0, 0, 0xFF, 0xFF, 0xFF, 0xFF] ++ List.replicate 24 0 ++ shake256 v ++ v) sig = true)
    (hm : Config.fusedMinimum ≤ 2 ^ 32 - 1) : imageOk ([0x57, 0x46, 0, 0, 0xFF, 0xFF, 0xFF, 0xFF] ++ List.replicate 24 0 ++ shake256 v) v sig = true
    ∧ imageOk [] v sig = false ∧ State.reset.good ∧ State.reset.world? 5 = none ∧ (List.replicate 32 (0 : Byte)).length = 32 := by
  have l : (shake256 v).length = 32 := keccak512_length v 0x1F
  refine ⟨?_, rfl, ⟨by decide, ⟨trivial, by decide⟩, ⟨by decide, by decide⟩, fun _ h => nomatch h⟩, by decide +kernel, rfl⟩
  simp [imageOk, headerDigest, l, leNat] at *
  exact ⟨hv, hm⟩

theorem witness_ServicesAct : let c : Copy := { theCopy 256 .parked with saved := false }
    (let s : State := { holding c [] with disp := { (holding c []).disp with xlates := [⟨0, 0, .copy c.id⟩] } };
       s.disp.xlates = [⟨0, 0, .copy c.id⟩] ∧ s.copy? c.id = some c ∧ c.state = .parked ∧ c.saved = false ∧ ∀ x ∈ s.disp.xlates, ¬ (x.world = 5 ∧ x.va = 0))
    ∧ (let f : Fw := { Fw.reset with level := .plugin, callStart := 0 };
       let s : State := { task with tb := 4096, others := [(2051, { member .running with fw := some f })] };
       (s.getCore (2048 + 3)).fw = some f ∧ (s.getCore (2048 + 3)).iss.status = .running ∧ f.callStart + 4096 ≤ s.tb) :=
  ⟨⟨rfl, by decide, rfl, rfl, by decide⟩, by decide, by decide, by decide⟩

/-! The step, the encoding and the invariant -/

/-- A word in its turn on core 0: a compare, a word that is none, and a vector word of a stream, fetched or not; segment 1 is absent. -/
def fetching0 (w : Nat) : State := State.reset.withFetchWord 48 w
def fetchesFrom (a : Nat) : State := (fetching0 0).modIss fun x => { x with pc := a }
theorem witness_StepRunsTheDecodedWord : let s := fetching0 0x040886400000; let z : Stream := { stream1 with left := 1 }
    (s.phase = .column ∧ s.core.fw = none ∧ (∀ k ∈ s.live, k ≠ s.cur → (s.getCore k).iss.turn = some []) ∧ s.core.iss.turn = some [none] ∧ s.breaks = false)
    ∧ ((∀ h : 0 / 256 < 16, s.core.bnd.segs[0 / 256].present = true) ∧ s.mem.damaged (codeBase s.cur) = false
      ∧ opcodeCol (s.mem.codeWord s.cur 0) = none ∧ decode (s.mem.codeWord s.cur 0) = .ok (.cmp 1 2 3 .lt))
    ∧ (let t := fetching0 0x3C0000000001; opcodeCol (t.mem.codeWord t.cur 0) = none ∧ decode (t.mem.codeWord t.cur 0) = .error .reservedField ∧ t.mayFault)
    ∧ ((fetchesFrom 0x100).core.iss.pc = 0x100 ∧ (∀ h : 0x100 / 256 < 16, (fetchesFrom 0x100).core.bnd.segs[0x100 / 256].present = false) ∧ (fetchesFrom 0x100).mayFault)
    ∧ (let t := (fetching0 0xBF0000FFE001).modCol .vector fun c => { c with run := some z }
       t.core.iss.turn = some [some .vector] ∧ (t.core.col .vector).run = some z ∧ z.cur = none ∧ z.addr = 0
       ∧ opcodeCol (t.mem.codeWord t.cur 0) = some .vector ∧ decode (t.mem.codeWord t.cur 0) = .ok (.vnop ⟨0xFFE, 1⟩)
       ∧ ({ z with cur := some (.vnop ⟨0xFFE, 1⟩) } : Stream).cur = some (.vnop ⟨0xFFE, 1⟩))
    ∧ (let t := fetching0 0xBF0000FFE001; ∀ j, ¬ (opcodeCol (t.mem.codeWord t.cur 0) = none ∧ decode (t.mem.codeWord t.cur 0) = .ok j))
    ∧ ({ s with mem := s.mem.markPoison (unitOf (codeBase s.cur)) } : State).mem.damaged (codeBase s.cur) = true
    ∧ (let t := s.modC fun c => { c with fw := some Fw.reset }; t.core.fw ≠ none ∧ t.core.iss.turn = some [none] ∧ t.breaks = false) := by
  refine ⟨⟨rfl, rfl, by decide, rfl, by decide⟩, ⟨fun _ => rfl, by decide, by decide, rfl⟩, ⟨by decide, rfl, rfl, rfl⟩,
    ⟨rfl, fun _ => rfl, rfl, rfl⟩, ⟨rfl, rfl, rfl, rfl, by decide, rfl, rfl⟩, fun j h => absurd h.1 (by decide), by decide, ?_, rfl, by decide⟩
  nofun

theorem witness_DecodeOfEncode : (Instr.cmp 1 2 3 .lt).wf = true ∧ encode (.cmp 1 2 3 .lt) = some 0x040886400000 := by decide
theorem witness_EncodeOfDecode : decode 0x040886400000 = .ok (.cmp 1 2 3 .lt) := rfl
theorem witness_StepKeepsGood : task.good ∧ (match step task with | .next _ => true | _ => false) = true := ⟨task_good, by decide +kernel⟩

end Sys2Proof.Tests
end

section
namespace Sys2Proof.Machine
open Sys2Proof

/-! ### State registers (R16, R17, R40, R118) -/

/-- The digit of a level in LOOPST (Table 1.7). -/
def loopDigit (loops : List LoopLevel) (k : BitVec 2) : Nat :=
  match loops.find? fun l => l.lvl == k with
  | some l => 2 ^ 15 + l.stop % 4096
  | none => 0

theorem loopDigit_lt (loops : List LoopLevel) (k : BitVec 2) : loopDigit loops k < 2 ^ 16 := by
  unfold loopDigit
  split <;> omega

theorem loopDigit_cons (l : LoopLevel) (r : List LoopLevel) (k : BitVec 2) :
    loopDigit (l :: r) k = if l.lvl = k then 2 ^ 15 + l.stop % 4096 else loopDigit r k := by
  unfold loopDigit
  by_cases h : l.lvl = k <;> simp [h]

theorem loopDigit_absent {r : List LoopLevel} {k : BitVec 2} (h : ∀ l ∈ r, k ≠ l.lvl) : loopDigit r k = 0 := by
  have hf : r.find? (fun l => l.lvl == k) = none := by simpa using fun l hl => (h l hl).symm
  unfold loopDigit
  rw [hf]

theorem level_cases (k : BitVec 2) : k = 0 ∨ k = 1 ∨ k = 2 ∨ k = 3 := by revert k; decide

/-- The four digits of LOOPST: no two levels of the stack share one, so the sum has no carry. -/
theorem loopst_digits (a : Nat) (loops : List LoopLevel) (h : loops.Pairwise fun x y => x.lvl ≠ y.lvl) :
    loops.foldl (fun a l => a + (2 ^ 15 + l.stop % 4096) * 2 ^ (16 * l.lvl.toNat)) a =
      a + (loopDigit loops 0 + loopDigit loops 1 * 2 ^ 16 + loopDigit loops 2 * 2 ^ 32 + loopDigit loops 3 * 2 ^ 48) := by
  induction loops generalizing a with
  | nil => rfl
  | cons l r ih =>
    obtain ⟨hl, hr⟩ := List.pairwise_cons.mp h
    have h0 := loopDigit_absent fun x hx => hl x hx
    rw [List.foldl_cons, ih _ hr]
    simp only [loopDigit_cons]
    generalize l.lvl = j at h0 ⊢
    obtain rfl | rfl | rfl | rfl := level_cases j
    all_goals
      simp only [BitVec.ofNat_eq_ofNat] at h0
      simp [h0]
      omega

/-- A digit of a number in base 2^16. -/
theorem digit_of_sum {a b c d : Nat} (ha : a < 2 ^ 16) (hb : b < 2 ^ 16) (hc : c < 2 ^ 16) (hd : d < 2 ^ 16) :
    let n := (a + b * 2 ^ 16 + c * 2 ^ 32 + d * 2 ^ 48) % 2 ^ 64
    n % 2 ^ 16 = a ∧ n / 2 ^ 16 % 2 ^ 16 = b ∧ n / 2 ^ 32 % 2 ^ 16 = c ∧ n / 2 ^ 48 % 2 ^ 16 = d := by
  dsimp only
  omega

theorem loopst_digit (loops : List LoopLevel) (h : loops.Pairwise fun x y => x.lvl ≠ y.lvl) (k : BitVec 2) :
    (loopst loops).extractLsb' (16 * k.toNat) 16 = BitVec.ofNat 16 (loopDigit loops k) := by
  obtain ⟨h0, h1, h2, h3⟩ := digit_of_sum (loopDigit_lt loops 0) (loopDigit_lt loops 1) (loopDigit_lt loops 2) (loopDigit_lt loops 3)
  have hd := loopst_digits 0 loops h
  rw [Nat.zero_add] at hd
  rw [← hd] at h0 h1 h2 h3
  apply BitVec.eq_of_toNat_eq
  rw [loopst, BitVec.extractLsb'_toNat, BitVec.toNat_ofNat, BitVec.toNat_ofNat, Nat.shiftRight_eq_div_pow,
    Nat.mod_eq_of_lt (loopDigit_lt loops k)]
  obtain rfl | rfl | rfl | rfl := level_cases k
  · exact (congrArg (· % 2 ^ 16) (Nat.div_one _)).trans h0
  · exact h1
  · exact h2
  · exact h3

theorem Gives.of_srd {s : State} {d : SReg} {n : BitVec 8} {v : W64} (h : s.stateReg n = some v) :
    Gives s (.srd d n) 1 1 (.s d v) := by
  refine Gives.of_give ?_ rfl
  show execSrd d n s = _
  rw [execSrd, h]
  rfl

theorem Faults.of_ctlFault {s : State} (hs : s.mayFault) {i : Instr} {c : Cause} {addr : W64} {det : Nat} {code : BitVec 16}
    (h : exec i s = .next (s.ctlFault c addr det code)) : Faults s i c addr det code := by
  rw [Faults, h, State.ctlFault_eq hs]

/-- The numbers that Table 1.5 does not assign. -/
def unassigned (n : BitVec 8) : Prop :=
  n = 0x0F ∨ n = 0x16 ∨ n = 0x17 ∨ 0x1C ≤ n.toNat ∧ n.toNat ≤ 0x1F ∨ 0x30 ≤ n.toNat ∧ n.toNat ≤ 0x3F ∨ 0xA0 ≤ n.toNat

theorem unassigned_iff (n : BitVec 8) : unassigned n ↔ n.toNat = 0x0F ∨ n.toNat = 0x16 ∨ n.toNat = 0x17 ∨
    0x1C ≤ n.toNat ∧ n.toNat ≤ 0x1F ∨ 0x30 ≤ n.toNat ∧ n.toNat ≤ 0x3F ∨ 0xA0 ≤ n.toNat := by
  simp only [unassigned, ← BitVec.toNat_inj, BitVec.reduceToNat]

theorem isSome_dite_some {α : Type} (c : Prop) [Decidable c] (x : c → α) (y : Option α) :
    (if h : c then some (x h) else y).isSome ↔ c ∨ y.isSome := by
  split <;> simp [*]

theorem isSome_ite_some {α : Type} (c : Prop) [Decidable c] (x : α) (y : Option α) :
    (if c then some x else y).isSome ↔ c ∨ y.isSome := isSome_dite_some c _ y

theorem State.stateReg_isSome (s : State) (n : BitVec 8) : (s.stateReg n).isSome ↔ ¬ unassigned n := by
  rw [unassigned_iff]
  simp only [State.stateReg, beq_iff_eq, isSome_ite_some, isSome_dite_some, Option.isSome_none, Bool.false_eq_true, or_false]
  omega

theorem State.stateReg_isNone {s : State} {n : BitVec 8} : (s.stateReg n).isNone = true ↔ unassigned n := by
  rw [← not_iff_not, ← s.stateReg_isSome n, Bool.not_eq_true, ← Option.not_isSome, Bool.not_eq_false']

theorem State.stateReg_not_isNone {s : State} {n : BitVec 8} (h : ¬ unassigned n) : (s.stateReg n).isNone = false := by
  rwa [← State.stateReg_isNone (s := s), Bool.not_eq_true] at h

theorem Faults.of_unassigned {s : State} (hs : s.mayFault) {n : BitVec 8} (h : unassigned n) (a : SReg) :
    Faults s (.swr n a) .ill 0 0 0 ∧ ∀ d, Faults s (.srd d n) .ill 0 0 0 := by
  have hn : s.stateReg n = none := by simpa using State.stateReg_isNone.mpr h
  refine ⟨.of_ctlFault hs ?_, fun d => .of_ctlFault hs ?_⟩
  · show execSwr n a s = _
    rw [execSwr, hn]; rfl
  · show execSrd d n s = _
    rw [execSrd, hn]

theorem Faults.of_unwritable {s : State} (hs : s.mayFault) {n : BitVec 8} (hn : ¬ unassigned n) (hw : regWritable n = false)
    (a : SReg) : Faults s (.swr n a) .priv 0 0 0 := by
  refine .of_ctlFault hs ?_
  show execSwr n a s = _
  rw [execSwr, State.stateReg_not_isNone hn, hw]
  rfl

theorem Faults.of_reserved {s : State} (hs : s.mayFault) {n : BitVec 8} {a : SReg} (hn : ¬ unassigned n)
    (hw : regWritable n = true) (hr : regReserved n (s.sreg a) = true) : Faults s (.swr n a) .ill 0 0 0 := by
  refine .of_ctlFault hs ?_
  show execSwr n a s = _
  rw [execSwr, State.stateReg_not_isNone hn, hw, hr]
  rfl

theorem Gives.of_swr {s : State} {n : BitVec 8} {a : SReg} (hn : ¬ unassigned n) (hw : regWritable n = true)
    (hr : regReserved n (s.sreg a) = false) : Gives s (.swr n a) 1 1 (.reg n (s.sreg a)) := by
  refine Gives.of_give ?_ rfl
  show execSwr n a s = _
  rw [execSwr, State.stateReg_not_isNone hn, hw, hr]
  rfl

/-- The number of a BFMT register. -/
theorem bfmt_toNat {k : Nat} (h : k < 96) : (BitVec.ofNat 8 (0x40 + k)).toNat = 0x40 + k := by
  rw [BitVec.toNat_ofNat]; omega

theorem bfmt_assigned {k : Nat} (h : k < 96) : ¬ unassigned (BitVec.ofNat 8 (0x40 + k)) := by
  rw [unassigned_iff, bfmt_toNat h]
  omega

theorem bfmt_writable {k : Nat} (h : k < 96) : regWritable (BitVec.ofNat 8 (0x40 + k)) = true := by
  have : 64 + k ≤ 0x9F := by omega
  simp [regWritable, bfmt_toNat h, this]

theorem bfmt_reserved {k : Nat} (h : k < 96) (v : W64) :
    regReserved (BitVec.ofNat 8 (0x40 + k)) v = decide (5 ≤ (v.extractLsb' 8 3).toNat) := by
  have h1 : 64 + k ≤ 0x9F := by omega
  have h2 : (BitVec.ofNat 8 (0x40 + k) == (0x0B : BitVec 8)) = false := by
    simp only [beq_eq_false_iff_ne, ne_eq, ← BitVec.toNat_inj, bfmt_toNat h, BitVec.reduceToNat]; omega
  unfold regReserved
  rw [h2, bfmt_toNat h]
  simp [h1]

/-- The registers of Table 1.5 that a task may not write. -/
theorem unwritable_of_table {n : BitVec 8} (h : 1 ≤ n.toNat ∧ n.toNat ≤ 0x0E ∧ n ≠ 0x0B ∨ 0x10 ≤ n.toNat ∧ n.toNat ≤ 0x13 ∨ n = 0x15
    ∨ 0x18 ≤ n.toNat ∧ n.toNat ≤ 0x1B ∨ 0x20 ≤ n.toNat ∧ n.toNat ≤ 0x2F) : ¬ unassigned n ∧ regWritable n = false := by
  rw [unassigned_iff]
  simp only [regWritable, ne_eq, ← BitVec.toNat_inj, BitVec.reduceToNat, Bool.or_eq_false_iff, beq_eq_false_iff_ne,
    Bool.and_eq_false_iff, decide_eq_false_iff_not] at h ⊢
  omega

/-! Reads by number: the registers that stand in a vector. -/

theorem State.stateReg_bpaddr (s : State) {k : Nat} (h : k < 4) :
    s.stateReg (BitVec.ofNat 8 (0x10 + k)) = some (s.core.sys.bpaddr[k].setWidth 64) := by
  obtain rfl | rfl | rfl | rfl : k = 0 ∨ k = 1 ∨ k = 2 ∨ k = 3 := by omega
  all_goals rfl

theorem State.stateReg_lc (s : State) {k : Nat} (h : k < 4) :
    s.stateReg (BitVec.ofNat 8 (0x18 + k)) = some (s.core.ctl.lc[k].setWidth 64) := by
  obtain rfl | rfl | rfl | rfl : k = 0 ∨ k = 1 ∨ k = 2 ∨ k = 3 := by omega
  all_goals rfl

theorem State.stateReg_mb (s : State) {k : Nat} (h : k < 16) :
    s.stateReg (BitVec.ofNat 8 (0x20 + k)) = some s.core.ctl.mb[k] := by
  have hn : (BitVec.ofNat 8 (0x20 + k)).toNat = 0x20 + k := by rw [BitVec.toNat_ofNat]; omega
  simp (disch := omega) only [State.stateReg, hn, beq_iff_eq, if_neg, dif_pos, dif_neg, Nat.add_sub_cancel_left]

theorem State.stateReg_bfmt (s : State) {k : Nat} (h : k < 96) :
    s.stateReg (BitVec.ofNat 8 (0x40 + k)) = some s.core.sys.bfmt[k] := by
  simp (disch := omega) only [State.stateReg, bfmt_toNat h, beq_iff_eq, if_neg, dif_pos, dif_neg, Nat.add_sub_cancel_left]

/-- SRD of LOOPST: the 16 bits of each level. -/
theorem Gives.of_srd_loopst (s : State) (d : SReg) : ∃ v, Gives s (.srd d 0x15) 1 1 (.s d v) ∧
    (s.core.ctl.loops.Pairwise (fun x y => x.lvl ≠ y.lvl) → (∀ l ∈ s.core.ctl.loops, l.stop < 4096) → ∀ k : BitVec 2,
      v.extractLsb' (16 * k.toNat) 16 = match s.core.ctl.loops.find? (fun l => l.lvl == k) with
        | some l => BitVec.ofNat 16 (0x8000 + l.stop)
        | none => 0) := by
  refine ⟨_, .of_srd rfl, fun hp hs k => ?_⟩
  show (loopst s.core.ctl.loops).extractLsb' (16 * k.toNat) 16 = _
  rw [loopst_digit _ hp, loopDigit]
  cases h : s.core.ctl.loops.find? (fun l => l.lvl == k) with
  | none => rfl
  | some l => simp [Nat.mod_eq_of_lt (hs l (List.mem_of_find?_eq_some h))]

theorem SysRegs.write_bfmt (r : SysRegs) {k : Nat} (h : k < 96) (v : W64) :
    r.write (0x40 + k) v = { r with bfmt := r.bfmt.set k (v &&& 0xFFFFFFFF0000070F) } := by
  simp (disch := omega) only [SysRegs.write, beq_iff_eq, if_neg, dif_pos, Nat.add_sub_cancel_left]
  rfl

/-- Settles O4: each register by its number, and the three answers of SWR by what Table 1.5 says of the number. -/
theorem stateRegistersReadAndWrite : Obligations.StateRegistersReadAndWrite := by
  unfold Obligations.StateRegistersReadAndWrite
  refine ⟨fun s d => ?_, fun s a => ⟨?_, ?_, ?_, ?_, fun hs => ⟨?_, ?_, ?_, ?_⟩, fun c => ⟨?_, ?_, ?_, ?_⟩⟩⟩
  · refine ⟨.of_srd rfl, .of_srd rfl, .of_srd rfl, .of_srd rfl, .of_srd rfl, .of_srd rfl, .of_srd rfl, .of_srd rfl, .of_srd rfl,
      .of_srd rfl, .of_srd rfl, .of_srd rfl, .of_srd rfl, .of_srd rfl, .of_srd rfl, ?_, ?_, ?_, .of_srd rfl,
      Gives.of_srd_loopst s d⟩
    · exact fun k h => ⟨.of_srd (s.stateReg_bpaddr h), .of_srd (s.stateReg_lc h)⟩
    · exact fun k h => .of_srd (s.stateReg_mb h)
    · exact fun k h => .of_srd (s.stateReg_bfmt h)
  · exact .of_swr (by simp [unassigned]) rfl rfl
  · exact .of_swr (by simp [unassigned]) rfl rfl
  · exact fun h => .of_swr (by simp [unassigned]) rfl (by simpa [regReserved, Nat.lt_succ_iff] using h)
  · exact fun k hk h => .of_swr (bfmt_assigned hk) (bfmt_writable hk) (by simpa [bfmt_reserved hk, Nat.lt_succ_iff] using h)
  · exact fun n h => .of_unwritable hs (unwritable_of_table h).1 (unwritable_of_table h).2 a
  · exact fun n h => Faults.of_unassigned hs h a
  · exact fun h => .of_reserved hs (by simp [unassigned]) rfl (by simpa [regReserved] using h)
  · exact fun k hk h => .of_reserved hs (bfmt_assigned hk) (bfmt_writable hk) (by rw [bfmt_reserved hk]; simpa using h)
  · rfl
  · rfl
  · rfl
  · intro k h
    show c.sys.write _ _ = _
    rw [bfmt_toNat h, SysRegs.write_bfmt _ h]

end Sys2Proof.Machine
end

section
namespace Sys2Proof.Machine
open Sys2Proof

/-! ### Flow words (R38, R39, R73, R109 to R111, R336) -/

theorem State.target_of_inside {s : State} {off : BitVec 24} (h0 : 0 ≤ (s.core.iss.pc : Int) + off.toInt)
    (h1 : (s.core.iss.pc : Int) + off.toInt ≤ 0xFFF) : s.target off = some ((s.core.iss.pc : Int) + off.toInt).toNat := by
  simp [State.target, h0, h1]

theorem State.target_of_outside {s : State} {off : BitVec 24}
    (h : (s.core.iss.pc : Int) + off.toInt < 0 ∨ 0xFFF < (s.core.iss.pc : Int) + off.toInt) : s.target off = none := by
  unfold State.target
  dsimp only
  rw [if_neg]
  simp
  omega

theorem popLoops_eq (loops : List LoopLevel) (n : Nat) :
    popLoops loops n = loops.filter fun l => decide (l.start ≤ n ∧ n ≤ l.stop) := by
  simp [popLoops]

/-- A transfer that pops the loop levels around its target. -/
theorem Transfers.of_pop {s : State} {i : Instr} {n : Nat} (h : exec i s = .next (s.jumpTo n false)) :
    Transfers s i n (s.core.ctl.loops.filter fun l => decide (l.start ≤ n ∧ n ≤ l.stop)) := by
  have := Transfers.of_jump h
  rwa [if_neg Bool.false_ne_true, popLoops_eq] at this

theorem Transfers.of_keep {s : State} {i : Instr} {n : Nat} (h : exec i s = .next (s.jumpTo n true)) :
    Transfers s i n s.core.ctl.loops := Transfers.of_jump h

/-- A jump that keeps the loops moves the place of the control column alone. -/
theorem State.put_jump (s : State) (lat n : Nat) (d : Dst) : (s.put lat d).jumpTo n true =
    s.modC fun c => c.moved s.core.ctl.loops s.core.ctl.lc n (s.tb + 2) ⟨s.tb + lat - 1, d, none, s.tb⟩ := rfl

theorem Lands.of_moved (s : State) (l : List LoopLevel) (lc : Vector W32 4) (pc next : Nat) {p : Pend} (hp : p.dst.plain = true) :
    Lands s (s.modC fun c => c.moved l lc pc next p) p.due p.dst := by
  have hq : p.dst.isQ = false := by cases h : p.dst <;> simp_all [Dst.plain, Dst.isQ]
  have ht : ∀ (m : Mem) k, m.applyTable k p.dst = m := by
    intro m k; cases h : p.dst <;> simp_all [Dst.plain, Mem.applyTable]
  refine ⟨rfl, fun e he => ?_, fun e he => ?_⟩
  · rw [State.commit_moved _ _ _ _ _ _ _ hq ht, if_neg (by omega)]
  · rw [State.commit_moved _ _ _ _ _ _ _ hq ht, if_pos he]

theorem State.branchTo_inside {s : State} {off : BitVec 24} (h0 : 0 ≤ (s.core.iss.pc : Int) + off.toInt)
    (h1 : (s.core.iss.pc : Int) + off.toInt ≤ 0xFFF) :
    s.branchTo off = s.jumpTo ((s.core.iss.pc : Int) + off.toInt).toNat false := by
  rw [State.branchTo, State.target_of_inside h0 h1]

theorem State.branchTo_outside {s : State} {off : BitVec 24}
    (h : (s.core.iss.pc : Int) + off.toInt < 0 ∨ 0xFFF < (s.core.iss.pc : Int) + off.toInt) : s.branchTo off = s.ctlFault .ill 0 := by
  rw [State.branchTo, State.target_of_outside h]

theorem State.indirect_inside {s : State} {a : W64} (h : a.toNat ≤ 0xFFF) (keep : Bool) :
    s.indirect a keep = s.jumpTo a.toNat keep := if_neg (by omega)

theorem State.indirect_outside {s : State} {a : W64} (h : 0xFFF < a.toNat) (keep : Bool) :
    s.indirect a keep = s.ctlFault .ill 0 := if_pos h

/-! What each flow word does where it may stand. -/

section
variable {s : State} (hs : s.flowFree)
include hs

theorem exec_b_taken {k : KReg} {sense : Bool} (h : s.kreg k ≠ sense) (off : BitVec 24) :
    exec (.b k sense off) s = .next (s.branchTo off) := by
  show execB k sense off s = _
  rw [execB, State.flow_free hs, if_pos (by simpa using h)]

theorem exec_b_untaken {k : KReg} {sense : Bool} (h : s.kreg k = sense) (off : BitVec 24) :
    exec (.b k sense off) s = .next (s.advance 1) := by
  show execB k sense off s = _
  rw [execB, State.flow_free hs, if_neg (by simpa using h)]

theorem exec_j (off : BitVec 24) : exec (.j off) s = .next (s.branchTo off) := by
  show execJ off s = _
  rw [execJ, State.flow_free hs]

theorem exec_jr (a : SReg) : exec (.jr a) s = .next (s.indirect (s.sreg a) false) := by
  show execJr a s = _
  rw [execJr, State.flow_free hs]

theorem exec_ret (a : SReg) : exec (.ret a) s = .next (s.indirect (s.sreg a) true) := by
  show execRet a s = _
  rw [execRet, State.flow_free hs]


omit hs in
/-- The segment that JF looks at, by the upper four bits of its target. -/
theorem segs_of_target (v : Vector Seg 16) (tg : BitVec 12) :
    v[(tg.extractLsb' 8 4).toNat]'(tg.extractLsb' 8 4).isLt = v[tg.toNat / 256]'(by omega) := by
  have h : (tg.extractLsb' 8 4).toNat = tg.toNat / 256 := by
    rw [BitVec.extractLsb'_toNat, Nat.shiftRight_eq_div_pow]; omega
  simp only [h]

theorem exec_jf (tag : BitVec 16) (tg : BitVec 12) : exec (.jf tag tg) s = .next (
    if (s.core.bnd.segs[tg.toNat / 256]'(by omega)).present = false then s.ctlFault .segmiss (tg.setWidth 64)
    else if (s.core.bnd.segs[tg.toNat / 256]'(by omega)).tag ≠ tag then s.ctlFault .segmiss (tg.setWidth 64) 7
    else s.jumpTo tg.toNat false) := by
  show execJf tag tg s = _
  rw [execJf, State.flow_free hs]
  dsimp only
  rw [segs_of_target]
  simp

theorem exec_call_inside {off : BitVec 24} (h0 : 0 ≤ (s.core.iss.pc : Int) + off.toInt)
    (h1 : (s.core.iss.pc : Int) + off.toInt ≤ 0xFFF) (d : SReg) : exec (.call d off) s =
      .next ((s.put 1 (.s d (BitVec.ofNat 64 (s.core.iss.pc + 1)))).jumpTo ((s.core.iss.pc : Int) + off.toInt).toNat true) := by
  show execCall d off s = _
  rw [execCall, State.flow_free hs, State.target_of_inside h0 h1]

theorem exec_call_outside {off : BitVec 24}
    (h : (s.core.iss.pc : Int) + off.toInt < 0 ∨ 0xFFF < (s.core.iss.pc : Int) + off.toInt) (d : SReg) :
    exec (.call d off) s = .next (s.ctlFault .ill 0) := by
  show execCall d off s = _
  rw [execCall, State.flow_free hs, State.target_of_outside h]

end

/-! Where none may stand. -/

/-- The words that R39 refuses as a loop's end word. -/
inductive Flow : Instr → Prop where
  | b (k sense off) : Flow (.b k sense off)
  | j (off) : Flow (.j off)
  | jr (a) : Flow (.jr a)
  | ret (a) : Flow (.ret a)
  | jf (tag tg) : Flow (.jf tag tg)
  | call (d off) : Flow (.call d off)
  | done : Flow .done
  | loop (lvl count off) : Flow (.loop lvl count off)
  | loopr (lvl reg off) : Flow (.loopr lvl reg off)

/-- Each goes through the same check. -/
theorem Flow.exec_eq {i : Instr} (h : Flow i) (s : State) : ∃ f, exec i s = s.flow f := by
  cases h with
  | b k sense off => show ∃ f, execB k sense off s = s.flow f; exact ⟨_, rfl⟩
  | j off => show ∃ f, execJ off s = s.flow f; exact ⟨_, rfl⟩
  | jr a => show ∃ f, execJr a s = s.flow f; exact ⟨_, rfl⟩
  | ret a => show ∃ f, execRet a s = s.flow f; exact ⟨_, rfl⟩
  | jf tag tg => show ∃ f, execJf tag tg s = s.flow f; exact ⟨_, rfl⟩
  | call d off => show ∃ f, execCall d off s = s.flow f; exact ⟨_, rfl⟩
  | done => show ∃ f, execDone s = s.flow f; exact ⟨_, rfl⟩
  | loop lvl count off => show ∃ f, execLoop lvl count off s = s.flow f; exact ⟨_, rfl⟩
  | loopr lvl reg off => show ∃ f, execLoopr lvl reg off s = s.flow f; exact ⟨_, rfl⟩

theorem Flow.blocked {i : Instr} (h : Flow i) {s : State} (hs : s.mayFault) {det : Nat} (hb : s.flowBlocked = some det) :
    Faults s i .ill 0 det 0 := by
  obtain ⟨f, hf⟩ := h.exec_eq s
  refine .of_ctlFault hs ?_
  rw [hf, State.flow, hb]

theorem State.flowBlocked_stub {s : State} (h : s.core.iss.inStub = true) : s.flowBlocked = some 14 := if_pos h

theorem State.flowBlocked_loopEnd {s : State} (h : s.core.iss.inStub = false) (hl : ∃ l ∈ s.core.ctl.loops, l.stop = s.core.iss.pc) :
    s.flowBlocked = some 0 := by
  have hany : (s.core.ctl.loops.any fun l => l.stop == s.core.iss.pc) = true := by simpa using hl
  rw [State.flowBlocked, h, hany]
  rfl

/-- Settles O7: the transfers by the target of each word, the faults by the check that all flow words share. -/
theorem transfersGoOrFault : Obligations.TransfersGoOrFault := by
  unfold Obligations.TransfersGoOrFault
  refine ⟨fun s k sense off a d tag tg hs => ⟨fun h => ?_, fun h0 h1 => ⟨fun h => ?_, ?_, ?_⟩, fun h => ⟨?_, ?_⟩, fun h0 h1 => ?_⟩,
    fun s k sense off a d tag tg lvl count hm => ⟨fun hs h => ⟨?_, ?_, fun hk => ?_⟩, fun hs h => ⟨?_, ?_⟩, fun hs h => ?_, fun hs h0 h1 => ?_,
      fun h => ?_, fun h hl i hi => ?_⟩⟩
  · exact .of_advance (exec_b_untaken hs h off)
  · exact .of_pop (by rw [exec_b_taken hs h, State.branchTo_inside h0 h1])
  · exact .of_pop (by rw [exec_j hs, State.branchTo_inside h0 h1])
  · refine ⟨_, exec_call_inside hs h0 h1 d, rfl, ?_⟩
    rw [State.put_jump]
    exact .of_moved s _ _ _ _ rfl
  · exact .of_pop (by rw [exec_jr hs, State.indirect_inside h])
  · exact .of_keep (by rw [exec_ret hs, State.indirect_inside h])
  · exact .of_pop (by rw [exec_jf hs, if_neg (by simpa using h0), if_neg (by simpa using h1)])
  · exact .of_ctlFault hm (by rw [exec_j hs, State.branchTo_outside h])
  · exact .of_ctlFault hm (exec_call_outside hs h d)
  · exact .of_ctlFault hm (by rw [exec_b_taken hs hk, State.branchTo_outside h])
  · exact .of_ctlFault hm (by rw [exec_jr hs, State.indirect_outside h])
  · exact .of_ctlFault hm (by rw [exec_ret hs, State.indirect_outside h])
  · exact .of_ctlFault hm (by rw [exec_jf hs, if_pos h])
  · exact .of_ctlFault hm (by rw [exec_jf hs, if_neg (by simpa using h0), if_pos h1])
  · have hb := State.flowBlocked_stub h
    exact ⟨(Flow.j off).blocked hm hb, (Flow.b k sense off).blocked hm hb, (Flow.jr a).blocked hm hb, (Flow.call d off).blocked hm hb,
      Flow.done.blocked hm hb⟩
  · have hf : Flow i := by
      rcases hi with rfl | rfl | rfl | rfl | rfl | rfl | rfl | rfl | rfl <;> constructor
    exact hf.blocked hm (State.flowBlocked_loopEnd h hl)

end Sys2Proof.Machine
end

section
namespace Sys2Proof.Machine
open Sys2Proof

/-! ### Loops (R33 to R37) -/

/-- LOOP and LOOPR may push level `lvl` with the end word at `$ + off`: the level is not active, and the end word lies after the
word and inside the enclosing loop (R33, R34). -/
def State.mayPush (s : State) (lvl : BitVec 2) (off : BitVec 24) : Prop :=
  (∀ l ∈ s.core.ctl.loops, l.lvl ≠ lvl) ∧ 1 ≤ off.toInt ∧ s.core.iss.pc + off.toInt ≤ 0xFFF ∧
    ∀ l r, s.core.ctl.loops = l :: r → s.core.iss.pc + off.toInt ≤ l.stop

/-- The state with the control column at a place of the program, which issues its next word in the next cycle. -/
def State.placed (s : State) (p : List LoopLevel × Vector W32 4 × Nat) : State :=
  (s.modCtl fun r => { r with loops := p.1, lc := p.2.1 }).modIss fun x => { x with pc := p.2.2, next := s.tb + 1 }

theorem State.pushLoop_eq {s : State} {lvl : BitVec 2} {off : BitVec 24} (h : s.mayPush lvl off) (n : W32) :
    let stop := (s.core.iss.pc + off.toInt).toNat
    s.pushLoop lvl n off = s.placed (if n = 0 then loopEnd s.core.ctl.loops s.core.ctl.lc stop
      else (⟨lvl, s.core.iss.pc + 1, stop⟩ :: s.core.ctl.loops, s.core.ctl.lc.set lvl.toNat n, s.core.iss.pc + 1)) := by
  obtain ⟨hl, h1, h2, h3⟩ := h
  have ha : (s.core.ctl.loops.any fun l => l.lvl == lvl) = false := by simpa using hl
  unfold State.pushLoop
  dsimp only
  rw [ha, if_neg]
  swap
  · cases hs : s.core.ctl.loops with
    | nil => simp; omega
    | cons l r =>
      have := h3 l r hs
      simp
      omega
  by_cases hn : n = 0
  · rw [if_pos (by simpa using hn), if_pos hn]; rfl
  · rw [if_neg (by simpa using hn), if_neg hn]; rfl

theorem exec_loop {s : State} (hs : s.flowFree) (lvl : BitVec 2) (count : BitVec 13) (off : BitVec 24) :
    exec (.loop lvl count off) s = .next (s.pushLoop lvl (BitVec.ofNat 32 count.toNat) off) := by
  show execLoop lvl count off s = _
  rw [execLoop, State.flow_free hs, BitVec.ofNat_toNat]

theorem exec_loopr {s : State} (hs : s.flowFree) (lvl : BitVec 2) {reg : BitVec 13} (off : BitVec 24) {n : W32}
    (hn : s.loopCount reg = some n) : exec (.loopr lvl reg off) s = .next (s.pushLoop lvl n off) := by
  show execLoopr lvl reg off s = _
  rw [execLoopr, State.flow_free hs, hn]

theorem State.loopCount_s (s : State) {reg : BitVec 13} (h : reg.toNat < 32) :
    s.loopCount reg = some (s.core.ctl.s[reg.toNat].setWidth 32) := dif_pos h

theorem State.loopCount_mb (s : State) {reg : BitVec 13} (h : 32 ≤ reg.toNat ∧ reg.toNat < 48) :
    s.loopCount reg = some (s.core.ctl.mb[reg.toNat - 32].setWidth 32) := by
  simp (disch := omega) only [State.loopCount, dif_neg, dif_pos]

theorem loopEnd_elsewhere {l : LoopLevel} {pc : Nat} (h : l.stop ≠ pc) (r : List LoopLevel) (lc : Vector W32 4) :
    loopEnd (l :: r) lc pc = (l :: r, lc, pc + 1) := by
  rw [loopEnd, if_neg (by simpa using h)]

theorem loopEnd_again {l : LoopLevel} {pc : Nat} {lc : Vector W32 4} (h : l.stop = pc) (hn : lc[l.lvl.toNat] - 1 ≠ 0)
    (r : List LoopLevel) : loopEnd (l :: r) lc pc = (l :: r, lc.set l.lvl.toNat (lc[l.lvl.toNat] - 1), l.start) := by
  rw [loopEnd, if_pos (by simpa using h)]
  exact if_pos (by simpa using hn)

theorem loopEnd_over {l : LoopLevel} {pc : Nat} {lc : Vector W32 4} (h : l.stop = pc) (hn : lc[l.lvl.toNat] - 1 = 0)
    (r : List LoopLevel) : loopEnd (l :: r) lc pc = loopEnd r (lc.set l.lvl.toNat 0) pc := by
  rw [loopEnd, if_pos (by simpa using h)]
  simp only [hn, bne_self_eq_false, Bool.false_eq_true, if_false]

/-- Settles O8: LOOP and LOOPR by what a push does with the count, the loop-end step by the innermost loop. -/
theorem loopsPushAndEnd : Obligations.LoopsPushAndEnd := by
  unfold Obligations.LoopsPushAndEnd
  refine ⟨fun s lvl n off count reg hs hl h1 h2 h3 => ?_, fun s l r lc pc => ⟨fun hs => ?_, rfl, ?_, ?_, ?_⟩⟩
  · have hp : s.mayPush lvl off := ⟨hl, h1, h2, h3⟩
    have counts : ∀ (i : Instr) (n : W32), exec i s = .next (s.pushLoop lvl n off) →
        (n ≠ 0 → ∃ t, exec i s = .next t ∧ t.steady = s.steady ∧ t.core.iss.pend = s.core.iss.pend ∧
          t.place = (⟨lvl, s.core.iss.pc + 1, (s.core.iss.pc + off.toInt).toNat⟩ :: s.core.ctl.loops, s.core.ctl.lc.set lvl.toNat n,
            s.core.iss.pc + 1, s.tb + 1)) ∧
        (n = 0 → ∃ t, exec i s = .next t ∧ t.steady = s.steady ∧ t.core.iss.pend = s.core.iss.pend ∧
          (t.core.ctl.loops, t.core.ctl.lc, t.core.iss.pc) =
            loopEnd s.core.ctl.loops s.core.ctl.lc (s.core.iss.pc + off.toInt).toNat ∧ t.core.iss.next = s.tb + 1) := by
      intro i n hi
      rw [State.pushLoop_eq hp] at hi
      refine ⟨fun hn => ?_, fun hn => ?_⟩
      · rw [if_neg hn] at hi
        exact ⟨_, hi, rfl, rfl, rfl⟩
      · rw [if_pos hn] at hi
        exact ⟨_, hi, rfl, rfl, rfl, rfl⟩
    refine ⟨counts _ _ (exec_loop hs lvl count off), fun h hn => ?_, fun h hn => ?_⟩
    · exact counts _ _ (exec_loopr hs lvl off (hn ▸ s.loopCount_s h))
    · exact counts _ _ (exec_loopr hs lvl off (hn ▸ s.loopCount_mb h))
  · obtain ⟨hn, hp⟩ := s.advance_issues 1
    rw [hs] at hp
    exact ⟨_, rfl, hn, hp⟩
  · exact fun h => loopEnd_elsewhere h r lc
  · exact fun h hn => loopEnd_again h hn r
  · exact fun h hn => loopEnd_over h hn r

end Sys2Proof.Machine
end

section
namespace Sys2Proof.Machine
open Sys2Proof

/-! ### The fields of FINFO (Table 15.1) -/

theorem natBits_toNat (v : W64) (pos len : Nat) : natBits v.toNat pos len = (v.extractLsb' pos len).toNat := by
  rw [BitVec.extractLsb'_toNat, Nat.shiftRight_eq_div_pow, natBits]

theorem finfo_dcyc (code : BitVec 16) (src : Nat) (deferred : Bool) (det dcyc : Nat) :
    (finfo code src deferred det dcyc).extractLsb' 0 32 = BitVec.ofNat 32 dcyc := by
  apply BitVec.eq_of_getLsbD_eq
  intro i hi
  unfold finfo
  rw [BitVec.getLsbD_extractLsb', BitVec.getLsbD_append]
  simp [hi]

theorem finfo_det (code : BitVec 16) (src : Nat) (deferred : Bool) (det dcyc : Nat) :
    natBits (finfo code src deferred det dcyc).toNat 32 7 = det % 2 ^ 7 := by
  have h : (finfo code src deferred det dcyc).extractLsb' 32 7 = BitVec.ofNat 7 det := by
    apply BitVec.eq_of_getLsbD_eq
    intro i hi
    unfold finfo
    rw [BitVec.getLsbD_extractLsb', BitVec.getLsbD_append, BitVec.getLsbD_append]
    simp [hi]
  rw [natBits_toNat, h, BitVec.toNat_ofNat]

theorem finfo_src (code : BitVec 16) (src : Nat) (deferred : Bool) (det dcyc : Nat) :
    natBits (finfo code src deferred det dcyc).toNat 40 4 = src % 2 ^ 4 := by
  have h : (finfo code src deferred det dcyc).extractLsb' 40 4 = BitVec.ofNat 4 src := by
    apply BitVec.eq_of_getLsbD_eq
    intro i hi
    have h1 : ¬ 40 + i < 32 := by omega
    have h2 : ¬ 40 + i - 32 < 7 := by omega
    have h3 : ¬ 40 + i - 32 - 7 < 1 := by omega
    have h4 : 40 + i - 32 - 7 - 1 = i := by omega
    unfold finfo
    rw [BitVec.getLsbD_extractLsb', BitVec.getLsbD_append, BitVec.getLsbD_append, BitVec.getLsbD_append, BitVec.getLsbD_append]
    simp only [h1, h2, h3, h4, hi, decide_true, Bool.true_and, if_false, if_true]
  rw [natBits_toNat, h, BitVec.toNat_ofNat]

/-! ### A column and its streams (R26 to R28, R113) -/

theorem State.focus_cur (s : State) : s.focus s.cur = s := if_pos (beq_self_eq_true _)

theorem State.modCol_const (s : State) (col : Col) (f : Column → Column) :
    s.modCol col f = s.modCol col fun _ => f (s.core.col col) := by cases col <;> rfl

theorem State.modCol_congr {s : State} {col : Col} {f g : Column → Column} (h : f (s.core.col col) = g (s.core.col col)) :
    s.modCol col f = s.modCol col g := by
  rw [State.modCol_const, h, ← State.modCol_const]

theorem State.modCol_modCol (s : State) (col : Col) (f g : Column → Column) :
    (s.modCol col f).modCol col g = s.modCol col fun c => g (f c) := by cases col <;> rfl

theorem State.modCol_col (s : State) (col : Col) (f : Column → Column) : (s.modCol col f).core.col col = f (s.core.col col) := by
  cases col <;> rfl

theorem State.modCol_mayFault {s : State} (h : s.mayFault) (col : Col) (f : Column → Column) : (s.modCol col f).mayFault := by
  cases col <;> exact h

theorem State.raise_eq {s : State} (h : s.mayFault) (f : FaultRec) : s.raise f = s.modIss fun x => { x with fault := some f } := by
  unfold State.raise
  rw [if_pos h.1]
  simp only [State.modIss, Issue.keepFault, h.2]

/-- What a launch that is armed changes: its column alone. -/
theorem State.modCol_leaves (s : State) (col : Col) (f : Column → Column) :
    Issues s ((s.modCol col f).advance 1) 1 ∧ ((s.modCol col f).advance 1).core.iss.pend = s.core.iss.pend ∧
      ((s.modCol col f).advance 1).steady = (s.modCol col f).steady := by
  refine ⟨?_, ?_, State.advance_steady _ 1⟩
  · cases col <;> exact State.advance_issues _ 1
  · rw [State.advance_pend]
    cases col <;> rfl

theorem State.launch_fits {s : State} {addr cnt : BitVec 8} (hf : s.core.fw = none) (h : addr.toNat * 16 + cnt.toNat + 1 ≤ 4096) :
    (s.core.fw.isSome || !launchFits addr cnt) = false := by
  have : launchFits addr cnt = true := by unfold launchFits; simpa using by omega
  rw [hf, this]; rfl

theorem Column.startNow_head {c : Column} {l : Launch} {r : List Launch} {now : Nat} (h : c.armed = l :: r) (hl : l.start = now) :
    c.startNow now = some l := by
  rw [Column.startNow, h]
  exact List.find?_cons_of_pos (by simpa using hl)

theorem dropLaunch_head {l : Launch} (r : List Launch) {now : Nat} (hl : l.start = now) : dropLaunch (l :: r) now = r :=
  if_pos (by simpa using hl)

/-- The state in which the head of the armed launches is armed no more. -/
theorem State.modCol_drop {s : State} {col : Col} {l : Launch} {r : List Launch} (h : (s.core.col col).armed = l :: r)
    (hl : l.start = s.tb) : (s.modCol col fun c => { c with armed := dropLaunch c.armed s.tb }) =
      s.modCol col fun c => { c with armed := r } :=
  State.modCol_congr (by rw [h, dropLaunch_head r hl])

/-- A stream after an operation without results in flight (R79, R80, R28). -/
theorem State.opDone_eq (s : State) (col : Col) (st : Stream) (stp : Stp) (h : 0 < st.left) :
    let z : Stream := { st with rho := st.rho + stp.step.toInt, next := s.tb + 1, cyc := 0, latched := [], visible := max st.visible (s.tb + 1) }
    s.opDone col st stp (s.tb - 1) = s.modCol col fun c =>
      if st.op < stp.rep.toNat then { c with run := some { z with op := st.op + 1 } }
      else if st.left = 1 then { c with run := none, ends := c.ends ++ [z.visible] }
      else { c with run := some { z with op := 0, cur := none, addr := st.addr + 1, left := st.left - 1 } } := by
  have hv : max (s.tb + 1) (s.tb - 1 + 1) = s.tb + 1 := by omega
  unfold State.opDone State.setStream Stream.done
  dsimp only
  rw [hv]
  refine congrArg (s.modCol col) (funext fun c => ?_)
  by_cases ho : st.op < stp.rep.toNat
  · rw [if_pos ho, if_pos ho, if_neg (by simp; omega)]
  · rw [if_neg ho, if_neg ho]
    by_cases hl : st.left = 1
    · rw [if_pos hl, if_pos (by simp; omega)]
    · rw [if_neg hl, if_neg (by simp; omega)]

theorem exec_vnop {s : State} {st : Stream} (h : s.core.iss.vec.run = some st) (stp : Stp) :
    exec (.vnop stp) s = .next (s.opDone .vector st stp (s.tb - 1)) := by
  show execVnop stp s = _
  rw [execVnop, State.operate, show (s.core.col .vector).run = some st from h]

theorem exec_mnop {s : State} {st : Stream} (h : s.core.iss.mat.run = some st) (stp : Stp) :
    exec (.mnop stp) s = .next (s.opDone .matrix st stp (s.tb - 1)) := by
  show execMnop stp s = _
  rw [execMnop, State.operate, show (s.core.col .matrix).run = some st from h]

section
variable {s : State} {col : Col} {l : Launch} {r : List Launch} (h : (s.core.col col).armed = l :: r) (hl : l.start = s.tb)
include h hl

theorem exec_streamStart_free (hr : (s.core.col col).run = none) : exec (.streamStart s.cur col) s =
    .next (s.modCol col fun x => { x with armed := r, run := some l.stream }) := by
  show execStreamStart s.cur col s = _
  unfold execStreamStart
  rw [State.focus_cur]
  dsimp only
  rw [Column.startNow_head h hl]
  dsimp only
  rw [State.modCol_drop h hl, State.modCol_col, hr, if_neg (by simp), State.modCol_modCol]

theorem exec_streamStart_busy (hr : (s.core.col col).run ≠ none) (hm : s.mayFault) : exec (.streamStart s.cur col) s =
    .next ((s.modCol col fun x => { x with armed := r }).modIss fun x => { x with
      fault := some (if l.saved then ⟨.slip, BitVec.ofNat 12 l.first, 0, finfo 0 (colSrc col) false 11 0⟩
        else ⟨.slip, l.pc, 0, finfo 0 (colSrc col) false 11 (s.tb - l.issue)⟩) }) := by
  have hs : (s.core.col col).run.isSome = true := Option.isSome_iff_ne_none.mpr hr
  show execStreamStart s.cur col s = _
  unfold execStreamStart
  rw [State.focus_cur]
  dsimp only
  rw [Column.startNow_head h hl]
  dsimp only
  rw [State.modCol_drop h hl, State.modCol_col, if_pos hs, State.raise_eq (State.modCol_mayFault hm col _)]

end

theorem exec_streamEndEvent {s : State} {col : Col} {e : Nat} (h : e ∈ (s.core.col col).ends) (he : e ≤ s.tb) :
    exec (.streamEndEvent s.cur col) s = .next (s.modCol col fun x => { x with flag := true, ends := x.ends.filter (s.tb < ·) }) := by
  have ha : ((s.core.col col).ends.any fun e => e ≤ s.tb) = true := List.any_eq_true.mpr ⟨e, h, by simpa using he⟩
  show execStreamEndEvent s.cur col s = _
  unfold execStreamEndEvent
  rw [State.focus_cur]
  exact congrArg _ (State.modCol_congr (by rw [ha, Bool.or_true]))

/-- A launch whose start is not too near and that finds room is armed. -/
theorem State.launch_armed {s : State} {col : Col} {addr cnt : BitVec 8} (c : CReg) {t : TimeArg} (hf : s.core.fw = none)
    (h : addr.toNat * 16 + cnt.toNat + 1 ≤ 4096) (h2 : s.tb + 2 ≤ s.timeOf t) (h4 : (s.core.col col).armed.length < 4) :
    s.launch col addr cnt c t = (s.modCol col fun x => { x with armed := x.armed ++ [⟨addr.toNat * 16, cnt.toNat + 1, s.creg c,
      s.timeOf t, BitVec.ofNat 12 s.core.iss.pc, s.tb, false⟩] }).advance 1 := by
  unfold State.launch
  dsimp only
  rw [State.launch_fits hf h, if_neg Bool.false_ne_true, if_neg (by omega), if_neg (by omega)]

theorem State.launch_near {s : State} {col : Col} {addr cnt : BitVec 8} (c : CReg) {t : TimeArg} (hf : s.core.fw = none)
    (h : addr.toNat * 16 + cnt.toNat + 1 ≤ 4096) (h2 : s.timeOf t < s.tb + 2) : s.launch col addr cnt c t = s.ctlFault .slip 0 9 := by
  unfold State.launch
  dsimp only
  rw [State.launch_fits hf h, if_neg Bool.false_ne_true, if_pos h2]

theorem State.launch_full {s : State} {col : Col} {addr cnt : BitVec 8} (c : CReg) {t : TimeArg} (hf : s.core.fw = none)
    (h : addr.toNat * 16 + cnt.toNat + 1 ≤ 4096) (h2 : s.tb + 2 ≤ s.timeOf t) (h4 : 4 ≤ (s.core.col col).armed.length) :
    s.launch col addr cnt c t = s.ctlFault .slip 0 10 := by
  unfold State.launch
  dsimp only
  rw [State.launch_fits hf h, if_neg Bool.false_ne_true, if_neg (by omega), if_pos h4]

/-- Settles O9: the launch by the checks of R27, the start by the head of the armed launches, the step by the stream's place. -/
theorem streamsStartAndAdvance : Obligations.StreamsStartAndAdvance := by
  unfold Obligations.StreamsStartAndAdvance
  refine ⟨fun s col addr cnt c t => ?_, fun s col l r => ⟨fun h hl => ⟨fun hr => ?_, fun hr hm => ?_⟩, fun e h he => ?_⟩,
    fun s st stp => ?_⟩
  · intro i start l hf h
    have hi : exec i s = .next (s.launch col addr cnt c t) := by cases col <;> rfl
    have ht : s.timeOf t = start := by
      cases t with
      | rel x => exact congrArg (fun v => (s.core.sys.anchor + v).toNat) (BitVec.ofNat_toNat 64 x).symm
      | abs k => rfl
    clear_value start
    subst ht
    refine ⟨fun h2 h4 => ?_, fun hm h2 => ?_, fun hm h2 h4 => ?_⟩
    · obtain ⟨h5, h6, h7⟩ := s.modCol_leaves col fun x => { x with armed := x.armed ++ [l] }
      exact ⟨_, by rw [hi, State.launch_armed c hf h h2 h4], h5, h6, h7⟩
    · exact .of_ctlFault hm (by rw [hi, State.launch_near c hf h h2])
    · exact .of_ctlFault hm (by rw [hi, State.launch_full c hf h h2 h4])
  · rw [exec_streamStart_free h hl hr, Launch.stream, hl]
  · refine ⟨finfo 0 (colSrc col) false 11 (if l.saved then 0 else s.tb - l.issue), finfo_det _ _ _ _ _, fun hs => ?_, ?_⟩
    · rw [finfo_dcyc, hs]; rfl
    · rw [exec_streamStart_busy h hl hr hm]
      cases l.saved <;> rfl
  · exact exec_streamEndEvent h he
  · intro rho on hst
    refine ⟨fun h => ?_, fun h => ?_⟩
    · rw [exec_vnop h, State.opDone_eq s _ st stp hst]; rfl
    · rw [exec_mnop h, State.opDone_eq s _ st stp hst]; rfl

end Sys2Proof.Machine
end

section
namespace Sys2Proof.Machine
open Sys2Proof

/-! ### System words and firmware calls (R32, R114 to R119, R403) -/

theorem State.notInStub_outside {s : State} (h : s.core.iss.inStub = false) (f : State → State) : s.notInStub f = .next (f s) := by
  rw [State.notInStub, h, if_neg Bool.false_ne_true]

theorem exec_trap {s : State} (h : s.core.iss.inStub = false) (k : KReg) (sense : Bool) (code : BitVec 16) :
    exec (.trap k sense code) s = .next (if s.kreg k = sense then s.advance 1 else s.ctlFault .timing 0 1 code) := by
  show execTrap k sense code s = _
  rw [execTrap, State.notInStub_outside h]
  by_cases hk : s.kreg k = sense
  · rw [if_pos hk, if_neg (by simpa using hk)]
  · rw [if_neg hk, if_pos (by simpa using hk)]

theorem exec_svc_task {s : State} (h : s.core.iss.inStub = false) (hf : s.core.fw = none) (a : SReg) (code : BitVec 16) :
    exec (.svc a code) s = .next (s.ctlFault .svc (s.sreg a) 0 code) := by
  show execSvc a code s = _
  rw [execSvc, State.notInStub_outside h, hf]

theorem exec_svc_fw {s : State} (h : s.core.iss.inStub = false) {f : Fw} (hf : s.core.fw = some f) (a : SReg) (code : BitVec 16) :
    exec (.svc a code) s = .next (s.fwCall f) := by
  show execSvc a code s = _
  rw [execSvc, State.notInStub_outside h, hf]

theorem exec_bkpt {s : State} (h : s.core.iss.inStub = false) (code : BitVec 16) :
    exec (.bkpt code) s = .next (s.ctlFault .bkpt 0 0 code) := by
  show execBkpt code s = _
  rw [execBkpt, State.notInStub_outside h]

theorem exec_eret_task {s : State} (hf : s.core.fw = none) :
    exec .eret s = .next (if s.core.iss.inStub then s.stubReturn else s.ctlFault .priv 0) := by
  show execEret s = _
  rw [execEret, hf]
  cases s.core.iss.inStub <;> rfl

theorem exec_eret_return {s : State} {f : Fw} (hf : s.core.fw = some f) {l : FwLevel} {pc : Nat} {r : List (FwLevel × Nat)}
    (hc : f.calls = (l, pc) :: r) :
    exec .eret s = .next ((s.modC fun c => { c with fw := some { f with level := l, calls := r } }).jumpTo pc true) := by
  show execEret s = _
  rw [execEret, hf]
  dsimp only
  rw [hc]

theorem exec_eret_top {s : State} {f : Fw} (hf : s.core.fw = some f) (hc : f.calls = []) :
    exec .eret s = .next (s.ctlFault .priv 0) := by
  show execEret s = _
  rw [execEret, hf]
  dsimp only
  rw [hc]

theorem exec_done {s : State} (hs : s.flowFree) :
    exec .done s = .next (s.modIss fun x => { x with s0done := s.sreg 0, wait := .done, waitAt := s.tb }) := by
  show execDone s = _
  rw [execDone, State.flow_free hs]
  rfl

theorem State.fwCall_scheduler (s : State) {f : Fw} (h : f.level = .scheduler) : s.fwCall f =
    (s.modC fun c => { c with fw := some { f with level := .monitor, calls := (.scheduler, c.iss.pc + 1) :: f.calls } }).jumpTo
      f.entryMonitor true := by rw [State.fwCall, h]

theorem State.fwCall_plugin (s : State) {f : Fw} (h : f.level = .plugin) : s.fwCall f =
    (s.modC fun c => { c with fw := some { f with level := .scheduler, calls := (.plugin, c.iss.pc + 1) :: f.calls } }).jumpTo
      f.entryScheduler true := by rw [State.fwCall, h]

/-- Settles O10: each word by the case it is in (a stub, a firmware level, the sense of its predicate). -/
theorem systemWordsAndCalls : Obligations.SystemWordsAndCalls := by
  unfold Obligations.SystemWordsAndCalls
  refine ⟨fun s k sense code a d => ⟨.of_advance rfl, .of_give rfl rfl, .of_give rfl rfl, fun h hk => ?_, fun hm h hk => ?_,
    fun hm h hf => ?_, fun hm h => ?_, fun hf h => ?_, fun hm hf h => ?_, fun hs => exec_done hs⟩,
    fun s f a code hf h => ⟨fun hl => ?_, fun hl => ?_, fun l pc r hc => ?_, fun hm hc => ?_⟩⟩
  · exact .of_advance (by rw [exec_trap h, if_pos hk])
  · exact .of_ctlFault hm (by rw [exec_trap h, if_neg hk])
  · exact .of_ctlFault hm (exec_svc_task h hf a code)
  · exact .of_ctlFault hm (exec_bkpt h code)
  · rw [exec_eret_task hf, if_pos h]; rfl
  · exact .of_ctlFault hm (by rw [exec_eret_task hf, h]; rfl)
  · exact ⟨_, (exec_svc_fw h hf a code).trans (congrArg _ (s.fwCall_scheduler hl)), rfl, rfl, rfl⟩
  · exact ⟨_, (exec_svc_fw h hf a code).trans (congrArg _ (s.fwCall_plugin hl)), rfl, rfl, rfl⟩
  · exact ⟨_, exec_eret_return hf hc, rfl, rfl, rfl, rfl, rfl⟩
  · exact .of_ctlFault hm (exec_eret_top hf hc)

end Sys2Proof.Machine
end

section
namespace Sys2Proof.Machine
open Sys2Proof

/-! ### Returns of home operations (R171, R209, R210) -/

@[simp] theorem State.getCore_cur (s : State) : s.getCore s.cur = s.core := if_pos (beq_self_eq_true _)

theorem State.modCore_cur (s : State) (f : Core → Core) : s.modCore s.cur f = s.modC f := by
  rw [State.modCore, State.setCore, if_pos (beq_self_eq_true _), State.getCore_cur]
  rfl

/-- The results on their way with what an operation returns. -/
def HomeOp.sent (op : HomeOp) (now : Nat) (l : List Pend) : List Pend :=
  match op.dst, op.value with
  | some d, some v => insertPend l ⟨now, .s d v, none, op.issue⟩
  | _, _ => l

/-- The return to the run that asked, of a task that debug state does not hold. -/
theorem State.homeReturn_cur {s : State} {op : HomeOp} (hf : op.fault = none) (hr : op.run = s.core.iss.run)
    (hd : s.core.frozen = false) : s.homeReturn op s.cur = { s with
      eng := { s.eng with homes := s.eng.homes.filter (·.id != op.id) }
      core := { s.core with iss := { s.core.iss with pend := op.sent s.tb s.core.iss.pend } } } := by
  have hl : (s.core.iss.run == op.run) = true := by simp [hr]
  have hm := (s.dropHome op.id).modCore_cur
  have hd' : (s.dropHome op.id).core.frozen = false := hd
  unfold State.homeReturn HomeOp.sent
  dsimp only
  rw [State.getCore_cur, hl, hf, Bool.not_true, if_neg Bool.false_ne_true]
  dsimp only
  cases op.dst with
  | none => rfl
  | some d =>
    cases op.value with
    | none => rfl
    | some v =>
      change (s.dropHome op.id).modCore (s.dropHome op.id).cur _ = _
      rw [hm, State.modC, hd']
      rfl

section
variable {s : State} {id : Nat} {op : HomeOp} (h : s.eng.homes.find? (fun h => h.id == id) = some op) (ha : op.asker = .core s.cur)
include h ha

theorem exec_homeOperationReturn : exec (.homeOperationReturn id) s = .next (s.homeReturn op s.cur) := by
  show execHomeOperationReturn id s = _
  rw [execHomeOperationReturn, h]
  dsimp only
  rw [ha]

theorem exec_homeWaitComplete (hf : op.fault = none) (hr : op.run = s.core.iss.run) (hd : s.core.frozen = false)
    (hw : s.core.iss.wait = .home id) : exec (.homeWaitComplete id) s = .next (s.homeReturn op s.cur).completeWait := by
  have hc := State.homeReturn_cur hf hr hd
  have hfoc : (s.homeReturn op s.cur).focus s.cur = s.homeReturn op s.cur := by rw [hc]; exact State.focus_cur _
  have hwait : ((s.homeReturn op s.cur).core.iss.wait == WaitFor.home id) = true := by rw [hc]; simp [hw]
  show execHomeWaitComplete id s = _
  rw [execHomeWaitComplete, h]
  dsimp only
  rw [ha]
  dsimp only
  rw [hf, hfoc, hwait]
  rfl

end

theorem State.advance_leaves (s : State) (cost : Nat) : (s.advance cost).core.iss.wait = s.core.iss.wait ∧
    (s.advance cost).mem = s.mem ∧ (s.advance cost).core.sys = s.core.sys ∧ (s.advance cost).eng = s.eng := by
  unfold State.advance
  split <;> exact ⟨rfl, rfl, rfl, rfl⟩

/-- What the end of a wait leaves (R22). -/
theorem State.completeWait_leaves (s : State) : s.completeWait.core.iss.wait = .none ∧ s.completeWait.mem = s.mem ∧
    s.completeWait.core.sys = { s.core.sys with anchor := BitVec.ofNat 64 s.tb } ∧ Issues s s.completeWait 1 ∧
    s.completeWait.core.iss.pend = s.core.iss.pend ∧ s.completeWait.eng = s.eng := by
  obtain ⟨hw, hm, hs, he⟩ := State.advance_leaves ((s.modIss fun x => { x with wait := .none }).modSys fun r =>
    { r with anchor := BitVec.ofNat 64 s.tb }) 1
  exact ⟨hw, hm, hs, State.advance_issues _ 1, State.advance_pend _ 1, he⟩

/-- Settles O17: the return puts its register write among the results on their way, and the wait goes on from there. -/
theorem returnsComplete : Obligations.ReturnsComplete := by
  unfold Obligations.ReturnsComplete
  intro s id op h ha hf hr rest sent hd
  have hc := State.homeReturn_cur hf hr hd
  have hid : op.id = id := by simpa using List.find?_some h
  rw [hid] at hc
  refine ⟨⟨_, exec_homeOperationReturn h ha, ?_⟩, fun hw => ⟨_, exec_homeWaitComplete h ha hf hr hd hw, ?_⟩⟩
  · rw [hc]
    exact ⟨rfl, rfl, rfl, rfl, rfl⟩
  · rw [hc]
    exact State.completeWait_leaves _

end Sys2Proof.Machine
end

section
namespace Sys2Proof.Machine
open Sys2Proof

/-! ### The word of a column's turn (R20, R21, R67, R81, R83, R331, R403) -/

theorem findSome?_of_unique {α β : Type} {f : α → Option β} {l : List α} {a : α} {b : β} (ha : a ∈ l) (hb : f a = some b)
    (h : ∀ x ∈ l, x ≠ a → f x = none) : l.findSome? f = some b := by
  induction l with
  | nil => cases ha
  | cons x r ih =>
    by_cases hx : x = a
    · rw [List.findSome?_cons, hx, hb]
    · rw [List.findSome?_cons, h x List.mem_cons_self hx]
      exact ih ((List.mem_cons.mp ha).resolve_left (Ne.symm hx)) fun y hy => h y (List.mem_cons_of_mem x hy)

theorem mem_insAddr_self (l : List Nat) (k : Nat) : k ∈ insAddr l k := by
  induction l with
  | nil => exact List.mem_singleton.mpr rfl
  | cons j r ih =>
    unfold insAddr
    by_cases h : j = k
    · simp [h]
    · by_cases h2 : k < j <;> simp [h, h2, ih]

theorem State.cur_mem_live (s : State) : s.cur ∈ s.live := mem_insAddr_self _ _

theorem State.focus_core (s : State) (i : Nat) : (s.focus i).core = s.getCore i := by
  unfold State.focus
  by_cases h : s.cur = i
  · rw [if_pos (by simpa using h), ← h, State.getCore_cur]
  · rw [if_neg (by simpa using h)]

/-- What a turn comes to. -/
def Turn.result : Turn → Result
  | .word i t => exec i t
  | .stop t => .next t

/-- The step of a column's turn, where every other core has had its own. -/
theorem step_column {s : State} (hp : s.phase = .column) (hk : ∀ k ∈ s.live, k ≠ s.cur → (s.getCore k).iss.turn = some [])
    {k : Option Col} {r : List (Option Col)} (ht : s.core.iss.turn = some (k :: r)) :
    step s = ((s.setTurn r).columnTurn k).result := by
  have hn : s.columnNext = some (match (s.setTurn r).columnTurn k with
      | .word w u => .run w u
      | .stop u => .quiet u) := by
    refine findSome?_of_unique s.cur_mem_live ?_ fun i hi hne => ?_
    · dsimp only
      rw [State.focus_cur, ht] <;> rfl
    · have hc : (s.focus i).core.iss.turn = some [] := by rw [State.focus_core]; exact hk i hi hne
      dsimp only
      rw [hc]
  unfold step State.pick
  rw [hp]
  dsimp only
  rw [hn]
  cases (s.setTurn r).columnTurn k <;> rfl

/-! What a fetch gives. -/

/-- The word `w` belongs to the column `k` and is the instruction `i`. -/
def Reads (w : W48) (k : Option Col) (i : Instr) : Prop := opcodeCol w = k ∧ decode w = .ok i

/-- The code slot `a` holds a word that can be fetched: it lies in the code space, in a segment that is present. -/
def State.codeThere (s : State) (a : Nat) : Prop := a ≤ 0xFFF ∧ ∀ h : a / 256 < 16, s.core.bnd.segs[a / 256].present = true

/-- What a column fetches, read as a word. -/
def fetchedWord (w : W48) (k : Option Col) : Fetched :=
  if opcodeCol w != k then .fault .ill 0 none
  else match decode w with
    | .ok i => .word i
    | .error _ => .fault .ill 0 none

theorem fetchedWord_of_reads {w : W48} {k : Option Col} {i : Instr} (h : Reads w k i) : fetchedWord w k = .word i := by
  obtain ⟨hk, hd⟩ := h
  rw [fetchedWord, if_neg (by simpa using hk), hd]

theorem fetchedWord_of_not_reads {w : W48} {k : Option Col} (h : ∀ i, ¬ Reads w k i) : fetchedWord w k = .fault .ill 0 none := by
  unfold fetchedWord
  by_cases hk : opcodeCol w = k
  · rw [if_neg (by simpa using hk)]
    cases hd : decode w with
    | ok i => exact absurd ⟨hk, hd⟩ (h i)
    | error e => rfl
  · rw [if_pos (by simpa using hk)]

theorem segs_present (v : Vector Seg 16) {k : Nat} (h : k < 16) :
    ((v.toList[k]?).map (·.present)).getD false = v[k].present := by
  simp [h]

section
variable {s : State} (k : Option Col) {a : Nat}

theorem State.fetch_fw (hf : s.core.fw ≠ none) :
    s.fetch k a = fetchedWord (BitVec.ofNat 48 (leNat ((List.range 6).map fun i => s.fwByte (8 * a + i)))) k := by
  unfold State.fetch
  rw [if_pos (Option.isSome_iff_ne_none.mpr hf)]
  rfl

variable (hf : s.core.fw = none)
include hf

theorem State.fetch_sound (ha : s.codeThere a) (hd : s.mem.damaged (codeBase s.cur + 8 * a) = false) :
    s.fetch k a = fetchedWord (s.mem.codeWord s.cur a) k := by
  obtain ⟨h1, h2⟩ := ha
  have h3 : a / 256 < 16 := by omega
  unfold State.fetch
  rw [hf, if_neg (by simp), if_neg (by omega), segs_present _ h3, h2 h3, hd]
  rfl

theorem State.fetch_outside (ha : 0xFFF < a) : s.fetch k a = .fault .ill 0 none := by
  unfold State.fetch
  rw [hf, if_neg (by simp), if_pos ha]

theorem State.fetch_absent (ha : a / 256 < 16) (hp : s.core.bnd.segs[a / 256].present = false) :
    s.fetch k a = .fault .segmiss (BitVec.ofNat 64 a) none := by
  unfold State.fetch
  rw [hf, if_neg (by simp), if_neg (by omega), segs_present _ ha, hp]
  rfl

theorem State.fetch_damaged (ha : s.codeThere a) (hd : s.mem.damaged (codeBase s.cur + 8 * a) = true) :
    s.fetch k a = .fault .ucdata (BitVec.ofNat 64 (codeBase s.cur + 8 * a)) (some (codeBase s.cur + 8 * a)) := by
  obtain ⟨h1, h2⟩ := ha
  have h3 : a / 256 < 16 := by omega
  unfold State.fetch
  rw [hf, if_neg (by simp), if_neg (by omega), segs_present _ h3, h2 h3, hd]
  rfl

end

/-! The fetch does not look at whose turn it is. -/

theorem State.setTurn_heldAway (s : State) (r : List (Option Col)) (a : Nat) : (s.setTurn r).heldAway a = s.heldAway a := rfl

theorem State.setTurn_fwByte (s : State) (r : List (Option Col)) (a : Nat) : (s.setTurn r).fwByte a = s.fwByte a := rfl

theorem State.setTurn_fetch (s : State) (r : List (Option Col)) (k : Option Col) (a : Nat) : (s.setTurn r).fetch k a = s.fetch k a := rfl

theorem State.setTurn_mayFault {s : State} (h : s.mayFault) (r : List (Option Col)) : (s.setTurn r).mayFault := h

theorem State.fetchDamage_iss (s : State) (a : Nat) (u : Option Nat) : (s.fetchDamage a u).core.iss = s.core.iss := by
  cases u <;> rfl

theorem State.columnTurn_ctl_word {s : State} (hb : s.breaks = false) {i : Instr} (h : s.fetch none s.core.iss.pc = .word i) :
    s.columnTurn none = .word i (s.modIss fun x => { x with pass := false }) := by
  rw [State.columnTurn, hb, if_neg Bool.false_ne_true, h]

theorem State.columnTurn_ctl_fault {s : State} (hb : s.breaks = false) {c : Cause} {addr : W64} {u : Option Nat}
    (h : s.fetch none s.core.iss.pc = .fault c addr u) :
    s.columnTurn none = .stop ((s.fetchDamage s.core.iss.pc u).ctlFault c addr) := by
  rw [State.columnTurn, hb, if_neg Bool.false_ne_true, h]

theorem State.ctlFault_fault {s : State} (h : s.mayFault) (c : Cause) (addr : W64) :
    (s.ctlFault c addr).core.iss.fault = some ⟨c, BitVec.ofNat 12 s.core.iss.pc, addr, finfo 0 0 false 0 0⟩ := by
  rw [State.ctlFault_eq h]
  rfl

/-- The stream with its operation's issue cycle, in the first cycle of one. -/
def Stream.issued (st : Stream) (now : Nat) : Stream := if st.cyc = 0 then { st with opIssue := now } else st

theorem Stream.issued_eq (st : Stream) (now : Nat) : (if st.cyc == 0 then { st with opIssue := now } else st) = st.issued now := by
  simp only [Stream.issued, beq_iff_eq]

theorem Stream.issued_addr (st : Stream) (now : Nat) : (st.issued now).addr = st.addr := by
  unfold Stream.issued
  split <;> rfl

theorem Stream.issued_cur (st : Stream) (now : Nat) : (st.issued now).cur = st.cur := by
  unfold Stream.issued
  split <;> rfl

section
variable {s : State} {col : Col} {st : Stream} (hr : (s.core.col col).run = some st)
include hr

theorem State.columnTurn_going {i : Instr} (h : st.cur = some i) :
    s.columnTurn (some col) = .word i (s.modCol col fun c => { c with run := some (st.issued s.tb) }) := by
  have hc := st.issued_cur s.tb
  unfold State.columnTurn
  dsimp only
  rw [hr]
  dsimp only
  rw [Stream.issued_eq, hc, h]

theorem State.columnTurn_fetched (h : st.cur = none) {i : Instr} (hf : s.fetch (some col) st.addr = .word i) :
    s.columnTurn (some col) = .word i (s.modCol col fun c => { c with run := some { st.issued s.tb with cur := some i } }) := by
  have hc := st.issued_cur s.tb
  have ha := st.issued_addr s.tb
  unfold State.columnTurn
  dsimp only
  rw [hr]
  dsimp only
  rw [Stream.issued_eq, hc, h]
  dsimp only
  rw [ha, hf]

theorem State.columnTurn_fault (h : st.cur = none) {c : Cause} {addr : W64} {u : Option Nat}
    (hf : s.fetch (some col) st.addr = .fault c addr u) : s.columnTurn (some col) =
      .stop ((s.fetchDamage st.addr u).colFault col (st.issued s.tb) (s.halt c addr 0 none)) := by
  have hc := st.issued_cur s.tb
  have ha := st.issued_addr s.tb
  unfold State.columnTurn
  dsimp only
  rw [hr]
  dsimp only
  rw [Stream.issued_eq, hc, h]
  dsimp only
  rw [ha, hf]

end

theorem State.undo_mayFault {s : State} (h : s.mayFault) (col : Col) {st : Stream} (hc : st.cur = none) :
    (s.undo col st).mayFault := by
  unfold State.undo
  rw [hc]
  split
  · exact h
  · exact State.modCol_mayFault h col _

/-- The fault of a fetch by a stream (R83, R323). -/
theorem State.colFault_fault {s : State} (hm : s.mayFault) (col : Col) {st : Stream} (hc : st.cur = none) (c : Cause) (addr : W64)
    (t : State) : ∃ info, (s.colFault col st (t.halt c addr 0 none)).core.iss.fault = some ⟨c, BitVec.ofNat 12 st.addr, addr, info⟩ ∧
      natBits info.toNat 40 4 = colSrc col := by
  have hu := State.undo_mayFault hm col hc
  refine ⟨finfo 0 (colSrc col) (st.cyc != 0) 0 ((s.undo col st).tb - st.opIssue), ?_, ?_⟩
  · have hm' : ((s.undo col st).modIss fun x => { x with ports := t.core.iss.ports, wports := t.core.iss.wports }).mayFault := hu
    unfold State.colFault
    dsimp only [State.halt]
    rw [if_pos hm'.1, State.raise_eq hm']
    rfl
  · rw [finfo_src]
    cases col <;> rfl

/-- Settles O56: the step is the turn of the column in focus, and the turn what the fetch gives. -/
theorem stepRunsTheDecodedWord : Obligations.StepRunsTheDecodedWord := by
  unfold Obligations.StepRunsTheDecodedWord
  intro s r i st col hp hk pc slot there sound reads word st' faults
  refine ⟨fun ht hb => ?_, fun ht hr hf => ?_⟩
  · intro u
    have hs := step_column hp hk ht
    have hb' : (s.setTurn r).breaks = false := hb
    have runs : s.fetch none pc = .word i → step s = exec i u := fun h => by
      rw [hs, State.columnTurn_ctl_word hb' h]
      rfl
    have stops : ∀ c (a : Nat) unit, s.fetch none pc = .fault c (BitVec.ofNat 64 a) unit → faults c pc a 0 := fun c a unit h hm => by
      have hd := State.fetchDamage_iss (s.setTurn r) (s.setTurn r).core.iss.pc unit
      have hm' : ((s.setTurn r).fetchDamage (s.setTurn r).core.iss.pc unit).mayFault := by rw [State.mayFault, hd]; exact hm
      refine ⟨_, _, by rw [hs, State.columnTurn_ctl_fault hb' h]; rfl, State.ctlFault_fault hm' c _ |>.trans (by rw [hd]; rfl), finfo_src _ _ _ _ _⟩
    refine ⟨fun hf => ⟨fun hsd hrd => runs ?_, fun h => stops _ 0 none ?_, fun h hab => stops _ _ none (State.fetch_absent none hf h hab),
      fun h hdm => stops _ _ _ (State.fetch_damaged none hf h hdm)⟩, fun hf => ⟨fun hrd => runs ?_, fun h => stops _ 0 none ?_⟩⟩
    · rw [State.fetch_sound none hf hsd.1 hsd.2, fetchedWord_of_reads hrd]
    · rcases h with h | ⟨hsd, hrd⟩
      · exact State.fetch_outside none hf h
      · rw [State.fetch_sound none hf hsd.1 hsd.2, fetchedWord_of_not_reads hrd]
        rfl
    · rw [State.fetch_fw none hf, fetchedWord_of_reads hrd]
    · rw [State.fetch_fw none hf, fetchedWord_of_not_reads h]
      rfl
  · intro u
    have hs := step_column hp hk ht
    have hr' : ((s.setTurn r).core.col col).run = some st := by cases col <;> exact hr
    have hst : st.issued s.tb = st' := rfl
    have stops : ∀ c (a : Nat), st.cur = none → s.fetch (some col) st.addr = .fault c (BitVec.ofNat 64 a) none →
        faults c st.addr a (colSrc col) := fun c a hc h hm => by
      have hc' : (st.issued s.tb).cur = none := (st.issued_cur s.tb).trans hc
      obtain ⟨info, h1, h2⟩ := State.colFault_fault (State.setTurn_mayFault hm r) col hc' c (BitVec.ofNat 64 a) (s.setTurn r)
      rw [Stream.issued_addr] at h1
      exact ⟨_, info, by rw [hs, State.columnTurn_fault hr' hc h]; rfl, h1, h2⟩
    refine ⟨fun hc => ?_, fun hc hsd hrd => ?_, fun hc hsd hrd => stops _ 0 hc ?_, fun hc h hab => stops _ _ hc (State.fetch_absent _ hf h hab)⟩
    · rw [hs, State.columnTurn_going hr' hc]
      rfl
    · rw [hs, State.columnTurn_fetched hr' hc (State.fetch_sound (s := s) (some col) hf hsd.1 hsd.2 |>.trans (fetchedWord_of_reads hrd))]
      rfl
    · rw [State.fetch_sound _ hf hsd.1 hsd.2, fetchedWord_of_not_reads hrd]
      rfl

end Sys2Proof.Machine
end

section
namespace Sys2Proof.Machine
open Sys2Proof

/-! ### A key set, and the cores and jettons by number -/

theorem getKey_setKey_self {α : Type} (l : List (Nat × α)) (k : Nat) (x : α) : getKey (setKey l k x) k = some x := by
  induction l with
  | nil => simp [setKey, getKey]
  | cons p r ih =>
    unfold setKey
    by_cases h : p.1 = k
    · simp [h, getKey]
    · by_cases h2 : k < p.1
      · simp [h, h2, getKey]
      · simp [h, h2, getKey, ih]

theorem getKey_setKey_ne {α : Type} (l : List (Nat × α)) {k j : Nat} (hj : j ≠ k) (x : α) : getKey (setKey l k x) j = getKey l j := by
  induction l with
  | nil => simp [setKey, getKey, Ne.symm hj]
  | cons p r ih =>
    unfold setKey
    by_cases h : p.1 = k
    · simp [h, getKey, Ne.symm hj]
    · by_cases h2 : k < p.1
      · have h3 : j < k → p.1 ≠ j ∧ j < p.1 := fun _ => by omega
        by_cases h4 : j < k
        · simp [h, h2, getKey, Ne.symm hj, h4, h3 h4]
        · simp [h, h2, getKey, Ne.symm hj, h4]
      · simp [h, h2, getKey, ih]

theorem getKey_map {α β : Type} (f : α → β) (l : List (Nat × α)) (k : Nat) :
    getKey (l.map fun p => (p.1, f p.2)) k = (getKey l k).map f := by
  induction l with
  | nil => rfl
  | cons p r ih =>
    simp only [List.map_cons, getKey, ih]
    split
    · rfl
    · split <;> rfl

@[simp] theorem State.getCore_setCore_self (s : State) (i : Nat) (c : Core) : (s.setCore i c).getCore i = c := by
  unfold State.setCore
  by_cases h : s.cur = i
  · simp [h, State.getCore]
  · simp [h, State.getCore, getKey_setKey_self]

theorem State.getCore_setCore_ne (s : State) {i k : Nat} (h : k ≠ i) (c : Core) : (s.setCore i c).getCore k = s.getCore k := by
  unfold State.setCore
  by_cases hc : s.cur = i
  · simp [hc, State.getCore, Ne.symm h]
  · simp [hc, State.getCore, getKey_setKey_ne _ h]

@[simp] theorem State.getCore_modCore_self (s : State) (i : Nat) (f : Core → Core) : (s.modCore i f).getCore i = f (s.getCore i) :=
  s.getCore_setCore_self i _

theorem State.getCore_modCore_ne (s : State) {i k : Nat} (h : k ≠ i) (f : Core → Core) : (s.modCore i f).getCore k = s.getCore k :=
  s.getCore_setCore_ne h _

/-- What setting a core leaves: all but the cores. -/
theorem State.setCore_leaves (s : State) (i : Nat) (c : Core) : (s.setCore i c).tb = s.tb ∧ (s.setCore i c).mem = s.mem ∧
    (s.setCore i c).disp = s.disp ∧ (s.setCore i c).eng = s.eng ∧ (s.setCore i c).agenda = s.agenda ∧ (s.setCore i c).worlds = s.worlds ∧
    (s.setCore i c).out = s.out := by
  unfold State.setCore
  split <;> exact ⟨rfl, rfl, rfl, rfl, rfl, rfl, rfl⟩

section
variable (s : State) (i : Nat) (f : Core → Core)
@[simp] theorem State.modCore_tb : (s.modCore i f).tb = s.tb := (s.setCore_leaves i _).1
@[simp] theorem State.modCore_mem : (s.modCore i f).mem = s.mem := (s.setCore_leaves i _).2.1
@[simp] theorem State.modCore_disp : (s.modCore i f).disp = s.disp := (s.setCore_leaves i _).2.2.1
@[simp] theorem State.modCore_eng : (s.modCore i f).eng = s.eng := (s.setCore_leaves i _).2.2.2.1
@[simp] theorem State.modCore_agenda : (s.modCore i f).agenda = s.agenda := (s.setCore_leaves i _).2.2.2.2.1
@[simp] theorem State.modCore_jetton (j : Nat) : (s.modCore i f).jetton j = s.jetton j := by
  unfold State.jetton
  rw [State.modCore_disp]
end

@[simp] theorem State.modEng_getCore (s : State) (f : Engines → Engines) (k : Nat) : (s.modEng f).getCore k = s.getCore k := rfl
@[simp] theorem State.modEng_jetton (s : State) (f : Engines → Engines) (j : Nat) : (s.modEng f).jetton j = s.jetton j := rfl
@[simp] theorem State.modDisp_getCore (s : State) (f : Dispatch → Dispatch) (k : Nat) : (s.modDisp f).getCore k = s.getCore k := rfl
@[simp] theorem State.modMem_getCore (s : State) (f : Mem → Mem) (k : Nat) : (s.modMem f).getCore k = s.getCore k := rfl
@[simp] theorem State.atCycle_getCore (s : State) (c : Nat) (i : Instr) (k : Nat) : (s.at_ c i).getCore k = s.getCore k := rfl
@[simp] theorem State.atCycle_jetton (s : State) (c : Nat) (i : Instr) (j : Nat) : (s.at_ c i).jetton j = s.jetton j := rfl
@[simp] theorem State.say_getCore (s : State) (o : Out) (k : Nat) : (s.say o).getCore k = s.getCore k := rfl
@[simp] theorem State.setJetton_getCore (s : State) (j : Nat) (x : Jetton) (k : Nat) : (s.setJetton j x).getCore k = s.getCore k := rfl
@[simp] theorem State.setJetton_mem (s : State) (j : Nat) (x : Jetton) : (s.setJetton j x).mem = s.mem := rfl

@[simp] theorem State.setJetton_jetton_self (s : State) (j : Nat) (x : Jetton) : (s.setJetton j x).jetton j = x := by
  show (getKey (setKey _ j x) j).getD _ = x
  rw [getKey_setKey_self]
  rfl

theorem State.setJetton_jetton_ne (s : State) {j k : Nat} (h : k ≠ j) (x : Jetton) : (s.setJetton j x).jetton k = s.jetton k := by
  show (getKey (setKey _ j x) k).getD _ = _
  rw [getKey_setKey_ne _ h]
  rfl

@[simp] theorem State.modJetton_jetton_self (s : State) (j : Nat) (f : Jetton → Jetton) : (s.modJetton j f).jetton j = f (s.jetton j) :=
  s.setJetton_jetton_self j _

/-! ### What the winding up of work leaves (R187, R220, R291) -/

/-- From `s` to `t` work is wound up: no byte of memory changes, no request but in the images of evicted cores, nothing leaves
the agenda, and a core stays with its jetton and its world. The issue state and the owner change for cores in `p` alone. -/
structure WindsUp (p : Nat → Prop) (s t : State) : Prop where
  mem : t.mem = s.mem
  tb : t.tb = s.tb
  agenda : ∀ e ∈ s.agenda, e ∈ t.agenda
  jetton : ∀ j, t.jetton j = { s.jetton j with spill := (t.jetton j).spill }
  bound : ∀ k, (t.getCore k).bnd.jetton = (s.getCore k).bnd.jetton
  world : ∀ k, (t.getCore k).sys.world = (s.getCore k).sys.world
  iss : ∀ k, ¬ p k → (t.getCore k).iss = (s.getCore k).iss
  owner : ∀ k, ¬ p k → (t.getCore k).owner = (s.getCore k).owner

namespace WindsUp
variable {p : Nat → Prop} {r s t : State}

theorem refl (s : State) : WindsUp p s s :=
  ⟨rfl, rfl, fun _ h => h, fun _ => rfl, fun _ => rfl, fun _ => rfl, fun _ _ => rfl, fun _ _ => rfl⟩

theorem trans (h : WindsUp p r s) (g : WindsUp p s t) : WindsUp p r t where
  mem := g.mem.trans h.mem
  tb := g.tb.trans h.tb
  agenda e he := g.agenda e (h.agenda e he)
  jetton j := by rw [g.jetton j, h.jetton j]
  bound k := (g.bound k).trans (h.bound k)
  world k := (g.world k).trans (h.world k)
  iss k hk := (g.iss k hk).trans (h.iss k hk)
  owner k hk := (g.owner k hk).trans (h.owner k hk)

theorem mono {q : Nat → Prop} (h : WindsUp p s t) (hpq : ∀ k, p k → q k) : WindsUp q s t :=
  { h with iss := fun k hk => h.iss k fun hp => hk (hpq k hp), owner := fun k hk => h.owner k fun hp => hk (hpq k hp) }

theorem foldl {α : Type} {f : State → α → State} (hf : ∀ (s : State) (a : α), WindsUp p s (f s a)) (l : List α) (s : State) :
    WindsUp p s (l.foldl f s) := by
  induction l generalizing s with
  | nil => exact refl s
  | cons a l ih => exact (hf s a).trans (ih _)

theorem modEng (s : State) (f : Engines → Engines) : WindsUp p s (s.modEng f) :=
  ⟨rfl, rfl, fun _ h => h, fun _ => rfl, fun _ => rfl, fun _ => rfl, fun _ _ => rfl, fun _ _ => rfl⟩

theorem modDisp (s : State) {f : Dispatch → Dispatch} (h : (f s.disp).jettons = s.disp.jettons) : WindsUp p s (s.modDisp f) :=
  ⟨rfl, rfl, fun _ h => h, fun j => by simp only [State.jetton, State.modDisp_disp, h], fun _ => rfl, fun _ => rfl, fun _ _ => rfl,
    fun _ _ => rfl⟩

theorem at_ (s : State) (c : Nat) (i : Instr) : WindsUp p s (s.at_ c i) :=
  ⟨rfl, rfl, fun _ h => List.mem_append_left _ h, fun _ => rfl, fun _ => rfl, fun _ => rfl, fun _ _ => rfl, fun _ _ => rfl⟩

theorem say (s : State) (o : Out) : WindsUp p s (s.say o) :=
  ⟨rfl, rfl, fun _ h => h, fun _ => rfl, fun _ => rfl, fun _ => rfl, fun _ _ => rfl, fun _ _ => rfl⟩

/-- A core changed: in what the relation speaks of only where `p` has it. -/
theorem setCore (s : State) (i : Nat) {c : Core} (hb : c.bnd.jetton = (s.getCore i).bnd.jetton)
    (hw : c.sys.world = (s.getCore i).sys.world) (hc : p i ∨ c.iss = (s.getCore i).iss ∧ c.owner = (s.getCore i).owner) :
    WindsUp p s (s.setCore i c) := by
  obtain ⟨h1, h2, h3, -, h4, -⟩ := s.setCore_leaves i c
  have hk : ∀ {α : Type} (g : Core → α) (k : Nat), (k = i → g c = g (s.getCore i)) → g ((s.setCore i c).getCore k) = g (s.getCore k) := by
    intro α g k h
    by_cases hki : k = i
    · rw [hki, State.getCore_setCore_self, h hki]
    · rw [State.getCore_setCore_ne _ hki]
  exact {
    mem := h2, tb := h1
    agenda := fun e he => by rwa [h4]
    jetton := fun j => by simp only [State.jetton, h3]
    bound := fun k => hk (·.bnd.jetton) k fun _ => hb
    world := fun k => hk (·.sys.world) k fun _ => hw
    iss := fun k hp => hk (·.iss) k fun h => (hc.resolve_left (h ▸ hp)).1
    owner := fun k hp => hk (·.owner) k fun h => (hc.resolve_left (h ▸ hp)).2 }

theorem modCore (s : State) (i : Nat) {f : Core → Core} (hb : ∀ c, (f c).bnd.jetton = c.bnd.jetton)
    (hw : ∀ c, (f c).sys.world = c.sys.world) (hc : p i ∨ ∀ c, (f c).iss = c.iss ∧ (f c).owner = c.owner) :
    WindsUp p s (s.modCore i f) :=
  setCore s i (hb _) (hw _) (hc.imp_right fun h => h _)

end WindsUp

variable {p : Nat → Prop}

theorem Core.voidClaims_windsUp (c : Core) (i : Nat) : (c.voidClaims i).bnd.jetton = c.bnd.jetton ∧
    (c.voidClaims i).sys.world = c.sys.world ∧ (c.voidClaims i).iss = c.iss ∧ (c.voidClaims i).owner = c.owner := by
  unfold Core.voidClaims
  split <;> exact ⟨rfl, rfl, rfl, rfl⟩

/-- The evicted cores' images change with the claims (R220). -/
theorem State.spills_windsUp (s : State) (f : Spill → Spill) : WindsUp p s (s.modDisp fun d => { d with
    jettons := d.jettons.map fun (j, x) => (j, { x with spill := x.spill.map f }) }) := by
  refine ⟨rfl, rfl, fun _ h => h, fun j => ?_, fun _ => rfl, fun _ => rfl, fun _ _ => rfl, fun _ _ => rfl⟩
  have h := getKey_map (fun x : Jetton => { x with spill := x.spill.map f }) s.disp.jettons j
  unfold State.jetton
  dsimp only [State.modDisp]
  rw [h]
  cases getKey s.disp.jettons j <;> rfl

theorem State.voidClaims_windsUp (s : State) (i : Nat) : WindsUp p s (s.voidClaims i) :=
  (WindsUp.foldl (fun s k => .modCore s k (fun c => (c.voidClaims_windsUp i).1) (fun c => (c.voidClaims_windsUp i).2.1)
    (.inr fun c => (c.voidClaims_windsUp i).2.2)) _ s).trans (State.spills_windsUp _ _)

theorem State.record_windsUp (s : State) (c : Copy) (st : CopyState) : WindsUp p s (s.record c st) := by
  unfold State.record
  split
  · dsimp only
    split
    · exact .setCore s _ rfl rfl (.inr ⟨rfl, rfl⟩)
    · exact .refl s
  · exact .refl s

theorem State.withdraw_windsUp (s : State) (c : Copy) : WindsUp p s (s.withdraw c) := by
  unfold State.withdraw
  split
  · exact .at_ s _ _
  · exact .refl s

theorem State.cancelCopy_windsUp (s : State) (id : Nat) : WindsUp p s (s.cancelCopy id) := by
  unfold State.cancelCopy
  split
  · exact .refl s
  · split
    · exact ((s.record_windsUp _ _).trans (State.withdraw_windsUp _ _)).trans ((WindsUp.modEng _ _).trans (.modEng _ _))
    · exact .refl s

theorem State.cancelSome_windsUp (s : State) (i : Nat) (ok : Copy → Bool) : WindsUp p s (s.cancelSome i ok) :=
  (WindsUp.foldl (fun s (c : Copy) => s.cancelCopy_windsUp c.id) _ s).trans
    (WindsUp.foldl (fun s _ => (WindsUp.modEng s _).trans (.modEng _ _)) _ _)

/-- The core of a run that has stopped. -/
def Core.stopped (c : Core) (st : Status) : Core := { c with iss := c.iss.halt st, sys := { c.sys with dbg := false } }

theorem State.stopRun_eq (s : State) (i : Nat) (st : Status) : s.stopRun i st =
    (s.modCore i (·.stopped st)).modEng fun e => { e with homes := e.homes.filter fun h => !(h.asker == .core i && h.waits && !h.acted) } :=
  rfl

/-- The core back in the pool, its memories the world's until the scrub. -/
def Core.freed (c : Core) (w : Nat) : Core := { c with iss := { c.iss with status := .free }, owner := some w, scrubEnd := none }

theorem State.freeCore_eq (s : State) (i e : Nat) : s.freeCore i e =
    (((s.modDisp fun d => { d with xlates := d.xlates.filter fun x => x.who != .task i }).modCore i
      (·.freed (s.getCore i).sys.world.toNat)).at_ (e + 1) (.coreScrubStart i)) := rfl

theorem State.stopRun_windsUp (s : State) {i : Nat} (hi : p i) (st : Status) : WindsUp p s (s.stopRun i st) := by
  rw [State.stopRun_eq]
  exact .trans (.modCore (f := (·.stopped st)) s i (fun _ => rfl) (fun _ => rfl) (.inl hi)) (.modEng _ _)

theorem State.endRun_windsUp (s : State) {i : Nat} (hi : p i) (st : Status) : WindsUp p s (s.endRun i st) :=
  (s.voidClaims_windsUp i).trans (State.stopRun_windsUp _ hi st)

theorem State.freeCore_windsUp (s : State) {i : Nat} (hi : p i) (e : Nat) : WindsUp p s (s.freeCore i e) := by
  rw [State.freeCore_eq]
  refine .trans (.trans (.modDisp s ?_) (.modCore (f := (·.freed _)) _ i (fun _ => rfl) (fun _ => rfl) (.inl hi))) (.at_ _ _ _)
  rfl

theorem State.breakDomains_windsUp (s : State) (j : Nat) : WindsUp p s (s.breakDomains j) := by
  unfold State.breakDomains
  dsimp only
  split
  · exact .refl s
  · exact .foldl (fun s l => by split <;> exact .modDisp s rfl) _ s

end Sys2Proof.Machine
end

section
namespace Sys2Proof.Machine
open Sys2Proof

/-! ### The end of a request (R187) -/

/-- Core `i` goes back to the pool at the end of cycle `e`, whatever its run had under way. -/
def State.dropCore (s : State) (j e i : Nat) : State :=
  ((s.cancelQueued i).endRun i .stopped).freeCore i e |>.modDisp fun d => (d.unstart i s.tb).leave j i

theorem State.dropCores_eq (s : State) (j e : Nat) : s.dropCores j e =
    let u := (s.lostCores j).foldl (fun (s : State) i => s.voidClaims i) s
    (u.heldCores j).foldl (fun s i => s.dropCore j e i) u := rfl

/-- Core `i` is in the pool, its memories its last world's, and its scrub is to come (R355). -/
def State.pooled (s : State) (i e : Nat) : Prop :=
  (s.getCore i).iss.status = .free ∧ (s.getCore i).owner = some (s.getCore i).sys.world.toNat ∧
    (e + 1, Instr.coreScrubStart i) ∈ s.agenda

theorem State.unstart_windsUp {p : Nat → Prop} (s : State) (i now j : Nat) :
    WindsUp p s (s.modDisp fun d => (d.unstart i now).leave j i) := .modDisp s rfl

theorem State.dropCore_windsUp (s : State) (j e i : Nat) : WindsUp (· = i) s (s.dropCore j e i) := by
  have hr := State.endRun_windsUp (p := (· = i)) (s.cancelQueued i) rfl .stopped
  have hf := State.freeCore_windsUp (p := (· = i)) ((s.cancelQueued i).endRun i .stopped) rfl e
  exact .trans (.trans (.trans (s.cancelSome_windsUp i _) hr) hf) (State.unstart_windsUp _ i s.tb j)

theorem State.freeCore_pooled (s : State) (i e : Nat) : (s.freeCore i e).pooled i e := by
  have hc : (s.freeCore i e).getCore i = (s.getCore i).freed (s.getCore i).sys.world.toNat := by
    rw [State.freeCore_eq, State.atCycle_getCore, State.getCore_modCore_self]
    rfl
  refine ⟨by rw [hc]; rfl, by rw [hc]; rfl, ?_⟩
  rw [State.freeCore_eq]
  exact List.mem_append_right _ (List.mem_singleton.mpr rfl)

theorem WindsUp.pooled {p : Nat → Prop} {s t : State} (h : WindsUp p s t) {i e : Nat} (hi : ¬ p i) (hp : s.pooled i e) : t.pooled i e := by
  obtain ⟨h1, h2, h3⟩ := hp
  exact ⟨by rw [h.iss i hi, h1], by rw [h.owner i hi, h2, h.world], h.agenda _ h3⟩

theorem State.dropCore_pooled (s : State) (j e i : Nat) : (s.dropCore j e i).pooled i e := by
  unfold State.dropCore
  exact WindsUp.pooled (p := fun _ => False) (State.unstart_windsUp _ i s.tb j) id (State.freeCore_pooled _ i e)

theorem State.dropCore_keeps_pooled {s : State} {i e : Nat} (h : s.pooled i e) (j k : Nat) : (s.dropCore j e k).pooled i e := by
  by_cases hk : i = k
  · exact hk ▸ s.dropCore_pooled j e i
  · exact (s.dropCore_windsUp j e k).pooled hk h

theorem State.dropAll_keeps_pooled {i e : Nat} (j : Nat) (l : List Nat) {s : State} (h : s.pooled i e) :
    (l.foldl (fun s k => s.dropCore j e k) s).pooled i e := by
  induction l generalizing s with
  | nil => exact h
  | cons k l ih =>
    rw [List.foldl_cons]
    exact ih (State.dropCore_keeps_pooled h j k)

theorem State.dropAll_pooled {i : Nat} (j e : Nat) {l : List Nat} (hi : i ∈ l) (s : State) :
    (l.foldl (fun s k => s.dropCore j e k) s).pooled i e := by
  induction l generalizing s with
  | nil => cases hi
  | cons k l ih =>
    rw [List.foldl_cons]
    rcases List.mem_cons.mp hi with rfl | hi
    · exact State.dropAll_keeps_pooled j l (s.dropCore_pooled j e i)
    · exact ih hi _

theorem WindsUp.heldCores {s t : State} (h : WindsUp (fun _ => False) s t) (j : Nat) : t.heldCores j = s.heldCores j := by
  have hg : (t.jetton j).group = (s.jetton j).group := by rw [h.jetton j]
  unfold State.heldCores
  rw [hg]
  refine congrArg (List.filter · _) (funext fun i => ?_)
  rw [h.bound i, h.iss i id]

/-- The cores of a group go back to the pool, and nothing else of a request changes. -/
theorem State.dropCores_spec (s : State) (j e : Nat) :
    WindsUp (fun _ => True) s (s.dropCores j e) ∧ ∀ k ∈ s.heldCores j, (s.dropCores j e).pooled k e := by
  have hv : WindsUp (fun _ => False) s ((s.lostCores j).foldl (fun (s : State) i => s.voidClaims i) s) :=
    .foldl (fun s i => s.voidClaims_windsUp i) _ s
  rw [State.dropCores_eq]
  refine ⟨(hv.mono fun _ h => h.elim).trans (.foldl (fun s i => (s.dropCore_windsUp j e i).mono fun _ _ => trivial) _ _), fun k hk => ?_⟩
  rw [← hv.heldCores j] at hk
  exact State.dropAll_pooled j e hk _

/-- The request of a jetton as it ends in cycle `e`: what waits to be recorded of it. -/
def Jetton.endedBy (x : Jetton) (e status : Nat) (f : FaultRec) : Ended :=
  let w := x.qs[x.curQueue.toNat]'x.curQueue.isLt
  { queue := x.curQueue, seq := w.ridx, status := BitVec.ofNat 8 status,
    det := if status == 0 then 0 else (f.info.extractLsb' 32 7).setWidth 8,
    code := if status == Cause.svc.code then f.info.extractLsb' 48 16 else 0, value := if status == 0 then 0 else f.addr, tend := e,
    fpc := if status == 0 then 0 else f.fpc,
    sem := (x.sems.filter fun (k, n, _, _) => k == x.curQueue && n == w.ridx).map fun (_, _, a, id) => (a, id), clear := none }

/-- The jetton with its request over: RIDX has advanced, and the record waits (R187, R401). -/
def Jetton.closed (x : Jetton) (e status : Nat) (f : FaultRec) : Jetton :=
  let q := x.curQueue
  let w := x.qs[q.toNat]'q.isLt
  { x with qs := x.qs.set q.toNat { w with ridx := w.ridx + 1 } q.isLt, lastQueue := q, ended := x.ended ++ [x.endedBy e status f]
           sems := x.sems.filter fun (k, n, _, _) => !(k == q && n == w.ridx) }

theorem State.closeRequest_eq (s : State) (j e status : Nat) (f : FaultRec) : ∃ ids : List Nat,
    s.closeRequest j e status f = (ids.foldl (fun (s : State) id => s.accessDone id e) s).modJetton j (·.closed e status f) :=
  ⟨_, rfl⟩

theorem State.modJetton_modJetton_jetton (s : State) (j : Nat) (f g : Jetton → Jetton) :
    ((s.modJetton j f).modJetton j g).jetton j = g (f (s.jetton j)) := by
  rw [State.modJetton_jetton_self, State.modJetton_jetton_self]

/-- A request that ends (R187): its cores are in the pool, its record waits, and its jetton rests. -/
theorem State.endRequest_eq {s : State} {j : Nat} (h : (s.jetton j).state.held = true) (e status : Nat) (f : FaultRec) : ∃ u stop,
    WindsUp (fun _ => True) s u ∧ (∀ k ∈ s.heldCores j, u.pooled k e) ∧
    (s.endRequest j e status f).jetton j = ((u.jetton j).closed e status f).rest e stop ∧ (s.endRequest j e status f).mem = u.mem ∧
    (s.endRequest j e status f).agenda = u.agenda ∧ ∀ k, (s.endRequest j e status f).getCore k = u.getCore k := by
  have hb : WindsUp (fun _ => False) s (s.breakDomains j) := s.breakDomains_windsUp j
  obtain ⟨hd, hp⟩ := (s.breakDomains j).dropCores_spec j e
  obtain ⟨ids, hc⟩ := ((s.breakDomains j).dropCores j e).closeRequest_eq j e status f
  have ha : WindsUp (fun _ => False) ((s.breakDomains j).dropCores j e)
      (ids.foldl (fun (s : State) id => s.accessDone id e) ((s.breakDomains j).dropCores j e)) := .foldl (fun s id => .modEng s _) ids _
  rw [State.endRequest, h, Bool.not_true, if_neg Bool.false_ne_true, hc]
  refine ⟨_, _, (hb.mono fun _ h => h.elim).trans (hd.trans (ha.mono fun _ h => h.elim)), fun k hk => ha.pooled id (hp k ?_),
    State.modJetton_modJetton_jetton _ j _ _, rfl, rfl, fun _ => rfl⟩
  rwa [hb.heldCores j]

/-- Where a jetton goes when it holds no request (Table 8.5). -/
theorem Jetton.rest_state (x : Jetton) (e : Nat) (stop : Bool) : (x.rest e stop).state ∈ [JState.stopped, .ready, .idle] := by
  unfold Jetton.rest
  dsimp only
  split
  · simp
  · split <;> simp

end Sys2Proof.Machine
end

section
namespace Sys2Proof.Machine
open Sys2Proof

/-! ### A run begins (R12, R184, R203, R223, R328, R329) -/

theorem mkCap_cur (world perms base len : Nat) : (mkCap world perms base len).cur = BitVec.ofNat 64 base := by
  unfold mkCap
  dsimp only
  split <;> rfl

theorem State.foldl_followDone (l : List FollowOn) (s : State) :
    (∀ k, (l.foldl (fun (s : State) (f : FollowOn) => s.followDone f.copy) s).getCore k = s.getCore k) ∧
      (l.foldl (fun (s : State) (f : FollowOn) => s.followDone f.copy) s).tb = s.tb := by
  induction l generalizing s with
  | nil => exact ⟨fun _ => rfl, rfl⟩
  | cons f l ih =>
    rw [List.foldl_cons]
    exact ih (s.followDone f.copy)

theorem State.clearFootprint_getCore (s : State) (regs : List Region) :
    (∀ k, (s.clearFootprint regs).getCore k = s.getCore k) ∧ (s.clearFootprint regs).tb = s.tb := by
  unfold State.clearFootprint
  generalize regs.filter _ = l
  induction l generalizing s with
  | nil => exact ⟨fun _ => rfl, rfl⟩
  | cons r l ih =>
    rw [List.foldl_cons]
    exact ih (s.modMem _)

theorem State.placeRoot_getCore (s : State) (i : Nat) (t : TaskImage) (root : Cap) (k : Nat) :
    (s.placeRoot i t root).getCore k = s.getCore k := by
  unfold State.placeRoot
  split <;> rfl

theorem State.loadCode_getCore (s : State) (i : Nat) (t : TaskImage) (fresh : Bool) :
    ∃ segs, (s.loadCode i t fresh).getCore i = { s.getCore i with bnd := { (s.getCore i).bnd with segs := segs } } :=
  ⟨_, by rw [State.loadCode, State.getCore_modCore_self, State.modMem_getCore]⟩

theorem State.loadCode_tb (s : State) (i : Nat) (t : TaskImage) (fresh : Bool) : (s.loadCode i t fresh).tb = s.tb := by
  rw [State.loadCode, State.modCore_tb, State.modMem_tb]

/-- The core as a start of kind `kind` leaves it in cycle `now`, with the values that other state gives it. -/
def Core.begun (c : Core) (t : TaskImage) (i kind now : Nat) (alpha : Vector (BitVec 32) 5) (dmem : W64) (scope : BitVec 3)
    (wm : Vector Channel 16) : Core :=
  let c := c.startRegs t i (kind == 1 || kind == 3)
  { c with
    wm := wm
    journal := if kind == 3 then c.journal else []
    jpos := 0
    sys := { c.sys with
      anchor := BitVec.ofNat 64 now, dmem := dmem, scope := scope, rply := if kind == 3 then c.sys.rply else 0
      fcause := if kind == 0 then 0 else c.sys.fcause, fpc := if kind == 0 then 0 else c.sys.fpc
      faddr := if kind == 0 then 0 else c.sys.faddr, finfo := if kind == 0 then 0 else c.sys.finfo
      bpaddr := if kind == 0 then Vector.replicate 4 0 else c.sys.bpaddr }
    bnd := { c.bnd with
      alpha := alpha, alphaStart := alpha, movedStage := false, started := true
      firstRun := if kind == 0 then c.iss.run + 1 else c.bnd.firstRun
      startRun := if kind == 3 then c.bnd.startRun else c.iss.run + 1
      regions := imageRegions t (imageC0 t c.sys.world.toNat i) c.ctl.mb }
    iss := { Core.reset.iss with
      fault := c.iss.fault
      status := .running, next := now, runStart := now, run := c.iss.run + 1
      ucLast := if kind == 3 then c.iss.ucLast else none
      pend := c.iss.pend, bankPend := c.iss.bankPend, accPend := c.iss.accPend } }

/-- What a start does to its core: the code segments may be loaded before, the rest is `Core.begun`. -/
theorem State.beginRun_core {s : State} {i : Nat} {t : TaskImage} (h : (s.getCore i).bnd.task = some t) (kind : Nat) :
    ∃ segs dmem scope wm, (s.beginRun i kind).getCore i =
      ({ s.getCore i with bnd := { (s.getCore i).bnd with segs := segs } } : Core).begun t i kind s.tb (s.startAlpha i kind) dmem scope wm := by
  have h1 := State.foldl_followDone (s.getCore i).mat.loader s
  unfold State.beginRun
  rw [h]
  dsimp only
  generalize (s.getCore i).mat.loader.foldl (fun (s : State) (f : FollowOn) => s.followDone f.copy) s = s1 at h1 ⊢
  have h2 : ∀ b : Bool, (∀ k, (if b then s1.clearFootprint (s.getCore i).bnd.regions else s1).getCore k = s.getCore k) ∧
      (if b then s1.clearFootprint (s.getCore i).bnd.regions else s1).tb = s.tb := by
    intro b
    obtain ⟨hc, ht⟩ := s1.clearFootprint_getCore (s.getCore i).bnd.regions
    cases b
    · exact h1
    · exact ⟨fun k => (hc k).trans (h1.1 k), ht.trans h1.2⟩
  replace h2 := h2 (kind == 3 && (s.getCore i).sys.fcause == 0x19)
  generalize (if (kind == 3 && (s.getCore i).sys.fcause == 0x19) = true then s1.clearFootprint (s.getCore i).bnd.regions else s1) = s2 at h2 ⊢
  have h3 : ∃ segs, (if (kind == 2) = true then s2.loadCode i t true else if (kind == 3) = true then s2.loadCode i t false else s2).getCore i =
        { s.getCore i with bnd := { (s.getCore i).bnd with segs := segs } } := by
    rw [← h2.1 i]
    split
    · exact s2.loadCode_getCore i t true
    · split
      · exact s2.loadCode_getCore i t false
      · exact ⟨_, rfl⟩
  have h4 : (if (kind == 2) = true then s2.loadCode i t true else if (kind == 3) = true then s2.loadCode i t false else s2).tb = s.tb := by
    rw [← h2.2]
    split
    · exact s2.loadCode_tb i t true
    · split
      · exact s2.loadCode_tb i t false
      · rfl
  generalize (if (kind == 2) = true then s2.loadCode i t true else if (kind == 3) = true then s2.loadCode i t false else s2) = s3 at h3 h4 ⊢
  obtain ⟨segs, h3⟩ := h3
  unfold State.placeTables
  rw [State.modMem_getCore, State.placeRoot_getCore, State.getCore_modCore_self, h3, h4]
  exact ⟨segs, _, _, _, rfl⟩

end Sys2Proof.Machine
end

section
namespace Sys2Proof.Machine
open Sys2Proof

/-! ### The instructions that begin a run -/

theorem imageC0_cur (t : TaskImage) (world core : Nat) : (imageC0 t world core).cur = BitVec.ofNat 64 (coreBase core) :=
  mkCap_cur _ _ _ _

/-- The capability registers at a start: c0 alone is not null (R12, R184). -/
theorem Core.begun_caps (c : Core) (t : TaskImage) (i kind now : Nat) (alpha : Vector (BitVec 32) 5) (dmem : W64) (scope : BitVec 3)
    (wm : Vector Channel 16) : let k := c.begun t i kind now alpha dmem scope wm
    (k.ctl.c[0]).cur = BitVec.ofNat 64 (coreBase i) ∧ ∀ n : Fin 16, n ≠ 0 → k.ctl.c[n] = Cap.null := by
  have h : (c.begun t i kind now alpha dmem scope wm).ctl.c =
      (Vector.replicate 16 Cap.null).set 0 (imageC0 t c.sys.world.toNat i) := rfl
  dsimp only
  refine ⟨by rw [show _ = _ from congrArg (·[0]) h]; simp [imageC0_cur], fun n hn => ?_⟩
  have hn' : 0 ≠ n.val := fun h => hn (Fin.ext h.symm)
  rw [show _ = _ from congrArg (·[n]) h]
  simp [hn']

theorem State.startAlpha_eq (s : State) (i kind : Nat) : s.startAlpha i kind =
    if kind = 0 then Vector.ofFn fun l => s.phaseNo (s.domainOf i l.val)
    else if kind = 3 then (s.getCore i).bnd.alphaStart else (s.getCore i).bnd.alpha := by
  simp only [State.startAlpha, beq_iff_eq]

theorem exec_taskStart_first {s : State} {core : Nat} (h : s.startKind core = some 0) :
    exec (.taskStart core) s = .next (s.beginRun core 0) := by
  show execTaskStart core s = _
  rw [execTaskStart, h] <;> rfl

theorem exec_taskStart_resume {s : State} {core : Nat} (h : s.startKind core = some 4) :
    exec (.taskStart core) s = .next (s.resumeRun core) := by
  show execTaskStart core s = _
  rw [execTaskStart, h] <;> rfl

theorem State.checkedStart_passed {s : State} {i : Nat} (h : s.footCheck i = none) (kind : Nat) :
    s.checkedStart i kind = s.beginRun i kind := by
  rw [State.checkedStart, h]

theorem exec_taskRestart_same {s : State} {core : Nat} (hf : s.footCheck core = none) (h : s.startKind core = some 1) :
    exec (.taskRestart core) s = .next (s.beginRun core 1) := by
  show execTaskRestart core s = _
  rw [execTaskRestart, h]
  exact congrArg _ (State.checkedStart_passed hf _)

theorem exec_taskRestart_moved {s : State} {core : Nat} (hf : s.footCheck core = none) (h : s.startKind core = some 2) :
    exec (.taskRestart core) s = .next (s.beginRun core 2) := by
  show execTaskRestart core s = _
  rw [execTaskRestart, h]
  exact congrArg _ (State.checkedStart_passed hf _)

theorem exec_replayStart {s : State} {core : Nat} (hf : s.footCheck core = none) (h : s.startKind core = some 3) :
    exec (.replayStart core) s = .next (s.beginRun core 3) := by
  show execReplayStart core s = _
  rw [execReplayStart, h]
  exact congrArg _ (State.checkedStart_passed hf _)

/-! ### A resume (R344, R345) -/

/-- The core as a resume leaves it in cycle `now`. -/
def Core.resumed (c : Core) (now : Nat) (dmem : W64) : Core :=
  { c with
    sys := { c.sys with anchor := BitVec.ofNat 64 now - c.sys.anchor, dmem := dmem }
    iss := { c.iss with
      status := .running, next := now, runStart := now - c.iss.runStart, turn := none, drain := none, wait := .none
      vec := c.iss.vec.rebase now, mat := c.iss.mat.rebase now, tab := c.iss.tab.rebase now } }

theorem State.resumeRun_eq {s : State} {i : Nat} (hb : (s.getCore i).sys.bkpend = false) (hp : (s.getCore i).drained.fpend = none) :
    s.resumeRun i = (s.restoreCopies i).modCore i fun c => c.resumed s.tb (s.dmem i (s.getCore i).bnd.stage) := by
  unfold State.resumeRun
  dsimp only
  rw [hb, if_neg Bool.false_ne_true, hp]
  rfl

end Sys2Proof.Machine
end

section
namespace Sys2Proof.Machine
open Sys2Proof

/-! ### The end of a task (R32, R188, R203, R333) -/

/-- A DONE that had to wait changes no register but the anchor. -/
theorem Core.doneAnchor_leaves (c : Core) (now : Nat) : (c.doneAnchor now).iss = c.iss ∧ (c.doneAnchor now).bnd = c.bnd ∧
    (c.doneAnchor now).sys.world = c.sys.world := by
  unfold Core.doneAnchor
  split <;> exact ⟨rfl, rfl, rfl⟩

/-- The core of a run that has ended with its DONE: one that was draining goes on to its seal. -/
def Core.doneBy (c : Core) (now : Nat) (st : Status) (f : Drain → Drain) : Core :=
  let k := ({ c with bnd := { c.bnd with lastEnd := some (now, c.bnd.stage) } } : Core).stopped st
  { k with iss := { k.iss with drain := c.iss.drain.map fun d => f { d with d := some now, stub := false } } }

section
variable (s : State) (i : Nat) (st : Status) (f : Drain → Drain)

theorem State.doneRun_getCore_self : (s.doneRun i st f).getCore i = (s.getCore i).doneBy s.tb st f := by
  unfold State.doneRun
  rw [State.getCore_modCore_self, State.stopRun_eq, State.modEng_getCore, State.getCore_modCore_self, State.getCore_modCore_self,
    State.modEng_tb, State.modCore_tb, State.modCore_tb]
  rfl

theorem State.doneRun_getCore_ne {k : Nat} (h : k ≠ i) : (s.doneRun i st f).getCore k = s.getCore k := by
  unfold State.doneRun
  rw [State.getCore_modCore_ne _ h, State.stopRun_eq, State.modEng_getCore, State.getCore_modCore_ne _ h, State.getCore_modCore_ne _ h]

@[simp] theorem State.doneRun_tb : (s.doneRun i st f).tb = s.tb := by
  unfold State.doneRun
  rw [State.modCore_tb, State.stopRun_eq, State.modEng_tb, State.modCore_tb, State.modCore_tb]

@[simp] theorem State.doneRun_mem : (s.doneRun i st f).mem = s.mem := by
  unfold State.doneRun
  rw [State.modCore_mem, State.stopRun_eq, State.modEng_mem, State.modCore_mem, State.modCore_mem]

@[simp] theorem State.doneRun_disp : (s.doneRun i st f).disp = s.disp := by
  unfold State.doneRun
  rw [State.modCore_disp, State.stopRun_eq, State.modEng_disp, State.modCore_disp, State.modCore_disp]
end

/-- The arrivals of a core that retires: they are put on the agenda, and nothing else changes. -/
theorem State.arrivals_eq (i : Nat) (ls : List Nat) (s : State) : ∃ ag,
    ls.foldl (fun (s : State) l => s.at_ (s.tb + s.phaseA l)
      (.phaseArrival (s.domainOf i l) i (((s.getCore i).bnd.alpha.toList[l]?).getD 0))) s = { s with agenda := s.agenda ++ ag } ∧
    ∀ l ∈ ls, ∃ a, (s.tb + a, Instr.phaseArrival (s.domainOf i l) i (((s.getCore i).bnd.alpha.toList[l]?).getD 0)) ∈ ag := by
  induction ls generalizing s with
  | nil => exact ⟨[], by rw [List.append_nil]; rfl, fun l hl => nomatch hl⟩
  | cons l ls ih =>
    rw [List.foldl_cons]
    obtain ⟨ag, he, hag⟩ := ih (s.at_ (s.tb + s.phaseA l)
      (.phaseArrival (s.domainOf i l) i (((s.getCore i).bnd.alpha.toList[l]?).getD 0)))
    refine ⟨(s.tb + s.phaseA l, .phaseArrival (s.domainOf i l) i (((s.getCore i).bnd.alpha.toList[l]?).getD 0)) :: ag, ?_, fun m hm => ?_⟩
    · rw [he, State.at_]
      simp only [List.append_assoc, List.singleton_append]
    · rcases List.mem_cons.mp hm with rfl | hm
      · exact ⟨_, List.mem_cons_self ..⟩
      · obtain ⟨a, ha⟩ := hag m hm
        exact ⟨a, List.mem_cons_of_mem _ ha⟩

/-- The core as it retires in cycle `now`. -/
def Core.retiredBy (c : Core) (now : Nat) : Core :=
  let k := c.doneBy now .retired fun d => { d with retired := true }
  { k with iss := { k.iss with next := now } }

/-- The state in which the run of a core that retires has ended, before its arrivals. -/
def State.endRetiring (s : State) (i : Nat) : State :=
  let s := s.doneRun i .retired fun d => { d with retired := true }
  s.modCore i fun c => { c with iss := { c.iss with next := s.tb } }

section
variable (s : State) (i : Nat)

theorem State.endRetiring_getCore_self : (s.endRetiring i).getCore i = (s.getCore i).retiredBy s.tb := by
  unfold State.endRetiring
  rw [State.getCore_modCore_self, State.doneRun_getCore_self, State.doneRun_tb]
  rfl

theorem State.endRetiring_getCore_ne {k : Nat} (h : k ≠ i) : (s.endRetiring i).getCore k = s.getCore k := by
  unfold State.endRetiring
  rw [State.getCore_modCore_ne _ h, State.doneRun_getCore_ne _ _ _ _ h]

theorem State.endRetiring_leaves : (s.endRetiring i).tb = s.tb ∧ (s.endRetiring i).mem = s.mem ∧ (s.endRetiring i).disp = s.disp := by
  unfold State.endRetiring
  rw [State.modCore_tb, State.modCore_mem, State.modCore_disp, State.doneRun_tb, State.doneRun_mem, State.doneRun_disp]
  exact ⟨rfl, rfl, rfl⟩
end

/-- A core's domains are those of its jetton. -/
theorem State.domainOf_congr {s t : State} {i : Nat} (hj : (t.getCore i).bnd.jetton = (s.getCore i).bnd.jetton) (hd : t.disp = s.disp)
    (l : Nat) : t.domainOf i l = s.domainOf i l := by
  unfold State.domainOf State.jetton
  rw [hj, hd]

/-- The state of a core's retirement, before it is seen whether the whole group has retired. -/
def State.retired (s : State) (i : Nat) : State :=
  (List.range 5).foldl (fun s l =>
    s.at_ (s.tb + s.phaseA l) (.phaseArrival (s.domainOf i l) i (((s.getCore i).bnd.alpha.toList[l]?).getD 0))) (s.endRetiring i)

theorem State.retire_eq (s : State) (i : Nat) : s.retire i =
    if ((s.retired i).heldCores (s.getCore i).bnd.jetton).all fun k => ((s.retired i).getCore k).hasRetired then
      (s.retired i).endRequest (s.getCore i).bnd.jetton (s.retired i).tb 0 (dispatchFault .ill 0 0) else s.retired i := by
  unfold State.retire State.retired State.endRetiring
  rfl

/-- What a retirement does before it is seen whether the group has retired: the core has, and it arrives at every level. -/
theorem State.retired_spec (s : State) (i : Nat) :
    (s.retired i).getCore i = (s.getCore i).retiredBy s.tb ∧
    (∀ k, k ≠ i → (s.retired i).getCore k = s.getCore k) ∧ (s.retired i).tb = s.tb ∧ (s.retired i).mem = s.mem ∧
    (s.retired i).disp = s.disp ∧
    ∀ l < 5, ∃ a, (s.tb + a, Instr.phaseArrival (s.domainOf i l) i (((s.getCore i).bnd.alpha.toList[l]?).getD 0)) ∈ (s.retired i).agenda := by
  obtain ⟨ht, hm, hd⟩ := s.endRetiring_leaves i
  have hi := s.endRetiring_getCore_self i
  have hb : ((s.endRetiring i).getCore i).bnd.jetton = (s.getCore i).bnd.jetton ∧
      ((s.endRetiring i).getCore i).bnd.alpha = (s.getCore i).bnd.alpha := by
    rw [hi]
    exact ⟨rfl, rfl⟩
  obtain ⟨ag, he, hag⟩ := State.arrivals_eq i (List.range 5) (s.endRetiring i)
  have hne := fun k (h : k ≠ i) => s.endRetiring_getCore_ne i h
  rw [show s.retired i = _ from he]
  generalize s.endRetiring i = t at ht hm hd hi hb hag hne ⊢
  refine ⟨hi, hne, ht, hm, hd, fun l hl => ?_⟩
  obtain ⟨a, ha⟩ := hag l (List.mem_range.mpr hl)
  rw [ht, State.domainOf_congr hb.1 hd, hb.2] at ha
  exact ⟨a, List.mem_append_right _ ha⟩

/-- The cores that a jetton holds, where nothing of them has changed that says so. -/
theorem State.heldCores_congr {s t : State} {j : Nat} (hg : (t.jetton j).group = (s.jetton j).group)
    (hk : ∀ k, (t.getCore k).bnd.jetton = (s.getCore k).bnd.jetton ∧ ((t.getCore k).iss.status ≠ .free ↔ (s.getCore k).iss.status ≠ .free)) :
    t.heldCores j = s.heldCores j := by
  unfold State.heldCores
  rw [hg]
  refine congrArg (List.filter · _) (funext fun k => ?_)
  obtain ⟨hj, hs⟩ := hk k
  rw [hj, bne, bne, Bool.eq_iff_iff]
  simpa using fun _ => hs

theorem State.mem_heldCores {s : State} {j k : Nat} : k ∈ s.heldCores j ↔
    k ∈ ((s.jetton j).group.map (·.cores)).getD [] ∧ (s.getCore k).bnd.jetton = j ∧ (s.getCore k).iss.status ≠ .free := by
  unfold State.heldCores
  simp

theorem State.retired_jetton (s : State) (i j : Nat) : (s.retired i).jetton j = s.jetton j := by
  obtain ⟨-, -, -, -, hd, -⟩ := s.retired_spec i
  unfold State.jetton
  rw [hd]

theorem State.mem_retired_heldCores {s : State} {i k : Nat} (h : k ≠ i) (j : Nat) :
    k ∈ (s.retired i).heldCores j ↔ k ∈ s.heldCores j := by
  rw [State.mem_heldCores, State.mem_heldCores, State.retired_jetton, (s.retired_spec i).2.1 k h]

/-- A core that retires is held still. -/
theorem State.heldCores_retired {s : State} {i j k : Nat} (h : k ∈ s.heldCores j) : k ∈ (s.retired i).heldCores j := by
  by_cases hk : k = i
  · subst hk
    obtain ⟨hg, hj, -⟩ := State.mem_heldCores.mp h
    rw [State.mem_heldCores, State.retired_jetton, (s.retired_spec k).1]
    exact ⟨hg, hj, show Status.retired ≠ .free by decide⟩
  · exact (State.mem_retired_heldCores hk j).mpr h

/-- The request goes on while a core of its group has not retired (R187). -/
theorem State.retire_of_unretired {s : State} {i k : Nat} (hk : k ∈ s.heldCores (s.getCore i).bnd.jetton) (hne : k ≠ i)
    (hr : (s.getCore k).hasRetired = false) : s.retire i = s.retired i := by
  rw [State.retire_eq, if_neg]
  intro h
  have hall := List.all_eq_true.mp h k ((State.mem_retired_heldCores hne _).mpr hk)
  rw [(s.retired_spec i).2.1 k hne, hr] at hall
  exact absurd hall Bool.false_ne_true

/-- The last core of a group to retire ends the request with status 0 (R187). -/
theorem State.retire_of_last {s : State} {i : Nat}
    (h : ∀ k ∈ s.heldCores (s.getCore i).bnd.jetton, k = i ∨ (s.getCore k).hasRetired = true) :
    s.retire i = (s.retired i).endRequest (s.getCore i).bnd.jetton s.tb 0 (dispatchFault .ill 0 0) := by
  obtain ⟨hi, hk, ht, -⟩ := s.retired_spec i
  rw [State.retire_eq, if_pos, ht]
  refine List.all_eq_true.mpr fun k hm => ?_
  by_cases hki : k = i
  · rw [hki, hi]
    rfl
  · rw [hk k hki]
    exact (h k ((State.mem_retired_heldCores hki _).mp hm)).resolve_left hki

/-- The record of a request that has ended, and its queue (R187, R401). -/
theorem Jetton.closed_spec (x : Jetton) (e status : Nat) (f : FaultRec) :
    (x.closed e status f).qs[x.curQueue.toNat]'x.curQueue.isLt =
      { x.qs[x.curQueue.toNat]'x.curQueue.isLt with ridx := (x.qs[x.curQueue.toNat]'x.curQueue.isLt).ridx + 1 } ∧
    (x.closed e status f).ended = x.ended ++ [x.endedBy e status f] :=
  ⟨Vector.getElem_set_self _, rfl⟩

theorem State.retired_world (s : State) (i k : Nat) : ((s.retired i).getCore k).sys.world = (s.getCore k).sys.world := by
  obtain ⟨hi, hne, -⟩ := s.retired_spec i
  by_cases h : k = i
  · rw [h, hi]
    rfl
  · rw [hne k h]

/-- The request of which the last core retires: over with status 0, every core in the pool (R187). -/
theorem State.retire_last {s : State} {i j : Nat} (hj : (s.getCore i).bnd.jetton = j)
    (hall : ∀ k ∈ s.heldCores j, k = i ∨ (s.getCore k).hasRetired = true) (hheld : (s.jetton j).state.held = true) : ∃ spill stop,
    (s.retire i).jetton j = (({ s.jetton j with spill := spill } : Jetton).closed s.tb 0 (dispatchFault .ill 0 0)).rest s.tb stop ∧
    (s.retire i).mem = s.mem ∧ ∀ k ∈ s.heldCores j, (s.retire i).pooled k s.tb ∧
      ((s.retire i).getCore k).sys.world = (s.getCore k).sys.world := by
  obtain ⟨-, -, -, hm, -, -⟩ := s.retired_spec i
  obtain ⟨u, stop, hu, hp, hx, hum, hua, huk⟩ := State.endRequest_eq (s := s.retired i) (j := j)
    (by rw [State.retired_jetton]; exact hheld) s.tb 0 (dispatchFault .ill 0 0)
  have hux := hu.jetton j
  rw [State.retired_jetton] at hux
  rw [State.retire_of_last (by rw [hj]; exact hall), hj]
  refine ⟨(u.jetton j).spill, stop, by rw [hx, ← hux], by rw [hum, hu.mem, hm], fun k hk => ?_⟩
  obtain ⟨hf, ho, hs⟩ := hp k (State.heldCores_retired hk)
  unfold State.pooled
  rw [huk, hua]
  exact ⟨⟨hf, ho, hs⟩, by rw [hu.world, State.retired_world]⟩

/-- The kind of start that follows a task: in the same stage, or in another (R203). -/
def againKind (st next : Nat) : Nat := if next != st then 2 else 1

/-- What a core that starts again becomes: it waits in the stage that the balancer gave (R203, R205). -/
def Core.between (c : Core) (now next : Nat) (g : Group) : Core :=
  let k := c.doneBy now (if c.iss.drain.isSome then .draining else .between) fun d =>
    { d with restart := true, kind := againKind c.bnd.stage next }
  { k with bnd := { k.bnd with
    stage := next, movedStage := next != c.bnd.stage
    task := if next != c.bnd.stage then (g.stages[next]?).map (·.task) else k.bnd.task } }

theorem Core.between_of_running {c : Core} (h : c.iss.drain = none) (now next : Nat) (g : Group) :
    (c.between now next g).iss.status = .between := by
  show (if c.iss.drain.isSome then Status.draining else .between) = _
  rw [h]
  rfl

/-- A core that drains keeps the start to come for its seal (R343). -/
theorem Core.between_of_draining {c : Core} {d : Drain} (h : c.iss.drain = some d) (now next : Nat) (g : Group) :
    (c.between now next g).iss.status = .draining ∧ (c.between now next g).iss.drain =
      some { d with d := some now, stub := false, restart := true, kind := againKind c.bnd.stage next } := by
  have hd : (c.between now next g).iss.drain = c.iss.drain.map fun d =>
    { d with d := some now, stub := false, restart := true, kind := againKind c.bnd.stage next } := rfl
  refine ⟨?_, by rw [hd, h]; rfl⟩
  show (if c.iss.drain.isSome then Status.draining else .between) = _
  rw [h]
  rfl

/-- The state in which the run of a core that starts again has ended, before its start is scheduled. -/
def State.endAgain (s : State) (i : Nat) (g : Group) (next : Nat) : State :=
  let c := s.getCore i
  let s := s.doneRun i (if c.iss.drain.isSome then .draining else .between) fun d =>
    { d with restart := true, kind := againKind c.bnd.stage next }
  let s := s.modJetton c.bnd.jetton fun x => { x with group := some { g with at_ := g.at_.set (s.getCore i).bnd.logical next } }
  s.modCore i fun k => { k with bnd := { k.bnd with
    stage := next, movedStage := next != c.bnd.stage
    task := if next != c.bnd.stage then (g.stages[next]?).map (·.task) else k.bnd.task } }

theorem State.again_eq {s : State} {i : Nat} {g : Group} (hg : (s.jetton (s.getCore i).bnd.jetton).group = some g) :
    let c := s.getCore i
    let next := s.balance i c.bnd.stage g
    let t := s.endAgain i g next
    s.again i = if c.iss.drain.isSome then t else
      t.schedule [(i, againKind c.bnd.stage next)] (t.tb + if next != c.bnd.stage then 272 else 24) := by
  dsimp only
  unfold State.again
  dsimp only
  rw [hg]
  rfl

theorem State.endAgain_spec (s : State) (i : Nat) (g : Group) (next : Nat) :
    (s.endAgain i g next).getCore i = (s.getCore i).between s.tb next g ∧ (s.endAgain i g next).mem = s.mem ∧
    (s.endAgain i g next).tb = s.tb ∧ (s.endAgain i g next).disp.wishes = s.disp.wishes := by
  unfold State.endAgain
  dsimp only
  rw [State.getCore_modCore_self, State.modCore_mem, State.modCore_tb, State.modCore_disp]
  unfold State.modJetton
  rw [State.setJetton_getCore, State.doneRun_getCore_self, State.setJetton_mem, State.doneRun_mem]
  refine ⟨rfl, rfl, State.doneRun_tb .., ?_⟩
  show (State.doneRun _ _ _ _).disp.wishes = _
  rw [State.doneRun_disp]

theorem againKind_eq (st next : Nat) : againKind st next = if next = st then 1 else 2 := by
  unfold againKind
  by_cases h : next = st <;> simp [h]

theorem State.schedule_one (s : State) (i kind a : Nat) : s.schedule [(i, kind)] a =
    s.modDisp fun d => { d with wishes := d.wishes ++ [⟨(s.getCore i).bnd.jetton, [(i, kind)], a⟩] } := rfl

/-- A core starts again in the stage that the balancer gives, 24 or 272 cycles on, or seals before it does (R203, R205, R343). -/
theorem State.again_spec {s : State} {i : Nat} {g : Group} (hg : (s.jetton (s.getCore i).bnd.jetton).group = some g) {c : Core}
    (hc : s.getCore i = c) {next : Nat} (hn : s.balance i c.bnd.stage g = next) :
    (s.again i).getCore i = c.between s.tb next g ∧ (s.again i).mem = s.mem ∧
    (c.iss.drain = none → (s.again i).disp.wishes =
      s.disp.wishes ++ [⟨c.bnd.jetton, [(i, againKind c.bnd.stage next)], s.tb + if next = c.bnd.stage then 24 else 272⟩]) ∧
    ∀ d, c.iss.drain = some d → (s.again i).disp.wishes = s.disp.wishes := by
  have he := State.again_eq hg
  obtain ⟨hk, hm, ht, hw⟩ := s.endAgain_spec i g next
  dsimp only at he
  rw [hc, hn, ht] at he
  rw [hc] at hk
  cases hd : c.iss.drain with
  | none =>
    rw [hd, Option.isSome_none, if_neg Bool.false_ne_true] at he
    rw [he, State.schedule_one]
    have hl : (if (next != c.bnd.stage) = true then 272 else 24) = if next = c.bnd.stage then 24 else 272 := by
      by_cases h : next = c.bnd.stage <;> simp [h]
    refine ⟨by rw [State.modDisp_getCore, hk], by rw [State.modDisp_mem, hm], fun _ => ?_, fun d h => (Option.some_ne_none d h.symm).elim⟩
    rw [State.modDisp_disp, hw, hk, hl]
    rfl
  | some d =>
    rw [hd, Option.isSome_some, if_pos rfl] at he
    rw [he]
    exact ⟨hk, hm, fun h => (Option.some_ne_none d h).elim, fun _ _ => hw⟩

end Sys2Proof.Machine
end

section
namespace Sys2Proof.Machine
open Sys2Proof

/-! ### TASK_END -/

/-- The state of a task's end, its anchor moved where the DONE had to wait (R22). -/
def State.atDone (s : State) (i : Nat) : State := s.modCore i fun c => c.doneAnchor s.tb

theorem exec_taskEnd {s : State} {core : Nat} (h : s.endsNow core = true) : exec (.taskEnd core) s =
    .next (if (s.getCore core).iss.s0done = 0 then (s.atDone core).retire core else (s.atDone core).again core) := by
  show execTaskEnd core s = _
  rw [execTaskEnd, if_pos h]
  simp only [beq_iff_eq]
  rfl

/-- The anchor apart, a task's end finds the state as it was. -/
theorem State.atDone_getCore (s : State) (i k : Nat) : ((s.atDone i).getCore k).iss = (s.getCore k).iss ∧
    ((s.atDone i).getCore k).bnd = (s.getCore k).bnd ∧ ((s.atDone i).getCore k).sys.world = (s.getCore k).sys.world := by
  by_cases h : k = i
  · subst h
    unfold State.atDone
    rw [State.getCore_modCore_self]
    exact (s.getCore k).doneAnchor_leaves s.tb
  · unfold State.atDone
    rw [State.getCore_modCore_ne _ h]
    exact ⟨rfl, rfl, rfl⟩

section
variable (s : State) (i : Nat)
@[simp] theorem State.atDone_tb : (s.atDone i).tb = s.tb := s.modCore_tb i _
@[simp] theorem State.atDone_mem : (s.atDone i).mem = s.mem := s.modCore_mem i _
@[simp] theorem State.atDone_disp : (s.atDone i).disp = s.disp := s.modCore_disp i _
@[simp] theorem State.atDone_jetton (j : Nat) : (s.atDone i).jetton j = s.jetton j := s.modCore_jetton i _ j

theorem State.atDone_heldCores (j : Nat) : (s.atDone i).heldCores j = s.heldCores j := by
  refine State.heldCores_congr (by rw [State.atDone_jetton]) fun k => ?_
  obtain ⟨hiss, hbnd, -⟩ := s.atDone_getCore i k
  rw [hiss, hbnd]
  exact ⟨rfl, Iff.rfl⟩

theorem State.atDone_hasRetired (k : Nat) : ((s.atDone i).getCore k).hasRetired = (s.getCore k).hasRetired := by
  unfold Core.hasRetired
  rw [(s.atDone_getCore i k).1]

theorem State.atDone_domainOf (l : Nat) : (s.atDone i).domainOf i l = s.domainOf i l :=
  State.domainOf_congr (by rw [(s.atDone_getCore i i).2.1]) (s.atDone_disp i) l
end

/-- Settles O39: a start is `Core.begun`, a resume `Core.resumed`, and a task's end either `State.retired`, with the request
over once the whole group has retired, or `State.again`. -/
theorem runsBeginAndEnd : Obligations.RunsBeginAndEnd := by
  unfold Obligations.RunsBeginAndEnd
  refine ⟨fun s core task hg ht => ?_, fun s core hg hk => ?_, fun s core g hg he => ?_⟩
  · intro c begins
    have begun : ∀ i kind, exec i s = .next (s.beginRun core kind) → begins i kind := by
      intro i kind hi
      obtain ⟨segs, dmem, scope, wm, hc⟩ := State.beginRun_core ht kind
      have hcap := Core.begun_caps { s.getCore core with bnd := { (s.getCore core).bnd with segs := segs } } task core kind s.tb
        (s.startAlpha core kind) dmem scope wm
      have ha := s.startAlpha_eq core kind
      refine ⟨_, hi, ?_⟩
      rw [hc]
      refine ⟨rfl, rfl, rfl, rfl, rfl, rfl, rfl, rfl, rfl, rfl, hcap.1, hcap.2, rfl, rfl, rfl, rfl, rfl, rfl, rfl, rfl, ?_, ?_, ?_, ?_, ha⟩
      all_goals
        simp only [Core.begun, beq_iff_eq]
        rfl
    exact ⟨fun h => begun _ 0 (exec_taskStart_first h), fun hf => ⟨fun h => begun _ 1 (exec_taskRestart_same hf h),
      fun h => begun _ 2 (exec_taskRestart_moved hf h), fun h => begun _ 3 (exec_replayStart hf h)⟩⟩
  · intro c hb hp
    refine ⟨_, (exec_taskStart_resume hk).trans (congrArg _ (State.resumeRun_eq hb hp)), ?_⟩
    rw [State.getCore_modCore_self, State.modCore_mem, State.modCore_disp]
    exact ⟨rfl, rfl, rfl, rfl, rfl, rfl, rfl, rfl, rfl, rfl, rfl⟩
  · intro c j hgr hin
    obtain ⟨hiss, hbnd, -⟩ := s.atDone_getCore core core
    have hj : ((s.atDone core).getCore core).bnd.jetton = j := by rw [hbnd]
    refine ⟨fun h0 ⟨k, hk, hne, hr⟩ => ?_, fun h0 hall hheld => ?_, fun h0 => ?_⟩
    · have hret := State.retire_of_unretired (s := s.atDone core) (i := core) (by rwa [hj, State.atDone_heldCores]) hne
        (by rwa [State.atDone_hasRetired])
      obtain ⟨hc, -, -, hm, -, ha⟩ := (s.atDone core).retired_spec core
      refine ⟨_, (exec_taskEnd he).trans (by rw [if_pos h0, hret]), by rw [hc]; rfl, by rw [hm, State.atDone_mem], ?_, fun l hl => ?_⟩
      · rwa [State.retired_jetton, State.atDone_jetton]
      · obtain ⟨a, ha⟩ := ha l hl
        rw [State.atDone_domainOf, State.atDone_tb, hbnd] at ha
        exact ⟨a, ha⟩
    · intro q
      obtain ⟨spill, stop, hx, hm, hk⟩ := State.retire_last (s := s.atDone core) hj
        (by simpa only [State.atDone_heldCores, State.atDone_hasRetired] using hall) (by rwa [State.atDone_jetton])
      rw [State.atDone_jetton, State.atDone_tb] at hx
      obtain ⟨hq, hend⟩ := Jetton.closed_spec { s.jetton j with spill := spill } s.tb 0 (dispatchFault .ill 0 0)
      refine ⟨_, (exec_taskEnd he).trans (by rw [if_pos h0]), by rw [hm, State.atDone_mem], by rw [hx]; rfl,
        by rw [hx]; exact Jetton.rest_state _ _ _, ?_, ⟨_, by rw [hx]; exact hend, rfl, rfl, rfl, rfl⟩, fun k hkm => ?_⟩
      · show WorkQueue.ridx ((State.jetton _ j).qs[_]) = _
        rw [hx]
        exact congrArg WorkQueue.ridx hq
      · obtain ⟨⟨hf, ho, hs⟩, hw⟩ := hk k (by rwa [State.atDone_heldCores])
        rw [State.atDone_tb] at hs
        exact ⟨hf, by rw [ho, hw, (s.atDone_getCore core k).2.2], hs⟩
    · intro next kind
      have hgr' : ((s.atDone core).jetton ((s.atDone core).getCore core).bnd.jetton).group = some g := by rwa [hj, State.atDone_jetton]
      obtain ⟨hc, hm, hnone, hsome⟩ := State.again_spec hgr' rfl (show _ = next by rw [hbnd]; rfl)
      rw [hiss, hbnd, State.atDone_disp, State.atDone_tb, againKind_eq] at hnone
      rw [hiss, State.atDone_disp] at hsome
      refine ⟨_, (exec_taskEnd he).trans (by rw [if_neg h0]), by rw [hm, State.atDone_mem], by rw [hc]; rfl,
        fun hd => ⟨?_, hnone hd⟩, fun d hd => ?_⟩
      · rw [hc]
        exact Core.between_of_running (by rwa [hiss]) _ _ _
      · obtain ⟨hst, hdr⟩ := Core.between_of_draining (c := (s.atDone core).getCore core) (by rwa [hiss]) (s.atDone core).tb next g
        rw [hc]
        exact ⟨hst, hsome d hd, _, hdr, rfl, by rw [hbnd]; exact againKind_eq _ _⟩

end Sys2Proof.Machine
end

section
namespace Sys2Proof.Machine
open Sys2Proof

/-! ### The core in view changes, and the others' registers are where they were -/

theorem State.focus_leaves (s : State) (i : Nat) : (s.focus i).mem = s.mem ∧ (s.focus i).disp = s.disp ∧ (s.focus i).cur = i := by
  by_cases h : s.cur = i
  · rw [← h, State.focus_cur]
    exact ⟨rfl, rfl, rfl⟩
  · unfold State.focus
    rw [if_neg (by simpa using h)]
    exact ⟨rfl, rfl, rfl⟩

theorem State.focus_keysRise {s : State} (h : keysRise 0 s.others) (i : Nat) : keysRise 0 (s.focus i).others := by
  unfold State.focus
  split
  · exact h
  · exact delKey_keysRise (setKey_keysRise h (Nat.zero_le _))

theorem State.focus_getCore {s : State} (h : keysRise 0 s.others) (i k : Nat) : (s.focus i).getCore k = s.getCore k := by
  by_cases hc : s.cur = i
  · rw [← hc, State.focus_cur]
  · by_cases hk : k = i
    · subst hk
      rw [← State.focus_core s k]
      exact if_pos (by simp [(s.focus_leaves k).2.2])
    · simp only [State.focus, State.getCore, beq_iff_eq, hc, if_false, Ne.symm hk,
        getKey_delKey _ i k 0 (setKey_keysRise h (Nat.zero_le _)), getKey_setKey _ s.cur k s.core 0 h]
      split <;> rfl

/-- What a change of the issue state of the core in view does to the cores. -/
theorem State.modIss_getCore (s : State) (f : Issue → Issue) (k : Nat) : (s.modIss f).getCore k =
    if k = s.cur then { s.getCore k with iss := f (s.getCore k).iss } else s.getCore k := by
  by_cases hk : k = s.cur
  · subst hk
    rw [if_pos rfl, State.getCore_cur]
    exact State.getCore_cur _
  · rw [if_neg hk]
    simp [State.getCore, Ne.symm hk]

/-! ### OVERRUN (R18, R323) -/

theorem exec_overrun {s : State} {i : Nat} (h : s.overrunDue i = true) : exec (.overrun i) s =
    .next (((s.focus i).raise ⟨.overrun, BitVec.ofNat 12 (s.getCore i).iss.pc, 0, finfo 0 0 false 0
      (if (s.getCore i).iss.wait = .none then 0 else s.tb - (s.getCore i).iss.waitAt)⟩).focus s.cur) := by
  show execOverrun i s = _
  rw [execOverrun, if_pos h]
  simp only [beq_iff_eq]

theorem State.overrunDue_live {s : State} {i : Nat} (h : s.overrunDue i = true) : (s.getCore i).iss.status.live = true := by
  unfold State.overrunDue at h
  simp only [Bool.and_eq_true] at h
  obtain ⟨⟨⟨⟨⟨-, hl⟩, -⟩, -⟩, -⟩, -⟩ := h
  exact hl

/-- A fault raised in core `i` from another: it is that core's, and nothing else changes. -/
theorem State.raise_in {s : State} {i : Nat} (hr : keysRise 0 s.others) (hl : (s.getCore i).iss.status.live = true)
    (hf : (s.getCore i).iss.fault = none) (f : FaultRec) : let t := ((s.focus i).raise f).focus s.cur
    t.mem = s.mem ∧ t.disp = s.disp ∧ ∀ k, t.getCore k =
      if k = i then { s.getCore k with iss := { (s.getCore k).iss with fault := some f } } else s.getCore k := by
  obtain ⟨hm, hd, hc⟩ := s.focus_leaves i
  have hmay : (s.focus i).mayFault := by
    unfold State.mayFault
    rw [State.focus_core]
    exact ⟨hl, hf⟩
  rw [State.raise_eq hmay]
  obtain ⟨hm', hd', -⟩ := ((s.focus i).modIss fun x => { x with fault := some f }).focus_leaves s.cur
  refine ⟨hm'.trans hm, hd'.trans hd, fun k => ?_⟩
  have hr' : keysRise 0 ((s.focus i).modIss fun x => { x with fault := some f }).others := State.focus_keysRise hr i
  rw [State.focus_getCore hr', State.modIss_getCore, hc, State.focus_getCore hr]

/-! ### Completion records (R187, R399, R401) -/

theorem State.writeRecord_ok {s u : State} {j e : Nat} {r : Ended}
    (hu : s.ioWrite (s.jetton j).world none ((s.jetton j).qs[r.queue.toNat]'r.queue.isLt).recordVa r.bytes = .ok u) :
    s.writeRecord j e r = u.finishRecord j e r := by
  rw [State.writeRecord.eq_1]
  split
  next t h =>
    rw [hu] at h
    cases h
    rfl
  next h =>
    rw [hu] at h
    cases h
  next h =>
    rw [hu] at h
    cases h

theorem exec_completionRecordWrite {s u : State} {j : Nat} {r : Ended} (hr : s.recordNext j (s.tb - 1) = some r)
    (hu : s.ioWrite (s.jetton j).world none ((s.jetton j).qs[r.queue.toNat]'r.queue.isLt).recordVa r.bytes = .ok u) :
    exec (.completionRecordWrite j) s = .next (u.finishRecord j (s.tb - 1) r) := by
  show execCompletionRecordWrite j s = _
  rw [execCompletionRecordWrite, hr, ← State.writeRecord_ok hu]

/-- The increment of a LAUNCH's semaphore, where it has one, is due after the record. -/
def State.launchDone (s : State) (world e : Nat) (p : Nat × Nat) : State :=
  if p.1 == 0 then s else s.at_ (e + 1 + semH p.1) (.launchSemaphoreIncrement p.1 world)

theorem State.launchDone_foldl (world e : Nat) (l : List (Nat × Nat)) (s : State) : ∃ ag,
    l.foldl (fun s p => s.launchDone world e p) s = { s with agenda := s.agenda ++ ag } ∧
    ∀ p ∈ l, p.1 ≠ 0 → (e + 1 + semH p.1, Instr.launchSemaphoreIncrement p.1 world) ∈ ag := by
  induction l generalizing s with
  | nil => exact ⟨[], by rw [List.append_nil]; rfl, fun p hp => nomatch hp⟩
  | cons p l ih =>
    rw [List.foldl_cons]
    obtain ⟨ag, he, hag⟩ := ih (s.launchDone world e p)
    rw [he]
    by_cases h : p.1 = 0
    · rw [State.launchDone, if_pos (by simpa using h)]
      refine ⟨ag, rfl, fun q hq hq0 => ?_⟩
      rcases List.mem_cons.mp hq with rfl | hq
      · exact absurd h hq0
      · exact hag q hq hq0
    · rw [State.launchDone, if_neg (by simpa using h)]
      refine ⟨(e + 1 + semH p.1, .launchSemaphoreIncrement p.1 world) :: ag, ?_, fun q hq hq0 => ?_⟩
      · simp only [State.at_, List.append_assoc, List.singleton_append]
      · rcases List.mem_cons.mp hq with rfl | hq
        · exact List.mem_cons_self ..
        · exact List.mem_cons_of_mem _ (hag q hq hq0)

/-- The jetton with its record written: the record waits no more, and CIDX has advanced. -/
def Jetton.recorded (x : Jetton) (r : Ended) : Jetton :=
  let q := x.qs[r.queue.toNat]'r.queue.isLt
  { x with ended := x.ended.erase r, qs := x.qs.set r.queue.toNat { q with cidx := q.cidx + 1 } r.queue.isLt }

theorem State.finishRecord_eq (s : State) (j e : Nat) (r : Ended) : s.finishRecord j e r =
    r.sem.foldl (fun t p => t.launchDone (s.jetton j).world e p) (s.setJetton j ((s.jetton j).recorded r)) := rfl

/-! ### A selection's sweep before it binds (R195, R199, R360) -/

@[simp] theorem State.setJetton_tb (s : State) (j : Nat) (x : Jetton) : (s.setJetton j x).tb = s.tb := rfl

theorem State.discardSeal_leaves (s : State) (j : Nat) : (s.discardSeal j).mem = s.mem ∧ (s.discardSeal j).tb = s.tb := by
  have hb : WindsUp (fun _ => False) s (if (s.jetton j).link == 0 then s.breakDomains j else s) := by
    split
    · exact s.breakDomains_windsUp j
    · exact .refl s
  unfold State.discardSeal
  dsimp only
  generalize (if (s.jetton j).link == 0 then s.breakDomains j else s) = t at hb ⊢
  obtain ⟨hd, -⟩ := t.dropCores_spec j t.tb
  rw [State.modJetton, State.setJetton_mem, State.setJetton_tb]
  exact ⟨hd.mem.trans hb.mem, hd.tb.trans hb.tb⟩

/-- What leaves memory and the cycle alone does so in every turn of a loop. -/
theorem State.foldl_leaves {α : Type} {f : State → α → State} (hf : ∀ s a, (f s a).mem = s.mem ∧ (f s a).tb = s.tb) (l : List α) (s : State) :
    (l.foldl f s).mem = s.mem ∧ (l.foldl f s).tb = s.tb := by
  refine List.foldlRecOn (motive := fun t => t.mem = s.mem ∧ t.tb = s.tb) l f ⟨rfl, rfl⟩ fun t ht a _ => ?_
  exact ⟨(hf t a).1.trans ht.1, (hf t a).2.trans ht.2⟩

/-- The state in which a selection binds: the scheduler is told of shapes without a placement, seals of cores out of the map are
discarded, and the scans in the way abort. -/
def State.swept (s : State) (token : Bool) : State :=
  let t := (s.newUnplaceable token).foldl (fun (t : State) j =>
    (t.modDisp fun d => { d with signalled := d.signalled ++ [j] }).say (.signal j)) s
  let t := (s.strays token).foldl (fun (t : State) j => t.discardSeal j) t
  match s.scanAborts token with
  | some (j, cs) => (cs.foldl (fun (t : State) i => t.abortScan i) t).say (.signal j)
  | none => t

theorem State.swept_leaves (s : State) (token : Bool) : (s.swept token).mem = s.mem ∧ (s.swept token).tb = s.tb := by
  unfold State.swept
  dsimp only
  have h1 := State.foldl_leaves (f := fun (t : State) j =>
    (t.modDisp fun d => { d with signalled := d.signalled ++ [j] }).say (.signal j)) (fun _ _ => ⟨rfl, rfl⟩) (s.newUnplaceable token) s
  generalize (s.newUnplaceable token).foldl (fun (t : State) j =>
    (t.modDisp fun d => { d with signalled := d.signalled ++ [j] }).say (.signal j)) s = t1 at h1 ⊢
  have h2 := State.foldl_leaves State.discardSeal_leaves (s.strays token) t1
  generalize (s.strays token).foldl (fun (t : State) j => t.discardSeal j) t1 = t2 at h2 ⊢
  obtain ⟨hm, ht⟩ : t2.mem = s.mem ∧ t2.tb = s.tb := ⟨h2.1.trans h1.1, h2.2.trans h1.2⟩
  split
  · obtain ⟨hm', ht'⟩ := State.foldl_leaves (f := fun (t : State) i => t.abortScan i) (fun _ _ => ⟨rfl, rfl⟩) _ t2
    exact ⟨hm'.trans hm, ht'.trans ht⟩
  · exact ⟨hm, ht⟩

/-- The cluster has selected in this cycle, and the signal for the jetton it binds stands no more (R191, R195). -/
def State.selecting (s : State) (token : Bool) (j : Nat) : State :=
  (s.modSelector token fun v => { v with last := some s.tb }).modDisp fun d => { d with signalled := d.signalled.filter (· != j) }

theorem exec_selection {s : State} {token : Bool} {j : Nat} {x : Jetton} {tt : Timetable} {p : List Nat} (h : s.pathIdle token = true)
    (hc : s.chosen token = some (j, x, tt, p)) : exec (.selection token) s =
      .next (let t := (s.swept token).selecting token j
        if x.state = .sealed then t.bindSealed j x p else t.bindNew j x tt p) := by
  show execSelection token s = _
  unfold execSelection
  dsimp only
  rw [h, hc, Bool.not_true, if_neg Bool.false_ne_true]
  simp only [beq_iff_eq]
  rfl

end Sys2Proof.Machine
end

section
namespace Sys2Proof.Machine
open Sys2Proof

/-! ### The cores of a bind (R182, R199, R202) -/

section
variable {α : Type} {key : α → Nat} {f : State → α → State} {P : Core → Prop}

/-- A loop that changes one core a turn leaves the memory, the dispatcher and the cycle. -/
theorem State.foldl_modCore_leaves (hf : ∀ s a, ∃ g, f s a = s.modCore (key a) g ∧ ∀ c, P (g c)) (l : List α) (s : State) :
    (l.foldl f s).mem = s.mem ∧ (l.foldl f s).disp = s.disp := by
  refine List.foldlRecOn (motive := fun t => t.mem = s.mem ∧ t.disp = s.disp) l f ⟨rfl, rfl⟩ fun t ht a _ => ?_
  obtain ⟨g, hg, -⟩ := hf t a
  rw [hg, State.modCore_mem, State.modCore_disp]
  exact ht

/-- What every turn makes of its core holds, after the loop, of each core that held it before or had a turn. -/
theorem State.foldl_modCore_holds (hf : ∀ s a, ∃ g, f s a = s.modCore (key a) g ∧ ∀ c, P (g c)) {i : Nat} (l : List α) (s : State)
    (h : P (s.getCore i) ∨ i ∈ l.map key) : P ((l.foldl f s).getCore i) := by
  induction l generalizing s with
  | nil => exact h.resolve_right List.not_mem_nil
  | cons a l ih =>
    rw [List.foldl_cons]
    obtain ⟨g, hg, hP⟩ := hf s a
    refine ih (f s a) ?_
    rw [hg]
    by_cases hi : i = key a
    · rw [hi, State.getCore_modCore_self]
      exact .inl (hP _)
    · rw [State.getCore_modCore_ne _ hi]
      exact h.imp_right fun hm => (List.mem_cons.mp hm).resolve_left hi
end

/-- The core waits for the anchor of jetton `j`, its window its world's. -/
def Core.boundTo (c : Core) (j world : Nat) : Prop :=
  c.iss.status = .bound ∧ c.sys.world = BitVec.ofNat 9 world ∧ c.bnd.jetton = j

/-- A state with other phase domains. -/
def State.withDomains (s : State) (ds : List Domain) : State := s.modDisp fun d => { d with domains := ds }

theorem State.foldl_withDomains {α : Type} {f : State → α → State} (hf : ∀ s a, ∃ ds, f s a = s.withDomains ds) (l : List α) (s : State) :
    ∃ ds, l.foldl f s = s.withDomains ds := by
  refine List.foldlRecOn (motive := fun t => ∃ ds, t = s.withDomains ds) l f ⟨s.disp.domains, rfl⟩ fun t ht a _ => ?_
  obtain ⟨ds, rfl⟩ := ht
  obtain ⟨es, he⟩ := hf (s.withDomains ds) a
  exact ⟨es, he⟩

theorem State.joinDomains_eq (s : State) (i : Nat) : ∃ ds, s.joinDomains i = s.withDomains ds := by
  refine State.foldl_withDomains (fun s l => ?_) _ s
  dsimp only
  split
  · exact ⟨s.disp.domains, rfl⟩
  · exact ⟨_, rfl⟩

theorem State.renewDomains_eq (s : State) (j : Nat) : ∃ ds, s.renewDomains j = s.withDomains ds := by
  unfold State.renewDomains
  dsimp only
  split
  · exact ⟨s.disp.domains, rfl⟩
  · refine State.foldl_withDomains (fun s l => ?_) _ s
    split
    · exact ⟨s.disp.domains, rfl⟩
    · exact ⟨_, rfl⟩

/-- The group of a READY jetton as it is bound (R182, R202). -/
def boundGroup (t : Timetable) (cores : List Nat) : Group :=
  { token := t.token, w := t.width, h := t.height, cores := cores, stages := t.stages, at_ := stagesAt t }

/-- What is said of a bind: the jetton is `x`, its cores wait for its anchor, and nothing else is said. -/
structure Binds (s t : State) (j : Nat) (x : Jetton) (cores : List Nat) : Prop where
  mem : t.mem = s.mem
  jetton : t.jetton j = x
  selector : ∀ token, t.selector token = s.selector token
  cores : ∀ i ∈ cores, (t.getCore i).boundTo j x.world

theorem Binds.withDomains {s t : State} {j : Nat} {x : Jetton} {cores : List Nat} (h : Binds s t j x cores) (ds : List Domain) :
    Binds s (t.withDomains ds) j x cores := ⟨h.mem, h.jetton, h.selector, h.cores⟩

/-- A loop over the cores that leaves each of them bound, once the jetton is set. -/
theorem Binds.of_foldl {α : Type} {key : α → Nat} {f : State → α → State} {s : State} {j : Nat} {x : Jetton} {cores : List Nat}
    (hf : ∀ s a, ∃ g, f s a = s.modCore (key a) g ∧ ∀ c, (g c).boundTo j x.world) (l : List α) (hl : l.map key = cores) :
    Binds s (l.foldl f (s.setJetton j x)) j x cores := by
  obtain ⟨hm, hd⟩ := State.foldl_modCore_leaves (P := (·.boundTo j x.world)) hf l (s.setJetton j x)
  refine ⟨hm, ?_, fun token => ?_, fun i hi => State.foldl_modCore_holds (P := (·.boundTo j x.world)) hf l _ (.inr (hl ▸ hi))⟩
  · refine Eq.trans ?_ (s.setJetton_jetton_self j x)
    unfold State.jetton
    rw [hd]
  · unfold State.selector
    rw [hd]
    rfl

theorem State.bindSealed_binds (s : State) (j : Nat) (x : Jetton) (cores : List Nat) : Binds s (s.bindSealed j x cores) j
    { x with state := .binding, anchorAt := s.tb + (if x.evicted then 3496 else 296), preempt := false, evictReq := none, evictAt := none }
    cores :=
  Binds.of_foldl (key := id) (x := { x with state := .binding, anchorAt := s.tb + (if x.evicted then 3496 else 296), preempt := false
                                            evictReq := none, evictAt := none })
    (f := fun s i => s.modCore i fun c => { c with
      owner := none, scrubEnd := none
      sys := { c.sys with world := BitVec.ofNat 9 x.world }
      bnd := { c.bnd with jetton := j }
      iss := { c.iss with status := .bound } }) (fun _ _ => ⟨_, rfl, fun _ => ⟨rfl, rfl, rfl⟩⟩) cores cores.map_id

/-- A READY jetton as it is bound (R196, R199). -/
def Jetton.boundNew (x : Jetton) (gid : BitVec 16) (g : Group) (anchor : Nat) (plane : Bool) : Jetton :=
  { x with
    state := .binding, gid := gid, group := some g, curQueue := x.nextQueue, anchorAt := anchor
    plane := plane, records := [], spill := [], evicted := false, evictReq := none, evictAt := none
    preempt := false, unended := true }

theorem State.bindCore_bound (s : State) (j : Nat) (x : Jetton) (g : Group) (logical i : Nat) :
    ∃ f, s.bindCore j x g logical i = s.modCore i f ∧ ∀ c, (f c).boundTo j x.world := by
  unfold State.bindCore
  refine ⟨_, rfl, fun _ => ?_⟩
  exact ⟨rfl, rfl, rfl⟩

/-- A READY jetton set, and its cores bound, before its domains are its own. -/
def State.bindCores (s : State) (j : Nat) (x : Jetton) (t : Timetable) (cores : List Nat) : State :=
  cores.zipIdx.foldl (fun s p => s.bindCore j x (boundGroup t cores) p.2 p.1) (s.setJetton j
    (x.boundNew s.freeGid (boundGroup t cores) (s.tb + 296) (((s.handle? x.tth).map (·.active)).getD false)))

theorem State.bindNew_eq (s : State) (j : Nat) (x : Jetton) (t : Timetable) (cores : List Nat) :
    s.bindNew j x t cores = cores.foldl (fun s i => s.joinDomains i) ((s.bindCores j x t cores).renewDomains j) := rfl

theorem State.bindNew_binds (s : State) (j : Nat) (x : Jetton) (t : Timetable) (cores : List Nat) : ∃ gid plane,
    Binds s (s.bindNew j x t cores) j (x.boundNew gid (boundGroup t cores) (s.tb + 296) plane) cores := by
  have hb : Binds s (s.bindCores j x t cores) j _ cores := Binds.of_foldl (key := Prod.fst)
    (x := x.boundNew s.freeGid (boundGroup t cores) (s.tb + 296) (((s.handle? x.tth).map (·.active)).getD false))
    (f := fun s p => s.bindCore j x (boundGroup t cores) p.2 p.1) (fun s p => s.bindCore_bound j x _ p.2 p.1) _
    (List.zipIdx_map_fst 0 cores)
  obtain ⟨ds, hd⟩ := (s.bindCores j x t cores).renewDomains_eq j
  obtain ⟨es, he⟩ := State.foldl_withDomains State.joinDomains_eq cores ((s.bindCores j x t cores).withDomains ds)
  rw [State.bindNew_eq, hd, he]
  exact ⟨_, _, (hb.withDomains ds).withDomains es⟩

end Sys2Proof.Machine
end

section
namespace Sys2Proof.Machine
open Sys2Proof

/-! ### The starvation bar (R194) -/

theorem exec_starvationBar {s : State} {token : Bool} {j c : Nat} (ht : (s.selector token).top = some (j, c))
    (hb : (s.selector token).barred = false) (hc : c + 2 ^ 18 ≤ s.tb) : exec (.starvationBar token) s =
      .next ((s.modSelector token fun v => { v with barred := true }).say (.signal j)) := by
  have hd : s.barDue token = true := by
    unfold State.barDue
    dsimp only
    rw [ht, hb]
    simpa using hc
  show execStarvationBar token s = _
  rw [execStarvationBar, ht]
  exact congrArg _ (if_pos hd)

/-- A change of one cluster's selector is that one's alone. -/
theorem State.modSelector_selector (s : State) (token : Bool) (f : Selector → Selector) :
    (s.modSelector token f).selector token = f (s.selector token) ∧
      (s.modSelector token f).selector (!token) = s.selector (!token) := by
  cases token <;> exact ⟨rfl, rfl⟩

/-! ### What a selection chooses (R193, R199) -/

/-- The chosen candidate has a placement. -/
theorem State.placement_of_chosen {s : State} {token : Bool} {j : Nat} {x : Jetton} {t : Timetable} {p : List Nat}
    (h : s.chosen token = some (j, x, t, p)) : s.placement j x t (fun _ => false) = some p := by
  unfold State.chosen at h
  dsimp only at h
  obtain ⟨⟨k, y, u⟩, -, ha⟩ := List.exists_of_findSome?_eq_some h
  obtain ⟨q, hq, he⟩ := Option.map_eq_some_iff.mp ha
  simp only [Prod.mk.injEq] at he
  obtain ⟨rfl, rfl, rfl, rfl⟩ := he
  exact hq

/-- A SEALED jetton is placed on its old cores (R199). -/
theorem State.group_of_placement {s : State} {j : Nat} {x : Jetton} {t : Timetable} {p : List Nat} (hx : x.state = .sealed)
    (h : s.placement j x t (fun _ => false) = some p) : ∃ g, x.group = some g ∧ g.cores = p := by
  unfold State.placement at h
  rw [hx] at h
  cases hg : x.group with
  | none => simp [hg] at h
  | some g =>
    simp only [hg] at h
    exact ⟨g, rfl, by grind⟩

theorem State.selecting_leaves (s : State) (token : Bool) (j : Nat) : (s.selecting token j).mem = s.mem ∧
    (s.selecting token j).tb = s.tb ∧ ((s.selecting token j).selector token).last = some s.tb := by
  cases token <;> exact ⟨rfl, rfl, rfl⟩

/-- Settles O40: the bar of R194, a selection that binds its candidate after `State.swept`, OVERRUN in another core than the one
in view, and the record with the increments that follow it. -/
theorem dispatchEvents : Obligations.DispatchEvents := by
  unfold Obligations.DispatchEvents
  intro s token hg
  refine ⟨fun j at_ ht hb hc => ?_, fun j x tt p hi hc => ?_, fun core ho hf => ?_, fun j r u hr hu => ?_⟩
  · obtain ⟨h1, h2⟩ := s.modSelector_selector token fun v => { v with barred := true }
    exact ⟨_, exec_starvationBar ht hb hc, congrArg Selector.barred h1, rfl, rfl, rfl, h2⟩
  · obtain ⟨hm, htb⟩ := s.swept_leaves token
    obtain ⟨hm', htb', hlast⟩ := (s.swept token).selecting_leaves token j
    have hx := exec_selection hi hc
    dsimp only at hx
    generalize (s.swept token).selecting token j = u at hx hm' htb' hlast
    rw [htb] at htb' hlast
    by_cases hs : x.state = .sealed
    · obtain ⟨g, hgr, hp⟩ := State.group_of_placement hs (State.placement_of_chosen hc)
      have hb := u.bindSealed_binds j x p
      rw [if_pos hs] at hx
      refine ⟨_, g, hx, by rw [hb.jetton], by rw [hb.jetton]; exact hgr, by rw [hb.selector]; exact hlast,
        hb.mem.trans (hm'.trans hm), hb.cores, fun h => ?_, fun _ => ⟨hgr, hp, by rw [hb.jetton, htb']⟩⟩
      rw [hs] at h
      exact nomatch h
    · obtain ⟨gid, plane, hb⟩ := u.bindNew_binds j x tt p
      rw [if_neg hs] at hx
      refine ⟨_, boundGroup tt p, hx, by rw [hb.jetton]; rfl, by rw [hb.jetton]; rfl, by rw [hb.selector]; exact hlast,
        hb.mem.trans (hm'.trans hm), hb.cores, fun _ => ⟨by rw [hb.jetton, htb']; rfl, rfl, rfl, rfl⟩, fun h => absurd h hs⟩
  · obtain ⟨-, ⟨hr, -⟩, -⟩ := hg
    obtain ⟨hm, hd, hk⟩ := State.raise_in hr (State.overrunDue_live ho) hf (i := core)
      ⟨.overrun, BitVec.ofNat 12 (s.getCore core).iss.pc, 0, finfo 0 0 false 0
        (if (s.getCore core).iss.wait = .none then 0 else s.tb - (s.getCore core).iss.waitAt)⟩
    exact ⟨_, exec_overrun ho, hm, hd, fun k hne => (hk k).trans (if_neg hne), (hk core).trans (if_pos rfl)⟩
  · intro q
    obtain ⟨ag, he, hag⟩ := State.launchDone_foldl (u.jetton j).world (s.tb - 1) r.sem (u.setJetton j ((u.jetton j).recorded r))
    have hx := exec_completionRecordWrite hr hu
    rw [State.finishRecord_eq, he] at hx
    have hj : State.jetton { u.setJetton j ((u.jetton j).recorded r) with
        agenda := (u.setJetton j ((u.jetton j).recorded r)).agenda ++ ag } j = (u.jetton j).recorded r := u.setJetton_jetton_self j _
    refine ⟨_, hx, rfl, by rw [hj]; rfl, ?_, fun p hp h0 => List.mem_append_right _ (hag p hp h0)⟩
    show WorkQueue.cidx ((State.jetton _ j).qs[_]) = _
    rw [hj]
    exact congrArg WorkQueue.cidx (Vector.getElem_set_self _)

end Sys2Proof.Machine
end

section
namespace Sys2Proof.Machine
open Sys2Proof

/-! ### Rows that a function column reads (R124, R125, R156) -/

/-- The state in which a column has taken the read ports of some rows. -/
def State.reading (s : State) (col : Col) (rows : List RowArg) : State :=
  s.modIss fun x => { x with ports := x.ports ++ rows.map fun r => (col, r.1.toNat) }

theorem State.reading_nil (s : State) (col : Col) : s.reading col [] = s := by simp [State.reading, State.modIss]

theorem State.reading_reading (s : State) (col : Col) (xs ys : List RowArg) :
    (s.reading col xs).reading col ys = s.reading col (xs ++ ys) := by
  simp [State.reading, State.modIss]

theorem State.bankReg_modIss (s : State) (f : Issue → Issue) (a : Nat) : (s.modIss f).bankReg a = s.bankReg a := by
  have hc (i : Nat) : ((s.modIss f).getCore i).sys = (s.getCore i).sys := by
    unfold State.getCore
    rw [State.modIss_cur]
    split <;> rfl
  unfold State.bankReg
  simp only [hc]

theorem State.rowStop_modIss (s : State) (f : Issue → Issue) (st : Stream) (a : Nat) (bytes : BitVec 128) (need : Nat)
    (fmts : Option (List Fmt)) : (s.modIss f).rowStop st a bytes need fmts = s.rowStop st a bytes need fmts := by
  have hb : (s.modIss f).bankFmt a = s.bankFmt a := by simp only [State.bankFmt, State.bankReg_modIss]
  unfold State.rowStop
  rw [hb]
  rfl

theorem Mem.firstDamage_eq_none {m : Mem} {a n : Nat} (h : ∀ k < n, m.damaged (a + k) = false) : m.firstDamage a n = none := by
  unfold Mem.firstDamage
  split
  · rfl
  · rw [List.find?_eq_none.mpr fun k hk => by simp [h k (List.mem_range.mp hk)]]
    rfl

section
variable {s : State} {st : Stream} {col : Col} {r : RowArg}

theorem State.checkRead_free (h : s.rowFree st col r) : s.checkRead st col r.1 r.2.1 r.2.2 = .ok (s.reading col [r]) := by
  obtain ⟨hstop, hlate, hport, -⟩ := h
  unfold State.checkRead
  rw [hstop, hlate]
  dsimp only
  rw [if_neg (by simpa using fun x hx hb => hport (col, x) hx rfl hb)]
  rfl

theorem State.fetchRow_sound (hsound : ∀ k < 128, s.mem.damaged (r.1.toNat + k) = false) :
    s.fetchRow r.1 r.2.1 = .ok (s.rowOf r.1 r.2.1) := by
  unfold State.fetchRow State.rowOf
  by_cases h0 : r.2.1 = 0
  · rw [if_pos (by simpa using h0), if_pos h0]
  · rw [if_neg (by simpa using h0), if_neg h0, State.fetchBytes, Mem.firstDamage_eq_none hsound]
    rfl

/-- Once a row's port is taken, the rows after it may still be read: one of its bank is the row itself. -/
theorem State.rowsFree_cons {rows : List RowArg} (h : s.rowsFree st col (r :: rows)) :
    s.rowFree st col r ∧ (s.reading col [r]).rowsFree st col rows := by
  obtain ⟨hfree, hpair⟩ := h
  obtain ⟨hbank, hrest⟩ := List.pairwise_cons.mp hpair
  refine ⟨hfree r List.mem_cons_self, fun x hx => ?_, hrest⟩
  obtain ⟨hstop, hlate, hport, hsound⟩ := hfree x (List.mem_cons_of_mem _ hx)
  refine ⟨(s.rowStop_modIss _ st _ _ _ _).trans hstop, hlate, fun p hp hc hb => ?_, hsound⟩
  rcases List.mem_append.mp hp with hp | hp
  · exact hport p hp hc hb
  · obtain rfl : p = (col, r.1.toNat) := by simpa using hp
    exact congrArg BitVec.toNat (hbank x hx hb)

end

/-! ### Bytes and lists by position -/

theorem natBits_leNat (bs : List Byte) (i : Nat) : natBits (leNat bs) (8 * i) 8 = (bs.getD i 0).toNat := by
  unfold natBits
  induction bs generalizing i with
  | nil => simp [leNat]
  | cons b r ih =>
    cases i with
    | zero =>
      have := b.isLt
      simp only [leNat, List.getD_cons_zero]
      omega
    | succ i =>
      have hd : leNat (b :: r) / 2 ^ 8 = leNat r := by
        have := b.isLt
        simp only [leNat]
        omega
      rw [List.getD_cons_succ, ← ih i, ← hd, Nat.div_div_eq_div_mul, ← pow_add]
      congr 3
      omega

theorem rowByte_rowOfBytes (bs : List Byte) {i : Nat} (h : i < 128) : rowByte (rowOfBytes bs) i = bs.getD i 0 := by
  apply BitVec.eq_of_toNat_eq
  rw [← natBits_leNat, natBits, rowByte, rowOfBytes, BitVec.extractLsb'_toNat, BitVec.toNat_ofNat, Nat.shiftRight_eq_div_pow]
  apply Nat.eq_of_testBit_eq
  intro j
  simp only [Nat.testBit_mod_two_pow, Nat.testBit_div_two_pow]
  by_cases hj : j < 8
  · have : j + 8 * i < 1024 := by omega
    simp [this]
  · simp [hj]

/-- An element of a list made of pieces of one length. -/
theorem getD_flatMap_range {g : Nat → List Nat} {n : Nat} (hg : ∀ i, (g i).length = n) {w k : Nat} (hk : k < n * w) :
    ((List.range w).flatMap g).getD k 0 = (g (k / n)).getD (k % n) 0 := by
  induction w with
  | zero => omega
  | succ w ih =>
    have hlen : ((List.range w).flatMap g).length = n * w := by simp [List.length_flatMap, hg, Nat.mul_comm]
    rw [List.range_succ, List.flatMap_append, List.flatMap_singleton]
    by_cases h : k < n * w
    · rw [List.getD_append _ _ _ _ (by omega), ih h]
    · have hq : k / n = w := Nat.div_eq_of_lt_le (by rw [Nat.mul_comm]; omega) (by rw [Nat.mul_comm]; exact hk)
      rw [List.getD_append_right _ _ _ _ (by omega), hlen, ← hq, Nat.mod_def]

/-! ### The scaled sum of MMA and MMO (R57, R59, R162) -/

theorem Fmt.mants_length (f : Fmt) (bs : List Byte) : (f.mants bs).length = 64 := by
  unfold Fmt.mants ofPlanes unpackMants
  split <;> simp

theorem mantAt_nil (k : Nat) : mantAt [] k = 0 := by simp [mantAt, rowByte]

/-- What two more planes make of each mantissa of a vector. -/
theorem mantAt_addPlanes (rows : List Row) (ms : List Nat) (c : Nat) {k : Nat} (hk : k < 256) :
    mantAt (addPlanes rows ms c) k = (mantAt rows k + natBits (ms.getD k 0) (2 * c) 2 * 2 ^ (2 * c)) % 256 := by
  have hmod : k % 128 < 128 := by omega
  have hpos : 128 * (k / 128) + k % 128 = k := Nat.div_add_mod k 128
  have hrow : (addPlanes rows ms c).getD (k / 128) 0 = rowOfBytes ((List.range 128).map fun i => BitVec.ofNat 8
      (mantAt rows (128 * (k / 128) + i) + natBits (ms.getD (128 * (k / 128) + i) 0) (2 * c) 2 * 2 ^ (2 * c))) := by
    obtain h | h : k / 128 = 0 ∨ k / 128 = 1 := by omega
    · rw [h]; rfl
    · rw [h]; rfl
  rw [mantAt, hrow, rowByte_rowOfBytes _ hmod, List.getD_eq_getElem?_getD, List.getElem?_map, List.getElem?_range hmod]
  simp only [Option.map_some, Option.getD_some, BitVec.toNat_ofNat, hpos]

theorem foldl_products (l : List Nat) (m c : Nat → Nat) (p : Nat) (a : Int) :
    ((l.map m).zip (l.map c)).foldl (fun (a : Int) x => a + signedNat p x.1 * codebook x.2) a =
      a + (l.map fun i => signedNat p (m i) * codebook (c i)).sum := by
  induction l generalizing a with
  | nil => simp
  | cons i r ih => simp only [List.map_cons, List.zip_cons_cons, List.foldl_cons, List.sum_cons, ih, add_assoc]

/-- G of R59, with its exact product as a sum. -/
theorem blockTerm_eq (frac p : Nat) (m c : Nat → Nat) (e : Byte) (s8 : Nat) (sv : W32) :
    let x : Int := ((List.range 64).map fun i => signedNat p (m i) * codebook (c i)).sum * s8
    blockTerm frac p ((List.range 64).map m) ((List.range 64).map c) e s8 sv = if s8 = 0 then none
      else some (mulF32 (BitVec.ofNat 32 (if e.toNat = 255 then fp32.nanPat
        else fp32.roundFin .rne (x < 0) x.natAbs ((e.toNat : Int) - 127 - frac - 11))) sv) := by
  have he : (e == 255) = decide (e.toNat = 255) := by
    rw [Bool.eq_iff_iff, beq_iff_eq, decide_eq_true_iff, ← BitVec.toNat_inj]
    rfl
  unfold blockTerm
  dsimp only
  rw [foldl_products, zero_add, he]
  simp only [beq_iff_eq, decide_eq_true_iff]

/-- A term of an output column and a block, where no result on its way is one of sv's. -/
theorem State.scaledTerms_getD {s : State} (frac p : Nat) (ms : List Row) (ex : Row) {n b : Nat} (hn : n < outColumns s.cur)
    (hb : b < tileBlocks s.cur) (hp : ∀ q ∈ s.core.iss.pend, ∀ j r, q.dst ≠ .sv j r) :
    let row := ((if s.core.mat.sel then s.core.mat.wl1 else s.core.mat.wl0)[n]?).getD LatchRow.reset
    ((s.scaledTerms frac p ms ex).getD n []).getD b none =
      blockTerm frac p ((List.range 64).map fun i => mantAt ms (64 * b + i))
        ((List.range 64).map fun i => natBits row.idx.toNat (4 * (64 * b + i)) 4) (rowByte ex b)
        (natBits row.codes.toNat (8 * b) 8) ((s.core.mat.sv[n]?).getD 0) := by
  unfold State.scaledTerms
  rw [List.foldl_ext _ (fun c _ => c) _ fun c q hq => ?_, List.foldl_fixed]
  · simp [List.getD_eq_getElem?_getD, hn, hb]
  · split
    · exact absurd ‹_› (hp q hq _ _)
    · rfl

/-! ### One cycle of MMA or MMO (R57, R152, R162) -/

theorem Part?.bind_of_ok {α β : Type} {m : Part? α} {y : α} (k : α → Part? β) (h : m = .ok y) : (m >>= k) = k y := by
  rw [h]
  rfl

/-- A part that runs under a condition, before another. -/
theorem Part?.ite_bind_of_ok {α β : Type} {c : Prop} [Decidable c] {m n : Part? α} {y : α} (k : α → Part? β)
    (h : (if c then m else n) = .ok y) : (if c then m >>= k else n >>= k) = k y := by
  rw [← Part?.bind_of_ok k h]
  split <;> rfl

theorem State.matRead_free {s : State} {st : Stream} {r : RowArg} (h : s.rowFree st .matrix r) :
    s.matRead st r.1 r.2.1 r.2.2 = .ok (s.reading .matrix [r], s.rowOf r.1 r.2.1) := by
  obtain ⟨-, -, -, hsound⟩ := id h
  have hf : (s.reading .matrix [r]).fetchRow r.1 r.2.1 = .ok (s.rowOf r.1 r.2.1) := State.fetchRow_sound hsound
  unfold State.matRead
  rw [State.checkRead_free h]
  show ((s.reading .matrix [r]).fetchRow r.1 r.2.1 >>= _) = _
  rw [hf]
  rfl

/-- The first of some rows is read, and the others still may be. -/
theorem State.matRead_cons {s : State} {st : Stream} {r : RowArg} {rows : List RowArg} (h : s.rowsFree st .matrix (r :: rows)) :
    s.matRead st r.1 r.2.1 r.2.2 = .ok (s.reading .matrix [r], s.rowOf r.1 r.2.1) ∧ (s.reading .matrix [r]).rowsFree st .matrix rows := by
  obtain ⟨hr, hrows⟩ := State.rowsFree_cons h
  exact ⟨State.matRead_free hr, hrows⟩

/-- The same for a row that is read under a condition, with `d` in its place where it is not. -/
theorem State.matRead_if {s : State} {st : Stream} {c : Prop} [Decidable c] {r : RowArg} {rows : List RowArg}
    (h : s.rowsFree st .matrix ((if c then [r] else []) ++ rows)) (d : Row) :
    (if c then s.matRead st r.1 r.2.1 r.2.2 else .ok (s, d)) =
        .ok (s.reading .matrix (if c then [r] else []), if c then s.rowOf r.1 r.2.1 else d) ∧
      (s.reading .matrix (if c then [r] else [])).rowsFree st .matrix rows := by
  by_cases hc : c
  · simp only [hc, if_true] at h ⊢
    exact State.matRead_cons h
  · simp only [hc, if_false, State.reading_nil] at h ⊢
    exact ⟨trivial, h⟩

/-- The format of the bank that holds the activation vector. -/
def State.mulFmt (s : State) (a : VReg) (st : Stream) : Fmt := s.bankFmt (st.field a.toNat).toNat

/-- The bytes of the vector. -/
def State.mulLen (s : State) (a : VReg) (st : Stream) : Nat := tileBlocks s.cur * (s.mulFmt a st).blockBytes

/-- The bytes of row `h` of the vector that hold the planes of this cycle. -/
def State.mulBytes (s : State) (a : VReg) (st : Stream) (h : Nat) : BitVec 128 :=
  bytesIn (planeBytes (s.mulFmt a st) (s.mulLen a st) (tileBlocks s.cur) st.cyc) h

/-- The first row of the vector, with the bank formats allowed at the declared planes. -/
def State.mulRow0 (s : State) (a : VReg) (st : Stream) : RowArg :=
  (st.field a.toNat, s.mulBytes a st 0, some (if 4 < s.core.mat.planes then [.bx8, .bxp8] else [.bx8, .bx4, .bxp8, .bxp4]))
/-- The second row of a vector of 256 bytes. -/
def State.mulRow1 (s : State) (a : VReg) (st : Stream) : RowArg :=
  (st.field (a.toNat + 1), s.mulBytes a st 1, some [s.mulFmt a st])
/-- The row of the exponents, one to a block. -/
def State.mulRowE (s : State) (e : VReg) (st : Stream) : RowArg := (st.field e.toNat, rowSpan 0 (tileBlocks s.cur), none)

/-- The rows that this cycle reads: the vector's one or two, and in the first cycle the exponents. -/
def State.mulRows (s : State) (a e : VReg) (st : Stream) : List RowArg :=
  [s.mulRow0 a st] ++ (if s.mulLen a st = 256 then [s.mulRow1 a st] else []) ++ if st.cyc = 0 then [s.mulRowE e st] else []

theorem State.mulRows_eq (s : State) (a e : VReg) (st : Stream) : s.mulRows a e st =
    s.mulRow0 a st :: ((if s.mulLen a st = 256 then [s.mulRow1 a st] else []) ++ ((if st.cyc = 0 then [s.mulRowE e st] else []) ++ [])) := by
  simp [State.mulRows]

/-- The exponents of the operation, read in its first cycle. -/
def State.mulExps (s : State) (e : VReg) (st : Stream) : Row :=
  if st.cyc = 0 then s.rowOf (st.field e.toNat) (rowSpan 0 (tileBlocks s.cur)) else st.latched.headD 0

/-- The vector's bytes as this cycle reads them. -/
def State.mulData (s : State) (a : VReg) (st : Stream) : List Byte :=
  rowBytes (s.rowOf (st.field a.toNat) (s.mulBytes a st 0)) ++
    rowBytes (if s.mulLen a st = 256 then s.rowOf (st.field (a.toNat + 1)) (s.mulBytes a st 1) else 0)

/-- The mantissas with the two planes of this cycle. -/
def State.mulMants (s : State) (a : VReg) (st : Stream) : List Row :=
  let f := s.mulFmt a st
  addPlanes (if st.cyc = 0 then [] else st.latched.drop 1)
    ((List.range (tileBlocks s.cur)).flatMap fun k => f.mants (((s.mulData a st).drop (f.blockBytes * k)).take f.blockBytes)) st.cyc

/-- The write that the last cycle sends to the accumulators. -/
def State.mulWrite (s : State) (anew : Bool) (a e : VReg) (acc : BitVec 6) (st : Stream) : AccPend where
  due := s.tb + 14
  row := accRow s.cur acc st.rho
  anew := anew
  zero := false
  terms := s.scaledTerms (blockFrac (s.mulFmt a st).mantBits) s.core.mat.planes (s.mulMants a st) (s.mulExps e st)
  parity := s.core.mat.parity.any (·.1 == s.core.mat.sel)
  pc := BitVec.ofNat 12 st.addr
  issue := st.opIssue

/-- A cycle whose rows are free reads them, keeps what it read, and in the end sends its write. -/
theorem State.mulCycle_free {s : State} {anew : Bool} {a e : VReg} {acc : BitVec 6} {st : Stream}
    (h : s.rowsFree st .matrix (s.mulRows a e st)) :
    s.mulCycle anew a e acc st = .ok (
      if st.cyc + 1 < s.core.mat.planes / 2 then s.reading .matrix (s.mulRows a e st)
      else (s.modIss fun y => { y with accPend := y.accPend ++ [s.mulWrite anew a e acc st] }).reading .matrix (s.mulRows a e st),
      { st with latched := s.mulExps e st :: s.mulMants a st }) := by
  rw [State.mulRows_eq] at h
  obtain ⟨h0, h⟩ := State.matRead_cons h
  obtain ⟨h1, h⟩ := State.matRead_if h 0
  obtain ⟨h2, -⟩ := State.matRead_if h (st.latched.headD 0)
  unfold State.mulCycle
  simp only [beq_iff_eq]
  refine (Part?.bind_of_ok _ h0).trans ?_
  refine (Part?.ite_bind_of_ok _ h1).trans ?_
  refine (Part?.ite_bind_of_ok _ h2).trans ?_
  rw [State.reading_reading, State.reading_reading]
  by_cases hc : st.cyc + 1 < s.core.mat.planes / 2
  · rw [if_pos hc, if_pos hc]; rfl
  · rw [if_neg hc, if_neg hc]; rfl

/-- A mantissa after this cycle: as before, with two planes more of the vector's. -/
theorem State.mantAt_mulMants (s : State) (a : VReg) (st : Stream) {k : Nat} (hk : k < 64 * tileBlocks s.cur) :
    let f := s.mulFmt a st
    mantAt (s.mulMants a st) k = ((if st.cyc = 0 then 0 else mantAt (st.latched.drop 1) k) +
      natBits ((f.mants (((s.mulData a st).drop (f.blockBytes * (k / 64))).take f.blockBytes)).getD (k % 64) 0) (2 * st.cyc) 2
        * 2 ^ (2 * st.cyc)) % 256 := by
  have hw : tileBlocks s.cur ≤ 4 := by unfold tileBlocks; split <;> omega
  dsimp only
  rw [State.mulMants, mantAt_addPlanes _ _ _ (by omega), getD_flatMap_range (fun _ => Fmt.mants_length _ _) hk]
  split
  · rw [mantAt_nil]
  · rfl

theorem accRow_eq (core : Nat) (acc : BitVec 6) (rho : Int) :
    accRow core acc rho = ((acc.toNat + rho) % (if isToken core then 128 else 64)).toNat := by
  unfold accRow accRows
  split <;> rfl

theorem blockFrac_eq (bits : Nat) : blockFrac bits = if bits = 4 then 2 else 6 := by
  simp only [blockFrac, beq_iff_eq]

theorem State.setStream_going {s : State} {st : Stream} (h : 0 < st.left) (col : Col) :
    s.setStream col st = s.modCol col fun c => { c with run := some st } :=
  congrArg (s.modCol col) (funext fun c => if_neg (by simpa using Nat.ne_of_gt h))

section
variable {s t : State} {st r : Stream} {stp : Stp} {n due : Nat} {f : Stream → Part? (State × Stream)}
  (hr : s.core.iss.mat.run = some st) (hf : f st = .ok (t, r))
include hr hf

theorem State.occupy_goes (h : st.cyc + 1 < n) : s.occupy stp n due f = .next (t.setStream .matrix (r.tick s.tb)) := by
  unfold State.occupy
  rw [hr]
  dsimp only
  rw [hf]
  exact if_pos h

theorem State.occupy_ends (h : ¬ st.cyc + 1 < n) : s.occupy stp n due f = .next (t.opDone .matrix r stp due) := by
  unfold State.occupy
  rw [hr]
  dsimp only
  rw [hf]
  exact if_neg h

end

/-- MMA and MMO differ in what their write starts from. -/
theorem exec_multiply (a e : VReg) (acc : BitVec 6) (ov : Bool) (stp : Stp) (s : State) :
    exec (if ov then .mmo a e acc stp else .mma a e acc stp) s =
      s.occupy stp (s.core.mat.planes / 2) (s.tb + 14) (s.mulCycle ov a e acc) := by
  cases ov <;> rfl

section
variable {s : State} {st : Stream} {a e : VReg} (hr : s.core.iss.mat.run = some st) (h : s.rowsFree st .matrix (s.mulRows a e st))
include hr h

theorem exec_multiply_goes (acc : BitVec 6) (ov : Bool) (stp : Stp) (hl : 0 < st.left) (hc : st.cyc + 1 < s.core.mat.planes / 2) :
    exec (if ov then .mmo a e acc stp else .mma a e acc stp) s = .next ((s.reading .matrix (s.mulRows a e st)).modCol .matrix fun y =>
      { y with run := some { st with latched := s.mulExps e st :: s.mulMants a st, cyc := st.cyc + 1, next := s.tb + 1 } }) := by
  rw [exec_multiply, State.occupy_goes hr (State.mulCycle_free h) hc, if_pos hc]
  refine congrArg _ (State.setStream_going ?_ .matrix)
  exact hl

theorem exec_multiply_ends (acc : BitVec 6) (ov : Bool) (stp : Stp) (hc : ¬ st.cyc + 1 < s.core.mat.planes / 2) :
    Operates s (if ov then .mmo a e acc stp else .mma a e acc stp) .matrix { st with latched := s.mulExps e st :: s.mulMants a st }
      stp (s.tb + 14) (s.mulRows a e st) (s.modIss fun y => { y with accPend := y.accPend ++ [s.mulWrite ov a e acc st] }) := by
  rw [Operates, exec_multiply, State.occupy_ends hr (State.mulCycle_free h) hc, if_neg hc]
  rfl

end

/-- Settles O28: a term of the sum by `blockTerm_eq`, and each cycle by `State.mulCycle_free`. -/
theorem matrixMultiplies : Obligations.MatrixMultiplies := by
  unfold Obligations.MatrixMultiplies
  refine ⟨fun s frac p ms ex n b hn hb hp => ?_, fun s st a e acc ov stp hr hl => ?_⟩
  · exact (State.scaledTerms_getD frac p ms ex hn hb hp).trans (blockTerm_eq frac p _ _ _ _ _)
  · intro c p w a0 f v bs i fmts rows ex data before read h
    refine ⟨s.mulMants a st, fun k hk => s.mantAt_mulMants a st hk, fun hc => exec_multiply_goes hr h acc ov stp hl hc, fun hc => ?_⟩
    have he := exec_multiply_ends hr h acc ov stp hc
    rw [State.mulWrite, accRow_eq, blockFrac_eq] at he
    exact he

end Sys2Proof.Machine
end

section
namespace Sys2Proof

/-! ### Fields of a bit vector

The widths of a form's fields add up to a number, and `simp` does not see that number as their sum. So the rules of cutting and
joining are stated of `BitVec.append`, whose widths are implicit: in what follows `simp [HAppend.hAppend, -BitVec.append_eq]` turns
`++` into it and keeps it. -/

@[simp] theorem extract_append_high {m n s l : Nat} {x : BitVec m} {y : BitVec n} (h : n ≤ s) :
    (x.append y).extractLsb' s l = x.extractLsb' (s - n) l := BitVec.extractLsb'_append_eq_of_le h

@[simp] theorem extract_append_low {m n s l : Nat} {x : BitVec m} {y : BitVec n} (h : s + l ≤ n) :
    (x.append y).extractLsb' s l = y.extractLsb' s l := BitVec.extractLsb'_append_eq_of_add_le h

@[simp] theorem extract_append_extract {n s t k l : Nat} {x : BitVec n} (h : t = s + l) :
    (x.extractLsb' t k).append (x.extractLsb' s l) = x.extractLsb' s (k + l) :=
  BitVec.extractLsb'_append_extractLsb'_eq_extractLsb' h

@[simp] theorem zero_append_extract {n s t k l : Nat} {x : BitVec n} (h : t = s + l) (hz : x.extractLsb' t k = 0#k) :
    (0#k).append (x.extractLsb' s l) = x.extractLsb' s (k + l) := hz ▸ extract_append_extract h

@[simp] theorem extract_append_zero {n t k l : Nat} {x : BitVec n} (hl : l ≤ t) (hz : x.extractLsb' (t - l) l = 0#l) :
    (x.extractLsb' t k).append 0#l = x.extractLsb' (t - l) (k + l) :=
  hz ▸ extract_append_extract (Nat.sub_add_cancel hl).symm

theorem append_eq_zero {m n : Nat} {x : BitVec m} {y : BitVec n} : x.append y = 0#(m + n) ↔ x = 0#m ∧ y = 0#n := by
  constructor
  · intro h
    have hx : (x.append y).extractLsb' n m = x := BitVec.extractLsb'_append_eq_left
    have hy : (x.append y).extractLsb' 0 n = y := BitVec.extractLsb'_append_eq_right
    exact ⟨by rw [← hx, h, BitVec.extractLsb'_zero], by rw [← hy, h, BitVec.extractLsb'_zero]⟩
  · rintro ⟨rfl, rfl⟩
    exact BitVec.zero_append_zero

@[simp] theorem zero_append_zero {m n : Nat} : (0#m).append 0#n = 0#(m + n) := BitVec.zero_append_zero

@[simp] theorem needZero_zero {n : Nat} (i : Instr) : needZero 0#n i = .ok i := if_pos rfl

@[simp] theorem needZero_eq_ok {n : Nat} {x : BitVec n} {i j : Instr} : needZero x i = .ok j ↔ x = 0#n ∧ i = j := by
  by_cases h : x = 0#n <;> simp [needZero, h]

/-- As a conditional, which `simp` meets before it meets the answer `needZero_eq_ok` speaks of. -/
@[simp] theorem needZero_append {m n : Nat} (x : BitVec m) (y : BitVec n) (i : Instr) :
    needZero (x.append y) i = if needZero x i = .ok i then needZero y i else .error .reservedField := by
  by_cases h : x = 0#m <;> simp [needZero, append_eq_zero, h, -BitVec.append_eq]

@[simp] theorem ite_error_eq_ok {c : Prop} [Decidable c] {r : Except Reject Instr} {e : Reject} {i : Instr} :
    (if c then r else .error e) = .ok i ↔ c ∧ r = .ok i := by
  by_cases h : c <;> simp [h]

/-! ### A word is what its fields make -/

theorem RForm.word_of (w : W48) : (RForm.of w).word = w := by
  simp [RForm.word, RForm.of, HAppend.hAppend, -BitVec.append_eq]

theorem IForm.word_of (w : W48) : (IForm.of w).word = w := by
  simp [IForm.word, IForm.of, HAppend.hAppend, -BitVec.append_eq]

theorem MForm.word_of (w : W48) : (MForm.of w).word = w := by
  simp [MForm.word, MForm.of, HAppend.hAppend, -BitVec.append_eq]

theorem BForm.word_of (w : W48) : (BForm.of w).word = w := by
  simp [BForm.word, BForm.of, HAppend.hAppend, -BitVec.append_eq]

theorem FForm.word_of (w : W48) : (FForm.of w).word = w := by
  simp [FForm.word, FForm.of, HAppend.hAppend, -BitVec.append_eq]

theorem LForm.word_of (w : W48) : (LForm.of w).word = w := by
  simp [LForm.word, LForm.of, HAppend.hAppend, -BitVec.append_eq]

theorem VForm.word_of (w : W48) : (VForm.of w).word = w := by
  simp [VForm.word, VForm.of, HAppend.hAppend, -BitVec.append_eq]

theorem CForm.word_of (w : W48) : (CForm.of w).word = w := by
  simp [CForm.word, CForm.of, HAppend.hAppend, -BitVec.append_eq]

theorem SForm.word_of (w : W48) : (SForm.of w).word = w := by
  simp [SForm.word, SForm.of, HAppend.hAppend, -BitVec.append_eq]

/-! ### Codes

A code is read to the value that it writes, and to no other. -/

theorem creg?_eq_some {x : BitVec 5} {c : CReg} : creg? x = some c ↔ x = c5 c := by revert x c; decide
theorem reg8?_eq_some {x : BitVec 5} {k : BitVec 3} : reg8? x = some k ↔ x = k5 k := by revert x k; decide
theorem cond?_eq_some {x : BitVec 4} {c : Cond} : cond? x = some c ↔ x = c.code := by cases c <;> revert x <;> decide
theorem kfun?_eq_some {x : BitVec 4} {f : KFun} : kfun? x = some f ↔ x = f.code := by cases f <;> revert x <;> decide
theorem size?_eq_some {x : BitVec 3} {z : Size} : size? x = some z ↔ x = z.code := by cases z <;> revert x <;> decide
theorem scope?_eq_some {x : BitVec 3} {s : Scope} : scope? x = some s ↔ x = s.code := by cases s <;> revert x <;> decide
theorem vmovForm?_eq_some {x : BitVec 2} {f : VmovForm} : vmovForm? x = some f ↔ x = f.code := by
  cases f <;> revert x <;> decide

@[simp] theorem creg?_zero : creg? 0#5 = some 0 := rfl
@[simp] theorem creg?_c5 (c : CReg) : creg? (c5 c) = some c := creg?_eq_some.mpr rfl
@[simp] theorem k5_zero : k5 0#3 = 0#5 := rfl
@[simp] theorem reg8?_zero : reg8? 0#5 = some 0 := rfl
@[simp] theorem reg8?_k5 (k : BitVec 3) : reg8? (k5 k) = some k := reg8?_eq_some.mpr rfl
@[simp] theorem cond?_code (c : Cond) : cond? c.code = some c := cond?_eq_some.mpr rfl
@[simp] theorem kfun?_code (f : KFun) : kfun? f.code = some f := kfun?_eq_some.mpr rfl
@[simp] theorem size?_code (z : Size) : size? z.code = some z := size?_eq_some.mpr rfl
@[simp] theorem scope?_code (s : Scope) : scope? s.code = some s := scope?_eq_some.mpr rfl
@[simp] theorem vmovForm?_code (f : VmovForm) : vmovForm? f.code = some f := vmovForm?_eq_some.mpr rfl

@[simp] theorem vtype_code (t : VType) : vtype t.code = t := by cases t <;> rfl
@[simp] theorem vcond_code (c : VCond) : vcond c.code = c := by cases c <;> rfl
@[simp] theorem htype_code (t : HType) : htype t.code = t := by cases t <;> rfl
@[simp] theorem blockF_code (f : BlockF) : blockF f.code = f := by cases f <;> rfl
@[simp] theorem gran_code (g : Gran) : gran g.code = g := by cases g <;> rfl
@[simp] theorem planes_code (p : Planes) : planes p.code = p := by cases p <;> rfl
@[simp] theorem flag_bit1 (x : Bool) : flag (bit1 x) = x := by cases x <;> rfl

@[simp] theorem code_vtype (x : BitVec 2) : (vtype x).code = x := by revert x; decide
@[simp] theorem code_vcond (x : BitVec 2) : (vcond x).code = x := by revert x; decide
@[simp] theorem code_htype (x : BitVec 1) : (htype x).code = x := by revert x; decide
@[simp] theorem code_blockF (x : BitVec 1) : (blockF x).code = x := by revert x; decide
@[simp] theorem code_gran (x : BitVec 1) : (gran x).code = x := by revert x; decide
@[simp] theorem code_planes (x : BitVec 2) : (planes x).code = x := by revert x; decide
@[simp] theorem bit1_flag (x : BitVec 1) : bit1 (flag x) = x := by revert x; decide

theorem timeArg?_eq_some {b : BitVec 1} {t : BitVec 21} {a : TimeArg} :
    timeArg? b t = some a ↔ b = a.absBit ∧ t = a.field := by
  have hb : b = 0 ∨ b = 1 := by revert b; decide
  cases a with
  | rel s => rcases hb with rfl | rfl <;> simp [timeArg?, TimeArg.absBit, TimeArg.field]
  | abs s =>
    have hf : t.extractLsb' 5 16 = 0 ∧ t.extractLsb' 0 5 = s ↔ t = (0#16).append s := by
      constructor
      · rintro ⟨hz, rfl⟩
        rw [zero_append_extract rfl hz, BitVec.extractLsb'_eq_self]
      · rintro rfl
        simp [-BitVec.append_eq]
    rcases hb with rfl | rfl
    · simp [timeArg?, TimeArg.absBit]
    · simpa [timeArg?, TimeArg.absBit, TimeArg.field, HAppend.hAppend, -BitVec.append_eq] using hf

@[simp] theorem timeArg?_field (t : TimeArg) : timeArg? t.absBit t.field = some t := timeArg?_eq_some.mpr ⟨rfl, rfl⟩

end Sys2Proof
end

section
namespace Sys2Proof

/-! ### The opcodes of the control words (Table 3.6) -/

theorem decode_alu (f : RForm) (h : f.op = 0x01) : decode f.word = decodeAlu f := by
  rw [decode, decodeControl, f.op_word, f.of_word, h]
  rfl

theorem decode_move (f : RForm) (h : f.op = 0x02) : decode f.word = decodeMove f := by
  rw [decode, decodeControl, f.op_word, f.of_word, h]
  rfl

theorem decode_mul (f : RForm) (h : f.op = 0x03) : decode f.word = decodeMul f := by
  rw [decode, decodeControl, f.op_word, f.of_word, h]
  rfl

theorem decode_cmp (f : RForm) (h : f.op = 0x04) : decode f.word = decodeCmp f := by
  rw [decode, decodeControl, f.op_word, f.of_word, h]
  rfl

theorem decode_kop (f : RForm) (h : f.op = 0x05) : decode f.word = decodeKop f := by
  rw [decode, decodeControl, f.op_word, f.of_word, h]
  rfl

theorem decode_cap (f : RForm) (h : f.op = 0x18) : decode f.word = decodeCap f := by
  rw [decode, decodeControl, f.op_word, f.of_word, h]
  rfl

theorem decode_system (f : RForm) (h : f.op = 0x3C) : decode f.word = decodeSystem f := by
  rw [decode, decodeControl, f.op_word, f.of_word, h]
  rfl

theorem decode_ring (f : RForm) (h : f.op = 0x48) : decode f.word = decodeRing f := by
  rw [decode, decodeControl, f.op_word, f.of_word, h]
  rfl

theorem decode_phase (f : RForm) (h : f.op = 0x4C) : decode f.word = decodePhase f := by
  rw [decode, decodeControl, f.op_word, f.of_word, h]
  rfl

theorem decode_copyCtl (f : RForm) (h : f.op = 0x59) : decode f.word = decodeCopyCtl f := by
  rw [decode, decodeControl, f.op_word, f.of_word, h]
  rfl

theorem decode_kv (f : RForm) (h : f.op = 0x5A) : decode f.word = decodeKv f := by
  rw [decode, decodeControl, f.op_word, f.of_word, h]
  rfl

theorem decode_fabric (f : RForm) (h : f.op = 0x5B) : decode f.word = decodeFabric f := by
  rw [decode, decodeControl, f.op_word, f.of_word, h]
  rfl

theorem decode_imm (f : IForm) (h : f.op = 0x08) : decode f.word = decodeImm f := by
  rw [decode, decodeControl, f.op_word, f.of_word, h]
  rfl

theorem decode_cmpi (f : IForm) (h : f.op = 0x09) : decode f.word = decodeCmpi f := by
  rw [decode, decodeControl, f.op_word, f.of_word, h]
  rfl

theorem decode_call (f : IForm) (h : f.op = 0x24) : decode f.word = decodeCall f := by
  rw [decode, decodeControl, f.op_word, f.of_word, h]
  rfl

theorem decode_loop (f : LForm) (h : f.op = 0x28) : decode f.word = decodeLoop f := by
  rw [decode, decodeControl, f.op_word, f.of_word, h]
  rfl

theorem decode_jr (f : RForm) (h : f.op = 0x22) : decode f.word = decodeJump f (.jr f.a) := by
  rw [decode, decodeControl, f.op_word, f.of_word, h]
  rfl

theorem decode_ret (f : RForm) (h : f.op = 0x25) : decode f.word = decodeJump f (.ret f.a) := by
  rw [decode, decodeControl, f.op_word, f.of_word, h]
  rfl

theorem decode_jf (f : FForm) (h : f.op = 0x23) : decode f.word = needZero f.rsv (.jf f.tag f.target) := by
  rw [decode, decodeControl, f.op_word, f.of_word, h]
  rfl

theorem decode_load (f : MForm) (h : f.op ∈ ([0x10, 0x11, 0x12, 0x13, 0x14] : List (BitVec 8))) :
    decode f.word = decodeLoad f := by
  simp only [List.mem_cons, List.not_mem_nil, or_false] at h
  rcases h with h | h | h | h | h <;> (rw [decode, decodeControl, f.op_word, f.of_word, h]; rfl)

theorem decode_branch (f : BForm) (h : f.op ∈ ([0x20, 0x21] : List (BitVec 8))) :
    decode f.word = decodeBranch f := by
  simp only [List.mem_cons, List.not_mem_nil, or_false] at h
  rcases h with h | h <;> (rw [decode, decodeControl, f.op_word, f.of_word, h]; rfl)

theorem decode_atomic (f : MForm) (h : f.op ∈ ([0x40, 0x41, 0x42, 0x43, 0x44] : List (BitVec 8))) :
    decode f.word = decodeAtomic f := by
  simp only [List.mem_cons, List.not_mem_nil, or_false] at h
  rcases h with h | h | h | h | h <;> (rw [decode, decodeControl, f.op_word, f.of_word, h]; rfl)

theorem decode_sem (f : MForm) (h : f.op ∈ ([0x49, 0x4A, 0x4B, 0x4D, 0x4E, 0x4F] : List (BitVec 8))) :
    decode f.word = decodeSem f := by
  simp only [List.mem_cons, List.not_mem_nil, or_false] at h
  rcases h with h | h | h | h | h | h <;> (rw [decode, decodeControl, f.op_word, f.of_word, h]; rfl)

theorem decode_command (f : CForm) (h : f.op ∈
    ([0x50, 0x51, 0x52, 0x53, 0x54, 0x55, 0x56, 0x57, 0x58, 0x5C, 0x5D, 0x5E, 0x5F] : List (BitVec 8))) :
    decode f.word = decodeCommand f := by
  simp only [List.mem_cons, List.not_mem_nil, or_false] at h
  rcases h with h | h | h | h | h | h | h | h | h | h | h | h | h <;> (rw [decode, decodeControl, f.op_word, f.of_word, h]; rfl)

end Sys2Proof
end

section
namespace Sys2Proof

theorem VForm.op_word (f : VForm) : f.word.extractLsb' 40 8 = f.code.append (f.addr.extractLsb' 6 2) := by
  have h : ∀ w : W48, ((VForm.of w).addr).extractLsb' 6 2 = w.extractLsb' 40 2 := fun w => by
    apply BitVec.eq_of_getLsbD_eq
    intro i hi
    simp only [VForm.of, BitVec.getLsbD_extractLsb', hi, show 6 + i < 8 by omega, decide_true, Bool.true_and, ← Nat.add_assoc]
  conv_rhs => rw [← f.of_word, h]
  exact (extract_append_extract (k := 6) (l := 2) rfl).symm

/-- The launches have the opcodes 0x30 to 0x3B: a code, and any two upper bits of the block's address. -/
theorem decode_launch {f : VForm} (h : f.code = 0b001100 ∨ f.code = 0b001101 ∨ f.code = 0b001110) :
    decode f.word = decodeLaunch f := by
  have hx : ∀ x : BitVec 2, x = 0 ∨ x = 1 ∨ x = 2 ∨ x = 3 := by decide
  have hop := f.op_word
  rcases h with h | h | h <;> rcases hx (f.addr.extractLsb' 6 2) with hx | hx | hx | hx <;> rw [h, hx] at hop <;>
    simp [decode, decodeControl, hop, f.of_word]

theorem decode_stream {f : SForm} (h : 0x80 ≤ f.op.toNat) : decode f.word = decodeStream f := by
  rw [decode, f.op_word, f.of_word, if_neg (Nat.not_lt.mpr h)]

/-! ### The operand field of a stream word -/

section
variable {op : BitVec 8} {d a b : BitVec 5} {m : Bool} {ty : VType} {x : BitVec 16} {st : Stp}

@[simp] theorem SForm.st_mk : (SForm.mk op x st.step st.rep).st = st := rfl

@[simp] theorem SForm.d_opABC : (SForm.mk op (opABC d a b m) st.step st.rep).d = d := by
  simp [SForm.d, opABC, HAppend.hAppend, -BitVec.append_eq]

@[simp] theorem SForm.a_opABC : (SForm.mk op (opABC d a b m) st.step st.rep).a = a := by
  simp [SForm.a, opABC, HAppend.hAppend, -BitVec.append_eq]

@[simp] theorem SForm.b_opABC : (SForm.mk op (opABC d a b m) st.step st.rep).b = b := by
  simp [SForm.b, opABC, HAppend.hAppend, -BitVec.append_eq]

@[simp] theorem SForm.m_opABC : (SForm.mk op (opABC d a b m) st.step st.rep).m = m := by
  simp [SForm.m, opABC, HAppend.hAppend, -BitVec.append_eq]

@[simp] theorem SForm.d_opU : (SForm.mk op (opU d a ty m) st.step st.rep).d = d := by
  simp [SForm.d, opU, HAppend.hAppend, -BitVec.append_eq]

@[simp] theorem SForm.a_opU : (SForm.mk op (opU d a ty m) st.step st.rep).a = a := by
  simp [SForm.a, opU, HAppend.hAppend, -BitVec.append_eq]

@[simp] theorem SForm.m_opU : (SForm.mk op (opU d a ty m) st.step st.rep).m = m := by
  simp [SForm.m, opU, HAppend.hAppend, -BitVec.append_eq]

@[simp] theorem extract_opU_type : (opU d a ty m).extractLsb' 1 2 = ty.code := by
  simp [opU, HAppend.hAppend, -BitVec.append_eq]

@[simp] theorem extract_opU_zero : (opU d a ty m).extractLsb' 3 3 = 0 := by
  simp [opU, HAppend.hAppend, -BitVec.append_eq]

end

@[simp] theorem extract_opTy_type (hi : BitVec 6) (ty : VType) : (opTy hi ty).extractLsb' 0 2 = ty.code := by
  simp [opTy, HAppend.hAppend, -BitVec.append_eq]

@[simp] theorem extract_opTy_high (hi : BitVec 6) (ty : VType) : (opTy hi ty).extractLsb' 2 6 = hi := by
  simp [opTy, HAppend.hAppend, -BitVec.append_eq]

/-- The typed opcodes are 0x80 to 0x9F. -/
theorem decode_typed {hi : BitVec 6} {ty : VType} {o : BitVec 16} {s r : BitVec 12} (h : hi.toNat / 8 = 4) :
    decode (SForm.word ⟨opTy hi ty, o, s, r⟩) = decodeTyped ⟨opTy hi ty, o, s, r⟩ := by
  have hop : (opTy hi ty).toNat / 32 = 4 := by
    revert hi
    cases ty <;> decide
  rw [decode_stream (show 128 ≤ (opTy hi ty).toNat by omega), decodeStream, if_pos (show (opTy hi ty).toNat < 160 by omega)]

/-! ### An encoded instruction decodes to itself -/

theorem isSome_encode (i : Instr) : (encode i).isSome = i.isWord := by
  cases i with
  | ctst kd ca cb => cases cb <;> rfl
  | _ => rfl

theorem decode_of_encode {i : Instr} {w : W48} (hwf : i.wf = true) (h : encode i = some w) : decode w = .ok i := by
  cases i with
  | nop => cases h; rfl
  | add | sub | and | or | xor | andn | shl | shrl | shra | rotl | min | max | minu | maxu =>
    cases h
    simp [decode_alu, decodeAlu]
  | addi | andi | ori | xori | shli | shrli | shrai | movi | movhi =>
    cases h
    simp [decode_imm, decodeImm, HAppend.hAppend, -BitVec.append_eq]
  | mov | clz | ctz | popc | sext | bfx | bfi | sel | mort | umort =>
    cases h
    simp [decode_move, decodeMove, HAppend.hAppend, -BitVec.append_eq]
  | mul | mulhs | mulhu | divs | divu | rems | remu =>
    cases h
    simp [decode_mul, decodeMul]
  | cmp =>
    cases h
    simp [decode_cmp, decodeCmp]
  | cmpi =>
    cases h
    simp [decode_cmpi, decodeCmpi, HAppend.hAppend, -BitVec.append_eq]
  | kop kd ka kb op =>
    cases h
    by_cases hop : op = .not
    · obtain rfl : kb = 0 := by simpa [Instr.wf, hop] using hwf
      simp [decode_kop, decodeKop, hop]
    · simp [decode_kop, decodeKop, hop]
  | ld | lds | st | ldc | stc =>
    cases h
    simp [decode_load, decodeLoad]
  | ctst kd ca cb =>
    cases cb <;> cases h <;> simp [decode_cap, decodeCap]
  | cbnd | cperm | cadd | cset | cget | cseal | cunsl =>
    cases h
    simp [decode_cap, decodeCap, HAppend.hAppend, -BitVec.append_eq]
  | b | j =>
    cases h
    simp [decode_branch, decodeBranch]
  | jr =>
    cases h
    simp [decode_jr, decodeJump]
  | ret =>
    cases h
    simp [decode_ret, decodeJump]
  | jf =>
    cases h
    simp [decode_jf]
  | call =>
    cases h
    simp [decode_call, decodeCall]
  | loop | loopr =>
    cases h
    simp [decode_loop, decodeLoop]
  | vrun | mrun | trun =>
    cases h
    simp only [Instr.wf] at hwf
    simp [decode_launch, decodeLaunch, hwf]
  | done | trap | svc | eret | srd | swr | time | bkpt =>
    cases h
    simp [decode_system, decodeSystem, HAppend.hAppend, -BitVec.append_eq]
  | aadd | axch | acas | ald | ast =>
    cases h
    simp only [Instr.wf, bne_iff_ne, ne_eq, BitVec.ofNat_eq_ofNat] at hwf
    simp [decode_atomic, decodeAtomic, HAppend.hAppend, -BitVec.append_eq, hwf]
  | rinit | rclm | rwfl | rwfr | rpub | rrel | rstat =>
    cases h
    simp only [Instr.wf, bne_iff_ne, ne_eq, BitVec.ofNat_eq_ofNat] at hwf
    simp [decode_ring, decodeRing, needCount, HAppend.hAppend, -BitVec.append_eq, hwf]
  | swaitConsume _ _ u =>
    cases h
    cases u <;> simp [decode_sem, decodeSem, cond?]
  | ssig | sset | swait | rel | acq | carry =>
    cases h
    simp [decode_sem, decodeSem]
  | parv | pwait | pbar | fence | wev =>
    cases h
    simp only [Instr.wf, decide_eq_true_iff] at hwf
    simp [decode_phase, decodePhase, HAppend.hAppend, -BitVec.append_eq, hwf]
  | cpy | cpys | cpyz | cpyc | cpyg | cpym | cpya | cpyx | cfch | xar | xag | xrs | xata =>
    cases h
    simp [decode_command, decodeCommand]
  | cwm | ccan | cstat =>
    cases h
    simp [decode_copyCtl, decodeCopyCtl, HAppend.hAppend, -BitVec.append_eq]
  | kvhs | kvlk | kvin | kvap | kvrl | kvex | kvim | wseg | wprf =>
    cases h
    simp [decode_kv, decodeKv, HAppend.hAppend, -BitVec.append_eq]
  | xseq | xbar | xcan | xwait =>
    cases h
    simp [decode_fabric, decodeFabric, HAppend.hAppend, -BitVec.append_eq]
  | vadd | vsub | vmul | vfma | vfms | vmax | vmin =>
    cases h
    simp [decode_typed, decodeTyped]
  | vcmp =>
    cases h
    simp [decode_typed, decodeTyped, SForm.a, SForm.b, SForm.m, HAppend.hAppend, -BitVec.append_eq]
  | vand | vor | vxor | vshl | vshr | vsra =>
    cases h
    simp [decode_stream, decodeStream, decodeVector]
  | vabs | vneg | vrsum | vrmax =>
    cases h
    simp [decode_stream, decodeStream, decodeVector, decodeUnary]
  | vrcp | vrsq | vexp2 | vlg2 =>
    cases h
    simp only [Instr.wf] at hwf
    simp [decode_stream, decodeStream, decodeVector, decodeFunc, decodeUnary, hwf]
  | vld | vst | vldb | vldx | vstx | vsel | vbmax | vqsc | vshuf | viota | vbcst | vdfr | vdfd | vdfn | vnop =>
    cases h
    simp [decode_stream, decodeStream, decodeVector, SForm.d, SForm.a, SForm.b, SForm.m, HAppend.hAppend, -BitVec.append_eq]
  | vmov =>
    cases h
    simp [decode_stream, decodeStream, decodeVector, decodeVmov, SForm.d, SForm.a, SForm.m,
      HAppend.hAppend, -BitVec.append_eq, hwf]
  | vcvt | vqcvt =>
    cases h
    simp [decode_stream, decodeStream, decodeVector, SForm.d, SForm.a, SForm.m,
      HAppend.hAppend, -BitVec.append_eq, hwf]
  | tld =>
    cases h
    simp [decode_stream, decodeStream, decodeTable, HAppend.hAppend, -BitVec.append_eq]
  | tseg | tint | tqad | tclmp =>
    cases h
    simp only [Instr.wf] at hwf
    simp [decode_stream, decodeStream, decodeTable, decodeTabOp, SForm.d, SForm.a, HAppend.hAppend, -BitVec.append_eq, hwf]
  | mcfg | mwld | mwsw | mma | mmo | mdrn | mzro | mscl | mnop =>
    cases h
    simp [decode_stream, decodeStream, decodeMatrix, SForm.d, SForm.a, HAppend.hAppend, -BitVec.append_eq]
  | _ => nomatch h

end Sys2Proof
end

section
namespace Sys2Proof

/-! ### A word that decodes is the word of what it decodes to

`Codes` is the second statement for one answer of the decoder; each group of opcodes has it by the form that its words have. -/

/-- Every instruction that the answer can be is well formed and has the word `w`. -/
def Codes (r : Except Reject Instr) (w : W48) : Prop := ∀ i, r = .ok i → i.wf = true ∧ encode i = some w

theorem Codes.error {e : Reject} {w : W48} : Codes (.error e) w := by
  intro i h
  cases h

section
variable {F : Type} {word : F → W48} {f g : F} {i : Instr}

theorem Codes.ok (hwf : i.wf = true) (he : encode i = some (word g)) (h : g = f) : Codes (.ok i) (word f) := by
  rintro _ ⟨⟩
  exact ⟨hwf, h ▸ he⟩

theorem Codes.needZero {n : Nat} {x : BitVec n} (hwf : i.wf = true) (he : encode i = some (word g))
    (h : needZero x i = .ok i → g = f) : Codes (needZero x i) (word f) := by
  intro j hj
  obtain ⟨-, rfl⟩ := needZero_eq_ok.mp hj
  exact ⟨hwf, h hj ▸ he⟩

theorem Codes.ite {c : Prop} [Decidable c] {r s : Except Reject Instr} {w : W48} (hr : c → Codes r w)
    (hs : ¬ c → Codes s w) : Codes (if c then r else s) w := by
  split <;> simp_all

end

theorem k5_eq_zero {k : BitVec 3} : k5 k = 0#5 ↔ k = 0 := by revert k; decide

theorem eq_one_of_ne_zero {x : BitVec 1} (h : x ≠ 0) : x = 1 := by revert x; decide

theorem decodeAlu_codes {f : RForm} (h : f.op = 0x01) : Codes (decodeAlu f) f.word := by
  obtain ⟨op, d, a, b, fn, ext⟩ := f
  obtain rfl : op = 0x01 := h
  unfold decodeAlu
  dsimp only
  split
  case h_15 => exact .error
  all_goals
    refine .needZero rfl rfl ?_
    simp +contextual

theorem decodeMove_codes {f : RForm} (h : f.op = 0x02) : Codes (decodeMove f) f.word := by
  obtain ⟨op, d, a, b, fn, ext⟩ := f
  obtain rfl : op = 0x02 := h
  unfold decodeMove
  dsimp only
  split
  case h_11 => exact .error
  all_goals
    refine .needZero rfl rfl ?_
    simp +contextual [HAppend.hAppend, -BitVec.append_eq]

theorem decodeMul_codes {f : RForm} (h : f.op = 0x03) : Codes (decodeMul f) f.word := by
  obtain ⟨op, d, a, b, fn, ext⟩ := f
  obtain rfl : op = 0x03 := h
  unfold decodeMul
  dsimp only
  split
  case h_8 => exact .error
  all_goals
    refine .needZero rfl rfl ?_
    simp +contextual

theorem decodeCmp_codes {f : RForm} (h : f.op = 0x04) : Codes (decodeCmp f) f.word := by
  obtain ⟨op, d, a, b, fn, ext⟩ := f
  obtain rfl : op = 0x04 := h
  unfold decodeCmp
  dsimp only
  split
  case h_1 k c hk hc =>
    obtain rfl := reg8?_eq_some.mp hk
    obtain rfl := cond?_eq_some.mp hc
    refine .needZero rfl rfl ?_
    simp +contextual
  all_goals exact .error

theorem decodeKop_codes {f : RForm} (h : f.op = 0x05) : Codes (decodeKop f) f.word := by
  obtain ⟨op, d, a, b, fn, ext⟩ := f
  obtain rfl : op = 0x05 := h
  unfold decodeKop
  dsimp only
  split
  case h_1 kd ka kb f hd ha hb hf =>
    obtain rfl := reg8?_eq_some.mp hd
    obtain rfl := reg8?_eq_some.mp ha
    obtain rfl := reg8?_eq_some.mp hb
    obtain rfl := kfun?_eq_some.mp hf
    refine .ite (fun hn => ?_) (fun hn => ?_)
    · by_cases hk : kb = 0#3
      · refine .needZero (by simp [Instr.wf, hk]) rfl ?_
        simp +contextual [hk, HAppend.hAppend, -BitVec.append_eq]
      · intro i hi
        simp [hk, k5_eq_zero, HAppend.hAppend, -BitVec.append_eq] at hi
    · refine .needZero (by simp [Instr.wf, hn]) rfl ?_
      simp +contextual
  all_goals exact .error

theorem decodeCap_codes {f : RForm} (h : f.op = 0x18) : Codes (decodeCap f) f.word := by
  obtain ⟨op, d, a, b, fn, ext⟩ := f
  obtain rfl : op = 0x18 := h
  unfold decodeCap
  dsimp only
  split
  case h_9 => exact .error
  case h_8 =>
    split
    case h_2 => exact .error
    case h_1 k ca cb hk ha hb =>
      obtain rfl := reg8?_eq_some.mp hk
      obtain rfl := creg?_eq_some.mp ha
      obtain rfl := creg?_eq_some.mp hb
      refine .ite (fun h => ?_) (fun h => ?_)
      · refine .needZero rfl rfl ?_
        simp +contextual [HAppend.hAppend, -BitVec.append_eq]
      · refine .needZero rfl rfl fun he => ?_
        have hbit : ext.extractLsb' 0 1 = 1 := eq_one_of_ne_zero h
        have hext : (ext.extractLsb' 1 20).append (ext.extractLsb' 0 1) = ext := by simp [-BitVec.append_eq]
        rw [(needZero_eq_ok.mp he).1, hbit] at hext
        rw [← hext]
        rfl
  all_goals
    split
    case h_2 => exact .error
    simp only [creg?_eq_some] at *
    subst_vars
    refine .needZero rfl rfl ?_
    simp +contextual [HAppend.hAppend, -BitVec.append_eq]

theorem decodeSystem_codes {f : RForm} (h : f.op = 0x3C) : Codes (decodeSystem f) f.word := by
  obtain ⟨op, d, a, b, fn, ext⟩ := f
  obtain rfl : op = 0x3C := h
  unfold decodeSystem
  dsimp only
  split
  case h_9 => exact .error
  all_goals
    refine .needZero rfl rfl ?_
    simp +contextual [HAppend.hAppend, -BitVec.append_eq]

theorem decodeCopyCtl_codes {f : RForm} (h : f.op = 0x59) : Codes (decodeCopyCtl f) f.word := by
  obtain ⟨op, d, a, b, fn, ext⟩ := f
  obtain rfl : op = 0x59 := h
  unfold decodeCopyCtl
  dsimp only
  split
  case h_4 => exact .error
  all_goals
    refine .needZero rfl rfl ?_
    simp +contextual [HAppend.hAppend, -BitVec.append_eq]

theorem decodeFabric_codes {f : RForm} (h : f.op = 0x5B) : Codes (decodeFabric f) f.word := by
  obtain ⟨op, d, a, b, fn, ext⟩ := f
  obtain rfl : op = 0x5B := h
  unfold decodeFabric
  dsimp only
  split
  case h_5 => exact .error
  all_goals
    refine .needZero rfl rfl ?_
    simp +contextual [HAppend.hAppend, -BitVec.append_eq]

theorem decodeKv_codes {f : RForm} (h : f.op = 0x5A) : Codes (decodeKv f) f.word := by
  obtain ⟨op, d, a, b, fn, ext⟩ := f
  obtain rfl : op = 0x5A := h
  unfold decodeKv
  dsimp only
  split
  case h_2 => exact .error
  case h_1 ca cb ha hb =>
    obtain rfl := creg?_eq_some.mp ha
    obtain rfl := creg?_eq_some.mp hb
    split
    case h_10 => exact .error
    all_goals
      refine .needZero rfl rfl ?_
      simp +contextual [HAppend.hAppend, -BitVec.append_eq]

theorem decodeRing_codes {f : RForm} (h : f.op = 0x48) : Codes (decodeRing f) f.word := by
  obtain ⟨op, d, a, b, fn, ext⟩ := f
  obtain rfl : op = 0x48 := h
  unfold decodeRing
  dsimp only
  split
  case h_8 => exact .error
  case h_1 =>
    refine .needZero rfl rfl ?_
    simp +contextual [HAppend.hAppend, -BitVec.append_eq]
  case h_7 =>
    split
    case h_2 => exact .error
    case h_1 c hc =>
      obtain rfl := creg?_eq_some.mp hc
      refine .needZero rfl rfl ?_
      simp +contextual [HAppend.hAppend, -BitVec.append_eq]
  case h_5 | h_6 =>
    split
    case h_2 => exact .error
    case h_1 c hc =>
      obtain rfl := creg?_eq_some.mp hc
      refine .ite (fun hb => ?_) fun _ => .error
      obtain ⟨rfl, rfl⟩ := append_eq_zero.mp hb
      refine .ite (fun _ => .error) fun hn => ?_
      refine .needZero (by simpa [Instr.wf] using hn) rfl ?_
      simp +contextual [HAppend.hAppend, -BitVec.append_eq]
  all_goals
    split
    case h_2 => exact .error
    case h_1 c hc =>
      obtain rfl := creg?_eq_some.mp hc
      refine .ite (fun hb => ?_) fun _ => .error
      refine .ite (fun _ => .error) fun hn => ?_
      refine .needZero (by simpa [Instr.wf] using hn) rfl ?_
      simp +contextual [hb, HAppend.hAppend, -BitVec.append_eq]

theorem decodePhase_codes {f : RForm} (h : f.op = 0x4C) : Codes (decodePhase f) f.word := by
  obtain ⟨op, d, a, b, fn, ext⟩ := f
  obtain rfl : op = 0x4C := h
  unfold decodePhase
  dsimp only
  split
  case h_6 => exact .error
  case h_5 =>
    refine .needZero rfl rfl ?_
    simp +contextual [HAppend.hAppend, -BitVec.append_eq]
  case h_4 =>
    split
    case h_2 => exact .error
    case h_1 s hs =>
    refine .needZero rfl rfl ?_
    simp +contextual [← scope?_eq_some.mp hs, HAppend.hAppend, -BitVec.append_eq]
  all_goals
    refine .ite (fun hl => ?_) fun _ => .error
    refine .needZero (by simpa [Instr.wf] using hl) rfl ?_
    simp +contextual [HAppend.hAppend, -BitVec.append_eq]

theorem decodeJump_codes {f : RForm} {op : BitVec 8} {i : Instr} (h : f.op = op) (hwf : i.wf = true)
    (he : encode i = encR op 0 0 f.a 0 0) : Codes (decodeJump f i) f.word := by
  obtain ⟨_, d, a, b, fn, ext⟩ := f
  subst h
  refine .ite (fun hf => ?_) fun _ => .error
  refine .needZero hwf he ?_
  simp +contextual [show fn = 0 from hf, HAppend.hAppend, -BitVec.append_eq]

theorem decodeCall_codes {f : IForm} (h : f.op = 0x24) : Codes (decodeCall f) f.word := by
  obtain ⟨op, d, a, fn, imm⟩ := f
  obtain rfl : op = 0x24 := h
  refine .ite (fun hf => ?_) fun _ => .error
  refine .needZero rfl rfl ?_
  simp +contextual [show fn = 0 from hf]

theorem decodeImm_codes {f : IForm} (h : f.op = 0x08) : Codes (decodeImm f) f.word := by
  obtain ⟨op, d, a, fn, imm⟩ := f
  obtain rfl : op = 0x08 := h
  unfold decodeImm
  dsimp only
  split
  case h_10 => exact .error
  case h_5 | h_6 | h_7 | h_8 | h_9 =>
    refine .needZero rfl rfl ?_
    simp +contextual [HAppend.hAppend, -BitVec.append_eq]
  all_goals exact .ok rfl rfl rfl

theorem decodeCmpi_codes {f : IForm} (h : f.op = 0x09) : Codes (decodeCmpi f) f.word := by
  obtain ⟨op, d, a, fn, imm⟩ := f
  obtain rfl : op = 0x09 := h
  unfold decodeCmpi
  dsimp only
  split
  case h_1 k c hk hc =>
    obtain rfl := reg8?_eq_some.mp hk
    refine .needZero rfl rfl ?_
    simp +contextual [← cond?_eq_some.mp hc, HAppend.hAppend, -BitVec.append_eq]
  all_goals exact .error

theorem decodeLoad_codes {f : MForm} : Codes (decodeLoad f) f.word := by
  obtain ⟨op, d, c, size, flags, off⟩ := f
  unfold decodeLoad
  dsimp only
  split
  case h_6 => exact .error
  case h_4 | h_5 =>
    split
    case h_2 => exact .error
    case h_1 cd hd =>
      obtain rfl := creg?_eq_some.mp hd
      refine .ite (fun hs => ?_) fun _ => .error
      refine .needZero rfl rfl ?_
      simp +contextual [hs]
  all_goals
    split
    case h_2 => exact .error
    case h_1 z hz =>
      obtain rfl := size?_eq_some.mp hz
      refine .needZero rfl rfl ?_
      simp +contextual

theorem decodeAtomic_codes {f : MForm} : Codes (decodeAtomic f) f.word := by
  obtain ⟨op, d, c, size, flags, off⟩ := f
  unfold decodeAtomic
  dsimp only
  refine .ite (fun hs => ?_) fun _ => .error
  split
  case h_6 => exact .error
  case h_3 =>
    refine .ite (fun _ => .error) fun hd => ?_
    refine .needZero (by simpa [Instr.wf] using hd) rfl ?_
    simp +contextual [hs]
  all_goals
    refine .needZero rfl rfl ?_
    simp +contextual [hs, HAppend.hAppend, -BitVec.append_eq]

theorem decodeSem_codes {f : MForm} : Codes (decodeSem f) f.word := by
  obtain ⟨op, d, c, size, flags, off⟩ := f
  unfold decodeSem
  dsimp only
  split
  case h_7 => exact .error
  case h_2 =>
    refine .needZero rfl rfl ?_
    simp +contextual [HAppend.hAppend, -BitVec.append_eq]
  case h_3 =>
    split
    case h_2 => exact .error
    case h_1 c hc =>
      obtain rfl := cond?_eq_some.mp hc
      refine .ite (fun hs => .ok rfl rfl ?_) fun _ => ?_
      · simp [hs]
      refine .ite (fun hs => ?_) fun _ => .error
      split
      case h_3 => exact .error
      all_goals
        refine .ok rfl rfl ?_
        simp [hs, Cond.code]
  case h_5 =>
    split
    case h_2 => exact .error
    case h_1 s c hs hc =>
      obtain rfl := scope?_eq_some.mp hs
      obtain rfl := cond?_eq_some.mp hc
      exact .ok rfl rfl rfl
  case h_6 =>
    refine .ite (fun hs => ?_) fun _ => .error
    refine .needZero rfl rfl ?_
    simp +contextual [hs]
  all_goals
    split
    case h_2 => exact .error
    case h_1 s hs =>
      obtain rfl := scope?_eq_some.mp hs
      refine .needZero rfl rfl ?_
      simp +contextual

theorem decodeBranch_codes {f : BForm} : Codes (decodeBranch f) f.word := by
  obtain ⟨op, pred, sense, rsv, off⟩ := f
  unfold decodeBranch
  dsimp only
  split
  case h_3 => exact .error
  all_goals
    refine .needZero rfl rfl ?_
    simp +contextual [HAppend.hAppend, -BitVec.append_eq]

theorem decodeJf_codes {f : FForm} (h : f.op = 0x23) : Codes (needZero f.rsv (.jf f.tag f.target)) f.word := by
  obtain ⟨op, tag, rsv, target⟩ := f
  obtain rfl : op = 0x23 := h
  refine .needZero rfl rfl ?_
  simp +contextual

theorem decodeLoop_codes {f : LForm} (h : f.op = 0x28) : Codes (decodeLoop f) f.word := by
  obtain ⟨op, lvl, isReg, count, off⟩ := f
  obtain rfl : op = 0x28 := h
  refine .ite (fun hr => .ok rfl rfl ?_) fun hr => .ok rfl rfl ?_
  · simp [show isReg = 0 from hr]
  · simp [show isReg = 1 from eq_one_of_ne_zero hr]

theorem decodeLaunch_codes {f : VForm} : Codes (decodeLaunch f) f.word := by
  obtain ⟨code, addr, cnt, c, isAbs, time⟩ := f
  unfold decodeLaunch
  dsimp only
  split
  case h_1 => exact .error
  case h_2 t ht =>
    obtain ⟨rfl, rfl⟩ := timeArg?_eq_some.mp ht
    refine .ite (fun hf => ?_) fun _ => .error
    split
    case h_4 => exact .error
    all_goals exact .ok hf rfl rfl

theorem decodeCommand_codes {f : CForm} : Codes (decodeCommand f) f.word := by
  obtain ⟨op, a, b, len, card, isAbs, time⟩ := f
  unfold decodeCommand
  dsimp only
  split
  case h_1 => exact .error
  case h_2 t ht =>
    obtain ⟨rfl, rfl⟩ := timeArg?_eq_some.mp ht
    split
    case h_14 => exact .error
    case h_9 =>
      refine .needZero rfl rfl ?_
      simp +contextual
    all_goals exact .ok rfl rfl rfl

end Sys2Proof
end

section
namespace Sys2Proof

/-! ### The operand field of a stream word, read -/

theorem opTy_vtype {op : BitVec 8} {hi : BitVec 6} (h : op.extractLsb' 2 6 = hi) : opTy hi (vtype (op.extractLsb' 0 2)) = op := by
  simp [opTy, ← h, HAppend.hAppend, -BitVec.append_eq]

theorem opABC_fields (f : SForm) : opABC f.d f.a f.b f.m = f.opnd := by
  simp [opABC, SForm.d, SForm.a, SForm.b, SForm.m, HAppend.hAppend, -BitVec.append_eq]

theorem opU_fields {f : SForm} (h : f.opnd.extractLsb' 3 3 = 0) : opU f.d f.a (vtype (f.opnd.extractLsb' 1 2)) f.m = f.opnd := by
  have h' : f.opnd.extractLsb' 3 3 = 0#3 := h
  simp [opU, SForm.d, SForm.a, SForm.m, h', HAppend.hAppend, -BitVec.append_eq]

theorem decodeTyped_codes {f : SForm} : Codes (decodeTyped f) f.word := by
  unfold decodeTyped
  dsimp only
  split
  case h_9 => exact .error
  case h_8 h =>
    refine .ok rfl rfl ?_
    simp [opTy_vtype h, SForm.a, SForm.b, SForm.m, SForm.st, HAppend.hAppend, -BitVec.append_eq]
  all_goals
    next h =>
    refine .ok rfl rfl ?_
    simp [opTy_vtype h, opABC_fields, SForm.st]

theorem decodeUnary_codes {f : SForm} {mk : VType → Instr} (hwf : (mk (vtype (f.opnd.extractLsb' 1 2))).wf = true)
    (he : ∀ ty, encode (mk ty) = encS f.op (opU f.d f.a ty f.m) f.st) : Codes (decodeUnary f mk) f.word := by
  refine .needZero hwf (he _) fun h => ?_
  rw [opU_fields (needZero_eq_ok.mp h).1]
  rfl

theorem decodeVector_codes {f : SForm} : Codes (decodeVector f) f.word := by
  obtain ⟨op, o, step, rep⟩ := f
  unfold decodeVector
  dsimp only
  split
  case h_33 => exact .error
  case h_6 =>
    unfold decodeVmov
    split
    case h_1 => exact .error
    case h_2 fm hfm =>
      refine .ite (fun hwf => ?_) fun _ => .error
      refine .needZero hwf rfl ?_
      simp +contextual [← vmovForm?_eq_some.mp hfm, SForm.d, SForm.a, SForm.m, SForm.st, HAppend.hAppend, -BitVec.append_eq]
  case h_7 | h_8 | h_21 | h_22 => exact decodeUnary_codes rfl fun _ => rfl
  case h_17 | h_18 | h_19 | h_20 => exact .ite (fun hwf => decodeUnary_codes hwf fun _ => rfl) fun _ => .error
  case h_10 | h_11 | h_12 | h_13 | h_14 | h_15 =>
    refine .ok rfl rfl ?_
    rw [opABC_fields]
    rfl
  case h_1 | h_2 | h_3 | h_4 | h_5 | h_26 =>
    refine .ok rfl rfl ?_
    simp [SForm.d, SForm.a, SForm.b, SForm.st, HAppend.hAppend, -BitVec.append_eq]
  case h_16 =>
    refine .ite (fun hwf => .ok hwf rfl ?_) fun _ => .error
    simp [SForm.d, SForm.a, SForm.m, SForm.st, HAppend.hAppend, -BitVec.append_eq]
  case h_25 =>
    refine .ite (fun hwf => .needZero hwf rfl ?_) fun _ => .error
    simp +contextual [SForm.d, SForm.a, SForm.m, SForm.st, HAppend.hAppend, -BitVec.append_eq]
  all_goals
    refine .needZero rfl rfl ?_
    simp +contextual [SForm.d, SForm.a, SForm.b, SForm.m, SForm.st, HAppend.hAppend, -BitVec.append_eq]

theorem decodeMatrix_codes {f : SForm} : Codes (decodeMatrix f) f.word := by
  obtain ⟨op, o, step, rep⟩ := f
  unfold decodeMatrix
  dsimp only
  split
  case h_10 => exact .error
  case h_4 | h_5 | h_6 =>
    refine .ok rfl rfl ?_
    simp [SForm.d, SForm.a, SForm.st, HAppend.hAppend, -BitVec.append_eq]
  all_goals
    refine .needZero rfl rfl ?_
    simp +contextual [SForm.d, SForm.a, SForm.st, HAppend.hAppend, -BitVec.append_eq]

theorem decodeTabOp_codes {f : SForm} {mk : VType → Instr} (hwf : ∀ ty, (mk ty).wf = ty.isFloat)
    (he : ∀ ty, encode (mk ty) = encS f.op (f.d ++ f.a ++ f.opnd.extractLsb' 2 4 ++ ty.code) f.st) :
    Codes (decodeTabOp f mk) f.word := by
  refine .ite (fun h => .ok ((hwf _).trans h) (he _) ?_) fun _ => .error
  simp [SForm.d, SForm.a, SForm.st, HAppend.hAppend, -BitVec.append_eq]

theorem decodeTable_codes {f : SForm} : Codes (decodeTable f) f.word := by
  obtain ⟨op, o, step, rep⟩ := f
  unfold decodeTable
  dsimp only
  split
  case h_6 => exact .error
  case h_1 =>
    refine .ok rfl rfl ?_
    simp [SForm.st, HAppend.hAppend, -BitVec.append_eq]
  all_goals exact decodeTabOp_codes (fun _ => rfl) fun _ => rfl

theorem decodeStream_codes {f : SForm} : Codes (decodeStream f) f.word :=
  .ite (fun _ => decodeTyped_codes) fun _ => .ite (fun _ => decodeVector_codes) fun _ =>
    .ite (fun _ => decodeMatrix_codes) fun _ => decodeTable_codes

end Sys2Proof
end

section
namespace Sys2Proof

/-! ### The decoder, and both statements -/

theorem Codes.congr {r : Except Reject Instr} {v w : W48} (h : Codes r v) (hw : v = w) : Codes r w := hw ▸ h

theorem decodeControl_codes {w : W48} : Codes (decodeControl w) w := by
  unfold decodeControl
  split
  case h_64 => exact .error
  case h_1 =>
    refine .ite (fun h => ?_) fun _ => .error
    rintro _ ⟨⟩
    exact ⟨rfl, h ▸ rfl⟩
  case h_2 h => exact (decodeAlu_codes h).congr (RForm.word_of w)
  case h_3 h => exact (decodeMove_codes h).congr (RForm.word_of w)
  case h_4 h => exact (decodeMul_codes h).congr (RForm.word_of w)
  case h_5 h => exact (decodeCmp_codes h).congr (RForm.word_of w)
  case h_6 h => exact (decodeKop_codes h).congr (RForm.word_of w)
  case h_7 h => exact (decodeImm_codes h).congr (IForm.word_of w)
  case h_8 h => exact (decodeCmpi_codes h).congr (IForm.word_of w)
  case h_9 | h_10 | h_11 | h_12 | h_13 => exact decodeLoad_codes.congr (MForm.word_of w)
  case h_14 h => exact (decodeCap_codes h).congr (RForm.word_of w)
  case h_15 | h_16 => exact decodeBranch_codes.congr (BForm.word_of w)
  case h_17 h => exact (decodeJump_codes h rfl rfl).congr (RForm.word_of w)
  case h_18 h => exact (decodeJf_codes h).congr (FForm.word_of w)
  case h_19 h => exact (decodeCall_codes h).congr (IForm.word_of w)
  case h_20 h => exact (decodeJump_codes h rfl rfl).congr (RForm.word_of w)
  case h_21 h => exact (decodeLoop_codes h).congr (LForm.word_of w)
  case h_22 | h_23 | h_24 | h_25 | h_26 | h_27 | h_28 | h_29 | h_30 | h_31 | h_32 | h_33 =>
    exact decodeLaunch_codes.congr (VForm.word_of w)
  case h_34 h => exact (decodeSystem_codes h).congr (RForm.word_of w)
  case h_35 | h_36 | h_37 | h_38 | h_39 => exact decodeAtomic_codes.congr (MForm.word_of w)
  case h_40 h => exact (decodeRing_codes h).congr (RForm.word_of w)
  case h_41 | h_42 | h_43 | h_45 | h_46 | h_47 => exact decodeSem_codes.congr (MForm.word_of w)
  case h_44 h => exact (decodePhase_codes h).congr (RForm.word_of w)
  case h_57 h => exact (decodeCopyCtl_codes h).congr (RForm.word_of w)
  case h_58 h => exact (decodeKv_codes h).congr (RForm.word_of w)
  case h_59 h => exact (decodeFabric_codes h).congr (RForm.word_of w)
  all_goals exact decodeCommand_codes.congr (CForm.word_of w)

theorem decode_codes (w : W48) : Codes (decode w) w := by
  rw [decode]
  exact .ite (fun _ => decodeControl_codes) fun _ => decodeStream_codes.congr (SForm.word_of w)

/-- Settles O58: the words by cases on the instruction, and what decodes from them by `decode_of_encode`. -/
theorem decodeOfEncode : Obligations.DecodeOfEncode := ⟨isSome_encode, fun _ _ => decode_of_encode⟩

/-- Settles O59: `decode_codes`, group by group of opcodes. -/
theorem encodeOfDecode : Obligations.EncodeOfDecode := fun i w => decode_codes w i

end Sys2Proof
end

section
namespace Sys2Proof.Machine
open Sys2Proof

/-! ### What the arithmetic of the control column computes (R96 to R99, Tables 4.1 to 4.4) -/

theorem sub_eq_ofInt (x y : W64) : x - y = BitVec.ofInt 64 (x.toInt - y.toInt) := by
  rw [Int.sub_eq_add_neg, BitVec.ofInt_add, BitVec.ofInt_toInt, BitVec.ofInt_neg, BitVec.ofInt_toInt, BitVec.sub_eq_add_neg]

theorem shl_eq_ofNat (x : W64) (n : Nat) : x <<< n = BitVec.ofNat 64 (x.toNat * 2 ^ n) := by
  apply BitVec.eq_of_toNat_eq
  rw [BitVec.toNat_shiftLeft, BitVec.toNat_ofNat, Nat.shiftLeft_eq]

theorem shrl_eq_ofNat (x : W64) (n : Nat) : x >>> n = BitVec.ofNat 64 (x.toNat / 2 ^ n) := by
  rw [← Nat.shiftRight_eq_div_pow, ← BitVec.toNat_ushiftRight, BitVec.ofNat_toNat, BitVec.setWidth_eq]

theorem shra_eq_ofInt (x : W64) (n : Nat) : x.sshiftRight n = BitVec.ofInt 64 (x.toInt / 2 ^ n) := by
  rw [← BitVec.ofInt_toInt (x := x.sshiftRight n), BitVec.toInt_sshiftRight, Int.shiftRight_eq_div_pow]
  push_cast
  rfl

theorem rotl64_eq (x y : W64) : rotl64 x y =
    if y.toNat % 64 = 0 then x else (x <<< (y.toNat % 64)) ||| (x >>> (64 - y.toNat % 64)) := by
  rw [rotl64, BitVec.rotateLeft_def, Nat.mod_mod]
  split
  case isTrue h => simp [h, BitVec.ushiftRight_eq_zero]
  case isFalse => rfl

theorem smin_eq (x y : W64) : smin x y = if x.toInt ≤ y.toInt then x else y := by
  simp only [smin, BitVec.slt_iff_toInt_lt, ← Int.not_le, ite_not]

theorem umin_eq (x y : W64) : umin x y = if x.toNat ≤ y.toNat then x else y := by
  simp only [umin, BitVec.ult_iff_toNat_lt, ← Nat.not_le, ite_not]

theorem smax_eq (x y : W64) : smax x y = if x.toInt ≤ y.toInt then y else x := by
  obtain h | h | h := lt_trichotomy x.toInt y.toInt
  · simp [smax, BitVec.slt_iff_toInt_lt, h, h.le]
  · simp [smax, BitVec.eq_of_toInt_eq h]
  · simp [smax, BitVec.slt_iff_toInt_lt, h.not_gt, h.not_ge]

theorem umax_eq (x y : W64) : umax x y = if x.toNat ≤ y.toNat then y else x := by
  obtain h | h | h := lt_trichotomy x.toNat y.toNat
  · simp [umax, BitVec.ult_iff_toNat_lt, h, h.le]
  · simp [umax, BitVec.eq_of_toNat_eq h]
  · simp [umax, BitVec.ult_iff_toNat_lt, h.not_gt, h.not_ge]

theorem imm64_eq (i : BitVec 24) : imm64 i = BitVec.ofInt 64 i.toInt := rfl

theorem addi_eq (x : W64) (i : BitVec 24) : x + imm64 i = BitVec.ofInt 64 (x.toInt + i.toInt) := by
  rw [BitVec.ofInt_add, BitVec.ofInt_toInt, imm64_eq]

theorem movhi_eq (x : W64) (i : BitVec 24) : (x <<< 24) + i.setWidth 64 = BitVec.ofNat 64 (x.toNat * 2 ^ 24 + i.toNat) := by
  rw [shl_eq_ofNat, BitVec.ofNat_add, BitVec.ofNat_toNat]

theorem mul64_eq (x y : W64) : mul64 x y = BitVec.ofInt 64 (x.toInt * y.toInt) := by
  rw [mul64, BitVec.ofInt_mul, BitVec.ofInt_toInt, BitVec.ofInt_toInt]

/-! Division, with its corners. -/

theorem eq_zero_iff_toInt {y : W64} : (y == 0) = true ↔ y.toInt = 0 := by
  rw [beq_iff_eq, ← BitVec.toInt_inj]; rfl

theorem divs64_eq (a b : W64) : divs64 a b = BitVec.ofInt 64 (if b.toInt = 0 then -1
    else if a.toInt = -2 ^ 63 ∧ b.toInt = -1 then -2 ^ 63 else a.toInt.tdiv b.toInt) := by
  unfold divs64
  simp only [eq_zero_iff_toInt]
  split
  · rfl
  · split
    case isTrue h => rw [h.1, h.2]; rfl
    case isFalse => rfl

theorem rems64_eq (a b : W64) : rems64 a b = BitVec.ofInt 64 (if b.toInt = 0 then a.toInt
    else if a.toInt = -2 ^ 63 ∧ b.toInt = -1 then 0 else a.toInt - (if b.toInt = 0 then -1
      else if a.toInt = -2 ^ 63 ∧ b.toInt = -1 then -2 ^ 63 else a.toInt.tdiv b.toInt) * b.toInt) := by
  unfold rems64
  simp only [eq_zero_iff_toInt]
  split
  · rw [BitVec.ofInt_toInt]
  · split
    case isTrue h => rw [h.1, h.2]; rfl
    case isFalse => rw [Int.tmod_def, Int.mul_comm]

theorem eq_zero_iff_toNat {y : W64} : (y == 0) = true ↔ y.toNat = 0 := by
  rw [beq_iff_eq, ← BitVec.toNat_inj]; rfl

theorem divu64_eq (a b : W64) : divu64 a b = BitVec.ofNat 64 (if b.toNat = 0 then 2 ^ 64 - 1 else a.toNat / b.toNat) := by
  unfold divu64
  simp only [eq_zero_iff_toNat]
  split <;> rfl

theorem remu64_eq (a b : W64) : remu64 a b = BitVec.ofNat 64 (if b.toNat = 0 then a.toNat
    else a.toNat - a.toNat / b.toNat * b.toNat) := by
  unfold remu64
  simp only [eq_zero_iff_toNat]
  split
  · rw [BitVec.ofNat_toNat, BitVec.setWidth_eq]
  · rw [Nat.mod_eq_sub_div_mul]

/-! The bits of fields. -/

/-- Bits of a value with a field replaced. -/
theorem testBit_natSet (v lo len x i : Nat) :
    (natSet v lo len x).testBit i = if lo ≤ i ∧ i < lo + len then x.testBit (i - lo) else v.testBit i := by
  have hsplit : natSet v lo len x = 2 ^ lo * (2 ^ len * (v / 2 ^ (lo + len)) + x % 2 ^ len) + v % 2 ^ lo := by
    have h1 := Nat.div_add_mod v (2 ^ lo)
    have h2 := Nat.div_add_mod (v / 2 ^ lo) (2 ^ len)
    rw [Nat.div_div_eq_div_mul, ← pow_add] at h2
    have h3 : 2 ^ lo * (2 ^ len * (v / 2 ^ (lo + len))) + 2 ^ lo * (v / 2 ^ lo % 2 ^ len) + v % 2 ^ lo = v := by
      rw [← Nat.mul_add, h2, h1]
    rw [natSet, natBits, Nat.mul_add, Nat.mul_comm _ (2 ^ lo), Nat.mul_comm (x % _)]
    omega
  rw [hsplit, Nat.testBit_two_pow_mul_add _ (Nat.mod_lt _ (by positivity)),
    Nat.testBit_two_pow_mul_add _ (Nat.mod_lt _ (by positivity)), Nat.testBit_mod_two_pow, Nat.testBit_mod_two_pow,
    Nat.testBit_div_two_pow]
  by_cases h1 : i < lo
  · simp [h1, Nat.not_le.mpr h1]
  · by_cases h2 : i - lo < len
    · have : lo ≤ i ∧ i < lo + len := by omega
      simp [h1, h2, this]
    · have h3 : ¬ (lo ≤ i ∧ i < lo + len) := by omega
      have h4 : i - lo - len + (lo + len) = i := by omega
      simp [h1, h2, h3, h4]

theorem testBit_natBits (v lo len i : Nat) : (natBits v lo len).testBit i = (decide (i < len) && v.testBit (lo + i)) := by
  rw [natBits, Nat.testBit_mod_two_pow, Nat.testBit_div_two_pow, Nat.add_comm]

theorem getLsbD_bfxField (a : W64) (pos len : Nat) {i : Nat} (h : i < 64) :
    (bfxField a pos len).getLsbD i = (decide (i < len) && a.getLsbD (pos + i)) := by
  rw [bfxField, BitVec.getLsbD_ofNat, testBit_natBits, BitVec.testBit_toNat, decide_eq_true h, Bool.true_and]

theorem getLsbD_bfiField (d a : W64) (pos len : Nat) {i : Nat} (h : i < 64) : (bfiField d a pos len).getLsbD i =
    if pos ≤ i ∧ i < pos + len then a.getLsbD (i - pos) else d.getLsbD i := by
  rw [bfiField, BitVec.getLsbD_ofNat, testBit_natSet, decide_eq_true h, Bool.true_and, Nat.testBit_mod_two_pow,
    BitVec.testBit_toNat, BitVec.testBit_toNat]
  split
  case isTrue hi => rw [decide_eq_true (by omega), Bool.true_and]
  case isFalse => rfl

theorem sextField_eq (a : W64) {n : Nat} (h0 : 0 < n) (hn : n ≤ 64) : sextField a n = BitVec.ofInt 64 (a.setWidth n).toInt := by
  show _ = (a.setWidth n).signExtend 64
  apply BitVec.eq_of_getLsbD_eq
  intro i hi
  rw [sextField, BitVec.getLsbD_sshiftRight, BitVec.getLsbD_signExtend, BitVec.msb_eq_getLsbD_last, BitVec.msb_eq_getLsbD_last]
  simp only [BitVec.getLsbD_shiftLeft, BitVec.getLsbD_setWidth]
  have e1 : 64 - n + i - (64 - n) = i := by omega
  have e2 : 64 - 1 - (64 - n) = n - 1 := by omega
  by_cases hin : i < n
  · have : 64 - n + i < 64 := by omega
    simp [hi, hin, this]
  · have h1 : ¬ 64 - n + i < 64 := by omega
    have h2 : ¬ 64 - 1 < 64 - n := by omega
    simp [h1, h2, e2, h0, Nat.not_le.mpr hi, hin]
    omega

/-! Counts of bits. -/

theorem bitLen_le (a : W64) : bitLen a ≤ 64 := by
  unfold bitLen
  split
  · omega
  case isFalse h =>
    have := (Nat.log2_lt fun h0 => h (eq_zero_iff_toNat.mpr h0)).mpr a.isLt
    omega

theorem getLsbD_of_bitLen_le {a : W64} {i : Nat} (h : bitLen a ≤ i) : a.getLsbD i = false := by
  unfold bitLen at h
  split at h
  case isTrue h0 => simp [show a = 0 by simpa using h0]
  case isFalse =>
    rw [← BitVec.testBit_toNat]
    exact Nat.testBit_lt_two_pow (Nat.lt_log2_self.trans_le (Nat.pow_le_pow_right (by omega) h))

theorem getLsbD_bitLen {a : W64} (h : 0 < bitLen a) : a.getLsbD (bitLen a - 1) = true := by
  unfold bitLen at h ⊢
  split at h
  · omega
  case isFalse h0 =>
    rw [if_neg h0, Nat.add_sub_cancel, ← BitVec.testBit_toNat]
    exact Nat.testBit_log2 (fun h => h0 (eq_zero_iff_toNat.mpr h))

theorem popc64_eq (a : W64) : popc64 a = BitVec.ofNat 64 ((List.range 64).filter fun i => a.getLsbD i).length := by
  have count (l : List Nat) (n : Nat) :
      l.foldl (fun n i => n + (a.getLsbD i).toNat) n = n + (l.filter fun i => a.getLsbD i).length := by
    induction l generalizing n with
    | nil => rfl
    | cons i r ih => cases h : a.getLsbD i <;> simp [ih, h]; omega
  rw [popc64, count, Nat.zero_add]

/-- The position of the lowest 1 of a word, 64 for 0. -/
def lowestBit (a : W64) : Nat := ((List.range 64).find? fun i => a.getLsbD i).getD 64

theorem lowestBit_spec (a : W64) : lowestBit a ≤ 64 ∧ (∀ i, i < lowestBit a → a.getLsbD i = false) ∧
    (lowestBit a < 64 → a.getLsbD (lowestBit a) = true) := by
  unfold lowestBit
  cases h : (List.range 64).find? fun i => a.getLsbD i with
  | none => exact ⟨Nat.le_refl _, fun i hi => by simpa using List.find?_range_eq_none.mp h i hi, fun hlt => absurd hlt (by simp)⟩
  | some k =>
    obtain ⟨hk, hmem, hlow⟩ := List.find?_range_eq_some.mp h
    exact ⟨(List.mem_range.mp hmem).le, fun i hi => by simpa using hlow i hi, fun _ => hk⟩

/-! Bits interleaved and taken apart. -/

/-- A number whose bit `i` is bit `f i` of `z`. -/
theorem testBit_sumBits (z : Nat) (f : Nat → Nat) (n j : Nat) :
    ((List.range n).foldl (fun a i => a + natBits z (f i) 1 * 2 ^ i) 0).testBit j = (decide (j < n) && z.testBit (f j)) ∧
    (List.range n).foldl (fun a i => a + natBits z (f i) 1 * 2 ^ i) 0 < 2 ^ n := by
  induction n with
  | zero => simp
  | succ n ih =>
    obtain ⟨hbit, hlt⟩ := ih
    rw [List.range_succ, List.foldl_append, List.foldl_cons, List.foldl_nil, Nat.add_comm, Nat.mul_comm]
    have h1 : natBits z (f n) 1 < 2 := Nat.mod_lt _ (by omega)
    refine ⟨?_, ?_⟩
    · rw [Nat.testBit_two_pow_mul_add _ hlt, hbit, testBit_natBits]
      obtain h | rfl | h := Nat.lt_trichotomy j n
      · simp [h, Nat.lt_succ_of_lt h]
      · simp
      · simp [show ¬ j < n by omega, show ¬ j < n + 1 by omega, show ¬ j - n = 0 by omega]
    · have : 2 ^ n * natBits z (f n) 1 ≤ 2 ^ n * 1 := Nat.mul_le_mul_left _ (by omega)
      omega

/-- A number whose even bits are the bits of `x` and whose odd bits those of `y`. -/
theorem testBit_interleave (x y n j : Nat) :
    let z := (List.range n).foldl (fun a i => a + natBits x i 1 * 2 ^ (2 * i) + natBits y i 1 * 2 ^ (2 * i + 1)) 0
    z.testBit j = (decide (j < 2 * n) && if j % 2 = 0 then x.testBit (j / 2) else y.testBit (j / 2)) ∧ z < 2 ^ (2 * n) := by
  induction n with
  | zero => simp
  | succ n ih =>
    dsimp only at ih ⊢
    rw [List.range_succ, List.foldl_append, List.foldl_cons, List.foldl_nil]
    generalize (List.range n).foldl _ 0 = z at ih ⊢
    obtain ⟨hbit, hlt⟩ := ih
    have hx : natBits x n 1 < 2 := Nat.mod_lt _ (by omega)
    have hy : natBits y n 1 < 2 := Nat.mod_lt _ (by omega)
    have hz : z + natBits x n 1 * 2 ^ (2 * n) + natBits y n 1 * 2 ^ (2 * n + 1) =
        2 ^ (2 * n) * (2 ^ 1 * natBits y n 1 + natBits x n 1) + z := by ring
    rw [hz]
    refine ⟨?_, ?_⟩
    · rw [Nat.testBit_two_pow_mul_add _ hlt, Nat.testBit_two_pow_mul_add _ hx, hbit, testBit_natBits, testBit_natBits]
      obtain h | rfl | rfl | h : j < 2 * n ∨ j = 2 * n ∨ j = 2 * n + 1 ∨ 2 * n + 1 < j := by omega
      · simp [h, show j < 2 * (n + 1) by omega]
      · simp
      · simp [show (2 * n + 1) / 2 = n by omega, show 2 * n + 1 < 2 * (n + 1) by omega]
      · simp [show ¬ j < 2 * n by omega, show ¬ j < 2 * (n + 1) by omega, show ¬ j - 2 * n < 1 by omega,
          show ¬ j - 2 * n - 1 = 0 by omega]
    · have : 2 ^ (2 * n) * (2 ^ 1 * natBits y n 1 + natBits x n 1) ≤ 2 ^ (2 * n) * 3 := Nat.mul_le_mul_left _ (by omega)
      have : 2 ^ (2 * (n + 1)) = 2 ^ (2 * n) * 4 := by ring
      omega

theorem getLsbD_morton (x y : W64) {i : Nat} (h : i < 64) : ((morton (x.setWidth 16) (y.setWidth 16)).setWidth 64).getLsbD i =
    (decide (i < 32) && if i % 2 = 0 then x.getLsbD (i / 2) else y.getLsbD (i / 2)) := by
  rw [morton, BitVec.getLsbD_setWidth, BitVec.getLsbD_ofNat, (testBit_interleave _ _ 16 i).1, decide_eq_true h, BitVec.testBit_toNat,
    BitVec.testBit_toNat]
  by_cases hi : i < 32
  · simp [hi, show i / 2 < 16 by omega]
  · simp [hi]

theorem getLsbD_unmorton (x : W64) {i : Nat} (h : i < 64) :
    ((unmortonY (x.setWidth 32) ++ unmortonX (x.setWidth 32)).setWidth 64).getLsbD i =
      (decide (i < 32) && if i < 16 then x.getLsbD (2 * i) else x.getLsbD (2 * (i - 16) + 1)) := by
  rw [BitVec.getLsbD_setWidth, BitVec.getLsbD_append, unmortonX, unmortonY, BitVec.getLsbD_ofNat, BitVec.getLsbD_ofNat,
    (testBit_sumBits _ (2 * ·) 16 i).1, (testBit_sumBits _ (2 * · + 1) 16 (i - 16)).1, decide_eq_true h, BitVec.testBit_toNat,
    BitVec.testBit_toNat]
  by_cases h1 : i < 16
  · simp [h1, show i < 32 by omega, show 2 * i < 32 by omega]
  · by_cases h2 : i < 32
    · simp [h1, h2, show i - 16 < 16 by omega, show 2 * (i - 16) + 1 < 32 by omega]
    · simp [h1, h2, show ¬ i - 16 < 16 by omega]


/-! ### The words -/

theorem Gives.of_eq {s : State} {i : Instr} {lat cost : Nat} {d : SReg} {v w : W64}
    (h : exec i s = s.give lat cost (.s d v)) (hv : v = w) : Gives s i lat cost (.s d w) := hv ▸ Gives.of_give h rfl

/-- Settles O1: each word's result by the lemma on the function that computes it. -/
theorem aluWordsGiveTheirResults : Obligations.AluWordsGiveTheirResults := by
  unfold Obligations.AluWordsGiveTheirResults
  refine ⟨fun s d a b => ?_, fun s d a imm sh => ?_, fun s d a b k n1 pos len1 => ?_, fun s d a b => ?_⟩
  · exact ⟨.of_eq rfl (BitVec.add_def _ _), .of_eq rfl (sub_eq_ofInt _ _), .of_eq rfl rfl, .of_eq rfl rfl, .of_eq rfl rfl,
      .of_eq rfl rfl, .of_eq rfl (shl_eq_ofNat _ _), .of_eq rfl (shrl_eq_ofNat _ _), .of_eq rfl (shra_eq_ofInt _ _),
      .of_eq rfl (rotl64_eq _ _), .of_eq rfl (smin_eq _ _), .of_eq rfl (smax_eq _ _), .of_eq rfl (umin_eq _ _),
      .of_eq rfl (umax_eq _ _)⟩
  · exact ⟨.of_eq rfl (addi_eq _ _), .of_eq rfl rfl, .of_eq rfl rfl, .of_eq rfl rfl, .of_eq rfl (shl_eq_ofNat _ _),
      .of_eq rfl (shrl_eq_ofNat _ _), .of_eq rfl (shra_eq_ofInt _ _), .of_eq rfl rfl, .of_eq rfl (movhi_eq _ _)⟩
  · have hlow := lowestBit_spec (s.sreg a)
    have hlen := bitLen_le (s.sreg a)
    refine ⟨.of_eq rfl rfl, .of_eq rfl rfl, .of_eq rfl (sextField_eq _ (by omega) (by omega)), .of_eq rfl (popc64_eq _),
      ⟨64 - bitLen (s.sreg a), .of_eq rfl rfl, by omega, fun i hi => getLsbD_of_bitLen_le (by omega), fun hz => ?_⟩,
      ⟨lowestBit (s.sreg a), .of_eq rfl rfl, hlow⟩, ⟨_, .of_eq rfl rfl, fun i hi => getLsbD_bfxField _ _ _ hi⟩,
      ⟨_, .of_eq rfl rfl, fun i hi => getLsbD_bfiField _ _ _ _ hi⟩, ⟨_, .of_eq rfl rfl, fun i hi => getLsbD_morton _ _ hi⟩,
      ⟨_, .of_eq rfl rfl, fun i hi => getLsbD_unmorton _ hi⟩⟩
    have := getLsbD_bitLen (a := s.sreg a) (by omega)
    rwa [show 63 - (64 - bitLen (s.sreg a)) = bitLen (s.sreg a) - 1 by omega]
  · exact ⟨.of_eq rfl (mul64_eq _ _), .of_eq rfl rfl, .of_eq rfl rfl, .of_eq rfl (divs64_eq _ _), .of_eq rfl (rems64_eq _ _),
      .of_eq rfl (divu64_eq _ _), .of_eq rfl (remu64_eq _ _)⟩

end Sys2Proof.Machine
end

section
namespace Sys2Proof.Machine
open Sys2Proof

/-! ### Compares and predicate operations (R100, R101, Table 4.5) -/

/-- What each condition says of two words (Table 3.3). -/
theorem Cond.holds_eq (c : Cond) (x y : W64) : Cond.holds c x y = match c with
    | .eq => decide (x = y) | .ne => decide (x ≠ y) | .lt => decide (x.toInt < y.toInt) | .ge => decide (x.toInt ≥ y.toInt)
    | .ltu => decide (x.toNat < y.toNat) | .geu => decide (x.toNat ≥ y.toNat) | .gt => decide (x.toInt > y.toInt)
    | .le => decide (x.toInt ≤ y.toInt) | .gtu => decide (x.toNat > y.toNat) | .leu => decide (x.toNat ≤ y.toNat) := by
  cases c with
  | eq | lt | ltu => simp [Cond.holds, BitVec.slt_eq_decide, BitVec.ult_eq_decide, beq_eq_decide]
  | gt | gtu => simp [Cond.holds, BitVec.slt_eq_decide, BitVec.ult_eq_decide]
  | ne | ge | geu | le | leu =>
    simp only [Cond.holds, bne, beq_eq_decide, BitVec.slt_eq_decide, BitVec.ult_eq_decide, ← decide_not, not_lt, ge_iff_le, ne_eq]

theorem Gives.of_pred {s : State} {i : Instr} {lat cost : Nat} {k : KReg} {p q : Bool}
    (h : exec i s = s.give lat cost (.k k p)) (hp : p = q) : Gives s i lat cost (.k k q) := hp ▸ Gives.of_give h rfl

/-- Settles O2: the compares by what each condition says, the predicate operations by Table 4.5. -/
theorem comparesAndPredicates : Obligations.ComparesAndPredicates := by
  unfold Obligations.ComparesAndPredicates
  intro s kd ka kb a b imm
  refine ⟨fun c => .of_pred rfl (Cond.holds_eq c _ _), fun c => .of_pred rfl (Cond.holds_eq c _ _), .of_give rfl rfl,
    .of_give rfl rfl, .of_give rfl rfl, .of_give rfl rfl, .of_give rfl rfl, .of_give rfl rfl⟩

end Sys2Proof.Machine
end

section
namespace Sys2Proof.Machine
open Sys2Proof

/-! ### The fields of a capability and its region (R246, R247, Table 10.7) -/

theorem natBits_lt (v lo len : Nat) : natBits v lo len < 2 ^ len := Nat.mod_lt _ (by positivity)

theorem Cap.world_lt (c : Cap) : c.world < 2 ^ 9 := natBits_lt _ _ _
theorem Cap.otype_lt (c : Cap) : c.otype < 2 ^ 12 := natBits_lt _ _ _
theorem Cap.perms_lt (c : Cap) : c.perms < 2 ^ 6 := natBits_lt _ _ _
theorem Cap.blk_lt (c : Cap) : c.blk < 2 := natBits_lt _ _ _

/-- The fields of a capability whose high half is built from fields. -/
theorem Cap.fields_of_mkHigh {c : Cap} {world otype perms e blk bm lm : Nat} {x : W64} {t : Bool}
    (h : c = ⟨x, mkHigh world otype perms e blk bm lm, t⟩) (hw : world < 2 ^ 9) (ho : otype < 2 ^ 12) (hp : perms < 2 ^ 6)
    (he : e < 2 ^ 6) (hblk : blk < 2) (hb : bm < 2 ^ 14) (hl : lm < 2 ^ 14) :
    c.world = world ∧ c.otype = otype ∧ c.perms = perms ∧ c.e = e ∧ c.blk = blk ∧ c.bm = bm ∧ c.lm = lm := by
  subst h
  simp only [mkHigh, Cap.world, Cap.otype, Cap.perms, Cap.e, Cap.blk, Cap.bm, Cap.lm, natBits, BitVec.toNat_ofNat]
  omega

/-- The cursor and the tag of a capability given by its parts. -/
theorem Cap.parts_of_eq {c : Cap} {x h : W64} {t : Bool} (hc : c = ⟨x, h, t⟩) : c.cur = x ∧ c.tag = t := by
  subst hc
  exact ⟨rfl, rfl⟩

theorem Cap.isSealed_eq_false {c : Cap} : c.isSealed = false ↔ c.otype = 0 := by simp [Cap.isSealed]
theorem Cap.isSealed_eq_true {c : Cap} : c.isSealed = true ↔ c.otype ≠ 0 := by simp [Cap.isSealed]

/-- Two high halves with the same bits from `lo` to `hi - 1`. -/
def Cap.SameBits (c x : Cap) (lo hi : Nat) : Prop := ∀ i, lo ≤ i → i < hi → c.high.getLsbD i = x.high.getLsbD i

section
variable {c x : Cap} {lo hi : Nat}

theorem Cap.SameBits.natBits (h : c.SameBits x lo hi) {p len : Nat} (hp : lo ≤ p) (hl : p + len ≤ hi) :
    natBits c.high.toNat p len = natBits x.high.toNat p len := by
  apply Nat.eq_of_testBit_eq
  intro i
  rw [testBit_natBits, testBit_natBits, BitVec.testBit_toNat, BitVec.testBit_toNat]
  by_cases hi : i < len
  · rw [h (p + i) (by omega) (by omega)]
  · simp [hi]

theorem Cap.SameBits.mono (h : c.SameBits x lo hi) {lo' hi' : Nat} (hl : lo ≤ lo') (hh : hi' ≤ hi) : c.SameBits x lo' hi' :=
  fun i h0 h1 => h i (hl.trans h0) (h1.trans_le hh)

theorem Cap.SameBits.world (h : c.SameBits x 55 64) : c.world = x.world := h.natBits (by omega) (by omega)
theorem Cap.SameBits.otype (h : c.SameBits x 43 55) : c.otype = x.otype := h.natBits (by omega) (by omega)
theorem Cap.SameBits.perms (h : c.SameBits x 35 41) : c.perms = x.perms := h.natBits (by omega) (by omega)

theorem Cap.SameBits.region (h : c.SameBits x 0 35) : c.e = x.e ∧ c.blk = x.blk ∧ c.bm = x.bm ∧ c.lm = x.lm :=
  ⟨h.natBits (by omega) (by omega), h.natBits (by omega) (by omega), h.natBits (by omega) (by omega),
    h.natBits (by omega) (by omega)⟩

theorem Cap.SameBits.bounds_of_block (h : c.SameBits x 0 35) (hb : c.e ≤ 49 → c.block = x.block) :
    c.base = x.base ∧ c.top = x.top := by
  obtain ⟨he, hblk, hbm, hlm⟩ := h.region
  have hbase : c.base = x.base := by
    unfold Cap.base
    rw [he, hbm]
    split
    · rfl
    · rw [hb (by omega)]
  exact ⟨hbase, by rw [Cap.top, Cap.top, he, hlm, hbase]⟩

theorem Cap.SameBits.bounds (h : c.SameBits x 0 35) (hc : c.cur = x.cur) : c.base = x.base ∧ c.top = x.top := by
  refine h.bounds_of_block fun _ => ?_
  obtain ⟨he, hblk, -, -⟩ := h.region
  rw [Cap.block, Cap.block, he, hblk, hc]

end

/-- The base block of a capability: below 2^(50 - e), and of the parity that BLK names. -/
theorem Cap.block_spec {c : Cap} (he : c.e ≤ 49) : c.block < 2 ^ (50 - c.e) ∧ c.block % 2 = c.blk := by
  have hlt : c.cur.toNat / 2 ^ (c.e + 14) < 2 ^ (50 - c.e) := by
    rw [Nat.div_lt_iff_lt_mul (by positivity), ← pow_add, show 50 - c.e + (c.e + 14) = 64 by omega]
    exact c.cur.isLt
  have heven : 2 ^ (50 - c.e) = 2 * 2 ^ (49 - c.e) := by rw [← pow_succ', show 49 - c.e + 1 = 50 - c.e by omega]
  have := c.blk_lt
  unfold Cap.block
  dsimp only
  generalize c.cur.toNat / 2 ^ (c.e + 14) = b at hlt
  split
  case isTrue h => exact ⟨hlt, by simpa using h⟩
  case isFalse h =>
    have h : b % 2 ≠ c.blk := by simpa using h
    refine ⟨Nat.mod_lt _ (by positivity), ?_⟩
    rw [Nat.mod_mod_of_dvd _ ⟨_, heven⟩]
    have : 0 < 2 ^ (49 - c.e) := by positivity
    omega

/-- A cursor in the representable region finds the same base block (R247, R249). -/
theorem Cap.block_of_represents {c x : Cap} (he : c.e = x.e) (hblk : c.blk = x.blk) (hr : x.represents c.cur.toNat = true) :
    c.block = x.block := by
  simp only [Cap.represents, Bool.and_eq_true, decide_eq_true_eq] at hr
  obtain ⟨⟨h49, hlo⟩, hhi⟩ := hr
  obtain ⟨hlt, hpar⟩ := Cap.block_spec h49
  have hb : c.cur.toNat / 2 ^ (x.e + 14) = x.block ∨ c.cur.toNat / 2 ^ (x.e + 14) = x.block + 1 := by
    have h1 := (Nat.le_div_iff_mul_le (by positivity)).mpr hlo
    have h2 := (Nat.div_lt_iff_lt_mul (by positivity)).mpr hhi
    omega
  rw [Cap.block, he, hblk]
  obtain hb | hb := hb
  · rw [hb, if_pos (by simpa using hpar)]
  · rw [hb, if_neg (by simp; omega), show x.block + 1 + 2 ^ (50 - x.e) - 1 = x.block + 2 ^ (50 - x.e) by omega, Nat.add_mod_right,
      Nat.mod_eq_of_lt hlt]

/-! ### What CBND bounds (R248) -/

theorem boundsExp_eq_some {lo hi fuel e0 e : Nat} (h : boundsExp lo hi fuel e0 = some e) :
    e < e0 + fuel ∧ (hi + 2 ^ e - 1) / 2 ^ e * 2 ^ e - lo / 2 ^ e * 2 ^ e ≤ 2 ^ (e + 14) := by
  induction fuel generalizing e0 with
  | zero => exact absurd h (by simp [boundsExp])
  | succ n ih =>
    unfold boundsExp at h
    split at h
    case isTrue hle =>
      obtain rfl := Option.some.inj h
      exact ⟨by omega, hle⟩
    case isFalse =>
      obtain ⟨hlt, hle⟩ := ih h
      exact ⟨by omega, hle⟩

/-- The base and the top of a capability of exponent `e` over `n` units from the one that holds its cursor. -/
theorem Cap.bounds_of_fields {c : Cap} {e n : Nat} (he : e ≤ 49) (hce : c.e = e) (hblk : c.blk = c.cur.toNat / 2 ^ (e + 14) % 2)
    (hbm : c.bm = c.cur.toNat / 2 ^ e % 2 ^ 14) (hlm : c.lm + 1 = n) :
    c.base = c.cur.toNat / 2 ^ e * 2 ^ e ∧ c.top = (c.cur.toNat / 2 ^ e + n) * 2 ^ e := by
  have hblock : c.block = c.cur.toNat / 2 ^ e / 2 ^ 14 := by
    rw [Cap.block, hce, hblk, if_pos (by simp), pow_add, Nat.div_div_eq_div_mul]
  have hbase : c.base = c.cur.toNat / 2 ^ e * 2 ^ e := by
    rw [Cap.base, if_neg (by omega), hblock, hce, hbm, pow_add, Nat.mul_comm (2 ^ e), ← Nat.mul_assoc, ← Nat.add_mul,
      Nat.mul_comm _ (2 ^ 14), Nat.div_add_mod]
  exact ⟨hbase, by rw [Cap.top, if_neg (by omega), hbase, hce, hlm, Nat.add_mul]⟩

/-- The units of 2^e that the region of CBND takes: `u` to `v - 1`. -/
theorem units_of_boundsExp {lo len e : Nat} (hlen : 0 < len) (h : boundsExp lo (lo + len) 50 0 = some e) :
    let u := lo / 2 ^ e; let v := (lo + len + 2 ^ e - 1) / 2 ^ e
    e ≤ 49 ∧ u * 2 ^ e ≤ lo ∧ lo + len ≤ v * 2 ^ e ∧ u < v ∧ v - u ≤ 2 ^ 14 ∧
    (v * 2 ^ e - u * 2 ^ e) / 2 ^ e = v - u := by
  intro u v
  obtain ⟨he, hfit⟩ := boundsExp_eq_some h
  have hP : 0 < 2 ^ e := by positivity
  have hu : u * 2 ^ e ≤ lo := Nat.div_mul_le_self _ _
  have hv : lo + len ≤ v * 2 ^ e := by
    have : lo + len + 2 ^ e - 1 < v * 2 ^ e + 2 ^ e := Nat.lt_div_mul_add hP
    omega
  refine ⟨by omega, hu, hv, Nat.lt_of_mul_lt_mul_right (a := 2 ^ e) (by omega), ?_, ?_⟩
  · rw [← Nat.sub_mul, Nat.add_comm e, pow_add] at hfit
    exact Nat.le_of_mul_le_mul_right hfit hP
  · rw [← Nat.sub_mul, Nat.mul_div_cancel _ hP]

theorem Cap.narrow_eq_some {x c : Cap} {len : Nat} (h : x.narrow len = some c) : 0 < len ∧ ∃ e,
    boundsExp x.cur.toNat (x.cur.toNat + len) 50 0 = some e ∧
    let b := x.cur.toNat / 2 ^ e * 2 ^ e; let t := (x.cur.toNat + len + 2 ^ e - 1) / 2 ^ e * 2 ^ e
    x.base ≤ b ∧ t ≤ x.top ∧
    c = ⟨x.cur, mkHigh x.world x.otype x.perms e (natBits b (e + 14) 1) (b / 2 ^ e % 2 ^ 14) ((t - b) / 2 ^ e - 1), x.tag⟩ := by
  unfold Cap.narrow at h
  dsimp only at h
  split at h
  case isTrue => cases h
  case isFalse h0 =>
  split at h
  case h_1 => cases h
  case h_2 e he =>
  split at h
  case isFalse => cases h
  case isTrue hin =>
  simp only [Bool.or_eq_true, beq_iff_eq, Bool.and_eq_true, decide_eq_true_eq] at h0 hin
  exact ⟨by omega, e, he, hin.1, hin.2, (Option.some.inj h).symm⟩

/-- What CBND gives: the fields of its source, and bounds inside the source's around the region asked for. -/
theorem Cap.narrow_spec {x c : Cap} {len : Nat} (h : x.narrow len = some c) : c.cur = x.cur ∧ c.tag = x.tag ∧ c.perms = x.perms ∧
    c.world = x.world ∧ c.otype = x.otype ∧ x.base ≤ c.base ∧ c.top ≤ x.top ∧
    c.base ≤ x.cur.toNat ∧ x.cur.toNat + len ≤ c.top := by
  obtain ⟨hlen, e, hexp, hbase, htop, hc⟩ := Cap.narrow_eq_some h
  obtain ⟨he, hu, hv, hlt, hle, hn⟩ := units_of_boundsExp hlen hexp
  have hu14 : x.cur.toNat / 2 ^ e * 2 ^ e / 2 ^ (e + 14) = x.cur.toNat / 2 ^ (e + 14) := by
    rw [pow_add, ← Nat.div_div_eq_div_mul, ← Nat.div_div_eq_div_mul, Nat.mul_div_cancel _ (by positivity)]
  rw [hn, natBits, hu14, Nat.mul_div_cancel _ (by positivity)] at hc
  have hm : (x.cur.toNat + len + 2 ^ e - 1) / 2 ^ e - x.cur.toNat / 2 ^ e - 1 < 2 ^ 14 := by omega
  obtain ⟨hw, ho, hp, hce, hblk, hbm, hlm⟩ := Cap.fields_of_mkHigh hc x.world_lt x.otype_lt x.perms_lt (by omega)
    (Nat.mod_lt _ (by omega)) (Nat.mod_lt _ (by omega)) hm
  obtain ⟨hcur, htag⟩ := Cap.parts_of_eq hc
  obtain ⟨hb, ht⟩ := Cap.bounds_of_fields he hce (hcur ▸ hblk) (hcur ▸ hbm) rfl
  rw [hcur] at hb ht
  rw [hlm, show x.cur.toNat / 2 ^ e + ((x.cur.toNat + len + 2 ^ e - 1) / 2 ^ e - x.cur.toNat / 2 ^ e - 1 + 1) =
    (x.cur.toNat + len + 2 ^ e - 1) / 2 ^ e by omega] at ht
  exact ⟨hcur, htag, hp, hw, ho, hb ▸ hbase, ht ▸ htop, hb ▸ hu, ht ▸ hv⟩

/-! ### What each capability word computes, where it completes (R108) -/

/-- A high half with its reserved bits cleared (Table 10.7). -/
def cleaned (h : W64) : W64 := h &&& 0xFFFFF9FFFFFFFFFF#64

theorem Cap.clean_eq (c : Cap) : c.clean = ⟨c.cur, cleaned c.high, c.tag⟩ := rfl

theorem getLsbD_cleaned (h : W64) {i : Nat} (hi : i < 64) :
    (cleaned h).getLsbD i = (h.getLsbD i && !decide (i = 41 ∨ i = 42)) := by
  have hmask : ∀ k < 64, (0xFFFFF9FFFFFFFFFF#64).getLsbD k = !decide (k = 41 ∨ k = 42) := by decide
  rw [cleaned, BitVec.getLsbD_and, ← hmask i hi]

/-- The field of the permissions, as a mask. -/
theorem getLsbD_permMask {i : Nat} (hi : i < 64) : (0xFFFFFE07FFFFFFFF#64).getLsbD i = !decide (35 ≤ i ∧ i < 41) := by
  revert i; decide

theorem getLsbD_otypeMask {i : Nat} (hi : i < 64) : (0xFF8007FFFFFFFFFF#64).getLsbD i = !decide (43 ≤ i ∧ i < 55) := by
  revert i; decide

theorem guard_eq_ok {b : Bool} {e : Cause} {r : Except Cause Cap} {c : Cap} :
    (if b then .error e else r) = .ok c ↔ b = false ∧ r = .ok c := by
  cases b <;> simp

theorem capBnd_eq_ok {x c : Cap} {b : W64} : capBnd x b = .ok c ↔ x.tag = true ∧ x.otype = 0 ∧ x.narrow b.toNat = some c := by
  rw [capBnd, guard_eq_ok, guard_eq_ok, Bool.not_eq_false', Cap.isSealed_eq_false]
  cases x.narrow b.toNat <;> simp

/-- CPERM, CADD and CSET refuse a sealed capability alone. -/
theorem unsealed_eq_ok {x c d : Cap} :
    (if x.tag && x.isSealed then Except.error Cause.capperm else .ok d) = .ok c ↔ (x.tag = true → x.otype = 0) ∧ c = d := by
  rw [guard_eq_ok, ← Cap.isSealed_eq_false, Except.ok.injEq, eq_comm (a := d)]
  cases x.tag <;> simp

theorem permit_eq (h b : W64) : (h &&& ~~~(0x3F#64 <<< 35)) ||| (h &&& b &&& (0x3F#64 <<< 35)) = h &&& (b ||| 0xFFFFFE07FFFFFFFF#64) := by
  have hmask : 0x3F#64 <<< 35 = ~~~0xFFFFFE07FFFFFFFF#64 := by decide
  rw [hmask, BitVec.not_not]
  apply BitVec.eq_of_getLsbD_eq
  intro i hi
  simp only [BitVec.getLsbD_or, BitVec.getLsbD_and, BitVec.getLsbD_not, hi, decide_true, Bool.true_and, getLsbD_permMask hi]
  cases h.getLsbD i <;> cases b.getLsbD i <;> cases decide (35 ≤ i ∧ i < 41) <;> rfl

theorem capPerm_eq_ok {x c : Cap} {b : W64} : capPerm x b = .ok c ↔
    (x.tag = true → x.otype = 0) ∧ c = ⟨x.cur, cleaned (x.high &&& (b ||| 0xFFFFFE07FFFFFFFF#64)), x.tag⟩ := by
  rw [capPerm, unsealed_eq_ok, Cap.clean_eq, permit_eq]

theorem capAdd_eq_ok {x c : Cap} {b : W64} : capAdd x b = .ok c ↔
    (x.tag = true → x.otype = 0) ∧ c = ⟨x.cur + b, cleaned x.high, x.tag && x.represents (x.cur + b).toNat⟩ := unsealed_eq_ok

theorem capSet_eq_ok {x c : Cap} {b : W64} : capSet x b = .ok c ↔
    (x.tag = true → x.otype = 0) ∧ c = ⟨b, cleaned x.high, x.tag && x.represents b.toNat⟩ := unsealed_eq_ok

theorem capSeal_eq_ok {x y c : Cap} : capSeal x y = .ok c ↔ (x.tag = true ∧ y.tag = true) ∧
    (x.otype = 0 ∧ y.otype = 0 ∧ y.has permSeal = true) ∧
    (y.inBounds y.cur.toNat 1 = true ∧ y.cur ≠ 0 ∧ y.cur.toNat ≤ 4095) ∧ x.withOtype y.cur.toNat = c := by
  rw [capSeal, guard_eq_ok, guard_eq_ok, guard_eq_ok]
  simp [Cap.isSealed_eq_false, and_assoc]

theorem capUnseal_eq_ok {x y c : Cap} : capUnseal x y = .ok c ↔ (x.tag = true ∧ y.tag = true) ∧
    (x.otype ≠ 0 ∧ y.otype = 0 ∧ y.has permUnseal = true ∧ y.cur.toNat = x.otype) ∧ y.inBounds y.cur.toNat 1 = true ∧
    x.withOtype 0 = c := by
  rw [capUnseal, guard_eq_ok, guard_eq_ok, guard_eq_ok]
  simp [Cap.isSealed_eq_false, Cap.isSealed_eq_true, and_assoc]

theorem getLsbD_withOtype (x : Cap) (t : Nat) {i : Nat} (hi : i < 64) : (x.withOtype t).high.getLsbD i =
    ((if 43 ≤ i ∧ i < 55 then t.testBit (i - 43) else x.high.getLsbD i) && !decide (i = 41 ∨ i = 42)) := by
  rw [Cap.withOtype, Cap.clean_eq, getLsbD_cleaned _ hi, BitVec.getLsbD_ofNat, testBit_natSet, BitVec.testBit_toNat,
    decide_eq_true hi, Bool.true_and]

/-- An object type has twelve bits. -/
theorem testBit_of_otype {t i : Nat} (ht : t ≤ 4095) (hi : 12 ≤ i) : t.testBit i = false :=
  Nat.testBit_lt_two_pow ((Nat.lt_succ_of_le ht).trans_le (Nat.pow_le_pow_right (n := 2) (by omega) hi))

theorem Cap.withOtype_eq (x : Cap) {t : W64} (ht : t.toNat ≤ 4095) :
    x.withOtype t.toNat = ⟨x.cur, cleaned ((x.high &&& 0xFF8007FFFFFFFFFF#64) ||| (t <<< 43)), x.tag⟩ := by
  rw [Cap.withOtype, Cap.clean_eq]
  congr 2
  apply BitVec.eq_of_getLsbD_eq
  intro i hi
  rw [BitVec.getLsbD_ofNat, testBit_natSet, BitVec.testBit_toNat, BitVec.testBit_toNat, BitVec.getLsbD_or, BitVec.getLsbD_and,
    getLsbD_otypeMask hi, BitVec.getLsbD_shiftLeft, decide_eq_true hi]
  have hhigh : 55 ≤ i → t.getLsbD (i - 43) = false := fun h => by
    rw [← BitVec.testBit_toNat]
    exact testBit_of_otype ht (by omega)
  by_cases h1 : i < 43
  · simp [h1, Nat.not_le.mpr h1]
  · by_cases h2 : i < 55
    · simp [h1, h2, Nat.not_lt.mp h1]
    · simp [h1, h2, hhigh (by omega)]

theorem Cap.withOtype_zero (x : Cap) : x.withOtype 0 = ⟨x.cur, cleaned (x.high &&& 0xFF8007FFFFFFFFFF#64), x.tag⟩ := by
  have h := x.withOtype_eq (t := 0#64) (by decide)
  rwa [BitVec.zero_shiftLeft, BitVec.or_zero] at h

/-! ### Authority (R108, R247, R248) -/

theorem Cap.withOtype_parts (x : Cap) (t : Nat) : (x.withOtype t).cur = x.cur ∧ (x.withOtype t).tag = x.tag :=
  Cap.parts_of_eq (Cap.clean_eq _)

/-- What a change of the object type alone leaves, and what it sets. -/
theorem Cap.withOtype_spec (x : Cap) {t : Nat} (ht : t ≤ 4095) : let c := x.withOtype t
    c.perms = x.perms ∧ c.world = x.world ∧ c.base = x.base ∧ c.top = x.top ∧ c.otype = t := by
  intro c
  have hlow : c.SameBits x 0 41 := fun i _ hi => by
    rw [getLsbD_withOtype _ _ (by omega), if_neg (by omega), decide_eq_false (by omega), Bool.not_false, Bool.and_true]
  have hhigh : c.SameBits x 55 64 := fun i h0 hi => by
    rw [getLsbD_withOtype _ _ hi, if_neg (by omega), decide_eq_false (by omega), Bool.not_false, Bool.and_true]
  obtain ⟨hb, ht'⟩ := (hlow.mono (by omega) (by omega)).bounds (x.withOtype_parts t).1
  refine ⟨(hlow.mono (by omega) (by omega)).perms, hhigh.world, hb, ht', Nat.eq_of_testBit_eq fun i => ?_⟩
  rw [Cap.otype, testBit_natBits, BitVec.testBit_toNat]
  by_cases hi : i < 12
  · rw [getLsbD_withOtype _ _ (by omega), if_pos (by omega), decide_eq_true hi, decide_eq_false (by omega), Nat.add_sub_cancel_left]
    simp
  · simp [hi, testBit_of_otype ht (Nat.not_lt.mp hi)]

/-- A capability with the bits of another, but for the reserved ones, and a new cursor. -/
theorem Cap.moved_spec {x c : Cap} {v : W64} (h : c = ⟨v, cleaned x.high, x.tag && x.represents v.toNat⟩) :
    c.perms = x.perms ∧ c.world = x.world ∧ c.otype = x.otype ∧
    (c.tag = true → x.tag = true ∧ c.base = x.base ∧ c.top = x.top) := by
  have hlow : c.SameBits x 0 41 := fun i _ hi => by
    rw [h, getLsbD_cleaned _ (by omega), decide_eq_false (by omega), Bool.not_false, Bool.and_true]
  have hhigh : c.SameBits x 43 64 := fun i h0 hi => by
    rw [h, getLsbD_cleaned _ hi, decide_eq_false (by omega), Bool.not_false, Bool.and_true]
  refine ⟨(hlow.mono (by omega) (by omega)).perms, (hhigh.mono (by omega) (by omega)).world, (hhigh.mono (by omega) (by omega)).otype,
    fun ht => ?_⟩
  have hreg := hlow.mono (lo' := 0) (hi' := 35) (by omega) (by omega)
  obtain ⟨he, hblk, -, -⟩ := hreg.region
  rw [h] at ht
  obtain ⟨hx, hr⟩ := (Bool.and_eq_true _ _).mp ht
  exact ⟨hx, hreg.bounds_of_block fun _ => Cap.block_of_represents he hblk (by rw [h]; exact hr)⟩

/-- A capability with some of the permissions of another. -/
theorem Cap.permitted_spec {x c : Cap} {b : W64} (h : c = ⟨x.cur, cleaned (x.high &&& (b ||| 0xFFFFFE07FFFFFFFF#64)), x.tag⟩) :
    c.world = x.world ∧ c.otype = x.otype ∧ c.base = x.base ∧ c.top = x.top ∧
    ∀ i < 6, c.perms.testBit i = (x.perms.testBit i && b.getLsbD (35 + i)) := by
  have hbit (i : Nat) (hi : i < 64) : c.high.getLsbD i =
      (x.high.getLsbD i && (b.getLsbD i || !decide (35 ≤ i ∧ i < 41)) && !decide (i = 41 ∨ i = 42)) := by
    rw [h, getLsbD_cleaned _ hi, BitVec.getLsbD_and, BitVec.getLsbD_or, getLsbD_permMask hi]
  have hlow : c.SameBits x 0 35 := fun i _ hi => by
    rw [hbit i (by omega), decide_eq_false (by omega), decide_eq_false (by omega), Bool.not_false, Bool.or_true,
      Bool.and_true, Bool.and_true]
  have hhigh : c.SameBits x 43 64 := fun i h0 hi => by
    rw [hbit i hi, decide_eq_false (by omega), decide_eq_false (by omega), Bool.not_false, Bool.or_true,
      Bool.and_true, Bool.and_true]
  obtain ⟨hb, ht⟩ := hlow.bounds (Cap.parts_of_eq h).1
  refine ⟨(hhigh.mono (by omega) (by omega)).world, (hhigh.mono (by omega) (by omega)).otype, hb, ht, fun i hi => ?_⟩
  rw [Cap.perms, Cap.perms, testBit_natBits, testBit_natBits, BitVec.testBit_toNat, BitVec.testBit_toNat, hbit _ (by omega),
    decide_eq_true (by omega), decide_eq_true (by omega), decide_eq_false (by omega)]
  simp

/-- Settles O6: each word by what it computes where it completes. -/
theorem capabilitiesOnlyNarrow : Obligations.CapabilitiesOnlyNarrow := by
  unfold Obligations.CapabilitiesOnlyNarrow
  refine fun x y c b => ⟨fun h => ?_, fun h => ?_, fun h => ?_, fun h => ?_, fun h => ?_, fun h => ?_⟩
  · exact Cap.narrow_spec (capBnd_eq_ok.mp h).2.2
  · obtain ⟨-, hc⟩ := capPerm_eq_ok.mp h
    obtain ⟨hcur, htag⟩ := Cap.parts_of_eq hc
    exact ⟨hcur, htag, Cap.permitted_spec hc⟩
  · obtain h | h := h
    · exact Cap.moved_spec (capAdd_eq_ok.mp h).2
    · exact Cap.moved_spec (capSet_eq_ok.mp h).2
  · obtain h | h := h
    · obtain ⟨⟨hx, hy⟩, ⟨-, hyo, -⟩, ⟨hin, -, hle⟩, rfl⟩ := capSeal_eq_ok.mp h
      obtain ⟨hp, hw, hb, ht, -⟩ := x.withOtype_spec hle
      exact ⟨(x.withOtype_parts _).1, hx, hp, hw, hb, ht, hy, hyo, hin⟩
    · obtain ⟨⟨hx, hy⟩, ⟨-, hyo, -⟩, hin, rfl⟩ := capUnseal_eq_ok.mp h
      obtain ⟨hp, hw, hb, ht, -⟩ := x.withOtype_spec (t := 0) (by omega)
      exact ⟨(x.withOtype_parts _).1, hx, hp, hw, hb, ht, hy, hyo, hin⟩
  · obtain ⟨-, ⟨hxo, -, hseal⟩, ⟨-, -, hle⟩, rfl⟩ := capSeal_eq_ok.mp h
    obtain ⟨-, -, -, -, ho⟩ := x.withOtype_spec hle
    exact ⟨hxo, hseal, ho⟩
  · obtain ⟨-, ⟨-, -, hunseal, hcur⟩, -, rfl⟩ := capUnseal_eq_ok.mp h
    obtain ⟨-, -, -, -, ho⟩ := x.withOtype_spec (t := 0) (by omega)
    exact ⟨hcur.symm, hunseal, ho⟩

end Sys2Proof.Machine
end

section
namespace Sys2Proof.Machine
open Sys2Proof

/-! ### The first check of a capability word that fails (R108) -/

theorem Cap.narrow_zero (x : Cap) : x.narrow 0 = none := rfl

theorem capBnd_untagged {x : Cap} (h : x.tag = false) (b : W64) : capBnd x b = .error .captag := by
  rw [capBnd, h]; rfl

theorem capBnd_sealed {x : Cap} (h : x.tag = true) (ho : x.otype ≠ 0) (b : W64) : capBnd x b = .error .capperm := by
  rw [capBnd, h, Cap.isSealed_eq_true.mpr ho]; rfl

theorem capBnd_refused {x : Cap} (h : x.tag = true) (ho : x.otype = 0) {b : W64} (hn : b = 0 ∨ x.narrow b.toNat = none) :
    capBnd x b = .error .capbnd := by
  have hn : x.narrow b.toNat = none := by
    obtain rfl | hn := hn
    · exact x.narrow_zero
    · exact hn
  rw [capBnd, h, Cap.isSealed_eq_false.mpr ho, hn]; rfl

section
variable {x y : Cap}

theorem capSeal_untagged (h : x.tag = false ∨ y.tag = false) : capSeal x y = .error .captag := if_pos (by simpa using h)

theorem capSeal_unauthorised (hx : x.tag = true) (hy : y.tag = true) (h : x.otype ≠ 0 ∨ y.otype ≠ 0 ∨ y.has permSeal = false) :
    capSeal x y = .error .capperm := by
  rw [capSeal, hx, hy, if_neg (by simp), if_pos (by simpa [Cap.isSealed_eq_true, or_assoc] using h)]

theorem capSeal_unbounded (hx : x.tag = true) (hy : y.tag = true) (hxo : x.otype = 0) (hyo : y.otype = 0) (hp : y.has permSeal = true)
    (h : y.inBounds y.cur.toNat 1 = false ∨ y.cur = 0 ∨ 4095 < y.cur.toNat) : capSeal x y = .error .capbnd := by
  rw [capSeal, hx, hy, Cap.isSealed_eq_false.mpr hxo, Cap.isSealed_eq_false.mpr hyo, hp, if_neg (by simp), if_neg (by simp),
    if_pos (by simpa [or_assoc] using h)]

theorem capUnseal_untagged (h : x.tag = false ∨ y.tag = false) : capUnseal x y = .error .captag := if_pos (by simpa using h)

theorem capUnseal_unauthorised (hx : x.tag = true) (hy : y.tag = true)
    (h : x.otype = 0 ∨ y.otype ≠ 0 ∨ y.has permUnseal = false ∨ y.cur.toNat ≠ x.otype) : capUnseal x y = .error .capperm := by
  rw [capUnseal, hx, hy, if_neg (by simp), if_pos (by simpa [Cap.isSealed_eq_true, Cap.isSealed_eq_false, or_assoc] using h)]

theorem capUnseal_unbounded (hx : x.tag = true) (hy : y.tag = true) (hxo : x.otype ≠ 0) (hyo : y.otype = 0)
    (hp : y.has permUnseal = true) (hc : y.cur.toNat = x.otype) (h : y.inBounds y.cur.toNat 1 = false) :
    capUnseal x y = .error .capbnd := by
  rw [capUnseal, hx, hy, Cap.isSealed_eq_true.mpr hxo, Cap.isSealed_eq_false.mpr hyo, hp, hc, if_neg (by simp), if_neg (by simp),
    ← hc, h]
  rfl

/-- What CPERM, CADD and CSET give for a sealed capability. -/
theorem sealed_refused (h : x.tag = true) (ho : x.otype ≠ 0) (c : Cap) :
    (if x.tag && x.isSealed then Except.error Cause.capperm else .ok c) = .error .capperm := by
  rw [h, Cap.isSealed_eq_true.mpr ho]; rfl

theorem capSubset_eq : capSubset x y = (x.tag && y.tag && decide (x.otype = y.otype ∧ x.world = y.world ∧ y.base ≤ x.base ∧
    x.top ≤ y.top ∧ y.perms &&& x.perms = x.perms)) := by
  simp only [capSubset, Cap.has, Bool.decide_and, beq_eq_decide, Bool.and_assoc]
  rfl

end

/-! ### The fields that CGET reads (Table 4.9) -/

theorem capGet_perms (x : Cap) : capGet x 3 = x.high &&& 0x000001F800000000#64 := rfl

theorem ofNat_natBits (v : W64) (pos len : Nat) : BitVec.ofNat 64 (natBits v.toNat pos len) = (v.extractLsb' pos len).setWidth 64 := by
  rw [natBits_toNat, BitVec.ofNat_toNat]

section
variable {s : State} {i : Instr} {cd : CReg} {r : Except Cause Cap} {addr : W64}

theorem Gives.of_capResult {c : Cap} (h : exec i s = s.capResult cd r addr) (hr : r = .ok c) : Gives s i 1 1 (.c cd c) :=
  .of_give (by rw [h, hr]; rfl) rfl

theorem Faults.of_capResult {f : Cause} (hs : s.mayFault) (h : exec i s = s.capResult cd r addr) (hr : r = .error f) :
    Faults s i f addr 0 0 :=
  .of_ctlFault hs (by rw [h, hr]; rfl)

end

/-- Settles O5: each word by what it computes where it completes, and by its first check that fails. -/
theorem capabilityWords : Obligations.CapabilityWords := by
  unfold Obligations.CapabilityWords
  refine ⟨fun s cd ca cb b d kd => ?_, fun s cd ca cb b hs => ?_⟩
  · refine ⟨fun hx ho c hc => ?_, fun hx => ⟨?_, ?_, ?_⟩, ⟨?_, ?_, ?_, ?_, ?_, ?_, ?_, ?_⟩, fun hx hy hxo hyo hp hin h1 h2 => ?_,
      fun hx hy hxo hyo hp hc hin => ?_, .of_give rfl rfl, .of_pred rfl capSubset_eq⟩
    · exact .of_capResult rfl (capBnd_eq_ok.mpr ⟨hx, ho, hc⟩)
    · exact .of_capResult rfl (capPerm_eq_ok.mpr ⟨hx, rfl⟩)
    · exact .of_capResult rfl (capAdd_eq_ok.mpr ⟨hx, rfl⟩)
    · exact .of_capResult rfl (capSet_eq_ok.mpr ⟨hx, rfl⟩)
    · exact .of_eq rfl rfl
    · exact .of_eq rfl rfl
    · exact .of_eq rfl rfl
    · exact .of_eq rfl (capGet_perms _)
    · exact .of_eq rfl (ofNat_natBits _ 43 12)
    · exact .of_eq rfl (ofNat_natBits _ 55 9)
    · exact .of_eq rfl rfl
    · exact .of_eq rfl rfl
    · refine .of_capResult rfl (capSeal_eq_ok.mpr ⟨⟨hx, hy⟩, ⟨hxo, hyo, hp⟩, ⟨hin, ?_, h2⟩, ?_⟩)
      · rintro h
        rw [h] at h1
        exact absurd h1 (by decide)
      · rw [Cap.withOtype_eq _ h2, hx]; rfl
    · refine .of_capResult rfl (capUnseal_eq_ok.mpr ⟨⟨hx, hy⟩, ⟨hxo, hyo, hp, hc⟩, hin, ?_⟩)
      rw [Cap.withOtype_zero, hx]; rfl
  · refine ⟨fun hx => ⟨?_, ?_, ?_⟩, fun hy => ⟨?_, ?_⟩, fun hx ho => ⟨?_, ?_, ?_, ?_⟩, fun hx ho hn => ?_,
      fun hx hy => ⟨fun h => ?_, fun h => ?_, fun hxo hyo hp h => ?_, fun hxo hyo hp hc h => ?_⟩⟩
    · exact .of_capResult hs rfl (capBnd_untagged hx _)
    · exact .of_capResult hs rfl (capSeal_untagged (.inl hx))
    · exact .of_capResult hs rfl (capUnseal_untagged (.inl hx))
    · exact .of_capResult hs rfl (capSeal_untagged (.inr hy))
    · exact .of_capResult hs rfl (capUnseal_untagged (.inr hy))
    · exact .of_capResult hs rfl (capBnd_sealed hx ho _)
    · exact .of_capResult hs rfl (sealed_refused hx ho _)
    · exact .of_capResult hs rfl (sealed_refused hx ho _)
    · exact .of_capResult hs rfl (sealed_refused hx ho _)
    · exact .of_capResult hs rfl (capBnd_refused hx ho hn)
    · exact .of_capResult hs rfl (capSeal_unauthorised hx hy h)
    · exact .of_capResult hs rfl (capUnseal_unauthorised hx hy h)
    · exact .of_capResult hs rfl (capSeal_unbounded hx hy hxo hyo hp h)
    · exact .of_capResult hs rfl (capUnseal_unbounded hx hy hxo hyo hp hc h)

end Sys2Proof.Machine
end

section
namespace Sys2Proof.Machine
open Sys2Proof

/-! ### The checks of a load or store (R102, R105) -/

theorem memAddr_eq (c : Cap) (off : BitVec 24) : memAddr c off = BitVec.ofInt 64 (c.cur.toInt + off.toInt) := by
  rw [memAddr, BitVec.ofInt_add, BitVec.ofInt_toInt]; rfl

theorem Cap.authority_eq_none {c : Cap} {w need : Nat} :
    c.authority w need = none ↔ c.tag = true ∧ c.otype = 0 ∧ c.world = w ∧ c.has need = true := by
  unfold Cap.authority
  rw [← Cap.isSealed_eq_false]
  cases c.tag <;> cases c.isSealed <;> simp

theorem Cap.authority_untagged {c : Cap} (h : c.tag = false) (w need : Nat) : c.authority w need = some .captag := by
  rw [Cap.authority, h]; rfl

theorem Cap.authority_refused {c : Cap} {w need : Nat} (h : c.tag = true) (hr : c.otype ≠ 0 ∨ c.world ≠ w ∨ c.has need = false) :
    c.authority w need = some .capperm := by
  rw [Cap.authority, h, if_neg (by simp), if_pos (by simpa [Cap.isSealed_eq_true, or_assoc] using hr)]

theorem Cap.inBounds_eq_false {c : Cap} {a n : Nat} (h : a < c.base ∨ c.top < a + n ∨ 2 ^ 64 < a + n) : c.inBounds a n = false := by
  simpa only [Cap.inBounds, Bool.and_eq_false_iff, decide_eq_false_iff_not, not_le, or_assoc] using h

/-- A byte that a control-column access may reach (R102 step 7). -/
def State.own (s : State) (store : Bool) (a : Nat) : Bool := if store then s.ownWritable a else s.ownReadable a

section
variable {s : State} {c : Cap} {a : W64} {n need : Nat} {store : Bool}

/-- The access stops at the first of R102's checks that fails. -/
theorem State.accessCause_authority {f : Cause} (h : c.authority s.myWorld need = some f) : s.accessCause c a n need store = some f := by
  rw [State.accessCause, Cap.checkAligned, Cap.check, h]

variable (hauth : c.authority s.myWorld need = none)
include hauth

theorem State.accessCause_bounds (h : c.inBounds a.toNat n = false) : s.accessCause c a n need store = some .capbnd := by
  rw [State.accessCause, Cap.checkAligned, Cap.check, hauth, h]; rfl

variable (hin : c.inBounds a.toNat n = true)
include hin

theorem State.accessCause_align (h : a.toNat % n ≠ 0) : s.accessCause c a n need store = some .align := by
  have hb : (a.toNat % n == 0) = false := by simpa using h
  rw [State.accessCause, Cap.checkAligned, Cap.check, hauth, hin, hb]; rfl

variable (hmod : a.toNat % n = 0) (hf : s.core.fw = none)
include hmod hf

theorem State.accessCause_window : s.accessCause c a n need store =
    if (List.range n).all fun i => s.own store (a.toNat + i) then none else some .capperm := by
  rw [State.accessCause, Cap.checkAligned, Cap.check, hauth, hin, hf]
  simp [hmod, State.own]

theorem State.accessCause_none (hown : ∀ k < n, s.own store (a.toNat + k) = true) : s.accessCause c a n need store = none := by
  rw [State.accessCause_window hauth hin hmod hf, if_pos (by simpa using hown)]

theorem State.accessCause_shut (hown : ∃ k < n, s.own store (a.toNat + k) = false) : s.accessCause c a n need store = some .capperm := by
  rw [State.accessCause_window hauth hin hmod hf, if_neg (by simpa using hown)]

end

/-- An access that may be made passes every check. -/
theorem State.accessCause_of_mayAccess {s : State} {c : Cap} {a : W64} {n need : Nat} {store : Bool}
    (h : s.mayAccess c a n need store) : s.accessCause c a n need store = none := by
  obtain ⟨hf, htag, ho, hw, hhas, hin, hmod, hown⟩ := h
  exact State.accessCause_none (Cap.authority_eq_none.mpr ⟨htag, ho, hw, hhas⟩) hin hmod hf hown

/-! A load or store is its access, checked, and then its work. -/

/-- The word accesses `n` bytes at `a` through `c`, and what stops the access stops the word. -/
def Accesses (s : State) (i : Instr) (c : Cap) (a : W64) (n need : Nat) (store : Bool) : Prop :=
  (∀ f, s.accessCause c a n need store = some f → exec i s = .next (s.ctlFault f a)) ∧
  (s.accessCause c a n need store = none → s.wideBusy a.toNat = true → exec i s = .next (s.ctlFault .slip a 12))

theorem Accesses.of_load {s : State} {i : Instr} {c : Cap} {a : W64} {n : Nat} {wide : Bool} {dst : LoadTo}
    (h : exec i s = .next (s.load c a n wide dst)) : Accesses s i c a n permRead false := by
  refine ⟨fun f hf => ?_, fun hn hb => ?_⟩
  · rw [h, State.load, hf]
  · rw [h, State.load, hn, hb]; rfl

theorem Accesses.of_store {s : State} {i : Instr} {c : Cap} {a : W64} {bs : List Byte} {need : Nat} {tag : Option Bool} {wide : Bool}
    (h : exec i s = .next (s.store c a bs need tag wide)) : Accesses s i c a bs.length need true := by
  refine ⟨fun f hf => ?_, fun hn hb => ?_⟩
  · rw [h, State.store, hf]
  · rw [h, State.store, hn, hb]; rfl

theorem leBytes_length (v n : Nat) : (leBytes v n).length = n := by
  induction n generalizing v with
  | zero => rfl
  | succ n ih => rw [leBytes, List.length_cons, ih]

section
variable (s : State) (d : SReg) (cd c : CReg) (sz : Size) (off : BitVec 24)

theorem accesses_ld : Accesses s (.ld d c sz off) (s.creg c) (memAddr (s.creg c) off) sz.bytes permRead false := .of_load rfl
theorem accesses_lds : Accesses s (.lds d c sz off) (s.creg c) (memAddr (s.creg c) off) sz.bytes permRead false := .of_load rfl
theorem accesses_ldc : Accesses s (.ldc cd c off) (s.creg c) (memAddr (s.creg c) off) 16 permRead false := .of_load rfl

theorem accesses_st : Accesses s (.st d c sz off) (s.creg c) (memAddr (s.creg c) off) sz.bytes permWrite true := by
  have h := Accesses.of_store (s := s) (i := .st d c sz off) rfl
  rwa [leBytes_length] at h

theorem accesses_stc : Accesses s (.stc cd c off) (s.creg c) (memAddr (s.creg c) off) 16
    (if (s.creg cd).tag then permWrite + permStoreCap else permWrite) true := by
  have h := Accesses.of_store (s := s) (i := .stc cd c off) rfl
  rwa [List.length_append, leBytes_length, leBytes_length] at h

end

/-- What O13 says of one word, from the access that it makes. -/
theorem Accesses.checks {s : State} {i : Instr} {x : Cap} {a : W64} {n need : Nat} {store : Bool} (hi : Accesses s i x a n need store)
    (hs : s.mayFault) (hf : s.core.fw = none) :
    (x.tag = false → Faults s i .captag a 0 0)
    ∧ (x.tag = true → x.otype ≠ 0 ∨ x.world ≠ s.myWorld ∨ x.has need = false → Faults s i .capperm a 0 0)
    ∧ (x.authority s.myWorld need = none →
        (a.toNat < x.base ∨ x.top < a.toNat + n ∨ 2 ^ 64 < a.toNat + n → Faults s i .capbnd a 0 0)
        ∧ (x.inBounds a.toNat n = true → a.toNat % n ≠ 0 → Faults s i .align a 0 0)
        ∧ (x.inBounds a.toNat n = true → a.toNat % n = 0 →
            ((∃ k < n, s.own store (a.toNat + k) = false) → Faults s i .capperm a 0 0)
            ∧ ((∀ k < n, s.own store (a.toNat + k) = true) → s.wideBusy a.toNat = true → Faults s i .slip a 12 0))) := by
  obtain ⟨hstop, hslip⟩ := hi
  have stops {f : Cause} (h : s.accessCause x a n need store = some f) : Faults s i f a 0 0 := .of_ctlFault hs (hstop f h)
  refine ⟨fun h => ?_, fun h hr => ?_, fun ha => ⟨fun h => ?_, fun hin h => ?_, fun hin hm => ⟨fun h => ?_, fun h hb => ?_⟩⟩⟩
  · exact stops (State.accessCause_authority (Cap.authority_untagged h _ _))
  · exact stops (State.accessCause_authority (Cap.authority_refused h hr))
  · exact stops (State.accessCause_bounds ha (Cap.inBounds_eq_false h))
  · exact stops (State.accessCause_align ha hin h)
  · exact stops (State.accessCause_shut ha hin hm hf h)
  · exact .of_ctlFault hs (hslip (State.accessCause_none ha hin hm hf h) hb)

/-- Settles O13: the checks of the access that each word makes. -/
theorem accessChecksInOrder : Obligations.AccessChecksInOrder := by
  unfold Obligations.AccessChecksInOrder
  intro s d cd c sz off hs hf
  simp only [← memAddr_eq]
  exact ⟨(accesses_ld s d c sz off).checks hs hf, (accesses_lds s d c sz off).checks hs hf, (accesses_ldc s cd c off).checks hs hf,
    (accesses_st s d c sz off).checks hs hf, (accesses_stc s cd c off).checks hs hf⟩

end Sys2Proof.Machine
end

section
namespace Sys2Proof.Machine
open Sys2Proof

/-! ### The bytes of a load (R94, R103, R104) -/

theorem Mem.read_add (m : Mem) (a k n : Nat) : m.read a (k + n) = m.read a k ++ m.read (a + k) n := by
  simp [Mem.read, List.range_add, Function.comp_def, Nat.add_assoc]

theorem Mem.read_length (m : Mem) (a n : Nat) : (m.read a n).length = n := by simp [Mem.read]

theorem signedNat_eq {n : Nat} (h : 0 < n) (p : Nat) : signedNat n p = (BitVec.ofNat n p).toInt := by
  have h2 : 2 ^ n = 2 * 2 ^ (n - 1) := by rw [← pow_succ', Nat.sub_add_cancel h]
  have : p % 2 ^ n < 2 ^ (n - 1) ↔ 2 * (p % 2 ^ n) < 2 ^ n := by omega
  simp only [signedNat, BitVec.toInt, BitVec.toNat_ofNat, this]
  push_cast
  rfl

theorem Size.bytes_pos (sz : Size) : 0 < sz.bytes := by cases sz <;> decide

section
variable (s : State) (a : Nat)

theorem State.loadDst_zext (d : SReg) (n : Nat) :
    s.loadDst a (.zext d) (s.mem.read a n) = .s d (BitVec.ofNat 64 (leNat (s.mem.read a n))) := rfl

theorem State.loadDst_sext (d : SReg) {n : Nat} (h : 0 < n) : s.loadDst a (.sext d) (s.mem.read a n) =
    .s d ((BitVec.ofNat (8 * n) (leNat (s.mem.read a n))).signExtend 64) := by
  rw [State.loadDst, Mem.read_length, signedNat_eq (by omega)]; rfl

theorem State.loadDst_cap (cd : CReg) (may : Bool) : s.loadDst a (.cap cd may) (s.mem.read a 16) =
    .c cd ⟨BitVec.ofNat 64 (leNat (s.mem.read a 8)), BitVec.ofNat 64 (leNat (s.mem.read (a + 8) 8)),
      may && s.capBank a && s.mem.capTag a⟩ := by
  have h := s.mem.read_add a 8 8
  rw [State.loadDst, h, List.take_left' (s.mem.read_length a 8), List.drop_left' (s.mem.read_length a 8)]

end

/-! ### A load that nothing stops, and one that stalls (R15, R105, R106) -/

/-- A sound load samples: its result is on its way to the end of the third cycle. -/
theorem State.loadInto_sound {s : State} {a n : Nat} (hf : s.core.fw = none) (hd : ∀ i < n, s.mem.damaged (a + i) = false)
    (dst : LoadTo) : s.loadInto a n dst = s.put 3 (s.loadDst a dst (s.mem.read a n)) := by
  rw [State.loadInto, State.loadDamage, State.sample, hf]
  simp only [Option.isSome_none, Bool.false_eq_true, if_false]
  rw [Mem.firstDamage_eq_none hd]
  rfl

section
variable {s : State} {c : Cap} {a : W64} {n : Nat} (hp : s.portFree a) (hm : s.mayAccess c a n permRead false)
include hp hm

theorem State.load_gives (hw : s.core.aboveMark a.toNat n = false) (hd : ∀ i < n, s.mem.damaged (a.toNat + i) = false)
    (wide : Bool) (dst : LoadTo) : s.load c a n wide dst =
      (if wide then (s.put 3 (s.loadDst a.toNat dst (s.mem.read a.toNat n))).useWide a.toNat
        else s.put 3 (s.loadDst a.toNat dst (s.mem.read a.toNat n))).advance 1 := by
  have hfault : (s.put 3 (s.loadDst a.toNat dst (s.mem.read a.toNat n))).core.iss.fault = none := hp.1
  rw [State.load, State.accessCause_of_mayAccess hm, State.loadInto_sound hm.1 hd]
  simp only [hp.2, hw, hfault, Bool.and_false, Bool.false_eq_true, if_false, Option.isSome_none]

theorem State.load_stalls (hdbg : s.core.sys.dbg = false) (hw : s.core.aboveMark a.toNat n = true)
    (wide : Bool) (dst : LoadTo) : s.load c a n wide dst = s.await (.load a.toNat n dst) := by
  rw [State.load, State.accessCause_of_mayAccess hm]
  simp only [hp.2, hdbg, hw, Bool.not_false, Bool.and_true, Bool.false_eq_true, if_false, if_true]

end

/-! ### The mark that an LDC or STC leaves on its bank's port (R105) -/

theorem State.useWide_eq (s : State) (a : Nat) : ∃ w, s.useWide a = s.modIss fun x => { x with wide := w } := by
  unfold State.useWide
  split
  · exact ⟨_, rfl⟩
  · exact ⟨s.core.iss.wide, rfl⟩

theorem State.useWide_issues {s t : State} {a cost : Nat} (h : Issues (s.useWide a) t cost) : Issues s t cost := by
  obtain ⟨w, hw⟩ := s.useWide_eq a
  rw [hw] at h
  exact h

theorem State.useWide_tb (s : State) (a : Nat) : (s.useWide a).tb = s.tb := by
  obtain ⟨w, hw⟩ := s.useWide_eq a
  rw [hw]; rfl

theorem State.put_useWide (s : State) (lat : Nat) (d : Dst) (a : Nat) : (s.put lat d).useWide a = (s.useWide a).put lat d := by
  unfold State.useWide
  split <;> rfl

/-! ### The words, and the end of a stall -/

section
variable {s : State} {c : Cap} {a : W64} {n : Nat} (hp : s.portFree a) (hm : s.mayAccess c a n permRead false)
  (hw : s.core.aboveMark a.toNat n = false) (hd : ∀ i < n, s.mem.damaged (a.toNat + i) = false)
include hp hm hw hd

theorem Gives.of_load {i : Instr} {dst : LoadTo} {d : SReg} {v : W64} (h : exec i s = .next (s.load c a n false dst))
    (hv : s.loadDst a.toNat dst (s.mem.read a.toNat n) = .s d v) : Gives s i 3 1 (.s d v) :=
  .of_give (by rw [h, State.load_gives hp hm hw hd, hv]; rfl) rfl

/-- A wide load leaves the mark of its bank's port beside its result. -/
theorem State.load_wide {i : Instr} {dst : LoadTo} {cd : CReg} {v : Cap} (h : exec i s = .next (s.load c a n true dst))
    (hv : s.loadDst a.toNat dst (s.mem.read a.toNat n) = .c cd v) :
    ∃ t, exec i s = .next t ∧ Issues s t 1 ∧ Lands (s.useWide a.toNat) t (s.tb + 2) (.c cd v) := by
  rw [State.load_gives hp hm hw hd, hv, if_pos rfl, State.put_useWide] at h
  refine ⟨_, h, State.useWide_issues (State.put_issues _ 3 1 _), ?_⟩
  have hl := (s.useWide a.toNat).put_lands 3 1 (d := .c cd v) rfl fun _ _ => rfl
  rwa [State.useWide_tb] at hl

end

theorem State.advance_disp (s : State) (cost : Nat) : (s.advance cost).disp = s.disp := by
  unfold State.advance
  split <;> rfl

/-- The end of a stall: the bytes are sampled, the anchor moves, and the next word issues in the next cycle. -/
theorem exec_loadStallComplete {s : State} {a n : Nat} {dst : LoadTo} {v : Dst} (hfault : s.core.iss.fault = none)
    (hf : s.core.fw = none) (hw : s.core.iss.wait = .load a n dst) (hd : ∀ i < n, s.mem.damaged (a + i) = false)
    (hv : s.loadDst a dst (s.mem.read a n) = v) :
    ∃ t, exec (.loadStallComplete s.cur) s = .next t ∧ t.core.iss.wait = .none ∧ t.mem = s.mem ∧ Issues s t 1
      ∧ t.core.sys = { s.core.sys with anchor := BitVec.ofNat 64 s.tb } ∧ t.eng = s.eng ∧ t.disp = s.disp
      ∧ t.core.iss.pend = s.core.iss.pend ++ [⟨s.tb + 2, v, none, s.tb⟩] := by
  have hex : exec (.loadStallComplete s.cur) s = .next (s.put 3 v).completeWait := by
    show execLoadStallComplete s.cur s = _
    have hput : (s.put 3 v).core.iss.fault = none := hfault
    rw [execLoadStallComplete, State.focus_cur, hw]
    dsimp only
    rw [State.loadInto_sound hf hd, hv, hput]
    rfl
  obtain ⟨hwait, hmem, hsys, hiss, hpend, heng⟩ := State.completeWait_leaves (s.put 3 v)
  have hdisp : (s.put 3 v).completeWait.disp = s.disp := State.advance_disp _ 1
  exact ⟨_, hex, hwait, hmem, hiss, hsys, heng, hdisp, hpend⟩

/-- Settles O11: each load by what it samples, or by the wait it begins, and the wait by its end. -/
theorem loadsGiveOrStall : Obligations.LoadsGiveOrStall := by
  unfold Obligations.LoadsGiveOrStall
  refine ⟨fun s d cd c sz off => ?_, fun s d cd c sz off => ?_, fun s a hfault hf => ⟨fun d sz => ⟨?_, ?_⟩, fun cd may => ?_⟩⟩
  · simp only [← memAddr_eq]
    refine fun hp => ⟨fun hm hw hd => ⟨?_, ?_⟩, fun hm hw hd => ?_⟩
    · exact .of_load hp hm hw hd rfl (s.loadDst_zext _ d _)
    · exact .of_load hp hm hw hd rfl (s.loadDst_sext _ d (Size.bytes_pos sz))
    · exact State.load_wide hp hm hw hd rfl (s.loadDst_cap _ cd _)
  · simp only [← memAddr_eq]
    refine fun hp hdbg => ⟨fun hm hw => ⟨?_, ?_⟩, fun hm hw => ?_⟩
    · exact congrArg _ (State.load_stalls hp hm hdbg hw false (.zext d))
    · exact congrArg _ (State.load_stalls hp hm hdbg hw false (.sext d))
    · exact congrArg _ (State.load_stalls hp hm hdbg hw true _)
  · exact fun hw hd => exec_loadStallComplete hfault hf hw hd (s.loadDst_zext a d _)
  · exact fun hw hd => exec_loadStallComplete hfault hf hw hd (s.loadDst_sext a d (Size.bytes_pos sz))
  · exact fun hw hd => exec_loadStallComplete hfault hf hw hd (s.loadDst_cap a cd may)

end Sys2Proof.Machine
end

section
namespace Sys2Proof.Machine
open Sys2Proof

/-! ### Stores (R94, R103 to R105) -/

/-- A tag written or cleared changes no byte. -/
theorem Mem.untag_get (m : Mem) (a n b : Nat) : (m.untag a n).get b = m.get b := by
  unfold Mem.untag
  split <;> rfl

theorem Mem.setCapTag_get (m : Mem) (a : Nat) (t : Bool) (b : Nat) : (m.setCapTag a t).get b = m.get b := by
  unfold Mem.setCapTag
  split
  · rfl
  · split <;> rfl

theorem State.storeWrite_get {s : State} (h : s.mem.wf = true) (w : StorePend) (b : Nat) : (s.storeWrite w).mem.get b =
    if w.addr ≤ b ∧ b < w.addr + w.bytes.length then w.bytes[b - w.addr]! else s.mem.get b := by
  have hbytes : (s.storeWrite w).mem.get b = ((s.mem.write w.addr w.bytes).untag w.addr w.bytes.length).get b := by
    unfold State.storeWrite
    dsimp only
    split
    · split
      · exact Mem.setCapTag_get _ _ _ b
      · rfl
    · rfl
  rw [hbytes, Mem.untag_get, Mem.get_write h, List.getElem!_eq_getElem?_getD, List.getD_eq_getElem?_getD]
  rfl

theorem State.storeWrite_wf {s : State} (h : s.mem.wf = true) (w : StorePend) : (s.storeWrite w).mem.wf = true := by
  have hw := Mem.untag_wf (Mem.write_wf h w.addr w.bytes) w.addr w.bytes.length
  unfold State.storeWrite
  dsimp only
  split
  · split
    · exact Mem.setCapTag_wf hw _ _
    · exact hw
  · exact hw

theorem State.storeWrites_wf (l : List StorePend) {s : State} (h : s.mem.wf = true) :
    (l.foldl (fun (s : State) w => s.storeWrite w) s).mem.wf = true := by
  induction l generalizing s with
  | nil => exact h
  | cons w r ih => exact ih (State.storeWrite_wf h w)

/-- With no row and no result on its way, memory at the end of a cycle is what the stores of the cycle leave. -/
theorem State.commit_mem {s : State} (hb : s.core.iss.bankPend = []) (hp : s.core.iss.pend = []) (e : Nat) :
    (s.commit e).mem = (s.core.iss.stores.foldl (fun (t : State) w => t.storeWrite w) s).mem := by
  rw [State.commit_eq, Mem.atEnd, hb, hp]
  rfl

/-- A store left for the end of the cycle. -/
def State.storing (s : State) (w : StorePend) : State := s.modIss fun y => { y with stores := y.stores ++ [w] }

theorem State.storing_useWide (s : State) (w : StorePend) (a : Nat) : (s.storing w).useWide a = (s.useWide a).storing w := by
  unfold State.useWide
  split <;> rfl

theorem State.store_passes {s : State} {c : Cap} {a : W64} {bs : List Byte} {need : Nat} (hp : s.portFree a)
    (hm : s.mayAccess c a bs.length need true) (tag : Option Bool) (wide : Bool) : s.store c a bs need tag wide =
      ((if wide then s.useWide a.toNat else s).storing ⟨a.toNat, bs, tag⟩).advance 1 := by
  have hd : s.storeDamage a.toNat = none := by rw [State.storeDamage, hm.1]; rfl
  rw [State.store, State.accessCause_of_mayAccess hm, hp.2, if_neg Bool.false_ne_true, hd]
  cases wide
  · rfl
  · exact congrArg (·.advance 1) (s.storing_useWide _ _)

/-- The place that the control column moves on to. -/
theorem State.advance_eq (s : State) (cost : Nat) : ∃ l lc pc, s.advance cost = s.modC fun c => { c with
    ctl := { c.ctl with loops := l, lc := lc }, iss := { c.iss with pc := pc, next := s.tb + cost } } := by
  unfold State.advance
  split
  · exact ⟨s.core.ctl.loops, s.core.ctl.lc, _, rfl⟩
  · exact ⟨_, _, _, rfl⟩

/-- What a store does to memory at the end of its cycle: its own bytes hold its value, all others what they held without it. -/
theorem State.commit_storing {s : State} (hb : s.core.iss.bankPend = []) (hp : s.core.iss.pend = []) (hm : s.mem.wf = true)
    {f : Core → Core} {w : StorePend} (hsys : ∀ c, (f c).sys = c.sys) (hst : (f s.core).iss.stores = s.core.iss.stores ++ [w])
    (hfb : (f s.core).iss.bankPend = s.core.iss.bankPend) (hfp : (f s.core).iss.pend = s.core.iss.pend) (e b : Nat) :
    ((s.modC f).commit e).mem.get b =
      if w.addr ≤ b ∧ b < w.addr + w.bytes.length then w.bytes[b - w.addr]! else (s.commit e).mem.get b := by
  rw [State.commit_mem (hfb.trans hb) (hfp.trans hp), State.commit_mem hb hp, State.modC_core, hst, State.storeWrites_modC f hsys,
    State.modC_mem, List.foldl_append, List.foldl_cons, List.foldl_nil, State.storeWrite_get (State.storeWrites_wf _ hm)]

/-- A store's word issues, and its bytes stand in memory from the end of the cycle on; `u` is the state with the port's mark, where
the store leaves one. -/
theorem State.storing_spec {s u : State} (hu : ∃ m, u = s.modIss fun x => { x with wide := m }) (w : StorePend) (e b : Nat) :
    let t := (u.storing w).advance 1
    Issues s t 1 ∧ t.core.iss.pend = s.core.iss.pend ∧ t.steady = (u.storing w).steady ∧
    (s.core.iss.bankPend = [] ∧ s.core.iss.pend = [] ∧ s.mem.wf = true → (t.commit e).mem.get b =
      if w.addr ≤ b ∧ b < w.addr + w.bytes.length then w.bytes[b - w.addr]! else (s.commit e).mem.get b) := by
  obtain ⟨m, rfl⟩ := hu
  refine ⟨State.advance_issues _ 1, State.advance_pend _ 1, State.advance_steady _ 1, fun ⟨hb, hp, hm⟩ => ?_⟩
  obtain ⟨l, lc, pc, h⟩ := State.advance_eq ((s.modIss fun x => { x with wide := m }).storing w) 1
  rw [h]
  exact State.commit_storing hb hp hm (f := fun c => { c with
    ctl := { c.ctl with loops := l, lc := lc }
    iss := { c.iss with wide := m, stores := c.iss.stores ++ [w], pc := pc, next := s.tb + 1 } }) (fun _ => rfl) rfl rfl rfl e b

/-- Settles O12: each store by what it leaves for the end of the cycle, and that by the stores of the cycle in their order. -/
theorem storesWriteTheirBytes : Obligations.StoresWriteTheirBytes := by
  unfold Obligations.StoresWriteTheirBytes
  intro s d cd c sz off e b
  simp only [← memAddr_eq]
  refine fun hp => ⟨fun hm => ?_, fun hm => ?_⟩
  · have hst := State.store_passes (bs := leBytes (s.sreg d).toNat sz.bytes) hp (by rwa [leBytes_length]) none false
    exact ⟨_, congrArg Host.Outcome.next hst, State.storing_spec ⟨s.core.iss.wide, rfl⟩ _ e b⟩
  · have hst := State.store_passes (bs := leBytes (s.creg cd).cur.toNat 8 ++ leBytes (s.creg cd).high.toNat 8) hp
      (by rwa [List.length_append, leBytes_length, leBytes_length]) (some (s.creg cd).tag) true
    exact ⟨_, congrArg Host.Outcome.next hst, State.storing_spec (s.useWide_eq _) _ e b⟩

end Sys2Proof.Machine
end

section
namespace Sys2Proof.Machine
open Sys2Proof

/-! ### Numbers made of digits -/

/-- The number of `n` digits of `w` bits, the lowest first. -/
def digits (w : Nat) (f : Nat → Nat) (n : Nat) : Nat := (List.range n).foldl (fun a i => a + f i * 2 ^ (w * i)) 0

theorem digits_succ (w : Nat) (f : Nat → Nat) (n : Nat) : digits w f (n + 1) = 2 ^ (w * n) * f n + digits w f n := by
  rw [digits, List.range_succ, List.foldl_append, List.foldl_cons, List.foldl_nil, Nat.add_comm, Nat.mul_comm]
  rfl

theorem digits_lt {w : Nat} {f : Nat → Nat} (hf : ∀ i, f i < 2 ^ w) (n : Nat) : digits w f n < 2 ^ (w * n) := by
  induction n with
  | zero => simp [digits]
  | succ n ih =>
    have : 2 ^ (w * n) * (f n + 1) ≤ 2 ^ (w * n) * 2 ^ w := Nat.mul_le_mul_left _ (hf n)
    rw [digits_succ, Nat.mul_succ, pow_add]
    rw [Nat.mul_succ] at this
    omega

theorem testBit_digits {w : Nat} (hw : 0 < w) {f : Nat → Nat} (hf : ∀ i, f i < 2 ^ w) (n k : Nat) :
    (digits w f n).testBit k = (decide (k < w * n) && (f (k / w)).testBit (k % w)) := by
  induction n with
  | zero => simp [digits]
  | succ n ih =>
    rw [digits_succ, Nat.testBit_two_pow_mul_add _ (digits_lt hf n), ih, Nat.mul_succ]
    obtain h | ⟨hl, hu⟩ | h : k < w * n ∨ (w * n ≤ k ∧ k < w * n + w) ∨ w * n + w ≤ k := by omega
    · simp [h, show k < w * n + w by omega]
    · have hq : k / w = n := Nat.div_eq_of_lt_le (by rw [Nat.mul_comm]; exact hl) (by rw [Nat.mul_comm, Nat.mul_succ]; exact hu)
      simp [Nat.not_lt.mpr hl, hu, Nat.mod_def, hq]
    · have hz : (f n).testBit (k - w * n) = false :=
        Nat.testBit_lt_two_pow ((hf n).trans_le (Nat.pow_le_pow_right (by omega) (by omega)))
      simp [hz, show ¬ k < w * n by omega, show ¬ k < w * n + w by omega]

/-- The digit at place `i`, bit by bit. -/
theorem testBit_digits_at {w n i j : Nat} {f : Nat → Nat} (hf : ∀ i, f i < 2 ^ w) (hi : i < n) (hj : j < w) :
    (digits w f n).testBit (w * i + j) = (f i).testBit j := by
  have hlt : w * i + j < w * n := by
    have : w * i + w ≤ w * n := by rw [← Nat.mul_succ]; exact Nat.mul_le_mul_left _ hi
    omega
  rw [testBit_digits (by omega) hf, decide_eq_true hlt, Bool.true_and, Nat.mul_add_div (by omega), Nat.div_eq_of_lt hj,
    Nat.mul_add_mod, Nat.mod_eq_of_lt hj, Nat.add_zero]

/-- A digit of a bit vector that holds them all. -/
theorem extractLsb'_digits {w n m i : Nat} (f : Nat → BitVec w) (hi : i < n) (hm : w * n ≤ m) :
    (BitVec.ofNat m (digits w (fun i => (f i).toNat) n)).extractLsb' (w * i) w = f i := by
  apply BitVec.eq_of_getLsbD_eq
  intro j hj
  have hlt : w * i + j < m := by
    have : w * i + w ≤ w * n := by rw [← Nat.mul_succ]; exact Nat.mul_le_mul_left _ hi
    omega
  rw [BitVec.getLsbD_extractLsb', BitVec.getLsbD_ofNat, testBit_digits_at (fun i => (f i).isLt) hi hj, decide_eq_true hj,
    decide_eq_true hlt, Bool.true_and, Bool.true_and, BitVec.testBit_toNat]

/-- Numbered entries of a list that is itself given by number. -/
theorem zipIdx_map_range {α : Type} (h : Nat → α) (n : Nat) : ((List.range n).map h).zipIdx = (List.range n).map fun i => (h i, i) :=
  List.ext_getElem (by simp) fun i _ _ => by simp

/-! ### Lanes, elements and bytes of a row (R120, R2) -/

@[simp] theorem lane_rowOfLanes (f : Nat → W32) {i : Nat} (h : i < 32) : lane (rowOfLanes f) i = f i :=
  extractLsb'_digits f h (by omega)

@[simp] theorem elem16_rowOfElems (f : Nat → BitVec 16) {i : Nat} (h : i < 64) : elem16 (rowOfElems f) i = f i :=
  extractLsb'_digits f h (by omega)

theorem VType.elem_lt (ty : VType) (r : Row) (j : Nat) : VType.elem ty r j < 2 ^ ty.bits := by
  cases ty <;> exact BitVec.isLt _

/-- A type's elements are lanes or 16-bit elements. -/
theorem VType.bits_eq (ty : VType) : ty.bits = 32 ∨ ty.bits = 16 := by cases ty <;> simp [VType.bits]

theorem VType.elem_lanes {ty : VType} (h : ty.bits = 32) (r : Row) (j : Nat) : VType.elem ty r j = (lane r j).toNat := if_pos h

theorem VType.elem_halves {ty : VType} (h : ty.bits = 16) (r : Row) (j : Nat) : VType.elem ty r j = (elem16 r j).toNat :=
  if_neg (by omega)

theorem VType.row.congr {ty : VType} {r : Row} {f g : Nat → Nat} (h : VType.row ty r f)
    (hg : ∀ j < VType.count ty, f j % 2 ^ ty.bits = g j % 2 ^ ty.bits) : VType.row ty r g :=
  fun j hj => (h j hj).trans (hg j hj)

/-- A row put together from its elements, as lanes or as 16-bit elements. -/
theorem VType.row_of_elems (ty : VType) (f : Nat → Nat) : VType.row ty
    (if ty.bits == 32 then rowOfLanes fun i => BitVec.ofNat 32 (f i) else rowOfElems fun i => BitVec.ofNat 16 (f i)) f := by
  intro j hj
  obtain h | h := VType.bits_eq ty
  · rw [VType.count, if_pos h] at hj
    rw [VType.elem_lanes h, h, if_pos (by rfl), lane_rowOfLanes _ hj, BitVec.toNat_ofNat]
  · rw [VType.count, if_neg (by omega)] at hj
    rw [VType.elem_halves h, h, if_neg (by decide), elem16_rowOfElems _ hj, BitVec.toNat_ofNat]

/-- What `mapElems` makes of the corresponding elements of some rows. -/
theorem VType.row_mapElems (ty : VType) (rows : List Row) (f : List Nat → Nat) :
    VType.row ty (mapElems ty rows f) fun j => f (rows.map fun r => VType.elem ty r j) := by
  have h := VType.row_of_elems ty fun j => f (rows.map fun r => VType.elem ty r j)
  unfold mapElems
  split at h
  case isTrue hb => simpa only [if_pos hb, VType.elem_lanes (eq_of_beq hb)] using h
  case isFalse hb => simpa only [if_neg hb, VType.elem_halves ((VType.bits_eq ty).resolve_left fun e => hb (by simp [e]))] using h

end Sys2Proof.Machine
end

section
namespace Sys2Proof.Machine
open Sys2Proof

/-! ### An operation that passes its checks (R79, R121, R124) -/

theorem State.operate_ok {s t : State} {col : Col} {st : Stream} {f : Stream → Part? State} (hr : (s.core.col col).run = some st)
    (hf : f st = .ok t) (stp : Stp) (due : Nat) : s.operate col stp due f = .next (t.opDone col st stp due) := by
  unfold State.operate
  rw [hr]
  dsimp only
  rw [hf]

/-- An operation whose part leaves `u` with the ports of `rows` taken. -/
theorem Operates.of_operate {s u : State} {i : Instr} {col : Col} {st : Stream} {stp : Stp} {due : Nat} {rows : List RowArg}
    {f : Stream → Part? State} (hr : (s.core.col col).run = some st) (h : exec i s = s.operate col stp due f)
    (hf : f st = .ok (u.reading col rows)) : Operates s i col st stp due rows u :=
  h.trans (State.operate_ok hr hf stp due)

/-- The same for one that reads no row. -/
theorem Operates.of_operate_regs {s u : State} {i : Instr} {col : Col} {st : Stream} {stp : Stp} {due : Nat} {f : Stream → Part? State}
    (hr : (s.core.col col).run = some st) (h : exec i s = s.operate col stp due f) (hf : f st = .ok u) :
    Operates s i col st stp due [] u :=
  .of_operate hr h (hf.trans (congrArg Except.ok (u.reading_nil col).symm))

theorem Part?.mapM_ok {α β : Type} {f : α → Part? β} {g : α → β} {l : List α} (h : ∀ a ∈ l, f a = .ok (g a)) :
    l.mapM f = .ok (l.map g) := by
  induction l with
  | nil => rfl
  | cons a l ih =>
    rw [List.mapM_cons, h a List.mem_cons_self, ih fun b hb => h b (List.mem_cons_of_mem _ hb)]
    rfl

/-- The state in which a column has taken the write port of some rows. -/
def State.writing (s : State) (ps : List (Col × Nat)) : State := s.modIss fun x => { x with wports := x.wports ++ ps }

theorem State.writing_nil (s : State) : s.writing [] = s := by simp [State.writing, State.modIss]

/-- A write that may be takes its port in this cycle, or no port yet. -/
theorem State.checkWrite_free {s : State} {st : Stream} {col : Col} {r : RowArg} {due : Nat} (h : s.writeFree st col r due) :
    s.checkWrite st col r.1 r.2.1 r.2.2 due = .ok (s.writing (if due == s.tb then [(col, r.1.toNat)] else [])) := by
  obtain ⟨hstop, hport⟩ := h
  unfold State.checkWrite
  rw [hstop]
  dsimp only
  rw [if_neg (by simpa using fun x hx hc hd hb => hport x hx hc hd hb)]
  split
  · rfl
  · rw [State.writing_nil]

theorem State.checkWrite_later {s : State} {st : Stream} {col : Col} {r : RowArg} {due : Nat} (h : s.writeFree st col r due)
    (hd : s.tb < due) : s.checkWrite st col r.1 r.2.1 r.2.2 due = .ok s := by
  rw [State.checkWrite_free h, if_neg (by simp; omega), State.writing_nil]

theorem State.rowFree_writing {s : State} {st : Stream} {col : Col} {r : RowArg} (ps : List (Col × Nat)) :
    (s.writing ps).rowFree st col r ↔ s.rowFree st col r := by
  unfold State.rowFree State.writing
  rw [State.rowStop_modIss]
  rfl

theorem State.rowsFree_writing {s : State} {st : Stream} {col : Col} {rows : List RowArg} (ps : List (Col × Nat)) :
    (s.writing ps).rowsFree st col rows ↔ s.rowsFree st col rows := by
  simp only [State.rowsFree, State.rowFree_writing]

/-- One row that may be read takes its port and gives its bytes. -/
theorem State.readRow_free {s : State} {st : Stream} {col : Col} {r : RowArg} (h : s.rowsFree st col [r]) :
    s.checkRead st col r.1 r.2.1 r.2.2 = .ok (s.reading col [r]) ∧
      (s.reading col [r]).fetchRow r.1 r.2.1 = .ok (s.rowOf r.1 r.2.1) := by
  obtain ⟨hrow, -⟩ := State.rowsFree_cons h
  obtain ⟨-, -, -, hsound⟩ := id hrow
  exact ⟨State.checkRead_free hrow, State.fetchRow_sound (s := s.reading col [r]) hsound⟩

/-! ### The operands of a vector operation (R121) -/

/-- The write port that a vector operation takes in its own cycle: that of a row result of latency 1. -/
def Stream.vPort (st : Stream) (mem : Bool) (d : VArg) (lat : Nat) : List (Col × Nat) :=
  if mem && lat == 1 then [(.vector, (st.field d.reg.toNat).toNat)] else []

section
variable {s : State} {st : Stream} {mem : Bool} {args : List VArg}

/-- The sources, checked in their order, take the ports of their rows. -/
theorem State.vSrcs_free (h : s.rowsFree st .vector (st.vRows mem args)) :
    s.vSrcs st mem args = .ok (s.reading .vector (st.vRows mem args)) := by
  cases mem
  case false =>
    induction args with
    | nil => exact congrArg Except.ok (s.reading_nil _).symm
    | cons a l ih => exact ih h
  case true =>
    induction args generalizing s with
    | nil => exact congrArg Except.ok (s.reading_nil _).symm
    | cons a l ih =>
      obtain ⟨ha, hl⟩ := State.rowsFree_cons h
      have hsrc : s.vSrc st true a.reg a.bytes a.fmts = _ := State.checkRead_free ha
      rw [State.vSrcs, List.foldlM_cons, hsrc]
      exact (ih hl).trans (congrArg Except.ok (s.reading_reading ..))

/-- The sources hold what they do, whatever ports are taken by then. -/
theorem State.vVals_free (h : s.rowsFree st .vector (st.vRows mem args)) (f : Issue → Issue) :
    (s.modIss f).vVals st mem args = .ok (args.map (s.vSource st mem)) := by
  refine Part?.mapM_ok fun a ha => ?_
  cases mem
  case false => rfl
  case true =>
    obtain ⟨-, -, -, hsound⟩ := h.1 (st.field a.reg.toNat, a.bytes, a.fmts) (List.mem_map.mpr ⟨a, ha, rfl⟩)
    exact State.fetchRow_sound (s := s.modIss f) hsound

theorem State.vDst_free {d : VArg} {lat : Nat} (h : s.vFree st mem (some d) lat args) (hl : 0 < lat) :
    s.vDst st mem d.reg d.bytes d.fmts lat =
      .ok (s.writing (st.vPort mem d lat)) := by
  cases mem
  case false => exact congrArg Except.ok s.writing_nil.symm
  case true =>
    have hdue : (s.tb + lat - 1 == s.tb) = (lat == 1) := by rw [Bool.eq_iff_iff, beq_iff_eq, beq_iff_eq]; omega
    have := State.checkWrite_free (h.1 rfl d rfl)
    rwa [hdue] at this

end

/-! ### The two shapes of vector operation -/

section
variable {s : State} {st : Stream} {i : Instr} {stp : Stp} {mem : Bool} {lat : Nat} {args : List VArg}
  (hr : s.core.iss.vec.run = some st)
include hr

/-- An operation with a row result gives what its function makes of its sources. -/
theorem VGives.of_vecOp {d : VArg} {f : Rnd → List Row → Row} {r : Row}
    (h : exec i s = s.vecOp stp mem lat d.reg d.fmts d.bytes args f) (hl : 0 < lat)
    (hf : f (s.vMode st mem d.reg) (args.map (s.vSource st mem)) = r) : VGives s i st stp mem d lat args r := by
  subst hf
  intro hfree
  have hdst := State.vDst_free hfree hl
  refine .of_operate (col := .vector) hr h ((Part?.bind_of_ok _ hdst).trans ?_)
  have hrows := (State.rowsFree_writing (st.vPort mem d lat)).mpr hfree.2
  refine (Part?.bind_of_ok _ (State.vSrcs_free hrows)).trans ?_
  refine (Part?.bind_of_ok _ (State.vVals_free hrows _)).trans ?_
  cases mem <;> rfl

/-- An operation without a row result does what its function makes of its sources, where that leaves the ports alone. -/
theorem Operates.of_vecTo {f : State → Stream → List Row → State} (h : exec i s = s.vecTo stp mem lat args f)
    (hfree : s.vFree st mem none lat args)
    (hf : f (s.reading .vector (st.vRows mem args)) st (args.map (s.vSource st mem)) =
      (f s st (args.map (s.vSource st mem))).reading .vector (st.vRows mem args)) :
    Operates s i .vector st stp (s.tb + lat - 1) (st.vRows mem args) (f s st (args.map (s.vSource st mem))) := by
  refine .of_operate (col := .vector) hr h ((Part?.bind_of_ok _ (State.vSrcs_free hfree.2)).trans ?_)
  exact (Part?.bind_of_ok _ (State.vVals_free hfree.2 _)).trans (congrArg Except.ok hf)

end

end Sys2Proof.Machine
end

section
namespace Sys2Proof.Machine
open Sys2Proof

/-! ### Typed arithmetic (R128, Table 5.3) -/

/-- The maximum or minimum of Table 5.3, with the comparison that takes the second operand as one condition. -/
theorem pickFloat_eq (f : FFmt) (larger : Bool) (a b : Nat) : pickFloat f larger a b =
    if (f.decode a).isNaN || (f.decode b).isNaN then f.nanPat
    else if FVal.cmp (f.decode a) (f.decode b) = (if larger then .lt else .gt) ∨
        FVal.cmp (f.decode a) (f.decode b) = .eq ∧ (a / f.signBit % 2 == 1) = larger then b else a := by
  unfold pickFloat
  dsimp only
  cases FVal.cmp (f.decode a) (f.decode b) <;> cases larger <;> simp

/-- One element of Table 5.3 over the integers. -/
def arithInt (op : Arith) (a b d : Int) : Int :=
  match op with
  | .add => a + b
  | .sub => a - b
  | .mul => a * b
  | .fma => a * b + d
  | .fms => a * b - d
  | .max => max a b
  | .min => min a b

theorem ofInt_signedNat (a : Nat) : BitVec.ofInt 32 (signedNat 32 a) = BitVec.ofNat 32 a := by
  rw [signedNat_eq (by omega), BitVec.ofInt_toInt]

theorem ofInt_sub (n : Nat) (x y : Int) : BitVec.ofInt n (x - y) = BitVec.ofInt n x - BitVec.ofInt n y := by
  rw [Int.sub_eq_add_neg, BitVec.ofInt_add, BitVec.ofInt_neg, BitVec.sub_eq_add_neg]

/-- INT32 arithmetic wraps the integers' result. -/
theorem arithElem_int32 (op : Arith) (mode : Rnd) (a b d : Nat) : arithElem op .int32 mode a b d =
    (arithInt op (signedNat 32 a) (signedNat 32 b) (signedNat 32 d) % 2 ^ 32).toNat := by
  have hlt (x y : Nat) : (BitVec.ofNat 32 x).slt (BitVec.ofNat 32 y) = decide (signedNat 32 x < signedNat 32 y) := by
    rw [signedNat_eq (by omega), signedNat_eq (by omega), BitVec.slt_eq_decide]
  have hw (z : Int) : (z % 2 ^ 32).toNat = (BitVec.ofInt 32 z).toNat := (BitVec.toNat_ofInt z).symm
  rw [hw]
  cases op <;> simp only [arithElem, arithInt, VType.float?, VType.fmt, Fmt.float?, hlt, decide_eq_true_eq]
  case add => rw [BitVec.ofInt_add, ofInt_signedNat, ofInt_signedNat]
  case sub => rw [ofInt_sub, ofInt_signedNat, ofInt_signedNat]
  case mul => rw [BitVec.ofInt_mul, ofInt_signedNat, ofInt_signedNat]
  case fma => rw [BitVec.ofInt_add, BitVec.ofInt_mul, ofInt_signedNat, ofInt_signedNat, ofInt_signedNat]
  case fms => rw [ofInt_sub, BitVec.ofInt_mul, ofInt_signedNat, ofInt_signedNat, ofInt_signedNat]
  case max => rw [max_def_lt, apply_ite (BitVec.ofInt 32), ofInt_signedNat, ofInt_signedNat]
  case min => rw [min_comm, min_def_lt, apply_ite (BitVec.ofInt 32), ofInt_signedNat, ofInt_signedNat]

/-- A source or destination of a type: a whole row in a bank of that type or RAW (R122). -/
def VType.arg (ty : VType) (r : VReg) : VArg := ⟨r, fullRow, some [.raw, VType.fmt ty]⟩

section
variable {s : State} {st : Stream} {i : Instr} {ty : VType} {mem : Bool} {stp : Stp} (hr : s.core.iss.vec.run = some st)
include hr

/-- An operation on the corresponding elements of typed rows gives every element of its result. -/
theorem VGives.of_mapElems {d : VReg} {lat : Nat} {from_ : List VReg} {f : Rnd → List Nat → Nat} {g : Nat → Nat}
    (h : exec i s = s.vecOp stp mem lat d (some (VType.admits ty)) fullRow (from_.map (VType.arg ty))
      fun mode rows => mapElems ty rows (f mode)) (hl : 0 < lat)
    (hg : ∀ j, f (s.vMode st mem d) (from_.map fun r => VType.elem ty (s.vSource st mem (VType.arg ty r)) j) = g j) :
    ∃ r, VType.row ty r g ∧ VGives s i st stp mem (VType.arg ty d) lat (from_.map (VType.arg ty)) r := by
  refine ⟨_, ?_, VGives.of_vecOp (d := VType.arg ty d) hr h hl rfl⟩
  refine (VType.row_mapElems ty _ _).congr fun j _ => congrArg (· % _) ?_
  rw [← hg j, List.map_map, List.map_map]
  rfl

/-- The typed group of two sources. -/
theorem VGives.of_arith2 {op : Arith} {lat : Nat} {d a b : VReg} {g : Nat → Nat} (h : exec i s = s.arith2 op lat ty d a b mem stp)
    (hl : 0 < lat) (hg : ∀ j, arithElem op ty (s.vMode st mem d) (VType.elem ty (s.vSource st mem (VType.arg ty a)) j)
      (VType.elem ty (s.vSource st mem (VType.arg ty b)) j) 0 = g j) :
    ∃ r, VType.row ty r g ∧ VGives s i st stp mem (VType.arg ty d) lat ([a, b].map (VType.arg ty)) r :=
  VGives.of_mapElems hr (f := fun mode es => arithElem op ty mode (es.getD 0 0) (es.getD 1 0) 0) h hl hg

/-- The typed group that reads its destination. -/
theorem VGives.of_arith3 {op : Arith} {d a b : VReg} {g : Nat → Nat} (h : exec i s = s.arith3 op ty d a b mem stp)
    (hg : ∀ j, arithElem op ty (s.vMode st mem d) (VType.elem ty (s.vSource st mem (VType.arg ty a)) j)
      (VType.elem ty (s.vSource st mem (VType.arg ty b)) j) (VType.elem ty (s.vSource st mem (VType.arg ty d)) j) = g j) :
    ∃ r, VType.row ty r g ∧ VGives s i st stp mem (VType.arg ty d) 4 ([d, a, b].map (VType.arg ty)) r :=
  VGives.of_mapElems hr (f := fun mode es => arithElem op ty mode (es.getD 1 0) (es.getD 2 0) (es.getD 0 0)) h (by omega) hg

end

/-- Settles O19: the element of each operation, in a floating-point type and in INT32. -/
theorem vectorArithmetic : Obligations.VectorArithmetic := by
  unfold Obligations.VectorArithmetic
  intro s st ty d a b mem stp hr
  refine ⟨fun f hf => ?_, ?_⟩
  · have two {i op lat g} := VGives.of_arith2 (mem := mem) (i := i) (ty := ty) (stp := stp) hr (op := op) (lat := lat) (d := d) (a := a)
      (b := b) (g := g)
    have three {i op g} := VGives.of_arith3 (mem := mem) (i := i) (ty := ty) (stp := stp) hr (op := op) (d := d) (a := a) (b := b)
      (g := g)
    simp only [arithElem, hf, pickFloat_eq] at two three
    exact ⟨two rfl (by omega) fun _ => rfl, two rfl (by omega) fun _ => rfl, two rfl (by omega) fun _ => rfl,
      three rfl fun _ => rfl, three rfl fun _ => rfl, two rfl (by omega) fun _ => rfl, two rfl (by omega) fun _ => rfl⟩
  · rintro rfl
    have two {i lat} (op : Arith) (h : exec i s = s.arith2 op lat .int32 d a b mem stp) (hl : 0 < lat) :=
      VGives.of_arith2 hr h hl fun j => arithElem_int32 ..
    have three {i} (op : Arith) (h : exec i s = s.arith3 op .int32 d a b mem stp) := VGives.of_arith3 hr h fun j => arithElem_int32 ..
    exact ⟨two .add rfl (by omega), two .sub rfl (by omega), two .mul rfl (by omega), three .fma rfl, three .fms rfl,
      two .max rfl (by omega), two .min rfl (by omega)⟩

end Sys2Proof.Machine
end

section
namespace Sys2Proof.Machine
open Sys2Proof

/-! ### Logic, shifts, absolute values, negations and moves (R130 to R132) -/

section
variable {s : State} {st : Stream} {i : Instr} {mem : Bool} {stp : Stp} {d a : VReg} (hr : s.core.iss.vec.run = some st)
include hr

theorem VGives.of_logic {b : VReg} {f : Row → Row → Row} (h : exec i s = s.logic d a b mem stp f) :
    VGives s i st stp mem ⟨d, fullRow, none⟩ 2 [⟨a, fullRow, none⟩, ⟨b, fullRow, none⟩]
      (f (s.vSource st mem ⟨a, fullRow, none⟩) (s.vSource st mem ⟨b, fullRow, none⟩)) :=
  VGives.of_vecOp (d := ⟨d, fullRow, none⟩) hr h (by omega) rfl

/-- A word that gives its source as it stands. -/
theorem VGives.of_move {lat : Nat} {d a : VArg}
    (h : exec i s = s.vecOp stp mem lat d.reg d.fmts d.bytes [a] fun _ rows => rows.getD 0 0) (hl : 0 < lat) :
    VGives s i st stp mem d lat [a] (s.vSource st mem a) :=
  VGives.of_vecOp hr h hl rfl

theorem VGives.of_laneOp {f : W32 → W32} (h : exec i s = s.laneOp d a mem stp f) :
    ∃ r, VGives s i st stp mem ⟨d, fullRow, none⟩ 2 [⟨a, fullRow, none⟩] r
      ∧ ∀ j < 32, lane r j = f (lane (s.vSource st mem ⟨a, fullRow, none⟩) j) :=
  ⟨_, VGives.of_vecOp (d := ⟨d, fullRow, none⟩) hr h (by omega) rfl, fun _ hj => lane_rowOfLanes _ hj⟩

/-- One typed source and one typed result. -/
theorem VGives.of_unary {ty : VType} {lat : Nat} {f : Rnd → Nat → Nat} {g : Nat → Nat} (h : exec i s = s.unary lat ty d a mem stp f)
    (hl : 0 < lat)
    (hg : ∀ j, f (s.vMode st mem d) (VType.elem ty (s.vSource st mem (VType.arg ty a)) j) % 2 ^ ty.bits = g j % 2 ^ ty.bits) :
    ∃ r, VGives s i st stp mem (VType.arg ty d) lat [VType.arg ty a] r ∧ VType.row ty r g := by
  obtain ⟨r, hrow, hgives⟩ := VGives.of_mapElems (from_ := [a]) (f := fun mode es => f mode (es.getD 0 0)) hr h hl fun _ => rfl
  exact ⟨r, hgives, hrow.congr fun j _ => hg j⟩

/-- A word that only moves register values, whatever the mode. -/
theorem Operates.of_vecTo_regs {lat : Nat} {args : List VArg} {f : State → Stream → List Row → State}
    (h : exec i s = s.vecTo stp false lat args f)
    (hf : ∀ ports, f (s.reading .vector ports) st (args.map (s.vSource st false)) =
      (f s st (args.map (s.vSource st false))).reading .vector ports) :
    Operates s i .vector st stp (s.tb + lat - 1) [] (f s st (args.map (s.vSource st false))) :=
  Operates.of_vecTo hr h ⟨fun h => absurd h Bool.false_ne_true, List.forall_mem_nil _, List.Pairwise.nil⟩ (hf [])

end

/-- The sign bit is the highest of a floating-point type. -/
theorem VType.signBit_of_float? {ty : VType} {f : FFmt} (h : VType.float? ty = some f) : 2 ^ ty.bits = 2 * f.signBit := by
  cases ty <;> cases h <;> rfl

theorem absNegElem_float {ty : VType} {f : FFmt} (h : VType.float? ty = some f) (neg : Bool) {x : Nat} (hx : x < 2 ^ ty.bits) :
    absNegElem neg ty x % 2 ^ ty.bits =
      (if (f.decode x).isNaN then f.nanPat else if neg then x + f.signBit else x % f.signBit) % 2 ^ ty.bits := by
  have hb := VType.signBit_of_float? h
  have hpos : 0 < f.signBit := by unfold FFmt.signBit; positivity
  rw [hb] at hx ⊢
  unfold absNegElem
  rw [h]
  dsimp only
  split
  · rfl
  · have hdiv : x / f.signBit = if f.signBit ≤ x then 1 else 0 := by
      split
      · exact Nat.div_eq_of_lt_le (by omega) (by omega)
      · exact Nat.div_eq_of_lt (by omega)
    by_cases hs : f.signBit ≤ x
    · rw [hdiv, if_pos hs, if_pos (by rfl)]
      cases neg
      · simp only [Bool.false_eq_true, if_false]
        rw [Nat.mod_eq_sub_mod hs, Nat.mod_eq_of_lt (a := x - f.signBit) (b := f.signBit) (by omega)]
      · rw [if_pos rfl, show x + f.signBit = (x - f.signBit) + 2 * f.signBit by omega, Nat.add_mod_right]
    · rw [hdiv, if_neg hs, if_neg (by decide)]
      cases neg
      · simp only [Bool.false_eq_true, if_false]
        rw [Nat.mod_eq_of_lt (a := x) (b := f.signBit) (by omega)]
      · rfl

theorem absNegElem_int32 (neg : Bool) {x : Nat} (hx : x < 2 ^ 32) : absNegElem neg .int32 x % 2 ^ 32 =
    (if neg then 2 ^ 32 - x else (signedNat 32 x).natAbs) % 2 ^ 32 := by
  have hsign : (BitVec.ofNat 32 x).msb = decide (2 ^ 31 ≤ x) := by
    rw [BitVec.msb_eq_decide, BitVec.toNat_ofNat, Nat.mod_eq_of_lt hx]
  have hneg : (-BitVec.ofNat 32 x).toNat = (2 ^ 32 - x) % 2 ^ 32 := by rw [BitVec.toNat_neg, BitVec.toNat_ofNat, Nat.mod_eq_of_lt hx]
  have habs : (signedNat 32 x).natAbs = if 2 ^ 31 ≤ x then 2 ^ 32 - x else x := by
    unfold signedNat
    rw [Nat.mod_eq_of_lt hx]
    split <;> split <;> omega
  simp only [absNegElem, VType.float?, VType.fmt, Fmt.float?, hsign, habs]
  cases neg
  · by_cases hs : 2 ^ 31 ≤ x
    · simp only [Bool.false_or, hs, decide_true, if_true, hneg, Nat.mod_mod, Bool.false_eq_true, if_false]
    · simp only [Bool.false_or, hs, decide_false, if_false, Bool.false_eq_true, BitVec.toNat_ofNat, Nat.mod_mod]
  · simp only [Bool.true_or, if_true, hneg, Nat.mod_mod]

/-- Settles O20: logic and moves by what their function makes of whole rows, shifts lane by lane, VABS and VNEG by element. -/
theorem vectorLogicAndMoves : Obligations.VectorLogicAndMoves := by
  unfold Obligations.VectorLogicAndMoves
  intro s st d a b m g sh mem stp hr raw x y sel
  refine ⟨VGives.of_logic (f := (· &&& ·)) hr rfl, VGives.of_logic (f := (· ||| ·)) hr rfl, VGives.of_logic (f := (· ^^^ ·)) hr rfl,
    VGives.of_laneOp (f := (· <<< sh.toNat)) hr rfl, VGives.of_laneOp (f := (· >>> sh.toNat)) hr rfl,
    VGives.of_laneOp (f := (·.sshiftRight sh.toNat)) hr rfl, fun ty => ⟨fun f hf => ?_, ?_⟩,
    VGives.of_move (d := raw d) hr rfl (by omega), ?_, ?_, VGives.of_move (d := ⟨d, sel, none⟩) hr rfl (by omega)⟩
  · have elem (neg : Bool) (j : Nat) := absNegElem_float hf neg (VType.elem_lt ty (s.vSource st mem (VType.arg ty a)) j)
    exact ⟨VGives.of_unary (f := fun _ => absNegElem false ty) hr rfl (by omega) (elem false),
      VGives.of_unary (f := fun _ => absNegElem true ty) hr rfl (by omega) (elem true)⟩
  · rintro rfl
    have elem (neg : Bool) (j : Nat) := absNegElem_int32 neg (VType.elem_lt .int32 (s.vSource st mem (VType.arg .int32 a)) j)
    exact ⟨VGives.of_unary (f := fun _ => absNegElem false .int32) hr rfl (by omega) (elem false),
      VGives.of_unary (f := fun _ => absNegElem true .int32) hr rfl (by omega) (elem true)⟩
  · exact Operates.of_vecTo_regs (lat := 2) (args := [raw a]) (f := fun s _ rows =>
      s.putCol .vector 2 (.m (d.extractLsb' 0 3) ((rows.getD 0 0).extractLsb' 0 64))) hr rfl fun _ => rfl
  · exact Operates.of_vecTo_regs (lat := 2) (args := []) (f := fun s _ _ =>
      s.putCol .vector 2 (.v d ((s.mreg (a.extractLsb' 0 3)).setWidth 1024) fullRow)) hr rfl fun _ => rfl

end Sys2Proof.Machine
end

section
namespace Sys2Proof.Machine
open Sys2Proof

/-! ### Compares (R129) -/

theorem elemsOfRow_eq (ty : VType) (r : Row) : elemsOfRow ty r = (List.range (VType.count ty)).map (VType.elem ty r) := by
  cases ty <;> rfl

/-- The mask has one bit for each element, zero above. -/
theorem getLsbD_cmpMask (ty : VType) (c : VCond) (a b : Row) {j : Nat} (hj : j < 64) : (cmpMask ty c a b).getLsbD j =
    (decide (j < VType.count ty) && cmpElem ty c (VType.elem ty a j) (VType.elem ty b j)) := by
  have hfold : (fun (m i : Nat) => if cmpElem ty c (VType.elem ty a i) (VType.elem ty b i) then m + 2 ^ i else m) =
      fun m i => m + (cmpElem ty c (VType.elem ty a i) (VType.elem ty b i)).toNat * 2 ^ (1 * i) := by
    funext m i
    cases cmpElem ty c (VType.elem ty a i) (VType.elem ty b i) <;> simp
  have hmask : cmpMask ty c a b =
      BitVec.ofNat 64 (digits 1 (fun i => (cmpElem ty c (VType.elem ty a i) (VType.elem ty b i)).toNat) (VType.count ty)) := by
    rw [cmpMask, elemsOfRow_eq, elemsOfRow_eq, List.zip_map', zipIdx_map_range, List.foldl_map, digits, ← hfold]
  rw [hmask, BitVec.getLsbD_ofNat, testBit_digits (by omega) fun i => Bool.toNat_lt _]
  cases hc : cmpElem ty c (VType.elem ty a j) (VType.elem ty b j) <;> simp [hj, hc, Nat.mod_one]

/-! ### Conversions (R135) -/

theorem VType.elem_congr {t u : VType} (h : t.bits = u.bits) (r : Row) (j : Nat) : VType.elem t r j = VType.elem u r j := by
  rw [VType.elem, VType.elem, h]

section
variable {s : State} {st : Stream} {mem : Bool} {stp : Stp} {d a : VReg} {dt ty : VType} (h : Bool) (hr : s.core.iss.vec.run = some st)

/-- The half row of H, as source or destination. -/
def VType.halfArg (ty : VType) (h : Bool) (r : VReg) : VArg := ⟨r, halfRow h, some [.raw, VType.fmt ty]⟩

theorem exec_vcvt_same (hb : dt.bits = ty.bits) : exec (.vcvt d a dt ty h mem stp) s =
    s.vecOp stp mem 3 d (some (VType.admits dt)) fullRow [VType.arg ty a] fun mode rows =>
      mapElems dt rows fun es => cvtElem dt ty mode (es.getD 0 0) :=
  if_pos (by simpa using hb)

theorem exec_vcvt_narrow (hb : dt.bits < ty.bits) : exec (.vcvt d a dt ty h mem stp) s =
    s.vecOp stp mem 3 d (some (VType.admits dt)) (halfRow h) [VType.arg ty a] fun mode rows =>
      rowOfElems fun j => if (if h then 32 else 0) ≤ j && j < (if h then 32 else 0) + 32 then
        BitVec.ofNat 16 (cvtElem dt ty mode (lane (rows.getD 0 0) (j - (if h then 32 else 0))).toNat) else 0 := by
  have h16 : dt.bits = 16 := by have := VType.bits_eq dt; have := VType.bits_eq ty; omega
  exact (if_neg (by simp; omega)).trans (if_pos (by simpa using h16))

theorem exec_vcvt_widen (hb : ty.bits < dt.bits) : exec (.vcvt d a dt ty h mem stp) s =
    s.vecOp stp mem 3 d (some (VType.admits dt)) fullRow [VType.halfArg ty h a] fun mode rows =>
      rowOfLanes fun i => BitVec.ofNat 32 (cvtElem dt ty mode (elem16 (rows.getD 0 0) ((if h then 32 else 0) + i)).toNat) := by
  have h32 : dt.bits = 32 := by have := VType.bits_eq dt; have := VType.bits_eq ty; omega
  exact (if_neg (by simp; omega)).trans (if_neg (by simp [h32]))

include hr

theorem VGives.of_vcvt_same (hb : dt.bits = ty.bits) :
    ∃ r, VGives s (.vcvt d a dt ty h mem stp) st stp mem (VType.arg dt d) 3 [VType.arg ty a] r
      ∧ VType.row dt r fun j => cvtElem dt ty (s.vMode st mem d) (VType.elem ty (s.vSource st mem (VType.arg ty a)) j) := by
  refine ⟨_, VGives.of_vecOp (d := VType.arg dt d) hr (exec_vcvt_same h hb) (by omega) rfl, ?_⟩
  refine (VType.row_mapElems dt _ _).congr fun j _ => congrArg (fun e => cvtElem dt ty _ e % _) ?_
  exact VType.elem_congr hb _ j

theorem VGives.of_vcvt_narrow (hb : dt.bits < ty.bits) :
    ∃ r, VGives s (.vcvt d a dt ty h mem stp) st stp mem (VType.halfArg dt h d) 3 [VType.arg ty a] r
      ∧ ∀ j < 32, VType.elem dt r ((if h then 32 else 0) + j) =
        cvtElem dt ty (s.vMode st mem d) (VType.elem ty (s.vSource st mem (VType.arg ty a)) j) % 2 ^ 16 := by
  have h16 : dt.bits = 16 := by have := VType.bits_eq dt; have := VType.bits_eq ty; omega
  have h32 : ty.bits = 32 := by have := VType.bits_eq ty; omega
  refine ⟨_, VGives.of_vecOp (d := VType.halfArg dt h d) hr (exec_vcvt_narrow h hb) (by omega) rfl, fun j hj => ?_⟩
  rw [VType.elem_halves h16, VType.elem_lanes h32, elem16_rowOfElems _ (by split <;> omega), if_pos (by simp [hj]),
    BitVec.toNat_ofNat, Nat.add_sub_cancel_left]
  rfl

theorem VGives.of_vcvt_widen (hb : ty.bits < dt.bits) :
    ∃ r, VGives s (.vcvt d a dt ty h mem stp) st stp mem (VType.arg dt d) 3 [VType.halfArg ty h a] r
      ∧ ∀ j < 32, VType.elem dt r j = cvtElem dt ty (s.vMode st mem d)
          (VType.elem ty (s.vSource st mem (VType.halfArg ty h a)) ((if h then 32 else 0) + j)) % 2 ^ 32 := by
  have h16 : ty.bits = 16 := by have := VType.bits_eq dt; have := VType.bits_eq ty; omega
  have h32 : dt.bits = 32 := by have := VType.bits_eq dt; omega
  refine ⟨_, VGives.of_vecOp (d := VType.arg dt d) hr (exec_vcvt_widen h hb) (by omega) rfl, fun j hj => ?_⟩
  rw [VType.elem_lanes h32, VType.elem_halves h16, lane_rowOfLanes _ hj, BitVec.toNat_ofNat]
  rfl

end

/-! ### The tree of R137 -/

section
variable {α : Type} (f : α → α → α)

theorem pairUp_map_range (x : Nat → α) (n : Nat) :
    pairUp f ((List.range (2 * n)).map x) = (List.range n).map fun i => f (x (2 * i)) (x (2 * i + 1)) := by
  induction n generalizing x with
  | zero => rfl
  | succ n ih =>
    have htail := ih fun i => x (i + 2)
    rw [Nat.mul_succ, List.range_succ_eq_map, List.range_succ_eq_map, List.range_succ_eq_map]
    simp only [List.map_cons, List.map_map, pairUp, Function.comp_def]
    exact congrArg _ htail

/-- After `k` levels over 2^(k + m) leaves. -/
theorem pairUps_map_range (x : Nat → α) (k m : Nat) :
    (List.range k).foldl (fun l _ => pairUp f l) ((List.range (2 ^ (k + m))).map x) = (List.range (2 ^ m)).map (treeAt f x k) := by
  induction k generalizing m with
  | zero => simp [treeAt]
  | succ k ih =>
    rw [List.range_succ, List.foldl_append, show k + 1 + m = k + (m + 1) by omega, ih, List.foldl_cons, List.foldl_nil,
      show 2 ^ (m + 1) = 2 * 2 ^ m by ring, pairUp_map_range]
    rfl

/-- The root over the elements of a row: a tree of 32 leaves has one level less. -/
theorem tree_elems (ty : VType) (x : Nat → α) :
    tree f ((List.range (VType.count ty)).map x) = [treeAt f x (if ty.bits = 32 then 5 else 6) 0] := by
  unfold VType.count
  split
  · exact congrArg (pairUp f) (pairUps_map_range f x 5 0)
  · exact pairUps_map_range f x 6 0

end

/-- A tree of additions modulo 2^32. -/
theorem treeAt_add (x : Nat → Nat) (k i : Nat) : treeAt (α := W32) (· + ·) (fun j => BitVec.ofNat 32 (x j)) k i =
    BitVec.ofNat 32 ((List.range (2 ^ k)).map fun j => x (2 ^ k * i + j)).sum := by
  induction k generalizing i with
  | zero => simp [treeAt]
  | succ k ih =>
    have e (j : Nat) : 2 ^ k * (2 * i + 1) + j = 2 ^ k * (2 * i) + (2 ^ k + j) := by ring
    have hp : 2 ^ (k + 1) * i = 2 ^ k * (2 * i) := by ring
    rw [treeAt, ih, ih, ← BitVec.ofNat_add, hp, show 2 ^ (k + 1) = 2 ^ k + 2 ^ k by ring, List.range_add, List.map_append,
      List.sum_append, List.map_map]
    simp only [e, Function.comp_def]

/-- A tree of signed maxima finds one of its leaves, and none is larger. -/
theorem treeAt_max (x : Nat → W32) (k i : Nat) : ∃ j < 2 ^ k,
    treeAt (fun (a b : W32) => if a.slt b then b else a) x k i = x (2 ^ k * i + j)
      ∧ ∀ l < 2 ^ k, (x (2 ^ k * i + l)).toInt ≤ (x (2 ^ k * i + j)).toInt := by
  induction k generalizing i with
  | zero => exact ⟨0, by simp [treeAt]⟩
  | succ k ih =>
    have hp : 2 ^ (k + 1) = 2 ^ k + 2 ^ k := by ring
    have hl (j : Nat) : 2 ^ (k + 1) * i + j = 2 ^ k * (2 * i) + j := by ring
    have hh (j : Nat) : 2 ^ k * (2 * i + 1) + j = 2 ^ k * (2 * i) + (2 ^ k + j) := by ring
    obtain ⟨ja, hja, ea, ma⟩ := ih (2 * i)
    obtain ⟨jb, hjb, eb, mb⟩ := ih (2 * i + 1)
    simp only [hh] at eb mb
    simp only [hl, treeAt, ea, eb]
    simp only [BitVec.slt_iff_toInt_lt]
    -- Every leaf is in the left half or the right one.
    have cover {v : Int} (hva : (x (2 ^ k * (2 * i) + ja)).toInt ≤ v) (hvb : (x (2 ^ k * (2 * i) + (2 ^ k + jb))).toInt ≤ v)
        (l : Nat) (hlt : l < 2 ^ (k + 1)) : (x (2 ^ k * (2 * i) + l)).toInt ≤ v := by
      obtain h | ⟨m, rfl⟩ : l < 2 ^ k ∨ ∃ m, l = 2 ^ k + m := (Nat.lt_or_ge l (2 ^ k)).imp_right Nat.exists_eq_add_of_le
      · exact (ma l h).trans hva
      · exact (mb m (by omega)).trans hvb
    split
    case isTrue h => exact ⟨2 ^ k + jb, by omega, rfl, cover h.le le_rfl⟩
    case isFalse h => exact ⟨ja, by omega, rfl, cover le_rfl (not_lt.mp h)⟩

/-! ### Reductions (R137) -/

theorem reduceRow_float {ty : VType} {f : FFmt} (h : VType.float? ty = some f) (sum : Bool) (mode : Rnd) (r : Row) :
    reduceRow sum ty mode r = f.arith mode (fp32.decode (treeAt (fun a b => if sum then fp32.addP .rne a b else pickFloat fp32 true a b)
      (fun j => fp32.round .rne (f.decode (VType.elem ty r j))) (if ty.bits = 32 then 5 else 6) 0)) := by
  unfold reduceRow
  rw [h]
  dsimp only
  rw [elemsOfRow_eq, List.map_map, tree_elems]
  rfl

theorem reduceRow_int32 (sum : Bool) (mode : Rnd) (r : Row) : reduceRow sum .int32 mode r =
    (treeAt (fun (a b : W32) => if sum then a + b else if a.slt b then b else a)
      (fun j => BitVec.ofNat 32 (VType.elem .int32 r j)) 5 0).toNat := by
  show BitVec.toNat ((tree _ ((elemsOfRow .int32 r).map (BitVec.ofNat 32))).headD 0) = _
  rw [elemsOfRow_eq, List.map_map, tree_elems]
  rfl

theorem reduceRow_int32_sum (mode : Rnd) (r : Row) :
    reduceRow true .int32 mode r = ((List.range 32).map (VType.elem .int32 r)).sum % 2 ^ 32 := by
  rw [reduceRow_int32]
  simpa using congrArg BitVec.toNat (treeAt_add (VType.elem .int32 r) 5 0)

theorem reduceRow_int32_max (mode : Rnd) (r : Row) : ∃ k < 32, reduceRow false .int32 mode r = VType.elem .int32 r k ∧
    ∀ j < 32, signedNat 32 (VType.elem .int32 r j) ≤ signedNat 32 (VType.elem .int32 r k) := by
  obtain ⟨k, hk, heq, hmax⟩ := treeAt_max (fun j => BitVec.ofNat 32 (VType.elem .int32 r j)) 5 0
  simp only [Nat.mul_zero, Nat.zero_add] at heq hmax
  refine ⟨k, hk, ?_, fun j hj => ?_⟩
  · rw [reduceRow_int32]
    exact (congrArg BitVec.toNat heq).trans ((BitVec.toNat_ofNat ..).trans (Nat.mod_eq_of_lt (VType.elem_lt .int32 r k)))
  · rw [signedNat_eq (by omega), signedNat_eq (by omega)]
    exact hmax j hj

theorem VGives.of_reduce {s : State} {st : Stream} {i : Instr} {mem : Bool} {stp : Stp} {d a : VReg} {ty : VType} {sum : Bool}
    (hr : s.core.iss.vec.run = some st) (h : exec i s = s.reduce sum ty d a mem stp) {y : Nat}
    (hy : reduceRow sum ty (s.vMode st mem d) (s.vSource st mem (VType.arg ty a)) % 2 ^ ty.bits = y % 2 ^ ty.bits) :
    ∃ r, VGives s i st stp mem (VType.arg ty d) 7 [VType.arg ty a] r ∧ VType.row ty r fun _ => y :=
  ⟨_, VGives.of_vecOp (d := VType.arg ty d) (args := [VType.arg ty a])
      (f := fun mode rows => mapElems ty [0] fun _ => reduceRow sum ty mode (rows.getD 0 0)) hr h (by omega) rfl,
    (VType.row_mapElems ty _ _).congr fun _ _ => hy⟩

/-- Settles O21: the mask bit by bit, the three shapes of conversion, and the reductions by their trees. -/
theorem vectorComparesAndReductions : Obligations.VectorComparesAndReductions := by
  unfold Obligations.VectorComparesAndReductions
  intro s st ty dt d a b md c h mem stp hr arg at_ mode holds bit cvt half off
  have hcvt : cvtElem dt ty mode = cvt := by
    funext e
    simp only [cvtElem, beq_iff_eq, cvt]
  have hhalf : half = halfRow h := by cases h <;> rfl
  have hbit (j : Nat) : cmpElem ty c (at_ a j) (at_ b j) = bit j := by
    simp only [cmpElem, bit]
    cases VType.float? ty <;> cases c <;> rfl
  refine ⟨fun hfree => ⟨cmpMask ty c (s.vSource st mem (arg ty a)) (s.vSource st mem (arg ty b)), ?_, fun j hj => ?_⟩,
    fun hb => ?_, fun hb => ?_, fun hb => ?_, fun f hf => ?_, ?_⟩
  · exact Operates.of_vecTo (lat := 2) (args := [arg ty a, arg ty b]) hr
      (f := fun s _ rows => s.putCol .vector 2 (.m md (cmpMask ty c (rows.getD 0 0) (rows.getD 1 0)))) rfl hfree rfl
  · rw [← hbit]
    exact getLsbD_cmpMask ty c _ _ hj
  · rw [← hcvt]
    exact VGives.of_vcvt_same h hr hb
  · rw [← hcvt, hhalf]
    exact VGives.of_vcvt_narrow h hr hb
  · rw [← hcvt, hhalf]
    exact VGives.of_vcvt_widen h hr hb
  · intro root larger
    have hl : larger = pickFloat fp32 true := by
      funext x y
      simp only [larger, pickFloat_eq, if_true, beq_iff_eq]
      rfl
    rw [hl]
    exact ⟨VGives.of_reduce hr rfl (congrArg (· % _) (reduceRow_float hf true _ _)),
      VGives.of_reduce hr rfl (congrArg (· % _) (reduceRow_float hf false _ _))⟩
  · rintro rfl
    obtain ⟨k, hk, heq, hmax⟩ := reduceRow_int32_max (s.vMode st mem d) (s.vSource st mem (arg .int32 a))
    obtain ⟨r, hv, he⟩ := VGives.of_reduce (i := .vrmax .int32 d a mem stp) hr rfl (congrArg (· % 2 ^ 32) heq)
    refine ⟨VGives.of_reduce hr rfl ?_, r, hv, k, hk, he, hmax⟩
    exact (congrArg (· % 2 ^ 32) (reduceRow_int32_sum _ _)).trans (Nat.mod_mod _ _)

end Sys2Proof.Machine
end

section
namespace Sys2Proof.Machine
open Sys2Proof

/-! ### The functions of R136 (Table 5.4) -/

/-- The bit-by-bit root, from a part `acc` of the root that fits and whose next multiple of 2^k does not. -/
theorem isqrt_eq_sqrt (n k acc : Nat) (hlo : acc * acc ≤ n) (hhi : n < (acc + 2 ^ k) * (acc + 2 ^ k)) : isqrt n k acc = Nat.sqrt n := by
  induction k generalizing acc with
  | zero => exact Nat.eq_sqrt.mpr ⟨hlo, hhi⟩
  | succ k ih =>
    have hstep : acc + 2 ^ (k + 1) = acc + 2 ^ k + 2 ^ k := by ring
    rw [hstep] at hhi
    unfold isqrt
    dsimp only
    split
    case isTrue h => exact ih _ h hhi
    case isFalse h => exact ih _ hlo (not_le.mp h)

/-- The odd double of a floor is on the side of every even number on which the exact value is, and even only where that is exact. -/
theorem oddDouble_spec {g : Nat → Nat} (hg : StrictMono g) {q n : Nat} (hlo : g q ≤ n) (hhi : n < g (q + 1)) (j : Nat) :
    let r := 2 * q + if g q = n then 0 else 1
    (2 * j < r ↔ g j < n) ∧ (2 * j = r ↔ g j = n) := by
  have hq : j ≤ q ↔ g j ≤ n :=
    ⟨fun h => (hg.monotone h).trans hlo, fun h => Nat.lt_succ_iff.mp (hg.lt_iff_lt.mp (h.trans_lt hhi))⟩
  have heq : g j = g q ↔ j = q := hg.injective.eq_iff
  have hlt : g j < g q ↔ j < q := hg.lt_iff_lt
  dsimp only
  split
  · omega
  · omega

theorem two_pow_mul_le {m : Nat} (c : Nat) : 2 ^ c * m ≤ 2 ^ (Nat.log2 m + (c + 1)) := by
  rw [show Nat.log2 m + (c + 1) = c + (Nat.log2 m + 1) by omega, pow_add]
  exact Nat.mul_le_mul_left _ Nat.lt_log2_self.le

theorem fnRcp_spec {m : Nat} (hm : 0 < m) (n : Bool) (e : Int) : ∃ r k : Nat,
    fnRcp (.fin n m e) = .fin n r (-e - k - 1) ∧ 2 ^ 64 ≤ r ∧ ∀ j, (2 * j < r ↔ j * m < 2 ^ k) ∧ (2 * j = r ↔ j * m = 2 ^ k) := by
  have hq : 2 ^ 63 ≤ 2 ^ (Nat.log2 m + 64) / m := (Nat.le_div_iff_mul_le hm).mpr (two_pow_mul_le 63)
  refine ⟨_, Nat.log2 m + 64, if_neg (by simpa using hm.ne'), by omega, fun j => ?_⟩
  simp only [beq_iff_eq]
  exact oddDouble_spec (g := (· * m)) (fun _ _ h => Nat.mul_lt_mul_of_pos_right h hm) (Nat.div_mul_le_self ..)
    (Nat.lt_mul_of_div_lt (Nat.lt_succ_self _) hm) j

/-- What the root of 1/√x is taken of: the mantissa that goes with an even exponent. -/
def evenMant (m : Nat) (e : Int) : Nat := if e % 2 = 0 then m else 2 * m

theorem fnRsq_fin {m : Nat} (hm : 0 < m) (e : Int) : fnRsq (.fin false m e) =
    let x := evenMant m e; let k := Nat.log2 x + 64; let q := Nat.sqrt (2 ^ (2 * k) / x)
    .fin false (2 * q + if q * q * x = 2 ^ (2 * k) then 0 else 1) (-(e / 2) - k - 1) := by
  have he : (if e % 2 = 0 then e else e - 1) / 2 = e / 2 := by split <;> omega
  have hroot (k x : Nat) : isqrt (2 ^ (2 * k) / x) (k + 1) 0 = Nat.sqrt (2 ^ (2 * k) / x) := by
    refine isqrt_eq_sqrt _ _ _ (Nat.zero_le _) ((Nat.div_le_self ..).trans_lt ?_)
    rw [Nat.zero_add, ← pow_add]
    exact Nat.pow_lt_pow_right (by omega) (by omega)
  simp only [fnRsq, beq_iff_eq, hm.ne', if_false, Bool.false_eq_true, hroot, he]
  rfl

theorem fnRsq_spec {m : Nat} (hm : 0 < m) (e : Int) : ∃ r k : Nat,
    fnRsq (.fin false m e) = .fin false r (-(e / 2) - k - 1) ∧ 2 ^ 64 ≤ r ∧
      ∀ j, (2 * j < r ↔ j * j * evenMant m e < 2 ^ (2 * k)) ∧ (2 * j = r ↔ j * j * evenMant m e = 2 ^ (2 * k)) := by
  have hx : 0 < evenMant m e := by unfold evenMant; split <;> omega
  rw [fnRsq_fin hm]
  dsimp only
  generalize evenMant m e = x at hx ⊢
  have hbound : 2 ^ 126 * x ≤ 2 ^ (2 * (Nat.log2 x + 64)) := (two_pow_mul_le 126).trans (Nat.pow_le_pow_right (by omega) (by omega))
  generalize Nat.log2 x + 64 = k at hbound ⊢
  have hle (j : Nat) : j ≤ Nat.sqrt (2 ^ (2 * k) / x) ↔ j * j * x ≤ 2 ^ (2 * k) := by rw [Nat.le_sqrt, Nat.le_div_iff_mul_le hx]
  generalize Nat.sqrt (2 ^ (2 * k) / x) = q at hle ⊢
  have hq : 2 ^ 63 ≤ q := (hle _).mpr (by rwa [← pow_add])
  have hhi : 2 ^ (2 * k) < (q + 1) * (q + 1) * x := not_le.mp fun h => absurd ((hle _).mpr h) (by omega)
  exact ⟨_, k, rfl, by omega, oddDouble_spec (g := fun j => j * j * x)
    (fun _ _ h => Nat.mul_lt_mul_of_pos_right (Nat.mul_self_lt_mul_self h) hx) ((hle _).mp le_rfl) hhi⟩

/-- 1/√x of an even power of two is exact. -/
theorem fnRsq_four_pow {m p : Nat} {e : Int} (hx : evenMant m e = 2 ^ (2 * p)) :
    fnRsq (.fin false m e) = .fin false (2 ^ (p + 65)) (-(e / 2) - (2 * p + 64 : Nat) - 1) := by
  have hm : 0 < m := by
    have : 0 < evenMant m e := hx ▸ by positivity
    unfold evenMant at this
    split at this <;> omega
  have hdiv : 2 ^ (2 * (2 * p + 64)) / 2 ^ (2 * p) = (2 ^ (p + 64)) ^ 2 := by
    rw [Nat.pow_div (by omega) (by omega), ← pow_mul]
    congr 1
    omega
  have hexact : 2 ^ (p + 64) * 2 ^ (p + 64) * 2 ^ (2 * p) = 2 ^ (2 * (2 * p + 64)) := by ring
  have hdouble : 2 * 2 ^ (p + 64) + 0 = 2 ^ (p + 65) := by rw [Nat.add_zero, pow_succ' 2 (p + 64)]
  rw [fnRsq_fin hm, hx]
  dsimp only
  rw [Nat.log2_two_pow, hdiv, Nat.sqrt_eq', if_pos hexact, hdouble]

theorem fnExp2_int (n : Bool) {k : Nat} (sh : Nat) (hk : 0 < k) (hlt : k < 2 ^ 15) :
    fnExp2 (.fin n (k * 2 ^ sh) (-(sh : Int))) = .fin false 1 (if n then -(k : Int) else k) := by
  have hpos : k * 2 ^ sh ≠ 0 := by positivity
  have hlog : Nat.log2 (k * 2 ^ sh) = Nat.log2 k + sh := by
    rw [Nat.log2_eq_iff hpos, show Nat.log2 k + sh + 1 = Nat.log2 k + 1 + sh by omega, pow_add, pow_add]
    exact ⟨Nat.mul_le_mul_right _ (Nat.log2_self_le hk.ne'), Nat.mul_lt_mul_of_pos_right Nat.lt_log2_self (by positivity)⟩
  have hsmall : Nat.log2 k < 15 := (Nat.log2_lt hk.ne').mpr hlt
  have htop : ((Nat.log2 (k * 2 ^ sh) : Nat) : Int) + -(sh : Int) = (Nat.log2 k : Nat) := by rw [hlog]; push_cast; ring
  unfold fnExp2
  simp only [beq_iff_eq, hpos, if_false, htop]
  obtain rfl | hsh := Nat.eq_zero_or_pos sh
  · have : ¬ ((Nat.log2 k : Nat) : Int) ≥ 15 := by omega
    simp only [this]
    cases n <;> simp <;> omega
  · have h2 : ¬ ((Nat.log2 k : Nat) : Int) ≥ 20 := by omega
    simp [h2, hsh.ne']

theorem fnLg2_two_pow (l : Nat) (e : Int) : fnLg2 (.fin false (2 ^ l) e) = .fin (decide (l + e < 0)) (l + e).natAbs 0 := by
  simp [fnLg2, Nat.log2_two_pow]

/-- At 1 the functions of Table 5.4 are 1, 1, 2 and 0. -/
theorem arith_fn_one : ∀ f ∈ [fp32, bf16, fp16], ∀ md, let one := f.bias * 2 ^ f.mbits; f.arith md (fnRcp (f.decode one)) = one
    ∧ f.arith md (fnRsq (f.decode one)) = one ∧ f.arith md (fnExp2 (f.decode one)) = one + 2 ^ f.mbits
    ∧ f.arith md (fnLg2 (f.decode one)) = 0 := by
  intro f hf md
  simp only [List.mem_cons, List.not_mem_nil, or_false] at hf
  dsimp only
  obtain rfl | rfl | rfl := hf
  · rw [show fp32.decode (fp32.bias * 2 ^ fp32.mbits) = .fin false (2 ^ 23) (-23) by decide, fnRsq_four_pow (p := 12) (by decide)]
    cases md <;> decide
  · rw [show bf16.decode (bf16.bias * 2 ^ bf16.mbits) = .fin false (2 ^ 7) (-7) by decide, fnRsq_four_pow (p := 4) (by decide)]
    cases md <;> decide
  · rw [show fp16.decode (fp16.bias * 2 ^ fp16.mbits) = .fin false (2 ^ 10) (-10) by decide, fnRsq_four_pow (p := 5) (by decide)]
    cases md <;> decide

/-- Settles O22: the words by their element, the functions by the floor of which each answer is the odd double. -/
theorem vectorFunctions : Obligations.VectorFunctions := by
  unfold Obligations.VectorFunctions
  refine ⟨fun s st ty f d a mem stp hr hf => ?_, fun n e => ⟨rfl, rfl, rfl, rfl, rfl⟩, rfl, rfl, rfl, rfl, rfl, rfl, rfl, rfl,
    fun m e hm => ?_, fun n k sh hk hlt => fnExp2_int n sh hk hlt, fnLg2_two_pow, arith_fn_one⟩
  · have elem (g : FVal → FVal) (md : Rnd) (x : Nat) : fnElem ty g md x = f.arith md (g (f.decode x)) := by rw [fnElem, hf]
    have unary {i : Instr} (g : FVal → FVal) (h : exec i s = s.unary 6 ty d a mem stp (fnElem ty g)) :=
      VGives.of_unary hr h (by omega) fun j => congrArg (· % 2 ^ ty.bits) (elem g _ _)
    exact ⟨unary fnRcp rfl, unary fnRsq rfl, unary fnExp2 rfl, unary fnLg2 rfl⟩
  · have hz : (m == 0) = false := by simpa using hm.ne'
    exact ⟨by simp [fnRsq, hz], by simp [fnLg2, hz], fun n => fnRcp_spec hm n e, fnRsq_spec hm e⟩

end Sys2Proof.Machine
end

section
namespace Sys2Proof.Machine
open Sys2Proof

/-! ### Bytes, words and lanes of a row in memory (R2, R120) -/

theorem testBit_leNat (bs : List Byte) (k : Nat) : (leNat bs).testBit k = (bs.getD (k / 8) 0).getLsbD (k % 8) := by
  have hmod : k % 8 < 8 := Nat.mod_lt _ (by omega)
  rw [← BitVec.testBit_toNat, ← natBits_leNat, testBit_natBits, decide_eq_true hmod, Bool.true_and, Nat.div_add_mod]

theorem getD_read (m : Mem) (a : Nat) {n i : Nat} (h : i < n) : (m.read a n).getD i 0 = m.get (a + i) := by
  simp [Mem.read, List.getD_eq_getElem?_getD, h]

/-- A lane of the row at an address is the word there. -/
theorem lane_rowOfBytes_read (m : Mem) (a : Nat) {w : Nat} (hw : w < 32) : lane (rowOfBytes (m.read a 128)) w = m.word (a + 4 * w) := by
  apply BitVec.eq_of_getLsbD_eq
  intro j hj
  have hdiv : (32 * w + j) / 8 = 4 * w + j / 8 := by omega
  have hmod : (32 * w + j) % 8 = j % 8 := by omega
  rw [lane, rowOfBytes, BitVec.getLsbD_extractLsb', BitVec.getLsbD_ofNat, testBit_leNat, hdiv, hmod, getD_read _ _ (by omega),
    Mem.word, Mem.readNat, BitVec.getLsbD_ofNat, testBit_leNat, getD_read _ _ (by omega), Nat.add_assoc]
  simp [hj, show 32 * w + j < 1024 by omega]

theorem State.lane_rowOf (s : State) (a : W64) {bytes : BitVec 128} (hb : bytes ≠ 0) {w : Nat} (hw : w < 32) :
    lane (s.rowOf a bytes) w = s.mem.word (a.toNat + 4 * w) := by
  rw [State.rowOf, if_neg hb, lane_rowOfBytes_read _ _ hw]

theorem fullRow_ne_zero : fullRow ≠ 0 := by decide

theorem wordBytes_ne_zero {ws : List Nat} (h : ws ≠ []) : wordBytes ws ≠ 0 := by
  obtain ⟨l, w, rfl⟩ := (List.eq_nil_or_concat ws).resolve_left h
  have hspan : ∀ k < 32, rowSpan (4 * k) 4 ≠ 0 := by decide
  rw [List.concat_eq_append, wordBytes, List.foldl_append, List.foldl_cons, List.foldl_nil]
  exact fun h0 => hspan _ (Nat.mod_lt w (by omega)) (BitVec.or_eq_zero_iff.mp h0).2

/-- The bytes a mask selects: four of each selected lane, two of each selected element. -/
theorem getLsbD_selBytes (m : W64) {b : Nat} (hb : b < 128) :
    (selBytes m .lane).getLsbD b = m.getLsbD (b / 4) ∧ (selBytes m .elem).getLsbD b = m.getLsbD (b / 2) := by
  have hfold (w x : Nat) : (fun (a i : Nat) => if m.getLsbD i then a + x * 2 ^ (w * i) else a) =
      fun a i => a + (if m.getLsbD i then x else 0) * 2 ^ (w * i) := by
    funext a i
    split <;> simp
  have hones : (∀ r < 4, Nat.testBit 15 r = true) ∧ ∀ r < 2, Nat.testBit 3 r = true := by decide
  obtain ⟨h15, h3⟩ := hones
  constructor
  · have hlt : b % 4 < 4 := Nat.mod_lt _ (by omega)
    have hsel : selBytes m .lane = BitVec.ofNat 128 (digits 4 (fun i => if m.getLsbD i then 15 else 0) 32) := by
      rw [selBytes, digits, ← hfold]
    rw [hsel, BitVec.getLsbD_ofNat, testBit_digits (by omega) fun i => by split <;> omega]
    cases m.getLsbD (b / 4) <;> simp [hb, h15 _ hlt]
  · have hlt : b % 2 < 2 := Nat.mod_lt _ (by omega)
    have hsel : selBytes m .elem = BitVec.ofNat 128 (digits 2 (fun i => if m.getLsbD i then 3 else 0) 64) := by
      rw [selBytes, digits, ← hfold]
    rw [hsel, BitVec.getLsbD_ofNat, testBit_digits (by omega) fun i => by split <;> omega]
    cases m.getLsbD (b / 2) <;> simp [hb, h3 _ hlt]

/-! ### Loads and stores (R133, R134) -/

/-- The last of some numbered writes that apply is the one that stays. -/
theorem foldl_last {α : Type} {p : Nat → Bool} {g : Nat → α} {n i : Nat} (hi : i < n) (hp : p i = true)
    (hlast : ∀ j < n, i < j → p j = false) (x : α) : (List.range n).foldl (fun x j => if p j then g j else x) x = g i := by
  induction n with
  | zero => omega
  | succ n ih =>
    rw [List.range_succ, List.foldl_append, List.foldl_cons, List.foldl_nil]
    obtain rfl | h := Nat.eq_or_lt_of_le (Nat.lt_succ_iff.mp hi)
    · rw [if_pos hp]
    · rw [if_neg (by simp [hlast n (by omega) h])]
      exact ih h fun j hj => hlast j (by omega)

/-- The highest selected lane that names a word gives its value. -/
theorem scatter_of_last (v idx : Row) {m : W64} {i : Nat} (hi : i < 32) (hm : m.getLsbD i = true)
    (hlast : ∀ j < 32, i < j → m.getLsbD j = true → laneIndex idx j ≠ laneIndex idx i) :
    scatter v idx m (laneIndex idx i) = lane v i :=
  foldl_last (p := fun j => m.getLsbD j && laneIndex idx j == laneIndex idx i) (g := lane v) hi (by simp [hm])
    (fun j hj hij => by simpa using hlast j hj hij) 0

section
variable {s : State} {st : Stream} {i : Instr} {stp : Stp} (hr : s.core.iss.vec.run = some st)
include hr

theorem Operates.of_vecLoad {d : VReg} {row : Nat} {bytes : BitVec 128} {f : Row → Row} (h : exec i s = s.vecLoad stp d row bytes f)
    (hfree : s.rowsFree st .vector [(st.rowAt row, bytes, none)]) :
    Operates s i .vector st stp (s.tb + 3) [(st.rowAt row, bytes, none)]
      (s.putCol .vector 4 (.v d (f (s.rowOf (st.rowAt row) bytes)) fullRow)) := by
  obtain ⟨hread, hfetch⟩ := State.readRow_free hfree
  exact .of_operate (col := .vector) hr h ((Part?.bind_of_ok _ hread).trans (Part?.bind_of_ok _ hfetch))

theorem Operates.of_vecStore {row : Nat} {v : Row} {bytes : BitVec 128} (h : exec i s = s.vecStore stp row v bytes)
    (hfree : s.writeFree st .vector (st.rowAt row, bytes, none) (s.tb + 1)) :
    Operates s i .vector st stp (s.tb + 1) [] (s.putRow st .vector (st.rowAt row) v bytes (s.tb + 1)) := by
  have hwrite : s.checkWrite st .vector (st.rowAt row) bytes none (s.tb + 1) = _ := State.checkWrite_later hfree (Nat.lt_succ_self _)
  exact .of_operate_regs (col := .vector) hr h (Part?.bind_of_ok _ hwrite)

end

/-- Settles O23: a load by the words of its row, a store by what it leaves for the end of its cycle. -/
theorem vectorLoadsAndStores : Obligations.VectorLoadsAndStores := by
  unfold Obligations.VectorLoadsAndStores
  refine ⟨fun s st d a m g row row6 row7 row3 l stp hr => ?_, fun m b hb => getLsbD_selBytes m hb⟩
  intro at_ x v k idx loads stores word
  have hidx (j : Nat) : idx j < 32 := Nat.mod_lt _ (by omega)
  refine ⟨fun hfree => ⟨_, Operates.of_vecLoad (f := id) hr rfl hfree, fun j hj => s.lane_rowOf _ fullRow_ne_zero hj⟩,
    fun hfree => ⟨_, Operates.of_vecLoad (f := fun r => rowOfLanes fun _ => lane r l.toNat) hr rfl hfree, fun j hj => ?_⟩,
    fun hfree => ⟨_, Operates.of_vecLoad (f := fun r => rowOfLanes fun i => lane r (idx i)) hr rfl hfree, fun j hj => ?_⟩,
    fun hfree => Operates.of_vecStore hr rfl hfree, _, fun hfree => Operates.of_vecStore hr rfl hfree, fun i hi hk hlast => ?_⟩
  · rw [lane_rowOfLanes _ hj]
    exact s.lane_rowOf _ (wordBytes_ne_zero (by simp)) l.isLt
  · rw [lane_rowOfLanes _ hj]
    exact s.lane_rowOf _ (wordBytes_ne_zero (by simp)) (hidx j)
  · rw [lane_rowOfLanes _ (hidx i)]
    exact scatter_of_last v x hi hk hlast

end Sys2Proof.Machine
end

section
namespace Sys2Proof.Machine
open Sys2Proof

/-! ### Bits and bytes of a shifted row -/

theorem leNat_leBytes (v n : Nat) : leNat (leBytes v n) = v % 2 ^ (8 * n) := by
  induction n generalizing v with
  | zero => simp [leBytes, leNat, Nat.mod_one]
  | succ n ih =>
    rw [leBytes, leNat, ih, BitVec.toNat_ofNat, Nat.mul_succ, Nat.add_comm (8 * n), pow_add, Nat.mod_mul]
    rfl

theorem getLsbD_rowOfBytes_leBytes (v : Nat) {n k : Nat} (hk : k < 8 * n) (hn : 8 * n ≤ 1024) :
    (rowOfBytes (leBytes v n)).getLsbD k = v.testBit k := by
  rw [rowOfBytes, leNat_leBytes, BitVec.getLsbD_ofNat, Nat.testBit_mod_two_pow, decide_eq_true hk, decide_eq_true (by omega),
    Bool.true_and, Bool.true_and]

theorem rowByte_shiftLeft (r : Row) {n i : Nat} (h : n + i < 128) : rowByte (r <<< (8 * n)) (n + i) = rowByte r i := by
  apply BitVec.eq_of_getLsbD_eq
  intro j hj
  have hsub : 8 * (n + i) + j - 8 * n = 8 * i + j := by omega
  rw [rowByte, rowByte, BitVec.getLsbD_extractLsb', BitVec.getLsbD_extractLsb', BitVec.getLsbD_shiftLeft, hsub,
    decide_eq_true (show 8 * (n + i) + j < 1024 by omega), decide_eq_false (show ¬ 8 * (n + i) + j < 8 * n by omega)]
  simp

/-! ### The mantissas of a block (R54, R56, R139) -/

theorem packMants_range (bits : Nat) (m : Nat → Nat) :
    packMants bits ((List.range 64).map m) = leBytes (digits bits (fun i => m i % 2 ^ bits) 64) (8 * bits) := by
  rw [packMants, zipIdx_map_range, List.foldl_map]
  rfl

theorem toPlanes_range (bits : Nat) (m : Nat → Nat) : toPlanes bits ((List.range 64).map m) =
    leBytes (digits 64 (fun j => digits 1 (fun i => natBits (m i) j 1) 64) bits) (8 * bits) := by
  have hplane (j : Nat) : (((List.range 64).map m).zipIdx).foldl (fun a (m, i) => a + natBits m j 1 * 2 ^ i) 0 =
      digits 1 (fun i => natBits (m i) j 1) 64 := by
    simp only [zipIdx_map_range, List.foldl_map, digits, Nat.one_mul]
  simp only [toPlanes, hplane]
  rfl

/-- A bit of a mantissa, in the layout of the block's format, at the block's place in its row. -/
theorem getLsbD_quantise (bits : Nat) (planar : Bool) (mode : Rnd) (e : Byte) (x : Nat → FVal) {p i j : Nat} (hi : i < 64)
    (hj : j < bits) (hp : 64 * bits * p + 64 * bits ≤ 1024) :
    (rowOfBytes (quantise bits planar mode e ((List.range 64).map x)) <<< (8 * (p * (8 * bits)))).getLsbD
      (64 * bits * p + if planar then 64 * j + i else bits * i + j) = (blockMant bits mode e (x i) % 2 ^ bits).toNat.testBit j := by
  have hshift : 8 * (p * (8 * bits)) = 64 * bits * p := by ring
  have hoff : (if planar then 64 * j + i else bits * i + j) < 64 * bits := by
    have : bits * i + bits ≤ bits * 64 := by rw [← Nat.mul_succ]; exact Nat.mul_le_mul_left _ hi
    split <;> omega
  have hm : (ofInt bits (blockMant bits mode e (x i))).toNat = (blockMant bits mode e (x i) % 2 ^ bits).toNat := by
    rw [ofInt, BitVec.toNat_ofInt]
    push_cast
    rfl
  rw [hshift, BitVec.getLsbD_shiftLeft, decide_eq_true (by omega), decide_eq_false (by omega), Nat.add_sub_cancel_left, quantise,
    List.map_map, ← hm]
  cases planar
  · simp only [Bool.false_eq_true, if_false] at hoff ⊢
    rw [packMants_range, getLsbD_rowOfBytes_leBytes _ (by omega) (by omega),
      testBit_digits_at (fun _ => Nat.mod_lt _ (by positivity)) hi hj]
    simp
  · simp only [if_true] at hoff ⊢
    rw [toPlanes_range, getLsbD_rowOfBytes_leBytes _ (by omega) (by omega),
      testBit_digits_at (fun j => (digits_lt (fun i => natBits_lt _ j 1) 64).trans_eq (by rw [Nat.one_mul])) hj hi]
    have hbit := testBit_digits_at (w := 1) (j := 0) (fun i => natBits_lt (ofInt bits (blockMant bits mode e (x i))).toNat j 1) hi
      (by omega)
    rw [Nat.one_mul, Nat.add_zero, testBit_natBits] at hbit
    simpa using hbit

/-! ### The block-quantising words (R138 to R140) -/

theorem State.bypass_eq (s : State) : s.bypass =
    (if s.core.vec.qAt = s.tb then s.core.vec.qOld else s.core.vec.q)[s.core.vec.qrd.toNat]'s.core.vec.qrd.isLt := by
  simp only [State.bypass, beq_iff_eq]

/-- The bytes of its row that VQCVT writes. -/
def cvtBytes (p : BitVec 2) (bf : BlockF) : BitVec 128 := rowSpan (p.toNat * (8 * BlockF.mantBits bf)) (8 * BlockF.mantBits bf)

/-- The row VQCVT writes them of. -/
def State.cvtRow (s : State) (st : Stream) (d a : VReg) (p : BitVec 2) (t : HType) (bf : BlockF) (mem : Bool) : Row :=
  rowOfBytes (quantise (BlockF.mantBits bf) (s.bankFmt (st.field d.toNat).toNat).isPlanar (s.bankRnd (st.field d.toNat).toNat) s.bypass
    (halfValues t (s.vSource st mem (HType.arg t a)))) <<< (8 * (p.toNat * (8 * BlockF.mantBits bf)))

theorem Operates.of_vqcvt {s : State} {st : Stream} (hr : s.core.iss.vec.run = some st) {d a : VReg} {p : BitVec 2} {t : HType}
    {bf : BlockF} {mem : Bool} {stp : Stp} (hfree : s.vFree st mem none 4 [HType.arg t a])
    (hw : s.writeFree st .vector (st.field d.toNat, cvtBytes p bf, some (blockFmts bf)) (s.tb + 3)) :
    Operates s (.vqcvt d a p t bf mem stp) .vector st stp (s.tb + 3) (st.vRows mem [HType.arg t a])
      ((s.putRow st .vector (st.field d.toNat) (s.cvtRow st d a p t bf mem) (cvtBytes p bf) (s.tb + 3)).modC fun c =>
        { c with vec := { c.vec with qrd := c.vec.qrd + 1 } }) := by
  have hdst := State.checkWrite_later hw (Nat.lt_add_of_pos_right (by omega))
  have hsrcs := State.vSrcs_free hfree.2
  have hvals := State.vVals_free hfree.2
  refine .of_operate (col := .vector) hr rfl ?_
  refine (Part?.bind_of_ok _ hdst).trans ?_
  refine (Part?.bind_of_ok _ hsrcs).trans ?_
  refine (Part?.bind_of_ok _ (hvals _)).trans ?_
  rfl

theorem Operates.of_vqsc {s : State} {st : Stream} (hr : s.core.iss.vec.run = some st) {d : VReg} {k : BitVec 5} {stp : Stp}
    (hw : s.writeFree st .vector (st.field d.toNat, rowSpan (4 * k.toNat) 4, none) (s.tb + 1)) :
    Operates s (.vqsc d k stp) .vector st stp (s.tb + 1) []
      (s.putRow st .vector (st.field d.toNat) (rowOfBytes s.core.vec.q.toList <<< (32 * k.toNat)) (rowSpan (4 * k.toNat) 4)
        (s.tb + 1)) := by
  have hdst := State.checkWrite_later hw (Nat.lt_succ_self _)
  exact .of_operate_regs (col := .vector) hr rfl (Part?.bind_of_ok _ hdst)

/-- Settles O24: the exponent sent to the queue, the mantissas of a block bit by bit, and the queue's four bytes. -/
theorem vectorBlocks : Obligations.VectorBlocks := by
  unfold Obligations.VectorBlocks
  intro s st d a p k t bf mem stp hr arg xs v da bits e fmts bytes mant
  have hbits : BlockF.mantBits bf = bits := by cases bf <;> rfl
  have hfmts : blockFmts bf = fmts := by cases bf <;> rfl
  have hbytes : cvtBytes p bf = bytes := by rw [cvtBytes, hbits, Nat.mul_comm]
  refine ⟨fun hfree => ?_, fun hp hfree hw => ⟨s.cvtRow st d a p t bf mem, ?_, fun i hi j hj => ?_⟩,
    fun hw => ⟨_, Operates.of_vqsc hr hw, fun i => ?_⟩⟩
  · have hv := Operates.of_vecTo (i := .vbmax a t bf mem stp) (lat := 5) (args := [HType.arg t a]) hr
      (f := fun s _ rows => (s.putCol .vector 5 (.q s.core.vec.qwr
        (blockExp (BlockF.mantBits bf) (rndOf s.core.sys.vmode) (halfValues t (rows.getD 0 0))))).modC fun c =>
          { c with vec := { c.vec with qwr := s.core.vec.qwr + 1 } }) rfl hfree rfl
    rw [hbits] at hv
    exact hv
  · rw [← hbytes, ← hfmts] at hw
    rw [← hbytes]
    exact Operates.of_vqcvt hr hfree hw
  · have hlen : 64 * bits * p.toNat + 64 * bits ≤ 1024 := by cases bf <;> simp only [bits] at hp ⊢ <;> omega
    have hmant : mant i = (blockMant bits (s.bankRnd da.toNat) e
        ((HType.fmt t).value (elem16 (s.vSource st mem arg) i).toNat) % 2 ^ bits).toNat := by simp [mant, xs, hi]
    rw [hmant, State.cvtRow, hbits, State.bypass_eq, halfValues]
    exact getLsbD_quantise bits _ _ _ _ hi hj hlen
  · have h32 : 32 * k.toNat = 8 * (4 * k.toNat) := by ring
    have hk := k.isLt
    rw [h32, rowByte_shiftLeft _ (by omega), rowByte_rowOfBytes _ (by omega)]
    simp [v]

end Sys2Proof.Machine
end

section
namespace Sys2Proof.Machine
open Sys2Proof

/-! ### The deferral queue (R142 to R145) -/

theorem State.defer_fits {s : State} {es : List Deferred} (h : s.core.vec.dq.length + es.length ≤ 4096) (st : Stream) :
    s.defer st es = s.modC fun c => { c with vec := { c.vec with dq := c.vec.dq ++ es } } :=
  if_neg (Nat.not_lt.mpr h)

theorem State.defer_overflows {s : State} {es : List Deferred} (h : 4096 < s.core.vec.dq.length + es.length) (st : Stream) :
    s.defer st es = s.modIss fun x => { x with later := x.later ++
      [⟨s.tb + 1, ⟨.dfovf, BitVec.ofNat 12 st.addr, 0, finfo 0 1 false 0 (s.tb + 1 - st.opIssue)⟩⟩] } :=
  if_pos h

theorem State.defer_reading (s : State) (st : Stream) (es : List Deferred) (col : Col) (rows : List RowArg) :
    (s.reading col rows).defer st es = (s.defer st es).reading col rows := by
  obtain h | h := Nat.lt_or_ge 4096 (s.core.vec.dq.length + es.length)
  · rw [State.defer_overflows h, State.defer_overflows (s := s.reading col rows) h]
    rfl
  · rw [State.defer_fits h, State.defer_fits (s := s.reading col rows) h]
    rfl

/-- A field of each of the `n` entries taken from the head of the queue, 0 where there is none. -/
def takenField (q : List Deferred) (n : Nat) (f : Deferred → W32) : Row := rowOfLanes fun j => ((q.take n)[j]?.map f).getD 0

theorem lane_takenField (q : List Deferred) (n : Nat) (f : Deferred → W32) {j : Nat} (hj : j < 32) :
    lane (takenField q n f) j = if h : j < n ∧ j < q.length then f q[j] else 0 := by
  rw [takenField, lane_rowOfLanes _ hj, List.getElem?_take]
  by_cases hn : j < n <;> by_cases hq : j < q.length <;> simp [hn, hq]

theorem exec_vdfd (s : State) (d e : VReg) (m : MReg) (stp : Stp) : exec (.vdfd d e m stp) s =
    let q := s.core.vec.dq; let n := min 32 s.dqVisible.length
    s.operate .vector stp (s.tb + 3) fun _ => .ok ((((s.modC fun c => { c with vec := { c.vec with dq := q.drop n } }).putCol .vector 4
      (.v d (takenField q n (·.value)) fullRow)).putCol .vector 4 (.v e (takenField q n (·.index)) fullRow)).putCol .vector 4
        (.m m (BitVec.ofNat 64 (2 ^ n - 1)))) := rfl

theorem exec_vdfn (s : State) (d : VReg) (clear : Bool) (stp : Stp) : exec (.vdfn d clear stp) s =
    s.operate .vector stp (s.tb + 1) fun _ => .ok
      ((if clear then s.modC fun c => { c with vec := { c.vec with dq := [] } } else s).putCol .vector 2
        (.v d (rowOfLanes fun _ => BitVec.ofNat 32 s.core.vec.dq.length) fullRow)) := rfl

section
variable {s : State} {st : Stream} {i : Instr} {stp : Stp} (hr : s.core.iss.vec.run = some st)
include hr

theorem Operates.of_regOp {d : VReg} {f : Stream → Row} (h : exec i s = s.regOp d stp f) :
    Operates s i .vector st stp (s.tb + 1) [] (s.putCol .vector 2 (.v d (f st) fullRow)) :=
  .of_operate_regs (col := .vector) hr h rfl

theorem Operates.of_vdfr {a : VReg} {m : MReg} {g : Gran} {mem : Bool} {es : List Deferred}
    (hes : deferEntries (s.vSource st mem ⟨a, selBytes (s.mreg m) g, none⟩) (s.mreg m) g st.rho s.tb = es)
    (hfree : s.vFree st mem none 2 [⟨a, selBytes (s.mreg m) g, none⟩]) :
    Operates s (.vdfr a m g mem stp) .vector st stp (s.tb + 1) (st.vRows mem [⟨a, selBytes (s.mreg m) g, none⟩]) (s.defer st es) := by
  subst hes
  exact Operates.of_vecTo (lat := 2) (args := [⟨a, selBytes (s.mreg m) g, none⟩]) hr
    (f := fun t r rows => t.defer r (deferEntries (rows.getD 0 0) (s.mreg m) g r.rho t.tb)) rfl hfree (s.defer_reading ..)

end

/-- Settles O25: the registers lane by lane or element by element, and the queue by what is appended, taken and counted. -/
theorem vectorQueueAndIndexes : Obligations.VectorQueueAndIndexes := by
  unfold Obligations.VectorQueueAndIndexes
  intro s st d a b m g l mem clear stp hr x y q n gives src z es
  have hes : deferEntries z (s.mreg m) g st.rho s.tb = es := by cases g <;> rfl
  have hdefer := Operates.of_vdfr (stp := stp) hr hes
  refine ⟨⟨_, Operates.of_regOp hr rfl, ?_, ?_⟩, ⟨_, Operates.of_regOp hr rfl, ?_, ?_⟩, fun hg => ⟨_, Operates.of_regOp hr rfl, ?_, ?_⟩,
    fun hfree hlen => ?_, fun hfree hlen => ?_,
    ⟨takenField q n (·.value), takenField q n (·.index), ?_, fun j hj => ⟨lane_takenField q n _ hj, lane_takenField q n _ hj⟩⟩,
    ⟨rowOfLanes fun _ => BitVec.ofNat 32 q.length, ?_, fun j hj => ?_⟩⟩
  · rintro rfl j hj
    exact lane_rowOfLanes _ hj
  · rintro rfl j hj
    exact elem16_rowOfElems _ hj
  · rintro rfl j hj
    exact lane_rowOfLanes _ hj
  · rintro rfl j hj
    exact elem16_rowOfElems _ hj
  · exact fun _ j hj => lane_rowOfLanes _ hj
  · exact fun he => absurd (hg.symm.trans he) (by decide)
  · rw [State.defer_fits hlen] at hdefer
    exact hdefer hfree
  · rw [State.defer_overflows hlen] at hdefer
    exact hdefer hfree
  · exact Operates.of_operate_regs (col := .vector) hr (exec_vdfd ..) rfl
  · exact Operates.of_operate_regs (col := .vector) hr (exec_vdfn ..) rfl
  · exact lane_rowOfLanes _ hj

end Sys2Proof.Machine
end

section
namespace Sys2Proof.Machine
open Sys2Proof

/-! ### The words of table memory (R147, Table 5.5) -/

/-- No word of the table memory in focus is damaged or still to land (R15). -/
def State.tableSound (s : State) : Prop :=
  (∀ i < 8192, s.mem.damaged (tableBase s.cur + i) = false) ∧ ∀ i < 2048, s.lateRead (tableBase s.cur + 4 * i) (rowSpan 0 4) = none

/-- Table entry `i` as an FP32 value. -/
def State.tableVal (s : State) (i : Nat) : FVal := fp32.decode (s.mem.entry s.cur i).toNat

/-- The header of table `h`. -/
def State.headerOf (s : State) (h : Nat) : Header where
  x0 := s.tableVal (128 * h)
  scale := s.tableVal (128 * h + 1)
  n := max 1 ((s.mem.entry s.cur (128 * h + 2)).toNat % 2048)
  lo := s.tableVal (128 * h + 3)
  hi := s.tableVal (128 * h + 4)
  d0 := (s.mem.entry s.cur (128 * h + 5)).toNat % 2048

/-- The segment and fraction of a value in table `h`. -/
def State.segmentOf (s : State) (h : Nat) (x : FVal) : Option (Nat × FVal) :=
  segment x (s.headerOf h).x0 (s.headerOf h).scale (s.headerOf h).n

section
variable {s : State} (hs : s.tableSound)
include hs

theorem State.tableEntry_sound (i : Nat) : s.tableEntry i = .ok (s.mem.entry s.cur i) := by
  obtain ⟨hdamage, hlate⟩ := hs
  have hi : i % 2048 < 2048 := Nat.mod_lt _ (by omega)
  unfold State.tableEntry State.fetchBound State.fetchBytes
  rw [hlate _ hi, Mem.firstDamage_eq_none fun k hk => by rw [Nat.add_assoc]; exact hdamage _ (by omega)]
  rfl

theorem State.tableValue_sound (i : Nat) : s.tableValue i = .ok (s.tableVal i) := by
  rw [State.tableValue, State.tableEntry_sound hs]
  rfl

theorem State.header_sound (h : Nat) : s.header h = .ok (s.headerOf h) := by
  unfold State.header
  simp only [State.tableValue_sound hs, State.tableEntry_sound hs]
  rfl

theorem State.interpolate_sound (d0 k : Nat) (t : FVal) : s.interpolate d0 k t =
    .ok (rneFma t (rneAdd (s.tableVal (d0 + k + 1)) (s.tableVal (d0 + k)).neg) (s.tableVal (d0 + k))) := by
  unfold State.interpolate
  simp only [State.tableValue_sound hs]
  rfl

theorem State.quadratic_sound (d0 k : Nat) (t : FVal) : s.quadratic d0 k t =
    .ok (rneFma (rneFma (s.tableVal (d0 + 3 * k + 2)) t (s.tableVal (d0 + 3 * k + 1))) t (s.tableVal (d0 + 3 * k))) := by
  unfold State.quadratic
  simp only [State.tableValue_sound hs]
  rfl

end

/-! ### The table words (R148, R149) -/

/-- The row of table elements that some results make. -/
theorem VType.row_getD (ty : VType) (row : Row) (y : Nat → Nat) :
    VType.row ty (if ty.bits == 32 then rowOfLanes fun i => BitVec.ofNat 32 (((elemsOfRow ty row).map y).getD i 0)
      else rowOfElems fun i => BitVec.ofNat 16 (((elemsOfRow ty row).map y).getD i 0)) fun j => y (VType.elem ty row j) := by
  refine (VType.row_of_elems ty fun i => ((elemsOfRow ty row).map y).getD i 0).congr fun j hj => ?_
  simp [elemsOfRow_eq, hj]

theorem roundTo_eq {ty : VType} {f : FFmt} (h : VType.float? ty = some f) (mode : Rnd) : roundTo ty mode = f.arith mode := by
  funext y
  rw [roundTo, h]

section
variable {s : State} {st : Stream} {i : Instr} {stp : Stp} {ty : VType} {d a : VReg} {h : BitVec 4}

/-- The source row of a table operation. -/
def Stream.tableSrc (st : Stream) (ty : VType) (a : VReg) : RowArg := (st.field a.toNat, fullRow, some [.raw, VType.fmt ty])

/-- A source element as a value. -/
def State.tableX (s : State) (st : Stream) (ty : VType) (a : VReg) (j : Nat) : FVal :=
  (VType.fmt ty).value (VType.elem ty (s.rowOf (st.field a.toNat) fullRow) j)

variable (hr : s.core.iss.tab.run = some st) (hs : s.tableSound)
include hr

theorem Operates.of_tld {t : BitVec 6} {row : BitVec 10} (hfree : s.rowsFree st .table [(st.rowAt row.toNat, fullRow, none)]) :
    Operates s (.tld t row stp) .table st stp s.tb [(st.rowAt row.toNat, fullRow, none)]
      (s.putCol .table 1 (.table (32 * ((t.toNat + st.rho) % 64).toNat) (s.rowOf (st.rowAt row.toNat) fullRow))) := by
  obtain ⟨hread, hfetch⟩ := State.readRow_free hfree
  exact .of_operate (col := .table) hr rfl ((Part?.bind_of_ok _ hread).trans (Part?.bind_of_ok _ hfetch))

include hs

/-- A table operation gives what its function makes of each element's value. -/
theorem Operates.of_tableOp {lat : Nat} {dfmt : Fmt} {f : State → Header → Rnd → FVal → Part? Nat} {y : FVal → Nat}
    (hi : exec i s = s.tableOp lat ty dfmt d a h stp f) (hl : 1 < lat)
    (hf : ∀ x, f (s.reading .table [st.tableSrc ty a]) (s.headerOf h.toNat) (s.bankRnd (st.field d.toNat).toNat) x = .ok (y x))
    (hw : s.writeFree st .table (st.field d.toNat, fullRow, some [.raw, dfmt]) (s.tb + lat - 1))
    (hfree : s.rowsFree st .table [st.tableSrc ty a]) :
    ∃ r, VType.row ty r (fun j => y (s.tableX st ty a j)) ∧ Operates s i .table st stp (s.tb + lat - 1) [st.tableSrc ty a]
      (s.putRow st .table (st.field d.toNat) r fullRow (s.tb + lat - 1)) := by
  have hwrite := State.checkWrite_later hw (by omega)
  obtain ⟨hread, hfetch⟩ := State.readRow_free hfree
  have hsound : (s.reading .table [st.tableSrc ty a]).tableSound := hs
  have hheader := State.header_sound hsound h.toNat
  refine ⟨_, VType.row_getD ty (s.rowOf (st.field a.toNat) fullRow) fun p => y ((VType.fmt ty).value p),
    .of_operate (col := .table) hr hi ?_⟩
  refine (Part?.bind_of_ok _ hwrite).trans ?_
  refine (Part?.bind_of_ok _ hread).trans ?_
  refine (Part?.bind_of_ok _ hfetch).trans ?_
  refine (Part?.bind_of_ok _ hheader).trans ?_
  exact Part?.bind_of_ok _ (Part?.mapM_ok fun p _ => hf _)

theorem Operates.of_tseg {dfmt : Fmt} (hd : dfmt = if ty.bits = 32 then .int32 else .int16)
    (hw : s.writeFree st .table (st.field d.toNat, fullRow, some [.raw, dfmt]) (s.tb + 4 - 1))
    (hfree : s.rowsFree st .table [st.tableSrc ty a]) :
    ∃ r, VType.row ty r (fun j => ((s.segmentOf h.toNat (s.tableX st ty a j)).map (·.1)).getD (2 ^ ty.bits - 1)) ∧
      Operates s (.tseg ty d a h stp) .table st stp (s.tb + 4 - 1) [st.tableSrc ty a]
        (s.putRow st .table (st.field d.toNat) r fullRow (s.tb + 4 - 1)) := by
  have hi : exec (.tseg ty d a h stp) s = s.tableOp 4 ty dfmt d a h stp fun _ hd _ x =>
      .ok (((segment x hd.x0 hd.scale hd.n).map (·.1)).getD (2 ^ ty.bits - 1)) := by
    rw [hd]
    simp only [exec, execTseg, beq_iff_eq]
    congr
    funext _ hd _ x
    cases segment x hd.x0 hd.scale hd.n <;> rfl
  exact Operates.of_tableOp (y := fun x => ((s.segmentOf h.toNat x).map (·.1)).getD (2 ^ ty.bits - 1)) hr hs hi (by omega)
    (fun _ => rfl) hw hfree

/-- A table operation of a segment and what follows from it. -/
theorem Operates.of_curveOp {lat : Nat} {f : State → Nat → Nat → FVal → Part? FVal} {ff : FFmt} {c : Nat → FVal → FVal}
    (hff : VType.float? ty = some ff) (hi : exec i s = s.curveOp lat ty d a h stp f) (hl : 1 < lat)
    (hc : ∀ k t, f (s.reading .table [st.tableSrc ty a]) (s.headerOf h.toNat).d0 k t = .ok (c k t))
    (hw : s.writeFree st .table (st.field d.toNat, fullRow, some [.raw, VType.fmt ty]) (s.tb + lat - 1))
    (hfree : s.rowsFree st .table [st.tableSrc ty a]) :
    ∃ r, VType.row ty r (fun j => ff.arith (s.bankRnd (st.field d.toNat).toNat)
        (((s.segmentOf h.toNat (s.tableX st ty a j)).map fun p => c p.1 p.2).getD (.nan false))) ∧
      Operates s i .table st stp (s.tb + lat - 1) [st.tableSrc ty a]
        (s.putRow st .table (st.field d.toNat) r fullRow (s.tb + lat - 1)) := by
  refine Operates.of_tableOp (y := fun x => ff.arith (s.bankRnd (st.field d.toNat).toNat)
    (((s.segmentOf h.toNat x).map fun p => c p.1 p.2).getD (.nan false))) hr hs hi hl (fun x => ?_) hw hfree
  rw [← State.segmentOf]
  cases s.segmentOf h.toNat x with
  | none => simp only [roundTo_eq hff]; rfl
  | some p => simp only [hc, roundTo_eq hff]; rfl

theorem Operates.of_tclmp {ff : FFmt} (hff : VType.float? ty = some ff)
    (hw : s.writeFree st .table (st.field d.toNat, fullRow, some [.raw, VType.fmt ty]) (s.tb + 2 - 1))
    (hfree : s.rowsFree st .table [st.tableSrc ty a]) :
    ∃ r, VType.row ty r (fun j => ff.arith (s.bankRnd (st.field d.toNat).toNat)
        (clampValue (s.headerOf h.toNat).lo (s.headerOf h.toNat).hi (s.tableX st ty a j))) ∧
      Operates s (.tclmp ty d a h stp) .table st stp (s.tb + 2 - 1) [st.tableSrc ty a]
        (s.putRow st .table (st.field d.toNat) r fullRow (s.tb + 2 - 1)) := by
  have hi : exec (.tclmp ty d a h stp) s = s.tableOp 2 ty (VType.fmt ty) d a h stp fun _ hd mode x =>
      .ok (roundTo ty mode (clampValue hd.lo hd.hi x)) := rfl
  simp only [roundTo_eq hff] at hi
  exact Operates.of_tableOp (y := fun x => ff.arith (s.bankRnd (st.field d.toNat).toNat)
    (clampValue (s.headerOf h.toNat).lo (s.headerOf h.toNat).hi x)) hr hs hi (by omega) (fun _ => rfl) hw hfree

end

/-- Settles O26: the words of the table by `State.tableEntry_sound`, and each operation element by element. -/
theorem tableResults : Obligations.TableResults := by
  unfold Obligations.TableResults
  intro s st ty f d a h t row stp hr hf hdamage hlate ra da src md entry val x rne fma hd n d0 u seg gives curve lo hi
  have hs : s.tableSound := ⟨hdamage, hlate⟩
  have hread : (s.reading .table [st.tableSrc ty a]).tableSound := hs
  have hseg (j : Nat) : s.segmentOf h.toNat (x j) = seg j := by
    simp only [State.segmentOf, segment, beq_iff_eq, bne_iff_ne]
    rfl
  have hcurve (c : Nat → FVal → FVal) :
      (fun j => f.arith md (((s.segmentOf h.toNat (x j)).map fun p => c p.1 p.2).getD (.nan false))) = curve c := by
    funext j
    simp only [curve, hseg]
    cases seg j <;> rfl
  have hfirst : (fun j => ((s.segmentOf h.toNat (x j)).map (·.1)).getD (2 ^ ty.bits - 1)) =
      fun j => match seg j with | some (k, _) => k | none => 2 ^ ty.bits - 1 := by
    funext j
    rw [hseg]
    cases seg j <;> rfl
  have hclamp (j : Nat) : clampValue lo hi (x j) = if (x j).isNaN || lo.isNaN || hi.isNaN then x j
      else if FVal.cmp (x j) lo = .lt then lo else if FVal.cmp hi (x j) = .lt then hi else x j := by
    simp only [clampValue, beq_iff_eq]
  refine ⟨fun hfree => Operates.of_tld hr hfree, fun hw hfree => ?_, fun hw hfree => ?_, fun hw hfree => ?_, fun hw hfree => ?_⟩
  · obtain ⟨r, hrow, hop⟩ := Operates.of_tseg (stp := stp) (h := h) hr hs rfl hw hfree
    exact ⟨r, hfirst ▸ hrow, hop⟩
  · rw [← hcurve]
    exact Operates.of_curveOp hr hs hf rfl (by omega) (State.interpolate_sound hread _) hw hfree
  · rw [← hcurve]
    exact Operates.of_curveOp hr hs hf rfl (by omega) (State.quadratic_sound hread _) hw hfree
  · simp only [← hclamp]
    exact Operates.of_tclmp hr hs hf hw hfree

end Sys2Proof.Machine
end

section
namespace Sys2Proof.Machine
open Sys2Proof

/-! ### Operations that leave for their home (R168 to R171, R209, R211, R228) -/

/-- An operation that passes its checks leaves the core, and the column goes on or waits for it. -/
theorem State.issueHome_reaches {s : State} {c : Cap} {va : W64} {n need : Nat} {home : HomeAt} {h : Nat}
    (hm : s.mayReach c va n need home h) (what : HomeDo) (blockers : List Nat) (waits : Bool) (dst : Option SReg) :
    s.issueHome c va n need what blockers waits dst =
      let u := s.leaves what va home h blockers waits dst 0 0
      if waits then u.modIss fun x => { x with wait := .home s.nextId, waitAt := s.tb } else u.advance 1 := by
  obtain ⟨hfw, hcheck, hhome⟩ := hm
  have hguard : s.guardCause va n = none := by rw [State.guardCause, hfw]
  unfold State.issueHome
  rw [hcheck, Option.orElse_none, hguard]
  dsimp only
  rw [hhome]
  cases waits <;> rfl

/-- The column goes on once the operation has left, whatever else that changes of the system registers. -/
theorem Sends.of_leaves {s : State} {i : Instr} {what : HomeDo} {va : W64} {home : HomeAt} {h : Nat} {blockers : List Nat}
    {dst : Option SReg} (f : SysRegs → SysRegs)
    (hi : exec i s = .next (((s.leaves what va home h blockers false dst 0 0).modSys f).advance 1)) :
    Sends s ((s.leaves what va home h blockers false dst 0 0).modSys f) i false :=
  ⟨_, hi, State.advance_issues _ 1, State.advance_steady _ 1, State.advance_pend _ 1⟩

theorem State.effective_eq (s : State) (x : Scope) :
    s.effective x = if x = .system ∧ s.core.sys.scope.toNat < 5 then .tenant else x := by
  simp only [State.effective, Bool.and_eq_true, beq_iff_eq, decide_eq_true_eq]

/-- TSTAT.SD set by the demotion of a release to TENANT (R17, R211). -/
def State.marked (s : State) (x : Scope) : State :=
  if x = .system ∧ s.core.sys.scope.toNat < 5 then s.modSys fun r => { r with sd := true } else s

theorem State.advance_modSys (s : State) (cost : Nat) (f : SysRegs → SysRegs) : (s.advance cost).modSys f = (s.modSys f).advance cost := by
  unfold State.advance
  rw [show (s.modSys f).core.iss.inStub = s.core.iss.inStub from rfl]
  split <;> rfl

theorem State.demote_advance {s : State} (hf : s.core.iss.fault = none) (x : Scope) :
    (s.advance 1).demote x = (s.marked x).advance 1 := by
  obtain ⟨-, -, hsys, -⟩ := s.advance_leaves 1
  have hfault : (s.advance 1).core.iss.fault = none := by
    obtain ⟨l, lc, pc, h⟩ := s.advance_eq 1
    rw [h]
    exact hf
  simp only [State.demote, State.marked, hsys, hfault, Option.isNone_none, Bool.and_true, Bool.and_eq_true, beq_iff_eq, decide_eq_true_eq,
    State.advance_modSys]
  split <;> rfl

section
variable {s : State} {c : Cap} {va : W64} {n need : Nat} {home : HomeAt} {h : Nat} (hm : s.mayReach c va n need home h) {i : Instr}
  {what : HomeDo} {blockers : List Nat} {dst : Option SReg}
include hm

/-- A word that goes on. -/
theorem Sends.of_issueHome (hi : exec i s = .next (s.issueHome c va n need what blockers false dst)) :
    Sends s (s.leaves what va home h blockers false dst 0 0) i false := by
  rw [State.issueHome_reaches hm] at hi
  exact .of_leaves id hi

/-- A word that waits; a stub holds none (R336). -/
theorem Sends.of_waitWord (hstub : s.core.iss.inStub = false)
    (hi : exec i s = s.waitWord fun s => s.issueHome c va n need what blockers true dst) :
    Sends s (s.leaves what va home h blockers true dst 0 0) i true := by
  rw [State.waitWord, hstub, State.issueHome_reaches hm] at hi
  exact hi

/-- A release: with its operation goes the note of its demotion (R17, R211). -/
theorem Sends.of_release {x : Scope} (hf : s.core.iss.fault = none)
    (hi : exec i s = .next ((s.issueHome c va n need what blockers false dst).demote x)) :
    Sends s ((s.leaves what va home h blockers false dst 0 0).marked x) i false := by
  rw [State.issueHome_reaches hm, if_neg Bool.false_ne_true, State.demote_advance (by exact hf)] at hi
  revert hi
  unfold State.marked
  split
  · exact .of_leaves _
  · exact .of_leaves id

end

/-! ### The home of an accumulator word (R170, R171) -/

theorem inSram_acc {i w : Nat} (hi : i < 2048) (hw : w < 16384) : inSram (accBase i + 4 * w) = true := by
  have hlo : sramBase ≤ accBase i + 4 * w := by
    unfold accBase coreBase
    omega
  have hhi : accBase i + 4 * w < sramTop := by
    unfold accBase coreBase sramBase sramTop windowSize
    omega
  rw [inSram, decide_eq_true hlo, decide_eq_true hhi, Bool.and_self]

theorem accWord_acc {i w : Nat} (hi : i < 2048) (hw : w < 16384) : accWord (accBase i + 4 * w) = some (i, w) := by
  have hcore : coreAt (accBase i + 4 * w) = i := by
    simp only [coreAt, accBase, coreBase, sramBase, windowSize]
    omega
  have hoff : offAt (accBase i + 4 * w) = 0x60000 + 4 * w := by
    simp only [offAt, accBase, coreBase, sramBase, windowSize]
    omega
  have hpart : partOf (0x60000 + 4 * w) = .acc := by
    rw [partOf, if_neg (by omega), if_pos (by omega)]
  rw [accWord, placeOf, if_pos (inSram_acc hi hw), hcore, hoff, hpart]
  simp

/-- An accumulator word of a core that answers the world has its home there. -/
theorem State.homeOf_acc {s : State} {world i w : Nat} (from_ : Nat) (gid : BitVec 16) {va : W64} (r wr : Bool) (hi : i < 2048)
    (hw : w < 16384) (hva : va.toNat = accBase i + 4 * w) (ha : s.admits world i = true) :
    s.homeOf world from_ gid va r wr = .ok (.acc i w, homeCost from_ i, false) := by
  rw [State.homeOf, hva, if_pos (inSram_acc hi hw), accWord_acc hi hw]
  dsimp only
  rw [ha, Bool.true_or, if_pos rfl]

/-- The crossings between two coordinates, counted either way. -/
theorem crossings1_eq (a b : Nat) : crossings1 a b = (a / 16 - b / 16) + (b / 16 - a / 16) := by
  unfold crossings1
  omega

/-- The path cost from a core (R171, R362), with its distances and crossings written out. -/
theorem homeCost_core {j : Nat} (hj : j < 2048) (i : Nat) : homeCost j i = if j = i then 0 else
    17 + 2 * ((gx j - gx i) + (gx i - gx j) + ((gy j - gy i) + (gy i - gy j)))
      + 18 * ((gx j / 16 - gx i / 16) + (gx i / 16 - gx j / 16) + ((gy j / 16 - gy i / 16) + (gy i / 16 - gy j / 16))) := by
  rw [homeCost, if_neg (by omega), pathH, hops, crossings, crossings1_eq, crossings1_eq, Nat.add_assoc (_ + _) (gy j - gy i)]
  simp only [beq_iff_eq]

/-- Settles O14: each word by the operation that it sends, and the home of an address in the accumulators by its place. -/
theorem homeOperationsLeave : Obligations.HomeOperationsLeave := by
  unfold Obligations.HomeOperationsLeave
  simp only [← memAddr_eq, ← State.effective_eq]
  refine ⟨fun s d c off int32 uns cond x home h => ⟨fun hm => ?_, fun hm => ?_, fun hm => ?_, fun hm => .of_issueHome hm rfl⟩,
    fun s i w gid va r wr hi hw hcur hva ha => ?_⟩
  · exact ⟨.of_issueHome hm rfl, .of_issueHome hm rfl, fun hd => .of_issueHome hm (if_neg (by simpa using hd)),
      fun hf => .of_release hm hf rfl, fun hs => .of_waitWord hm hs rfl⟩
  · exact ⟨.of_issueHome hm rfl, fun hs => ⟨.of_waitWord hm hs rfl, .of_waitWord hm hs rfl⟩⟩
  · exact ⟨.of_issueHome hm rfl, .of_issueHome hm rfl, fun hf => .of_release hm hf rfl⟩
  · rw [State.homeOf_acc s.cur gid r wr hi hw hva ha, homeCost_core hcur]

end Sys2Proof.Machine
end

section
namespace Sys2Proof.Machine
open Sys2Proof

/-! ### A word of memory and its four bytes (R2, R150) -/

theorem leBytes_leNat (bs : List Byte) : leBytes (leNat bs) bs.length = bs := by
  induction bs with
  | nil => rfl
  | cons b r ih =>
    have hb := b.isLt
    have hlow : BitVec.ofNat 8 (b.toNat + 256 * leNat r) = b := BitVec.eq_of_toNat_eq (by rw [BitVec.toNat_ofNat]; omega)
    have hrest : (b.toNat + 256 * leNat r) / 256 = leNat r := by omega
    rw [leNat, List.length_cons, leBytes, hlow, hrest, ih]

theorem leNat_lt (bs : List Byte) : leNat bs < 2 ^ (8 * bs.length) := by
  have h := leNat_leBytes (leNat bs) bs.length
  rw [leBytes_leNat] at h
  rw [h]
  exact Nat.mod_lt _ (Nat.two_pow_pos _)

theorem leBytes_ofNat_leNat (bs : List Byte) : leBytes (BitVec.ofNat (8 * bs.length) (leNat bs)).toNat bs.length = bs := by
  rw [BitVec.toNat_ofNat, Nat.mod_eq_of_lt (leNat_lt bs), leBytes_leNat]

theorem Mem.leBytes_word (m : Mem) (a : Nat) : leBytes (m.word a).toNat 4 = m.read a 4 := by
  have hback := leBytes_ofNat_leNat (m.read a 4)
  rw [Mem.read_length] at hback
  exact hback

theorem Mem.word_congr {m m' : Mem} {a : Nat} (h : ∀ k < 4, m.get (a + k) = m'.get (a + k)) : m.word a = m'.word a := by
  have hread : m.read a 4 = m'.read a 4 := List.map_congr_left fun k hk => h k (List.mem_range.mp hk)
  rw [Mem.word, Mem.readNat, hread, Mem.word, Mem.readNat]

/-- A byte read after a word written. -/
theorem Mem.get_setWord {m : Mem} (h : m.wf = true) (a : Nat) (w : W32) (b : Nat) :
    (m.setWord a w).get b = if a ≤ b ∧ b < a + 4 then (leBytes w.toNat 4)[b - a]! else m.get b := by
  rw [Mem.setWord, Mem.get_write h, leBytes_length, List.getElem!_eq_getElem?_getD, List.getD_eq_getElem?_getD]
  rfl

/-- The bytes of a word that nothing writes. -/
theorem Mem.get_word (m : Mem) (a b : Nat) :
    m.get b = if a ≤ b ∧ b < a + 4 then (leBytes (m.word a).toNat 4)[b - a]! else m.get b := by
  split
  · have hlt : b - a < 4 := by omega
    have hread := getD_read m a hlt
    rw [Nat.add_sub_of_le (by omega), List.getD_eq_getElem?_getD] at hread
    rw [Mem.leBytes_word, List.getElem!_eq_getElem?_getD]
    exact hread.symm
  · rfl

theorem Mem.word_setWord {m : Mem} (h : m.wf = true) (a : Nat) (w : W32) : (m.setWord a w).word a = w := by
  have hread := Mem.read_write h a (leBytes w.toNat 4)
  rw [leBytes_length] at hread
  rw [Mem.word, Mem.readNat, Mem.setWord, hread, leNat_leBytes, Nat.mod_eq_of_lt w.isLt, BitVec.ofNat_toNat, BitVec.setWidth_eq]

theorem Mem.clearPoison_get (m : Mem) (u b : Nat) : (m.clearPoison u).get b = m.get b := by
  unfold Mem.clearPoison
  split <;> rfl

/-! ### The act of a word operation (R168, R171, Tables 6.4 and 9.2) -/

/-- What waits for an access that took effect keeps its identifier. -/
theorem State.mem_accessDone_homes {s : State} {op : HomeOp} (h : op ∈ s.eng.homes) (id l : Nat) :
    ∃ x ∈ (s.accessDone id l).eng.homes, x.id = op.id :=
  ⟨_, List.mem_map_of_mem h, rfl⟩

section
variable {s : State} {id p : Nat} {op : HomeOp} (h : s.eng.homes.find? (fun h => h.id == id) = some op) (ha : op.asker = .core p)
include h ha

/-- An operation that has acted changes its engine's list besides what it did: it stands there, if something is to come back. -/
theorem exec_homeOperationAct_done {g : Mem → Mem} {v : Option W64} (hact : s.actAt op = .done (s.modMem g) v) :
    ∃ e, exec (.homeOperationAct id) s = .next { s.modMem g with eng := e } ∧ (op.dst.isSome = true ∨ op.waits = true →
      ∃ x ∈ e.homes, x.id = id ∧ x.acted = true ∧ x.value = v ∧ x.ret = s.tb + op.back) := by
  have hid : op.id = id := by simpa using List.find?_some h
  have hexec : exec (.homeOperationAct id) s = .next (let u := (s.modMem g).accessDone id s.tb
      if op.dst.isNone && !op.waits then u.dropHome id
      else u.modHome id fun x => { x with acted := true, ret := s.tb + op.back, value := v }) := by
    show execHomeOperationAct id s = _
    rw [execHomeOperationAct, h]
    dsimp only
    rw [hact]
    dsimp only
    rw [ha]
    dsimp only
    split <;> rfl
  rw [hexec]
  dsimp only
  split
  case isTrue hnone =>
    simp only [Bool.and_eq_true, Option.isNone_iff_eq_none, Bool.not_eq_true'] at hnone
    obtain ⟨hdst, hwaits⟩ := hnone
    exact ⟨_, rfl, fun hback => by simp [hdst, hwaits] at hback⟩
  case isFalse =>
    obtain ⟨x, hx, hxid⟩ := (s.modMem g).mem_accessDone_homes (List.mem_of_find?_eq_some h) id s.tb
    exact ⟨_, rfl, fun _ => ⟨_, List.mem_map_of_mem hx, by simp [hxid, hid]⟩⟩

end

/-- A waiting operation whose condition does not hold stays as it is (R210). -/
theorem exec_homeOperationAct_wait {s : State} {id : Nat} {op : HomeOp} (h : s.eng.homes.find? (fun h => h.id == id) = some op)
    (hact : s.actAt op = .wait) : exec (.homeOperationAct id) s = .next s := by
  show execHomeOperationAct id s = _
  rw [execHomeOperationAct, h]
  dsimp only
  rw [hact]

section
variable {s : State} {op : HomeOp} {i w p : Nat} (hh : op.home = .acc i w) (ha : op.asker = .core p)
  (hd : s.mem.damaged (accBase i + 4 * w) = false) (hheld : s.heldAway (accBase i + 4 * w) = false)
include hh ha hd hheld

/-- An operation at an accumulator word without an uncorrectable error, on a core that no scan holds. -/
theorem State.actAt_word (hc : ∀ o g, op.what ≠ .carry o g) :
    s.actAt op = match op.what.onWord (s.mem.word (accBase i + 4 * w)) with
      | none => .wait
      | some (none, v) => .done s v
      | some (some x, v) => .done (s.writeHome (.acc i w) op.world 0 x) v := by
  have hread : s.readable op.home = true := by
    rw [hh]
    exact congrArg not hd
  have hact : s.actAt op = s.actWord op := by
    unfold State.actAt
    rw [hh, ha]
    exact if_neg (by rw [HomeAt.addr, hheld]; exact Bool.false_ne_true)
  rw [hact]
  unfold State.actWord
  split
  next o g hw => exact absurd hw (hc o g)
  next =>
    rw [hread, hh]
    rfl

/-- What the act of a word operation does to memory: its word alone, and no byte where it writes none. -/
theorem State.actAt_get (hc : ∀ o g, op.what ≠ .carry o g) (hm : s.mem.wf = true) {new : Option W32} {v : Option W64}
    (hw : op.what.onWord (s.mem.word (accBase i + 4 * w)) = some (new, v)) :
    ∃ g : Mem → Mem, s.actAt op = .done (s.modMem g) v ∧ ∀ b, (g s.mem).get b =
      let a := accBase i + 4 * w
      if a ≤ b ∧ b < a + 4 then (leBytes (new.getD (s.mem.word a)).toNat 4)[b - a]! else s.mem.get b := by
  have hact := State.actAt_word hh ha hd hheld hc
  rw [hw] at hact
  cases new with
  | none => exact ⟨id, hact, fun b => s.mem.get_word _ b⟩
  | some x =>
    refine ⟨fun m => (m.setWord (accBase i + 4 * w) x).clearPoison (unitOf (accBase i + 4 * w)), hact, fun b => ?_⟩
    rw [Mem.clearPoison_get]
    exact Mem.get_setWord hm _ x b

end

/-- Settles O16: each operation by what it makes of its word, and by what comes back. -/
theorem wordsActAtTheirHome : Obligations.WordsActAtTheirHome := by
  unfold Obligations.WordsActAtTheirHome
  intro s id i w p op b hm h hh ha hd hheld a old acts got
  have hacts {d : HomeDo} {new : Option W32} {v : Option W64} {x : W32} {back : Nat} (hx : op.what = d)
      (hw : d.onWord old = some (new, v)) (hnew : new.getD old = x) (hback : op.back = back) (hc : ∀ o g, d ≠ .carry o g) :
      acts x v back := by
    subst hx hnew hback
    obtain ⟨g, hact, hget⟩ := State.actAt_get hh ha hd hheld hc hm hw
    obtain ⟨e, hexec, hsent⟩ := exec_homeOperationAct_done h ha hact
    exact ⟨_, hexec, rfl, rfl, rfl, rfl, rfl, hget b, hsent⟩
  have hgot : some (old.setWidth 64) = got := congrArg some (BitVec.ofNat_toNat 64 old).symm
  rw [← hgot]
  refine ⟨fun x hx => ?_, fun x hx => ?_, fun x hx => ?_, fun c x hx => ?_, fun hx => ?_, fun x hx => ?_, fun x hx => ?_, fun x hx => ?_,
    fun x c k hx hc => ?_, fun x c k hx hc => ?_⟩
  · exact hacts hx rfl rfl (by rw [HomeOp.back, hx]) nofun
  · exact hacts hx rfl rfl (by rw [HomeOp.back, hx]) nofun
  · exact hacts hx rfl rfl (by rw [HomeOp.back, hx]) nofun
  · refine hacts hx rfl ?_ (by rw [HomeOp.back, hx]) nofun
    by_cases he : old = c <;> simp [he]
  · exact hacts hx rfl rfl (by rw [HomeOp.back, hx]) nofun
  · exact hacts hx rfl rfl (by rw [HomeOp.back, hx]) nofun
  · exact hacts hx rfl rfl (by rw [HomeOp.back, hx]) nofun
  · exact hacts hx rfl rfl (by rw [HomeOp.back, hx]) nofun
  · refine hacts hx (if_pos hc) ?_ (by rw [HomeOp.back, hx]) nofun
    cases k <;> rfl
  · have hnone : (HomeDo.swait x c k).onWord old = none := if_neg (by rw [hc]; exact Bool.false_ne_true)
    have hact := State.actAt_word hh ha hd hheld (by rw [hx]; nofun)
    rw [hx, hnone] at hact
    exact exec_homeOperationAct_wait h hact

end Sys2Proof.Machine
end

section
namespace Sys2Proof.Machine
open Sys2Proof

/-! ### MWSW while the loader is busy, inside an occupancy (R155, R164) -/

/-- A matrix stream of one word that stands in the second cycle of an occupancy. -/
def midwayStream : Stream :=
  { addr := 0, left := 1, cur := none, op := 0, rho := 0, cap := .null, next := 0, cyc := 1, opIssue := 0, issue := 0, visible := 0, latched := [] }

/-- A running core with that stream, whose loader holds a follow-on. -/
def midwaySwap : State := State.reset.modC fun c => { c with
  mat := { c.mat with loader := [{ copy := 0, word := 0, cap := .null, pc := 0, issue := 0, engine := 0, presented := 0, row := 0, running := false, old := [] }] }
  iss := { c.iss with status := .running, mat := { c.iss.mat with run := some midwayStream } } }

/-- The cycle of its occupancy in which an outcome leaves the matrix stream. -/
def matrixCyc : Result → Option Nat
  | .next t => t.core.iss.mat.run.map (·.cyc)
  | _ => none

/-- Refutes O27: MWSW with the loader busy, where the stream stands in the second cycle of an occupancy. The statement's clause for
it, which allows any such cycle (its FINFO has DEF from `c != 0`), has nothing change but the fault; in the model the operation that
stops has gone nowhere (R155), and `State.undo` takes the stream back to the first cycle. -/
theorem not_matrixSettings : ¬ Obligations.MatrixSettings := by
  unfold Obligations.MatrixSettings
  intro h
  obtain ⟨-, -, -, -, hbusy, -⟩ := h midwaySwap midwayStream .p4 0 0 0 0 0 0 ⟨0, 0⟩ rfl (by decide)
  have hexec := hbusy (by decide) ⟨rfl, rfl⟩
  have hcyc : some 0 = some 1 := congrArg matrixCyc hexec
  exact absurd hcyc (by decide)

end Sys2Proof.Machine
end

section
namespace Sys2Proof.Machine
open Sys2Proof

/-! ### A write of the matrix column at the accumulator port (R157, R162, R174) -/

/-- What a write makes of the word of column `n`, with `old` there before. -/
def AccPend.sum (p : AccPend) (n : Nat) (old : W32) : W32 :=
  if p.anew = true ∧ p.zero = true then 0 else sumTerms (if p.anew then 0 else old) (p.terms.getD n [])

/-- One word of a write, as `State.accWrite` folds over them. -/
def AccPend.step (p : AccPend) (m : Mem) (x : Nat × Nat) : Mem :=
  let g := p.terms.getD x.2 []
  if p.anew then (m.setWord x.1 (if p.zero then 0 else sumTerms 0 g)).clearPoison x.1
  else if m.damaged x.1 then m.markPoison x.1
  else if g.all (·.isNone) then m
  else m.setWord x.1 (sumTerms (m.word x.1) g)

theorem State.accWrite_eq (s : State) {p : AccPend} (hp : p.parity = false) :
    s.accWrite p = s.modMem fun m => ((p.words s.cur).zipIdx).foldl p.step m := by
  rw [State.accWrite, hp, if_neg Bool.false_ne_true]
  rfl

theorem sumTerms_none {g : List (Option W32)} (h : g.all (·.isNone) = true) (x : W32) : sumTerms x g = x := by
  induction g with
  | nil => rfl
  | cons t r ih =>
    obtain ⟨ht, hr⟩ : t = none ∧ r.all (·.isNone) = true := by simpa using h
    subst ht
    exact ih hr

theorem Mem.write_marks (m : Mem) (a : Nat) (bs : List Byte) : (m.write a bs).poison = m.poison ∧ (m.write a bs).ue = m.ue := by
  induction bs generalizing m a with
  | nil => exact ⟨rfl, rfl⟩
  | cons b r ih => exact ih (m.set a b) (a + 1)

theorem Mem.damaged_setWord (m : Mem) (a b : Nat) (w : W32) : (m.setWord a w).damaged b = m.damaged b := by
  obtain ⟨hpoison, hue⟩ := m.write_marks a (leBytes w.toNat 4)
  rw [Mem.setWord, Mem.damaged, hpoison, hue, Mem.damaged]

theorem AccPend.step_wf (p : AccPend) {m : Mem} (hm : m.wf = true) (x : Nat × Nat) : (p.step m x).wf = true :=
  Mem.ite_wf (Mem.clearPoison_wf (Mem.setWord_wf hm _ _) _)
    (Mem.ite_wf (Mem.markPoison_wf hm _) (Mem.ite_wf hm (Mem.setWord_wf hm _ _)))

/-- One word of a write leaves the bytes that the sum makes, the word sound before where the sum reads it. -/
theorem AccPend.step_get (p : AccPend) {m : Mem} (hm : m.wf = true) {a n : Nat} (hd : p.anew = false → m.damaged a = false) (b : Nat) :
    (p.step m (a, n)).get b = (m.setWord a (p.sum n (m.word a))).get b := by
  unfold AccPend.step AccPend.sum
  by_cases ha : p.anew = true
  · simp only [ha, true_and, if_true, Mem.clearPoison_get]
  · rw [Bool.not_eq_true] at ha
    simp only [ha, hd ha, false_and, Bool.false_eq_true, if_false]
    split
    case isTrue hnone =>
      rw [sumTerms_none hnone, Mem.get_setWord hm]
      exact m.get_word a b
    case isFalse => rfl

/-- A sum marks no word. -/
theorem AccPend.step_damaged (p : AccPend) {m : Mem} {a n : Nat} (ha : p.anew = false) (hd : m.damaged a = false) (b : Nat) :
    (p.step m (a, n)).damaged b = m.damaged b := by
  unfold AccPend.step
  simp only [ha, hd, Bool.false_eq_true, if_false]
  split
  · rfl
  · exact Mem.damaged_setWord m a b _

/-- The words of a write, one after the other from address `c` on: each holds its sum, and no byte beside them changes. -/
theorem AccPend.foldl_step (p : AccPend) {m : Mem} (hm : m.wf = true) (c k : Nat)
    (hd : p.anew = false → ∀ n < k, m.damaged (c + 4 * n) = false) :
    let t := ((List.range k).map fun n => (c + 4 * n, n)).foldl p.step m
    t.wf = true ∧ (∀ n < k, t.word (c + 4 * n) = p.sum n (m.word (c + 4 * n))) ∧
      (∀ b, b < c ∨ c + 4 * k ≤ b → t.get b = m.get b) ∧ (p.anew = false → ∀ b, t.damaged b = m.damaged b) := by
  induction k with
  | zero => exact ⟨hm, nofun, fun _ _ => rfl, fun _ _ => rfl⟩
  | succ k ih =>
    obtain ⟨hwf, hword, hget, hdam⟩ := ih fun ha n hn => hd ha n (by omega)
    rw [List.range_succ, List.map_append, List.foldl_append]
    generalize ((List.range k).map fun n => (c + 4 * n, n)).foldl p.step m = u at hwf hword hget hdam
    have hsound : p.anew = false → u.damaged (c + 4 * k) = false := fun ha => (hdam ha _).trans (hd ha k (by omega))
    have hold : u.word (c + 4 * k) = m.word (c + 4 * k) := Mem.word_congr fun i _ => hget _ (by omega)
    have hstep := p.step_get hwf (n := k) hsound
    refine ⟨p.step_wf hwf _, fun n hn => ?_, fun b hb => ?_, fun ha b => (p.step_damaged ha (hsound ha) b).trans (hdam ha b)⟩
    · obtain hn | rfl : n < k ∨ n = k := by omega
      · refine Eq.trans (Mem.word_congr fun i hi => ?_) (hword n hn)
        exact (hstep _).trans ((Mem.get_setWord hwf _ _ _).trans (if_neg (by omega)))
      · refine (Mem.word_congr fun i _ => hstep _).trans ?_
        rw [Mem.word_setWord hwf, hold]
    · exact ((hstep b).trans ((Mem.get_setWord hwf _ _ _).trans (if_neg (by omega)))).trans (hget b (by omega))

/-- A write at the accumulator port: the words of its row hold their sums, and no byte outside the row changes. -/
theorem State.accWrite_spec {s : State} {p : AccPend} (hm : s.mem.wf = true) (hp : p.parity = false)
    (hd : ∀ a ∈ p.words s.cur, s.mem.damaged a = false) : let c := accBase s.cur + 4 * (outColumns s.cur * p.row)
    (∀ n < outColumns s.cur, (s.accWrite p).mem.word (c + 4 * n) = p.sum n (s.mem.word (c + 4 * n))) ∧
      ∀ b, b < c ∨ c + 4 * outColumns s.cur ≤ b → (s.accWrite p).mem.get b = s.mem.get b := by
  have hplace (n : Nat) : accBase s.cur + 4 * (outColumns s.cur * p.row + n) = accBase s.cur + 4 * (outColumns s.cur * p.row) + 4 * n := by
    rw [Nat.mul_add, Nat.add_assoc]
  have hsound : ∀ n < outColumns s.cur, s.mem.damaged (accBase s.cur + 4 * (outColumns s.cur * p.row) + 4 * n) = false :=
    fun n hn => hplace n ▸ hd _ (List.mem_map_of_mem (List.mem_range.mpr hn))
  obtain ⟨-, hword, hget, -⟩ := p.foldl_step hm _ _ fun _ => hsound
  rw [State.accWrite_eq s hp, AccPend.words, zipIdx_map_range]
  simp only [hplace]
  exact ⟨hword, hget⟩

/-! ### The words and the row of a drain (R60, R153, R165) -/

/-- The format that a drain writes: that of the bank, FP32 where it is RAW. -/
def State.drainFmt (s : State) (d : VReg) (st : Stream) : Fmt :=
  if s.bankFmt (st.field d.toNat).toNat = .raw then .fp32 else s.bankFmt (st.field d.toNat).toNat

/-- The address of word `i` of a drain. -/
def State.drainWord (s : State) (d : VReg) (aw : BitVec 11) (st : Stream) (i : Nat) : Nat :=
  accBase s.cur + 4 * ((((8 * aw.toNat + 128 / (s.drainFmt d st).unit * st.rho) % 16384).toNat + i) % 16384)

/-- What a drain writes. -/
def State.drained (s : State) (d : VReg) (aw : BitVec 11) (st : Stream) : Row :=
  drainRow (s.drainFmt d st) (s.bankRnd (st.field d.toNat).toNat) s.core.mat.tscale
    ((List.range (128 / (s.drainFmt d st).unit)).map fun i => s.mem.word (s.drainWord d aw st i))

theorem State.drainOp_free {s : State} {d : VReg} {aw : BitVec 11} {st : Stream}
    (hw : s.writeFree st .matrix (st.field d.toNat, fullRow, some drainFmts) (s.tb + 8))
    (hsound : ∀ i < 128 / (s.drainFmt d st).unit, s.lateRead (s.drainWord d aw st i) (rowSpan 0 4) = none ∧
      ∀ k < 4, s.mem.damaged (s.drainWord d aw st i + k) = false) :
    s.drainOp d aw st = .ok (s.putRow st .matrix (st.field d.toNat) (s.drained d aw st) fullRow (s.tb + 8)) := by
  have hwords : s.accWords ((8 * aw.toNat + 128 / (s.drainFmt d st).unit * st.rho) % 16384).toNat (128 / (s.drainFmt d st).unit) =
      .ok ((List.range (128 / (s.drainFmt d st).unit)).map fun i => s.mem.word (s.drainWord d aw st i)) := by
    refine Part?.mapM_ok fun i hi => ?_
    obtain ⟨hlate, hdamage⟩ := hsound i (List.mem_range.mp hi)
    unfold State.drainWord at hlate hdamage
    unfold State.fetchBound State.fetchBytes
    rw [hlate, Mem.firstDamage_eq_none hdamage]
    rfl
  unfold State.drainOp
  simp only [beq_iff_eq]
  refine (Part?.bind_of_ok _ (State.checkWrite_later hw (by omega))).trans ?_
  exact Part?.bind_of_ok _ hwords

/-- A row that may be written in full lies in a bank of one of the formats allowed. -/
theorem State.rowStop_fmts {s : State} {st : Stream} {a need : Nat} {l : List Fmt} (h : s.rowStop st a fullRow need (some l) = none) :
    s.bankFmt a ∈ l := by
  have hsome : ((List.range 128).filter fun k => fullRow.getLsbD k).isEmpty = false := by decide
  unfold State.rowStop at h
  simp only [hsome] at h
  split at h
  · exact nomatch h
  · split_ifs at h with _ _ hown hfmt
    have hbank : s.ownBank a = true := by simpa using hown
    simpa [hbank] using hfmt

/-- The format of a drain that may write its row. -/
theorem State.drainFmt_mem {s : State} {d : VReg} {st : Stream} {due : Nat}
    (hw : s.writeFree st .matrix (st.field d.toNat, fullRow, some drainFmts) due) :
    s.drainFmt d st ∈ [Fmt.fp32, .bf16, .fp16, .e4m3, .e5m2, .int8, .int16, .int32] := by
  obtain ⟨hstop, -⟩ := hw
  have hmem := State.rowStop_fmts hstop
  unfold State.drainFmt
  split
  case isTrue => decide
  case isFalse hraw => simpa [drainFmts, hraw] using hmem

/-- A piece of a list made of pieces of one length. -/
theorem take_drop_flatMap {α β : Type} {g : α → List β} {u : Nat} (hg : ∀ x, (g x).length = u) (l : List α) {i : Nat} (hi : i < l.length) :
    ((l.flatMap g).drop (i * u)).take u = g l[i] := by
  induction l generalizing i with
  | nil => exact absurd hi (Nat.not_lt_zero i)
  | cons x l ih =>
    cases i with
    | zero => simp [← hg x]
    | succ i =>
      rw [List.flatMap_cons, Nat.succ_mul, Nat.add_comm, ← List.drop_drop, ← hg x, List.drop_left, hg x]
      exact ih (by simpa using hi)

theorem rowBytes_rowOfBytes {bs : List Byte} (h : bs.length = 128) : rowBytes (rowOfBytes bs) = bs := by
  have hback := leBytes_ofNat_leNat bs
  rw [h] at hback
  exact hback

/-- Element `i` of the row of a drain. -/
theorem drainRow_elem {f : Fmt} (hf : f ∈ [Fmt.fp32, .bf16, .fp16, .e4m3, .e5m2, .int8, .int16, .int32]) (mode : Rnd) (t : W32)
    (w : Nat → W32) {i : Nat} (hi : i < 128 / f.unit) :
    leNat (((rowBytes (drainRow f mode t ((List.range (128 / f.unit)).map w))).drop (i * f.unit)).take f.unit) =
      f.pattern mode (fp32.decode (mulF32 (w i) t).toNat) % 256 ^ f.unit := by
  have hunit : ∀ f ∈ [Fmt.fp32, .bf16, .fp16, .e4m3, .e5m2, .int8, .int16, .int32], f.half / 2 = f.unit ∧ 128 / f.unit * f.unit = 128 := by
    decide
  obtain ⟨hhalf, hfull⟩ := hunit f hf
  rw [drainRow, rowBytes_rowOfBytes (by simp [Fmt.join, leBytes_length, hhalf, hfull, Function.comp_def]), Fmt.join, hhalf,
    take_drop_flatMap (fun _ => leBytes_length _ _) _ (by simpa using hi), leNat_leBytes, Nat.pow_mul]
  simp

section
variable {s : State} {st : Stream} (hr : s.core.iss.mat.run = some st) {d : VReg} {aw : BitVec 11} {stp : Stp}
include hr

theorem exec_mdrn : exec (.mdrn d aw stp) s = s.occupy stp (if st.op < stp.rep.toNat then 1 else 9)
    (s.tb + if st.cyc == 0 then 8 else 0) fun r => if r.cyc == 0 then (s.drainOp d aw r).map fun t => (t, r) else .ok (s, r) := by
  show execMdrn d aw stp s = _
  rw [execMdrn, hr]

/-- The first cycle of an operation writes its row; it is complete with that, unless it is the last of its word. -/
theorem exec_mdrn_first (hc : st.cyc = 0) {u : State} (hu : s.drainOp d aw st = .ok u) : exec (.mdrn d aw stp) s =
    .next (if st.op < stp.rep.toNat then u.opDone .matrix st stp (s.tb + 8) else u.setStream .matrix (st.tick s.tb)) := by
  have hf : (if st.cyc == 0 then (s.drainOp d aw st).map fun t => (t, st) else .ok (s, st)) = .ok (u, st) := by
    rw [if_pos (by simp [hc]), hu]
    rfl
  rw [exec_mdrn hr]
  by_cases ho : st.op < stp.rep.toNat
  · rw [State.occupy_ends hr hf (by simp [ho]), if_pos ho, if_pos (by simp [hc])]
  · rw [State.occupy_goes hr hf (by simp [ho, hc]), if_neg ho]

/-- The cycles after that, in which the last operation of a word holds the column. -/
theorem exec_mdrn_hold (hc : 0 < st.cyc) (ho : ¬ st.op < stp.rep.toNat) : exec (.mdrn d aw stp) s =
    .next (if st.cyc < 8 then s.setStream .matrix (st.tick s.tb) else s.opDone .matrix st stp s.tb) := by
  have hcyc : ¬ (st.cyc == 0) = true := by simpa using Nat.ne_of_gt hc
  have hf : (if st.cyc == 0 then (s.drainOp d aw st).map fun t => (t, st) else .ok (s, st)) = .ok (s, st) := if_neg hcyc
  rw [exec_mdrn hr, if_neg ho]
  by_cases h8 : st.cyc < 8
  · rw [State.occupy_goes hr hf (by omega), if_pos h8]
  · rw [State.occupy_ends hr hf (by omega), if_neg h8, if_neg hcyc, Nat.add_zero]

end

/-- An operation that reads no row is complete. -/
theorem Operates.of_opDone {s u : State} {i : Instr} {col : Col} {st : Stream} {stp : Stp} {due : Nat}
    (h : exec i s = .next (u.opDone col st stp due)) : Operates s i col st stp due [] u :=
  h.trans (congrArg (fun u => Host.Outcome.next (u.opDone col st stp due)) (u.reading_nil col).symm)

/-- Settles O29: the sums by `AccPend.foldl_step`, the drain by the words it reads and the elements of the row that it writes. -/
theorem accumulatorsDrain : Obligations.AccumulatorsDrain := by
  unfold Obligations.AccumulatorsDrain
  refine ⟨fun s p n b hm hp hn hd => ?_, fun s st d aw stp hr hl => ?_⟩
  · intro wn word sum
    obtain ⟨hword, hget⟩ := State.accWrite_spec hm hp hd
    have hplace (k : Nat) : word k = accBase s.cur + 4 * (wn * p.row) + 4 * k := by
      simp only [word, Nat.mul_add, Nat.add_assoc]
    rw [hplace, hplace, hplace]
    exact ⟨hword n hn, hget b⟩
  · intro da f0 f q from_ ticks
    have hticks (u : State) : u.setStream .matrix (st.tick s.tb) = ticks u := State.setStream_going (st := st.tick s.tb) hl .matrix
    refine ⟨fun hc hw hsound => ?_, fun hc ho => ⟨fun h8 => ?_, fun h8 => ?_⟩⟩
    · have hexec := exec_mdrn_first hr hc (stp := stp) (State.drainOp_free hw hsound)
      refine ⟨s.drained d aw st, fun ho => ?_, fun ho => ?_, fun i hi => ?_⟩
      · rw [if_pos ho] at hexec
        exact .of_opDone hexec
      · rw [hexec, if_neg ho, hticks]
      · exact drainRow_elem (State.drainFmt_mem hw) _ _ _ hi
    · rw [exec_mdrn_hold hr hc ho, if_pos h8, hticks]
    · exact .of_opDone ((exec_mdrn_hold hr hc ho).trans (congrArg _ (if_neg (by omega))))

end Sys2Proof.Machine
end

section
namespace Sys2Proof.Machine
open Sys2Proof

theorem State.modC_congr {s : State} {f g : Core → Core} (h : f s.core = g s.core) : s.modC f = s.modC g :=
  congrArg (fun c => { s with core := c }) h

/-! ### The landing of a copy's record (R274, R288) -/

/-- A record that shows STATE 4. -/
def landedRecord (w : W64) : W64 := (w &&& ~~~(7#64 <<< 61)) ||| (4#64 <<< 61)

theorem landedRecord_state (w : W64) : natBits (landedRecord w).toNat 61 3 = 4 := by
  have hstate : (landedRecord w).extractLsb' 61 3 = 4#3 := by
    unfold landedRecord
    apply BitVec.eq_of_getLsbD_eq
    intro i hi
    obtain rfl | rfl | rfl : i = 0 ∨ i = 1 ∨ i = 2 := by omega
    all_goals simp
  rw [natBits_toNat, hstate]
  rfl

theorem landedRecord_rest (w : W64) : (landedRecord w).setWidth 61 = w.setWidth 61 := by
  have hmask : (~~~(7#64 <<< 61)).setWidth 61 = BitVec.allOnes 61 := by decide
  have hset : (4#64 <<< 61).setWidth 61 = 0#61 := by decide
  rw [landedRecord, BitVec.setWidth_or, BitVec.setWidth_and, hmask, hset, BitVec.and_allOnes, BitVec.or_zero]

theorem exec_copyRecordLanded {s : State} {k : BitVec 4} {id : Nat} (h : s.core.copyOf[k.toNat]'k.isLt = id) :
    exec (.copyRecordLanded s.cur k id) s = .next (s.modC fun c =>
      { c with copyrec := c.copyrec.set k.toNat (landedRecord (s.core.copyrec[k.toNat]'k.isLt)) }) := by
  show execCopyRecordLanded s.cur k id s = _
  rw [execCopyRecordLanded, State.modCore_cur]
  exact congrArg Host.Outcome.next (State.modC_congr (if_pos (by simpa using h)))

/-- The record describes a later copy: it stays. -/
theorem exec_copyRecordLanded_other {s : State} {k : BitVec 4} {id : Nat} (h : s.core.copyOf[k.toNat]'k.isLt ≠ id) :
    exec (.copyRecordLanded s.cur k id) s = .next s := by
  show execCopyRecordLanded s.cur k id s = _
  rw [execCopyRecordLanded, State.modCore_cur]
  exact congrArg Host.Outcome.next (State.modC_congr (g := fun c => c) (if_neg (by simpa using h)))

/-! ### A completion's increment of its semaphore (R174, R253, R274, R357) -/

/-- The word at an address fails: it is uncorrectable, or its line does not verify under its key. -/
def State.semFails (s : State) (world a : Nat) : Prop :=
  s.mem.damaged a = true ∨ placeOf a = .hbm ∧ s.mem.lineOk (s.semKey world a) a = false

theorem State.increment_held {s : State} {a : Nat} (h : s.heldAway a = true) (world : Nat) : s.increment world a = (true, s) := by
  rw [State.increment, if_pos h]

theorem State.increment_sound {s : State} {world a : Nat} (h : s.heldAway a = false) (hs : ¬ s.semFails world a) :
    s.increment world a = (true, (s.modMem fun m => m.setWord a (m.word a + 1)).dirty world a) := by
  obtain ⟨hd, hl⟩ := not_or.mp hs
  rw [State.increment, if_neg (by simp [h]), if_neg hd, if_neg (by simpa using hl)]

/-- What keeps the bytes of memory, the core in focus and the clock. -/
def State.KeepsBytes (s t : State) : Prop := t.mem.bytes = s.mem.bytes ∧ t.core = s.core ∧ t.cur = s.cur ∧ t.tb = s.tb

theorem State.noteDamage_keepsBytes (s : State) (u : Nat) (hbm : Bool) : s.KeepsBytes (s.noteDamage u hbm) := by
  unfold State.noteDamage
  split
  · exact ⟨rfl, rfl, rfl, rfl⟩
  · split
    · exact ⟨rfl, rfl, rfl, rfl⟩
    · split <;> exact ⟨rfl, rfl, rfl, rfl⟩

theorem State.increment_fails {s : State} {world a : Nat} (h : s.heldAway a = false) (hs : s.semFails world a) :
    ∃ u, s.increment world a = (false, u) ∧ s.KeepsBytes u := by
  rw [State.increment, if_neg (by simp [h])]
  by_cases hd : s.mem.damaged a = true
  · exact ⟨_, if_pos hd, rfl, rfl, rfl, rfl⟩
  · obtain ⟨hp, hl⟩ := hs.resolve_left hd
    rw [if_neg hd, if_pos (by simp [hp, hl])]
    exact ⟨_, rfl, State.noteDamage_keepsBytes _ _ _⟩

/-- A fault of the core in focus that is no violation, found away from the issue of its word (R321, R323). -/
theorem State.deferFault_cur {s : State} (hm : s.mayFault) {cause : Cause} (hc : cause.violation = false) (addr : W64) (src det : Nat)
    (pc : BitVec 12) (issue : Nat) : s.deferFault s.cur cause addr src det pc issue =
      s.modIss fun x => { x with fault := some ⟨cause, pc, addr, finfo 0 src true det (s.tb - issue)⟩ } := by
  unfold State.deferFault
  rw [State.focus_cur]
  dsimp only
  rw [hc, Bool.false_and, if_neg Bool.false_ne_true, State.raise_eq hm]
  exact State.focus_cur _

theorem State.dirty_eq_of_not_hbm {s : State} {a : Nat} (h : placeOf a ≠ .hbm) (world : Nat) : s.dirty world a = s := by
  unfold State.dirty
  split
  · exact if_neg (by simp [h])
  · rfl

theorem State.dirty_leaves (s : State) (world a : Nat) :
    (s.dirty world a).core = s.core ∧ (s.dirty world a).others = s.others ∧ (s.dirty world a).eng = s.eng := by
  unfold State.dirty
  split
  · split <;> exact ⟨rfl, rfl, rfl⟩
  · exact ⟨rfl, rfl, rfl⟩

theorem State.dirty_modEng (s : State) (f : Engines → Engines) (world a : Nat) :
    (s.modEng f).dirty world a = (s.dirty world a).modEng f := by
  unfold State.dirty
  rw [show (s.modEng f).world? world = s.world? world from rfl]
  split
  · split <;> rfl
  · rfl

section
variable {s : State} {a : Nat} {x : SemInc} (hx : s.eng.incs.find? (fun x => x.addr == a && x.cycle == s.tb) = some x)
include hx

/-- An increment that its word takes is all that happens, once it has been taken from the list. -/
theorem exec_copySemaphoreIncrement_ok {t : State}
    (h : (s.modEng fun e => { e with incs := e.incs.erase x }).increment x.world a = (true, t)) :
    exec (.copySemaphoreIncrement a) s = .next t := by
  show execCopySemaphoreIncrement a s = _
  rw [execCopySemaphoreIncrement, hx]
  dsimp only
  rw [h]
  rfl

/-- A sound word is raised by 1, and its line noted as written (R242). -/
theorem exec_copySemaphoreIncrement_sound (hh : s.heldAway a = false) (hs : ¬ s.semFails x.world a) :
    exec (.copySemaphoreIncrement a) s = .next (((s.modMem fun m => m.setWord a (m.word a + 1)).dirty x.world a).modEng fun e =>
      { e with incs := e.incs.erase x }) := by
  rw [← State.dirty_modEng]
  exact exec_copySemaphoreIncrement_ok hx (State.increment_sound hh hs)

/-- An increment that its word refuses is a fault of the task that issued the copy (R174). -/
theorem exec_copySemaphoreIncrement_fails {t : State}
    (h : (s.modEng fun e => { e with incs := e.incs.erase x }).increment x.world a = (false, t)) (hk : s.KeepsBytes t)
    (ha : x.asker = .core s.cur) (hrun : s.core.bnd.firstRun ≤ x.run) (hj : s.core.bnd.jetton = x.jetton) :
    exec (.copySemaphoreIncrement a) s =
      .next (t.deferFault s.cur .ucdata (BitVec.ofNat 64 a) (engineSrc x.engine) 0 x.pc x.issue) := by
  obtain ⟨-, hcore, hcur, -⟩ := hk
  have hget : t.getCore s.cur = s.core := by rw [← hcur, State.getCore_cur, hcore]
  show execCopySemaphoreIncrement a s = _
  rw [execCopySemaphoreIncrement, hx]
  dsimp only
  rw [h]
  dsimp only
  rw [if_neg Bool.false_ne_true, ha]
  dsimp only
  rw [hget, if_pos (by simp [hrun, hj])]

end

/-! ### A follow-on is presented, and starts (R160, R287) -/

theorem exec_followOnPresent {s : State} {id : Nat} {c : Copy} {w : W48} {p q : VReg} {stp : Stp} (h : s.copy? id = some c)
    (ha : c.asker = .core s.cur) (hw : c.follow = some w) (hrun : c.run = s.core.iss.run) (hfirst : s.core.bnd.firstRun ≤ c.run)
    (hs : s.core.iss.status = .running) (hd : decode w = .ok (.mwld p q stp)) :
    exec (.followOnPresent id) s = .next (s.modC fun x => { x with mat := { x.mat with
      loader := insertFollow x.mat.loader ⟨id, w, c.dcap, c.pc, c.issue, c.engine, s.tb, 0, false, []⟩ } }) := by
  have habandoned : s.core.abandoned c = false := by
    simp [Core.abandoned, hrun, hs]
    omega
  show execFollowOnPresent id s = _
  rw [execFollowOnPresent, h]
  dsimp only
  rw [ha, hw]
  dsimp only
  rw [State.focus_cur, habandoned, if_neg Bool.false_ne_true, hd]

theorem exec_followOnStart {s : State} {f : FollowOn} {rest : List FollowOn} (h : s.core.mat.loader = f :: rest) :
    exec (.followOnStart s.cur) s =
      .next (s.modC fun x => { x with mat := { x.mat with loader := { f with running := true } :: rest } }) := by
  show execFollowOnStart s.cur s = _
  rw [execFollowOnStart, State.focus_cur]
  refine congrArg Host.Outcome.next (State.modC_congr ?_)
  dsimp only
  rw [h]

/-- Settles O33: the record by what it shows then, the increment by the word that it finds, and the follow-on by the loader's list. -/
theorem copyEventsFollow : Obligations.CopyEventsFollow := by
  unfold Obligations.CopyEventsFollow
  intro s k id a b hg r
  refine ⟨fun h => ⟨_, _, exec_copyRecordLanded h, rfl, landedRecord_state _, landedRecord_rest _⟩, exec_copyRecordLanded_other,
    fun x hx => ?_, fun c w p q stp h ha hw hrun hfirst hs hd => exec_followOnPresent h ha hw hrun hfirst hs hd,
    fun f rest h => exec_followOnStart h⟩
  intro taken fails
  obtain ⟨hm, -⟩ := hg
  refine ⟨fun hh hs => ?_, fun hh hs ha hrun hj hmay => ?_,
    fun hh => exec_copySemaphoreIncrement_ok hx (State.increment_held (s := s.modEng fun _ => taken) hh _)⟩
  · obtain ⟨hcore, hothers, heng⟩ := (s.modMem fun m => m.setWord a (m.word a + 1)).dirty_leaves x.world a
    refine ⟨_, exec_copySemaphoreIncrement_sound hx hh hs, hcore, hothers,
      by rw [State.modEng_eng, heng]; rfl, rfl, fun hp => ?_⟩
    rw [State.modEng_mem, State.dirty_eq_of_not_hbm hp]
    exact ⟨Mem.word_setWord hm _ _, fun hb => (Mem.get_setWord hm _ _ _).trans (if_neg (by omega))⟩
  · obtain ⟨t, ht, hk⟩ := State.increment_fails (s := s.modEng fun _ => taken) hh hs
    obtain ⟨hbytes, hcore, hcur, htb⟩ := hk
    refine ⟨_, exec_copySemaphoreIncrement_fails hx ht ⟨hbytes, hcore, hcur, htb⟩ ha hrun hj, ?_⟩
    rw [show s.cur = t.cur from hcur.symm, State.deferFault_cur (by rw [State.mayFault, hcore]; exact hmay) rfl, htb]
    exact ⟨hbytes, rfl⟩

end Sys2Proof.Machine
end

section
namespace Sys2Proof.Machine
open Sys2Proof

/-! ### Every step keeps the state good (Table 1.2, R183) -/

/-- What happens next starts from a good state, or passes to one. -/
def Pick.good : Pick → Prop
  | .run _ t => t.good
  | .quiet t => t.good

theorem Keeps.good {s t : State} (h : Keeps s t) (hg : s.good) : t.good := h.1 hg

theorem Keeps.Next.good {s : State} {p : Pick} (h : Keeps.Next s p) (hg : s.good) : p.good := by
  cases p <;> exact Keeps.good h hg

theorem State.goto_good {s : State} (hg : s.good) (p : Phase) : (s.goto p).good := hg

theorem State.orElse_good {s t : State} (hs : s.good) (i : Option Instr) (ht : t.good) : (s.orElse i t).good := by
  cases i with
  | none => exact ht
  | some i => exact hs

theorem Pick.getD_good {o : Option Pick} {p : Pick} (ho : ∀ q, o = some q → q.good) (hp : p.good) : (o.getD p).good := by
  cases o with
  | none => exact hp
  | some q => exact ho q rfl

theorem State.inputNext_good {s : State} (hg : s.good) {a : InputAt} {p : Pick} (e : s.inputNext a = some p) : p.good :=
  (State.inputNext_keeps e (Keeps.refl s)).good hg

theorem State.agendaNext_good {s : State} (hg : s.good) {k : Slot?} {ok : Instr → Bool} {p : Pick} (e : s.agendaNext k ok = some p) :
    p.good := (State.agendaNext_keeps e (Keeps.refl s)).good hg

theorem Keeps.Res.good {s : State} {o : Result} (h : Keeps.Res s o) (hg : s.good) {t : State} (e : o = .next t) : t.good := by
  obtain ⟨u, rfl, hu⟩ := h
  cases e
  exact hu.good hg

theorem Result.state_good {s : State} {o : Result} (h : Keeps.Res s o) (hg : s.good) : (Result.state s o).good := by
  obtain ⟨u, rfl, hu⟩ := h
  exact hu.good hg

theorem State.closeCycle_good {s : State} (hg : s.good) : s.closeCycle.good := (State.closing_keeps (Keeps.refl s)).good hg

/-- Each place of a cycle runs what is due on a good state, or passes on to one. -/
theorem State.pick_good {s : State} (hg : s.good) : s.pick.good := by
  have hs : Keeps s s := Keeps.refl s
  have input : ∀ a p, s.inputNext a = some p → p.good := fun _ _ => State.inputNext_good hg
  have agenda : ∀ k ok p, s.agendaNext k ok = some p → p.good := fun _ _ _ => State.agendaNext_good hg
  unfold State.pick
  cases s.phase with
  | fate => exact State.goto_good ((State.fates_keeps (State.noteEvictions_keeps hs _)).good hg) _
  | land => exact State.orElse_good hg _ (State.goto_good ((State.noteClear_keeps (State.commitAll_keeps hs) _).good hg) _)
  | settle => exact State.orElse_good hg _ (State.goto_good ((State.openCycle_keeps hs).good hg) _)
  | select k =>
    have next : ∀ ph, (s.goto ph).good := State.goto_good hg
    refine Pick.getD_good (fun p e => ?_) (State.orElse_good (next _) _ (next _))
    split at e
    · exact input _ _ e
    · cases e
  | input =>
    exact Pick.getD_good (input _) (State.goto_good ((State.hostReads_keeps (State.mailboxTurn_keeps hs _) _).good hg) _)
  | agenda =>
    dsimp only
    split
    · exact agenda _ _ _ ‹_›
    · exact Result.state_good (execPreemptionRequest_keeps hs _) hg
    · exact State.goto_good ((State.scrubAll_keeps hs).good hg) _
  | raise =>
    dsimp only
    split
    · exact agenda _ _ _ ‹_›
    · exact State.orElse_good hg _ (State.goto_good ((State.armAll_keeps (State.raiseAll_keeps hs)).good hg) _)
  | start => exact State.orElse_good hg _ (State.goto_good ((State.saveAll_keeps hs).good hg) _)
  | engine => exact State.orElse_good hg _ (State.goto_good hg _)
  | beat => exact State.orElse_good hg _ (State.goto_good hg _)
  | stream => exact State.orElse_good hg _ (State.goto_good ((State.loadAll_keeps hs).good hg) _)
  | column => exact Pick.getD_good (fun p e => (State.columnNext_keeps e hs).good hg) (State.goto_good hg _)
  | port => exact State.goto_good ((State.accAll_keeps hs).good hg) _
  | acc =>
    dsimp only
    split
    · exact hg
    · exact Pick.getD_good (agenda _ _) (State.goto_good hg _)
  | home =>
    dsimp only
    split
    · exact hg
    · exact Pick.getD_good (agenda _ _) (State.goto_good ((State.hostWrites_keeps hs).good hg) _)
  | scan => exact Pick.getD_good (input _) (State.goto_good ((State.scanTurns_keeps (State.fwStores_keeps hs)).good hg) _)
  | wait =>
    dsimp only
    split
    · exact hg
    · split
      · exact hg
      · exact Pick.getD_good (agenda _ _) (State.closeCycle_good hg)

/-- Settles O60: what is due starts from a good state, and every instruction keeps that. -/
theorem stepKeepsGood : Obligations.StepKeepsGood := by
  unfold Obligations.StepKeepsGood
  intro s t hg h
  have hp : s.pick.good := State.pick_good hg
  unfold step at h
  cases e : s.pick with
  | run i u =>
    rw [e] at hp h
    exact (exec_keeps (Keeps.refl u) i).good hp h
  | quiet u =>
    rw [e] at hp h
    cases h
    exact hp

end Sys2Proof.Machine
end

section
namespace Sys2Proof.Machine
open Sys2Proof

/-! ### A write of WIDX (R185) -/

theorem State.writeWidx_ignored {s : State} {j : Nat} {q : BitVec 2} (v : BitVec 32)
    (h : (s.jetton j).state = .free ∨ (s.jetton j).state = .stopped ∨ ((s.jetton j).qs[q.toNat]'q.isLt).qen = false) :
    s.writeWidx j q v = s := by
  unfold State.writeWidx
  exact if_pos (by simpa [or_assoc] using h)

/-- A jetton with WIDX of a queue written. -/
def Jetton.putWidx (x : Jetton) (q : BitVec 2) (v : BitVec 32) : Jetton :=
  { x with qs := x.qs.set q.toNat { x.qs[q.toNat]'q.isLt with widx := v } q.isLt }

theorem Jetton.putWidx_qs (x : Jetton) (q : BitVec 2) (v : BitVec 32) :
    (x.putWidx q v).qs[q.toNat]'q.isLt = { x.qs[q.toNat]'q.isLt with widx := v } := Vector.getElem_set_self _

section
variable {s : State} {j : Nat} {q : BitVec 2} (v : BitVec 32) (hf : (s.jetton j).state ≠ .free) (hs : (s.jetton j).state ≠ .stopped)
  (hq : ((s.jetton j).qs[q.toNat]'q.isLt).qen = true)
include hf hs hq

theorem State.writeWidx_eq : s.writeWidx j q v = s.setJetton j (
    if (s.jetton j).state == .idle && ((s.jetton j).putWidx q v).anyPending then
      { (s.jetton j).putWidx q v with state := .ready, waitSince := s.tb + 1 }
    else (s.jetton j).putWidx q v) :=
  if_neg (by simp [hf, hs, hq])

/-- Where a write of WIDX takes effect, it sets that field, and makes an IDLE jetton READY that has a pending queue. -/
theorem State.writeWidx_leaves : let t := s.writeWidx j q v
    t.mem = s.mem ∧ ((t.jetton j).qs[q.toNat]'q.isLt) = { (s.jetton j).qs[q.toNat]'q.isLt with widx := v }
      ∧ (t.jetton j).state = (if (s.jetton j).state = .idle ∧ (t.jetton j).anyPending = true then .ready else (s.jetton j).state) := by
  intro t
  have ht : t = _ := State.writeWidx_eq v hf hs hq
  have hqs := (s.jetton j).putWidx_qs q v
  rw [ht, State.setJetton_jetton_self]
  refine ⟨rfl, ?_⟩
  by_cases hp : (s.jetton j).state = .idle ∧ ((s.jetton j).putWidx q v).anyPending = true
  · rw [if_pos (by simpa using hp)]
    exact ⟨hqs, (if_pos hp).symm⟩
  · rw [if_neg (by simpa using hp)]
    exact ⟨hqs, (if_neg hp).symm⟩

end

/-! ### Doorbells (R185, R387, R398) -/

section Requests
variable {s : State} {fn : Nat} {f : Func} (hf : s.func? fn = some f)
include hf

theorem exec_jettonDoorbell (j : Nat) (q : BitVec 2) (v : BitVec 32) :
    exec (.jettonDoorbell fn j q v) s = .next (if f.owns (s.jetton j).world then s.writeWidx j q v else s) := by
  change execJettonDoorbell fn j q v s = _
  rw [execJettonDoorbell, hf]

theorem exec_commandQueueDoorbell {k : Nat} {c : CmdQueue} (hk : s.queue? k = some c) :
    exec (.commandQueueDoorbell fn k) s = .next (if f.owns c.world then
      s.modQueue k fun z => { z with polling := false, nextPoll := min z.nextPoll s.tb } else s) := by
  change execCommandQueueDoorbell fn k s = _
  rw [execCommandQueueDoorbell, hf, hk]

/-! ### Reads and posted writes (R253, R263) -/

theorem exec_hostRead (bar : Nat) (a : W64) (n : Nat) :
    exec (.hostRead fn bar a n) s = .next { s with posted := s.posted ++ [(fn, .read bar a n)] } := by
  change execHostRead fn bar a n s = _
  rw [execHostRead, hf]

theorem exec_hostWrite (bar : Nat) (a : W64) (data : List Byte) :
    exec (.hostWrite fn bar a data) s = .next { s with posted := s.posted ++ [(fn, .write bar a data)] } := by
  change execHostWrite fn bar a data s = _
  rw [execHostWrite, hf]

end Requests

theorem State.hostReads_nil {s : State} (h : s.posted = []) (fuel : Nat) : s.hostReads fuel = s := by
  cases fuel with
  | zero => rfl
  | succ n => simp [State.hostReads, h]

theorem State.hostReads_one {s t : State} {fn : Nat} {f : Func} {a : W64} {n : Nat} (hf : s.func? fn = some f)
    (hp : s.posted = [(fn, .read 4 a n)]) (ht : s.hostMemRead f a.toNat n = some t) (fuel : Nat) :
    s.hostReads (fuel + 1) = { t with posted := [] } := by
  have hnil : ({ t with posted := [] } : State).hostReads fuel = { t with posted := [] } := State.hostReads_nil rfl fuel
  simp [State.hostReads, hp, List.eraseDups_cons, takeRead, hf, ht, hnil]

/-- A posted write to BAR 0 or BAR 2 takes effect whole. -/
theorem State.hostWrites_bar {s : State} {fn bar : Nat} {f : Func} {a : W64} {data : List Byte} (hf : s.func? fn = some f)
    (hp : s.posted = [(fn, .write bar a data)]) (hb : bar ≠ 4) :
    s.hostWrites = { s.barWrite f bar a.toNat data with posted := [] } := by
  simp [State.hostWrites, hp, List.eraseDups_cons, firstWrite, hf, hb, replaceWrite]

/-- A posted write to BAR 4 whose line ends it is over. -/
theorem State.hostWrites_ended {s t : State} {fn : Nat} {f : Func} {a : W64} {data : List Byte} (hf : s.func? fn = some f)
    (hp : s.posted = [(fn, .write 4 a data)]) (ht : s.hostLine f a.toNat (data.take (256 - a.toNat % 256)) = some (t, true)) :
    s.hostWrites = { t with posted := replaceWrite t.posted fn none } := by
  simp [State.hostWrites, hp, List.eraseDups_cons, firstWrite, hf, ht]

/-! ### Host atomics (R244) -/

theorem State.hostAtomic_no_function {s : State} {fn : Nat} (hf : s.func? fn = none) (a : W64) (bits : Nat) (what : HomeDo) :
    s.hostAtomic fn a bits what = s.say (.unsupported fn) := by
  unfold State.hostAtomic
  rw [hf]

/-- The atomic on its way to its home. -/
def State.hostOp (s : State) (fn world : Nat) (a : W64) (what : HomeDo) (home : HomeAt) (h : Nat) : HomeOp :=
  { id := s.nextId, asker := .host fn, run := 0, pc := 0, issue := s.tb, addr := a, world := world, what := what, home := home, h := h
    due := s.tb, blockers := [], waits := false, dst := none, acted := false, ret := 0, value := none, fault := none, lo := 0, hi := 0 }

section Atomics
variable {s : State} {fn : Nat} {f : Func} {a : W64} {bits : Nat} (what : HomeDo) (hf : s.func? fn = some f)
include hf

theorem State.hostAtomic_malformed (h : bits ≠ 32 ∨ a.toNat % 4 ≠ 0 ∨ bar4Size < a.toNat + 4) :
    s.hostAtomic fn a bits what = s.say (.unsupported fn) := by
  unfold State.hostAtomic
  rw [hf]
  exact if_pos (by simpa [or_assoc] using h)

variable (hb : bits = 32) (ha : a.toNat % 4 = 0) (hr : a.toNat + 4 ≤ bar4Size) {pa : Nat} {e : Attr} {hit : Bool}
  (ht : s.translate f.world a = .ok pa e hit)
include hb ha hr ht

/-- What becomes of an atomic whose address translates. -/
theorem State.hostAtomic_translated : s.hostAtomic fn a bits what =
    if e.sa = false then s.say (.unsupported fn)
    else if e.admits f.world false = false ∨ e.admits f.world true = false then
      (s.modFunc f.fn fun g => { g with frozen := true }).say (.unsupported fn)
    else match homeOfTranslated f.world 2048 pa e with
      | .error _ => s.say (.unsupported fn)
      | .ok (home, h) => { s with nextId := s.nextId + 1 }.modEng fun g => { g with homes := g.homes ++ [s.hostOp fn f.world a what home h] } := by
  have hgo : ¬ (bits != 32 || a.toNat % 4 != 0 || bar4Size < a.toNat + 4) = true := by simp [hb, ha, hr]
  unfold State.hostAtomic
  rw [hf]
  dsimp only
  rw [if_neg hgo, ht]
  simp only [Bool.not_eq_true', Bool.or_eq_true] <;> rfl

theorem State.hostAtomic_unshared (h : e.sa = false) : s.hostAtomic fn a bits what = s.say (.unsupported fn) := by
  rw [State.hostAtomic_translated what hf hb ha hr ht, if_pos h]

theorem State.hostAtomic_refused (h : e.sa = true) (hp : e.admits f.world false = false ∨ e.admits f.world true = false) :
    s.hostAtomic fn a bits what = (s.modFunc f.fn fun g => { g with frozen := true }).say (.unsupported fn) := by
  rw [State.hostAtomic_translated what hf hb ha hr ht, if_neg (by simp [h]), if_pos hp]

variable (h : e.sa = true) (h0 : e.admits f.world false = true) (h1 : e.admits f.world true = true)
include h h0 h1

theorem State.hostAtomic_homeless {z : NoHome} (hz : homeOfTranslated f.world 2048 pa e = .error z) :
    s.hostAtomic fn a bits what = s.say (.unsupported fn) := by
  rw [State.hostAtomic_translated what hf hb ha hr ht, if_neg (by simp [h]), if_neg (by simp [h0, h1]), hz]

theorem State.hostAtomic_home {home : HomeAt} {d : Nat} (hd : homeOfTranslated f.world 2048 pa e = .ok (home, d)) :
    s.hostAtomic fn a bits what =
      { s with nextId := s.nextId + 1 }.modEng fun g => { g with homes := g.homes ++ [s.hostOp fn f.world a what home d] } := by
  rw [State.hostAtomic_translated what hf hb ha hr ht, if_neg (by simp [h]), if_neg (by simp [h0, h1]), hd]

end Atomics

theorem State.modFunc_frozen {s : State} {fn : Nat} : ∀ g ∈ (s.modFunc fn fun f => { f with frozen := true }).funcs, g.fn = fn → g.frozen = true := by
  intro g hg hfn
  obtain ⟨f, -, rfl⟩ := List.mem_map.1 hg
  by_cases h : f.fn = fn
  · simp [h]
  · simp [h] at hfn

theorem Func.not_owns {f : Func} {w : Nat} (hf : f.fn ≠ 0) (hw : f.world ≠ w) : f.owns w = false := by simp [Func.owns, hf, hw]

/-- Settles O46: each request by the equation of its instruction for a function that acts, and an atomic by what its translation shows. -/
theorem hostRequestsAct : Obligations.HostRequestsAct := by
  unfold Obligations.HostRequestsAct
  intro s fn j k q widx bar n bits a data x cmp y w no atomics
  have each : ∀ {P : Instr → HomeDo → Prop}, (∀ i what, exec i s = .next (s.hostAtomic fn a bits what) → P i what) → atomics P :=
    fun h => ⟨h _ _ rfl, h _ _ rfl, h _ _ rfl⟩
  clear_value atomics
  refine ⟨fun f hf => ⟨fun h => ?_, fun ho hfree hstop hqen => ?_, fun c hc ho => ?_, fun c hc ho => ?_,
      fun hp t ht => State.hostReads_one hf hp ht 1, State.hostWrites_bar hf, fun hp t _ ht => State.hostWrites_ended hf hp ht,
      exec_hostRead hf bar a n, exec_hostWrite hf bar a data, fun h => ?_, fun hb ha hr pa e hit home d ht => ⟨fun h => ?_, fun h hp => ?_,
      fun z h h0 h1 hz => ?_, fun h h0 h1 hd => ?_⟩⟩, fun hf => ?_⟩
  · rw [exec_jettonDoorbell hf]
    refine congrArg Host.Outcome.next (ite_eq_right_iff.2 fun ho => ?_)
    rcases h with h | h | h | ⟨hfn, hfn', hw⟩
    · exact State.writeWidx_ignored widx (.inl h)
    · exact State.writeWidx_ignored widx (.inr (.inl h))
    · exact State.writeWidx_ignored widx (.inr (.inr h))
    · exact absurd ho (Bool.eq_false_iff.1 (Func.not_owns (hfn' ▸ hfn) hw))
  · rw [exec_jettonDoorbell hf, if_pos ho]
    exact ⟨_, rfl, State.writeWidx_leaves widx hfree hstop hqen⟩
  · rw [exec_commandQueueDoorbell hf hc, if_pos ho]
  · rw [exec_commandQueueDoorbell hf hc, if_neg (by simp [ho])]
  · exact each fun _ what hi => by rw [hi, State.hostAtomic_malformed what hf h]; rfl
  · exact each fun _ what hi => ⟨_, hi, by
      rw [State.hostAtomic_unshared what hf hb ha hr ht h]; exact ⟨rfl, rfl, rfl⟩⟩
  · exact each fun _ what hi => ⟨_, hi, by
      rw [State.hostAtomic_refused what hf hb ha hr ht h hp]; exact ⟨rfl, rfl, rfl, State.modFunc_frozen⟩⟩
  · exact each fun _ what hi => by rw [hi, State.hostAtomic_homeless what hf hb ha hr ht h h0 h1 hz]; rfl
  · exact each fun _ what hi => ⟨_, s.hostOp fn f.world a what home d, hi, by
      rw [State.hostAtomic_home what hf hb ha hr ht h h0 h1 hd]; exact ⟨rfl, rfl, rfl, rfl, rfl, rfl, rfl⟩⟩
  · refine ⟨?_, ?_, ?_, ?_, each fun _ what hi => by rw [hi, State.hostAtomic_no_function hf]; rfl⟩
    · change execJettonDoorbell fn j q widx s = _
      rw [execJettonDoorbell, hf]
    · change execCommandQueueDoorbell fn k s = _
      rw [execCommandQueueDoorbell, hf]
    · change execHostWrite fn bar a data s = _
      rw [execHostWrite, hf]
    · change execHostRead fn bar a n s = _
      rw [execHostRead, hf]
      rfl

end Sys2Proof.Machine
end

section
namespace Sys2Proof.Machine
open Sys2Proof

/-! ### Serviced addresses (R239, R290, R328) -/

theorem State.modCopy_copy? (s : State) (id : Nat) {g : Copy → Copy} (hg : ∀ c, (g c).id = c.id) :
    (s.modCopy id g).copy? id = (s.copy? id).map g := by
  have h : ∀ l : List Copy, (l.map fun c => if c.id == id then g c else c).find? (·.id == id) = (l.find? (·.id == id)).map g := by
    intro l
    induction l with
    | nil => rfl
    | cons c r ih =>
      by_cases hc : c.id = id
      · simp [hc, hg]
      · simpa [hc] using ih
  exact h _

/-- A parked copy whose address is mapped competes again from this cycle; a saved one keeps its T until it resumes. -/
theorem State.serve_parked {s : State} {c : Copy} (hc : s.copy? c.id = some c) (hp : c.state = .parked) (w : Nat) (va : W64) :
    s.serve ⟨w, va, .copy c.id⟩ true = s.modCopy c.id fun x => { x with time := if x.saved then x.time else s.tb } := by
  simp only [State.serve, hc, hp]
  rfl

theorem exec_xlateService_copy {s : State} {w : Nat} {va : W64} {c : Copy} (hx : s.disp.xlates = [⟨w, va, .copy c.id⟩])
    (hc : s.copy? c.id = some c) (hp : c.state = .parked) :
    exec (.xlateService w va true) s = .next ((s.modDisp fun d => { d with xlates := [] }).modCopy c.id fun x =>
      { x with time := if x.saved then x.time else s.tb }) := by
  change execXlateService w va true s = _
  have h := State.serve_parked (s := s.modDisp fun d => { d with xlates := [] }) hc hp w va
  simpa [execXlateService, State.modDisp, hx] using h

/-- An address that nothing waits for serves nothing. -/
theorem exec_xlateService_none {s : State} {w : Nat} {va : W64} (h : ∀ x ∈ s.disp.xlates, ¬ (x.world = w ∧ x.va = va)) (b : Bool) :
    exec (.xlateService w va b) s = .next s := by
  change execXlateService w va b s = _
  have hnone : (s.disp.xlates.filter fun x => x.world == w && x.va == va) = [] := by simpa [List.filter_eq_nil_iff] using h
  have hall : (s.disp.xlates.filter fun x => !(x.world == w && x.va == va)) = s.disp.xlates := by
    simpa [List.filter_eq_self, ← not_and_or] using h
  simp only [execXlateService, hnone, State.modDisp, hall, List.foldl_nil]

/-! ### Registers by name (R180, R356) -/

/-- A core map with the bit of one core written. -/
def mapPut (b : Bool) (k : Nat) (m : BitVec 1024) : BitVec 1024 := if b then m ||| (1#1024 <<< k) else m &&& ~~~(1#1024 <<< k)

theorem mapPut_getLsbD (b : Bool) {k i : Nat} (hi : i < 1024) (m : BitVec 1024) :
    (mapPut b k m).getLsbD i = if i = k then b else m.getLsbD i := by
  have hbit : (1#1024 <<< k).getLsbD i = decide (i = k) := by
    rw [← BitVec.twoPow_eq, BitVec.getLsbD_twoPow, Bool.eq_iff_iff]
    simp only [Bool.and_eq_true, decide_eq_true_eq]
    omega
  unfold mapPut
  cases b with
  | true =>
    rw [if_pos rfl, BitVec.getLsbD_or, hbit]
    by_cases h : i = k <;> simp [h]
  | false =>
    rw [if_neg (by decide), BitVec.getLsbD_and, BitVec.getLsbD_not, hbit]
    by_cases h : i = k <;> simp [h, hi]

theorem exec_registerWrite_coreMap (s : State) (token : Bool) (idx : BitVec 10) (v : BitVec 256) :
    exec (.registerWrite (.coreMap token idx) v) s = .next (s.modDisp fun d =>
      if token then { d with mapToken := mapPut (v.getLsbD 0) idx.toNat d.mapToken }
      else { d with mapPrompt := mapPut (v.getLsbD 0) idx.toNat d.mapPrompt }) := rfl

theorem exec_registerWrite_pcap (s : State) (v : BitVec 256) :
    exec (.registerWrite .pcap v) s
      = .next (if 1000 ≤ v.toNat ∧ v.toNat ≤ 4500 then { s with mon := { s.mon with pcap := v.toNat } } else s) := by
  change execRegisterWrite .pcap v s = _
  simp [execRegisterWrite]

theorem State.setScan_scan_self (s : State) (k : Nat) (x : Scan) : (s.setScan k x).scan k = x := by
  show (getKey (setKey _ k x) k).getD _ = x
  rw [getKey_setKey_self]
  rfl

theorem exec_registerWrite_sctl (s : State) (k : Nat) (v : BitVec 256) :
    let y : Scan := { s.scan k with aprio := v.extractLsb' 9 3, apen := v.getLsbD 8 }
    exec (.registerWrite (.sctl k) v) s
      = .next ((s.setScan k y).setScan k { y with cmd := v.setWidth 3, cmds := y.cmds ++ [v.setWidth 3] }) := by
  intro y
  change Host.Outcome.next ((s.setScan k y).writeCmd k (v.setWidth 3)) = _
  rw [State.writeCmd, State.setScan_scan_self]

/-! ### A plug-in's call (R403) -/

/-- The program counter at which the level that called a plug-in goes on. -/
theorem Fw.endPlugin_pc {f : Fw} (h : f.level = .plugin) (frozen : Bool) :
    (f.endPlugin frozen).2 = match f.calls with | r :: _ => r.2 | [] => f.entryScheduler := by
  unfold Fw.endPlugin
  cases f.calls with
  | nil => simp [h]
  | cons r l => simp [h]

theorem State.pluginLate_of_level {s : State} {k : Nat} {f : Fw} (hf : (s.getCore (2048 + k)).fw = some f)
    (hr : (s.getCore (2048 + k)).iss.status = .running) (hl : f.level = .plugin) (ht : f.callStart + 4096 ≤ s.tb) :
    s.pluginLate k = true := by simp [State.pluginLate, hf, hr, hl, ht]

theorem State.pluginLate_early {s : State} {k : Nat} {f : Fw} (hf : (s.getCore (2048 + k)).fw = some f) (ht : s.tb < f.callStart + 4096) :
    s.pluginLate k = false := by simp [State.pluginLate, hf, ht]

theorem exec_pluginCallTimeout_early {s : State} {k : Nat} {f : Fw} (hf : (s.getCore (2048 + k)).fw = some f) (ht : s.tb < f.callStart + 4096) :
    exec (.pluginCallTimeout k) s = .next s := by
  change execPluginCallTimeout k s = _
  rw [execPluginCallTimeout, State.pluginLate_early hf ht]
  rfl

/-- A late call ends with OVERRUN in the registers of its processor, which goes on in the next cycle. -/
theorem exec_pluginCallTimeout_late {s : State} {k : Nat} {f : Fw} (hf : (s.getCore (2048 + k)).fw = some f) (hl : s.pluginLate k = true) :
    ∃ t, exec (.pluginCallTimeout k) s = .next t ∧ t.mem = s.mem ∧ (t.getCore (2048 + k)).sys.fcause = 0x0E
      ∧ (t.getCore (2048 + k)).iss.next = s.tb + 1 ∧ (t.getCore (2048 + k)).iss.pc = (f.endPlugin false).2 := by
  refine ⟨_, congrArg Host.Outcome.next (if_pos hl), State.modCore_mem .., ?_⟩
  rw [State.getCore_modCore_self, hf]
  exact ⟨rfl, rfl, rfl⟩

/-- Settles O53: each service by the equation of its instruction. -/
theorem servicesAct : Obligations.ServicesAct := by
  unfold Obligations.ServicesAct
  intro s w va v c token idx k f
  refine ⟨fun hx hc hp => ⟨_, exec_xlateService_copy hx hc hp, rfl, rfl, ?_⟩, exec_xlateService_none,
    ⟨_, exec_registerWrite_coreMap s token idx v, rfl, rfl, fun i hi => ?_⟩, exec_registerWrite_pcap s v, rfl, rfl, rfl,
    exec_registerWrite_sctl s k v, fun hf hr => ⟨fun ht hl => ?_, exec_pluginCallTimeout_early hf⟩⟩
  · rw [State.modCopy_copy?]
    · exact congrArg _ hc
    · exact fun _ => rfl
  · cases token
    · exact ⟨mapPut_getLsbD _ hi _, rfl⟩
    · exact ⟨mapPut_getLsbD _ hi _, rfl⟩
  · obtain ⟨t, he, hm, hcause, hnext, hpc⟩ := exec_pluginCallTimeout_late hf (State.pluginLate_of_level hf hr hl ht)
    exact ⟨t, he, hm, hcause, hnext, hpc.trans (Fw.endPlugin_pc hl false)⟩

end Sys2Proof.Machine
end

section
namespace Sys2Proof.Machine
open Sys2Proof

/-! ### Ring words (R216 to R219, Table 9.3) -/

/-- The empty ring of the banks `first` to `last` with slots of `sz` units of 128 bytes (R13, R217). -/
def Ring.empty (first last sz : Nat) : Ring := ⟨BitVec.ofNat 64 (first * 2 ^ 55 + last * 2 ^ 48 + sz * 2 ^ 36), [], []⟩

/-- Its slots; one of size 0 has none. -/
theorem ringSlots_empty {first last sz : Nat} (hf : first < 128) (hl : last < 128) (hs : sz < 4096) :
    ringSlots (Ring.empty first last sz).reg = (last + 1 - first) * 32 / sz := by
  have hx : (Ring.empty first last sz).reg.toNat = first * 2 ^ 55 + last * 2 ^ 48 + sz * 2 ^ 36 := by
    rw [Ring.empty, BitVec.toNat_ofNat]
    omega
  have hfirst : natBits (first * 2 ^ 55 + last * 2 ^ 48 + sz * 2 ^ 36) 55 7 = first := by
    unfold natBits
    omega
  have hlast : natBits (first * 2 ^ 55 + last * 2 ^ 48 + sz * 2 ^ 36) 48 7 = last := by
    unfold natBits
    omega
  have hsz : natBits (first * 2 ^ 55 + last * 2 ^ 48 + sz * 2 ^ 36) 36 12 = sz := by
    unfold natBits
    omega
  unfold ringSlots
  dsimp only
  rw [hx, hfirst, hlast, hsz]
  by_cases h : sz = 0
  · simp [h]
  · rw [if_neg (by simpa using h)]

/-- RINIT makes an empty ring of the fields of its operand, or refuses them (R217). -/
theorem exec_rinit (s : State) (rn : RnReg) (a : SReg) :
    let x := (s.sreg a).toNat; let first := x / 2 ^ 55 % 128; let last := x / 2 ^ 48 % 128; let sz := x / 2 ^ 36 % 4096
    exec (.rinit rn a) s = .next (
      if first ≤ last ∧ last ≤ 95 ∧ 1 ≤ sz ∧ sz ≤ 3072 ∧ 2 * sz ≤ 32 * (last - first + 1) then
        (s.modC fun c => { c with rn := c.rn.set rn.toNat (.empty first last sz) rn.isLt }).advance 1
      else s.ctlFault .ringerr 0) := by
  intro x first last sz
  have hslots : ringSlots (Ring.empty first last sz).reg = (last + 1 - first) * 32 / sz :=
    ringSlots_empty (Nat.mod_lt _ (by decide)) (Nat.mod_lt _ (by decide)) (Nat.mod_lt _ (by decide))
  have htwo (hle : first ≤ last) (hpos : 1 ≤ sz) :
      2 ≤ ringSlots (Ring.empty first last sz).reg ↔ 2 * sz ≤ 32 * (last - first + 1) := by
    rw [hslots, Nat.le_div_iff_mul_le hpos, Nat.mul_comm _ 32, Nat.sub_add_comm hle]
  have hcond : (decide (first ≤ last) && decide (last ≤ 95) && decide (1 ≤ sz) && decide (sz ≤ 3072)
      && decide (2 ≤ ringSlots (Ring.empty first last sz).reg)) = true ↔
      first ≤ last ∧ last ≤ 95 ∧ 1 ≤ sz ∧ sz ≤ 3072 ∧ 2 * sz ≤ 32 * (last - first + 1) := by
    simp only [Bool.and_eq_true, decide_eq_true_eq, and_assoc]
    exact and_congr_right fun hle => and_congr_right fun _ => and_congr_right fun hpos => and_congr_right fun _ => htwo hle hpos
  rw [apply_ite Host.Outcome.next]
  exact if_congr hcond rfl rfl

/-- A word that waits, where no stub stands (R336). -/
theorem State.waitWord_free {s : State} (h : s.core.iss.inStub = false) (f : State → State) : s.waitWord f = .next (f s) := by
  rw [State.waitWord, h, if_neg Bool.false_ne_true]

section
variable {s : State} {c : CReg} {rn : RnReg} {i b need : Nat} (hp : placeOf (s.creg c).cur.toNat = .slice i (.bank b))
  (ha : (s.creg c).authority s.myWorld need = none) {instr : Instr} {what : HomeDo} {dst : Option SReg}
include hp ha

/-- A ring operation whose capability has the authority, with its cursor in the banks of core `i`, leaves for that core's ring. -/
theorem Sends.of_issueRing (blockers : Nat → List Nat) {waits : Bool}
    (hi : exec instr s = .next (s.issueRing c rn need what blockers waits dst)) :
    Sends s (s.leaves what (s.creg c).cur (.ring i rn) (homeCost s.cur i) (blockers i) waits dst
      (BitVec.ofNat 64 (s.creg c).base) (s.creg c).top) instr waits := by
  unfold State.issueRing at hi
  dsimp only at hi
  rw [ha] at hi
  dsimp only at hi
  rw [hp] at hi
  cases waits with
  | true => exact hi
  | false => exact ⟨_, hi, State.advance_issues _ 1, State.advance_steady _ 1, State.advance_pend _ 1⟩

/-- One that waits; a stub holds none (R336). -/
theorem Sends.of_waitRing (hstub : s.core.iss.inStub = false)
    (hi : exec instr s = s.waitWord fun s => s.issueRing c rn need what (fun _ => []) true dst) :
    Sends s (s.leaves what (s.creg c).cur (.ring i rn) (homeCost s.cur i) [] true dst
      (BitVec.ofNat 64 (s.creg c).base) (s.creg c).top) instr true :=
  .of_issueRing hp ha (fun _ => []) (hi.trans (State.waitWord_free hstub _))

end

/-- Settles O15: RINIT by what it makes of its operand's fields, each ring operation by what it sends. -/
theorem ringWords : Obligations.RingWords := by
  unfold Obligations.RingWords
  intro s d a c rn n i b x first last sz cap h send
  refine ⟨fun hle hlast hpos hsz hslots => ?_, fun hm hbad => ?_, fun hp => ⟨fun ha => ?_, fun ha => ?_⟩⟩
  · refine ⟨_, (exec_rinit s rn a).trans (congrArg _ (if_pos ⟨hle, hlast, hpos, hsz, hslots⟩)), ?_, ?_, ?_⟩
    · exact State.advance_issues _ 1
    · exact State.advance_pend _ 1
    · exact State.advance_steady _ 1
  · have hno : ¬ (first ≤ last ∧ last ≤ 95 ∧ 1 ≤ sz ∧ sz ≤ 3072 ∧ 2 * sz ≤ 32 * (last - first + 1)) := by
      clear_value first last sz
      omega
    exact .of_ctlFault hm ((exec_rinit s rn a).trans (congrArg _ (if_neg hno)))
  · exact ⟨.of_issueRing hp ha (fun _ => []) rfl, .of_issueRing hp ha (fun i => s.ringCopies rn i ++ s.fenced) rfl,
      fun hs => .of_waitRing hp ha hs rfl⟩
  · exact ⟨.of_issueRing hp ha (fun _ => []) rfl, .of_issueRing hp ha (fun _ => []) rfl, fun hs => .of_waitRing hp ha hs rfl⟩

end Sys2Proof.Machine
end

section
namespace Sys2Proof.Machine
open Sys2Proof

/-! ### Arrivals at a phase (R222, R223, Table 9.4) -/

theorem serialLT_self (a : BitVec 32) : serialLT a a = false := by
  rw [serialLT, bne_self_eq_false, Bool.false_and]

/-- A of Table 9.4, and the free latency of level 4 (R369). -/
theorem State.phaseA_eq (s : State) (l : Nat) : s.phaseA l = if l = 0 then 1 else if l = 1 then 8 else if l = 2 then 40
    else if l = 3 then 64 else Config.podLatency s.free + 1 := by
  unfold State.phaseA
  split <;> simp_all

/-- The core has arrived at its next phase: the phase unit hears of it A cycles on, and α has moved. -/
def State.arrived (s : State) (lvl : BitVec 3) : State := { s with
  free := if lvl.toNat = 4 then s.free + 1 else s.free
  agenda := s.agenda ++ [(s.tb + s.phaseA lvl.toNat, .phaseArrival (s.domainOf s.cur lvl.toNat) s.cur (s.alpha lvl))]
  core := { s.core with bnd := { s.core.bnd with alpha := s.core.bnd.alpha.setIfInBounds lvl.toNat (s.alpha lvl + 1) } } }

section
variable {s : State} {lvl : BitVec 3} (hl : lvl.toNat ≤ 4)
include hl

theorem State.arrive_beyond (h : serialLT (s.alpha lvl) (s.seenPhase s.cur lvl.toNat + 2) = false) (f : State → BitVec 32 → State) :
    s.arrive lvl f = s.ctlFault .timing 0 := by
  rw [State.arrive, if_neg (by omega), h]
  rfl

/-- An arrival beyond P + 1 raises TIMING (R223). -/
theorem exec_parv_beyond (h : serialLT (s.alpha lvl) (s.seenPhase s.cur lvl.toNat + 2) = false) (d : SReg) :
    exec (.parv d lvl) s = .next (s.ctlFault .timing 0) := congrArg Host.Outcome.next (State.arrive_beyond hl h _)

theorem exec_pbar_beyond (h : serialLT (s.alpha lvl) (s.seenPhase s.cur lvl.toNat + 2) = false) (hs : s.core.iss.inStub = false) :
    exec (.pbar lvl) s = .next (s.ctlFault .timing 0) := by
  show execPbar lvl s = _
  rw [execPbar, State.waitWord_free hs, State.arrive_beyond hl h]

theorem State.arrive_within (h : serialLT (s.alpha lvl) (s.seenPhase s.cur lvl.toNat + 2) = true) (f : State → BitVec 32 → State) :
    s.arrive lvl f = f (s.arrived lvl) (s.alpha lvl) := by
  rw [State.arrive, if_neg (by omega), h, State.arrived]
  by_cases h4 : lvl.toNat = 4
  · simp only [h4]
    rfl
  · simp only [h4, beq_iff_eq, if_false]
    rfl

theorem exec_parv_within (h : serialLT (s.alpha lvl) (s.seenPhase s.cur lvl.toNat + 2) = true) (d : SReg) :
    exec (.parv d lvl) s = .next (((s.arrived lvl).put 1 (.s d ((s.alpha lvl).setWidth 64))).advance 1) :=
  congrArg Host.Outcome.next (State.arrive_within hl h _)

theorem exec_pbar_within (h : serialLT (s.alpha lvl) (s.seenPhase s.cur lvl.toNat + 2) = true) (hs : s.core.iss.inStub = false) :
    exec (.pbar lvl) s = .next ((s.arrived lvl).await (.phase lvl (s.alpha lvl))) := by
  show execPbar lvl s = _
  rw [execPbar, State.waitWord_free hs, State.arrive_within hl h]

theorem Waits.of_pwait (hs : s.core.iss.inStub = false) (a : SReg) : Waits s (.pwait lvl a) (.phase lvl ((s.sreg a).setWidth 32)) := by
  show execPwait lvl a s = _
  rw [execPwait, State.waitWord_free hs, if_neg (by omega)]
  rfl

end

theorem Waits.of_wev {s : State} (hs : s.core.iss.inStub = false) : Waits s .wev .wev := by
  show execWev s = _
  rw [execWev, State.waitWord_free hs]
  rfl

/-! ### FENCE and its demotion (R17, R211, R226) -/

theorem State.demote_marked {s : State} (hf : s.core.iss.fault = none) (x : Scope) : s.demote x = s.marked x := by
  simp only [State.demote, State.marked, hf, Option.isNone_none, Bool.and_true, Bool.and_eq_true, beq_iff_eq, decide_eq_true_eq]

/-- A word that goes on, whatever else it changes. -/
theorem Leaves.of_advance {s u : State} {i : Instr} (h : exec i s = .next (u.advance 1)) (hu : Issues s (u.advance 1) 1) : Leaves s u i :=
  ⟨_, h, hu, u.advance_steady 1, u.advance_pend 1⟩

/-- What the fence covers is held back, and a demotion is noted. -/
theorem Leaves.of_fence {s : State} (hf : s.core.iss.fault = none) (x : Scope) :
    Leaves s ((s.modIss fun y => { y with fence := (s.covered (s.effective x) ++ s.fenced).eraseDups }).marked x) (.fence x) := by
  have hexec : exec (.fence x) s = .next
      (((s.modIss fun y => { y with fence := (s.covered (s.effective x) ++ s.fenced).eraseDups }).demote x).advance 1) := rfl
  rw [State.demote_marked (by exact hf)] at hexec
  refine .of_advance hexec ?_
  unfold State.marked
  split
  · exact State.advance_issues _ 1
  · exact State.advance_issues _ 1

/-! ### Phases complete (R224) -/

/-- The current phase of a domain can complete: every required member has arrived and no counted copy is left. -/
def State.phaseFull (s : State) (d : Domain) : Prop := d.broken = false ∧ s.membersIn d d.p = true ∧ ∀ q ∈ d.copies, q.2 ≠ d.p

/-- The domain after its current phase completed in cycle `c`, at time `now`. -/
def Domain.completed (now c : Nat) (d : Domain) : Domain := { d with
  p := d.p + 1
  comps := (d.comps.filter fun (_, c') => now ≤ c' + phaseB d.lvl.toNat c') ++ [(d.p, c)]
  arrivals := d.arrivals.filter fun (_, q) => q != d.p }

/-- A completion of this cycle stays in sight. -/
theorem Domain.mem_comps_completed {now : Nat} {d : Domain} {p : BitVec 32} (h : (p, now) ∈ d.comps) (c : Nat) :
    (p, now) ∈ (d.completed now c).comps := by
  simp [Domain.completed, h]

theorem State.domain?_modDomain (s : State) (id : Nat) {f : Domain → Domain} (hf : ∀ d, (f d).id = d.id) :
    (s.modDomain id f).domain? id = (s.domain? id).map f := by
  have hid : ((fun d : Domain => d.id == id) ∘ fun d => if d.id == id then f d else d) = fun d => d.id == id := by
    funext d
    dsimp only [Function.comp_apply]
    split <;> simp [hf]
  show List.find? _ (List.map _ _) = _
  rw [List.find?_map, hid, ← State.domain?]
  refine Option.map_congr fun d hd => ?_
  rw [if_pos (List.find?_some hd)]

theorem State.completePhases_stay {s : State} {id : Nat} {d : Domain} (hd : s.domain? id = some d) (h : ¬ s.phaseFull d) (c n : Nat) :
    s.completePhases id c n = s := by
  cases n with
  | zero => rfl
  | succ n =>
    rw [State.completePhases, hd]
    refine if_neg fun hc => h ?_
    simpa [State.phaseFull, and_assoc] using hc

theorem State.completePhases_step {s : State} {id : Nat} {d : Domain} (hd : s.domain? id = some d) (h : s.phaseFull d) (c n : Nat) :
    s.completePhases id c (n + 1) = (s.modDomain id (Domain.completed s.tb c)).completePhases id (c + 1) n := by
  rw [State.completePhases, hd]
  refine if_pos ?_
  simpa [State.phaseFull, and_assoc] using h

/-- Completions change the list of domains alone. -/
theorem State.completePhases_eq (s : State) (id c n : Nat) :
    s.completePhases id c n = { s with disp := { s.disp with domains := (s.completePhases id c n).disp.domains } } := by
  induction n generalizing s c with
  | zero => rfl
  | succ n ih =>
    cases hd : s.domain? id with
    | none => rw [State.completePhases, hd]
    | some d =>
      by_cases h : s.phaseFull d
      · rw [State.completePhases_step hd h]
        exact ih _ _
      · rw [State.completePhases_stay hd h]

/-- A full phase completes now; with it at most the next one does. -/
theorem State.completePhases_full {s : State} {id : Nat} {d : Domain} (hd : s.domain? id = some d) (h : s.phaseFull d) :
    ∃ u, (s.completePhases id s.tb 2).domain? id = some u ∧ (u.p = d.p + 1 ∨ u.p = d.p + 2) ∧ (d.p, s.tb) ∈ u.comps := by
  have hd' : (s.modDomain id (Domain.completed s.tb s.tb)).domain? id = some (d.completed s.tb s.tb) := by
    rw [State.domain?_modDomain s id (f := Domain.completed s.tb s.tb) fun _ => rfl, hd]
    rfl
  have hmem : (d.p, s.tb) ∈ (d.completed s.tb s.tb).comps := by simp [Domain.completed]
  rw [State.completePhases_step hd h]
  by_cases h' : (s.modDomain id (Domain.completed s.tb s.tb)).phaseFull (d.completed s.tb s.tb)
  · rw [State.completePhases_step hd' h']
    refine ⟨(d.completed s.tb s.tb).completed s.tb (s.tb + 1), ?_, .inr (BitVec.add_assoc d.p 1 1), Domain.mem_comps_completed hmem _⟩
    show (State.modDomain _ _ (Domain.completed s.tb (s.tb + 1))).domain? id = _
    rw [State.domain?_modDomain _ id (f := Domain.completed s.tb (s.tb + 1)) fun _ => rfl, hd']
    rfl
  · rw [State.completePhases_stay hd' h']
    exact ⟨_, hd', .inl rfl, hmem⟩

/-! ### The events of the phase unit (R224, R225) -/

section
variable {s : State} {id : Nat} {d : Domain} (hd : s.domain? id = some d) {f : Domain → Domain} (hid : ∀ y, (f y).id = y.id)
include hd hid

theorem State.phaseEvent_stay (h : ¬ s.phaseFull (f d)) : s.phaseEvent id f = s.modDomain id f := by
  have hd' : (s.modDomain id f).domain? id = some (f d) := by
    rw [State.domain?_modDomain _ _ hid, hd]
    rfl
  exact State.completePhases_stay hd' h _ _

theorem State.phaseEvent_full (h : s.phaseFull (f d)) :
    ∃ u, (s.phaseEvent id f).domain? id = some u ∧ (u.p = (f d).p + 1 ∨ u.p = (f d).p + 2) ∧ ((f d).p, s.tb) ∈ u.comps := by
  have hd' : (s.modDomain id f).domain? id = some (f d) := by
    rw [State.domain?_modDomain _ _ hid, hd]
    rfl
  exact State.completePhases_full hd' h

end

theorem exec_phaseArrival (s : State) (dom core : Nat) (p : BitVec 32) : exec (.phaseArrival dom core p) s = .next (s.phaseEvent dom fun y =>
    { y with
      arrivals := if (core, p) ∈ y.arrivals then y.arrivals else y.arrivals ++ [(core, p)]
      retired := if ((s.getCore core).hasRetired = true ∧ (s.getCore core).bnd.alpha.toList[dom / 2 ^ 32]? = some p) ∧ core ∉ y.retired
        then y.retired ++ [core] else y.retired }) := by
  show execPhaseArrival dom core p s = _
  simp [execPhaseArrival]

theorem exec_phaseCopyRegistration (s : State) (dom id : Nat) (p : BitVec 32) :
    exec (.phaseCopyRegistration dom id p) s = .next (s.phaseEvent dom fun y => { y with copies := y.copies ++ [(id, p)] }) := rfl

/-- A landing and a withdrawal are one to the unit. -/
theorem exec_phaseCopyOver (s : State) {dom id : Nat} {p : BitVec 32} {i : Instr}
    (hi : i = .phaseCopyLanding dom id p ∨ i = .phaseCopyWithdrawal dom id p) : exec i s = .next (s.phaseCopyOver dom id p i) := by
  rcases hi with rfl | rfl
  · rfl
  · rfl

section
variable {s : State} {dom id : Nat} {p : BitVec 32} {i : Instr} (hi : i = .phaseCopyLanding dom id p ∨ i = .phaseCopyWithdrawal dom id p)
include hi

/-- A landing or a withdrawal: after the registration of its copy where that is still on its way. -/
theorem exec_phaseCopyOver_late {e : Nat × Instr} (h : s.agenda.find? (fun e => e.2 == .phaseCopyRegistration dom id p) = some e) :
    exec i s = .next (s.at_ e.1 i) := by
  rw [exec_phaseCopyOver s hi, State.phaseCopyOver, h]

theorem exec_phaseCopyOver_now (h : s.agenda.find? (fun e => e.2 == .phaseCopyRegistration dom id p) = none) :
    exec i s = .next (s.phaseEvent dom fun y => { y with copies := y.copies.filter fun q => q != (id, p) }) := by
  rw [exec_phaseCopyOver s hi, State.phaseCopyOver, h]

end

/-! ### Waits that end (R22, R224, R230, R231) -/

/-- The end of a wait of the core in focus. -/
theorem Resumes.of_completeWait {s u : State} {i : Instr} (h : exec i s = .next u.completeWait) (htb : u.tb = s.tb)
    (hu : Issues s u.completeWait 1) : Resumes s u i :=
  ⟨_, h, hu, State.advance_pend _ 1, by rw [← htb]; exact State.advance_steady _ 1⟩

theorem exec_phaseWaitComplete {s : State} {lvl : BitVec 3} {p : BitVec 32} (hw : s.core.iss.wait = .phase lvl p) :
    exec (.phaseWaitComplete s.cur) s = .next (if serialLT p (s.seenPhase s.cur lvl.toNat) = true then s.completeWait else s) := by
  show execPhaseWaitComplete s.cur s = _
  rw [execPhaseWaitComplete, State.focus_cur, hw]
  rfl

theorem exec_wevComplete {s : State} (hw : s.core.iss.wait = .wev) (he : s.eventsHold = true) :
    exec (.wevComplete s.cur) s = .next s.clearEvents.completeWait := by
  show execWevComplete s.cur s = _
  rw [execWevComplete, State.focus_cur, hw, he]
  rfl

/-- Every condition that EVMASK selects holds (R231). -/
theorem State.eventsHold_iff (s : State) : s.eventsHold = true ↔ let m := s.core.sys.evmask; let y := s.core.iss
    (m.getLsbD 0 = true → y.vec.flag = true) ∧ (m.getLsbD 1 = true → y.mat.flag = true) ∧ (m.getLsbD 2 = true → y.tab.flag = true)
      ∧ (m.getLsbD 3 = true → y.vec.finished = true) ∧ (m.getLsbD 4 = true → y.mat.finished = true)
      ∧ (m.getLsbD 5 = true → y.tab.finished = true) ∧ (m.getLsbD 6 = true → s.copiesIdle s.cur = true) := by
  have himp (a b : Bool) : (!a || b) = true ↔ (a = true → b = true) := by cases a <;> simp
  simp only [State.eventsHold, Bool.and_eq_true, himp, and_assoc]

/-- Settles O18: an arrival by α and the phase in view, the events of the unit by whether the phase is then full, the waits by
their conditions. -/
theorem phasesAdvance : Obligations.PhasesAdvance := by
  unfold Obligations.PhasesAdvance
  refine ⟨fun s d a lvl x => ?_, fun s dom core id p c hd => ?_, fun s => ?_⟩
  · intro l al seen lat arrived low fenced
    have harrived : s.arrived lvl = arrived := by
      rw [State.arrived, State.phaseA_eq]
    have hbeyond (h : al = seen + 2 ∨ ¬ serialLT al (seen + 2) = true) : serialLT al (seen + 2) = false := by
      rcases h with h | h
      · rw [h, serialLT_self]
      · simpa using h
    refine ⟨fun hl h hm => ⟨?_, fun hs => ?_⟩, fun hl h => ⟨?_, fun hs => ?_⟩, fun hl hs => ?_, fun hs => ?_, fun hf => ?_⟩
    · exact .of_ctlFault hm (exec_parv_beyond hl (hbeyond h) d)
    · exact .of_ctlFault hm (exec_pbar_beyond hl (hbeyond h) hs)
    · refine ⟨_, exec_parv_within hl h d, State.put_issues (s.arrived lvl) 1 1 _, ?_, ?_⟩
      · rw [← harrived]
        exact State.advance_steady _ 1
      · exact State.advance_pend _ 1
    · rw [← harrived]
      exact exec_pbar_within hl h hs
    · exact .of_pwait hl hs a
    · exact .of_wev hs
    · have hfence := Leaves.of_fence hf x
      rw [State.effective_eq] at hfence
      exact hfence
  · intro gone late acts
    have hacts {i : Instr} {f : Domain → Domain} (hi : exec i s = .next (s.phaseEvent dom f)) (hid : ∀ y, (f y).id = y.id)
        (hp : (f c).p = c.p) : acts i f := by
      have hfull : s.phaseFull (f c) ↔ (f c).broken = false ∧ s.membersIn (f c) c.p = true ∧ ∀ q ∈ (f c).copies, q.2 ≠ c.p := by
        rw [State.phaseFull, hp]
      refine ⟨fun h => ?_, fun h => ?_⟩
      · rw [hi, State.phaseEvent_stay hd hid (hfull.not.mpr h)]
        rfl
      · obtain ⟨u, hu, hup, hmem⟩ := State.phaseEvent_full hd hid (hfull.mpr h)
        rw [hp] at hup hmem
        exact ⟨_, u, hi, State.completePhases_eq _ _ _ _, hu, hup, hmem⟩
    refine ⟨?_, ?_, fun h => ⟨?_, ?_⟩, fun e h i hi => ?_⟩
    · exact hacts (exec_phaseArrival s dom core p) (fun _ => rfl) rfl
    · exact hacts (exec_phaseCopyRegistration s dom id p) (fun _ => rfl) rfl
    · exact hacts (exec_phaseCopyOver_now (.inl rfl) h) (fun _ => rfl) rfl
    · exact hacts (exec_phaseCopyOver_now (.inr rfl) h) (fun _ => rfl) rfl
    · exact exec_phaseCopyOver_late hi h
  · intro m y
    refine ⟨fun lvl p hw => ⟨fun h => ?_, fun h => ?_⟩, fun hw he => ?_⟩
    · exact .of_completeWait ((exec_phaseWaitComplete hw).trans (congrArg _ (if_pos h))) rfl (State.advance_issues _ 1)
    · rw [exec_phaseWaitComplete hw, h]
      rfl
    · exact .of_completeWait (exec_wevComplete hw (s.eventsHold_iff.mpr he)) rfl (State.advance_issues _ 1)

end Sys2Proof.Machine
end

section
namespace Sys2Proof.Machine
open Sys2Proof

/-! ### The copy control group (R288, R289, Table 11.7) -/

theorem State.copy?_id {s : State} {id : Nat} {c : Copy} (h : s.copy? id = some c) : c.id = id := by
  simpa using List.find?_some h

/-- A copy's record is written at its issuer, and nothing else changes. -/
theorem State.record_cases (s : State) (c : Copy) (st : CopyState) :
    s.record c st = s ∨ ∃ i r, s.record c st = s.setCore i { s.getCore i with copyrec := r } := by
  unfold State.record
  split
  · dsimp only
    split
    · exact .inr ⟨_, _, rfl⟩
    · exact .inl rfl
  · exact .inl rfl

theorem State.setCore_core (s : State) (i : Nat) (c : Core) : (s.setCore i c).core = if s.cur = i then c else s.core := by
  unfold State.setCore
  simp only [beq_iff_eq]
  split <;> rfl

theorem State.record_core (s : State) (c : Copy) (st : CopyState) : ∃ r, (s.record c st).core = { s.core with copyrec := r } := by
  obtain h | ⟨i, r, h⟩ := s.record_cases c st
  · exact ⟨_, by rw [h]⟩
  · rw [h, State.setCore_core]
    split
    next hi => exact ⟨r, by rw [← hi, State.getCore_cur]⟩
    next => exact ⟨_, rfl⟩

theorem State.withdraw_core (s : State) (c : Copy) : (s.withdraw c).core = s.core := by
  unfold State.withdraw
  split <;> rfl

/-- A copy that has not issued is cancelled: its entry leaves its buffer, and its record alone changes in the cores. -/
theorem State.cancelCopy_queued {s : State} {id : Nat} {c : Copy} (hc : s.copy? id = some c) (hq : c.state = .queued) :
    (∀ x ∈ (s.cancelCopy id).eng.copies, x.id ≠ id) ∧ ∃ r, (s.cancelCopy id).core = { s.core with copyrec := r } := by
  have h : s.cancelCopy id = (((s.record c .cancelled).withdraw c).accessGone id).modEng fun e =>
      { e with copies := e.copies.filter (·.id != id) } := by
    rw [State.cancelCopy, hc]
    exact if_pos (by simp [hq])
  rw [h]
  refine ⟨fun x hx => by simpa using (List.mem_filter.mp hx).2, ?_⟩
  obtain ⟨r, hr⟩ := s.record_core c .cancelled
  exact ⟨r, (State.withdraw_core _ c).trans hr⟩

/-- A control word of latency 1 that gives a register its value, once the state is `u`. -/
def AluGives (s u : State) (i : Instr) (d : SReg) (v : W64) : Prop :=
  ∃ t, exec i s = .next t ∧ Issues s t 1 ∧ t.steady = u.steady ∧ t.core.iss.pend = u.core.iss.pend ++ [⟨s.tb, .s d v, none, s.tb⟩]

theorem AluGives.of_alu {s u : State} {i : Instr} {d : SReg} {v : W64} (h : exec i s = u.alu d v) (htb : u.tb = s.tb)
    (hctl : u.core.ctl = s.core.ctl) (hiss : u.core.iss = s.core.iss) : AluGives s u i d v := by
  refine ⟨_, h, ?_, State.advance_steady _ _, ?_⟩
  · have hu := State.put_issues u 1 1 (.s d v)
    rwa [Issues, htb, hctl, hiss] at hu
  · rw [State.advance_pend, ← htb]
    rfl

theorem AluGives.of_cstat {s : State} {d : SReg} {k : BitVec 4} {v : W64} (h : s.recordWord k = v) : AluGives s s (.cstat d k) d v :=
  .of_alu (by rw [← h]; rfl) rfl rfl rfl

/-- CCAN of a copy that no longer stands in its buffer tells whether it has begun. -/
theorem AluGives.of_ccan {s : State} {d : SReg} {k : BitVec 4}
    (h : ∀ c, s.copy? (s.core.copyOf[k.toNat]'k.isLt) = some c → c.state ≠ .queued) :
    let st := natBits (s.core.copyrec[k.toNat]'k.isLt).toNat 61 3
    AluGives s s (.ccan d k) d (if st = 2 ∨ st = 3 then 1 else 2) := by
  refine .of_alu ?_ rfl rfl rfl
  show execCcan d k s = _
  rw [execCcan]
  dsimp only
  rw [if_neg (by simpa [Option.any_eq_true] using h)]
  simp only [Bool.or_eq_true, beq_iff_eq]

theorem AluGives.of_ccan_queued {s : State} {d : SReg} {k : BitVec 4} {c : Copy}
    (hc : s.copy? (s.core.copyOf[k.toNat]'k.isLt) = some c) (hq : c.state = .queued) :
    AluGives s (s.cancelCopy c.id) (.ccan d k) d 0 := by
  rw [State.copy?_id hc]
  obtain ⟨-, r, hr⟩ := State.cancelCopy_queued hc hq
  refine .of_alu ?_ (State.cancelCopy_windsUp (p := fun _ => False) s _).tb (by rw [hr]) (by rw [hr])
  show execCcan d k s = _
  rw [execCcan]
  dsimp only
  rw [hc]
  exact if_pos (by simp [hq])

/-- The record as CSTAT reads it: an issue of this cycle does not show yet (R288). -/
theorem State.recordWord_old {s : State} {k : BitVec 4} (h : ∀ c, s.copy? (s.core.copyOf[k.toNat]'k.isLt) = some c →
    c.state ≠ .issued ∨ c.issuedAt ≠ s.tb) : s.recordWord k = s.core.copyrec[k.toNat]'k.isLt := by
  unfold State.recordWord
  dsimp only
  split
  next c hc => exact if_neg (by simpa [imp_iff_not_or] using h c hc)
  next => rfl

theorem State.recordWord_issuing {s : State} {k : BitVec 4} {c : Copy} (hc : s.copy? (s.core.copyOf[k.toNat]'k.isLt) = some c)
    (hs : c.state = .issued) (ht : c.issuedAt = s.tb) : s.recordWord k =
      ((s.core.copyrec[k.toNat]'k.isLt) &&& ~~~(7#64 <<< 61)) ||| (if c.reissued then 3#64 <<< 61 else 1#64 <<< 61) := by
  unfold State.recordWord
  dsimp only
  rw [hc]
  exact if_pos (by simp [hs, ht])

/-- Settles O31: CWM by what its channel holds, CCAN by whether the copy still stands in its buffer, CSTAT by the record. -/
theorem copyControlResults : Obligations.CopyControlResults := by
  unfold Obligations.CopyControlResults
  intro s d k ch rec_ word st copy gives
  refine ⟨AluGives.of_alu rfl rfl rfl rfl, fun h => ?_, fun ha hl => ?_, fun hnone => ?_,
    fun c hc => ⟨fun h => ?_, fun hs ht => ?_, fun hq => ?_, fun hq => ?_⟩⟩
  · exact AluGives.of_alu (if_pos (by simpa using h)) rfl rfl rfl
  · exact AluGives.of_alu (if_neg (by simpa using ⟨ha, hl⟩)) rfl rfl rfl
  · have hno : ∀ c, copy ≠ some c := fun c h => by simp [hnone] at h
    exact ⟨AluGives.of_cstat (State.recordWord_old fun c h => (hno c h).elim), AluGives.of_ccan fun c h => (hno c h).elim⟩
  · exact AluGives.of_cstat (State.recordWord_old fun x hx => by obtain rfl := Option.some.inj (hc.symm.trans hx); exact h)
  · exact AluGives.of_cstat (State.recordWord_issuing hc hs ht)
  · obtain ⟨hgone, r, hr⟩ := State.cancelCopy_queued hc hq
    refine ⟨s.cancelCopy c.id, AluGives.of_ccan_queued hc hq, ?_⟩
    rw [State.copy?_id hc]
    exact ⟨hgone, (State.cancelCopy_windsUp (p := fun _ => False) s _).mem, by rw [hr], by rw [hr], by rw [hr]⟩
  · exact AluGives.of_ccan fun x hx => by obtain rfl := Option.some.inj (hc.symm.trans hx); exact hq

end Sys2Proof.Machine
end

section
namespace Sys2Proof.Machine
open Sys2Proof

/-! ### A copy command in its issue cycle (R266 to R270, R275, R288) -/

theorem State.copyWord_enter {s : State} {op : Nat} {ca : Option CReg} {cb : CReg} {len card : SReg} {time : TimeArg} {c : Copy}
    (h : s.command op ca cb len card (s.timeOf time) = .enter c) :
    s.copyWord op ca cb len card time = (s.enterCopy c).advance 1 := by
  rw [State.copyWord, h]

/-- What a copy command that passes its checks has passed, and the entry it makes. -/
structure Entered (s : State) (op : Nat) (ca : Option CReg) (cb : CReg) (len card : SReg) (time : Nat) (c : Copy) : Prop where
  fw : s.core.fw = none
  legal : cardBad (s.sreg card) (op == 8) = false
  short : (s.sreg len).toNat < 2 ^ 32
  writes : op ≠ 8 → (ca.elim Cap.null s.creg).authority s.myWorld (if op = 6 then permRead + permWrite else permWrite) = none
  reads : (s.creg cb).authority s.myWorld permRead = none
  ahead : s.tb + 2 ≤ time
  room : s.bufferLoad c.engine < bufferSize c.engine
  few : s.waitingCopies s.cur < 64
  engine : c.engine = s.cur ∨ c.engine = fabricEngine s.cur
  fields : c.id = s.nextId ∧ c.op = BitVec.ofNat 4 op ∧ c.asker = .core s.cur ∧ c.time = time ∧ c.world = s.myWorld ∧
    c.n = (s.sreg len).toNat ∧ c.src = (s.creg cb).cur ∧ c.card = s.sreg card ∧ c.state = .queued
  dst : op ≠ 8 → c.dst = (ca.elim Cap.null s.creg).cur
  follow : op = 5 ↔ c.follow ≠ none
  phase : c.phase = if op = 8 then none else s.cardPhase (s.sreg card)

theorem Cap.covers_none {c : Cap} {world need : Nat} {runs : List (Nat × Nat)} (h : c.covers world need runs = none) :
    c.authority world need = none := by
  unfold Cap.covers at h
  split at h
  · cases h
  · assumption

theorem State.command_enter {s : State} {op : Nat} {ca : Option CReg} {cb : CReg} {len card : SReg} {time : Nat} {c : Copy}
    (h : s.command op ca cb len card time = .enter c) : Entered s op ca cb len card time c := by
  -- The checks of R270 in their order: in every branch but the last the command is refused.
  unfold State.command at h
  extract_lets j ext cd n w fetch b a dst src pd ps sf df m N list group blocks target fmtOf e1 e2 eb reb expD expS listR needA
    bank acc accAlign at h
  split at h
  case h_2 => cases h
  next k members hk hg =>
  extract_lets whole dsts srcs win kind targets unfit mis loc engine at h
  clear_value list bank acc accAlign unfit mis win kind
  split at h
  · cases h
  next hlegal =>
  split at h
  · cases h
  next hcovers =>
  split at h
  · cases h
  split at h
  · cases h
  split at h
  · cases h
  split at h
  · cases h
  next hahead =>
  split at h
  · cases h
  next hroom =>
  split at h
  · cases h
  obtain rfl := Command.enter.inj h
  simp only [Bool.or_eq_true, not_or, Bool.not_eq_true, Option.isSome_eq_false_iff, Option.isNone_iff_eq_none, decide_eq_true_eq,
    not_le, not_lt] at hlegal hahead hroom
  obtain ⟨⟨⟨⟨⟨⟨hfw, -⟩, hcard⟩, hshort⟩, -⟩, -⟩, -⟩ := hlegal
  obtain ⟨hroom, hfew⟩ := hroom
  obtain ⟨hwrites, hreads⟩ := (Option.orElse_eq_none _ _).mp hcovers
  have hdest : op ≠ 8 → fetch = false := fun h => by simpa [fetch] using h
  exact {
    fw := hfw, legal := hcard, short := hshort, ahead := hahead, room := hroom, few := hfew
    writes := fun h => by
      have hw := Cap.covers_none ((if_neg (by simp [hdest h])).symm.trans hwrites)
      simp only [needA, beq_iff_eq] at hw
      cases ca <;> exact hw
    reads := Cap.covers_none hreads
    engine := by
      show engine = _ ∨ engine = _
      unfold engine
      split
      · exact .inl rfl
      · exact .inr rfl
    fields := ⟨rfl, rfl, rfl, rfl, rfl, rfl, BitVec.ofNat_toNat _ _, rfl, rfl⟩
    dst := fun h => by
      show BitVec.ofNat 64 dst = _
      unfold dst
      rw [hdest h, if_neg Bool.false_ne_true, BitVec.ofNat_toNat]
      cases ca <;> rfl
    follow := by by_cases h : op = 5 <;> simp [h]
    phase := by simp only [fetch, beq_iff_eq]; rfl }

/-- The state with the entry of a copy command in its engine's buffer and in its record (R267, R288). -/
def State.withEntry (s : State) (op : Nat) (c : Copy) : State :=
  let k := cardWm c.card
  { s with
    nextId := s.nextId + 1
    eng := { s.eng with copies := s.eng.copies ++ [c] }
    core := { s.core with
      copyrec := s.core.copyrec.set k.toNat (1#64 <<< 61), copyOf := s.core.copyOf.set k.toNat s.nextId
      bnd := if op = 8 then { s.core.bnd with segs := s.core.bnd.segs.set k.toNat ⟨false, (s.core.bnd.segs[k.toNat]'k.isLt).tag⟩ }
        else s.core.bnd } }

section
variable {s : State} {op : Nat} {c : Copy} (hd : s.core.iss.drain.bind (fun q => q.d) = none) (hid : c.id = s.nextId)
  (hop : c.op = 8 ↔ op = 8)
include hd hid hop

theorem State.enterCopy_uncounted (hp : c.phase = none) : s.enterCopy c = s.withEntry op c := by
  simp only [State.enterCopy, hd, hp, hid, beq_iff_eq, hop]
  rfl

/-- A counted copy is on its way to the phase unit of its level (R275). -/
theorem State.enterCopy_counted {l : BitVec 3} {p : BitVec 32} (hp : c.phase = some (l, p)) : s.enterCopy c =
    (if l = 4 then { s.withEntry op c with free := s.free + 1 } else s.withEntry op c).at_ (s.tb + s.phaseA l.toNat)
      (.phaseCopyRegistration ((s.withEntry op c).domainOf s.cur l.toNat) c.id p) := by
  simp only [State.enterCopy, hd, hp, hid, beq_iff_eq, hop]
  split <;> rfl

end

/-! What the fields of a legal entry say. -/

theorem Cap.has_of_both {x : Cap} (h : x.has (permRead + permWrite) = true) : x.has permRead = true ∧ x.has permWrite = true := by
  have hboth : x.perms &&& (permRead + permWrite) = permRead + permWrite := beq_iff_eq.mp h
  have hsub {n : Nat} (hn : (permRead + permWrite) &&& n = n) : x.has n = true :=
    beq_iff_eq.mpr (show x.perms &&& n = n by rw [← hn, ← Nat.and_assoc, hboth])
  exact ⟨hsub rfl, hsub rfl⟩

theorem cardBad_eq_false {x : W64} (h : cardBad x false = false) : natBits x.toNat 0 8 = 0 ∧ cardSen x ≠ 3 := by
  simp only [cardBad, Bool.false_eq_true, if_false, Bool.or_eq_false_iff, bne_eq_false_iff_eq, beq_eq_false_iff_ne] at h
  obtain ⟨⟨⟨hzero, hsen⟩, -⟩, -⟩ := h
  exact ⟨hzero, hsen⟩

/-- The phase that a card names lies in α to α + 3 and ends in PLO (R275). -/
theorem State.cardPhase_some {s : State} {x : W64} {l : BitVec 3} {p : BitVec 32} (h : s.cardPhase x = some (l, p)) :
    l = cardPl x ∧ p.toNat % 8 = cardPlo x ∧ (p - s.alpha l).toNat < 4 := by
  have hplo : cardPlo x < 8 := natBits_lt _ _ _
  unfold State.cardPhase at h
  split at h
  · cases h
  · dsimp only at h
    split at h
    next hd =>
      obtain ⟨rfl, rfl⟩ := Prod.mk.inj (Option.some.inj h)
      generalize s.alpha (cardPl x) = a at hd ⊢
      generalize hdd : (cardPlo x + 8 - a.toNat % 8) % 8 = d at hd ⊢
      refine ⟨rfl, ?_, ?_⟩
      · rw [BitVec.toNat_add, BitVec.toNat_ofNat]
        omega
      · rw [BitVec.add_comm, BitVec.add_sub_cancel, BitVec.toNat_ofNat]
        omega
    next => cases h

theorem State.cardPhase_unnamed {s : State} {x : W64} (h : cardPen x = false) : s.cardPhase x = none := by
  rw [State.cardPhase, h]
  rfl

/-- Settles O30: a command's effects by whether its copy counts in a phase, and its entry's fields by the checks it has passed. -/
theorem copyCommandsEnter : Obligations.CopyCommandsEnter := by
  unfold Obligations.CopyCommandsEnter
  refine ⟨fun s a b len card time hd => ?_, fun s op a b len card time c hop h => ?_⟩
  · intro enters
    have hall {i : Instr} {op : Nat} {ca : Option CReg} (hop9 : op < 9)
        (hi : exec i s = .next (s.copyWord op ca b len card time)) : enters i op ca := by
      intro c hc k clear u
      obtain ⟨hid, hcop, -⟩ := (State.command_enter hc).fields
      have hop : c.op = 8 ↔ op = 8 := by
        rw [hcop, ← BitVec.toNat_inj, BitVec.toNat_ofNat, Nat.mod_eq_of_lt (by omega)]
        rfl
      rw [State.copyWord_enter hc] at hi
      refine ⟨fun hp => ?_, fun l p hp hl => ?_, fun l p hp hl => ⟨s.phaseA l.toNat, ?_⟩⟩
      · rw [State.enterCopy_uncounted hd hid hop hp] at hi
        exact .of_advance hi (State.advance_issues _ 1)
      · rw [State.enterCopy_counted hd hid hop hp, if_neg (by rintro rfl; exact absurd hl (by decide))] at hi
        exact .of_advance hi (State.advance_issues _ 1)
      · rw [State.enterCopy_counted hd hid hop hp, if_pos (BitVec.eq_of_toNat_eq hl)] at hi
        exact .of_advance hi (State.advance_issues _ 1)
    exact ⟨hall (by decide) rfl, hall (by decide) rfl, hall (by decide) rfl, hall (by decide) rfl, hall (by decide) rfl,
      hall (by decide) rfl, hall (by decide) rfl, hall (by decide) rfl, hall (by decide) rfl⟩
  · intro x y cd
    have he := State.command_enter h
    have hne : op ≠ 8 := by omega
    obtain ⟨hid, -, hasker, htime, hworld, hn, hsrc, hcard, hstate⟩ := he.fields
    obtain ⟨hxtag, hxo, hxw, hxhas⟩ := Cap.authority_eq_none.mp (he.writes hne)
    obtain ⟨hytag, hyo, hyw, hyhas⟩ := Cap.authority_eq_none.mp he.reads
    obtain ⟨hzero, hsen⟩ := cardBad_eq_false ((congrArg (cardBad cd) (beq_eq_false_iff_ne.mpr hne)).symm.trans he.legal)
    have hphase : c.phase = s.cardPhase cd := he.phase.trans (if_neg hne)
    have hboth : x.has permWrite = true ∧ (op = 6 → x.has permRead = true) := by
      by_cases h6 : op = 6
      · rw [if_pos h6] at hxhas
        exact ⟨(Cap.has_of_both hxhas).2, fun _ => (Cap.has_of_both hxhas).1⟩
      · rw [if_neg h6] at hxhas
        exact ⟨hxhas, fun h => absurd h h6⟩
    exact ⟨he.fw, he.ahead, htime, hasker, hn, hn ▸ he.short, he.dst hne, hsrc, hcard, hworld, hstate, hid, hxtag, hytag, hxo, hyo, hxw, hyw,
      hboth.1, hyhas, hboth.2, he.engine, he.room, he.few, hsen, hzero, he.follow, fun hp => hphase.trans (State.cardPhase_unnamed hp),
      fun l p hp => State.cardPhase_some (hphase.symm.trans hp)⟩

end Sys2Proof.Machine
end

section
namespace Sys2Proof.Machine
open Sys2Proof

/-! ### An entry goes from its buffer to its beats (R267, R273) -/

/-- The cores may differ from `s` to `t`, and the beats that are to land; memory, the dispatcher, the worlds and the copies stand. -/
structure KeepsCopies (s t : State) : Prop where
  mem : t.mem = s.mem
  disp : t.disp = s.disp
  worlds : t.worlds = s.worlds
  copies : t.eng.copies = s.eng.copies

namespace KeepsCopies

theorem refl (s : State) : KeepsCopies s s := ⟨rfl, rfl, rfl, rfl⟩

theorem trans {r s t : State} (h : KeepsCopies r s) (g : KeepsCopies s t) : KeepsCopies r t :=
  ⟨g.mem.trans h.mem, g.disp.trans h.disp, g.worlds.trans h.worlds, g.copies.trans h.copies⟩

theorem foldl {α : Type} {f : State → α → State} (hf : ∀ s a, KeepsCopies s (f s a)) (l : List α) (s : State) :
    KeepsCopies s (l.foldl f s) :=
  List.foldlRecOn (motive := KeepsCopies s) l f (refl s) fun t ht a _ => ht.trans (hf t a)

end KeepsCopies

/-- `t` is `s` but for what its cores hold. -/
structure CoresOnly (s t : State) : Prop where
  eq : t = { s with core := t.core, others := t.others }

namespace CoresOnly
variable {r s t : State}

theorem refl (s : State) : CoresOnly s s := ⟨rfl⟩

theorem trans (h : CoresOnly r s) (g : CoresOnly s t) : CoresOnly r t :=
  ⟨g.eq.trans (congrArg (fun x : State => { x with core := t.core, others := t.others }) h.eq)⟩

theorem setCore (s : State) (i : Nat) (c : Core) : CoresOnly s (s.setCore i c) := by
  unfold State.setCore
  split <;> exact ⟨rfl⟩

theorem modCore (s : State) (i : Nat) (f : Core → Core) : CoresOnly s (s.modCore i f) := setCore s i _

theorem record (s : State) (c : Copy) (st : CopyState) : CoresOnly s (s.record c st) := by
  obtain h | ⟨i, r, h⟩ := s.record_cases c st
  · rw [h]
    exact refl s
  · rw [h]
    exact setCore s i _

theorem bindCopy (s : State) (c : Copy) : CoresOnly s (s.bindCopy c) := by
  unfold State.bindCopy
  split
  · exact refl s
  · refine List.foldlRecOn (motive := CoresOnly s) c.targets _ (refl s) fun t ht y _ => ?_
    refine trans ht ?_
    split
    · exact refl t
    · dsimp only
      split
      · exact modCore _ _ _
      · exact (modCore _ _ _).trans (modCore _ _ _)

theorem raiseLevel (s : State) (c : Copy) (y : Target) (n : Nat) (exp : Bool) : CoresOnly s (s.raiseLevel c y n exp) := by
  unfold State.raiseLevel
  split
  · exact refl s
  · exact modCore _ _ _

theorem eng (h : CoresOnly s t) : t.eng = s.eng := (congrArg State.eng h.eq :)
theorem mem (h : CoresOnly s t) : t.mem = s.mem := (congrArg State.mem h.eq :)
theorem disp (h : CoresOnly s t) : t.disp = s.disp := (congrArg State.disp h.eq :)
theorem worlds (h : CoresOnly s t) : t.worlds = s.worlds := (congrArg State.worlds h.eq :)
theorem agenda (h : CoresOnly s t) : t.agenda = s.agenda := (congrArg State.agenda h.eq :)
theorem tb (h : CoresOnly s t) : t.tb = s.tb := (congrArg State.tb h.eq :)

theorem keepsCopies (h : CoresOnly s t) : KeepsCopies s t := ⟨h.mem, h.disp, h.worlds, congrArg Engines.copies h.eng⟩

end CoresOnly

/-- A copy as its engine takes it in cycle `tb`. -/
def Copy.taken (c : Copy) (tb : Nat) : Copy :=
  { c with state := .issued, issuedAt := tb, at_ := tb, reissued := c.state != .queued, targets := c.targets.map fun y => { y with lag := 0 } }

theorem Copy.taken_beatCount (c : Copy) (tb : Nat) : (c.taken tb).beatCount = c.beatCount := by
  have hlen : (c.taken tb).expLen = c.expLen := by
    unfold Copy.expLen Copy.taken
    dsimp only
    cases c.targets <;> rfl
  rw [Copy.beatCount, hlen]
  rfl

/-- An issue changes its copy, and the cores by the record and the channels; a copy of no bytes is on its way to its end. -/
theorem exec_copyEngineIssue {s : State} {id : Nat} {c : Copy} (h : s.copy? id = some c) :
    ∃ t, exec (.copyEngineIssue id) s = .next t ∧ KeepsCopies (s.modCopy id fun _ => c.taken s.tb) t
      ∧ (0 < c.beatCount → t.eng.lands = s.eng.lands) := by
  show ∃ t, execCopyEngineIssue id s = .next t ∧ _
  rw [execCopyEngineIssue, h]
  dsimp only
  rw [show ({ c with
        state := .issued, issuedAt := s.tb, at_ := s.tb, reissued := !(c.state == .queued)
        targets := c.targets.map fun y => { y with lag := 0 } } : Copy) = c.taken s.tb from rfl]
  generalize hu : (if (c.state == .queued) = true then _ else _ : State) = u
  have hcores : CoresOnly (s.modCopy id fun _ => c.taken s.tb) u := by
    rw [← hu]
    split
    · exact (CoresOnly.record _ _ _).trans (.bindCopy _ _)
    · exact .record _ _ _
  rw [Copy.taken_beatCount]
  split
  next hzero =>
    refine ⟨_, rfl, hcores.keepsCopies.trans (.foldl (fun t a => ?_) _ _), fun hpos => ?_⟩
    · exact ⟨rfl, rfl, rfl, rfl⟩
    · rw [beq_iff_eq] at hzero
      omega
  next => exact ⟨u, rfl, hcores.keepsCopies, fun _ => (congrArg Engines.lands hcores.eng :)⟩

theorem State.mem_modCopy {s : State} {id : Nat} {y : Copy} (hy : y ∈ s.eng.copies) (hne : y.id ≠ id) (f : Copy → Copy) :
    y ∈ (s.modCopy id f).eng.copies :=
  List.mem_map.mpr ⟨y, hy, if_neg (by simpa using hne)⟩

/-- A copy replaced is the copy found by its number. -/
theorem State.modCopy_found {s : State} {id : Nat} {c u : Copy} (h : s.copy? id = some c) (hu : u.id = id) :
    (s.modCopy id fun _ => u).copy? id = some u := by
  have hl : ∀ l : List Copy, l.find? (·.id == id) = some c → (l.map fun x => if x.id == id then u else x).find? (·.id == id) = some u := by
    intro l hl
    induction l with
    | nil => cases hl
    | cons x r ih =>
      by_cases hx : x.id = id
      · simp [hx, hu]
      · simpa [hx] using ih (by simpa [hx] using hl)
  exact hl _ h

end Sys2Proof.Machine
end

section
namespace Sys2Proof.Machine
open Sys2Proof

/-! ### A beat reads (R271, R272, R277) -/

theorem addrAdd_eq {a x : Nat} (h : inSram (a + x) = true) : addrAdd a (x : Int) = a + x := by
  have hlt : a + x < sramTop := by simpa using (Bool.and_eq_true_iff.mp h).2
  have htop : sramTop = 1101659111424 := rfl
  unfold addrAdd
  omega

theorem placeOf_ne_hbm {a : Nat} (h : inSram a = true) : placeOf a ≠ .hbm := by
  rw [placeOf, if_pos h]
  exact nofun

theorem pagesOf_single {a n : Nat} (hn : 0 < n) (hp : a % 4096 + n ≤ 4096) : pagesOf a n = 1 := by
  unfold pagesOf
  omega

/-- A range in one page of a core memory is one piece, at its own address (R233). -/
theorem State.resolveAll_sram {s : State} {world a n : Nat} {gid : Option (BitVec 16)} {write fetch : Bool} (hn : 0 < n)
    (ha : inSram a = true) (hp : a % 4096 + n ≤ 4096) (hw : s.windowOk world a write fetch = true) :
    s.resolveAll world gid [(a, n)] write fetch = .ok [⟨a, n, a, world, false⟩] := by
  have hpages := pagesOf_single hn hp
  have hk : min n (4096 - a % 4096) = n := by omega
  have hn0 : ¬ n = 0 := by omega
  simp [State.resolveAll, hpages, State.resolve, hk, hn0, State.resolvePage, ha, hw]

/-- The next data beat of a copy in address order: how much it moves, from where and to where (R271, R279); as one run of the
destination order, and as one physical piece on each side. -/
def Copy.beatLen (c : Copy) : Nat := min 256 (c.n - 256 * c.beat)
def Copy.beatFrom (c : Copy) : Nat := c.src.toNat + 256 * c.beat
def Copy.beatTo (c : Copy) : Nat := c.dst.toNat + 256 * c.beat
def Copy.beatRun (c : Copy) : Run := ⟨c.beatTo, c.beatLen, some c.beatFrom, c.beatLen, none⟩
def Copy.beatSource (c : Copy) : PRun := ⟨c.beatFrom, c.beatLen, c.beatFrom, c.world, false⟩
def Copy.beatDest (c : Copy) : PRun := ⟨c.beatTo, c.beatLen, c.beatTo, c.world, false⟩

/-- The next beat of a plain copy stays in one page of a core memory on each side, may go there, and reads sound bytes. -/
structure PlainBeat (s : State) (c : Copy) (y : Target) : Prop where
  targets : c.targets = [y]
  kind : c.kind = .plain
  sameFmt : c.sfmt = y.fmt
  noBlock : c.sfmt.isBlock = false
  dst : y.dst = c.dst
  more : 256 * c.beat < c.n
  fromSram : inSram c.beatFrom = true
  toSram : inSram c.beatTo = true
  fromPage : c.beatFrom % 4096 + c.beatLen ≤ 4096
  toPage : c.beatTo % 4096 + c.beatLen ≤ 4096
  readable : s.windowOk c.world c.beatFrom false false = true
  writable : s.windowOk c.world c.beatTo true false = true
  segments : s.eng.segments = []
  sound : ∀ k < c.beatLen, s.mem.damaged (c.beatFrom + k) = false
  noTags : c.keepTags = false

namespace PlainBeat
variable {s : State} {c : Copy} {y : Target} (h : PlainBeat s c y)
include h

theorem len_pos : 0 < c.beatLen := by
  have := h.more
  unfold Copy.beatLen
  omega

theorem conversion_same : conversion c.sfmt y.fmt = .same := by
  rw [← h.sameFmt, conversion, if_pos (beq_self_eq_true _)]

theorem expLen : c.expLen = 0 := by
  unfold Copy.expLen
  rw [h.targets]
  simp [expBytes, writesExp, ← h.sameFmt, h.noBlock]

theorem beats : c.dataBeats = (c.n + 255) / 256 := by
  rw [Copy.dataBeats, h.kind]
  rfl

theorem beat_lt : c.beat < c.dataBeats := by
  have := h.more
  rw [h.beats]
  omega

theorem last_iff : (c.beat + 1 == c.beatCount) = decide (c.n ≤ 256 * c.beat + 256) := by
  have := h.more
  rw [Copy.beatCount, h.expLen, h.beats, Bool.eq_iff_iff, beq_iff_eq, decide_eq_true_eq]
  omega

theorem plan : c.plan y = ([c.beatRun], none) := by
  have hfrom : addrAdd c.src.toNat ((256 * c.beat : Nat) : Int) = c.beatFrom := addrAdd_eq h.fromSram
  have hto : addrAdd c.dst.toNat ((256 * c.beat : Nat) : Int) = c.beatTo := addrAdd_eq h.toSram
  have hscaled (n : Nat) : scaled c.sfmt y.fmt n = n := by
    rw [scaled, h.conversion_same]
    rfl
  unfold Copy.plan
  dsimp only
  rw [if_pos h.beat_lt, if_neg (by simp [h.expLen, readsExp, h.noBlock]), h.kind, h.dst]
  show ([(⟨addrAdd c.dst.toNat ((256 * c.beat : Nat) : Int), min 256 (c.n - 256 * c.beat),
    some (addrAdd c.src.toNat ((scaled c.sfmt y.fmt (256 * c.beat) : Nat) : Int)),
    scaled c.sfmt y.fmt (min 256 (c.n - 256 * c.beat)), none⟩ : Run)], none) = _
  rw [hscaled, hscaled, hfrom, hto]
  rfl

theorem planAll (gid : Option (BitVec 16)) :
    s.planAll c gid c.targets = .ok [⟨[c.beatRun], [c.beatSource], [], [c.beatDest]⟩] := by
  have hsrc := State.resolveAll_sram (gid := none) h.len_pos h.fromSram h.fromPage h.readable
  have hdst := State.resolveAll_sram (gid := gid) h.len_pos h.toSram h.toPage h.writable
  have hpos : (c.beatLen != 0) = true := by simpa using h.len_pos.ne'
  rw [h.targets]
  simp only [State.planAll, h.plan, h.kind]
  simp [srcRuns, dstRuns, Copy.beatRun, hsrc, hdst, hpos, State.resolveAll, Copy.beatSource, Copy.beatDest]

/-- A beat between core memories walks no page table (R240). -/
theorem walkOf : s.walkOf c c.touches = none := by
  have htouch : c.touches = [(c.beatFrom, c.beatLen), (c.beatTo, c.beatLen)] := by
    rw [Copy.touches, h.targets]
    simp only [List.flatMap_cons, List.flatMap_nil, h.plan]
    rfl
  rw [State.walkOf, htouch]
  simp [pagesOf_single h.len_pos h.fromPage, pagesOf_single h.len_pos h.toPage, h.fromSram, h.toSram]

theorem output (bs : List Byte) (hbs : bs.length = c.beatLen) : c.output y [c.beatRun] bs [] = ([(c.beatTo, bs)], []) := by
  have hblocks : withBlocks c.sfmt y.fmt = false := by simp [withBlocks, ← h.sameFmt, h.noBlock]
  have hassemble : assemble c.sfmt y [c.beatRun] bs none = [(c.beatTo, bs)] := by
    simp [assemble, Copy.beatRun, h.conversion_same, ← hbs]
  unfold Copy.output
  rw [if_neg (by simpa using h.beat_lt), h.kind]
  dsimp only
  rw [if_neg (by simp [hblocks]), hassemble]

end PlainBeat

/-- The path base of a beat of one piece on each side (R271). -/
def Copy.beatPath (c : Copy) : Nat := pathBase (ioEngine c.engine) c.asker.core? (some (placeOf c.beatFrom)) (placeOf c.beatTo)

theorem beatBase_single (s : State) (c : Copy) : beatBase c [c.beatSource] [c.beatDest] s = c.beatPath := by
  simp [beatBase, Copy.beatSource, Copy.beatDest, Copy.beatPath]

/-- The cycle in which a beat that reads in cycle `tb` lands, one beat a cycle, and its target after it (R271). -/
def Copy.landsAt (c : Copy) (y : Target) (tb : Nat) : Nat := max (tb + c.beatPath + y.lag) (y.lastLand + 1)
def Copy.sentTo (c : Copy) (y : Target) (tb : Nat) : Target :=
  { y with lag := y.lag + (c.landsAt y tb - (tb + c.beatPath + y.lag)), lastLand := c.landsAt y tb }

/-- A beat on its way, and its copy's target moved on. -/
def State.sent (s : State) (c : Copy) (y : Target) (l : Land) : State :=
  ({ s with nextId := s.nextId + 1, eng := { s.eng with lands := s.eng.lands ++ [l] } } : State).modCopy c.id fun x =>
    { x with targets := x.targets.set 0 (c.sentTo y s.tb) }

/-- An access that touches no HBM waits for no slot (R394). -/
theorem State.takeSlot_sram {s : State} {rs : List PRun} (h : ∀ r ∈ rs, inSram r.pa = true) (world cls c : Nat) :
    s.takeSlot world cls rs c = (true, c, s) := by
  have hnone : (rs.find? fun r => placeOf r.pa == .hbm) = none :=
    List.find?_eq_none.mpr fun r hr => by simpa using placeOf_ne_hbm (h r hr)
  rw [State.takeSlot, hnone]

namespace PlainBeat
variable {s : State} {c : Copy} {y : Target} (h : PlainBeat s c y)
include h

/-- A beat sent is one more landing, and its target has moved on. -/
theorem sendBeat (bs : List Byte) (hbs : bs.length = c.beatLen) (cls : Nat) : ∃ l : Land,
    s.sendBeat c 0 y [c.beatDest] [c.beatRun] [c.beatSource] bs [] cls = s.sent c y l
    ∧ l.copy = c.id ∧ l.cycle = c.landsAt y s.tb ∧ l.pieces = [(c.beatTo, bs)] ∧ l.bytes = c.beatLen
    ∧ l.last = decide (c.n ≤ 256 * c.beat + 256) ∧ l.tags = [] ∧ l.words = [] := by
  have hslot := State.takeSlot_sram (s := s) (rs := [c.beatDest]) (by simpa [Copy.beatDest] using h.toSram) c.world cls
  unfold State.sendBeat State.landAt
  rw [h.output bs hbs, beatBase_single, h.kind]
  dsimp only
  rw [hslot]
  refine ⟨_, congrArg (State.modCopy _ c.id) (funext fun x => ?_), rfl, rfl, ?_, ?_, h.last_iff, ?_, rfl⟩
  · simp only [beq_self_eq_true, if_true, List.append_nil]
    rfl
  · simp [spread, Copy.beatDest, ← hbs]
  · simp [Copy.beatRun]
  · simp [State.movedTags, h.noTags]

/-- Nothing stops the beat: it is sent, and its copy goes on to the next one. -/
theorem readBeat : let u := s.sendBeat c 0 y [c.beatDest] [c.beatRun] [c.beatSource] (s.mem.read c.beatFrom c.beatLen) [] (s.copyClass c)
    s.readBeat c = u.modCopy c.id fun x => { x with beat := x.beat + 1, at_ := u.tb + 1, ovr := x.ovr + c.overruns } := by
  intro u
  have hplan := h.planAll
  rw [h.targets] at hplan
  have hmissing : s.missingPiece [c.beatSource] = none := by simp [State.missingPiece, h.segments]
  have hlines : linesOf [c.beatSource] = linesOf [] := by
    simp [linesOf, Copy.beatSource, placeOf_ne_hbm h.fromSram]
  have hslot : s.takeSlot c.world (s.copyClass c) [] s.tb = (true, s.tb, s) := rfl
  have hbad : s.badRead [c.beatSource] = none := by
    simp [State.badRead, Copy.beatSource, placeOf_ne_hbm h.fromSram, Mem.firstDamage_eq_none h.sound]
  have hread : s.readPieces [c.beatSource] = s.mem.read c.beatFrom c.beatLen := by simp [State.readPieces, Copy.beatSource]
  unfold State.readBeat
  rw [h.walkOf, h.targets]
  dsimp only
  rw [hplan]
  simp only [List.flatMap_cons, List.flatMap_nil, List.append_nil, List.foldl_cons, List.foldl_nil, hlines, lt_irrefl, if_false,
    hmissing, List.find?_nil, bne_self_eq_false, Bool.false_eq_true, hslot, hbad]
  unfold u
  rw [← hread]
  rfl

/-- COPY_BEAT_READ of such a beat: its bytes are on their way, and its copy goes on to the next beat. -/
theorem exec_copyBeatRead {id : Nat} (hc : s.copy? id = some c) (hdoom : c.doom = none) : ∃ t l,
    exec (.copyBeatRead id) s = .next t ∧ t.eng.lands = s.eng.lands ++ [l] ∧ l.copy = id ∧ l.cycle = c.landsAt y s.tb
    ∧ l.pieces = [(c.beatTo, s.mem.read c.beatFrom c.beatLen)] ∧ l.bytes = c.beatLen
    ∧ l.last = decide (c.n ≤ 256 * c.beat + 256) ∧ l.tags = [] ∧ l.words = []
    ∧ t.mem = s.mem ∧ t.core = s.core ∧ t.others = s.others
    ∧ t.copy? id = some { c with beat := c.beat + 1, at_ := s.tb + 1, targets := [c.sentTo y s.tb] } := by
  obtain rfl := State.copy?_id hc
  obtain ⟨l, hsend, hcopy, hcycle, hpieces, hbytes, hlast, htags, hwords⟩ :=
    h.sendBeat _ (Mem.read_length s.mem c.beatFrom c.beatLen) (s.copyClass c)
  have hexec : exec (.copyBeatRead c.id) s = .next
      ((s.sent c y l).modCopy c.id fun x => { x with beat := x.beat + 1, at_ := s.tb + 1, ovr := x.ovr + c.overruns }) := by
    show execCopyBeatRead c.id s = _
    rw [execCopyBeatRead, hc]
    dsimp only
    rw [hdoom, h.readBeat, hsend]
    rfl
  refine ⟨_, l, hexec, rfl, hcopy, hcycle, hpieces, hbytes, hlast, htags, hwords, rfl, rfl, rfl, ?_⟩
  have hover : c.overruns = 0 := by rw [Copy.overruns, h.kind]
  have hfound : State.copy? { s with nextId := s.nextId + 1, eng := { s.eng with lands := s.eng.lands ++ [l] } } c.id = some c := hc
  rw [State.modCopy_copy? _ _ (by intro; rfl), State.sent, State.modCopy_copy? _ _ (by intro; rfl), hfound]
  simp [h.targets, hover]

end PlainBeat

end Sys2Proof.Machine
end

section
namespace Sys2Proof.Machine
open Sys2Proof

/-! ### What a landing leaves in memory (R104, R272, R274, R284, R332) -/

theorem Mem.get_congr {m n : Mem} (h : m.bytes = n.bytes) (a : Nat) : m.get a = n.get a := by
  rw [Mem.get, Mem.get, h]

theorem Mem.untag_bytes (m : Mem) (a n : Nat) : (m.untag a n).bytes = m.bytes := by
  unfold Mem.untag
  split <;> rfl

theorem Mem.clearPoison_bytes (m : Mem) (u : Nat) : (m.clearPoison u).bytes = m.bytes := by
  unfold Mem.clearPoison
  split <;> rfl

/-- The marks that a piece clears are no bytes. -/
theorem Mem.landPiece_bytes (m : Mem) (a : Nat) (bs : List Byte) : (m.landPiece a bs).bytes = (m.write a bs).bytes := by
  unfold Mem.landPiece
  dsimp only
  split
  · exact Mem.untag_bytes _ _ _
  · refine List.foldlRecOn (motive := fun n : Mem => n.bytes = _) _ _ (Mem.untag_bytes _ _ _) fun n hn k _ => ?_
    rw [apply_ite Mem.bytes, Mem.clearPoison_bytes, ite_self]
    exact hn

/-- Capability tags set. -/
def Mem.setCapTags (m : Mem) (gs : List Nat) : Mem := gs.foldl (fun m g => m.setCapTag g true) m

theorem Mem.setCapTags_keeps (m : Mem) (gs : List Nat) :
    (m.setCapTags gs).bytes = m.bytes ∧ ∀ a, (m.setCapTags gs).damaged a = m.damaged a :=
  List.foldlRecOn (motive := fun n : Mem => n.bytes = m.bytes ∧ ∀ a, n.damaged a = m.damaged a) gs _ ⟨rfl, fun _ => rfl⟩
    fun _ hn _ _ => ⟨hn.1, fun a => hn.2 a⟩

theorem Mem.setSeqTags_bytes (m : Mem) (gs : List Nat) (t : BitVec 16) : (gs.foldl (fun m g => m.setSeqTag g t) m).bytes = m.bytes :=
  List.foldlRecOn (motive := fun n : Mem => n.bytes = m.bytes) gs _ rfl fun _ hn _ _ => hn

/-- Whether the additions of a copy are of integers. -/
def Copy.addsInt (c : Copy) : Bool := match c.kind with
  | .add int => int
  | _ => false

/-- Memory after a landing between core memories, and the first word that CPYA found uncorrectable. -/
def Mem.landed (m : Mem) (l : Land) (c : Copy) : Mem × Option Nat :=
  ((l.pieces.foldl (fun m p => m.landPiece p.1 p.2) m).setCapTags l.tags).addAll c.addsInt l.words

section
variable {m : Mem} (hm : m.wf = true) {l : Land} {c : Copy}
include hm

/-- A landing of one piece writes its bytes and no others. -/
theorem Mem.landed_piece {a : Nat} {bs : List Byte} (hp : l.pieces = [(a, bs)]) (hw : l.words = []) (b : Nat) :
    (m.landed l c).1.get b = if a ≤ b ∧ b < a + bs.length then bs.getD (b - a) 0 else m.get b := by
  rw [Mem.landed, hp, hw, Mem.addAll]
  exact (Mem.get_congr ((Mem.setCapTags_keeps _ _).1.trans (Mem.landPiece_bytes _ _ _)) b).trans (Mem.get_write hm _ _ _)

/-- CPYA adds to its word and to no other. -/
theorem Mem.landed_word {a : Nat} {x : W32} {int : Bool} (hk : c.kind = .add int) (hp : l.pieces = []) (hw : l.words = [(a, x)])
    (hd : m.damaged a = false) :
    (m.landed l c).1.word a = (if int then m.word a + x else addF32 (m.word a) x) ∧
      ∀ b, b < a ∨ a + 4 ≤ b → (m.landed l c).1.get b = m.get b := by
  obtain ⟨hbytes, hdamaged⟩ := m.setCapTags_keeps l.tags
  have hint : c.addsInt = int := by rw [Copy.addsInt, hk]
  have hland : (m.landed l c).1 = (m.setCapTags l.tags).setWord a (if int then m.word a + x else addF32 (m.word a) x) := by
    rw [Mem.landed, hp, hw, hint]
    simp [Mem.addAll, hdamaged, hd, Mem.word_congr fun k _ => Mem.get_congr hbytes (a + k)]
  have hwf : (m.setCapTags l.tags).wf = true := by rw [Mem.wf, hbytes]; exact hm
  rw [hland]
  refine ⟨Mem.word_setWord hwf _ _, fun b hb => ?_⟩
  rw [Mem.get_setWord hwf, if_neg (by omega), Mem.get_congr hbytes]

end

/-! ### What a landing leaves besides -/

/-- From `s` to `t` no byte of memory changes, nor the dispatcher, the worlds and the channels; nothing leaves the agenda. -/
structure Settles (s t : State) : Prop where
  bytes : t.mem.bytes = s.mem.bytes
  disp : t.disp = s.disp
  worlds : t.worlds = s.worlds
  tb : t.tb = s.tb
  agenda : ∀ e ∈ s.agenda, e ∈ t.agenda
  wm : ∀ k, (t.getCore k).wm = (s.getCore k).wm
  launches : t.eng.launches = s.eng.launches

namespace Settles
variable {r s t : State}

theorem refl (s : State) : Settles s s := ⟨rfl, rfl, rfl, rfl, fun _ h => h, fun _ => rfl, rfl⟩

theorem trans (h : Settles r s) (g : Settles s t) : Settles r t where
  bytes := g.bytes.trans h.bytes
  disp := g.disp.trans h.disp
  worlds := g.worlds.trans h.worlds
  tb := g.tb.trans h.tb
  agenda e he := g.agenda e (h.agenda e he)
  wm k := (g.wm k).trans (h.wm k)
  launches := g.launches.trans h.launches

theorem modEng (s : State) {f : Engines → Engines} (h : (f s.eng).launches = s.eng.launches) : Settles s (s.modEng f) :=
  ⟨rfl, rfl, rfl, rfl, fun _ h => h, fun _ => rfl, h⟩

theorem modCopy (s : State) (id : Nat) (f : Copy → Copy) : Settles s (s.modCopy id f) := modEng s rfl

theorem modMem (s : State) {f : Mem → Mem} (h : (f s.mem).bytes = s.mem.bytes) : Settles s (s.modMem f) :=
  ⟨h, rfl, rfl, rfl, fun _ h => h, fun _ => rfl, rfl⟩

theorem at_ (s : State) (c : Nat) (i : Instr) : Settles s (s.at_ c i) :=
  ⟨rfl, rfl, rfl, rfl, fun _ h => List.mem_append_left _ h, fun _ => rfl, rfl⟩

theorem setCore (s : State) (i : Nat) {c : Core} (h : c.wm = (s.getCore i).wm) : Settles s (s.setCore i c) := by
  obtain ⟨htb, hmem, hdisp, heng, hagenda, hworlds, -⟩ := s.setCore_leaves i c
  refine ⟨by rw [hmem], hdisp, hworlds, htb, fun e he => by rwa [hagenda], fun k => ?_, by rw [heng]⟩
  by_cases hk : k = i
  · rw [hk, State.getCore_setCore_self, h]
  · rw [State.getCore_setCore_ne _ hk]

theorem record (s : State) (c : Copy) (st : CopyState) : Settles s (s.record c st) := by
  obtain h | ⟨i, r, h⟩ := s.record_cases c st
  · rw [h]
    exact refl s
  · rw [h]
    exact setCore s i rfl

end Settles

theorem State.mem_at_ (s : State) (c : Nat) (i : Instr) : (c, i) ∈ (s.at_ c i).agenda := List.mem_append_right _ (List.mem_singleton_self _)

/-! ### A beat lands (R272, R273) -/

theorem Land.split_sram {l : Land} (h : ∀ p ∈ l.pieces, placeOf p.1 ≠ .hbm) : l.split = l.pieces := by
  have hp : ∀ p ∈ l.pieces, (if placeOf p.1 == .hbm then lineSplit p.1 p.2 (p.2.length + 1) else [p]) = [p] :=
    fun p hp => if_neg (by simpa using h p hp)
  exact (List.flatMap_congr hp).trans (List.flatMap_singleton' _)

theorem State.landAll_sram {l : Land} (h : ∀ p ∈ l.pieces, placeOf p.1 ≠ .hbm) (s : State) (world : Nat) :
    s.landAll world l = s.modMem fun m => l.pieces.foldl (fun m p => m.landPiece p.1 p.2) m := by
  rw [State.landAll, Land.split_sram h]
  generalize l.pieces = ps at h
  induction ps generalizing s with
  | nil => rfl
  | cons p ps ih =>
    have hne : ¬ (placeOf p.1 == .hbm) = true := by simpa using h p List.mem_cons_self
    rw [List.foldl_cons]
    dsimp only
    rw [if_neg hne, ih _ fun q hq => h q (List.mem_cons_of_mem _ hq)]
    rfl

/-- A target after a beat has landed there, and its copy, which a sick word of CPYA dooms (R284). -/
def Target.landed (y : Target) (l : Land) : Target := { y with beats := y.beats + 1, doneb := y.doneb + (if l.expBeat then 0 else l.bytes) }
def Copy.landed (c : Copy) (l : Land) (y : Target) (tb : Nat) (sick : Option Nat) : Copy :=
  { c with targets := [y.landed l], doom := sick.map fun a => (tb + 1, .ucdata, BitVec.ofNat 64 a) }

/-- The state with a landing over and memory `m`; and then with the copy as `c`, the channel raised and the record written. -/
def State.withLanding (s : State) (land : Nat) (m : Mem) : State :=
  { s with mem := m, eng := { s.eng with lands := s.eng.lands.filter (·.id != land) } }
def State.beatLanded (s : State) (land : Nat) (l : Land) (c : Copy) (y : Target) (m : Mem) : State :=
  ((((s.withLanding land m).modCopy c.id fun _ => c).raiseLevel c y l.bytes l.expBeat).record c .issued)

theorem CoresOnly.beatLanded (s : State) (land : Nat) (l : Land) (c : Copy) (y : Target) (m : Mem) :
    CoresOnly ((s.withLanding land m).modCopy c.id fun _ => c) (s.beatLanded land l c y m) :=
  (CoresOnly.raiseLevel _ _ _ _ _).trans (.record _ _ _)

section
variable {s : State} {land : Nat} {l : Land} {c : Copy} {y : Target} {m : Mem} {sick : Option Nat}
  (hl : s.eng.lands.find? (fun z => z.id == land) = some l) (hc : s.copy? l.copy = some c) (ht : c.targets = [y])
  (h0 : l.target = 0) (hd : c.doom = none) (hp : ∀ p ∈ l.pieces, placeOf p.1 ≠ .hbm) (hb : s.bankBusy l.pieces = false)
  (hs : c.state = .issued) (hm : s.mem.landed l c = (m, sick))
include hl hc ht h0 hd hp hb hs hm

/-- COPY_BEAT_LAND between core memories: the last beat completes its target, where CPYA has met no uncorrectable word. -/
theorem exec_copyBeatLand :
    let v := c.landed l y s.tb sick
    let u := s.beatLanded land l v (y.landed l) m
    exec (.copyBeatLand land) s = .next (if l.last = true ∧ sick = none then u.completeTarget v 0 (y.landed l) else u) := by
  intro v u
  have hhbm : (l.pieces.any fun p => placeOf p.1 == .hbm) = false := by simpa using hp
  have hbad (t : State) : t.badLanding c.world l = none := by
    rw [State.badLanding, Land.split_sram hp, List.find?_eq_none.mpr fun p h => by simp [hp p h]]
    rfl
  show execCopyBeatLand land s = _
  rw [execCopyBeatLand, hl]
  dsimp -zeta only
  rw [hc]
  dsimp -zeta only
  rw [h0, ht]
  dsimp -zeta only [List.getElem?_cons_zero]
  extract_lets cls hbm s1 s2 s3 int s4 y' c' s5 s6 s7
  rw [if_neg (by simp [hb]), if_neg (by simp [hbm, hhbm]), hbad]
  have hland : s2 = s1.modMem fun m => l.pieces.foldl (fun m p => m.landPiece p.1 p.2) m := State.landAll_sram hp s1 c.world
  have hadd : s3.mem.addAll int l.words = (m, sick) := by
    rw [← hm]
    unfold s3
    rw [hland]
    rfl
  have hmem : s4 = s.withLanding land m := by
    unfold s4
    rw [hadd]
    unfold s3
    rw [hland]
    rfl
  have hdoom : c'.doom = v.doom := by
    unfold c'
    dsimp only
    rw [hadd, hd, hmem]
    cases sick <;> rfl
  have hv : c' = v := by
    unfold v Copy.landed
    rw [show sick.map (fun a => (s.tb + 1, Cause.ucdata, BitVec.ofNat 64 a)) = c'.doom from hdoom.symm]
    rfl
  have hnow : (v.doom.any fun d => d.1 == 0) = false := by
    unfold v
    cases sick <;> rfl
  have hu : s7 = u := by
    unfold s7 s6 s5
    rw [hv, hmem, hnow, show v.state = .issued from hs]
    rfl
  have htb : u.tb = s.tb := (CoresOnly.beatLanded s land l v (y.landed l) m).tb
  rw [hu, hv]
  dsimp only
  cases l.last
  · rfl
  · cases sick with
    | none => rfl
    | some a => exact congrArg Host.Outcome.next (if_neg (by rw [htb]; omega))

end

end Sys2Proof.Machine
end

section
namespace Sys2Proof.Machine
open Sys2Proof

/-! ### A copy completes (R273, R274, R285) -/

/-! The parts of a completion. -/

/-- The sequence tags of the granules that the copy has written. -/
def State.tagDestination (s : State) (c : Copy) (y : Target) : State :=
  if cardTen c.card && c.op != 8 then
    s.modMem fun m => (tagGranules (s.regionOf c y ++ (if c.expLen == 0 then [] else [(s.physOf c.world c.expDst.toNat, 0, c.expLen)]))).foldl
      (fun m g => m.setSeqTag g (cardTag c.card)) m
  else s
/-- CFCH's segment is present. -/
def State.fillSegment (s : State) (c : Copy) : State := match c.kind, c.asker with
  | .fetch seg, .core i => s.modCore i fun x => { x with bnd := { x.bnd with segs := x.bnd.segs.set seg.toNat ⟨true, cardTag c.card⟩ seg.isLt } }
  | _, _ => s
/-- The increment of the semaphore. -/
def State.countSemaphore (s : State) (c : Copy) (y : Target) : State := match c.semaphore y with
  | some (pa, d) => s.sendInc c pa d
  | none => s
/-- The copy as it has settled in cycle `l`. -/
def State.noteSettled (s : State) (c : Copy) (l : Nat) : State :=
  (s.modCopy c.id fun _ => c).modEng fun e => { e with settled := (e.settled.filter fun x => x.1 == l) ++ [(l, c)] }
/-- The landing at the phase unit. -/
def State.landInPhase (s : State) (c : Copy) (l : Nat) : State := match c.phase, c.asker with
  | some (lv, p), .core i => s.at_ (l + s.phaseA lv.toNat) (.phaseCopyLanding ((s.jetton c.jetton).domain c.jetton i lv.toNat) c.id p)
  | _, _ => s

theorem Settles.tagDestination (s : State) (c : Copy) (y : Target) : Settles s (s.tagDestination c y) := by
  unfold State.tagDestination
  split
  · exact .modMem s (Mem.setSeqTags_bytes _ _ _)
  · exact .refl s

theorem Settles.fillSegment (s : State) (c : Copy) : Settles s (s.fillSegment c) := by
  unfold State.fillSegment
  split
  · exact .setCore s _ rfl
  · exact .refl s

theorem Settles.countSemaphore (s : State) (c : Copy) (y : Target) : Settles s (s.countSemaphore c y) := by
  unfold State.countSemaphore
  split
  · exact (Settles.modEng s rfl).trans (.at_ _ _ _)
  · exact .refl s

theorem Settles.noteSettled (s : State) (c : Copy) (l : Nat) : Settles s (s.noteSettled c l) :=
  (Settles.modCopy s _ _).trans (.modEng _ rfl)

theorem Settles.landInPhase (s : State) (c : Copy) (l : Nat) : Settles s (s.landInPhase c l) := by
  unfold State.landInPhase
  split
  · exact .at_ s _ _
  · exact .refl s

/-- A copy whose one target is complete. -/
def Copy.completed (c : Copy) (y : Target) (l : Nat) : Copy := { c with targets := [{ y with complete := true, lastLand := l }] }

/-- The parts up to the settled copy. -/
def State.completing (s : State) (c : Copy) (y : Target) : State :=
  (((s.tagDestination c y).fillSegment c).countSemaphore c y).noteSettled (c.completed y s.tb) s.tb

theorem Settles.completing (s : State) (c : Copy) (y : Target) : Settles s (s.completing c y) :=
  (((Settles.tagDestination s c y).trans (.fillSegment _ c)).trans (.countSemaphore _ c y)).trans (.noteSettled _ _ _)

theorem Copy.hr_core {c : Copy} {y : Target} {i j : Nat} (ha : c.asker = .core i) (hy : y.core = some j) : c.hr y = homeCost j i := by
  rw [Copy.hr, ha, hy]

/-- A completion that is to count in a word of the issuing core, or of the core it has written, is on its way there (R274). -/
theorem State.countSemaphore_due {s : State} {c : Copy} {y : Target} {i : Nat} (ha : c.asker = .core i) (hy : y.core = some i)
    (hs : cardSen c.card = 1 ∨ cardSen c.card = 2) :
    ∃ d, 1 ≤ d ∧ (s.tb + d, .copySemaphoreIncrement (accBase i + 4 * cardSemw c.card)) ∈ (s.countSemaphore c y).agenda := by
  have hsem : ∃ d, 1 ≤ d ∧ c.semaphore y = some (accBase i + 4 * cardSemw c.card, d) := by
    obtain h1 | h2 := hs
    · exact ⟨1 + c.hr y, by omega, by rw [Copy.semaphore, ha]; exact if_pos (by simp [h1])⟩
    · refine ⟨1, le_rfl, ?_⟩
      rw [Copy.semaphore, ha, hy]
      simp [h2]
  obtain ⟨d, hd, hsem⟩ := hsem
  refine ⟨d, hd, ?_⟩
  rw [State.countSemaphore, hsem]
  exact List.mem_append_right _ (List.mem_singleton_self _)

/-- What core `i`'s copy `c` leaves that completes in cycle `l`: its record, its semaphore and its follow-on on their way. -/
structure Completes (c : Copy) (i l : Nat) (t : State) : Prop where
  record : (l + homeCost i i, .copyRecordLanded i (cardWm c.card) c.id) ∈ t.agenda
  semaphore : cardSen c.card = 1 ∨ cardSen c.card = 2 →
    ∃ d, 1 ≤ d ∧ (l + d, .copySemaphoreIncrement (accBase i + 4 * cardSemw c.card)) ∈ t.agenda
  gone : c.followBusy = false → t.copy? c.id = none
  follow : c.followBusy = true → (l + 1, .followOnPresent c.id) ∈ t.agenda

section
variable {s : State} {c : Copy} {y : Target} {i : Nat} (ht : c.targets = [y]) (hd : c.doom = none) (ha : c.asker = .core i)
  (hy : y.core = some i) (hl : ∀ x ∈ s.eng.launches, x.id ≠ c.id)
include ht hd ha hy hl

/-- A copy of a core completes with its one target: its record is due when the landing has come back, and a follow-on keeps it. -/
theorem State.completeTarget_single :
    let t := ((s.completing c y).landInPhase (c.completed y s.tb) s.tb).at_ (s.tb + homeCost i i) (.copyRecordLanded i (cardWm c.card) c.id)
    s.completeTarget c 0 y = if c.followBusy then (t.modCopy c.id fun x => { x with state := .landed }).at_ (s.tb + 1) (.followOnPresent c.id)
      else (t.accessDone c.id s.tb).modEng fun e => { e with copies := e.copies.filter (·.id != c.id) } := by
  intro t
  have hlaunch : ((s.completing c y).eng.launches.any fun x => x.id == c.id) = false := by
    rw [(Settles.completing s c y).launches]
    simpa using hl
  rw [State.completeTarget, if_neg (by simp [hd])]
  extract_lets l region s1 s2 s3 c' s4 s5 shown s6
  have hc : c' = c.completed y s.tb := by
    unfold c'
    rw [ht]
    rfl
  have hs4 : s4 = s.completing c y := by
    unfold s4
    rw [hc]
    rfl
  have hshown : shown = s.tb + homeCost i i := by
    unfold shown
    rw [hc]
    show max s.tb (s.tb + (c.completed y s.tb).hr _) = _
    rw [Copy.hr_core (c := c.completed y s.tb) ha (by exact hy)]
    omega
  have hs6 : s6 = t := by
    unfold s6 s5
    rw [hs4, hc, hshown, show (c.completed y s.tb).asker = .core i from ha]
    unfold t State.landInPhase
    rw [show (c.completed y s.tb).asker = .core i from ha]
    rfl
  rw [hs4, hs6, hc]
  exact (if_neg (Bool.not_eq_true _ ▸ hlaunch)).trans (if_pos rfl)

theorem State.completeTarget_settles : Settles s (s.completeTarget c 0 y) ∧ Completes c i s.tb (s.completeTarget c 0 y) := by
  have hpre := (Settles.tagDestination s c y).trans (.fillSegment _ c)
  have hcount := Settles.countSemaphore ((s.tagDestination c y).fillSegment c) c y
  have hrest := (Settles.noteSettled (((s.tagDestination c y).fillSegment c).countSemaphore c y) (c.completed y s.tb) s.tb).trans
    ((Settles.landInPhase _ (c.completed y s.tb) s.tb).trans (.at_ _ (s.tb + homeCost i i) (.copyRecordLanded i (cardWm c.card) c.id)))
  have heq := State.completeTarget_single ht hd ha hy hl
  dsimp only at heq
  generalize s.completeTarget c 0 y = t at heq ⊢
  have hrecord := State.mem_at_ ((s.completing c y).landInPhase (c.completed y s.tb) s.tb) (s.tb + homeCost i i)
    (.copyRecordLanded i (cardWm c.card) c.id)
  rw [← State.completing] at hrest
  generalize ((s.completing c y).landInPhase (c.completed y s.tb) s.tb).at_ (s.tb + homeCost i i)
    (.copyRecordLanded i (cardWm c.card) c.id) = u at heq hrecord hrest
  have hut : Settles u t := by
    rw [heq]
    split
    · exact (Settles.modCopy u _ _).trans (.at_ _ _ _)
    · exact (Settles.modEng u rfl).trans (.modEng _ rfl)
  refine ⟨hpre.trans (hcount.trans (hrest.trans hut)), hut.agenda _ hrecord, fun hs => ?_, fun hf => ?_, fun hf => ?_⟩
  · obtain ⟨d, hd, hmem⟩ := State.countSemaphore_due (s := (s.tagDestination c y).fillSegment c) ha hy hs
    rw [hpre.tb] at hmem
    exact ⟨d, hd, hut.agenda _ (hrest.agenda _ hmem)⟩
  · rw [heq, hf, if_neg Bool.false_ne_true]
    exact List.find?_eq_none.mpr fun x hx => by simpa using (List.mem_filter.mp hx).2
  · rw [heq, if_pos hf]
    exact State.mem_at_ _ _ _

end

end Sys2Proof.Machine
end

section
namespace Sys2Proof.Machine
open Sys2Proof

/-! ### The watermark, and the statement -/

/-- A beat's bytes raise the channel that its copy binds (R273). -/
theorem State.raiseLevel_wm {s : State} {c : Copy} {y : Target} {i : Nat} (hy : y.core = some i) (n : Nat) :
    let k := cardWm c.card; let ch := (s.getCore i).wm[k.toNat]'k.isLt
    ch.act = true → ch.copy = c.id →
      ((s.raiseLevel c y n false).getCore i).wm[k.toNat]'k.isLt = { ch with level := ch.level + n } := by
  intro k ch hact hcopy
  have hbound : (ch.act && ch.copy == c.id) = true := by simp [hact, hcopy]
  have hcore : (s.raiseLevel c y n false).getCore i = bindChannel (s.getCore i) k { ch with level := ch.level + n } := by
    rw [State.raiseLevel, hy]
    exact (s.getCore_modCore_self i _).trans (if_pos hbound)
  simp only [hcore, bindChannel, Vector.getElem_set_self]

theorem State.beatLanded_wm {s : State} {land : Nat} {l : Land} {c : Copy} {y : Target} {m : Mem} {i : Nat} (hy : y.core = some i)
    (hexp : l.expBeat = false) : let k := cardWm c.card; let ch := (s.getCore i).wm[k.toNat]'k.isLt
    ch.act = true → ch.copy = c.id →
      ((s.beatLanded land l c y m).getCore i).wm[k.toNat]'k.isLt = { ch with level := ch.level + l.bytes } := by
  intro k ch hact hcopy
  have hrecord := (Settles.record (((s.withLanding land m).modCopy c.id fun _ => c).raiseLevel c y l.bytes l.expBeat) c .issued).wm i
  rw [hexp] at hrecord
  have hraise := State.raiseLevel_wm (s := (s.withLanding land m).modCopy c.id fun _ => c) hy l.bytes hact hcopy
  unfold State.beatLanded
  rw [hexp]
  simp only [hrecord]
  exact hraise

/-- A landing settles what the beat has left, and the last beat completes the copy unless CPYA has met an uncorrectable word. -/
theorem exec_copyBeatLand_settles {s : State} {land i : Nat} {l : Land} {c : Copy} {y : Target}
    (hl : s.eng.lands.find? (fun z => z.id == land) = some l) (hc : s.copy? l.copy = some c) (ht : c.targets = [y])
    (h0 : l.target = 0) (hd : c.doom = none) (hlaunch : ∀ x ∈ s.eng.launches, x.id ≠ c.id) (hp : ∀ p ∈ l.pieces, placeOf p.1 ≠ .hbm)
    (hb : s.bankBusy l.pieces = false) (ha : c.asker = .core i) (hy : y.core = some i) (hs : c.state = .issued) :
    ∃ t sick, let u := s.beatLanded land l (c.landed l y s.tb sick) (y.landed l) (s.mem.landed l c).1
      exec (.copyBeatLand land) s = .next t ∧ Settles u t ∧ (l.last = false → t = u)
      ∧ (l.last = true → l.words = [] → Completes c i s.tb t) := by
  obtain ⟨m, sick, hm⟩ : ∃ m sick, s.mem.landed l c = (m, sick) := ⟨_, _, rfl⟩
  have hexec := exec_copyBeatLand hl hc ht h0 hd hp hb hs hm
  have hcores := CoresOnly.beatLanded s land l (c.landed l y s.tb sick) (y.landed l) m
  rw [hm]
  dsimp only at hexec
  generalize hu : s.beatLanded land l (c.landed l y s.tb sick) (y.landed l) m = u at hexec hcores
  have hcomplete (hsick : sick = none) := State.completeTarget_settles (s := u) (c := c.landed l y s.tb sick) (y := y.landed l) rfl
    (by rw [hsick]; rfl) ha hy (by rw [hcores.eng]; exact hlaunch)
  refine ⟨_, sick, hexec, ?_, fun h => ?_, fun h hw => ?_⟩
  · dsimp only
    rw [hu]
    split
    next h => exact (hcomplete h.2).1
    next => exact .refl u
  · exact (if_neg (by simp [h])).trans hu.symm
  · have hsick : sick = none := by
      rw [Mem.landed, hw] at hm
      exact (congrArg Prod.snd hm).symm
    obtain ⟨-, hrecord, hsem, hgone, hfollow⟩ := hcomplete hsick
    rw [hcores.tb] at hrecord hsem hfollow
    rw [if_pos ⟨h, hsick⟩]
    exact ⟨hrecord, hsem, hgone, hfollow⟩

/-- Settles O32: an issue by what it keeps, a beat's read by the one piece that it sends, and a landing by the memory it leaves and by
whether it is the last. -/
theorem copyBeatsMoveTheirBytes : Obligations.CopyBeatsMoveTheirBytes := by
  unfold Obligations.CopyBeatsMoveTheirBytes
  refine ⟨fun s id c hc => ⟨?_, ?_⟩, ?_⟩
  · obtain ⟨t, hexec, hkeeps, hlands⟩ := exec_copyEngineIssue hc
    have hfound : t.copy? id = some (c.taken s.tb) := by
      rw [State.copy?, hkeeps.copies]
      exact State.modCopy_found hc (show c.id = id from State.copy?_id hc)
    exact ⟨t, _, hexec, hfound, rfl, hkeeps.mem, hkeeps.disp, hkeeps.worlds,
      fun y hy hne => hkeeps.copies ▸ State.mem_modCopy hy hne _, hlands⟩
  · intro y bs hdoom ht hk hf hblock pos len from_ dest hdst hmore hfrom hto hfromPage htoPage hread hwrite hseg hsound hbs htags nominal at_
    have hbeat : PlainBeat s c y := ⟨ht, hk, hf, hblock, hdst, hmore, hfrom, hto, hfromPage, htoPage, hread, hwrite, hseg, hsound, htags⟩
    obtain ⟨t, l, hexec, hlands, hcopy, hcycle, hpieces, hbytes, hlast, hltags, hwords, hmem, hcore, hothers, hfound⟩ :=
      hbeat.exec_copyBeatRead hc hdoom
    exact ⟨t, l, hexec, hlands, hcopy, hcycle, hbs ▸ hpieces, hbytes, hlast, hltags, hwords, hmem, hcore, hothers, hfound⟩
  · intro s id a b i bs l c y hg hl hc ht h0 hd hlaunch hp hb ha hy hs
    obtain ⟨hwf, -⟩ := hg
    obtain ⟨t, sick, hexec, hut, hmore, hlast⟩ := exec_copyBeatLand_settles hl hc ht h0 hd hlaunch hp hb ha hy hs
    have hcores := CoresOnly.beatLanded s id l (c.landed l y s.tb sick) (y.landed l) (s.mem.landed l c).1
    have hbytes : t.mem.bytes = (s.mem.landed l c).1.bytes := by rw [hut.bytes, hcores.mem]; rfl
    refine ⟨t, hexec, hut.disp.trans hcores.disp, hut.worlds.trans hcores.worlds, fun h hw => ?_, fun x int hk h hw hdam => ?_, ?_,
      fun h => ?_, fun h hw hf => ?_, fun h hw hf => (hlast h hw).follow hf⟩
    · exact (Mem.get_congr hbytes b).trans (Mem.landed_piece hwf h hw b)
    · obtain ⟨hword, hout⟩ := Mem.landed_word hwf hk h hw hdam
      exact ⟨(Mem.word_congr fun k _ => Mem.get_congr hbytes (a + k)).trans hword, fun h => (Mem.get_congr hbytes b).trans (hout b h)⟩
    · intro k ch hexp hact hcopy
      have hraised := State.beatLanded_wm (s := s) (land := id) (c := c.landed l y s.tb sick) (y := y.landed l)
        (m := (s.mem.landed l c).1) hy hexp hact hcopy
      simp only [hut.wm i]
      exact ⟨congrArg Channel.level hraised, (congrArg Channel.act hraised).trans hact⟩
    · have hfound := State.modCopy_found (s := s.withLanding id (s.mem.landed l c).1) (u := c.landed l y s.tb sick) (State.copy?_id hc ▸ hc) rfl
      rw [hmore h]
      refine ⟨hcores.agenda, c.landed l y s.tb sick, ?_, hs⟩
      rw [State.copy?, hcores.eng]
      exact hfound
    · obtain ⟨hrecord, hsem, hgone, -⟩ := hlast h hw
      exact ⟨hgone hf, hrecord, hsem⟩

end Sys2Proof.Machine
end

section
namespace Sys2Proof.Machine
open Sys2Proof

/-! ### A command of the index engine leaves its core (R296, R297, R298, R307) -/

theorem State.prefixCheck_none {s : State} {fn : Nat} {a b : CReg}
    (hblock : ∀ n need, prefixBlock fn = some (n, need) → (s.creg a).check s.myWorld need (s.creg a).cur.toNat n = none
      ∧ (s.creg a).cur.toNat % 32 = 0 ∧ s.inOwnBanks (s.creg a).cur.toNat n = true)
    (hresult : fn ≠ 8 → (s.creg b).check s.myWorld permRW (s.creg b).cur.toNat 64 = none
      ∧ (s.creg b).cur.toNat % 64 = 0 ∧ s.inOwnAcc (s.creg b).cur.toNat 64 = true) : s.prefixCheck fn a b = none := by
  unfold State.prefixCheck
  by_cases h8 : fn = 8
  · cases hb : prefixBlock fn with
    | none => simp [firstOf, h8]
    | some x =>
      obtain ⟨hcheck, halign, hown⟩ := hblock x.1 x.2 hb
      simp [firstOf, h8, hcheck, halign, hown]
  · obtain ⟨hrcheck, hralign, hrown⟩ := hresult h8
    cases hb : prefixBlock fn with
    | none => simp [firstOf, hrcheck, hralign, hrown]
    | some x =>
      obtain ⟨hcheck, halign, hown⟩ := hblock x.1 x.2 hb
      simp [firstOf, hcheck, halign, hown, hrcheck, hralign, hrown]

/-- The command that leaves, with its operand block as it stands now. -/
def State.prefixCommand (s : State) (fn : BitVec 4) (ref : Bool) (slot : W64) (a b : CReg) : PCommand :=
  let x := (s.creg a).cur.toNat
  let onSlot := fn == 2 || fn == 4 || fn == 6
  { id := s.nextId, fn := fn, ref := ref, core := s.cur, jetton := s.core.bnd.jetton, run := s.core.iss.run
    pc := BitVec.ofNat 12 s.core.iss.pc, issue := s.tb, world := s.myWorld, slot := slot
    block := s.mem.read x (((prefixBlock fn.toNat).map (·.1)).getD 0), operand := x, result := (s.creg b).cur.toNat
    blockers := if onSlot then s.slotCopies slot.toNat else [], reads := if fn == 4 then s.slotReaders slot.toNat else []
    notBefore := if onSlot then s.slotFree slot.toNat else s.tb, arrive := none, act := none, words := [], fault := none
    journal := match s.core.journalPlace fn.toNat ref with
      | .replay k => some k
      | .new k => some k
      | .again k => some k
      | _ => none
    record := [] }

/-- The state with a command on its way, which has taken its place in the journal. -/
def State.withCommand (s : State) (place : JournalPlace) (fn : BitVec 4) (cmd : PCommand) : State :=
  { s with
    nextId := s.nextId + 1
    eng := { s.eng with pcmds := s.eng.pcmds ++ [cmd] }
    core := { s.core with
      jpos := if place = .none then s.core.jpos else s.core.jpos + 1
      journal := match place with
        | .new k => s.core.journal.take k ++ [⟨s.nextId, fn, none⟩]
        | .again k => s.core.journal.set k ⟨s.nextId, fn, none⟩
        | _ => s.core.journal } }

theorem State.prefixIssue_passes {s : State} {fn : BitVec 4} {ref : Bool} (slot : W64) {a b : CReg} (hcheck : s.prefixCheck fn.toNat a b = none)
    (hplace : s.core.journalPlace fn.toNat ref ≠ .full)
    (hsound : ∀ n need, prefixBlock fn.toNat = some (n, need) → ∀ k < n, s.mem.damaged ((s.creg a).cur.toNat + k) = false) :
    s.prefixIssue fn.toNat ref slot a b =
      (s.withCommand (s.core.journalPlace fn.toNat ref) fn (s.prefixCommand fn ref slot a b)).advance 1 := by
  have hdamage : (if ((prefixBlock fn.toNat).map (·.1)).getD 0 == 0 then none
      else s.mem.firstDamage (s.creg a).cur.toNat (((prefixBlock fn.toNat).map (·.1)).getD 0)) = none := by
    cases hb : prefixBlock fn.toNat with
    | none => rfl
    | some x => simp [Mem.firstDamage_eq_none (hsound _ _ hb)]
  have hfn : BitVec.ofNat 4 fn.toNat = fn := by simp
  have hfns {k : Nat} (hk : k < 16) : (fn.toNat == k) = (fn == BitVec.ofNat 4 k) := by
    rw [Bool.eq_iff_iff, beq_iff_eq, beq_iff_eq, ← BitVec.toNat_inj, BitVec.toNat_ofNat, Nat.mod_eq_of_lt hk]
  unfold State.prefixIssue
  rw [hcheck]
  dsimp only
  rw [if_neg (by simpa using hplace), hdamage]
  simp only [hfn, hfns (show 2 < 16 by decide), hfns (show 4 < 16 by decide), hfns (show 6 < 16 by decide)]
  unfold State.prefixCommand State.withCommand
  cases s.core.journalPlace fn.toNat ref <;> rfl

/-- Every command word: what stands between it and its departure is its checks alone. -/
theorem Leaves.of_prefixIssue {s : State} {i : Instr} {fn : BitVec 4} {ref : Bool} {slot : W64} {a b : CReg}
    (hexec : exec i s = .next (s.prefixIssue fn.toNat ref slot a b))
    (hblock : ∀ n need, prefixBlock fn.toNat = some (n, need) → (s.creg a).check s.myWorld need (s.creg a).cur.toNat n = none
      ∧ (s.creg a).cur.toNat % 32 = 0 ∧ s.inOwnBanks (s.creg a).cur.toNat n = true
      ∧ ∀ k < n, s.mem.damaged ((s.creg a).cur.toNat + k) = false)
    (hresult : fn ≠ 8 → (s.creg b).check s.myWorld permRW (s.creg b).cur.toNat 64 = none
      ∧ (s.creg b).cur.toNat % 64 = 0 ∧ s.inOwnAcc (s.creg b).cur.toNat 64 = true)
    (hplace : s.core.journalPlace fn.toNat ref ≠ .full) :
    Leaves s (s.withCommand (s.core.journalPlace fn.toNat ref) fn (s.prefixCommand fn ref slot a b)) i := by
  have hcheck : s.prefixCheck fn.toNat a b = none := by
    refine State.prefixCheck_none (fun n need h => ?_) fun h => hresult fun h8 => h (h8 ▸ rfl)
    obtain ⟨hperm, halign, hown, -⟩ := hblock n need h
    exact ⟨hperm, halign, hown⟩
  have hsound (n need : Nat) (h : prefixBlock fn.toNat = some (n, need)) : ∀ k < n, s.mem.damaged ((s.creg a).cur.toNat + k) = false := by
    obtain ⟨-, -, -, hsound⟩ := hblock n need h
    exact hsound
  rw [State.prefixIssue_passes slot hcheck hplace hsound] at hexec
  exact .of_advance hexec (State.advance_issues _ 1)

end Sys2Proof.Machine
end

section
namespace Sys2Proof.Machine
open Sys2Proof

/-! ### A command's way (R298, R307) -/

theorem State.pcmd?_id {s : State} {id : Nat} {p : PCommand} (h : s.pcmd? id = some p) : p.id = id := by
  simpa using List.find?_some h

section
variable {s : State} {id : Nat} {p : PCommand} (hp : s.pcmd? id = some p)
include hp

section
variable (harrive : p.arrive = none) (hblockers : p.blockers = []) (hbefore : p.notBefore ≤ s.tb)
  (hreads : ∀ x ∈ p.reads, s.hasRead x = true)
include harrive hblockers hbefore hreads

theorem exec_prefixCommandDepart_sent (ha : s.answerOf p = none) :
    exec (.prefixCommandDepart id) s = .next (s.modPcmd id fun q => { q with arrive := some (s.tb + 48) }) := by
  have hdeparts : p.departs s = true := by simp [PCommand.departs, harrive, hblockers, hbefore, ha, List.all_eq_true.mpr hreads]
  show execPrefixCommandDepart id s = _
  rw [execPrefixCommandDepart, hp]
  simp only [hdeparts, ha, Bool.not_true, Bool.false_eq_true, if_false]

/-- A command of a replay has an earlier run's words at once, and gives them as if it had gone and come back. -/
theorem exec_prefixCommandDepart_answered {e : JournalEntry} {ws : List W32} (ha : s.answerOf p = some e) (hw : e.words = some ws) :
    exec (.prefixCommandDepart id) s = .next ((s.modPcmd id fun q => { q with
      arrive := some s.tb, act := some s.tb, words := ws.zipIdx.map fun y => (y.2 + 1, y.1) }).at_ (s.tb + 97) (.journalReply id)) := by
  have hdeparts : p.departs s = true := by simp [PCommand.departs, harrive, hblockers, hbefore, ha, hw, List.all_eq_true.mpr hreads]
  show execPrefixCommandDepart id s = _
  rw [execPrefixCommandDepart, hp]
  simp only [hdeparts, ha, hw, Bool.not_true, Bool.false_eq_true, if_false, Option.getD_some]

end

theorem exec_prefixCommandStart (hs : s.starting (p.fn == 0) = some p) : let at_ := s.tb + s.engineTime p - 1
    exec (.prefixCommandStart id) s = .next (((s.modEng fun e => { e with
      hashFree := if p.fn = 0 then s.tb + 1 else e.hashFree, indexFree := if p.fn = 0 then e.indexFree else at_ + 1 }).modPcmd id
        fun q => { q with act := some at_ }).at_ at_ (.prefixCommandAct id)) := by
  show execPrefixCommandStart id s = _
  rw [execPrefixCommandStart, hp]
  simp only [hs, Option.map_some, State.pcmd?_id hp, beq_self_eq_true, if_true, beq_iff_eq]
  by_cases h0 : p.fn = 0
  · simp only [h0, if_true]
  · simp only [h0, if_false]

end

end Sys2Proof.Machine
end

section
namespace Sys2Proof.Machine
open Sys2Proof

/-! ### The words of a result (R299, R307) -/

/-- Memory with the words of a result written from `r` on. -/
def Mem.writeWords (m : Mem) (r : Nat) (ws : List (Nat × W32)) : Mem :=
  ws.foldl (fun m kw => (m.setWord (r + 4 * kw.1) kw.2).clearPoison (r + 4 * kw.1)) m

theorem State.writeResult_eq (s : State) (p : PCommand) (ws : List (Nat × W32)) :
    s.writeResult p ws = s.modMem fun m => m.writeWords p.result ws := rfl

theorem Mem.setWord_clearPoison_wf {m : Mem} (h : m.wf = true) (a : Nat) (w : W32) : ((m.setWord a w).clearPoison a).wf = true :=
  Mem.clearPoison_wf (Mem.setWord_wf h a w) a

/-- A byte in none of the words keeps its value. -/
theorem Mem.get_writeWords_out {m : Mem} (h : m.wf = true) {r b : Nat} {ws : List (Nat × W32)}
    (hb : ∀ kw ∈ ws, b < r + 4 * kw.1 ∨ r + 4 * kw.1 + 4 ≤ b) : (m.writeWords r ws).get b = m.get b := by
  induction ws generalizing m with
  | nil => rfl
  | cons kw ws ih =>
    have hfirst := hb kw (List.mem_cons_self ..)
    calc ((m.writeWords r (kw :: ws)).get b)
        = ((m.setWord (r + 4 * kw.1) kw.2).clearPoison (r + 4 * kw.1)).get b :=
          ih (Mem.setWord_clearPoison_wf h _ _) fun x hx => hb x (List.mem_cons_of_mem _ hx)
      _ = m.get b := by rw [Mem.clearPoison_get, Mem.get_setWord h, if_neg (by omega)]

/-- Words at distinct places: each reads back. -/
theorem Mem.word_writeWords {m : Mem} (h : m.wf = true) {r : Nat} {ws : List (Nat × W32)} (hnd : (ws.map (·.1)).Nodup)
    {kw : Nat × W32} (hkw : kw ∈ ws) : (m.writeWords r ws).word (r + 4 * kw.1) = kw.2 := by
  induction ws generalizing m with
  | nil => cases hkw
  | cons x ws ih =>
    obtain ⟨hx, hnd⟩ := List.nodup_cons.mp hnd
    have hwf := Mem.setWord_clearPoison_wf h (r + 4 * x.1) x.2
    rcases List.mem_cons.mp hkw with rfl | hkw
    · have hrest : ∀ k < 4, (Mem.writeWords _ r ws).get (r + 4 * kw.1 + k) = _ := fun k hk =>
        Mem.get_writeWords_out hwf fun y hy => by
          have hne : y.1 ≠ kw.1 := fun h => hx (List.mem_map.mpr ⟨y, hy, h⟩)
          omega
      calc (m.writeWords r (kw :: ws)).word (r + 4 * kw.1)
          = ((m.setWord (r + 4 * kw.1) kw.2).clearPoison (r + 4 * kw.1)).word (r + 4 * kw.1) := Mem.word_congr hrest
        _ = (m.setWord (r + 4 * kw.1) kw.2).word (r + 4 * kw.1) := Mem.word_congr fun k _ => Mem.clearPoison_get _ _ _
        _ = kw.2 := Mem.word_setWord h _ _
    · exact ih hwf hnd hkw

/-- What the journal notes of a command is in its core alone. -/
theorem State.recordWords_leaves (s : State) (p : PCommand) : CoresOnly s (s.recordWords p) := by
  unfold State.recordWords
  split
  · exact .modCore s _ _
  · exact .refl s

theorem Status.hearsViolation_of_live {x : Status} (h : x.live = true) : x.hearsViolation = false := by
  cases x <;> revert h <;> decide

/-- A fault of the core in focus, found away from the issue of its word, whatever its cause (R321, R323). -/
theorem State.deferFault_own {s : State} (hm : s.mayFault) (cause : Cause) (addr : W64) (src det : Nat)
    (pc : BitVec 12) (issue : Nat) : s.deferFault s.cur cause addr src det pc issue =
      s.modIss fun x => { x with fault := some ⟨cause, pc, addr, finfo 0 src true det (s.tb - issue)⟩ } := by
  unfold State.deferFault
  rw [State.focus_cur]
  dsimp only
  rw [Status.hearsViolation_of_live hm.1, Bool.and_false, if_neg Bool.false_ne_true, State.raise_eq hm]
  exact State.focus_cur _

/-- The state with another journal in the core in focus. -/
def State.withJournal (s : State) (j : List JournalEntry) : State := s.modC fun c => { c with journal := j }

theorem State.voidEntry_own {s : State} {p : PCommand} (hcur : p.core = s.cur) : ∃ j, s.voidEntry p = s.withJournal j := by
  unfold State.voidEntry
  rw [hcur, State.modCore_cur]
  exact ⟨_, rfl⟩

theorem State.issuedBy_withJournal {s : State} {p : PCommand} (j : List JournalEntry) (hcur : p.core = s.cur) :
    (s.withJournal j).issuedBy p = s.issuedBy p := by
  have hcore : (s.withJournal j).getCore s.cur = { s.core with journal := j } := State.getCore_cur (s.withJournal j)
  rw [State.issuedBy, State.issuedBy, hcur, hcore, State.getCore_cur]

section
variable {s : State} {id : Nat} {p : PCommand} (hp : s.pcmd? id = some p)
include hp

/-- Words 1 to 15 are written; word 0 follows in the next cycle. -/
theorem exec_prefixResultWrite_words (hf : p.fault = none) (hr : p.record = [])
    (hst : ∀ kw ∈ p.words, kw.1 = 1 → kw.2 ≠ 0x10 ∧ kw.2 ≠ 0x11) : exec (.prefixResultWrite id) s = .next
      (((s.writeResult p p.words).recordWords p).at_ (s.tb + 1) (.prefixCompletionCount id)) := by
  have hstatus : ((p.words.find? (·.1 == 1)).map (·.2)).getD 0 ≠ 0x10 ∧ ((p.words.find? (·.1 == 1)).map (·.2)).getD 0 ≠ 0x11 := by
    cases h : p.words.find? (·.1 == 1) with
    | none => simp
    | some kw => exact hst kw (List.mem_of_find?_eq_some h) (by simpa using List.find?_some h)
  have htb : ((s.writeResult p p.words).recordWords p).tb = s.tb := (State.recordWords_leaves _ p).tb
  show execPrefixResultWrite id s = _
  rw [execPrefixResultWrite, hp]
  dsimp only
  rw [hf]
  dsimp only
  rw [hr, List.isEmpty_nil, if_pos rfl, if_neg (by simpa using hstatus), htb]

/-- A violation, or an uncorrectable error, of a command is raised at its task in place of its words. -/
theorem exec_prefixResultWrite_fault {c : Cause} {a : W64} (hf : p.fault = some (c, a)) (hi : s.issuedBy p = true) (hcur : p.core = s.cur)
    (hm : s.mayFault) : ∃ j, exec (.prefixResultWrite id) s = .next (((s.withJournal j).modIss fun x =>
      { x with fault := some ⟨c, p.pc, a, finfo 0 8 true 0 (s.tb - p.issue)⟩ }).dropPcmd id) := by
  obtain ⟨j, hj⟩ := State.voidEntry_own hcur
  refine ⟨j, ?_⟩
  show execPrefixResultWrite id s = _
  rw [execPrefixResultWrite, hp]
  dsimp only
  rw [hf]
  dsimp only
  rw [hj, State.pcmdFault, if_pos ((State.issuedBy_withJournal j hcur).trans hi), hcur, State.pcmd?_id hp]
  exact congrArg (fun t => Host.Outcome.next (State.dropPcmd t id))
    (State.deferFault_own (s := s.withJournal j) hm c a 8 0 p.pc p.issue)

theorem exec_journalReply :
    exec (.journalReply id) s = .next ((s.writeResult p p.words).at_ (s.tb + 1) (.prefixCompletionCount id)) := by
  show execJournalReply id s = _
  rw [execJournalReply, hp]

theorem exec_prefixCompletionCount (hd : s.mem.damaged p.result = false) : exec (.prefixCompletionCount id) s = .next
    ((s.modMem fun m => m.setWord p.result (m.word p.result + 1)).dropPcmd id) := by
  show execPrefixCompletionCount id s = _
  rw [execPrefixCompletionCount, hp]
  dsimp only
  rw [if_neg (by simp [hd])]

end

/-- Settles O34: every command word is one issue whose checks pass; each event of a command's way by its own lemma, what it writes by
the words of its result. -/
theorem prefixCommandsGoThrough : Obligations.PrefixCommandsGoThrough := by
  unfold Obligations.PrefixCommandsGoThrough
  refine ⟨fun s d a b ref => ?_, fun s id b p hm hp => ?_⟩
  · intro go x both
    have hgo {i : Instr} {fn : BitVec 4} {ref : Bool} {slot : W64} {a b : CReg} {block : Option (CReg × Nat × Nat)} {result : Option CReg}
        {onSlot : Bool} (hi : exec i s = .next (s.prefixIssue fn.toNat ref slot a b))
        (hblock : block = (prefixBlock fn.toNat).map fun y => (a, y.1, y.2)) (hresult : result = if fn = 8 then none else some b)
        (hslot : onSlot = (fn == 2 || fn == 4 || fn == 6)) : go i fn ref slot block result onSlot := by
      subst hblock hresult hslot
      intro hb hr place hplace
      have hleaves := Leaves.of_prefixIssue hi (fun n need h => hb a n need (by rw [h]; rfl)) (fun h8 => hr b (if_neg h8)) hplace
      refine ⟨_, hleaves, rfl, rfl, rfl, rfl, rfl, rfl, rfl, fun r n need h => ?_, fun r h => ?_, rfl, ?_, rfl, rfl, rfl, rfl, rfl⟩
      · obtain ⟨y, hy, hr⟩ := Option.map_eq_some_iff.mp h
        obtain ⟨rfl, rfl, rfl⟩ := hr
        simp [State.prefixCommand, hy]
      · by_cases h8 : fn = 8
        · simp [h8] at h
        · rw [if_neg h8] at h
          obtain rfl := Option.some.inj h
          rfl
      · simp [State.prefixCommand]
    exact ⟨hgo rfl rfl rfl rfl, hgo rfl rfl rfl rfl, hgo rfl rfl rfl rfl, hgo (a := 0) rfl rfl rfl rfl, hgo (a := 0) rfl rfl rfl rfl,
      hgo rfl rfl rfl rfl, hgo rfl rfl rfl rfl, hgo rfl rfl rfl rfl, hgo (b := 0) rfl rfl rfl rfl⟩
  · intro marks writes
    have hwrites {t : State} (ht : t.mem = (s.writeResult p p.words).mem) : writes t := by
      intro hnd
      rw [ht, State.writeResult_eq]
      exact ⟨fun kw hkw => Mem.word_writeWords hm hnd hkw, Mem.get_writeWords_out hm⟩
    refine ⟨fun harrive hblockers hbefore hreads => ⟨fun ha => ?_, fun e ws ha hw => ?_⟩, fun hs => ?_, fun hf hr hst => ?_,
      fun c a hf hi hcur hmay => ?_, ?_, fun hd => ?_⟩
    · refine (exec_prefixCommandDepart_sent hp harrive hblockers hbefore hreads ha).trans ?_
      rw [List.append_nil]
      rfl
    · exact exec_prefixCommandDepart_answered hp harrive hblockers hbefore hreads ha hw
    · exact ⟨_, exec_prefixCommandStart hp hs, rfl⟩
    · have hcores := State.recordWords_leaves (s.writeResult p p.words) p
      exact ⟨_, exec_prefixResultWrite_words hp hf hr hst, hwrites hcores.mem, congrArg (· ++ _) hcores.agenda, hcores.eng, hcores.disp⟩
    · obtain ⟨j, hexec⟩ := exec_prefixResultWrite_fault hp hf hi hcur hmay
      exact ⟨_, hexec, rfl, rfl, rfl⟩
    · exact ⟨_, exec_journalReply hp, hwrites rfl, rfl, rfl, rfl, rfl⟩
    · refine ⟨_, exec_prefixCompletionCount hp hd, Mem.word_setWord hm _ _, fun hb => ?_, rfl, rfl⟩
      exact (Mem.get_setWord hm _ _ b).trans (if_neg (by omega))

end Sys2Proof.Machine
end

section
namespace Sys2Proof.Machine
open Sys2Proof

/-! ### Lists by a key, and least elements -/

/-- A change of the entries under a key, looked up by that key. -/
theorem find?_map_key {α β : Type} [BEq β] [LawfulBEq β] (key : α → β) {k : β} {f : α → α} (hf : ∀ x, key x = k → key (f x) = k)
    (l : List α) : (l.map fun x => if key x == k then f x else x).find? (fun x => key x == k) = (l.find? fun x => key x == k).map f := by
  induction l with
  | nil => rfl
  | cons x l ih =>
    by_cases hx : key x = k
    · simp [hx, hf x hx]
    · simpa [hx] using ih

theorem mem_insertBy {α : Type} (key : α → Nat) (l : List α) (x y : α) : y ∈ insertBy key l x ↔ y = x ∨ y ∈ l := by
  induction l with
  | nil => simp [insertBy]
  | cons z l ih =>
    unfold insertBy
    split
    · rw [List.mem_cons, ih, List.mem_cons, or_left_comm]
    · exact List.mem_cons

theorem mem_sortBy {α : Type} (key : α → Nat) (l : List α) (y : α) : y ∈ sortBy key l ↔ y ∈ l := by
  have hfold (l acc : List α) : y ∈ l.foldl (insertBy key) acc ↔ y ∈ l ∨ y ∈ acc := by
    induction l generalizing acc with
    | nil => simp
    | cons x l ih => rw [List.foldl_cons, ih, mem_insertBy, List.mem_cons, or_left_comm, or_assoc]
  exact (hfold l []).trans (by simp)

theorem leastBy_cons_cons {α : Type} (key : α → Nat) (x y : α) (l : List α) :
    leastBy key (x :: y :: l) = if key y < key x then leastBy key (y :: l) else leastBy key (x :: l) := by
  unfold leastBy
  simp only [List.foldl_cons]
  split <;> rfl

/-- The least of a list that is not empty is one of it, and none is below it. -/
theorem leastBy_cons {α : Type} (key : α → Nat) (x : α) (l : List α) :
    ∃ y, leastBy key (x :: l) = some y ∧ y ∈ x :: l ∧ ∀ z ∈ x :: l, key y ≤ key z := by
  induction l generalizing x with
  | nil => exact ⟨x, rfl, List.mem_singleton_self x, by simp⟩
  | cons y l ih =>
    rw [leastBy_cons_cons]
    split
    next hlt =>
      obtain ⟨m, hm, hmem, hle⟩ := ih y
      refine ⟨m, hm, List.mem_cons_of_mem _ hmem, fun z hz => ?_⟩
      rcases List.mem_cons.mp hz with rfl | hz
      · exact (hle y (List.mem_cons_self ..)).trans hlt.le
      · exact hle z hz
    next hge =>
      obtain ⟨m, hm, hmem, hle⟩ := ih x
      have hx := hle x (List.mem_cons_self ..)
      refine ⟨m, hm, ?_, fun z hz => ?_⟩
      · rcases List.mem_cons.mp hmem with rfl | hmem <;> simp [*]
      · rcases List.mem_cons.mp hz with rfl | hz
        · exact hx
        · rcases List.mem_cons.mp hz with rfl | hz
          · omega
          · exact hle z (List.mem_cons_of_mem _ hz)

theorem leastBy_of_mem {α : Type} (key : α → Nat) {l : List α} {x : α} (hx : x ∈ l) :
    ∃ y, leastBy key l = some y ∧ y ∈ l ∧ ∀ z ∈ l, key y ≤ key z := by
  cases l with
  | nil => cases hx
  | cons x l => exact leastBy_cons key x l

theorem mem_setKey_self {α : Type} (l : List (Nat × α)) (k : Nat) (x : α) : (k, x) ∈ setKey l k x := by
  induction l with
  | nil => exact List.mem_singleton_self _
  | cons p l ih =>
    unfold setKey
    split
    · exact List.mem_cons_self ..
    · split
      · exact List.mem_cons_self ..
      · exact List.mem_cons_of_mem _ ih

end Sys2Proof.Machine
end

section
namespace Sys2Proof.Machine
open Sys2Proof

/-! ### A world's record and its slots (R294, R295, Tables 12.1 and 12.3) -/

theorem State.prefix_congr {s t : State} (h : t.eng.prefixes = s.eng.prefixes) (w : Nat) : t.prefix_ w = s.prefix_ w := by
  unfold State.prefix_
  rw [h]

theorem State.prefix_world (s : State) (w : Nat) : (s.prefix_ w).world = w := by
  unfold State.prefix_
  cases h : s.eng.prefixes.find? (·.world == w) with
  | none => rfl
  | some p => simpa using List.find?_some h

theorem State.setPrefix_prefix (s : State) {p : Prefix} {w : Nat} (hw : p.world = w) : (s.setPrefix p).prefix_ w = p := by
  subst hw
  unfold State.setPrefix State.prefix_
  dsimp only [State.modEng]
  split
  next hany =>
    obtain ⟨q, hq⟩ := Option.isSome_iff_exists.mp (List.find?_isSome.mpr (List.any_eq_true.mp hany))
    rw [find?_map_key (f := fun _ => p) (·.world) fun _ _ => rfl, hq]
    rfl
  next hnone =>
    simp only [List.any_eq_true, not_exists, not_and] at hnone
    rw [List.find?_append, List.find?_eq_none.mpr hnone]
    simp

@[simp] theorem Prefix.slot_setSlot_self (p : Prefix) (j : Nat) (x : Slot) : (p.setSlot j x).slot j = x := by
  rw [Prefix.setSlot, Prefix.slot, getKey_setKey_self, Option.getD_some]

theorem Prefix.slot_setSlot_ne (p : Prefix) {j k : Nat} (h : k ≠ j) (x : Slot) : (p.setSlot j x).slot k = p.slot k := by
  rw [Prefix.setSlot, Prefix.slot, getKey_setKey_ne _ h, ← Prefix.slot]

theorem State.modSlot_prefix (s : State) (w j : Nat) (f : Slot → Slot) :
    (s.modSlot w j f).prefix_ w = (s.prefix_ w).setSlot j (f ((s.prefix_ w).slot j)) := s.setPrefix_prefix (s.prefix_world w)

@[simp] theorem State.modSlot_slot_self (s : State) (w j : Nat) (f : Slot → Slot) :
    ((s.modSlot w j f).prefix_ w).slot j = f ((s.prefix_ w).slot j) := by
  rw [State.modSlot_prefix, Prefix.slot_setSlot_self]

theorem State.modSlot_slot_ne (s : State) (w : Nat) {j k : Nat} (h : k ≠ j) (f : Slot → Slot) :
    ((s.modSlot w j f).prefix_ w).slot k = (s.prefix_ w).slot k := by
  rw [State.modSlot_prefix, Prefix.slot_setSlot_ne _ h]

theorem State.placeWay_slot_self (s : State) (w d v : Nat) (tag : List Byte) :
    ((s.placeWay w d v tag).prefix_ w).slot d = { (s.prefix_ w).slot d with idx := true, bucket := bucketOf tag, way := v } :=
  State.modSlot_slot_self _ w d _

theorem State.placeWay_slot_ne (s : State) (w : Nat) {d k : Nat} (h : k ≠ d) (v : Nat) (tag : List Byte) :
    ((s.placeWay w d v tag).prefix_ w).slot k = (s.prefix_ w).slot k := State.modSlot_slot_ne _ w h _

end Sys2Proof.Machine
end

section
namespace Sys2Proof.Machine
open Sys2Proof

/-! ### The ways of a bucket (R294, R301) -/

/-- The ways in use of a tag's bucket. -/
def State.waysAt (s : State) (tag : List Byte) : List Way := s.eng.ways.filter fun x => x.bucket == bucketOf tag

/-- The lowest way of a tag's bucket that is not in use. -/
def State.freeWay (s : State) (tag : List Byte) : Option Nat := (List.range 8).find? fun v => !((s.waysAt tag).any (·.way == v))

/-- The ways of a tag's bucket whose slots are the world's and have no reference. -/
def State.ownWays (s : State) (w : Nat) (tag : List Byte) : List Way :=
  sortBy (·.way) ((s.waysAt tag).filter fun x => x.world == w && ((s.prefix_ w).slot x.slot).ref == 0)

section
variable {s : State} {w : Nat} {tag : List Byte}

theorem State.freeWay_eq_some {v : Nat} (hv : v < 8) (hfree : ∀ x ∈ s.waysAt tag, x.way ≠ v)
    (hlow : ∀ u < v, ∃ x ∈ s.waysAt tag, x.way = u) : s.freeWay tag = some v := by
  refine List.find?_range_eq_some.mpr ⟨?_, List.mem_range.mpr hv, fun u hu => ?_⟩
  · rw [Bool.not_eq_true', List.any_eq_false]
    exact fun x hx => by simpa using hfree x hx
  · rw [Bool.not_not, List.any_eq_true]
    obtain ⟨x, hx, hway⟩ := hlow u hu
    exact ⟨x, hx, by simpa using hway⟩

theorem State.freeWay_eq_none (hfull : ∀ v < 8, ∃ x ∈ s.waysAt tag, x.way = v) : s.freeWay tag = none := by
  refine List.find?_range_eq_none.mpr fun u hu => ?_
  rw [Bool.not_not, List.any_eq_true]
  obtain ⟨x, hx, hway⟩ := hfull u hu
  exact ⟨x, hx, by simpa using hway⟩

theorem State.mem_ownWays {x : Way} : x ∈ s.ownWays w tag ↔ x ∈ s.waysAt tag ∧ x.world = w ∧ ((s.prefix_ w).slot x.slot).ref = 0 := by
  rw [State.ownWays, mem_sortBy, List.mem_filter, Bool.and_eq_true, beq_iff_eq, beq_iff_eq]

end

/-! ### What KVIN, KVAP and KVRL do (R301, R302) -/

section
variable {s : State} {w d : Nat} {tag : List Byte}

theorem State.kvin_indexed (h : ((s.prefix_ w).slot d).idx = true ∨ ((s.prefix_ w).slot d).dmg = true) :
    s.kvin w d tag = (s, s.slotResult w 0x04 d) := by
  unfold State.kvin
  dsimp only
  rw [if_pos (by simpa using h)]

/-- The world's slot `j` gives up the way at which it is indexed. -/
def State.unindex (s : State) (w j b v : Nat) : State :=
  (s.dropWay b v).modSlot w j fun y => { y with idx := false, alloc := false, dmg := false }

section
variable (hidx : ((s.prefix_ w).slot d).idx = false) (hdmg : ((s.prefix_ w).slot d).dmg = false)
include hidx hdmg

theorem State.kvin_hit {x : Way} (hx : s.hit w tag = some x) (href : ((s.prefix_ w).slot x.slot).ref ≠ 65535) :
    let t := s.modSlot w x.slot fun y => { y with ref := y.ref + 1 }
    s.kvin w d tag = (t, t.slotResult w 0x02 x.slot) := by
  unfold State.kvin
  dsimp only
  rw [if_neg (by simp [hidx, hdmg]), hx]
  dsimp only
  rw [if_neg (by simpa using href)]

theorem State.kvin_hit_full {x : Way} (hx : s.hit w tag = some x) (href : ((s.prefix_ w).slot x.slot).ref = 65535) :
    s.kvin w d tag = (s, s.slotResult w 0x05 x.slot) := by
  unfold State.kvin
  dsimp only
  rw [if_neg (by simp [hidx, hdmg]), hx]
  dsimp only
  rw [if_pos (by simpa using href)]

variable (hmiss : s.hit w tag = none)
include hmiss

theorem State.kvin_free {v : Nat} (hv : s.freeWay tag = some v) :
    let t := s.placeWay w d v tag
    s.kvin w d tag = (t, t.slotResult w 0x00 d) := by
  unfold State.freeWay State.waysAt at hv
  unfold State.kvin
  dsimp only
  rw [if_neg (by simp [hidx, hdmg]), hmiss]
  dsimp only
  rw [hv]

variable (hfull : s.freeWay tag = none)
include hfull

theorem State.kvin_none (hown : s.ownWays w tag = []) : s.kvin w d tag = (s, s.slotResult w 0x03 d) := by
  unfold State.freeWay State.waysAt at hfull
  unfold State.ownWays State.waysAt at hown
  unfold State.kvin
  dsimp only
  rw [if_neg (by simp [hidx, hdmg]), hmiss]
  dsimp only
  rw [hfull, hown]
  rfl

theorem State.kvin_reclaim {y : Way} (hy : leastBy (fun x => ((s.prefix_ w).slot x.slot).age) (s.ownWays w tag) = some y) :
    let t := (s.unindex w y.slot (bucketOf tag) y.way).placeWay w d y.way tag
    s.kvin w d tag = (t, t.slotResult w 0x00 d) := by
  unfold State.freeWay State.waysAt at hfull
  unfold State.ownWays State.waysAt at hy
  unfold State.kvin
  dsimp only
  rw [if_neg (by simp [hidx, hdmg]), hmiss]
  dsimp only
  rw [hfull]
  dsimp only
  rw [hy]
  rfl

end

/-- Slot `j` is allocated, with one reference. -/
def State.allocate (s : State) (w j : Nat) : State :=
  s.modSlot w j fun x => { x with alloc := true, ref := 1, idx := false, age := s.tb }

theorem State.kvap_free {j : Nat} (h : (s.prefix_ w).free = some j) :
    s.kvap w = (s.allocate w j, (s.allocate w j).slotResult w 0x00 j) := by
  unfold State.kvap
  dsimp only
  rw [h]
  rfl

section
variable (hfree : (s.prefix_ w).free = none)
include hfree

theorem State.kvap_reclaim {j : Nat} {x : Slot} (h : (s.prefix_ w).reclaimable = some (j, x)) :
    let t := (s.dropWay x.bucket x.way).allocate w j
    s.kvap w = (t, t.slotResult w 0x00 j) := by
  unfold State.kvap
  dsimp only
  rw [hfree, h]
  rfl

theorem State.kvap_none (h : (s.prefix_ w).reclaimable = none) : s.kvap w = (s, plainResult 0x10) := by
  unfold State.kvap
  dsimp only
  rw [hfree, h]

end

/-- A slot with one reference fewer. -/
def Slot.released (x : Slot) (now : Nat) : Slot :=
  let r := x.ref - 1
  if r != 0 then { x with ref := r }
  else if x.idx then { x with ref := 0, age := now }
  else { x with ref := 0, age := now, alloc := false, dmg := false }

theorem State.kvrl_eq (s : State) (w d : Nat) : let t := s.modSlot w d fun x => x.released s.tb
    s.kvrl w d = (t, t.slotResult w 0x00 d) := rfl

theorem Slot.released_ref (x : Slot) (now : Nat) : (x.released now).ref = x.ref - 1 := by
  unfold Slot.released
  dsimp only
  split
  · rfl
  next h =>
    have hzero : x.ref - 1 = 0 := by simpa using h
    split <;> exact hzero.symm

/-- A slot stays allocated while it has a reference or is indexed. -/
theorem Slot.released_alloc {x : Slot} (h : x.alloc = true) (now : Nat) : (x.released now).alloc = true ↔ 1 < x.ref ∨ x.idx = true := by
  unfold Slot.released
  dsimp only
  split
  next hr =>
    have hmore : 1 < x.ref := by have := (bne_iff_ne (a := x.ref - 1) (b := 0)).mp hr; omega
    simp [h, hmore]
  next hr =>
    have hlast : ¬ 1 < x.ref := by have : x.ref - 1 = 0 := by simpa using hr
                                   omega
    split <;> simp [*]

end
end Sys2Proof.Machine
end

section
namespace Sys2Proof.Machine
open Sys2Proof

/-! ### What a command does, by its function (Table 12.4) -/

section
variable (s : State) {p : PCommand}

theorem PCommand.tag_import (h : p.fn = 6) : p.tag = (p.block.drop 128).take 32 := by rw [PCommand.tag, h]; rfl
theorem PCommand.tag_block (h : p.fn ≠ 6) : p.tag = p.block.take 32 := by
  rw [PCommand.tag, if_neg (by simpa using h)]

theorem State.actCommand_kvhs (h : p.fn = 0) : s.actCommand p =
    let tag := shake256 (p.block.take 32 ++ s.salt p.world ++ (p.block.drop 32).take 128)
    (s, (1, 0) :: (List.range 8).map fun k => (8 + k, BitVec.ofNat 32 (leNat ((tag.drop (4 * k)).take 4)))) := by
  rw [State.actCommand, h]; rfl
theorem State.actCommand_kvin (h : p.fn = 2) : s.actCommand p = s.kvin p.world p.slot.toNat p.tag := by rw [State.actCommand, h]; rfl
theorem State.actCommand_kvap (h : p.fn = 3) : s.actCommand p = s.kvap p.world := by rw [State.actCommand, h]; rfl
theorem State.actCommand_kvrl (h : p.fn = 4) : s.actCommand p = s.kvrl p.world p.slot.toNat := by rw [State.actCommand, h]; rfl
theorem State.actCommand_kvex (h : p.fn = 5) : s.actCommand p =
    (s, s.slotResult p.world (if ((s.prefix_ p.world).slot p.slot.toNat).idx then 0x00 else 0x04) p.slot.toNat) := by
  rw [State.actCommand, h]; rfl

end

section
variable {s : State} {p : PCommand}

theorem State.actCommand_kvlk_miss (h : p.fn = 1) (hmiss : s.hit p.world p.tag = none) : s.actCommand p = (s, plainResult 0x01) := by
  rw [State.actCommand, h, hmiss]; rfl

/-- A hit reads the slot, or takes a reference to it unless its count is at its limit. -/
theorem State.actCommand_kvlk_hit {x : Way} (h : p.fn = 1) (hx : s.hit p.world p.tag = some x) : s.actCommand p =
    let t := s.modSlot p.world x.slot fun y => { y with ref := y.ref + 1 }
    if !p.ref then (s, s.slotResult p.world 0x00 x.slot)
    else if ((s.prefix_ p.world).slot x.slot).ref == 65535 then (s, s.slotResult p.world 0x05 x.slot)
    else (t, t.slotResult p.world 0x00 x.slot) := by
  rw [State.actCommand, h, hx]; rfl

theorem State.actCommand_kvim (h : p.fn = 6) : s.actCommand p =
    let sl := (s.prefix_ p.world).slot p.slot.toNat
    if sl.idx || sl.dmg then (s, s.slotResult p.world 0x04 p.slot.toNat)
    else if s.kvimOk p.world p.slot.toNat p.block then s.kvin p.world p.slot.toNat p.tag
    else (s, s.slotResult p.world 0x14 p.slot.toNat) := by
  rw [State.actCommand, h]; rfl

theorem State.actCommand_kvim_indexed (h : p.fn = 6)
    (hi : ((s.prefix_ p.world).slot p.slot.toNat).idx = true ∨ ((s.prefix_ p.world).slot p.slot.toNat).dmg = true) :
    s.actCommand p = (s, s.slotResult p.world 0x04 p.slot.toNat) := by
  rw [State.actCommand_kvim h]
  exact if_pos (by rcases hi with hi | hi <;> simp [hi])

theorem State.actCommand_kvim_fresh (h : p.fn = 6) (hidx : ((s.prefix_ p.world).slot p.slot.toNat).idx = false)
    (hdmg : ((s.prefix_ p.world).slot p.slot.toNat).dmg = false) : s.actCommand p =
      if s.kvimOk p.world p.slot.toNat p.block then s.kvin p.world p.slot.toNat p.tag
      else (s, s.slotResult p.world 0x14 p.slot.toNat) := by
  rw [State.actCommand_kvim h]
  exact if_neg (by simp [hidx, hdmg])

theorem State.actCommand_wseg_resident {k : Nat} {g : Segment} (h : p.fn = 7) (hk : s.mappedAt p.world p.tag = some k)
    (hg : s.segment? p.tag = some g) (hsst : g.sst = 2) : s.actCommand p =
      (s, resultWords 0x00 (2 ^ 32 - 1) 0 ((s.prefix_ p.world).wwbase.toNat / 0x200000 * 0x200000 + 0x200000 * k)) := by
  rw [State.actCommand, h, hk, hg, Option.map_some, hsst]; rfl

theorem State.actCommand_wseg_absent (h : p.fn = 7)
    (hno : ¬ ∃ k g, s.mappedAt p.world p.tag = some k ∧ s.segment? p.tag = some g ∧ g.sst = 2) :
    s.actCommand p = (s.say (.absent p.world p.tag), plainResult 0x06) := by
  rw [State.actCommand, h]
  cases hk : s.mappedAt p.world p.tag with
  | none => rfl
  | some k =>
    cases hg : s.segment? p.tag with
    | none => rfl
    | some g =>
      have hsst : g.sst ≠ 2 := fun h2 => hno ⟨k, g, hk, hg, h2⟩
      rw [Option.map_some]
      match g.sst, hsst with
      | 0, _ => rfl
      | 1, _ => rfl
      | 2, h2 => exact absurd rfl h2
      | n + 3, _ => rfl

/-- A world's record after a WPRF. -/
def Prefix.withPrefetch (r : Prefix) (tag : List Byte) : Prefix :=
  if 256 ≤ r.prefetch.length then { r with pfdrop := if r.pfdrop == BitVec.allOnes 32 then r.pfdrop else r.pfdrop + 1 }
  else if r.prefetch.contains tag then r
  else { r with prefetch := r.prefetch ++ [tag] }

theorem Prefix.withPrefetch_prefetch (r : Prefix) (tag : List Byte) : (r.withPrefetch tag).prefetch =
    if 256 ≤ r.prefetch.length ∨ tag ∈ r.prefetch then r.prefetch else r.prefetch ++ [tag] := by
  unfold Prefix.withPrefetch
  by_cases hfull : 256 ≤ r.prefetch.length
  · simp [hfull]
  · by_cases hlisted : tag ∈ r.prefetch <;> simp [hfull, hlisted]

theorem Prefix.withPrefetch_pfdrop {r : Prefix} (hfull : 256 ≤ r.prefetch.length) (tag : List Byte) :
    (r.withPrefetch tag).pfdrop = if r.pfdrop = BitVec.allOnes 32 then r.pfdrop else r.pfdrop + 1 := by
  rw [Prefix.withPrefetch, if_pos hfull]
  simp only [beq_iff_eq]

theorem State.actCommand_wprf (h : p.fn = 8) : s.actCommand p =
    let pr := s.prefix_ p.world
    if 256 ≤ pr.prefetch.length then
      (s.setPrefix { pr with pfdrop := if pr.pfdrop == BitVec.allOnes 32 then pr.pfdrop else pr.pfdrop + 1 }, [])
    else if pr.prefetch.contains p.tag then (s, [])
    else (s.setPrefix { pr with prefetch := pr.prefetch ++ [p.tag] }, []) := by
  rw [State.actCommand, h]; rfl

theorem State.actCommand_wprf_prefix (h : p.fn = 8) :
    (s.actCommand p).1.prefix_ p.world = (s.prefix_ p.world).withPrefetch p.tag := by
  rw [State.actCommand_wprf h]
  unfold Prefix.withPrefetch
  dsimp only
  split
  · exact s.setPrefix_prefix (s.prefix_world _)
  · split
    · rfl
    · exact s.setPrefix_prefix (s.prefix_world _)

end
end Sys2Proof.Machine
end

section
namespace Sys2Proof.Machine
open Sys2Proof

/-! ### The step in which a command acts (R298, R300) -/

/-- The state with another list of cached lines. -/
def State.withCached (s : State) (c : List (Nat × Option Nat)) : State := s.modEng fun e => { e with cached := c }

/-- From `s` to `t` the index, the worlds' records of it and what leaves the package alone have changed. -/
structure IndexOnly (s t : State) : Prop where
  tb : t.tb = s.tb
  mem : t.mem = s.mem
  core : t.core = s.core
  agenda : t.agenda = s.agenda
  pcmds : t.eng.pcmds = s.eng.pcmds

namespace IndexOnly

theorem refl (s : State) : IndexOnly s s := ⟨rfl, rfl, rfl, rfl, rfl⟩

theorem kvin (s : State) (w d : Nat) (tag : List Byte) : IndexOnly s (s.kvin w d tag).1 := by
  unfold State.kvin
  dsimp only
  repeat' split
  all_goals exact ⟨rfl, rfl, rfl, rfl, rfl⟩

theorem kvap (s : State) (w : Nat) : IndexOnly s (s.kvap w).1 := by
  unfold State.kvap
  dsimp only
  repeat' split
  all_goals exact ⟨rfl, rfl, rfl, rfl, rfl⟩

/-- Whatever its function, a command changes no memory, no core, and no other command. -/
theorem actCommand (s : State) (p : PCommand) : IndexOnly s (s.actCommand p).1 := by
  unfold State.actCommand
  dsimp only
  split
  case h_3 => exact kvin s _ _ _
  case h_4 => exact kvap s _
  case h_7 =>
    split
    · exact refl s
    · split
      · exact kvin s _ _ _
      · exact refl s
  all_goals
    repeat' split
    all_goals exact ⟨rfl, rfl, rfl, rfl, rfl⟩

theorem actCommand_withCached (s : State) (c : List (Nat × Option Nat)) (p : PCommand) : IndexOnly s ((s.withCached c).actCommand p).1 := by
  obtain ⟨htb, hmem, hcore, hagenda, hpcmds⟩ := actCommand (s.withCached c) p
  exact ⟨htb, hmem, hcore, hagenda, hpcmds⟩

end IndexOnly

theorem State.pcmd?_modPcmd {s : State} {id : Nat} {p : PCommand} (hp : s.pcmd? id = some p) {f : PCommand → PCommand}
    (hf : ∀ q, (f q).id = q.id) : (s.modPcmd id f).pcmd? id = some (f p) := by
  have h := find?_map_key (f := f) (·.id) (k := id) (fun q hq => (hf q).trans hq) s.eng.pcmds
  exact h.trans (congrArg (Option.map f) hp)

theorem State.pcmd?_dropPcmd (s : State) (id : Nat) : (s.dropPcmd id).pcmd? id = none :=
  List.find?_eq_none.mpr fun q hq => by simpa using (List.mem_filter.mp hq).2

/-- What awaited an access is free of it, and a command keeps all else. -/
theorem State.pcmd?_accessDone {s : State} {id : Nat} {p : PCommand} (hp : s.pcmd? id = some p) (a l : Nat) :
    ∃ b n, (s.accessDone a l).pcmd? id = some { p with blockers := b, notBefore := n } := by
  refine ⟨(unblock a l p.blockers p.notBefore).1, (unblock a l p.blockers p.notBefore).2, ?_⟩
  rw [State.pcmd?] at hp
  rw [State.pcmd?, State.accessDone]
  dsimp only [State.modEng]
  rw [List.find?_map]
  exact congrArg (Option.map _) hp

/-- The record that a command gives besides its words (R304). -/
def State.recordOf (s : State) (p : PCommand) : List Byte :=
  if p.fn == 5 && ((s.prefix_ p.world).slot p.slot.toNat).idx then s.kvexRecord p.world p.slot.toNat p.block else []

/-- A command has acted: what it did to the index is in `r`, and its results follow in 48 cycles; a WPRF is over. -/
def State.acted (s : State) (id : Nat) (p : PCommand) (r : State × List (Nat × W32)) : State :=
  let t := r.1.accessDone id s.tb
  if p.fn = 8 then t.dropPcmd id
  else (t.modPcmd id fun q => { q with words := r.2, record := s.recordOf p }).at_ (s.tb + 48) (.prefixResultWrite id)

section
variable {s : State} {id : Nat} {p : PCommand} (hp : s.pcmd? id = some p) (hact : p.act = some s.tb)
include hp hact

/-- A slot that is not held is a violation, and the index stays as it is (R300). -/
theorem exec_prefixCommandAct_notHeld (hheld : s.slotHeld p = false) : ∃ c, exec (.prefixCommandAct id) s = .next
    (((s.withCached c).modPcmd id fun q => { q with
      fault := some (.capperm, BitVec.ofNat 64 ((s.prefix_ p.world).slotVa p.slot.toNat)) }).at_ (s.tb + 48) (.prefixResultWrite id)) := by
  show ∃ c, execPrefixCommandAct id s = _
  rw [execPrefixCommandAct, hp]
  dsimp only
  rw [if_neg (by simp [hact])]
  cases s.lineOfCommand p with
  | none => exact ⟨s.eng.cached, congrArg _ (if_pos (by rw [hheld]; rfl))⟩
  | some k => exact ⟨_, congrArg _ (if_pos (congrArg not hheld))⟩

/-- A command whose slot is held, and whose page verifies where it reads it, acts. -/
theorem exec_prefixCommandAct_held (hheld : s.slotHeld p = true)
    (hpage : p.fn = 5 ∧ ((s.prefix_ p.world).slot p.slot.toNat).idx = true ∨ p.fn = 6 ∧
      ((s.prefix_ p.world).slot p.slot.toNat).idx = false ∧ ((s.prefix_ p.world).slot p.slot.toNat).dmg = false →
      s.pageBad p.world p.slot.toNat = none) :
    ∃ c, exec (.prefixCommandAct id) s = .next (s.acted id p ((s.withCached c).actCommand p)) := by
  have hread : (if p.fn == 5 && ((s.prefix_ p.world).slot p.slot.toNat).idx
      || p.fn == 6 && !((s.prefix_ p.world).slot p.slot.toNat).idx && !((s.prefix_ p.world).slot p.slot.toNat).dmg
      then s.pageBad p.world p.slot.toNat else none) = none := by
    split
    next h => exact hpage (by simpa [and_assoc] using h)
    next => rfl
  have hdone (u : State) (hu : u.tb = s.tb) (hr : u.recordOf p = s.recordOf p) : (let r := u.actCommand p
      let t := r.1.accessDone id r.1.tb
      if p.fn == 8 then t.dropPcmd id
      else (t.modPcmd id fun q => { q with words := r.2, record := u.recordOf p }).at_ (t.tb + 48) (.prefixResultWrite id))
        = s.acted id p (u.actCommand p) := by
    have htb : (u.actCommand p).1.tb = s.tb := (IndexOnly.actCommand u p).tb.trans hu
    have hdone : ((u.actCommand p).1.accessDone id s.tb).tb = s.tb := htb
    dsimp only
    rw [htb, hdone, hr, State.acted]
    simp only [beq_iff_eq]
  show ∃ c, execPrefixCommandAct id s = _
  rw [execPrefixCommandAct, hp]
  dsimp only
  rw [if_neg (by simp [hact])]
  cases s.lineOfCommand p with
  | none =>
    refine ⟨s.eng.cached, congrArg _ ((if_neg (by rw [hheld]; decide)).trans ?_)⟩
    split
    next h => exact absurd (hread.symm.trans h) (by simp)
    next => exact hdone s rfl rfl
  | some k =>
    refine ⟨(s.touchLine k).eng.cached, congrArg _ ((if_neg (by rw [show (s.touchLine k).slotHeld p = true from hheld]; decide)).trans ?_)⟩
    split
    next h => exact absurd (hread.symm.trans h) (by simp)
    next => exact hdone (s.touchLine k) rfl rfl

end
end Sys2Proof.Machine
end

section
namespace Sys2Proof.Machine
open Sys2Proof

/-! ### Which commands act (R300, R306) -/

/-- Nothing stops a command that gives results: its slot is held, and its page verifies where it reads it. -/
def State.mayAct (s : State) (p : PCommand) : Prop :=
  p.fn ≠ 8 ∧ s.slotHeld p = true ∧ (p.fn = 5 ∧ ((s.prefix_ p.world).slot p.slot.toNat).idx = true ∨ p.fn = 6 ∧
    ((s.prefix_ p.world).slot p.slot.toNat).idx = false ∧ ((s.prefix_ p.world).slot p.slot.toNat).dmg = false →
    s.pageBad p.world p.slot.toNat = none)

section
variable {s : State} {p : PCommand}

/-- The slot of KVIN, KVRL and KVIM is one of the world's, allocated, with a reference. -/
theorem State.slotHeld_referred (h : p.fn = 2 ∨ p.fn = 4 ∨ p.fn = 6) : s.slotHeld p = true ↔
    p.slot.toNat < (s.prefix_ p.world).quota ∧ ((s.prefix_ p.world).slot p.slot.toNat).alloc = true ∧
      0 < ((s.prefix_ p.world).slot p.slot.toNat).ref := by
  have heq : s.slotHeld p = (p.slot.toNat < (s.prefix_ p.world).quota && ((s.prefix_ p.world).slot p.slot.toNat).alloc
      && ((s.prefix_ p.world).slot p.slot.toNat).ref != 0) := by
    rcases h with h | h | h <;> rw [State.slotHeld, h] <;> rfl
  rw [heq]
  simp [and_assoc, Nat.pos_iff_ne_zero]

theorem State.slotHeld_kvex (h : p.fn = 5) : s.slotHeld p = true ↔
    p.slot.toNat < (s.prefix_ p.world).quota ∧ ((s.prefix_ p.world).slot p.slot.toNat).alloc = true := by
  have heq : s.slotHeld p = (p.slot.toNat < (s.prefix_ p.world).quota && ((s.prefix_ p.world).slot p.slot.toNat).alloc) := by
    rw [State.slotHeld, h]; rfl
  rw [heq]
  simp

theorem State.slotHeld_slotless (h : p.fn = 0 ∨ p.fn = 1 ∨ p.fn = 3 ∨ p.fn = 7 ∨ p.fn = 8) : s.slotHeld p = true := by
  rcases h with h | h | h | h | h <;> rw [State.slotHeld, h] <;> rfl

theorem State.mayAct_slotless (h : p.fn = 0 ∨ p.fn = 1 ∨ p.fn = 3 ∨ p.fn = 7) : s.mayAct p := by
  have hheld : s.slotHeld p = true := State.slotHeld_slotless (by tauto)
  refine ⟨?_, hheld, ?_⟩ <;> rcases h with h | h | h | h <;> simp [h]

theorem State.mayAct_referred (h : p.fn = 2 ∨ p.fn = 4) (hheld : p.slot.toNat < (s.prefix_ p.world).quota ∧
    ((s.prefix_ p.world).slot p.slot.toNat).alloc = true) (href : 0 < ((s.prefix_ p.world).slot p.slot.toNat).ref) : s.mayAct p := by
  have hheld : s.slotHeld p = true := (State.slotHeld_referred (by tauto)).mpr ⟨hheld.1, hheld.2, href⟩
  refine ⟨?_, hheld, ?_⟩ <;> rcases h with h | h <;> simp [h]

/-- A page that KVEX reads verifies; of a slot that is not indexed it reads none. -/
theorem State.mayAct_kvex (h : p.fn = 5) (hheld : p.slot.toNat < (s.prefix_ p.world).quota ∧
    ((s.prefix_ p.world).slot p.slot.toNat).alloc = true)
    (hpage : ((s.prefix_ p.world).slot p.slot.toNat).idx = true → s.pageBad p.world p.slot.toNat = none) : s.mayAct p :=
  ⟨by simp [h], (State.slotHeld_kvex h).mpr hheld, by simpa [h] using hpage⟩

/-- A page that KVIM reads verifies; of a slot that is indexed or damaged it reads none. -/
theorem State.mayAct_kvim (h : p.fn = 6) (hheld : p.slot.toNat < (s.prefix_ p.world).quota ∧
    ((s.prefix_ p.world).slot p.slot.toNat).alloc = true) (href : 0 < ((s.prefix_ p.world).slot p.slot.toNat).ref)
    (hpage : ((s.prefix_ p.world).slot p.slot.toNat).idx = false → ((s.prefix_ p.world).slot p.slot.toNat).dmg = false →
      s.pageBad p.world p.slot.toNat = none) : s.mayAct p :=
  ⟨by simp [h], (State.slotHeld_referred (by tauto)).mpr ⟨hheld.1, hheld.2, href⟩, by simpa [h] using hpage⟩

end

/-! ### What a command that has acted leaves -/

/-- `t` and its command `q`, after a command that did `r`. -/
structure Gave (r : State × List (Nat × W32)) (t : State) (q : PCommand) : Prop where
  words : q.words = r.2
  prefixes : t.eng.prefixes = r.1.eng.prefixes
  ways : t.eng.ways = r.1.eng.ways
  out : t.out = r.1.out

theorem Gave.prefix_ {r : State × List (Nat × W32)} {t : State} {q : PCommand} (h : Gave r t q) (w : Nat) : t.prefix_ w = r.1.prefix_ w :=
  State.prefix_congr h.prefixes w

section
variable {s : State} {id : Nat} {p : PCommand} (hp : s.pcmd? id = some p) {r : State × List (Nat × W32)} (hr : IndexOnly s r.1)
include hp hr

theorem State.acted_gave (h8 : p.fn ≠ 8) : ∃ q, (s.acted id p r).pcmd? id = some q ∧ q.fault = p.fault ∧ q.record = s.recordOf p
    ∧ Gave r (s.acted id p r) q ∧ (s.acted id p r).agenda = s.agenda ++ [(s.tb + 48, .prefixResultWrite id)]
    ∧ (s.acted id p r).mem = s.mem ∧ (s.acted id p r).core = s.core := by
  have hfound : r.1.pcmd? id = some p := by rw [State.pcmd?, hr.pcmds]; exact hp
  obtain ⟨b, n, hdone⟩ := State.pcmd?_accessDone hfound id s.tb
  rw [State.acted]
  rw [if_neg h8]
  exact ⟨_, State.pcmd?_modPcmd hdone fun _ => rfl, rfl, rfl, ⟨rfl, rfl, rfl, rfl⟩, congrArg (· ++ _) hr.agenda, hr.mem, hr.core⟩

omit hp in
/-- A WPRF is over once it has acted: it gives no results (R310). -/
theorem State.acted_wprf (h8 : p.fn = 8) : (s.acted id p r).pcmd? id = none ∧ (s.acted id p r).agenda = s.agenda
    ∧ (s.acted id p r).mem = s.mem ∧ ∀ w, (s.acted id p r).prefix_ w = r.1.prefix_ w := by
  rw [State.acted]
  rw [if_pos h8]
  exact ⟨State.pcmd?_dropPcmd _ id, hr.agenda, hr.mem, fun _ => rfl⟩

end

/-- The command acts, its results follow, and `f` holds of what it leaves. -/
def Acts (s : State) (id : Nat) (f : State → PCommand → Prop) : Prop :=
  ∃ t q, exec (.prefixCommandAct id) s = .next t ∧ t.pcmd? id = some q ∧ q.fault = none
    ∧ t.agenda = s.agenda ++ [(s.tb + 48, .prefixResultWrite id)] ∧ t.mem = s.mem ∧ t.core = s.core ∧ f t q

/-- Word `k` of a list of result words. -/
def wordAt (ws : List (Nat × W32)) (k : Nat) : Option W32 := (ws.find? fun y => y.1 == k).map fun y => y.2

/-- The command reports a status, and the index and the worlds' records of it stay as they are. -/
def Reports (s : State) (st : W32) (t : State) (q : PCommand) : Prop :=
  wordAt q.words 1 = some st ∧ t.eng.prefixes = s.eng.prefixes ∧ t.eng.ways = s.eng.ways

section
variable {s : State} {id : Nat} {p : PCommand} (hp : s.pcmd? id = some p) (hact : p.act = some s.tb) (hfault : p.fault = none)
include hp hact hfault

section
variable (hmay : s.mayAct p)
include hmay

theorem Acts.of_actCommand {f : State → PCommand → Prop} {r : List (Nat × Option Nat) → State × List (Nat × W32)}
    (hr : ∀ c, (s.withCached c).actCommand p = r c) (hf : ∀ c t q, Gave (r c) t q → q.record = s.recordOf p → f t q) : Acts s id f := by
  obtain ⟨h8, hheld, hpage⟩ := hmay
  obtain ⟨c, hexec⟩ := exec_prefixCommandAct_held hp hact hheld hpage
  have honly := IndexOnly.actCommand_withCached s c p
  rw [hr c] at hexec honly
  obtain ⟨q, hq, hqf, hqr, hgave, hagenda, hmem, hcore⟩ := State.acted_gave hp honly h8
  exact ⟨_, q, hexec, hq, hqf.trans hfault, hagenda, hmem, hcore, hf c _ q hgave hqr⟩

theorem Acts.of_report {st : W32} {ws : List (Nat × Option Nat) → List (Nat × W32)}
    (hr : ∀ c, (s.withCached c).actCommand p = (s.withCached c, ws c)) (hst : ∀ c, wordAt (ws c) 1 = some st) :
    Acts s id (Reports s st) :=
  .of_actCommand hp hact hfault hmay hr fun c _ _ hg _ => ⟨hg.words ▸ hst c, hg.prefixes, hg.ways⟩

/-! An insertion of a slot that is neither indexed nor damaged, under a tag (R301). -/

section
variable {tag : List Byte} (hidx : ((s.prefix_ p.world).slot p.slot.toNat).idx = false)
  (hdmg : ((s.prefix_ p.world).slot p.slot.toNat).dmg = false)
  (hkvin : ∀ c, (s.withCached c).actCommand p = (s.withCached c).kvin p.world p.slot.toNat tag)
include hidx hdmg hkvin

theorem Acts.kvin_hit_full {x : Way} (hx : s.hit p.world tag = some x) (href : ((s.prefix_ p.world).slot x.slot).ref = 65535) :
    Acts s id (Reports s 5) :=
  .of_report hp hact hfault hmay
    (fun c => (hkvin c).trans (State.kvin_hit_full (s := s.withCached c) hidx hdmg hx href)) fun _ => rfl

theorem Acts.kvin_hit {x : Way} (hx : s.hit p.world tag = some x) (href : ((s.prefix_ p.world).slot x.slot).ref ≠ 65535) :
    Acts s id fun t q => wordAt q.words 1 = some 2 ∧ wordAt q.words 2 = some (BitVec.ofNat 32 x.slot)
      ∧ (t.prefix_ p.world).slot x.slot =
          { (s.prefix_ p.world).slot x.slot with ref := ((s.prefix_ p.world).slot x.slot).ref + 1 } ∧ t.eng.ways = s.eng.ways := by
  refine .of_actCommand hp hact hfault hmay
    (fun c => (hkvin c).trans (State.kvin_hit (s := s.withCached c) hidx hdmg hx href)) fun c t q hg _ => ?_
  rw [hg.words, hg.prefix_]
  exact ⟨rfl, rfl, State.modSlot_slot_self .., hg.ways⟩

variable (hmiss : s.hit p.world tag = none)
include hmiss

theorem Acts.kvin_free {v : Nat} (hv : s.freeWay tag = some v) :
    Acts s id fun t q => wordAt q.words 1 = some 0 ∧ t.eng.ways = s.eng.ways ++ [⟨bucketOf tag, v, tag, p.world, p.slot.toNat⟩]
      ∧ (t.prefix_ p.world).slot p.slot.toNat =
          { (s.prefix_ p.world).slot p.slot.toNat with idx := true, bucket := bucketOf tag, way := v } := by
  refine .of_actCommand hp hact hfault hmay
    (fun c => (hkvin c).trans (State.kvin_free (s := s.withCached c) hidx hdmg hmiss hv)) fun c t q hg _ => ?_
  rw [hg.words, hg.prefix_]
  exact ⟨rfl, hg.ways, State.placeWay_slot_self ..⟩

variable (hfull : s.freeWay tag = none)
include hfull

theorem Acts.kvin_none (hown : s.ownWays p.world tag = []) :
    Acts s id (Reports s 3) :=
  .of_report hp hact hfault hmay
    (fun c => (hkvin c).trans (State.kvin_none (s := s.withCached c) hidx hdmg hmiss hfull hown)) fun _ => rfl

/-- The slot that gives up its way is another one: it has no reference. -/
theorem Acts.kvin_reclaim (href : 0 < ((s.prefix_ p.world).slot p.slot.toNat).ref) {y : Way}
    (hy : leastBy (fun x => ((s.prefix_ p.world).slot x.slot).age) (s.ownWays p.world tag) = some y) (hmem : y ∈ s.ownWays p.world tag) :
    Acts s id fun t q => wordAt q.words 1 = some 0 ∧ ⟨bucketOf tag, y.way, tag, p.world, p.slot.toNat⟩ ∈ t.eng.ways
      ∧ ((t.prefix_ p.world).slot y.slot).alloc = false ∧ ((t.prefix_ p.world).slot y.slot).idx = false := by
  have hne : y.slot ≠ p.slot.toNat := by
    obtain ⟨-, -, hzero⟩ := State.mem_ownWays.mp hmem
    intro h
    rw [h] at hzero
    omega
  refine .of_actCommand hp hact hfault hmay
    (fun c => (hkvin c).trans (State.kvin_reclaim (s := s.withCached c) hidx hdmg hmiss hfull hy)) fun c t q hg _ => ?_
  rw [hg.words, hg.prefix_, hg.ways, State.placeWay_slot_ne _ _ hne]
  refine ⟨rfl, List.mem_append_right _ (List.mem_singleton_self _), ?_⟩
  rw [State.unindex, State.modSlot_slot_self]
  exact ⟨rfl, rfl⟩

end
end

/-! The other functions, each in its cases (Table 12.4). -/

/-- KVHS gives the tag in words 8 to 15 (R303). -/
theorem Acts.kvhs (h : p.fn = 0) : Acts s id fun t q => wordAt q.words 1 = some 0
    ∧ (t.eng.prefixes = s.eng.prefixes ∧ t.eng.ways = s.eng.ways) ∧ ∀ k < 8, wordAt q.words (8 + k) =
      some (BitVec.ofNat 32 (leNat (((shake256 (p.block.take 32 ++ s.salt p.world ++ (p.block.drop 32).take 128)).drop (4 * k)).take 4))) := by
  refine .of_actCommand hp hact hfault (State.mayAct_slotless (.inl h)) (fun c => State.actCommand_kvhs _ h) fun c t q hg _ => ?_
  rw [hg.words]
  refine ⟨rfl, ⟨hg.prefixes, hg.ways⟩, fun k hk => ?_⟩
  interval_cases k <;> rfl

section
variable (h : p.fn = 1)
include h

theorem Acts.kvlk_miss (hmiss : s.hit p.world p.tag = none) : Acts s id fun t q => wordAt q.words 1 = some 1
    ∧ wordAt q.words 2 = some 0xFFFFFFFF ∧ t.eng.prefixes = s.eng.prefixes ∧ t.eng.ways = s.eng.ways := by
  refine .of_actCommand hp hact hfault (State.mayAct_slotless (.inr (.inl h)))
    (fun c => State.actCommand_kvlk_miss (s := s.withCached c) h hmiss) fun c t q hg _ => ?_
  rw [hg.words]
  exact ⟨rfl, rfl, hg.prefixes, hg.ways⟩

variable {x : Way} (hx : s.hit p.world p.tag = some x)
include hx

theorem Acts.kvlk_read (hr : p.ref = false) : Acts s id fun t q => wordAt q.words 1 = some 0
    ∧ wordAt q.words 2 = some (BitVec.ofNat 32 x.slot) ∧ wordAt q.words 3 = some (BitVec.ofNat 32 ((s.prefix_ p.world).slot x.slot).ref)
    ∧ t.eng.prefixes = s.eng.prefixes ∧ t.eng.ways = s.eng.ways := by
  refine .of_actCommand hp hact hfault (State.mayAct_slotless (.inr (.inl h)))
    (fun c => (State.actCommand_kvlk_hit (s := s.withCached c) h hx).trans (if_pos (by rw [hr]; rfl))) fun c t q hg _ => ?_
  rw [hg.words]
  exact ⟨rfl, rfl, rfl, hg.prefixes, hg.ways⟩

theorem Acts.kvlk_full (hr : p.ref = true) (hfull : ((s.prefix_ p.world).slot x.slot).ref = 65535) : Acts s id (Reports s 5) :=
  .of_report hp hact hfault (State.mayAct_slotless (.inr (.inl h))) (fun c => (State.actCommand_kvlk_hit (s := s.withCached c) h hx).trans
    ((if_neg (by rw [hr]; decide)).trans (if_pos (beq_iff_eq.mpr hfull)))) fun _ => rfl

theorem Acts.kvlk_referred (hr : p.ref = true) (hroom : ((s.prefix_ p.world).slot x.slot).ref ≠ 65535) :
    Acts s id fun t q => wordAt q.words 1 = some 0 ∧ (t.prefix_ p.world).slot x.slot =
      { (s.prefix_ p.world).slot x.slot with ref := ((s.prefix_ p.world).slot x.slot).ref + 1 } := by
  refine .of_actCommand hp hact hfault (State.mayAct_slotless (.inr (.inl h)))
    (fun c => (State.actCommand_kvlk_hit (s := s.withCached c) h hx).trans
      ((if_neg (by rw [hr]; decide)).trans (if_neg fun heq => hroom (beq_iff_eq.mp heq)))) fun c t q hg _ => ?_
  rw [hg.words, hg.prefix_]
  exact ⟨rfl, State.modSlot_slot_self ..⟩

end

section
variable (h : p.fn = 3)
include h

theorem Acts.kvap_free {j : Nat} (hj : (s.prefix_ p.world).free = some j) : Acts s id fun t q => wordAt q.words 1 = some 0
    ∧ wordAt q.words 2 = some (BitVec.ofNat 32 j) ∧ (t.prefix_ p.world).slot j =
      { (s.prefix_ p.world).slot j with alloc := true, ref := 1, idx := false, age := s.tb } := by
  refine .of_actCommand hp hact hfault (State.mayAct_slotless (.inr (.inr (.inl h))))
    (fun c => (State.actCommand_kvap _ h).trans (State.kvap_free (s := s.withCached c) hj)) fun c t q hg _ => ?_
  rw [hg.words, hg.prefix_]
  exact ⟨rfl, rfl, State.modSlot_slot_self ..⟩

variable (hfree : (s.prefix_ p.world).free = none)
include hfree

/-- The least recently used slot without a reference is taken, and its way is free (R302). -/
theorem Acts.kvap_reclaim {j : Nat} {x : Slot} (hj : (s.prefix_ p.world).reclaimable = some (j, x)) :
    Acts s id fun t q => wordAt q.words 1 = some 0 ∧ wordAt q.words 2 = some (BitVec.ofNat 32 j)
      ∧ ((t.prefix_ p.world).slot j).ref = 1 ∧ ((t.prefix_ p.world).slot j).idx = false
      ∧ ∀ y ∈ t.eng.ways, ¬ (y.bucket = x.bucket ∧ y.way = x.way) := by
  refine .of_actCommand hp hact hfault (State.mayAct_slotless (.inr (.inr (.inl h))))
    (fun c => (State.actCommand_kvap _ h).trans (State.kvap_reclaim (s := s.withCached c) hfree hj)) fun c t q hg _ => ?_
  rw [hg.words, hg.prefix_, hg.ways, State.allocate, State.modSlot_slot_self]
  refine ⟨rfl, rfl, rfl, rfl, fun y hy => ?_⟩
  have hkept := (List.mem_filter.mp hy).2
  rintro ⟨hb, hv⟩
  simp [hb, hv] at hkept

theorem Acts.kvap_none (hnone : (s.prefix_ p.world).reclaimable = none) : Acts s id (Reports s 0x10) :=
  .of_report hp hact hfault (State.mayAct_slotless (.inr (.inr (.inl h))))
    (fun c => (State.actCommand_kvap _ h).trans (State.kvap_none (s := s.withCached c) hfree hnone)) fun _ => rfl

end

section
variable (hheld : p.slot.toNat < (s.prefix_ p.world).quota ∧ ((s.prefix_ p.world).slot p.slot.toNat).alloc = true)
include hheld

section
variable (href : 0 < ((s.prefix_ p.world).slot p.slot.toNat).ref)
include href

theorem Acts.kvrl (h : p.fn = 4) : Acts s id fun t q => wordAt q.words 1 = some 0
    ∧ wordAt q.words 3 = some (BitVec.ofNat 32 (((s.prefix_ p.world).slot p.slot.toNat).ref - 1))
    ∧ ((t.prefix_ p.world).slot p.slot.toNat).ref = ((s.prefix_ p.world).slot p.slot.toNat).ref - 1
    ∧ (((t.prefix_ p.world).slot p.slot.toNat).alloc = true ↔
        1 < ((s.prefix_ p.world).slot p.slot.toNat).ref ∨ ((s.prefix_ p.world).slot p.slot.toNat).idx = true) := by
  refine .of_actCommand hp hact hfault (State.mayAct_referred (.inr h) hheld href)
    (fun c => (State.actCommand_kvrl _ h).trans (State.kvrl_eq ..)) fun c t q hg _ => ?_
  have hslot : (t.prefix_ p.world).slot p.slot.toNat = ((s.prefix_ p.world).slot p.slot.toNat).released s.tb := by
    rw [hg.prefix_]
    exact State.modSlot_slot_self ..
  have hword : wordAt q.words 3 = some (BitVec.ofNat 32 ((t.prefix_ p.world).slot p.slot.toNat).ref) := by
    rw [hg.words, hg.prefix_]
    rfl
  rw [hword, hslot, Slot.released_ref, hg.words]
  exact ⟨rfl, rfl, rfl, Slot.released_alloc hheld.2 _⟩

section
variable (hi : ((s.prefix_ p.world).slot p.slot.toNat).idx = true ∨ ((s.prefix_ p.world).slot p.slot.toNat).dmg = true)
include hi

theorem Acts.kvin_indexed (h : p.fn = 2) : Acts s id (Reports s 4) :=
  .of_report hp hact hfault (State.mayAct_referred (.inl h) hheld href)
    (fun c => (State.actCommand_kvin _ h).trans (State.kvin_indexed (s := s.withCached c) hi)) fun _ => rfl

theorem Acts.kvim_indexed (h : p.fn = 6) : Acts s id (Reports s 4) := by
  refine .of_report hp hact hfault (State.mayAct_kvim h hheld href fun hidx hdmg => ?_)
    (fun c => State.actCommand_kvim_indexed (s := s.withCached c) h hi) fun _ => rfl
  rcases hi with hi | hi
  · exact absurd (hidx.symm.trans hi) (by decide)
  · exact absurd (hdmg.symm.trans hi) (by decide)

end

/-- A record that does not verify is refused (R305). -/
theorem Acts.kvim_refused (h : p.fn = 6) (hidx : ((s.prefix_ p.world).slot p.slot.toNat).idx = false)
    (hdmg : ((s.prefix_ p.world).slot p.slot.toNat).dmg = false) (hpage : s.pageBad p.world p.slot.toNat = none)
    (hok : s.kvimOk p.world p.slot.toNat p.block = false) : Acts s id (Reports s 0x14) :=
  .of_report hp hact hfault (State.mayAct_kvim h hheld href fun _ _ => hpage)
    (fun c => (State.actCommand_kvim_fresh (s := s.withCached c) h hidx hdmg).trans (if_neg (ne_true_of_eq_false hok))) fun _ => rfl

end

section
variable (h : p.fn = 5)
include h

theorem Acts.kvex_unindexed (hidx : ((s.prefix_ p.world).slot p.slot.toNat).idx = false) : Acts s id (Reports s 4) := by
  refine .of_report hp hact hfault (State.mayAct_kvex h hheld fun hi => absurd (hidx.symm.trans hi) (by decide))
    (fun c => State.actCommand_kvex _ h) fun c => ?_
  rw [show (((s.withCached c).prefix_ p.world).slot p.slot.toNat).idx = false from hidx]
  rfl

/-- The record follows the words (R304). -/
theorem Acts.kvex_record (hidx : ((s.prefix_ p.world).slot p.slot.toNat).idx = true) (hpage : s.pageBad p.world p.slot.toNat = none) :
    Acts s id fun t q => wordAt q.words 1 = some 0 ∧ (t.eng.prefixes = s.eng.prefixes ∧ t.eng.ways = s.eng.ways)
      ∧ q.record = s.kvexRecord p.world p.slot.toNat p.block := by
  refine .of_actCommand hp hact hfault (State.mayAct_kvex h hheld fun _ => hpage) (fun c => State.actCommand_kvex _ h)
    fun c t q hg hrec => ?_
  rw [hg.words, show (((s.withCached c).prefix_ p.world).slot p.slot.toNat).idx = true from hidx]
  refine ⟨rfl, ⟨hg.prefixes, hg.ways⟩, hrec.trans (if_pos ?_)⟩
  rw [h, hidx]
  rfl

end
end

section
variable (h : p.fn = 7)
include h

theorem Acts.wseg_resident {k : Nat} {g : Segment} (hk : s.mappedAt p.world p.tag = some k) (hg : s.segment? p.tag = some g)
    (hsst : g.sst = 2) : let va := (s.prefix_ p.world).wwbase.toNat / 0x200000 * 0x200000 + 0x200000 * k
    Acts s id fun t q => wordAt q.words 1 = some 0 ∧ wordAt q.words 4 = some (BitVec.ofNat 32 va)
      ∧ wordAt q.words 5 = some (BitVec.ofNat 32 (va / 2 ^ 32)) ∧ t.eng.prefixes = s.eng.prefixes ∧ t.eng.ways = s.eng.ways := by
  refine .of_actCommand hp hact hfault (State.mayAct_slotless (.inr (.inr (.inr h))))
    (fun c => State.actCommand_wseg_resident (s := s.withCached c) h hk hg hsst) fun c t q hgave _ => ?_
  rw [hgave.words]
  exact ⟨rfl, rfl, rfl, hgave.prefixes, hgave.ways⟩

/-- The scheduler hears of a segment that is not resident, or not mapped (R309). -/
theorem Acts.wseg_absent (hno : ¬ ∃ k g, s.mappedAt p.world p.tag = some k ∧ s.segment? p.tag = some g ∧ g.sst = 2) :
    Acts s id fun t q => wordAt q.words 1 = some 6 ∧ (t.eng.prefixes = s.eng.prefixes ∧ t.eng.ways = s.eng.ways)
      ∧ t.out = s.out ++ [.absent p.world p.tag] := by
  refine .of_actCommand hp hact hfault (State.mayAct_slotless (.inr (.inr (.inr h))))
    (fun c => State.actCommand_wseg_absent (s := s.withCached c) h hno) fun c t q hg _ => ?_
  rw [hg.words]
  exact ⟨rfl, ⟨hg.prefixes, hg.ways⟩, hg.out⟩

end

omit hfault in
theorem exec_prefixCommandAct_wprf (h : p.fn = 8) : ∃ t, exec (.prefixCommandAct id) s = .next t ∧ t.pcmd? id = none
    ∧ t.agenda = s.agenda ∧ t.mem = s.mem ∧ t.prefix_ p.world = (s.prefix_ p.world).withPrefetch p.tag := by
  obtain ⟨c, hexec⟩ := exec_prefixCommandAct_held hp hact (State.slotHeld_slotless (by tauto)) (by simp [h])
  obtain ⟨hgone, hagenda, hmem, hprefix⟩ := State.acted_wprf (id := id) (IndexOnly.actCommand_withCached s c p) h
  exact ⟨_, hexec, hgone, hagenda, hmem, (hprefix p.world).trans (State.actCommand_wprf_prefix h)⟩

end

end Sys2Proof.Machine
end

section
namespace Sys2Proof.Machine
open Sys2Proof

/-! ### The segment directory (R308, R311) -/

theorem State.segment?_digest {s : State} {dg : List Byte} {g : Segment} (h : s.segment? dg = some g) : g.digest = dg := by
  simpa using List.find?_some h

theorem State.segment?_modSegment (s : State) (dg : List Byte) {f : Segment → Segment} (hf : ∀ g, (f g).digest = g.digest) :
    (s.modSegment dg f).segment? dg = (s.segment? dg).map f :=
  find?_map_key (f := f) Segment.digest (fun g hg => (hf g).trans hg) s.eng.segments

theorem State.modSegment_prefix (s : State) (dg : List Byte) (f : Segment → Segment) (w : Nat) :
    (s.modSegment dg f).prefix_ w = s.prefix_ w := rfl

theorem State.segment?_congr {s t : State} (h : t.eng.segments = s.eng.segments) (dg : List Byte) : t.segment? dg = s.segment? dg := by
  rw [State.segment?, h, State.segment?]

theorem State.segment?_listSegment (s : State) (dg : List Byte) :
    (s.listSegment dg).segment? dg = some ((s.segment? dg).getD (Segment.fresh dg)) := by
  unfold State.listSegment
  cases h : s.segment? dg with
  | none =>
    rw [State.segment?] at h
    exact (List.find?_append ..).trans (by rw [h]; simp [Segment.fresh])
  | some g => exact h

/-- What the listing of a digest leaves: all but the directory. -/
theorem State.listSegment_leaves (s : State) (dg : List Byte) : (s.listSegment dg).mem = s.mem ∧ (s.listSegment dg).out = s.out
    ∧ (s.listSegment dg).eng.demands = s.eng.demands := by
  unfold State.listSegment
  split <;> exact ⟨rfl, rfl, rfl⟩

/-- A segment as its fetch starts. -/
def Segment.started (g : Segment) (frame : Option Nat) : Segment :=
  { g with sst := 1, frame := g.frame.orElse fun _ => frame, tier := g.tiers.headD 2 }

/-- A fetch starts: the digest is listed, in SST 1, and its first missing piece is asked for. -/
theorem State.startFetch_eq (s : State) (dg : List Byte) : ∃ h : Segment, h.sst = 1 ∧
    ((s.listSegment dg).modSegment dg fun g => g.started (s.listSegment dg).freeFrame).segment? dg = some h ∧
    s.startFetch dg = (((s.listSegment dg).modSegment dg fun g => g.started (s.listSegment dg).freeFrame).modEng fun e =>
      { e with fetch := some dg }).say (.fetch dg h.tier (h.nextPiece.getD 0)) := by
  have hfound := ((s.listSegment dg).segment?_modSegment dg (f := fun g => g.started (s.listSegment dg).freeFrame) fun _ => rfl).trans
    (congrArg (Option.map _) (s.segment?_listSegment dg))
  refine ⟨_, ?_, hfound, ?_⟩
  · rfl
  · unfold State.startFetch
    dsimp only
    rw [show (State.modSegment _ dg fun g => { g with
      sst := 1, frame := g.frame.orElse fun _ => (s.listSegment dg).freeFrame, tier := g.tiers.headD 2 }).segment? dg = _ from hfound]
    rfl

/-- A world's record with a digest at a window slot. -/
def Prefix.withWeight (p : Prefix) (k : Nat) (dg : List Byte) : Prefix := { p with weights := setKey p.weights k dg }

theorem Prefix.withWeight_maps (p : Prefix) (k : Nat) (dg : List Byte) :
    (((p.withWeight k dg).weights.find? fun (_, d) => d == dg).map (·.1)).isSome = true := by
  rw [Option.isSome_map, List.find?_isSome]
  exact ⟨_, mem_setKey_self p.weights k dg, beq_self_eq_true dg⟩

/-- A segment that its world does not map is mapped, at a free window slot, and counts one map more. -/
theorem State.mapSegment_eq {s : State} {w : Nat} {dg : List Byte} (h : s.mappedAt w dg = none) : ∃ k,
    s.mapSegment w dg = (s.setPrefix ((s.prefix_ w).withWeight k dg)).modSegment dg fun g => { g with maps := g.maps + 1 } := by
  have hnone : ((s.prefix_ w).weights.any fun (_, d) => d == dg) = false := by
    rw [List.any_eq_false]
    exact List.find?_eq_none.mp (Option.map_eq_none_iff.mp h)
  unfold State.mapSegment
  dsimp only
  rw [hnone, if_neg Bool.false_ne_true]
  exact ⟨_, rfl⟩

theorem State.mapSegment_maps {s : State} {w : Nat} {dg : List Byte} {g : Segment} (h : s.mappedAt w dg = none) (hg : s.segment? dg = some g) :
    let t := s.mapSegment w dg
    (t.mappedAt w dg).isSome = true ∧ t.segment? dg = some { g with maps := g.maps + 1 } ∧ t.mem = s.mem
      ∧ t.eng.fetch = s.eng.fetch ∧ t.eng.demands = s.eng.demands := by
  obtain ⟨k, hk⟩ := State.mapSegment_eq h
  have hfound := (s.setPrefix ((s.prefix_ w).withWeight k dg)).segment?_modSegment dg (f := fun g => { g with maps := g.maps + 1 }) fun _ => rfl
  rw [hk]
  refine ⟨?_, hfound.trans (congrArg (Option.map _) hg), rfl, rfl, rfl⟩
  rw [State.mappedAt, State.modSegment_prefix, State.setPrefix_prefix s (p := (s.prefix_ w).withWeight k dg) (s.prefix_world w)]
  exact Prefix.withWeight_maps ..

section
variable {s : State} {dg : List Byte} {ow : Option Nat} {rest : List (List Byte × Option Nat)} (hidle : s.eng.fetch = none)
  (hd : s.eng.demands = (dg, ow) :: rest)
include hidle hd

/-- The first demand is for a digest that is not resident: its fetch starts (R311, R312). -/
theorem exec_coldStartFetch_absent (hr : s.resident dg = false) : exec .coldStartFetch s = .next
    ((s.modEng fun e => { e with demands := rest }).startFetch dg) := by
  show execColdStartFetch s = _
  rw [execColdStartFetch, hidle, hd]
  have hr : (s.modEng fun e => { e with demands := rest }).resident dg = false := hr
  exact congrArg _ (if_neg (ne_true_of_eq_false hr))

/-- The first demand is for a resident digest: nothing is fetched, and a world that asks has it mapped (R311). -/
theorem exec_coldStartFetch_resident (hr : s.resident dg = true) : exec .coldStartFetch s = .next
    (ow.elim (s.modEng fun e => { e with demands := rest }) fun w => (s.modEng fun e => { e with demands := rest }).mapSegment w dg) := by
  show execColdStartFetch s = _
  rw [execColdStartFetch, hidle, hd]
  have hr : (s.modEng fun e => { e with demands := rest }).resident dg = true := hr
  refine congrArg _ ((if_pos hr).trans ?_)
  cases ow <;> rfl

end

end Sys2Proof.Machine
end

section
namespace Sys2Proof.Machine
open Sys2Proof

/-! ### What leaves the segments and the fetch as they are (R187, R220, R291) -/

/-- From `s` to `t` neither the segment directory nor the fetch under way has changed. -/
structure FetchStands (s t : State) : Prop where
  segments : t.eng.segments = s.eng.segments
  fetch : t.eng.fetch = s.eng.fetch

namespace FetchStands
variable {r s t : State}

theorem refl (s : State) : FetchStands s s := ⟨rfl, rfl⟩

theorem trans (h : FetchStands r s) (g : FetchStands s t) : FetchStands r t := ⟨g.segments.trans h.segments, g.fetch.trans h.fetch⟩

theorem of_eng (h : t.eng = s.eng) : FetchStands s t := ⟨by rw [h], by rw [h]⟩

theorem foldl {α : Type} {f : State → α → State} (hf : ∀ s a, FetchStands s (f s a)) (l : List α) (s : State) :
    FetchStands s (l.foldl f s) :=
  List.foldlRecOn l f (refl s) fun _ h a _ => h.trans (hf _ a)

theorem modCore (s : State) (i : Nat) (f : Core → Core) : FetchStands s (s.modCore i f) := of_eng (by simp)

theorem record (s : State) (c : Copy) (st : CopyState) : FetchStands s (s.record c st) := of_eng (CoresOnly.record s c st).eng

theorem modEng (s : State) (f : Engines → Engines) (hs : (f s.eng).segments = s.eng.segments := by rfl)
    (hf : (f s.eng).fetch = s.eng.fetch := by rfl) : FetchStands s (s.modEng f) := ⟨hs, hf⟩

theorem modDisp (s : State) (f : Dispatch → Dispatch) : FetchStands s (s.modDisp f) := of_eng rfl

theorem at_ (s : State) (c : Nat) (i : Instr) : FetchStands s (s.at_ c i) := of_eng rfl

theorem withdraw (s : State) (c : Copy) : FetchStands s (s.withdraw c) := by
  unfold State.withdraw
  split
  · exact at_ s _ _
  · exact refl s

theorem accessGone (s : State) (id : Nat) : FetchStands s (s.accessGone id) := modEng s _

theorem accessDone (s : State) (id l : Nat) : FetchStands s (s.accessDone id l) := modEng s _

theorem cancelCopy (s : State) (id : Nat) : FetchStands s (s.cancelCopy id) := by
  unfold State.cancelCopy
  split
  · exact refl s
  · split
    · exact ((record s _ _).trans (withdraw _ _)).trans ((accessGone _ id).trans (modEng _ _))
    · exact refl s

theorem cancelSome (s : State) (i : Nat) (ok : Copy → Bool) : FetchStands s (s.cancelSome i ok) :=
  (foldl (fun s (c : Copy) => cancelCopy s c.id) _ s).trans (foldl (fun s (c : Coll) => (accessGone s c.id).trans (modEng _ _)) _ _)

theorem voidClaims (s : State) (i : Nat) : FetchStands s (s.voidClaims i) := by
  unfold State.voidClaims
  exact (foldl (fun s k => modCore s k fun c => c.voidClaims i) s.live s).trans (modDisp _ _)

theorem endRun (s : State) (i : Nat) (st : Status) : FetchStands s (s.endRun i st) := by
  rw [State.endRun, State.stopRun_eq]
  exact ((voidClaims s i).trans (modCore _ i _)).trans (modEng _ _)

theorem freeCore (s : State) (i e : Nat) : FetchStands s (s.freeCore i e) := by
  rw [State.freeCore_eq]
  exact ((modDisp s _).trans (modCore _ i _)).trans (at_ _ _ _)

theorem breakDomains (s : State) (j : Nat) : FetchStands s (s.breakDomains j) := by
  unfold State.breakDomains
  dsimp only
  split
  · exact refl s
  · exact foldl (fun s l => by split <;> exact modDisp s _) _ s

theorem dropCore (s : State) (j e i : Nat) : FetchStands s (s.dropCore j e i) :=
  have hq : FetchStands s (s.cancelQueued i) := cancelSome s i _
  ((hq.trans (endRun _ i _)).trans (freeCore _ i e)).trans (modDisp _ _)

theorem dropCores (s : State) (j e : Nat) : FetchStands s (s.dropCores j e) := by
  rw [State.dropCores_eq]
  exact (foldl voidClaims _ s).trans (foldl (fun s i => dropCore s j e i) _ _)

theorem modJetton (s : State) (j : Nat) (f : Jetton → Jetton) : FetchStands s (s.modJetton j f) := of_eng rfl

theorem endRequest (s : State) (j e status : Nat) (f : FaultRec) : FetchStands s (s.endRequest j e status f) := by
  unfold State.endRequest
  split
  · exact refl s
  · obtain ⟨ids, hclose⟩ := ((s.breakDomains j).dropCores j e).closeRequest_eq j e status f
    have hdropped := (breakDomains s j).trans (dropCores _ j e)
    rw [hclose]
    exact ((hdropped.trans (foldl (fun s id => accessDone s id e) ids _)).trans (modJetton _ j _)).trans (modJetton _ j _)

theorem endCopy (s : State) (c : Copy) : FetchStands s (s.endCopy c) := by
  unfold State.endCopy
  exact ((record s c _).trans (accessGone _ c.id)).trans (modEng _ _)

theorem writeResult (s : State) (p : PCommand) (ws : List (Nat × W32)) : FetchStands s (s.writeResult p ws) := of_eng rfl

theorem dropPcmd (s : State) (id : Nat) : FetchStands s (s.dropPcmd id) := modEng s _

end FetchStands

/-- The replays that a piece held back change in their cores and in the schedule of starts alone. -/
theorem State.releasePieces_leaves (s : State) (held : Nat → Bool) :
    (s.releasePieces held).mem = s.mem ∧ (s.releasePieces held).eng = s.eng := by
  unfold State.releasePieces
  refine List.foldlRecOn (motive := fun t : State => t.mem = s.mem ∧ t.eng = s.eng) _ _ ⟨rfl, rfl⟩ fun t ht i _ => ?_
  dsimp only
  split
  · split
    · exact ht
    · split
      · exact ⟨(State.modCore_mem ..).trans ht.1, (State.modCore_eng ..).trans ht.2⟩
      · exact ⟨(State.modCore_mem ..).trans ht.1, (State.modCore_eng ..).trans ht.2⟩
  · exact ht

/-! ### A tier fails (R312, R314) -/

/-- The last tier has failed: SST 3, and no fetch is under way. -/
def State.withFailed (s : State) (dg : List Byte) : State :=
  (s.modSegment dg fun g => { g with sst := 3 }).modEng fun e => { e with fetch := none }

/-- What else the failure ends, copies and commands and their requests, is in no segment. -/
theorem State.tierFail_fetchStands (s : State) (g : Segment) : FetchStands (s.withFailed g.digest) (s.tierFail g) := by
  unfold State.tierFail
  dsimp only
  refine .trans (.trans (.of_eng (State.releasePieces_leaves (s.withFailed g.digest) _).2) (.foldl (fun s c => ?_) _ _)) (.foldl (fun s p => ?_) _ _)
  · split
    · exact (FetchStands.endCopy s c).trans (.endRequest _ _ _ _ _)
    · exact .endCopy s c
  · have hgone := (FetchStands.writeResult s p (plainResult 0x11)).trans (.dropPcmd _ p.id)
    split
    · exact hgone.trans (.endRequest _ _ _ _ _)
    · exact hgone

end Sys2Proof.Machine
end

section
namespace Sys2Proof.Machine
open Sys2Proof

/-! ### The next tier (R312, R314) -/

section
variable {s : State} {dg : List Byte} {g : Segment} (hg : s.segment? dg = some g)
include hg

/-- The fetch goes on from the first missing piece, at the next tier. -/
theorem State.nextTier_goesOn {n : Nat} (hn : g.tiers.find? (fun y => g.tier < y) = some n) :
    (s.nextTier g).segment? dg = some { g with tier := n } ∧ (s.nextTier g).mem = s.mem ∧ (s.nextTier g).eng.fetch = s.eng.fetch := by
  obtain rfl := State.segment?_digest hg
  have hfound := s.segment?_modSegment g.digest (f := fun g => { g with tier := n }) fun _ => rfl
  rw [hg] at hfound
  unfold State.nextTier
  rw [hn]
  exact ⟨hfound, rfl, rfl⟩

/-- After the last tier the fetch has failed. -/
theorem State.nextTier_fails (hlast : ∀ y ∈ g.tiers, y ≤ g.tier) :
    (s.nextTier g).segment? dg = some { g with sst := 3 } ∧ (s.nextTier g).eng.fetch = none := by
  have hnone : g.tiers.find? (fun y => g.tier < y) = none :=
    List.find?_eq_none.mpr fun y hy => by simpa using hlast y hy
  obtain rfl := State.segment?_digest hg
  have hfound := s.segment?_modSegment g.digest (f := fun g => { g with sst := 3 }) fun _ => rfl
  rw [hg] at hfound
  have hstands := s.tierFail_fetchStands g
  unfold State.nextTier
  rw [hnone]
  exact ⟨(State.segment?_congr hstands.segments g.digest).trans hfound, hstands.fetch⟩

section
variable (hf : s.eng.fetch = some dg)
include hf

theorem exec_tierReadFailure : exec (.tierReadFailure dg) s = .next (s.nextTier g) := by
  show execTierReadFailure dg s = _
  rw [execTierReadFailure, hg]
  exact congrArg _ (if_pos (beq_iff_eq.mpr hf))

variable {k : BitVec 5} {pds : List (List Byte)} {data : List Byte}

/-- A piece that does not verify counts as a failing read (R312). -/
theorem exec_segmentPieceLand_refused
    (hbad : pds.length ≠ 32 ∨ shake256 pds.flatten ≠ dg ∨ data.length ≠ 65536 ∨ shake256 data ≠ pds.getD k.toNat []) :
    exec (.segmentPieceLand dg k pds data) s = .next (s.nextTier g) := by
  show execSegmentPieceLand dg k pds data s = _
  rw [execSegmentPieceLand, hg]
  exact congrArg _ ((if_neg (by simp [hf])).trans (if_pos (by simpa [or_assoc] using hbad)))

theorem exec_segmentPieceLand_stored (hpds : pds.length = 32) (hdg : shake256 pds.flatten = dg) (hlen : data.length = 65536)
    (hdata : shake256 data = pds.getD k.toNat []) {f : Nat} (hframe : g.frame = some f) (hmissing : g.pieces.getLsbD k.toNat = false) :
    exec (.segmentPieceLand dg k pds data) s = .next (s.storePiece g f k.toNat data) := by
  show execSegmentPieceLand dg k pds data s = _
  rw [execSegmentPieceLand, hg]
  refine congrArg _ ((if_neg (by simp [hf])).trans ((if_neg (by simp [hpds, hdg, hlen, hdata])).trans ?_))
  rw [hframe]
  exact if_neg (ne_true_of_eq_false hmissing)

end
end

/-! ### A piece is stored (R312, R313) -/

/-- A segment with a piece more. -/
def Segment.stored (g : Segment) (k : Nat) : Segment :=
  let p := g.pieces ||| (1#32 <<< k)
  { g with pieces := p, sst := if p == BitVec.allOnes 32 then 2 else g.sst }

/-- Memory with a piece at `a`, its lines written under the package's key. -/
def Mem.withPiece (m : Mem) (a : Nat) (data : List Byte) : Mem :=
  { m.write a data with lines := (List.range 256).foldl (fun l i => setKey l (a + 256 * i) ⟨257, false⟩) (m.write a data).lines }

theorem Mem.withPiece_bytes (m : Mem) (a : Nat) (data : List Byte) : (m.withPiece a data).bytes = (m.write a data).bytes := by
  unfold Mem.withPiece
  rfl

/-- The state with a piece in memory and in the directory. -/
def State.withPiece (s : State) (g : Segment) (f k : Nat) (data : List Byte) : State :=
  (s.modMem (·.withPiece (f + 65536 * k) data)).modSegment g.digest (·.stored k)

/-- A resident segment is fetched no more, and what awaited the piece goes on. -/
theorem State.storePiece_leaves (s : State) (g : Segment) (f k : Nat) (data : List Byte) : let u := s.withPiece g f k data
    (s.storePiece g f k data).mem = u.mem ∧ (s.storePiece g f k data).eng.segments = u.eng.segments
      ∧ ((u.segment? g.digest).map (·.sst) = some 2 → (s.storePiece g f k data).eng.fetch = none) := by
  unfold State.storePiece
  extract_lets u a s1 s2 s3 wake
  obtain ⟨hmem, heng⟩ := State.releasePieces_leaves (s3.modEng fun e => { e with copies := e.copies.map wake }) (· == a)
  have hkept : s3.mem = s2.mem ∧ s3.eng.segments = s2.eng.segments := by
    unfold s3
    split <;> exact ⟨rfl, rfl⟩
  refine ⟨hmem.trans hkept.1, (congrArg Engines.segments heng).trans hkept.2, fun h => (congrArg Engines.fetch heng).trans ?_⟩
  have hdone : s3 = s2.modEng fun e => { e with fetch := none } := if_pos (beq_iff_eq.mpr h)
  rw [hdone]
  rfl

/-- The piece's bytes are in its frame, its bit is set, and a segment that is resident is fetched no more. -/
theorem State.storePiece_spec {s : State} {dg : List Byte} {g : Segment} (hg : s.segment? dg = some g) (f k : Nat)
    (data : List Byte) : let t := s.storePiece g f k data
    t.segment? dg = some (g.stored k) ∧ t.mem.bytes = (s.mem.write (f + 65536 * k) data).bytes
      ∧ ((g.stored k).sst = 2 → t.eng.fetch = none) := by
  obtain ⟨hmem, hsegments, hfetch⟩ := s.storePiece_leaves g f k data
  have hfound : (s.withPiece g f k data).segment? g.digest = some (g.stored k) := by
    refine (State.segment?_modSegment _ g.digest (f := (·.stored k)) fun _ => rfl).trans ?_
    rw [State.segment?_digest hg]
    exact congrArg (Option.map _) hg
  refine ⟨?_, (congrArg Mem.bytes hmem).trans (Mem.withPiece_bytes ..), fun h => hfetch (by rw [hfound]; exact congrArg some h)⟩
  rw [State.segment?_congr hsegments, ← State.segment?_digest hg]
  exact hfound

end Sys2Proof.Machine
end

section
namespace Sys2Proof.Machine
open Sys2Proof

/-- Settles O35: each function of a command by its cases, an insertion by what its bucket holds; the cold-start engine by what the
first demand asks for, and by what a tier gives. -/
theorem prefixCommandsAct : Obligations.PrefixCommandsAct := by
  unfold Obligations.PrefixCommandsAct
  refine ⟨fun s id p hp hact hfault => ?_, fun s dg k pds data g f hm => ?_⟩
  · intro w d pr sl word acts same gives tag held fresh inserts
    have htag (h : p.fn ≠ 6) : p.block.take 32 = p.tag := (PCommand.tag_block h).symm
    have hinserts {tag : List Byte} (hmay : s.mayAct p) (hfresh : fresh)
        (hr : ∀ c, (s.withCached c).actCommand p = (s.withCached c).kvin w d tag) : inserts tag := by
      obtain ⟨-, href, hidx, hdmg⟩ := hfresh
      refine ⟨fun x hx => ⟨fun h => ?_, fun h => ?_⟩, fun v hmiss hv hfree hlow => ?_, fun hmiss hfull => ?_⟩
      · exact Acts.kvin_hit_full hp hact hfault hmay hidx hdmg hr hx h
      · exact Acts.kvin_hit hp hact hfault hmay hidx hdmg hr hx (Nat.ne_of_lt h)
      · exact Acts.kvin_free hp hact hfault hmay hidx hdmg hr hmiss (State.freeWay_eq_some hv hfree hlow)
      · intro mine
        have hnoway := State.freeWay_eq_none hfull
        refine ⟨fun hnone => ?_, fun ⟨x, hx⟩ => ?_⟩
        · have hown : s.ownWays w tag = [] := List.eq_nil_iff_forall_not_mem.mpr fun x hx => hnone x (State.mem_ownWays.mp hx)
          exact Acts.kvin_none hp hact hfault hmay hidx hdmg hr hmiss hnoway hown
        · obtain ⟨y, hy, hmem, hle⟩ := leastBy_of_mem (fun x => (pr.slot x.slot).age) (State.mem_ownWays.mpr hx)
          obtain ⟨t, q, hexec, hq, hqf, hagenda, hm, hcore, hst, hin, hgone⟩ :=
            Acts.kvin_reclaim hp hact hfault hmay hidx hdmg hr hmiss hnoway href hy hmem
          exact ⟨t, q, hexec, hq, hqf, hagenda, hm, hcore, hst, y, State.mem_ownWays.mp hmem,
            fun z hz => hle z (State.mem_ownWays.mpr hz), hin, hgone⟩
    refine ⟨fun h => ?_, fun h hmiss => ?_, fun x h hx hr => ?_, fun x h hx hr => ⟨fun hfull => ?_, fun hroom => ?_⟩, fun h hheld href hi => ?_,
      fun h hfresh => ?_, fun j h hj => ?_, fun j x h hfree hj => ?_, fun h hfree hnone => ?_, fun h hheld href => ?_, fun h hheld hidx => ?_,
      fun h hheld hidx hpage => ?_, fun h hheld href hi => ?_, fun h hfresh hpage => ⟨fun hok => ?_, fun hok => ?_⟩, fun h => ?_, fun h => ?_,
      fun h hnot => ?_⟩
    · exact Acts.kvhs hp hact hfault h
    · rw [htag (by rw [h]; decide)] at hmiss
      exact Acts.kvlk_miss hp hact hfault h hmiss
    · rw [htag (by rw [h]; decide)] at hx
      exact Acts.kvlk_read hp hact hfault h hx hr
    · rw [htag (by rw [h]; decide)] at hx
      exact Acts.kvlk_full hp hact hfault h hx hr hfull
    · rw [htag (by rw [h]; decide)] at hx
      exact Acts.kvlk_referred hp hact hfault h hx hr (Nat.ne_of_lt hroom)
    · exact Acts.kvin_indexed hp hact hfault hheld href hi h
    · have ⟨hheld, href, _⟩ := hfresh
      rw [htag (by rw [h]; decide)]
      exact hinserts (State.mayAct_referred (.inl h) hheld href) hfresh fun c => State.actCommand_kvin (s.withCached c) h
    · exact Acts.kvap_free hp hact hfault h hj
    · exact Acts.kvap_reclaim hp hact hfault h hfree hj
    · exact Acts.kvap_none hp hact hfault h hfree hnone
    · exact Acts.kvrl hp hact hfault hheld href h
    · exact Acts.kvex_unindexed hp hact hfault hheld h hidx
    · exact Acts.kvex_record hp hact hfault hheld h hidx hpage
    · exact Acts.kvim_indexed hp hact hfault hheld href hi h
    · obtain ⟨hheld, href, hidx, hdmg⟩ := hfresh
      exact Acts.kvim_refused hp hact hfault hheld href h hidx hdmg hpage hok
    · have ⟨hheld, href, hidx, hdmg⟩ := hfresh
      rw [← PCommand.tag_import h]
      exact hinserts (State.mayAct_kvim h hheld href fun _ _ => hpage) hfresh
        fun c => (State.actCommand_kvim_fresh (s := s.withCached c) h hidx hdmg).trans (if_pos hok)
    · rw [htag (by rw [h]; decide)]
      exact ⟨fun k g hk hg hsst => Acts.wseg_resident hp hact hfault h hk hg hsst, fun hno => Acts.wseg_absent hp hact hfault h hno⟩
    · obtain ⟨t, hexec, hgone, hagenda, hmem, hprefix⟩ := exec_prefixCommandAct_wprf hp hact h
      rw [htag (by rw [h]; decide)]
      refine ⟨t, hexec, hgone, hagenda, hmem, ?_⟩
      rw [hprefix]
      exact ⟨Prefix.withPrefetch_prefetch _ _, fun hfull => Prefix.withPrefetch_pfdrop hfull _⟩
    · have hheld : s.slotHeld p = false := by
        rw [Bool.eq_false_iff, Ne, State.slotHeld_referred h]
        rintro ⟨hd, halloc, href⟩
        rcases hnot with hq | ha | hr
        · exact absurd hd (Nat.not_lt.mpr hq)
        · exact absurd (ha.symm.trans halloc) (by decide)
        · exact absurd hr (Nat.ne_of_gt href)
      obtain ⟨c, hexec⟩ := exec_prefixCommandAct_notHeld hp hact hheld
      exact ⟨_, _, hexec, State.pcmd?_modPcmd (s := s.withCached c) hp fun _ => rfl, rfl, rfl, rfl, rfl⟩
  · refine ⟨fun ow rest hidle hd => ⟨fun hr => ?_, fun hr how => ?_, fun w hr how hmap hg => ?_⟩, fun hg hf => ?_⟩
    · obtain ⟨h, hsst, hfound, hstart⟩ := (s.modEng fun e => { e with demands := rest }).startFetch_eq dg
      obtain ⟨hmem, hout, hdemands⟩ := (s.modEng fun e => { e with demands := rest }).listSegment_leaves dg
      have hexec := exec_coldStartFetch_absent hidle hd hr
      rw [hstart] at hexec
      exact ⟨_, h, hexec, rfl, hdemands, hfound, hsst, congrArg (· ++ _) hout, hmem⟩
    · subst how
      exact exec_coldStartFetch_resident hidle hd hr
    · subst how
      obtain ⟨hmapped, hfound, hmem, hfetch, hdemands⟩ :=
        State.mapSegment_maps (s := s.modEng fun e => { e with demands := rest }) hmap hg
      exact ⟨_, _, exec_coldStartFetch_resident hidle hd hr, hfetch.trans hidle, hdemands, hmapped, hfound, rfl, hmem⟩
    · intro moves
      have hmoves {i : Instr} (hexec : exec i s = .next (s.nextTier g)) : moves i := by
        refine ⟨fun n hn => ?_, fun hlast => ?_⟩
        · obtain ⟨hfound, hmem, hfetch⟩ := State.nextTier_goesOn hg hn
          exact ⟨_, _, hexec, hfound, rfl, rfl, hmem, hfetch.trans hf⟩
        · obtain ⟨hfound, hfetch⟩ := State.nextTier_fails hg hlast
          exact ⟨_, _, hexec, hfound, rfl, rfl, hfetch⟩
      refine ⟨hmoves (exec_tierReadFailure hg hf), fun hbad => hmoves (exec_segmentPieceLand_refused hg hf hbad),
        fun hpds hdg hlen hdata hframe hmissing => ?_⟩
      obtain ⟨hfound, hbytes, hfetch⟩ := State.storePiece_spec hg f k.toNat data
      refine ⟨_, _, exec_segmentPieceLand_stored hg hf hpds hdg hlen hdata hframe hmissing, hfound, rfl, fun i hi => ?_, fun a ha => ?_,
        fun hall => ?_⟩
      · rw [Mem.get_congr hbytes, Mem.get_write hm, if_pos (by omega), Nat.add_sub_cancel_left]
      · rw [Mem.get_congr hbytes, Mem.get_write_out hm (by omega)]
      · have hsst : (g.stored k.toNat).sst = 2 := if_pos (beq_iff_eq.mpr hall)
        exact ⟨hsst, hfetch hsst⟩

end Sys2Proof.Machine
end

section
namespace Sys2Proof.Machine
open Sys2Proof

/-! ### A wait given back over the drain table of another core (R210, R334, R335) -/

/-- A consuming SWAIT of core 0 that has acted. Its home is given as a word of core 1's accumulators, with a number past the last
one: the word's address is that of the first code slot of core 1. -/
def wildWait : HomeOp :=
  { id := 1, asker := .core 0, run := 0, pc := 0, issue := 0, addr := 0, world := 0, what := .swait 0xFF000000 .eq true, home := .acc 1 0x18000
    h := 0, due := 0, blockers := [], waits := true, dst := none, acted := true, ret := 0, value := none, fault := none, lo := 0, hi := 0 }

/-- Cores 0 and 1 of a jetton that runs. Core 0 waits for `wildWait` at word 0, which its drain table holds. Core 1 waits at word 5,
which its drain table, one entry for word 0 alone, does not hold. -/
def wildPair : State := { State.reset with
  core := { Core.reset with iss := { Core.reset.iss with status := .running, wait := .home 1 } }
  others := [(1, { Core.reset with iss := { Core.reset.iss with status := .running, wait := .wev, pc := 5 } })]
  mem := { State.reset.mem with bytes := [(codeBase 1, 1)] }
  eng := { State.reset.eng with homes := [wildWait] }
  disp := { State.reset.disp with jettons := [(0, { Jetton.reset with state := .running, group := some ⟨false, 2, 1, [0, 1], [], []⟩ })] } }

theorem wildPair_good : wildPair.good :=
  ⟨by decide, ⟨⟨Nat.zero_le 1, trivial⟩, by decide⟩, Core.reset_wired, fun p hp => by
    rw [List.mem_singleton.mp hp]
    exact Core.reset_wired⟩

/-- Whether an outcome leaves core 1 waiting in a WEV. -/
def core1Waits : Result → Bool
  | .next t => (t.getCore 1).iss.wait == .wev
  | _ => false

theorem preempted_core1Waits : core1Waits (exec (.preemptionRequest 0) wildPair) = false := by decide +kernel

theorem wildPair_stubFor : wildPair.stubFor 1 5 = none := by decide +kernel

/-- Refutes O41: the clause for a core that the request finds at a word outside its drain table says that the core goes on to drain
as it stands, by its drain table as it was before the request. The cores of the group take the request one after another, and the
wait that core 0 abandons gives back what it consumed (R210) by a write of memory. A good state says nothing of where that word
lies: in `wildPair`, which no run reaches, it lies over the drain table of core 1, which then holds the word of core 1's wait. -/
theorem not_preemptionSeals : ¬ Obligations.PreemptionSeals := by
  unfold Obligations.PreemptionSeals
  intro h
  obtain ⟨hrunning, -⟩ := h wildPair 0 1 (Drain.mk 0 none 0 false false false 0 false false none) wildPair_good
  obtain ⟨t, hexec, -, hstays, -⟩ := hrunning rfl
  have hcore := hstays (by decide) rfl rfl (.inr wildPair_stubFor)
  have hwaits : core1Waits (exec (.preemptionRequest 0) wildPair) = true := by
    rw [hexec, core1Waits, hcore]
    rfl
  exact absurd hwaits (by rw [preempted_core1Waits]; decide)

end Sys2Proof.Machine
end

section
namespace Sys2Proof.Machine
open Sys2Proof

/-! ### A range written whole changes memory alone (R242, R253) -/

/-- The state with another memory. -/
def State.withMem (s : State) (m : Mem) : State := { s with mem := m }

theorem State.dirty_withMem (s : State) (world a : Nat) : s.dirty world a = s.withMem (s.dirty world a).mem := by
  unfold State.dirty
  split
  · split <;> rfl
  · rfl

/-- A write of HBM lines that no line refuses. -/
theorem State.landHbm_withMem {s t : State} {world key : Nat} {pieces : List (Nat × List Byte)}
    (h : s.landHbm world key pieces = (t, none)) : t = s.withMem t.mem := by
  induction pieces generalizing s with
  | nil =>
    obtain ⟨rfl, -⟩ := Prod.mk.inj h
    rfl
  | cons p r ih =>
    rw [State.landHbm] at h
    split at h
    · cases h
    · have ht := ih h
      rw [State.dirty_withMem] at ht
      exact ht

/-- A write of physical pieces that no line refuses. -/
theorem State.writePieces_withMem {s t : State} {world : Nat} {rs : List PRun} {bs : List Byte}
    (h : s.writePieces world rs bs = (t, none)) : t = s.withMem t.mem := by
  induction rs generalizing s bs with
  | nil =>
    obtain ⟨rfl, -⟩ := Prod.mk.inj h
    rfl
  | cons r l ih =>
    rw [State.writePieces] at h
    split at h
    · exact ih h
    · split at h
      · cases hland : s.landHbm world r.key (lineSplit r.pa (bs.take r.n) ((bs.take r.n).length + 1)) with
        | mk u bad =>
          rw [hland] at h
          cases bad with
          | some a => cases h
          | none =>
            have hu := State.landHbm_withMem hland
            have ht := ih h
            rw [hu] at ht
            exact ht
      · have ht := ih h
        exact ht

theorem State.ioWrite_withMem {s t : State} {world va : Nat} {gid : Option (BitVec 16)} {bs : List Byte}
    (h : s.ioWrite world gid va bs = .ok t) : t = s.withMem t.mem := by
  rw [State.ioWrite] at h
  split at h
  · cases h
  · rename_i rs _
    cases hw : s.writePieces world rs bs with
    | mk u bad =>
      rw [hw] at h
      cases bad with
      | some a => cases h
      | none =>
        obtain rfl := Except.ok.inj h
        exact State.writePieces_withMem hw

theorem State.spillParts_withMem {s t : State} {world va i : Nat} {parts : List (Nat × Nat)}
    (h : s.spillParts world va i parts = .ok t) : t = s.withMem t.mem := by
  induction parts generalizing s with
  | nil => exact State.ioWrite_withMem h
  | cons p r ih =>
    obtain ⟨u, hu, ht⟩ := okThen_ok h
    have ht := ih ht
    rw [State.ioWrite_withMem hu] at ht
    exact ht

/-! ### Evictions (R346, R361) -/

/-- Core `i` is in the pool, of no world until its scrub, which is to come (R355). -/
def State.evictedFrom (s : State) (i now : Nat) : Prop :=
  (s.getCore i).iss.status = .free ∧ (s.getCore i).owner = some noWorld ∧ (now + 1, Instr.coreScrubStart i) ∈ s.agenda

section
variable {p : Nat → Prop} {s t u : State} {i j : Nat}

/-- What is wound up does not depend on the memory. -/
theorem WindsUp.withMem (h : WindsUp p s t) (m : Mem) : WindsUp p (s.withMem m) (t.withMem m) :=
  ⟨rfl, h.tb, h.agenda, h.jetton, h.bound, h.world, h.iss, h.owner⟩

theorem WindsUp.evictedFrom (h : WindsUp p s t) {now : Nat} (hi : ¬ p i) (he : s.evictedFrom i now) : t.evictedFrom i now := by
  obtain ⟨hfree, howner, hscrub⟩ := he
  exact ⟨by rw [h.iss i hi, hfree], by rw [h.owner i hi, howner], h.agenda _ hscrub⟩

/-- A core that is freed for no world. -/
theorem State.evictOut_eq (s : State) (j i : Nat) : s.evictOut j i =
    ((({ s with free := s.free + 1 } : State).modJetton j fun x => { x with spill := x.spill ++ [s.spillOf i] }).modCore i
      (·.freed noWorld)).at_ (s.tb + 1) (.coreScrubStart i) := rfl

/-- The images of a jetton's evicted cores are of no account to what is wound up. -/
theorem State.modSpill_windsUp (s : State) (j : Nat) (f : List Spill → List Spill) :
    WindsUp p s (s.modJetton j fun x => { x with spill := f x.spill }) where
  mem := rfl
  tb := rfl
  agenda _ h := h
  jetton k := by
    by_cases hk : k = j
    · rw [hk, State.modJetton_jetton_self]
    · rw [State.modJetton, State.setJetton_jetton_ne _ hk]
  bound _ := rfl
  world _ := rfl
  iss _ _ := rfl
  owner _ _ := rfl

theorem State.evictOut_windsUp (s : State) (j i : Nat) : WindsUp (· = i) s (s.evictOut j i) := by
  have hspill := State.modSpill_windsUp (p := (· = i)) { s with free := s.free + 1 } j (· ++ [s.spillOf i])
  rw [State.evictOut_eq]
  refine .trans (.trans ⟨hspill.mem, hspill.tb, hspill.agenda, hspill.jetton, hspill.bound, hspill.world, hspill.iss, hspill.owner⟩ ?_)
    (.at_ _ _ _)
  exact .modCore (f := (·.freed noWorld)) _ i (fun _ => rfl) (fun _ => rfl) (.inl rfl)

theorem State.evictOut_evictedFrom (s : State) (j i : Nat) : (s.evictOut j i).evictedFrom i s.tb := by
  have hc : (s.evictOut j i).getCore i = (s.getCore i).freed noWorld := by
    rw [State.evictOut_eq, State.atCycle_getCore, State.getCore_modCore_self]
    rfl
  refine ⟨by rw [hc, Core.freed], by rw [hc, Core.freed], ?_⟩
  rw [State.evictOut_eq]
  exact List.mem_append_right _ (List.mem_singleton.mpr rfl)

/-- One core of an eviction: its image is written, and the core is free for no world. -/
theorem State.evictCore_spec (h : s.evictCore j i = .ok t) : WindsUp (· = i) (s.withMem t.mem) t ∧ t.evictedFrom i s.tb := by
  unfold State.evictCore at h
  obtain ⟨v, hv, ht⟩ := okThen_ok h
  obtain rfl := Except.ok.inj ht
  have hwind := v.evictOut_windsUp j i
  have hfreed := v.evictOut_evictedFrom j i
  rw [hwind.mem]
  have hmem := State.spillParts_withMem hv
  have htb : v.tb = s.tb := by
    rw [hmem]
    rfl
  rw [htb] at hfreed
  exact ⟨by rwa [← hmem], hfreed⟩

/-- The cores of an eviction: each is free for no world, and beside them memory alone has changed, and the images kept. -/
theorem State.evictCores_spec {l : List Nat} (h : s.evictCores j l = .ok u) :
    WindsUp (fun _ => True) (s.withMem u.mem) u ∧ ∀ i, s.evictedFrom i s.tb ∨ i ∈ l → u.evictedFrom i s.tb := by
  induction l generalizing s with
  | nil =>
    obtain rfl := Except.ok.inj h
    exact ⟨.refl _, fun i hi => hi.resolve_right List.not_mem_nil⟩
  | cons k l ih =>
    obtain ⟨v, hv, hu⟩ := okThen_ok h
    obtain ⟨hwind, hfreed⟩ := State.evictCore_spec hv
    obtain ⟨hrest, hall⟩ := ih hu
    have htb : v.tb = s.tb := hwind.tb
    refine ⟨((hwind.withMem u.mem).mono fun _ _ => trivial).trans hrest, fun i hi => ?_⟩
    rw [htb] at hall
    by_cases hk : i = k
    · exact hall i (.inl (hk ▸ hfreed))
    · exact hall i (hi.imp (fun he => hwind.evictedFrom (s := s.withMem v.mem) hk he) fun hm => (List.mem_cons.mp hm).resolve_left hk)

theorem exec_evictionRequest (s : State) (j : Nat) : exec (.evictionRequest j) s = .next (
    if (s.jetton j).state = .sealed ∧ (s.jetton j).evicted = false ∧ (s.jetton j).evictReq = none then
      s.modJetton j fun y => { y with evictReq := some s.tb } else s) :=
  congrArg Host.Outcome.next (if_congr (by simp [and_assoc]) rfl rfl)

theorem exec_evictionComplete (hx : (s.jetton j).state = .sealed) (hat : (s.jetton j).evictAt = some s.tb)
    (hu : s.evictCores j (s.heldCores j) = .ok u) : exec (.evictionComplete j) s =
      .next (u.modJetton j fun x => { x with evicted := true, evictReq := none, evictAt := none }) := by
  show execEvictionComplete j s = _
  rw [execEvictionComplete, hx, hat, hu]
  exact congrArg Host.Outcome.next (if_pos (by simp))

/-! ### The release of a frozen jetton (R330) -/

/-- A core of a frozen jetton goes back to the pool. -/
def State.releaseCore (s : State) (j i : Nat) : State := ((s.cancelQueued i).freeCore i s.tb).modDisp (·.leave j i)

theorem State.releaseCore_windsUp (s : State) (j i : Nat) : WindsUp (· = i) s (s.releaseCore j i) :=
  .trans (.trans (s.cancelSome_windsUp i _) (State.freeCore_windsUp (p := (· = i)) _ rfl s.tb)) (.modDisp _ rfl)

theorem State.releaseCore_pooled (s : State) (j i : Nat) : (s.releaseCore j i).pooled i s.tb :=
  WindsUp.pooled (p := fun _ => False) (.modDisp _ rfl) id (State.freeCore_pooled _ i s.tb)

/-- The cores of a frozen jetton go back to the pool, and nothing else of its request changes. -/
theorem State.releaseCores_spec (j : Nat) (l : List Nat) (s : State) : WindsUp (fun _ => True) s (l.foldl (·.releaseCore j ·) s) ∧
    ∀ i, s.pooled i s.tb ∨ i ∈ l → (l.foldl (·.releaseCore j ·) s).pooled i s.tb := by
  refine ⟨.foldl (fun s k => (s.releaseCore_windsUp j k).mono fun _ _ => trivial) l s, fun i hi => ?_⟩
  induction l generalizing s with
  | nil => exact hi.resolve_right List.not_mem_nil
  | cons k l ih =>
    have hwind := s.releaseCore_windsUp j k
    have hall := ih (s.releaseCore j k)
    rw [hwind.tb] at hall
    by_cases hk : i = k
    · exact hall (.inl (hk ▸ s.releaseCore_pooled j k))
    · exact hall (hi.imp (hwind.pooled hk) fun hm => (List.mem_cons.mp hm).resolve_left hk)

/-- The jetton's copies that ended in a fault are forgotten. -/
def State.forgetFaulted (s : State) (j : Nat) : State :=
  s.modEng fun e => { e with copies := e.copies.filter fun c => c.jetton != j || c.state != .faulted }

theorem exec_jettonRelease (hx : (s.jetton j).state = .frozen) : exec (.jettonRelease j) s =
    .next ((((s.heldCores j).foldl (·.releaseCore j ·) s).forgetFaulted j).modJetton j fun x =>
      x.rest ((s.heldCores j).foldl (·.releaseCore j ·) s).tb false) := by
  show execJettonRelease j s = _
  rw [execJettonRelease, hx]
  rfl

end

/-! ### The scrub of a core (R353, R355) -/

theorem exec_coreScrubStart (s : State) (i : Nat) : exec (.coreScrubStart i) s = .next (
    if (s.getCore i).iss.status = .free ∧ (s.getCore i).owner ≠ none ∧ (s.getCore i).scrubEnd = none then
      (s.modCore i fun k => { k with scrubEnd := some (s.tb + scrubTime (s.getCore i).shared - 1) }).at_
        (s.tb + scrubTime (s.getCore i).shared - 1) (.coreScrubEnd i) else s) :=
  congrArg Host.Outcome.next (if_congr (by simp [and_assoc, Option.isSome_iff_ne_none]) rfl rfl)

theorem exec_coreScrubEnd (s : State) (i : Nat) : exec (.coreScrubEnd i) s = .next (
    if (s.getCore i).iss.status = .free ∧ (s.getCore i).scrubEnd = some s.tb then
      s.modCore i fun k => { k with owner := none, scrubEnd := none } else s) :=
  congrArg Host.Outcome.next (if_congr (by simp) rfl rfl)

/-- What a list in ascending order holds of a key when only the keys that pass are kept. -/
theorem getKey_filter {α : Type} {l : List (Nat × α)} {lo : Nat} (h : keysRise lo l) (ok : Nat → Bool) (k : Nat) :
    getKey (l.filter fun x => ok x.1) k = if ok k = true then getKey l k else none := by
  induction l generalizing lo with
  | nil => simp [getKey]
  | cons x r ih =>
    obtain ⟨n, y⟩ := x
    obtain ⟨-, hr⟩ := h
    have ih := ih hr
    have hlt (hk : k < n) : getKey r k = none := getKey_none_of_lt hr (by omega)
    rcases Nat.lt_trichotomy n k with hn | rfl | hn
    · have hne : n ≠ k := by omega
      cases hok : ok n <;> simp [hok, getKey, hne, ih, Nat.not_lt_of_gt hn]
    · cases hok : ok n <;> simp [hok, getKey, ih]
    · have hne : n ≠ k := by omega
      cases hok : ok n <;> simp [hok, getKey, hne, ih, hn, hlt hn]

/-- Memory read after a run of bytes has been cleared. -/
theorem Mem.get_scrub {m : Mem} (h : m.wf = true) (lo n a : Nat) :
    (m.scrub lo n).get a = if lo ≤ a ∧ a < lo + n then 0 else m.get a := by
  have hkey := getKey_filter (keysRise_of_cellsWf h) (fun k => k < lo || lo + n ≤ k) a
  show (getKey (m.bytes.filter fun x => x.1 < lo || lo + n ≤ x.1) a).getD unlisted = _
  rw [hkey]
  by_cases hin : lo ≤ a ∧ a < lo + n
  · rw [if_pos hin, if_neg (by simp; omega)]
    rfl
  · rw [if_neg hin, if_pos (by simp; omega)]
    rfl

/-- A cycle of a scrub in the banks clears one block. -/
theorem State.scrubPart_bank {k : Nat} (hk : k < 3072) (s : State) (i : Nat) :
    (s.scrubPart i k).mem = s.mem.scrub (coreBase i + 128 * k) 128 := by
  unfold State.scrubPart
  dsimp only
  rw [if_pos hk]
  split
  · rw [State.modCore_mem, State.modMem_mem]
  · rfl

end Sys2Proof.Machine
end

section
namespace Sys2Proof.Machine
open Sys2Proof

/-- Settles O42: an eviction by what it leaves beside the memory it writes, a release by the cores it gives back, a scrub by the
bytes that it keeps. -/
theorem coresAreFreed : Obligations.CoresAreFreed := by
  unfold Obligations.CoresAreFreed
  intro s j i hg
  refine ⟨exec_evictionRequest s j, fun hx hat u hu => ?_, fun hx => ?_, exec_coreScrubStart s i, exec_coreScrubEnd s i, fun k hk a => ?_⟩
  · obtain ⟨hwind, hfreed⟩ := State.evictCores_spec hu
    refine ⟨_, exec_evictionComplete hx hat hu, rfl, ?_, ?_, fun hi => hfreed i (.inr hi)⟩
    · rw [State.modJetton_jetton_self]
    · rw [State.modJetton_jetton_self, hwind.jetton j]
      exact hx
  · obtain ⟨hwind, hpool⟩ := State.releaseCores_spec j (s.heldCores j) s
    refine ⟨_, exec_jettonRelease hx, hwind.mem, ?_, ?_, fun hi => ?_⟩
    · rw [State.modJetton_jetton_self]
      rfl
    · rw [State.modJetton_jetton_self, State.forgetFaulted, State.modEng_jetton, hwind.jetton j]
      rfl
    · obtain ⟨hfree, howner, hscrub⟩ := hpool i (.inr hi)
      rw [hwind.world i] at howner
      exact ⟨hfree, howner, hscrub⟩
  · obtain ⟨hwf, -⟩ := hg
    rw [State.scrubPart_bank hk, Mem.get_scrub hwf]

end Sys2Proof.Machine
end

section
namespace Sys2Proof.Machine
open Sys2Proof

/-! ### The debug port (R347 to R350) -/

/-- A choice between two next states, made by a test that a proposition states. -/
theorem next_ite {p : Bool} {q : Prop} [Decidable q] (h : p = true ↔ q) (s t : State) :
    (Host.Outcome.next (if p then s else t) : Result) = if q then .next s else .next t := by
  by_cases hq : q
  · rw [if_pos hq, if_pos (h.mpr hq)]
  · rw [if_neg hq, if_neg (h.not.mpr hq)]

theorem exec_halt (s : State) (i : Nat) : exec (.halt i) s =
    if (s.getCore i).iss.status.live = true ∧ (s.getCore i).fw = none ∧ (s.getCore i).sys.dbg = false ∧
      s.debugOn (s.getCore i).sys.world.toNat = true
    then .next (s.modCore i fun k => { k with iss := { k.iss with halting := true } }) else .next (s.say (.refused i)) :=
  next_ite (by simp [and_assoc]) _ _

theorem exec_step (s : State) (i : Nat) (n : BitVec 16) : exec (.step i n) s =
    if (s.getCore i).sys.dbg = true ∧ n ≠ 0 then .next (s.modCore i fun k => { k with iss := { k.iss with steps := n.toNat } })
    else .next (s.say (.refused i)) :=
  next_ite (by simp) _ _

theorem exec_cont (s : State) (i : Nat) : exec (.cont i) s =
    if (s.getCore i).sys.dbg = true then .next (s.modCore i fun k => { k with iss := { k.iss with leaving := true, steps := 0 } })
    else .next (s.say (.refused i)) :=
  next_ite Iff.rfl _ _

theorem exec_wreg (s : State) (i : Nat) (r : RegName) (v : BitVec 1056) : exec (.wreg i r v) s =
    if regFixed r = false ∧ ((s.getCore i).sys.dbg = true ∨ isBpaddr r = true) then .next (s.modCore i fun k => k.writeReg r v)
    else .next (s.say (.refused i)) :=
  next_ite (by simp) _ _

theorem exec_rreg (s : State) (i : Nat) (r : RegName) :
    exec (.rreg i r) s = .next (s.say (.debug i ((s.focus i).readReg r))) := rfl

/-- FPC by its debug name. -/
theorem State.readReg_fpc (s : State) : s.readReg (.st 0x02) = s.core.sys.fpc.setWidth 1056 := by
  have h : s.readReg (.st 0x02) = (s.core.sys.fpc.setWidth 64).setWidth 1056 := rfl
  rw [h]
  exact BitVec.setWidth_setWidth (by decide)

/-- Settles O43: each command of the port by the test that it makes, and a register by its debug name. -/
theorem debugPort : Obligations.DebugPort := by
  unfold Obligations.DebugPort
  intro s i n r v _
  have hread (r : RegName) : (s.focus i).core = s.getCore i := s.focus_core i
  refine ⟨exec_halt s i, exec_step s i n, exec_cont s i, ⟨_, exec_rreg s i r, ?_, ?_, ?_, ?_⟩, exec_wreg s i r v, fun a => rfl, fun a => rfl,
    rfl, rfl, rfl, fun a => rfl, by decide⟩
  · rintro a rfl
    rw [← State.focus_core]
    rfl
  · rintro a rfl
    rw [← State.focus_core]
    rfl
  · rintro rfl
    rw [State.readReg_fpc, State.focus_core]
  · rintro a rfl
    rw [← State.focus_core]
    rfl

end Sys2Proof.Machine
end

section
namespace Sys2Proof.Machine
open Sys2Proof

/-! ### A sorted list, looked up by its key -/

/-- A list sorted by `key` as the insertions of `sortBy` keep it. -/
theorem insertBy_pairwise {α : Type} {key : α → Nat} {l : List α} (h : l.Pairwise fun x y => key x ≤ key y) (x : α) :
    (insertBy key l x).Pairwise fun x y => key x ≤ key y := by
  induction l with
  | nil => exact List.pairwise_singleton ..
  | cons y r ih =>
    obtain ⟨hy, hr⟩ := List.pairwise_cons.mp h
    unfold insertBy
    split
    next hle =>
      refine List.pairwise_cons.mpr ⟨fun z hz => ?_, ih hr⟩
      rcases (mem_insertBy key r x z).mp hz with rfl | hz
      · exact hle
      · exact hy z hz
    next hgt =>
      refine List.pairwise_cons.mpr ⟨fun z hz => ?_, h⟩
      rcases List.mem_cons.mp hz with rfl | hz
      · omega
      · have := hy z hz
        omega

/-- An insertion stands after the entries of its own key. -/
theorem find?_insertBy {α : Type} {key : α → Nat} {l : List α} (h : l.Pairwise fun x y => key x ≤ key y) (x : α) (k : Nat) :
    (insertBy key l x).find? (key · == k) = (l ++ [x]).find? (key · == k) := by
  induction l with
  | nil => rfl
  | cons y r ih =>
    obtain ⟨hy, hr⟩ := List.pairwise_cons.mp h
    unfold insertBy
    split
    · rw [List.find?_cons, List.cons_append, List.find?_cons, ih hr]
    next hgt =>
      by_cases hx : key x = k
      · have hnone : (y :: r).find? (key · == k) = none := by
          rw [List.find?_eq_none]
          intro z hz
          have : key y ≤ key z := by
            rcases List.mem_cons.mp hz with rfl | hz
            · exact Nat.le_refl _
            · exact hy z hz
          simp only [beq_iff_eq]
          omega
        rw [List.find?_append, hnone]
        simp [hx]
      · rw [List.find?_append, List.find?_cons_of_neg (by simpa using hx)]
        simp [hx]

/-- Sorting keeps the entries of one key in their order. -/
theorem find?_sortBy {α : Type} (key : α → Nat) (l : List α) (k : Nat) : (sortBy key l).find? (key · == k) = l.find? (key · == k) := by
  have hfold (l acc : List α) (h : acc.Pairwise fun x y => key x ≤ key y) :
      (l.foldl (insertBy key) acc).find? (key · == k) = (acc ++ l).find? (key · == k) := by
    induction l generalizing acc with
    | nil => rw [List.foldl_nil, List.append_nil]
    | cons x l ih =>
      rw [List.foldl_cons, ih _ (insertBy_pairwise h x), List.find?_append, find?_insertBy h, ← List.find?_append, List.append_assoc,
        List.singleton_append]
  exact hfold l [] List.Pairwise.nil

/-! ### The answer to a command (R390, R391) -/

/-- The response as its 64 bytes. -/
def responseBytes (p : PCmd) (st v : Nat) : List Byte :=
  leBytes p.tag.toNat 2 ++ leBytes st 2 ++ List.replicate 4 0 ++ leBytes v 8 ++ List.replicate 48 0

theorem responseBytes_eq (p : PCmd) (st v : Nat) : putBytes (putBytes (putBytes (List.replicate 64 0) 0 (leBytes p.tag.toNat 2)) 2
    (leBytes st 2)) 8 (leBytes v 8) = responseBytes p st v := by
  have htag := leBytes_length p.tag.toNat 2
  have hst := leBytes_length st 2
  have hv := leBytes_length v 8
  unfold putBytes responseBytes
  generalize leBytes p.tag.toNat 2 = x at htag ⊢
  generalize leBytes st 2 = y at hst ⊢
  generalize leBytes v 8 = z at hv ⊢
  obtain ⟨x₀, x₁, rfl⟩ := List.length_eq_two.mp htag
  obtain ⟨y₀, y₁, rfl⟩ := List.length_eq_two.mp hst
  rw [hv]
  simp only [List.append_assoc]
  rfl

/-- A function as the response to its command leaves it. -/
def Func.answered (f : Func) (fn : Nat) (bs : List Byte) : Func := if f.fn == fn then { f with response := some bs, held := false } else f

/-- The state in which a response stands, before the interrupt that tells of it. -/
def State.responded (s : State) (p : PCmd) (st v : Nat) : State :=
  ({ s with mon := { s.mon with commands := true }, funcs := s.funcs.map (·.answered p.fn (responseBytes p st v)) } : State).say
    (.response p.fn (responseBytes p st v))

/-- The interrupt of a response, where vector 0 is enabled. -/
def State.tells (s : State) (p : PCmd) (st v : Nat) : List Out :=
  if s.funcs.any fun f => f.fn == p.fn && f.vectors.contains 0 then
    match (s.responded p st v).funcs.find? (·.fn == p.fn) with
    | some f => [.msix f.world 0]
    | none => []
  else []

theorem State.respond_eq (s : State) (p : PCmd) (st v : Nat) :
    s.respond p st v = { s.responded p st v with out := (s.responded p st v).out ++ s.tells p st v } := by
  unfold State.respond State.tells
  dsimp only
  rw [responseBytes_eq]
  split
  · show (match (s.responded p st v).funcs.find? (·.fn == p.fn) with
      | some f => (s.responded p st v).say (.msix f.world 0)
      | none => s.responded p st v) = _
    split
    · rfl
    · rw [List.append_nil]
  · rw [List.append_nil]
    rfl

section
variable (s : State) (p : PCmd) (st v : Nat)

@[simp] theorem State.respond_mem : (s.respond p st v).mem = s.mem := by rw [State.respond_eq]; rfl
@[simp] theorem State.respond_worlds : (s.respond p st v).worlds = s.worlds := by rw [State.respond_eq]; rfl
@[simp] theorem State.respond_funcs : (s.respond p st v).funcs = s.funcs.map (·.answered p.fn (responseBytes p st v)) := by
  rw [State.respond_eq]; rfl
@[simp] theorem State.respond_out :
    (s.respond p st v).out = s.out ++ [.response p.fn (responseBytes p st v)] ++ s.tells p st v := by
  rw [State.respond_eq]; rfl

variable {s} {p}

/-- No interrupt where no function of the number has vector 0 enabled. -/
theorem State.tells_nothing (h : ∀ f ∈ s.funcs, f.fn = p.fn → 0 ∉ f.vectors) : s.tells p st v = [] := by
  refine if_neg fun hany => ?_
  obtain ⟨f, hf, hon⟩ := List.any_eq_true.mp hany
  simp only [Bool.and_eq_true, beq_iff_eq, List.contains_iff_mem] at hon
  exact h f hf hon.1 hon.2

/-- Vector 0 of the function's world where it is enabled. -/
theorem State.tells_vector {f : Func} (h : s.funcs.find? (·.fn == p.fn) = some f) (hon : 0 ∈ f.vectors) :
    s.tells p st v = [.msix f.world 0] := by
  have hfn := List.find?_some h
  have hany : (s.funcs.any fun f => f.fn == p.fn && f.vectors.contains 0) = true :=
    List.any_eq_true.mpr ⟨f, List.mem_of_find?_eq_some h, by simpa [hon] using hfn⟩
  have hmap := find?_map_key Func.fn (k := p.fn) (f := fun f => { f with response := some (responseBytes p st v), held := false })
    (fun _ h => h) s.funcs
  rw [h] at hmap
  unfold State.tells
  rw [if_pos hany]
  show (match (s.funcs.map (·.answered p.fn (responseBytes p st v))).find? (·.fn == p.fn) with
    | some f => [Out.msix f.world 0]
    | none => []) = _
  unfold Func.answered
  rw [hmap]
  rfl

theorem State.mem_respond_funcs {f : Func} (hf : f ∈ s.funcs) (hfn : f.fn = p.fn) :
    { f with response := some (responseBytes p st v), held := false } ∈ (s.respond p st v).funcs := by
  rw [State.respond_funcs]
  exact List.mem_map.mpr ⟨f, hf, if_pos (beq_iff_eq.mpr hfn)⟩

/-- A function whose command is answered holds none. -/
theorem State.respond_held {f : Func} (hf : f ∈ (s.respond p st v).funcs) (hfn : f.fn = p.fn) : f.held = false := by
  rw [State.respond_funcs] at hf
  obtain ⟨g, -, rfl⟩ := List.mem_map.mp hf
  unfold Func.answered at hfn ⊢
  split
  · rfl
  next hne =>
    rw [if_neg hne] at hfn
    exact absurd (beq_iff_eq.mpr hfn) hne
end

/-- A state that counts one more change of the catalogue, or none. -/
theorem State.counted_eq (s t : State) : ∃ n, s.counted t = { t with mon := { t.mon with genCounter := n } } := by
  unfold State.counted
  split <;> exact ⟨_, rfl⟩

section
variable (s t : State) (p : PCmd) (v : Nat)

theorem State.answer_error (e : Nat) (gen : Bool) : s.answer p (.error e) gen = s.respond p e 0 := rfl
theorem State.answer_ok : s.answer p (.ok (t, v)) false = t.respond p 0 v := by
  simp only [State.answer, Bool.false_eq_true, if_false]

theorem State.answer_counted : s.answer p (.ok (t, v)) true = (s.counted t).respond p 0 v := by
  simp only [State.answer, if_true]
end

/-! ### The world that a command of the PF names (R391) -/

section
variable {s : State} {p : PCmd}

theorem State.pfWorld_denied (h : p.fn ≠ 0) : s.pfWorld p = .error 7 := if_pos (bne_iff_ne.mpr h)

theorem State.pfWorld_none (h : p.fn = 0) (hw : s.world? p.world.toNat = none) : s.pfWorld p = .error 2 := by
  unfold State.pfWorld
  rw [h, hw]
  rfl

theorem State.pfWorld_some (h : p.fn = 0) {x : World} (hw : s.world? p.world.toNat = some x) : s.pfWorld p = .ok x := by
  unfold State.pfWorld
  rw [h, hw]
  rfl
end

theorem State.wid_of_world? {s : State} {w : Nat} {x : World} (h : s.world? w = some x) : x.wid = w :=
  beq_iff_eq.mp (List.find?_some (p := fun x : World => x.wid == w) h)

theorem State.world?_congr {s t : State} (h : t.worlds = s.worlds) (w : Nat) : t.world? w = s.world? w :=
  congrArg (fun l : List World => l.find? fun x : World => x.wid == w) h

/-- A world's context changed, and looked up. -/
theorem State.modWorld_world? {s : State} {w : Nat} {x : World} (hx : s.world? w = some x) {f : World → World}
    (hf : ∀ x, (f x).wid = x.wid) : (s.modWorld w f).world? w = some (f x) :=
  (find?_map_key World.wid (fun x h => (hf x).trans h) s.worlds).trans (congrArg (Option.map f) hx)

/-! ### CREATE (R390) -/

/-- The arguments of a CREATE as Table 19.5 admits them. -/
@[reducible] def makesWorld (p : PCmd) : Prop := p.world.toNat ≤ 257 ∧ p.a.toNat < 32 ∧ p.b = 0 ∧ p.c = 0 ∧ p.kind = 0

/-- The world that CREATE makes. -/
def State.newWorld (s : State) (p : PCmd) : World :=
  { World.reset p.world.toNat with
    conf := p.a.getLsbD 0, dbgen := p.a.getLsbD 1
    scopemax := if 5 < (p.a.extractLsb' 2 3).toNat then 5 else p.a.extractLsb' 2 3
    keyGen := s.nextId, keyed := true, capPrompt := 0, capToken := 0 }

/-- The state with that world. -/
def State.created (s : State) (p : PCmd) : State :=
  { s with worlds := sortBy (fun (y : World) => y.wid) (s.worlds ++ [s.newWorld p]), nextId := s.nextId + 1 }

section
variable {s : State} {p : PCmd}

/-- CREATE by its checks, in their order. -/
theorem exec_create (s : State) (p : PCmd) : exec (.create p) s = .next (s.answer p (
    if p.fn ≠ 0 then .error 7 else if ¬ makesWorld p then .error 5 else if s.world? p.world.toNat ≠ none then .error 1
    else .ok (s.created p, 0)) false) := by
  refine congrArg (fun r => Host.Outcome.next (s.answer p r false)) ?_
  refine if_congr (by simp) rfl (if_congr ?_ rfl (if_congr (by simp [Option.isSome_iff_ne_none]) rfl rfl))
  simp only [Bool.or_eq_true, decide_eq_true_eq, bne_iff_ne, makesWorld, not_and_or, not_le, not_lt, or_assoc, ne_eq]

theorem State.newWorld_scopemax (s : State) (p : PCmd) : (s.newWorld p).scopemax.toNat = min (p.a.toNat / 4 % 8) 5 := by
  have hsm : (p.a.extractLsb' 2 3).toNat = p.a.toNat / 4 % 8 := by
    rw [BitVec.extractLsb'_toNat, Nat.shiftRight_eq_div_pow]
  unfold State.newWorld
  dsimp only
  split
  next hlt => rw [hsm] at hlt; rw [Nat.min_eq_right (by omega)]; rfl
  next hle => rw [hsm] at hle ⊢; rw [Nat.min_eq_left (by omega)]

theorem State.created_world? (v : Nat) : (s.created p).world? v = (s.worlds ++ [s.newWorld p]).find? (·.wid == v) :=
  find?_sortBy World.wid _ v

theorem State.created_world?_self (h : s.world? p.world.toNat = none) : (s.created p).world? p.world.toNat = some (s.newWorld p) := by
  rw [State.created_world?, List.find?_append, show s.worlds.find? (·.wid == p.world.toNat) = none from h]
  simp [State.newWorld, World.reset]

theorem State.created_world?_ne {v : Nat} (h : v ≠ p.world.toNat) : (s.created p).world? v = s.world? v := by
  rw [State.created_world?, List.find?_append, List.find?_cons_of_neg (by simpa [State.newWorld, World.reset] using h.symm)]
  exact Option.or_none
end

end Sys2Proof.Machine
end

section
namespace Sys2Proof.Machine
open Sys2Proof

/-! ### The items that a GRANT or a REVOKE names (R391, R392) -/

/-- The kind, the range and the reserved argument are those that Table 19.5 admits. -/
def namesItems (p : PCmd) : Prop :=
  let kind := p.kind.toNat
  (kind = 3 ∨ kind = 7 ∨ kind = 8 ∨ kind = 9 ∨ kind = 11 ∨ (kind = 10 ∧ 1 ≤ p.a.toNat)) ∧ p.b.toNat ≠ 0 ∧ p.c = 0 ∧
    p.a.toNat + p.b.toNat ≤ (if kind = 10 then 256 else kindTotal kind)

/-- The items of a command. -/
def itemsOf (p : PCmd) : List Nat := (List.range p.b.toNat).map (p.a.toNat + ·)

theorem mem_itemsOf {p : PCmd} {i : Nat} : i ∈ itemsOf p ↔ p.a.toNat ≤ i ∧ i < p.a.toNat + p.b.toNat := by
  simp only [itemsOf, List.mem_map, List.mem_range]
  constructor
  · rintro ⟨k, hk, rfl⟩
    omega
  · intro h
    exact ⟨i - p.a.toNat, by omega, by omega⟩

theorem itemsOf_nodup (p : PCmd) : (itemsOf p).Nodup :=
  List.Nodup.map (fun _ _ h => Nat.add_left_cancel h) List.nodup_range

/-- The checks that GRANT and REVOKE share, before what `f` answers for the world and the items. -/
def State.onItems (s : State) (p : PCmd) (f : World → List Nat → Except Nat (State × Nat)) : Except Nat (State × Nat) :=
  match s.pfWorld p with
  | .error e => .error e
  | .ok w =>
    match itemRange p.kind.toNat with
    | none => .error stBadArg
    | some (lo, hi) =>
      if p.a.toNat < lo || hi < p.a.toNat + p.b.toNat || p.b == 0 || p.c != 0 then .error stBadArg
      else f w ((List.range (min p.b.toNat 65537)).map (p.a.toNat + ·))

/-- What GRANT answers once its items are known. -/
def State.grants (s : State) (p : PCmd) (w : World) (items : List Nat) : Except Nat (State × Nat) :=
  let kind := p.kind.toNat
  if items.any fun i => (s.itemWorld kind i).isSome then .error stExists
  else if kindMax kind < s.amount w kind + p.b.toNat then .error stLimit
  else .ok (items.foldl (fun (s : State) i => s.giveItem w.wid kind i) s, 0)

/-- What REVOKE answers once its items are known. -/
def State.revokes (s : State) (p : PCmd) (w : World) (items : List Nat) : Except Nat (State × Nat) :=
  let kind := p.kind.toNat
  if items.any fun i => s.itemWorld kind i != some w.wid then .error stBadArg
  else if items.any fun i => s.itemBusy kind i then .error stBusy
  else .ok (items.foldl (fun (s : State) i => s.takeItem kind i) s, 0)

theorem exec_grant (s : State) (p : PCmd) : exec (.grant p) s = .next (s.answer p (s.onItems p (s.grants p)) true) := rfl

theorem exec_revoke (s : State) (p : PCmd) : exec (.revoke p) s = .next (s.answer p (s.onItems p (s.revokes p)) true) := rfl

section
variable {s : State} {p : PCmd} {x : World} {f : World → List Nat → Except Nat (State × Nat)}

theorem State.onItems_denied (h : p.fn ≠ 0) : s.onItems p f = .error 7 := by
  rw [State.onItems, State.pfWorld_denied h]

theorem State.onItems_noWorld (h : p.fn = 0) (hw : s.world? p.world.toNat = none) : s.onItems p f = .error 2 := by
  rw [State.onItems, State.pfWorld_none h hw]

/-- The items that each kind has. -/
theorem itemRange_eq (kind : Nat) : itemRange kind =
    if kind = 10 then some (1, 256)
    else if kind = 3 ∨ kind = 7 ∨ kind = 8 ∨ kind = 9 ∨ kind = 11 then some (0, kindTotal kind) else none := by
  unfold itemRange
  by_cases h10 : kind = 10
  · subst h10
    rfl
  · simp [h10, or_assoc]

/-- No item's number passes 16 bits. -/
theorem itemRange_le {kind : Nat} {r : Nat × Nat} (h : itemRange kind = some r) : r.2 ≤ 65536 := by
  rw [itemRange_eq] at h
  split at h
  · cases h
    decide
  · split at h
    next hkind =>
      cases h
      rcases hkind with rfl | rfl | rfl | rfl | rfl <;> decide
    next => cases h

/-- A command names items where its kind has a range of them, which holds what it asks for. -/
theorem namesItems_iff {p : PCmd} : namesItems p ↔ ∃ r, itemRange p.kind.toNat = some r ∧
    r.1 ≤ p.a.toNat ∧ p.a.toNat + p.b.toNat ≤ r.2 ∧ p.b.toNat ≠ 0 ∧ p.c = 0 := by
  unfold namesItems
  rw [itemRange_eq]
  by_cases h10 : p.kind.toNat = 10
  · simp only [h10, if_true, Option.some.injEq, exists_eq_left']
    grind
  · by_cases hkind : p.kind.toNat = 3 ∨ p.kind.toNat = 7 ∨ p.kind.toNat = 8 ∨ p.kind.toNat = 9 ∨ p.kind.toNat = 11
    · simp only [h10, hkind, if_true, if_false, Option.some.injEq, exists_eq_left']
      grind
    · simp only [h10, hkind, if_false]
      grind

theorem itemsOf_lt (h : namesItems p) {i : Nat} (hi : i ∈ itemsOf p) : i < 65536 := by
  obtain ⟨r, hr, -, hrange, -⟩ := namesItems_iff.mp h
  have := itemRange_le hr
  have := mem_itemsOf.mp hi
  omega

theorem State.onItems_unnamed (h : p.fn = 0) (hw : s.world? p.world.toNat = some x) (hn : ¬ namesItems p) :
    s.onItems p f = .error 5 := by
  rw [State.onItems, State.pfWorld_some h hw]
  dsimp only
  cases hr : itemRange p.kind.toNat with
  | none => rfl
  | some r =>
    refine if_pos ?_
    rw [namesItems_iff] at hn
    by_contra hall
    simp only [Bool.or_eq_true, decide_eq_true_eq, beq_iff_eq, bne_iff_ne, not_or, not_lt, not_not] at hall
    obtain ⟨⟨⟨hlo, hhi⟩, hb⟩, hc⟩ := hall
    exact hn ⟨r, hr, hlo, hhi, fun e => hb (BitVec.eq_of_toNat_eq e), hc⟩

theorem State.onItems_named (h : p.fn = 0) (hw : s.world? p.world.toNat = some x) (hn : namesItems p) :
    s.onItems p f = f x (itemsOf p) := by
  obtain ⟨r, hr, hlo, hhi, hb, hc⟩ := namesItems_iff.mp hn
  have hle := itemRange_le hr
  have hb : ¬ p.b = 0 := fun e => hb (by rw [e]; rfl)
  rw [State.onItems, State.pfWorld_some h hw, hr]
  dsimp only
  rw [Nat.min_eq_left (by omega), if_neg]
  · rfl
  · simp only [Bool.or_eq_true, decide_eq_true_eq, beq_iff_eq, bne_iff_ne, hb, hc, not_or]
    exact ⟨⟨⟨by omega, by omega⟩, id⟩, by simp⟩

theorem State.grants_exists {items : List Nat} (h : ∃ i ∈ items, s.itemWorld p.kind.toNat i ≠ none) : s.grants p x items = .error 1 := by
  obtain ⟨i, hi, hsome⟩ := h
  exact if_pos (List.any_eq_true.mpr ⟨i, hi, Option.isSome_iff_ne_none.mpr hsome⟩)

theorem State.grants_free {items : List Nat} (h : ∀ i ∈ items, s.itemWorld p.kind.toNat i = none) : s.grants p x items =
    if kindMax p.kind.toNat < s.amount x p.kind.toNat + p.b.toNat then .error 6
    else .ok (items.foldl (fun (s : State) i => s.giveItem x.wid p.kind.toNat i) s, 0) := by
  refine if_neg fun hany => ?_
  obtain ⟨i, hi, hsome⟩ := List.any_eq_true.mp hany
  rw [h i hi] at hsome
  exact Bool.false_ne_true hsome

theorem State.revokes_foreign {items : List Nat} (h : ∃ i ∈ items, s.itemWorld p.kind.toNat i ≠ some x.wid) :
    s.revokes p x items = .error 5 := by
  obtain ⟨i, hi, hne⟩ := h
  exact if_pos (List.any_eq_true.mpr ⟨i, hi, by simpa using hne⟩)

theorem State.revokes_own {items : List Nat} (h : ∀ i ∈ items, s.itemWorld p.kind.toNat i = some x.wid) : s.revokes p x items =
    if items.any fun i => s.itemBusy p.kind.toNat i then .error 4
    else .ok (items.foldl (fun (s : State) i => s.takeItem p.kind.toNat i) s, 0) := by
  refine if_neg fun hany => ?_
  obtain ⟨i, hi, hne⟩ := List.any_eq_true.mp hany
  exact bne_iff_ne.mp hne (h i hi)
end

/-! ### An item that passes to a world -/

/-- The kinds that have items. -/
def itemKind (kind : Nat) : Prop := kind = 3 ∨ kind = 7 ∨ kind = 8 ∨ kind = 9 ∨ kind = 10 ∨ kind = 11

theorem itemKind_of_namesItems {p : PCmd} (h : namesItems p) : itemKind p.kind.toNat := by
  obtain ⟨hkind, -⟩ := h
  unfold itemKind
  omega

theorem State.giveItem_leaves (s : State) (w kind i : Nat) : (s.giveItem w kind i).mem = s.mem ∧ (s.giveItem w kind i).core = s.core ∧
    (s.giveItem w kind i).worlds = s.worlds := by
  unfold State.giveItem
  repeat' split
  all_goals exact ⟨rfl, rfl, rfl⟩

/-- What a list of holders, with one more at its end, says of an item. -/
theorem find?_holder {α : Type} (num : α → Nat) (l : List (α × Nat)) (a : α) (w k : Nat) :
    (((l ++ [(a, w)]).find? fun y => num y.1 == k).map (·.2)) =
      ((l.find? fun y => num y.1 == k).map (·.2)).or (if num a = k then some w else none) := by
  rw [List.find?_append, Option.map_or, List.find?_singleton]
  by_cases h : num a = k <;> simp [h]

/-- An item that passes to a world is that world's, where nobody held it, and every other item is as it was. -/
theorem State.giveItem_itemWorld {kind i k : Nat} (hkind : itemKind kind) (hi : i < 65536) (s : State) (w : Nat) :
    (s.giveItem w kind i).itemWorld kind k =
      if k = i then (if kind = 3 ∨ kind = 7 then some w else (s.itemWorld kind k).or (some w)) else s.itemWorld kind k := by
  have hn : (BitVec.ofNat 16 i).toNat = i := by
    rw [BitVec.toNat_ofNat]
    omega
  have hor (o : Option Nat) : o.or (if i = k then some w else none) = if k = i then o.or (some w) else o := by
    by_cases h : k = i
    · rw [if_pos h, if_pos h.symm]
    · rw [if_neg h, if_neg fun e => h e.symm, Option.or_none]
  rcases hkind with rfl | rfl | rfl | rfl | rfl | rfl
  · by_cases h : k = i
    · subst h
      show (let x := (s.setJetton k _).jetton k; if x.held then some x.world else none) = _
      rw [State.setJetton_jetton_self]
      simp
    · show (let x := (s.setJetton i _).jetton k; if x.held then some x.world else none) = _
      rw [State.setJetton_jetton_ne _ h, if_neg h]
      rfl
  · by_cases h : k = i
    · subst h
      show (match getKey (setKey s.eng.queues k _) k with
        | some q => if q.held then some q.world else none
        | none => none) = _
      rw [getKey_setKey_self]
      simp
    · show (match getKey (setKey s.eng.queues i _) k with
        | some q => if q.held then some q.world else none
        | none => none) = _
      rw [getKey_setKey_ne _ h, if_neg h]
      rfl
  · refine (find?_holder BitVec.toNat s.commsHeld (BitVec.ofNat 16 i) w k).trans ?_
    rw [hn, hor]
    rfl
  · refine (find?_holder BitVec.toNat s.handlesHeld (BitVec.ofNat 16 i) w k).trans ?_
    rw [hn, hor]
    rfl
  · show ((sortBy Func.fn _).find? (·.fn == k)).map (·.world) = _
    rw [find?_sortBy Func.fn, List.find?_append, Option.map_or, List.find?_singleton]
    refine Eq.trans (congrArg _ ?_) (hor _)
    by_cases h : i = k <;> simp [h]
  · refine (find?_holder id s.qpHeld i w k).trans ?_
    rw [id, hor]
    rfl

/-- Items that nobody held, given one after another. -/
theorem State.giveItems_itemWorld {kind : Nat} (hkind : itemKind kind) (w : Nat) {l : List Nat} (hlt : ∀ i ∈ l, i < 65536) (hnd : l.Nodup)
    (s : State) (hfree : ∀ i ∈ l, s.itemWorld kind i = none) (k : Nat) :
    (l.foldl (fun (s : State) i => s.giveItem w kind i) s).itemWorld kind k = if k ∈ l then some w else s.itemWorld kind k := by
  induction l generalizing s with
  | nil => rfl
  | cons i l ih =>
    obtain ⟨hi, hl⟩ := List.nodup_cons.mp hnd
    have hgive := State.giveItem_itemWorld (k := k) hkind (hlt i (List.mem_cons_self ..)) s w
    rw [List.foldl_cons, ih (fun j hj => hlt j (List.mem_cons_of_mem _ hj)) hl]
    · by_cases hk : k = i
      · subst hk
        rw [hgive, if_neg hi, if_pos rfl, if_pos (List.mem_cons_self ..), hfree k (List.mem_cons_self ..), Option.none_or, ite_self]
      · rw [hgive, if_neg hk]
        simp [hk]
    · intro j hj
      have hne : j ≠ i := fun e => hi (e ▸ hj)
      rw [State.giveItem_itemWorld hkind (hlt i (List.mem_cons_self ..)), if_neg hne]
      exact hfree j (List.mem_cons_of_mem _ hj)

theorem State.giveItems_leaves (w kind : Nat) (l : List Nat) (s : State) :
    let t := l.foldl (fun (s : State) i => s.giveItem w kind i) s
    t.mem = s.mem ∧ t.core = s.core ∧ t.worlds = s.worlds := by
  refine List.foldlRecOn (motive := fun t : State => t.mem = s.mem ∧ t.core = s.core ∧ t.worlds = s.worlds) l _ ⟨rfl, rfl, rfl⟩
    fun t ⟨hmem, hcore, hworlds⟩ i _ => ?_
  obtain ⟨h1, h2, h3⟩ := t.giveItem_leaves w kind i
  exact ⟨h1.trans hmem, h2.trans hcore, h3.trans hworlds⟩

end Sys2Proof.Machine
end

section
namespace Sys2Proof.Machine
open Sys2Proof

/-! ### Loops over cores and over jettons -/

theorem CoresOnly.foldl_modCore (g : State → Core → Core) (l : List Nat) (s : State) :
    CoresOnly s (l.foldl (fun (s : State) i => s.modCore i (g s)) s) :=
  List.foldlRecOn (motive := CoresOnly s) l _ (.refl s) fun t ht _ _ => ht.trans (.modCore t _ _)

/-- A loop that changes one core a turn, in a way that a second turn does not add to. -/
theorem State.foldl_modCore_getCore {g : Core → Core} (hg : ∀ c, g (g c) = g c) (l : List Nat) (s : State) (i : Nat) :
    (l.foldl (fun (s : State) k => s.modCore k g) s).getCore i = if i ∈ l then g (s.getCore i) else s.getCore i := by
  induction l generalizing s with
  | nil => rfl
  | cons k l ih =>
    rw [List.foldl_cons, ih]
    by_cases hk : i = k
    · subst hk
      rw [State.getCore_modCore_self, hg, ite_self, if_pos (List.mem_cons_self ..)]
    · rw [State.getCore_modCore_ne _ hk]
      simp [hk]

/-- A change of a core that names the cycle names the same one in every turn of a loop over cores. -/
theorem State.foldl_modCore_tb (g : Nat → Core → Core) (l : List Nat) (s : State) :
    l.foldl (fun (s : State) k => s.modCore k (g s.tb)) s = l.foldl (fun (t : State) k => t.modCore k (g s.tb)) s := by
  induction l generalizing s with
  | nil => rfl
  | cons k l ih => rw [List.foldl_cons, List.foldl_cons, ih, State.modCore_tb]

/-- The state with another list of jettons. -/
def State.withJettons (s : State) (js : List (Nat × Jetton)) : State := s.modDisp fun d => { d with jettons := js }

theorem State.foldl_modJetton_eq (f : Jetton → Jetton) (l : List Nat) (s : State) :
    ∃ js, l.foldl (fun (s : State) j => s.modJetton j f) s = s.withJettons js := by
  refine List.foldlRecOn (motive := fun t => ∃ js, t = s.withJettons js) l _ ⟨s.disp.jettons, rfl⟩ fun t ⟨js, ht⟩ j _ => ?_
  subst ht
  exact ⟨_, rfl⟩

/-- A loop that changes one jetton a turn, in a way that a second turn does not add to. -/
theorem State.foldl_modJetton_jetton {f : Jetton → Jetton} (hf : ∀ x, f (f x) = f x) (l : List Nat) (s : State) (j : Nat) :
    (l.foldl (fun (s : State) k => s.modJetton k f) s).jetton j = if j ∈ l then f (s.jetton j) else s.jetton j := by
  induction l generalizing s with
  | nil => rfl
  | cons k l ih =>
    rw [List.foldl_cons, ih]
    by_cases hk : j = k
    · subst hk
      rw [State.modJetton_jetton_self, hf, ite_self, if_pos (List.mem_cons_self ..)]
    · rw [State.modJetton, State.setJetton_jetton_ne _ hk]
      simp [hk]

/-- The jettons of a world that are not FREE are among those that `jettonsOf` lists. -/
theorem State.mem_jettonsOf {s : State} {j : Nat} (hfree : (s.jetton j).state ≠ .free) : j ∈ s.jettonsOf (s.jetton j).world := by
  unfold State.jettonsOf
  cases hk : getKey s.disp.jettons j with
  | none =>
    refine absurd ?_ hfree
    rw [State.jetton, hk]
    rfl
  | some x =>
    have hx : s.jetton j = x := by
      rw [State.jetton, hk]
      rfl
    rw [hx] at hfree ⊢
    exact List.mem_filterMap.mpr ⟨(j, x), mem_of_getKey hk, by simp [hfree]⟩

/-! ### The steps of an FLR (R352) -/

section
variable {s : State} {w : Nat} {x : World} (hx : s.world? w = some x)
include hx

theorem exec_flr_begin (h : x.flr = none) : exec (.flr w) s = .next (s.flrStep w 1) := by
  show execFlr w s = _
  rw [execFlr, hx]
  dsimp only
  rw [h]

theorem exec_flr_step {k : Nat} (h : x.flr = some (k, s.tb)) : exec (.flr w) s = .next (s.flrStep w k) := by
  show execFlr w s = _
  rw [execFlr, hx]
  dsimp only
  rw [h]
  exact congrArg Host.Outcome.next (if_pos (beq_self_eq_true s.tb))

theorem exec_flr_wait {k c : Nat} (h : x.flr = some (k, c)) (hc : c ≠ s.tb) : exec (.flr w) s = .next s := by
  show execFlr w s = _
  rw [execFlr, hx]
  dsimp only
  rw [h]
  exact congrArg Host.Outcome.next (if_neg (by simpa using hc))
end

/-- The next step of a world's FLR is set, `d` cycles on. -/
def State.flrGoes (s : State) (w k d : Nat) : State := s.modWorld w fun x => { x with flr := some (k, s.tb + d) }

theorem State.flrGoes_world? {s : State} {w : Nat} {x : World} (hx : s.world? w = some x) (k d : Nat) :
    (s.flrGoes w k d).world? w = some { x with flr := some (k, s.tb + d) } :=
  State.modWorld_world? hx (fun _ => rfl)

/-! #### Step 1: admission stops -/

/-- The jettons of a world are stopped. -/
def State.stopJettons (s : State) (w : Nat) : State :=
  (s.jettonsOf w).foldl (fun (s : State) j => s.modJetton j fun x => { x with state := .stopped }) s

theorem State.flrStep_admission (s : State) (w : Nat) :
    s.flrStep w 1 = ((s.stopJettons w).modWorld w fun x => { x with stopped := true }).flrGoes w 2 1 := rfl

/-- Admission to a world stops: its jettons are stopped, and masters freeze in the next cycle. -/
theorem State.flrStep_admission_spec {s : State} {w : Nat} {x : World} (hx : s.world? w = some x) :
    (s.flrStep w 1).mem = s.mem ∧ (s.flrStep w 1).world? w = some { x with stopped := true, flr := some (2, s.tb + 1) } ∧
    ∀ j ∈ s.jettonsOf w, ((s.flrStep w 1).jetton j).state = .stopped := by
  have hj := fun j => State.foldl_modJetton_jetton (f := fun x => { x with state := .stopped }) (fun _ => rfl) (s.jettonsOf w) s j
  obtain ⟨js, hjs⟩ := State.foldl_modJetton_eq (fun x => { x with state := .stopped }) (s.jettonsOf w) s
  have htb : (s.stopJettons w).tb = s.tb := (congrArg State.tb hjs :)
  rw [State.flrStep_admission]
  refine ⟨(congrArg State.mem hjs :), ?_, fun j hm => ?_⟩
  · rw [State.flrGoes_world? (x := { x with stopped := true })]
    · exact congrArg (fun n => some { x with stopped := true, flr := some (2, n + 1) }) htb
    · exact State.modWorld_world? ((congrArg (fun s : State => s.world? w) hjs).trans hx) fun _ => rfl
  · have hjm := hj j
    rw [if_pos hm] at hjm
    exact congrArg Jetton.state hjm

/-! #### Step 2: every master freezes -/

/-- What the freezing of a world's masters keeps: memory, the worlds, the groups, and a core that is held is held still. -/
structure Freezes (s t : State) : Prop where
  mem : t.mem = s.mem
  tb : t.tb = s.tb
  worlds : t.worlds = s.worlds
  group : ∀ j, (t.jetton j).group = (s.jetton j).group
  bound : ∀ k, (t.getCore k).bnd.jetton = (s.getCore k).bnd.jetton
  status : ∀ k, (t.getCore k).iss.status = (s.getCore k).iss.status ∨ (t.getCore k).iss.status = .frozen

namespace Freezes
variable {r s t : State}

theorem refl (s : State) : Freezes s s := ⟨rfl, rfl, rfl, fun _ => rfl, fun _ => rfl, fun _ => .inl rfl⟩

theorem trans (h : Freezes r s) (g : Freezes s t) : Freezes r t where
  mem := g.mem.trans h.mem
  tb := g.tb.trans h.tb
  worlds := g.worlds.trans h.worlds
  group j := (g.group j).trans (h.group j)
  bound k := (g.bound k).trans (h.bound k)
  status k := (g.status k).elim (fun e => (h.status k).imp e.trans e.trans) .inr

theorem foldl {α : Type} {f : State → α → State} (hf : ∀ s a, Freezes s (f s a)) (l : List α) (s : State) : Freezes s (l.foldl f s) :=
  List.foldlRecOn (motive := Freezes s) l f (refl s) fun t ht a _ => ht.trans (hf t a)

theorem of_windsUp (h : WindsUp (fun _ => False) s t) (hw : t.worlds = s.worlds) : Freezes s t :=
  ⟨h.mem, h.tb, hw, fun j => by rw [h.jetton j], h.bound, fun k => .inl (by rw [h.iss k id])⟩

theorem modEng (s : State) (f : Engines → Engines) : Freezes s (s.modEng f) := of_windsUp (.modEng s f) rfl

theorem heldCores (h : Freezes s t) {i j : Nat} (hi : i ∈ s.heldCores j) : i ∈ t.heldCores j := by
  obtain ⟨hg, hj, hs⟩ := State.mem_heldCores.mp hi
  refine State.mem_heldCores.mpr ⟨by rwa [h.group], (h.bound i).trans hj, fun hfree => ?_⟩
  rcases h.status i with e | e
  · exact hs (e.symm.trans hfree)
  · exact absurd (e.symm.trans hfree) (by decide)

theorem frozen (h : Freezes s t) {i : Nat} (hi : (s.getCore i).iss.status = .frozen) : (t.getCore i).iss.status = .frozen :=
  (h.status i).elim (fun e => e.trans hi) id

end Freezes

theorem State.voidClaims_worlds (s : State) (i : Nat) : (s.voidClaims i).worlds = s.worlds :=
  (CoresOnly.foldl_modCore (fun _ c => c.voidClaims i) s.live s).worlds

theorem State.breakDomains_worlds (s : State) (j : Nat) : (s.breakDomains j).worlds = s.worlds := by
  unfold State.breakDomains
  dsimp only
  split
  · rfl
  · exact List.foldlRecOn (motive := fun t : State => t.worlds = s.worlds) _ _ rfl fun t ht l _ => by
      split <;> exact ht

/-- The run of a core of the world ends frozen, and no start of it is to come. -/
def State.freezeRun (s : State) (i : Nat) : State := (s.endRun i .frozen).modDisp (·.unstart i s.tb)

theorem State.freezeRun_status (s : State) (i : Nat) : ((s.freezeRun i).getCore i).iss.status = .frozen := by
  unfold State.freezeRun State.endRun
  rw [State.modDisp_getCore, State.stopRun_eq, State.modEng_getCore, State.getCore_modCore_self]
  rfl

theorem State.freezeRun_freezes (s : State) (i : Nat) : Freezes s (s.freezeRun i) := by
  have hwind : WindsUp (· = i) s (s.freezeRun i) := .trans (State.endRun_windsUp (p := (· = i)) s rfl .frozen) (.modDisp _ rfl)
  refine ⟨hwind.mem, hwind.tb, ?_, fun j => by rw [hwind.jetton j], hwind.bound, fun k => ?_⟩
  · show (State.stopRun _ i .frozen).worlds = _
    rw [State.stopRun_eq]
    exact (CoresOnly.modCore _ _ _).worlds.trans (s.voidClaims_worlds i)
  · by_cases hk : k = i
    · exact .inr (hk ▸ s.freezeRun_status i)
    · exact .inl (by rw [hwind.iss k hk])

/-- The masters of a jetton freeze. -/
def State.freezeJetton (s : State) (j : Nat) : State :=
  ((s.heldCores j).foldl (fun (s : State) i => s.freezeRun i) (s.breakDomains j)).modJetton j fun x =>
    { x with ended := [], preempt := false, evictReq := none, evictAt := none, sems := [] }

theorem State.modJetton_freezes (s : State) (j : Nat) {f : Jetton → Jetton} (hf : ∀ x, (f x).group = x.group) :
    Freezes s (s.modJetton j f) := by
  refine ⟨rfl, rfl, rfl, fun k => ?_, fun _ => rfl, fun _ => .inl rfl⟩
  by_cases hk : k = j
  · rw [hk, State.modJetton_jetton_self, hf]
  · rw [State.modJetton, State.setJetton_jetton_ne _ hk]

theorem State.freezeJetton_freezes (s : State) (j : Nat) : Freezes s (s.freezeJetton j) :=
  ((Freezes.of_windsUp (s.breakDomains_windsUp j) (s.breakDomains_worlds j)).trans
    (.foldl (fun s i => s.freezeRun_freezes i) _ _)).trans (State.modJetton_freezes _ j fun _ => rfl)

/-- What a loop of turns that freeze has frozen: the cores of its turns. -/
theorem Freezes.foldl_frozen {α : Type} {f : State → α → State} {P : State → α → Prop} {i : Nat} (hf : ∀ s a, Freezes s (f s a))
    (hP : ∀ s t a, Freezes s t → P s a → P t a) (hi : ∀ s a, P s a → ((f s a).getCore i).iss.status = .frozen)
    {l : List α} {a : α} (ha : a ∈ l) (s : State) (h : P s a) : ((l.foldl f s).getCore i).iss.status = .frozen := by
  induction l generalizing s with
  | nil => cases ha
  | cons b l ih =>
    rw [List.foldl_cons]
    rcases List.mem_cons.mp ha with rfl | ha
    · exact (Freezes.foldl hf l _).frozen (hi s a h)
    · exact ih ha _ (hP _ _ _ (hf s b) h)

theorem State.freezeJetton_frozen {s : State} {i j : Nat} (h : i ∈ s.heldCores j) :
    ((s.freezeJetton j).getCore i).iss.status = .frozen :=
  Freezes.foldl_frozen (P := fun _ k => k = i) (fun s k => s.freezeRun_freezes k) (fun _ _ _ _ h => h)
    (fun s k hk => hk ▸ s.freezeRun_status k) h _ rfl

/-- The masters in the cores of a world frozen, and what its engines have under way no longer awaited. -/
def State.frozenMasters (s : State) (w : Nat) : State :=
  let u := (s.jettonsOf w).foldl (fun (s : State) j => s.freezeJetton j) s
  ((u.eng.colls.filter fun c => c.world == w).map (·.id) ++ (u.eng.homes.filter fun h => h.actsFor == w && !h.acted).map (·.id)
    ++ (u.eng.pcmds.filter fun p => p.world == w && p.act.isNone).map (·.id)).foldl (fun (s : State) id => s.accessGone id) u

theorem State.frozenMasters_freezes (s : State) (w : Nat) : Freezes s (s.frozenMasters w) :=
  (Freezes.foldl (fun s j => s.freezeJetton_freezes j) _ s).trans (.foldl (fun s _ => .modEng s _) _ _)

theorem State.frozenMasters_frozen {s : State} {w i j : Nat} (hj : j ∈ s.jettonsOf w) (hi : i ∈ s.heldCores j) :
    ((s.frozenMasters w).getCore i).iss.status = .frozen :=
  (Freezes.foldl (f := fun s id => s.accessGone id) (fun s _ => .modEng s _) _ _).frozen
    (Freezes.foldl_frozen (P := fun s j => i ∈ s.heldCores j) (fun s j => s.freezeJetton_freezes j) (fun _ _ _ h hm => h.heldCores hm)
      (fun _ _ hm => State.freezeJetton_frozen hm) hj s hi)

/-- The engines without what a frozen world has not sent on its way. -/
def Engines.freeze (e : Engines) (w : Nat) : Engines :=
  { e with
    colls := e.colls.filter fun c => c.world != w
    homes := e.homes.filter fun h => h.actsFor != w || h.acted
    pcmds := e.pcmds.filter fun p => p.world != w || p.act.isSome
    copies := e.copies.map fun c => if c.world == w && c.state != .landed then { c with state := .cancelled } else c
    queues := e.queues.map fun (k, q) =>
      if q.world == w && q.held then (k, { q with state := 4, entry := none, holdXlate := false, irqs := [] }) else (k, q) }

theorem State.freezeWorld_eq (s : State) (w : Nat) : s.freezeWorld w =
    let u := ((s.frozenMasters w).modEng (·.freeze w)).modDisp fun d => { d with xlates := d.xlates.filter fun x => x.world != w }
    { u with funcs := u.funcs.map fun (f : Func) => if f.world == w then { f with frozen := true } else f } := rfl

/-- Every master of a world freezes in one cycle (R352, step 2). -/
theorem State.freezeWorld_spec (s : State) (w : Nat) : let t := s.freezeWorld w
    t.mem = s.mem ∧ t.tb = s.tb ∧ t.worlds = s.worlds ∧
    (∀ i j, j ∈ s.jettonsOf w → i ∈ s.heldCores j → (t.getCore i).iss.status = .frozen) ∧
    (∀ c ∈ t.eng.colls, c.world ≠ w) ∧ (∀ h ∈ t.eng.homes, h.world = w → h.acted = true) ∧
    (∀ c ∈ t.eng.copies, c.world = w → c.state = .landed ∨ c.state = .cancelled) ∧ ∀ f ∈ t.funcs, f.world = w → f.frozen = true := by
  have hfreezes := s.frozenMasters_freezes w
  have hfrozen := fun i j => State.frozenMasters_frozen (s := s) (w := w) (i := i) (j := j)
  rw [State.freezeWorld_eq]
  generalize s.frozenMasters w = u at hfreezes hfrozen ⊢
  refine ⟨hfreezes.mem, hfreezes.tb, hfreezes.worlds, hfrozen, fun c hc => ?_, fun h hh hw => ?_, fun c hc hw => ?_, fun f hf hw => ?_⟩
  · exact bne_iff_ne.mp (List.mem_filter.mp hc).2
  · have hact := (List.mem_filter.mp hh).2
    rw [Bool.or_eq_true] at hact
    exact hact.resolve_left fun hne => bne_iff_ne.mp hne hw
  · obtain ⟨d, -, rfl⟩ := List.mem_map.mp hc
    by_cases hd : (d.world == w && d.state != .landed) = true
    · rw [if_pos hd]
      exact .inr rfl
    · rw [if_neg hd] at hw ⊢
      left
      simpa [hw] using hd
  · obtain ⟨g, -, rfl⟩ := List.mem_map.mp hf
    by_cases hg : (g.world == w) = true
    · rw [if_pos hg]
    · rw [if_neg hg] at hw
      exact absurd (beq_iff_eq.mpr hw) hg

theorem State.flrStep_freeze (s : State) (w : Nat) : s.flrStep w 2 = (s.freezeWorld w).flrGoes w 3 1 := rfl

/-! #### Step 3: no translation and no root capability is held -/

/-- The world with no translation of its own, and none of it cached. -/
def State.untranslated (s : State) (w : Nat) : State :=
  (s.modWorld w fun x => { x with ranges := Vector.replicate 16 0, ptroot := 0 }).modDisp fun d =>
    { d with tlb := d.tlb.filter fun (v, _, _) => v != w }

theorem State.invalidateWorld_eq (s : State) (w : Nat) : s.invalidateWorld w =
    (s.jettonsOf w).foldl (fun (s : State) j => s.modJetton j fun x => { x with root := .null, rtag := false }) (s.untranslated w) := rfl

theorem State.flrStep_invalidate (s : State) (w : Nat) : s.flrStep w 3 = (s.invalidateWorld w).flrGoes w 4 1 := rfl

theorem State.invalidateWorld_spec {s : State} {w : Nat} {x : World} (hx : s.world? w = some x) : let t := s.invalidateWorld w
    t.mem = s.mem ∧ t.tb = s.tb ∧ t.world? w = some { x with ranges := Vector.replicate 16 0, ptroot := 0 } ∧ (∀ e ∈ t.disp.tlb, e.1 ≠ w) ∧
    ∀ j ∈ s.jettonsOf w, (t.jetton j).rtag = false ∧ (t.jetton j).root = .null := by
  have hj := fun j => State.foldl_modJetton_jetton (f := fun x => { x with root := .null, rtag := false }) (fun _ => rfl)
    (s.jettonsOf w) (s.untranslated w) j
  obtain ⟨js, hjs⟩ := State.foldl_modJetton_eq (fun x => { x with root := .null, rtag := false }) (s.jettonsOf w) (s.untranslated w)
  rw [State.invalidateWorld_eq]
  refine ⟨by rw [hjs]; rfl, by rw [hjs]; rfl, ?_, fun e he => ?_, fun j hm => ?_⟩
  · rw [hjs]
    exact State.modWorld_world? hx (f := fun x => { x with ranges := Vector.replicate 16 0, ptroot := 0 }) fun _ => rfl
  · rw [hjs] at he
    exact bne_iff_ne.mp (List.mem_filter.mp he).2
  · rw [hj j, if_pos hm]
    exact ⟨rfl, rfl⟩

/-! #### Steps 4 and 5: keys and cores -/

theorem State.flrStep_erase (s : State) (w : Nat) : s.flrStep w 4 = (s.eraseKeys w).flrGoes w 5 1 := rfl

theorem State.flrStep_scrub (s : State) (w : Nat) : s.flrStep w 5 = (s.startScrub w).flrGoes w 6 (s.scrubSpan w) := rfl

/-- A core whose scrub starts in cycle `now`. -/
def Core.scrubbed (now : Nat) (c : Core) : Core := { c with scrubEnd := some (now + scrubTime c.shared - 1) }

theorem State.startScrub_coresOnly (s : State) (w : Nat) : CoresOnly s (s.startScrub w) :=
  CoresOnly.foldl_modCore (fun s => Core.scrubbed s.tb) _ s

theorem State.startScrub_getCore {s : State} {w i : Nat} (h : i ∈ s.coresLast w) :
    ((s.startScrub w).getCore i).scrubEnd = some (s.tb + scrubTime (s.getCore i).shared - 1) := by
  have hstart : s.startScrub w = (s.coresLast w).foldl (fun (t : State) k => t.modCore k (Core.scrubbed s.tb)) s :=
    State.foldl_modCore_tb Core.scrubbed _ s
  rw [hstart, State.foldl_modCore_getCore (g := Core.scrubbed s.tb) fun _ => rfl, if_pos h]
  rfl

theorem scrubTime_le (shared : BitVec 4) : scrubTime shared ≤ 5888 := by
  have := List.length_filter_le (fun q => !shared.getLsbD q) (List.range 4)
  rw [List.length_range] at this
  unfold scrubTime
  omega

/-- The longest of some times, none below `n`. -/
theorem foldl_max_spec {α : Type} (f : α → Nat) (l : List α) (n : Nat) :
    n ≤ l.foldl (fun n a => max n (f a)) n ∧ (∀ a ∈ l, f a ≤ l.foldl (fun n a => max n (f a)) n) ∧
    ∀ m, n ≤ m → (∀ a, f a ≤ m) → l.foldl (fun n a => max n (f a)) n ≤ m := by
  induction l generalizing n with
  | nil => exact ⟨Nat.le_refl n, fun a ha => absurd ha List.not_mem_nil, fun m hm _ => hm⟩
  | cons b l ih =>
    obtain ⟨hn, hall, hle⟩ := ih (max n (f b))
    refine ⟨(Nat.le_max_left ..).trans hn, fun a ha => ?_, fun m hm hf => hle m (Nat.max_le.mpr ⟨hm, hf b⟩) hf⟩
    rcases List.mem_cons.mp ha with rfl | ha
    · exact (Nat.le_max_right ..).trans hn
    · exact hall a ha

theorem State.scrubSpan_le (s : State) (w : Nat) : s.scrubSpan w ≤ 5888 :=
  (foldl_max_spec (fun i => scrubTime (s.getCore i).shared) (s.coresLast w) 1).2.2 5888 (by decide) fun _ => scrubTime_le _

theorem State.le_scrubSpan {s : State} {w i : Nat} (h : i ∈ s.coresLast w) : scrubTime (s.getCore i).shared ≤ s.scrubSpan w :=
  (foldl_max_spec (fun i => scrubTime (s.getCore i).shared) (s.coresLast w) 1).2.1 i h

/-! #### The end of step 5: a scan awaited, derived state, the key slot -/

theorem State.flrStep_scan {s : State} {w : Nat} (h : s.scanAwaited w = true) : s.flrStep w 6 = s.flrGoes w 6 1 := if_pos h

theorem State.flrStep_keys {s : State} {w : Nat} (h : s.scanAwaited w = false) : s.flrStep w 6 = (s.endScrub w).flrGoes w 7 1 :=
  if_neg (by rw [h]; exact Bool.false_ne_true)

/-- A core with nothing of a confidential task's left in its vector column and its fault registers (R354). -/
def Core.underived (c : Core) : Core :=
  { c with
    vec := { c.vec with dq := [], qrd := 0, qwr := 0 }
    sys := { c.sys with fcause := 0, fpc := 0, faddr := 0, finfo := 0 } }

theorem State.scrubDerived_spec (s : State) (w : Nat) : let t := s.scrubDerived w
    t.mem = s.mem ∧ t.tb = s.tb ∧ t.worlds = s.worlds ∧ t.nextId = s.nextId ∧ (∀ c ∈ t.eng.copies, c.world ≠ w) ∧
    ∀ i ∈ s.coresLast w, (t.getCore i).vec.dq = [] ∧ (t.getCore i).sys.fcause = 0 := by
  have hcores : CoresOnly s ((s.coresLast w).foldl (fun (s : State) i => s.modCore i Core.underived) s) :=
    CoresOnly.foldl_modCore (fun _ => Core.underived) _ s
  have hget := State.foldl_modCore_getCore (g := Core.underived) (fun _ => rfl) (s.coresLast w) s
  have hnext : ((s.coresLast w).foldl (fun (s : State) i => s.modCore i Core.underived) s).nextId = s.nextId :=
    (congrArg State.nextId hcores.eq :)
  refine ⟨hcores.mem, hcores.tb, hcores.worlds, hnext, fun c hc => bne_iff_ne.mp (List.mem_filter.mp hc).2, fun i hi => ?_⟩
  have hi := (hget i).trans (if_pos hi)
  exact ⟨congrArg (·.vec.dq) hi, congrArg (·.sys.fcause) hi⟩

/-- The key slot is cleared after what is derived, where the world is confidential (R353, R354). -/
theorem State.endScrub_spec {s : State} {w : Nat} {x : World} (hx : s.world? w = some x) : let t := s.endScrub w
    t.mem = s.mem ∧ t.tb = s.tb ∧ t.world? w = some { x with keyed := false, keyGen := s.nextId } ∧
    (x.conf = true → (∀ c ∈ t.eng.copies, c.world ≠ w) ∧
      ∀ i ∈ s.coresLast w, (t.getCore i).vec.dq = [] ∧ (t.getCore i).sys.fcause = 0) := by
  have hclear {u : State} (hw : u.worlds = s.worlds) (hn : u.nextId = s.nextId) :
      (u.clearKeySlot w).world? w = some { x with keyed := false, keyGen := s.nextId } := by
    have hu : State.world? { u with nextId := u.nextId + 1 } w = some x := (State.world?_congr hw w).trans hx
    rw [← hn]
    exact State.modWorld_world? hu fun _ => rfl
  have hconf : ((s.world? w).map (·.conf)).getD false = x.conf := by
    rw [hx]
    rfl
  unfold State.endScrub
  rw [hconf]
  by_cases hc : x.conf = true
  · obtain ⟨hmem, htb, hworlds, hnext, hcopies, hcores⟩ := s.scrubDerived_spec w
    rw [if_pos hc]
    exact ⟨hmem, htb, hclear hworlds hnext, fun _ => ⟨hcopies, hcores⟩⟩
  · rw [if_neg hc]
    exact ⟨rfl, rfl, hclear rfl rfl, fun h => absurd h hc⟩

end Sys2Proof.Machine
end

section
namespace Sys2Proof.Machine
open Sys2Proof

/-! #### Step 6 of Table 15.10: what the world held goes back -/

/-- A core of a world that is over, in no world and with nothing under way. -/
def Core.returned (c : Core) : Core :=
  { c with iss := { Core.reset.iss with status := .free, run := c.iss.run }, owner := none, scrubEnd := none }

/-- The engines without what a world had in them. -/
def Engines.withoutWorld (e : Engines) (w : Nat) (maps : List (List Byte)) : Engines :=
  { e with
    prefixes := e.prefixes.filter (·.world != w)
    ways := e.ways.filter (·.world != w)
    segments := e.segments.map fun g => { g with maps := g.maps - (maps.filter (· == g.digest)).length }
    copies := e.copies.filter (·.world != w)
    lands := e.lands.filter fun l => e.copies.any fun c => c.id == l.copy && c.world != w
    homes := e.homes.filter (·.actsFor != w)
    pcmds := e.pcmds.filter (·.world != w)
    queues := e.queues.map fun (k, q) => if q.world == w && q.held then (k, { CmdQueue.reset with held := true, world := w }) else (k, q) }

/-- The cores of a world go back to the pool. -/
def State.returnCores (s : State) (w : Nat) : State :=
  (s.coresLast w).foldl (fun (s : State) i => (s.modCore i Core.returned).modDisp (·.leave (s.getCore i).bnd.jetton i)) s

/-- A jetton of a world that is over. -/
def Jetton.returned (w : Nat) (x : Jetton) : Jetton := { Jetton.reset with world := w, held := x.held }

/-- The jettons of a world are FREE. -/
def State.returnJettons (s : State) (w : Nat) : State :=
  (s.jettonsOf w).foldl (fun (s : State) j => s.modJetton j (Jetton.returned w)) s

theorem State.returnWorld_eq (s : State) (w : Nat) : s.returnWorld w =
    let u := (((s.modEng (·.withoutWorld w (((s.prefix_ w).weights).map (·.2)))).returnCores w).returnJettons w).modWorld w fun x =>
      { x with frames := [], stopped := false, flr := none }
    ({ u with funcs := u.funcs.map fun (f : Func) => if f.world == w then { f with frozen := false } else f } : State).say (.flrDone w) := rfl

theorem State.returnCores_leaves (s : State) (w : Nat) : let t := s.returnCores w
    t.mem = s.mem ∧ t.eng = s.eng ∧ t.worlds = s.worlds ∧ t.out = s.out ∧ t.disp.jettons = s.disp.jettons := by
  refine List.foldlRecOn (motive := fun t : State =>
    t.mem = s.mem ∧ t.eng = s.eng ∧ t.worlds = s.worlds ∧ t.out = s.out ∧ t.disp.jettons = s.disp.jettons) (s.coresLast w) _
    ⟨rfl, rfl, rfl, rfl, rfl⟩ fun t ⟨hmem, heng, hworlds, hout, hjettons⟩ i _ => ?_
  have hcore : CoresOnly t (t.modCore i Core.returned) := .modCore t i _
  exact ⟨hcore.mem.trans hmem, hcore.eng.trans heng, hcore.worlds.trans hworlds, (congrArg State.out hcore.eq :).trans hout,
    (congrArg Dispatch.jettons hcore.disp :).trans hjettons⟩

/-- A jetton of the world is FREE once its jettons are returned. -/
theorem State.returnJettons_free {s : State} {w k : Nat} (h : ((s.returnJettons w).jetton k).world = w) :
    ((s.returnJettons w).jetton k).state = .free := by
  have hk : (s.returnJettons w).jetton k = if k ∈ s.jettonsOf w then (s.jetton k).returned w else s.jetton k :=
    State.foldl_modJetton_jetton (f := Jetton.returned w) (fun _ => rfl) _ s k
  rw [hk] at h ⊢
  by_cases hm : k ∈ s.jettonsOf w
  · rw [if_pos hm]
    rfl
  · rw [if_neg hm] at h ⊢
    by_contra hfree
    exact hm (h ▸ State.mem_jettonsOf hfree)

theorem State.returnWorld_spec {s : State} {w : Nat} {x : World} (hx : s.world? w = some x) : let t := s.returnWorld w
    t.mem = s.mem ∧ (∀ k, (t.jetton k).world = w → (t.jetton k).state = .free) ∧ (∀ q ∈ t.eng.prefixes, q.world ≠ w) ∧
    (∀ c ∈ t.eng.copies, c.world ≠ w) ∧ t.out = s.out ++ [.flrDone w] ∧
    t.world? w = some { x with frames := [], stopped := false, flr := none } := by
  obtain ⟨hmem, heng, hworlds, hout, -⟩ := (s.modEng (·.withoutWorld w (((s.prefix_ w).weights).map (·.2)))).returnCores_leaves w
  rw [State.returnWorld_eq]
  generalize (s.modEng (·.withoutWorld w (((s.prefix_ w).weights).map (·.2)))).returnCores w = u at hmem heng hworlds hout ⊢
  have hfree := fun k => State.returnJettons_free (s := u) (w := w) (k := k)
  obtain ⟨js, hjs⟩ : ∃ js, u.returnJettons w = u.withJettons js := State.foldl_modJetton_eq (Jetton.returned w) (u.jettonsOf w) u
  rw [hjs] at hfree ⊢
  refine ⟨hmem, hfree, fun q hq => ?_, fun c hc => ?_, congrArg (· ++ [Out.flrDone w]) hout, ?_⟩
  · have hq : q ∈ u.eng.prefixes := hq
    rw [heng] at hq
    exact bne_iff_ne.mp (List.mem_filter.mp hq).2
  · have hc : c ∈ u.eng.copies := hc
    rw [heng] at hc
    exact bne_iff_ne.mp (List.mem_filter.mp hc).2
  · exact State.modWorld_world? (s := u.withJettons js) ((State.world?_congr hworlds w).trans hx)
      (f := fun x => { x with frames := [], stopped := false, flr := none }) fun _ => rfl

section
variable {s : State} {w : Nat} {x : World} (hx : s.world? w = some x)
include hx

/-- A world of which no DESTROY is under way stands on with nothing. -/
theorem State.flrStep_return (h : x.destroy = none) : s.flrStep w 7 = s.returnWorld w := by
  obtain ⟨-, -, -, -, -, hw⟩ := State.returnWorld_spec hx
  simp only [State.flrStep, hw, Option.bind_some, h]

/-- A world whose DESTROY awaited its FLR is gone, and the DESTROY is answered. -/
theorem State.flrStep_destroy {p : PCmd} (h : x.destroy = some p) :
    s.flrStep w 7 = (s.counted ((s.returnWorld w).dropWorld w)).respond p 0 0 := by
  obtain ⟨-, -, -, -, -, hw⟩ := State.returnWorld_spec hx
  simp only [State.flrStep, hw, Option.bind_some, h, State.answer_counted]
end

theorem State.dropWorld_world? (s : State) (w : Nat) : (s.dropWorld w).world? w = none := by
  refine List.find?_eq_none.mpr fun x hx => ?_
  have hne := (List.mem_filter.mp hx).2
  simpa using hne

/-! ### DESTROY (R390) -/

/-- The arguments of a DESTROY as Table 19.5 admits them. -/
@[reducible] def plainArgs (p : PCmd) : Prop := p.a = 0 ∧ p.b = 0 ∧ p.c = 0 ∧ p.kind = 0

section
variable {s : State} {p : PCmd} {x : World}

theorem exec_destroy_refused {e : Nat} (h : s.pfWorld p = .error e) : exec (.destroy p) s = .next (s.respond p e 0) := by
  show execDestroy p s = _
  rw [execDestroy, h]

/-- The world that awaits its FLR for a DESTROY. -/
def State.destroying (s : State) (p : PCmd) : State := s.modWorld p.world.toNat fun x => { x with destroy := some p }

theorem exec_destroy (h : p.fn = 0) (hx : s.world? p.world.toNat = some x) : exec (.destroy p) s = .next (
    if 256 ≤ p.world.toNat ∨ ¬ plainArgs p then s.respond p 5 0
    else if x.flr ≠ none then s.destroying p else (s.destroying p).flrStep p.world.toNat 1) := by
  show execDestroy p s = _
  rw [execDestroy, State.pfWorld_some h hx]
  dsimp only
  rw [State.wid_of_world? hx]
  refine congrArg Host.Outcome.next (if_congr ?_ rfl (if_congr (by simp [Option.isSome_iff_ne_none]) rfl rfl))
  simp only [Bool.or_eq_true, decide_eq_true_eq, bne_iff_ne, plainArgs, not_and_or, or_assoc, ne_eq]

theorem State.destroying_world? (hx : s.world? p.world.toNat = some x) :
    (s.destroying p).world? p.world.toNat = some { x with destroy := some p } :=
  State.modWorld_world? hx fun _ => rfl
end

end Sys2Proof.Machine
end

section
namespace Sys2Proof.Machine
open Sys2Proof

/-! ### Commands of the PF by their clauses (R390 to R392) -/

/-- A command that is refused: a status, and nothing changed but the response. -/
def Refused (s : State) (p : PCmd) (i : Instr) (st : Nat) : Prop := exec i s = .next (s.respond p st 0)

section
variable {s : State} {p : PCmd}

theorem refused_create_denied (h : p.fn ≠ 0) : Refused s p (.create p) 7 :=
  (exec_create s p).trans (by rw [if_pos h, State.answer_error])

theorem refused_create_badArg (h : p.fn = 0) (hm : ¬ makesWorld p) : Refused s p (.create p) 5 :=
  (exec_create s p).trans (by rw [if_neg (not_not.mpr h), if_pos hm, State.answer_error])

theorem refused_create_exists (h : p.fn = 0) (hm : makesWorld p) (hw : s.world? p.world.toNat ≠ none) : Refused s p (.create p) 1 :=
  (exec_create s p).trans (by rw [if_neg (not_not.mpr h), if_neg (not_not.mpr hm), if_pos hw, State.answer_error])

theorem exec_create_made (h : p.fn = 0) (hm : makesWorld p) (hw : s.world? p.world.toNat = none) :
    exec (.create p) s = .next ((s.created p).respond p 0 0) :=
  (exec_create s p).trans (by
    rw [if_neg (not_not.mpr h), if_neg (not_not.mpr hm), if_neg (not_not.mpr hw), State.answer_ok])

theorem refused_grant {e : Nat} (h : s.onItems p (s.grants p) = .error e) : Refused s p (.grant p) e :=
  (exec_grant s p).trans (by rw [h, State.answer_error])

theorem refused_revoke {e : Nat} (h : s.onItems p (s.revokes p) = .error e) : Refused s p (.revoke p) e :=
  (exec_revoke s p).trans (by rw [h, State.answer_error])

variable {x : World} (h : p.fn = 0) (hx : s.world? p.world.toNat = some x)
include h hx

theorem exec_destroy_begun (hw : p.world.toNat < 256) (hp : plainArgs p) (hf : x.flr = none) :
    exec (.destroy p) s = .next ((s.destroying p).flrStep p.world.toNat 1) := by
  rw [exec_destroy h hx, if_neg, if_neg (not_not.mpr hf)]
  rintro (hge | hnot)
  · omega
  · exact hnot hp

variable (hn : namesItems p)
include hn

/-- GRANT of items that nobody holds, within the kind's bound. -/
theorem exec_grant_given (hfree : ∀ i ∈ itemsOf p, s.itemWorld p.kind.toNat i = none)
    (hmax : s.amount x p.kind.toNat + p.b.toNat ≤ kindMax p.kind.toNat) :
    exec (.grant p) s = .next ((s.counted ((itemsOf p).foldl (fun (s : State) i => s.giveItem p.world.toNat p.kind.toNat i) s)).respond p 0 0) :=
  (exec_grant s p).trans (by
    rw [State.onItems_named h hx hn, State.grants_free hfree, if_neg (by omega), State.wid_of_world? hx, State.answer_counted])

/-- REVOKE of items that the world holds and none of which is in use. -/
theorem exec_revoke_taken (hown : ∀ i ∈ itemsOf p, s.itemWorld p.kind.toNat i = some p.world.toNat)
    (hidle : ∀ i ∈ itemsOf p, s.itemBusy p.kind.toNat i = false) :
    exec (.revoke p) s = .next ((s.counted ((itemsOf p).foldl (fun (s : State) i => s.takeItem p.kind.toNat i) s)).respond p 0 0) :=
  (exec_revoke s p).trans (by
    rw [State.onItems_named h hx hn, State.revokes_own (by rwa [State.wid_of_world? hx]), if_neg, State.answer_counted]
    intro hany
    obtain ⟨i, hi, hbusy⟩ := List.any_eq_true.mp hany
    rw [hidle i hi] at hbusy
    exact Bool.false_ne_true hbusy)
end

end Sys2Proof.Machine
end

section
namespace Sys2Proof.Machine
open Sys2Proof

/-- Settles O48: each command by its checks in their order and by the state that it leaves, each step of an FLR by what its own
operation leaves before the next step is set. -/
theorem worldsAreMadeAndReset : Obligations.WorldsAreMadeAndReset := by
  unfold Obligations.WorldsAreMadeAndReset
  refine ⟨fun s p => ?_, fun s x i j _ => ?_⟩
  · intro w kind lo n refuses plain makes named item
    refine ⟨fun h => ?_, fun h hm => refused_create_badArg h hm, fun h hm hw => refused_create_exists h hm hw, fun h hm hw => ?_,
      fun h hw => ?_, fun x h hx => ?_, fun st v hnone => ?_, fun f st v hf hon => ?_⟩
    · exact ⟨refused_create_denied h, exec_destroy_refused (State.pfWorld_denied h), refused_grant (State.onItems_denied h),
        refused_revoke (State.onItems_denied h)⟩
    · exact ⟨_, _, exec_create_made h hm hw, rfl, State.created_world?_self hw, rfl, rfl, State.newWorld_scopemax s p, rfl, rfl, rfl, rfl,
        rfl, rfl, fun v hv => State.created_world?_ne hv⟩
    · exact ⟨exec_destroy_refused (State.pfWorld_none h hw), refused_grant (State.onItems_noWorld h hw),
        refused_revoke (State.onItems_noWorld h hw)⟩
    · have hwid : x.wid = w := State.wid_of_world? hx
      have hitem {i : Nat} : i ∈ itemsOf p ↔ item i := mem_itemsOf
      refine ⟨fun hbad => ?_, fun hw hplain hflr => ?_, fun hn => ?_, fun hn ⟨i, hi, hheld⟩ => ?_, fun hn hfree hmax => ?_,
        fun hn hfree hmax => ?_, fun hn ⟨i, hi, hne⟩ => ?_, fun hn hown ⟨i, hi, hbusy⟩ => ?_, fun hn hown => ?_⟩
      · exact (exec_destroy h hx).trans (congrArg _ (if_pos hbad))
      · obtain ⟨hmem, hworld, hstopped⟩ := State.flrStep_admission_spec (State.destroying_world? hx)
        exact ⟨_, _, exec_destroy_begun h hx hw hplain hflr, hmem, hworld, rfl, rfl, rfl, hstopped⟩
      · exact ⟨refused_grant (State.onItems_unnamed h hx hn), refused_revoke (State.onItems_unnamed h hx hn)⟩
      · exact refused_grant ((State.onItems_named h hx hn).trans (State.grants_exists ⟨i, hitem.mpr hi, hheld⟩))
      · exact refused_grant ((State.onItems_named h hx hn).trans
          ((State.grants_free fun i hi => hfree i (hitem.mp hi)).trans (if_pos hmax)))
      · have hfree : ∀ i ∈ itemsOf p, s.itemWorld kind i = none := fun i hi => hfree i (hitem.mp hi)
        obtain ⟨hmem, hcore, hworlds⟩ := State.giveItems_leaves w kind (itemsOf p) s
        refine ⟨_, exec_grant_given h hx hn hfree hmax, hmem, hcore, hworlds, fun i hi => ?_⟩
        rw [State.giveItems_itemWorld (itemKind_of_namesItems hn) w (fun i hi => itemsOf_lt hn hi) (itemsOf_nodup p) s hfree,
          if_pos (hitem.mpr hi)]
      · exact refused_revoke ((State.onItems_named h hx hn).trans (State.revokes_foreign ⟨i, hitem.mpr hi, by rwa [hwid]⟩))
      · exact refused_revoke ((State.onItems_named h hx hn).trans
          ((State.revokes_own fun i hi => by rw [hwid]; exact hown i (hitem.mp hi)).trans
            (if_pos (List.any_eq_true.mpr ⟨i, hitem.mpr hi, hbusy⟩))))
      · exact exec_revoke_taken h hx hn (fun i hi => (hown i (hitem.mp hi)).1) fun i hi => (hown i (hitem.mp hi)).2
    · refine ⟨?_, State.respond_mem .., State.respond_worlds .., fun f hf hfn => State.mem_respond_funcs st v hf hfn⟩
      rw [State.respond_out, State.tells_nothing st v hnone, List.append_nil]
      rfl
    · refine ⟨responseBytes p st v, ?_⟩
      rw [State.respond_out, State.tells_vector st v hf hon, List.append_assoc]
      rfl
  · intro w hx runs goes
    have goesOn {u : State} {y : World} (hu : u.world? w = some y) (htb : u.tb = s.tb) (k d : Nat) : goes (u.flrGoes w k d) k d :=
      ⟨_, State.flrGoes_world? hu k d, congrArg (fun n => some (k, n + d)) htb⟩
    refine ⟨fun k c hf hc => exec_flr_wait hx hf hc, fun hf => ?_, fun hf => ?_, fun hf => ?_, fun hf => ?_, fun hf => ?_,
      fun hscan hf => ?_, fun hscan hf => ?_, fun hd hf => ?_, fun p hd hf => ?_⟩
    · obtain ⟨hmem, hworld, hstopped⟩ := State.flrStep_admission_spec hx
      exact ⟨_, _, exec_flr_begin hx hf, hmem, hworld, rfl, rfl, hstopped j⟩
    · obtain ⟨hmem, htb, hworlds, hfrozen, hrest⟩ := s.freezeWorld_spec w
      have hexec := exec_flr_step hx hf
      rw [State.flrStep_freeze] at hexec
      exact ⟨_, hexec, goesOn ((State.world?_congr hworlds w).trans hx) htb 3 1, hmem, hfrozen i j, hrest⟩
    · obtain ⟨hmem, htb, hworld, htlb, hroot⟩ := State.invalidateWorld_spec hx
      have hexec := exec_flr_step hx hf
      rw [State.flrStep_invalidate] at hexec
      refine ⟨_, hexec, goesOn hworld htb 4 1, hmem, htlb, hroot j, fun y hy => ?_⟩
      rw [State.flrGoes_world? hworld] at hy
      obtain rfl := Option.some.inj hy
      exact ⟨rfl, rfl⟩
    · have hexec := exec_flr_step hx hf
      rw [State.flrStep_erase] at hexec
      exact ⟨_, hexec, goesOn (u := s.eraseKeys w) hx rfl 5 1, fun l hl => bne_iff_ne.mp (List.mem_filter.mp hl).2, rfl⟩
    · have hcores := s.startScrub_coresOnly w
      have hexec := exec_flr_step hx hf
      rw [State.flrStep_scrub] at hexec
      exact ⟨_, hexec, hcores.mem, _, goesOn ((State.world?_congr hcores.worlds w).trans hx) hcores.tb 6 _, s.scrubSpan_le w,
        fun hi => ⟨State.le_scrubSpan hi, State.startScrub_getCore hi⟩⟩
    · have hexec := exec_flr_step hx hf
      rw [State.flrStep_scan hscan] at hexec
      exact ⟨_, hexec, goesOn hx rfl 6 1, rfl, rfl, rfl, rfl⟩
    · obtain ⟨hmem, htb, hworld, hconf⟩ := State.endScrub_spec hx
      have hexec := exec_flr_step hx hf
      rw [State.flrStep_keys hscan] at hexec
      refine ⟨_, hexec, goesOn hworld htb 7 1, hmem, fun y hy => ?_, fun hc => ⟨(hconf hc).1, (hconf hc).2 i⟩⟩
      rw [State.flrGoes_world? hworld] at hy
      obtain rfl := Option.some.inj hy
      exact ⟨rfl, rfl⟩
    · obtain ⟨hmem, hfree, hprefixes, hcopies, hout, hworld⟩ := State.returnWorld_spec hx
      have hexec := exec_flr_step hx hf
      rw [State.flrStep_return hx hd] at hexec
      refine ⟨_, hexec, hmem, hfree, hprefixes, hcopies, hout, fun y hy => ?_⟩
      rw [hworld] at hy
      obtain rfl := Option.some.inj hy
      exact ⟨rfl, rfl⟩
    · obtain ⟨hmem, -⟩ := State.returnWorld_spec hx
      obtain ⟨n, hcounted⟩ := s.counted_eq ((s.returnWorld w).dropWorld w)
      have hexec := exec_flr_step hx hf
      rw [State.flrStep_destroy hx hd, hcounted] at hexec
      refine ⟨_, hexec, ?_, ?_, fun f hf hfn => State.respond_held 0 0 hf hfn, responseBytes p 0 0, ?_⟩
      · rw [State.respond_mem]
        exact hmem
      · exact (State.world?_congr (State.respond_worlds ..) w).trans ((s.returnWorld w).dropWorld_world? w)
      · rw [State.respond_out]
        simp

end Sys2Proof.Machine
end
